-- ==== Sys2Proof/Word.lean ====
section
/-! DEFINITION. The word types of the IDV-4800 and the plain enumerations that number its resources (00 Table 0.2). -/
namespace Sys2Proof

/-- A byte of memory or of a payload. -/
abbrev Byte := BitVec 8

/-- An atelier address (07 R244). -/
abbrev Addr := BitVec 64

/-- The two PCI Express ports (00 Table 0.2). -/
inductive Port where
  | A
  | B
  deriving DecidableEq, Repr, Inhabited

/-- A partition number (07 R249: 0 to 3). -/
abbrev Part := Fin 4

/-- A logical easel index, 16 p + e (01 R21). -/
abbrev Easel := Fin 768

/-- A panel number (01 R18). -/
abbrev Panel := Fin 48

/-- A link number (01 R29). -/
abbrev Link := Fin 96

/-- An engine queue number (06 Table 6.12; varnish queues 1,728 to 1,743, 11 R387). -/
abbrev QueueId := Fin 1744

/-- A machine coordinate site.pod.hedge.slot (00 R5, 01 R39). -/
structure Coord where
  site  : BitVec 3
  pod   : BitVec 4
  hedge : BitVec 6
  slot  : BitVec 4
  deriving DecidableEq, Repr, Inhabited

/-- The status codes of 00 Table 0.5, the complete list (R14). -/
inductive Status where
  | ok | pending
  | mbxBusy | badOpcode | notOwner | booting | imageMajor
  | align | bounds | overlap | fieldReserved | indexRange | rank | checkTile
  | rangeViolation | nonfinite
  | linkNotReady | linkQuarantine | protocolMismatch
  | collOrder | queueExhausted | routeConflict | groupAbi
  | wetWrite | smudged | dupMismatch | wet
  | hang | resetEscalated
  | powerLimit | sensorSuspect
  | auth | alarm
  deriving DecidableEq, Repr, Inhabited

end Sys2Proof
end

