-- ==== Sys2Proof/Syntax.lean ====
section
/-! DEFINITION. The commands of the IDV-4800: one constructor of Instr per row of spec/opcode_table.json, with the operands a row carries. -/
namespace Sys2Proof

/-- A wet-epoch tag: step number [31:0] and epoch number (06 Table 6.5). -/
structure Tag where
  step  : BitVec 32
  epoch : BitVec 8
  deriving DecidableEq, Repr, Inhabited

/-- A packet: the 32-byte header of 08 Table 8.6 and its data bytes (32 × LENGTH of them). -/
structure Packet where
  op     : BitVec 8
  flags  : BitVec 8
  length : BitVec 16
  dest   : BitVec 32
  src    : BitVec 32
  job    : BitVec 16
  txn    : BitVec 16
  addr   : Addr
  status : BitVec 16
  hops   : BitVec 8
  resv   : BitVec 40
  data   : List Byte
  deriving DecidableEq, Repr, Inhabited

/-- Who makes an access (07 Table 7.6, R249): the management processor, the checkpoint engine, a
varnish unit, the link logic, an engine of a partition, a host through a port with a segment's job,
another module's request with its job. -/
inductive Agent where
  | ovind
  | ckpt
  | varnish
  | linkLogic
  | engine (part : Part)
  | host (port : Port) (job : BitVec 16)
  | remote (job : BitVec 16)
  deriving DecidableEq, Repr, Inhabited

/-- Bits that have flipped in one stored byte (07 R232, R235): the byte at a raw address of an LPDDR5X channel, data or check
byte of its raw group; byte 0 to 35 of the codeword of a glaze word (its number is its offset in the panel's glaze / 32). -/
inductive Upset where
  | lpddr (channel : Fin 64) (raw : Nat) (flip : Byte)
  | glaze (panel : Panel) (word : Nat) (byte : Fin 36) (flip : Byte)
  deriving DecidableEq, Repr, Inhabited

/-- The error that a 36-byte codeword takes on the on-package path, on its first transfer and on a retry (07 R235, R236, R240). -/
structure PathErr where
  first : List Byte := []
  retry : List Byte := []
  deriving DecidableEq, Repr, Inhabited

/-- What another module answers for one 32-byte word (07 R260). -/
inductive RemoteAns where
  | data (w : BitVec 256)
  | failed (st : Status)
  deriving DecidableEq, Repr, Inhabited

/-- What the surroundings bring to a command that touches memory: bits that have flipped in stored words since the last
access, errors on the on-package path by word number, and the answers of other modules by word address (a read with no
answer listed gets none within 20 ms; a write with none listed is acknowledged). -/
structure Env where
  upsets : List Upset := []
  path   : List (Nat × PathErr) := []
  remote : List (Addr × RemoteAns) := []
  deriving DecidableEq, Repr, Inhabited

/-- A virtual channel: 0 QS, 1 MGMT, 2 DATA, 3 TRANSIT (08 Table 8.4). -/
abbrev Vc := Fin 4

/-- A flit as it arrives (08 Table 8.3): its 256 bytes as received, what the FEC found, whether the consumers of its VC wait. -/
structure FlitIn where
  bytes : List Byte
  /-- It lies in an uncorrectable codeword (R270). -/
  uncorrectable : Bool := false
  /-- Uncorrectable codewords that end with this flit. -/
  codewords : BitVec 8 := 0
  /-- FEC symbols corrected on lanes 0 to 3 since the flit before it. -/
  symbols : List Nat := []
  /-- The VC's receive buffer does not drain (its consumers wait). -/
  stalled : Bool := false
  deriving DecidableEq, Repr, Inhabited

/-- The steps of a key agreement in MGMT_MSG packets (08 R303): the sender's offer, the receiver's reply, the switch points. -/
inductive KeyStage where
  | offer | reply | confirm
  deriving DecidableEq, Repr, Inhabited

/-- A key-agreement message: its step, the ephemeral point (64 bytes), for each VC the absolute sequence number from which the
new key applies. -/
structure KeyMsg where
  stage  : KeyStage
  point  : List Byte := []
  points : List (BitVec 62) := []
  deriving DecidableEq, Repr, Inhabited

/-- An IDENT payload (08 Table 8.10). -/
structure Ident where
  linkIndex : BitVec 16
  coord     : BitVec 32
  serial    : BitVec 128
  protoMask : BitVec 16
  collAbi   : BitVec 16
  fwMajor   : BitVec 16
  laneMask  : BitVec 8
  flags     : BitVec 8
  session   : BitVec 64
  nonce     : BitVec 128
  peerNonce : BitVec 128
  mapGen    : BitVec 16
  format    : BitVec 16 := 1
  /-- Far: SM2 ephemeral public key, x then y, and the signature over bytes 0 to 139. -/
  kexPoint  : List Byte := []
  sig       : List Byte := []
  deriving DecidableEq, Repr, Inhabited


/-- What an easel's counters see of an activity: its cycles, term slots, back-starved slots, and for event codes of
16 Table 16.4 the sum of the values and the number of rises from 0. -/
structure Activity where
  cycles : Nat := 0
  terms  : Nat := 0
  back   : Nat := 0
  events : List (Nat × Nat × Nat) := []
  deriving DecidableEq, Repr, Inhabited


/-- A module's role (01 Table 1.7): a pod manager is a hedge manager too, the machine manager both. -/
inductive Role where
  | worker | hedge | pod | machine | spare
  deriving DecidableEq, Repr, Inhabited

/-- Management messages (MGMT_MSG packets) that rules name. -/
inductive Mgmt where
  | resetNotice | ready | wake | dormant | degraded | lossReport | lostQuery | rollbackRequest | rollback
  | ckptBegin | ckptReport | ckptCommit | ckptAsk | tpkStatus | substitute | takeover | groupCreate | groupRelease
  | jobStop | stepLog | spareWake | lostAnswer
  deriving DecidableEq, Repr, Inhabited

/-- Where the largest scale exponent of a node's operand comes from (03 Table 3.5). -/
inductive ScaleSrc where
  | current
  | dry
  | declared (byte : BitVec 8)
  | carried
  | seed
  deriving DecidableEq, Repr, Inhabited

/-- An operand of a node: its type, its split (0, 2 for S2, 3 for S3), the source of its largest scale exponent, its census
record and tensor descriptor, whether the tensor is of distributed class. -/
structure NodeOperand where
  type        : BitVec 8
  split       : BitVec 8 := 0
  source      : ScaleSrc
  census      : Addr
  td          : Addr
  distributed : Bool := true
  deriving DecidableEq, Repr, Inhabited

/-- A node of a graph image, as far as Ovind's own rules read it (03 R92 to R121). -/
structure GraphNode where
  node     : BitVec 32
  /-- Position of its epoch in the step. -/
  epoch    : Nat
  /-- Addresses of its operations' descriptors. -/
  ops      : List Addr := []
  tensorId : BitVec 32
  /-- The mode code of its array operations (04 Table 4.4), 6 for an EXPERT_COMBINE (operands: gate, expert output). -/
  mode     : BitVec 8 := 0
  /-- Its anchor table, ENTRIES, Ktotal, the wire code of its own width; `reducible` by profile. -/
  table    : Addr
  entries  : BitVec 32
  ktotal   : BitVec 32
  wire     : BitVec 8
  reducible : Bool
  /-- The SEED table that the image holds for step 0 (R102). -/
  seed     : Option (List Byte) := none
  a        : NodeOperand
  b        : NodeOperand
  /-- Layer guard: on or off, the output's census record, whether the output is distributed, limits. -/
  guarded  : Bool
  census   : Addr
  distributed : Bool := true
  nfLimit  : BitVec 32
  satLimit : BitVec 32
  /-- The output's formats by format step, each with its descriptor (03 Table 3.11), and the fields of its operations'
  descriptors that name the output descriptor. -/
  formats  : List (BitVec 8 × Addr)
  outRefs  : List Addr := []
  deriving DecidableEq, Repr, Inhabited

/-- The scalars of a varnish parameter set as the graph image's schedule gives them, and the descriptor of the FP32 scalar tensor
that GSCALE is read from (`none`: 1.0) (11 R389). -/
structure VarSet where
  lr     : BitVec 32
  wd     : BitVec 32
  beta1  : BitVec 32
  beta2  : BitVec 32
  eps    : BitVec 32
  gscale : Option Addr := none
  deriving DecidableEq, Repr, Inhabited

/-- A graph image as far as Ovind's own rules read it. -/
structure GraphImage where
  imageId   : BitVec 32 := 0
  major     : BitVec 16 := 0
  /-- Wet epochs of a step (10 R348). -/
  epochs    : Nat := 1
  nodes     : List GraphNode := []
  /-- Every tensor descriptor: its address and its 128 bytes (02 R79). -/
  tds       : List (Addr × List Byte) := []
  /-- The trellis images it holds (05 R174, R177). -/
  trellis   : List (List Byte) := []
  /-- The schedule of the varnish parameter sets: from which step on, and each set (11 R389). -/
  schedule  : List (Nat × List VarSet) := []
  /-- Snapshot points: epoch of the step and the tensor's descriptor (16 R516). -/
  snapshots : List (Nat × Addr) := []
  /-- PCT_SELECT and PCT_CTRL.ENABLE of the partition's easels: at partition start (`none`) and at snapshot points (16 R515). -/
  counters  : List (Option Nat × BitVec 64 × Bool) := []
  /-- Sidecars, census records and anchor tables of durable tensors (07 R253). -/
  durables  : List Addr := []
  deriving DecidableEq, Repr, Inhabited

/-- A mailbox slot's request as the host writes it (14 Table 14.5). -/
structure SlotReq where
  opcode   : BitVec 16 := 0
  flags    : BitVec 8 := 0
  revision : BitVec 8 := 0
  tag      : BitVec 32 := 0
  length   : BitVec 32 := 0
  /-- The reserved bytes 18, 19 and 32 to 63. -/
  reserved : List Byte := []
  payload  : List Byte := []
  deriving DecidableEq, Repr, Inhabited

/-- The fields of a dry vote or dry notice (10 Table 10.3); `good` tells that its CRC and reserved bytes hold. -/
structure DryMsg where
  job     : BitVec 16
  epoch   : BitVec 8
  attempt : BitVec 8
  step    : BitVec 32
  index   : BitVec 64
  count   : BitVec 32
  level   : BitVec 8
  good    : Bool := true
  deriving DecidableEq, Repr, Inhabited

/-- The fields of a smudge message (10 Table 10.6); `good` as above. -/
structure SmudgeMsg where
  job     : BitVec 16
  phase   : BitVec 8
  round   : BitVec 8 := 0
  step    : BitVec 32 := 0
  epoch   : BitVec 8 := 0
  attempt : BitVec 8 := 0
  cause   : BitVec 8 := 0
  valid   : Bool := false
  status  : BitVec 16 := 0
  base    : BitVec 8 := 0
  mask    : BitVec 8 := 0
  count   : BitVec 32 := 0
  cstep   : BitVec 32 := 0
  cepoch  : BitVec 8 := 0
  good    : Bool := true
  deriving DecidableEq, Repr, Inhabited

/-- A suspect easel's repeat of a unit: the bytes it gave, and those of the replay's own execution where the repeat runs during
the replay (10 R378). -/
structure RepeatIn where
  result   : List Byte
  standing : Option (List Byte) := none
  deriving DecidableEq, Repr, Inhabited

/-- The step's batch ids, as the host's data loader names them (11 R400). -/
structure StepLogIn where
  batches : List (BitVec 64) := []
  deriving DecidableEq, Repr, Inhabited


/-- The counts of one panel in a microsecond (13 Table 13.2): DPU slots of MX pairs, of E2M1 pairs, starved slots,
cell strokes, glaze bytes. -/
structure PanelCount where
  panel   : Panel
  mx      : Nat := 0
  e2m1    : Nat := 0
  idle    : Nat := 0
  strokes : Nat := 0
  glaze   : Nat := 0
  deriving DecidableEq, Repr, Inhabited

/-- The estimator's counts of a microsecond: panels and LPDDR5X bytes. -/
structure PowerCounts where
  panels : List PanelCount := []
  lpddr  : Nat := 0
  deriving DecidableEq, Repr, Inhabited

/-- What one item of a test package gave: item number, physical easel (0xFFFF: none), the bytes that EXPECT covers (10 Table
10.11): output, then its SCALES; the log of a march or a loopback. -/
structure ItemResult where
  item : BitVec 16
  phys : BitVec 16
  out  : List Byte
  deriving DecidableEq, Repr, Inhabited

/-- What an easel reset and a retirement bring with them: the sections of the sample that could be read
(12 Table 12.5 VALID), whether the OTP remap write takes (01 R26). -/
structure ResetIn where
  valid : BitVec 7 := 0x7F
  otpOk : Bool := true
  deriving DecidableEq, Repr, Inhabited

/-- A queue an entry is posted to: an engine queue or a communication queue. -/
inductive QueueRef where
  | engine (q : QueueId)
  | comm (q : Fin 64)
  deriving DecidableEq, Repr, Inhabited

/-- What the hedge managers bring to a group creation (09 R312): the collective ABI versions of the members and of their
links' peers, the CRCs of the members' placement tables, a member coordinate that names no module of the job or a dormant
spare, this module's links on each candidate set of routes, a share refused on another module for every candidate; the ring
that Ovind assigns. -/
structure GroupIn where
  abis     : List (BitVec 16) := []
  tables   : List (BitVec 32) := []
  missing  : Bool := false
  routes   : List (List Link) := []
  refused  : Bool := false
  /-- The route table the managers have built, empty when they built none: candidate output links by destination (08 R304). -/
  table    : List (BitVec 17 × List Link) := []
  ring     : BitVec 59 := 0
  sizeLog2 : BitVec 4 := 4
  deriving DecidableEq, Repr, Inhabited

/-- State of a step record (11 Table 11.5). -/
inductive RecState where
  | opened | dry | discarded
  deriving DecidableEq, Repr, Inhabited

/-- An anchor entry of a step record: a carried table's fields and its one value (11 Table 11.5). -/
structure StepAnchor where
  tensorId : BitVec 32
  etop     : Int
  l        : Int
  wire     : BitVec 8
  headroom : BitVec 8 := 0
  source   : BitVec 8 := 2
  level    : BitVec 8 := 0
  pmax     : BitVec 8
  deriving DecidableEq, Repr, Inhabited

structure StepRec where
  step     : BitVec 64
  st       : RecState := .opened
  imageId  : BitVec 32 := 0
  rollback : BitVec 16 := 0
  first    : BitVec 64 := 0
  epochs   : Nat := 0
  batches  : List (BitVec 64) := []
  anchors  : List StepAnchor := []
  /-- Guard entries: node, range level, format step, epoch number. -/
  guards   : List (BitVec 32 × Nat × Nat × BitVec 8) := []
  /-- Queue entries: queue, QSEQ of the first entry of the step. -/
  queues   : List (Nat × BitVec 32) := []
  /-- Parameter sets: 72 bytes each. -/
  params   : List (List Byte) := []
  /-- Parameter sets whose GSCALE has been read from its tensor (11 R389). -/
  scaled   : List Nat := []
  /-- Copied to the buddy's peer step log (11 R400). -/
  copied   : Bool := false
  /-- Its place in the ring of its step-log part, counted on past each wrap, and the bytes kept for it. -/
  pos      : Nat := 0
  room     : Nat := 0
  deriving DecidableEq, Repr, Inhabited

/-- A lost module's place in a job, as the spare that takes it over receives it (11 R410): its coordinate, the job's entry of
the job table, its graph image, its granules' region entries, its step records from the peer step log. -/
structure TakeIn where
  lost     : BitVec 17
  role     : Role := .worker
  id       : BitVec 16 := 0
  seed     : BitVec 64 := 0
  panels   : BitVec 48 := 0
  cls      : BitVec 3 := 0
  weight   : BitVec 8 := 0
  mode     : BitVec 2 := 0
  interval : BitVec 14 := 100
  buddy    : BitVec 64 := 0
  graph    : Option GraphImage := none
  region   : List (Nat × BitVec 8) := []
  records  : List StepRec := []
  powers   : List (BitVec 32 × BitVec 32) := []
  holders  : List (BitVec 17) := []
  deriving DecidableEq, Repr, Inhabited

/-- What a rollback works on, as the job's layout places it (11 R408, R410): pieces of durable state to restore (address in
the committed mirror, bytes, address here), descriptors whose tiles the restore checks, EMIT descriptors by varnish unit, the
place this module takes over, whether a holder of its checkpoint was lost (R410 step 4). -/
structure RollIn where
  pieces : List (Addr × Nat × Addr) := []
  tds    : List Addr := []
  emits  : List (Fin 16 × Addr) := []
  take   : Option TakeIn := none
  recopy : Bool := false
  deriving DecidableEq, Repr, Inhabited

/-- Who writes a register (00 Table 0.3, 07 R247): Ovind, the owner host through the mailbox, a port's host through BAR0 (its
offsets are those of 14 Table 14.2), an engine of this module, another module. -/
inductive RegAgent where
  | ovind
  | owner (port : Port)
  | bar0 (port : Port)
  | engine
  | remote
  deriving DecidableEq, Repr, Inhabited

/-- A memory request as it reaches a memory unit or leaves this module (07 R257 to R259): its agent, the tag and attempt of
the issuing operation, its address, and for a request of another module the issuer and its transaction tag, to which the
response goes. -/
structure MemReq where
  who     : Agent
  tag     : Option Tag := none
  attempt : BitVec 8 := 0
  addr    : Addr
  issuer  : Option (BitVec 17 × BitVec 16) := none
  /-- The number of the issuing engine on this module, for the route's hash (08 R304). -/
  engine  : BitVec 16 := 0
  deriving DecidableEq, Repr, Inhabited

/-- A part of a tile as SIDECAR_PART brings it (06 R198): its elements, the payload of the whole tile's length with 0 outside
the part, its blocks' scale bytes and flags. -/
structure PartIn where
  count   : Nat
  payload : List Byte
  scales  : List (Fin 128 × Byte)
  sat     : Bool := false
  nonfin  : Bool := false
  clamped : Bool := false
  deriving DecidableEq, Repr, Inhabited

/-- What Ovind finds an uncorrectable address to lie in (07 R238): a check tile (descriptor and number), a census record or
anchor table, durable data with the mirror's copy (address there, bytes, address here). -/
structure UePlace where
  tile   : Option (Addr × BitVec 32) := none
  record : Bool := false
  mirror : List (Addr × Nat × Addr) := []
  deriving DecidableEq, Repr, Inhabited

/-- What surrounds a job creation (11 R402, R407): the job's modules, its granules and their types, the share class and weight
it asks for, a conflict of shares that the managers found, easels' regions that it moves. -/
structure JobIn where
  members  : List (BitVec 17) := []
  granules : List (Nat × BitVec 4) := []
  cls      : BitVec 3 := 0
  weight   : BitVec 8 := 0
  conflict : Bool := false
  /-- The buddy map's modules and their buddies, where the command names one (11 R402). -/
  buddies  : List (BitVec 17 × BitVec 17) := []
  /-- Regions of logical easels that move, in units of 2 MiB of the panel's glaze (07 R228). -/
  regions  : List (Easel × BitVec 10) := []
  deriving DecidableEq, Repr, Inhabited
/-- The commands of the block, one per row of the table of operations and events. -/
inductive Instr where
  /-- REGISTER_WRITE (R7): A write to a register field that has no row of its own, acting as the field's access type states, W1C clears included. -/
  | registerWrite (who : RegAgent) (offset : BitVec 43) (wide : Bool) (value mask hw : BitVec 64)
  /-- REGISTER_READ_CLEAR (R7): A read of an RC field returns its value and then clears the field to 0. -/
  | registerReadClear (offset : BitVec 43) (wide : Bool)
  /-- TICK_SYNC (R35): A rising edge of TICK_SYNC loads 0 into the rack tick counter on the next reference edge and sets CLK_STATUS.SYNC_SEEN. -/
  | tickSync
  /-- REF_CLOCK_LOSS (R37): After 1 us with no reference edge, REF_LOST is set, the tick continues on the internal oscillator and the link PLLs lose lock. -/
  | refClockLoss
  /-- REF_CLOCK_RETURN (R37): When the reference returns, the tick counter continues without a jump and REF_PRESENT returns to 1. -/
  | refClockReturn
  /-- RACK_TICK_HIGH_READ (R38): A 32-bit read of CLK_RACK_TICK at offset 0x0000 latches bits [63:32] for the following read at 0x0004. -/
  | rackTickHighRead
  /-- MANAGER_HEARTBEAT_SEND (R44): Every 1 ms, each manager sends a heartbeat over the quickset path. -/
  | managerHeartbeatSend
  /-- HEARTBEAT (R44): A HEARTBEAT quickset message carrying a role and a coordinate is received. -/
  | heartbeat (role : Role) (coord : BitVec 17)
  /-- MANAGER_SUCCESSION (R44): After 20 ms with no heartbeat from a manager, its successor takes the role and logs a succession record. -/
  | managerSuccession (level : Fin 3) (live : List (BitVec 17))
  /-- CENSUS_COMBINE (R77): An atomic census update at memory adds the counts, takes the max and min of the scales, and combines the flags. -/
  | censusCombine (req : MemReq) (update : BitVec 256) (env : Env)
  /-- STEP_COMPLETION (R101): At the completion of a step, after the census reductions, Ovind computes the carried anchor tables for the next step. -/
  | stepCompletion (part : Part) (step : BitVec 64) (env : Env)
  /-- LAYER_GUARD_DECISION (R117): After a guarded node's census reduction, the guard raises the range level, widens the format, or clears the node. -/
  | layerGuardDecision (part : Part) (tag : Tag) (node : BitVec 32) (range : Bool) (env : Env)
  /-- ARRAY_OPERATION (R158): An accepted array descriptor is checked in order and then runs its chunk on the matrix array. -/
  | arrayOperation (easel : Easel) (node : BitVec 32) (env : Env)
  /-- INPUT_STAGE_LOADED (R132): Once every row is loaded and its tiles verified, the chunk's column groups start broadcasting. -/
  | inputStageLoaded (easel : Easel) (env : Env) (act : Activity)
  /-- WEIGHT_BLOCK_ARRIVAL (R133): A weight block that was missing at its slot arrives, and the waiting array resumes. -/
  | weightBlockArrival (easel : Easel) (column : Fin 4) (block : BitVec 8) (env : Env) (act : Activity)
  /-- COLUMN_GROUP_COMPLETE (R130): When a column group's last term has entered, the LACC images move to the staging bank and progress is reported. -/
  | columnGroupComplete (easel : Easel) (env : Env) (act : Activity)
  /-- STAGING_BANK_WRITTEN (R150): A staging bank's write finishes, the bank reopens, progress is reported, and the bank's census update is sent. -/
  | stagingBankWritten (easel : Easel) (env : Env) (act : Activity)
  /-- TRELLIS_IMAGE_LOAD (R175): A load descriptor checks a trellis image and copies it into an image slot. -/
  | trellisImageLoad (easel : Easel) (env : Env)
  /-- TRELLIS_RUN (R180): A trellis run descriptor is checked and then runs its rows as sweeps and tails. -/
  | trellisRun (easel : Easel) (env : Env)
  /-- TRELLIS_FENCE_RELEASE (R181): A fenced run starts when its array operation completes, or completes with that operation's failure status. -/
  | trellisFenceRelease (easel : Easel) (env : Env)
  /-- TRELLIS_SWEEP (R163): A sweep of 64 lanes executes the body strokes and writes the element output streams. -/
  | trellisSweep (easel : Easel) (env : Env) (act : Activity)
  /-- TRELLIS_ROW_END (R163): After a row's last sweep, the tail strokes run, the row outputs are written and progress is reported. -/
  | trellisRowEnd (easel : Easel) (node : BitVec 32) (env : Env) (act : Activity)
  /-- ENGINE_QUEUE_POST (R219): A poster fills an engine queue entry and writes its STATE as POSTED. -/
  | engineQueuePost (queue : QueueRef) (index : BitVec 12) (desc : Addr) (tag : Tag) (attempt : BitVec 8) (last : Bool) (env : Env)
  /-- ENGINE_ENTRY_ACCEPT (R220): The engine accepts a POSTED head entry, writes SEQ and ST_PENDING, compares the tag with the epoch table, and fetches the descriptor. -/
  | engineEntryAccept (queue : QueueId) (env : Env)
  /-- EQ_ENABLE (R219): Ovind checks the ring against the region table and sets EQ_CTRL.ENABLE, and sequence numbers restart at 1. -/
  | eqEnable (queue : QueueId) (scratch : Bool)
  /-- COPY (R208): The COPY mover operation copies codes and scales unchanged, carrying sidecars where R202 allows. -/
  | copy (queue : QueueId) (env : Env)
  /-- COPY_T2 (R208): The COPY-T2 mover operation transposes the two innermost dimensions, re-encoding MX blocks. -/
  | copyT2 (queue : QueueId) (node : BitVec 32) (env : Env)
  /-- CONVERT (R209): The CONVERT mover operation converts between type pairs with one rounding, flooring at the anchor for wire destinations. -/
  | convert (queue : QueueId) (node : BitVec 32) (env : Env)
  /-- GATHER (R212): The GATHER mover operation writes destination slices from the source slices that the index entries name. -/
  | gather (queue : QueueId) (env : Env)
  /-- SCATTER (R213): The SCATTER mover operation writes source slices to the indexed destination slices, the higher position winning. -/
  | scatter (queue : QueueId) (env : Env)
  /-- SCATTER_ADD (R214): The SCATTER-ADD mover operation adds source slices exactly into the indexed wire or INT32 destination slices. -/
  | scatterAdd (queue : QueueId) (node : BitVec 32) (env : Env)
  /-- FILL (R210): The FILL mover operation writes the destination's FILL value to COUNT elements from BEGIN. -/
  | fill (queue : QueueId) (env : Env)
  /-- MOVER_FENCE_RELEASE (R221): A fenced MD starts when the named entry completes, or completes with its failure status. -/
  | moverFenceRelease (queue : QueueId) (node : BitVec 32) (env : Env)
  /-- SIDECAR_PART (R198): An atomic part-write update of a sidecar adds the part's CRC contribution and counts its elements. -/
  | sidecarPart (req : MemReq) (td : Addr) (tile : BitVec 32) (piece : PartIn) (env : Env)
  /-- FETCH_ADD64 (R259): An 8-byte atomic add modulo 2^64 at memory that returns the old value. -/
  | fetchAdd64 (req : MemReq) (addend : BitVec 64) (env : Env)
  /-- CAS64 (R259): An 8-byte atomic compare-and-swap at memory that returns the old value. -/
  | cas64 (req : MemReq) (compare swap : BitVec 64) (env : Env)
  /-- ATOMIC_RESP (R259): The response to an atomic request reaches its issuer. -/
  | atomicResp (packet : Packet)
  /-- READ (R257): A READ request is served at the target's memory unit after its granule checks. -/
  | read (req : MemReq) (words : Fin 129) (env : Env)
  /-- UE_RESOLVE (R238): Ovind resolves an uncorrectable address and marks the tile, record or anchor table unreadable, or restores a durable word from its mirror. -/
  | ueResolve (addr : Addr) (place : UePlace) (env : Env)
  /-- READ_RESP (R257): A read response reaches the issuer and completes its read. -/
  | readResp (packet : Packet)
  /-- WRITE (R258): A WRITE request is checked and performed at the target's memory unit. -/
  | write (req : MemReq) (bytes : List Byte) (env : Env)
  /-- WRITE_ACK (R258): A write acknowledgement reaches the issuer, and the remote write counts as performed. -/
  | writeAck (packet : Packet)
  /-- REMOTE_ACCESS_TIMEOUT (R260): A remote access with no response within 20 ms fails with ST_HANG. -/
  | remoteAccessTimeout (txn : BitVec 16) (engine : Option QueueId)
  /-- PATROL_SCRUB_READ (R241): The scrubber reads the next assigned granule in ascending address order. -/
  | patrolScrubRead (unit : Fin 64) (meanwhile : List Nat) (env : Env)
  /-- SCRUB_PRIORITY_ESCALATION (R241): A scrub access that has waited 1 us takes the next bank or channel slot at the highest precedence. -/
  | scrubPriorityEscalation (unit : Fin 64)
  /-- LINK_ENABLE (R287): A write of 1 to LNK_CTRL.ENABLE lets the link leave DOWN. -/
  | linkEnable (link : Link)
  /-- LINK_DISABLE (R287): A write of 0 to LNK_CTRL.ENABLE sends the link to DOWN and holds it there. -/
  | linkDisable (link : Link)
  /-- LINK_RETRAIN (R287): A write of 1 to LNK_CTRL.RETRAIN retrains the link with session resume. -/
  | linkRetrain (link : Link)
  /-- LINK_RESTORE_LANES (R298): A write of 1 to LNK_CTRL.RESTORE_LANES retrains the link and tries all four lanes. -/
  | linkRestoreLanes (link : Link)
  /-- LINK_START_DELAY_EXPIRY (R307): At ST4, after the serial-derived start delay, TRAIN starts on all enabled links and the panels are powered. -/
  | linkStartDelayExpiry
  /-- LINK_BACKOFF_EXPIRY (R288): When the backoff of a link in DOWN expires, the link moves to TRAIN. -/
  | linkBackoffExpiry (link : Link)
  /-- TRAIN_COMPLETE (R289): The lanes lock, equalise, deskew and reach FEC lock, and the link enters IDENTIFY. -/
  | trainComplete (link : Link) (locked : BitVec 4)
  /-- TRAIN_TIMEOUT (R287): TRAIN does not complete within 100 ms, and the link goes to DOWN with backoff. -/
  | trainTimeout (link : Link)
  /-- IDENT_SEND (R291): Every 2 us in IDENTIFY, each end sends an IDENT flit with ECHO entries. -/
  | identSend (link : Link) (stamp : BitVec 30)
  /-- IDENT (R291): An IDENT flit from the peer is received and its identity, nonce and masks are taken. -/
  | ident (link : Link) (ident : Ident)
  /-- IDENTIFY_COMPLETE (R294): Both nonces are echoed, and the link is judged against the cabling map under Table 8.11. -/
  | identifyComplete (link : Link) (sigOk kexOk : Bool) (rtt : BitVec 16)
  /-- IDENTIFY_TIMEOUT (R287): IDENTIFY does not complete within 50 ms, and the link goes to DOWN. -/
  | identifyTimeout (link : Link)
  /-- RESUME_WINDOW_EXPIRY (R290): 10 ms after a link leaves ACTIVE or DEGRADED, the session state kept for resume is released. -/
  | resumeWindowExpiry (link : Link)
  /-- ALL_LANES_LOCK_LOSS (R287): Every lane out of lock for 1 ms sends the link to DOWN. -/
  | allLanesLockLoss (link : Link)
  /-- LANE_BAD (R297): A lane goes bad, and the ends exchange LANES and retrain on the largest working set into DEGRADED. -/
  | laneBad (link : Link) (lane : Fin 4)
  /-- DATA_FLIT (R276): A sequenced DATA flit is received and accepted in VC order, its ACK and CREDIT taken, and its packet bytes passed on. -/
  | dataFlit (link : Link) (flit : FlitIn)
  /-- SEAL_FLIT (R302): A SEAL flit closes a GCM group, whose bytes are released once its tag verifies. -/
  | sealFlit (link : Link) (flit : FlitIn) (stalled : Bool)
  /-- IDLE_FLIT (R271): An IDLE flit is received, carrying only ACK and CREDIT for one VC. -/
  | idleFlit (link : Link) (avc : Vc) (ack : BitVec 18) (credit : BitVec 5)
  /-- REPLAY (R276): A REPLAY control entry makes the sender resend the VC from the given SEQ. -/
  | replay (link : Link) (vc : Vc) (seq : BitVec 18)
  /-- HOLD (R283): A HOLD entry stops a far-link VC and rewinds it to the refused SEQ. -/
  | hold (link : Link) (vc : Vc) (seq : BitVec 18)
  /-- RESUME (R283): A RESUME entry lets a held VC resend from the given SEQ at its grant. -/
  | resume (link : Link) (vc : Vc) (seq : BitVec 18)
  /-- GRANT (R282): A GRANT entry sets the sender's rate limit for a far-link VC. -/
  | grant (link : Link) (vc : Vc) (rate : BitVec 12)
  /-- NOT_READY (R308): A NOT_READY entry reports flits refused because the far end is not yet ACTIVE. -/
  | notReady (link : Link) (vc : Vc) (seq : BitVec 18)
  /-- READY (R290): A READY entry shows the peer is ACTIVE, and the sender resends its refused flits from the NOT_READY SEQ. -/
  | ready (link : Link) (resumed : Bool)
  /-- LANES (R297): A LANES entry names the lane mask the peer will use after retraining. -/
  | lanes (link : Link) (mask : BitVec 4)
  /-- ECHO (R267): An ECHO time stamp is returned unchanged by the peer and used to measure the round trip. -/
  | echo (link : Link) (stamp : BitVec 30) (own : Bool) (elapsed : BitVec 16)
  /-- FLIT_TRANSMIT (R284): In each flit slot, the transmitter chooses a CTRL, QS, MGMT, DATA/TRANSIT or IDLE flit by precedence. -/
  | flitTransmit (link : Link)
  /-- CONTROL_ENTRY_REPEAT (R272): Every 2 us, pending control entries are sent again until the peer shows their effect. -/
  | controlEntryRepeat (link : Link)
  /-- GRANT_UPDATE (R282): Every 1 us, a far receiver computes and sends a GRANT for each VC. -/
  | grantUpdate (link : Link) (drainedLow drainedHigh : List Nat)
  /-- HOLD_RELEASE (R283): When a held VC buffer drains to T, the receiver sends RESUME. -/
  | holdRelease (link : Link) (vc : Vc)
  /-- REPLAY_NO_PROGRESS (R277): After 4 round trips with no ACK progress, the sender resends the VC from its oldest unacknowledged flit. -/
  | replayNoProgress (link : Link) (vc : Vc)
  /-- KEY_AGREEMENT_START (R303): After 2^31 flits under a key, the sender starts a new signed key agreement. -/
  | keyAgreementStart (link : Link)
  /-- KEY_AGREEMENT_MSG (R303): A key-agreement MGMT_MSG is received and processed. -/
  | keyAgreementMsg (link : Link) (sigOk : Bool) (msg : KeyMsg)
  /-- KEY_EXHAUSTED (R303): At 2^32 flits without a completed agreement, the direction sends MGMT flits only. -/
  | keyExhausted (link : Link)
  /-- KEY_AGREEMENT_TIMEOUT (R303): One second after exhaustion without agreement, the link goes to DOWN and ST_AUTH is logged. -/
  | keyAgreementTimeout (link : Link)
  /-- PACKET_TRANSIT (R305): A packet for another module is forwarded by the module switch on TRANSIT or DATA. -/
  | packetTransit (vc : Vc) (packet : Packet)
  /-- SUSTAINED_PRESSURE (R286): After 100,000 back-pressured intervals, Ovind records SUSTAINED_PRESSURE and sets LNK_FLAGS.PRESSURE. -/
  | sustainedPressure (link : Link) (vc : Vc)
  /-- PRESSURE_REPEAT (R286): The pressure record repeats every 10 s while the episode lasts. -/
  | pressureRepeat (link : Link) (vc : Vc) (intervals : BitVec 64)
  /-- PRESSURE_EPISODE_END (R286): After 1,000 intervals that are not back-pressured, the pressure episode ends. -/
  | pressureEpisodeEnd (link : Link) (vc : Vc)
  /-- GROUP_CREATE (R312): GROUP_CREATE checks the group descriptor, the ABIs, routes and queues as one transaction across the members. -/
  | groupCreate (part : Part) (desc : Addr) (inp : GroupIn) (env : Env) (cmd : Option (BitVec 48))
  /-- GROUP_COMMIT (R312): Group creation commits on every member when the quickset barrier completes, or is released everywhere on failure. -/
  | groupCommit (part : Part) (id : BitVec 32) (status : Status) (peers : List (BitVec 17 × Fin 64)) (cmd : Option (BitVec 48))
  /-- GROUP_DESTROY (R314): GROUP_DESTROY starts destroying a group on every member. -/
  | groupDestroy (part : Part) (id : BitVec 32) (cmd : Option (BitVec 48))
  /-- GROUP_RELEASE (R314): Once every queued operation completes, the group's shares, staging and queue are released. -/
  | groupRelease (queue : Fin 64)
  /-- COLLECTIVE_ENTRY_ACCEPT (R316): A communication queue accepts its next entry in ring order and numbers it with a QSEQ. -/
  | collectiveEntryAccept (queue : Fin 64) (env : Env)
  /-- ALL_REDUCE (R327): The ALL_REDUCE collective runs a reduce-scatter, a conversion at each owner and an all-gather. -/
  | allReduce (queue : Fin 64) (env : Env)
  /-- REDUCE_SCATTER (R327): The REDUCE_SCATTER collective leaves each member the exact sum of its share. -/
  | reduceScatter (queue : Fin 64) (env : Env)
  /-- REDUCE (R327): The REDUCE collective runs a reduce-scatter, then gathers the shares at the root. -/
  | reduce (queue : Fin 64) (env : Env)
  /-- ALL_GATHER (R327): The ALL_GATHER collective sends each member's shard to its line neighbours, axis by axis. -/
  | allGather (queue : Fin 64) (env : Env)
  /-- BROADCAST (R327): The BROADCAST collective spreads the root's tensor to every member. -/
  | broadcast (queue : Fin 64) (env : Env)
  /-- BARRIER (R334): The BARRIER collective completes when every member has arrived, on the quickset path. -/
  | barrier (queue : Fin 64) (env : Env)
  /-- ANCHOR_PRE (R80): The ANCHOR_PRE collective reduces a census record over the group and sets REDUCED. -/
  | anchorPre (queue : Fin 64) (range : Bool) (env : Env)
  /-- QS_REDUCTION (R335): An ALL_REDUCE or REDUCE with FLAGS.QS runs one W64 anchor block as four SUM_U64 parts. -/
  | qsReduction (queue : Fin 64) (env : Env)
  /-- EXPERT_DISPATCH (R341): The EXPERT_DISPATCH collective sends token rows to the modules that hold their experts. -/
  | expertDispatch (queue : Fin 64) (env : Env)
  /-- EXPERT_PLACEMENT (R342): After LAST from every member, the holder sorts and places rows under the capacity and the overflow policy. -/
  | expertPlacement (queue : Fin 64) (env : Env)
  /-- EXPERT_COMBINE (R343): The EXPERT_COMBINE collective returns expert outputs and adds gate-weighted terms exactly into the wire destination. -/
  | expertCombine (queue : Fin 64) (env : Env)
  /-- CHUNK_DATA (R326): A DATA chunk is received and checked, then combined or written. -/
  | chunkData (packet : Packet) (mismatch : Bool) (env : Env)
  /-- DEFERRED_CHUNK (R322): A chunk held for a later QSEQ or a newer attempt is checked when the receiver reaches it. -/
  | deferredChunk (queue : Fin 64) (env : Env)
  /-- CHUNK_CREDIT (R318): A CREDIT chunk returns slot credits to the sender. -/
  | chunkCredit (packet : Packet) (env : Env)
  /-- CHUNK_RESEND_REQ (R338): A RESEND_REQ makes the sender resend the chunk from its send log, or rebuild it from its source tiles. -/
  | chunkResendReq (packet : Packet) (logGood : Bool) (env : Env)
  /-- CHUNK_FAIL (R333): A FAIL chunk completes the operation with its status and is forwarded to the neighbours. -/
  | chunkFail (packet : Packet) (env : Env)
  /-- COLLECTIVE_COMPLETE (R332): A bulk operation completes once the destination piece is written and every credit has returned. -/
  | collectiveComplete (queue : Fin 64) (env : Env)
  /-- COLLECTIVE_PROGRESS_TIMEOUT (R320): An operation awaiting chunks or credits for TIMEOUT_MS completes with ST_HANG, and the queue stops. -/
  | collectiveProgressTimeout (queue : Fin 64) (env : Env)
  /-- QUEUE_SUSTAINED_PRESSURE (R319): A communication queue back-pressured for 100,000 intervals is recorded and sets CQ_STATUS.PRESSURE. -/
  | queueSustainedPressure (queue : Fin 64) (rank : BitVec 17) (intervals : BitVec 64)
  /-- QS_BARRIER (R334): A BARRIER quickset message is received and its arrival counted. -/
  | qsBarrier (packet : Packet) (env : Env)
  /-- QS_MAX_U8 (R334): A MAX_U8 quickset message is received and combined by bytewise maximum. -/
  | qsMaxU8 (packet : Packet) (env : Env)
  /-- QS_SUM_U64 (R334): A SUM_U64 quickset message is received and its words summed. -/
  | qsSumU64 (packet : Packet) (env : Env)
  /-- QS_CENSUS (R334): A CENSUS quickset message is received and combined under R80, with the RANGE flag ORed. -/
  | qsCensus (packet : Packet) (env : Env)
  /-- QS_FAIL (R334): A FAIL quickset message is received, and the status of the lowest rank wins. -/
  | qsFail (packet : Packet) (env : Env)
  /-- EPOCH_OPEN (R350): Ovind opens the next epoch once the window has room and starts posting its entries. -/
  | epochOpen (part : Part) (empty : Bool) (log : StepLogIn) (env : Env)
  /-- DRY_VOTE_SEND (R352): A module sends its dry vote once a CLOSED epoch meets every condition of Table 10.2. -/
  | dryVoteSend (part : Part) (epoch : BitVec 8)
  /-- DRY_VOTE (R353): A manager receives and records a dry vote, and passes a vote up once its whole hedge or pod has voted. -/
  | dryVote (payload : List Byte) (sender : BitVec 17) (awaited : List (BitVec 17))
  /-- DRY_NOTICE (R353): A DRY_NOTICE is received, and the module writes STATE DRY in its epoch table. -/
  | dryNotice (payload : List Byte) (sender : BitVec 17)
  /-- DRY_VOTE_RESEND (R355): A vote with no notice after 5 ms is sent again. -/
  | dryVoteResend (part : Part) (epoch : BitVec 8)
  /-- OPERATION_FAILURE_HANDLING (R352): Ovind handles an entry that failed by its status group, leading to a smudge, a reissue or a job stop. -/
  | operationFailureHandling (part : Part) (tag : Tag) (queue : QueueId) (status : Status) (kind : Fin 3) (producer : Option Tag)
  /-- SMUDGE_REPORT (R364): A REPORT is received; managers pass it up, and the machine manager adds the epoch to D and sends ORDER. -/
  | smudgeReport (payload : List Byte) (sender : BitVec 17)
  /-- SMUDGE_ORDER (R365): An ORDER is received; the epochs of D are marked SMUDGED, their operations ended, and the local closure sent. -/
  | smudgeOrder (payload : List Byte) (sender : BitVec 17) (env : Env)
  /-- SMUDGE_CLOSURE (R364): A CLOSURE reply is received and unioned; at the fixed point the machine manager sends FINAL. -/
  | smudgeClosure (payload : List Byte) (sender : BitVec 17) (awaited : List (BitVec 17))
  /-- SMUDGE_FINAL (R367): FINAL is received; the attempts are raised, the census and tables restored, and the epochs of D replayed. -/
  | smudgeFinal (message : BitVec 17 × List Byte) (damaged : Option Bool)
  /-- DUPLICATE_START (R374): A selected unit's duplicate starts on the opposite-quadrant easel once a check buffer is free. -/
  | duplicateStart (id : BitVec 32) (fault : Option (Option Tag)) (act : Activity)
  /-- DUPLICATE_COMPARE (R374): A completed duplicate is compared bit for bit with the original by the compare unit. -/
  | duplicateCompare (id : BitVec 32) (results : List Byte × List Byte)
  /-- THIRD_EXECUTION (R377): A completed third execution settles which result stands, and smudges when the original was wrong. -/
  | thirdExecution (id : BitVec 32) (third : List Byte) (act : Activity)
  /-- SUSPECT_REPEAT (R378): A suspect easel's repeat completes and classifies its fault as transient or permanent. -/
  | suspectRepeat (easel : Easel) (rep : RepeatIn) (inp : ResetIn) (env : Env)
  /-- OBSERVATION_TPK_TICK (R379): Every 60 s, Ovind runs the observation TPK on an easel under observation. -/
  | observationTpkTick (easel : Easel) (results : List ItemResult) (act : Activity) (inp : ResetIn) (env : Env)
  /-- OBSERVATION_END (R379): An observation period ends after 24 h with no fault, and its counts return to 0. -/
  | observationEnd (easel : Easel)
  /-- TPK_PUSH (R385): A TPK pushed by the machine manager in MGMT_MSG packets is checked and stored, and its status reported. -/
  | tpkPush (package : List Byte)
  /-- DATA_READ_RELEASE (R359): A waiting DATA_READ proceeds once every tile tag in its range is dry. -/
  | dataReadRelease (seq : BitVec 48) (env : Env)
  /-- DATA_READ_WAIT_TIMEOUT (R359): After 10 s of waiting, the DATA_READ completes with ST_WET and sets HOST_WET. -/
  | dataReadWaitTimeout (seq : BitVec 48)
  /-- VARNISH_POST (R387): Ovind posts a varnish update for a step once the gradient epoch it reads is DRY. -/
  | varnishPost (unit : Fin 16) (index : BitVec 12) (desc : Addr) (tag : Tag) (attempt : BitVec 8) (part : Part) (params : Option (Addr × Nat))
  /-- VARNISH_UPDATE (R390): A varnish descriptor is checked and applies its optimiser rule to state tiles in ascending order. -/
  | varnishUpdate (unit : Fin 16) (mismatch : Option (Fin 4096)) (env : Env)
  /-- VARNISH_TAG_WAIT_END (R360): A varnish unit waiting on a wet gradient tag proceeds when it is dry, or ends with ST_SMUDGED. -/
  | varnishTagWaitEnd (unit : Fin 16) (mismatch : Option (Fin 4096)) (env : Env)
  /-- CKPT_BEGIN (R404): CKPT_BEGIN is received; varnish posting is held, and the checkpoint engine starts copying durable granules. -/
  | ckptBegin (part : Part) (step : BitVec 64) (headers : List (Addr × BitVec 8)) (env : Env)
  /-- CHECKPOINT_COPY_DONE (R404): The copy ends, the holder's header is written COMMITTED, and the module reports to its hedge manager. -/
  | checkpointCopyDone (part : Part) (pieces : List (Addr × Nat × Addr)) (tds : List Addr) (headers : List (Addr × BitVec 8)) (env again : Env)
  /-- CHECKPOINT_REPORT (R404): A manager receives a checkpoint report; the machine manager sends CKPT_COMMIT once every module has reported. -/
  | checkpointReport (job : BitVec 16) (step : BitVec 64) (sender : BitVec 17) (status : Status) (members : List (BitVec 17))
  /-- CKPT_COMMIT (R404): CKPT_COMMIT is received; LAST_COMMIT is set, step records reclaimed and the varnish queues released. -/
  | ckptCommit (job : BitVec 16) (step : BitVec 64)
  /-- ROLLBACK_MESSAGE (R408): ROLLBACK c is received; the module discards wet work, restores its mirror, rebuilds narrow copies and replays. -/
  | rollbackMessage (part : Part) (commit : BitVec 64) (gen : BitVec 16) (inp : RollIn) (env : Env)
  /-- MODULE_LOST (R409): A hedge manager declares a module lost and chooses a dormant spare, or stops the job. -/
  | moduleLost (coord : BitVec 17) (jobs : List (BitVec 16)) (mirror : Option (Part × Addr)) (env : Env)
  /-- ENGINE_WATCHDOG_EXPIRY (R412): An engine's progress watchdog expires, a hang is declared, and the reset of Table 12.1 starts. -/
  | engineWatchdogExpiry (queue : QueueId) (inp : ResetIn) (env : Env)
  /-- LOST_QUERY_ANSWER (R415): The hedge manager's answer arrives, and the local reset proceeds or is dropped in favour of takeover. -/
  | lostQueryAnswer (coord : BitVec 17) (lost : Bool) (inp : ResetIn) (env : Env)
  /-- RESET_LEVEL_COMPLETE (R417): A reset level completes, its scope is clean and idle, and Ovind releases it. -/
  | resetLevelComplete (level : Fin 3) (target : Easel)
  /-- RESET_TIMEOUT (R418): A reset level misses its timeout and escalates to the next level, setting ESCALATED. -/
  | resetTimeout (level : Fin 4) (target : Easel) (inp : ResetIn) (env : Env)
  /-- OVIND_WATCHDOG_EXPIRY (R416): After 100 ms without an Ovind restart, the always-on island starts a module reset with ST_HANG. -/
  | ovindWatchdogExpiry
  /-- RESET_NOTICE (R426): A hedge manager receives a RESET_NOTICE and holds off declaring the module lost for 11 s. -/
  | resetNotice (sender : BitVec 17) (jobs : List (BitVec 16))
  /-- RESET_NOTICE_TIMEOUT (R426): With no READY within 11 s of the notice, the hedge manager declares the module lost. -/
  | resetNoticeTimeout (sender : BitVec 17) (jobs : List (BitVec 16)) (mirror : Option (Part × Addr)) (env : Env)
  /-- MODULE_READY (R426): A reset module's READY reaches its hedge manager, and the held replay can proceed. -/
  | moduleReady (sender : BitVec 17)
  /-- TRAY_NO_RESPONSE (R427): Five seconds after TRAY_PWR_REQ with standby still up, TRAY_NO_RESPONSE is logged. -/
  | trayNoResponse
  /-- PSTATE_STEP (R432): A panel rail completes one 10 us P-state step and steps on toward its target. -/
  | pstateStep (panel : Panel)
  /-- DROOP_TRIP (R434): A droop 40 mV below setpoint stretches the easel clock period to 1.5 times and sets DROOP. -/
  | droopTrip (easel : Easel)
  /-- DROOP_RECOVERY (R434): After the voltage holds within 20 mV for 100 ns, the clock returns to nominal. -/
  | droopRecovery (easel : Easel)
  /-- DROOP_PERSIST (R435): More than 10 % stretched cycles in 1 ms on one panel logs DROOP_PERSIST. -/
  | droopPersist (panel : Panel) (permille : Fin 1001)
  /-- POWER_ESTIMATE (R437): Every 1 us the estimator forms the input power estimate from the activity counts. -/
  | powerEstimate (counts : PowerCounts)
  /-- POWER_MEASUREMENT (R438): Every 1 ms the measured and estimated means are formed and the acting value chosen. -/
  | powerMeasurement (measured : BitVec 16) (active : Bool) (shares : List (Part × Nat × Nat))
  /-- SLOW_LOOP (R439): Every 10 ms the slow loop raises or lowers the P-state cap against the sustained limit. -/
  | slowLoop
  /-- PWR_VOTE_SET (R446): A PWR_VOTE_CMD write with SET 1 sets a client's vote and powers the domain and its parents. -/
  | pwrVoteSet (client : Fin 8) (domain : BitVec 10)
  /-- PWR_VOTE_WITHDRAW (R446): A PWR_VOTE_CMD write with SET 0 withdraws a client's vote and turns an unheld domain off. -/
  | pwrVoteWithdraw (client : Fin 8) (domain : BitVec 10)
  /-- DOMAIN_TRANSITION_DONE (R448): A domain completes its power transition and evaluates its votes again. -/
  | domainTransitionDone (domain : Fin 992)
  /-- IDLE_ENTRY (R451): After 10 ms with no partition and no TPK running, easel clocks are gated and the module enters M1. -/
  | idleEntry
  /-- DORMANT_COMMAND (R451): The hedge manager's DORMANT command starts the module's entry to M2. -/
  | dormantCommand
  /-- MSTATE_ENTRY_DONE (R451): An entry to M2 or M3 completes, and a latched wake then starts the exit. -/
  | mstateEntryDone
  /-- WAKE_EXIT_DONE (R451): An exit from M2 or M3 completes in M0. -/
  | wakeExitDone
  /-- RTC_ALARM (R453): The RTC reaches AT_MS with ENABLE set, ENABLE clears, and the module wakes. -/
  | rtcAlarm
  /-- SELF_TEST_DONE (R455): The dormant self-test finishes, sets the next alarm and returns the module to M2. -/
  | selfTestDone (failedSpares : List Panel) (results : List ItemResult) (inp : ResetIn) (env : Env)
  /-- KEEPALIVE_WAKE (R453): The hedge manager's WAKE message on a keepalive link wakes the module. -/
  | keepaliveWake
  /-- TRAY_WAKE (R453): A rising edge of the tray WAKE signal wakes the module. -/
  | trayWake
  /-- PORT_RESET (R458): PERST#, a hot reset, a link down or an FLR resets one PCIe port's logic, slots and segments. -/
  | portReset (port : Port) (linkDown : Bool)
  /-- SLOT_POST (R467): A host writes a slot's header and payload and then STATE POSTED. -/
  | slotPost (port : Port) (slot : Fin 8) (req : SlotReq)
  /-- SLOT_ACCEPT (R468): Ovind accepts a POSTED slot in round-robin order and writes SEQ and ACCEPTED. -/
  | slotAccept
  /-- SLOT_FREE (R467): The host writes FREE to a DONE slot. -/
  | slotFree (port : Port) (slot : Fin 8)
  /-- BAR0_DISCARD (R469): A refused BAR0 write is discarded, counted in DISCARD_COUNT and sets MBX_FLAGS.DISCARD. -/
  | bar0Discard (port : Port)
  /-- BAR2_READ (R463): A host read through BAR2 is served, returned UR, or returned as a Completer Abort. -/
  | bar2Read (port : Port) (segment : Fin 16) (offset : BitVec 32) (length : BitVec 13) (env : Env)
  /-- BAR2_WRITE (R463): A host write through BAR2 is performed or dropped with UR. -/
  | bar2Write (port : Port) (segment : Fin 16) (offset : BitVec 32) (bytes : List Byte) (env : Env)
  /-- MSIX_UNMASK (R465): Unmasking a vector sends its pending message. -/
  | msixUnmask (port : Port) (vector : Fin 64)
  /-- MBX_HEARTBEAT (R474): A heartbeat write from the owner restarts MBX_OWNER_AGE. -/
  | mbxHeartbeat (port : Port) (value : BitVec 32)
  /-- OWNER_LAPSE (R474): AGE_MS reaches 5,000, and LAPSED is set on both ports. -/
  | ownerLapse
  /-- OWNERSHIP_ANSWER_TIMEOUT (R475): With no owner answer within 1 s, the take fails with ST_NOT_OWNER. -/
  | ownershipAnswerTimeout
  /-- GET_INFO (R477): The GET_INFO command returns the serial, coordinate, versions, stage, flags, role and module state. -/
  | getInfo (seq : BitVec 48)
  /-- GET_STATUS (R477): The GET_STATUS command returns PWR_STATUS, the link states and the partitions. -/
  | getStatus (seq : BitVec 48)
  /-- TAKE_OWNERSHIP (R475): The TAKE_OWNERSHIP command from the peer takes ownership at once, or asks the owner. -/
  | takeOwnership (seq : BitVec 48)
  /-- RELEASE_OWNERSHIP (R475): The RELEASE_OWNERSHIP command answers a takeover request or hands ownership to the peer. -/
  | releaseOwnership (seq : BitVec 48)
  /-- SET_ROLE_MAP (R42): The SET_ROLE_MAP command loads a role map after its checks and keeps it in flash. -/
  | setRoleMap (seq : BitVec 48)
  /-- SET_CABLING_MAP (R294): The SET_CABLING_MAP command loads a cabling map with its generation. -/
  | setCablingMap (seq : BitVec 48)
  /-- SET_MSTATE (R451): The SET_MSTATE command requests a move to M0, M2 or M3. -/
  | setMstate (seq : BitVec 48)
  /-- JOB_CREATE (R402): The JOB_CREATE command creates a job partition with its mirror mode, interval, seed and panels. -/
  | jobCreate (seq : BitVec 48) (inp : JobIn)
  /-- JOB_DESTROY (R477): The JOB_DESTROY command destroys a stopped job. -/
  | jobDestroy (seq : BitVec 48)
  /-- PARTITION_START (R477): The PARTITION_START command starts a partition's graph at FIRST_STEP. -/
  | partitionStart (seq : BitVec 48)
  /-- PARTITION_STOP (R359): The PARTITION_STOP command stops a partition once every epoch is DRY or discarded. -/
  | partitionStop (seq : BitVec 48)
  /-- JOB_STATUS (R477): The JOB_STATUS command returns the job's status, step, lost coordinate and dry index. -/
  | jobStatus (seq : BitVec 48)
  /-- ROLLBACK (R408): The ROLLBACK command from the owner host requests a rollback to the last committed checkpoint. -/
  | rollback (seq : BitVec 48)
  /-- GRAPH_LOAD (R1): The GRAPH_LOAD command installs a graph image, refusing one built for another firmware major version. -/
  | graphLoad (seq : BitVec 48) (image : GraphImage)
  /-- GRAPH_UNLOAD (R477): The GRAPH_UNLOAD command removes a job's graph image. -/
  | graphUnload (seq : BitVec 48)
  /-- DATA_READ (R359): The DATA_READ command returns a tensor range once its tags are dry, or waits, or returns ST_WET. -/
  | dataRead (seq : BitVec 48) (env : Env)
  /-- DATA_WRITE (R401): The DATA_WRITE command writes host data into a tensor, checking the batch CRC against the log. -/
  | dataWrite (seq : BitVec 48) (data : List Byte) (env : Env)
  /-- REG_READ (R477): The REG_READ command returns up to 503 register words. -/
  | regRead (seq : BitVec 48) (env : Env)
  /-- REG_WRITE (R477): The REG_WRITE command writes a masked register value for the owner host. -/
  | regWrite (seq : BitVec 48)
  /-- TPK_LOAD (R383): The TPK_LOAD command checks a fleet test package and stores it. -/
  | tpkLoad (seq : BitVec 48) (package : List Byte)
  /-- TPK_RUN (R386): The TPK_RUN command runs a stored package and reports passes and failures. -/
  | tpkRun (seq : BitVec 48) (results : List ItemResult) (inp : ResetIn) (env : Env)
  /-- SET_POWER_LIMITS (R436): The SET_POWER_LIMITS command sets the peak and sustained limits. -/
  | setPowerLimits (seq : BitVec 48)
  /-- SET_PSTATE (R433): The SET_PSTATE command sets a partition's requested P-state, or reports it held by the cap. -/
  | setPstate (seq : BitVec 48)
  /-- POWER_VOTE (R446): The POWER_VOTE command sets or withdraws the host's vote on its port's domains. -/
  | powerVote (seq : BitVec 48)
  /-- RECORD_READ (R507): The RECORD_READ command returns event records from FIRST_SEQ in sequence order. -/
  | recordRead (seq : BitVec 48)
  /-- RECORD_CLEAR (R508): The RECORD_CLEAR command, with a valid token, starts a new log bank with a CLEAR record. -/
  | recordClear (seq : BitVec 48)
  /-- RECORD_BANK_ERASE_DONE (R508): Erasure of the old log bank finishes, and RECORD_CLEAR completes. -/
  | recordBankEraseDone (seq : BitVec 48)
  /-- SAMPLE_READ (R477): The SAMPLE_READ command returns bytes of a logical easel's sample area. -/
  | sampleRead (seq : BitVec 48) (env : Env)
  /-- COUNTER_GRANT (R515): The COUNTER_GRANT command passes a partition's counter settings to the job, or takes them back. -/
  | counterGrant (seq : BitVec 48)
  /-- WEAR_READ (R520): The WEAR_READ command returns the wear report. -/
  | wearRead (seq : BitVec 48)
  /-- ALARM_STATUS (R496): The ALARM_STATUS command returns SEC_STATE, SEC_ALARM and the newest 8 alarm log entries. -/
  | alarmStatus (seq : BitVec 48)
  /-- OTP_READ (R485): The OTP_READ command returns an OTP field's generations. -/
  | otpRead (seq : BitVec 48)
  /-- OTP_WRITE (R488): The OTP_WRITE command, with a valid token, programs the next usable generation slot of a field. -/
  | otpWrite (seq : BitVec 48) (whole : Bool)
  /-- ALARM_CLEAR (R499): The ALARM_CLEAR command, with a valid token and no active source, ends the alarm episode. -/
  | alarmClear (seq : BitVec 48)
  /-- RESET (R420): The RESET command requests a reset of a given level and target. -/
  | reset (seq : BitVec 48) (inp : ResetIn) (env : Env)
  /-- LINK_CTRL (R477): The LINK_CTRL command disables, enables, retrains or restores the lanes of a link. -/
  | linkCtrl (seq : BitVec 48)
  /-- FW_UPDATE_BEGIN (R481): The FW_UPDATE_BEGIN command assigns staging for a firmware image of SIZE bytes. -/
  | fwUpdateBegin (seq : BitVec 48) (granules : List Nat)
  /-- FW_UPDATE_DATA (R481): The FW_UPDATE_DATA command writes image bytes into the staging. -/
  | fwUpdateData (seq : BitVec 48)
  /-- FW_UPDATE_COMMIT (R481): The FW_UPDATE_COMMIT command checks the staged image and starts programming it into flash. -/
  | fwUpdateCommit (seq : BitVec 48)
  /-- FW_FLASH_PROGRAM_DONE (R481): Flash programming and read-back of the new image finish, and the commit completes. -/
  | fwFlashProgramDone (seq : BitVec 48)
  /-- RECOVERY_HOLD_EXPIRY (R482): After 60 s with no command from the host holding recovery, the other host may update. -/
  | recoveryHoldExpiry
  /-- STANDBY_GOOD (R530): Standby reaches 11.4 V, the always-on island runs, and the module is in M3. -/
  | standbyGood
  /-- POWER_GOOD (R530): Both inputs in range for 10 ms give ST0 and start the main conversion. -/
  | powerGood
  /-- START_ST1 (R483): The boot ROM runs, OTP is read, and the always-on island comes up. -/
  | startSt1 (straps : Coord) (parityOk : Bool) (failing : List (BitVec 8))
  /-- START_ST2 (R480): The boot ROM reads and checks the firmware image, then starts Ovind. -/
  | startSt2
  /-- START_ST3 (R483): Glaze is zeroed, LPDDR5X trained, and maps, tables and observation state restored. -/
  | startSt3 (failedSpares : List Panel) (failedPackages : List (Fin 16)) (refused : List Nat) (env : Env)
  /-- START_ST4 (R483): The links start after the start delay, and the panels are powered. -/
  | startSt4
  /-- START_ST5 (R483): RWL fields are locked, the owner chosen, READY sent and vector 9 raised. -/
  | startSt5
  /-- STARTUP_TIMEOUT (R484): ST5 not reached within 10 s triggers a module reset. -/
  | startupTimeout (inp : ResetIn) (env : Env)
  /-- SECURITY_ALARM (R495): An alarm source fires; it is recorded, vector 11 is raised, and the policy response is taken. -/
  | securityAlarm (source : Fin 5)
  /-- RECORD_FLASH_WRITE (R504): The buffer writes records to the active flash bank in sequence order. -/
  | recordFlashWrite
  /-- FLASH_CONFIG_SAVE (R506): Every 60 s while they change, Ovind saves the recorder's counts to the flash configuration area. -/
  | flashConfigSave
  /-- SPDM_GET_VERSION (R492): The SPDM GET_VERSION request is answered over DOE. -/
  | spdmGetVersion (port : Port)
  /-- SPDM_GET_CAPABILITIES (R492): The SPDM GET_CAPABILITIES request is answered. -/
  | spdmGetCapabilities (port : Port)
  /-- SPDM_NEGOTIATE_ALGORITHMS (R492): The SPDM NEGOTIATE_ALGORITHMS request selects SM2 and SM3. -/
  | spdmNegotiateAlgorithms (port : Port) (offered : Bool)
  /-- SPDM_GET_DIGESTS (R492): The SPDM GET_DIGESTS request returns the certificate slot digests. -/
  | spdmGetDigests (port : Port)
  /-- SPDM_GET_CERTIFICATE (R492): The SPDM GET_CERTIFICATE request returns a slot's chain. -/
  | spdmGetCertificate (port : Port) (slot : Fin 8) (offset length : BitVec 16)
  /-- SPDM_CHALLENGE (R492): The SPDM CHALLENGE request is signed with the requested slot's key. -/
  | spdmChallenge (port : Port) (slot : Fin 8) (nonce : BitVec 256)
  /-- SPDM_GET_MEASUREMENTS (R493): The SPDM GET_MEASUREMENTS request returns the measurement blocks as they stood at acceptance. -/
  | spdmGetMeasurements (port : Port) (index : BitVec 8) (sign : Option (Fin 8)) (nonce : BitVec 256)
  /-- SPDM_GET_CSR (R493): The SPDM GET_CSR request returns a signing request for the current identity key. -/
  | spdmGetCsr (port : Port)
  /-- SPDM_SET_CERTIFICATE (R493): The SPDM SET_CERTIFICATE request installs a verified identity chain in slot 0. -/
  | spdmSetCertificate (port : Port) (slot : Fin 8) (chain : List Byte)
  /-- PCT_CLEAR (R514): A write of 1 to PCT_CTRL.CLEAR zeroes the cycle, programmable, slot and pending counts together. -/
  | pctClear (easel : Easel) (additions : List (BitVec 8))
  /-- PCT_FREEZE (R514): A write of PCT_CTRL.FREEZE freezes reads at the current values, or releases them. -/
  | pctFreeze (easel : Easel) (value : Bool)
  /-- PCT_ENABLE (R510): A write of PCT_CTRL.ENABLE holds or resumes the programmable counters. -/
  | pctEnable (easel : Easel) (value : Bool)
  /-- COUNTER_WRAP (R511): A programmable counter wraps from 2^48 - 1 to 0 and sets its PCT_OVF bit. -/
  | counterWrap (easel : Easel) (k : Fin 8) (addition : BitVec 8)
  /-- PORT_WINDOW_END (R517): At a window end, every port counter latches into PCT_PORT and SEQ rises. -/
  | portWindowEnd
  /-- PCT_WINDOW_WRITE (R517): A write of PCT_WINDOW.US restarts the window without latching the partial one. -/
  | pctWindowWrite (us : BitVec 20)
  /-- WEAR_SAMPLE (R518): Ovind reads a wear monitor, stores its daily sample and refits its prediction. -/
  | wearSample (monitor : Fin 160) (reading : Int)
  /-- EYE_SAMPLE (R518): At each completed TRAIN and hourly in ACTIVE or DEGRADED, the link's eye height is read. -/
  | eyeSample (link : Link) (height : BitVec 16)
  /-- MAIN_UNDERVOLTAGE (R532): Main below 46 V for 50 us stops the conversion, flushes records and loses memory. -/
  | mainUndervoltage
  /-- THERMAL_ALERT (R538): A die at 100 C or an outlet at 70 C asserts ALERT#. -/
  | thermalAlert (die outlet : BitVec 16)
  /-- THERMAL_ALERT_RELEASE (R538): The readings fall to 95 C and 65 C, and ALERT# is released. -/
  | thermalAlertRelease (die outlet : BitVec 16)
  /-- THERMAL_SHUTDOWN (R538): After a TEMP alarm, 1 ms on and with OTP programming done, the main conversion turns off. -/
  | thermalShutdown
  /-- SMBUS_PART_NUMBER (R528): SMBus command 0x00 returns the part number. -/
  | smbusPartNumber
  /-- SMBUS_SERIAL (R528): SMBus command 0x01 returns the serial. -/
  | smbusSerial
  /-- SMBUS_COORDINATE (R528): SMBus command 0x02 returns the sampled coordinate. -/
  | smbusCoordinate
  /-- SMBUS_STATUS (R528): SMBus command 0x03 returns the stage, module state and alert bits. -/
  | smbusStatus
  /-- SMBUS_POWER (R528): SMBus command 0x04 returns the measured input power. -/
  | smbusPower
  /-- SMBUS_DIE_TEMP (R528): SMBus command 0x05 returns the hottest die sensor reading. -/
  | smbusDieTemp (reading : BitVec 16)
  /-- SMBUS_OUTLET_TEMP (R528): SMBus command 0x06 returns the coolant outlet reading. -/
  | smbusOutletTemp (reading : BitVec 16)
  /-- ALARM_CONDITION_END (R495): An alarm source's condition ends and its SEC_ALARM.ACTIVE bit clears, which ALARM_CLEAR requires before it can end the episode. -/
  | alarmConditionEnd (source : Fin 5)
  /-- STANDBY_LOSS (R533): The 12 V standby supply falls, the always-on island stops and buffered records not yet in flash are lost; TRAY_PWR_REQ is released. -/
  | standbyLoss
  /-- PCIE_LINK_UP (R473): A PCI Express port's link comes up, updating PEER_LINK and, when no owner was chosen at ST5, making that port's host the owner. -/
  | pcieLinkUp (port : Port)
  /-- ROLLBACK_REQUEST (R408): The machine manager receives a rollback request from a module or hedge manager, raises the rollback generation and sends ROLLBACK c. -/
  | rollbackRequest (job : BitVec 16) (requester : BitVec 17)
  /-- DEGRADED_REPORT (R411): A hedge manager receives a DEGRADED report from a module, excluding a spare from takeover or scheduling replacement at the next commit, or starting a takeover at once under R393. -/
  | degradedReport (coord : BitVec 17) (atOnce : Bool) (jobs : List (BitVec 16)) (mirror : Option (Part × Addr)) (env : Env)
  deriving DecidableEq, Repr

end Sys2Proof
end

