-- ==== Sys2Proof/Config.lean ====
section
/-! DEFINITION. What an implementation fixes and the spec leaves open: free values, each an opaque constant with no body. -/
namespace Sys2Proof

/-- Free 64-bit words, one per draw: the random SEC_NONCE (15 R494), link NONCE halves (08 R291). -/
opaque Config.freeWord : Nat → BitVec 64

/-- The trellis function unit's ROM (05 R168): the spec bounds each result to within 1 ulp and
gives no table; the function code of Table 5.3 and the FP32 argument select the result, which func32 holds to the bound. -/
opaque Config.trellisRom : BitVec 8 → BitVec 32 → BitVec 32

/-- The hash that picks one output link among a route's candidates (08 R304), of source module, issuing engine, target and
table generation. -/
opaque Config.routeHash : BitVec 17 → Nat → BitVec 17 → Nat → Nat

/-- The 40 bytes that the SM2 key agreement of GB/T 32918.3 derives (08 R300) from the two ends' SERIALs and ephemeral points,
the lower SERIAL's first. -/
opaque Config.kexBytes : BitVec 128 → List Byte → BitVec 128 → List Byte → Nat → Byte

/-- Can a package's ring share take a write now (08 R279, 07 R255)? One draw a write. -/
opaque Config.ringTakes : Nat → Bool

/-- SM2 with SM3: does the signature (third) over the message (second) verify under the public key whose SM3 hash is the
first? -/
opaque Config.sm2Verify : List Byte → List Byte → List Byte → Bool

/-- SM2 signature of a message under a private key. -/
opaque Config.sm2Sign : Nat → List Byte → List Byte

/-- The SM2 public key, x then y, of a private key: the multiple of the standard's base point (GB/T 32918.1). -/
opaque Config.sm2Public : Nat → List Byte

/-- How a figure that is no integer is rounded where the spec states no rounding (16 R520; 13 R438, R441): numerator,
denominator. -/
opaque Config.roundRatio : Int → Nat → Int

/-- What sign(c) of the Lion rule gives for a NaN c, an FP32 code (11 R391 states +1, -1 and 0): by parameter number. -/
opaque Config.signNan : Nat → BitVec 32

/-- SM3 of the boot ROM's contents (15 Table 15.4, index 1), immutable. -/
opaque Config.romMeasurement : List Byte

/-- Does a certificate chain verify to the boot ROM's root with a leaf of the given public key (15 R493)? -/
opaque Config.chainVerifies : List Byte → List Byte → Bool

end Sys2Proof
end

