-- ==== Sys2Proof/Machine/State.lean ====
section
/-! DEFINITION. The state of the block: plain data, every piece of state the spec gives the module (INVENTORY.md lists it with its rule and reset value). -/
namespace Sys2Proof.Machine

/-- Why the machine stops. No meaning of this model raises it: the spec gives every command an effect
and reports failures as status codes in state (00 R14), so the one constructor is never built. Safe. -/
inductive Fault where
  | unreachable
  deriving DecidableEq, Repr

/-- Why a command has no meaning here. -/
inductive Refusal where
  /-- Raised only by a dispatch arm of a command not yet modelled. Safe: nothing can be proved of a run past it. -/
  | notModelled (mnemonic : String)
  deriving DecidableEq, Repr

/-- A W1C flag with its 16-bit event counter (00 R8, R9). -/
structure Flag where
  set : Bool := false
  cnt : BitVec 16 := 0
  deriving DecidableEq, Repr, Inhabited

/-! ### The clock block (01 R34 to R38, R541) -/

structure Clk where
  count       : BitVec 64 := 0
  /-- Bits [63:32] held for a 32-bit read at 0x0004 (R38). -/
  latch       : Option (BitVec 32) := none
  /-- A TICK_SYNC edge has come: the next reference edge loads 0 (R35). -/
  loadPending : Bool := false
  refLost     : Flag := {}
  syncSeen    : Flag := {}
  refPresent  : Bool := false
  deriving DecidableEq, Repr, Inhabited

/-! ### Easel maps (01 R22 to R27) -/

/-- One panel's map: physical easel of each logical easel (0x1F unmapped), the spare, the retired set. -/
structure PanelMap where
  phys       : List (BitVec 5) := (List.range 16).map (BitVec.ofNat 5)
  spare      : BitVec 5 := 16
  otpPending : Bool := false
  retired    : BitVec 17 := 0
  deriving DecidableEq, Repr, Inhabited

/-! ### Memory (07) -/

/-- What the decoder finds in a codeword (07 R235): no error, one bad byte of the 36 with the bits to flip back, or an
uncorrectable error with its syndrome. -/
inductive WordErr where
  | none
  | correctable (byte : Nat) (flip : Byte)
  | uncorrectable (syndrome : BitVec 32)
  deriving DecidableEq, Repr, Inhabited

/-- The MEM_ registers of one memory unit and its counters (07 R237 to R243). -/
structure MemUnit where
  ce            : Flag := {}
  ue            : Flag := {}
  storm         : Flag := {}
  repairPending : Bool := false
  ueAddr        : BitVec 64 := 0
  ceTotal       : BitVec 48 := 0
  passes        : BitVec 32 := 0
  granule       : BitVec 16 := 0
  /-- Times (in reference edges) of the correctable errors of the last 1 s, newest first (R237). -/
  ceTimes       : List Nat := []
  /-- The scrub access has waited 1 us and goes at the highest precedence (R241). -/
  escalated     : Bool := false
  deriving DecidableEq, Repr, Inhabited

/-- Memory and what the memory units hold. Bytes are keyed by local offset of spaces 0 and 2
(07 Table 7.3); the scratch of logical easel i stands at 2^43 + i * 2^21. Every map is sparse: sorted
keys, no entry equal to its default. -/
structure Mem where
  bytes    : List (Nat × Byte) := []
  /-- Check bytes as stored, exclusive-or those that the stored data have, by word number (byte key / 32): 0 where a word was
  written whole and holds no error (R232, R235). -/
  errs     : List (Nat × BitVec 32) := []
  /-- Words of records marked unreadable (02 R82, R238), until they are written whole. -/
  unread   : List (Nat × Bool) := []
  /-- Region table entries by granule number (offset / 2 MiB); default 0, unassigned (07 Table 7.5). -/
  region   : List (Nat × BitVec 8) := []
  /-- Entries that change once no operation in flight touches the granule (R250). -/
  regionDue : List (Nat × Option (BitVec 8)) := []
  /-- Start of a logical easel's 96 MiB region in its panel's glaze, in units of 2 MiB, where a job creation moved it (R228). -/
  easelAt  : List (Nat × Option (BitVec 10)) := []
  /-- LPDDR5X granules already zeroed by a first assignment since the power cycle (R234). -/
  zeroed   : List (Nat × Bool) := []
  /-- The job table: local partition + 1 of a job id; 0 no entry (R249). -/
  jobs     : List (Nat × Nat) := []
  units    : List (Nat × MemUnit) := []
  /-- Spare rows used in each bank, by unit * 64 + bank (07 R226, R243). -/
  spareUsed : List (Nat × Nat) := []
  /-- Words whose row awaits repair (R243). -/
  repair   : List (Nat × Bool) := []
  /-- Granules to be retired at the next job creation (R243). -/
  toRetire : List (Nat × Bool) := []
  /-- Scrub passes in a row that found a correctable error in the word (R243). -/
  streak   : List (Nat × Nat) := []
  /-- Granules by which the reported usable capacity is lowered (R243). -/
  lowered  : Nat := 0
  /-- Bytes of the open port window by LPDDR5X channel: 2c read, 2c + 1 written (16 Table 16.7). -/
  chan     : List (Nat × Nat) := []
  deriving DecidableEq, Repr, Inhabited

/-! ### Event recorder (16 R502 to R509) -/

/-- A record as stored; bytes 12 to 19 are 0 and the CRC follows from the rest (16 Table 16.1). -/
structure Record where
  seq     : BitVec 48
  type    : BitVec 16
  source  : BitVec 16
  status  : BitVec 16
  payload : List Byte
  deriving DecidableEq, Repr, Inhabited

structure Evr where
  nextSeq   : BitVec 48 := 0
  bank      : Bool := false
  full      : Bool := false
  firstSeq  : BitVec 48 := 0
  dropped   : BitVec 32 := 0
  drop      : Flag := {}
  fullEvent : Flag := {}
  /-- Records in the always-on island's buffer, oldest first (R504). -/
  buffer    : List Record := []
  bank0     : List Record := []
  bank1     : List Record := []
  /-- DROPPED, FULL and NEXT_SEQ as last saved in flash (R506). -/
  saved     : Option (BitVec 32 × Bool × BitVec 48) := none
  /-- A RESUME record is due at the next ST1 (R506); whether the buffer was flushed (its ORDERLY). -/
  due       : Option Bool := some false
  deriving DecidableEq, Repr, Inhabited

/-! ### MSI-X (14 R465) -/

structure MsixEntry where
  addr    : BitVec 64 := 0
  data    : BitVec 32 := 0
  masked  : Bool := true
  pending : Bool := false
  deriving DecidableEq, Repr, Inhabited

/-! ### Wet and dry (10) -/

inductive EpState where
  | free | wet | dry | smudged
  deriving DecidableEq, Repr, Inhabited

/-- A WET_EPOCH entry (10 R351). -/
structure EpochEnt where
  state    : EpState := .free
  consumed : BitVec 7 := 0
  attempt  : BitVec 8 := 0
  step     : BitVec 32 := 0
  deriving DecidableEq, Repr, Inhabited

/-- The finer state of an epoch that is not free (10 Table 10.1). -/
inductive EpFine where
  | opened | closed | voted | dry | smudged
  deriving DecidableEq, Repr, Inhabited

/-- What Ovind keeps of an epoch beside its table entry (10 R350 to R370). -/
structure EpochInfo where
  /-- Job epoch index (R348). -/
  index      : BitVec 64 := 0
  fine       : EpFine := .opened
  /-- Entries posted and not DONE. -/
  running    : Nat := 0
  /-- An entry failed with a status that keeps the epoch from voting (R352). -/
  failed     : Bool := false
  /-- Entries with ST_RANGE_VIOLATION not yet resolved by the layer guard. -/
  violations : Nat := 0
  /-- Sampled duplicates not yet settled. -/
  dups       : Nat := 0
  /-- Guarded nodes whose decision is not yet clear. -/
  guards     : Nat := 0
  /-- Census reductions of the epoch that have not set REDUCED. -/
  census     : Nat := 0
  /-- Times it was discarded. -/
  discards   : Nat := 0
  /-- Time of the last vote sent, in reference edges (R355). -/
  votedAt    : Nat := 0
  deriving DecidableEq, Repr, Inhabited

/-- One partition's wet/dry state. -/
structure WetPart where
  ents      : List (Nat × EpochEnt) := []
  info      : List (Nat × EpochInfo) := []
  dryIndex  : BitVec 48 := 0
  oldest    : BitVec 8 := 0
  settling  : Bool := false
  wetCount  : BitVec 4 := 0
  dupLog2   : BitVec 4 := 6
  smudge    : Flag := {}
  dupMismatch : Flag := {}
  stall     : Flag := {}
  hostWet   : Flag := {}
  /-- Index of the next epoch to open. -/
  next      : Nat := 0
  /-- Posting is held: by a full window (R350), by an ORDER until FINAL (R365). -/
  held      : Bool := false
  /-- The settling round last ordered (R363). -/
  round     : Nat := 0
  deriving DecidableEq, Repr, Inhabited

/-- A WET_OBS entry (10 R379, R380). -/
structure Obs where
  permanent : BitVec 8 := 0
  transient : BitVec 8 := 0
  left      : BitVec 32 := 0
  deriving DecidableEq, Repr, Inhabited


/-! ### Links (08) -/

inductive LnkState where
  | down | train | identify | quarantine | active | degraded
  deriving DecidableEq, Repr, Inhabited

/-- A packet waiting in a transmit queue, with its share class. -/
structure TxPkt where
  cls : Nat
  pkt : Packet
  deriving DecidableEq, Repr, Inhabited

/-- A sequenced flit kept until it is acknowledged (08 R277 to R279). -/
structure TxFlit where
  vc      : Nat := 0
  seq     : BitVec 18
  sealed  : Bool
  /-- The payload as sent: on far links the ciphertext and, in a SEAL flit, the tag. -/
  payload : List Byte
  /-- Its place in the LPDDR5X ring, when it has been written there (R279). -/
  ring    : Option Nat := none
  /-- A cut-through QS flit whose good copy has not come yet: the link and SEQ it comes from (R306). -/
  hole    : Option (Nat × BitVec 18) := none
  deriving DecidableEq, Repr, Inhabited

/-- A control entry that is sent until its effect shows (08 R272, Table 8.5). -/
structure CtrlEntry where
  op  : Nat
  vc  : Nat
  seq : BitVec 18 := 0
  arg : BitVec 30 := 0
  due : Bool := true
  deriving DecidableEq, Repr, Inhabited

/-- One virtual channel of one link, both directions. -/
structure LinkVc where
  /-- Packets in the transmit queue and packets that the full queue refused, whose producers wait with them (R285); the bytes
  of the packet being sent and its class. -/
  txq       : List TxPkt := []
  waiting   : List TxPkt := []
  cur       : List Byte := []
  curCls    : Nat := 0
  /-- The queue refused a packet since it was last empty (R286). -/
  refused   : Bool := false
  /-- Absolute sequence number of the next new flit; SEQ is its low 18 bits (R276, R301). -/
  nextAbs   : BitVec 62 := 0
  /-- SEQ of the next flit to send again. -/
  resend    : Option (BitVec 18) := none
  credit    : Nat := 0
  grant     : BitVec 12 := 3772
  /-- Far links: held from this SEQ by HOLD (R283). -/
  heldAt    : Option (BitVec 18) := none
  /-- Refused from this SEQ by NOT_READY (R308). -/
  notReady  : Option (BitVec 18) := none
  /-- Times of resends of the last 1 ms (R280), newest first, and the SEQ that the newest began with. -/
  resends   : List Nat := []
  resendSeq : BitVec 18 := 0
  /-- Times at which flits of this VC were sent in the last 1 us (R282, R284). -/
  sentAt    : List Nat := []
  /-- Far links: ciphertexts of the open GCM group being sent, and its first absolute sequence number (R301). -/
  groupOut  : List (List Byte) := []
  groupFirst : BitVec 62 := 0
  /-- Absolute sequence number expected next. -/
  expectAbs : BitVec 62 := 0
  /-- REPLAY has been sent and the expected SEQ not yet seen. -/
  awaiting  : Bool := false
  /-- Payloads of flits held in the receive buffer, oldest first. -/
  buffer    : List (List Byte) := []
  /-- Bytes of a packet not yet complete. -/
  partialPkt : List Byte := []
  /-- Far links: payloads of a GCM group whose tag has not come, and the group's first absolute sequence number. -/
  group     : List (List Byte) := []
  groupAbs  : BitVec 62 := 0
  /-- Flits drained in the last 8 us: time and number (R282). -/
  drains    : List (Nat × Nat) := []
  /-- HOLD has been sent for this SEQ (R283). -/
  refusing  : Option (BitVec 18) := none
  /-- Buffer places freed and not yet returned in CREDIT. -/
  freed     : Nat := 0
  /-- ACK or CREDIT has changed since the last return (R271). -/
  dirty     : Bool := false
  /-- Pressure episode (R286). -/
  pressure  : Bool := false
  deriving DecidableEq, Repr, Inhabited

/-- The session kept for resume (08 R290). -/
structure Kept where
  serial  : BitVec 128
  link    : BitVec 7
  session : BitVec 64
  deriving DecidableEq, Repr, Inhabited

/-- A direction's session key: its number, SM4 key, salt (R300). -/
structure LinkKey where
  no   : Nat := 0
  key  : BitVec 128 := 0
  salt : BitVec 32 := 0
  deriving DecidableEq, Repr, Inhabited

/-- One link. -/
structure LinkSt where
  st        : LnkState := .down
  laneMask  : BitVec 4 := 0
  protoRev  : BitVec 8 := 0
  peerAbi   : BitVec 16 := 0
  peerLink  : BitVec 7 := 0x7F
  peerCoord : BitVec 17 := 0
  enable    : Bool := true
  downEvent : Flag := {}
  degrade   : Flag := {}
  quarantine : Flag := {}
  replay    : Flag := {}
  notReady  : Flag := {}
  pressure  : Flag := {}
  crcFail   : BitVec 12 := 0
  uncorrCw  : BitVec 12 := 0
  tagFail   : BitVec 8 := 0
  corrSym   : BitVec 32 := 0
  rtt       : BitVec 16 := 0
  holds     : BitVec 16 := 0
  resent    : BitVec 32 := 0
  /-- The next wait in DOWN, in ms (R288), and whether a wait runs. -/
  backoff   : Nat := 10
  waiting   : Bool := false
  waitMs    : Nat := 0
  /-- Lanes in use before the present training. -/
  lanesBefore : Nat := 4
  /-- Lanes known bad; lanes the peer will use; a lane degrade that stays (R297, R298). -/
  bad       : BitVec 4 := 0
  peerLanes : BitVec 4 := 0xF
  sticky    : Bool := false
  /-- The identity received in this IDENTIFY, own NONCE, whether the peer has echoed it (R291). -/
  peer      : Option Ident := none
  nonce     : BitVec 128 := 0
  echoed    : Bool := false
  serialKept : BitVec 128 := 0
  session   : BitVec 64 := 0
  kept      : Option Kept := none
  /-- IDENTIFY is done and waits for the other links of a permutation (R295). -/
  waitPerm  : Bool := false
  vcs       : List (Nat × LinkVc) := []
  ctrl      : List CtrlEntry := []
  /-- Flit slots since the last CTRL flit (R284). -/
  sinceCtrl : Nat := 8
  /-- The VC whose ACK and CREDIT return next (R271). -/
  avc       : Nat := 0
  /-- Deficits of the 8 share classes, the class in turn, its quantum added (09 R345). -/
  deficits  : List (Nat × Nat) := []
  drrPtr    : Nat := 0
  drrAdded  : Bool := false
  /-- Flow that each share class last served (09 R345). -/
  lastFlow  : List (Nat × Nat) := []
  /-- Far: sequenced flits sent under the key; an agreement runs; the key is exhausted (R303). -/
  underKey  : Nat := 0
  agreeing  : Bool := false
  exhausted : Bool := false
  /-- Far: the keys in force of the two directions, and the new ones with each VC's switch point (R300, R303). -/
  tx        : LinkKey := {}
  rx        : LinkKey := {}
  txNew     : Option (LinkKey × List (BitVec 62)) := none
  rxNew     : Option (LinkKey × List (BitVec 62)) := none
  /-- Far: the ephemeral point of this IDENTIFY or of the running offer; the key of an answered offer. -/
  kexPoint  : List Byte := []
  answered  : Option LinkKey := none
  /-- Unacknowledged flits of all VCs in the order of transmission (R277 to R279); the next place in the ring. -/
  store     : List TxFlit := []
  ringNext  : Nat := 0
  /-- Corrected symbols by lane (R270). -/
  laneSym   : List (Nat × Nat) := []
  /-- The time stamp of the last ECHO sent and when (R267). -/
  echo      : Option (BitVec 30 × Nat) := none
  /-- The manager has rejected the peer found (R296); the link has been in DOWN since its last session (R298). -/
  rejected  : Bool := false
  wentDown  : Bool := false
  /-- Times of tag failures of the last 1 s (R302). -/
  tagTimes  : List Nat := []
  /-- The first reserved control OP has been logged (R272). -/
  loggedOp  : Bool := false
  deriving DecidableEq, Repr, Inhabited

/-- A remote access that awaits its response (07 R260). -/
structure Txn where
  tag   : BitVec 16
  /-- OP of the request. -/
  op    : Nat
  addr  : Addr
  who   : Agent
  dest  : Coord
  deriving DecidableEq, Repr, Inhabited

/-- The module's links as a whole. -/
structure Lnk where
  links     : List (Nat × LinkSt) := []
  /-- The cabling map by link: peer coordinate code and peer link; the active map's renumbered pairs (R294, R295). -/
  cabling   : List (Nat × Option (Nat × Nat)) := []
  active    : List (Nat × Option (Nat × Nat)) := []
  mapGen    : BitVec 16 := 0
  /-- Route table: candidate output links by destination code (R304), and its generation. -/
  routes    : List (Nat × List Nat) := []
  routeGen  : Nat := 0
  /-- The SerDes are powered and the start delay is over (R307). -/
  started   : Bool := false
  /-- The module's start delay in ms (R307). -/
  delayMs   : Nat := 0
  txns      : List Txn := []
  nextTxn   : BitVec 16 := 0
  deriving DecidableEq, Repr, Inhabited

/-- A share of a link direction (09 R344) and its bytes (R346). -/
structure Share where
  held   : Bool := false
  job    : BitVec 16 := 0
  weight : BitVec 8 := 0
  bytes  : BitVec 64 := 0
  deriving DecidableEq, Repr, Inhabited

/-! ### The data plane: what every access to memory can touch -/

/-- How a host's BAR2 read completes (14 Table 14.3). -/
inductive HostAns where
  | data (l : List Byte)
  | ur
  | ca
  deriving DecidableEq, Repr

/-- Errors of SPDM 1.3 that the responder answers with (15 R492, R493, R501). -/
inductive SpdmErr where
  | busy
  | unspecified
  | unexpected
  | unsupported
  | invalid
  deriving DecidableEq, Repr

/-- What an SPDM response says (15 R492, R493); its bytes on the wire are those of SPDM 1.3. -/
inductive SpdmAns where
  | error (e : SpdmErr)
  | version (major minor : Nat)
  | capabilities
  /-- SM2 on the 256-bit curve and SM3 for signatures, hashes and measurements. -/
  | algorithms
  /-- SM3 of the chain of each filled slot. -/
  | digests (slots : List (Nat × List Byte))
  /-- A portion of a slot's chain and how many bytes remain. -/
  | certificate (slot : Nat) (portion : List Byte) (rest : Nat)
  /-- The slot, SM3 of its chain, the signature. -/
  | challengeAuth (slot : Nat) (digest signature : List Byte)
  /-- How many blocks there are, the blocks asked for by index, the signature. -/
  | measurements (count : Nat) (blocks : List (Nat × List Byte)) (signature : List Byte)
  /-- The identity public key, the names SERIAL and r, the signature. -/
  | csr (key : List Byte) (serial : BitVec 128) (epoch : Nat) (signature : List Byte)
  | certificateSet (slot : Nat)
  deriving DecidableEq, Repr

/-- Where a message of the manager tree goes: to the manager of a level, down the tree, back to its sender (10 R353, R355). -/
inductive TreeTo where
  | up (manager : BitVec 17)
  | down
  | back (sender : BitVec 17)
  deriving DecidableEq, Repr

/-- A message the module sends, in the order sent (the model's own trace; nothing reads it back). -/
inductive OutMsg where
  /-- The value a register read returns. -/
  | regValue (v : BitVec 64)
  /-- The answer to a local read request: status and data. -/
  | readAnswer (st : Status) (data : List Byte)
  /-- The status a write, an atomic or a command returns locally, with the old value of an atomic. -/
  | answer (st : Status) (old : BitVec 64)
  /-- A packet handed to the module switch for other modules. -/
  | packet (p : Packet)
  /-- An MSI-X message. -/
  | msix (port : Port) (vector : Nat) (addr : BitVec 64) (data : BitVec 32)
  /-- A read of `len` bytes issued to another module, and a write of bytes to one (07 R256 to R258). -/
  | remoteRead (a : Addr) (len : BitVec 32)
  | remoteWrite (a : Addr) (v : List Byte)
  /-- The 256 bytes of a flit put on a link (08 Table 8.3). -/
  | flit (link : Nat) (bytes : List Byte)
  /-- A packet that arrived whole and is passed on to the module switch. -/
  | passed (link vc : Nat) (p : Packet)
  /-- A key store event: the key of a link's direction agreed or zeroised. -/
  | keyEvent (link : Nat) (keyNo : Nat) (zeroised : Bool)
  /-- A quickset message of the manager tree: where it goes, QOP, payload. -/
  | quickset (to_ : TreeTo) (qop : Nat) (payload : List Byte)
  /-- A step record for the peer step log that a module keeps (11 R400). -/
  | stepRecord (holder : BitVec 17) (bytes : List Byte)
  /-- A management message: to the machine's managers or a member. -/
  | mgmt (m : Mgmt) (coord : BitVec 17) (value : BitVec 64)
  /-- The completion of a host's BAR2 read and of a BAR2 write. -/
  | hostRead (port : Port) (ans : HostAns)
  | hostWrite (port : Port) (performed : Bool)
  /-- Bytes the DMA engine writes to host memory. -/
  | dmaWrite (port : Port) (addr : BitVec 64) (data : List Byte)
  /-- An SMBus block read's bytes, an SPDM response. -/
  | smbus (data : List Byte)
  | spdm (port : Port) (ans : SpdmAns)
  deriving DecidableEq, Repr

structure Dp where
  /-- Reference edges since power came up (the model's own clock for spans of time). -/
  now     : Nat := 0
  /-- The module's coordinate, from the straps (17 R525). -/
  coord   : Coord := default
  /-- The module's serial, from OTP (15 R485). -/
  serial  : BitVec 128 := 0
  mem     : Mem := {}
  evr     : Evr := {}
  wet     : List (Nat × WetPart) := []
  obs     : List (Nat × Obs) := []
  msixA   : List (Nat × MsixEntry) := []
  msixB   : List (Nat × MsixEntry) := []
  /-- The model's own counter of free values drawn. -/
  freeCtr : Nat := 0
  out     : List OutMsg := []
  deriving DecidableEq, Repr

/-! ### Engine queues (06 R218 to R224, 11 R387) -/

/-- An entry as a poster fills it (06 Table 6.13). -/
structure QEntry where
  desc    : Addr
  tag     : Tag
  attempt : BitVec 8
  /-- The partition Ovind posted for. -/
  part    : Nat := 0
  deriving DecidableEq, Repr, Inhabited

/-- A tensor descriptor as an engine fetched it (06 Table 6.1, R192). -/
structure TD where
  /-- The address the descriptor was fetched from. -/
  ptr    : Addr
  cls    : Nat
  type   : Nat
  rank   : Nat
  flags  : Nat
  tensorId : BitVec 32
  base   : Addr
  shape  : List Nat
  stride : List Nat
  maxScale : Nat
  minScale : Nat
  fill   : Nat
  tscale : Nat
  shardKind : Nat
  anchor : Addr
  census : Addr
  sidecar : Addr
  shards : List Nat
  /-- The reserved bytes 67, 78 and 79. -/
  resv   : List Byte
  deriving DecidableEq, Repr, Inhabited

/-- Global shape and origin of a destination piece, when it rounds stochastically. -/
structure SrCtx where
  tensorId : BitVec 32
  shape    : List Nat
  /-- Global coordinate of local element (0, …, 0); used when the descriptor is of local class. -/
  origin   : List Nat
  viaTd    : Bool
  deriving DecidableEq, Repr, Inhabited

/-- The units a movement operation covers, and its elements beyond the destination (06 Table 6.6). -/
structure Ranges where
  first   : Nat
  last    : Nat
  dropped : Nat
  deriving DecidableEq, Repr, Inhabited

/-- What a movement operation's checks have settled before its fence (06 R216): ranges, the anchors of its wire tables, its
SR context. -/
structure MoveKept where
  rng : Ranges
  dstTable : Option (List Int)
  srcTable : Option (List Int)
  sr  : Option SrCtx
  deriving DecidableEq, Repr, Inhabited

/-- The entry a queue has accepted and not completed. -/
structure Active where
  entry : QEntry
  seq   : BitVec 32
  /-- The descriptor's bytes, as fetched at acceptance. -/
  desc  : List Byte
  /-- The completion record's address. -/
  comp  : Addr
  /-- The operation has been checked and runs or waits; it has written output; range-violating terms so far. -/
  started : Bool := false
  wrote   : Bool := false
  /-- Its descriptors as fetched (06 R192). -/
  tds     : List TD := []
  /-- A movement operation that awaits its fence: what its checks settled. -/
  kept    : Option MoveKept := none
  viol    : Nat := 0
  deriving DecidableEq, Repr, Inhabited

/-- What the completion record of a failed entry names, and the operation's descriptors (10 R362). -/
structure FaultRec where
  tag  : Tag
  addr : Addr
  obj  : Nat
  tds  : List TD := []
  deriving DecidableEq, Repr, Inhabited

/-- One engine queue: its EQ_ registers and what the engine keeps. -/
structure Eq where
  base      : BitVec 59 := 0
  enable    : Bool := false
  sizeLog2  : BitVec 4 := 4
  fault     : Flag := {}
  lastFault : BitVec 16 := 0
  head      : BitVec 12 := 0
  busy      : Bool := false
  last      : BitVec 32 := 0
  /-- The ring lies in the easel's scratch (R219). -/
  inScratch : Bool := false
  cur       : Option Active := none
  /-- Completed entries and their statuses, newest first (what fences ask for, R221). -/
  done      : List (BitVec 32 × BitVec 16) := []
  /-- The last entry that failed. -/
  lastFail  : Option FaultRec := none
  /-- Ovind's own record of what it posted, by ring index (R222). -/
  posted    : List (Nat × Option QEntry) := []
  /-- Tags of the wet epochs that have posted an entry here (12 R424). -/
  tags      : List Tag := []
  deriving DecidableEq, Repr, Inhabited

/-! ### The matrix array and the trellis (04, 05) -/

/-- An accumulated value with its non-finite codes (03 Table 3.1). -/
inductive Acc where
  | fin (v : Int)
  | inf (neg : Bool)
  | nan
  deriving DecidableEq, Repr, Inhabited

/-- A row's three statistic accumulators (04 R155); the maximum is empty before the first column. -/
structure RowStat where
  max   : Option Acc := none
  sum   : Acc := .fin 0
  sumsq : Acc := .fin 0
  range : Bool := false
  deriving DecidableEq, Repr, Inhabited

/-- The array operation of an easel past its checks (04 R122 to R160). -/
structure ArrayRun where
  rows    : Nat
  k       : Nat
  cols    : Nat
  clipRows : Nat := 0
  clipK    : Nat := 0
  clipCols : Nat := 0
  /-- Wire code of the anchor table, 0 for a local node; one anchor, or the table's entries; exponent of the top term and
  of the term bound above the anchor. -/
  wire    : Nat := 0
  anchors : List Int := []
  etop    : Int := 0
  bound   : Int := 0
  sr      : Option SrCtx := none
  /-- The input stage: by row its blocks, each a scale or exponent byte and the element codes; `none`: a padding block, which
  holds zeros with scale byte 0x7F (R146). -/
  loaded  : Bool := false
  stage   : List (List (Option (Nat × List Nat))) := []
  /-- The 64 most recently verified tiles: operand (0 input, 1 weight), number, element codes, scale bytes (R134). -/
  verified : List (Nat × Nat × List Nat × List Byte) := []
  /-- The weight stream buffer (R133): blocks read so far, and its halves in the order of their broadcast, each with the blocks
  it has taken and those still to be broadcast (scale byte and element codes). -/
  wnext   : Nat := 0
  halves  : List (Nat × List (Nat × List Nat)) := []
  /-- Term slots broadcast by the 64 DPUs (R131, R136). -/
  used    : Nat := 0
  /-- The column group in progress, the slot (block and column) its next broadcast takes, LACC j of DPU d at 4 d + j
  (`none`: marked empty, R138). -/
  group   : Nat := 0
  slot    : Nat := 0
  lacc    : List (Option Acc) := []
  /-- Columns in the open staging bank, by column the 64 rows' values; full banks that wait for their write. -/
  bank    : List (List Acc) := []
  full    : List (List (List Acc)) := []
  /-- Banks written; some output or spill image has been. -/
  banks   : Nat := 0
  wrote   : Bool := false
  stats   : List RowStat := []
  retired : Nat := 0
  front   : Nat := 0
  back    : Nat := 0
  viol    : Nat := 0
  deriving DecidableEq, Repr, Inhabited

/-- The trellis run of an easel past its checks and its fence (05 R163, R180). -/
structure TrellisRun where
  rows    : Nat
  clipRows : Nat := 0
  /-- The row and sweep that come next. -/
  row     : Nat := 0
  sweep   : Nat := 0
  sweeps  : Nat := 0
  switch  : Nat := 0
  viol    : Nat := 0
  /-- The present row has met a violation (FLAGS of its adapter record). -/
  rowRange : Bool := false
  anchors : List (List Int) := []
  srs     : List (Option SrCtx) := []
  /-- Values of the row output streams that wait for their block of 32. -/
  held    : List (List Nat) := []
  deriving DecidableEq, Repr, Inhabited

/-- The trellis of one easel: resident images by slot, the slot of the previous run, cell registers V0 to V15 and adapters
A0, A1 of the 64 cells as last left. -/
structure Trellis where
  images   : List (Nat × List Byte) := []
  last     : Option Nat := none
  run      : Option TrellisRun := none
  /-- A run that has passed its checks and awaits its fence (05 R181). -/
  fenced   : Option TrellisRun := none
  cells    : List (List Nat) := []
  adapters : List (Acc × Acc) := []
  deriving DecidableEq, Repr, Inhabited

/-! ### Groups and communication queues (09) -/

/-- A group a queue holds (Table 9.1). -/
structure Group where
  id      : BitVec 32
  job     : BitVec 16
  part    : Nat
  cls     : Nat
  /-- START, COUNT, STRIDE of the axes S, H, P, D; `none`: unmasked. -/
  axes    : List (Option (Nat × Nat × Nat))
  own     : Coord
  minor   : Nat
  weight  : Nat
  staging : Addr
  /-- STAGING_SIZE in bytes. -/
  bytes   : Nat
  table   : Addr
  /-- Links on whose directions a share is reserved. -/
  links   : List Nat
  /-- Queue numbers of other members, by rank, where they differ from this module's (R315). -/
  peerQ   : List (Nat × Nat) := []
  deriving DecidableEq, Repr, Inhabited

/-- What has come from one sender for one step. -/
structure RxStream where
  step   : Nat
  rank   : Nat
  chunks : List (Nat × List Byte) := []
  last   : Option Nat := none
  deriving DecidableEq, Repr, Inhabited

/-- A chunk to send, and one in the send log (R338). -/
structure OutChunk where
  rank    : Nat
  step    : Nat
  idx     : Nat
  last    : Bool
  payload : List Byte
  deriving DecidableEq, Repr, Inhabited

structure LogChunk where
  seq     : BitVec 32
  sig     : BitVec 32
  /-- CHUNK_CRC of the logged copy, and where it lies: a slot of the staging area or of Ovind's working area. -/
  crc     : BitVec 32
  loc     : Option Addr
  /-- CRC of the anchor table at whose entries the sums were floored (03 R105). -/
  anchor  : BitVec 32
  tag     : Tag
  out     : OutChunk
  deriving DecidableEq, Repr, Inhabited

/-- One quickset reduction in progress (R336): payloads of the hedge's members and of the units below, by rank. -/
structure QsPart where
  /-- The combination (Table 9.6). -/
  qop    : Nat := 0
  vals   : List (Nat × List Byte) := []
  ups    : List (Nat × List Byte) := []
  sentUp : Bool := false
  result : Option (List Byte) := none
  deriving DecidableEq, Repr, Inhabited

/-- The operation a communication queue runs. -/
structure Coll where
  a       : Active
  sig     : BitVec 32 := 0
  /-- The schedule step, the ranks whose streams it awaits. -/
  step    : Nat := 0
  await   : List Nat := []
  rx      : List RxStream := []
  outq    : List OutChunk := []
  /-- Credits outstanding by rank. -/
  owed    : List (Nat × Nat) := []
  /-- Wire codes of the partial sums; blocks of the destination by number: scale byte and codes. -/
  work    : List Nat := []
  blocks  : List (Nat × Option (Nat × List Nat)) := []
  /-- Gathered tiles: rank, tile number, payload and sidecar bytes. -/
  tiles   : List (Nat × Nat × List Byte × List Byte) := []
  /-- Dispatched rows: expert slot, token, position, bytes. -/
  rows    : List (Nat × Nat × Nat × List Byte) := []
  anchors : List Int := []
  w       : Nat := 0
  bound   : Int := 0
  etop    : Int := 0
  crc     : BitVec 32 := 0
  /-- A reserved wire encoding has come from a link (03 R87). -/
  reserved : Bool := false
  sr      : Option SrCtx := none
  qs      : List (Nat × QsPart) := []
  /-- Quickset messages to send: rank, part, payload. -/
  qsOut   : List (Nat × Nat × List Byte) := []
  /-- The wait before messages that failed are tried again, and when it ends (08 R308). -/
  retryMs : Nat := 0
  retryAt : Nat := 0
  written : Bool := false
  sent    : Nat := 0
  received : Nat := 0
  resent  : Nat := 0
  stale   : Nat := 0
  /-- Counts of token exchange (Table 9.10). -/
  counts  : List Nat := []
  deriving DecidableEq, Repr, Inhabited

inductive CqState where
  | free | running | stopped
  deriving DecidableEq, Repr, Inhabited

/-- One communication queue: its CQ_ registers, its group, what the engine keeps. -/
structure Cq where
  base      : BitVec 59 := 0
  enable    : Bool := false
  st        : CqState := .free
  timeout   : BitVec 16 := 0x00C8
  sizeLog2  : BitVec 4 := 4
  lastFault : BitVec 16 := 0
  fPressure : Flag := {}
  fOrder    : Flag := {}
  fFault    : Flag := {}
  stale     : BitVec 32 := 0
  last      : BitVec 32 := 0
  head      : Nat := 0
  group     : Option Group := none
  committed : Bool := false
  destroying : Bool := false
  cur       : Option Coll := none
  /-- Slot credits by rank. -/
  credits   : List (Nat × Nat) := []
  /-- Chunks and messages of a later QSEQ or a newer attempt (R322, R326). -/
  deferred  : List Packet := []
  log       : List LogChunk := []
  /-- Logged chunks asked for again that wait for a credit (R318, R338). -/
  resends   : List LogChunk := []
  posted    : List (Nat × Option QEntry) := []
  /-- Accepted entries whose epoch may still be discarded: QSEQ, ring index, entry; those that replay first (10 R367). -/
  accepted  : List (BitVec 32 × Nat × QEntry) := []
  replay    : List (BitVec 32 × Nat) := []
  deriving DecidableEq, Repr, Inhabited

/-! ### Performance counters and wear (16 R510 to R521) -/

/-- The counter block of one logical easel. -/
structure Pct where
  cycle   : BitVec 64 := 0
  select  : BitVec 64 := 0
  enable  : Bool := true
  ovf     : List (Nat × Flag) := []
  cnt     : List (Nat × BitVec 48) := []
  retired : BitVec 64 := 0
  wasted  : BitVec 64 := 0
  front   : BitVec 64 := 0
  back    : BitVec 64 := 0
  /-- Pending accumulators by epoch number (R513). -/
  pend    : List (Nat × BitVec 64) := []
  /-- While FREEZE is 1: the 19 register slots as they stood (R514). -/
  frozen  : Option (List (BitVec 64)) := none
  deriving DecidableEq, Repr, Inhabited

/-- PCT_WINDOW and PCT_PORT (R517). -/
structure PctWin where
  seq     : BitVec 32 := 0
  us      : BitVec 20 := 0x003E8
  latched : List (Nat × BitVec 48) := []
  /-- The rack tick at which the open window began. -/
  start   : BitVec 64 := 0
  deriving DecidableEq, Repr, Inhabited

/-- One wear monitor: its samples by operating day, oldest first, and its last DAYS. -/
structure WearMon where
  samples : List (Nat × Int) := []
  last    : Nat := 0xFFFF
  /-- `MEM_CE_TOTAL` at the last reading of a memory monitor. -/
  seen    : Nat := 0
  deriving DecidableEq, Repr, Inhabited

structure Wear where
  /-- Operating days and the ms of the present one (R518). -/
  day  : Nat := 0
  ms   : Nat := 0
  mons : List (Nat × WearMon) := []
  deriving DecidableEq, Repr, Inhabited

/-! ### Guards, step records, jobs (03 R115 to R121, 11 R399 to R411, 14 R477) -/

/-- What Ovind keeps of a node in a step: the range level and format step, those last logged dry (03 R120); whether an
operation of this module has set RANGE in the present attempt (R108); the RANGE flag ORed over the group once the census
reduction is done (R117); the guard has cleared the node. -/
structure Guard where
  level    : Nat := 0
  fmt      : Nat := 0
  dryLevel : Nat := 0
  dryFmt   : Nat := 0
  range    : Bool := false
  reduced  : Option Bool := none
  clear    : Bool := false
  deriving DecidableEq, Repr, Inhabited

/-- A job partition (14 R477, 11 R402). -/
structure Job where
  used     : Bool := false
  id       : BitVec 16 := 0
  seed     : BitVec 64 := 0
  panels   : BitVec 48 := 0
  running  : Bool := false
  /-- Share class and weight (09 R344). -/
  cls      : BitVec 3 := 0
  weight   : BitVec 8 := 0
  /-- Mirror mode, interval, buddy map, as the job was created with (11 R402). -/
  mode     : BitVec 2 := 0
  interval : BitVec 14 := 100
  buddy    : BitVec 64 := 0
  graph    : Option GraphImage := none
  /-- What JOB_STATUS returns. -/
  status   : BitVec 16 := 0
  step     : BitVec 64 := 0
  lost     : BitVec 32 := 0
  /-- The engine queue whose operation failed with the status of a FAULT smudge (10 R540). -/
  failEngine : Option Nat := none
  /-- PARTITION_STOP is in progress. -/
  stopping : Bool := false
  /-- COUNTER_GRANT as it stands, and a change that waits for the next snapshot point (16 R515). -/
  grant    : Bool := false
  grantNext : Option Bool := none
  /-- CRC-32C of each batch as logged at its first use (11 R401). -/
  batchCrcs : List (Nat × Option (BitVec 32)) := []
  /-- Guards by step number [31:0] × 2^32 + node id. -/
  guards   : List (Nat × Guard) := []
  /-- Census records as the last epoch that wrote them left them dry, by address (02 R79). -/
  dryCensus : List (Nat × List Byte) := []
  /-- MAX_SCALE bytes written into operands' descriptors, by the descriptor's address (03 R99). -/
  scales   : List (Nat × BitVec 8) := []
  records  : List StepRec := []
  /-- Step of the job's last committed checkpoint, its rollback generation r, what CKP_STATE.PHASE reads. -/
  lastCommit : BitVec 32 := 0xFFFFFFFF
  rollbacks  : BitVec 16 := 0
  phase    : BitVec 3 := 0
  /-- Varnish posting is held; held since the commit of the last checkpoint (11 R404, R408). -/
  varHeld  : Bool := false
  heldSince : Bool := true
  /-- The checkpoint being copied, whether its retry is used. -/
  ckpt     : Option (BitVec 64) := none
  retried  : Bool := false
  /-- A checkpoint has been asked for at the end of the step (11 R399). -/
  asked    : Bool := false
  /-- Substitutions of lost modules (09 R311). -/
  subst    : List (Nat × BitVec 17) := []
  /-- One above the highest index DRY before the last rollback, 0 for none (16 Table 16.5), and the first index never opened
  (11 R408). -/
  dryBefore : BitVec 64 := 0
  replayTo : Nat := 0
  /-- Varnish entries posted and not complete, by unit (11 R395, R400). -/
  varOpen  : List (Nat × QEntry) := []
  /-- Holders of this module's checkpoint, the first of which keeps its peer step log (11 Table 11.6). -/
  holders  : List (BitVec 17) := []
  /-- Anchors of the carried tables computed for the next step (03 R101). -/
  anchors  : List StepAnchor := []
  /-- p1 and p2 of each parameter set as the last step record left them (11 R389). -/
  powers   : List (BitVec 32 × BitVec 32) := []
  deriving DecidableEq, Repr, Inhabited

/-- The CKP_ registers of one partition, PHASE apart; module reset is their domain (11 "Checkpoint registers"). -/
structure Ckp where
  lastCommit : BitVec 32 := 0xFFFFFFFF
  rollbacks  : BitVec 8 := 0
  mode       : BitVec 2 := 0
  interval   : BitVec 14 := 100
  commit     : Flag := {}
  torn       : Flag := {}
  rollback   : Flag := {}
  takeover   : Flag := {}
  deriving DecidableEq, Repr, Inhabited

/-! ### Managers (01 R40 to R45, 10 R353 to R371, 11 R404 to R411) -/

structure Vote where
  level   : Nat
  index   : BitVec 64
  attempt : BitVec 8
  sender  : BitVec 17
  /-- The step it names and the modules it covers. -/
  step    : BitVec 32 := 0
  count   : BitVec 32 := 1
  deriving DecidableEq, Repr, Inhabited

/-- What a manager keeps of one job. -/
structure Mgr where
  votes    : List Vote := []
  /-- The next index to be declared dry, and the modules that the last notice covered. -/
  next     : BitVec 64 := 0
  modules  : BitVec 32 := 1
  /-- The discard set being settled: BASE, MASK, step of BASE, round. -/
  settling : Bool := false
  base     : BitVec 8 := 0
  mask     : BitVec 8 := 0
  baseStep : BitVec 32 := 0
  round    : Nat := 0
  cause    : BitVec 8 := 0
  reporter : BitVec 17 := 0
  /-- Reports that join at the next round. -/
  joining  : BitVec 8 := 0
  /-- CLOSURE replies of this round: sender, mask, modules covered. -/
  closures : List (BitVec 17 × BitVec 8 × BitVec 32) := []
  /-- FAULT reports settled once: failing epoch index, status, attempt (10 R540). -/
  faults   : List (BitVec 8 × BitVec 16 × BitVec 8) := []
  /-- Discards of an epoch within a step, and the causes and modules that reported it (10 R370). -/
  discards : List (Nat × Nat) := []
  blames   : List (BitVec 8 × BitVec 8 × BitVec 17) := []
  /-- A cause other than GUARD and FAULT is being settled. -/
  serious  : Bool := false
  stopped  : Bool := false
  /-- Voters awaited by level, and discards logged once (10 R353, R354). -/
  awaits   : List (Nat × List (BitVec 17)) := []
  logged   : List (BitVec 17 × BitVec 8) := []
  /-- The checkpoint being collected, and the modules that have reported. -/
  ckpt     : Option (BitVec 64) := none
  reports  : List (BitVec 17) := []
  /-- The last committed checkpoint. -/
  commit   : Option (BitVec 64) := none
  rollGen  : BitVec 16 := 0
  /-- The replay waits for these reset modules (11 R408, 12 R426). -/
  waits    : List (BitVec 17) := []
  lost     : List (BitVec 17) := []
  /-- DEGRADED modules to be replaced at the next commit (11 R411). -/
  replace  : List (BitVec 17) := []
  deriving DecidableEq, Repr, Inhabited

structure Roles where
  /-- The role map in force and one that waits, by coordinate (worker where unlisted). -/
  map     : List (Nat × Role) := []
  loaded  : Bool := false
  pendingMap : Option (List (Nat × Role)) := none
  gen     : BitVec 16 := 0
  role    : Role := .machine
  /-- Dormant: waits for a role map after a power cycle (12 R427). -/
  waiting : Bool := false
  /-- Time of the last heartbeat of each level, and who sent it. -/
  beats   : List (Nat × Nat) := []
  holders : List (Nat × Option (BitVec 17)) := []
  /-- Modules whose RESET_NOTICE holds off their loss, modules that have reported DEGRADED. -/
  notices : List (BitVec 17) := []
  degraded : List (BitVec 17) := []
  /-- Spares that have taken a lost module's place since the role map was loaded (11 R410). -/
  taken    : List (BitVec 17) := []
  deriving DecidableEq, Repr, Inhabited

/-! ### Duplicates, suspects, test packages (10 R372 to R386) -/

/-- A sampled unit's duplicate (10 R374). -/
structure Dup where
  id    : BitVec 32
  /-- The easel that ran the original; for a mover unit the mover's panel × 16 + number. -/
  easel : Nat
  mover : Bool := false
  part  : Nat
  epoch : BitVec 8
  node  : BitVec 32
  tile  : BitVec 64
  /-- Waits for a check buffer; runs; the third execution runs. -/
  waits : Bool := true
  third : Bool := false
  /-- The original's result and the duplicate's, once they differ. -/
  results : List Byte × List Byte := ([], [])
  deriving DecidableEq, Repr, Inhabited

/-- An easel whose execution of a unit is doubted (10 R377, R378). -/
structure Suspect where
  easel : Nat
  part  : Nat
  epoch : BitVec 8 := 0
  node  : BitVec 32
  tile  : BitVec 64
  outcome : Nat := 0
  /-- Its earlier result while the unit's inputs are there, and that result's CRC-32C. -/
  result : Option (List Byte) := none
  crc    : BitVec 32 := 0
  /-- The result standing, and its repeat while those of the unit's other suspects are awaited. -/
  standing : Option (List Byte) := none
  rep    : Option (List Byte) := none
  deriving DecidableEq, Repr, Inhabited

structure Tpk where
  id      : BitVec 32
  version : BitVec 32
  use     : BitVec 16
  items   : Nat
  bytes   : List Byte
  deriving DecidableEq, Repr, Inhabited

structure Integ where
  /-- The number the next duplicate takes (the model's own). -/
  dupCtr   : BitVec 32 := 0
  dups     : List Dup := []
  suspects : List Suspect := []
  tpks     : List Tpk := []
  /-- The module has reported DEGRADED. -/
  degraded : Bool := false
  /-- Varnish datapath mismatches of the present step, by unit (11 R393). -/
  varMiss  : List (Nat × Nat) := []
  /-- VNU_COUNT.UPDATED and VNU_SKIP.SKIPPED by unit. -/
  updated  : List (Nat × BitVec 48) := []
  skipped  : List (Nat × BitVec 48) := []
  deriving DecidableEq, Repr, Inhabited

/-! ### Watchdogs and resets (12) -/

/-- A reset in progress (12 R417, R420). -/
structure Episode where
  level  : Nat
  /-- Logical easel (levels 1, 2), partition (level 3), 0 (levels 4, 5). -/
  target : Nat
  status : BitVec 16
  engine : Nat := 0xFFFF
  begun  : Nat := 0
  deriving DecidableEq, Repr, Inhabited

/-- A question to the hedge manager whether a module is lost, and the hangs that wait for it (12 R415). -/
structure Query where
  coord : BitVec 17
  /-- Level and target of the resets that wait, the engine of each. -/
  waits : List (Nat × Nat × Nat) := []
  deriving DecidableEq, Repr, Inhabited

structure WdgEng where
  hangs   : BitVec 16 := 0
  sinceUs : BitVec 32 := 0
  deriving DecidableEq, Repr, Inhabited

structure Wdg where
  limitMs  : BitVec 16 := 0x32
  hang     : Flag := {}
  reset    : Flag := {}
  escalated : Flag := {}
  moduleResets : BitVec 16 := 0
  status   : BitVec 16 := 0
  level    : BitVec 4 := 0
  engines  : List (Nat × WdgEng) := []
  episodes : List Episode := []
  queries  : List Query := []
  /-- Time of the last completed easel-level reset, and samples taken, by logical easel. -/
  lastReset : List (Nat × Nat) := []
  samples  : List (Nat × Nat) := []
  /-- Queues held from a reset until FINAL (12 R423): engine queues under their numbers, communication queue `q` under 1,744 + `q`. -/
  held     : List (Nat × Bool) := []
  deriving DecidableEq, Repr, Inhabited

/-! ### Power (13) -/

structure PState where
  cur : BitVec 4 := 0xF
  tgt : BitVec 4 := 0xF
  req : BitVec 4 := 0xF
  /-- The state it steps to, during a step (13 R432). -/
  moving : Option (BitVec 4) := none
  deriving DecidableEq, Repr, Inhabited

inductive DomState where
  | off | up | on | down | retention
  deriving DecidableEq, Repr, Inhabited

structure Domain where
  st    : DomState := .off
  votes : BitVec 7 := 0
  deriving DecidableEq, Repr, Inhabited

/-- A transition of the module state in progress (13 Table 13.6). -/
inductive MTrans where
  | entry (dest : BitVec 2)
  | exit
  deriving DecidableEq, Repr, Inhabited

structure Pwr where
  peak      : BitVec 16 := 0x0CE4
  sus       : BitVec 16 := 0x0AF0
  measured  : BitVec 16 := 0
  estimate  : BitVec 16 := 0
  /-- ACTING_W in 0.01 W. -/
  acting    : Nat := 0
  cap       : BitVec 4 := 0
  throttle  : BitVec 4 := 0xF
  mstate    : BitVec 2 := 0
  failed    : Bool := false
  fPeak     : Flag := {}
  fSus      : Flag := {}
  fSuspect  : Flag := {}
  fDroop    : Flag := {}
  gain      : BitVec 16 := 0x1000
  calLimit  : Bool := false
  late      : Flag := {}
  sources   : BitVec 4 := 0
  lastSource : BitVec 4 := 0
  rtc       : BitVec 64 := 0
  alarmOn   : Bool := false
  alarmAt   : BitVec 63 := 0
  hours     : BitVec 8 := 6
  pstates   : List (Nat × PState) := []
  /-- acc(k) of R444, in microjoules. -/
  energy    : List (Nat × Nat) := []
  domains   : List (Nat × Domain) := []
  /-- Easels whose clock is stretched by droop (R434). -/
  stretched : List (Nat × Bool) := []
  /-- Time of the last DROOP_PERSIST record by panel (R435). -/
  droopRec  : List (Nat × Nat) := []
  /-- The estimator's sums of the present ms and their count, in units of 1/`estDen` W (R437, R438): panel and glaze
  terms by account (4 unowned), link terms, LPDDR5X terms. -/
  est       : List (Nat × Nat) := []
  eLink     : Nat := 0
  eLp       : Nat := 0
  eCnt      : Nat := 0
  /-- Acting values of the last 1 s, in 0.01 W, newest first. -/
  hist      : List Nat := []
  lastLower : Option Nat := none
  lastChange : Option Nat := none
  /-- ms intervals in disagreement and in agreement in a row, the open episode, the last calibration (R441). -/
  disagree  : Nat := 0
  agree     : Nat := 0
  suspect   : Bool := false
  lastCal   : Option Nat := none
  /-- (m, e1) of the last 10 ms, newest first. -/
  pairs     : List (Nat × Nat) := []
  lowRuns   : Nat := 0
  /-- Since when full throttling stands above the limit, and the time of the last record (R440). -/
  overSince : Option Nat := none
  limitRec  : Option Nat := none
  trans     : Option MTrans := none
  latched   : Option (BitVec 4) := none
  arrived   : BitVec 4 := 0
  selfTest  : Bool := false
  clocksGated : Bool := false
  deriving DecidableEq, Repr, Inhabited

/-! ### Mailbox and hosts (14) -/

inductive SlotState where
  | free | posted | accepted | done
  deriving DecidableEq, Repr, Inhabited

/-- A mailbox slot: its header fields and payload (14 Table 14.5). -/
structure Slot where
  st     : SlotState := .free
  req    : SlotReq := {}
  status : BitVec 16 := 0
  resp   : List Byte := []
  seq    : BitVec 48 := 0
  deriving DecidableEq, Repr, Inhabited

/-- An accepted command that has not completed. -/
structure Cmd where
  seq     : BitVec 48
  port    : Port
  slot    : Nat
  req     : SlotReq
  /-- The slot still awaits the response (no port reset since, R458). -/
  live    : Bool := true
  /-- It has started and waits: a take, a stop, a read for dry tags, an erase, a programming. -/
  waiting : Bool := false
  /-- Time of acceptance. -/
  since   : Nat := 0
  deriving DecidableEq, Repr, Inhabited

structure Seg where
  base   : BitVec 32 := 0
  job    : BitVec 16 := 0
  enable : Bool := false
  deriving DecidableEq, Repr, Inhabited

structure PortSt where
  up       : Bool := false
  discards : BitVec 32 := 0
  fDiscard : Flag := {}
  fUr      : Flag := {}
  fOwner   : Flag := {}
  segs     : List (Nat × Seg) := []
  slots    : List (Nat × Slot) := []
  /-- SPDM negotiation of the port's DOE (15 R492): version, capabilities, algorithms agreed. -/
  spdm     : Nat := 0
  deriving DecidableEq, Repr, Inhabited

structure Mbx where
  a         : PortSt := {}
  b         : PortSt := {}
  owner     : Option Port := none
  recovery  : Bool := false
  /-- The take that awaits the owner's answer. -/
  take      : Option (BitVec 48) := none
  lapsed    : Bool := false
  ageMs     : BitVec 32 := 0
  /-- The slot accepted last, 0 to 15. -/
  last      : Nat := 15
  nextSeq   : BitVec 48 := 0
  cmds      : List Cmd := []
  /-- An update in progress: SIZE and the staged bytes; its holder in recovery; being programmed. -/
  fwSize    : Option Nat := none
  staged    : List (Nat × Byte) := []
  holder    : Option Port := none
  programming : Bool := false
  /-- Staging granules of LPDDR5X (R481). -/
  fwGranules : List Nat := []
  /-- OTP unreadable or a strap parity error: held in ST1 (14 Table 14.11). -/
  fault     : Bool := false
  deriving DecidableEq, Repr, Inhabited

/-! ### Flash (14 R478) -/

structure Flash where
  image     : List (Nat × Byte) := []
  roleMap   : Option (List (Nat × Role)) := none
  /-- Retirements: easel maps as last recorded (01 R25). -/
  emap      : List (Nat × PanelMap) := []
  obs       : List (Nat × Obs) := []
  region    : List (Nat × BitVec 8) := []
  jobs      : List (Nat × Nat) := []
  limits    : Option (BitVec 16 × BitVec 16) := none
  hold      : Bool := false
  erased    : Bool := false
  /-- The alarm log, newest first: SOURCE, RESPONSE, EPOCH, record number (15 R496). -/
  alarms    : List (Nat × Nat × Nat × BitVec 48) := []
  /-- The identity certificate chain and the epoch it was issued for (15 R490). -/
  chain     : Option (List Byte × Nat) := none
  deriving DecidableEq, Repr, Inhabited

/-! ### OTP and security (15) -/

inductive OtpSlot where
  | unused
  | spoiled
  | written (value : List Byte) (crcOk : Bool)
  deriving DecidableEq, Repr, Inhabited

structure Sec where
  flags    : List (Nat × Flag) := []
  active   : BitVec 5 := 0
  hold     : Bool := false
  erased   : Bool := false
  disabled : Bool := false
  /-- REVOKE bits programmed, and whether one was in this episode (R499). -/
  revoke   : Nat := 0
  revoked  : Bool := false
  nonce    : BitVec 64 := 0
  /-- The attestation key cache holds its key. -/
  attKey   : Bool := false
  /-- OTP slots by field * 4 + slot; unlisted: as manufactured. -/
  otp      : List (Nat × Option OtpSlot) := []
  /-- Values in force of fields written since the ST1 or ST3 at which the new value takes effect (R488). -/
  held     : List (Nat × Option (List Byte)) := []
  /-- Times of far-link IDENTIFY failures and of commands failed with ST_AUTH in the last 60 s. -/
  identFails : List Nat := []
  authFails : List Nat := []
  deriving DecidableEq, Repr, Inhabited

/-! ### Supplies, pins, sensors (17) -/

structure Elec where
  /-- Standby is good and the always-on island runs; main lies within its range. -/
  stby     : Bool := true
  mainGood : Bool := true
  /-- The main conversion is off under R532 or R538. -/
  convOff  : Bool := false
  /-- Start-up follows once both inputs are in range (R530, R532). -/
  startDue : Bool := false
  /-- The conversion restarts only after standby has been removed (R538). -/
  tripped  : Bool := false
  /-- `TRAY_PWR_REQ`; the two causes of `ALERT#` (R538). -/
  pwrReq   : Bool := false
  dieAlert : Bool := false
  outAlert : Bool := false
  /-- LPDDR5X has lost its contents since the last ST3, which trains it cold. -/
  cold     : Bool := true
  deriving DecidableEq, Repr, Inhabited

/-- Versions of the running firmware and of its protocols (08 R291, R292; 14 R479). -/
structure Fw where
  major     : BitVec 16 := 1
  minor     : BitVec 16 := 0
  collAbi   : BitVec 16 := 0x0100
  protoMask : BitVec 16 := 0x0002
  /-- Header of the image that runs (R479). -/
  header    : List Byte := []
  deriving DecidableEq, Repr, Inhabited

structure State where
  /-- Commands that wait, first in, first out. -/
  pending : List Instr := []
  dp      : Dp := {}
  clk     : Clk := {}
  emap    : List (Nat × PanelMap) := []
  eqs     : List (Nat × Eq) := []
  /-- The array operation of each logical easel, and its trellis (04, 05). -/
  arrays  : List (Nat × Option ArrayRun) := []
  trellises : List (Nat × Trellis) := []
  cqs     : List (Nat × Cq) := []
  lnk     : Lnk := {}
  /-- Link shares by link * 8 + class (09 R344, R346). -/
  shares  : List (Nat × Share) := []
  /-- Byte counters of the open port window (16 R517), the window and its latched counts. -/
  portRun : List (Nat × Nat) := []
  win     : PctWin := {}
  pcts    : List (Nat × Pct) := []
  wear    : Wear := {}
  /-- Job partitions (14 R477). -/
  jobs    : List (Nat × Job) := []
  /-- Start-up stage, 0 to 5 (14 R483); reset stands at ST1. -/
  stage   : Nat := 1
  mgrs    : List (Nat × Mgr) := []
  roles   : Roles := {}
  integ   : Integ := {}
  wdg     : Wdg := {}
  pwr     : Pwr := {}
  mbx     : Mbx := {}
  flash   : Flash := {}
  sec     : Sec := {}
  elec    : Elec := {}
  /-- What the running firmware states of itself (14 Table 14.10, 08 R291). -/
  fw      : Fw := {}
  /-- Checkpoint registers by partition (11). -/
  ckps    : List (Nat × Ckp) := []
  deriving DecidableEq, Repr

/-- The module right after reset (every field at its spec value, or at the value its log entry names). -/
def State.reset : State := {}

end Sys2Proof.Machine
end

