-- ==== Sys2Proof/Machine/Ops.lean ====
section
/-! DEFINITION. Shared operations: sparse maps, bytes and fields, status codes, flags, CRC-32C, the event recorder, MSI-X. -/
namespace Sys2Proof.Machine

/-! ### Sparse maps: sorted keys, no entry equal to the default -/

/-- The value at a key; `d` where nothing is listed. -/
def Sparse.get {α : Type} (d : α) : List (Nat × α) → Nat → α
  | [], _ => d
  | (k', v) :: r, k => if k = k' then v else Sparse.get d r k

def Sparse.del {α : Type} (m : List (Nat × α)) (k : Nat) : List (Nat × α) := m.filter fun e => e.1 != k

def Sparse.ins {α : Type} : List (Nat × α) → Nat → α → List (Nat × α)
  | [], k, v => [(k, v)]
  | (k', v') :: r, k, v =>
    if k = k' then (k, v) :: r else if k < k' then (k, v) :: (k', v') :: r else (k', v') :: Sparse.ins r k v

/-- Writing the default removes the entry, so that equal maps are equal lists. -/
def Sparse.set {α : Type} [DecidableEq α] (d : α) (m : List (Nat × α)) (k : Nat) (v : α) : List (Nat × α) :=
  if v = d then Sparse.del m k else Sparse.ins m k v

/-- Change the value at a key. -/
def Sparse.upd {α : Type} [DecidableEq α] (d : α) (m : List (Nat × α)) (k : Nat) (f : α → α) : List (Nat × α) :=
  Sparse.set d m k (f (Sparse.get d m k))

/-- Change every listed value. -/
def Sparse.mapVal {α : Type} [DecidableEq α] (d : α) (f : α → α) (m : List (Nat × α)) : List (Nat × α) :=
  m.filterMap fun e => if f e.2 = d then none else some (e.1, f e.2)

/-- The keys rise strictly above `lo` and no entry is the default. -/
def Sparse.wfFrom {α : Type} [DecidableEq α] (d : α) : Nat → List (Nat × α) → Bool
  | _, [] => true
  | lo, (k, v) :: r => decide (lo ≤ k) && decide (v ≠ d) && Sparse.wfFrom d (k + 1) r

/-- The canonical form of a sparse map. -/
def Sparse.wf {α : Type} [DecidableEq α] (d : α) (m : List (Nat × α)) : Bool := Sparse.wfFrom d 0 m

/-! ### Numbers, bytes and fields (00 R6: little-endian) -/

/-- Bits [hi:lo] of a number. -/
def bitsOf (x hi lo : Nat) : Nat := x / 2 ^ lo % 2 ^ (hi + 1 - lo)

/-- Bit `i` of a number. -/
def bitOf (x i : Nat) : Bool := x / 2 ^ i % 2 == 1

/-- The `n` low bytes of a number, least significant first. -/
def le : Nat → Nat → List Byte
  | 0, _ => []
  | n + 1, x => BitVec.ofNat 8 x :: le n (x / 256)

/-- The number that little-endian bytes spell. -/
def unle : List Byte → Nat
  | [] => 0
  | b :: r => b.toNat + 256 * unle r

/-- The little-endian number of `n` bytes at offset `off`. -/
def fld (l : List Byte) (off n : Nat) : Nat := unle ((l.drop off).take n)

/-- `n` bytes from offset `off`. -/
def slice (l : List Byte) (off n : Nat) : List Byte := (l.drop off).take n

/-- `l` with `v` written over it from offset `off`. -/
def overlay (l : List Byte) (off : Nat) (v : List Byte) : List Byte :=
  l.take off ++ v ++ l.drop (off + v.length)

/-- All bytes are zero. -/
def zeros (l : List Byte) : Bool := l.all (· == 0)

def boolN (b : Bool) : Nat := if b then 1 else 0

/-- The two's complement value of the low `w` bits. -/
def sext (w x : Nat) : Int := let y := x % 2 ^ w; if y < 2 ^ (w - 1) then (y : Int) else (y : Int) - 2 ^ w

/-- The `w`-bit code of an integer. -/
def code (w : Nat) (x : Int) : Nat := (x % 2 ^ w).toNat

/-- Put an element before the first that comes after it or equals it in the order. -/
def insertSorted {α : Type} (before : α → α → Bool) (a : α) : List α → List α
  | [] => [a]
  | b :: r => if before a b then a :: b :: r else b :: insertSorted before a r

/-- A list in order, equal elements as they stood. -/
def sortWith {α : Type} (before : α → α → Bool) (l : List α) : List α := l.foldr (insertSorted before) []

/-- The distinct numbers of a list, ascending. -/
def ascending (l : List Nat) : List Nat := sortWith (fun a b => decide (a ≤ b)) l.eraseDups

def ceilDiv (a b : Nat) : Nat := (a + b - 1) / b

/-- ceil(log2 n), 0 for n ≤ 1. -/
def clog2 (n : Nat) : Nat := if n ≤ 1 then 0 else Nat.log2 (n - 1) + 1

end Sys2Proof.Machine

namespace Sys2Proof

/-! ### Status codes (00 Table 0.5) -/

def Status.toCode : Status → BitVec 16
  | .ok => 0x0000 | .pending => 0x0001
  | .mbxBusy => 0x0101 | .badOpcode => 0x0102 | .notOwner => 0x0103 | .booting => 0x0104 | .imageMajor => 0x0105
  | .align => 0x0201 | .bounds => 0x0202 | .overlap => 0x0203 | .fieldReserved => 0x0204
  | .indexRange => 0x0205 | .rank => 0x0206 | .checkTile => 0x0207
  | .rangeViolation => 0x0301 | .nonfinite => 0x0302
  | .linkNotReady => 0x0401 | .linkQuarantine => 0x0402 | .protocolMismatch => 0x0403
  | .collOrder => 0x0501 | .queueExhausted => 0x0502 | .routeConflict => 0x0503 | .groupAbi => 0x0504
  | .wetWrite => 0x0601 | .smudged => 0x0602 | .dupMismatch => 0x0603 | .wet => 0x0604
  | .hang => 0x0701 | .resetEscalated => 0x0702
  | .powerLimit => 0x0801 | .sensorSuspect => 0x0802
  | .auth => 0x0901 | .alarm => 0x0902

def Status.all : List Status :=
  [.ok, .pending, .mbxBusy, .badOpcode, .notOwner, .booting, .imageMajor, .align, .bounds, .overlap,
   .fieldReserved, .indexRange, .rank, .checkTile, .rangeViolation, .nonfinite, .linkNotReady, .linkQuarantine,
   .protocolMismatch, .collOrder, .queueExhausted, .routeConflict, .groupAbi, .wetWrite, .smudged, .dupMismatch,
   .wet, .hang, .resetEscalated, .powerLimit, .sensorSuspect, .auth, .alarm]

/-- The status a code names, when Table 0.5 lists it. -/
def Status.ofCode (c : Nat) : Option Status := Status.all.find? (fun s => s.toCode.toNat == c)

/-- The group of a status: the high byte of its code (R14). -/
def Status.group (s : Status) : Nat := s.toCode.toNat / 256

/-! ### Coordinates and atelier addresses (00 R5, 07 R244, R245) -/

def Coord.code (c : Coord) : BitVec 17 := c.site ++ c.pod ++ c.hedge ++ c.slot

def Coord.ofCode (x : BitVec 17) : Coord :=
  { site := x.extractLsb' 14 3, pod := x.extractLsb' 10 4, hedge := x.extractLsb' 4 6, slot := x.extractLsb' 0 4 }

end Sys2Proof

namespace Sys2Proof.Machine

/-- Where an address points: a space and local offset of this module, or of another. -/
inductive Target where
  | here (space off : Nat)
  | far (c : Coord) (space off : Nat)
  deriving DecidableEq, Repr

/-- Resolve an atelier address for the module at `own` (R244, R245); `none` is ST_BOUNDS. -/
def resolve (own : Coord) (a : Addr) : Option Target :=
  let off := (a.extractLsb' 0 43).toNat
  let space := (a.extractLsb' 43 4).toNat
  if space = 15 then
    let sp := (a.extractLsb' 47 4).toNat
    if a.extractLsb' 51 13 = 0 ∧ sp ≤ 2 then some (.here sp off) else none
  else if space ≤ 2 then
    let c := Coord.ofCode (a.extractLsb' 47 17)
    if c = own then some (.here space off) else some (.far c space off)
  else none

/-- The address of a local offset in this module's own coordinates. -/
def ownAddr (own : Coord) (space off : Nat) : Addr := own.code ++ BitVec.ofNat 4 space ++ BitVec.ofNat 43 off

/-! ### Flags (00 R8, R9) -/

/-- A hardware set: the flag rises and its counter counts, wrapping at 0xFFFF. -/
def Flag.hwSet (f : Flag) : Flag := { set := true, cnt := f.cnt + 1 }

/-- A software write of bit value `w` in the cycle in which hardware does (`hw`) or does not set the flag. -/
def Flag.write (f : Flag) (w hw : Bool) : Flag :=
  if hw then f.hwSet else if w then { f with set := false } else f

/-! ### CRC-32C (06 R195: polynomial 0x1EDC_6F41 reflected, initial value and final XOR all ones) -/

def crcBit (c : BitVec 32) : BitVec 32 := if c.getLsbD 0 then (c >>> 1) ^^^ 0x82F63B78#32 else c >>> 1

def crcByte (c : BitVec 32) (b : Byte) : BitVec 32 :=
  crcBit (crcBit (crcBit (crcBit (crcBit (crcBit (crcBit (crcBit (c ^^^ b.setWidth 32))))))))

def crc32c (l : List Byte) : BitVec 32 := ~~~ (l.foldl crcByte (BitVec.allOnes 32))

/-! ### MSI-X (14 R465) -/

def Dp.msix (d : Dp) : Port → List (Nat × MsixEntry)
  | .A => d.msixA
  | .B => d.msixB

def Dp.setMsix (d : Dp) (p : Port) (m : List (Nat × MsixEntry)) : Dp :=
  match p with
  | .A => { d with msixA := m }
  | .B => { d with msixB := m }

def Dp.send (d : Dp) (m : OutMsg) : Dp := { d with out := d.out ++ [m] }

/-- Raise a vector: a masked one becomes pending, another is sent. -/
def Dp.raise (d : Dp) (p : Port) (v : Nat) : Dp :=
  let e := Sparse.get {} (d.msix p) v
  if e.masked then d.setMsix p (Sparse.set {} (d.msix p) v { e with pending := true })
  else d.send (.msix p v e.addr e.data)

def Dp.raiseBoth (d : Dp) (v : Nat) : Dp := (d.raise .A v).raise .B v

/-! ### Managers (01 R41, R44) -/

/-- The levels a role manages: a pod manager is a hedge manager too, the machine manager both. -/
def roleLevels : Role → Nat
  | .hedge => 1 | .pod => 2 | .machine => 3 | _ => 0

/-- A manager that returns from a reset or from M2 or M3 is a worker until a role map is loaded (01 R44). -/
def returnedRole (r : Role) : Role := if 0 < roleLevels r then .worker else r

/-! ### The event recorder (16 R502 to R505) -/

/-- SOURCE of a record: kind [15:12], index [11:0] (16 Table 16.2). -/
def src (kind index : Nat) : BitVec 16 := BitVec.ofNat 16 (kind * 4096 + index % 4096)

/-- A record as read: 64 bytes, CRC last (16 Table 16.1). -/
def Record.bytes (r : Record) : List Byte :=
  let body := le 6 r.seq.toNat ++ le 2 r.type.toNat ++ le 2 r.source.toNat ++ le 2 r.status.toNat ++ le 8 0
    ++ (r.payload ++ List.replicate 40 0).take 40
  body ++ le 4 (crc32c body).toNat

/-- A record that arrives to a full log or a full buffer is dropped (R504, R505). -/
def Evr.dropOne (e : Evr) : Evr :=
  { e with dropped := if e.dropped = BitVec.allOnes 32 then e.dropped else e.dropped + 1, drop := e.drop.hwSet }

/-- The record that enters takes NEXT_SEQ (R503). -/
def Evr.push (e : Evr) (type source status : BitVec 16) (payload : List Byte) : Evr :=
  { e with buffer := e.buffer ++ [{ seq := e.nextSeq, type, source, status, payload }], nextSeq := e.nextSeq + 1 }

/-- Log a record: dropped, or numbered; the one that fills the log sets FULL and raises vector 12 (R505). -/
def Dp.record (d : Dp) (type : Nat) (source : BitVec 16) (st : Status) (payload : List Byte) : Dp :=
  if d.evr.full || decide (512 ≤ d.evr.buffer.length) then { d with evr := d.evr.dropOne }
  else
    let e := d.evr.push (BitVec.ofNat 16 type) source st.toCode payload
    if (e.nextSeq - e.firstSeq).toNat = 16384 then
      ({ d with evr := { e with full := true, fullEvent := e.fullEvent.hwSet } } : Dp).raiseBoth 12
    else { d with evr := e }

/-! ### Partitions' wet/dry state (10 R351) -/

def Dp.wetPart (d : Dp) (k : Nat) : WetPart := Sparse.get {} d.wet k

def Dp.updWet (d : Dp) (k : Nat) (f : WetPart → WetPart) : Dp := { d with wet := Sparse.upd {} d.wet k f }

def WetPart.ent (w : WetPart) (e : Nat) : EpochEnt := Sparse.get {} w.ents e

def WetPart.updEnt (w : WetPart) (e : Nat) (f : EpochEnt → EpochEnt) : WetPart :=
  { w with ents := Sparse.upd {} w.ents e f }

def WetPart.inf (w : WetPart) (e : Nat) : EpochInfo := Sparse.get {} w.info e

def WetPart.updInf (w : WetPart) (e : Nat) (f : EpochInfo → EpochInfo) : WetPart :=
  { w with info := Sparse.upd {} w.info e f }

/-- A tag is dry only when its entry holds its step and STATE DRY (R351). -/
def WetPart.isDry (w : WetPart) (t : Tag) : Bool :=
  let e := w.ent t.epoch.toNat
  decide (e.state = .dry) && decide (e.step = t.step)

/-- The 64-bit register image of an entry (10 WET_EPOCH). -/
def EpochEnt.image (e : EpochEnt) : Nat :=
  (match e.state with | .free => 0 | .wet => 1 | .dry => 2 | .smudged => 3) * 2 ^ 62
    + e.consumed.toNat * 2 ^ 40 + e.attempt.toNat * 2 ^ 32 + e.step.toNat

/-! ### Free values -/

/-- Draw a fresh free 64-bit word and advance the counter. -/
def Dp.draw (d : Dp) : BitVec 64 × Dp := (Config.freeWord d.freeCtr, { d with freeCtr := d.freeCtr + 1 })

end Sys2Proof.Machine
end

