-- ==== Sys2Proof/Machine/CheckCode.lean ====
section
/-! DEFINITION. The check code RS(36,32) of a stored word, its decoder, and the raw layout of LPDDR5X (07 R232, R235). -/
namespace Sys2Proof.Machine

/-! ### GF(2^8) over x^8 + x^4 + x^3 + x^2 + 1 -/

/-- Product with α = 0x02. -/
def gfDouble (a : Byte) : Byte := if a.getLsbD 7 then (a <<< 1) ^^^ 0x1D else a <<< 1

def gfMul (a b : Byte) : Byte :=
  (List.range 8).foldr (fun i r => (if b.getLsbD i then a else 0) ^^^ gfDouble r) 0

/-- α to the power n. -/
def gfAlpha : Nat → Byte
  | 0 => 1
  | n + 1 => gfDouble (gfAlpha n)

/-! ### The code (R235) -/

/-- The generator (x + 1)(x + α)(x + α²)(x + α³), coefficients of x³ to x⁰ below its leading x⁴. -/
def rsGen : List Byte := [15, 54, 120, 64]

/-- One byte of the division by the generator; the remainder stands highest power first. -/
def rsStep (r : List Byte) (b : Byte) : List Byte :=
  let f := b ^^^ r.headD 0
  List.zipWith (fun x g => x ^^^ gfMul f g) (r.drop 1 ++ [0]) rsGen

/-- The four check bytes of a word's data. -/
def rsCheck (data : List Byte) : List Byte := data.foldl rsStep [0, 0, 0, 0]

/-- The remainder of a 36-byte codeword: its check bytes exclusive-or those of its data, 0 where it is a codeword. -/
def rsRemainder (c : List Byte) : BitVec 32 :=
  BitVec.ofNat 32 (unle (slice c 32 4)) ^^^ BitVec.ofNat 32 (unle (rsCheck (c.take 32)))

/-- Syndrome j: the remainder at α to the power j. -/
def rsSyndrome (rem : BitVec 32) (j : Nat) : Byte :=
  (le 4 rem.toNat).foldl (fun s b => gfMul s (gfAlpha j) ^^^ b) 0

/-- Correct one, detect three: the one byte whose error gives all four syndromes, or none. -/
def rsDecode (rem : BitVec 32) : WordErr :=
  if rem = 0 then .none
  else
    let s := (List.range 4).map (rsSyndrome rem)
    let e := s.headD 0
    match (List.range 36).find? fun i => e != 0 && (List.range 4).all fun j => s.getD j 0 == gfMul e (gfAlpha (j * (35 - i))) with
    | some i => .correctable i e
    | none => .uncorrectable (BitVec.ofNat 32 (unle s))

def xorBytes (a b : List Byte) : List Byte := List.zipWith (· ^^^ ·) a b

/-- An error pattern as 36 bytes. -/
def pattern (e : List Byte) : List Byte := (e ++ List.replicate 36 0).take 36

/-- Flip a word's wrong byte back. -/
def WordErr.fix (v : WordErr) (l : List Byte) : List Byte :=
  match v with
  | .correctable i f => if i < 32 then l.set i (l.getD i 0 ^^^ f) else l
  | _ => l

/-! ### The raw layout of an LPDDR5X channel (R231, R232) -/

/-- Channel of a local LPDDR5X offset, and the channel-local data offset. -/
def channelOf (off : Nat) : Nat := 4 * (off / 2 ^ 36) + off / 256 % 4
def channelOff (off : Nat) : Nat := off % 2 ^ 36 / 1024 * 256 + off % 256

/-- Raw address of a channel-local data offset, and of the check bytes of the word at it: eight data words, then the four
check bytes of each. -/
def rawAddr (d : Nat) : Nat := d / 256 * 288 + d % 256
def rawCheck (d : Nat) : Nat := d / 256 * 288 + 256 + d % 256 / 32 * 4

/-- The local offset of a channel's data offset. -/
def ofChannel (ch d : Nat) : Nat := ch / 4 * 2 ^ 36 + d / 256 * 1024 + ch % 4 * 256 + d % 256

/-- The word that a raw byte of a channel belongs to, and the byte's place in its codeword. -/
def ofRaw (ch raw : Nat) : Nat × Nat :=
  let r := raw % 288
  if r < 256 then (ofChannel ch (raw / 288 * 256 + r) / 32, r % 32)
  else (ofChannel ch (raw / 288 * 256 + (r - 256) / 4 * 32) / 32, 32 + r % 4)

/-- Raw bytes of a channel: 18 GiB (Table 7.1). -/
def rawSize : Nat := 18 * 2 ^ 30

end Sys2Proof.Machine
end

