-- ==== Sys2Proof/Machine/Memory.lean ====
section
/-! DEFINITION. Memory: the local map, the region table, the check code's outcomes, reads and writes of bytes (07). -/
namespace Sys2Proof.Machine

/-! ### The local map (07 Table 7.3) -/

/-- Byte keys at or above this one are easel scratch, 2 MiB per logical easel. -/
def scratchBase : Nat := 2 ^ 43

def scratchKey (easel off : Nat) : Nat := scratchBase + easel * 2 ^ 21 + off % 2 ^ 21

/-- The offset lies in LPDDR5X. -/
def inLpddr (off : Nat) : Bool := decide (off < 2 ^ 40)

/-- The offset lies in the 1.5 GiB of some panel's glaze. -/
def inGlaze (off : Nat) : Bool :=
  decide (2 ^ 41 ≤ off) && decide (off < 2 ^ 41 + 48 * 2 ^ 31) && decide ((off - 2 ^ 41) % 2 ^ 31 < 0x60000000)

def mapped (off : Nat) : Bool := inLpddr off || inGlaze off

/-- The memory unit of a mapped offset: the panel of a glaze, 48 + package of LPDDR5X (07 "Memory error registers"). -/
def unitOf (off : Nat) : Nat := if inLpddr off then 48 + off / 2 ^ 36 else (off - 2 ^ 41) / 2 ^ 31

/-- The granule number of an offset. -/
def granuleOf (off : Nat) : Nat := off / 2 ^ 21

/-! ### Region table entries (07 Table 7.5) -/

/-- The top 144 MiB of every package is reserved area (R254). -/
def reservedGranule (g : Nat) : Bool := decide (g < 524288) && decide (32696 ≤ g % 32768)

/-- The entry of a granule: as the table lists it; the reserved area has TYPE 6 unless it is retired. -/
def Mem.regionOf (m : Mem) (g : Nat) : BitVec 8 :=
  if reservedGranule g ∧ Sparse.get 0 m.region g = 0 then 6 else Sparse.get 0 m.region g
def regionType (e : BitVec 8) : Nat := e.toNat % 16
def regionPart (e : BitVec 8) : Nat := e.toNat / 16 % 4
def regionEntry (part type : Nat) : BitVec 8 := BitVec.ofNat 8 (part % 4 * 16 + type % 16)

/-- Panel-local start of the 96 MiB region of a logical easel (R228): e × 0x600_0000 unless a job creation has moved it. -/
def Mem.easelRegion (m : Mem) (i : Nat) : Nat :=
  match Sparse.get none m.easelAt i with
  | some b => b.toNat * 2 ^ 21
  | none => i % 16 * 0x6000000

/-- A durable granule type (0x2, 0x4). -/
def durableType (ty : Nat) : Bool := ty == 2 || ty == 4

/-! ### Failures and contexts -/

/-- Why an operation fails: its status and what the completion record names (06 Table 6.14). -/
structure Fail where
  st     : Status
  addr   : Addr := 0
  obj    : Nat := 0
  off    : Nat := 0xFF
  /-- Output data had gone out when it failed (PARTIAL_OUT). -/
  wrote  : Bool := false
  deriving DecidableEq, Repr, Inhabited

/-- What an access is judged by: its surroundings, its agent, the tag of the issuing operation, which
partitions run, the state of the route to another module, the job seed. -/
structure Ctx where
  env     : Env := {}
  who     : Agent := .ovind
  tag     : Option Tag := none
  attempt : BitVec 8 := 0
  running : Nat → Bool := fun _ => false
  route   : Coord → Status := fun _ => .ok
  seed    : BitVec 64 := 0
  /-- The memory unit's power domain is ON (13 R449). -/
  powered : Nat → Bool := fun _ => true

/-- An operation on the data plane that may fail; what it did before failing stays done. -/
abbrev Op := EStateM Fail Dp

def failOp {α : Type} (st : Status) (addr : Addr := 0) (obj : Nat := 0) (off : Nat := 0xFF) : Op α :=
  throw { st, addr, obj, off }

/-- What follows an output write: its failure leaves that output behind. -/
def afterWrite {α : Type} (m : Op α) : Op α := tryCatch m fun f => throw { f with wrote := true }

/-- An operation's result or its failure, as a value. -/
def attempt {α : Type} (m : Op α) : Op (Except Fail α) := tryCatch (do let x ← m; pure (.ok x)) fun f => pure (.error f)

/-- Go on only when the status is ST_OK. -/
def needOk (st : Status) (addr : Addr := 0) (obj : Nat := 0) : Op Unit :=
  if st = .ok then pure () else failOp st addr obj

/-- Run an operation: the data plane after it, and its result or failure. -/
def Op.exec {α : Type} (m : Op α) (d : Dp) : Dp × Except Fail α :=
  match m d with
  | .ok a d' => (d', .ok a)
  | .error f d' => (d', .error f)

/-! ### Access checks (07 R249, R252, Table 7.6) -/

/-- The partition an agent is bound to; a job with no job-table entry is refused. -/
def agentPart (m : Mem) : Agent → Except Status (Option Nat)
  | .engine k => .ok (some k.val)
  | .host _ j | .remote j =>
    match Sparse.get 0 m.jobs j.toNat with
    | 0 => .error .bounds
    | k + 1 => .ok (some k)
  | .ovind | .ckpt | .varnish | .linkLogic => .ok none

/-- May the agent write a durable granule of partition `owner` (R252)? -/
def durableWrite (d : Dp) (c : Ctx) (owner : Nat) : Status :=
  match c.who with
  | .varnish | .ckpt | .ovind => .ok
  | .linkLogic => .bounds
  | .host _ _ => if c.running owner then .bounds else .ok
  | .engine _ | .remote _ =>
    match c.tag with
    | some t => if (d.wetPart owner).isDry t then .ok else .wetWrite
    | none => .wetWrite

/-! ### The reserved area (R254, Table 7.7) -/

/-- Who a byte of reserved area belongs to: the link logic its replay rings, Ovind its sample areas, working area and staged
images, Ovind and the checkpoint engine the step log. -/
def areaOwner (off : Nat) (who : Agent) : Bool :=
  let o := off % 2 ^ 36
  if !inLpddr off ∨ o < 0xFF7000000 then who == .ovind
  else if o < 0xFFDC00000 then who == .linkLogic
  else if o < 0xFFDF00000 then who == .ovind
  else if o < 0xFFEF00000 then who == .ovind || who == .ckpt
  else who == .ovind

/-- Replay ring of far link `n` in package `pkg` of its frame (12 MiB), sample area of a logical easel, step-log part and
Ovind's working area of a package, as local offsets. -/
def ringOff (pkg n : Nat) : Nat := pkg * 2 ^ 36 + 0xFF7000000 + (n % 24 - 15) * 0xC00000
def sampleOff (easel : Nat) : Nat := easel / 48 * 2 ^ 36 + 0xFFDC00000 + easel % 48 * 0x10000
def stepLogOff (part : Nat) : Nat := part * 2 ^ 36 + 0xFFDF00000
def workOff (pkg : Nat) : Nat := pkg * 2 ^ 36 + 0xFFEF00000

/-- Table 7.6 for one granule. -/
def granuleStatus (d : Dp) (c : Ctx) (space g : Nat) (write : Bool) : Status :=
  let e := d.mem.regionOf g
  let ty := regionType e
  match agentPart d.mem c.who with
  | .error st => st
  | .ok p =>
    if p.any (· != regionPart e) then .bounds
    else if ty = 6 then
      if c.who = .ovind ∨ c.who = .linkLogic ∨ c.who = .ckpt then .ok else .bounds
    else if ty = 0 ∨ 7 ≤ ty then
      if c.who = .ovind ∧ write then .ok else .bounds
    else if (ty ≤ 2) ≠ (space = 0) then .bounds
    else if !write then .ok
    else if durableType ty then durableWrite d c (regionPart e)
    else if ty = 5 then if c.who = .ovind then .ok else .bounds
    else .ok

/-- The first status other than ST_OK. -/
def firstFail : List Status → Status
  | [] => .ok
  | s :: r => if s = .ok then firstFail r else s

/-- Every granule a local byte range touches is checked before the access is performed (R249); a byte in
a hole or a reserved range fails (R246), and so does a memory unit whose domain is not ON (13 R449). -/
def rangeStatus (d : Dp) (c : Ctx) (space off len : Nat) (write : Bool) : Status :=
  if len = 0 then .ok
  else if space ≠ 0 ∧ space ≠ 2 then .bounds
  else
    let g0 := granuleOf off
    let n := granuleOf (off + len - 1) + 1 - g0
    firstFail ((List.range n).map fun i =>
      let o := max off ((g0 + i) * 2 ^ 21)
      let last := min (off + len - 1) ((g0 + i) * 2 ^ 21 + (2 ^ 21 - 1))
      if !(mapped o && c.powered (unitOf o)) then .bounds
      else if regionType (d.mem.regionOf (g0 + i)) = 6 ∧ !(areaOwner o c.who && areaOwner last c.who) then .bounds
      else granuleStatus d c space (g0 + i) write)

/-! ### Error accounting (07 R237, R238) -/

def Dp.unit (d : Dp) (u : Nat) : MemUnit := Sparse.get {} d.mem.units u
def Dp.updUnit (d : Dp) (u : Nat) (f : MemUnit → MemUnit) : Dp :=
  { d with mem := { d.mem with units := Sparse.upd {} d.mem.units u f } }

/-- Reference edges in 1 s (01 R34: 156.25 MHz). -/
def edgesPerSecond : Nat := 156250000

def memRecord (d : Dp) (kind u : Nat) (addr : Addr) (syn : BitVec 32) (st : Status) : Dp :=
  d.record 0x0200 (src 5 u) st (le 1 kind ++ le 1 u ++ le 8 addr.toNat ++ le 4 syn.toNat)

/-- Count a correctable error: flag, total, sliding second, storm once per crossing of 1,024 (R237). -/
def countCe (d : Dp) (u : Nat) : Dp :=
  let m := d.unit u
  let old := m.ceTimes.filter (fun t => d.now < t + edgesPerSecond)
  let storm := old.length == 1024
  let m' := { m with
    ce := m.ce.hwSet
    ceTotal := if m.ceTotal = BitVec.allOnes 48 then m.ceTotal else m.ceTotal + 1
    ceTimes := d.now :: old
    storm := if storm then m.storm.hwSet else m.storm }
  let d' := d.updUnit u (fun _ => m')
  if storm then memRecord d' 2 u 0 0 .ok else d'

/-- Mark a word's row for repair: once, with a record (R243). -/
def markRow (d : Dp) (w : Nat) : Dp :=
  if Sparse.get false d.mem.repair w then d
  else
    let u := unitOf (w * 32)
    let d := { d with mem := { d.mem with
      repair := Sparse.set false d.mem.repair w true
      toRetire := Sparse.set false d.mem.toRetire (granuleOf (w * 32)) true } }
    memRecord (d.updUnit u (fun m => { m with repairPending := true })) 3 u (ownAddr d.coord 0 (w * 32)) 0 .ok

/-- Account an uncorrectable error at a word (R238). -/
def countUe (d : Dp) (space w : Nat) (syn : BitVec 32) : Dp :=
  let u := unitOf (w * 32)
  let a := ownAddr d.coord space (w * 32)
  memRecord (d.updUnit u (fun m => { m with ue := m.ue.hwSet, ueAddr := a })) 1 u a syn .checkTile

/-! ### Words and bytes -/

def Mem.byte (m : Mem) (k : Nat) : Byte := Sparse.get 0 m.bytes k

def Mem.setByte (m : Mem) (k : Nat) (b : Byte) : Mem := { m with bytes := Sparse.set 0 m.bytes k b }

/-- `n` bytes from key `k`. -/
def Mem.peek (m : Mem) (k n : Nat) : List Byte := (List.range n).map fun i => m.byte (k + i)

/-- Store bytes from key `k`. -/
def Mem.poke (m : Mem) (k : Nat) : List Byte → Mem
  | [] => m
  | b :: r => (m.setByte k b).poke (k + 1) r

/-- Difference of a word's stored check bytes from those of its stored data. -/
def Mem.dev (m : Mem) (w : Nat) : BitVec 32 := Sparse.get 0 m.errs w

/-- What a decoder finds in a stored word; a record marked unreadable fails as an uncorrectable word does (02 R82). -/
def Mem.err (m : Mem) (w : Nat) : WordErr :=
  if Sparse.get false m.unread w then .uncorrectable 0 else rsDecode (m.dev w)

/-- The codeword of a word as the array stores it (R235): in an LPDDR5X channel the bytes at `rawAddr` and `rawCheck`. -/
def Mem.codeword (m : Mem) (w : Nat) : List Byte :=
  m.peek (w * 32) 32 ++ le 4 (BitVec.ofNat 32 (unle (rsCheck (m.peek (w * 32) 32))) ^^^ m.dev w).toNat

/-- The 288-byte raw group of a channel: eight words, then the check bytes of each (R232). -/
def Mem.rawGroup (m : Mem) (ch group : Nat) : List Byte :=
  let ws := (List.range 8).map fun i => m.codeword (ofChannel ch (group * 256 + 32 * i) / 32)
  ws.flatMap (·.take 32) ++ ws.flatMap (·.drop 32)

/-- Store a whole word with its check bytes. -/
def Mem.putWord (m : Mem) (w : Nat) (l : List Byte) : Mem :=
  ({ m with errs := Sparse.set 0 m.errs w 0, unread := Sparse.set false m.unread w false } : Mem).poke (w * 32) l

/-- Bits flip in byte `i` of a stored codeword: the data and the check bytes stand as they are, wrong for each other. -/
def Mem.flip (m : Mem) (w i : Nat) (f : Byte) : Mem :=
  let e := pattern (List.replicate i 0 ++ [f])
  { m.poke (w * 32) (xorBytes (m.peek (w * 32) 32) (e.take 32)) with errs := Sparse.set 0 m.errs w (m.dev w ^^^ rsRemainder e) }

/-- An error comes up in a stored byte. -/
def Mem.upset (m : Mem) : Upset → Mem
  | .lpddr ch raw f => if raw < rawSize then m.flip (ofRaw ch raw).1 (ofRaw ch raw).2 f else m
  | .glaze p w i f => if w * 32 < 0x60000000 then m.flip ((2 ^ 41 + p * 2 ^ 31) / 32 + w) i f else m

/-- The errors of the surroundings arise before the command's first access. -/
def Dp.upsets (d : Dp) (l : List Upset) : Dp := { d with mem := l.foldl Mem.upset d.mem }

def pathOf (env : Env) (w : Nat) : PathErr := ((env.path.find? fun e => e.1 == w).map (·.2)).getD {}

/-- Count a word on its LPDDR5X channel (R231; 16 R517). -/
def countChan (d : Dp) (w : Nat) (write : Bool) : Dp :=
  let off := w * 32
  if inLpddr off then
    { d with mem := { d.mem with chan := Sparse.upd 0 d.mem.chan (2 * channelOf off + boolN write) (· + 32) } }
  else d

/-- A stored word as it reaches a port with an error of the path: what the port's decoder finds, and the word it delivers. -/
def Mem.receive (m : Mem) (w : Nat) (e : List Byte) : WordErr × List Byte :=
  let v := match m.err w with
    | .none => if zeros e then .none else rsDecode (rsRemainder (pattern e))
    | r => if zeros e then r else if Sparse.get false m.unread w then r else rsDecode (m.dev w ^^^ rsRemainder (pattern e))
  (v, v.fix (if zeros e then m.peek (w * 32) 32 else xorBytes (m.peek (w * 32) 32) (pattern e)))

/-- A demand read of one word (R237, R238, R240): a word that arrives uncorrectable is read once more over the same path; one
that arrives correctable is delivered corrected, counted and written back. Scratch has no check code of its own. -/
def readWord (c : Ctx) (space w : Nat) : Op (List Byte) := do
  modify fun d => countChan d w false
  let d ← get
  if scratchBase ≤ w * 32 then pure (d.mem.peek (w * 32) 32)
  else
    let p := pathOf c.env w
    let r := d.mem.receive w p.first
    match r.1 with
    | .none => pure r.2
    | .correctable _ _ =>
      set (countCe { d with mem := d.mem.putWord w r.2 } (unitOf (w * 32)))
      pure r.2
    | .uncorrectable _ =>
      let r := d.mem.receive w p.retry
      match r.1 with
      | .uncorrectable syn =>
        let d := countUe d space w syn
        set (if (d.mem.err w) matches .uncorrectable _ then markRow d w else d)
        failOp .checkTile (ownAddr d.coord space (w * 32)) 4
      | _ =>
        set (countCe { d with mem := d.mem.putWord w r.2 } (unitOf (w * 32)))
        pure r.2

/-- Bytes `v` at byte `pos` of word `w` reach the memory unit: what it will store. The array decodes the word it receives,
refuses an uncorrectable one and stores a corrected one (R236); a write narrower than a word is a read-modify-write, which
fails on an uncorrectable word (R239). -/
def landWord (c : Ctx) (space w pos : Nat) (v : List Byte) : Op (List Byte) := do
  modify fun d => countChan d w true
  let d ← get
  if scratchBase ≤ w * 32 then pure v
  else
    let e := (pathOf c.env w).first
    let r := if zeros e then .none else rsDecode (rsRemainder (pattern e))
    if r matches .uncorrectable _ then failOp .checkTile (ownAddr d.coord space (w * 32)) 4
    else
      let v := if zeros e then v else xorBytes v (slice (r.fix (pattern e)) pos v.length)
      if v.length = 32 then pure v
      else
        let _ ← readWord { c with env := {} } space w
        pure v

/-- Read words `w` to `w + n - 1`. -/
def readWords (c : Ctx) (space : Nat) : Nat → Nat → Op (List Byte)
  | _, 0 => pure []
  | w, n + 1 => do
    let a ← readWord c space w
    let r ← readWords c space (w + 1) n
    pure (a ++ r)

/-- The words that hold `len` bytes from key `k`. -/
def wordCount (k len : Nat) : Nat := if len = 0 then 0 else (k + len - 1) / 32 + 1 - k / 32

/-- Read `len` bytes at a local key, whole words at a time (R188, R239). -/
def readKey (c : Ctx) (space k len : Nat) : Op (List Byte) := do
  let ws ← readWords c space (k / 32) (wordCount k len)
  pure (slice ws (k % 32) len)

/-- The pieces of a write by word: key and bytes; `fuel` bounds the words. -/
def wordPieces : Nat → Nat → List Byte → List (Nat × List Byte)
  | 0, _, _ => []
  | _ + 1, _, [] => []
  | fuel + 1, k, v => (k, v.take (32 - k % 32)) :: wordPieces fuel (k + (32 - k % 32)) (v.drop (32 - k % 32))

/-- Store the pieces of a write. -/
def Mem.store (m : Mem) (l : List (Nat × List Byte)) : Mem :=
  l.foldl (fun m p => if p.2.length = 32 then m.putWord (p.1 / 32) p.2 else m.poke p.1 p.2) m

/-- Write bytes at a local key, whole or not at all (R260): every word is taken by the memory unit before any is stored. -/
def writeKey (c : Ctx) (space k : Nat) (v : List Byte) : Op Unit := do
  let l ← (wordPieces (v.length + 1) k v).mapM fun p => do
    let b ← landWord c space (p.1 / 32) (p.1 % 32) p.2
    pure (p.1, b)
  modify fun d => { d with mem := d.mem.store l }

/-! ### Reads and writes by atelier address -/

def remoteAns (env : Env) (a : Addr) : Option RemoteAns := (env.remote.find? (fun e => e.1 == a)).map (·.2)

/-- Words of another module: its answers, ST_HANG with none (R260). -/
def remoteWords (c : Ctx) (base : Addr) : Nat → Nat → Op (List Byte)
  | _, 0 => pure []
  | i, n + 1 => do
    let a := base + BitVec.ofNat 64 (32 * i)
    match remoteAns c.env a with
    | some (.data x) =>
      let r ← remoteWords c base (i + 1) n
      pure (le 32 x.toNat ++ r)
    | some (.failed st) => failOp st a
    | none => failOp .hang a

/-- Read `len` bytes at an address: the checks first, then the words. -/
def readAt (c : Ctx) (a : Addr) (len : Nat) : Op (List Byte) := do
  let d ← get
  match resolve d.coord a with
  | none => failOp .bounds a
  | some (.here sp off) =>
    needOk (rangeStatus d c sp off len false) a
    readKey c sp off len
  | some (.far m _ off) =>
    needOk (c.route m) a
    modify fun d => d.send (.remoteRead a (BitVec.ofNat 32 len))
    let ws ← remoteWords c (a - BitVec.ofNat 64 (off % 32)) 0 (wordCount off len)
    pure (slice ws (off % 32) len)

/-- Write bytes at an address: the checks first, then the words. A remote write counts as performed when
it is acknowledged (R258). -/
def writeAt (c : Ctx) (a : Addr) (v : List Byte) : Op Unit := do
  let d ← get
  match resolve d.coord a with
  | none => failOp .bounds a
  | some (.here sp off) =>
    needOk (rangeStatus d c sp off v.length true) a
    writeKey c sp off v
  | some (.far m _ _) =>
    needOk (c.route m) a
    modify fun d => d.send (.remoteWrite a v)
    match remoteAns c.env a with
    | some (.failed st) => failOp st a
    | _ => pure ()

/-- May the range be accessed at all? The status of the checks alone. -/
def rangeAt (d : Dp) (c : Ctx) (a : Addr) (len : Nat) (write : Bool) : Status :=
  match resolve d.coord a with
  | none => .bounds
  | some (.here sp off) => rangeStatus d c sp off len write
  | some (.far m sp off) =>
    if c.route m ≠ .ok then c.route m
    else if (sp = 0 ∨ sp = 2) ∧ mapped off ∧ mapped (off + len - 1) then .ok else .bounds

end Sys2Proof.Machine
end

