-- ==== Sys2Proof/Machine/Context.lean ====
section
/-! DEFINITION. Accessors of the whole state, routes to other modules, and the context of a memory access. -/
namespace Sys2Proof.Machine

abbrev Out := Host.Outcome State Fault Refusal

/-! ### Accessors -/

def State.link (s : State) (n : Nat) : LinkSt := Sparse.get {} s.lnk.links n
def State.updLink (s : State) (n : Nat) (f : LinkSt → LinkSt) : State :=
  { s with lnk := { s.lnk with links := Sparse.upd {} s.lnk.links n f } }

def LinkSt.vc (l : LinkSt) (v : Nat) : LinkVc := Sparse.get {} l.vcs v
def LinkSt.updVc (l : LinkSt) (v : Nat) (f : LinkVc → LinkVc) : LinkSt := { l with vcs := Sparse.upd {} l.vcs v f }

def State.job (s : State) (k : Nat) : Job := Sparse.get {} s.jobs k
def State.updJob (s : State) (k : Nat) (f : Job → Job) : State := { s with jobs := Sparse.upd {} s.jobs k f }

def State.ckp (s : State) (k : Nat) : Ckp := Sparse.get {} s.ckps k
def State.updCkp (s : State) (k : Nat) (f : Ckp → Ckp) : State := { s with ckps := Sparse.upd {} s.ckps k f }

def State.share (s : State) (n c : Nat) : Share := Sparse.get {} s.shares (n * 8 + c)
def State.updShare (s : State) (n c : Nat) (f : Share → Share) : State :=
  { s with shares := Sparse.upd {} s.shares (n * 8 + c) f }

def State.eq (s : State) (q : Nat) : Eq := Sparse.get {} s.eqs q
def State.updEq (s : State) (q : Nat) (f : Eq → Eq) : State := { s with eqs := Sparse.upd {} s.eqs q f }

/-- Change the data plane. -/
def State.onDp (s : State) (f : Dp → Dp) : State := { s with dp := f s.dp }

def State.send (s : State) (m : OutMsg) : State := s.onDp (·.send m)
def State.record (s : State) (type : Nat) (source : BitVec 16) (st : Status) (payload : List Byte) : State :=
  s.onDp (·.record type source st payload)
def State.raise (s : State) (p : Port) (v : Nat) : State := s.onDp (·.raise p v)

/-- The partition of a job id, when the module holds the job. -/
def State.partOf (s : State) (job : BitVec 16) : Option Nat :=
  match Sparse.get 0 s.dp.mem.jobs job.toNat with
  | 0 => none
  | k + 1 => some k

/-! ### Links' classes (08 Table 8.1) -/

/-- Links 24 f + 15 to 24 f + 23 are far links. -/
def farLink (n : Nat) : Bool := decide (15 ≤ n % 24)

def LnkState.code : LnkState → Nat
  | .down => 0 | .train => 1 | .identify => 2 | .quarantine => 3 | .active => 4 | .degraded => 5

def LnkState.up (s : LnkState) : Bool := s == .active || s == .degraded

/-! ### Routes (08 R304, 07 R260) -/

/-- A code that is no module's coordinate. -/
def noModule : Nat := 2 ^ 17

/-- Slot that near link `n` of slot `slot` leads to under the default wiring (R264). -/
def defaultPeerSlot (n slot : Nat) : Nat := if n % 24 < slot then n % 24 else n % 24 + 1

/-- The peer of a link under the default wiring. -/
def defaultPeer (own : Coord) (n : Nat) : Nat :=
  if farLink n then noModule else ({ own with slot := BitVec.ofNat 4 (defaultPeerSlot n own.slot.toNat) } : Coord).code.toNat

/-- The peer a link leads to: the active map's, else the cabling map's, else the one it identified, else the default wiring's. -/
def State.peerOf (s : State) (n : Nat) : Nat :=
  match Sparse.get none s.lnk.active n with
  | some (c, _) => c
  | none => match Sparse.get none s.lnk.cabling n with
    | some (c, _) => c
    | none =>
      if (s.link n).peerLink ≠ 0x7F then (s.link n).peerCoord.toNat
      else if s.lnk.mapGen = 0 then defaultPeer s.dp.coord n else noModule

/-- Candidate output links for a destination: the route table's, else the links that lead straight to it. -/
def State.candidates (s : State) (c : Coord) : List Nat :=
  match Sparse.get [] s.lnk.routes c.code.toNat with
  | [] => (List.range 96).filter fun n => s.peerOf n == c.code.toNat
  | l => l

/-- The output of a source module, its engine and a destination: fixed by a hash for the table's generation (R304, a free
value). -/
def State.output (s : State) (src dst : Coord) (engine : Nat := 0) : Option Nat :=
  match s.candidates dst with
  | [] => none
  | [n] => some n
  | l => some (l.getD (Config.routeHash src.code engine dst.code s.lnk.routeGen % l.length) 0)

/-- A new generation of the route table: the entries the managers have built; what is queued stays on its link (R304). -/
def State.loadRoutes (s : State) (t : List (BitVec 17 × List Link)) : State :=
  { s with lnk := { s.lnk with
    routes := t.foldl (fun m e => Sparse.set [] m e.1.toNat (e.2.map (·.val))) s.lnk.routes
    routeGen := s.lnk.routeGen + 1 } }

/-- The state of the route to another module (R260): no route is ST_BOUNDS at this module (R244). -/
def State.route (s : State) (dst : Coord) (engine : Nat := 0) : Status :=
  match s.output s.dp.coord dst engine with
  | none => .bounds
  | some n => match (s.link n).st with
    | .active | .degraded => .ok
    | .quarantine => .linkQuarantine
    | _ => .linkNotReady

/-! ### Contexts -/

/-- The power domain of a memory unit: a glaze's, or its LPDDR5X controller's (13 Table 13.4). -/
def unitDomain (u : Nat) : Nat := if u < 48 then 864 + u else 912 + 20 * ((u - 48) / 4) + 6 + (u - 48) % 4

def State.ctx (s : State) (env : Env) (who : Agent) (tag : Option Tag := none) (attempt : BitVec 8 := 0) : Ctx :=
  { env, who, tag, attempt
    running := fun k => (s.job k).running
    route := fun m => s.route m
    powered := fun u => (Sparse.get {} s.pwr.domains (unitDomain u)).st == .on
    seed := match who with
      | .engine k => (s.job k.val).seed
      | _ => 0 }

/-- Run an operation on the data plane after the surroundings' errors have come up; its failure's status is
the outcome's. -/
def State.runOp {α : Type} (s : State) (env : Env) (m : Op α) : State × Except Fail α :=
  let r := m.exec (s.dp.upsets env.upsets)
  ({ s with dp := r.1 }, r.2)

/-- A command in its surroundings: their errors come up once, before its first access. -/
def State.around (s : State) (env : Env) (f : State → Env → State) : State :=
  f { s with dp := s.dp.upsets env.upsets } { env with upsets := [] }

end Sys2Proof.Machine
end

