-- ==== Sys2Proof/Machine/Recorder.lean ====
section
/-! DEFINITION. The event recorder's flash, the performance counters, the port windows and the wear monitors (16). -/
namespace Sys2Proof.Machine

/-- The atelier address of a register of this module. -/
def State.regAddr (s : State) (off : Nat) : Addr := ownAddr s.dp.coord 1 off

/-- CONFIG record of a write that is left unchanged and logged (16 Table 16.3, 00 R10). -/
def State.configRecord (s : State) (off value : Nat) : State :=
  s.record 0x0003 (src 0 0) .ok (le 8 (s.regAddr off).toNat ++ le 8 value)

/-! ### The recorder's flash (R504, R506) -/

def Evr.active (e : Evr) : List Record := if e.bank then e.bank1 else e.bank0
def Evr.setActive (e : Evr) (l : List Record) : Evr := if e.bank then { e with bank1 := l } else { e with bank0 := l }

/-- Write the oldest buffered record to the active bank. -/
def Evr.flashOne (e : Evr) : Evr :=
  match e.buffer with
  | [] => e
  | r :: rest => ({ e with buffer := rest } : Evr).setActive (e.active ++ [r])

/-- Write every buffered record to the active bank in order. -/
def Evr.flush (e : Evr) : Evr := ({ e with buffer := [] } : Evr).setActive (e.active ++ e.buffer)

/-- Save DROPPED, FULL and NEXT_SEQ in the flash configuration area (R506). -/
def Evr.save (e : Evr) : Evr := { e with saved := some (e.dropped, e.full, e.nextSeq) }

def State.onEvr (s : State) (f : Evr → Evr) : State := s.onDp fun d => { d with evr := f d.evr }

def execRecordFlashWrite (s : State) : Out := .next (s.onEvr Evr.flashOne)
def execFlashConfigSave (s : State) : Out := .next (s.onEvr Evr.save)

/-! ### Counter blocks (R510 to R515) -/

def State.pct (s : State) (i : Nat) : Pct := Sparse.get {} s.pcts i
def State.updPct (s : State) (i : Nat) (f : Pct → Pct) : State := { s with pcts := Sparse.upd {} s.pcts i f }

def Pct.counter (p : Pct) (k : Nat) : BitVec 48 := Sparse.get 0 p.cnt k
def Pct.flag (p : Pct) (k : Nat) : Flag := Sparse.get {} p.ovf k

/-- PENDING: the pending accumulators together. -/
def Pct.pending (p : Pct) : BitVec 64 := p.pend.foldl (fun a e => a + e.2) 0

/-- The event code and mode of counter `k`. -/
def Pct.sel (p : Pct) (k : Nat) : Nat := bitsOf p.select.toNat (8 * k + 7) (8 * k)

def Pct.ovfMask (p : Pct) : Nat := (List.range 8).foldl (fun a k => a + (if (p.flag k).set then 2 ^ k else 0)) 0

/-- Four 16-bit event counters in one register. -/
def pack4 (l : List (BitVec 16)) : BitVec 64 := BitVec.ofNat 64 (unle (l.flatMap fun x => le 2 x.toNat))

/-- The block's 19 register slots, as counted now. -/
def Pct.image (p : Pct) : List (BitVec 64) :=
  [p.cycle, p.select, BitVec.ofNat 64 (boolN p.enable + 4 * boolN p.frozen.isSome), BitVec.ofNat 64 p.ovfMask,
   pack4 ((List.range 4).map fun k => (p.flag k).cnt), pack4 ((List.range 4).map fun k => (p.flag (4 + k)).cnt)]
  ++ ((List.range 8).map fun k => (p.counter k).setWidth 64)
  ++ [p.retired, p.wasted, p.front, p.back, p.pending]

/-- What a read of register slot `j` returns (R514). -/
def Pct.read (p : Pct) (j : Nat) : BitVec 64 :=
  match p.frozen with
  | some l => l.getD j 0
  | none => p.image.getD j 0

/-- Add to counter `k`; a wrap sets its bit (R511). -/
def Pct.add (p : Pct) (k n : Nat) : Pct :=
  let x := (p.counter k).toNat + n
  let p' := { p with cnt := Sparse.set 0 p.cnt k (BitVec.ofNat 48 x) }
  if 2 ^ 48 ≤ x then { p' with ovf := Sparse.upd {} p'.ovf k Flag.hwSet } else p'

/-- What an activity adds to a counter's event (Table 16.4): in LEVEL mode the sum of its values, which the account itself gives for
the slots it classifies (`own`), in EDGE mode the cycles in which it rose from 0. -/
def Pct.level (own : List (Nat × Nat)) (evs : List (Nat × Nat × Nat)) (sel : Nat) : Nat :=
  let ev := evs.find? fun e => e.1 == sel % 128
  if 128 ≤ sel then (match ev with | some e => e.2.2 | none => 0)
  else match own.find? fun e => e.1 == sel, ev with
    | some e, _ => e.2
    | none, some e => e.2.1
    | none, none => 0

/-- Account an activity of an easel: CYCLE rises by `cycles`; term slots enter the epoch's accumulator or WASTED, and
every other slot is back- or front-starved, so that R514 holds. -/
def Pct.account (p : Pct) (epoch : Option Nat) (a : Activity) : Pct :=
  let slots := 64 * a.cycles
  let terms := min a.terms slots
  let back := min a.back (slots - terms)
  let own := [(0x01, terms), (0x02, slots - terms - back), (0x03, back), (0x04, if epoch.isNone then terms else 0)]
  let p := { p with
    cycle := p.cycle + BitVec.ofNat 64 a.cycles
    back := p.back + BitVec.ofNat 64 back
    front := p.front + BitVec.ofNat 64 (slots - terms - back) }
  let p := match epoch with
    | some e => { p with pend := Sparse.upd 0 p.pend e (· + BitVec.ofNat 64 terms) }
    | none => { p with wasted := p.wasted + BitVec.ofNat 64 terms }
  if p.enable then (List.range 8).foldl (fun p k => p.add k (Pct.level own a.events (p.sel k))) p else p

/-- Move an epoch's accumulator to RETIRED or WASTED (R513). -/
def Pct.settle (p : Pct) (epoch : Nat) (dry : Bool) : Pct :=
  let n := Sparse.get 0 p.pend epoch
  let p := { p with pend := Sparse.set 0 p.pend epoch 0 }
  if dry then { p with retired := p.retired + n } else { p with wasted := p.wasted + n }

/-- CLEAR: the cycle counter, counters, slot registers and accumulators together; a counter takes the addition of the
same cycle (R511, R514). -/
def Pct.clear (p : Pct) (additions : List (BitVec 8)) : Pct :=
  { p with
    cycle := 0, retired := 0, wasted := 0, front := 0, back := 0, pend := []
    cnt := if p.enable then (List.range 8).foldl (fun c k => Sparse.set 0 c k ((additions.getD k 0).setWidth 48)) [] else [] }

def Pct.setFreeze (p : Pct) (on : Bool) : Pct :=
  if on then { p with frozen := some ({ p with frozen := some [] } : Pct).image } else { p with frozen := none }

/-- Whether the write of `PCT_SELECT` or `PCT_CTRL` is granted to the owner host: no COUNTER_GRANT holds for the
partition of the easel (R515). -/
def State.easelPart (s : State) (easel : Nat) : Option Nat :=
  (List.range 4).find? fun k => (s.job k).used && bitOf (s.job k).panels.toNat (easel / 16)

/-! ### Easel numbers (01 R20, R21) -/

def State.panelMap (s : State) (p : Nat) : PanelMap := Sparse.get {} s.emap p
def State.updPanel (s : State) (p : Nat) (f : PanelMap → PanelMap) : State := { s with emap := Sparse.upd {} s.emap p f }

def PanelMap.at (m : PanelMap) (e : Nat) : Nat := (m.phys.getD e 0x1F).toNat

/-- Module-wide physical index of a logical easel; 0xFFFF when it is unmapped. -/
def State.physOf (s : State) (i : Nat) : Nat :=
  let q := (s.panelMap (i / 16)).at (i % 16)
  if q = 0x1F then 0xFFFF else 17 * (i / 16) + q

/-- The logical easel that a physical easel serves. -/
def State.logicalOf (s : State) (phys : Nat) : Option Nat :=
  ((List.range 16).find? fun e => (s.panelMap (phys / 17)).at e == phys % 17).map (16 * (phys / 17) + ·)

def execPctClear (easel : Easel) (additions : List (BitVec 8)) (s : State) : Out :=
  .next (s.updPct easel fun p => p.clear additions)

def execPctFreeze (easel : Easel) (value : Bool) (s : State) : Out := .next (s.updPct easel fun p => p.setFreeze value)

def execPctEnable (easel : Easel) (value : Bool) (s : State) : Out :=
  .next (s.updPct easel fun p => { p with enable := value })

/-- Counter `k` takes an addition that runs past 2^48 - 1; a held counter takes none. -/
def execCounterWrap (easel : Easel) (k : Fin 8) (addition : BitVec 8) (s : State) : Out :=
  .next (s.updPct easel fun p => if p.enable then p.add k addition.toNat else p)

/-! ### Port windows (R517) -/

/-- The count of port `j` in the open window. -/
def State.portCount (s : State) (j : Nat) : Nat :=
  if 192 ≤ j ∧ j < 320 then Sparse.get 0 s.dp.mem.chan (j - 192) else Sparse.get 0 s.portRun j

/-- Every counter latches its window's count at once, SEQ rises, and the next window starts. -/
def State.windowEnd (s : State) : State :=
  { s with
    win := { s.win with
      seq := s.win.seq + 1
      latched := (List.range 324).foldl (fun l j => Sparse.set 0 l j (BitVec.ofNat 48 (s.portCount j))) []
      start := s.clk.count }
    portRun := []
    dp := { s.dp with mem := { s.dp.mem with chan := [] } } }

def execPortWindowEnd (s : State) : Out := .next s.windowEnd

def pctWindowOff : Nat := 0x600000 + 0x30000

/-- A write of US: 1 to 1,000,000, else unchanged and logged; the window restarts without a latch. -/
def State.windowWrite (s : State) (us : BitVec 20) : State :=
  if us = 0 ∨ 1000000 < us.toNat then s.configRecord pctWindowOff us.toNat
  else { s with win := { s.win with us, start := s.clk.count }, portRun := []
                dp := { s.dp with mem := { s.dp.mem with chan := [] } } }

def execPctWindowWrite (us : BitVec 20) (s : State) : Out := .next (s.windowWrite us)

/-! ### Wear (R518 to R521) -/

/-- Kind, index and limit of monitor `m` of the 160 in report order (Table 16.8). -/
def wearKind (m : Nat) : Nat := if m < 48 then 1 else if m < 144 then 2 else 3
def wearIndex (m : Nat) : Nat := if m < 48 then m else if m < 144 then m - 48 else m - 144
def wearLimit (m : Nat) : Int := match wearKind m with | 1 => 6000 | 2 => 120 | _ => 10000
/-- The metric rises toward its limit (ageing, memory) or falls (eye). -/
def wearRising (m : Nat) : Bool := wearKind m != 2

/-- The day's sample after a reading: the last for ageing, the lowest for eye height, the day's count for memory. -/
def WearMon.sample (w : WearMon) (m day : Nat) (r : Int) : WearMon :=
  match w.samples.getLast? with
  | some (d, v) =>
    if d = day then { w with samples := w.samples.dropLast ++
      [(d, match wearKind m with | 1 => r | 2 => min v r | _ => v + r)] }
    else { w with samples := (w.samples ++ [(day, r)]).drop (w.samples.length - 89) }
  | none => { w with samples := [(day, r)] }

/-- The least-squares line, as integers over common denominators: n, denominator D of the slope, slope numerator, and
the numerator of CURRENT over n * D. -/
structure Fit where
  n : Nat
  d : Nat
  slope : Int
  cur : Int
  deriving DecidableEq, Repr

def fitOf (l : List (Nat × Int)) : Fit :=
  let n := l.length
  let sx : Int := l.foldl (fun a p => a + (p.1 : Int)) 0
  let sy : Int := l.foldl (fun a p => a + p.2) 0
  let sxx : Int := l.foldl (fun a p => a + (p.1 : Int) * p.1) 0
  let sxy : Int := l.foldl (fun a p => a + (p.1 : Int) * p.2) 0
  let x : Int := match l.getLast? with | some (d, _) => d | none => 0
  let d := ((n : Int) * sxx - sx * sx).toNat
  if d = 0 then { n, d := 1, slope := 0, cur := sy }
  else
    let s := (n : Int) * sxy - sx * sy
    { n, d, slope := s, cur := sy * d + s * ((n : Int) * x - sx) }

/-- CURRENT is cur / (n d); at or beyond the limit? -/
def Fit.beyond (f : Fit) (m : Nat) : Bool :=
  let lim := wearLimit m * (f.n * f.d : Nat)
  if wearRising m then decide (lim ≤ f.cur) else decide (f.cur ≤ lim)

/-- DAYS (R519). -/
def WearMon.days (w : WearMon) (m : Nat) : Nat :=
  let f := fitOf w.samples
  if f.n < 7 then 0xFFFF
  else if f.beyond m then 0
  else if (if wearRising m then decide (f.slope ≤ 0) else decide (0 ≤ f.slope)) then 0xFFFF
  else
    -- |limit - cur / (n d)| / (|slope| / d) = |limit n d - cur| / (n |slope|)
    min ((wearLimit m * (f.n * f.d : Nat) - f.cur).natAbs / (f.n * f.slope.natAbs)) 0xFFFE

def wearFlags (w : WearMon) (m : Nat) : Nat :=
  let f := fitOf w.samples
  if f.n < 7 then 1 else if f.beyond m then 2 else 0

/-- An exact quotient, or the free rounding where it is none. -/
def ratioInt (n : Int) (d : Nat) : Int :=
  if d ≠ 0 ∧ n % (d : Int) = 0 then n / (d : Int) else Config.roundRatio n d

/-- SOURCE of a monitor's records: panel, link, memory unit. -/
def wearSrc (m : Nat) : BitVec 16 :=
  match wearKind m with
  | 1 => src 9 (wearIndex m)
  | 2 => src 4 (wearIndex m)
  | _ => src 5 (48 + wearIndex m)

def State.wearMon (s : State) (m : Nat) : WearMon := Sparse.get {} s.wear.mons m

/-- `MEM_CE_TOTAL` of a memory monitor's unit. -/
def State.ceTotal (s : State) (m : Nat) : Nat := (Sparse.get ({} : MemUnit) s.dp.mem.units (48 + wearIndex m)).ceTotal.toNat

/-- What a monitor reads: a memory monitor the errors counted since its last reading, anew after a module reset (Table 16.8). -/
def State.wearReading (s : State) (m : Nat) (r : Int) : Int :=
  if wearKind m = 3 then
    (if (s.wearMon m).seen ≤ s.ceTotal m then (s.ceTotal m - (s.wearMon m).seen : Nat) else s.ceTotal m)
  else r

/-- Store the sample, refit, and log each threshold of R521 that DAYS has come to lie below. `r` is an oscillator's or an eye's
reading. -/
def State.wearSample (s : State) (m : Nat) (r : Int) : State :=
  let w : WearMon := { (s.wearMon m).sample m s.wear.day (s.wearReading m r) with seen := if wearKind m = 3 then s.ceTotal m else 0 }
  let days := w.days m
  let s := { s with wear := { s.wear with mons := Sparse.set {} s.wear.mons m { w with last := days } } }
  [90, 30, 1].foldl (fun s t =>
    if t ≤ (w.last) ∧ days < t then
      s.record 0x0A00 (wearSrc m) .ok (le 1 (wearKind m) ++ le 1 (wearIndex m) ++ le 2 days)
    else s) s

def execWearSample (monitor : Fin 160) (reading : Int) (s : State) : Out := .next (s.wearSample monitor reading)

/-- The eye height of the worst lane in use, in 0.1 mV. -/
def execEyeSample (link : Link) (height : BitVec 16) (s : State) : Out :=
  .next (s.wearSample (48 + link.val) height.toNat)

/-- The wear report (R520). -/
def State.wearReport (s : State) : List Byte :=
  let ms := List.range 160
  let days := ms.map fun m => (s.wearMon m).days m
  let low := days.foldl min 0xFFFF
  let at_ := (ms.find? fun m => days.getD m 0xFFFF == low).getD 0
  let entry (m : Nat) : List Byte :=
    let w := s.wearMon m
    let f := fitOf w.samples
    le 1 (wearKind m) ++ le 1 (wearIndex m) ++ le 1 (wearFlags w m) ++ le 1 0
      ++ le 4 (code 32 (ratioInt f.cur (f.n * f.d))) ++ le 4 (code 32 (ratioInt (1000 * f.slope) f.d))
      ++ le 2 (days.getD m 0xFFFF) ++ le 2 f.n
  le 2 1 ++ le 2 160 ++ le 2 low ++ le 1 (wearKind at_) ++ le 1 (wearIndex at_) ++ le 4 s.wear.day
    ++ le 20 0 ++ ms.flatMap entry

end Sys2Proof.Machine
end

