-- ==== Sys2Proof/Machine/Sm3.lean ====
section
/-! DEFINITION. The SM3 hash (published), used for link sessions, start delays, digests and measurements. -/
namespace Sys2Proof.Machine

def rotl (x : BitVec 32) (n : Nat) : BitVec 32 := x.rotateLeft (n % 32)

def sm3P0 (x : BitVec 32) : BitVec 32 := x ^^^ rotl x 9 ^^^ rotl x 17
def sm3P1 (x : BitVec 32) : BitVec 32 := x ^^^ rotl x 15 ^^^ rotl x 23

/-- Eight chaining words. -/
structure Sm3 where
  a : BitVec 32
  b : BitVec 32
  c : BitVec 32
  d : BitVec 32
  e : BitVec 32
  f : BitVec 32
  g : BitVec 32
  h : BitVec 32
  deriving DecidableEq, Repr

def sm3Iv : Sm3 :=
  ⟨0x7380166f, 0x4914b2b9, 0x172442d7, 0xda8a0600, 0xa96f30bc, 0x163138aa, 0xe38dee4d, 0xb0fb0e4e⟩

def sm3Round (j : Nat) (s : Sm3) (w w' : BitVec 32) : Sm3 :=
  let t : BitVec 32 := if j < 16 then 0x79cc4519 else 0x7a879d8a
  let ss1 := rotl (rotl s.a 12 + s.e + rotl t j) 7
  let ss2 := ss1 ^^^ rotl s.a 12
  let ff := if j < 16 then s.a ^^^ s.b ^^^ s.c else (s.a &&& s.b) ||| (s.a &&& s.c) ||| (s.b &&& s.c)
  let gg := if j < 16 then s.e ^^^ s.f ^^^ s.g else (s.e &&& s.f) ||| (~~~s.e &&& s.g)
  let tt1 := ff + s.d + ss2 + w'
  let tt2 := gg + s.h + ss1 + w
  { a := tt1, b := s.a, c := rotl s.b 9, d := s.c, e := sm3P0 tt2, f := s.e, g := rotl s.f 19, h := s.g }

/-- Expand the 16 words of a block to `n` more. -/
def sm3Expand : Nat → List (BitVec 32) → List (BitVec 32)
  | 0, w => w
  | n + 1, w =>
    let k := w.length
    let at' (i : Nat) := w.getD (k - i) 0
    sm3Expand n (w ++ [sm3P1 (at' 16 ^^^ at' 9 ^^^ rotl (at' 3) 15) ^^^ rotl (at' 13) 7 ^^^ at' 6])

def sm3Rounds : Nat → Nat → List (BitVec 32) → Sm3 → Sm3
  | 0, _, _, s => s
  | n + 1, j, w, s =>
    sm3Rounds n (j + 1) (w.drop 1) (sm3Round j s (w.getD 0 0) (w.getD 0 0 ^^^ w.getD 4 0))

def beWord (l : List Byte) : BitVec 32 := BitVec.ofNat 32 (l.foldl (fun a b => a * 256 + b.toNat) 0)
def beBytes (n x : Nat) : List Byte := (le n x).reverse

def sm3Block (v : Sm3) (blk : List Byte) : Sm3 :=
  let w := sm3Expand 52 ((List.range 16).map fun i => beWord (slice blk (4 * i) 4))
  let s := sm3Rounds 64 0 w v
  ⟨s.a ^^^ v.a, s.b ^^^ v.b, s.c ^^^ v.c, s.d ^^^ v.d, s.e ^^^ v.e, s.f ^^^ v.f, s.g ^^^ v.g, s.h ^^^ v.h⟩

def sm3Blocks : Nat → Sm3 → List Byte → Sm3
  | 0, v, _ => v
  | n + 1, v, l => sm3Blocks n (sm3Block v (l.take 64)) (l.drop 64)

/-- SM3 of a byte string: 32 bytes. -/
def sm3 (l : List Byte) : List Byte :=
  let z := (119 - l.length % 64) % 64
  let m := l ++ [0x80] ++ List.replicate z 0 ++ beBytes 8 (8 * l.length)
  let s := sm3Blocks (m.length / 64) sm3Iv m
  [s.a, s.b, s.c, s.d, s.e, s.f, s.g, s.h].flatMap fun x => beBytes 4 x.toNat

end Sys2Proof.Machine
end

