-- ==== Sys2Proof/Machine/Control.lean ====
section
/-! DEFINITION. Shared control operations: messages to managers, job status, OTP slots, alarms, the clearing of a module reset, power loss. -/
namespace Sys2Proof.Machine

/-! ### Messages (08 R273; 10 Tables 10.3, 10.6) -/

/-- The hedge, pod or machine of a coordinate at a level, and its number within it by which conflicts are settled. -/
def levelScope (l : Nat) (c : BitVec 17) : Nat := if l = 0 then c.toNat / 16 else if l = 1 then c.toNat / 1024 else 0
def levelNumber (l : Nat) (c : BitVec 17) : Nat :=
  if l = 0 then c.toNat % 16 else if l = 1 then c.toNat / 16 % 64 else c.toNat / 1024

/-- The manager of a level (0 hedge, 1 pod, 2 machine) above this module: itself, the sender of the last heartbeat, else the one
that the role map or Table 1.7 names (01 R41, R44). -/
def State.managerOf (s : State) (l : Nat) : BitVec 17 :=
  let own := s.dp.coord.code
  if l < roleLevels s.roles.role then own
  else match Sparse.get none s.roles.holders l with
    | some c => c
    | none =>
      match s.roles.map.find? fun e => s.roles.loaded && decide (l < roleLevels e.2) && levelScope l (BitVec.ofNat 17 e.1) == levelScope l own with
      | some e => BitVec.ofNat 17 e.1
      | none => if l = 0 then BitVec.ofNat 17 (own.toNat / 16 * 16) else if l = 1 then BitVec.ofNat 17 (own.toNat / 1024 * 1024) else 0

def State.quickset (s : State) (to_ : TreeTo) (qop : Nat) (payload : List Byte) : State := s.send (.quickset to_ qop payload)

/-- Up the tree: from a module to its hedge manager, from a manager to the manager above. -/
def State.quicksetUp (s : State) (qop : Nat) (payload : List Byte) : State :=
  s.quickset (.up (s.managerOf (min (roleLevels s.roles.role) 2))) qop payload
def State.mgmt (s : State) (m : Mgmt) (coord : BitVec 17) (value : BitVec 64) : State := s.send (.mgmt m coord value)

/-- A payload of 28 bytes with its CRC-32C. -/
def withCrc (l : List Byte) : List Byte := l ++ le 4 (crc32c l).toNat

/-- The bytes of a smudge message (10 Table 10.6). -/
def smudgeBytes (m : SmudgeMsg) : List Byte :=
  withCrc (le 2 m.job.toNat ++ le 1 m.phase.toNat ++ le 1 m.round.toNat ++ le 4 m.step.toNat ++ le 1 m.epoch.toNat
    ++ le 1 m.attempt.toNat ++ le 1 m.cause.toNat ++ le 1 (boolN m.valid) ++ le 2 m.status.toNat ++ le 1 m.base.toNat
    ++ le 1 m.mask.toNat ++ le 4 m.count.toNat ++ le 4 m.cstep.toNat ++ le 1 m.cepoch.toNat ++ le 3 0)

/-- The CRC over bytes 0 to 27 of a payload of 32 holds. -/
def crcHolds (l : List Byte) : Bool := l.length == 32 && crc32c (l.take 28) == BitVec.ofNat 32 (fld l 28 4)

def SmudgeMsg.ofBytes (l : List Byte) : SmudgeMsg :=
  { job := BitVec.ofNat 16 (fld l 0 2), phase := BitVec.ofNat 8 (fld l 2 1), round := BitVec.ofNat 8 (fld l 3 1)
    step := BitVec.ofNat 32 (fld l 4 4), epoch := BitVec.ofNat 8 (fld l 8 1), attempt := BitVec.ofNat 8 (fld l 9 1)
    cause := BitVec.ofNat 8 (fld l 10 1), valid := bitOf (fld l 11 1) 0, status := BitVec.ofNat 16 (fld l 12 2)
    base := BitVec.ofNat 8 (fld l 14 1), mask := BitVec.ofNat 8 (fld l 15 1), count := BitVec.ofNat 32 (fld l 16 4)
    cstep := BitVec.ofNat 32 (fld l 20 4), cepoch := BitVec.ofNat 8 (fld l 24 1)
    good := crcHolds l && fld l 11 1 / 2 == 0 && fld l 25 3 == 0 }

/-- The bytes of a dry vote or dry notice (10 Table 10.3). -/
def dryBytes (m : DryMsg) : List Byte :=
  withCrc (le 2 m.job.toNat ++ le 1 m.epoch.toNat ++ le 1 m.attempt.toNat ++ le 4 m.step.toNat ++ le 8 m.index.toNat
    ++ le 4 m.count.toNat ++ le 1 m.level.toNat ++ le 7 0)

def DryMsg.ofBytes (l : List Byte) : DryMsg :=
  { job := BitVec.ofNat 16 (fld l 0 2), epoch := BitVec.ofNat 8 (fld l 2 1), attempt := BitVec.ofNat 8 (fld l 3 1)
    step := BitVec.ofNat 32 (fld l 4 4), index := BitVec.ofNat 64 (fld l 8 8), count := BitVec.ofNat 32 (fld l 16 4)
    level := BitVec.ofNat 8 (fld l 20 1), good := crcHolds l && fld l 21 7 == 0 }

/-- Causes of 10 Table 10.5. -/
def causeCheckTile : Nat := 1
def causeDup : Nat := 2
def causeMemory : Nat := 3
def causeChunk : Nat := 4
def causeGuard : Nat := 5
def causeRst : Nat := 6
def causeCombine : Nat := 7
def causeFault : Nat := 8

/-- Send a REPORT for epoch `e` of partition `k`; the consumer's epoch is named beside it (10 R362, R364). -/
def State.report (s : State) (k : Nat) (e : BitVec 8) (cause : Nat) (st : BitVec 16) (consumer : Option Tag) : State :=
  let ent := (s.dp.wetPart k).ent e.toNat
  s.quickset (.up (s.managerOf 0)) 0x12 (smudgeBytes
    { job := (s.job k).id, phase := 1, step := ent.step, epoch := e, attempt := ent.attempt, cause := BitVec.ofNat 8 cause
      valid := consumer.isSome, status := st
      cstep := match consumer with | some t => t.step | none => 0
      cepoch := match consumer with | some t => t.epoch | none => 0 })

/-! ### Jobs -/

/-- Change a job's status: vector 10 on both ports (14 Table 14.4). -/
def State.jobStatus (s : State) (k : Nat) (st : BitVec 16) : State :=
  if (s.job k).status = st then s
  else (s.updJob k fun j => { j with status := st }).onDp (·.raiseBoth 10)

/-- Stop a job with a status and, when a module was lost, its coordinate. -/
def State.stopJob (s : State) (k : Nat) (st : BitVec 16) (lost : BitVec 32) : State :=
  ((s.updJob k fun j => { j with running := false, lost := if lost = 0 then j.lost else lost }).jobStatus k st).mgmt
    .jobStop s.dp.coord.code (s.job k).id.toNat

/-- The partition of a job id among the jobs that exist. -/
def State.jobPart (s : State) (id : BitVec 16) : Option Nat :=
  (List.range 4).find? fun k => (s.job k).used && (s.job k).id == id

/-- The module reports DEGRADED to its hedge manager (01 R27, 10 R386, 11 R393). -/
def State.reportDegraded (s : State) : State :=
  ({ s with integ := { s.integ with degraded := true } } : State).mgmt .degraded s.dp.coord.code 0

/-! ### OTP (15 R485 to R487) -/

/-- Size of a field's value in bytes. -/
def otpSize (f : Nat) : Nat :=
  if f ≤ 0x05 then (match f with | 1 => 16 | 2 => 1 | _ => 32)
  else if f = 0x06 then 8 else if f = 0x07 then 192
  else if 0x10 ≤ f ∧ f < 0x40 then 12 else if 0x40 ≤ f ∧ f < 0x70 then 24 else 0

/-- The field exists (15 Table 15.1). -/
def otpField (f : Nat) : Bool := f ≤ 0x07 || (0x10 ≤ f && f < 0x70)

def otpSlots (f : Nat) : Nat := if f ≤ 0x02 then 1 else 4

/-- EASEL_REMAP's packing: L0 to L15 in bits [79:0], SPARE_PHYS in [84:80]. -/
def remapBytes (m : PanelMap) : List Byte :=
  le 12 ((List.range 16).foldl (fun a i => a + (m.phys.getD i 0x1F).toNat * 2 ^ (5 * i)) 0 + m.spare.toNat * 2 ^ 80)

def remapOf (l : List Byte) : PanelMap :=
  let x := unle l
  { phys := (List.range 16).map fun i => BitVec.ofNat 5 (bitsOf x (5 * i + 4) (5 * i)), spare := BitVec.ofNat 5 (bitsOf x 84 80) }

/-- What manufacture writes into slot 0 (DESIGN CHOICE, log entry 6): key hashes, POLICY 0, identity lane maps and
easel maps, no voltage offset and a binning factor of 1. -/
def otpMade (serial : BitVec 128) (f : Nat) : List Byte :=
  if f = 1 then le 16 serial.toNat
  else if f = 0x07 then List.replicate 192 0xE4
  else if 0x10 ≤ f ∧ f < 0x40 then remapBytes {}
  else if 0x40 ≤ f then le 16 0 ++ le 2 1024 ++ le 6 0
  else List.replicate (otpSize f) 0

def State.otpSlot (s : State) (f g : Nat) : OtpSlot :=
  match Sparse.get none s.sec.otp (f * 4 + g) with
  | some x => x
  | none => if g = 0 ∧ otpField f then .written (otpMade s.dp.serial f) true else .unused

def State.setOtpSlot (s : State) (f g : Nat) (x : OtpSlot) : State :=
  { s with sec := { s.sec with otp := Sparse.set none s.sec.otp (f * 4 + g) (some x) } }

/-- The written slot with the highest number: value and whether its CRC holds (R486). -/
def State.otpForce (s : State) (f : Nat) : Option (List Byte × Bool) :=
  (List.range (otpSlots f)).foldl (fun a g => match s.otpSlot f g with | .written v ok => some (v, ok) | _ => a) none

def State.otpValue (s : State) (f : Nat) : List Byte :=
  match s.otpForce f with
  | some (v, _) => v
  | none => List.replicate (otpSize f) 0

/-- The value in force: until the ST1 or ST3 that R488 names, the one before the last write. -/
def State.otpNow (s : State) (f : Nat) : List Byte :=
  match Sparse.get none s.sec.held f with
  | some v => v
  | none => s.otpValue f

/-- The lowest unused slot above every written and spoiled slot (R486). -/
def State.otpFree (s : State) (f : Nat) : Option Nat :=
  let n := (List.range (otpSlots f)).foldl (fun a g => if s.otpSlot f g = .unused then a else g + 1) 0
  if n < otpSlots f then some n else none

/-- Program a value into the next slot; `good` tells that value, CRC and marker were programmed whole, otherwise the
slot is left spoiled. Answers whether the field took the value. -/
def State.otpProgram (s : State) (f : Nat) (v : List Byte) (good : Bool) : State × Bool :=
  match s.otpFree f with
  | none => (s, false)
  | some g => (s.setOtpSlot f g (if good then .written v true else .spoiled), good)

/-! ### Keys (15 R489) -/

/-- KDF message of the identity key (0) or the attestation key (1) (Table 15.2). -/
def State.kdfMessage (s : State) (key : Nat) : List Byte :=
  let tag : List Byte := [0x49, 0x44, 0x56, 0x41, 0x4E, 0x2D] ++ (if key = 0 then [0x49, 0x44] else [0x41, 0x54])
  s.otpNow 0x00 ++ tag ++ le 1 s.sec.revoke ++ (if key = 0 then [] else slice s.fw.header 16 32)

/-- The order of the SM2 curve of GB/T 32918 (PRESUMED: the published standard's number, log entry 24). -/
def sm2Order : Nat := 0xFFFFFFFEFFFFFFFFFFFFFFFFFFFFFFFF7203DF6B21C6052B53BBF40939D54123

/-- The private key: 32 bytes of the SM3 key derivation function (GB/T 32918.3: the message and the counter 1), a number whose first
byte is its highest, modulo n - 1, plus 1. -/
def State.privateKey (s : State) (key : Nat) : Nat :=
  ((sm3 (s.kdfMessage key ++ [0, 0, 0, 1])).foldl (fun n (b : Byte) => 256 * n + b.toNat) 0) % (sm2Order - 1) + 1

/-- Public key of the identity key or the attestation key. -/
def State.publicKey (s : State) (key : Nat) : List Byte := Config.sm2Public (s.privateKey key)

/-! ### What a module reset clears and keeps (12 Table 12.3, 07 Table 7.9, the registers' reset domains) -/

/-- The role a coordinate has in a map; by default under 01 Table 1.7. -/
def roleIn (loaded : Bool) (m : List (Nat × Role)) (c : Coord) : Role :=
  if loaded then Sparse.get .worker m c.code.toNat
  else if c.slot = 15 then .spare
  else if c.slot ≠ 0 then .worker
  else if c.hedge ≠ 0 then .hedge
  else if c.site ≠ 0 ∨ c.pod ≠ 0 then .pod
  else .machine

/-- Scratch is cleared to zero. -/
def Mem.dropScratch (m : Mem) : Mem := { m with bytes := m.bytes.filter fun e => e.1 < scratchBase }

/-- Every die but the always-on island and OTP is reset; LPDDR5X contents, flash and the working area are kept. The
region tables, the job table, the maps and the observation state come back at ST3. -/
def State.resetDies (s : State) : State :=
  { pending := s.pending
    clk := s.clk
    dp := { s.dp with
      mem := { s.dp.mem.dropScratch with region := [], regionDue := [], jobs := [], units := [], chan := [], streak := [] }
      wet := [], obs := [], msixA := [], msixB := [] }
    lnk := { cabling := s.lnk.cabling, mapGen := s.lnk.mapGen }
    jobs := Sparse.mapVal {} (fun (j : Job) => { j with
      running := false, stopping := false, guards := [], phase := 0, ckpt := none, retried := false, heldSince := false }) s.jobs
    roles := { s.roles with beats := [], notices := [], degraded := [] }
    integ := { tpks := s.integ.tpks, degraded := s.integ.degraded }
    wdg := { moduleResets := s.wdg.moduleResets, status := s.wdg.status, level := s.wdg.level }
    pwr := { late := s.pwr.late, sources := s.pwr.sources, lastSource := s.pwr.lastSource, rtc := s.pwr.rtc
             alarmOn := s.pwr.alarmOn, alarmAt := s.pwr.alarmAt }
    mbx := { owner := none, ageMs := 0 }
    flash := s.flash
    sec := { s.sec with nonce := 0, attKey := false }
    elec := s.elec
    wear := s.wear
    stage := 1
    fw := s.fw }

/-- HANG_RESET record (12 Table 12.6). The payload keeps the episode's cause, which stays the same when it escalates; the head of an
ESCALATED record carries ST_RESET_ESCALATED (12 R419; DEDUCED, log entry 122). -/
def State.hangRecord (s : State) (phase level : Nat) (status : BitVec 16) (engine phys part epoch : Nat) (step seq : BitVec 32)
    (elapsed : Nat) (addr : BitVec 64) (source : BitVec 16) : State :=
  let st := if phase = 4 then .resetEscalated else (Status.ofCode status.toNat).getD .ok
  s.record 0x0101 source st
    (le 1 phase ++ le 1 level ++ le 2 status.toNat ++ le 2 engine ++ le 2 phys ++ le 1 part ++ le 1 epoch ++ le 2 0
      ++ le 4 step.toNat ++ le 4 seq.toNat ++ le 4 elapsed ++ le 8 addr.toNat)

/-- SOURCE and the easel, partition fields of a record of a level. -/
def resetSrc (level target : Nat) : BitVec 16 :=
  if level ≤ 2 then src 1 target else if level = 3 then src 7 target else src 0 0

def State.resetPart (s : State) (level target : Nat) : Nat :=
  if level ≤ 2 then (s.easelPart target).getD 0xFF else if level = 3 then target else 0xFF

/-- A record of an episode, with what is in flight on an engine (Table 12.6). -/
def State.levelRecord (s : State) (phase level target : Nat) (status : BitVec 16) (engine elapsed : Nat) (addr : BitVec 64) : State :=
  let cur := if engine < 1744 then (s.eq engine).cur else none
  let phys := if level ≤ 2 then s.physOf target else 0xFFFF
  match cur with
  | some a => s.hangRecord phase level status engine phys (s.resetPart level target) a.entry.tag.epoch.toNat a.entry.tag.step a.seq
      elapsed addr (resetSrc level target)
  | none => s.hangRecord phase level status engine phys (s.resetPart level target) 0xFF 0 0 elapsed addr (resetSrc level target)

/-- A HANG_RESET record of the module as a whole. -/
def State.moduleRecord (s : State) (phase level : Nat) (status : BitVec 16) (elapsed : Nat) : State :=
  s.hangRecord phase level status 0xFFFF 0xFFFF 0xFF 0xFF 0 0 elapsed 0 (src 0 0)

def satInc {w : Nat} (x : BitVec w) : BitVec w := if x = BitVec.allOnes w then x else x + 1

/-- Ovind is running: it has been started at ST2 and is not in recovery or halted in M2, M3. -/
def State.ovindRuns (s : State) : Bool := 3 ≤ s.stage && !s.mbx.recovery && (s.pwr.mstate == 0 || s.pwr.mstate == 1)

/-- A request or a level is merged with another reset (12 R420). -/
def State.absorb (s : State) (e : Episode) : State := s.levelRecord 5 e.level e.target e.status e.engine 0 0

/-- A module reset (12 R426), which joins one in progress and abandons the levels below (R420): notice and flush while Ovind runs
(`ovind` false: it is known not to), then the clearing; start-up follows from ST1. -/
def State.moduleReset (s : State) (status : BitVec 16) (ovind : Bool := true) (escalated : Bool := false) : State :=
  let me : Episode := { level := 4, target := 0, status, begun := s.dp.now }
  if s.wdg.episodes.any fun e => decide (4 ≤ e.level) then s.absorb me
  else
    let running := ovind && s.ovindRuns
    let s := s.wdg.episodes.foldl State.absorb s
    let s := if running then ((s.mgmt .resetNotice s.dp.coord.code 0).onDp (·.raiseBoth 9)) else s
    let s := s.moduleRecord 3 4 status 0
    let s := if running then s.onEvr Evr.flush else s
    let s := s.resetDies
    { s with wdg := { s.wdg with
      moduleResets := satInc s.wdg.moduleResets, level := 4, episodes := [me]
      status := if escalated then Status.resetEscalated.toCode else status } }

/-- A power cycle request (12 R427): the buffer goes to flash with the request record, `TRAY_PWR_REQ` is asserted, and the
module stays in reset. -/
def State.powerRequest (s : State) (status : BitVec 16) : State :=
  let me : Episode := { level := 5, target := 0, status, begun := s.dp.now }
  if s.wdg.episodes.any fun e => decide (5 ≤ e.level) then s.absorb me
  else
    let s := s.wdg.episodes.foldl State.absorb s
    let s := s.moduleRecord 7 5 status 0
    let s := (s.onEvr Evr.flush).onEvr fun e => { e.save with due := some true }
    let s := s.resetDies
    { s with wdg := { s.wdg with status, level := 5, episodes := [me] }
             elec := { s.elec with pwrReq := true } }

/-- LPDDR5X and glaze contents are lost with the main supply (07 R234, 17 R532), and with the working area in LPDDR5X the
partitions, the stored test packages and the cabling map (07 R261, 10 R384, 08 R294). -/
def State.loseMemory (s : State) : State :=
  { s.onDp fun d => { d with mem := { repair := d.mem.repair, toRetire := d.mem.toRetire, spareUsed := d.mem.spareUsed
                                      lowered := d.mem.lowered } } with
    jobs := []
    lnk := {}
    integ := { s.integ with tpks := [] }
    elec := { s.elec with cold := true } }

/-! ### Security alarms (15 R495 to R501) -/

def State.policyErases (s : State) (source : Nat) : Bool :=
  bitsOf (unle (s.otpValue 0x06)) (2 * source + 1) (2 * source) == 1

/-- Zeroise the session keys of every far link and the attestation key cache (R498 step 2). -/
def State.zeroise (s : State) : State :=
  let far := (List.range 96).filter fun n => farLink n && (s.link n).tx.no != 0
  let s := far.foldl (fun s n => s.send (.keyEvent n (s.link n).tx.no true)) s
  { s with sec := { s.sec with attKey := false } }

/-- Erase (R498, R501): HOLD is set; keys are zeroised; the lowest unprogrammed REVOKE bit is programmed, or with none
left IDENTITY_DISABLED is set; ERASED; a module reset with cause ST_ALARM. -/
def State.erase (s : State) : State :=
  let s := s.zeroise
  let sec := if s.sec.revoked then s.sec
    else if s.sec.revoke < 4 then { s.sec with revoke := s.sec.revoke + 1, revoked := true }
    else { s.sec with disabled := true }
  ({ s with sec := { sec with erased := true }, flash := { s.flash with erased := true } } : State).moduleReset
    Status.alarm.toCode

/-- A security alarm source fires: both logs first, vector 11, then the response (R495 to R500). -/
def State.fireAlarm (s : State) (source : Nat) : State :=
  let erases := s.policyErases source
  let s := { s with sec := { s.sec with
    flags := Sparse.upd {} s.sec.flags source Flag.hwSet
    active := s.sec.active ||| BitVec.ofNat 5 (2 ^ source) } }
  let seq := s.dp.evr.nextSeq
  let s := s.record 0x0900 (src 0xB source) .ok
    (le 1 source ++ le 1 (boolN erases) ++ le 1 s.sec.revoke ++ le 1 s.sec.active.toNat)
  let s := { s with flash := { s.flash with
    alarms := ((source, boolN erases, s.sec.revoke, seq) :: s.flash.alarms).take 64, hold := true } }
  let s := s.onDp (·.raiseBoth 11)
  let s := { s with sec := { s.sec with hold := true } }
  if erases && !s.sec.erased then s.erase else s

/-- Reference edges in 60 s and in 1 ms. -/
def edges60s : Nat := 60 * edgesPerSecond
def edgesPerMs : Nat := 156250

/-- A far link's IDENTIFY fails with ST_AUTH: 16 within 60 s are an AUTH alarm (15 Table 15.3). -/
def State.identFail (s : State) : State :=
  let l := s.dp.now :: s.sec.identFails.filter fun t => s.dp.now < t + edges60s
  if 16 ≤ l.length then ({ s with sec := { s.sec with identFails := [] } } : State).fireAlarm 4
  else { s with sec := { s.sec with identFails := l } }

/-- A mailbox command fails with ST_AUTH: 8 within 60 s are an AUTH alarm (15 Table 15.3). -/
def State.authFail (s : State) : State :=
  let l := s.dp.now :: s.sec.authFails.filter fun t => s.dp.now < t + edges60s
  if 8 ≤ l.length then ({ s with sec := { s.sec with authFails := [] } } : State).fireAlarm 4
  else { s with sec := { s.sec with authFails := l } }

/-! ### Module states (13 R451 to R456) -/

/-- Triggers of MSTATE records (the spec numbers none: DESIGN CHOICE, log entry 9). -/
def trigIdle : Nat := 1
def trigWork : Nat := 2
def trigManager : Nat := 3
def trigHost : Nat := 4
def trigWake : Nat := 5

def State.mstateRecord (s : State) (fromState toState trigger abandoned : Nat) : State :=
  s.record 0x0012 (src 0 0) .ok (le 1 fromState ++ le 1 toState ++ le 1 trigger ++ le 1 s.pwr.sources.toNat
    ++ le 1 s.pwr.lastSource.toNat ++ le 2 abandoned)

/-- Work arrives in M1: the easel clocks are released (Table 13.6). -/
def State.leaveIdle (s : State) : State :=
  if s.pwr.mstate = 1 ∧ s.pwr.trans = none then
    ({ s with pwr := { s.pwr with mstate := 0, clocksGated := false } } : State).mstateRecord 1 0 trigWork 0
  else s

/-- The exit to M0 begins: LAST_SOURCE and SOURCES take what arrived since the entry (R454). From M3 the module starts up from
ST0 (14 R483) once main lies within its range (17 R530). -/
def State.beginExit (s : State) (source : BitVec 4) : State :=
  let old := s.pwr.mstate
  let s := { s with pwr := { s.pwr with trans := some .exit, lastSource := source, sources := s.pwr.arrived, latched := none } }
  let s := s.mstateRecord old.toNat 0 trigWake 0
  if old ≠ 3 then s
  else if s.elec.mainGood then { s with stage := 0, pwr := { s.pwr with mstate := 0 } }
  else { s with elec := { s.elec with startDue := true } }

/-- A self-test stops at the next item boundary (R456): the items not run are logged as abandoned; how many they are
is a free value, since it hangs on the time of the wake. -/
def State.abandonTest (s : State) : State :=
  let r := s.dp.draw
  let n := r.1.toNat % 65536
  (({ s with dp := r.2, pwr := { s.pwr with selfTest := false } } : State).record 0x0303 (src 0 0) .ok
    (le 8 0 ++ le 2 0xFFFF ++ le 2 0xFFFF ++ le 1 3)).mstateRecord 0 0 trigWake n

/-- A wake source of R453 arrives: 1 RTC alarm, 2 mailbox post, 3 keepalive wake, 4 tray WAKE. -/
def State.wake (s : State) (source : Nat) : State :=
  let bit := BitVec.ofNat 4 (2 ^ (source - 1))
  let src4 := BitVec.ofNat 4 source
  let s := { s with pwr := { s.pwr with arrived := s.pwr.arrived ||| bit } }
  match s.pwr.trans with
  | some (.entry _) =>
    { s with pwr := { s.pwr with late := s.pwr.late.hwSet
                                 latched := some (match s.pwr.latched with | some x => x | none => src4) } }
  | some .exit => s
  | none =>
    if s.pwr.mstate = 2 then s.beginExit src4
    else if s.pwr.mstate = 3 then (if source = 1 ∨ source = 4 then s.beginExit src4 else s)
    else if s.pwr.selfTest ∧ source ≠ 1 then s.abandonTest
    else s

end Sys2Proof.Machine
end

