-- ==== Sys2Proof/Machine/Sm4.lean ====
section
/-! DEFINITION. The SM4 block cipher and its GCM mode (published), which seal the payloads of far links (08 R299, R301). -/
namespace Sys2Proof.Machine

/-! ### SM4 -/

def sm4Sbox : List Nat :=
  [0xd6, 0x90, 0xe9, 0xfe, 0xcc, 0xe1, 0x3d, 0xb7, 0x16, 0xb6, 0x14, 0xc2, 0x28, 0xfb, 0x2c, 0x05,
    0x2b, 0x67, 0x9a, 0x76, 0x2a, 0xbe, 0x04, 0xc3, 0xaa, 0x44, 0x13, 0x26, 0x49, 0x86, 0x06, 0x99,
    0x9c, 0x42, 0x50, 0xf4, 0x91, 0xef, 0x98, 0x7a, 0x33, 0x54, 0x0b, 0x43, 0xed, 0xcf, 0xac, 0x62,
    0xe4, 0xb3, 0x1c, 0xa9, 0xc9, 0x08, 0xe8, 0x95, 0x80, 0xdf, 0x94, 0xfa, 0x75, 0x8f, 0x3f, 0xa6,
    0x47, 0x07, 0xa7, 0xfc, 0xf3, 0x73, 0x17, 0xba, 0x83, 0x59, 0x3c, 0x19, 0xe6, 0x85, 0x4f, 0xa8,
    0x68, 0x6b, 0x81, 0xb2, 0x71, 0x64, 0xda, 0x8b, 0xf8, 0xeb, 0x0f, 0x4b, 0x70, 0x56, 0x9d, 0x35,
    0x1e, 0x24, 0x0e, 0x5e, 0x63, 0x58, 0xd1, 0xa2, 0x25, 0x22, 0x7c, 0x3b, 0x01, 0x21, 0x78, 0x87,
    0xd4, 0x00, 0x46, 0x57, 0x9f, 0xd3, 0x27, 0x52, 0x4c, 0x36, 0x02, 0xe7, 0xa0, 0xc4, 0xc8, 0x9e,
    0xea, 0xbf, 0x8a, 0xd2, 0x40, 0xc7, 0x38, 0xb5, 0xa3, 0xf7, 0xf2, 0xce, 0xf9, 0x61, 0x15, 0xa1,
    0xe0, 0xae, 0x5d, 0xa4, 0x9b, 0x34, 0x1a, 0x55, 0xad, 0x93, 0x32, 0x30, 0xf5, 0x8c, 0xb1, 0xe3,
    0x1d, 0xf6, 0xe2, 0x2e, 0x82, 0x66, 0xca, 0x60, 0xc0, 0x29, 0x23, 0xab, 0x0d, 0x53, 0x4e, 0x6f,
    0xd5, 0xdb, 0x37, 0x45, 0xde, 0xfd, 0x8e, 0x2f, 0x03, 0xff, 0x6a, 0x72, 0x6d, 0x6c, 0x5b, 0x51,
    0x8d, 0x1b, 0xaf, 0x92, 0xbb, 0xdd, 0xbc, 0x7f, 0x11, 0xd9, 0x5c, 0x41, 0x1f, 0x10, 0x5a, 0xd8,
    0x0a, 0xc1, 0x31, 0x88, 0xa5, 0xcd, 0x7b, 0xbd, 0x2d, 0x74, 0xd0, 0x12, 0xb8, 0xe5, 0xb4, 0xb0,
    0x89, 0x69, 0x97, 0x4a, 0x0c, 0x96, 0x77, 0x7e, 0x65, 0xb9, 0xf1, 0x09, 0xc5, 0x6e, 0xc6, 0x84,
    0x18, 0xf0, 0x7d, 0xec, 0x3a, 0xdc, 0x4d, 0x20, 0x79, 0xee, 0x5f, 0x3e, 0xd7, 0xcb, 0x39, 0x48]

/-- The S-box on each byte of a word. -/
def sm4Tau (x : BitVec 32) : BitVec 32 :=
  BitVec.ofNat 32 ((List.range 4).foldl (fun a i => a + sm4Sbox.getD (x.toNat / 2 ^ (8 * i) % 256) 0 * 2 ^ (8 * i)) 0)

def sm4T (x : BitVec 32) : BitVec 32 :=
  let b := sm4Tau x
  b ^^^ rotl b 2 ^^^ rotl b 10 ^^^ rotl b 18 ^^^ rotl b 24

def sm4KeyT (x : BitVec 32) : BitVec 32 :=
  let b := sm4Tau x
  b ^^^ rotl b 13 ^^^ rotl b 23

/-- The constant of key round `i`. -/
def sm4Ck (i : Nat) : BitVec 32 :=
  BitVec.ofNat 32 ((List.range 4).foldl (fun a j => a + (4 * i + j) * 7 % 256 * 2 ^ (24 - 8 * j)) 0)

/-- Four words, most significant first. -/
abbrev Quad := BitVec 32 × BitVec 32 × BitVec 32 × BitVec 32

def quad (x : BitVec 128) : Quad := (x.extractLsb' 96 32, x.extractLsb' 64 32, x.extractLsb' 32 32, x.extractLsb' 0 32)

/-- One round of the key schedule and of the cipher. -/
def sm4Round (i : Nat) (k x : Quad) : Quad × Quad :=
  let rk := k.1 ^^^ sm4KeyT (k.2.1 ^^^ k.2.2.1 ^^^ k.2.2.2 ^^^ sm4Ck i)
  ((k.2.1, k.2.2.1, k.2.2.2, rk), (x.2.1, x.2.2.1, x.2.2.2, x.1 ^^^ sm4T (x.2.1 ^^^ x.2.2.1 ^^^ x.2.2.2 ^^^ rk)))

def sm4Rounds : Nat → Nat → Quad → Quad → Quad
  | 0, _, _, x => x
  | n + 1, i, k, x => let r := sm4Round i k x; sm4Rounds n (i + 1) r.1 r.2

def sm4 (key x : BitVec 128) : BitVec 128 :=
  let k := quad (key ^^^ 0xa3b1bac656aa3350677d9197b27022dc)
  let y := sm4Rounds 32 0 k (quad x)
  y.2.2.2 ++ y.2.2.1 ++ y.2.1 ++ y.1

/-! ### GCM -/

/-- The product of GHASH, most significant bit first. -/
def gmul : Nat → BitVec 128 → BitVec 128 → BitVec 128 → BitVec 128
  | 0, _, _, z => z
  | n + 1, x, v, z =>
    gmul n (x <<< 1) ((v >>> 1) ^^^ (if v.getLsbD 0 then 0xe1000000000000000000000000000000 else 0)) (if x.msb then z ^^^ v else z)

/-- Up to 16 bytes as a block, zeros behind them. -/
def blockBe (l : List Byte) : BitVec 128 :=
  BitVec.ofNat 128 (((l ++ List.replicate 16 0).take 16).foldl (fun (a : Nat) (b : Byte) => a * 256 + b.toNat) 0)

def bytesBe (x : BitVec 128) : List Byte := beBytes 16 x.toNat

def ghash (h : BitVec 128) : Nat → BitVec 128 → List Byte → BitVec 128
  | 0, y, _ => y
  | n + 1, y, l => ghash h n (gmul 128 (y ^^^ blockBe l) h 0) (l.drop 16)

def pad16 (l : List Byte) : List Byte := l ++ List.replicate ((16 - l.length % 16) % 16) 0

/-- Counter block `i` of a 96-bit IV. -/
def gcmBlock (key : BitVec 128) (iv : List Byte) (i : Nat) : BitVec 128 := sm4 key (blockBe (iv.take 12 ++ beBytes 4 i))

/-- `n` key-stream bytes from byte `off` of a message on. -/
def gcmStream (key : BitVec 128) (iv : List Byte) (off n : Nat) : List Byte :=
  slice ((List.range (off % 16 + n + 15)).flatMap fun j => if j % 16 = 0 then bytesBe (gcmBlock key iv (2 + off / 16 + j / 16)) else [])
    (off % 16) n

/-- Encrypt or decrypt bytes that stand at `off` in the message. -/
def gcmXor (key : BitVec 128) (iv : List Byte) (off : Nat) (l : List Byte) : List Byte :=
  (l.zip (gcmStream key iv off l.length)).map fun x => x.1 ^^^ x.2

/-- The 16-byte tag of a ciphertext and its additional data. -/
def gcmTag (key : BitVec 128) (iv aad c : List Byte) : List Byte :=
  let m := pad16 aad ++ pad16 c ++ beBytes 8 (8 * aad.length) ++ beBytes 8 (8 * c.length)
  bytesBe (ghash (sm4 key 0) (m.length / 16) 0 m ^^^ gcmBlock key iv 1)

end Sys2Proof.Machine
end

