-- ==== Sys2Proof/Machine/Flits.lean ====
section
/-! DEFINITION. The bytes of flits, control entries, IDENT payloads and packets (08 Tables 8.3 to 8.6, 8.10), and the sealing of far payloads (08 R300, R301). -/
namespace Sys2Proof.Machine

/-! ### Flits (Tables 8.3, 8.4) -/

def tyIdle : Nat := 0
def tyData : Nat := 1
def tySeal : Nat := 2
def tyCtrl : Nat := 3
def tyIdent : Nat := 4

structure FlitHead where
  type   : Nat
  vc     : Nat := 0
  seq    : BitVec 18 := 0
  avc    : Nat := 0
  ack    : BitVec 18 := 0
  credit : Nat := 0
  deriving DecidableEq, Repr

def FlitHead.bytes (h : FlitHead) : List Byte :=
  le 6 (h.type % 8 + 2 ^ 3 * (h.vc % 4) + 2 ^ 5 * h.seq.toNat + 2 ^ 23 * (h.avc % 4) + 2 ^ 25 * h.ack.toNat + 2 ^ 43 * (h.credit % 32))

def FlitHead.ofBytes (l : List Byte) : FlitHead :=
  let x := fld l 0 6
  { type := bitsOf x 2 0, vc := bitsOf x 4 3, seq := BitVec.ofNat 18 (bitsOf x 22 5), avc := bitsOf x 24 23
    ack := BitVec.ofNat 18 (bitsOf x 42 25), credit := bitsOf x 47 43 }

def padTo (n : Nat) (l : List Byte) : List Byte := (l ++ List.replicate n 0).take n

/-- Bytes 0 to 251. -/
def flitBody (h : FlitHead) (payload : List Byte) : List Byte := h.bytes ++ padTo 246 payload

def flitBytes (h : FlitHead) (payload : List Byte) : List Byte :=
  flitBody h payload ++ le 4 (crc32c (flitBody h payload)).toNat

/-- A flit ended with the inverse of its CRC (R306). -/
def badFlitBytes (h : FlitHead) (payload : List Byte) : List Byte :=
  flitBody h payload ++ le 4 (~~~crc32c (flitBody h payload)).toNat

def flitHead (f : FlitIn) : FlitHead := FlitHead.ofBytes f.bytes
def flitPayload (f : FlitIn) : List Byte := slice f.bytes 6 246

/-- Its CRC holds and its TYPE is not reserved (R270). -/
def flitGood (f : FlitIn) : Bool :=
  decide (BitVec.ofNat 32 (fld f.bytes 252 4) = crc32c (slice f.bytes 0 252)) && decide ((flitHead f).type ≤ 4)

/-! ### Control entries (R272) -/

def CtrlEntry.bytes (e : CtrlEntry) : List Byte :=
  le 8 (e.op % 256 + 2 ^ 8 * (e.vc % 4) + 2 ^ 16 * e.seq.toNat + 2 ^ 34 * e.arg.toNat)

def CtrlEntry.ofBytes (l : List Byte) : CtrlEntry :=
  let x := fld l 0 8
  { op := bitsOf x 7 0, vc := bitsOf x 9 8, seq := BitVec.ofNat 18 (bitsOf x 33 16), arg := BitVec.ofNat 30 (bitsOf x 63 34) }

def ctrlPayload (l : List CtrlEntry) : List Byte := padTo 246 ((l.take 30).flatMap CtrlEntry.bytes)

/-- The entries of a CTRL payload that are not empty. -/
def ctrlEntries (p : List Byte) : List CtrlEntry :=
  ((List.range 30).map fun i => CtrlEntry.ofBytes (slice p (8 * i) 8)).filter (·.op ≠ 0)

/-! ### IDENT (Table 8.10) -/

/-- Bytes 0 to 139, which SIG signs. -/
def identBody (i : Ident) : List Byte :=
  le 2 i.format.toNat ++ le 2 i.linkIndex.toNat ++ le 4 i.coord.toNat ++ le 16 i.serial.toNat ++ le 2 i.protoMask.toNat
    ++ le 2 i.collAbi.toNat ++ le 2 i.fwMajor.toNat ++ le 1 i.laneMask.toNat ++ le 1 i.flags.toNat ++ le 8 i.session.toNat
    ++ le 16 i.nonce.toNat ++ le 16 i.peerNonce.toNat ++ le 2 i.mapGen.toNat ++ le 2 0 ++ padTo 64 i.kexPoint

def identBytes (i : Ident) : List Byte := padTo 246 (identBody i ++ padTo 64 i.sig)

def identOf (l : List Byte) : Ident :=
  { format := BitVec.ofNat 16 (fld l 0 2), linkIndex := BitVec.ofNat 16 (fld l 2 2), coord := BitVec.ofNat 32 (fld l 4 4)
    serial := BitVec.ofNat 128 (fld l 8 16), protoMask := BitVec.ofNat 16 (fld l 24 2), collAbi := BitVec.ofNat 16 (fld l 26 2)
    fwMajor := BitVec.ofNat 16 (fld l 28 2), laneMask := BitVec.ofNat 8 (fld l 30 1), flags := BitVec.ofNat 8 (fld l 31 1)
    session := BitVec.ofNat 64 (fld l 32 8), nonce := BitVec.ofNat 128 (fld l 40 16), peerNonce := BitVec.ofNat 128 (fld l 56 16)
    mapGen := BitVec.ofNat 16 (fld l 72 2), kexPoint := slice l 76 64, sig := slice l 140 64 }

/-! ### Packets (Table 8.6) -/

def pktHeader (p : Packet) : List Byte :=
  le 1 p.op.toNat ++ le 1 p.flags.toNat ++ le 2 p.length.toNat ++ le 4 p.dest.toNat ++ le 4 p.src.toNat
    ++ le 2 p.job.toNat ++ le 2 p.txn.toNat ++ le 8 p.addr.toNat ++ le 2 p.status.toNat ++ le 1 p.hops.toNat
    ++ le 5 p.resv.toNat

def pktBytes (p : Packet) : List Byte := pktHeader p ++ p.data

/-- Bytes of a packet whose header starts `l`: its LENGTH words, at most 128. -/
def pktSize (l : List Byte) : Nat := 32 + 32 * min (fld l 2 2) 128

def pktOf (l : List Byte) : Packet :=
  { op := BitVec.ofNat 8 (fld l 0 1), flags := BitVec.ofNat 8 (fld l 1 1), length := BitVec.ofNat 16 (fld l 2 2)
    dest := BitVec.ofNat 32 (fld l 4 4), src := BitVec.ofNat 32 (fld l 8 4), job := BitVec.ofNat 16 (fld l 12 2)
    txn := BitVec.ofNat 16 (fld l 14 2), addr := BitVec.ofNat 64 (fld l 16 8), status := BitVec.ofNat 16 (fld l 24 2)
    hops := BitVec.ofNat 8 (fld l 26 1), resv := BitVec.ofNat 40 (fld l 27 5)
    data := slice l 32 (pktSize l - 32) }

/-- Whole packets at the front of a VC's bytes up to the end of a flit, and the rest; from a packet's end on, a byte 0 where an
OP would stand begins the flit's padding (DESIGN CHOICE, log entry 112). -/
def splitPackets : Nat → List Byte → List Packet × List Byte
  | 0, l => ([], l)
  | n + 1, l =>
    if l.getD 0 0 = 0 then ([], [])
    else if l.length < 32 ∨ l.length < pktSize l then ([], l)
    else
      let r := splitPackets n (l.drop (pktSize l))
      (pktOf (l.take (pktSize l)) :: r.1, r.2)

/-! ### Sealing (R300, R301) -/

/-- The keys of a session: this end's sending and receiving directions. -/
def sessionKeys (no : Nat) (own peer : BitVec 128) (ownPoint peerPoint : List Byte) : LinkKey × LinkKey :=
  let lower := decide (own.toNat ≤ peer.toNat)
  let b := (List.range 40).map (if lower then Config.kexBytes own ownPoint peer peerPoint else Config.kexBytes peer peerPoint own ownPoint)
  let up : LinkKey := { no, key := blockBe (slice b 0 16), salt := BitVec.ofNat 32 (fld b 32 4) }
  let down : LinkKey := { no, key := blockBe (slice b 16 16), salt := BitVec.ofNat 32 (fld b 36 4) }
  if lower then (up, down) else (down, up)

/-- The IV of a group: salt, VC, absolute sequence number of its first flit. -/
def groupIv (k : LinkKey) (vc : Nat) (first : BitVec 62) : List Byte :=
  le 12 (k.salt.toNat + 2 ^ 32 * (vc % 4) + 2 ^ 34 * first.toNat)

/-- Its additional data: VC, first absolute sequence number, length. -/
def groupAad (vc : Nat) (first : BitVec 62) (n : Nat) : List Byte := le 1 vc ++ le 8 first.toNat ++ le 1 n

/-- The payload of a flit that comes `before` the earlier ciphertexts of its group: 246 bytes, or 230 and the tag in a SEAL. -/
def sealPayload (k : LinkKey) (vc : Nat) (first : BitVec 62) (before : List (List Byte)) (last : Bool) (plain : List Byte) : List Byte :=
  let iv := groupIv k vc first
  let c := gcmXor k.key iv (246 * before.length) (padTo (if last then 230 else 246) plain)
  if last then c ++ gcmTag k.key iv (groupAad vc first (before.length + 1)) (before.flatten ++ c) else c

/-- Open a group of received payloads, the SEAL's last: its plaintext flits when the tag verifies (R302). -/
def openGroup (k : LinkKey) (vc : Nat) (first : BitVec 62) (ps : List (List Byte)) : Option (List (List Byte)) :=
  let iv := groupIv k vc first
  match ps.getLast? with
  | none => none
  | some s =>
    let c := ps.dropLast.flatten ++ s.take 230
    if gcmTag k.key iv (groupAad vc first ps.length) c = s.drop 230 then
      some ((List.range ps.length).map fun j =>
        gcmXor k.key iv (246 * j) ((ps.getD j []).take (if j + 1 = ps.length then 230 else 246)))
    else none

end Sys2Proof.Machine
end

