-- ==== Sys2Proof/Machine/LinkOps.lean ====
section
/-! DEFINITION. What the link commands share: packets, states, sessions, queues, stores, control entries (08). -/
namespace Sys2Proof.Machine

def LinkVc.nextSeq (q : LinkVc) : BitVec 18 := q.nextAbs.setWidth 18
def LinkVc.expect (q : LinkVc) : BitVec 18 := q.expectAbs.setWidth 18

/-! ### Packets (08 Table 8.6) -/

def opRead : Nat := 0x01
def opReadResp : Nat := 0x02
def opWrite : Nat := 0x03
def opWriteAck : Nat := 0x04
def opAtomic : Nat := 0x05
def opAtomicResp : Nat := 0x06
def opChunk : Nat := 0x10
def opQs : Nat := 0x20
def opMgmt : Nat := 0x30
def opMgmtResp : Nat := 0x31

def listedOp (o : Nat) : Bool := [0x01, 0x02, 0x03, 0x04, 0x05, 0x06, 0x10, 0x20, 0x30, 0x31].contains o
def isRequest (o : Nat) : Bool := o == 0x01 || o == 0x03 || o == 0x05 || o == 0x10 || o == 0x20 || o == 0x30

/-- A malformed packet (R274): its status for the issuer. -/
def pktFault (p : Packet) : Option Status :=
  if !listedOp p.op.toNat || p.resv ≠ 0 || 128 < p.length.toNat || p.dest.toNat / 2 ^ 17 ≠ 0 || p.src.toNat / 2 ^ 17 ≠ 0
      || (p.op.toNat ≠ opQs && p.flags ≠ 0) then some .fieldReserved
  else if 16 ≤ p.hops.toNat then some .bounds
  else none

def coord32 (c : Coord) : BitVec 32 := c.code.setWidth 32
def destOf (p : Packet) : Coord := Coord.ofCode (p.dest.setWidth 17)
def srcOf (p : Packet) : Coord := Coord.ofCode (p.src.setWidth 17)

/-- The response to a request: OP + 1, the request's tag, its issuer as DEST. -/
def response (own : Coord) (p : Packet) (st : Status) (data : List Byte) : Packet :=
  { p with op := if p.op.toNat = opQs ∨ p.op.toNat = opChunk then p.op else p.op + 1, flags := 0
           length := BitVec.ofNat 16 (data.length / 32), dest := p.src, src := coord32 own
           status := st.toCode, hops := 0, resv := 0, data }

/-- The VC a packet takes on a link: QS_MSG and MGMT_MSG keep theirs; others TRANSIT but on the last hop DATA (R305). -/
def pktVc (op : Nat) (lastHop : Bool) : Nat :=
  if op = opQs then 0 else if op = opMgmt then 1 else if lastHop then 2 else 3

/-- Bound of a transmit queue in flits (R285). -/
def txBound (v : Nat) : Nat := if v ≤ 1 then 64 else 1024

/-- Receive buffer of a VC in flits: near credits (R281), far landing buffer (R282). -/
def rxBuffer (far : Bool) (v : Nat) : Nat :=
  if far then (match v with | 0 => 256 | 1 => 512 | _ => 3712)
  else (match v with | 0 => 32 | 1 => 64 | _ => 512)

/-- The grant of the line rate, 235.75 flits per us in 1/16 (R282). -/
def lineGrant : BitVec 12 := 3772

/-- Bytes waiting in a transmit queue. -/
def txBytes (v : LinkVc) : Nat := v.cur.length + (v.txq.map fun t => 32 + t.pkt.data.length).foldl (· + ·) 0

/-- The share class a job holds on a link. -/
def State.classOn (s : State) (n : Nat) (job : BitVec 16) : Option Nat :=
  (List.range 8).find? fun c => (s.share n c).held && (s.share n c).job == job

/-- A packet that the queue has room for (R285). -/
def LinkVc.fits (q : LinkVc) (v : Nat) (t : TxPkt) : Bool := decide (txBytes q + 32 + t.pkt.data.length ≤ txBound v * 246)

/-- Put a packet into a transmit queue; a queue at its bound refuses it, and its producer, an engine or the forwarding ingress,
waits with it behind those that wait already (R285). -/
def LinkVc.put (q : LinkVc) (v : Nat) (t : TxPkt) : LinkVc :=
  if q.waiting.isEmpty && q.fits v t then { q with txq := q.txq ++ [t] }
  else { q with refused := true, waiting := q.waiting ++ [t] }

/-- Packets that waited enter while the queue has room. -/
def LinkVc.settle (q : LinkVc) (v : Nat) : Nat → LinkVc
  | 0 => q
  | fuel + 1 => match q.waiting with
    | t :: r => if q.fits v t then ({ q with txq := q.txq ++ [t], waiting := r } : LinkVc).settle v fuel else q
    | [] => q

def State.enqueue (s : State) (n v c : Nat) (p : Packet) : State :=
  s.updLink n fun l => l.updVc v fun q => q.put v { cls := c, pkt := p }

/-- Send a packet over link `n`, whose state and shares allow it or not (R260, R296, R344). -/
def State.sendOver (s : State) (n : Nat) (p : Packet) : State × Status :=
  let last := s.peerOf n == (destOf p).code.toNat
  let v := pktVc p.op.toNat last
  match (s.link n).st with
  | .quarantine => if v = 1 then (s.enqueue n v 0 p, .ok) else (s, .linkQuarantine)
  | .active | .degraded =>
    if v ≤ 1 then (s.enqueue n v 0 p, .ok)
    else match s.classOn n p.job with
      | some c => (s.enqueue n v c p, .ok)
      | none => if isRequest p.op.toNat ∧ p.job ≠ 0 then (s, .routeConflict) else (s.enqueue n v 0 p, .ok)
  | _ => (s, .linkNotReady)

/-- Send a packet to its destination over the route of its source, engine and destination (R304). -/
def State.sendPacket (s : State) (p : Packet) (engine : Nat := 0) : State × Status :=
  match s.output (srcOf p) (destOf p) engine with
  | none => (s, .bounds)
  | some n => s.sendOver n p

/-- A response may take any ACTIVE route back (R275): the route's own output, else any candidate that is up. -/
def State.respond (s : State) (p : Packet) : State :=
  if destOf p = s.dp.coord then s.send (.packet p)
  else
    let r := s.sendPacket p
    if r.2 = .ok then r.1
    else match (s.candidates (destOf p)).find? fun n => (s.link n).st.up with
      | some n => (s.sendOver n p).1
      | none => s

/-- A management packet with a data payload of 32-byte words. -/
def mgmtPacket (s : State) (dest : Coord) (op : Nat) (addr : Addr) (data : List Byte) : Packet :=
  { op := BitVec.ofNat 8 op, flags := 0, length := BitVec.ofNat 16 (data.length / 32), dest := coord32 dest
    src := coord32 s.dp.coord, job := 0, txn := 0, addr, status := 0, hops := 0, resv := 0, data }

/-- Discard a malformed packet at this switch: an issuer of a request gets the status; the header is logged (R274). -/
def State.discardPacket (s : State) (p : Packet) (st : Status) : State :=
  let s := if isRequest p.op.toNat then s.respond (response s.dp.coord p st []) else s
  s.record 0x0404 (src 0 0) st (pktHeader p)

/-! ### Control entries (R272) -/

/-- An entry takes the place of the VC's earlier one of its OP; NOT_READY keeps naming the first SEQ refused (R308). -/
def LinkSt.addCtrl (l : LinkSt) (e : CtrlEntry) : LinkSt :=
  if e.op = 5 ∧ (l.ctrl.any fun x => x.op == 5 && x.vc == e.vc) then l
  else { l with ctrl := (l.ctrl.filter fun x => ¬(x.op = e.op ∧ x.vc = e.vc)) ++ [e] }

def LinkSt.dropCtrl (l : LinkSt) (op v : Nat) : LinkSt :=
  { l with ctrl := l.ctrl.filter fun x => ¬(x.op = op ∧ x.vc = v) }

/-! ### States (Table 8.9) -/

/-- An ephemeral public key: 64 fresh bytes of the random source from draw `k` on. -/
def freshPoint (k : Nat) : List Byte := (List.range 8).flatMap fun i => le 8 (Config.freeWord (k + i)).toNat

/-- LINK_STATE record: link, old and new state, cause, lane mask, both PROTO_MASKs, round trip (16 Table 16.3). -/
def State.linkRecord (s : State) (n : Nat) (old new : LnkState) (cause : Nat) (st : Status) : State :=
  let l := s.link n
  let peer := match l.peer with | some i => i.protoMask.toNat | none => 0
  s.record 0x0400 (src 4 n) st
    (le 1 n ++ le 1 old.code ++ le 1 new.code ++ le 1 cause ++ le 1 l.laneMask.toNat ++ le 2 s.fw.protoMask.toNat
      ++ le 2 peer ++ le 2 l.rtt.toNat)

/-- Move a link, recording the transition (R287). Leaving ACTIVE or DEGRADED sets DOWN_EVENT and keeps the session
for resume (R290); entering QUARANTINE sets its flag; reaching ACTIVE or DEGRADED returns the wait to 10 ms (R288). -/
def State.moveLink (s : State) (n : Nat) (new : LnkState) (cause : Nat) (st : Status := .ok) : State :=
  let old := (s.link n).st
  let s := s.updLink n fun l =>
    let l := { l with st := new }
    let l := if old.up && !new.up then
      { l with downEvent := l.downEvent.hwSet
               kept := some { serial := l.serialKept, link := l.peerLink, session := l.session }
               lanesBefore := if l.laneMask = 0xF then 4 else if l.laneMask.toNat = 1 ∨ l.laneMask.toNat = 2
                 ∨ l.laneMask.toNat = 4 ∨ l.laneMask.toNat = 8 then 1 else 2 }
      else l
    let l := if new == .quarantine then { l with quarantine := l.quarantine.hwSet } else l
    if new.up then { l with backoff := 10 } else l
  s.linkRecord n old new cause st

/-- Causes of transitions in LINK_STATE records (the spec numbers none: DESIGN CHOICE, log entry 8). -/
def causeEnable : Nat := 1
def causeDisable : Nat := 2
def causeRetrain : Nat := 3
def causeRestore : Nat := 4
def causeStart : Nat := 5
def causeBackoff : Nat := 6
def causeTrained : Nat := 7
def causeTimeout : Nat := 8
def causeIdentified : Nat := 9
def causeProtocol : Nat := 10
def causeAuth : Nat := 11
def causeLockLoss : Nat := 12
def causeLane : Nat := 13
def causeReplay : Nat := 14
def causeMap : Nat := 15
def causeReset : Nat := 16
def causeRtt : Nat := 17
def causeOp : Nat := 18

/-- Enter DOWN after a failure: the wait is the backoff, doubled for the next up to 1,280 ms; 1 s after a protocol
mismatch (R288). The reduced lane count stays until a session that is new begins (R298). -/
def State.linkDown (s : State) (n cause : Nat) (st : Status := .ok) : State :=
  (s.moveLink n .down cause st).updLink n fun l =>
    { l with waiting := true
             waitMs := if cause = causeProtocol then 1000 else l.backoff
             backoff := if cause = causeProtocol then l.backoff else min (2 * l.backoff) 1280
             laneMask := 0, wentDown := true, waitPerm := false, peer := none, echoed := false }

/-- Enter TRAIN. -/
def State.linkTrain (s : State) (n cause : Nat) : State :=
  (s.moveLink n .train cause).updLink n fun l =>
    { l with waiting := false, waitMs := 0, waitPerm := false, peer := none, echoed := false, ctrl := [], peerLanes := 0xF, echo := none }

/-- Enter IDENTIFY: a fresh NONCE and, on a far link, a fresh ephemeral key are drawn (R291, R300). -/
def State.linkIdentify (s : State) (n cause : Nat) : State :=
  let a := s.dp.draw
  let b := a.2.draw
  let s := { s with dp := if farLink n then { b.2 with freeCtr := b.2.freeCtr + 8 } else b.2 }
  (s.updLink n fun l => { l with
    nonce := a.1 ++ b.1, peer := none, echoed := false, waitPerm := false
    kexPoint := if farLink n then freshPoint b.2.freeCtr else [] }).moveLink n .identify cause

/-- May a link in DOWN leave for TRAIN: enabled, ST4 or later and started, no wait running (Table 8.9). -/
def State.mayTrain (s : State) (n : Nat) : Bool :=
  let l := s.link n
  l.st == .down && l.enable && decide (4 ≤ s.stage) && s.lnk.started && !l.waiting

def popcount4 (m : BitVec 4) : Nat := boolN (bitOf m.toNat 0) + boolN (bitOf m.toNat 1) + boolN (bitOf m.toNat 2) + boolN (bitOf m.toNat 3)

/-- The lowest `n` set lanes of a mask. -/
def lowLanes : Nat → Nat → BitVec 4 → BitVec 4
  | 0, _, _ => 0
  | fuel + 1, n, m =>
    if n = 0 ∨ m = 0 then 0
    else
      let b := m &&& (0 - m)
      b ||| lowLanes fuel (n - 1) (m &&& ~~~b)

/-- The largest working set of R297 within `cap` lanes: 4, 2 or 1 lanes. -/
def workingSet (good : BitVec 4) (cap : Nat) : BitVec 4 :=
  let k := min (popcount4 good) cap
  if 4 ≤ k then 0xF else if 2 ≤ k then lowLanes 4 2 good else lowLanes 4 1 good

/-! ### Sessions (R290, R291, R300) -/

/-- SESSION of a new session: the first 8 bytes of SM3 over both NONCEs in ascending order of SERIAL (R291). -/
def sessionId (own peer n m : BitVec 128) : BitVec 64 :=
  let l := if own.toNat ≤ peer.toNat then le 16 n.toNat ++ le 16 m.toNat else le 16 m.toNat ++ le 16 n.toNat
  BitVec.ofNat 64 (fld (sm3 l) 0 8)

/-- A VC at the start of a new session: SEQ 0, stores and buffers discarded; its transmit queue stays. -/
def freshVc (far : Bool) (v : Nat) (q : LinkVc) : LinkVc :=
  { txq := q.txq, waiting := q.waiting, refused := q.refused, pressure := q.pressure
    credit := if far then 0 else rxBuffer far v, grant := lineGrant }

/-- Every VC begins anew: stores and buffers are discarded (R290). -/
def LinkSt.fresh (l : LinkSt) (far : Bool) : LinkSt :=
  (List.range 4).foldl (fun l v => l.updVc v (freshVc far v)) { l with kept := none, store := [], ringNext := 0, ctrl := [] }

/-- A new session with the identified peer: its SESSION, on a far link its keys, every VC at SEQ 0 (R290, R291, R300). -/
def LinkSt.newSession (l : LinkSt) (far : Bool) (own : BitVec 128) (i : Ident) : LinkSt :=
  let k := sessionKeys (l.tx.no + 1) own i.serial l.kexPoint i.kexPoint
  { l.fresh far with
      session := sessionId own i.serial l.nonce i.nonce, serialKept := i.serial, underKey := 0, agreeing := false, exhausted := false
      tx := if far then k.1 else l.tx, rx := if far then k.2 else l.rx, txNew := none, rxNew := none, answered := none }

/-- Start of the session when a link becomes ACTIVE or DEGRADED: resumed with REPLAY on every VC, or new (R290). -/
def LinkSt.open (l : LinkSt) (far resumed : Bool) (own : BitVec 128) (i : Ident) : LinkSt :=
  let ready : CtrlEntry := { op := 6, vc := 0, arg := BitVec.ofNat 30 (boolN resumed) }
  if resumed then
    (List.range 4).foldl (fun l v => (l.updVc v fun q => { q with awaiting := true }).addCtrl { op := 1, vc := v, seq := (l.vc v).expect })
      (({ l with kept := none } : LinkSt).addCtrl ready)
  else (l.newSession far own i).addCtrl ready

/-- A link enters ACTIVE, or DEGRADED with fewer than four lanes; a step down in lanes sets DEGRADE (R297). -/
def State.linkActive (s : State) (n cause : Nat) (resumed : Bool) : State :=
  let l := s.link n
  let k := popcount4 l.laneMask
  let s := s.updLink n fun l =>
    let l := match l.peer with
      | some i => l.open (farLink n) resumed s.dp.serial i
      | none => l
    { l with waitPerm := false, sticky := decide (k < 4), wentDown := false, rejected := false
             degrade := if k < l.lanesBefore then l.degrade.hwSet else l.degrade }
  s.moveLink n (if k < 4 then .degraded else .active) cause

/-- May the session resume: within the window, same peer serial, link and SESSION, both ends set RESUME (R290). -/
def LinkSt.mayResume (l : LinkSt) (i : Ident) : Bool :=
  match l.kept with
  | none => false
  | some k => k.serial == i.serial && k.link == i.linkIndex.setWidth 7 && k.session == i.session && l.session == i.session
      && bitOf i.flags.toNat 1

/-! ### Stores and acknowledgements (R276 to R281) -/

/-- `a` lies before `b` in the sequence space of 2^18. -/
def seqBefore (a b : BitVec 18) : Bool := decide ((b - 1 - a).toNat < 2 ^ 17)

/-- Unacknowledged flits of a VC, oldest first. -/
def LinkSt.storeOf (l : LinkSt) (v : Nat) : List TxFlit := l.store.filter fun f => f.vc == v

/-- ACK frees the flits it passes (R277); a resend position it passes is dropped. -/
def LinkSt.ack (l : LinkSt) (v : Nat) (a : BitVec 18) : LinkSt :=
  ({ l with store := l.store.filter fun f => !(f.vc == v && seqBefore f.seq a) } : LinkSt).updVc v fun q => { q with
    resend := match q.resend with
      | some r => if seqBefore r a then (if a = q.nextSeq then none else some a) else some r
      | none => none }

/-- Take a flit's ACK and CREDIT (R277, R281). -/
def State.takeAck (s : State) (n : Nat) (v : Nat) (a : BitVec 18) (credit : Nat) : State :=
  s.updLink n fun l =>
    let l := l.ack v a
    if farLink n then l else l.updVc v fun q => { q with credit := min (q.credit + credit) (rxBuffer false v) }

/-- Every VC has passed its switch point to a new key: `at_` gives its position. -/
def pastSwitch (points : List (BitVec 62)) (at_ : Nat → BitVec 62) : Bool :=
  (List.range 4).all fun v => decide (points.getD v 0 ≤ at_ v)

/-- The key of an absolute sequence number while a new one may be on its way (R303). -/
def keyAt (old : LinkKey) (new : Option (LinkKey × List (BitVec 62))) (v : Nat) (abs : BitVec 62) : LinkKey :=
  match new with
  | some (k, points) => if points.getD v 0 ≤ abs then k else old
  | none => old

/-- Sender and receiver drop the old key once every VC has passed its switch point; the receiver zeroises it (R303). -/
def State.dropOldKeys (s : State) (n : Nat) : State :=
  let l := s.link n
  let out (v : Nat) : BitVec 62 := if (l.vc v).groupOut.isEmpty then (l.vc v).nextAbs else (l.vc v).groupFirst
  let in_ (v : Nat) : BitVec 62 := if (l.vc v).group.isEmpty then (l.vc v).expectAbs else (l.vc v).groupAbs
  let s := match l.txNew with
    | some (k, points) => if pastSwitch points out then s.updLink n fun l => { l with tx := k, txNew := none } else s
    | none => s
  match l.rxNew with
  | some (k, points) =>
    if pastSwitch points in_ then (s.updLink n fun l => { l with rx := k, rxNew := none }).send (.keyEvent n l.rx.no true) else s
  | none => s

/-- Start to send a VC again from `seq`, counting the resend; 16 within 1 ms set REPLAY and retrain (R276, R280). From the next
unsent SEQ there is nothing to send again; the same request within a round trip is a repeat of its entry (R272; DEDUCED, log
entry 113). -/
def State.resendFrom (s : State) (n v : Nat) (seq : BitVec 18) : State :=
  let now := s.dp.now
  let q := (s.link n).vc v
  let recent := q.resends.filter fun t => now < t + 156250
  let again := q.resendSeq == seq && match q.resends with
    | t :: _ => decide (now < t + 10 * (s.link n).rtt.toNat)
    | [] => false
  if seq = q.nextSeq ∨ again then s
  else
    let s := s.updLink n fun l => l.updVc v fun q => { q with resend := some seq, resendSeq := seq, resends := now :: recent }
    if 16 ≤ recent.length + 1 ∧ (s.link n).st.up then
      (s.updLink n fun l => (l.updVc v fun q => { q with resends := [] }) |> fun l => { l with replay := l.replay.hwSet })
        |>.linkTrain n causeReplay
    else s

/-- Hand the bytes of a buffered flit on: whole packets pass to the switch. -/
def State.passBytes (s : State) (n v : Nat) (bytes : List Byte) : State :=
  let all := ((s.link n).vc v).partialPkt ++ bytes
  let r := splitPackets (all.length / 32 + 1) all
  let s := s.updLink n fun l => l.updVc v fun q => { q with partialPkt := r.2 }
  r.1.foldl (fun s p => s.send (.passed n v p)) s

/-- Drain up to `k` flits of a VC's buffer in order: a near link returns their credits (R281), a far link counts them for its
grants (R282). -/
def State.drain (s : State) (n v k : Nat) : State :=
  let b := ((s.link n).vc v).buffer
  let now := s.dp.now
  let s := s.updLink n fun l => l.updVc v fun q =>
    { q with buffer := b.drop k, freed := if farLink n then q.freed else q.freed + min k b.length
             drains := if farLink n ∧ min k b.length ≠ 0 then (now, min k b.length) :: q.drains.filter (fun d => now < d.1 + 1250) else q.drains
             dirty := q.dirty || !(b.take k).isEmpty }
  (b.take k).foldl (fun s p => s.passBytes n v p) s

def satAdd (w : Nat) (x : BitVec w) (k : Nat) : BitVec w := BitVec.ofNat w (min (x.toNat + k) (2 ^ w - 1))

/-- Ask for a resend from the expected SEQ (R276). -/
def State.askReplay (s : State) (n v : Nat) : State :=
  let q := (s.link n).vc v
  if q.awaiting then s
  else s.updLink n fun l => (l.updVc v fun q => { q with awaiting := true }).addCtrl { op := 1, vc := v, seq := q.expect }

/-! ### Putting flits on a link (R271) -/

/-- The AVC in turn: the next VC whose ACK or CREDIT has changed (R271), else the last. -/
def LinkSt.nextAvc (l : LinkSt) : Nat :=
  match ([1, 2, 3, 4].map fun i => (l.avc + i) % 4).find? fun v => (l.vc v).dirty with
  | some v => v
  | none => l.avc

/-- What every flit returns: AVC, ACK, CREDIT; the return is taken off. -/
def LinkSt.returns (l : LinkSt) (far : Bool) : LinkSt × FlitHead :=
  let v := l.nextAvc
  let q := l.vc v
  let k := if far then 0 else min q.freed 31
  (({ l with avc := v } : LinkSt).updVc v fun q => { q with freed := q.freed - k, dirty := decide (k < q.freed) },
   { type := 0, avc := v, ack := q.expect, credit := k })

/-- Put a flit on the link; `bad`: with the inverse of its CRC (R306). -/
def State.putFlit (s : State) (n type : Nat) (v : Nat) (seq : BitVec 18) (payload : List Byte) (bad : Bool := false) : State :=
  let x := (s.link n).returns (farLink n)
  let h : FlitHead := { x.2 with type, vc := v, seq }
  (s.updLink n fun _ => { x.1 with sinceCtrl := if type = tyCtrl then 0 else x.1.sinceCtrl + 1 }).send
    (.flit n (if bad then badFlitBytes h payload else flitBytes h payload))

/-- Add bytes to a port's counter of the open window (16 R517). -/
def State.countPort (s : State) (j bytes : Nat) : State := { s with portRun := Sparse.upd 0 s.portRun j (· + bytes) }

end Sys2Proof.Machine
end

