-- ==== Sys2Proof/Machine/Power.lean ====
section
/-! DEFINITION. Rails and P-states, droop, the input power controller, energy, power domains, module states (13). -/
namespace Sys2Proof.Machine

/-- Reference edges in 1 µs are 156.25: the spans below compare 4 times a number of edges with 625 times the µs. -/
def spanUs (fromT toT : Nat) : Nat := 4 * (toT - fromT) / 625

def State.since (s : State) (t : Option Nat) (us : Nat) : Bool :=
  match t with
  | none => true
  | some t => decide (us ≤ spanUs t s.dp.now)

/-- The job contexts of an unmapped easel, and of one that holds a permanent fault, run on another easel (R27; 10 R381). -/
def State.displaced (s : State) (i : Nat) : Bool :=
  (s.panelMap (i / 16)).at (i % 16) == 0x1F || (Sparse.get ({} : Obs) s.dp.obs i).permanent != 0

/-- The logical easel that runs the job contexts of `i`: itself, or the first of its panel that runs its own, which alternates
the two contexts (the spec names none of the panel's easels: DESIGN CHOICE, log entry 101). -/
def State.runsOn (s : State) (i : Nat) : Nat :=
  if s.displaced i then (((List.range 16).map (i / 16 * 16 + ·)).find? fun e => !s.displaced e).getD i else i

/-- The physical easel that runs the job contexts of `i`. -/
def State.runPhys (s : State) (i : Nat) : Nat := s.physOf (s.runsOn i)

/-- EASEL record: physical, logical, action, the counts of its observation (16 Table 16.3). -/
def State.easelRecord (s : State) (phys logical action : Nat) : State :=
  let o := Sparse.get {} s.dp.obs logical
  s.record 0x0100 (src 2 phys) .ok (le 2 phys ++ le 2 logical ++ le 1 action ++ le 1 o.permanent.toNat ++ le 1 o.transient.toNat)

/-! ### Power domains (R445 to R449) -/

def State.domain (s : State) (n : Nat) : Domain := Sparse.get {} s.pwr.domains n
def State.updDomain (s : State) (n : Nat) (f : Domain → Domain) : State :=
  { s with pwr := { s.pwr with domains := Sparse.upd {} s.pwr.domains n f } }

/-- Parents of a domain (R447): a panel's uncore and glaze of an easel, unit 16 of the quadrant's frame of an uncore. -/
def domainParents (n : Nat) : List Nat :=
  if n < 816 then [816 + n / 17, 864 + n / 17]
  else if n < 864 then [912 + 20 * ((n - 816) / 12) + 16]
  else []

def domainChildren (n : Nat) : List Nat :=
  if 816 ≤ n ∧ n < 912 then (List.range 17).map fun q => 17 * ((n - 816) % 48) + q
  else if 912 ≤ n ∧ (n - 912) % 20 = 16 then (List.range 12).map fun p => 816 + 12 * ((n - 912) / 20) + p
  else []

def DomState.held : DomState → Bool
  | .up | .on | .down => true
  | .off | .retention => false

/-- HOLDS: children that are ON or in transition, and children whose own votes or holds ask for power and wait for
their parents (R447; log entry 12). `fuel` is the depth of the tree. -/
def State.holds (s : State) : Nat → Nat → Nat
  | 0, _ => 0
  | fuel + 1, n => ((domainChildren n).filter fun c =>
      (s.domain c).st.held || (s.domain c).votes != 0 || decide (0 < s.holds fuel c)).length

def State.domainHolds (s : State) (n : Nat) : Nat := s.holds 2 n

def State.wanted (s : State) (n : Nat) : Bool := (s.domain n).votes != 0 || decide (0 < s.domainHolds n)

/-- An easel domain that runs a BUSY context (R449). -/
def State.domainBusy (s : State) (n : Nat) : Bool :=
  decide (n < 816) && (List.range 16).any fun e =>
    let i := n / 17 * 16 + e
    ((s.eq i).busy || (s.eq (768 + i)).busy) && s.runPhys i == n

/-- A domain evaluates its votes: it powers up once its parents are ON, and down when nothing holds it (R446 to R448). -/
def State.evalDomain (s : State) (n : Nat) : State :=
  match (s.domain n).st with
  | .off | .retention =>
    if s.wanted n && (domainParents n).all fun p => (s.domain p).st == .on then s.updDomain n fun d => { d with st := .up } else s
  | .on => if s.wanted n || s.domainBusy n then s else s.updDomain n fun d => { d with st := .down }
  | .up | .down => s

/-- Evaluate a domain's ancestors, then the domain itself. -/
def State.evalUp (s : State) (n : Nat) : State :=
  (((domainParents n).flatMap domainParents ++ domainParents n) ++ [n]).foldl State.evalDomain s

/-- A panel's spare is in its self-test: in ST3 or a dormant self-test wake (01 R24). -/
def State.spareTested (s : State) (phys : Nat) : Bool :=
  (s.pwr.selfTest || s.stage == 3) && (s.panelMap (phys / 17)).spare.toNat == phys % 17

/-- Ovind writes `PWR_VOTE_CMD`; client 7 and domains above 991 are ignored and logged; a retired or spare easel takes
no vote but Ovind's during its self-test (R446, R447). -/
def State.vote (s : State) (client domain : Nat) (set : Bool) : State :=
  if 6 < client ∨ 991 < domain then
    s.configRecord (0x500000 + 0x28) (boolN set * 2 ^ 31 + client * 2 ^ 16 + domain)
  else if set && decide (domain < 816) && (s.logicalOf domain).isNone && !(client == 4 && s.spareTested domain) then s
  else
    let bit := BitVec.ofNat 7 (2 ^ client)
    (s.updDomain domain fun d => { d with votes := if set then d.votes ||| bit else d.votes &&& ~~~bit }).evalUp domain

def execPwrVoteSet (client : Fin 8) (domain : BitVec 10) (s : State) : Out := .next (s.vote client domain.toNat true)
def execPwrVoteWithdraw (client : Fin 8) (domain : BitVec 10) (s : State) : Out := .next (s.vote client domain.toNat false)

/-- Ovind writes a client's votes. -/
def State.votes (s : State) (client : Nat) (ds : List Nat) (set : Bool) : State := ds.foldl (fun s n => s.vote client n set) s

/-- Ovind's own votes: frame units 15, 16 and 19, the LPDDR5X controllers (log entry 13), every glaze with an assigned
granule (13 R446). -/
def State.ovindDomains (s : State) : List Nat :=
  ((List.range 4).flatMap fun f => [6, 7, 8, 9, 15, 16, 19].map fun u => 912 + 20 * f + u)
    ++ ((s.dp.mem.region.filter fun e => inGlaze (e.1 * 2 ^ 21) && regionType e.2 != 0 && regionType e.2 != 7).map fun e =>
      864 + unitOf (e.1 * 2 ^ 21)).eraseDups

/-- The link manager's domains: each link group with an enabled link (13 R446). -/
def State.linkDomains (s : State) : List Nat :=
  ((List.range 24).filter fun g => (List.range 4).any fun i => (s.link (4 * g + i)).enable).map fun g => 912 + 20 * (g / 6) + g % 6

/-- A transition ends; the domain evaluates its votes again, then the domains that waited for it (R448). A domain that
stayed ON because its easel was BUSY is evaluated too (R449). -/
def State.domainDone (s : State) (n : Nat) : State :=
  let s := s.updDomain n fun d => { d with st := match d.st with | .up => .on | .down => .off | x => x }
  let s := s.evalUp n
  (domainChildren n).foldl State.evalDomain s

def execDomainTransitionDone (domain : Fin 992) (s : State) : Out := .next (s.domainDone domain)

/-- A physical easel is switched off for good: its votes are withdrawn (R20, R418). -/
def State.cutEasel (s : State) (phys : Nat) : State :=
  (s.updDomain phys fun _ => {}).evalUp phys

/-! ### P-states (R431 to R433) -/

def State.pstate (s : State) (p : Nat) : PState := Sparse.get {} s.pwr.pstates p
def State.updPstate (s : State) (p : Nat) (f : PState → PState) : State :=
  { s with pwr := { s.pwr with pstates := Sparse.upd {} s.pwr.pstates p f } }

/-- A rail away from its target begins a step of one P-state, unless one is under way (R432). -/
def PState.go (x : PState) : PState :=
  if x.moving.isSome ∨ x.cur = x.tgt then x
  else { x with moving := some (if x.cur.toNat < x.tgt.toNat then x.cur + 1 else x.cur - 1) }

/-- TARGET is the larger index of REQUEST and CAP. -/
def State.setRequest (s : State) (p : Nat) (r : BitVec 4) : State :=
  s.updPstate p fun x => PState.go { x with req := r, tgt := if s.pwr.cap.toNat ≤ r.toNat then r else s.pwr.cap }

def State.setCap (s : State) (c : BitVec 4) : State :=
  let s := { s with pwr := { s.pwr with cap := c } }
  (List.range 48).foldl (fun s p => s.setRequest p (s.pstate p).req) s

/-- A rail completes its step, even when the target has changed meanwhile, and goes on toward the new one. -/
def PState.arrive (x : PState) : PState := PState.go { x with cur := x.moving.getD x.cur, moving := none }

def execPstateStep (panel : Panel) (s : State) : Out := .next (s.updPstate panel PState.arrive)

/-- Nominal rail voltages in mV (Table 13.1). -/
def nominalMv : List Nat := [780, 770, 760, 750, 740, 725, 710, 695, 680, 665, 650, 635, 620, 605, 590, 580]

/-- The panel's V/F binning: offset of a P-state in mV and the estimator factor in 1/1,024 (15 VF_BIN). -/
def State.railMv (s : State) (p : Nat) : Nat :=
  let v := s.otpNow (0x40 + p)
  let k := (s.pstate p).cur.toNat
  ((nominalMv.getD k 0 : Int) + sext 8 (fld v k 1)).toNat

def State.binFactor (s : State) (p : Nat) : Nat := fld (s.otpNow (0x40 + p)) 16 2

/-! ### Droop (R434, R435) -/

def execDroopTrip (easel : Easel) (s : State) : Out :=
  .next (({ s with pwr := { s.pwr with
      fDroop := s.pwr.fDroop.hwSet, stretched := Sparse.set false s.pwr.stretched easel true } } : State).updPct easel fun p =>
    p.account none { events := [(0x0B, 1, 1)] })

def execDroopRecovery (easel : Easel) (s : State) : Out :=
  .next { s with pwr := { s.pwr with stretched := Sparse.set false s.pwr.stretched easel false } }

/-- POWER record: kind, ACTING_W, MEASURED_W, ESTIMATE_W, limit, panel, stretched fraction. -/
def State.powerRecord (s : State) (kind acting limit panel fraction : Nat) (st : Status) : State :=
  s.record 0x0800 (if kind = 4 then src 9 panel else src 0 0) st
    (le 1 kind ++ le 2 acting ++ le 2 s.pwr.measured.toNat ++ le 2 s.pwr.estimate.toNat ++ le 2 limit ++ le 1 panel ++ le 2 fraction)

def State.actingW (s : State) : Nat := (ratioInt s.pwr.acting 100).toNat

/-- More than 10 % stretched cycles of a panel in 1 ms: a record, at most once a second per panel. -/
def State.droopPersist (s : State) (p fraction : Nat) : State :=
  let last := Sparse.get 0 s.pwr.droopRec p
  if fraction ≤ 100 ∨ (last ≠ 0 ∧ spanUs (last - 1) s.dp.now < 1000000) then s
  else
    ({ s with pwr := { s.pwr with droopRec := Sparse.set 0 s.pwr.droopRec p (s.dp.now + 1) } } : State).powerRecord 4
      s.actingW 0 p fraction .ok

def execDroopPersist (panel : Panel) (permille : Fin 1001) (s : State) : Out := .next (s.droopPersist panel permille)

/-! ### The controller (R436 to R442) -/

/-- The limits are in range and ordered (R436). -/
def limitsOk (peak sus : Nat) : Bool :=
  decide (2800 ≤ peak) && decide (peak ≤ 3500) && decide (1200 ≤ sus) && decide (sus ≤ 2800) && decide (sus ≤ peak)

/-- Denominator of the estimator's sums (Table 13.2): every term is an integer number of 1/estDen W at the input, the
conversion efficiency 0.92 included. -/
def estDen : Nat := 92 * 10 ^ 6 * 780 ^ 2 * 2 ^ 22

/-- Terms without a panel's scaling: 10^-8 W units. -/
def plainTerm (x : Nat) : Nat := x * 780 ^ 2 * 2 ^ 22

/-- The terms of a panel in a microsecond: static and activity with V, binning factor and gain; glaze plain. -/
def State.panelTerm (s : State) (p : Nat) (c : PanelCount) : Nat :=
  let v := s.railMv p
  let k := s.binFactor p * s.pwr.gain.toNat
  let static := if (s.domain (816 + p)).st = .on then 400000000 * v * 780 * k else 0
  let dyn := (1085 * c.mx + 1300 * c.e2m1 + 110 * c.idle + 50 * c.strokes) * v * v * k
  let glaze := plainTerm ((if (s.domain (864 + p)).st = .on then 200000000 else 0) + 24 * c.glaze)
  static + dyn + glaze

def State.panelOwner (s : State) (p : Nat) : Nat :=
  ((List.range 4).find? fun k => (s.job k).used && bitOf (s.job k).panels.toNat p).getD 4

/-- Links whose group domain is ON. -/
def State.poweredLinks (s : State) : Nat :=
  ((List.range 96).filter fun n => (s.domain (912 + 20 * (n / 24) + n % 24 / 4)).st == .on).length

/-- The microsecond's estimate enters the sums of the ms; the fast loop follows (R437, R439). -/
def State.addEstimate (s : State) (c : PowerCounts) : State :=
  let est := (List.range 48).foldl (fun e p =>
    Sparse.upd 0 e (s.panelOwner p) (· + s.panelTerm p ((c.panels.find? fun x => x.panel.val == p).getD { panel := 0 }))) s.pwr.est
  let frames := ((List.range 4).filter fun f => (s.domain (912 + 20 * f + 16)).st == .on).length
  let refresh := if s.pwr.mstate = 2 then 16 else 0
  { s with pwr := { s.pwr with
    est := Sparse.upd 0 est 4 (· + plainTerm (2500000000 * frames))
    eLink := s.pwr.eLink + plainTerm (312500000 * s.poweredLinks)
    eLp := s.pwr.eLp + plainTerm (5300 * c.lpddr + 50000000 * refresh)
    eCnt := s.pwr.eCnt + 1 } }

/-- Peak limit in force, in 0.01 W. -/
def State.peakNow (s : State) : Nat := if s.pwr.failed then s.pwr.peak.toNat * 90 else s.pwr.peak.toNat * 100

/-- Throttle value n of the register field n - 1. -/
def State.throttle (s : State) : Nat := s.pwr.throttle.toNat + 1

def State.fastLoop (s : State) : State :=
  let a := s.pwr.acting
  if 98 * s.peakNow ≤ 100 * a ∧ 4 < s.throttle ∧ s.since s.pwr.lastLower 10 then
    { s with pwr := { s.pwr with
      throttle := s.pwr.throttle - 1, lastLower := some s.dp.now, lastChange := some s.dp.now
      fPeak := if s.throttle = 16 then s.pwr.fPeak.hwSet else s.pwr.fPeak } }
  else if 100 * a ≤ 93 * s.peakNow ∧ s.throttle < 16 ∧ s.since s.pwr.lastChange 100 then
    { s with pwr := { s.pwr with throttle := s.pwr.throttle + 1, lastChange := some s.dp.now } }
  else s

def execPowerEstimate (counts : PowerCounts) (s : State) : Out := .next (s.addEstimate counts).fastLoop

/-- Disagreement (R441): an episode begins when every ms of more than 10 ms disagrees by more than 15 %, and ends after
100 ms of agreement within 10 %; a recalibration at most every 100 ms. -/
def State.suspectCheck (s : State) : State :=
  let m := s.pwr.measured.toNat
  let e := s.pwr.estimate.toNat
  let diff := max e m - min e m
  let dis := if 15 * max e m < 100 * diff then s.pwr.disagree + 1 else 0
  let agr := if 100 * diff ≤ 10 * max e m then s.pwr.agree + 1 else 0
  let s := { s with pwr := { s.pwr with disagree := dis, agree := agr, pairs := ((m, e) :: s.pwr.pairs).take 10
                                        suspect := s.pwr.suspect && decide (agr < 100) } }
  if dis ≤ 10 then s
  else
    let s := if s.pwr.suspect then s
      else ({ s with pwr := { s.pwr with suspect := true, fSuspect := s.pwr.fSuspect.hwSet } } : State).powerRecord 2
        s.actingW 0 0 0 .sensorSuspect
    if s.pwr.calLimit ∨ !s.since s.pwr.lastCal 100000 then s
    else
      let sm := (s.pwr.pairs.map (·.1)).foldl (· + ·) 0
      let se := (s.pwr.pairs.map (·.2)).foldl (· + ·) 0
      -- the factor sm / se clamped to 0.80 to 1.25
      let (n, d) := if 100 * sm < 80 * se then (80, 100) else if 125 * se < 100 * sm then (125, 100) else (sm, se)
      let g := ratioInt (s.pwr.gain.toNat * n : Nat) d
      let lim := decide (g < 0x0B33) || decide (0x1666 < g)
      { s with pwr := { s.pwr with
        gain := BitVec.ofInt 16 (if g < 0x0B33 then 0x0B33 else if 0x1666 < g then 0x1666 else g)
        calLimit := lim, lastCal := some s.dp.now } }

/-- R442: two intervals below 400 W in a row with an easel active in each. -/
def Pwr.sense (p : Pwr) (m : BitVec 16) (active : Bool) : Pwr :=
  let runs := if m.toNat < 400 ∧ active then p.lowRuns + 1 else 0
  if p.failed ∨ runs < 2 then { p with measured := m, lowRuns := runs }
  else { p with measured := m, lowRuns := runs, failed := true, fSuspect := p.fSuspect.hwSet }

/-- Estimated energy of the interval by account, on the common denominator of both byte sums (R443). -/
def State.accountEst (s : State) (shares : List (Part × Nat × Nat)) : List Nat :=
  let lb := (shares.map (·.2.1)).foldl (· + ·) 0
  let pb := (shares.map (·.2.2)).foldl (· + ·) 0
  let den := max lb 1 * max pb 1
  (List.range 5).map fun k =>
    let own := Sparse.get 0 s.pwr.est k * den
    let sh := shares.filter fun x => x.1.val == k
    let l := (sh.map (·.2.1)).foldl (· + ·) 0 * max pb 1
    let p := (sh.map (·.2.2)).foldl (· + ·) 0 * max lb 1
    own + s.pwr.eLink * (if k == 4 && lb == 0 then den else l) + s.pwr.eLp * (if k == 4 && pb == 0 then den else p)

/-- R444. -/
def State.apportion (s : State) (shares : List (Part × Nat × Nat)) : State :=
  let w := if s.pwr.failed then s.pwr.estimate.toNat else s.pwr.measured.toNat
  let energy := w * 1000
  let est := s.accountEst shares
  let all := est.foldl (· + ·) 0
  let q (k : Nat) : Nat := if all = 0 then 0 else energy * est.getD k 0 / all
  let given := q 0 + q 1 + q 2 + q 3
  let add (l : List (Nat × Nat)) (k n : Nat) := Sparse.upd 0 l k (· + n)
  let l := add (add (add (add s.pwr.energy 0 (q 0)) 1 (q 1)) 2 (q 2)) 3 (q 3)
  { s with pwr := { s.pwr with energy := add (add l 4 (energy - given)) 5 energy, est := [], eLink := 0, eLp := 0, eCnt := 0 } }

/-- e1 in W: the mean of the ms. The spec states neither its width nor a rounding (log entry 11). -/
def State.estimateMean (s : State) : Nat :=
  let sum := s.pwr.est.foldl (fun a e => a + e.2) 0 + s.pwr.eLink + s.pwr.eLp
  if s.pwr.eCnt = 0 then s.pwr.estimate.toNat else (ratioInt sum (estDen * s.pwr.eCnt)).toNat

/-- At the end of a ms (R438, R441, R442, R444): a sensor that fails with this interval acts by its estimate from here on, as in
Table 13.3; so does the energy of this interval (DEDUCED, log entry 123). -/
def State.powerMeasure (s : State) (m : BitVec 16) (active : Bool) (shares : List (Part × Nat × Nat)) : State :=
  let e := s.estimateMean
  let fails := !s.pwr.failed && (s.pwr.sense m active).failed
  let s := { s with pwr := s.pwr.sense m active }
  let a := if s.pwr.failed then 110 * e else 100 * max e m.toNat
  let s := { s with pwr := { s.pwr with estimate := BitVec.ofNat 16 e, acting := a, hist := (a :: s.pwr.hist).take 1000 } }
  let s := if fails then s.powerRecord 3 s.actingW 0 0 0 .sensorSuspect else s
  let s := s.apportion shares
  if s.pwr.failed then s else s.suspectCheck

def execPowerMeasurement (measured : BitVec 16) (active : Bool) (shares : List (Part × Nat × Nat)) (s : State) : Out :=
  .next (s.powerMeasure measured active shares)

/-- Full throttling with s above the sustained limit for 1 s: a record, repeated every 10 s (R440). -/
def State.limitRecord (s : State) (sum n : Nat) : State :=
  let above := s.pwr.cap = 15 ∧ s.throttle = 4 ∧ s.pwr.sus.toNat * 100 * n < sum
  if !above then { s with pwr := { s.pwr with overSince := none, limitRec := none } }
  else
    let t := s.pwr.overSince.getD s.dp.now
    let s := { s with pwr := { s.pwr with overSince := some t } }
    if 1000000 ≤ spanUs t s.dp.now ∧ s.since s.pwr.limitRec 10000000 then
      ({ s with pwr := { s.pwr with limitRec := some s.dp.now } } : State).powerRecord 1
        (ratioInt sum (100 * n)).toNat s.pwr.sus.toNat 0 0 .powerLimit
    else s

/-- Every 10 ms (R439). -/
def State.slowLoop (s : State) : State :=
  let n := max s.pwr.hist.length 1
  let sum := s.pwr.hist.foldl (· + ·) 0
  let sus := s.pwr.sus.toNat
  let a := s.pwr.acting
  let s := if 99 * sus * n < sum ∧ 97 * sus < a ∧ s.pwr.cap.toNat < 15 then
      ({ s with pwr := { s.pwr with fSus := s.pwr.fSus.hwSet } } : State).setCap (s.pwr.cap + 1)
    else if sum < 95 * sus * n ∧ a < 93 * sus ∧ s.throttle = 16 ∧ 0 < s.pwr.cap.toNat then s.setCap (s.pwr.cap - 1)
    else s
  s.limitRecord sum n

def execSlowLoop (s : State) : Out := .next s.slowLoop

/-! ### Module states (R450 to R456) -/

def State.partitionExists (s : State) : Bool := (List.range 4).any fun k => (s.job k).used

/-- 10 ms with no partition and no TPK running: M0 to M1. -/
def State.idleEntry (s : State) : State :=
  if s.pwr.mstate = 0 ∧ s.pwr.trans = none ∧ !s.pwr.selfTest ∧ !((List.range 4).any fun k => (s.job k).running) then
    ({ s with pwr := { s.pwr with mstate := 1, clocksGated := true } } : State).mstateRecord 0 1 trigIdle 0
  else s

def execIdleEntry (s : State) : Out := .next s.idleEntry

/-- An entry to M2 or M3 begins (Table 13.6, R455): a spare arms its self-test alarm, the recorder's buffer is flushed. -/
def State.beginEntry (s : State) (dest : BitVec 2) (trigger : Nat) : State :=
  let s := s.mstateRecord s.pwr.mstate.toNat dest.toNat trigger 0
  let s := if s.roles.role = .spare ∧ dest = 2 then
      { s with pwr := { s.pwr with alarmOn := true
                                   alarmAt := BitVec.ofNat 63 (s.pwr.rtc.toNat + 3600000 * s.pwr.hours.toNat) } }
    else s
  ({ s with pwr := { s.pwr with trans := some (.entry dest), arrived := 0, selfTest := false } } : State).onEvr Evr.flush

/-- The hedge manager's DORMANT command to a spare. -/
def State.dormant (s : State) : State :=
  if s.roles.role = .spare ∧ s.pwr.mstate.toNat ≤ 1 ∧ s.pwr.trans = none ∧ !s.partitionExists then s.beginEntry 2 trigManager else s

def execDormantCommand (s : State) : Out := .next s.dormant

/-- Domains that stay powered in M2: link groups, controllers, units 16 and 18. -/
def keptInM2 (n : Nat) : Bool :=
  decide (912 ≤ n) && (decide ((n - 912) % 20 < 10) || (n - 912) % 20 == 16 || (n - 912) % 20 == 18)

/-- A domain as an entry to M2 leaves it: a glaze that was ON in RETENTION, the rest off. -/
def domainInM2 (e : Nat × Domain) : Option (Nat × Domain) :=
  if keptInM2 e.1 then some e
  else if 864 ≤ e.1 ∧ e.1 < 912 ∧ (e.2.st = .on ∨ e.2.st = .retention) then some (e.1, { st := .retention })
  else none

/-- An entry to M2: domains as they stay, easel scratch lost (07 Table 7.9). -/
def State.powerDown (s : State) : State :=
  { s with pwr := { s.pwr with domains := s.pwr.domains.filterMap domainInM2 }
           dp := { s.dp with mem := s.dp.mem.dropScratch } }

/-- The entry ends: M2 halts Ovind and keeps memory; in M3 only the always-on island runs, and memory is lost. A wake
that was latched starts the exit at once (R454). -/
def State.entryDone (s : State) : State :=
  match s.pwr.trans with
  | some (.entry dest) =>
    let s := if dest = 2 then s.powerDown
      else
        let s := s.onEvr fun e => { e.flush.save with due := some true }
        let arrived := s.pwr.arrived
        let latched := s.pwr.latched
        let s := s.loseMemory.resetDies
        { s with pwr := { s.pwr with arrived, latched }, stage := 0 }
    let s := { s with pwr := { s.pwr with mstate := dest, trans := none } }
    match s.pwr.latched with
    | some x => s.beginExit x
    | none => s
  | _ => s

def execMstateEntryDone (s : State) : Out := .next s.entryDone

/-- Ovind resumes after M2: its votes and the link manager's are held again, and a glaze that has a vote leaves retention. -/
def State.resumeVotes (s : State) : State :=
  let s := (s.votes 4 s.ovindDomains true).votes 5 s.linkDomains true
  { s with pwr := { s.pwr with domains := Sparse.mapVal {} (fun (d : Domain) =>
      if d.st = .retention then { d with st := .off } else if d.st = .up then { d with st := .on } else d) s.pwr.domains } }

/-- The exit ends in M0: glaze leaves retention, the links leave keepalive into new sessions. An RTC wake of a spare
starts the self-test (R455); a manager returns as a worker (01 R44). An exit from M3 ends once start-up has reached ST5. -/
def State.exitDone (s : State) : State :=
  if s.pwr.trans ≠ some .exit ∨ s.stage ≠ 5 then s
  else
    let was2 := s.pwr.mstate = 2
    let s : State := { s with pwr := { s.pwr with
      mstate := 0, trans := none, clocksGated := false, selfTest := decide (s.roles.role = .spare ∧ s.pwr.lastSource = 1) } }
    let s := if was2 then s.resumeVotes else s
    let s : State := { s with roles := { s.roles with role := returnedRole s.roles.role } }
    if was2 then
      (List.range 96).foldl (fun s n => if (s.link n).st.up then
        (s.linkTrain n causeReset).updLink n fun l => { l with kept := none } else s) s
    else s

def execWakeExitDone (s : State) : Out := .next s.exitDone

/-- The RTC reaches the alarm: ENABLE clears and the module wakes. -/
def State.rtcAlarm (s : State) : State :=
  if s.pwr.alarmOn ∧ s.pwr.alarmAt.toNat ≤ s.pwr.rtc.toNat then
    ({ s with pwr := { s.pwr with alarmOn := false } } : State).wake 1
  else s

def execRtcAlarm (s : State) : Out := .next s.rtcAlarm
def execKeepaliveWake (s : State) : Out := .next (s.wake 3)
def execTrayWake (s : State) : Out := .next (s.wake 4)

/-- TPK record: package, item, physical easel, result 1 pass, 2 fail, 3 abandoned. -/
def State.tpkRecord (s : State) (t : Tpk) (item phys result : Nat) : State :=
  s.record 0x0303 (if phys < 816 then src 2 phys else src 0 0) .ok
    (le 4 t.id.toNat ++ le 4 t.version.toNat ++ le 2 item ++ le 2 phys ++ le 1 result)

/-- A panel's spare fails its self-test (01 R24); a retired easel's domain is off (R20). -/
def State.spareFails (s : State) (p : Nat) : State :=
  let q := (s.panelMap p).spare
  if q = 0x1F then s
  else
    let s := s.updPanel p fun m => { m with spare := 0x1F, retired := m.retired ||| BitVec.ofNat 17 (2 ^ q.toNat) }
    let s := { s with flash := { s.flash with emap := Sparse.set {} s.flash.emap p { s.panelMap p with otpPending := false } } }
    (s.cutEasel (17 * p + q.toNat)).easelRecord (17 * p + q.toNat) 0xFFFF 2

/-- The spares' self-tests are over: their domains are off (01 R20). -/
def State.sparesOff (s : State) : State :=
  (List.range 48).foldl (fun s p =>
    let q := (s.panelMap p).spare
    if q = 0x1F ∨ (s.domain (17 * p + q.toNat)).votes = 0 then s else s.cutEasel (17 * p + q.toNat)) s

end Sys2Proof.Machine
end

