-- ==== Sys2Proof/Machine/Host.lean ====
section
/-! DEFINITION. The host ports: slots, acceptance and command checks, ownership, BAR2, MSI-X, port resets (14). -/
namespace Sys2Proof.Machine

/-! ### Ports and slots -/

def portNo : Port → Nat
  | .A => 0
  | .B => 1
def portOther : Port → Port
  | .A => .B
  | .B => .A

def State.port (s : State) : Port → PortSt
  | .A => s.mbx.a
  | .B => s.mbx.b

def State.updPort (s : State) (p : Port) (f : PortSt → PortSt) : State :=
  match p with
  | .A => { s with mbx := { s.mbx with a := f s.mbx.a } }
  | .B => { s with mbx := { s.mbx with b := f s.mbx.b } }

def PortSt.slot (p : PortSt) (n : Nat) : Slot := Sparse.get {} p.slots n
def PortSt.seg (p : PortSt) (n : Nat) : Seg := Sparse.get {} p.segs n
def State.slot (s : State) (p : Port) (n : Nat) : Slot := (s.port p).slot n
def State.updSlot (s : State) (p : Port) (n : Nat) (f : Slot → Slot) : State :=
  s.updPort p fun q => { q with slots := Sparse.upd {} q.slots n f }

def State.isOwner (s : State) (p : Port) : Bool := s.mbx.owner == some p

/-- A BAR0 write of the port is discarded (R461, R469). -/
def State.bar0Discard (s : State) (p : Port) (n : Nat) : State :=
  s.updPort p fun q =>
    { q with discards := q.discards + BitVec.ofNat 32 n, fDiscard := (List.replicate n ()).foldl (fun f _ => f.hwSet) q.fDiscard }

def execBar0Discard (port : Port) (s : State) : Out := .next (s.bar0Discard port 1)

/-- The host fills a FREE slot and writes POSTED; into another slot the writes are discarded (R467, R469). The post
wakes a dormant module (13 R453). -/
def State.slotPost (s : State) (p : Port) (n : Nat) (req : SlotReq) : State :=
  if (s.slot p n).st = .free then (s.updSlot p n fun _ => { st := .posted, req }).wake 2
  else s.bar0Discard p 1

def execSlotPost (port : Port) (slot : Fin 8) (req : SlotReq) (s : State) : Out := .next (s.slotPost port slot req)

/-- FREE written to a state word: frees a DONE slot; to a FREE slot it changes nothing; else discarded (R469). -/
def State.slotFree (s : State) (p : Port) (n : Nat) : State :=
  match (s.slot p n).st with
  | .done => s.updSlot p n fun _ => {}
  | .free => s
  | _ => s.bar0Discard p 1

def execSlotFree (port : Port) (slot : Fin 8) (s : State) : Out := .next (s.slotFree port slot)

/-! ### The opcodes of OMP revision 2 (R477, Table 14.7) -/

/-- Who may post, and the request size in bytes (`none`: it depends on the payload). -/
structure OpRow where
  code  : Nat
  owner : Bool
  size  : Option Nat
  deriving DecidableEq, Repr

def opRows : List OpRow :=
  [⟨0x01, false, some 0⟩, ⟨0x02, false, some 0⟩, ⟨0x03, false, some 0⟩, ⟨0x04, true, some 4⟩, ⟨0x05, true, none⟩,
   ⟨0x06, true, some 388⟩, ⟨0x07, true, some 4⟩, ⟨0x10, true, some 32⟩, ⟨0x11, true, some 4⟩, ⟨0x12, true, some 12⟩,
   ⟨0x13, true, some 4⟩, ⟨0x14, false, some 4⟩, ⟨0x15, true, some 4⟩, ⟨0x20, true, some 16⟩, ⟨0x21, true, some 4⟩,
   ⟨0x30, false, some 32⟩]
  ++ [⟨0x31, true, some 40⟩, ⟨0x32, false, some 16⟩, ⟨0x33, true, some 24⟩, ⟨0x40, true, some 8⟩, ⟨0x41, true, some 8⟩,
   ⟨0x50, true, some 16⟩, ⟨0x51, true, some 8⟩, ⟨0x60, true, some 4⟩, ⟨0x61, true, some 4⟩, ⟨0x62, true, some 4⟩,
   ⟨0x70, false, some 16⟩, ⟨0x71, true, some 128⟩, ⟨0x72, false, some 16⟩, ⟨0x73, true, some 4⟩, ⟨0x74, false, some 0⟩]
  ++ [⟨0x80, false, some 0⟩, ⟨0x81, false, some 4⟩, ⟨0x82, true, none⟩, ⟨0x83, true, some 128⟩, ⟨0x90, true, some 4⟩,
   ⟨0x91, true, some 4⟩, ⟨0x92, true, some 8⟩, ⟨0x93, true, none⟩, ⟨0x94, true, some 0⟩]

def opRow (code : Nat) : Option OpRow := opRows.find? fun r => r.code == code

/-- Opcodes that revision 1 lacks. -/
def onlyRev2 (code : Nat) : Bool := [0x06, 0x33, 0x74, 0x83].contains code

/-- The request size of an opcode for a payload. -/
def opSize (r : OpRow) (pl : List Byte) : Nat :=
  match r.size with
  | some n => n
  | none =>
    if r.code = 0x05 then (if fld pl 0 4 = 0xFFFFFFFF then 4 else 4 + 8 * fld pl 0 4)
    else if r.code = 0x82 then 4 + otpSize (fld pl 0 2) + 128
    else 8 + fld pl 4 4

/-- Bytes [a, b) of a payload are zero. -/
def zeroIn (pl : List Byte) (a n : Nat) : Bool := zeros (slice pl a n)

/-- A reserved payload byte is not zero, or a field lies outside its range (last row of Table 14.6b). -/
def payloadBad (code : Nat) (pl : List Byte) : Bool :=
  let f := fld pl
  match code with
  | 0x04 => !zeroIn pl 1 3 || decide (1 < f 0 1)
  | 0x05 => f 0 4 == 0xFFFFFFFF || ((List.range (f 0 4)).any fun i => !zeroIn pl (9 + 8 * i) 3 || decide (4 < f (8 + 8 * i) 1))
  | 0x06 => !zeroIn pl 2 2 || ((List.range 96).any fun i => decide (2 ^ 24 ≤ f (4 + 4 * i) 4))
  | 0x07 => !zeroIn pl 1 3 || !([0, 2, 3].contains (f 0 1))
  | 0x10 => !zeroIn pl 3 1 || decide (2 < f 2 1) || f 4 4 == 0 || decide (10000 < f 4 4) || decide (2 ^ 48 ≤ f 16 8)
  | 0x11 | 0x12 | 0x13 | 0x14 | 0x15 | 0x20 | 0x21 | 0x40 => !zeroIn pl 2 2
  | 0x30 => !zeroIn pl 28 4 || f 24 4 == 0xFFFFFFFF
  | 0x31 => !zeroIn pl 28 4 || f 24 4 == 0xFFFFFFFF
  | 0x32 => !zeroIn pl 12 4 || f 8 4 == 0xFFFFFFFF || decide (503 < f 8 4)
  | 0x50 | 0x51 | 0x92 => !zeroIn pl 4 4
  | 0x61 => !zeroIn pl 2 2 || decide (3 < f 0 1) || decide (15 < f 1 1)
  | 0x62 => !zeroIn pl 3 1 || decide (1 < f 2 1)
  | 0x70 => !zeroIn pl 12 4 || f 8 4 == 0xFFFFFFFF || decide (62 < f 8 4)
  | 0x72 => !zeroIn pl 2 2 || !zeroIn pl 12 4 || decide (767 < f 0 2) || f 8 4 == 0xFFFFFFFF || decide (4000 < f 8 4)
  | 0x73 => !zeroIn pl 2 2 || decide (3 < f 0 1) || decide (1 < f 1 1)
  | 0x81 | 0x82 => !zeroIn pl 2 2
  | 0x90 => !zeroIn pl 1 1 || f 0 1 == 0 || decide (5 < f 0 1)
      || (decide (f 0 1 ≤ 2) && decide (767 < f 2 2)) || (f 0 1 == 3 && decide (3 < f 2 2))
  | 0x91 => !zeroIn pl 2 2 || decide (95 < f 0 1) || decide (3 < f 1 1)
  | 0x93 => f 4 4 == 0xFFFFFFFF || decide (4000 < f 4 4)
  | _ => false

/-- The checks of Table 14.6b, rows from the top; in recovery mode the boot ROM's own rows come first (R482). -/
def State.cmdCheck (s : State) (p : Port) (slot : Nat) (q : SlotReq) : Status :=
  let code := q.opcode.toNat
  if s.mbx.recovery ∧ slot ≠ 0 then .booting
  else if s.mbx.recovery ∧ ¬ [0x01, 0x92, 0x93, 0x94, 0x90].contains code then .badOpcode
  else if s.mbx.recovery ∧ code = 0x90 ∧ fld q.payload 0 1 ≠ 4 then .badOpcode
  else if ¬ s.mbx.recovery ∧ s.stage < 5 ∧ code ≠ 0x01 then .booting
  else if ¬ (q.revision = 1 ∨ q.revision = 2) ∨ 1 < q.flags.toNat ∨ !zeros q.reserved then .fieldReserved
  else match opRow code with
    | none => .badOpcode
    | some r =>
      if onlyRev2 code ∧ q.revision = 1 then .badOpcode
      else if r.owner ∧ ¬ s.mbx.recovery ∧ !s.isOwner p then .notOwner
      else if q.length = 0xFFFFFFFF then .fieldReserved
      else if 4032 < q.length.toNat ∨ q.length.toNat ≠ opSize r q.payload then .bounds
      else if payloadBad code q.payload then .fieldReserved
      else .ok

/-! ### Acceptance and completion (R468 to R472) -/

/-- Ovind writes the response, RESP_LENGTH, STATUS and DONE and raises the slot's vector (R467); a command whose port was
reset loses its response (R458), and one that a module reset has dropped has none (R472). A failure with ST_AUTH is counted
(15 Table 15.3). -/
def State.finish (s : State) (c : Cmd) (st : Status) (resp : List Byte) : State :=
  match s.mbx.cmds.find? fun x => x.seq == c.seq with
  | none => s
  | some x =>
    let s := { s with mbx := { s.mbx with cmds := s.mbx.cmds.filter fun x => x.seq != c.seq } }
    let s := if x.live then
        (s.updSlot c.port c.slot fun q => { q with st := .done, status := st.toCode, resp }).raise c.port c.slot
      else s
    if st = .auth then s.authFail else s

/-- The next POSTED slot of the 16, after the one accepted last (R468). -/
def State.nextSlot (s : State) : Option (Port × Nat) :=
  let order := (List.range 16).map fun i => (s.mbx.last + 1 + i) % 16
  match order.find? fun i => (s.slot (if i < 8 then .A else .B) (i % 8)).st == .posted with
  | some i => some (if i < 8 then .A else .B, i % 8)
  | none => none

/-- Accept the next POSTED slot, while the module is not dormant: SEQ and ACCEPTED are written, and the checks run (R468, R471). -/
def State.slotAccept (s : State) : State :=
  match if s.pwr.mstate.toNat ≤ 1 then s.nextSlot else none with
  | none => s
  | some (p, n) =>
    let q := (s.slot p n).req
    let seq := s.mbx.nextSeq
    let st := s.cmdCheck p n q
    let c : Cmd := { seq, port := p, slot := n, req := q, since := s.dp.now }
    let s := { s with mbx := { s.mbx with last := 8 * (portNo p) + n, nextSeq := seq + 1, cmds := s.mbx.cmds ++ [c] } }
    let s := s.updSlot p n fun q => { q with st := .accepted, seq := seq }
    if st = .ok then s else s.finish c st []

def execSlotAccept (s : State) : Out := .next s.slotAccept

/-- Data, records and status commands run beside the others, the rest one at a time (R470). -/
def serialOp (code : Nat) : Bool :=
  !((0x30 ≤ code && code ≤ 0x33) || (0x70 ≤ code && code ≤ 0x74) || [0x01, 0x02, 0x14, 0x80].contains code)

/-- May the command run now: a serial one when no earlier serial one is unfinished (an answer to a take runs while the take
waits), another when fewer than 8 run (R470, R475). -/
def State.mayRun (s : State) (c : Cmd) : Bool :=
  let code := c.req.opcode.toNat
  if serialOp code then
    s.mbx.cmds.all fun x => !(serialOp x.req.opcode.toNat) || decide (c.seq.toNat ≤ x.seq.toNat)
      || (some x.seq == s.mbx.take && code == 0x04)
  else decide (((s.mbx.cmds.filter fun x => !serialOp x.req.opcode.toNat && x.seq.toNat < c.seq.toNat)).length < 8)

/-- The accepted command of number `seq`, when it is of the opcode, has not started and may run. -/
def State.cmdReady (s : State) (seq : BitVec 48) (code : Nat) : Option Cmd :=
  s.mbx.cmds.find? fun c => c.seq == seq && c.req.opcode.toNat == code && !c.waiting && s.mayRun c

/-- Run a command to its completion. -/
def State.runCmd (s : State) (seq : BitVec 48) (code : Nat) (f : Cmd → State × Status × List Byte) : State :=
  match s.cmdReady seq code with
  | none => s
  | some c => let r := f c; r.1.finish c r.2.1 (if r.2.1 = .ok then r.2.2 else [])

/-- Leave a command waiting in ACCEPTED. -/
def State.waitCmd (s : State) (c : Cmd) : State :=
  { s with mbx := { s.mbx with cmds := s.mbx.cmds.map fun x => if x.seq = c.seq then { x with waiting := true } else x } }

/-- The waiting command of number `seq`. -/
def State.cmdWaiting (s : State) (seq : BitVec 48) (code : Nat) : Option Cmd :=
  s.mbx.cmds.find? fun c => c.seq == seq && c.req.opcode.toNat == code && c.waiting

/-! ### Ownership (R473 to R476) -/

/-- Ownership passes: both ports' OWNER, OWNER_CHANGE and vector 8, and the record (R475). The age of the new owner's
heartbeat starts anew (DESIGN CHOICE, log entry 10). -/
def State.passOwner (s : State) (p : Port) (cause : Nat) : State :=
  let s := { s with mbx := { s.mbx with owner := some p, lapsed := false, ageMs := 0 } }
  let s := (s.updPort .A fun q => { q with fOwner := q.fOwner.hwSet }).updPort .B fun q => { q with fOwner := q.fOwner.hwSet }
  (s.onDp (·.raiseBoth 8)).record 0x0011 (src 8 (portNo p)) .ok (le 1 (portNo p) ++ le 1 cause)

/-- A heartbeat write: the owner's restarts AGE_MS, the peer's is discarded (R474). -/
def execMbxHeartbeat (port : Port) (_value : BitVec 32) (s : State) : Out :=
  .next (if s.isOwner port then { s with mbx := { s.mbx with ageMs := 0, lapsed := false } }
    else s.bar0Discard port 1)

/-- AGE_MS reaches 5,000: LAPSED on both ports. -/
def execOwnerLapse (s : State) : Out :=
  .next (if s.mbx.owner.isNone then s
    else { s with mbx := { s.mbx with lapsed := true, ageMs := if s.mbx.ageMs.toNat < 5000 then 5000 else s.mbx.ageMs } })

def State.takeOwnership (s : State) (seq : BitVec 48) : State :=
  match s.cmdReady seq 0x03 with
  | none => s
  | some c =>
    if s.isOwner c.port then s.finish c .ok []
    else if s.mbx.lapsed then (s.passOwner c.port 2).finish c .ok []
    else match s.mbx.owner with
      | some o => (({ s with mbx := { s.mbx with take := some seq } } : State).waitCmd c).raise o 8
      | none => (s.passOwner c.port 1).finish c .ok []

def execTakeOwnership (seq : BitVec 48) (s : State) : Out := .next (s.takeOwnership seq)

/-- The command that waits for the owner's answer. -/
def State.takeCmd (s : State) : Option Cmd :=
  match s.mbx.take with
  | some q => s.mbx.cmds.find? fun c => c.seq == q
  | none => none

def State.releaseOwnership (s : State) (seq : BitVec 48) : State :=
  s.runCmd seq 0x04 fun c =>
    let ans := fld c.req.payload 0 1
    match s.takeCmd with
    | some t =>
      let s := { s with mbx := { s.mbx with take := none } }
      if ans = 0 then ((s.passOwner t.port 1).finish t .ok [], .ok, []) else (s.finish t .notOwner [], .ok, [])
    | none =>
      if ans ≠ 0 then (s, .ok, [])
      else if (s.port (portOther c.port)).up then (s.passOwner (portOther c.port) 3, .ok, []) else (s, .mbxBusy, [])

def execReleaseOwnership (seq : BitVec 48) (s : State) : Out := .next (s.releaseOwnership seq)

/-- 1 s without the owner's answer. -/
def execOwnershipAnswerTimeout (s : State) : Out :=
  .next (match s.takeCmd with
    | some t => ({ s with mbx := { s.mbx with take := none } } : State).finish t .notOwner []
    | none => s)

/-! ### Ports (R458, R465, R473) -/

/-- A port reset: its BAR0 state, segments and slots; accepted commands run on without a response (R458). -/
def State.portReset (s : State) (p : Port) (linkDown : Bool) : State :=
  let s := { s with mbx := { s.mbx with cmds := s.mbx.cmds.map fun (c : Cmd) => if c.port = p then { c with live := false } else c } }
  (s.updPort p fun q => { up := if linkDown then false else q.up }).onDp fun d => d.setMsix p []

def execPortReset (port : Port) (linkDown : Bool) (s : State) : Out := .next (s.portReset port linkDown)

/-- A port's link comes up: the other port's PEER_LINK; with no owner chosen at ST5 its host becomes the owner. -/
def execPcieLinkUp (port : Port) (s : State) : Out :=
  .next (let s := s.updPort port fun q => { q with up := true }
    if s.mbx.owner = none ∧ s.stage = 5 then { s with mbx := { s.mbx with owner := some port } } else s)

/-- Unmasking a vector sends its pending message. -/
def execMsixUnmask (port : Port) (vector : Fin 64) (s : State) : Out :=
  .next (s.onDp fun d =>
    let e := Sparse.get {} (d.msix port) vector
    let d := d.setMsix port (Sparse.set {} (d.msix port) vector { e with masked := false, pending := false })
    if e.pending then d.send (.msix port vector e.addr e.data) else d)

/-! ### BAR2 (R462 to R464, Table 14.3) -/

/-- The address a BAR2 access reaches. -/
def Seg.addr (g : Seg) (off : BitVec 32) : Addr := g.base ++ off

/-- A granule that holds wet data of a running partition (R359): TYPE 0x1 or 0x3. -/
def State.wetGranule (s : State) (off len : Nat) : Bool :=
  let g0 := granuleOf off
  (List.range (granuleOf (off + max len 1 - 1) + 1 - g0)).any fun i =>
    let e := s.dp.mem.regionOf (g0 + i)
    (regionType e == 1 || regionType e == 3) && (s.job (regionPart e)).running

/-- May the access go on at all: stage, segment, space, wet granules of this module. -/
def State.bar2Open (s : State) (g : Seg) (a : Addr) (len : Nat) : Bool :=
  s.stage == 5 && g.enable && decide (s.pwr.mstate.toNat ≤ 1) &&
    match resolve s.dp.coord a with
    | some (.here sp off) => (sp == 0 || sp == 2) && !s.wetGranule off len
    | some (.far _ sp _) => sp == 0 || sp == 2
    | none => false

def State.bar2Ur (s : State) (p : Port) : State := s.updPort p fun q => { q with fUr := q.fUr.hwSet }

/-- Statuses that end a read with a Completer Abort. -/
def aborts (st : Status) : Bool := st == .checkTile || st == .linkNotReady || st == .linkQuarantine || st == .hang

def State.bar2Read (s : State) (p : Port) (seg : Nat) (off : BitVec 32) (len : Nat) (env : Env) : State :=
  let g := (s.port p).seg seg
  let a := g.addr off
  if !s.bar2Open g a len then (s.bar2Ur p).send (.hostRead p .ur)
  else
    let r := s.runOp env (readAt (s.ctx env (.host p g.job)) a len)
    match r.2 with
    | .ok l => (r.1.countPort (320 + 2 * (portNo p)) len).send (.hostRead p (.data l))
    | .error f => (r.1.bar2Ur p).send (.hostRead p (if aborts f.st then .ca else .ur))

def execBar2Read (port : Port) (segment : Fin 16) (offset : BitVec 32) (length : BitVec 13) (env : Env) (s : State) : Out :=
  .next (s.bar2Read port segment offset length.toNat env)

def State.bar2Write (s : State) (p : Port) (seg : Nat) (off : BitVec 32) (v : List Byte) (env : Env) : State :=
  let g := (s.port p).seg seg
  let a := g.addr off
  if !s.isOwner p ∨ !s.bar2Open g a v.length then (s.bar2Ur p).send (.hostWrite p false)
  else
    let r := s.runOp env (writeAt (s.ctx env (.host p g.job)) a v)
    match r.2 with
    | .ok _ => (r.1.countPort (321 + 2 * (portNo p)) v.length).send (.hostWrite p true)
    | .error _ => (r.1.bar2Ur p).send (.hostWrite p false)

def execBar2Write (port : Port) (segment : Fin 16) (offset : BitVec 32) (bytes : List Byte) (env : Env) (s : State) : Out :=
  .next (s.bar2Write port segment offset bytes env)

end Sys2Proof.Machine
end

