-- ==== Sys2Proof/Machine/Numbers.lean ====
section
/-! DEFINITION. Number formats, exact values, rounding, block scales, the census contribution of a write, wire values (02, 03). -/
namespace Sys2Proof.Machine

/-! ### Exact values -/

/-- An exact value: m × 2^e, an infinity, or NaN. An exact zero has no sign (02 R61); `negZero` is the zero that a negative
value gives under a factor of 0 (R56). -/
inductive Num where
  | fin (m : Int) (e : Int)
  | negZero
  | inf (neg : Bool)
  | nan
  deriving DecidableEq, Repr, Inhabited

def Num.isFin : Num → Bool
  | .fin _ _ | .negZero => true
  | _ => false

def Num.zero : Num := .fin 0 0

/-- m × 2^e as an integer multiple of 2^f, for f ≤ e. -/
def alignTo (m e f : Int) : Int := m * 2 ^ (e - f).toNat

/-- floor(m × 2^e / 2^l), toward minus infinity (03 R84). -/
def floorAt (m e l : Int) : Int := if l ≤ e then m * 2 ^ (e - l).toNat else Int.fdiv m (2 ^ (l - e).toNat)

/-- |m × 2^e| ≥ 2^b. -/
def reaches (m e b : Int) : Bool :=
  if m = 0 then false else if b ≤ e then true else decide ((2 : Int) ^ (b - e).toNat ≤ m.natAbs)

/-- floor(log2 |m × 2^e|) of a non-zero value. -/
def floorLog2 (m e : Int) : Int := (Nat.log2 m.natAbs : Int) + e

/-- The larger magnitude of two finite values. -/
def maxMag (a b : Int × Int) : Int × Int :=
  let f := min a.2 b.2
  if (alignTo a.1 a.2 f).natAbs < (alignTo b.1 b.2 f).natAbs then b else a

def Num.neg : Num → Num
  | .fin m e => .fin (-m) e
  | .negZero => .zero
  | .inf s => .inf (!s)
  | .nan => .nan

/-- Exact sum of two finite values; infinities and NaN under IEEE 754. -/
def Num.add : Num → Num → Num
  | .nan, _ | _, .nan => .nan
  | .inf a, .inf b => if a = b then .inf a else .nan
  | .inf a, _ | _, .inf a => .inf a
  | .negZero, x | x, .negZero => x
  | .fin m e, .fin n f => let g := min e f; .fin (alignTo m e g + alignTo n f g) g

/-- Exact product; infinities and NaN under IEEE 754. -/
def Num.mul : Num → Num → Num
  | .nan, _ | _, .nan => .nan
  | .inf a, .inf b => .inf (a != b)
  | .inf a, .fin n _ | .fin n _, .inf a => if n = 0 then .nan else .inf (a != decide (n < 0))
  | .inf _, .negZero | .negZero, .inf _ => .nan
  | .negZero, .fin _ _ | .fin _ _, .negZero | .negZero, .negZero => .zero
  | .fin m e, .fin n f => .fin (m * n) (e + f)

/-- The pre-scale value x × g under a factor g that is not negative: under g = 0 a finite non-zero x gives a zero of its sign
(R56). -/
def Num.preScale (g : Num) : Num → Num
  | .fin m e => match g with
    | .fin 0 _ => if m < 0 then .negZero else .zero
    | _ => (Num.fin m e).mul g
  | x => x.mul g

/-! ### Data types (02 Table 2.1) -/

def listedType (t : Nat) : Bool := (1 ≤ t && t ≤ 6) || t == 0x10 || t == 0x11 || (0x20 ≤ t && t ≤ 0x23)
def isMx (t : Nat) : Bool := 1 ≤ t && t ≤ 6
def isWide (t : Nat) : Bool := t == 0x10 || t == 0x11
def isInt32 (t : Nat) : Bool := t == 0x20
def isWire (t : Nat) : Bool := 0x21 ≤ t && t ≤ 0x23

/-- Bits per element. -/
def typeBits (t : Nat) : Nat :=
  if t == 3 || t == 4 then 6 else if t == 5 then 4 else if t == 0x10 then 16
  else if t == 0x11 || t == 0x20 then 32 else if t == 0x21 then 64 else if t == 0x22 then 96
  else if t == 0x23 then 128 else 8

/-- Bytes of `n` elements in storage (R53). -/
def typeBytes (t n : Nat) : Nat := ceilDiv (n * typeBits t) 8

/-- A wire format's width (03 Table 3.1). -/
def wireWidth (t : Nat) : Nat := typeBits t

/-- A floating format (02 Table 2.2): mantissa bits, bias, largest finite magnitude code, whether it has a NaN code
and infinities, total bits. -/
structure Fmt where
  bits : Nat
  man  : Nat
  bias : Int
  emax : Int
  maxCode : Nat
  hasNan  : Bool
  hasInf  : Bool
  deriving DecidableEq, Repr

def fmtOf (t : Nat) : Fmt :=
  match t with
  | 1 => ⟨8, 3, 7, 8, 0x7E, true, false⟩
  | 2 => ⟨8, 2, 15, 15, 0x7B, true, true⟩
  | 3 => ⟨6, 2, 3, 4, 0x1F, false, false⟩
  | 4 => ⟨6, 3, 1, 2, 0x1F, false, false⟩
  | 5 => ⟨4, 1, 1, 2, 0x7, false, false⟩
  | 6 => ⟨8, 6, 0, 0, 0x7F, false, false⟩
  | 0x10 => ⟨16, 7, 127, 127, 0x7F7F, true, true⟩
  | _ => ⟨32, 23, 127, 127, 0x7F7FFFFF, true, true⟩

/-- The value of a floating code (R48); MX-INT8 is k × 2^−6 (R49). -/
def elemValue (t code : Nat) : Num :=
  if t == 6 then .fin (sext 8 code) (-6)
  else
    let f := fmtOf t
    let neg := bitOf code (f.bits - 1)
    let mag := code % 2 ^ (f.bits - 1)
    if mag > f.maxCode then
      if f.hasInf && mag == f.maxCode + 1 then .inf neg else .nan
    else
      let ex := mag / 2 ^ f.man
      let m : Int := if ex = 0 then (mag % 2 ^ f.man : Nat) else (mag % 2 ^ f.man + 2 ^ f.man : Nat)
      let e : Int := (if ex = 0 then 1 else (ex : Int)) - f.bias - f.man
      .fin (if neg then -m else m) e

/-- Scale an exact value by 2^(B − 127); a scale of 0xFF makes it NaN (R51, R52). -/
def scaled (b : Nat) : Num → Num
  | .fin m e => if b = 0xFF then .nan else .fin m (e + b - 127)
  | .negZero => if b = 0xFF then .nan else .negZero
  | .inf s => if b = 0xFF then .nan else .inf s
  | .nan => .nan

/-! ### Rounding (02 R65, R66) -/

/-- A rounding mode with the draw it uses: nearest even, or stochastic with the element's word. -/
inductive Rnd where
  | rne
  | sr (word : BitVec 32)
  deriving DecidableEq, Repr

/-- n / d rounded to an integer. -/
def roundQ (r : Rnd) (n d : Nat) : Nat :=
  let q := n / d
  let m := n % d
  match r with
  | .rne => if 2 * m < d then q else if d < 2 * m then q + 1 else if q % 2 = 0 then q else q + 1
  | .sr w => if w.toNat < m * 2 ^ 32 / d then q + 1 else q

/-- (n / d) × 2^e rounded to a multiple of 2^g, counted in units of 2^g. -/
def roundTo (r : Rnd) (n d : Nat) (e g : Int) : Nat :=
  if g ≤ e then roundQ r (n * 2 ^ (e - g).toNat) d else roundQ r n (d * 2 ^ (g - e).toNat)

/-- floor(log2 (n / d)). -/
def floorLog2Q (n d : Nat) : Int :=
  let k : Int := (Nat.log2 n : Int) - Nat.log2 d
  if k < 0 then (if n * 2 ^ (-k).toNat < d then k - 1 else k)
  else (if n < d * 2 ^ k.toNat then k - 1 else k)

/-- The magnitude code of (n / d) × 2^e in a floating format, before any limit is applied: subnormals are
kept and a carry runs into the exponent. -/
def magCode (f : Fmt) (r : Rnd) (n d : Nat) (e : Int) : Nat :=
  if n = 0 then 0
  else
    let k := floorLog2Q n d + e
    let lo := 1 - f.bias
    if k < lo then roundTo r n d e (lo - f.man)
    else ((k + f.bias).toNat - 1) * 2 ^ f.man + roundTo r n d e (k - f.man)

def signBit (f : Fmt) (neg : Bool) : Nat := if neg then 2 ^ (f.bits - 1) else 0

/-- Round a finite value once into BF16 or FP32 (R62): overflow gives an infinity. -/
def wideCode (f : Fmt) (r : Rnd) : Num → Nat
  | .nan => f.maxCode + 1 + 2 ^ (f.man - 1)
  | .inf s => signBit f s + f.maxCode + 1
  | .negZero => signBit f true
  | .fin m e =>
    let c := magCode f r m.natAbs 1 e
    signBit f (decide (m < 0)) + min c (f.maxCode + 1)

/-- FP32 of a quotient, round to nearest even (R56: IEEE 754; a zero divisor does not occur, R55). -/
def rne32Div (a b : Num) : Nat :=
  match a, b with
  | .fin m e, .fin n g =>
    let f := fmtOf 0x11
    signBit f (decide ((m < 0) ≠ (n < 0))) + min (magCode f .rne m.natAbs n.natAbs (e - g)) (f.maxCode + 1)
  | .nan, _ | _, .nan => wideCode (fmtOf 0x11) .rne .nan
  | .inf s, .fin _ _ | .inf s, .negZero => wideCode (fmtOf 0x11) .rne (.inf s)
  | .fin _ _, .inf _ | .negZero, _ | _, .negZero => 0
  | .inf _, .inf _ => wideCode (fmtOf 0x11) .rne .nan

def fp32 (code : Nat) : Num := elemValue 0x11 code
def rne32 (x : Num) : Nat := wideCode (fmtOf 0x11) .rne x

/-- The factor g of an outlet (02 Table 2.3). -/
def gOutlet (ta tb td : Nat) : Num := fp32 (rne32Div (fp32 (rne32 ((fp32 ta).mul (fp32 tb)))) (fp32 td))
/-- The factor g of a conversion with source scale `ts` (1.0 for a wide or wire source). -/
def gConvert (ts td : Nat) : Num := fp32 (rne32Div (fp32 ts) (fp32 td))
def one32 : Nat := 0x3F800000

/-! ### Block conversion (02 R57 to R62, R69) -/

/-- What a block's conversion leaves: the sidecar byte, the element codes, and its census counts. -/
structure BlockOut where
  scale   : Nat
  codes   : List Nat
  zeros   : Nat
  sats    : Nat
  nonfin  : Nat
  clampLo : Bool
  clampHi : Bool
  /-- The byte that enters MAX_SCALE and MIN_SCALE, when the block contributes (R76). -/
  contrib : Option Nat
  deriving DecidableEq, Repr

/-- The largest finite magnitude of a block. -/
def blockMax : List Num → Int × Int
  | [] => (0, 0)
  | .fin m e :: r => maxMag (m, e) (blockMax r)
  | _ :: r => blockMax r

/-- One element into an MX format under scale byte `b` (R60, R61): its code and whether it saturated. -/
def mxCode (t b : Nat) (r : Rnd) : Num → Nat × Bool
  | .nan => (0x7F, false)
  | .inf s => (if t == 2 then signBit (fmtOf 2) s + 0x7C else 0x7F, false)
  | .negZero => (if t == 6 then 0 else signBit (fmtOf t) true, false)
  | .fin m e =>
    let f := fmtOf t
    let e' := e - b + 127
    if t == 6 then
      let k := roundTo r m.natAbs 1 e' (-6)
      let k' := min k 127
      (code 8 (if m < 0 then -(k' : Int) else k'), decide (127 < k))
    else
      let c := magCode f r m.natAbs 1 e'
      (signBit f (decide (m < 0)) + min c f.maxCode, decide (f.maxCode < c))

/-- The element code is a zero of its type (census ZEROS, R61). -/
def isZeroCode (t c : Nat) : Bool := if t == 6 then c == 0 else c % 2 ^ ((fmtOf t).bits - 1) == 0

/-- Convert a block of pre-scale values into an MX type (R57 to R61). -/
def mxBlock (t : Nat) (us : List (Num × Rnd)) : BlockOut :=
  let f := fmtOf t
  let nf := us.filter (fun u => !u.1.isFin)
  if !nf.isEmpty && !f.hasNan then
    { scale := 0xFF, codes := us.map (fun _ => 0), zeros := 0, sats := 0, nonfin := us.length,
      clampLo := false, clampHi := false, contrib := none }
  else
    let mx := blockMax (us.map (·.1))
    let x := floorLog2 mx.1 mx.2 - f.emax + 127
    let b := if mx.1 = 0 then 0x7F else (min (max x 0) 0xFE).toNat
    let out := us.map (fun u => mxCode t b u.2 u.1)
    { scale := b
      codes := out.map (·.1)
      zeros := (out.filter (fun o => isZeroCode t o.1)).length
      sats := (out.filter (·.2)).length
      nonfin := nf.length
      clampLo := mx.1 ≠ 0 && decide (x < 0)
      clampHi := mx.1 ≠ 0 && decide (0xFE < x)
      contrib := if mx.1 = 0 then none else some b }

/-- The block exponent byte of values as written (R69), with its lower clamp. -/
def wideByte (vals : List Num) : Nat × Bool :=
  if vals.any (fun v => !v.isFin) then (0xFF, false)
  else
    let mx := blockMax vals
    if mx.1 = 0 then (0, false)
    else
      let x := floorLog2 mx.1 mx.2
      ((min (max x (-127)) 127 + 127).toNat, decide (x < -127))

/-- The census counts and sidecar byte of a BF16 or FP32 block as written. -/
def wideBlockOf (t : Nat) (codes : List Nat) : BlockOut :=
  let vals := codes.map (elemValue t)
  let (b, lo) := wideByte vals
  { scale := b, codes
    zeros := (codes.filter (isZeroCode t)).length
    sats := 0
    nonfin := (vals.filter (fun v => !v.isFin)).length
    clampLo := lo, clampHi := false
    contrib := if b = 0xFF ∨ (blockMax vals).1 = 0 then none else some b }

/-- Convert a block into BF16 or FP32 (R62). -/
def wideBlock (t : Nat) (us : List (Num × Rnd)) : BlockOut :=
  wideBlockOf t (us.map fun u => wideCode (fmtOf t) u.2 u.1)

/-- Counts of a block whose MX codes are copied unchanged (R76): the census is of the codes as written. -/
def mxBlockOf (t b : Nat) (codes : List Nat) : BlockOut :=
  let vals := codes.map (fun c => scaled b (elemValue t c))
  let zs := codes.filter (isZeroCode t)
  { scale := b, codes
    zeros := if b = 0xFF then 0 else zs.length
    sats := 0
    nonfin := (vals.filter (fun v => !v.isFin)).length
    clampLo := false, clampHi := false
    contrib := if b = 0xFF ∨ (blockMax vals).1 = 0 then none else some b }

/-- Counts of INT32 or wire codes as written (R76: elements and zeros only). -/
def plainBlockOf (codes : List Nat) : BlockOut :=
  { scale := 0, codes, zeros := (codes.filter (· == 0)).length, sats := 0, nonfin := 0,
    clampLo := false, clampHi := false, contrib := none }

/-- Counts of a block of codes of type `t` written as they are, with scale byte `b` for MX types. -/
def blockOf (t b : Nat) (codes : List Nat) : BlockOut :=
  if isMx t then mxBlockOf t b codes else if isWide t then wideBlockOf t codes else plainBlockOf codes

/-! ### Philox4x32-10 (02 R67) -/

def philoxRound (c : BitVec 32 × BitVec 32 × BitVec 32 × BitVec 32) (k : BitVec 32 × BitVec 32) :
    BitVec 32 × BitVec 32 × BitVec 32 × BitVec 32 :=
  let p0 : BitVec 64 := (0xD2511F53#64) * c.1.setWidth 64
  let p1 : BitVec 64 := (0xCD9E8D57#64) * c.2.2.1.setWidth 64
  (p1.extractLsb' 32 32 ^^^ c.2.1 ^^^ k.1, p1.extractLsb' 0 32, p0.extractLsb' 32 32 ^^^ c.2.2.2 ^^^ k.2, p0.extractLsb' 0 32)

def philoxGo : Nat → BitVec 32 × BitVec 32 × BitVec 32 × BitVec 32 → BitVec 32 × BitVec 32 → BitVec 32
  | 0, c, _ => c.1
  | n + 1, c, k => philoxGo n (philoxRound c k) (k.1 + 0x9E3779B9#32, k.2 + 0xBB67AE85#32)

/-- Output word 0 of the generator, keyed by the job seed (R67, Table 2.5). -/
def philox (seed : BitVec 64) (tensorId step : BitVec 32) (index : Nat) : BitVec 32 :=
  philoxGo 10 (tensorId, step, BitVec.ofNat 32 index, BitVec.ofNat 32 (index / 2 ^ 32))
    (seed.extractLsb' 0 32, seed.extractLsb' 32 32)

/-! ### Census records (02 R75 to R80) -/

structure Census where
  elements : Nat := 0
  zeros    : Nat := 0
  sats     : Nat := 0
  nonfin   : Nat := 0
  maxS     : Nat := 0
  minS     : Nat := 0xFE
  flags    : Nat := 0x20
  type     : Nat := 0
  step     : BitVec 32 := 0
  deriving DecidableEq, Repr, Inhabited

def Census.ofBytes (l : List Byte) : Census :=
  { elements := fld l 0 8, zeros := fld l 8 8, sats := fld l 16 4, nonfin := fld l 20 4, maxS := fld l 24 1,
    minS := fld l 25 1, flags := fld l 26 1, type := fld l 27 1, step := BitVec.ofNat 32 (fld l 28 4) }

def Census.bytes (c : Census) : List Byte :=
  le 8 c.elements ++ le 8 c.zeros ++ le 4 c.sats ++ le 4 c.nonfin ++ le 1 c.maxS ++ le 1 c.minS ++ le 1 c.flags
    ++ le 1 c.type ++ le 4 c.step.toNat

def stickAt : Nat := 0xFFFFFFFE

/-- Add two 32-bit counts, sticking at 0xFFFF_FFFE (Table 2.7). -/
def stickAdd (a b : Nat) : Nat := min (a + b) stickAt

/-- The flags of a combination: bits 0 to 3 ORed, bit 5 ANDed, bit 4 cleared, STUCK set by a stuck count. -/
def censusFlags (a b : Nat) (stuck : Bool) : Nat :=
  ((a % 16 ||| b % 16) ||| (if stuck then 8 else 0)) + (if bitOf a 5 && bitOf b 5 then 32 else 0)

/-- Combine two contributions (R77; R80 sets REDUCED afterwards). DESIGN CHOICE (log entry 93): the rule lists no update of
TYPE; the later contribution's is taken. -/
def Census.combine (a b : Census) : Census :=
  { elements := (a.elements + b.elements) % 2 ^ 64
    zeros := (a.zeros + b.zeros) % 2 ^ 64
    sats := stickAdd a.sats b.sats
    nonfin := stickAdd a.nonfin b.nonfin
    maxS := max a.maxS b.maxS
    minS := min a.minS b.minS
    flags := censusFlags a.flags b.flags (decide (stickAt ≤ a.sats + b.sats) || decide (stickAt ≤ a.nonfin + b.nonfin))
    type := b.type
    step := b.step }

/-- The record as R78 resets it for a step. -/
def Census.resetTo (c : Census) (step : BitVec 32) : Census := { type := c.type, step }

/-- One atomic update of a record (R77, R78). -/
def Census.update (c u : Census) : Census :=
  (if c.step = u.step then c else c.resetTo u.step).combine u

/-- The contribution of a block. -/
def BlockOut.census (t : Nat) (step : BitVec 32) (b : BlockOut) : Census :=
  { elements := b.codes.length, zeros := b.zeros, sats := min b.sats stickAt, nonfin := min b.nonfin stickAt
    maxS := b.contrib.getD 0, minS := b.contrib.getD 0xFE
    flags := boolN (b.clampLo || b.clampHi) + 2 * boolN b.clampLo + 4 * boolN b.clampHi
      + 32 * boolN b.contrib.isNone
    type := t, step }

/-- The contribution of several blocks of one write. -/
def censusOf (t : Nat) (step : BitVec 32) (bs : List BlockOut) : Census :=
  bs.foldl (fun c b => c.combine (b.census t step)) { type := t, step }

/-! ### Long accumulators and wire values (03 R86 to R89) -/

/-- The `n`-bit encoding of an accumulated value (Table 3.1). -/
def Acc.encode (n : Nat) : Acc → Nat
  | .fin v => code n v
  | .inf false => 2 ^ (n - 2)
  | .inf true => 3 * 2 ^ (n - 2)
  | .nan => 2 ^ (n - 1)

/-- The value of an `n`-bit encoding; `none` for a reserved one (R87). -/
def Acc.decode (n x : Nat) : Option Acc :=
  if x = 2 ^ (n - 1) then some .nan
  else if x = 2 ^ (n - 2) then some (.inf false)
  else if x = 3 * 2 ^ (n - 2) then some (.inf true)
  else if (sext n x).natAbs < 2 ^ (n - 2) then some (.fin (sext n x)) else none

/-- Combine two encoded values of an `n`-bit format (Table 3.2, R89); the flag tells a sum at the finite limit. -/
def Acc.combine (n : Nat) : Acc → Acc → Acc × Bool
  | .fin a, .fin b => if (a + b).natAbs < 2 ^ (n - 2) then (.fin (a + b), false) else (.nan, true)
  | .nan, _ | _, .nan => (.nan, false)
  | .inf a, .inf b => (if a = b then .inf a else .nan, false)
  | .inf a, .fin _ | .fin _, .inf a => (.inf a, false)

/-- Copy a value into an `n`-bit wire format; a finite one that does not fit takes its sign's code (R110). -/
def Acc.narrow (n : Nat) : Acc → Acc × Bool
  | .fin v => if v.natAbs < 2 ^ (n - 2) then (.fin v, false) else (.inf (decide (v < 0)), true)
  | a => (a, false)

/-- The exact value at anchor L. -/
def Acc.value (l : Int) : Acc → Num
  | .fin v => .fin v l
  | .inf s => .inf s
  | .nan => .nan

/-- The pre-scale value of a LACC or wire value under the factor `g`: a code stays NaN or an infinity of its sign
(02 R56; 03 R109). -/
def Acc.preScale (l : Int) (g : Num) : Acc → Num
  | .fin v => (Num.fin v l).preScale g
  | .inf s => .inf s
  | .nan => .nan

/-- The term a value contributes at anchor `l`: floored; a magnitude at or above 2^bound is a range violation (R106). -/
def termOf (l bound : Int) : Num → Acc × Bool
  | .nan => (.nan, false)
  | .inf s => (.inf s, false)
  | .negZero => (.fin 0, false)
  | .fin m e => if reaches m e bound then (.inf (decide (m < 0)), true) else (.fin (floorAt m e l), false)

/-! ### FP32 codes -/

def nan32 : Nat := 0x7FC00000
def neg32 (c : Nat) : Bool := 2 ^ 31 ≤ c
def mag32 (c : Nat) : Nat := c % 2 ^ 31
def isNan32 (c : Nat) : Bool := 0x7F800000 < mag32 c
def isInf32 (c : Nat) : Bool := mag32 c == 0x7F800000
def inf32 (neg : Bool) : Nat := 0x7F800000 + (if neg then 2 ^ 31 else 0)
def signed32 (neg : Bool) (m : Nat) : Nat := m + (if neg then 2 ^ 31 else 0)

/-- Order of MIN and MAX: −0 below +0. -/
def key32 (c : Nat) : Int := if neg32 c then -(mag32 c : Int) - 1 else mag32 c
/-- Order of LTSEL and EQSEL: −0 equals +0. -/
def val32 (c : Nat) : Int := if neg32 c then -(mag32 c : Int) else mag32 c

/-- IEEE 754 fused multiply-add, nearest even; an exact zero is −0 only when product and addend are both −0. -/
def fma32 (a b c : Nat) : Nat :=
  match ((fp32 a).mul (fp32 b)).add (fp32 c) with
  | .fin 0 _ =>
    if (mag32 a = 0 ∨ mag32 b = 0) ∧ mag32 c = 0 ∧ (neg32 a ≠ neg32 b) ∧ neg32 c then 2 ^ 31 else 0
  | x => rne32 x

def min32 (a b : Nat) : Nat := if isNan32 a || isNan32 b then nan32 else if key32 a ≤ key32 b then a else b
def max32 (a b : Nat) : Nat := if isNan32 a || isNan32 b then nan32 else if key32 a ≤ key32 b then b else a

/-! ### The remaining FP32 operations, each rounded once to nearest even (11 R389, R391) -/

def negate32 (a : Nat) : Nat := if neg32 a then a - 2 ^ 31 else a + 2 ^ 31
def mul32 (a b : Nat) : Nat := fma32 a b (2 ^ 31)
def add32 (a b : Nat) : Nat := fma32 one32 a b
def sub32 (a b : Nat) : Nat := add32 a (negate32 b)

def div32 (a b : Nat) : Nat :=
  let n := neg32 a != neg32 b
  if isNan32 a || isNan32 b || (isInf32 a && isInf32 b) || (mag32 a == 0 && mag32 b == 0) then nan32
  else if isInf32 a || mag32 b == 0 then inf32 n
  else if isInf32 b || mag32 a == 0 then signed32 n 0
  else rne32Div (fp32 a) (fp32 b)

/-- The integer square root, bit by bit from bit `b`. -/
def isqrtGo : Nat → Nat → Nat → Nat
  | 0, _, r => r
  | b + 1, n, r => isqrtGo b n (if (r + 2 ^ b) * (r + 2 ^ b) ≤ n then r + 2 ^ b else r)

def isqrt (n : Nat) : Nat := isqrtGo (Nat.log2 n / 2 + 1) n 0

/-- The root of m × 2^e with at least 30 bits and a sticky bit below them, which nearest even rounds correctly. -/
def sqrt32 (a : Nat) : Nat :=
  if isNan32 a then nan32
  else if mag32 a = 0 then a
  else if neg32 a then nan32
  else match fp32 a with
    | .fin m e =>
      let odd := e % 2 ≠ 0
      let n := m.toNat * 2 ^ 64 * (if odd then 2 else 1)
      let x : Int := (if odd then e - 1 else e) - 64
      let r := isqrt n
      rne32 (.fin (2 * r + boolN (decide (r * r ≠ n)) : Nat) (x / 2 - 1))
    | _ => a

end Sys2Proof.Machine
end

