-- ==== Sys2Proof/Machine/Tiles.lean ====
section
/-! DEFINITION. Tensor descriptors, check tiles and sidecars, the consumer's check, whole, part and update writes, census updates (06). -/
namespace Sys2Proof.Machine

/-! ### The tensor descriptor (06 Table 6.1) -/

/-- A descriptor's fields from its bytes. -/
def TD.ofBytes (ptr : Addr) (l : List Byte) : TD :=
  { ptr, cls := fld l 0 1, type := fld l 1 1, rank := fld l 2 1, flags := fld l 3 1
    tensorId := BitVec.ofNat 32 (fld l 4 4), base := BitVec.ofNat 64 (fld l 8 8)
    shape := (List.range 6).map fun i => fld l (16 + 4 * i) 4
    stride := (List.range 5).map fun i => fld l (40 + 5 * i) 5
    maxScale := fld l 65 1, minScale := fld l 66 1, fill := fld l 68 4, tscale := fld l 72 4
    shardKind := fld l 76 2, anchor := BitVec.ofNat 64 (fld l 80 8), census := BitVec.ofNat 64 (fld l 88 8)
    sidecar := BitVec.ofNat 64 (fld l 96 8)
    shards := (List.range 6).map fun i => fld l (104 + 4 * i) 4
    resv := slice l 67 1 ++ slice l 78 2 }

def nth (l : List Nat) (i : Nat) : Nat := l.getD i 0

def TD.gradient (t : TD) : Bool := bitOf t.flags 0
def TD.sprig (t : TD) : Bool := bitOf t.flags 1
def TD.distributed (t : TD) : Bool := t.cls == 2
def TD.kindOf (t : TD) (i : Nat) : Nat := bitsOf t.shardKind (2 * i + 1) (2 * i)
def TD.shardCount (t : TD) (i : Nat) : Nat := nth t.shards i / 2 ^ 16 + 1
def TD.shardIdx (t : TD) (i : Nat) : Nat := nth t.shards i % 2 ^ 16

/-- The sharding unit of a dimension (R186). -/
def TD.unit (t : TD) (i : Nat) : Nat :=
  if i + 1 = t.rank ∧ (isMx t.type ∨ isWide t.type ∨ isWire t.type) then 32 else 1

/-- Block length of a block-sharded dimension (Table 6.2). -/
def TD.blockLen (t : TD) (i : Nat) : Nat :=
  t.unit i * ceilDiv (nth t.shape i) (t.unit i * t.shardCount i)

/-- Local extent of dimension `i` (Table 6.2). -/
def TD.extent (t : TD) (i : Nat) : Nat :=
  let g := nth t.shape i
  if t.distributed then
    match t.kindOf i with
    | 1 => min (g - t.shardIdx i * t.blockLen i) (t.blockLen i)
    | 2 => if t.shardIdx i < g then ceilDiv (g - t.shardIdx i) (t.shardCount i) else 0
    | _ => g
  else g

/-- Global coordinate of local coordinate `c` of dimension `i` (Table 6.2). -/
def TD.global (t : TD) (i c : Nat) : Nat :=
  if t.distributed then
    match t.kindOf i with
    | 1 => t.shardIdx i * t.blockLen i + c
    | 2 => t.shardIdx i + c * t.shardCount i
    | _ => c
  else c

def TD.extents (t : TD) : List Nat := (List.range t.rank).map t.extent
def product (l : List Nat) : Nat := l.foldl (· * ·) 1
/-- Elements of the local piece. -/
def TD.total (t : TD) : Nat := product t.extents
def TD.inner (t : TD) : Nat := t.extent (t.rank - 1)
def TD.empty (t : TD) : Bool := t.total == 0
def TD.rows (t : TD) : Nat := product (t.extents.take (t.rank - 1))
/-- Row span in bytes (R187). -/
def TD.span (t : TD) : Nat := typeBytes t.type t.inner
def TD.tiles (t : TD) : Nat := ceilDiv t.total 4096
/-- Elements of tile `i` (R193). -/
def TD.tileCount (t : TD) (i : Nat) : Nat := min 4096 (t.total - 4096 * i)

/-- Local coordinates of a linear number in row-major order over `ext`. -/
def unravel : List Nat → Nat → List Nat
  | [], _ => []
  | _ :: r, n => n / product r :: unravel r (n % product r)

/-- Row-major number of coordinates. -/
def ravel : List Nat → List Nat → Nat
  | _ :: es, c :: cs => c * product es + ravel es cs
  | _, _ => 0

/-- Byte offset of a row from BASE (R187). -/
def TD.rowOff (t : TD) (row : Nat) : Nat :=
  ((unravel (t.extents.take (t.rank - 1)) row).zip t.stride).foldl (fun a p => a + p.1 * p.2) 0

/-- The pieces of rows that elements `n` to `n + len - 1` occupy: (offset from BASE, elements). -/
def TD.spans (t : TD) : Nat → Nat → Nat → List (Nat × Nat)
  | 0, _, _ => []
  | fuel + 1, n, len =>
    if len = 0 ∨ t.inner = 0 then []
    else
      let col := n % t.inner
      let k := min len (t.inner - col)
      (t.rowOff (n / t.inner) + typeBytes t.type col, k) :: t.spans fuel (n + k) (len - k)

def TD.spansOf (t : TD) (n len : Nat) : List (Nat × Nat) := t.spans (len + 1) n len

/-- The global row-major element index of local element `n` (R68), from the descriptor's own sharding. -/
def TD.globalIndex (t : TD) (n : Nat) : Nat :=
  let cs := unravel t.extents n
  ravel (t.shape.take t.rank) ((List.range t.rank).map fun i => t.global i (nth cs i))

/-! ### Descriptor checks (06 Table 6.4) -/

/-- Bits of FILL that the type does not use (Table 6.3). -/
def fillBits (t : Nat) : Nat := if isWire t then 32 else typeBits t

/-- R190: extents above 1 in increasing order of stride, each stride at least the span before it. -/
def nestedFrom : Nat → List (Nat × Nat) → Bool
  | _, [] => true
  | span, (s, e) :: r => decide (span ≤ s) && nestedFrom (s * (e - 1) + span) r

def insertBy (p : Nat × Nat) : List (Nat × Nat) → List (Nat × Nat)
  | [] => [p]
  | q :: r => if p.1 ≤ q.1 then p :: q :: r else q :: insertBy p r

def TD.nested (t : TD) : Bool :=
  let dims := ((t.stride.zip t.extents).take (t.rank - 1)).filter (fun p => 1 < p.2)
  nestedFrom t.span (dims.foldr insertBy [])

/-- A byte range at an address offset: resolved target and local key. -/
def keyOf (own : Coord) (a : Addr) : Option (Nat × Nat) :=
  match resolve own a with
  | some (.here _ off) => some (own.code.toNat, off)
  | some (.far c _ off) => some (c.code.toNat, off)
  | none => none

/-- The first row that is true. -/
def firstRow : List (Bool × Status × Nat) → Option (Status × Nat)
  | [] => none
  | (b, s, o) :: r => if b then some (s, o) else firstRow r

/-- The first access to a row of the piece or to its sidecars that the checks refuse (R249 among the checks), with its field. -/
def TD.rangeRow (d : Dp) (c : Ctx) (t : TD) (write : Bool) : Option (Status × Nat) :=
  let row (st : Status) (off : Nat) : Bool × Status × Nat := (decide (st ≠ .ok), st, off)
  firstRow
    ((List.range t.rows).map (fun r => row (rangeAt d c (t.base + BitVec.ofNat 64 (t.rowOff r)) t.span write) 8)
      ++ [row (rangeAt d c t.sidecar (160 * t.tiles) write) 96])

/-- Rows of Table 6.4 that need only the descriptor's bytes, each with the offset of its field (R192). -/
def TD.fieldRows (t : TD) : List (Bool × Status × Nat) :=
  let row (st : Status) (at_ : Nat → Nat) (bad : Nat → Bool) (is : List Nat) : List (Bool × Status × Nat) :=
    is.map fun i => (bad i, st, at_ i)
  let dims := List.range 6
  let live := List.range t.rank
  let shape (i : Nat) : Nat := 16 + 4 * i
  let stride (i : Nat) : Nat := 40 + 5 * i
  let shard (i : Nat) : Nat := 104 + 4 * i
  ([ (t.cls ≠ 1 && t.cls ≠ 2, .fieldReserved, 0),
    (!listedType t.type, .fieldReserved, 1),
    (t.flags / 4 ≠ 0, .fieldReserved, 3),
    (!zeros (t.resv.take 1), .fieldReserved, 67),
    (t.shardKind / 2 ^ 12 ≠ 0, .fieldReserved, 76),
    (!zeros (t.resv.drop 1), .fieldReserved, 78),
    (t.cls == 1 && t.shardKind ≠ 0, .fieldReserved, 76) ] : List (Bool × Status × Nat))
  ++ row .fieldReserved shard (fun i => t.cls == 1 && nth t.shards i ≠ 0) dims
  ++ ([ (t.rank = 0 || 6 < t.rank, .rank, 2) ] : List (Bool × Status × Nat))
  ++ row .fieldReserved shape (fun i => nth t.shape i = 0 || nth t.shape i = 0xFFFFFFFF) live
  ++ row .fieldReserved shape (fun i => t.rank ≤ i && nth t.shape i ≠ 0) dims
  ++ row .fieldReserved stride (fun i => t.rank ≤ i + 1 && nth t.stride i ≠ 0) (List.range 5)
  ++ row .fieldReserved (fun _ => 76) (fun i => t.distributed && t.rank ≤ i && t.kindOf i ≠ 0) dims
  ++ row .fieldReserved shard (fun i => t.distributed && t.rank ≤ i && nth t.shards i ≠ 0) dims
  ++ row .fieldReserved shard (fun i => t.distributed && t.kindOf i = 0 && (t.shardCount i ≠ 1 || t.shardIdx i ≠ 0)) live
  ++ ([ (t.distributed && t.kindOf (t.rank - 1) = 2, .fieldReserved, 76) ] : List (Bool × Status × Nat))
  ++ row .indexRange shard (fun i => t.distributed && t.shardCount i ≤ t.shardIdx i) live
  ++ ([ (!isInt32 t.type && nth t.shape (t.rank - 1) % 32 ≠ 0, .fieldReserved, shape (t.rank - 1)),
       (2 ^ fillBits t.type ≤ t.fill, .fieldReserved, 68),
       (if isMx t.type then t.tscale < 0x00800000 || 0x7F800000 ≤ t.tscale else t.tscale ≠ one32, .fieldReserved, 72),
       (t.base.toNat % 32 ≠ 0, .align, 8) ] : List (Bool × Status × Nat))
  ++ row .align stride (fun i => nth t.stride i % 32 ≠ 0) (List.range 5)
  ++ ([ (t.census.toNat % 32 ≠ 0, .align, 88), (t.sidecar.toNat % 32 ≠ 0, .align, 96) ] : List (Bool × Status × Nat))

/-- The space an address names, for this module or another; 15 when it resolves to none. -/
def spaceOf (own : Coord) (a : Addr) : Nat :=
  match resolve own a with
  | some (.here sp _) => sp
  | some (.far _ sp _) => sp
  | none => 15

/-- The first failing row of Table 6.4 for a fetched descriptor, with the field's offset. -/
def TD.check (d : Dp) (c : Ctx) (written : Bool) (t : TD) : Option (Status × Nat) :=
  match firstRow t.fieldRows with
  | some r => some r
  | none =>
    let own := d.coord
    match firstRow [ (t.sidecar = 0 || spaceOf own t.sidecar ≠ 2, .bounds, 96),
                     (t.census ≠ 0 && spaceOf own t.census ≠ 2, .bounds, 88),
                     (t.census = 0 && (t.distributed || t.gradient), .fieldReserved, 88) ] with
    | some r => some r
    | none =>
      match t.rangeRow d c written with
      | some r => some r
      | none => if written && !t.nested then some (.overlap, 40) else none

/-- Fetch a descriptor (R192): pointer, space, readability. -/
def fetchTD (c : Ctx) (ptr : Addr) : Op TD := do
  let d ← get
  if ptr.toNat % 32 ≠ 0 then failOp .align ptr 2
  else if spaceOf d.coord ptr ≠ 0 ∧ spaceOf d.coord ptr ≠ 2 then failOp .bounds ptr 2
  else
    needOk (rangeAt d c ptr 128 false) ptr 2
    let l ← readAt c ptr 128
    pure (TD.ofBytes ptr l)

/-- Fetch and check a descriptor; a failing row names the descriptor and the field. -/
def takeTD (c : Ctx) (written : Bool) (ptr : Addr) : Op TD := do
  let t ← fetchTD c ptr
  let d ← get
  match t.check d c written with
  | none => pure t
  | some (st, off) => failOp st ptr 2 off

/-! ### Tag comparison with the epoch table (10 R361) -/

/-- What one tag of a consumed tile means for the consumer in partition `k`. -/
inductive TagSays where
  | nothing | wet | smudged
  deriving DecidableEq, Repr

def tagSays (w : WetPart) (own : Option Tag) (t : Tag) (attempt : BitVec 8) : TagSays :=
  let e := w.ent t.epoch.toNat
  if e.step ≠ t.step then .nothing
  else match e.state with
    | .smudged => .smudged
    | .wet => if attempt < e.attempt then .smudged else if own = some t then .nothing else .wet
    | _ => .nothing

/-- Set the CONSUMED bit of the consumer's epoch for epoch `te`: bit i stands for e − 1 − i. -/
def markConsumed (w : WetPart) (own : Tag) (te : BitVec 8) : WetPart :=
  let i := (own.epoch - 1 - te).toNat
  if i < 7 then w.updEnt own.epoch.toNat (fun e => { e with consumed := e.consumed ||| (1#7 <<< i) }) else w

/-- Compare one tag; mark; tell whether the consumer fails with ST_SMUDGED. -/
def noteTag (d : Dp) (k : Nat) (own : Tag) (t : Tag) (attempt : BitVec 8) : Dp × Bool :=
  match tagSays (d.wetPart k) (some own) t attempt with
  | .nothing => (d, false)
  | .wet => (d.updWet k (fun w => markConsumed w own t.epoch), false)
  | .smudged => (d.updWet k (fun w => markConsumed w own t.epoch), true)

/-! ### Sidecars (06 Table 6.5) -/

def tagOf (l : List Byte) (off : Nat) : Tag :=
  { step := BitVec.ofNat 32 (fld l off 4), epoch := BitVec.ofNat 8 (fld l (off + 4) 1) }

def tagBytes (t : Tag) : List Byte := le 4 t.step.toNat ++ le 4 t.epoch.toNat
def carrierBytes (t : Tag) (a : BitVec 8) : List Byte := le 4 t.step.toNat ++ le 1 t.epoch.toNat ++ le 1 a.toNat ++ le 2 0

structure SideFlags where
  state   : Nat := 0
  attempt : BitVec 8 := 0
  sat     : Bool := false
  nonfin  : Bool := false
  clamped : Bool := false
  written : Nat := 0
  deriving DecidableEq, Repr

def SideFlags.ofNat (x : Nat) : SideFlags :=
  { state := bitsOf x 31 30, attempt := BitVec.ofNat 8 (bitsOf x 23 16), sat := bitOf x 15, nonfin := bitOf x 14,
    clamped := bitOf x 13, written := bitsOf x 12 0 }

def SideFlags.toNat (f : SideFlags) : Nat :=
  f.state % 4 * 2 ^ 30 + f.attempt.toNat * 2 ^ 16 + boolN f.sat * 2 ^ 15 + boolN f.nonfin * 2 ^ 14
    + boolN f.clamped * 2 ^ 13 + f.written % 2 ^ 13

structure Sidecar where
  scales  : List Byte
  crc     : BitVec 32
  tag     : Tag
  flags   : SideFlags
  carrier : Tag
  carrierAttempt : BitVec 8
  /-- TAG bits [63:40] as stored: reserved, but covered by the CRC (R195). -/
  tagHigh : BitVec 24 := 0
  deriving DecidableEq, Repr

def Sidecar.ofBytes (l : List Byte) : Sidecar :=
  { scales := slice l 0 128, crc := BitVec.ofNat 32 (fld l 128 4), tag := tagOf l 132
    flags := SideFlags.ofNat (fld l 140 4), carrier := tagOf l 144, carrierAttempt := BitVec.ofNat 8 (fld l 149 1)
    tagHigh := BitVec.ofNat 24 (fld l 137 3) }

/-- The 8 TAG bytes as stored. -/
def Sidecar.tagBytes (s : Sidecar) : List Byte := le 4 s.tag.step.toNat ++ le 1 s.tag.epoch.toNat ++ le 3 s.tagHigh.toNat

def Sidecar.bytes (s : Sidecar) : List Byte :=
  (s.scales ++ List.replicate 128 0).take 128 ++ le 4 s.crc.toNat ++ s.tagBytes ++ le 4 s.flags.toNat
    ++ carrierBytes s.carrier s.carrierAttempt ++ le 8 0

def stComplete : Nat := 0
def stPartial : Nat := 1
def stUnreadable : Nat := 2

/-- The tile CRC over a payload and a sidecar's stored SCALES and TAG bytes (R195). -/
def Sidecar.crcOf (s : Sidecar) (payload : List Byte) : BitVec 32 := crc32c (payload ++ s.scales ++ s.tagBytes)

/-- The tile CRC a producer writes: payload, SCALES, its TAG (R195). -/
def tileCrc (payload scales : List Byte) (tag : Tag) : BitVec 32 := crc32c (payload ++ scales ++ tagBytes tag)

def TD.sidecarAddr (t : TD) (i : Nat) : Addr := t.sidecar + BitVec.ofNat 64 (160 * i)

/-- Read bytes of the piece's elements `n` to `n + len - 1`. -/
def readSpans (c : Ctx) (t : TD) : List (Nat × Nat) → Op (List Byte)
  | [] => pure []
  | (off, k) :: r => do
    let a ← readAt c (t.base + BitVec.ofNat 64 off) (typeBytes t.type k)
    let b ← readSpans c t r
    pure (a ++ b)

def readElems (c : Ctx) (t : TD) (n len : Nat) : Op (List Byte) := readSpans c t (t.spansOf n len)

def writeSpans (c : Ctx) (t : TD) : List (Nat × Nat) → List Byte → Op Unit
  | [], _ => pure ()
  | (off, k) :: r, v => do
    let m := typeBytes t.type k
    writeAt c (t.base + BitVec.ofNat 64 off) (v.take m)
    afterWrite (writeSpans c t r (v.drop m))

def writeElems (c : Ctx) (t : TD) (n len : Nat) (v : List Byte) : Op Unit := writeSpans c t (t.spansOf n len) v

/-- A tile as a consumer reads it. -/
structure Tile where
  payload : List Byte
  side    : Sidecar
  deriving DecidableEq, Repr

/-- Note both tags of a sidecar for the consumer (R361); true when either is smudged. -/
def noteSide (c : Ctx) (s : Sidecar) : Op Bool := do
  match c.who, c.tag with
  | .engine k, some own =>
    let d ← get
    let (d, a) := noteTag d k own s.tag s.flags.attempt
    let (d, b) := if s.carrier = s.tag ∧ s.carrierAttempt = s.flags.attempt then (d, false)
      else noteTag d k own s.carrier s.carrierAttempt
    set d
    pure (a || b)
  | _, _ => pure false

/-- Sidecar bytes 128 to 159 as Ovind writes them over an unreadable word. -/
def unreadableWord : List Byte := le 4 0 ++ le 8 0 ++ le 4 (stUnreadable * 2 ^ 30) ++ le 8 0 ++ le 8 0

/-- The consumer's check of tile `i` (R201, R361): payload and sidecar read whole, STATE and CRC verified,
the tags compared with the epoch table. -/
def checkTile (c : Ctx) (t : TD) (i : Nat) : Op Tile := do
  let p ← readElems c t (4096 * i) (t.tileCount i)
  let sb ← readAt c (t.sidecarAddr i) 160
  let s := Sidecar.ofBytes sb
  let smudged ← noteSide c s
  if s.flags.state ≠ stComplete ∨ s.crcOf p ≠ s.crc then failOp .checkTile (t.sidecarAddr i) 4
  else if smudged then failOp .smudged (t.sidecarAddr i) 4
  else pure { payload := p, side := s }

/-! ### Element codes of stored bytes (02 R53) -/

/-- `n` codes of `w` bits from a little-endian bit string. -/
def unpackN (w : Nat) : Nat → Nat → List Nat
  | 0, _ => []
  | n + 1, x => x % 2 ^ w :: unpackN w n (x / 2 ^ w)

/-- The codes of `n` elements stored in `l`, block by block of `fuel` blocks. -/
def codesOf (t : Nat) : Nat → Nat → List Byte → List Nat
  | 0, _, _ => []
  | fuel + 1, n, l =>
    if n = 0 then []
    else
      let k := min n 32
      let m := typeBytes t k
      unpackN (typeBits t) k (unle (l.take m)) ++ codesOf t fuel (n - k) (l.drop m)

def unpack (t n : Nat) (l : List Byte) : List Nat := codesOf t (ceilDiv n 32 + 1) n l

def packNat (w : Nat) : List Nat → Nat
  | [] => 0
  | x :: r => x % 2 ^ w + 2 ^ w * packNat w r

/-- Split a list in pieces of `k`. -/
def chunksN {α : Type} (k : Nat) : Nat → List α → List (List α)
  | 0, _ => []
  | fuel + 1, l => if l.isEmpty then [] else l.take k :: chunksN k fuel (l.drop k)

def chunks {α : Type} (k : Nat) (l : List α) : List (List α) := chunksN k (l.length + 1) l

/-- The stored bytes of element codes. -/
def pack (t : Nat) (l : List Nat) : List Byte :=
  (chunks 32 l).flatMap fun b => le (typeBytes t b.length) (packNat (typeBits t) b)

/-- The exact values of a tile's elements: MX elements at their block scales, wire values at their anchors. -/
def blockValues (t : Nat) (scale : Nat) (l : Int) (codes : List Nat) : List Num :=
  if isMx t then codes.map fun c => scaled scale (elemValue t c)
  else if isWide t then codes.map (elemValue t)
  else if isInt32 t then codes.map fun c => .fin (sext 32 c) 0
  else codes.map fun c => match Acc.decode (wireWidth t) c with
    | some a => a.value l
    | none => .nan

/-! ### Writing tiles (06 R196 to R200) -/

/-- What a write leaves in a tile: bytes, scale bytes and the flags of its elements. -/
structure TileOut where
  payload : List Byte
  scales  : List Byte
  sat     : Bool
  nonfin  : Bool
  clamped : Bool
  deriving DecidableEq, Repr

/-- The bytes, scales and flags of blocks of type `t`. -/
def outOf (t : Nat) (bs : List BlockOut) : TileOut :=
  { payload := bs.flatMap fun b => pack t b.codes
    scales := bs.map fun b => BitVec.ofNat 8 b.scale
    sat := bs.any (fun b => b.sats ≠ 0), nonfin := bs.any (fun b => b.nonfin ≠ 0)
    clamped := bs.any (fun b => b.clampLo || b.clampHi) }

def pad128 (l : List Byte) : List Byte := (l ++ List.replicate 128 0).take 128

def opTag (c : Ctx) : Tag := c.tag.getD { step := 0, epoch := 0 }

/-- The sidecar of a tile its producer writes whole (R196). -/
def wholeSidecar (c : Ctx) (count : Nat) (o : TileOut) : Sidecar :=
  { scales := pad128 o.scales, crc := tileCrc o.payload (pad128 o.scales) (opTag c), tag := opTag c
    flags := { state := stComplete, attempt := c.attempt, sat := o.sat, nonfin := o.nonfin, clamped := o.clamped,
               written := count }
    carrier := opTag c, carrierAttempt := c.attempt }

/-- A whole write of tile `i`: the data, then the sidecar. -/
def writeWhole (c : Ctx) (t : TD) (i : Nat) (o : TileOut) : Op Unit := do
  writeElems c t (4096 * i) (t.tileCount i) o.payload
  afterWrite (writeAt c (t.sidecarAddr i) (wholeSidecar c (t.tileCount i) o).bytes)

/-- A part of a tile: its elements, the full-length message with 0 outside them, its scale bytes and flags (R198). -/
structure PartOut where
  count   : Nat
  /-- Payload of the whole tile's length, 0 outside the part. -/
  payload : List Byte
  /-- Scale bytes of the part's blocks: (block, byte). -/
  scales  : List (Nat × Byte)
  sat     : Bool
  nonfin  : Bool
  clamped : Bool
  deriving DecidableEq, Repr

def setScales (l : List Byte) (s : List (Nat × Byte)) : List Byte := s.foldl (fun l p => l.set p.1 p.2) l

def zeroScales : List Byte := List.replicate 128 0

/-- crc32c(msg(∅)) for a payload of `n` bytes. -/
def crcZ (n : Nat) : BitVec 32 := crc32c (List.replicate (n + 136) 0)

/-- The atomic step of R198 on a sidecar: the new sidecar, whether this part completes the tile, whether it fails. -/
def sidecarStep (s : Sidecar) (tileCount : Nat) (tag : Tag) (attempt : BitVec 8) (p : PartOut) :
    Sidecar × Bool × Bool :=
  let z := crcZ p.payload.length
  let fresh := s.tag ≠ tag ∨ s.tagHigh ≠ 0 ∨ s.flags.attempt ≠ attempt
  if ¬fresh ∧ (s.flags.state = stUnreadable ∨ tileCount < s.flags.written + p.count) then
    ({ s with flags := { s.flags with state := stUnreadable } }, false, true)
  else
    let s := if fresh then
      { s with scales := zeroScales, crc := z, tag, tagHigh := 0, carrier := tag, carrierAttempt := attempt
               flags := { state := stPartial, attempt } }
      else s
    let w := s.flags.written + p.count
    ({ s with
        scales := setScales s.scales p.scales
        crc := s.crc ^^^ crc32c (p.payload ++ setScales zeroScales p.scales ++ List.replicate 8 0) ^^^ z
        flags := { s.flags with sat := s.flags.sat || p.sat, nonfin := s.flags.nonfin || p.nonfin,
                                clamped := s.flags.clamped || p.clamped, written := w } },
      w == tileCount, false)

/-- The completing writer's check (R198): the read-back CRC against the accumulated one. -/
def sidecarFinish (s : Sidecar) (payload : List Byte) : Sidecar × Bool :=
  let full0 := crc32c (payload ++ s.scales ++ List.replicate 8 0)
  if full0 ≠ s.crc then ({ s with flags := { s.flags with state := stUnreadable } }, true)
  else
    ({ s with crc := full0 ^^^ crc32c (List.replicate (payload.length + 128) 0 ++ tagBytes s.tag) ^^^ crcZ payload.length
              flags := { s.flags with state := stComplete } }, false)

/-- A part write's update of sidecar `i`, after its data is performed; the writer that completes the tile
reads it back. -/
def partSidecar (c : Ctx) (t : TD) (i : Nat) (p : PartOut) : Op Unit := do
  let a := t.sidecarAddr i
  let s := Sidecar.ofBytes (← readAt c a 160)
  let (s, last, bad) := sidecarStep s (t.tileCount i) (opTag c) c.attempt p
  writeAt c a s.bytes
  if bad then failOp .checkTile a 4
  else if last then
    let pl ← readElems c t (4096 * i) (t.tileCount i)
    let (s, bad) := sidecarFinish s pl
    writeAt c a s.bytes
    if bad then failOp .checkTile a 4

/-- Write blocks `bs` as elements `from` onward of tile `i`: whole when they cover it, as a part otherwise. -/
def writeTilePart (c : Ctx) (t : TD) (i pos : Nat) (bs : List BlockOut) : Op Unit := do
  let n := (bs.map (fun b => b.codes.length)).foldl (· + ·) 0
  let o := outOf t.type bs
  if pos = 0 ∧ n = t.tileCount i then writeWhole c t i o
  else
    writeElems c t (4096 * i + pos) n o.payload
    let total := typeBytes t.type (t.tileCount i)
    let scaled := isMx t.type || isWide t.type
    afterWrite <| partSidecar c t i
      { count := n
        payload := overlay (List.replicate total 0) (typeBytes t.type pos) o.payload
        scales := if scaled then (List.range o.scales.length).map fun j => (pos / 32 + j, o.scales.getD j 0) else []
        sat := o.sat, nonfin := o.nonfin, clamped := o.clamped }

/-- An update write (R200): the tile was read and checked, its own TAG and ATTEMPT verified; the changed
blocks' scales are formed afresh, the flags ORed. -/
def writeUpdate (c : Ctx) (t : TD) (i : Nat) (old : Sidecar) (o : TileOut) : Op Unit := do
  let s := wholeSidecar c (t.tileCount i)
    { o with sat := o.sat || old.flags.sat, nonfin := o.nonfin || old.flags.nonfin, clamped := o.clamped || old.flags.clamped }
  writeElems c t (4096 * i) (t.tileCount i) o.payload
  afterWrite (writeAt c (t.sidecarAddr i) s.bytes)

/-! ### Census updates (02 R77, R78, R82) -/

/-- A census record as an operation reads it: an unreadable one fails the operation with ST_CHECK_TILE (R82), one with a
reserved flag set with ST_FIELD_RESERVED (00 R11). -/
def takeCensus (c : Ctx) (a : Addr) : Op Census := do
  let l ← tryCatch (readAt c a 32) (fun f => failOp f.st a 5)
  let r := Census.ofBytes l
  if 64 ≤ r.flags then failOp .fieldReserved a 5 26 else pure r

/-- One atomic census update at memory. -/
def censusUpdate (c : Ctx) (a : Addr) (u : Census) : Op Unit := do
  if a = 0 then pure ()
  else
    let r ← takeCensus c a
    writeAt c a (r.update u).bytes

/-! ### Anchor tables (03 Table 3.6, R104) -/

structure AnchorTable where
  ptr     : Addr
  tensorId : BitVec 32
  step    : BitVec 32
  entries : Nat
  ktotal  : Nat
  profile : Nat
  wire    : Nat
  headroom : Nat
  source  : Nat
  pmax    : Nat
  guardLevel : Nat
  etop    : Int
  crc     : BitVec 32
  entry   : List Int
  deriving DecidableEq, Repr

def tableSize (entries : Nat) : Nat := ceilDiv (32 + 2 * entries) 32 * 32

def AnchorTable.ofBytes (ptr : Addr) (l : List Byte) : AnchorTable :=
  { ptr, tensorId := BitVec.ofNat 32 (fld l 0 4), step := BitVec.ofNat 32 (fld l 4 4), entries := fld l 8 4
    ktotal := fld l 12 4, profile := fld l 16 1, wire := fld l 17 1, headroom := fld l 18 1, source := fld l 19 1
    pmax := fld l 20 1, guardLevel := fld l 21 1, etop := sext 16 (fld l 22 2), crc := BitVec.ofNat 32 (fld l 24 4)
    entry := (List.range (fld l 8 4)).map fun i => sext 16 (fld l (32 + 2 * i) 2) }

/-- W of the wire format a table names (Table 3.1). -/
def AnchorTable.w (t : AnchorTable) : Nat := if t.wire = 1 then 63 else if t.wire = 2 then 95 else 127

/-- The data type code of the table's wire format. -/
def AnchorTable.wireType (t : AnchorTable) : Nat := 0x20 + t.wire

/-- Anchor of column `col` (in elements along the innermost dimension). -/
def AnchorTable.at (t : AnchorTable) (col : Nat) : Int := t.entry.getD (col / 32) 0

/-- The exponent of the term bound at anchor `l` (R97). -/
def AnchorTable.bound (t : AnchorTable) (l : Int) : Int := l + t.w - 1 - clog2 (t.ktotal / 32)

/-- What an operation tells the table check: the current step, the output's tensor id and global innermost
extent when it names an output, and its reduction length when the row applies. -/
structure TableUse where
  step     : BitVec 32
  out      : Option (BitVec 32 × Nat)
  /-- Array operations that save: COL_BEGIN + COL_COUNT. -/
  cols     : Option Nat := none
  termsOdd : Bool := false
  reduce   : Option Nat := none

/-- Read and check an anchor table (Table 3.7, rows from the top). -/
def takeTable (c : Ctx) (ptr : Addr) (u : TableUse) : Op AnchorTable := do
  let d ← get
  let bad (st : Status) (off : Nat) : Op AnchorTable := failOp st ptr 3 off
  if ptr.toNat % 32 ≠ 0 then bad .align 0xFF
  else if ptr = 0 ∨ spaceOf d.coord ptr ≠ 2 ∨ rangeAt d c ptr 32 false ≠ .ok then bad .bounds 0xFF
  else
    let h ← tryCatch (readAt c ptr 32) (fun f => failOp f.st ptr 3)
    let size := tableSize (fld h 8 4)
    if rangeAt d c ptr size false ≠ .ok then bad .bounds 0xFF
    else
      let l ← tryCatch (readAt c ptr size) (fun f => failOp f.st ptr 3)
      let t := AnchorTable.ofBytes ptr l
      if crc32c (slice l 0 24 ++ l.drop 32) ≠ t.crc then bad .checkTile 24
      else if !zeros (slice l 28 4) ∨ !zeros (l.drop (32 + 2 * t.entries)) then bad .fieldReserved 28
      else if ¬(t.profile = 1 ∨ t.profile = 2) then bad .fieldReserved 16
      else if ¬(1 ≤ t.wire ∧ t.wire ≤ 3) then bad .fieldReserved 17
      else if ¬(t.headroom = 0 ∨ t.headroom = 32 ∨ t.headroom = 64) then bad .fieldReserved 18
      else if ¬(1 ≤ t.source ∧ t.source ≤ 4) then bad .fieldReserved 19
      else if 3 < t.guardLevel then bad .fieldReserved 21
      else if u.out.any (fun o => o.1 ≠ t.tensorId) then bad .fieldReserved 0
      else if t.step ≠ u.step then bad .fieldReserved 4
      else if t.ktotal % 32 ≠ 0 ∨ t.ktotal < 32 ∨ 2 ^ 29 < t.ktotal then bad .fieldReserved 12
      else if u.out.any (fun o => t.entries ≠ ceilDiv o.2 32) ∨ u.cols.any (fun n => 32 * t.entries < n) then bad .bounds 8
      else if u.termsOdd then bad .fieldReserved 0xFF
      else if u.reduce.any (fun k => t.ktotal < k) then bad .bounds 12
      else if t.entry.any (fun x => x < -512 ∨ 511 < x) then bad .fieldReserved 32
      else pure t

/-! ### Stochastic rounding contexts (02 R68, 06 R210, Table 6.10) -/

/-- The context record of Table 6.10, checked against the destination (R210). -/
def srOfRecord (t : TD) (l : List Byte) : Option SrCtx :=
  let rank := fld l 4 1
  let shape := (List.range rank).map fun i => fld l (8 + 4 * i) 4
  let origin := (List.range rank).map fun i => fld l (32 + 4 * i) 4
  let okCoords := (List.range rank).all fun i => decide (nth origin i + t.extent i ≤ nth shape i)
  if BitVec.ofNat 32 (fld l 0 4) ≠ t.tensorId ∨ rank ≠ t.rank ∨ !okCoords then none
  else some { tensorId := t.tensorId, shape, origin, viaTd := false }

/-- The SR context of destination `t`: its own sharding, or the record at `rec` (R210, R68). A reserved byte of the record that
is not 0 fails with ST_FIELD_RESERVED (00 R11; DEDUCED, log entry 94: R68 and R210 state no status for it). -/
def takeSr (c : Ctx) (t : TD) (rec : Addr) : Op SrCtx := do
  if t.distributed then pure { tensorId := t.tensorId, shape := t.shape.take t.rank, origin := [], viaTd := true }
  else
    let d ← get
    if rec = 0 ∨ spaceOf d.coord rec ≠ 2 then failOp .indexRange rec 9
    else
      let l ← tryCatch (readAt c rec 64) (fun _ => failOp .indexRange rec 9)
      if !zeros (slice l 5 3) ∨ !zeros (slice l 56 8) then failOp .fieldReserved rec 9
      else match srOfRecord t l with
        | some s => pure s
        | none => failOp .indexRange rec 9

/-- Global element index of local element `n` under a context (R68). -/
def SrCtx.index (s : SrCtx) (t : TD) (n : Nat) : Nat :=
  if s.viaTd then t.globalIndex n
  else
    let cs := unravel t.extents n
    ravel s.shape ((List.range t.rank).map fun i => nth s.origin i + nth cs i)

/-- The rounding of local element `n` of destination `t` (R64): a draw under SR, nearest even without. -/
def rndOf (c : Ctx) (t : TD) (sr : Option SrCtx) (n : Nat) : Rnd :=
  match sr with
  | none => .rne
  | some s => .sr (philox c.seed s.tensorId (opTag c).step (s.index t n))

end Sys2Proof.Machine
end

