-- ==== Sys2Proof/Machine/Queues.lean ====
section
/-! DEFINITION. Engine queues: rings, acceptance, completion records, faults, fences (06 R218 to R224). -/
namespace Sys2Proof.Machine

/-! ### Owners -/

/-- The panel of a queue below 1,728, and its logical easel for array and trellis queues. -/
def queuePanel (q : Nat) : Nat := if q < 1536 then q % 768 / 16 else (q - 1536) / 4

/-- The partition an engine works for: its panel's owner, the posted partition of a varnish entry. -/
def State.queuePart (s : State) (q : Nat) : Option Nat :=
  if q < 1728 then (List.range 4).find? fun k => (s.job k).used && bitOf (s.job k).panels.toNat (queuePanel q)
  else (s.eq q).cur.map (·.entry.part)

def asPart (k : Nat) : Part := ⟨k % 4, Nat.mod_lt k (by decide)⟩

/-- The agent of a queue's engine; an engine of a panel that no partition owns runs Ovind's own work (10 R386). -/
def State.queueAgent (s : State) (q : Nat) : Agent :=
  if 1728 ≤ q then .varnish
  else match s.queuePart q with
    | some k => .engine (asPart k)
    | none => .ovind

/-- The context of an entry's accesses: its agent, tag, attempt and the job seed. -/
def State.entryCtx (s : State) (q : Nat) (e : QEntry) (env : Env) : Ctx :=
  { s.ctx env (s.queueAgent q) (some e.tag) e.attempt with
    seed := if 1728 ≤ q then (s.job e.part).seed else match s.queuePart q with
      | some k => (s.job k).seed
      | none => 0 }

/-! ### Rings (R219) -/

def Eq.entries (e : Eq) : Nat := 2 ^ e.sizeLog2.toNat
def sizeOk (l : BitVec 4) : Bool := decide (4 ≤ l.toNat) && decide (l.toNat ≤ 12)

/-- The byte key of a ring entry. -/
def State.ringKey (s : State) (q idx : Nat) : Nat :=
  let e := s.eq q
  if e.inScratch then scratchKey (q % 768) (e.base.toNat * 32 + 32 * idx)
  else match resolve s.dp.coord (BitVec.ofNat 64 (e.base.toNat * 32 + 32 * idx)) with
    | some (.here _ off) => off
    | _ => 0

/-- The bytes of an entry (Table 6.13). -/
def entryBytes (e : QEntry) (seq : BitVec 32) (state status : Nat) : List Byte :=
  le 8 e.desc.toNat ++ le 4 seq.toNat ++ le 2 state ++ le 2 status ++ tagBytes e.tag ++ le 1 e.attempt.toNat ++ le 7 0

def qFree : Nat := 0
def qPosted : Nat := 1
def qAccepted : Nat := 2
def qDone : Nat := 3

/-- The engine's and Ovind's own reads and writes of ring entries are not checked against the region table. -/
def State.readRing (s : State) (q idx : Nat) (env : Env) : State × Except Fail (List Byte) :=
  s.runOp env (readKey (s.ctx env .ovind) 2 (s.ringKey q idx) 32)
def State.writeRing (s : State) (q idx : Nat) (v : List Byte) : State :=
  (s.runOp {} (writeKey (s.ctx {} .ovind) 2 (s.ringKey q idx) v)).1
/-- Write part of an entry (STATUS and STATE, SEQ). -/
def State.writeRingAt (s : State) (q idx off : Nat) (v : List Byte) : State :=
  (s.runOp {} (writeKey (s.ctx {} .ovind) 2 (s.ringKey q idx + off) v)).1

/-- Every granule of the ring is TYPE 5 of the engine's partition in the engine's own panel's glaze; a varnish ring lies in
the Ovind working area (TYPE 6). -/
def State.ringOk (s : State) (q : Nat) : Bool :=
  let e := s.eq q
  let len := 32 * e.entries
  if e.inScratch then decide (q < 1536) && decide (e.base.toNat * 32 % 2 ^ 21 + len ≤ 2 ^ 21)
  else match resolve s.dp.coord (BitVec.ofNat 64 (e.base.toNat * 32)) with
    | some (.here 2 off) =>
      let g0 := granuleOf off
      let gs := (List.range (granuleOf (off + len - 1) + 1 - g0)).map fun i => s.dp.mem.regionOf (g0 + i)
      if 1728 ≤ q then gs.all fun r => regionType r == 6
      else inGlaze off && inGlaze (off + len - 1) && unitOf off == queuePanel q && unitOf (off + len - 1) == queuePanel q &&
        match s.queuePart q with
        | some k => gs.all fun r => regionType r == 5 && regionPart r == k
        | none => false
    | _ => false

/-- Ovind enables a queue whose ring it has checked; SEQ restarts at 1. A SIZE_LOG2 outside 4 to 12 sets FAULT. -/
def State.eqEnable (s : State) (q : Nat) (scratch : Bool) : State :=
  let s := s.updEq q fun e => { e with inScratch := scratch && decide (q < 1536) }
  let s := if 768 ≤ q ∧ q < 1536 then { s with trellises := Sparse.upd {} s.trellises (q - 768) fun t => { t with last := none } } else s
  if !sizeOk (s.eq q).sizeLog2 then
    s.updEq q fun e => { e with enable := true, fault := e.fault.hwSet, lastFault := Status.fieldReserved.toCode, last := 0, done := [] }
  else if s.ringOk q then s.updEq q fun e => { e with enable := true, last := 0, done := [] }
  else s

def execEqEnable (queue : QueueId) (scratch : Bool) (s : State) : Out := .next (s.eqEnable queue scratch)

/-! ### Accounting to epochs (10 R352) -/

/-- The partition and epoch whose work an entry of partition `k` is: a WET entry of the same step and attempt. -/
def State.epochOf (s : State) (k : Option Nat) (e : QEntry) : Option (Nat × Nat) :=
  match k with
  | none => none
  | some k =>
    let x := (s.dp.wetPart k).ent e.tag.epoch.toNat
    if x.state = .wet ∧ x.step = e.tag.step ∧ x.attempt = e.attempt then some (k, e.tag.epoch.toNat) else none

def State.entryEpoch (s : State) (q : Nat) (e : QEntry) : Option (Nat × Nat) :=
  s.epochOf (if 1728 ≤ q then none else s.queuePart q) e

/-! Nodes and their guards (03 R108, R117) -/

def Job.nodes (j : Job) : List GraphNode := match j.graph with | some g => g.nodes | none => []

/-- The node whose operation a descriptor is. -/
def Job.nodeOf (j : Job) (desc : Addr) : Option GraphNode := j.nodes.find? fun n => n.ops.contains desc

def guardKey (step node : BitVec 32) : Nat := step.toNat * 2 ^ 32 + node.toNat

def State.guard (s : State) (k : Nat) (step node : BitVec 32) : Guard := Sparse.get {} (s.job k).guards (guardKey step node)

def State.updGuard (s : State) (k : Nat) (step node : BitVec 32) (f : Guard → Guard) : State :=
  s.updJob k fun j => { j with guards := Sparse.upd {} j.guards (guardKey step node) f }

/-- An operation of this module has met a range violation (R108): the RANGE flag of its node. -/
def State.noteRange (s : State) (k : Nat) (tag : Tag) (desc : Addr) : State :=
  match (s.job k).nodeOf desc with
  | some n => s.updGuard k tag.step n.node fun g => { g with range := true }
  | none => s

/-- An entry of the epoch ends. -/
def State.noteEpoch (s : State) (x : Option (Nat × Nat)) (e : QEntry) (st : Status) : State :=
  match x with
  | none => s
  | some (k, n) => (if st = .rangeViolation then s.noteRange k e.tag e.desc else s).onDp fun d => d.updWet k fun w => w.updInf n fun i =>
    { i with running := i.running - 1
             violations := i.violations + boolN (st == .rangeViolation)
             failed := i.failed || !(st == .ok || st == .rangeViolation) }

def State.noteEnd (s : State) (q : Nat) (e : QEntry) (st : Status) : State :=
  let s := if 1728 ≤ q then s.updJob e.part fun j => { j with varOpen := j.varOpen.erase (q - 1728, e) } else s
  s.noteEpoch (s.entryEpoch q e) e st

/-! ### Duplicate selection (10 R373) -/

/-- DUP_LOG2 for a unit: 2 on an easel under observation. -/
def State.dupLog2 (s : State) (k : Nat) (easel : Option Nat) : Nat :=
  match easel with
  | some i => if (Sparse.get ({} : Obs) s.dp.obs i).left ≠ 0 then 2 else (s.dp.wetPart k).dupLog2.toNat
  | none => (s.dp.wetPart k).dupLog2.toNat

/-- crc32c of step, node, tile index and serial, modulo 2^DUP_LOG2, is 0. -/
def State.selected (s : State) (k : Nat) (easel : Option Nat) (step node : BitVec 32) (tile : Nat) : Bool :=
  (crc32c (le 4 step.toNat ++ le 4 node.toNat ++ le 8 tile ++ le 16 s.dp.serial.toNat)).toNat % 2 ^ s.dupLog2 k easel == 0

/-- A unit that is selected goes on Ovind's list; its epoch waits to vote. -/
def State.sampleUnit (s : State) (q : Nat) (a : Active) (node : BitVec 32) (tile : Nat) : State :=
  match s.entryEpoch q a.entry with
  | none => s
  | some (k, e) =>
    let easel := if q < 1536 then some (q % 768) else none
    if s.selected k easel a.entry.tag.step node tile then
      ({ s with integ := { s.integ with
        dupCtr := s.integ.dupCtr + 1
        dups := s.integ.dups ++ [{ id := s.integ.dupCtr, easel := if q < 1536 then q % 768 else queuePanel q * 16 + q % 4
                                   mover := decide (1536 ≤ q), part := k, epoch := a.entry.tag.epoch, node
                                   tile := BitVec.ofNat 64 tile }] } } : State).onDp fun d =>
        d.updWet k fun w => w.updInf e fun i => { i with dups := i.dups + 1 }
    else s

/-! ### Completion (R222, R223) -/

/-- Flags and kind fields of a completion record. -/
structure Comp where
  st      : Status := .ok
  range   : Bool := false
  /-- ROUND: 0 none, 1 RNE, 2 SR. -/
  round   : Nat := 0
  clipped : Bool := false
  partOut : Bool := false
  fault   : Fail := { st := .ok }
  viol    : Nat := 0
  /-- Bytes 32 to 63. -/
  tail    : List Byte := []

def Comp.bytes (c : Comp) (a : Active) : List Byte :=
  le 2 c.st.toCode.toNat ++ a.desc.take 1
    ++ le 1 (boolN c.range + 2 * c.round + 8 * boolN c.clipped + 16 * boolN c.partOut) ++ le 4 a.seq.toNat
    ++ le 8 a.entry.desc.toNat ++ le 8 c.fault.addr.toNat ++ le 1 c.fault.obj ++ le 1 c.fault.off ++ le 1 a.entry.tag.epoch.toNat
    ++ le 1 0 ++ le 4 c.viol ++ (c.tail ++ List.replicate 32 0).take 32

/-- A fault of R222 at the head: LAST_FAULT, FAULT. -/
def State.eqFault (s : State) (q : Nat) (st : Status) : State :=
  s.updEq q fun e => { e with fault := e.fault.hwSet, lastFault := st.toCode }

/-- The head moves to the next entry. -/
def State.nextHead (s : State) (q : Nat) : State :=
  s.updEq q fun e => { e with head := BitVec.ofNat 12 ((e.head.toNat + 1) % e.entries) }

/-- The entry at the head ends without a completion record. -/
def State.endUnrecorded (s : State) (q : Nat) (st : Status) : State :=
  let h := (s.eq q).head.toNat
  ((s.eqFault q st).writeRingAt q h 12 (le 2 qDone ++ le 2 st.toCode.toNat)).nextHead q

/-! ### Changing a region table entry (07 R250) -/

/-- `len` bytes at an address of this module touch granule `g`. -/
def touchesGranule (own : Coord) (g : Nat) (a : Addr) (len : Nat) : Bool :=
  match resolve own a with
  | some (.here _ off) => decide (len ≠ 0 ∧ granuleOf off ≤ g ∧ g ≤ granuleOf (off + len - 1))
  | _ => false

/-- A piece's rows, sidecars or census record touch the granule. -/
def TD.touches (own : Coord) (g : Nat) (t : TD) : Bool :=
  ((List.range t.rows).any fun r => touchesGranule own g (t.base + BitVec.ofNat 64 (t.rowOff r)) t.span)
    || touchesGranule own g t.sidecar (160 * t.tiles) || (t.census != 0 && touchesGranule own g t.census 32)

/-- An accepted operation touches the granule: its pieces, descriptor or completion record; one whose descriptors have not
been fetched may touch any. -/
def Active.touches (own : Coord) (g : Nat) (a : Active) : Bool :=
  a.tds.isEmpty || (a.tds.any fun t => t.touches own g) || touchesGranule own g a.entry.desc 128 || touchesGranule own g a.comp 64

/-- An operation in flight of the granule's owner touches it. -/
def State.inFlight (s : State) (g : Nat) : Bool :=
  let k := regionPart (s.dp.mem.regionOf g)
  (s.eqs.any fun e => s.queuePart e.1 == some k && match e.2.cur with | some a => a.touches s.dp.coord g | none => false)
    || (s.cqs.any fun c => (c.2.group.map (·.part)) == some k && match c.2.cur with | some x => x.a.touches s.dp.coord g | none => false)

/-- Ovind changes an entry, at once or when the last operation that touches the granule has ended. -/
def State.changeRegion (s : State) (g : Nat) (e : BitVec 8) : State :=
  if s.inFlight g then s.onDp fun d => { d with mem := { d.mem with regionDue := Sparse.set none d.mem.regionDue g (some e) } }
  else s.onDp fun d => { d with mem := { d.mem with
    region := Sparse.set 0 d.mem.region g e, regionDue := Sparse.set none d.mem.regionDue g none } }

/-- Changes that waited apply to every access from now on. -/
def State.settleRegions (s : State) : State :=
  (s.dp.mem.regionDue.filterMap fun x => x.2.map (x.1, ·)).foldl (fun s x => s.changeRegion x.1 x.2) s

/-- An easel whose power-down waits for BUSY turns off (13 R449). -/
def State.afterBusy (s : State) (q : Nat) : State :=
  if q < 1536 then (let n := s.runPhys (q % 768); if n < 816 then s.evalDomain n else s) else s

/-- The operation completes: the record's bytes 4 to 63, then 0 to 3, then STATUS with DONE (R223). -/
def State.complete (s : State) (q : Nat) (c : Comp) (env : Env) : State :=
  match (s.eq q).cur with
  | none => s
  | some a =>
    let h := (s.eq q).head.toNat
    let x := s.entryCtx q a.entry env
    let b := c.bytes a
    let r := s.runOp {} (do writeAt x (a.comp + 4) (b.drop 4); writeAt x a.comp (b.take 4))
    let s := r.1
    let st := match r.2 with | .ok _ => c.st | .error f => f.st
    let s := match r.2 with
      | .ok _ => (s.writeRingAt q h 12 (le 2 qDone ++ le 2 st.toCode.toNat)).nextHead q
      | .error _ => s.endUnrecorded q st
    let s := s.noteEnd q a.entry st
    let s := s.updEq q fun e => { e with
      busy := false, cur := none, done := (a.seq, st.toCode) :: e.done
      lastFail := if c.fault.st = .ok then e.lastFail
        else some { tag := a.entry.tag, addr := c.fault.addr, obj := c.fault.obj, tds := a.tds } }
    let s := { s with wdg := { s.wdg with engines := Sparse.upd {} s.wdg.engines q fun w => { w with sinceUs := 0 } } }
    s.settleRegions.afterBusy q

/-- A failed operation's completion. -/
def failComp (f : Fail) (wrote : Bool) : Comp := { st := f.st, fault := f, partOut := wrote }

/-- Progress: the engine's watchdog restarts (12 R412). -/
def State.progress (s : State) (q : Nat) : State :=
  { s with wdg := { s.wdg with engines := Sparse.upd {} s.wdg.engines q fun w => { w with sinceUs := 0 } } }

def State.updCur (s : State) (q : Nat) (f : Active → Active) : State :=
  s.updEq q fun e => { e with cur := e.cur.map f }

/-! ### Acceptance (R220 to R222) -/

/-- Bytes of a descriptor and the offset of its COMPLETION field, by queue. -/
def descSize (q : Nat) : Nat := if 1536 ≤ q ∧ q < 1728 then 64 else 128
def compOff (q : Nat) : Nat := if q < 768 then 56 else if q < 1536 then 80 else if q < 1728 then 48 else 64

/-- Is the engine held: in reset, or the domain of the easel that runs its context not ON (13 R449)? -/
def State.engineHeld (s : State) (q : Nat) : Bool :=
  (if q < 1536 then (let n := s.runPhys (q % 768); n ≥ 816 || (s.domain n).st != .on) else false)
    || Sparse.get false s.wdg.held q
    || (s.wdg.episodes.any fun e => decide (4 ≤ e.level)
        || (decide (e.level ≤ 2) && decide (q < 1536) && e.target == q % 768)
        || (e.level == 3 && s.queuePart q == some e.target))

/-- An engine's accepted entry waits: on a fence (R181, R221), on a wet tag (10 R360), or between an ORDER and FINAL; the time does
not count (12 R413). -/
def State.engineWaits (s : State) (q : Nat) (a : Active) : Bool :=
  (if q < 768 then false
   else if q < 1536 then (Sparse.get ({} : Trellis) s.trellises (q - 768)).fenced.isSome
   else if q < 1728 then a.kept.isSome
   else a.started)
    || (match (if 1728 ≤ q then some a.entry.part else s.queuePart q) with | some k => (s.dp.wetPart k).settling | none => false)

/-- The watchdog of an engine runs: BUSY, no wait of R413, not held or in reset (12 R412, R420). -/
def State.armed (s : State) (q : Nat) : Bool :=
  match (s.eq q).cur with
  | some a => (s.eq q).busy && !s.engineWaits q a && !s.engineHeld q
  | none => false

/-- R220 step 3: the epoch is SMUDGED or holds a higher ATTEMPT. -/
def State.entryStale (s : State) (q : Nat) (e : QEntry) : Bool :=
  match (if 1728 ≤ q then some e.part else s.queuePart q) with
  | none => false
  | some k =>
    let x := (s.dp.wetPart k).ent e.tag.epoch.toNat
    x.state != .free && x.step == e.tag.step && (x.state == .smudged || decide (e.attempt.toNat < x.attempt.toNat))

/-- On a head that cannot be read, Ovind rewrites the entry from its own record, and reports it when it was posted (R222). -/
def State.headUe (s : State) (q : Nat) : State :=
  let h := (s.eq q).head.toNat
  let s := s.eqFault q .checkTile
  match Sparse.get none (s.eq q).posted h with
  | some e =>
    let s := s.writeRing q h (entryBytes e 0 qPosted 0)
    match (if 1728 ≤ q then some e.part else s.queuePart q) with
    | some k => s.report k e.tag.epoch causeMemory Status.checkTile.toCode none
    | none => s
  | none => s.writeRing q h (List.replicate 32 0)

/-- KINDs an engine's descriptor may have. -/
def kindOk (q kind : Nat) : Bool :=
  if q < 768 then kind == 0x41
  else if q < 1536 then kind == 0x42 || kind == 0x43
  else if q < 1728 then 0x51 ≤ kind && kind ≤ 0x57
  else kind == 0x71

/-- Accept the head entry; a descriptor whose KIND the engine does not list fails its first check at once. -/
def State.accept (s : State) (q : Nat) (env : Env) : State :=
  let e := s.eq q
  if !e.enable ∨ e.busy ∨ !sizeOk e.sizeLog2 ∨ s.engineHeld q then s
  else
    let h := e.head.toNat
    let r := s.readRing q h env
    match r.2 with
    | .error _ => r.1.headUe q
    | .ok b =>
      let s := r.1
      let state := fld b 12 2
      let part := match Sparse.get none e.posted h with | some x => x.part | none => 0
      let qe : QEntry := { desc := BitVec.ofNat 64 (fld b 0 8), tag := tagOf b 16, attempt := BitVec.ofNat 8 (fld b 24 1), part }
      let refuse (s : State) (st : Status) : State := (s.endUnrecorded q st).noteEnd q qe st
      if state = qFree ∨ state = qAccepted ∨ state = qDone then s
      else if state ≠ qPosted then refuse s .fieldReserved
      else if qe.desc.toNat % 32 ≠ 0 then refuse s .align
      else
        let c := s.entryCtx q qe env
        let r := s.runOp {} (readAt c qe.desc (descSize q))
        match r.2 with
        | .error f => refuse r.1 f.st
        | .ok desc =>
          let s := r.1
          let comp : Addr := BitVec.ofNat 64 (fld desc (compOff q) 8)
          let cst := rangeAt s.dp c comp 64 true
          if comp.toNat % 32 ≠ 0 then refuse s .align
          else if cst ≠ .ok then refuse s cst
          else
            let seq := if e.last = 0xFFFFFFFF then 1 else e.last + 1
            let s := (s.writeRingAt q h 8 (le 4 seq.toNat)).writeRingAt q h 12 (le 2 qAccepted)
            let s := s.updEq q fun e => { e with busy := true, last := seq, cur := some { entry := qe, seq, desc, comp } }
            let r := s.runOp {} (writeAt c comp (le 2 Status.pending.toCode.toNat))
            match r.2 with
            | .error f =>
              let s := (r.1.endUnrecorded q f.st).noteEnd q qe f.st
              s.updEq q fun e => { e with busy := false, cur := none, done := (seq, f.st.toCode) :: e.done }
            | .ok _ =>
              if r.1.entryStale q qe then r.1.complete q { st := .smudged } env
              else if kindOk q (fld desc 0 1) then r.1
              else r.1.complete q (failComp { st := .fieldReserved, addr := qe.desc, obj := 1, off := 0 } false) env

def execEngineEntryAccept (queue : QueueId) (env : Env) (s : State) : Out := .next (s.accept queue env)

/-! ### Fences (R181, R221) -/

/-- The status with which a queue completed an entry, when it has. -/
def State.fenceStatus (s : State) (q : Nat) (seq : BitVec 32) : Option (BitVec 16) :=
  ((s.eq q).done.find? fun d => d.1 == seq).map (·.2)

/-- A fence lets its entry start on ST_OK and ST_RANGE_VIOLATION. -/
def fencePasses (st : BitVec 16) : Bool := st == Status.ok.toCode || st == Status.rangeViolation.toCode

/-- The accepted entry of a queue that has not been checked yet. -/
def State.fresh (s : State) (q : Nat) : Option Active :=
  match (s.eq q).cur with
  | some a => if a.started then none else some a
  | none => none

end Sys2Proof.Machine
end

