-- ==== Sys2Proof/Machine/Movers.lean ====
section
/-! DEFINITION. The layout movers: movement descriptors, their checks and their seven operations (06 R203 to R217). -/
namespace Sys2Proof.Machine

/-! ### Movement descriptors (Table 6.7) -/

structure MD where
  kind  : Nat
  mode  : Nat
  axis  : Nat
  fq    : Nat
  fence : Nat
  start : Nat
  count : Nat
  resv  : List Byte
  src   : Addr
  dst   : Addr
  index : Addr
  sr    : Addr

def MD.ofBytes (l : List Byte) : MD :=
  { kind := fld l 0 1, mode := fld l 1 1, axis := fld l 2 1, fq := fld l 3 1, fence := fld l 4 4, start := fld l 8 8
    count := fld l 16 4, resv := slice l 20 4, src := BitVec.ofNat 64 (fld l 24 8), dst := BitVec.ofNat 64 (fld l 32 8)
    index := BitVec.ofNat 64 (fld l 40 8), sr := BitVec.ofNat 64 (fld l 56 8) }

def mdCopy : Nat := 0x51
def mdT2 : Nat := 0x52
def mdConvert : Nat := 0x53
def mdGather : Nat := 0x54
def mdScatter : Nat := 0x55
def mdScatterAdd : Nat := 0x56
def mdFill : Nat := 0x57

def MD.indexed (m : MD) : Bool := m.kind == mdGather || m.kind == mdScatter || m.kind == mdScatterAdd
def MD.rounds (m : MD) : Bool := m.kind == mdConvert || m.kind == mdT2

/-- Rows of Table 6.11 that need only the descriptor, before the count. -/
def MD.fieldRows (m : MD) : List (Bool × Status × Nat) :=
  [ (4 ≤ m.mode || (bitOf m.mode 0 && !m.rounds) || (bitOf m.mode 1 && !m.indexed), .fieldReserved, 1),
    (m.axis ≠ 0 && !m.indexed, .fieldReserved, 2),
    (!(m.fq ≤ 4 || (0x10 ≤ m.fq && m.fq ≤ 0x2F)), .fieldReserved, 3),
    ((m.fq == 0) ≠ (m.fence == 0), .fieldReserved, 4),
    (!zeros m.resv, .fieldReserved, 20),
    ((m.src == 0) ≠ (m.kind == mdFill), .fieldReserved, 24),
    (m.dst == 0, .fieldReserved, 32),
    ((m.index ≠ 0) ≠ m.indexed, .fieldReserved, 40),
    (m.sr ≠ 0 && !m.rounds, .fieldReserved, 56) ]

/-- The queue that FENCE_Q names on a panel. -/
def MD.fenceQueue (m : MD) (panel : Nat) : Nat :=
  if m.fq ≤ 4 then 1536 + 4 * panel + (m.fq - 1)
  else if m.fq < 0x20 then 16 * panel + (m.fq - 0x10)
  else 768 + 16 * panel + (m.fq - 0x20)

/-! ### Conditions of Tables 6.8 and 6.9 -/

/-- BEGIN and COUNT in elements must be multiples of 32 for this type. -/
def blocked (t : Nat) : Bool := isMx t || isWide t || isWire t

/-- Table 6.9; the wire pair's tables are compared at their own row. -/
def convertPair (s d : Nat) : Bool :=
  if isInt32 s then isWide d
  else !isInt32 d

def swapLast (l : List Nat) : List Nat :=
  match l.reverse with
  | a :: b :: r => (b :: a :: r).reverse
  | l => l.reverse

/-- Type, rank, scale and shape conditions: the first that fails, with the field it names; `desc` is the MD's address. -/
def MD.shapeFault (m : MD) (desc : Addr) (s d x : TD) : Option Fail :=
  let mult : Bool × Fail := if m.start % 32 ≠ 0 then (true, { st := .fieldReserved, addr := desc, obj := 1, off := 8 })
    else (m.count % 32 ≠ 0, { st := .fieldReserved, addr := desc, obj := 1, off := 16 })
  let td (t : TD) (st : Status) (off : Nat) : Fail := { st, addr := t.ptr, obj := 2, off }
  let first (l : List (Bool × Fail)) : Option Fail := (l.find? (·.1)).map (·.2)
  let type : Bool × Fail := (s.type != d.type, td d .fieldReserved 1)
  let scale : Bool × Fail := (s.tscale != d.tscale, td d .fieldReserved 72)
  let rank : Bool × Fail := (s.rank != d.rank, td d .rank 2)
  let blocks (on : Bool) : Bool × Fail := (on && mult.1, mult.2)
  if m.kind = mdCopy then first [type, scale, blocks (blocked s.type)]
  else if m.kind = mdConvert then first [(!convertPair s.type d.type, td d .fieldReserved 1), blocks (blocked s.type || blocked d.type)]
  else if m.kind = mdFill then first [blocks (blocked d.type)]
  else if m.kind = mdT2 then
    first [ type, (isWire s.type, td s .fieldReserved 1), (s.rank < 2, td s .fieldReserved 2), rank,
            (d.extents ≠ swapLast s.extents, td d .bounds 16),
            (isMx s.type && (s.extents.drop (s.rank - 2)).any (· % 32 ≠ 0), td s .bounds 16) ]
  else
    -- the tensor whose slices the index addresses, and the other
    let whole := if m.kind = mdGather then s else d
    let other := if m.kind = mdGather then d else s
    let typed : List (Bool × Fail) := if m.kind = mdScatterAdd then
        [(!((isWire d.type && (s.type == d.type || isMx s.type || isWide s.type)) || (isInt32 d.type && isInt32 s.type)), td d .fieldReserved 1)]
      else [type, scale]
    first (typed ++ [ (!isInt32 x.type, td x .fieldReserved 1), (x.rank ≠ 1, td x .fieldReserved 2), rank,
      (whole.rank ≤ m.axis + 1, { st := .fieldReserved, addr := desc, obj := 1, off := 2 }),
      (other.extents ≠ whole.extents.set m.axis x.total, td other .bounds 16) ])

/-- All pieces of the operation are empty (R186). -/
def MD.allEmpty (m : MD) (s d x : TD) : Bool :=
  d.empty && (m.kind == mdFill || s.empty) && (!m.indexed || x.empty)

/-! ### Ranges (Table 6.6) -/

/-- Elements of a 2-D slice. -/
def sliceLen (t : TD) : Nat := product (t.extents.drop (t.rank - 2))

/-- The tensor dimension that an index addresses, the elements of one entry's run. -/
def axisInner (t : TD) (axis : Nat) : Nat := product (t.extents.drop (axis + 1))

/-- Linear runs of the elements with coordinate `i` along the axis. -/
def sliceRuns (t : TD) (axis i : Nat) : List (Nat × Nat) :=
  let inner := axisInner t axis
  let n := nth t.extents axis
  (List.range (product (t.extents.take axis))).map fun o => ((o * n + i) * inner, inner)

/-- The range in units that an operation covers, and the checks of Table 6.6 on it: status and object's pointer. -/
def MD.ranges (m : MD) (s d x : TD) : Except (Status × Addr) Ranges :=
  let hi := m.start + m.count
  if m.indexed then
    let n := x.total
    if hi ≤ n then .ok { first := m.start, last := hi, dropped := 0 }
    else if !x.sprig then .error (.bounds, x.ptr)
    else
      let last := max m.start n
      let per := (if m.kind = mdGather then d.total / max (nth d.extents m.axis) 1 else s.total / max (nth s.extents m.axis) 1)
      .ok { first := min m.start n, last := min hi n, dropped := (hi - last) * per }
  else
    let unit := if m.kind = mdT2 then sliceLen s else 1
    let ns := if m.kind = mdFill then hi else if m.kind = mdT2 then s.total / max unit 1 else s.total
    let nd := if m.kind = mdT2 then d.total / max unit 1 else d.total
    if ns < hi ∧ !s.sprig ∧ m.kind ≠ mdFill then .error (.bounds, s.ptr)
    else if nd < hi ∧ !d.sprig then .error (.bounds, d.ptr)
    else .ok { first := min m.start nd, last := min hi nd, dropped := (hi - max m.start nd) * unit }

/-! ### Footprints (R215) -/

/-- Byte intervals (module code, first key, end key) of element runs, with the sidecars of their tiles and the census. -/
def footprint (own : Coord) (t : TD) (runs : List (Nat × Nat)) : List (Nat × Nat × Nat) :=
  let iv (a : Addr) (n : Nat) : List (Nat × Nat × Nat) :=
    match keyOf own a with
    | some (c, k) => if n = 0 then [] else [(c, k, k + n)]
    | none => []
  let elems := runs.flatMap fun r => (t.spansOf r.1 r.2).flatMap fun sp => iv (t.base + BitVec.ofNat 64 sp.1) (typeBytes t.type sp.2)
  let sides := (runs.filter (0 < ·.2)).flatMap fun r =>
    iv (t.sidecarAddr (r.1 / 4096)) (160 * ((r.1 + r.2 - 1) / 4096 + 1 - r.1 / 4096))
  elems ++ sides ++ (if t.census = 0 ∨ elems.isEmpty then [] else iv t.census 32)

def meets (a b : List (Nat × Nat × Nat)) : Bool :=
  a.any fun x => b.any fun y => x.1 == y.1 && decide (x.2.1 < y.2.2) && decide (y.2.1 < x.2.2)

/-- Clip a linear range to a tensor. -/
def clipRun (t : TD) (a b : Nat) : List (Nat × Nat) :=
  let a := min a t.total
  let b := min b t.total
  if a < b then [(a, b - a)] else []

def MD.srcRuns (m : MD) (s : TD) (r : Ranges) : List (Nat × Nat) :=
  if m.kind = mdGather then [(0, s.total)]
  else if m.indexed then (List.range (r.last - r.first)).flatMap fun j => sliceRuns s m.axis (r.first + j)
  else let u := if m.kind = mdT2 then sliceLen s else 1; clipRun s (r.first * u) (r.last * u)

def MD.dstRuns (m : MD) (d : TD) (r : Ranges) : List (Nat × Nat) :=
  if m.kind = mdGather then (List.range (r.last - r.first)).flatMap fun j => sliceRuns d m.axis (r.first + j)
  else if m.indexed then [(0, d.total)]
  else let u := if m.kind = mdT2 then sliceLen d else 1; clipRun d (r.first * u) (r.last * u)

/-- SR is used (R64): a gradient-class destination, or the ROUND field. -/
def MD.usesSr (m : MD) (d : TD) : Bool :=
  m.rounds && (d.gradient || bitOf m.mode 0) && !isWire d.type && !(m.kind == mdT2 && !isMx d.type)

/-- The destination meets the source, the index entries or the SR context record that it uses (R210). -/
def MD.overlaps (m : MD) (own : Coord) (s d x : TD) (r : Ranges) : Bool :=
  let fd := footprint own d (m.dstRuns d r)
  let fs := if m.kind = mdFill then [] else footprint own s (m.srcRuns s r)
  let fx := if m.indexed then footprint own x [(r.first, r.last - r.first)] else []
  let fr := if m.sr = 0 ∨ d.distributed ∨ !m.usesSr d then [] else match keyOf own m.sr with
    | some (c, k) => [(c, k, k + 64)]
    | none => []
  meets fd fs || meets fd fx || meets fd fr

/-! ### The plan: everything settled before the fence -/

structure Plan extends MoveKept where
  md  : MD
  src : TD
  dst : TD
  idx : TD

/-- The plan of descriptors and what their checks have settled. -/
def MD.planWith (m : MD) (tds : List TD) (k : MoveKept) : Plan :=
  { k with md := m, src := tds.getD 0 default, dst := tds.getD 1 default, idx := tds.getD 2 default }

def tableUse (c : Ctx) (t : TD) : TableUse :=
  { step := (opTag c).step, out := some (t.tensorId, nth t.shape (t.rank - 1)) }

/-- What a wire source's table must match: of a SCATTER-ADD its CRC is compared with the destination's (R214), not its TENSOR_ID. -/
def MD.srcUse (m : MD) (c : Ctx) (s : TD) : TableUse :=
  if m.kind = mdScatterAdd then { tableUse c s with out := none } else tableUse c s

/-- The descriptors fetched so far, or fetched now: source, destination, index in that order (R192, R216). -/
def MD.fetch (m : MD) (c : Ctx) (tds : List TD) : Op (List TD) :=
  match tds with
  | [] => do
    let s ← if m.kind = mdFill then pure default else takeTD c false m.src
    let d ← takeTD c true m.dst
    let x ← if m.indexed then takeTD c false m.index else pure default
    pure [s, d, x]
  | l => pure l

/-- Rows of Table 6.11 from the descriptors to the footprints. -/
def MD.planOf (m : MD) (c : Ctx) (desc : Addr) (s d x : TD) : Op Plan := do
  match m.shapeFault desc s d x with
  | some f => throw f
  | none => pure ()
  let wantD := isWire d.type && (m.kind == mdConvert || m.kind == mdScatterAdd)
  let wantS := isWire s.type && (m.kind == mdConvert || m.kind == mdScatterAdd)
  let td ← if wantD then (do let t ← takeTable c d.anchor (tableUse c d); pure (some t)) else pure none
  let ts ← if wantS then (do let t ← takeTable c s.anchor (m.srcUse c s); pure (some t)) else pure none
  -- partial sums of a local-profile node are not written or combined as wire values (03 R92)
  if td.any fun a => a.profile ≠ 2 then failOp .fieldReserved d.anchor 3 16
  if wantD && ts.any fun a => a.profile ≠ 2 then failOp .fieldReserved s.anchor 3 16
  match td, ts with
  | some a, some b =>
    if m.kind = mdConvert ∧ (a.entries ≠ b.entries ∨ a.entry ≠ b.entry) then failOp .fieldReserved d.anchor 3
    else if m.kind = mdScatterAdd ∧ a.crc ≠ b.crc then failOp .checkTile s.anchor 3
    else pure ()
  | _, _ => pure ()
  let sr ← if m.usesSr d then (do let r ← takeSr c d m.sr; pure (some r)) else pure none
  match m.ranges s d x with
  | .error (st, a) => failOp st a 2
  | .ok rng =>
    let dp ← get
    if m.overlaps dp.coord s d x rng then failOp .overlap d.ptr 2
    else pure (m.planWith [s, d, x] { rng, dstTable := td.map (·.entry), srcTable := ts.map (·.entry), sr })

/-- The plan of a checked MD; pieces that are all empty end the checks (R186). -/
def MD.plan (m : MD) (c : Ctx) (desc : Addr) (tds : List TD) : Op Plan :=
  let s := tds.getD 0 default
  let d := tds.getD 1 default
  let x := tds.getD 2 default
  if m.allEmpty s d x then pure (m.planWith tds default) else m.planOf c desc s d x

/-! ### Index entries (R211) -/

/-- The slice an entry addresses; `none`: out of range. -/
def addressed (v : Int) (n : Nat) (wrap : Bool) : Option Nat :=
  if 0 ≤ v ∧ v < n then some v.toNat
  else if wrap ∧ -(n : Int) ≤ v ∧ v ≤ -1 then some (n + v).toNat
  else none

/-- The entries of the range; an out-of-range one fails in STRICT mode. -/
def readIndex (c : Ctx) (p : Plan) : Op (List (Option Nat)) := do
  let whole := if p.md.kind = mdGather then p.src else p.dst
  let n := nth whole.extents p.md.axis
  let len := p.rng.last - p.rng.first
  if len = 0 then pure []
  else
    let first := p.rng.first / 4096
    let tiles ← (List.range ((p.rng.last - 1) / 4096 + 1 - first)).mapM fun j => checkTile c p.idx (first + j)
    let codes := unpack 0x20 ((tiles.flatMap (·.payload)).length / 4) (tiles.flatMap (·.payload))
    let es := (List.range len).map fun j => addressed (sext 32 (codes.getD (p.rng.first - 4096 * first + j) 0)) n (bitOf p.md.mode 1)
    match (List.range len).find? fun j => (es.getD j none).isNone with
    | some j =>
      if whole.sprig then pure es
      else failOp .indexRange (p.idx.base + BitVec.ofNat 64 (4 * (p.rng.first + j))) 6
    | none => pure es

/-! ### Source elements -/

/-- Source tiles that have been checked: number, codes, the tile. -/
abbrev Cache := List (Nat × List Nat × Tile)

def loadTile (c : Ctx) (t : TD) (cache : Cache) (i : Nat) : Op Cache := do
  if cache.any fun e => e.1 == i then pure cache
  else
    let x ← checkTile c t i
    pure (cache ++ [(i, unpack t.type (t.tileCount i) x.payload, x)])

def loadTiles (c : Ctx) (t : TD) (cache : Cache) (l : List Nat) : Op Cache := l.foldlM (loadTile c t) cache

/-- Code and scale byte of a source element. -/
def Cache.elem (cache : Cache) (n : Nat) : Nat × Nat :=
  match cache.find? fun e => e.1 == n / 4096 with
  | some e => (e.2.1.getD (n % 4096) 0, (e.2.2.side.scales.getD (n % 4096 / 32) 0).toNat)
  | none => (0, 0)

/-- The code and scale byte of a filled element (Table 6.3). -/
def fillElem (t : TD) : Nat × Nat :=
  if isWire t.type then (code (wireWidth t.type) (sext 32 t.fill), 0)
  else (t.fill, if isMx t.type then 0x7F else 0)

/-- The exact value of an element from its code, scale byte and anchor. -/
def elemNum (t : Nat) (l : Int) (x : Nat × Nat) : Num := (blockValues t x.2 l [x.1]).getD 0 .nan

/-- The anchor of an element's block. -/
def anchorOf (tab : Option (List Int)) (t : TD) (n : Nat) : Int :=
  match tab with
  | some a => a.getD (t.global (t.rank - 1) (n % max t.inner 1) / 32) 0
  | none => 0

/-- A wire code that is reserved fails the operation (03 R87). -/
def reservedWire (t : Nat) (x : Nat) : Bool := isWire t && (Acc.decode (wireWidth t) x).isNone

/-! ### Where each destination element comes from -/

/-- Source element of destination element `n`; `none`: filled. -/
def Plan.source (p : Plan) (es : List (Option Nat)) (n : Nat) : Option Nat :=
  let m := p.md
  if m.kind = mdFill then none
  else if m.kind = mdT2 then
    let cs := unravel p.dst.extents n
    let k := ravel p.src.extents (swapLast cs)
    if k < p.src.total then some k else none
  else if m.kind = mdGather then
    let inner := axisInner p.dst m.axis
    let i := n / max inner 1 % max (nth p.dst.extents m.axis) 1
    match es.getD (i - p.rng.first) none with
    | some v =>
      let o := n / (max inner 1 * max (nth p.dst.extents m.axis) 1)
      some ((o * nth p.src.extents m.axis + v) * inner + n % max inner 1)
    | none => none
  else if m.kind = mdScatter then
    -- the highest position that addresses the slice wins
    let inner := axisInner p.dst m.axis
    let d := n / max inner 1 % max (nth p.dst.extents m.axis) 1
    let o := n / (max inner 1 * max (nth p.dst.extents m.axis) 1)
    ((List.range es.length).filter fun j => es.getD j none == some d).getLast?.map fun j =>
      (o * nth p.src.extents m.axis + (p.rng.first + j)) * inner + n % max inner 1
  else if n < p.src.total then some n else none

/-- Runs of destination elements that are written, in ascending order. -/
def Plan.writes (p : Plan) (es : List (Option Nat)) : List (Nat × Nat) :=
  if p.md.kind = mdScatter ∨ p.md.kind = mdScatterAdd then
    let n := nth p.dst.extents p.md.axis
    let inner := axisInner p.dst p.md.axis
    let hit := (List.range n).filter fun d => es.contains (some d)
    (List.range (product (p.dst.extents.take p.md.axis))).flatMap fun o => hit.map fun d => ((o * n + d) * inner, inner)
  else if p.md.kind = mdGather then
    let n := nth p.dst.extents p.md.axis
    let inner := axisInner p.dst p.md.axis
    (List.range (product (p.dst.extents.take p.md.axis))).map fun o => ((o * n + p.rng.first) * inner, (p.rng.last - p.rng.first) * inner)
  else p.md.dstRuns p.dst p.rng

/-- The pieces of the written runs in tile `i`: position in the tile, length; runs that touch are joined. -/
def inTile (runs : List (Nat × Nat)) (i : Nat) : List (Nat × Nat) :=
  let cut := runs.filterMap fun r =>
    let a := max r.1 (4096 * i)
    let b := min (r.1 + r.2) (4096 * (i + 1))
    if a < b then some (a - 4096 * i, b - a) else none
  cut.foldl (fun l r => match l.getLast? with
    | some x => if x.1 + x.2 = r.1 then l.dropLast ++ [(x.1, x.2 + r.2)] else l ++ [r]
    | none => [r]) []

/-- Destination tiles that the runs touch, ascending. -/
def tilesOf (runs : List (Nat × Nat)) : List Nat :=
  ascending (runs.flatMap fun r => if r.2 = 0 then [] else (List.range ((r.1 + r.2 - 1) / 4096 + 1 - r.1 / 4096)).map (r.1 / 4096 + ·))

/-! ### Converting a block -/

/-- A block that keeps its source's codes and scale byte (R208); its census counts are of the block as written. -/
def copiedBlock (t scale : Nat) (codes : List Nat) : BlockOut :=
  let b := blockOf t scale codes
  if isWide t then { b with scale, contrib := b.contrib.map fun _ => scale } else b

/-- One block of destination elements: what is written, its range violations. -/
def Plan.block (p : Plan) (c : Ctx) (cache : Cache) (idx : List (Option Nat)) (n0 len : Nat) : Except Unit (BlockOut × Nat) :=
  let m := p.md
  let ft := p.dst.type
  let ns := (List.range len).map (n0 + ·)
  let src := ns.map fun n => (n, p.source idx n)
  let elem (x : Nat × Option Nat) : Nat × Nat := match x.2 with
    | some k => cache.elem k
    | none => fillElem (if m.kind = mdFill then p.dst else p.src)
  let es := src.map elem
  if es.any fun e => reservedWire (if m.kind = mdFill then ft else p.src.type) e.1 then .error ()
  else if m.kind = mdConvert ∨ (m.kind = mdT2 ∧ isMx ft) then
    let g := gConvert (if isMx p.src.type then p.src.tscale else one32) p.dst.tscale
    let us := (src.zip es).map fun x =>
      let l := anchorOf p.srcTable p.src (x.1.2.getD x.1.1)
      ((elemNum p.src.type l x.2).preScale g, rndOf c p.dst p.sr x.1.1)
    if isMx ft then .ok (mxBlock ft us, 0)
    else if isWide ft then .ok (wideBlock ft us, 0)
    else
      let out := (ns.zip us).map fun x =>
        let l := anchorOf p.dstTable p.dst x.1
        match x.2.1 with
        | .fin v e => (Acc.fin (floorAt v e l)).narrow (wireWidth ft)
        | .negZero => (Acc.fin 0, false)
        | .inf sg => (Acc.inf sg, false)
        | .nan => (Acc.nan, false)
      .ok (plainBlockOf (out.map fun o => o.1.encode (wireWidth ft)), (out.filter (·.2)).length)
  else if m.kind = mdCopy ∧ (p.source idx n0).isSome then .ok (copiedBlock ft ((es.getD 0 (0, 0)).2) (es.map (·.1)), 0)
  else .ok (blockOf ft ((es.getD 0 (0, 0)).2) (es.map (·.1)), 0)

/-- The blocks of a piece of a tile: 32 elements along the innermost dimension, or the whole piece for INT32. -/
def Plan.blocks (p : Plan) (c : Ctx) (cache : Cache) (es : List (Option Nat)) (n0 len : Nat) : Except Unit (List (BlockOut × Nat)) :=
  (List.range (ceilDiv len 32)).mapM fun b => p.block c cache es (n0 + 32 * b) (min 32 (len - 32 * b))

/-! ### SCATTER-ADD (R214) -/

/-- One destination element's sum: existing value, the terms of the entries that address its slice, violations. -/
def Plan.sum (p : Plan) (cache : Cache) (es : List (Option Nat)) (old n : Nat) : Option (Nat × Nat) :=
  let m := p.md
  let ft := p.dst.type
  let inner := axisInner p.dst m.axis
  let nd := max (nth p.dst.extents m.axis) 1
  let d := n / max inner 1 % nd
  let o := n / (max inner 1 * nd)
  let hits := (List.range es.length).filter fun j => es.getD j none == some d
  let at_ (j : Nat) : Nat := (o * nth p.src.extents m.axis + (p.rng.first + j)) * inner + n % max inner 1
  let terms := hits.map fun j => cache.elem (at_ j)
  if isInt32 ft then some ((terms.foldl (fun a t => a + t.1) old) % 2 ^ 32, 0)
  else
    let w := wireWidth ft
    let l := anchorOf p.dstTable p.dst n
    let lim (a : Acc) : Acc × Nat := match a with
      | .fin v => if 2 ^ (w - 27) ≤ v.natAbs then (.inf (decide (v < 0)), 1) else (a, 0)
      | _ => (a, 0)
    match Acc.decode w old with
    | none => none
    | some a0 =>
      let g := gConvert (if isMx p.src.type then p.src.tscale else one32) one32
      let ts : List (Option Acc) := (hits.zip terms).map fun x =>
        if isWire p.src.type then Acc.decode w x.2.1
        else some (match (elemNum p.src.type 0 x.2).mul g with
          | .fin v e => .fin (floorAt v e l)
          | .negZero => .fin 0
          | .inf sg => .inf sg
          | .nan => .nan)
      if ts.any (·.isNone) then none
      else
        let r := ts.foldl (fun acc t =>
          let x := lim (t.getD .nan)
          ((acc.1.combine w x.1).1, acc.2 + x.2)) (lim a0)
        some (r.1.encode w, r.2)

/-! ### Running -/

/-- What a mover has done so far. -/
structure Moved where
  elements : Nat := 0
  filled   : Nat := 0
  viol     : Nat := 0
  sats     : Nat := 0
  tiles    : Nat := 0
  cache    : Cache := []

/-- A COPY that carries sidecars (R202): the elements it moves, after the clip of Table 6.6, are whole tiles. -/
def Plan.carries (p : Plan) : Bool :=
  p.md.kind == mdCopy && p.md.start % 4096 == 0 && (p.rng.last % 4096 == 0 || p.rng.last == p.dst.total)
    && (tilesOf (p.writes [])).all fun i => p.src.tileCount i == p.dst.tileCount i && decide (i < p.src.tiles)

/-- The written elements of destination tile `i`. -/
def writtenIn (runs : List (Nat × Nat)) (i : Nat) : List Nat :=
  (inTile runs i).flatMap fun r => (List.range r.2).map (4096 * i + r.1 + ·)

/-- Source tiles that destination tile `i` needs, ascending. -/
def Plan.needs (p : Plan) (es : List (Option Nat)) (runs : List (Nat × Nat)) (i : Nat) : List Nat :=
  let ns := writtenIn runs i
  ascending (if p.md.kind = mdScatterAdd then
      let inner := max (axisInner p.dst p.md.axis) 1
      let nd := max (nth p.dst.extents p.md.axis) 1
      ns.flatMap fun n => ((List.range es.length).filter fun j => es.getD j none == some (n / inner % nd)).map fun j =>
        ((n / (inner * nd) * nth p.src.extents p.md.axis + (p.rng.first + j)) * inner + n % inner) / 4096
    else ns.filterMap fun n => (p.source es n).map (· / 4096))

/-- Put a tile behind those that need no later source tile. -/
def placeTile (x : Nat × Nat) : List (Nat × Nat) → List (Nat × Nat)
  | [] => [x]
  | y :: r => if x.2 < y.2 then x :: y :: r else y :: placeTile x r

/-- The order of the work (R217): source tiles are read in ascending order, and a destination tile is written once the last
source tile it needs has been read. Each destination tile comes with the source tiles to read before it. -/
def Plan.order (p : Plan) (es : List (Option Nat)) (runs : List (Nat × Nat)) (tiles : List Nat) : List (Nat × List Nat) :=
  let need := tiles.map fun i => (i, p.needs es runs i)
  let all := ascending (need.flatMap (·.2))
  let last := need.map fun x => (x.1, match x.2.getLast? with | some k => k + 1 | none => 0)
  (last.foldl (fun l x => placeTile x l) []).map fun x => (x.1, all.filter (· < x.2))

/-- One destination tile (R217): source tiles are read up to the last it needs, its elements written, its census update sent. -/
def Plan.tile (p : Plan) (c : Ctx) (es : List (Option Nat)) (runs : List (Nat × Nat)) (mv : Moved) (x : Nat × List Nat) : Op Moved := do
  let i := x.1
  let pieces := inTile runs i
  let ns := writtenIn runs i
  let cache ← loadTiles c p.src mv.cache x.2
  let census (bs : List BlockOut) : Op Unit :=
    afterWrite (censusUpdate c p.dst.census (censusOf p.dst.type (opTag c).step bs))
  if p.md.kind = mdScatterAdd then
    let t ← checkTile c p.dst i
    let codes := unpack p.dst.type (p.dst.tileCount i) t.payload
    let new := (List.range codes.length).map fun j =>
      if pieces.any fun r => decide (r.1 ≤ j) && decide (j < r.1 + r.2) then p.sum cache es (codes.getD j 0) (4096 * i + j)
      else some (codes.getD j 0, 0)
    if new.any (·.isNone) then failOp .checkTile (p.dst.sidecarAddr i) 4
    else
      let out := new.map fun x => x.getD (0, 0)
      let bs := (chunks 32 (out.map (·.1))).map plainBlockOf
      writeUpdate c p.dst i t.side (outOf p.dst.type bs)
      census [plainBlockOf (ns.map fun n => (out.getD (n - 4096 * i) (0, 0)).1)]
      pure { mv with elements := mv.elements + ns.length, viol := mv.viol + (out.map (·.2)).foldl (· + ·) 0, tiles := mv.tiles + 1, cache }
  else if p.carries then
    match cache.find? fun e => e.1 == i with
    | none => pure { mv with cache }
    | some (_, codes, t) =>
      writeElems c p.dst (4096 * i) (p.dst.tileCount i) t.payload
      afterWrite (writeAt c (p.dst.sidecarAddr i) { t.side with carrier := opTag c, carrierAttempt := c.attempt }.bytes)
      census ((List.range (ceilDiv codes.length 32)).map fun b =>
        copiedBlock p.src.type ((t.side.scales.getD b 0).toNat) ((codes.drop (32 * b)).take 32))
      pure { mv with elements := mv.elements + ns.length, tiles := mv.tiles + 1, cache }
  else
    match pieces.mapM fun r => (p.blocks c cache es (4096 * i + r.1) r.2).map fun b => (r.1, b) with
    | .error _ => failOp .checkTile (p.src.sidecarAddr i) 4
    | .ok outs =>
      let all := outs.flatMap (·.2)
      if p.md.kind = mdScatter then
        -- an update write (R200)
        let t ← checkTile c p.dst i
        let codes := unpack p.dst.type (p.dst.tileCount i) t.payload
        let merged := outs.foldl (fun l o => l.take o.1 ++ (o.2.flatMap fun b => b.1.codes) ++ l.drop (o.1 + (o.2.flatMap fun b => b.1.codes).length)) codes
        let scales := (List.range (ceilDiv codes.length 32)).map fun b =>
          match outs.findSome? fun o => if o.1 ≤ 32 * b ∧ 32 * b < o.1 + 32 * o.2.length then (o.2[(32 * b - o.1) / 32]?).map (·.1.scale) else none with
          | some x => BitVec.ofNat 8 x
          | none => t.side.scales.getD b 0
        let fl := outOf p.dst.type (all.map (·.1))
        writeUpdate c p.dst i t.side { payload := pack p.dst.type merged
                                       scales := if isMx p.dst.type || isWide p.dst.type then scales else List.replicate scales.length 0
                                       sat := fl.sat, nonfin := fl.nonfin, clamped := fl.clamped }
      else
        match outs with
        | [] => pure ()
        | o :: r => do
          writeTilePart c p.dst i o.1 (o.2.map (·.1))
          afterWrite (r.forM fun o => writeTilePart c p.dst i o.1 (o.2.map (·.1)))
      census (all.map (·.1))
      pure { elements := mv.elements + ns.length
             filled := mv.filled + (if p.md.kind = mdFill then 0 else (ns.filter fun n => (p.source es n).isNone).length)
             viol := mv.viol + (all.map (·.2)).foldl (· + ·) 0, sats := mv.sats, tiles := mv.tiles + 1, cache }

/-- Reads the coalescer saves (R212): slices of at most 8 KiB among the 64 most recently read distinct indices. -/
def coalesced (p : Plan) (es : List (Option Nat)) : Nat :=
  if p.md.kind ≠ mdGather ∨ 8192 < typeBytes p.src.type (p.src.total / max (nth p.src.extents p.md.axis) 1) then 0
  else (es.foldl (fun (a : List Nat × Nat) e => match e with
    | none => a
    | some v => if a.1.contains v then (a.1, a.2 + 1) else ((v :: a.1).take 64, a.2)) ([], 0)).2

/-- Elements of out-of-range scatter slices. -/
def Plan.droppedSlices (p : Plan) (es : List (Option Nat)) : Nat :=
  if p.md.kind = mdScatter ∨ p.md.kind = mdScatterAdd then
    (es.filter (·.isNone)).length * (p.src.total / max (nth p.src.extents p.md.axis) 1)
  else 0

/-- Tiles an update write may touch must be COMPLETE and carry the operation's TAG and ATTEMPT (R200). -/
def Plan.updateCheck (p : Plan) (c : Ctx) (l : List Nat) : Op Unit :=
  if p.md.kind = mdScatter ∨ p.md.kind = mdScatterAdd then
    l.forM fun i => do
      let t ← checkTile c p.dst i
      if t.side.tag ≠ opTag c ∨ t.side.flags.attempt ≠ c.attempt then failOp .checkTile (p.dst.sidecarAddr i) 4
  else pure ()

/-- The mover's completion (Table 6.15). -/
def Plan.comp (p : Plan) (es : List (Option Nat)) (mv : Moved) (st : Status) (f : Fail) : Comp :=
  let dropped := p.rng.dropped + p.droppedSlices es
  { st, fault := f, range := mv.viol ≠ 0, viol := mv.viol
    round := if p.md.rounds && !isWire p.dst.type && !(p.md.kind == mdT2 && !isMx p.dst.type) then (if p.sr.isSome then 2 else 1) else 0
    clipped := (st == .ok || st == .rangeViolation) && (mv.filled ≠ 0 || dropped ≠ 0)
    partOut := st != .ok && st != .rangeViolation && (mv.tiles ≠ 0 || f.wrote)
    tail := le 8 mv.elements ++ le 8 mv.filled ++ le 8 dropped ++ le 4 (coalesced p es) }

/-- Units that Table 10.8 samples. -/
def Plan.sampled (p : Plan) : Bool :=
  p.md.kind == mdConvert || p.md.kind == mdScatterAdd || (p.md.kind == mdT2 && isMx p.dst.type)

/-- The destination tiles in the order of the work; the first failure stops the operation. -/
def State.moveTiles (s : State) (q : Nat) (a : Active) (node : BitVec 32) (p : Plan) (c : Ctx) (es : List (Option Nat))
    (runs : List (Nat × Nat)) (mv : Moved) : List (Nat × List Nat) → State × Moved × Option Fail
  | [] => (s, mv, none)
  | i :: r =>
    let x := s.runOp {} (p.tile c es runs mv i)
    match x.2 with
    | .error f => (x.1, mv, some f)
    | .ok mv' =>
      let s := if p.sampled then x.1.sampleUnit q a node i.1 else x.1
      s.moveTiles q a node p c es runs mv' r

/-- From the index entries on. -/
def State.movePlan (s : State) (q : Nat) (a : Active) (node : BitVec 32) (p : Plan) (env : Env) : State :=
  let c := s.entryCtx q a.entry env
  let r := s.runOp {} (if p.md.indexed then readIndex c p else pure [])
  match r.2 with
  | .error f => r.1.complete q (failComp f false) env
  | .ok es =>
    let runs := p.writes es
    let tiles := tilesOf runs
    let u := r.1.runOp {} (p.updateCheck c tiles)
    match u.2 with
    | .error f => u.1.complete q (failComp f false) env
    | .ok _ =>
      let x := u.1.moveTiles q a node p c es runs {} (p.order es runs tiles)
      match x.2.2 with
      | some f => x.1.complete q (p.comp es x.2.1 f.st f) env
      | none => x.1.complete q (p.comp es x.2.1 (if x.2.1.viol ≠ 0 then .rangeViolation else .ok) { st := .ok }) env

/-- The fence's row (R221): the operation starts, ends with the fenced entry's failure, or waits with what its checks settled. -/
def State.moveFenced (s : State) (q : Nat) (a : Active) (node : BitVec 32) (p : Plan) (env : Env) : State :=
  match s.fenceStatus (p.md.fenceQueue (queuePanel q)) (BitVec.ofNat 32 p.md.fence) with
  | some st =>
    if fencePasses st then s.movePlan q a node p env
    else s.complete q (failComp { st := (Status.ofCode st.toNat).getD .fieldReserved } false) env
  | none => s.updCur q fun x => { x with started := true, tds := a.tds, kept := some p.toMoveKept }

/-- The checks of Table 6.11 up to the fence's row; then the fence, or the rest. -/
def State.moveChecked (s : State) (q : Nat) (a : Active) (node : BitVec 32) (m : MD) (env : Env) : State :=
  let c := s.entryCtx q a.entry env
  let r := s.runOp {} (do
    let tds ← m.fetch c a.tds
    let p ← m.plan c a.entry.desc tds
    pure (tds, p))
  match r.2 with
  | .error f => r.1.complete q (failComp f false) env
  | .ok (tds, p) =>
    if m.allEmpty p.src p.dst p.idx then r.1.complete q {} env
    else if m.fq = 0 then r.1.movePlan q a node p env
    else r.1.moveFenced q { a with tds } node p env

/-- A mover runs its accepted MD of the command's KIND. -/
def State.move (s : State) (kind q : Nat) (node : BitVec 32) (env : Env) : State :=
  match s.fresh q with
  | none => s
  | some a =>
    let m := MD.ofBytes a.desc
    if q < 1536 ∨ 1728 ≤ q ∨ m.kind ≠ kind ∨ s.engineHeld q then s
    else
      let s := s.onDp (·.upsets env.upsets)
      let env := { env with upsets := [] }
      let bad (st : Status) (off : Nat) : State := s.complete q (failComp { st, addr := a.entry.desc, obj := 1, off } false) env
      match firstRow m.fieldRows with
      | some (st, off) => bad st off
      | none =>
        if m.count = 0 then s.complete q {} env
        else if m.count = 0xFFFFFFFF ∨ (m.kind = mdScatterAdd ∧ 2 ^ 24 - 1 < m.count) then bad .fieldReserved 16
        else if m.sr.toNat % 32 ≠ 0 then bad .align 56
        else s.moveChecked q a node m env

def execCopy (queue : QueueId) (env : Env) (s : State) : Out := .next (s.move mdCopy queue 0 env)
def execCopyT2 (queue : QueueId) (node : BitVec 32) (env : Env) (s : State) : Out := .next (s.move mdT2 queue node env)
def execConvert (queue : QueueId) (node : BitVec 32) (env : Env) (s : State) : Out := .next (s.move mdConvert queue node env)
def execGather (queue : QueueId) (env : Env) (s : State) : Out := .next (s.move mdGather queue 0 env)
def execScatter (queue : QueueId) (env : Env) (s : State) : Out := .next (s.move mdScatter queue 0 env)
def execScatterAdd (queue : QueueId) (node : BitVec 32) (env : Env) (s : State) : Out := .next (s.move mdScatterAdd queue node env)
def execFill (queue : QueueId) (env : Env) (s : State) : Out := .next (s.move mdFill queue 0 env)

/-- The fence that an MD awaits has completed: the MD goes on, or ends with that entry's failure (R221). -/
def State.moverRelease (s : State) (q : Nat) (node : BitVec 32) (env : Env) : State :=
  match (s.eq q).cur.bind fun a => a.kept.map (a, ·) with
  | none => s
  | some (a, k) =>
    if q < 1536 ∨ 1728 ≤ q ∨ s.engineHeld q then s
    else s.around env fun s env => s.moveFenced q a node ((MD.ofBytes a.desc).planWith a.tds k) env

def execMoverFenceRelease (queue : QueueId) (node : BitVec 32) (env : Env) (s : State) : Out :=
  .next (s.moverRelease queue node env)

end Sys2Proof.Machine
end

