-- ==== Sys2Proof/Machine/Engines.lean ====
section
/-! DEFINITION. Engines as the resets and the smudges see them: their descriptors, how an operation in flight ends, what a reset clears, the sample (04 R160, R161; 05 R182; 12 R423 to R428). -/
namespace Sys2Proof.Machine

/-! ### The array descriptor (Table 4.3) -/

structure AD where
  kind    : Nat
  mode    : Nat
  splitA  : Nat
  splitB  : Nat
  profile : Nat
  lin     : Nat
  lout    : Nat
  stats   : Nat
  input   : Addr
  weight  : Addr
  output  : Addr
  anchor  : Addr
  spill   : Nat
  statsBase : Addr
  k0      : Nat
  kn      : Nat
  before  : Nat
  row0    : Nat
  col0    : Nat
  cols    : Nat
  rows    : Nat
  rank    : Nat
  resv    : List Byte
  chans   : Nat
  /-- Axis bytes KERNEL, STRIDE, DILATION, PAD_LO, PAD_HI and the reserved three. -/
  axes    : List (List Nat)

def AD.ofBytes (l : List Byte) : AD :=
  { kind := fld l 0 1, mode := fld l 1 1, splitA := fld l 2 1, splitB := fld l 3 1, profile := fld l 4 1, lin := fld l 5 1
    lout := fld l 6 1, stats := fld l 7 1, input := BitVec.ofNat 64 (fld l 8 8), weight := BitVec.ofNat 64 (fld l 16 8)
    output := BitVec.ofNat 64 (fld l 24 8), anchor := BitVec.ofNat 64 (fld l 32 8), spill := fld l 40 8
    statsBase := BitVec.ofNat 64 (fld l 48 8), k0 := fld l 64 4, kn := fld l 68 4, before := fld l 72 4, row0 := fld l 76 4
    col0 := fld l 80 4, cols := fld l 84 4, rows := fld l 88 1, rank := fld l 89 1, resv := slice l 90 2, chans := fld l 92 4
    axes := (List.range 4).map fun a => (List.range 5).map (fun i => fld l (96 + 8 * a + i) 1) ++ [fld l (101 + 8 * a) 3] }

def AD.kernel (a : AD) (i : Nat) : Nat := nth (a.axes.getD i []) 0
def AD.stride (a : AD) (i : Nat) : Nat := nth (a.axes.getD i []) 1
def AD.dilation (a : AD) (i : Nat) : Nat := nth (a.axes.getD i []) 2
def AD.padLo (a : AD) (i : Nat) : Nat := nth (a.axes.getD i []) 3
def AD.padHi (a : AD) (i : Nat) : Nat := nth (a.axes.getD i []) 4

/-- The operation saves its LACCs; it converts or writes wire values. -/
def AD.saves (a : AD) : Bool := a.lout == 2 || a.lout == 3
def AD.usesSpill (a : AD) : Bool := a.lin ≠ 0 || a.saves
def AD.spillLp (a : AD) : Bool := a.lin == 2 || a.lout == 3
def AD.spillScratch (a : AD) : Bool := a.lin == 1 || a.lout == 2

/-! ### Completion (R160) -/

def State.array (s : State) (i : Nat) : Option ArrayRun := Sparse.get none s.arrays i
def State.setArray (s : State) (i : Nat) (r : Option ArrayRun) : State := { s with arrays := Sparse.set none s.arrays i r }

def arrayComp (a : AD) (r : ArrayRun) (f : Fail) : Comp :=
  let st := if f.st = .ok ∧ r.viol ≠ 0 then .rangeViolation else f.st
  { st, fault := if f.st = .ok then { st := .ok } else f, range := r.viol ≠ 0, viol := r.viol
    round := if a.lout ≠ 0 ∨ a.mode = 5 then 0 else if r.sr.isSome then 2 else 1
    clipped := f.st == .ok && (r.clipRows ≠ 0 || r.clipK ≠ 0 || r.clipCols ≠ 0)
    partOut := f.st ≠ .ok && (r.wrote || f.wrote)
    tail := le 6 r.retired ++ le 6 r.front ++ le 6 r.back ++ le 2 r.clipRows ++ le 4 r.clipK ++ le 4 r.clipCols }

/-- The operation of easel `i` ends. -/
def State.endArray (s : State) (i : Nat) (f : Fail) (env : Env) : State :=
  match (s.eq i).cur with
  | none => s.setArray i none
  | some x =>
    let c := match s.array i with
      | some r => arrayComp (AD.ofBytes x.desc) r f
      | none => failComp f false
    (s.setArray i none).complete i c env

/-! ### The trellis descriptor (Table 5.7) -/

structure TrD where
  kind : Nat
  slot : Nat
  rows : Nat
  len  : Nat
  fence : Nat
  ins  : List Addr
  outs : List Addr
  adapt : Addr
  l    : List Int
  row0 : Nat
  ik   : List Nat
  ok   : List Nat
  source : Addr
  resv : List Byte
  /-- Everything but KIND, SLOT, COMPLETION and SOURCE. -/
  rest : List Byte

def TrD.ofBytes (l : List Byte) : TrD :=
  { kind := fld l 0 1, slot := fld l 1 1, rows := fld l 4 4, len := fld l 8 4, fence := fld l 12 4
    ins := (List.range 4).map fun i => BitVec.ofNat 64 (fld l (16 + 8 * i) 8)
    outs := (List.range 2).map fun i => BitVec.ofNat 64 (fld l (48 + 8 * i) 8)
    adapt := BitVec.ofNat 64 (fld l 64 8), l := [sext 16 (fld l 72 2), sext 16 (fld l 74 2)], row0 := fld l 76 4
    ik := (List.range 4).map fun i => fld l (88 + i) 1, ok := (List.range 2).map fun i => fld l (92 + i) 1
    source := BitVec.ofNat 64 (fld l 96 8), resv := slice l 2 2 ++ slice l 94 2 ++ slice l 104 24
    rest := slice l 2 78 ++ slice l 88 8 ++ slice l 104 24 }

def TrD.outGiven (d : TrD) (i : Nat) : Bool := d.outs.getD i 0 ≠ 0

def State.trellis (s : State) (i : Nat) : Trellis := Sparse.get {} s.trellises i
def State.updTrellis (s : State) (i : Nat) (f : Trellis → Trellis) : State :=
  { s with trellises := Sparse.upd {} s.trellises i f }

/-! ### Ending a run (05 R182) -/

def trellisComp (d : TrD) (tds : List TD) (r : TrellisRun) (f : Fail) : Comp :=
  let outs := (List.range 2).filter d.outGiven
  { st := if f.st = .ok ∧ r.viol ≠ 0 then .rangeViolation else f.st
    fault := if f.st = .ok then { st := .ok } else f, range := r.viol ≠ 0, viol := r.viol
    round := if outs.isEmpty then 0 else if outs.any fun i => (tds.getD (4 + i) default).gradient then 2 else 1
    clipped := f.st == .ok && r.clipRows ≠ 0
    partOut := f.st ≠ .ok && (f.wrote || (outs.any fun i => if nth d.ok i = 0 then r.row ≠ 0 || r.sweep ≠ 0 else decide (32 ≤ r.row))
      || (d.adapt ≠ 0 && r.row ≠ 0))
    tail := le 8 r.sweeps ++ le 2 r.switch ++ le 2 0 ++ le 4 r.clipRows ++ le 8 (r.clipRows * d.len) }

/-- The run of easel `i` ends. -/
def State.endTrellis (s : State) (i : Nat) (f : Fail) (env : Env) : State :=
  let q := 768 + i
  match (s.eq q).cur with
  | none => s.updTrellis i fun t => { t with run := none, fenced := none }
  | some x =>
    let c := match (s.trellis i).run with
      | some r => trellisComp (TrD.ofBytes x.desc) x.tds r f
      | none => failComp f false
    (s.updTrellis i fun t => { t with run := none, fenced := none, adapters := [] }).complete q c env


/-! ### Split operands (02 R70 to R74) -/

/-- The signed value ±n × 2^e. -/
def signed (neg : Bool) (n : Nat) (e : Int) : Num := .fin (if neg then -(n : Int) else n) e

/-- The pieces of a split block, high to low (02 R70 to R74). -/
def splitPieces (split t byte : Nat) (codes : List Nat) : List (List Num) :=
  let vals := codes.map (elemValue t)
  if byte = 0xFF ∨ vals.any (fun v => !v.isFin) then List.replicate split (vals.map fun _ => .nan)
  else
    let e : Int := max ((byte : Int) - 127) (if split = 2 then -120 else -113)
    let low : Int := if split = 2 then e - 13 else e - 20
    let ns : List (Bool × Nat) := vals.map fun v => match v with
      | .fin m x => (decide (m < 0), min (floorAt m.natAbs x low).toNat (if split = 2 then 2 ^ 14 - 1 else 2 ^ 21 - 1))
      | _ => (false, 0)
    if split = 2 then [ns.map fun n => signed n.1 (n.2 / 2 ^ 7) (e - 6), ns.map fun n => signed n.1 (n.2 % 2 ^ 7) (e - 13)]
    else [ns.map fun n => signed n.1 (n.2 / 2 ^ 14) (e - 6), ns.map fun n => signed n.1 (n.2 / 2 ^ 7 % 2 ^ 7) (e - 13),
          ns.map fun n => signed n.1 (n.2 % 2 ^ 7) (e - 20)]

/-- A piece element of the input stage as an MX-INT8 code, from its value k × 2^e. -/
def pieceByte (x : Num) : Byte := match x with | .fin m _ => BitVec.ofInt 8 m | _ => 0

/-! ### Communication queues as the resets and the smudges see them (09; 10 R365 to R367) -/

def State.cq (s : State) (q : Nat) : Cq := Sparse.get {} s.cqs q
def State.updCq (s : State) (q : Nat) (f : Cq → Cq) : State := { s with cqs := Sparse.upd {} s.cqs q f }
def State.updColl (s : State) (q : Nat) (f : Coll → Coll) : State := s.updCq q fun c => { c with cur := c.cur.map f }

def Cq.part (c : Cq) : Option Nat := c.group.map (·.part)

def State.cqKey (s : State) (q idx : Nat) : Nat :=
  match resolve s.dp.coord (BitVec.ofNat 64 ((s.cq q).base.toNat * 32 + 32 * idx)) with
  | some (.here _ off) => off
  | _ => 0

def State.writeCqAt (s : State) (q idx off : Nat) (v : List Byte) : State :=
  (s.runOp {} (writeKey (s.ctx {} .ovind) 2 (s.cqKey q idx + off) v)).1

def State.cqCtx (s : State) (q : Nat) (e : QEntry) (env : Env) : Ctx :=
  match (s.cq q).part with
  | some k => { s.ctx env (.engine (asPart k)) (some e.tag) e.attempt with seed := (s.job k).seed }
  | none => s.ctx env .ovind (some e.tag) e.attempt

/-! ### Groups: members, ranks, schedule neighbours (R309 to R311, R315, R327) -/

/-- COUNT of axis `a` (0 S, 1 H, 2 P, 3 D); an unmasked axis counts 1. -/
def Group.count (g : Group) (a : Nat) : Nat := match g.axes.getD a none with | some x => x.2.1 | none => 1
def Group.size (g : Group) : Nat := g.count 0 * g.count 1 * g.count 2 * g.count 3

/-- Position of a rank along an axis (R310). -/
def Group.pos (g : Group) (r a : Nat) : Nat :=
  r / (((List.range a).map g.count).foldl (· * ·) 1) % g.count a

/-- The rank at the same positions but `p` along axis `a`. -/
def Group.withPos (g : Group) (r a p : Nat) : Nat :=
  let w := ((List.range a).map g.count).foldl (· * ·) 1
  r - g.pos r a * w + p * w

def Coord.axis (c : Coord) (a : Nat) : Nat :=
  if a = 0 then c.slot.toNat else if a = 1 then c.hedge.toNat else if a = 2 then c.pod.toNat else c.site.toNat

/-- Coordinate of a rank along an axis. -/
def Group.along (g : Group) (r a : Nat) : Nat :=
  match g.axes.getD a none with
  | some x => x.1 + g.pos r a * x.2.2
  | none => Coord.axis g.own a

def Group.coord (g : Group) (r : Nat) : Coord :=
  { slot := BitVec.ofNat 4 (g.along r 0), hedge := BitVec.ofNat 6 (g.along r 1), pod := BitVec.ofNat 4 (g.along r 2)
    site := BitVec.ofNat 3 (g.along r 3) }

/-- Position of a coordinate along a masked axis. -/
def axisPos (x : Nat × Nat × Nat) (v : Nat) : Option Nat :=
  if x.1 ≤ v ∧ (v - x.1) % x.2.2 = 0 ∧ (v - x.1) / x.2.2 < x.2.1 then some ((v - x.1) / x.2.2) else none

/-- The rank of a coordinate, when it names a member. -/
def Group.rankOf (g : Group) (c : Coord) : Option Nat := do
  let p ← (List.range 4).mapM fun a => match g.axes.getD a none with
    | some x => axisPos x (Coord.axis c a)
    | none => if Coord.axis c a = Coord.axis g.own a then some 0 else none
  pure (((p.getD 3 0 * g.count 2 + p.getD 2 0) * g.count 1 + p.getD 1 0) * g.count 0 + p.getD 0 0)

def Group.rank (g : Group) : Nat := (g.rankOf g.own).getD 0

/-- Masked axes in the order S, H, P, D. -/
def Group.masked (g : Group) : List Nat := (List.range 4).filter fun a => (g.axes.getD a none).isSome

/-- Other members of a rank's line along an axis. -/
def Group.line (g : Group) (r a : Nat) : List Nat :=
  ((List.range (g.count a)).map (g.withPos r a)).filter (· ≠ r)

/-- Schedule neighbours (R327). -/
def Group.neighbours (g : Group) (r : Nat) : List Nat := (List.range 4).flatMap (g.line r)

/-- Slots of 4 KiB that each neighbour receives (R315). -/
def Group.slots (g : Group) : Nat := let n := (g.neighbours g.rank).length; if n = 0 then 0 else g.bytes / 4096 / n

/-- Slot credits at group creation (R318). -/
def Group.credits (g : Group) : List (Nat × Nat) :=
  (g.neighbours g.rank).foldl (fun m r => Sparse.set 0 m r g.slots) []

/-- The collective completion fields (Table 9.10). -/
def Coll.tail (c : Coll) : List Byte :=
  let k := c.a.desc.headD 0
  let n (i : Nat) : List Byte := le 4 (c.counts.getD i 0)
  if k = 0x68 then n 0 ++ n 1 ++ n 2 ++ n 3 ++ n 4 ++ le 4 c.resent
  else if k = 0x69 then n 0 ++ n 1 ++ le 4 c.resent ++ le 4 c.stale
  else le 8 c.sent ++ le 8 c.received ++ le 4 c.resent ++ le 4 c.stale

def Coll.comp (c : Coll) (f : Fail) (round : Nat) : Comp :=
  { st := if f.st = .ok ∧ c.a.viol ≠ 0 then .rangeViolation else f.st
    fault := if f.st = .ok then { st := .ok } else f, range := c.a.viol ≠ 0, viol := c.a.viol
    round := if f.st = .ok ∨ c.a.wrote then round else 0
    partOut := f.st ≠ .ok && c.a.wrote, tail := c.tail }

/-- The round field: a conversion ran by SR or nearest even. -/
def Coll.round (c : Coll) : Nat :=
  let d := c.a.tds.getD 1 default
  if d.cls = 0 ∨ isWire d.type ∨ isInt32 d.type ∨ c.anchors.isEmpty then 0 else if d.gradient then 2 else 1

/-- A completed entry leaves the queue: CQ_STATUS, its epoch's counts. -/
def State.cqDone (s : State) (q : Nat) (c : Coll) (st : Status) : State :=
  let bad := !(st == .ok || st == .rangeViolation)
  let ep := s.epochOf (s.cq q).part c.a.entry
  let s := s.updCq q fun y => { y with
    cur := none
    lastFault := if bad then st.toCode else y.lastFault
    fFault := if bad then y.fFault.hwSet else y.fFault }
  let pre := fld c.a.desc 0 1 == 0x67 && st == .ok
  let s := match ep with
    | some (k, e) => if pre then s.onDp fun d => d.updWet k fun w => w.updInf e fun i => { i with census := i.census - 1 } else s
    | none => s
  (s.noteEpoch ep c.a.entry st).settleRegions

/-- The ring index of an accepted entry. -/
def Cq.indexOf (c : Cq) (seq : BitVec 32) : Nat :=
  match c.accepted.find? fun a => a.1 == seq with
  | some a => a.2.1
  | none => 0

/-- A queue's operation completes: the record, the entry, FAULT (R347, CQ_STATUS). -/
def State.cqComplete (s : State) (q : Nat) (f : Fail) (env : Env) : State :=
  match (s.cq q).cur with
  | none => s
  | some c =>
    let x := s.cqCtx q c.a.entry env
    let co := c.comp f c.round
    let b := co.bytes c.a
    let r := s.runOp {} (do writeAt x (c.a.comp + 4) (b.drop 4); writeAt x c.a.comp (b.take 4))
    let st := match r.2 with | .ok _ => co.st | .error e => e.st
    (r.1.writeCqAt q ((s.cq q).indexOf c.a.seq) 12 (le 2 qDone ++ le 2 st.toCode.toNat)).cqDone q c st

/-- Queues of partition `k`. -/
def State.cqsOf (s : State) (k : Nat) : List Nat := (s.cqs.filter fun c => c.2.part == some k).map (·.1)

def inMask (base mask e : BitVec 8) : Bool := decide ((e - base).toNat < 8) && bitOf mask.toNat (e - base).toNat

/-- Sequence numbers compare by the shorter way around their wrap (06 R220, 09 R316). -/
def qseqBefore (a b : BitVec 32) : Bool := a != b && decide ((b - a).toNat < 2 ^ 31)

/-- Operations of discarded epochs end with ST_SMUDGED at an ORDER (R365). -/
def State.cqEnd (s : State) (k : Nat) (base mask : BitVec 8) (env : Env) : State :=
  (s.cqsOf k).foldl (fun s q => match (s.cq q).cur with
    | some c => if inMask base mask c.a.entry.tag.epoch then s.cqComplete q { st := .smudged } env else s
    | none => s) s

/-- Epochs whose accepted entries stand behind entries of the epochs of `mask` join (R366). -/
def State.cqBehind (s : State) (k : Nat) (base mask : BitVec 8) : BitVec 8 :=
  (s.cqsOf k).foldl (fun m q =>
    let l := (s.cq q).accepted
    let hit := l.filter fun a => inMask base m a.2.2.tag.epoch
    l.foldl (fun m a =>
      let off := (a.2.2.tag.epoch - base).toNat
      if off < 8 ∧ (hit.any fun h => qseqBefore h.1 a.1) then m ||| BitVec.ofNat 8 (2 ^ off) else m) m) mask

/-- Entries of the discarded epochs return to POSTED under the new attempt and run again in QSEQ order (R367). -/
def State.cqReplay (s : State) (k : Nat) (base mask : BitVec 8) (reset : Bool) : State :=
  (s.cqsOf k).foldl (fun s q =>
    let hit := (s.cq q).accepted.filter fun a => inMask base mask a.2.2.tag.epoch
    let att (e : QEntry) : BitVec 8 := ((s.dp.wetPart k).ent e.tag.epoch.toNat).attempt
    let s := hit.foldl (fun s a => s.writeCqAt q a.2.1 0 (entryBytes { a.2.2 with attempt := att a.2.2 } a.1 qPosted 0)) s
    let s := hit.foldl (fun s a => s.onDp fun d => d.updWet k fun w =>
      w.updInf a.2.2.tag.epoch.toNat fun i => { i with running := i.running + 1 }) s
    s.updCq q fun c => { c with
      cur := match c.cur with | some x => if inMask base mask x.a.entry.tag.epoch then none else some x | none => none
      resends := if reset then [] else c.resends
      deferred := if reset then c.deferred.filter fun p => !inMask base mask (BitVec.ofNat 8 (fld p.data 21 1)) else c.deferred
      credits := if reset then (match c.group with | some g => g.credits | none => []) else c.credits
      replay := sortWith (fun a b => !qseqBefore b.1 a.1) (hit.map fun a => (a.1, a.2.1))
      accepted := c.accepted.filter fun a => !inMask base mask a.2.2.tag.epoch
      posted := hit.foldl (fun p a => Sparse.set none p a.2.1 (some { a.2.2 with attempt := att a.2.2 })) c.posted }) s

/-- A partition reset: registers at their reset values, RING and CTRL restored from the group table, the next QSEQ the lowest
held by an entry of a discarded epoch, credits as at group creation (12 R425). -/
def State.cqReset (s : State) (k : Nat) : State :=
  (s.cqsOf k).foldl (fun s q => s.updCq q fun c =>
    let wet := c.accepted.filter fun a => ((s.dp.wetPart k).ent a.2.2.tag.epoch.toNat).state = .smudged
    { c with
      lastFault := 0, fPressure := {}, fOrder := {}, fFault := {}, stale := 0, cur := none, deferred := [], resends := []
      last := match sortWith (fun a b => !qseqBefore b a) (wet.map (·.1)) with | x :: _ => x - 1 | [] => c.last
      credits := match c.group with | some g => g.credits | none => [] }) s

/-! ### What a reset ends and clears (12 Table 12.3) -/

/-- Every collective in flight on the partition's queues ends. -/
def State.cqEndAll (s : State) (k : Nat) (st : Status) (env : Env) : State :=
  (s.cqsOf k).foldl (fun s q => s.cqComplete q { st } env) s

/-- Queues are held until the partition applies FINAL (12 R423 step 5). -/
def State.holdQueues (s : State) (qs : List Nat) : State :=
  { s with wdg := { s.wdg with held := qs.foldl (fun h q => Sparse.set false h q true) s.wdg.held } }

/-- A partition's queues are held no more. -/
def State.releaseHeld (s : State) (k : Nat) : State :=
  { s with wdg := { s.wdg with held := s.wdg.held.filter fun h =>
    (if h.1 < 1744 then s.queuePart h.1 else (s.cq (h.1 - 1744)).part) != some k } }

/-- End the entry a queue has accepted with a status at its next boundary. -/
def State.endEngine (s : State) (q : Nat) (st : Status) (env : Env) : State :=
  if q < 768 then s.endArray q { st } env
  else if q < 1536 then s.endTrellis (q - 768) { st } env
  else match (s.eq q).cur with
    | some a => s.complete q (failComp { st } a.wrote) env
    | none => s

/-- What an engine reset leaves in the slots: of each image that was resident, the copy that the partition's graph image holds
under its IMAGE_ID, which Ovind reloads; a slot with none is empty (05 R177). -/
def State.reloaded (s : State) (i : Nat) (images : List (Nat × List Byte)) : List (Nat × List Byte) :=
  let held : List (List Byte) := match s.queuePart (768 + i) with
    | some k => match (s.job k).graph with | some g => g.trellis | none => []
    | none => []
  images.filterMap fun x => (held.find? fun l => fld l 12 4 == fld x.2 12 4).map fun l => (x.1, l)

/-- A context reset clears array and cell registers; an engine reset also zeroes the scratch and empties the image slots, which
Ovind reloads (R424). The next run takes the switch (05 R176). -/
def State.clearEasel (s : State) (i : Nat) (engine : Bool) : State :=
  let s := (s.setArray i none).updTrellis i fun t => { images := if engine then s.reloaded i t.images else t.images }
  if engine then
    (s.onDp fun d => { d with mem := { d.mem with bytes := d.mem.bytes.filter fun e =>
      !(scratchBase + i * 2 ^ 21 ≤ e.1 && e.1 < scratchBase + (i + 1) * 2 ^ 21) } }).updPct i fun _ => {}
  else s

/-- A queue's registers reset and restored: BASE, ENABLE and SIZE stand, the ring's posted entries are free again. -/
def State.resetQueue (s : State) (q : Nat) : State :=
  let idx := ((s.eq q).posted.map (·.1))
  let s := idx.foldl (fun s i => s.writeRing q i (List.replicate 32 0)) s
  s.updEq q fun e => { base := e.base, enable := e.enable, sizeLog2 := e.sizeLog2, inScratch := e.inScratch }

/-- A padding block: +0 with scale byte 0x7F (04 R146). -/
def padBlock : Nat × List Nat := (0x7F, List.replicate 32 0)

/-- The input stage's row 0 as bytes (04 Table 4.2). -/
def State.stageRow (s : State) (i : Nat) : List Byte :=
  match s.array i, (s.eq i).cur with
  | some r, some x =>
    let a := AD.ofBytes x.desc
    let t := (x.tds.getD 0 default).type
    let row := (r.stage.getD 0 []).map (·.getD padBlock)
    if a.splitA = 0 then row.flatMap fun b => pack t b.2
    else
      let hi := (row.flatMap fun b => (splitPieces a.splitA t b.1 b.2).headD []).map pieceByte
      let mid := (row.flatMap fun b => (splitPieces a.splitA t b.1 b.2).getD 1 []).map pieceByte
      overlay (overlay (List.replicate 4096 0) 0 hi) (if a.splitA = 2 then 4096 else 2720) mid
  | _, _ => []

def accBytes (a : Acc) : List Byte := le 32 (a.encode 256)

/-- Section `n` of an easel's sample (12 Table 12.4): entries and descriptors, INPUT, SCRATCH, LACC, CELLS, ADAPTERS, IMAGES. -/
def State.sampleSection (s : State) (i n : Nat) : List Byte :=
  let entry (q : Nat) : List Byte := match (s.eq q).cur with
    | some a => entryBytes a.entry a.seq qAccepted 0 ++ (a.desc ++ List.replicate 128 0).take 128
    | none => List.replicate 160 0
  let t := s.trellis i
  match n with
  | 0 => entry i ++ entry (768 + i)
  | 1 => (s.stageRow i).take 4096
  | 2 => s.dp.mem.peek (scratchKey i 0) 4096
  | 3 => match s.array i with
    | some r => r.lacc.flatMap fun x => accBytes (x.getD (.fin 0))
    | none => []
  | 4 => (t.cells.map fun v => (v ++ List.replicate 16 0).take 16).flatten.flatMap fun v => le 4 v
  | 5 => t.adapters.flatMap fun a => accBytes a.1 ++ accBytes a.2
  | _ => (List.range 8).flatMap fun k => (Sparse.get [] t.images k ++ List.replicate 64 0).take 64

/-- Ovind posts a varnish entry once more (11 R393, R395): its ring entry returns to POSTED. -/
def State.reissueVarnish (s : State) (q : Nat) : State :=
  match (s.eq q).posted.find? fun p => p.1 == ((s.eq q).head.toNat + (s.eq q).entries - 1) % (s.eq q).entries with
  | some (idx, some e) =>
    let h := (s.eq q).head.toNat
    let s := s.writeRing q h (entryBytes e 0 qPosted 0)
    let s := s.updEq q fun x => { x with posted := Sparse.set none (Sparse.set none x.posted idx none) h (some e) }
    s.updJob e.part fun j => { j with varOpen := j.varOpen ++ [(q - 1728, e)] }
  | _ => s

end Sys2Proof.Machine
end

