-- ==== Sys2Proof/Machine/Guards.lean ====
section
/-! DEFINITION. Anchors: their sources, SEED and carried tables, the layer guard (03 R92 to R121, 04 R140). -/
namespace Sys2Proof.Machine

/-! ### Top exponents -/

/-- Row and column of an operand type in Table 3.3; split operands use MX-INT8's. -/
def pmaxIndex (t : Nat) : Nat := if 1 ≤ t ∧ t ≤ 6 then t - 1 else 5

/-- Table 3.3. -/
def pmaxTable : List (List Nat) :=
  [[18, 25, 14, 12, 12, 10], [25, 32, 21, 19, 19, 17], [14, 21, 10, 8, 8, 6],
   [12, 19, 8, 6, 6, 4], [12, 19, 8, 6, 6, 4], [10, 17, 6, 4, 4, 3]]

def pmaxOf (fa fb : Nat) : Nat := (pmaxTable.getD (pmaxIndex fa) []).getD (pmaxIndex fb) 0

/-- P_e of a format (04 Table 4.9). -/
def peOf (t : Nat) : Int := match t with | 1 => 9 | 2 => 16 | 3 => 5 | 4 => 3 | 5 => 3 | _ => 2

/-- E_top of a node by its mode: R93, 04 Table 4.9, 09 R343 for an EXPERT_COMBINE (mode 6). -/
def modeEtop (mode fa fb : Nat) (ma mb : Int) : Int :=
  if mode = 0 then ma + mb + pmaxOf fa fb
  else if mode = 6 then ma + mb + (if isWide fb then 1 else peOf fb) + 1
  else
    let m := max (ma + peOf fa) (mb + peOf fb)
    if mode = 2 then 2 * (m + 1) else m + 1

/-- `m` of an operand from a scale byte, or −127 where its record has NONE set (R94). -/
def mOf (o : NodeOperand) (none : Bool) (byte : Nat) : Int :=
  let m : Int := if none then -127 else (byte : Int) - 127
  if o.split = 2 then max m (-120) else if o.split = 3 then max m (-113) else m

def censusM (o : NodeOperand) (r : Census) : Int := mOf o (bitOf r.flags 5) r.maxS

def nodeEtop (n : GraphNode) (ma mb : Int) : Int := modeEtop n.mode.toNat n.a.type.toNat n.b.type.toNat ma mb

/-- W of a wire code (Table 3.1). -/
def wireW (wire : Nat) : Int := if wire = 1 then 63 else if wire = 2 then 95 else 127

/-- L of the reducible profile (R96). -/
def anchorL (etop : Int) (ktotal h wire : Nat) : Int := etop + clog2 ktotal + 1 + 8 + h - wireW wire

/-- L of a node's table; a MATCH-COUNT node's is 0 (04 R139). -/
def nodeAnchor (n : GraphNode) (etop : Int) (h wire : Nat) : Int := if n.mode = 5 then 0 else anchorL etop n.ktotal.toNat h wire

/-! ### Tables -/

/-- PMAX of a node's table: 0 for a mode other than MULADD (04 R140). -/
def nodePmax (n : GraphNode) : Nat := if n.mode = 0 then pmaxOf n.a.type.toNat n.b.type.toNat else 0

/-- The bytes of an anchor table (Table 3.6): NODE_PROFILE is the node's own. -/
def tableBytes (n : GraphNode) (step : BitVec 32) (wire h source level : Nat) (etop : Int) (entries : List Int) : List Byte :=
  let k := entries.length
  let head := le 4 n.tensorId.toNat ++ le 4 step.toNat ++ le 4 k ++ le 4 n.ktotal.toNat ++ le 1 (if n.reducible then 2 else 1)
    ++ le 1 wire ++ le 1 h ++ le 1 source ++ le 1 (nodePmax n)
    ++ le 1 level ++ le 2 (code 16 etop)
  let tail := entries.flatMap (fun l => le 2 (code 16 l)) ++ List.replicate (tableSize k - 32 - 2 * k) 0
  head ++ le 4 (crc32c (head ++ tail)).toNat ++ le 4 0 ++ tail

/-- The same L in every entry. -/
def uniform (n : GraphNode) (l : Int) : List Int := List.replicate n.entries.toNat l

/-- REDUCED is set and the record is of the step. -/
def Census.reducedAt (c : Census) (step : BitVec 32) : Bool := bitOf c.flags 4 && c.step == step

/-- The record states the group-wide values of a step: reduced, or of a tensor that is not distributed (R112). -/
def Census.wholeAt (c : Census) (distributed : Bool) (step : BitVec 32) : Bool :=
  c.step == step && (!distributed || bitOf c.flags 4)

/-- The next step's table of one reducible node, when both records are reduced (R101, R102). -/
def carryTable (c : Ctx) (n : GraphNode) (step : BitVec 32) : Op (Option StepAnchor) := do
  let a ← takeCensus c n.a.census
  let b ← takeCensus c n.b.census
  if a.wholeAt n.a.distributed step && b.wholeAt n.b.distributed step then
    let etop := nodeEtop n (censusM n.a a) (censusM n.b b)
    let l := nodeAnchor n etop 0 n.wire.toNat
    writeAt c n.table (tableBytes n (step + 1) n.wire.toNat 0 2 0 etop (uniform n l))
    pure (some { tensorId := n.tensorId, etop, l, wire := n.wire, pmax := BitVec.ofNat 8 (nodePmax n) })
  else pure none

/-- The tables of all reducible nodes; a record that cannot be read leaves its node without a table. -/
def carryTables (c : Ctx) (step : BitVec 32) : List GraphNode → Op (List StepAnchor)
  | [] => pure []
  | n :: r => do
    let x ← if n.reducible then tryCatch (carryTable c n step) (fun _ => pure none) else pure none
    let rest ← carryTables c step r
    pure (match x with | some y => y :: rest | none => rest)

/-- Epochs of a step (10 R348). -/
def State.epochsPerStep (s : State) (k : Nat) : Nat := match (s.job k).graph with | some g => max g.epochs 1 | none => 1

/-- The record of a step, discarded or not. -/
def Job.recOf (j : Job) (step : Nat) : Option StepRec := j.records.find? fun r => r.step.toNat == step

/-- L of every entry and ETOP of a reducible node's table of a step at level 0: the SEED table of the image for step 0, the
step log's anchor for another (R102). -/
def Job.anchorOf (j : Job) (n : GraphNode) (step : Nat) : Option (List Int × Int) :=
  if step = 0 then n.seed.map fun l => let t := AnchorTable.ofBytes n.table l; (t.entry, t.etop)
  else
    let l := match j.recOf step with | some r => r.anchors | none => j.anchors
    (l.find? fun a => a.tensorId == n.tensorId).map fun a => (uniform n a.l, a.etop)

/-! ### Range levels -/

/-- The level a range violation raises to: the W96 reducible node goes from 1 to 3 (Table 3.10). -/
def nextLevel (n : GraphNode) (level : Nat) : Nat := if n.reducible ∧ n.wire = 2 ∧ level = 1 then 3 else level + 1

/-- Wire code and headroom at a level (Table 3.10). -/
def levelWire (n : GraphNode) (level : Nat) : Nat × Nat :=
  if n.reducible ∧ n.wire = 2 then (if level = 0 then (2, 0) else (3, 32))
  else if level = 0 then (n.wire.toNat, 0)
  else if level = 1 then (2, 32)
  else (3, 64)

/-! ### Sources of a local node (R98, R99) -/

/-- m of an operand of a local node from its source; `none`: its record does not hold the group-wide values yet. A CURRENT
record of another step fails with ST_FIELD_RESERVED. -/
def Job.operandM (j : Job) (c : Ctx) (o : NodeOperand) (step : BitVec 32) : Op (Option Int) :=
  match o.source with
  | .declared b => pure (some (mOf o false b.toNat))
  | .dry => do
    let r ← match Sparse.get [] j.dryCensus o.census.toNat with
      | [] => takeCensus c o.census
      | l => pure (Census.ofBytes l)
    pure (if o.distributed && !bitOf r.flags 4 then none else some (censusM o r))
  | _ => do
    let r ← takeCensus c o.census
    if r.step ≠ step then failOp .fieldReserved o.census 5 28
    pure (if r.wholeAt o.distributed step then some (censusM o r) else none)

/-- The refreshed m of an operand: its current record, pre-reduced (Table 3.10, level 3). -/
def refreshed (o : NodeOperand) (c : Ctx) (step : BitVec 32) : Op (Option Int) := do
  let r ← takeCensus c o.census
  pure (if r.wholeAt o.distributed step then some (censusM o r) else none)

/-- A tensor descriptor that cannot be read is written again from its copy in the graph image, with the field that Ovind
maintains (02 R79). -/
def Job.mendTd (j : Job) (c : Ctx) (td : Addr) : Op Unit := do
  let ok ← tryCatch (do let _ ← readAt c td 128; pure true) (fun _ => pure false)
  if ok then pure ()
  else match ((j.graph.map (·.tds)).getD []).find? fun x => x.1 == td with
    | some x => writeAt c td (overlay ((x.2 ++ List.replicate 128 0).take 128) 65 [Sparse.get (BitVec.ofNat 8 (fld x.2 65 1)) j.scales td.toNat])
    | none => pure ()

/-- Ovind writes m + 127 into the descriptor of an operand (R99). -/
def Job.writeScale (j : Job) (c : Ctx) (o : NodeOperand) (m : Int) : Op Unit := do
  j.mendTd c o.td
  writeAt c (o.td + 65) (le 1 (m + 127).toNat)

/-- What a local node needs before it starts: true once both descriptors hold their fields. -/
def Job.startLocal (j : Job) (c : Ctx) (n : GraphNode) (step : BitVec 32) : Op (Option (Int × Int)) := do
  let a ← j.operandM c n.a step
  let b ← j.operandM c n.b step
  match a, b with
  | some ma, some mb =>
    j.writeScale c n.a ma
    j.writeScale c n.b mb
    pure (some (ma, mb))
  | _, _ => pure none

/-- The fields as Ovind keeps them. -/
def State.noteScales (s : State) (k : Nat) (n : GraphNode) (m : Int × Int) : State :=
  s.updJob k fun j =>
    let l := Sparse.set 0 j.scales n.a.td.toNat (BitVec.ofInt 8 (m.1 + 127))
    { j with scales := Sparse.set 0 l n.b.td.toNat (BitVec.ofInt 8 (m.2 + 127)) }

/-! ### Tables by level (R115, R118) -/

/-- ETOP and the entries of a node's table at a level: refreshed at level 3; a reducible node keeps its L at levels 1 and 2, of
a SEED table every entry its own (DEDUCED, log entry 95); a local node's come from its sources. `none`: not known yet. -/
def Job.levelAnchor (j : Job) (c : Ctx) (n : GraphNode) (step : Nat) (level : Nat) : Op (Option (List Int × Int)) := do
  let w := levelWire n level
  let from_ (a b : Option Int) : Option (List Int × Int) := match a, b with
    | some ma, some mb => let e := nodeEtop n ma mb; some (uniform n (nodeAnchor n e w.2 w.1), e)
    | _, _ => none
  if level = 3 then
    let a ← refreshed n.a c (BitVec.ofNat 32 step)
    let b ← refreshed n.b c (BitVec.ofNat 32 step)
    pure (from_ a b)
  else if n.reducible then pure (j.anchorOf n step)
  else
    let a ← j.operandM c n.a (BitVec.ofNat 32 step)
    let b ← j.operandM c n.b (BitVec.ofNat 32 step)
    pure (from_ a b)

/-- SOURCE of a table (Table 3.6). -/
def tableSource (step level : Nat) : Nat := if level = 3 then 4 else if 0 < level then 3 else if step = 0 then 1 else 2

/-- Write a node's table of a step at a level; a local node at level 0 has none. True when it stands. -/
def Job.putTable (j : Job) (c : Ctx) (n : GraphNode) (step level : Nat) : Op Bool := do
  if level = 0 ∧ !n.reducible then pure true
  else
    let w := levelWire n level
    match ← j.levelAnchor c n step level with
    | some (es, etop) =>
      writeAt c n.table (tableBytes n (BitVec.ofNat 32 step) w.1 w.2 (tableSource step level) level etop es)
      pure true
    | none => pure false

/-- The output descriptor of a format step is the one its operations name (R118). -/
def selectOut (n : GraphNode) (c : Ctx) (fmt : Nat) : Op Unit :=
  match n.formats[fmt]? with
  | some f => n.outRefs.forM fun a => writeAt c a (le 8 f.2.toNat)
  | none => pure ()

/-- Tables and output descriptors of nodes of a step, at the levels and steps the guards hold. -/
def State.restoreTables (s : State) (k step : Nat) (p : GraphNode → Bool) : State :=
  (s.job k).nodes.foldl (fun s n =>
    if p n then
      let g := s.guard k (BitVec.ofNat 32 step) n.node
      (s.runOp {} (tryCatch (do
        let _ ← (s.job k).putTable (s.ctx {} .ovind) n step g.level
        selectOut n (s.ctx {} .ovind) g.fmt) fun _ => pure ())).1
    else s) s

/-! ### Completion of a step (R101, R102) -/

/-- A step completes: the carried tables of the next, from the step log where it holds them. -/
def State.stepCompletion (s : State) (k : Nat) (step : BitVec 64) (env : Env) : State :=
  if !(s.job k).used then s
  else
    let next := step.toNat + 1
    let s := match (s.job k).recOf next with
      | some r => (s.updJob k fun j => { j with anchors := r.anchors }).restoreTables k next fun n => n.reducible
      | none =>
        let r := s.runOp env (carryTables (s.ctx env .ovind) (step.setWidth 32) (s.job k).nodes)
        r.1.updJob k fun j => { j with anchors := match r.2 with | .ok l => l | .error _ => [] }
    s.updJob k fun j => { j with step := step + 1 }

def execStepCompletion (part : Part) (step : BitVec 64) (env : Env) (s : State) : Out :=
  .next (s.stepCompletion part step env)

/-! ### The layer guard (R117 to R121) -/

/-- GUARD record: step, node, cause (1 range, 2 values: DESIGN CHOICE, log entry 96), range level, format step. -/
def State.guardRecord (s : State) (k : Nat) (step node : BitVec 32) (cause : Nat) (g : Guard) (st : Status) : State :=
  s.record 0x0300 (src 7 k) st (le 4 step.toNat ++ le 4 node.toNat ++ le 1 cause ++ le 1 g.level ++ le 1 g.fmt)

/-- A record is reset for a step (02 R79): the whole record is written, so that one that cannot be read is simply rewritten,
after its descriptor where that cannot be read. -/
def Job.resetRecord (j : Job) (c : Ctx) (n : GraphNode) (fmt : Nat) (step : BitVec 32) : Op Unit := do
  match n.formats[fmt]? with
  | some f => j.mendTd c f.2
  | none => pure ()
  let l ← tryCatch (readAt c n.census 32) (fun _ => pure [])
  let type := match n.formats[fmt]? with | some f => f.1.toNat | none => fld l 27 1
  writeAt c n.census (({ type := type } : Census).resetTo step).bytes

/-- Repeat the layer with a guard raised (R118): smudge, reset, table or wider descriptor, record; the smudge's replay reruns
the layer. -/
def State.guardRepeat (s : State) (k : Nat) (tag : Tag) (step : Nat) (n : GraphNode) (g : Guard) (cause : Nat) (st : Status) : State :=
  let s := s.report k tag.epoch causeGuard st.toCode none
  let r := s.runOp {} (do
    let c := s.ctx {} .ovind
    (s.job k).resetRecord c n g.fmt tag.step
    if cause = 1 then (s.job k).putTable c n step g.level else do selectOut n c g.fmt; pure true)
  (r.1.updGuard k tag.step n.node fun _ => { g with range := false, reduced := none, clear := false }).guardRecord k tag.step n.node cause g st

/-- The node is clear: its epoch waits for one guard less. -/
def State.guardClear (s : State) (k : Nat) (tag : Tag) (n : GraphNode) : State :=
  (s.updGuard k tag.step n.node fun x => { x with clear := true }).onDp fun d =>
    d.updWet k fun w => w.updInf tag.epoch.toNat fun i => { i with guards := i.guards - 1 }

/-- A level-3 table needs the operands' records of this step pre-reduced. -/
def State.mayRaise (s : State) (k step : Nat) (n : GraphNode) (level : Nat) : Bool :=
  match (s.runOp {} ((s.job k).levelAnchor (s.ctx {} .ovind) n step level)).2 with
  | .ok (some _) => true
  | _ => false

/-- The guard's decision for a node of the epoch `tag`, once its writes are complete and its census reduced with RANGE ORed
(R117 to R120); before that there is nothing to decide. `range`: RANGE of operations that the image's node does not list. -/
def State.guardDecision (s : State) (k : Nat) (tag : Tag) (n : GraphNode) (range : Bool) (env : Env) : State :=
  let w := s.dp.wetPart k
  let i := w.inf tag.epoch.toNat
  let step := i.index.toNat / s.epochsPerStep k
  let g := s.guard k tag.step n.node
  let flag : Option Bool := if n.distributed then g.reduced else some (g.range || range)
  if (w.ent tag.epoch.toNat).step ≠ tag.step ∨ i.fine ≠ .closed ∨ i.running ≠ 0 ∨ g.clear ∨ n.epoch ≠ i.index.toNat % s.epochsPerStep k then s
  else match flag with
    | none => s
    | some true =>
      if 3 ≤ g.level ∨ !s.mayRaise k step n (nextLevel n g.level) then s
      else s.guardRepeat k tag step n { g with level := nextLevel n g.level } 1 .rangeViolation
    | some false =>
      let r := s.runOp env (takeCensus (s.ctx env .ovind) n.census)
      let s := r.1
      match r.2 with
      | .error _ => s
      | .ok rec =>
        if !rec.wholeAt n.distributed tag.step then s
        else if n.nfLimit.toNat < rec.nonfin ∨ n.satLimit.toNat < rec.sats then
          if g.fmt + 1 < n.formats.length then s.guardRepeat k tag step n { g with fmt := g.fmt + 1 } 2 .nonfinite
          else ((s.guardRecord k tag.step n.node 2 g .nonfinite).guardClear k tag n).jobStatus k Status.nonfinite.toCode
        else s.guardClear k tag n

def execLayerGuardDecision (part : Part) (tag : Tag) (node : BitVec 32) (range : Bool) (env : Env) (s : State) : Out :=
  .next (match (s.job part).nodes.find? fun n => n.node == node && n.guarded with
    | some n => s.guardDecision part tag n range env
    | none => s)

/-! ### What a graph image must hold (R116, R117) -/

/-- The formats of Table 3.11 from a type on. -/
def widening (t : Nat) : List Nat :=
  if t = 5 then [5, 3, 1, 0x10] else if t = 3 ∨ t = 4 then [t, 1, 0x10] else if t = 1 ∨ t = 2 ∨ t = 6 then [t, 0x10] else [t]

/-- A guarded node lacks a format of its path or its descriptor, or states a limit of 0xFFFF_FFFF. -/
def guardBad (g : GraphImage) (n : GraphNode) : Bool :=
  n.guarded && (n.nfLimit == 0xFFFFFFFF || n.satLimit == 0xFFFFFFFF
    || n.formats.map (·.1.toNat) != widening ((n.formats.map (·.1.toNat)).headD 0)
    || n.formats.any fun f => !(g.tds.any fun t => t.1 == f.2 && fld t.2 1 1 == f.1.toNat))

/-- The SEED tables of the image (R98). -/
def State.seedTables (s : State) (k : Nat) : State :=
  (s.job k).nodes.foldl (fun s n => match n.seed with
    | some l => (s.runOp {} (tryCatch (writeAt (s.ctx {} .ovind) n.table l) fun _ => pure ())).1
    | none => s) s

end Sys2Proof.Machine
end

