-- ==== Sys2Proof/Machine/Epochs.lean ====
section
/-! DEFINITION. Wet epochs, dry votes and notices, the step log, smudges (10 R348 to R371; 11 R399, R400). -/
namespace Sys2Proof.Machine

def State.wet (s : State) (k : Nat) : WetPart := s.dp.wetPart k
def State.updWet (s : State) (k : Nat) (f : WetPart → WetPart) : State := s.onDp (·.updWet k f)

/-! ### Counters settle with an epoch (16 R513) -/

/-- Logical easels of a partition. -/
def State.easelsOf (s : State) (k : Nat) : List Nat :=
  (List.range 768).filter fun i => bitOf (s.job k).panels.toNat (i / 16)

def State.settlePct (s : State) (k : Nat) (epoch : BitVec 8) (dry : Bool) : State :=
  (s.easelsOf k).foldl (fun s i => if (s.pct i).pend = [] then s else s.updPct i fun p => p.settle epoch.toNat dry) s

/-! ### The step log (11 R399, R400) -/

/-- Bytes of a step record (Table 11.5), a multiple of 32. -/
def recSize (r : StepRec) : Nat :=
  ceilDiv (64 + 8 * r.batches.length + 16 * r.anchors.length + 8 * r.guards.length + 8 * r.queues.length + 72 * r.params.length) 32 * 32

def recCode : RecState → Nat | .opened => 1 | .dry => 2 | .discarded => 3

/-- A step record laid out as Table 11.5 shows. -/
def recBytes (major : BitVec 16) (seed : BitVec 64) (r : StepRec) : List Byte :=
  let head := le 2 1 ++ le 1 (recCode r.st) ++ le 1 0 ++ le 4 (recSize r) ++ le 8 r.step.toNat ++ le 4 r.imageId.toNat ++ le 2 major.toNat
    ++ le 2 r.rollback.toNat ++ le 8 seed.toNat ++ le 8 r.first.toNat ++ le 2 r.epochs ++ le 2 r.batches.length
    ++ le 2 r.anchors.length ++ le 2 r.guards.length ++ le 2 r.queues.length ++ le 2 r.params.length ++ le 8 0
  let body := r.batches.flatMap (fun b => le 8 b.toNat)
    ++ r.anchors.flatMap (fun a => le 4 a.tensorId.toNat ++ le 2 (code 16 a.etop) ++ le 2 (code 16 a.l) ++ le 1 a.wire.toNat
      ++ le 1 a.headroom.toNat ++ le 1 a.source.toNat ++ le 1 a.level.toNat ++ le 1 a.pmax.toNat ++ le 3 0)
    ++ r.guards.flatMap (fun g => le 4 g.1.toNat ++ le 1 g.2.1 ++ le 1 g.2.2.1 ++ le 1 g.2.2.2.toNat ++ le 1 0)
    ++ r.queues.flatMap (fun q => le 1 q.1 ++ le 3 0 ++ le 4 q.2.toNat) ++ r.params.flatten
  let tail := body ++ List.replicate (recSize r - 64 - body.length) 0
  head ++ le 4 (crc32c (head ++ le 4 0 ++ tail)).toNat ++ tail

/-- Write a record into the ring of its part (R399). -/
def State.putRec (s : State) (k : Nat) (r : StepRec) : State :=
  let b := recBytes s.fw.major (s.job k).seed r
  let c := s.ctx {} .ovind
  let at_ := r.pos % 2 ^ 24
  let base := stepLogOff (r.step.toNat % 16)
  (s.runOp {} do
    writeAt c (ownAddr s.dp.coord 0 (base + at_)) (b.take (2 ^ 24 - at_))
    if (b.drop (2 ^ 24 - at_)).isEmpty then pure () else writeAt c (ownAddr s.dp.coord 0 base) (b.drop (2 ^ 24 - at_))).1

/-- The records of a partition change; those that are new or differ are written. -/
def State.setRecords (s : State) (k : Nat) (l : List StepRec) : State :=
  let old := (s.job k).records
  (l.filter fun r => !old.contains r).foldl (fun s r => s.putRec k r) (s.updJob k fun j => { j with records := l })

/-- The records of every job in the part of step `n`. -/
def State.partRecs (s : State) (n : Nat) : List StepRec :=
  (List.range 4).flatMap fun k => (s.job k).records.filter fun r => r.step.toNat % 16 == n % 16

/-- The ring's next free position, and the position of the oldest record it keeps. -/
def ringEnd (l : List StepRec) : Nat := l.foldl (fun a r => max a (r.pos + r.room)) 0
def ringStart (l : List StepRec) : Nat := l.foldl (fun a r => min a r.pos) (ringEnd l)

/-- A record's place, with room for a guard entry of every guarded node: that of the discarded record it stands for, else the next
free one; `none` when it does not fit in the part. -/
def State.placeRec (s : State) (k : Nat) (old : Option StepRec) (r : StepRec) : Option StepRec :=
  let room := ceilDiv (recSize r + 8 * ((s.job k).nodes.filter (·.guarded)).length) 32 * 32
  let l := s.partRecs r.step.toNat
  match old with
  | some x => if room ≤ x.room then some { r with pos := x.pos, room := x.room } else
    if ringEnd l + room - ringStart l ≤ 2 ^ 24 then some { r with pos := ringEnd l, room } else none
  | none => if ringEnd l + room - ringStart l ≤ 2 ^ 24 then some { r with pos := ringEnd l, room } else none

/-- A parameter set of a step: bytes 0 to 55 of Table 11.2, then p1, p2 and 8 reserved bytes (Table 11.5); the powers are
carried from the step before; GSCALE is 1.0 until its tensor is read (R389). -/
def paramSet (step : Nat) (v : VarSet) (p : BitVec 32 × BitVec 32) : List Byte × (BitVec 32 × BitVec 32) :=
  let b1 := v.beta1.toNat
  let b2 := v.beta2.toNat
  let p1 := mul32 p.1.toNat b1
  let p2 := mul32 p.2.toNat b2
  let inv (x : Nat) : Nat := div32 one32 (sub32 one32 x)
  (le 4 step ++ le 4 0 ++ le 4 v.lr.toNat ++ le 4 v.wd.toNat ++ le 4 b1 ++ le 4 b2 ++ le 4 v.eps.toNat
    ++ le 4 (sub32 one32 b1) ++ le 4 (sub32 one32 b2) ++ le 4 (inv p1) ++ le 4 (inv p2) ++ le 4 one32
    ++ le 4 (mul32 v.lr.toNat v.wd.toNat) ++ le 4 0 ++ le 4 p1 ++ le 4 p2 ++ le 8 0, BitVec.ofNat 32 p1, BitVec.ofNat 32 p2)

/-- p1 = p2 = 1.0 before step 0. -/
def powersAt (l : List (BitVec 32 × BitVec 32)) (i : Nat) : BitVec 32 × BitVec 32 := l.getD i (BitVec.ofNat 32 one32, BitVec.ofNat 32 one32)

/-- The powers a record's parameter sets hold. -/
def recPowers (r : StepRec) : List (BitVec 32 × BitVec 32) :=
  r.params.map fun b => (BitVec.ofNat 32 (fld b 56 4), BitVec.ofNat 32 (fld b 60 4))

/-- The parameter sets in force at a step. -/
def Job.setsAt (j : Job) (step : Nat) : List VarSet :=
  match j.graph with
  | some g => ((g.schedule.filter fun x => x.1 ≤ step).foldl (fun (a : Nat × List VarSet) x => if a.1 ≤ x.1 then x else a) (0, [])).2
  | none => []

/-- A sequence number `n` on: it wraps from 0xFFFF_FFFF to 1 (06 R220). -/
def seqOn (q : BitVec 32) : Nat → BitVec 32
  | 0 => q
  | n + 1 => seqOn (if q = 0xFFFFFFFF then 1 else q + 1) n

/-- The QSEQ that the next entry posted to each queue of the partition takes. -/
def State.nextSeqs (s : State) (k : Nat) : List (Nat × BitVec 32) :=
  (s.cqsOf k).map fun q => let c := s.cq q; (q, seqOn c.last (c.posted.length - c.replay.length + 1))

/-- The discarded record of a step. -/
def Job.oldRec (j : Job) (step : Nat) : Option StepRec := j.records.find? fun x => x.step.toNat == step && x.st == .discarded

/-- The record of a step: a replay takes batches, anchors, queue entries and parameter sets from the discarded record (R389,
R408; 03 R102). -/
def State.newRecord (s : State) (k step first : Nat) (l : StepLogIn) : StepRec :=
  let j := s.job k
  let r : StepRec := {
    step := BitVec.ofNat 64 step, imageId := match j.graph with | some g => g.imageId | none => 0
    rollback := j.rollbacks, first := BitVec.ofNat 64 first, epochs := s.epochsPerStep k }
  match j.oldRec step with
  | some x => { r with batches := x.batches, anchors := x.anchors, queues := x.queues, params := x.params, scaled := x.scaled }
  | none => { r with
      batches := l.batches, anchors := j.anchors, queues := s.nextSeqs k
      params := (List.range (j.setsAt step).length).map fun i => (paramSet step ((j.setsAt step).getD i default) (powersAt j.powers i)).1 }

/-- Guard levels a replay starts with: those of the discarded record (03 R120, R408). -/
def Job.loggedGuards (j : Job) (step : Nat) : List (Nat × Guard) :=
  match j.oldRec step with
  | some x => x.guards.foldl (fun m g => Sparse.set {} m (guardKey (BitVec.ofNat 32 step) g.1)
      { level := g.2.1, fmt := g.2.2.1, dryLevel := g.2.1, dryFmt := g.2.2.1 }) j.guards
  | none => j.guards

/-- Write the record of a step before its first entry, in the place of a discarded one; one that does not fit makes Ovind ask
for a checkpoint at the end of the step (R399). -/
def State.writeStepLog (s : State) (k : Nat) (step : Nat) (first : Nat) (l : StepLogIn) : State :=
  let j := s.job k
  let old := j.oldRec step
  let r := s.newRecord k step first l
  let guards := j.loggedGuards step
  let powers := if r.params.isEmpty then j.powers else recPowers r
  let rest := j.records.filter fun x => some x != old
  let s := s.updJob k fun j => { j with records := rest, guards, powers }
  let s := if (s.job k).replayTo ≤ first then s else s.restoreTables k step fun _ => true
  match s.placeRec k old r with
  | some r => s.setRecords k (rest ++ [r])
  | none => (s.updJob k fun j => { j with asked := true }).mgmt .ckptAsk s.dp.coord.code (BitVec.ofNat 64 step)

/-- Checkpoint due at the completion of a step (11 R404, R399): the machine manager sends CKPT_BEGIN. -/
def State.mgr (s : State) (job : BitVec 16) : Mgr := Sparse.get {} s.mgrs job.toNat
def State.updMgr (s : State) (job : BitVec 16) (f : Mgr → Mgr) : State :=
  { s with mgrs := Sparse.upd {} s.mgrs job.toNat f }

def State.isMachine (s : State) : Bool := !s.roles.waiting && s.roles.role == .machine
def State.isManager (s : State) : Bool := !s.roles.waiting && (s.roles.role == .machine || s.roles.role == .pod || s.roles.role == .hedge)

/-- A step's record goes to the peer step log that the buddy keeps (R400). -/
def State.copyRec (s : State) (k step : Nat) : State :=
  match (s.job k).holders, (s.job k).recOf step with
  | h :: _, some r => s.send (.stepRecord h (recBytes s.fw.major (s.job k).seed r))
  | _, _ => s

/-- Every epoch of the step is DRY and every varnish entry complete: the record is marked DRY and copied to the buddy's
peer step log (R400), and a checkpoint that is due begins (R404). -/
def State.tryStepDry (s : State) (k : Nat) (step : Nat) : State :=
  let j := s.job k
  let n := s.epochsPerStep k
  let last := (step + 1) * n
  let w := s.wet k
  let allDry := decide (last ≤ w.next - w.wetCount.toNat)
  if !allDry || !j.varOpen.isEmpty || !(j.records.any fun r => r.step.toNat == step && r.st == .opened) then s
  else
    let s := (s.setRecords k (j.records.map fun r =>
      if r.step.toNat = step ∧ r.st = .opened then { r with st := .dry, copied := true } else r)).copyRec k step
    let s := { s with integ := { s.integ with varMiss := [] } }
    let s := s.updJob k fun j => { j with guards := j.guards.filter fun g => g.1 / 2 ^ 32 != step % 2 ^ 32 }
    if s.isMachine && (step % max j.interval.toNat 1 == 0 || j.asked) then
      ((s.updMgr j.id fun m => { m with ckpt := some (BitVec.ofNat 64 step), reports := [] }).updJob k fun j =>
        { j with asked := false }).mgmt .ckptBegin s.dp.coord.code (BitVec.ofNat 64 step)
    else s

/-! ### Opening and closing (R350) -/

/-- A snapshot point's rows: one per logical easel, in one cycle, the counts 0 without a grant (16 R516). -/
def snapshotRow (p : Pct) (grant : Bool) (tag : Tag) : List Nat :=
  let c : List Nat := [p.cycle.toNat] ++ ((List.range 8).map fun k => (p.counter k).toNat)
    ++ [p.retired.toNat, p.wasted.toNat, p.front.toNat, p.back.toNat, p.pending.toNat]
  (c.flatMap fun x => if grant then [x % 2 ^ 32, x / 2 ^ 32] else [0, 0]) ++ [tag.step.toNat, tag.epoch.toNat, 0, 0]

/-- Write the snapshot tensor's tiles whole and its census (06 R196, 02 R76). -/
def snapshotWrite (c : Ctx) (ptr : Addr) (rows : List (List Nat)) : Op Unit := do
  let t ← fetchTD c ptr
  let vals := rows.flatten
  let tiles := chunks 4096 vals
  let rec go : Nat → List (List Nat) → Op Unit
    | _, [] => pure ()
    | i, v :: r => do
      let bs := (chunks 32 v).map plainBlockOf
      writeWhole c t i (outOf t.type bs)
      censusUpdate c t.census (censusOf t.type (opTag c).step bs)
      go (i + 1) r
  go 0 tiles

/-- A change of grant applies from the next snapshot point; under a grant Ovind writes the image's counter settings there and
at partition start (R515). -/
def State.imageCounters (s : State) (k : Nat) (at_ : Option Nat) : State :=
  match (if (s.job k).grant then (s.job k).graph else none) with
  | none => s
  | some g => match g.counters.find? fun c => c.1 == at_ with
    | none => s
    | some (_, sel, on) => (s.easelsOf k).foldl (fun s i => s.updPct i fun p => { p with select := sel, enable := on }) s

def State.grantPoint (s : State) (k : Nat) : State :=
  s.updJob k fun j => match j.grantNext with
    | some g => { j with grant := g, grantNext := none }
    | none => j

def State.snapshot (s : State) (k : Nat) (tag : Tag) (attempt : BitVec 8) (env : Env) : State :=
  let pos := ((s.wet k).inf tag.epoch.toNat).index.toNat % s.epochsPerStep k
  match (s.job k).graph with
  | none => s
  | some g => match g.snapshots.find? fun p => p.1 == pos with
    | none => s
    | some (_, td) =>
      let s := (s.grantPoint k).imageCounters k (some pos)
      let rows := (s.easelsOf k).map fun i => snapshotRow (s.pct i) (s.job k).grant tag
      (s.runOp env (snapshotWrite (s.ctx env .ovind (some tag) attempt) td rows)).1

/-- The last entry of an epoch is posted: CLOSED (Table 10.1). -/
def State.closeEpoch (s : State) (k : Nat) (tag : Tag) (env : Env) : State :=
  let w := s.wet k
  if (w.inf tag.epoch.toNat).fine ≠ .opened then s
  else
    let s := s.updWet k fun w => w.updInf tag.epoch.toNat fun i => { i with fine := .closed }
    s.snapshot k tag (w.ent tag.epoch.toNat).attempt env

/-- Guarded nodes of an epoch. -/
def State.guardsOf (s : State) (k : Nat) (index : Nat) : Nat :=
  let pos := index % s.epochsPerStep k
  ((s.job k).nodes.filter fun n => n.guarded && n.epoch == pos).length

/-- Open the next epoch when the window has room (R350); the first epoch of a step comes after its step record; an epoch
with no entry on this module closes at once. -/
def State.openEpoch (s : State) (k : Nat) (empty : Bool) (l : StepLogIn) (env : Env) : State :=
  let w := s.wet k
  if !(s.job k).running || w.settling || w.held && decide (w.wetCount.toNat < 8)
      || (s.job k).phase == 4 && !(s.mgr (s.job k).id).waits.isEmpty then s
  else if 8 ≤ w.wetCount.toNat then s.updWet k fun w => { w with held := true, stall := w.stall.hwSet }
  else
    let idx := w.next
    let n := s.epochsPerStep k
    let s := if idx % n = 0 then s.writeStepLog k (idx / n) idx l else s
    let s := if (s.job k).phase = 4 ∧ (s.job k).replayTo ≤ idx then s.updJob k fun j => { j with phase := 0 } else s
    let tag : Tag := { step := BitVec.ofNat 32 (idx / n), epoch := BitVec.ofNat 8 idx }
    let attempt : BitVec 8 := if idx < (s.job k).replayTo then BitVec.ofNat 8 (32 * ((s.job k).rollbacks.toNat % 8)) else 0
    let s := s.updWet k fun w =>
      let w := w.updEnt tag.epoch.toNat fun _ => { state := .wet, attempt, step := tag.step }
      let w := w.updInf tag.epoch.toNat fun _ => { index := BitVec.ofNat 64 idx, guards := s.guardsOf k idx }
      { w with oldest := if w.wetCount = 0 then tag.epoch else w.oldest, wetCount := w.wetCount + 1, next := idx + 1 }
    if empty then s.closeEpoch k tag env else s

def execEpochOpen (part : Part) (empty : Bool) (log : StepLogIn) (env : Env) (s : State) : Out :=
  .next (s.openEpoch part empty log env)

/-! ### Votes and notices (R352 to R355) -/

/-- The conditions of Table 10.2. -/
def WetPart.mayVote (w : WetPart) (e : Nat) : Bool :=
  let i := w.inf e
  i.fine == .closed && i.running == 0 && !i.failed && i.violations == 0 && i.dups == 0 && i.guards == 0 && i.census == 0

def qopVote : Nat := 0x10
def qopNotice : Nat := 0x11
def qopSmudge : Nat := 0x12

def State.ownVote (s : State) (k : Nat) (e : BitVec 8) : DryMsg :=
  let w := s.wet k
  { job := (s.job k).id, epoch := e, attempt := (w.ent e.toNat).attempt, step := (w.ent e.toNat).step
    index := (w.inf e.toNat).index, count := 1, level := 0 }

def State.sendVote (s : State) (k : Nat) (e : BitVec 8) : State :=
  (s.quickset (.up (s.managerOf 0)) qopVote (dryBytes (s.ownVote k e))).updWet k fun w => w.updInf e.toNat fun i => { i with votedAt := s.dp.now }

/-- VOTED: this module's dry vote is sent (R352). -/
def State.dryVoteSend (s : State) (k : Nat) (e : BitVec 8) : State :=
  if (s.wet k).mayVote e.toNat then
    (s.sendVote k e).updWet k fun w => w.updInf e.toNat fun i => { i with fine := .voted }
  else s

def execDryVoteSend (part : Part) (epoch : BitVec 8) (s : State) : Out := .next (s.dryVoteSend part epoch)

/-- 5 ms with no notice: the vote is sent again (R355). -/
def execDryVoteResend (part : Part) (epoch : BitVec 8) (s : State) : Out :=
  .next (if ((s.wet part).inf epoch.toNat).fine = .voted then s.sendVote part epoch else s)

/-- The attempt this module knows of an epoch of a job. -/
def State.knownAttempt (s : State) (job : BitVec 16) (e : BitVec 8) (step : BitVec 32) : BitVec 8 :=
  match s.jobPart job with
  | some k => let x := (s.wet k).ent e.toNat; if x.step = step then x.attempt else 0
  | none => 0

/-- A discarded payload: the first per source and epoch is logged (R354). -/
def State.discardQs (s : State) (job : BitVec 16) (sender : BitVec 17) (e : BitVec 8) (bytes : List Byte) : State :=
  if (s.mgr job).logged.contains (sender, e) then s
  else (s.updMgr job fun m => { m with logged := (sender, e) :: m.logged }).record 0x0404 (src 0 0) .ok bytes

/-- The level at which this module gathers votes: 0 from modules, 1 from hedges, 2 from pods. -/
def State.gathers (s : State) (level : Nat) : Bool :=
  match s.roles.role with
  | .hedge => level == 0
  | .pod => level ≤ 1
  | .machine => level ≤ 2
  | _ => false

/-- The votes held at a level for an index and attempt. -/
def Mgr.held (m : Mgr) (level : Nat) (index : BitVec 64) (attempt : BitVec 8) : List Vote :=
  m.votes.filter fun v => v.level == level && v.index == index && v.attempt == attempt

def Mgr.await (m : Mgr) (level : Nat) : List (BitVec 17) := Sparse.get [] m.awaits level

def Mgr.complete (m : Mgr) (level : Nat) (index : BitVec 64) (attempt : BitVec 8) : Bool :=
  let a := m.await level
  !a.isEmpty && a.all (((m.held level index attempt).map (·.sender)).contains ·)

/-- Modules that the votes held cover. -/
def Mgr.covered (m : Mgr) (level : Nat) (index : BitVec 64) (attempt : BitVec 8) : BitVec 32 :=
  ((m.held level index attempt).filter fun v => (m.await level).contains v.sender).foldl (fun a v => a + v.count) 0

/-- The newest vote of pods for the next index. -/
def Mgr.newest (m : Mgr) : Option Vote :=
  (m.votes.filter fun v => v.level == 2 && v.index == m.next).foldl (fun a v => match a with
    | none => some v
    | some b => if b.attempt.toNat < v.attempt.toNat then some v else some b) none

/-- An epoch has dried: its votes and what its discards left are forgotten. -/
def Mgr.dried (m : Mgr) (index : BitVec 64) (modules : BitVec 32) : Mgr :=
  let e := BitVec.ofNat 8 index.toNat
  { m with
    next := index + 1, modules
    votes := m.votes.filter fun v => decide (index.toNat < v.index.toNat)
    discards := Sparse.set 0 m.discards e.toNat 0
    faults := m.faults.filter fun f => f.1 != e
    blames := m.blames.filter fun b => b.1 != e }

/-- The machine manager declares epochs dry in index order, none of D and none while a discard is settled (R353, R371). -/
def State.declareDry (s : State) (job : BitVec 16) : Nat → State
  | 0 => s
  | fuel + 1 =>
    let m := s.mgr job
    match m.newest with
    | none => s
    | some v =>
      if !s.isMachine || m.settling || m.stopped || !m.complete 2 m.next v.attempt then s
      else
        let n : DryMsg := { job, epoch := BitVec.ofNat 8 m.next.toNat, attempt := v.attempt, step := v.step, index := m.next
                            count := m.covered 2 m.next v.attempt, level := 3 }
        ((s.quickset .down qopNotice (dryBytes n)).updMgr job fun m => m.dried m.next n.count).declareDry job fuel

/-- A manager records a vote and passes one up once its whole hedge or pod has voted; one for an epoch that is dry is answered
with the notice (R353, R355). -/
def State.dryVote (s : State) (payload : List Byte) (sender : BitVec 17) (awaited : List (BitVec 17)) : State :=
  let msg := DryMsg.ofBytes payload
  let lv := msg.level.toNat
  if !msg.good ∨ msg.attempt.toNat < (s.knownAttempt msg.job msg.epoch msg.step).toNat then
    s.discardQs msg.job sender msg.epoch payload
  else if !s.gathers lv then s
  else if msg.index.toNat < (s.mgr msg.job).next.toNat then
    s.quickset (.back sender) qopNotice (dryBytes { msg with level := 3, count := (s.mgr msg.job).modules })
  else
    let v : Vote := { level := lv, index := msg.index, attempt := msg.attempt, sender, step := msg.step, count := msg.count }
    let s := s.updMgr msg.job fun m =>
      { m with
        votes := if m.votes.contains v then m.votes else v :: m.votes.filter fun x => !(x.level == lv && x.index == msg.index && x.sender == sender)
        awaits := Sparse.set [] m.awaits lv awaited }
    let m := s.mgr msg.job
    if m.complete lv msg.index msg.attempt then
      if lv = 2 then s.declareDry msg.job 8
      else s.quickset (.up (s.managerOf (lv + 1))) qopVote
        (dryBytes { msg with level := msg.level + 1, count := m.covered lv msg.index msg.attempt })
    else s

def execDryVote (payload : List Byte) (sender : BitVec 17) (awaited : List (BitVec 17)) (s : State) : Out :=
  .next (s.dryVote payload sender awaited)

/-- Guards raised in the epoch enter the step record when it dries (03 R120). -/
def State.logGuards (s : State) (k : Nat) (tag : Tag) (index : Nat) : State :=
  let pos := index % s.epochsPerStep k
  (s.job k).nodes.foldl (fun s n =>
    let g := s.guard k tag.step n.node
    if n.guarded && n.epoch == pos && (g.level ≠ 0 || g.fmt ≠ 0) then
      let s := s.updGuard k tag.step n.node fun g => { g with dryLevel := g.level, dryFmt := g.fmt }
      s.setRecords k ((s.job k).records.map fun r =>
        if r.step.toNat = index / s.epochsPerStep k ∧ r.st = .opened then
          { r with guards := r.guards ++ [(n.node, g.level, g.fmt, tag.epoch)] } else r)
    else s) s

/-- The records that a dry epoch's nodes wrote are kept as their dry values (02 R79). -/
def State.keepCensus (s : State) (k : Nat) (index : Nat) : State :=
  let pos := index % s.epochsPerStep k
  (s.job k).nodes.foldl (fun (s : State) (n : GraphNode) =>
    if n.epoch == pos && n.census != 0 then
      let r := s.runOp {} (readAt (s.ctx {} .ovind) n.census 32)
      match r.2 with
      | .ok l => r.1.updJob k fun j => { j with dryCensus := Sparse.set [] j.dryCensus n.census.toNat l }
      | .error _ => r.1
    else s) s

/-- A partition whose epochs are all DRY or discarded stops, and PARTITION_STOP completes with LAST_DRY_INDEX (14). -/
def State.tryStop (s : State) (k : Nat) : State :=
  if (s.job k).stopping && (s.wet k).wetCount == 0 then
    let s := s.updJob k fun j => { j with running := false, stopping := false }
    match s.mbx.cmds.find? fun c => c.waiting && c.req.opcode == 0x13 && fld c.req.payload 0 2 == (s.job k).id.toNat with
    | some c => s.finish c .ok (le 8 (s.wet k).dryIndex.toNat)
    | none => s
  else s

/-- STATE DRY is written when the notice reaches the module (R353). -/
def State.applyDry (s : State) (k : Nat) (msg : DryMsg) : State :=
  let w := s.wet k
  let x := w.ent msg.epoch.toNat
  if x.step ≠ msg.step ∨ x.state ≠ .wet ∨ msg.attempt.toNat < x.attempt.toNat then s
  else
    let tag : Tag := { step := msg.step, epoch := msg.epoch }
    let s := s.settlePct k msg.epoch true
    let s := (s.logGuards k tag msg.index.toNat).keepCensus k msg.index.toNat
    let s := s.updWet k fun w =>
      let w := w.updEnt msg.epoch.toNat fun e => { e with state := .dry }
      let w := w.updInf msg.epoch.toNat fun i => { i with fine := .dry }
      { w with dryIndex := BitVec.ofNat 48 msg.index.toNat, oldest := msg.epoch + 1, wetCount := w.wetCount - 1
               held := if w.settling then w.held else false }
    (s.tryStepDry k (msg.index.toNat / s.epochsPerStep k)).tryStop k

/-- A notice: passed down by a manager, which notes it, and applied. -/
def State.dryNotice (s : State) (payload : List Byte) (sender : BitVec 17) : State :=
  let msg := DryMsg.ofBytes payload
  if !msg.good ∨ msg.attempt.toNat < (s.knownAttempt msg.job msg.epoch msg.step).toNat then
    s.discardQs msg.job sender msg.epoch payload
  else
    let s := if s.isManager && !s.isMachine then (s.quickset .down qopNotice payload).updMgr msg.job fun m =>
      if m.next.toNat ≤ msg.index.toNat then m.dried msg.index msg.count else m else s
    match s.jobPart msg.job with
    | some k => s.applyDry k msg
    | none => s

def execDryNotice (payload : List Byte) (sender : BitVec 17) (s : State) : Out := .next (s.dryNotice payload sender)

/-! ### Failures (R352, R362, R369) -/

/-- The machine manager is asked for a rollback. -/
def State.askRollback (s : State) (job : BitVec 16) : State := s.mgmt .rollbackRequest s.dp.coord.code job.toNat

/-- The check tile of a piece that an address lies in: its number, and whether the address is of the sidecar (07 R238, R245). -/
def TD.tileAt (own : Coord) (t : TD) (a : Addr) : Option (Nat × Bool) :=
  let within (b : Addr) (n : Nat) : Bool := match keyOf own b, keyOf own a with
    | some (m, x), some (k, y) => m == k && decide (x ≤ y ∧ y < x + n)
    | _, _ => false
  (List.range t.tiles).findSome? fun i =>
    if within (t.sidecarAddr i) 160 then some (i, true)
    else if (t.spansOf (4096 * i) (t.tileCount i)).any fun sp => within ((t.base + BitVec.ofNat 64 sp.1).extractLsb' 5 59 ++ 0#5)
      (typeBytes t.type sp.2 + 32) then some (i, false)
    else none

/-- The epoch number that a node has in a step. -/
def State.nodeEpoch (s : State) (k : Nat) (n : GraphNode) (step : BitVec 32) : Tag :=
  { step, epoch := BitVec.ofNat 8 (step.toNat * s.epochsPerStep k + n.epoch) }

/-- What a failed check's FAULT_ADDR names (R362): the cause, and the epoch of the object's TAG or STEP when that can be read. -/
def State.faultNames (s : State) (k : Nat) (f : FaultRec) : Nat × Option Tag :=
  let read (a : Addr) (n : Nat) : Option (List Byte) := match (s.runOp {} (readAt (s.ctx {} .ovind) a n)).2 with
    | .ok l => some l
    | .error _ => none
  if f.obj = 4 then
    match f.tds.findSome? fun t => (t.tileAt s.dp.coord f.addr).map fun x => (t.sidecarAddr x.1, x.2) with
    | none => (causeCheckTile, none)
    | some (a, side) =>
      match read a 160 with
      | none => (causeMemory, none)
      | some l =>
        let x := Sidecar.ofBytes l
        let lost := slice l 128 32 == unreadableWord
        (if side && x.flags.state ≠ stUnreadable then causeCheckTile else causeMemory, if lost then none else some x.tag)
  else if f.obj = 3 ∨ f.obj = 5 then
    match read f.addr 32, (s.job k).nodes.find? fun n => if f.obj = 3 then n.table == f.addr else n.census == f.addr with
    | none, _ => (causeMemory, none)
    | some l, some n => (causeCheckTile, some (s.nodeEpoch k n (BitVec.ofNat 32 (fld l (if f.obj = 3 then 4 else 28) 4))))
    | some _, none => (causeCheckTile, none)
  else (causeCheckTile, none)

/-- Ovind handles an entry that failed. What its check found stands in its completion record (R362); of an entry whose record
names nothing, `kind` tells whether the object is a tile, memory or a chunk, and `producer` its epoch. A replay that meets a
damaged object of a dry epoch outside durable memory asks for a rollback (R369). -/
def State.opFailure (s : State) (k : Nat) (tag : Tag) (q : Nat) (st : Status) (kind : Fin 3) (producer : Option Tag) : State :=
  let given : Nat × Option Tag := (match kind with | 0 => causeCheckTile | 1 => causeMemory | 2 => causeChunk, producer)
  let (cause, made) : Nat × Option Tag := match (s.eq q).lastFail with
    | some f => if f.tag = tag ∧ f.obj ≠ 0 then s.faultNames k f else given
    | none => given
  let ent (t : Tag) : EpState := let x := (s.wet k).ent t.epoch.toNat; if x.step = t.step then x.state else .free
  let named : BitVec 8 := match made with
    | some p => if ent p = .wet then p.epoch else tag.epoch
    | none => tag.epoch
  let durable : Bool := match (s.eq q).lastFail with
    | some f => match resolve s.dp.coord f.addr with
      | some (.here _ off) => durableType (regionType (s.dp.mem.regionOf (granuleOf off)))
      | _ => false
    | none => false
  let dryObject : Bool := match made with | some p => ent p == .dry | none => false
  match st with
  | .ok | .pending | .smudged | .nonfinite | .rangeViolation => s
  | .checkTile =>
    if ((s.wet k).inf tag.epoch.toNat).discards ≠ 0 && !durable && dryObject then
      s.askRollback (s.job k).id
    else s.report k named cause st.toCode (some tag)
  | .dupMismatch =>
    if 1728 ≤ q ∧ q < 1744 then
      let n := Sparse.get 0 s.integ.varMiss (q - 1728) + 1
      let s := { s with integ := { s.integ with varMiss := Sparse.set 0 s.integ.varMiss (q - 1728) n } }
      if 2 ≤ n then ({ s with integ := { s.integ with degraded := true } } : State).mgmt .degraded s.dp.coord.code 1
      else s.reissueVarnish q
    else s.report k tag.epoch causeCombine st.toCode none
  | st =>
    if st = .wetWrite ∨ st.group = 2 then
      (s.updJob k fun j => { j with failEngine := some q }).report k tag.epoch causeFault st.toCode none
    else s.stopJob k st.toCode 0

def execOperationFailureHandling (part : Part) (tag : Tag) (queue : QueueId) (status : Status) (kind : Fin 3)
    (producer : Option Tag) (s : State) : Out :=
  .next (s.opFailure part tag queue status kind producer)

/-! ### Settling (R364 to R371) -/

def maskHas (mask : BitVec 8) (base e : BitVec 8) : Bool := decide ((e - base).toNat < 8) && bitOf mask.toNat (e - base).toNat

def maskBit (base e : BitVec 8) : BitVec 8 := if (e - base).toNat < 8 then BitVec.ofNat 8 (2 ^ (e - base).toNat) else 0

/-- Epoch numbers of a mask. -/
def maskEpochs (base mask : BitVec 8) : List (BitVec 8) :=
  ((List.range 8).map fun i => base + BitVec.ofNat 8 i).filter fun e => maskHas mask base e

def State.smudgeMsg (s : State) (job : BitVec 16) (phase : Nat) : SmudgeMsg :=
  let m := s.mgr job
  { job, phase := BitVec.ofNat 8 phase, round := BitVec.ofNat 8 m.round, step := m.baseStep, cause := m.cause
    base := m.base, mask := m.mask }

/-- Send ORDER for a round, with the reports that wait joined. -/
def State.sendOrder (s : State) (job : BitVec 16) : State :=
  let s := s.updMgr job fun m => { m with mask := m.mask ||| m.joining, joining := 0, round := m.round + 1, closures := []
                                          settling := true }
  s.quickset .down qopSmudge (smudgeBytes (s.smudgeMsg job 2))

/-- The machine manager takes a REPORT (R364 step 2, R540); other managers pass it up unchanged. -/
def State.smudgeReport (s : State) (payload : List Byte) (sender : BitVec 17) : State :=
  let msg := SmudgeMsg.ofBytes payload
  if !msg.good ∨ msg.attempt.toNat < (s.knownAttempt msg.job msg.epoch msg.step).toNat then
    s.discardQs msg.job sender msg.epoch payload
  else if !s.isMachine then (if s.isManager then s.quicksetUp qopSmudge payload else s)
  else
    let m := s.mgr msg.job
    let base : BitVec 8 := if m.settling then m.base else BitVec.ofNat 8 m.next.toNat
    let open_ (e : BitVec 8) : Bool := decide ((e - base).toNat < 8)
    let e : Option (BitVec 8) := if open_ msg.epoch then some msg.epoch
      else if msg.valid ∧ open_ msg.cepoch then some msg.cepoch else none
    match e with
    | none => s
    | some e =>
      if m.settling && (maskHas m.mask base e || maskHas m.joining base e) then s
      else if msg.cause = 8 ∧ m.faults.contains (e, msg.status, msg.attempt - 1) then
        let s := (s.updMgr msg.job fun m => { m with stopped := true }).mgmt .jobStop sender msg.status.toNat
        match s.jobPart msg.job with
        | some k => s.stopJob k msg.status 0
        | none => s
      else
        let s := s.updMgr msg.job fun m =>
          { m with blames := (e, msg.cause, sender) :: m.blames
                   serious := (m.settling && m.serious) || !(msg.cause == 5 || msg.cause == 8)
                   faults := if msg.cause = 8 then (e, msg.status, msg.attempt) :: m.faults else m.faults }
        if m.settling then s.updMgr msg.job fun m => { m with joining := m.joining ||| maskBit base e }
        else
          let step := match s.jobPart msg.job with
            | some k => ((s.wet k).ent base.toNat).step
            | none => msg.step
          (s.updMgr msg.job fun m => { m with base, mask := maskBit base e, baseStep := step, round := 0, cause := msg.cause
                                              reporter := sender, joining := 0 }).sendOrder msg.job

def execSmudgeReport (payload : List Byte) (sender : BitVec 17) (s : State) : Out := .next (s.smudgeReport payload sender)

/-- The local closure of a set (R364 step 3, R366): wet epochs that consumed one of it, or whose communication queue
entries stand behind one of it. -/
def State.closure (s : State) (k : Nat) (base : BitVec 8) : Nat → BitVec 8 → BitVec 8
  | 0, mask => mask
  | fuel + 1, mask =>
    let w := s.wet k
    let more := (List.range 8).foldl (fun m i =>
      let e := base + BitVec.ofNat 8 i
      let x := w.ent e.toNat
      let consumed := (List.range 7).any fun b => bitOf x.consumed.toNat b && maskHas mask base (e - 1 - BitVec.ofNat 8 b)
      if x.state = .wet ∧ consumed then m ||| maskBit base e else m) mask
    let more := s.cqBehind k base more
    if more = mask then mask else s.closure k base fuel more

/-- One epoch of D on this module (R365): SMUDGED, its counters wasted, its duplicates cancelled, of its suspects' results the CRC
alone kept (R378). -/
def State.smudgeEpoch (s : State) (k : Nat) (e : BitVec 8) : State :=
  let x := (s.wet k).ent e.toNat
  if x.state ≠ .wet then s
  else
    let s := s.settlePct k e false
    let s := s.updWet k fun w =>
      (w.updEnt e.toNat fun y => { y with state := .smudged }).updInf e.toNat fun i => { i with fine := .smudged, dups := 0 }
    { s with integ := { s.integ with
      dups := s.integ.dups.filter fun d => !(d.part == k && d.epoch == e)
      suspects := s.integ.suspects.map fun x =>
        if x.part = k ∧ x.epoch = e then { x with result := none, standing := none, rep := none } else x } }

/-- Queues that hold an accepted entry of partition `k` with a tag in the set. -/
def State.activeOf (s : State) (k : Nat) (p : Tag → Bool) : List Nat :=
  (s.eqs.filter fun q => match q.2.cur with
    | some a => p a.entry.tag && q.1 < 1728 && (s.job k).panels.toNat / 2 ^ (if q.1 < 1536 then q.1 % 768 / 16 else (q.1 - 1536) / 4) % 2 == 1
    | none => false).map (·.1)

/-- The round that a module or a manager last saw ordered (R363). -/
def State.knownRound (s : State) (job : BitVec 16) : Nat :=
  match s.jobPart job with
  | some k => (s.wet k).round
  | none => (s.mgr job).round

/-- An ORDER reaches a module (R365): the epochs of D are discarded, their operations ended at their boundaries, posting
stops, and the local closure goes up. -/
def State.smudgeOrder (s : State) (payload : List Byte) (sender : BitVec 17) (env : Env) : State :=
  let msg := SmudgeMsg.ofBytes payload
  if !msg.good ∨ msg.round.toNat < s.knownRound msg.job then s.discardQs msg.job sender msg.base payload
  else
    let s := if s.isManager && !s.isMachine then (s.quickset .down qopSmudge payload).updMgr msg.job fun m =>
      { m with round := msg.round.toNat, closures := [] } else s
    match s.jobPart msg.job with
    | none => s
    | some k =>
      let s := (maskEpochs msg.base msg.mask).foldl (fun s e => s.smudgeEpoch k e) s
      let qs := s.activeOf k fun t => maskHas msg.mask msg.base t.epoch
      let s := qs.foldl (fun s q => s.endEngine q .smudged env) s
      let s := s.cqEnd k msg.base msg.mask env
      let s := s.updWet k fun w => { w with settling := true, held := true, round := msg.round.toNat }
      let c := s.closure k msg.base 8 msg.mask
      s.quickset (.up (s.managerOf 0)) qopSmudge (smudgeBytes { msg with phase := 3, mask := c, count := 1 })

def execSmudgeOrder (payload : List Byte) (sender : BitVec 17) (env : Env) (s : State) : Out :=
  .next (s.around env fun s env => s.smudgeOrder payload sender env)

/-- Discards of the epochs of D are counted, those of GUARD and FAULT smudges not (R370). -/
def Mgr.countDiscards (m : Mgr) : Mgr :=
  if !m.serious then m
  else { m with discards := (maskEpochs m.base m.mask).foldl (fun d e => Sparse.upd 0 d e.toNat (· + 1)) m.discards }

/-- An epoch of D that has now been discarded 16 times within its step. -/
def Mgr.worn (m : Mgr) : Option (BitVec 8) := (maskEpochs m.base m.mask).find? fun e => decide (16 ≤ Sparse.get 0 m.discards e.toNat)

def State.smudgeRecord (s : State) (m : Mgr) (mask cause : BitVec 8) (who : BitVec 17) : State :=
  s.record 0x0302 (src 0 0) .smudged
    (le 4 m.baseStep.toNat ++ le 1 m.base.toNat ++ le 1 mask.toNat ++ le 1 m.round ++ le 1 cause.toNat ++ le 4 who.toNat)

/-- The set is settled: FINAL, and the epochs that waited dry; an epoch discarded for the sixteenth time is replayed no more:
its causes and reporters are recorded and a rollback is asked for (R364, R370, R371). -/
def State.settled (s : State) (job : BitVec 16) : State :=
  let s := s.updMgr job Mgr.countDiscards
  let m := s.mgr job
  match m.worn with
  | some e =>
    let s := (m.blames.filter fun b => b.1 == e).foldl (fun s b => s.smudgeRecord m (maskBit m.base e) b.2.1 b.2.2) s
    let s := (s.updMgr job fun m => { m with closures := [] }).askRollback job
    match s.jobPart job with
    | some k => s.jobStatus k Status.smudged.toCode
    | none => s
  | none =>
    let s := (s.quickset .down qopSmudge (smudgeBytes { s.smudgeMsg job 4 with mask := m.mask })).smudgeRecord m m.mask m.cause m.reporter
    (s.updMgr job fun m =>
      { m with settling := false, closures := [], round := 0
               votes := m.votes.filter fun v => !maskHas m.mask m.base (BitVec.ofNat 8 v.index.toNat) }).declareDry job 8

/-- CLOSURE replies are unioned; complete at a manager the union goes up, at the machine manager the fixed point sends
FINAL, else the next round begins (R364). -/
def State.smudgeClosure (s : State) (payload : List Byte) (sender : BitVec 17) (awaited : List (BitVec 17)) : State :=
  let msg := SmudgeMsg.ofBytes payload
  let m := s.mgr msg.job
  if !msg.good ∨ msg.round.toNat < m.round then s.discardQs msg.job sender msg.base payload
  else if !s.isManager then s
  else
    let cs := (sender, msg.mask, msg.count) :: m.closures.filter fun c => c.1 != sender
    let s := s.updMgr msg.job fun m => { m with closures := cs }
    if !(awaited.all fun a => cs.any fun c => c.1 == a) then s
    else
      let u := cs.foldl (fun a c => a ||| c.2.1) 0
      if !s.isMachine then
        (s.updMgr msg.job fun m => { m with closures := [] }).quicksetUp qopSmudge
          (smudgeBytes { msg with mask := u, count := cs.foldl (fun a c => a + c.2.2) 0 })
      else if u ||| m.mask ||| m.joining = m.mask ∨ 8 ≤ m.round then s.settled msg.job
      else (s.updMgr msg.job fun m => { m with mask := m.mask ||| u }).sendOrder msg.job

def execSmudgeClosure (payload : List Byte) (sender : BitVec 17) (awaited : List (BitVec 17)) (s : State) : Out :=
  .next (s.smudgeClosure payload sender awaited)

/-- The census records that the epoch's nodes write, reset for the replay (02 R79). -/
def State.resetCensus (s : State) (k : Nat) (tag : Tag) (index : Nat) : State :=
  let pos := index % s.epochsPerStep k
  (s.job k).nodes.foldl (fun s n =>
    if n.epoch == pos && n.census != 0 then
      (s.runOp {} (tryCatch ((s.job k).resetRecord (s.ctx {} .ovind) n (s.guard k tag.step n.node).fmt tag.step) fun _ => pure ())).1
    else s) s

/-- Is a record written by a wet epoch of the partition? -/
def State.wetWrites (s : State) (k : Nat) (census : Addr) : Bool :=
  (s.wet k).info.any fun e => ((s.wet k).ent e.1).state == .wet && (s.job k).nodes.any fun n =>
    n.census == census && n.epoch == e.2.index.toNat % s.epochsPerStep k

/-- The records that the epoch's nodes read, restored to their dry values where no wet epoch writes them (02 R79; DEDUCED, log
entry 97). -/
def State.restoreCensus (s : State) (k : Nat) (index : Nat) : State :=
  let pos := index % s.epochsPerStep k
  let reads := ((s.job k).nodes.filter fun n => n.epoch == pos).flatMap fun n => [n.a.census, n.b.census]
  reads.eraseDups.foldl (fun s a => match Sparse.get [] (s.job k).dryCensus a.toNat with
    | [] => s
    | l => if s.wetWrites k a then s else (s.runOp {} (tryCatch (writeAt (s.ctx {} .ovind) a l) fun _ => pure ())).1) s

/-- Guard levels and format steps go back to the last ones logged dry, with their tables and descriptors (03 R120); a GUARD
smudge's own epoch keeps what its guards have raised (R118). -/
def State.restoreGuards (s : State) (k : Nat) (tag : Tag) (index : Nat) (keep : Bool) : State :=
  let pos := index % s.epochsPerStep k
  let s := (s.job k).nodes.foldl (fun s n =>
    if n.epoch == pos then s.updGuard k tag.step n.node fun g =>
      { g with level := if keep then g.level else g.dryLevel, fmt := if keep then g.fmt else g.dryFmt
               range := false, reduced := none, clear := false }
    else s) s
  s.restoreTables k (index / s.epochsPerStep k) fun n => n.epoch == pos

/-- One epoch of D at FINAL (R367): the attempt rises, CONSUMED is cleared, STATE is WET, and it opens again. `keep`: it is the
epoch that a GUARD smudge names. -/
def State.reopen (s : State) (k : Nat) (keep : Bool) (e : BitVec 8) : State :=
  let w := s.wet k
  if (w.ent e.toNat).state ≠ .smudged then s
  else
    let idx := (w.inf e.toNat).index.toNat
    let tag : Tag := { step := (w.ent e.toNat).step, epoch := e }
    let s := ((s.restoreGuards k tag idx keep).resetCensus k tag idx).restoreCensus k idx
    s.updWet k fun w =>
      (w.updEnt e.toNat fun y => { y with state := .wet, attempt := y.attempt + 1, consumed := 0 }).updInf e.toNat fun i =>
        { index := i.index, discards := i.discards + 1, guards := s.guardsOf k idx }

/-- FINAL reaches a module (R367): replays of D begin, held posting and queues are released (12 R423). A dry object that
is found damaged as the replay reads it is restored from its mirror when durable, and asks for a rollback otherwise (R369). -/
def State.smudgeFinal (s : State) (message : BitVec 17 × List Byte) (damaged : Option Bool) : State :=
  let msg := SmudgeMsg.ofBytes message.2
  if !msg.good then s.discardQs msg.job message.1 msg.base message.2
  else
    let s := if s.isManager && !s.isMachine then (s.quickset .down qopSmudge message.2).updMgr msg.job fun m =>
      { m with round := 0, closures := []
               votes := m.votes.filter fun v => !maskHas msg.mask msg.base (BitVec.ofNat 8 v.index.toNat) } else s
    match s.jobPart msg.job with
    | none => s
    | some k =>
      let s := (maskEpochs msg.base msg.mask).foldl (fun s e =>
        s.reopen k (msg.cause.toNat == causeGuard && some e == (maskEpochs msg.base msg.mask).head?) e) s
      let s := s.cqReplay k msg.base msg.mask (msg.cause.toNat == causeRst)
      let s := s.updWet k fun w => { w with settling := false, held := false, round := 0, smudge := w.smudge.hwSet }
      let s := s.releaseHeld k
      match damaged with
      | some false => s.askRollback msg.job
      | _ => s

/-- `message`: the sender and the payload. -/
def execSmudgeFinal (message : BitVec 17 × List Byte) (damaged : Option Bool) (s : State) : Out :=
  .next (s.smudgeFinal message damaged)

end Sys2Proof.Machine
end

