-- ==== Sys2Proof/Machine/ResetOps.lean ====
section
/-! DEFINITION. The reset ladder's operations: scopes, the sample, the levels, retirement, observation (12 R412 to R430; 01 R25 to R27; 10 R379). -/
namespace Sys2Proof.Machine

/-! ### Scopes (R417, R420) -/

/-- Does an episode's scope contain that of a reset of `level` on `target`? -/
def State.contains (s : State) (e : Episode) (level target : Nat) : Bool :=
  if 4 ≤ e.level then true
  else if e.level = 3 then
    (level == 3 && target == e.target) || (decide (level ≤ 2) && s.easelPart target == some e.target)
  else decide (level ≤ 2) && target == e.target

/-- A reset of the same or a higher level already covers the request. -/
def State.covered (s : State) (level target : Nat) : Bool :=
  s.wdg.episodes.any fun e => decide (level ≤ e.level) && s.contains e level target

/-- The reset level in progress on an engine's scope (`WDG_ENGINE.LEVEL`). -/
def State.engineLevel (s : State) (q : Nat) : Nat :=
  (s.wdg.episodes.map fun e =>
    if q < 1536 then (if s.contains e 1 (q % 768) then e.level else 0)
    else if 4 ≤ e.level then e.level
    else if e.level = 3 then
      (if q < 1728 then (if bitOf (s.job e.target).panels.toNat ((q - 1536) / 4) then 3 else 0)
       else match (s.eq q).cur with
        | some a => if a.entry.part = e.target then 3 else 0
        | none => 0)
    else 0).foldl max 0

/-! ### The sample (R428, R429) -/

/-- Address of a logical easel's sample area. -/
def State.sampleAddr (s : State) (i : Nat) : Addr :=
  ownAddr s.dp.coord 0 (sampleOff i)

/-- Sections: offset, size (Table 12.4). -/
def sampleSections : List (Nat × Nat) :=
  [(0x0200, 0x140), (0x1000, 4096), (0x2000, 4096), (0x3000, 8192), (0x5000, 4096), (0x6000, 4096), (0x7000, 512)]

/-- Bytes 0x0200 to 0x71FF: an unread section is zeros. -/
def State.sampleBody (s : State) (i : Nat) (valid : BitVec 7) : List Byte :=
  (List.range 7).foldl (fun l n =>
    let sec := sampleSections.getD n (0, 0)
    let b := if bitOf valid.toNat n then (s.sampleSection i n ++ List.replicate sec.2 0).take sec.2 else List.replicate sec.2 0
    overlay l (sec.1 - 0x200) b) (List.replicate 0x7000 0)

/-- The header (Table 12.5). -/
def State.sampleHeader (s : State) (i level : Nat) (status : BitVec 16) (valid : BitVec 7) (body : List Byte) : List Byte :=
  let cur := match (s.eq i).cur with
    | some a => some a
    | none => (s.eq (768 + i)).cur
  let epoch := match cur with | some a => a.entry.tag.epoch.toNat | none => 0xFF
  let step := match cur with | some a => a.entry.tag.step.toNat | none => 0
  let h := le 2 1 ++ le 1 level ++ le 1 valid.toNat ++ le 2 status.toNat ++ le 2 i ++ le 2 (s.physOf i)
    ++ le 1 ((s.easelPart i).getD 0xFF) ++ le 1 epoch ++ le 4 step ++ le 8 s.dp.evr.nextSeq.toNat
    ++ le 4 (Sparse.get 0 s.wdg.samples i + 1)
  h ++ le 4 (crc32c (h ++ body)).toNat ++ le 480 0

/-- Copy the easel's state to its sample area, the header last, and log SAMPLE. -/
def State.takeSample (s : State) (i level : Nat) (status : BitVec 16) (engine : Nat) (valid : BitVec 7) (env : Env) : State :=
  let body := s.sampleBody i valid
  let head := s.sampleHeader i level status valid body
  let a := s.sampleAddr i
  let c := s.ctx env .ovind
  let s := (s.runOp env (do
    writeAt c (a + 0x200) body
    writeAt c (a + 0x7200) (List.replicate 0x8E00 0)
    writeAt c a head)).1
  ({ s with wdg := { s.wdg with samples := Sparse.upd 0 s.wdg.samples i (· + 1) } } : State).levelRecord 2 level i status engine 0 a

/-! ### The levels (R423 to R427) -/

/-- Tags in flight on a queue. -/
def State.tagsOn (s : State) (q : Nat) : List Tag := match (s.eq q).cur with | some a => [a.entry.tag] | none => []

/-- Tags of the wet epochs of a partition that have posted an entry to a queue (R424). -/
def State.postedTags (s : State) (k q : Nat) : List Tag :=
  (s.eq q).tags.filter fun t =>
    let x := (s.wet k).ent t.epoch.toNat
    decide (x.state = .wet) && x.step == t.step

def State.setEpisode (s : State) (e : Episode) : State :=
  { s with wdg := { s.wdg with episodes := s.wdg.episodes ++ [e], status := e.status, level := BitVec.ofNat 4 e.level } }

/-- REPORT of cause RESET for each epoch of a list of tags, once per epoch. -/
def State.reportReset (s : State) (k : Nat) (tags : List Tag) (status : BitVec 16) : State :=
  (tags.map (·.epoch)).eraseDups.foldl (fun s e => s.report k e causeRst status none) s

def State.endWith (s : State) (qs : List Nat) (status : BitVec 16) (env : Env) : State :=
  qs.foldl (fun s q => s.endEngine q ((Status.ofCode status.toNat).getD .smudged) env) s

/-- Levels 1 and 2: the context's operations end, the easel is cleared, the epochs are reported. -/
def State.easelReset (s : State) (level i : Nat) (status : BitVec 16) (env : Env) : State :=
  let k := s.easelPart i
  let tags := match k with
    | some k => s.tagsOn i ++ s.tagsOn (768 + i) ++ (if level = 2 then s.postedTags k i ++ s.postedTags k (768 + i) else [])
    | none => []
  let s := (s.endWith [i, 768 + i] status env).clearEasel i (level == 2)
  let s := if level = 2 then (s.resetQueue i).resetQueue (768 + i) else s
  match k with
  | some k => if tags = [] then s else (s.reportReset k tags status).holdQueues [i, 768 + i]
  | none => s

/-- Movers of a partition's panels. -/
def State.moversOf (s : State) (k : Nat) : List Nat :=
  ((List.range 48).filter fun p => bitOf (s.job k).panels.toNat p).flatMap fun p => (List.range 4).map fun m => 1536 + 4 * p + m

/-- Varnish queues that hold an entry of a partition. -/
def State.varnishOf (s : State) (k : Nat) : List Nat :=
  (List.range 16).map (1728 + ·) |>.filter fun q => match (s.eq q).cur with
    | some a => a.entry.part == k
    | none => false

/-- Level 3. -/
def State.partReset (s : State) (k : Nat) (status : BitVec 16) (env : Env) : State :=
  let es := s.easelsOf k
  let qs := es ++ es.map (768 + ·) ++ s.moversOf k
  let vs := s.varnishOf k
  let wet := ((List.range 256).filter fun e => ((s.wet k).ent e).state = .wet).map fun e =>
    ({ step := ((s.wet k).ent e).step, epoch := BitVec.ofNat 8 e } : Tag)
  let s := (s.endWith (qs ++ vs) status env).cqEndAll k ((Status.ofCode status.toNat).getD .smudged) env
  let s := es.foldl (fun s i => s.clearEasel i true) s
  let s := qs.foldl State.resetQueue s
  let s := vs.foldl State.reissueVarnish s
  let s := s.updWet k fun w => { w with dupLog2 := 6, smudge := {}, dupMismatch := {}, stall := {}, hostWet := {} }
  let s := wet.foldl (fun s t => s.smudgeEpoch k t.epoch) s
  let s := s.cqReset k
  (s.reportReset k wet status).holdQueues (qs ++ (s.cqsOf k).map (1744 + ·))

/-- A reset is requested (R420); `sampled`: by an escalation within an episode, which has its sample: it joins a covering one, or abandons the lower ones in its scope and begins. -/
def State.requestReset (s : State) (level target : Nat) (status : BitVec 16) (engine : Nat) (sampled : Bool) (inp : ResetIn)
    (env : Env) : State :=
  let me : Episode := { level, target, status, engine, begun := s.dp.now }
  if 5 ≤ level then s.powerRequest status
  else if level = 4 then s.moduleReset status true sampled
  else if s.covered level target then s.absorb me
  else
    let low := s.wdg.episodes.filter fun e => s.contains me e.level e.target
    let s := low.foldl State.absorb
      { s with wdg := { s.wdg with episodes := s.wdg.episodes.filter fun e => !s.contains me e.level e.target } }
    let s := if level ≤ 2 ∧ !sampled then s.takeSample target level status engine inp.valid env else s
    let s := (s.levelRecord 3 level target status engine 0 0).setEpisode me
    if level = 3 then s.partReset target status env else s.easelReset level target status env

/-- A level of 1 to 3 is complete: its scope is released (R417). -/
def State.resetDone (s : State) (level target : Nat) : State :=
  match s.wdg.episodes.find? fun e => e.level == level && e.target == target && decide (level ≤ 3) with
  | none => s
  | some e =>
    let s := { s with wdg := { s.wdg with
      episodes := s.wdg.episodes.filter fun x => !(x.level == level && x.target == target)
      reset := s.wdg.reset.hwSet
      lastReset := if level ≤ 2 then Sparse.set 0 s.wdg.lastReset target (s.dp.now + 1) else s.wdg.lastReset } }
    s.levelRecord 6 level target e.status e.engine (spanUs e.begun s.dp.now) 0

/-! ### Retirement (01 R25 to R27) -/

def State.saveMap (s : State) (p : Nat) : State :=
  { s with flash := { s.flash with emap := Sparse.set {} s.flash.emap p (s.panelMap p) } }

def State.setObs (s : State) (i : Nat) (o : Obs) : State :=
  let s := s.onDp fun d => { d with obs := Sparse.set {} d.obs i o }
  { s with flash := { s.flash with obs := Sparse.set {} s.flash.obs i o } }

/-- The votes of a physical easel pass to the one that takes its place. -/
def State.moveVotes (s : State) (old new : Nat) : State :=
  let v := (s.domain old).votes
  ((s.cutEasel old).updDomain new fun d => { d with votes := v }).evalUp new

def State.retire (s : State) (i : Nat) (inp : ResetIn) (env : Env) : State :=
  let p := i / 16
  let q := (s.panelMap p).at (i % 16)
  let sp := (s.panelMap p).spare
  let bit := BitVec.ofNat 17 (2 ^ q)
  if q = 0x1F then s
  else if sp = 0x1F then
    let s := s.updPanel p fun m => { m with phys := m.phys.set (i % 16) 0x1F, retired := m.retired ||| bit }
    let s := (s.saveMap p).cutEasel (17 * p + q)
    let s := (s.easelRecord (17 * p + q) i 1).reportDegraded
    (s.easelRecord (17 * p + q) i 5).setObs i {}
  else
    let joins := s.covered 2 i
    let s := s.requestReset 2 i Status.smudged.toCode 0xFFFF false inp env
    let s := s.updPanel p fun m =>
      { phys := m.phys.set (i % 16) sp, retired := m.retired ||| bit, spare := 0x1F, otpPending := true }
    let s := (s.saveMap p).moveVotes (17 * p + q) (17 * p + sp.toNat)
    let s := if joins then s else s.resetDone 2 i
    let s := s.easelRecord (17 * p + q) i 1
    let r := s.otpProgram (0x10 + p) (remapBytes (s.panelMap p)) inp.otpOk
    let s := if r.2 then (r.1.updPanel p fun m => { m with otpPending := false }).saveMap p
      else r.1.easelRecord (17 * p + q) i 3
    (s.easelRecord (17 * p + q) i 5).setObs i {}

/-! ### Observation (10 R379, R380) -/

/-- Seconds of an observation. -/
def obsSeconds : BitVec 32 := 86400

/-- A fault of a logical easel is counted: the observation begins or begins again; 8 transient faults are one permanent;
at 2 permanent faults the physical easel is retired. -/
def State.observe (s : State) (i : Nat) (permanent : Bool) (inp : ResetIn) (env : Env) : State :=
  let o := Sparse.get {} s.dp.obs i
  let t := o.transient.toNat + boolN (!permanent)
  let perm := o.permanent.toNat + boolN permanent + boolN (t == 8)
  let s := s.setObs i { permanent := BitVec.ofNat 8 perm, transient := BitVec.ofNat 8 (t % 8), left := obsSeconds }
  let s := if o.left = 0 then s.easelRecord (s.physOf i) i 4 else s
  if 2 ≤ perm then s.retire i inp env else s

/-! ### Hangs (R412 to R416) -/

def State.wdgEng (s : State) (q : Nat) : WdgEng := Sparse.get {} s.wdg.engines q
def State.updWdgEng (s : State) (q : Nat) (f : WdgEng → WdgEng) : State :=
  { s with wdg := { s.wdg with engines := Sparse.upd {} s.wdg.engines q f } }

/-- Entry level and target of a hang of an engine (Table 12.1); none when no partition owns the engine. -/
def State.hangLevel (s : State) (q : Nat) : Option (Nat × Nat) :=
  if q < 1536 then
    let i := q % 768
    let t := Sparse.get 0 s.wdg.lastReset i
    some (if t ≠ 0 ∧ spanUs (t - 1) s.dp.now < 10000000 then (2, i) else (1, i))
  else if q < 1728 then ((List.range 4).find? fun k => (s.job k).used && bitOf (s.job k).panels.toNat ((q - 1536) / 4)).map (3, ·)
  else match (s.eq q).cur with
    | some a => some (3, a.entry.part)
    | none => none

/-- A hang is declared: flag, counter, record (R414). -/
def State.declareHang (s : State) (q elapsed : Nat) (addr : BitVec 64) : State :=
  let s := { s with wdg := { s.wdg with hang := s.wdg.hang.hwSet } }
  let s := s.updWdgEng q fun w => { w with hangs := satInc w.hangs }
  match s.hangLevel q with
  | some (l, t) => s.levelRecord 1 l t Status.hang.toCode q elapsed addr
  | none => s.levelRecord 1 0 0 Status.hang.toCode q elapsed addr

/-- The address field of a record whose cause names another module: DEST's layout (08 Table 8.6). -/
def destAddr (c : BitVec 17) : BitVec 64 := c.setWidth 64

/-- A hang that names another module asks the hedge manager first; further hangs join the question (R415). -/
def State.askLost (s : State) (c : BitVec 17) (level target engine : Nat) : State :=
  if s.wdg.queries.any fun q => q.coord == c then
    { s with wdg := { s.wdg with queries := s.wdg.queries.map fun (q : Query) =>
      if q.coord = c then { q with waits := q.waits ++ [(level, target, engine)] } else q } }
  else
    ({ s with wdg := { s.wdg with queries := s.wdg.queries ++ [{ coord := c, waits := [(level, target, engine)] }] } } : State).mgmt
      .lostQuery c s.dp.coord.code.toNat

end Sys2Proof.Machine
end

