-- ==== Sys2Proof/Machine/Groups.lean ====
section
/-! DEFINITION. Groups of a job's modules: creation, commit, destruction, release, shares, placement tables (09 R309 to R315, R339, R344). -/
namespace Sys2Proof.Machine

/-! ### The group descriptor (Table 9.1) -/

structure GD where
  id      : BitVec 32
  job     : BitVec 16
  mask    : Nat
  cls     : Nat
  /-- START, COUNT, STRIDE, reserved byte of S, H, P, D. -/
  axes    : List (List Nat)
  abi     : BitVec 16
  weight  : Nat
  timeout : Nat
  staging : Addr
  bytes   : Nat
  table   : Addr
  resv    : List Byte

def GD.ofBytes (l : List Byte) : GD :=
  { id := BitVec.ofNat 32 (fld l 0 4), job := BitVec.ofNat 16 (fld l 4 2), mask := fld l 6 1, cls := fld l 7 1
    axes := (List.range 4).map fun a => (List.range 4).map fun i => fld l (8 + 4 * a + i) 1
    abi := BitVec.ofNat 16 (fld l 24 2), weight := fld l 26 1, timeout := fld l 28 4, staging := BitVec.ofNat 64 (fld l 32 8)
    bytes := fld l 40 4, table := BitVec.ofNat 64 (fld l 44 8), resv := slice l 27 1 ++ slice l 52 4 ++ slice l 60 4 }

/-- Coordinates along an axis (07 Table 7.2). -/
def axisRange (a : Nat) : Nat := if a = 0 then 16 else if a = 1 then 64 else if a = 2 then 16 else 8

/-- R310 for one axis. -/
def GD.axisOk (g : GD) (a : Nat) : Bool :=
  let x := g.axes.getD a []
  if bitOf g.mask a then
    nth x 3 == 0 && decide (1 ≤ nth x 1) && decide (1 ≤ nth x 2) && decide (nth x 0 + (nth x 1 - 1) * nth x 2 < axisRange a)
  else x.all (· == 0)

/-- The reserved-field row of Table 9.2. -/
def GD.fieldBad (g : GD) (held : Bool) : Bool :=
  !zeros g.resv || g.id == 0 || held || g.mask == 0 || decide (16 ≤ g.mask) || decide (8 ≤ g.cls) || !(List.range 4).all g.axisOk
    || g.weight == 0 || decide (60000 < g.timeout) || decide (g.bytes < 2 ^ 20) || decide (g.bytes % 4096 ≠ 0)

/-- The group as a queue holds it. -/
def GD.group (g : GD) (k : Nat) (own : Coord) (minor : Nat) : Group :=
  { id := g.id, job := g.job, part := k, cls := g.cls, own, minor, weight := g.weight, staging := g.staging, bytes := g.bytes
    table := g.table, links := []
    axes := (List.range 4).map fun a =>
      let x := g.axes.getD a []
      if bitOf g.mask a then some (nth x 0, nth x 1, nth x 2) else none }

/-! ### Expert placement tables (Table 9.8) -/

structure Placement where
  experts  : Nat
  capacity : Nat
  policy   : Nat
  topk     : Nat
  overflow : Nat
  crc      : BitVec 32
  /-- Coordinate code and local slot of each expert. -/
  entries  : List (Nat × Nat)
  bad      : Bool

def Placement.ofBytes (l : List Byte) : Placement :=
  let e := fld l 4 4
  let p : Placement := {
    experts := e, capacity := fld l 8 4, policy := fld l 12 1, topk := fld l 13 1, overflow := fld l 16 4
    crc := BitVec.ofNat 32 (fld l 24 4), bad := false
    entries := (List.range e).map fun x => (fld l (32 + 8 * x) 4, fld l (36 + 8 * x) 2) }
  { p with bad := !zeros (slice l 14 2 ++ slice l 20 4 ++ slice l 28 4)
      || !((List.range e).all fun x => fld l (38 + 8 * x) 2 == 0 && decide (fld l (36 + 8 * x) 2 < 1024))
      || e == 0 || decide (65536 < e) || decide (p.capacity < 32) || decide (2 ^ 20 < p.capacity) || !(p.policy == 1 || p.policy == 2)
      || p.topk == 0 || decide (16 < p.topk) || decide (2 ^ 20 < p.overflow) || (p.policy == 2 && p.overflow ≠ 0) }

/-- Read and check a placement table (R339); its object code is that of R347. -/
def takePlacement (c : Ctx) (ptr : Addr) : Op Placement := do
  let d ← get
  if ptr.toNat % 32 ≠ 0 then failOp .align ptr 0x0B
  else if spaceOf d.coord ptr ≠ 2 then failOp .bounds ptr 0x0B
  else
    let h ← tryCatch (readAt c ptr 32) (fun f => failOp f.st ptr 0x0B)
    if fld h 4 4 = 0 ∨ 65536 < fld h 4 4 then failOp .fieldReserved ptr 0x0B 4
    else
      let l ← tryCatch (readAt c ptr (32 + 8 * fld h 4 4)) (fun f => failOp f.st ptr 0x0B)
      let p := Placement.ofBytes l
      if crc32c (slice l 0 24 ++ l.drop 32) ≠ p.crc then failOp .checkTile ptr 0x0B 24
      else if p.bad then failOp .fieldReserved ptr 0x0B
      else pure p

/-! ### ABI, shares -/

/-- R313: one major that is ABI_MIN's, the lowest minor at least ABI_MIN's. -/
def abiMinor (abis : List (BitVec 16)) (low : BitVec 16) : Option Nat :=
  let minor := (abis.map fun a => a.toNat % 256).foldl min 255
  if (abis.all fun a => a.toNat / 256 == low.toNat / 256) && decide (low.toNat % 256 ≤ minor) then some minor else none

/-- The job's class may be reserved on a link direction (R344). -/
def State.shareOk (s : State) (n cls : Nat) (job : BitVec 16) (weight : Nat) : Bool :=
  let x := s.share n cls
  if x.held then x.job == job
  else decide (((List.range 8).map fun c => if (s.share n c).held then (s.share n c).weight.toNat else 0).foldl (· + ·) 0 + weight ≤ 256)

def State.reserve (s : State) (n cls : Nat) (job : BitVec 16) (weight : Nat) : State :=
  if (s.share n cls).held then s
  else s.updShare n cls fun x => { x with held := true, job, weight := BitVec.ofNat 8 weight }

/-- Links on which no queue but `q` uses the job's share give it up. -/
def State.releaseShares (s : State) (q : Nat) (g : Group) : State :=
  g.links.foldl (fun s n =>
    let used := s.cqs.any fun c => c.1 ≠ q && match c.2.group with | some h => h.job == g.job && h.links.contains n | none => false
    if used then s else s.updShare n g.cls fun x => { x with held := false, job := 0, weight := 0 }) s

/-! ### GROUP_CREATE (R312, Table 9.2) -/

/-- The coordinate this module stands for: its own, or the lost one it took over (R311). -/
def State.coordFor (s : State) (k : Nat) : Coord :=
  match (s.job k).subst.find? fun p => p.2 == s.dp.coord.code with
  | some p => Coord.ofCode (BitVec.ofNat 17 p.1)
  | none => s.dp.coord

/-- The module that holds a coordinate of the job. -/
def State.holderOf (s : State) (k : Nat) (c : Coord) : Coord :=
  Coord.ofCode (((s.job k).subst.find? fun p => p.1 == c.code.toNat).map (·.2) |>.getD c.code)

def State.groupHeld (s : State) (job : BitVec 16) (id : BitVec 32) : Bool :=
  s.cqs.any fun c => match c.2.group with | some g => g.job == job && g.id == id | none => false

/-- STAGING lies in granules of the job on this module. -/
def State.stagingOk (s : State) (k : Nat) (a : Addr) (n : Nat) : Bool :=
  match resolve s.dp.coord a with
  | some (.here sp off) =>
    (sp == 0 || sp == 2) && decide (n ≠ 0) && mapped off && mapped (off + n - 1) &&
      ((List.range (granuleOf (off + n - 1) + 1 - granuleOf off)).all fun i =>
        let r := s.dp.mem.regionOf (granuleOf off + i)
        regionPart r == k && decide (1 ≤ regionType r) && decide (regionType r ≤ 5))
  | _ => false

/-- ABI versions that the links to other members report in LNK_STATE.PEER_ABI (R312 step 2; 08 R293). -/
def State.linkAbis (s : State) (g : Group) : List (BitVec 16) :=
  (List.range 96).filterMap fun n =>
    let l := s.link n
    if (l.st = .active ∨ l.st = .degraded) ∧ (g.rankOf (Coord.ofCode l.peerCoord)).isSome then some l.peerAbi else none

/-- The descriptor with its placement table, or the status of the first row of Table 9.2 that fails. -/
def State.groupCheck (s : State) (k : Nat) (desc : Addr) (inp : GroupIn) : Op (GD × Nat) := do
  let c := s.ctx {} .ovind
  if desc.toNat % 32 ≠ 0 then failOp .align desc 0x0B
  let l ← tryCatch (readAt c desc 64) (fun f => failOp f.st desc 0x0B)
  let g := GD.ofBytes l
  if g.staging.toNat % 4096 ≠ 0 then failOp .align desc 0x0B 32
  if crc32c (slice l 0 56) ≠ BitVec.ofNat 32 (fld l 56 4) then failOp .checkTile desc 0x0B 56
  if g.job ≠ (s.job k).id ∨ g.fieldBad (s.groupHeld g.job g.id) then failOp .fieldReserved desc 0x0B
  let grp := g.group k (s.coordFor k) 0
  if inp.missing ∨ (grp.rankOf grp.own).isNone ∨ !s.stagingOk k g.staging g.bytes then failOp .bounds desc 0x0B
  if g.table ≠ 0 then
    let p ← takePlacement c g.table
    if inp.tables.any (· ≠ p.crc) then failOp .fieldReserved g.table 0x0B 24
  match abiMinor (s.fw.collAbi :: (inp.abis ++ s.linkAbis grp)) g.abi with
  | some m => pure (g, m)
  | none => failOp .groupAbi desc 0x0B 24

/-- The lowest free queue. -/
def State.freeQueue (s : State) : Option Nat := (List.range 64).find? fun q => (s.cq q).group.isNone

/-- A member's part of the transaction, its routes before its queue and staging (R312): its status goes to the hedge manager; with `ST_OK` a queue and its shares are held
until the barrier. -/
def State.groupCreate (s : State) (k : Nat) (desc : Addr) (inp : GroupIn) (env : Env) : State :=
  let s := s.onDp (·.upsets env.upsets)
  let s := if inp.table.isEmpty then s else s.loadRoutes inp.table
  let tell (s : State) (st : Status) : State := s.mgmt .groupCreate s.dp.coord.code (st.toCode.setWidth 64)
  if !(s.job k).used then s
  else
    let r := s.runOp {} (s.groupCheck k desc inp)
    match r.2 with
    | .error f => tell r.1 f.st
    | .ok (gd, minor) =>
      let s := r.1
      let g := gd.group k (s.coordFor k) minor
      let n := (g.neighbours g.rank).length
      let fits (l : List Link) : Bool := l.all fun x => s.shareOk x.val g.cls g.job g.weight
      let pick := if inp.refused then none else if inp.routes.isEmpty then some [] else inp.routes.find? fits
      match pick with
      | none => tell s .routeConflict
      | some links =>
        match s.freeQueue with
        | none => tell s .queueExhausted
        | some q =>
          if n ≠ 0 ∧ g.slots < 4 then tell s .queueExhausted
          else
            let s := links.foldl (fun s x => s.reserve x.val g.cls g.job g.weight) s
            let s := s.updCq q fun c =>
              { c with group := some { g with links := links.map (·.val) }, committed := false, destroying := false, base := inp.ring
                       sizeLog2 := inp.sizeLog2, timeout := if gd.timeout = 0 then 200 else BitVec.ofNat 16 gd.timeout
                       last := 0, head := 0, cur := none, credits := g.credits, deferred := [], log := [], posted := [], accepted := []
                       replay := [] }
            tell s .ok

/-- The owner host's GROUP_CREATE gives the descriptor and waits for the transaction's outcome (14 Table 14.7). -/
def State.groupCreateCmd (s : State) (k : Nat) (seq : BitVec 48) (inp : GroupIn) (env : Env) : State :=
  match s.cmdReady seq 0x41 with
  | none => s
  | some c => (s.waitCmd c).groupCreate k (BitVec.ofNat 64 (fld c.req.payload 0 8)) inp env

def execGroupCreate (part : Part) (desc : Addr) (inp : GroupIn) (env : Env) (cmd : Option (BitVec 48)) (s : State) : Out :=
  .next (match cmd with
    | some seq => s.groupCreateCmd part seq inp env
    | none => s.groupCreate part desc inp env)

/-! ### Commit, destroy, release -/

def State.queueOf (s : State) (k : Nat) (id : BitVec 32) : Option Nat :=
  (s.cqs.find? fun c => match c.2.group with | some g => g.part == k && g.id == id | none => false).map (·.1)

/-- The outcome is logged at each hedge manager (R312). -/
def State.groupRecord (s : State) (job : BitVec 16) (id : BitVec 32) (st : Status) : State :=
  if s.isManager then s.record 0x0500 (src 0 0) st (le 4 id.toNat ++ le 2 job.toNat) else s

/-- A queue is free again: its register flags and counters stand. -/
def Cq.freed (c : Cq) : Cq :=
  { timeout := c.timeout, lastFault := c.lastFault, fPressure := c.fPressure, fOrder := c.fOrder, fFault := c.fFault, stale := c.stale
    sizeLog2 := c.sizeLog2, base := c.base }

def State.freeGroup (s : State) (q : Nat) : State :=
  match (s.cq q).group with
  | some g => (s.releaseShares q g).updCq q Cq.freed
  | none => s

/-- The barrier has completed, or some member failed: commit or release (R312). `peers` gives the queue numbers of the other
members by rank. -/
def State.groupCommit (s : State) (k : Nat) (id : BitVec 32) (st : Status) (peers : List (BitVec 17 × Fin 64)) : State :=
  let s : State := s.groupRecord (s.job k).id id st
  let peerQ : List (Nat × Nat) := peers.foldl (fun m p => Sparse.set 64 m p.1.toNat p.2.val) []
  let s : State := match s.queueOf k id with
    | none => s
    | some q =>
      if (s.cq q).committed then s
      else if st = Status.ok then
        s.updCq q fun c => { c with
          committed := true, enable := true, st := .running
          group := c.group.map fun (g : Group) => { g with peerQ := peerQ } }
      else s.freeGroup q
  s.send (.answer st 0)

/-- A host's GROUP_CREATE completes with the transaction, QUEUE its response. -/
def State.groupCommitCmd (s : State) (k : Nat) (id : BitVec 32) (st : Status) (seq : BitVec 48) : State :=
  match s.cmdWaiting seq 0x41 with
  | none => s
  | some c => s.finish c st (match s.queueOf k id with
    | some q => le 4 q
    | none => [])

def execGroupCommit (part : Part) (id : BitVec 32) (status : Status) (peers : List (BitVec 17 × Fin 64))
    (cmd : Option (BitVec 48)) (s : State) : Out :=
  .next (let s := s.groupCommit part id status peers
    match cmd with
    | some seq => s.groupCommitCmd part id status seq
    | none => s)

/-- A committed group starts to be destroyed. -/
def State.groupDestroy (s : State) (k : Nat) (id : BitVec 32) : State :=
  match s.queueOf k id with
  | some q => if (s.cq q).committed then s.updCq q fun c => { c with destroying := true } else s
  | none => s

/-- The owner host's GROUP_DESTROY waits for the release; a job or group that the module does not hold is a field outside
its range. -/
def State.groupDestroyCmd (s : State) (seq : BitVec 48) : State :=
  match s.cmdReady seq 0x40 with
  | none => s
  | some c =>
    let id := BitVec.ofNat 32 (fld c.req.payload 4 4)
    match s.jobPart (BitVec.ofNat 16 (fld c.req.payload 0 2)) with
    | none => s.finish c .fieldReserved []
    | some k => if (s.queueOf k id).isNone then s.finish c .fieldReserved [] else (s.groupDestroy k id).waitCmd c

def execGroupDestroy (part : Part) (id : BitVec 32) (cmd : Option (BitVec 48)) (s : State) : Out :=
  .next (match cmd with
    | some seq => s.groupDestroyCmd seq
    | none => s.groupDestroy part id)

/-- Every operation in the queue is complete; a stopped queue accepts none (R314, R323). -/
def Cq.idle (c : Cq) : Bool := c.cur.isNone && (c.st == .stopped || (c.posted.isEmpty && c.replay.isEmpty))

/-- Host commands that wait for a group's release complete. -/
def State.releasedCmds (s : State) (g : Group) : State :=
  (s.mbx.cmds.filter fun c => c.waiting && c.req.opcode == 0x40 && fld c.req.payload 0 2 == g.job.toNat
    && fld c.req.payload 4 4 == g.id.toNat).foldl (fun s c => s.finish c .ok []) s

def State.groupRelease (s : State) (q : Nat) : State :=
  match (s.cq q).group with
  | none => s
  | some g =>
    if (s.cq q).destroying && (s.cq q).idle then
      ((s.freeGroup q).mgmt .groupRelease s.dp.coord.code 0).releasedCmds g
    else s

def execGroupRelease (queue : Fin 64) (s : State) : Out := .next (s.groupRelease queue)

end Sys2Proof.Machine
end

