-- ==== Sys2Proof/Machine/Integrity.lean ====
section
/-! DEFINITION. Duplicates, third executions, suspects, observation, fleet test packages (10 R372 to R386). -/
namespace Sys2Proof.Machine

/-! ### Duplicates (R374 to R377) -/

/-- The easel `panels` panels on. -/
def easelOn (i panels : Nat) : Nat := (i / 16 + panels) % 48 * 16 + i % 16

/-- The easel that runs a re-execution `panels` panels on; a suspect runs it itself, an unmapped easel's runs on another (R381). -/
def State.dupOn (s : State) (i panels : Nat) : Nat :=
  let e := easelOn i panels
  if s.physOf e = 0xFFFF then s.runsOn e else e

def State.dup (s : State) (id : BitVec 32) : Option Dup := s.integ.dups.find? fun d => d.id == id

/-- A duplicate is settled: its epoch no longer waits for it. -/
def State.settleDup (s : State) (d : Dup) : State :=
  ({ s with integ := { s.integ with dups := s.integ.dups.filter fun x => x.id != d.id } } : State).updWet d.part fun w =>
    w.updInf d.epoch.toNat fun i => { i with dups := i.dups - 1 }

def State.setDup (s : State) (id : BitVec 32) (f : Dup → Dup) : State :=
  { s with integ := { s.integ with dups := s.integ.dups.map fun (d : Dup) => if d.id = id then f d else d } }

/-- The wasted slots of a duplicate (R374). -/
def State.wasteOn (s : State) (d : Dup) (panels : Nat) (act : Activity) : State :=
  if d.mover then s else s.updPct (s.dupOn d.easel panels) fun p => p.account none act

/-- The first waiting unit starts once one of the 256 check buffers is free; a duplicate that fails a tile check reports
like any consumer and is not counted as a mismatch (R375). -/
def State.dupStart (s : State) (id : BitVec 32) (fault : Option (Option Tag)) (act : Activity) : State :=
  match s.integ.dups.find? (·.waits) with
  | none => s
  | some d =>
    if d.id ≠ id ∨ 256 ≤ (s.integ.dups.filter fun x => !x.waits).length then s
    else
      let s := s.wasteOn d 24 act
      match fault with
      | none => s.setDup id fun x => { x with waits := false }
      | some producer =>
        let own : Tag := { step := ((s.wet d.part).ent d.epoch.toNat).step, epoch := d.epoch }
        let named := match producer with
          | some t => let x := (s.wet d.part).ent t.epoch.toNat; if x.step = t.step ∧ x.state = .wet then t.epoch else d.epoch
          | none => d.epoch
        (s.settleDup d).report d.part named causeCheckTile Status.checkTile.toCode (some own)

def execDuplicateStart (id : BitVec 32) (fault : Option (Option Tag)) (act : Activity) (s : State) : Out :=
  .next (s.dupStart id fault act)

/-- The compare unit takes the original's bytes and the check buffer's: equal settles the unit, a difference sets DUP_MISMATCH
and runs a third execution (R372, R374, R377). -/
def State.dupCompare (s : State) (id : BitVec 32) (results : List Byte × List Byte) : State :=
  match s.dup id with
  | none => s
  | some d =>
    if d.waits ∨ d.third then s
    else if results.1 = results.2 then s.settleDup d
    else (s.updWet d.part fun w => { w with dupMismatch := w.dupMismatch.hwSet }).setDup id fun x => { x with third := true, results }

/-- `results`: of the original, then of the duplicate. -/
def execDuplicateCompare (id : BitVec 32) (results : List Byte × List Byte) (s : State) : Out := .next (s.dupCompare id results)

/-- DUPLICATE record, which names the easel of the original or the suspect by its logical index (01 R21), a mover's unit by its
engine: three physical indices, outcome, node, tile, class (16 Table 16.3). -/
def State.dupRecord (s : State) (source : BitVec 16) (phys : List Nat) (outcome : Nat) (node : BitVec 32) (tile : BitVec 64)
    (cls : Nat) : State :=
  s.record 0x0301 source .dupMismatch
    ((phys.flatMap fun x => le 2 x) ++ le 1 outcome ++ le 4 node.toNat ++ le 8 tile.toNat ++ le 1 cls)

/-- Table 10.9: the third execution agrees with the duplicate (1), the original (2), neither (3). -/
def Dup.agrees (d : Dup) (third : List Byte) : Nat := if third = d.results.2 then 1 else if third = d.results.1 then 2 else 3

/-- The suspects of an outcome. The spec states no result standing where the original was wrong: the one that two executions
gave is the majority's (DEDUCED, log entry 118). -/
def State.suspectsOf (s : State) (d : Dup) (outcome : Nat) (third : List Byte) : List Suspect :=
  let sus (i : Nat) (l : List Byte) (standing : Option (List Byte)) : Suspect :=
    { easel := i, part := d.part, epoch := d.epoch, node := d.node, tile := d.tile, outcome, result := some l, crc := crc32c l, standing }
  let orig := s.runsOn d.easel
  let dup := s.dupOn d.easel 24
  if d.mover then []
  else if outcome = 1 then [sus orig d.results.1 (some third)]
  else if outcome = 2 then [sus dup d.results.2 (some third)]
  else [sus orig d.results.1 none, sus dup d.results.2 none, sus (s.dupOn d.easel 12) third none]

def State.thirdDone (s : State) (id : BitVec 32) (third : List Byte) (act : Activity) : State :=
  match s.dup id with
  | none => s
  | some d =>
    if !d.third then s
    else
      let outcome := d.agrees third
      let s := s.wasteOn d 12 act
      let es := [s.runsOn d.easel, s.dupOn d.easel 24, s.dupOn d.easel 12]
      let phys := if d.mover then [0xFFFF, 0xFFFF, 0xFFFF] else es.map s.physOf
      let s := s.dupRecord (if d.mover then src 3 (1536 + d.easel / 16 * 4 + d.easel % 16) else src 1 d.easel) phys outcome d.node d.tile 0
      let s := { s with integ := { s.integ with suspects := s.integ.suspects ++ s.suspectsOf d outcome third } }
      let s := s.settleDup d
      if outcome = 2 then s else s.report d.part d.epoch causeDup Status.dupMismatch.toCode none

def execThirdExecution (id : BitVec 32) (third : List Byte) (act : Activity) (s : State) : Out :=
  .next (s.thirdDone id third act)

/-! ### Suspects and observation (R378, R379) -/

/-- A repeat's class: permanent where it gives the earlier result again or one that matches nothing, transient where it matches
the result standing. -/
def transientRepeat {α : Type} [DecidableEq α] (earlier standing rep : α) : Bool := rep ≠ earlier && rep = standing

/-- A suspect is classified: its record, and the fault counts (R379). -/
def State.classify (s : State) (x : Suspect) (transient : Bool) (inp : ResetIn) (env : Env) : State :=
  let s := { s with integ := { s.integ with suspects := s.integ.suspects.erase x } }
  let s := s.dupRecord (src 1 x.easel) [s.physOf x.easel, 0xFFFF, 0xFFFF] x.outcome x.node x.tile (if transient then 1 else 2)
  s.observe x.easel (!transient) inp env

/-- The other suspects of the unit. -/
def Suspect.peers (x : Suspect) (l : List Suspect) : List Suspect :=
  l.filter fun y => y.part == x.part && y.node == x.node && y.tile == x.tile && y.easel != x.easel

/-- A suspect repeats its execution (R378): against its earlier result and the one standing; where none stands, once the repeats of
all the unit's suspects are there, against theirs; where a smudge has removed the inputs, by CRC during the replay, against the
replay's own. -/
def State.suspectRepeat (s : State) (i : Nat) (r : RepeatIn) (inp : ResetIn) (env : Env) : State :=
  match s.integ.suspects.find? fun x => x.easel == i && x.rep.isNone with
  | none => s
  | some x =>
    match x.result, x.standing with
    | some l, some st => s.classify x (transientRepeat l st r.result) inp env
    | some _, none =>
      let y := { x with rep := some r.result }
      let s := { s with integ := { s.integ with suspects := s.integ.suspects.map fun z => if z = x then y else z } }
      let all := y :: y.peers s.integ.suspects
      if all.any fun z => z.rep.isNone then s
      else all.foldl (fun s z => s.classify z (z.rep != z.result && (z.peers all).any fun w => w.rep == z.rep) inp env) s
    | none, _ => match r.standing with
      | some st => s.classify x (transientRepeat x.crc (crc32c st) (crc32c r.result)) inp env
      | none => s

def execSuspectRepeat (easel : Easel) (rep : RepeatIn) (inp : ResetIn) (env : Env) (s : State) : Out :=
  .next (s.around env fun s env => s.suspectRepeat easel rep inp env)

/-- The current package for a use bit: the highest VERSION (R384). -/
def State.currentTpk (s : State) (use : Nat) : Option Tpk :=
  (s.integ.tpks.filter fun t => bitOf t.use.toNat use).foldl (fun a t =>
    match a with
    | none => some t
    | some b => if b.version.toNat < t.version.toNat then some t else some b) none

/-- KIND, SCOPE and EXPECT of an item of a package. -/
def Tpk.kind (t : Tpk) (item : Nat) : Nat := fld t.bytes (128 + 64 * item) 1
def Tpk.scope (t : Tpk) (item : Nat) : Nat := fld t.bytes (128 + 64 * item + 1) 1
def Tpk.expect (t : Tpk) (item : Nat) : List Byte := slice t.bytes (128 + 64 * item + 32) 32

/-- An item passes when SM3 of what it gave is EXPECT (Table 10.11). -/
def Tpk.passes (t : Tpk) (r : ItemResult) : Bool := sm3 r.out == t.expect r.item.toNat

/-- A trellis item has used slot 7, whose job image Ovind reloads: the next run there takes the switch. -/
def State.afterItem (s : State) (t : Tpk) (r : ItemResult) : State :=
  if t.kind r.item.toNat = 0x42 ∧ t.scope r.item.toNat = 1 then
    match s.logicalOf r.phys.toNat with
    | some i => s.updTrellis i fun x => { x with last := none }
    | none => s
  else s

/-- One item's result: its record, and what a failure means (R386). An easel's failure is a permanent fault when it is
mapped or under observation; on a panel's spare the action of 01 R24; scopes 2 and 3 make the module DEGRADED. -/
def State.itemResult (s : State) (t : Tpk) (r : ItemResult) (inp : ResetIn) (env : Env) : State :=
  let s := (s.tpkRecord t r.item.toNat r.phys.toNat (if t.passes r then 1 else 2)).afterItem t r
  if t.passes r then s
  else if t.scope r.item.toNat = 1 then
    match s.logicalOf r.phys.toNat with
    | some i => s.observe i true inp env
    | none => if (s.panelMap (r.phys.toNat / 17)).spare.toNat = r.phys.toNat % 17 then s.spareFails (r.phys.toNat / 17) else s
  else s.reportDegraded

def State.itemResults (s : State) (t : Tpk) (rs : List ItemResult) (inp : ResetIn) (env : Env) : State :=
  rs.foldl (fun s r => s.itemResult t r inp env) s

/-- Every 60 s the OBSERVE package's easel items run on an easel under observation. -/
def State.obsTick (s : State) (i : Nat) (results : List ItemResult) (act : Activity) (inp : ResetIn) (env : Env) : State :=
  match (if (Sparse.get ({} : Obs) s.dp.obs i).left = 0 then none else s.currentTpk 0) with
  | none => s
  | some t =>
    let s := s.updPct i fun p => p.account none act
    s.itemResults t (results.filter fun r => t.scope r.item.toNat = 1 ∧ r.phys.toNat = s.physOf i) inp env

def execObservationTpkTick (easel : Easel) (results : List ItemResult) (act : Activity) (inp : ResetIn) (env : Env) (s : State) : Out :=
  .next (s.around env fun s env => s.obsTick easel results act inp env)

/-- 24 h with no fault: both counts return to 0 and the observation ends. The second that is left last stays in LEFT until
this command (log entry 14). -/
def State.obsEnd (s : State) (i : Nat) : State :=
  let o := Sparse.get ({} : Obs) s.dp.obs i
  if o.left = 1 then (s.setObs i {}).easelRecord (s.physOf i) i 5 else s

def execObservationEnd (easel : Easel) (s : State) : Out := .next (s.obsEnd easel)

/-! ### Fleet test packages (R382 to R386) -/

/-- Bytes of an item's descriptor template: an AD, a TRD, an MD; a march and a loopback have none. -/
def templateSize (kind : Nat) : Nat := if kind = 0x41 ∨ kind = 0x42 then 128 else if kind < 0x80 then 64 else 0

/-- Items whose KIND, SCOPE or offsets lie outside Table 10.11 or the package. -/
def itemBad (b : List Byte) (size n : Nat) : Bool :=
  let o := 128 + 64 * n
  let f := fld b
  let kind := f o 1
  let scope := f (o + 1) 1
  !(kind == 0x41 || kind == 0x42 || (0x51 ≤ kind && kind ≤ 0x57) || kind == 0x80 || kind == 0x81)
    || !(1 ≤ scope && scope ≤ 3) || !(zeros (slice b (o + 2) 2) && zeros (slice b (o + 24) 8))
    || decide (size < f (o + 4) 4 + templateSize kind) || decide (size < f (o + 8) 4 + f (o + 12) 4) || decide (65536 < f (o + 16) 4)

/-- R383, from the top. -/
def State.tpkCheck (s : State) (b : List Byte) : Status :=
  let f := fld b
  let size := f 12 4
  let items := f 16 2
  if size < 256 ∨ 2 ^ 23 < size ∨ b.length ≠ size ∨ f 0 2 ≠ 1 ∨ 8 ≤ f 18 2 ∨ !zeros (slice b 64 64) then .fieldReserved
  else if f 2 2 ≠ s.fw.major.toNat then .imageMajor
  else if sm3 (slice b 128 (size - 192)) ≠ slice b 32 32
      ∨ !Config.sm2Verify (s.otpValue 0x04) (b.take (size - 64)) (b.drop (size - 64)) then .auth
  else if s.integ.tpks.any fun t => t.id.toNat == f 4 4 && decide (f 8 4 ≤ t.version.toNat) then .fieldReserved
  else if items = 0 ∨ 256 < items ∨ size < 192 + 64 * items ∨ ((List.range items).any fun n => itemBad b size n) then .fieldReserved
  else if bitOf (f 18 2) 0 ∧ 1000 < f 20 4 then .fieldReserved
  else .ok

def tpkOf (b : List Byte) : Tpk :=
  { id := BitVec.ofNat 32 (fld b 4 4), version := BitVec.ofNat 32 (fld b 8 4), use := BitVec.ofNat 16 (fld b 18 2)
    items := fld b 16 2, bytes := b }

def storeSize (l : List Tpk) : Nat := l.foldl (fun a t => a + t.bytes.length) 0

/-- The stored package to remove first: ascending VERSION, the current OBSERVE package last (R384). -/
def evictFirst (keep : Option Tpk) (l : List Tpk) : Option Tpk :=
  let low (l : List Tpk) : Option Tpk := l.foldl (fun a t => match a with
    | none => some t
    | some b => if t.version.toNat < b.version.toNat then some t else some b) none
  match low (l.filter fun t => some t != keep) with
  | some t => some t
  | none => low l

def evict (keep : Option Tpk) (room : Nat) : Nat → List Tpk → List Tpk
  | 0, l => l
  | fuel + 1, l =>
    if storeSize l ≤ room then l
    else match evictFirst keep l with
      | some t => evict keep room fuel (l.erase t)
      | none => l

/-- Store a checked package; a higher version replaces a lower one of the same identifier (Table 10.10, R384). -/
def State.storeTpk (s : State) (b : List Byte) : State :=
  let t := tpkOf b
  let l := s.integ.tpks.filter fun x => x.id != t.id
  let l := evict (s.currentTpk 0) (2 ^ 23 - b.length) (l.length + 1) l
  { s with integ := { s.integ with tpks := l ++ [t] } }

/-- Check and store; the status. -/
def State.takeTpk (s : State) (b : List Byte) : State × Status :=
  let st := s.tpkCheck b
  if st = .ok then (s.storeTpk b, .ok) else (s, st)

/-- A push of the machine manager: the status goes to the hedge manager (R385). -/
def execTpkPush (package : List Byte) (s : State) : Out :=
  .next (let r := s.takeTpk package
    r.1.mgmt .tpkStatus s.dp.coord.code r.2.toCode.toNat)

/-- The dormant self-test ends: spares and the DORMANT package's items are judged, the next alarm is set, and the module
returns to M2 (01 R24, 13 R455). -/
def State.selfTestDone (s : State) (spares : List Panel) (results : List ItemResult) (inp : ResetIn) (env : Env) : State :=
  if !s.pwr.selfTest then s
  else
    let s := spares.foldl (fun s p => s.spareFails p) s
    let s := match s.currentTpk 1 with
      | some t => s.itemResults t results inp env
      | none => s
    (({ s with pwr := { s.pwr with selfTest := false } } : State).sparesOff).beginEntry 2 trigIdle

def execSelfTestDone (failedSpares : List Panel) (results : List ItemResult) (inp : ResetIn) (env : Env) (s : State) : Out :=
  .next (s.around env fun s env => s.selfTestDone failedSpares results inp env)

end Sys2Proof.Machine
end

