-- ==== Sys2Proof/Machine/Resets.lean ====
section
/-! DEFINITION. Watchdogs, the reset ladder's commands, notices between modules (12). -/
namespace Sys2Proof.Machine

/-- The progress watchdog of an engine expires, once `WDG_CTRL.LIMIT_MS` has passed without progress (R412): HANG, observation with one transient fault for an array or trellis
engine (R421), and the reset of Table 12.1. -/
def State.watchdog (s : State) (q : Nat) (inp : ResetIn) (env : Env) : State :=
  if !s.armed q ∨ (s.wdgEng q).sinceUs.toNat < 1000 * s.wdg.limitMs.toNat then s
  else
    let s := s.declareHang q (s.wdgEng q).sinceUs.toNat 0
    let lvl := s.hangLevel q
    let s := match lvl with
      | some (l, t) => s.requestReset l t Status.hang.toCode q false inp env
      | none => s
    if q < 1536 then s.observe (q % 768) false inp env else s

def execEngineWatchdogExpiry (queue : QueueId) (inp : ResetIn) (env : Env) (s : State) : Out :=
  .next (s.around env fun s env => s.watchdog queue inp env)

/-- The hedge manager's answer: lost, no local reset; otherwise the resets that wait proceed (R415). -/
def State.lostAnswer (s : State) (c : BitVec 17) (lost : Bool) (inp : ResetIn) (env : Env) : State :=
  match s.wdg.queries.find? fun q => q.coord == c with
  | none => s
  | some q =>
    let s := { s with wdg := { s.wdg with queries := s.wdg.queries.filter fun x => x.coord != c } }
    if lost then s
    else q.waits.foldl (fun s w => s.requestReset w.1 w.2.1 Status.hang.toCode w.2.2 false inp env) s

def execLostQueryAnswer (coord : BitVec 17) (lost : Bool) (inp : ResetIn) (env : Env) (s : State) : Out :=
  .next (s.around env fun s env => s.lostAnswer coord lost inp env)

def execResetLevelComplete (level : Fin 3) (target : Easel) (s : State) : Out := .next (s.resetDone (level.val + 1) target)

/-- A level misses its timeout (R418): ESCALATED, and the next level on the containing scope. An escalation out of an
easel-level reset is one permanent fault (R421); with no partition the ladder ends at the engine reset. A module reset that is not
complete in time is a hang of its own, of status ST_RESET_ESCALATED (Table 12.1). -/
def State.escalate (s : State) (level target : Nat) (inp : ResetIn) (env : Env) : State :=
  match s.wdg.episodes.find? fun e => e.level == level && e.target == target with
  | none => s
  | some e =>
    let s := { s with wdg := { s.wdg with escalated := s.wdg.escalated.hwSet
                                          episodes := s.wdg.episodes.filter fun x => !(x.level == level && x.target == target) } }
    let s := s.levelRecord 4 level target e.status e.engine (spanUs e.begun s.dp.now) 0
    match level with
    | 1 => (s.requestReset 2 target e.status e.engine true inp env).observe target true inp env
    | 2 => match s.easelPart target with
      | some k => (s.requestReset 3 k e.status e.engine true inp env).observe target true inp env
      | none => (s.cutEasel (s.physOf target)).observe target true inp env
    | 3 =>
      let s := (List.range 4).foldl (fun s k => if (s.job k).used then s.jobStatus k Status.resetEscalated.toCode else s) s
      s.requestReset 4 0 e.status e.engine true inp env
    | _ =>
      let s := { s with wdg := { s.wdg with hang := s.wdg.hang.hwSet } }
      let s := s.hangRecord 1 5 Status.resetEscalated.toCode 0xFFFF 0xFFFF 0xFF 0xFF 0 0 (spanUs e.begun s.dp.now) 0 (src 0 0)
      s.requestReset 5 0 Status.resetEscalated.toCode e.engine true inp env

/-- Levels 1 to 4 have timeouts. -/
def execResetTimeout (level : Fin 4) (target : Easel) (inp : ResetIn) (env : Env) (s : State) : Out :=
  .next (s.around env fun s env => s.escalate (level.val + 1) (if level.val = 3 then 0 else target.val) inp env)

/-- The always-on island starts a module reset without a notice (R416). -/
def State.ovindExpiry (s : State) : State :=
  let s := { s with wdg := { s.wdg with hang := s.wdg.hang.hwSet } }
  (s.hangRecord 1 0 Status.hang.toCode 0xFFFF 0xFFFF 0xFF 0xFF 0 0 100000 0 (src 0 0)).moduleReset Status.hang.toCode false

def execOvindWatchdogExpiry (s : State) : Out := .next s.ovindExpiry

/-! ### Notices (R426) -/

/-- A hedge manager receives a RESET_NOTICE: the loss of the module is held off, and for each job it is a member of a
rollback is requested whose replay waits for it (R426). -/
def State.resetNotice (s : State) (sender : BitVec 17) (jobs : List (BitVec 16)) : State :=
  if !s.isManager then s
  else
    let s := { s with roles := { s.roles with notices := sender :: s.roles.notices.filter (· != sender) } }
    jobs.foldl (fun s j =>
      (s.updMgr j fun m => { m with waits := sender :: m.waits.filter (· != sender) }).mgmt .rollbackRequest sender j.toNat) s

def execResetNotice (sender : BitVec 17) (jobs : List (BitVec 16)) (s : State) : Out := .next (s.resetNotice sender jobs)

/-- READY reaches the hedge manager: the held replays no longer wait for the module; the machine manager is told. -/
def State.moduleReady (s : State) (sender : BitVec 17) : State :=
  if !s.isManager then s
  else
    let s := { s with
      roles := { s.roles with notices := s.roles.notices.filter (· != sender) }
      mgrs := Sparse.mapVal {} (fun (m : Mgr) => { m with waits := m.waits.filter (· != sender) }) s.mgrs }
    if s.isMachine then s else s.mgmt .ready sender 0

def execModuleReady (sender : BitVec 17) (s : State) : Out := .next (s.moduleReady sender)

/-- 5 s after TRAY_PWR_REQ the supply has not fallen: the signal stays asserted. -/
def execTrayNoResponse (s : State) : Out :=
  .next (if s.elec.pwrReq ∧ s.elec.stby then s.moduleRecord 8 5 s.wdg.status 0 else s)

end Sys2Proof.Machine
end

