-- ==== Sys2Proof/Machine/Links.lean ====
section
/-! DEFINITION. The link commands: bring-up, identity, lanes, flits, replay, flow control, keys, transit, pressure (08). -/
namespace Sys2Proof.Machine

/-! ### LNK_CTRL (R287, R298) -/

/-- ENABLE written 1: the link may leave DOWN; with no wait running it moves to TRAIN. -/
def State.linkEnable (s : State) (n : Nat) : State :=
  let s := s.updLink n fun l => { l with enable := true, rejected := false }
  if s.mayTrain n then s.linkTrain n causeEnable else s

/-- ENABLE written 0: any state to DOWN, with no wait (R288); the reduced lane count stays (R298). -/
def State.linkDisable (s : State) (n : Nat) : State :=
  let s := s.updLink n fun l => { l with enable := false }
  let s := if (s.link n).st = .down then s else s.moveLink n .down causeDisable
  s.updLink n fun l => { l with waiting := false, waitMs := 0, laneMask := 0, wentDown := true, waitPerm := false, peer := none, echoed := false }

/-- Ovind writes ENABLE as 0; on a link in QUARANTINE this is the manager's rejection of the peer found (R296). -/
def State.linkReject (s : State) (n : Nat) : State :=
  (s.updLink n fun l => { l with rejected := l.rejected || l.st == .quarantine }).linkDisable n

def State.linkRetrain (s : State) (n : Nat) : State := if (s.link n).st.up then s.linkTrain n causeRetrain else s

def State.linkRestore (s : State) (n : Nat) : State :=
  if (s.link n).st.up then
    (s.updLink n fun l => { l with bad := 0, sticky := false }).linkTrain n causeRestore
  else s

def execLinkEnable (link : Link) (s : State) : Out := .next (s.linkEnable link)
def execLinkDisable (link : Link) (s : State) : Out := .next (s.linkReject link)
def execLinkRetrain (link : Link) (s : State) : Out := .next (s.linkRetrain link)
def execLinkRestoreLanes (link : Link) (s : State) : Out := .next (s.linkRestore link)

/-! ### Training (R288, R289, R307) -/

/-- The module's start delay in ms: SM3(SERIAL) bytes [1:0] modulo 51 (R307). -/
def startDelay (serial : BitVec 128) : Nat := fld (sm3 (le 16 serial.toNat)) 0 2 % 51

/-- The start delay is over: the SerDes are powered and every enabled link starts TRAIN together (R307). -/
def State.startLinks (s : State) : State :=
  let s := { s with lnk := { s.lnk with started := true } }
  (List.range 96).foldl (fun s n => if s.mayTrain n then s.linkTrain n causeStart else s) s

def execLinkBackoffExpiry (link : Link) (s : State) : Out :=
  let s := s.updLink link fun l => { l with waiting := false, waitMs := 0 }
  .next (if s.mayTrain link then s.linkTrain link causeBackoff else s)

/-- The logical lanes of a mask of physical lanes received: OTP field LANE_REMAP, 2 bytes a link, the receive map second (R289,
15 R487); with none written the lanes keep their numbers (DESIGN CHOICE, log entry 114). -/
def State.logicalLanes (s : State) (n : Nat) (m : BitVec 4) : BitVec 4 :=
  let map := if (s.otpForce 0x07).isNone then 0xE4 else fld (s.otpNow 0x07) (2 * n + 1) 1
  BitVec.ofNat 4 ((List.range 4).foldl (fun a i => a + boolN (m.getLsbD (map / 2 ^ (2 * i) % 4)) * 2 ^ i) 0)

/-- TRAIN completes on the largest working set of the locked lanes; a lane degrade stays through it until a session that is new
after DOWN (R289, R298). -/
def State.trainComplete (s : State) (n : Nat) (locked : BitVec 4) : State :=
  let l := s.link n
  if l.st ≠ .train then s
  else
    let new := l.wentDown && l.kept.isNone
    let good := s.logicalLanes n locked &&& (if new then 0xF else ~~~l.bad) &&& l.peerLanes
    let set := workingSet good (if l.sticky && !new then l.lanesBefore else 4)
    if set = 0 then s.linkDown n causeTimeout
    else
      (s.updLink n fun l => { l with laneMask := set, peerLanes := 0xF, bad := if new then 0 else l.bad, sticky := l.sticky && !new })
        |>.linkIdentify n causeTrained

def execTrainComplete (link : Link) (locked : BitVec 4) (s : State) : Out := .next (s.trainComplete link locked)

def execTrainTimeout (link : Link) (s : State) : Out :=
  .next (if (s.link link).st = .train then s.linkDown link causeTimeout else s)

/-! ### IDENTIFY (R290 to R296) -/

/-- The IDENT this end sends (Table 8.10); on a far link its ephemeral key and signature. -/
def State.ownIdent (s : State) (n : Nat) : Ident :=
  let l := s.link n
  let i : Ident :=
    { linkIndex := BitVec.ofNat 16 n, coord := coord32 s.dp.coord, serial := s.dp.serial, protoMask := s.fw.protoMask
      collAbi := s.fw.collAbi, fwMajor := s.fw.major, laneMask := l.laneMask.setWidth 8
      flags := BitVec.ofNat 8 (boolN (farLink n) + 2 * boolN l.kept.isSome), session := l.session, nonce := l.nonce
      peerNonce := match l.peer with | some i => i.nonce | none => 0
      mapGen := s.lnk.mapGen, kexPoint := l.kexPoint }
  if farLink n then { i with sig := Config.sm2Sign (s.privateKey 0) (identBody i) } else i

/-- IDENT and an ECHO entry with a time stamp (R291, R267). -/
def State.identSend (s : State) (n : Nat) (stamp : BitVec 30) : State :=
  let s := s.putFlit n tyIdent 0 0 (identBytes (s.ownIdent n))
  let now := s.dp.now
  (s.updLink n fun l => { l with echo := some (stamp, now) }).putFlit n tyCtrl 0 0 (ctrlPayload [{ op := 8, vc := 0, arg := stamp }])

def execIdentSend (link : Link) (stamp : BitVec 30) (s : State) : Out :=
  .next (if (s.link link).st = .identify then s.identSend link stamp else s)

/-- The highest revision set in both masks (R292). -/
def commonRev (a b : BitVec 16) : Option Nat :=
  let m := a &&& b
  if m = 0 then none else some (Nat.log2 m.toNat)

/-- An IDENT arrives (R291 to R293): identity, NONCE and masks are taken; no common revision sends the link to DOWN. One of
another FORMAT is none that this end knows (DESIGN CHOICE, log entry 115). -/
def State.ident (s : State) (n : Nat) (i : Ident) : State :=
  let l := s.link n
  if l.st ≠ .identify ∨ i.format ≠ 1 then s
  else
    let s := s.updLink n fun l =>
      { l with peer := some i, peerCoord := i.coord.setWidth 17, peerLink := i.linkIndex.setWidth 7, peerAbi := i.collAbi
               echoed := l.echoed || (i.peerNonce == l.nonce && i.peerNonce ≠ 0) }
    match commonRev s.fw.protoMask i.protoMask with
    | none => s.linkDown n causeProtocol .protocolMismatch
    | some r => s.updLink n fun l => { l with protoRev := BitVec.ofNat 8 r }

def execIdent (link : Link) (ident : Ident) (s : State) : Out := .next (s.ident link ident)

/-- The pair the map in force names for a link: the active map's, else the cabling map's. -/
def State.expected (s : State) (n : Nat) : Option (Nat × Nat) :=
  match Sparse.get none s.lnk.active n with
  | some p => some p
  | none => Sparse.get none s.lnk.cabling n

/-- A near link's peer where no map is held (Table 8.11). -/
def State.defaultOk (s : State) (n : Nat) (c : Coord) (pl : Nat) : Bool :=
  let own := s.dp.coord
  let t := c.slot.toNat
  !farLink n && c.site == own.site && c.pod == own.pod && c.hedge == own.hedge && c.slot != own.slot
    && t == defaultPeerSlot n own.slot.toNat
    && pl == 24 * (n / 24) + (if own.slot.toNat < t then own.slot.toNat else own.slot.toNat - 1)

/-- Links waiting in IDENTIFY for a permutation with peer `c`. -/
def State.permWaiters (s : State) (c : Nat) : List Nat :=
  (List.range 96).filter fun m => (s.link m).st == .identify && (s.link m).waitPerm && (s.link m).peerCoord.toNat == c

/-- The found pairs of the waiters are a permutation of the map's pairs (R295). -/
def State.permComplete (s : State) (ws : List Nat) : Bool :=
  let found := ws.map fun m => (s.link m).peerLink.toNat
  let named := ws.map fun m => match s.expected m with | some (_, k) => k | none => 0x7F
  !ws.isEmpty && found.all (named.contains ·) && named.all (found.contains ·) && found.eraseDups.length == found.length

/-- LINK_RENUMBERED records: the peer and up to four pairs of old and new link each. -/
def State.renumberRecords (s : State) (c : Nat) : List (List (Nat × Nat)) → State
  | [] => s
  | g :: r =>
    (s.record 0x0402 (src 0 0) .ok (le 4 c ++ g.flatMap fun p => le 1 p.1 ++ le 1 p.2)).renumberRecords c r

/-- Renumber the waiters in the active map and make every one ACTIVE (R295). -/
def State.renumber (s : State) (c : Nat) (ws : List Nat) : State :=
  let pairs := ws.map fun m =>
    ((match s.expected m with | some (_, k) => k | none => 0x7F), (s.link m).peerLink.toNat)
  let s := ws.foldl (fun s m => { s with lnk := { s.lnk with
    active := Sparse.set none s.lnk.active m (some (c, (s.link m).peerLink.toNat)) } }) s
  let s := s.renumberRecords c ((List.range ((pairs.length + 3) / 4)).map fun i => (pairs.drop (4 * i)).take 4)
  ws.foldl (fun s m => s.linkActive m causeMap (match (s.link m).peer with
    | some i => (s.link m).mayResume i
    | none => false)) s

/-- QUARANTINE with its record of the expected and the found peer (R296); IDENTIFY has started a new session, on which MGMT flits
travel. -/
def State.quarantineLink (s : State) (n : Nat) : State :=
  let l := s.link n
  let e := match s.expected n with | some (c, k) => (c, k) | none => (0x1FFFF, 0x7F)
  let s := s.record 0x0401 (src 4 n) .ok
    (le 1 n ++ le 4 e.1 ++ le 1 e.2 ++ le 4 l.peerCoord.toNat ++ le 1 l.peerLink.toNat)
  let own := s.dp.serial
  (s.updLink n fun l => match l.peer with
    | some i => l.newSession (farLink n) own i
    | none => l).moveLink n .quarantine causeIdentified

/-- Round trip above the class figure (1.0 us near, 600 us far) is logged (R267); units of 64 ns. -/
def overClass (n : Nat) (rtt : BitVec 16) : Bool := if farLink n then decide (9375 < rtt.toNat) else decide (15 < rtt.toNat)

/-- IDENTIFY completes: both NONCEs are echoed, and Table 8.11 decides, rows from the top. `sigOk` and `kexOk` are the
verdicts on the peer's signature and on the key agreement of a far link. -/
def State.identifyComplete (s : State) (n : Nat) (sigOk kexOk : Bool) (rtt : BitVec 16) : State :=
  let l := s.link n
  match l.st, l.peer with
  | .identify, some i =>
    if !l.echoed then s
    else
      let s := s.updLink n fun l => { l with rtt }
      let s := if overClass n rtt then s.linkRecord n .identify .identify causeRtt .ok else s
      if farLink n && !(sigOk && kexOk) then
        ((s.record 0x0901 (src 4 n) .auth (le 2 n ++ le 16 i.serial.toNat)).linkDown n causeAuth .auth).identFail
      else
        let c := i.coord.setWidth 17
        let pl := i.linkIndex.toNat
        match s.expected n with
        | some (ec, ek) =>
          if ec = c.toNat ∧ ek = pl then s.linkActive n causeIdentified (l.mayResume i)
          else if ec = c.toNat ∧ ((List.range 96).any fun m => m != n && s.expected m == some (ec, pl)) then
            let s := s.updLink n fun l => { l with waitPerm := true }
            let ws := s.permWaiters ec
            if s.permComplete ws then s.renumber ec ws else s
          else s.quarantineLink n
        | none =>
          if s.lnk.mapGen = 0 ∧ s.defaultOk n (Coord.ofCode c) pl then s.linkActive n causeIdentified (l.mayResume i)
          else s.quarantineLink n
  | _, _ => s

def execIdentifyComplete (link : Link) (sigOk kexOk : Bool) (rtt : BitVec 16) (s : State) : Out :=
  .next (s.identifyComplete link sigOk kexOk rtt)

/-- 50 ms in IDENTIFY: a link that waits for a permutation goes to QUARANTINE (R295), another to DOWN. -/
def execIdentifyTimeout (link : Link) (s : State) : Out :=
  let l := s.link link
  .next (if l.st ≠ .identify then s
    else if l.waitPerm then
      (s.updLink link fun l => { l with waitPerm := false }).quarantineLink link
    else s.linkDown link causeTimeout)

/-- 10 ms after a link left ACTIVE or DEGRADED the kept session is released: stores and buffers are discarded (R290). -/
def execResumeWindowExpiry (link : Link) (s : State) : Out :=
  .next (if (s.link link).st.up || (s.link link).kept.isNone then s
    else s.updLink link fun l => l.fresh (farLink link))

/-- Every lane out of lock for 1 ms. -/
def execAllLanesLockLoss (link : Link) (s : State) : Out :=
  let st := (s.link link).st
  .next (if st.up || st == .quarantine then s.linkDown link causeLockLoss else s)

/-- Send LANES with the set this end will use (R297). -/
def State.sendLanes (s : State) (n : Nat) (set : BitVec 4) : State :=
  s.putFlit n tyCtrl 0 0 (ctrlPayload [{ op := 7, vc := 0, arg := set.setWidth 30 }])

/-- A lane of an ACTIVE or DEGRADED link goes bad (R297): LANES names the set this end will use, and the ends retrain;
no good lane sends the link to DOWN. -/
def State.laneBad (s : State) (n : Nat) (lane : Fin 4) : State :=
  let l := s.link n
  if !l.st.up then s
  else
    let bad := l.bad ||| (1#4 <<< lane.val)
    let set := workingSet (l.laneMask &&& ~~~bad) 4
    if set = 0 then s.linkDown n causeLane
    else ((s.sendLanes n set).linkTrain n causeLane).updLink n fun l => { l with bad, sticky := true, lanesBefore := popcount4 set }

def execLaneBad (link : Link) (lane : Fin 4) (s : State) : Out := .next (s.laneBad link lane)

/-- The peer names its lane mask after retraining: this end answers with its own LANES, and the ends retrain on one set (R297). -/
def State.lanes (s : State) (n : Nat) (mask : BitVec 4) : State :=
  let l := s.link n
  if !l.st.up then s.updLink n fun l => { l with peerLanes := mask }
  else
    ((s.sendLanes n (workingSet (l.laneMask &&& ~~~l.bad &&& mask) 4)).linkTrain n causeLane).updLink n fun l =>
      { l with sticky := true, peerLanes := mask }

def execLanes (link : Link) (mask : BitVec 4) (s : State) : Out := .next (s.lanes link mask)

/-! ### A new cabling map (R296) -/

/-- A map that names the peer found makes a link in QUARANTINE repeat IDENTIFY; a rejected link may leave DOWN again. -/
def State.newMap (s : State) : State :=
  (List.range 96).foldl (fun s n =>
    let l := s.link n
    if l.st = .quarantine ∧ s.expected n = some (l.peerCoord.toNat, l.peerLink.toNat) then s.linkIdentify n causeMap
    else if l.rejected then s.linkEnable n
    else s) s

/-! ### Transmission (R271, R284, R285, R301; 09 R345, R346) -/

/-- Flits a link's store may hold: 1,024 near; 200,704 far (R278, R279). -/
def storeBound (far : Bool) : Nat := if far then 200704 else 1024

/-- The VC's flits of the last microsecond (1 us is 156.25 edges). -/
def LinkVc.inWindow (q : LinkVc) (now : Nat) : Nat := (q.sentAt.filter fun t => (now - t) * 64 < 10000).length

def LinkVc.countSent (q : LinkVc) (now : Nat) : LinkVc :=
  { q with sentAt := now :: q.sentAt.filter fun t => (now - t) * 64 < 10000 }

/-- May the VC send now: credit (near) or grant (far), not held, not refused; QS and MGMT at most 32 in any microsecond; only MGMT
under an exhausted key (R281 to R284, R303, R308). -/
def LinkSt.mayVc (l : LinkSt) (far : Bool) (now v : Nat) : Bool :=
  let q := l.vc v
  let again := q.resend.isSome
  q.notReady.isNone && q.heldAt.isNone && (v ≤ 1 → q.inWindow now < 32)
    && (if far then decide (lineGrant ≤ q.grant) || decide ((q.inWindow now + 1) * 16 ≤ q.grant.toNat) else again || decide (0 < q.credit))
    && (again || decide (l.store.length < storeBound far)) && (!l.exhausted || v == 1)

/-- The VC has something to send: a flit again, unless its good copy has still to come, or a new one. -/
def LinkSt.readyVc (l : LinkSt) (v : Nat) : Bool :=
  match (l.vc v).resend with
  | some r => l.store.any fun f => f.vc == v && f.seq == r && f.hole.isNone
  | none => !(l.vc v).cur.isEmpty || !(l.vc v).txq.isEmpty

/-- Within a class, a communication queue's chunks and one-sided traffic are flows of their own (09 R345). -/
def TxPkt.flow (t : TxPkt) : Nat := if t.pkt.op.toNat = opChunk then t.pkt.addr.toNat % 64 else 64

def takeFlow (c f : Nat) : List TxPkt → Option (TxPkt × List TxPkt)
  | [] => none
  | t :: r => if t.cls = c ∧ t.flow = f then some (t, r) else match takeFlow c f r with
    | some (u, r') => some (u, t :: r')
    | none => none

/-- The flow whose turn it is after flow `last`. -/
def flowAfter (last : Nat) (l : List Nat) : Option Nat :=
  ((List.range 65).map fun i => (last + 1 + i) % 65).find? (l.contains ·)

/-- The flow of class `c` that sends next, and the VC its packet waits in. -/
def LinkSt.flowOfClass (l : LinkSt) (vs : List Nat) (c : Nat) : Option (Nat × Nat) := do
  let free := vs.filter fun v => (l.vc v).cur.isEmpty
  let f ← flowAfter (Sparse.get 64 l.lastFlow c)
    (free.flatMap fun v => (((l.vc v).txq).filter fun t => t.cls == c).map (·.flow))
  let v ← free.find? fun v => (l.vc v).txq.any fun t => t.cls == c && t.flow == f
  pure (f, v)

/-- Deficit round robin (09 R345): each visit of a class adds WEIGHT × 256 once; it sends while its deficit covers
its next packet, and its flows take turns. Answers the VC and class whose packet starts now. -/
def State.drr (s : State) (n : Nat) (vs : List Nat) : Nat → State × Option (Nat × Nat)
  | 0 => (s, none)
  | fuel + 1 =>
    let l := s.link n
    let c := l.drrPtr
    match l.flowOfClass vs c with
    | none => (s.updLink n fun l => { l with drrPtr := (c + 1) % 8, drrAdded := false,
                                             deficits := Sparse.set 0 l.deficits c 0 }).drr n vs fuel
    | some (f, v) =>
      let w := max (s.share n c).weight.toNat 1
      let d := Sparse.get 0 l.deficits c + (if l.drrAdded then 0 else w * 256)
      let size := match takeFlow c f (l.vc v).txq with | some (t, _) => 32 + t.pkt.data.length | none => 0
      if size ≤ d then
        (s.updLink n fun l => { l with drrAdded := true, deficits := Sparse.set 0 l.deficits c (d - size),
                                         lastFlow := Sparse.set 64 l.lastFlow c f }, some (v, c))
      else (s.updLink n fun l => { l with drrPtr := (c + 1) % 8, drrAdded := false,
                                          deficits := Sparse.set 0 l.deficits c d }).drr n vs fuel

/-- Start the next packet of flow `cf.2` of class `cf.1` (any packet for QS and MGMT). -/
def LinkVc.startPkt (q : LinkVc) (cf : Option (Nat × Nat)) : LinkVc :=
  let r := match cf with
    | some (c, f) => takeFlow c f q.txq
    | none => match q.txq with | t :: r => some (t, r) | [] => none
  match r with
  | some (t, r) => { q with cur := pktBytes t.pkt, curCls := t.cls, txq := r, refused := q.refused && !r.isEmpty }
  | none => q

/-! #### The replay store (R277 to R279) -/

/-- The address of place `i` in the ring of far link `n`: its frame's packages in turn hold a quarter each (07 Table 7.7). -/
def State.ringAddr (s : State) (n i : Nat) : Addr :=
  ownAddr s.dp.coord 0 (ringOff (4 * (n / 24) + i / 49152) n + i % 49152 * 256)

def State.ringCtx (s : State) : Ctx := s.ctx {} .linkLogic

/-- Room for a new flit: a far link whose window of 4,096 is full writes its oldest unacknowledged flit to the ring; when the ring
cannot take the write the window holds (R279). -/
def State.makeRoom (s : State) (n : Nat) : State × Bool :=
  let l := s.link n
  if !farLink n ∨ (l.store.filter fun f => f.ring.isNone).length < 4096 then (s, true)
  else
    match l.store.find? fun f => f.ring.isNone with
    | none => (s, true)
    | some f =>
      let takes := Config.ringTakes s.dp.freeCtr
      let s := s.onDp fun d => { d with freeCtr := d.freeCtr + 1 }
      let i := l.ringNext
      if !takes ∨ (l.store.any fun g => g.ring == some i) ∨ f.hole.isSome then (s, false)
      else
        let h : FlitHead := { type := if f.sealed then tySeal else tyData, vc := f.vc, seq := f.seq }
        let r := s.runOp {} (writeAt s.ringCtx (s.ringAddr n i) (flitBytes h f.payload))
        match r.2 with
        | .error _ => (r.1, false)
        | .ok _ =>
          (r.1.updLink n fun l => { l with
            ringNext := (i + 1) % 196608
            store := l.store.map fun g => if g.vc = f.vc ∧ g.seq = f.seq then { g with ring := some i, payload := [] } else g }, true)

/-- The stored payload of a flit, from the window or from the ring; `none`: the ring's words cannot be read. -/
def State.storedPayload (s : State) (n : Nat) (f : TxFlit) : State × Option (List Byte) :=
  match f.ring with
  | none => (s, some f.payload)
  | some i =>
    let r := s.runOp {} (readAt s.ringCtx (s.ringAddr n i) 256)
    match r.2 with
    | .ok l => (r.1, some (slice l 6 246))
    | .error _ => (r.1, none)

/-- Send again the flit at the resend position (R276): its stored bytes unchanged; one that the ring cannot give back is ended with
the inverse of its CRC (DESIGN CHOICE, log entry 116). -/
def State.sendAgain (s : State) (n v : Nat) (r : BitVec 18) : State :=
  match (s.link n).store.find? fun f => f.vc == v && f.seq == r with
  | none => s.updLink n fun l => l.updVc v fun q => { q with resend := none }
  | some f =>
    let now := s.dp.now
    let s := s.updLink n fun l => ({ l with resent := satAdd 32 l.resent 1 } : LinkSt).updVc v fun q =>
      { q.countSent now with resend := if r + 1 = q.nextSeq then none else some (r + 1) }
    let p := s.storedPayload n f
    (p.1.putFlit n (if f.sealed then tySeal else tyData) v f.seq (p.2.getD []) p.2.isNone).countPort (2 * n) 246

def State.sendIdle (s : State) (n : Nat) : State := s.putFlit n tyIdle 0 0 []

/-- The payload of the next new flit of a VC, sealed on a far link; is it the last of its group? -/
def LinkSt.nextPayload (l : LinkSt) (v : Nat) (far last : Bool) (plain : List Byte) : List Byte :=
  let q := l.vc v
  let first := if q.groupOut.isEmpty then q.nextAbs else q.groupFirst
  if far then sealPayload (keyAt l.tx l.txNew v first) v first q.groupOut last plain else padTo 246 plain

/-- A new flit takes its SEQ: into the store, with its credit, its group and its place under the key. -/
def LinkSt.takeNew (l : LinkSt) (v : Nat) (far last : Bool) (now : Nat) (payload : List Byte) (hole : Option (Nat × BitVec 18)) : LinkSt :=
  let q := l.vc v
  ({ l with underKey := if far then l.underKey + 1 else l.underKey
            store := l.store ++ [{ vc := v, seq := q.nextSeq, sealed := far && last, payload, hole }] } : LinkSt).updVc v fun q =>
    { q.countSent now with
        nextAbs := q.nextAbs + 1, credit := if far then q.credit else q.credit - 1
        groupFirst := if q.groupOut.isEmpty then q.nextAbs else q.groupFirst
        groupOut := if far && !last then q.groupOut ++ [payload] else [] }

/-- Send a new flit of a VC: SEAL closes a far group at 8 flits or when no further flit is ready; a QS flit is a group of one
(R301). -/
def State.sendNew (s : State) (n v : Nat) : State :=
  let far := farLink n
  let r := s.makeRoom n
  if !r.2 then r.1.sendIdle n
  else
    let s := r.1
    let now := s.dp.now
    let q := (s.link n).vc v
    let last := far && (v == 0 || q.groupOut.length == 7 || decide (q.cur.length ≤ 246 ∧ q.txq = []))
    let cap := if last then 230 else 246
    let plain := q.cur.take cap
    let payload := (s.link n).nextPayload v far last plain
    let s := s.updLink n fun l => (l.takeNew v far last now payload none).updVc v fun q => { q with cur := q.cur.drop cap }
    let s := if 2 ≤ v then s.updShare n q.curCls fun h => { h with bytes := h.bytes + BitVec.ofNat 64 plain.length } else s
    ((s.dropOldKeys n).putFlit n (if last then tySeal else tyData) v q.nextSeq payload).countPort (2 * n) 246

/-- Send on a VC: again, or new (starting the next packet when none is under way). -/
def State.sendVc (s : State) (n v : Nat) (c : Option Nat) : State :=
  match ((s.link n).vc v).resend with
  | some r => s.sendAgain n v r
  | none =>
    let s := if ((s.link n).vc v).cur.isEmpty then
      s.updLink n fun l => l.updVc v fun q => let q := q.startPkt (c.map fun c => (c, Sparse.get 64 l.lastFlow c)); q.settle v q.waiting.length else s
    s.sendNew n v

/-- A CTRL flit with up to 30 due entries. GRANT and ECHO are sent once. -/
def State.sendCtrl (s : State) (n : Nat) : State :=
  let due := ((s.link n).ctrl.filter (·.due)).take 30
  (s.updLink n fun l => { l with
    ctrl := (l.ctrl.map fun e => if due.contains e then { e with due := false } else e).filter fun e =>
      e.due || !(e.op == 4 || e.op == 8) }).putFlit n tyCtrl 0 0 (ctrlPayload due)

def isResponse (o : Nat) : Bool := o == opReadResp || o == opWriteAck || o == opAtomicResp || o == opMgmtResp

/-- Responses that wait on a link that is no longer ACTIVE or DEGRADED and to whose issuer link `n` leads: the link, VC, packet. -/
def State.stranded (s : State) (n : Nat) : List (Nat × Nat × TxPkt) :=
  (List.range 96).flatMap fun m =>
    if m = n ∨ (s.link m).st.up then []
    else (List.range 4).flatMap fun v =>
      (((s.link m).vc v).txq.filter fun t => isResponse t.pkt.op.toNat && (s.candidates (destOf t.pkt)).contains n).map fun t => (m, v, t)

/-- The switch sends them over this route (R275). -/
def State.adopt (s : State) (n : Nat) : State :=
  (s.stranded n).foldl (fun s x =>
    ((s.updLink x.1 fun l => l.updVc x.2.1 fun q => { q with txq := q.txq.erase x.2.2 }).sendOver n x.2.2.pkt).1) s

/-- One flit slot (R284): CTRL, QS, MGMT, DATA or TRANSIT by deficit round robin, IDLE. -/
def State.slot1 (s : State) (n : Nat) : State :=
  let l := s.link n
  let far := farLink n
  let now := s.dp.now
  let can (v : Nat) : Bool := l.mayVc far now v && l.readyVc v
  let due := l.ctrl.filter (·.due)
  if due.any (fun e => e.op == 1 || e.op == 2 || e.op == 5) || (!due.isEmpty && decide (8 ≤ l.sinceCtrl)) then s.sendCtrl n
  else if l.st.up && can 0 then s.sendVc n 0 none
  else if (l.st.up || l.st == .quarantine) && can 1 then s.sendVc n 1 none
  else if l.st.up then
    let vs := [2, 3].filter can
    match vs.find? fun v => (l.vc v).resend.isSome || !(l.vc v).cur.isEmpty with
    | some v => s.sendVc n v none
    | none =>
      match s.drr n vs 160 with
      | (s, some (v, c)) => s.sendVc n v (some c)
      | (s, none) => s.sendIdle n
  else s.sendIdle n

def State.transmit (s : State) (n : Nat) : State :=
  if (s.link n).st.up then (s.adopt n).slot1 n
  else if (s.link n).st == .quarantine || (s.link n).st == .identify then s.slot1 n
  else s

def execFlitTransmit (link : Link) (s : State) : Out := .next (s.transmit link)

/-! ### Quickset flits for other modules (R306) -/

/-- A QS flit that carries a packet for another module. -/
def State.passesOn (s : State) (v : Nat) (plain : List Byte) : Bool :=
  v == 0 && (pktOf plain).op.toNat == opQs && decide (destOf (pktOf plain) ≠ s.dp.coord)

/-- The outgoing link can start a QS flit at once: nothing stands before it in the flit slot's order (R284) and nothing holds it. -/
def State.clearQs (s : State) (m : Nat) : Bool :=
  let l := s.link m
  let q := l.vc 0
  l.st.up && l.mayVc (farLink m) s.dp.now 0 && q.cur.isEmpty && q.txq.isEmpty && q.resend.isNone
    && !((l.ctrl.filter (·.due)).any fun e => e.op == 1 || e.op == 2 || e.op == 5)

/-- Start the outgoing flit; `hole`: the incoming one has failed, its good copy comes from there. -/
def State.startQs (s : State) (m : Nat) (plain : List Byte) (hole : Option (Nat × BitVec 18)) : State :=
  let far := farLink m
  let r := s.makeRoom m
  if !r.2 then r.1
  else
    let s := r.1
    let now := s.dp.now
    let seq := ((s.link m).vc 0).nextSeq
    let payload := (s.link m).nextPayload 0 far true plain
    ((s.updLink m fun l => l.takeNew 0 far true now (if hole.isSome then [] else payload) hole).putFlit m
      (if far then tySeal else tyData) 0 seq payload hole.isSome).countPort (2 * m) 246

/-- The good copy of a flit that had failed fills its hole in the store, sealed under its own SEQ. -/
def State.fillHole (s : State) (m : Nat) (h : TxFlit) (plain : List Byte) : State :=
  s.updLink m fun l =>
    let q := l.vc 0
    let abs := q.nextAbs - 1 - ((q.nextAbs - 1).setWidth 18 - h.seq).setWidth 62
    let payload := if farLink m then sealPayload (keyAt l.tx l.txNew 0 abs) 0 abs [] true plain else padTo 246 plain
    { l with store := l.store.map fun f => if f.vc = 0 ∧ f.seq = h.seq then { f with hole := none, payload } else f }

/-- A good QS flit of link `n` goes on: as the good copy of one that had failed, cut-through, or by the queue. -/
def State.forwardQs (s : State) (n : Nat) (seq : BitVec 18) (plain : List Byte) : State :=
  let p := pktOf plain
  let p' := { p with hops := p.hops + 1 }
  match pktFault p' with
  | some st => s.discardPacket p' st
  | none =>
    match s.output (srcOf p) (destOf p) with
    | none => s.discardPacket p .bounds
    | some m =>
      match (s.link m).store.find? fun f => f.hole == some (n, seq) with
      | some h => s.fillHole m h (pktBytes p')
      | none =>
        if s.clearQs m then s.startQs m (pktBytes p') none
        else
          let r := s.sendOver m p'
          if r.2 = .ok then r.1 else r.1.respond (response s.dp.coord p r.2 [])

/-- A QS flit that fails after its outgoing flit has started: the switch ends that with the inverse of its CRC. -/
def State.failQs (s : State) (n : Nat) (seq : BitVec 18) (plain : List Byte) : State :=
  let p := pktOf plain
  let p' := { p with hops := p.hops + 1 }
  match pktFault p', s.output (srcOf p) (destOf p) with
  | none, some m => if s.clearQs m then s.startQs m (pktBytes p') (some (n, seq)) else s
  | _, _ => s

/-! ### Arriving control entries (Table 8.5) -/

def State.replay (s : State) (n v : Nat) (seq : BitVec 18) : State := if (s.link n).st.up then s.resendFrom n v seq else s

def execReplay (link : Link) (vc : Vc) (seq : BitVec 18) (s : State) : Out := .next (s.replay link vc seq)

/-- HOLD stops a far VC and rewinds it to the refused SEQ (R283). -/
def State.hold (s : State) (n v : Nat) (seq : BitVec 18) : State :=
  if farLink n then s.updLink n fun l => l.updVc v fun q => { q with heldAt := some seq, resend := some seq } else s

def execHold (link : Link) (vc : Vc) (seq : BitVec 18) (s : State) : Out := .next (s.hold link vc seq)

/-- RESUME lets a held VC resend from the SEQ at its grant (R283); repeated, it finds the VC going on. -/
def State.resume (s : State) (n v : Nat) (seq : BitVec 18) : State :=
  if farLink n ∧ ((s.link n).vc v).heldAt.isSome then
    s.updLink n fun l => l.updVc v fun q => { q with heldAt := none, resend := some seq } else s

def execResume (link : Link) (vc : Vc) (seq : BitVec 18) (s : State) : Out := .next (s.resume link vc seq)

/-- GRANT sets a far VC's rate limit in 1/16 flit per us (R282). -/
def State.grant (s : State) (n v : Nat) (rate : BitVec 12) : State :=
  if farLink n then s.updLink n fun l => l.updVc v fun q => { q with grant := rate } else s

def execGrant (link : Link) (vc : Vc) (rate : BitVec 12) (s : State) : Out := .next (s.grant link vc rate)

/-- NOT_READY: the far end refused flits from the SEQ; they stay in the store until READY (R308). -/
def State.notReady (s : State) (n v : Nat) (seq : BitVec 18) : State :=
  s.updLink n fun l => l.updVc v fun q =>
    { q with notReady := match q.notReady with | some k => some (if seqBefore k seq then k else seq) | none => some seq }

def execNotReady (link : Link) (vc : Vc) (seq : BitVec 18) (s : State) : Out := .next (s.notReady link vc seq)

/-- READY: the peer is ACTIVE; refused flits are sent again from the NOT_READY SEQ (R308). READY of a new session gives the credits
of the buffers, less those of the flits still in the store, which take no credit when they are sent again, and the grants of the line
rate (R281, R282), and starts that session where this end had kept the old one (R290); one of a resumed session leaves both. -/
def State.ready (s : State) (n : Nat) (resumed : Bool) : State :=
  s.updLink n fun l =>
    let l := if !resumed && l.kept.isSome then l.fresh (farLink n) else l
    (List.range 4).foldl (fun l v => l.updVc v fun q =>
      { q with credit := if farLink n ∨ resumed then q.credit else rxBuffer false v - (l.storeOf v).length
               grant := if farLink n ∧ !resumed then lineGrant else q.grant
               resend := match q.notReady with | some k => some k | none => q.resend
               notReady := none }) l

def execReady (link : Link) (resumed : Bool) (s : State) : Out := .next (s.ready link resumed)

/-- ECHO: a peer's stamp is returned unchanged; an own stamp that comes back measures the round trip (R267). -/
def State.echoBack (s : State) (n : Nat) (stamp : BitVec 30) : State :=
  s.putFlit n tyCtrl 0 0 (ctrlPayload [{ op := 8, vc := 0, arg := stamp }])

def execEcho (link : Link) (stamp : BitVec 30) (own : Bool) (elapsed : BitVec 16) (s : State) : Out :=
  .next (if own then s.updLink link fun l => { l with rtt := elapsed } else s.echoBack link stamp)

/-- An ECHO entry as it stands in a CTRL flit: the stamp last sent tells which end's it is; 64 ns are 10 edges. -/
def State.echoEntry (s : State) (n : Nat) (stamp : BitVec 30) : State :=
  match (s.link n).echo with
  | some (x, t) =>
    if x = stamp then
      let now := s.dp.now
      s.updLink n fun l => { l with echo := none, rtt := BitVec.ofNat 16 (min ((now - t) / 10) 0xFFFF) }
    else s.echoBack n stamp
  | none => s.echoBack n stamp

/-- One entry of a CTRL flit. A reserved OP is ignored, its first occurrence on the link logged (R272). -/
def State.ctrlEntry (s : State) (n : Nat) (e : CtrlEntry) : State :=
  match e.op with
  | 1 => s.replay n e.vc e.seq
  | 2 => s.hold n e.vc e.seq
  | 3 => s.resume n e.vc e.seq
  | 4 => s.grant n e.vc (e.arg.setWidth 12)
  | 5 => s.notReady n e.vc e.seq
  | 6 => s.ready n (e.arg.getLsbD 0)
  | 7 => s.lanes n (e.arg.setWidth 4)
  | 8 => s.echoEntry n e.arg
  | _ =>
    if (s.link n).loggedOp then s
    else (s.linkRecord n (s.link n).st (s.link n).st causeOp .fieldReserved).updLink n fun l => { l with loggedOp := true }

/-! ### Arriving flits (R270, R276, R281, R283, R302, R306, R308) -/

/-- Store an accepted flit's bytes: into the VC's buffer, draining it unless its consumers wait. -/
def State.bufferFlit (s : State) (n v : Nat) (payloads : List (List Byte)) (stalled : Bool) : State :=
  let s := s.updLink n fun l => l.updVc v fun q => { q with buffer := q.buffer ++ payloads }
  if stalled then s else s.drain n v ((s.link n).vc v).buffer.length

/-- Flits a far VC holds: its buffer and the open group. -/
def LinkVc.holding (q : LinkVc) : Nat := q.buffer.length + q.group.length

/-- A lost flit (R270): counted; when its header can be read, its VC is asked for again (R276), and a QS flit on its way through
fails (R306). -/
def State.loseFlit (s : State) (n : Nat) (f : FlitIn) : State :=
  if f.uncorrectable then s
  else
    let h := flitHead f
    let s := s.updLink n fun l => { l with crcFail := satAdd 12 l.crcFail 1 }
    let seqd := h.type == tyData || h.type == tySeal
    let s := if !farLink n && (s.link n).st.up && h.type == tyData && decide (h.seq = ((s.link n).vc h.vc).expect)
        && s.passesOn h.vc (flitPayload f) then s.failQs n h.seq (flitPayload f) else s
    if (s.link n).st.up && seqd then s.askReplay n h.vc else s

/-- The link's end is not ACTIVE: QUARANTINE answers requests (R296), otherwise NOT_READY (R308). -/
def State.refuseInactive (s : State) (n : Nat) (h : FlitHead) (plain : Option (List Byte)) : State :=
  if (s.link n).st = .quarantine then
    match plain with
    | some l => if isRequest (pktOf l).op.toNat then s.respond (response s.dp.coord (pktOf l) .linkQuarantine []) else s
    | none => s
  else
    s.updLink n fun l => { l with notReady := l.notReady.hwSet }.addCtrl { op := 5, vc := h.vc, seq := h.seq }

/-- May a sequenced flit be accepted on this VC: ACTIVE or DEGRADED, or MGMT in QUARANTINE. -/
def State.accepts (s : State) (n v : Nat) : Bool :=
  (s.link n).st.up || ((s.link n).st == .quarantine && v == 1)

/-- What a flit alone holds in clear: a near flit's payload, a far group of one that verifies. -/
def LinkSt.clear (l : LinkSt) (far : Bool) (h : FlitHead) (payload : List Byte) : Option (List Byte) :=
  if !far then some payload
  else if h.type ≠ tySeal then none
  else
    let abs := (l.vc h.vc).expectAbs + (h.seq - (l.vc h.vc).expect).setWidth 62
    (openGroup (keyAt l.rx l.rxNew h.vc abs) h.vc abs [payload]).map (·.flatten)

/-- A sequenced flit arrives: the checks in order; false when it was discarded, else the state with its SEQ taken. -/
def State.takeSeq (s : State) (n : Nat) (h : FlitHead) (payload : List Byte) : State × Bool :=
  let v := h.vc
  let q := (s.link n).vc v
  if !s.accepts n v then (s.refuseInactive n h ((s.link n).clear (farLink n) h payload), false)
  else if h.seq ≠ q.expect then
    (if q.refusing.isSome then s else s.askReplay n v, false)
  else if farLink n ∧ (q.refusing.isSome ∨ rxBuffer true v ≤ q.holding) then
    if q.refusing.isSome then (s, false)
    else
      (s.updLink n fun l =>
        ({ l with holds := satAdd 16 l.holds 1 }.updVc v fun q => { q with refusing := some h.seq }).addCtrl
          { op := 2, vc := v, seq := h.seq }, false)
  else
    (s.updLink n fun l =>
      ((((l.updVc v fun q => { q with expectAbs := q.expectAbs + 1, awaiting := false, dirty := true }).dropCtrl 1 v).dropCtrl 5 v).dropCtrl
        3 v).dropCtrl 6 0, true)

/-- A DATA flit (R276): on a near link its bytes are passed on; on a far link they wait in their GCM group (R302). -/
def State.dataArrives (s : State) (n : Nat) (h : FlitHead) (payload : List Byte) (stalled : Bool) : State :=
  let first := ((s.link n).vc h.vc).expectAbs
  let r := s.takeSeq n h payload
  if !r.2 then r.1
  else if farLink n then
    r.1.updLink n fun l => l.updVc h.vc fun q =>
      { q with groupAbs := if q.group.isEmpty then first else q.groupAbs, group := q.group ++ [payload] }
  else if s.passesOn h.vc payload then
    (r.1.updLink n fun l => l.updVc h.vc fun q => { q with freed := q.freed + 1 }).forwardQs n h.seq payload
  else r.1.bufferFlit n h.vc [payload] stalled

/-- A tag failure (R302): the group is discarded, counted, and asked for again from its first SEQ; the fourth within
1 s sends the link to DOWN, logs ST_AUTH and raises the alarm for authentication failure. -/
def State.tagFailure (s : State) (n v : Nat) (first : BitVec 62) : State :=
  let now := s.dp.now
  let times := now :: (s.link n).tagTimes.filter fun t => now < t + edgesPerSecond
  let s := s.updLink n fun l =>
    ({ l with tagFail := satAdd 8 l.tagFail 1, tagTimes := times }.updVc v fun q =>
      { q with group := [], expectAbs := first, awaiting := true }).addCtrl { op := 1, vc := v, seq := first.setWidth 18 }
  if 4 ≤ times.length then
    let peer := match (s.link n).peer with | some i => i.serial | none => (s.link n).serialKept
    let s := s.record 0x0901 (src 4 n) .auth (le 2 n ++ le 16 peer.toNat)
    ((s.updLink n fun l => { l with tagTimes := [] }).linkDown n causeAuth .auth).fireAlarm 4
  else s

/-- A SEAL flit closes a GCM group, whose bytes are released once its tag verifies (R302). Near links never carry one. -/
def State.sealArrives (s : State) (n : Nat) (h : FlitHead) (payload : List Byte) (stalled : Bool) : State :=
  if !farLink n then s.updLink n fun l => { l with crcFail := satAdd 12 l.crcFail 1 }
  else
    let q := (s.link n).vc h.vc
    let first := if q.group.isEmpty then q.expectAbs else q.groupAbs
    let key := keyAt (s.link n).rx (s.link n).rxNew h.vc first
    let r := s.takeSeq n h payload
    if !r.2 then r.1
    else match openGroup key h.vc first (q.group ++ [payload]) with
      | none => r.1.tagFailure n h.vc first
      | some plain =>
        let s := (r.1.updLink n fun l => l.updVc h.vc fun q => { q with group := [] }).dropOldKeys n
        if q.group.isEmpty && s.passesOn h.vc plain.flatten then s.forwardQs n h.seq plain.flatten
        else s.bufferFlit n h.vc plain stalled

/-- A flit arrives (R270, R271): what the FEC found is counted; a good one returns ACK and CREDIT and does what its TYPE says. -/
def State.receive (s : State) (n : Nat) (f : FlitIn) (stalled : Bool) : State :=
  let h := flitHead f
  let s := s.updLink n fun l => { l with
    corrSym := satAdd 32 l.corrSym (f.symbols.foldl (· + ·) 0), uncorrCw := satAdd 12 l.uncorrCw f.codewords.toNat
    laneSym := (List.range 4).foldl (fun m i => Sparse.upd 0 m i (· + f.symbols.getD i 0)) l.laneSym }
  if f.uncorrectable || !flitGood f then s.loseFlit n f
  else
    let s := s.takeAck n h.avc h.ack h.credit
    if h.type = tyData then (s.countPort (2 * n + 1) 246).dataArrives n h (flitPayload f) stalled
    else if h.type = tySeal then (s.countPort (2 * n + 1) 246).sealArrives n h (flitPayload f) stalled
    else if h.type = tyCtrl then (ctrlEntries (flitPayload f)).foldl (fun s e => s.ctrlEntry n e) s
    else if h.type = tyIdent then s.ident n (identOf (flitPayload f))
    else s

def execDataFlit (link : Link) (flit : FlitIn) (s : State) : Out := .next (s.receive link flit flit.stalled)

/-- `stalled`: the consumers of the group's VC wait. -/
def execSealFlit (link : Link) (flit : FlitIn) (stalled : Bool) (s : State) : Out := .next (s.receive link flit (flit.stalled || stalled))

/-- An IDLE flit carries only ACK and CREDIT for one VC (R271). -/
def execIdleFlit (link : Link) (avc : Vc) (ack : BitVec 18) (credit : BitVec 5) (s : State) : Out :=
  .next (s.takeAck link avc ack credit.toNat)

/-! ### Renewed entries, grants (R272, R282, R283) -/

/-- Pending entries are due again every 2 us (R272). -/
def execControlEntryRepeat (link : Link) (s : State) : Out :=
  .next (s.updLink link fun l => { l with ctrl := l.ctrl.map fun e => { e with due := true } })

/-- The grant of R282, in 1/16 flit per us: `d8` flits drained in the last 8 us, `q` held, `rtt` in 64 ns units. -/
def grantArg (v q d8 rtt : Nat) : Nat :=
  let t := rxBuffer true v / 2
  let line : Int := 3772
  if 4 * q ≤ t then 3772
  else
    -- 16 × (d8 / 8 + (t − q) / (2 × rtt us)), rtt us = rtt × 64 / 1000
    let r : Int := max rtt 1
    let num : Int := 2 * (d8 : Int) * (2 * 64 * r) + 16 * ((t : Int) - q) * 1000
    (min (max (Int.fdiv num (2 * 64 * r)) 0) line).toNat

/-- Flits a VC has drained in the last 8 us. -/
def LinkVc.drained8 (q : LinkVc) (now : Nat) : Nat := ((q.drains.filter fun d => now < d.1 + 1250).map (·.2)).foldl (· + ·) 0

/-- Every 1 us a far receiver drains some flits of each VC and sends a GRANT for each (R282). -/
def State.grantUpdate (s : State) (n : Nat) (drained : List Nat) : State :=
  if !(farLink n && (s.link n).st.up) then s
  else
    let s := (List.range 4).foldl (fun s v => s.drain n v (drained.getD v 0)) s
    let now := s.dp.now
    (List.range 4).foldl (fun s v => s.updLink n fun l =>
      l.addCtrl { op := 4, vc := v, arg := BitVec.ofNat 30 (grantArg v (l.vc v).holding ((l.vc v).drained8 now) l.rtt.toNat) }) s

/-- Flits drained from QS and MGMT, and from DATA and TRANSIT. -/
def execGrantUpdate (link : Link) (drainedLow drainedHigh : List Nat) (s : State) : Out :=
  .next (s.grantUpdate link ((drainedLow ++ [0, 0]).take 2 ++ drainedHigh))

/-- A held VC's buffer has drained to T: RESUME with the refused SEQ (R283). -/
def State.holdRelease (s : State) (n v : Nat) : State :=
  match ((s.link n).vc v).refusing with
  | none => s
  | some seq =>
    let t := rxBuffer true v / 2
    let s := s.drain n v (((s.link n).vc v).buffer.length - t)
    s.updLink n fun l => ((l.updVc v fun q => { q with refusing := none }).dropCtrl 2 v).addCtrl { op := 3, vc := v, seq }

def execHoldRelease (link : Link) (vc : Vc) (s : State) : Out := .next (s.holdRelease link vc)

/-- Four round trips with no ACK progress: resend from the oldest unacknowledged flit (R277). -/
def execReplayNoProgress (link : Link) (vc : Vc) (s : State) : Out :=
  .next (match (s.link link).storeOf vc with
    | f :: _ => if (s.link link).st.up then s.resendFrom link vc f.seq else s
    | [] => s)

/-! ### Keys of far links (R300, R303) -/

/-- A key-agreement packet: step, SERIAL, ephemeral point, signature, switch points of the VCs (R303; the spec lays out no such
packet: DESIGN CHOICE, log entry 117). -/
def State.keyPacket (s : State) (n stage : Nat) (point : List Byte) (points : List (BitVec 62)) : Packet :=
  let body := le 16 stage ++ le 16 s.dp.serial.toNat ++ padTo 64 point ++ ((List.range 4).flatMap fun v => le 8 (points.getD v 0).toNat)
  mgmtPacket s (Coord.ofCode (s.link n).peerCoord) opMgmt 0 (body ++ padTo 64 (Config.sm2Sign (s.privateKey 0) body))

/-- A fresh ephemeral point. -/
def State.drawPoint (s : State) : State × List Byte :=
  (s.onDp fun d => { d with freeCtr := d.freeCtr + 8 }, freshPoint s.dp.freeCtr)

/-- 2^31 flits under a key: the sender offers a new signed agreement for its direction (R303). -/
def State.offerKey (s : State) (n : Nat) : State :=
  let r := s.drawPoint
  let s := r.1.updLink n fun l => { l with agreeing := true, underKey := max l.underKey (2 ^ 31), kexPoint := r.2 }
  (s.sendOver n (s.keyPacket n 1 r.2 [])).1

def execKeyAgreementStart (link : Link) (s : State) : Out :=
  .next (if farLink link && (s.link link).st.up then s.offerKey link else s)

/-- The peer offers a key for its direction: derived and answered. -/
def State.answerKey (s : State) (n : Nat) (point : List Byte) : State :=
  let r := s.drawPoint
  let l := r.1.link n
  let k := (sessionKeys (l.rx.no + 1) s.dp.serial l.serialKept r.2 point).2
  let s := r.1.updLink n fun l => { l with answered := some k }
  (s.sendOver n (s.keyPacket n 2 r.2 [])).1

/-- The offer is answered: the new key applies from a switch point of each VC, 2^20 flits on, so that the message that names it
arrives before; at once where the exhausted key has stopped the VC (DESIGN CHOICE, log entry 117). -/
def State.switchKey (s : State) (n : Nat) (point : List Byte) : State :=
  let l := s.link n
  let k := (sessionKeys (l.tx.no + 1) s.dp.serial l.serialKept l.kexPoint point).1
  let points := (List.range 4).map fun v => (l.vc v).nextAbs + (if l.exhausted && v != 1 then 0 else 0x100000)
  let s := s.updLink n fun l => { l with txNew := some (k, points), underKey := 0, agreeing := false, exhausted := false }
  ((s.sendOver n (s.keyPacket n 3 [] points)).1.send (.keyEvent n k.no false)).dropOldKeys n

/-- The peer names the switch points of its direction's new key. -/
def State.acceptKey (s : State) (n : Nat) (points : List (BitVec 62)) : State :=
  match (s.link n).answered with
  | none => s
  | some k =>
    ((s.updLink n fun l => { l with rxNew := some (k, points), answered := none }).send (.keyEvent n k.no false)).dropOldKeys n

/-- A key-agreement message whose signature verifies. -/
def State.keyMsg (s : State) (n : Nat) (m : KeyMsg) : State :=
  match m.stage with
  | .offer => s.answerKey n m.point
  | .reply => if (s.link n).agreeing then s.switchKey n m.point else s
  | .confirm => s.acceptKey n m.points

def execKeyAgreementMsg (link : Link) (sigOk : Bool) (msg : KeyMsg) (s : State) : Out :=
  .next (if farLink link && sigOk && (s.link link).st.up then s.keyMsg link msg else s)

/-- 2^32 flits with no completed agreement: the direction sends MGMT flits only. -/
def execKeyExhausted (link : Link) (s : State) : Out :=
  .next (if farLink link then s.updLink link fun l => { l with exhausted := true, underKey := max l.underKey (2 ^ 32) } else s)

/-- 1 s after exhaustion: DOWN, ST_AUTH logged. -/
def execKeyAgreementTimeout (link : Link) (s : State) : Out :=
  .next (if farLink link && (s.link link).exhausted then
    (s.record 0x0901 (src 4 link) .auth (le 2 link ++ le 16 (s.link link).serialKept.toNat)).linkDown link causeAuth .auth
  else s)

/-! ### Transit (R274, R304, R305) -/

/-- A packet that arrived on a VC for another module: forwarded on TRANSIT or DATA, or discarded; on either, a request that reaches
a module in M2 is answered with ST_LINK_NOT_READY (13 R452). -/
def State.transit (s : State) (v : Nat) (p : Packet) : State :=
  match pktFault p with
  | some st => s.discardPacket p st
  | none =>
    if 2 ≤ v ∧ s.pwr.mstate = 2 then
      (if isRequest p.op.toNat then s.respond (response s.dp.coord p .linkNotReady []) else s)
    else if destOf p = s.dp.coord then s.send (.passed 0 v p)
    else if v = 2 then s.discardPacket p .bounds
    else
      let p' := { p with hops := p.hops + 1 }
      match pktFault p' with
      | some st => s.discardPacket p' st
      | none =>
        let r := s.sendPacket p'
        if r.2 = .ok then r.1
        else if isRequest p.op.toNat then r.1.respond (response s.dp.coord p r.2 [])
        else r.1.respond p'

def execPacketTransit (vc : Vc) (packet : Packet) (s : State) : Out := .next (s.transit vc packet)

/-! ### Sustained pressure (R286) -/

/-- Record SUSTAINED_PRESSURE: the link, the VC, the head packet's share class, the interval count. -/
def State.pressureRecord (s : State) (n v : Nat) (intervals : BitVec 64) : State :=
  let q := (s.link n).vc v
  let cls := if !q.cur.isEmpty then q.curCls else match q.txq with | t :: _ => t.cls | [] => 0
  (s.record 0x0403 (src 4 n) .ok (le 2 n ++ le 4 v ++ le 1 cls ++ le 8 intervals.toNat)).updLink n fun l =>
    { l with pressure := l.pressure.hwSet }

def execSustainedPressure (link : Link) (vc : Vc) (s : State) : Out :=
  .next ((s.pressureRecord link vc 100000).updLink link fun l => l.updVc vc fun q => { q with pressure := true })

def execPressureRepeat (link : Link) (vc : Vc) (intervals : BitVec 64) (s : State) : Out :=
  .next (if ((s.link link).vc vc).pressure then s.pressureRecord link vc intervals else s)

def execPressureEpisodeEnd (link : Link) (vc : Vc) (s : State) : Out :=
  .next (s.updLink link fun l => l.updVc vc fun q => { q with pressure := false, refused := false })

end Sys2Proof.Machine
end

