-- ==== Sys2Proof/Machine/Roles.lean ====
section
/-! DEFINITION. The rack tick's inputs and the managers' heartbeats, conflicts and succession (01 R35 to R44). -/
namespace Sys2Proof.Machine

/-! ### The reference clock (R35 to R38) -/

/-- A rising edge of TICK_SYNC. -/
def execTickSync (s : State) : Out :=
  .next { s with clk := { s.clk with loadPending := true, syncSeen := s.clk.syncSeen.hwSet } }

/-- 1 us with no edge: REF_LOST, and the links leave ACTIVE as their PLLs lose lock. -/
def State.refLoss (s : State) : State :=
  (List.range 96).foldl (fun s n => if (s.link n).st.up || (s.link n).st == .quarantine then s.linkDown n causeLockLoss else s)
    { s with clk := { s.clk with refLost := s.clk.refLost.hwSet, refPresent := false } }

def execRefClockLoss (s : State) : Out := .next s.refLoss

def execRefClockReturn (s : State) : Out := .next { s with clk := { s.clk with refPresent := true } }

/-- A 32-bit read at 0x0000 latches the high half for the read at 0x0004. -/
def execRackTickHighRead (s : State) : Out :=
  .next (({ s with clk := { s.clk with latch := some (s.clk.count.extractLsb' 32 32) } } : State).send
    (.regValue (s.clk.count &&& 0xFFFFFFFF)))

/-! ### Roles (R41 to R44) -/

/-- Codes of a role map's entries and of messages (the spec numbers none: DESIGN CHOICE, log entry 16). -/
def roleCode : Role → Nat
  | .worker => 0 | .hedge => 1 | .pod => 2 | .machine => 3 | .spare => 4

def roleOf (n : Nat) : Role :=
  match n with | 1 => .hedge | 2 => .pod | 3 => .machine | 4 => .spare | _ => .worker

/-- The manager role of a level (0 hedge, 1 pod, 2 machine). -/
def levelRole (l : Nat) : Role := match l with | 0 => .hedge | 1 => .pod | _ => .machine

/-- ROLE record: 1 conflict, 2 succession, 3 map loaded. -/
def State.roleRecord (s : State) (kind : Nat) (coord : BitVec 17) (r : Role) : State :=
  s.record 0x0010 (src 0 0) .ok (le 1 kind ++ le 4 coord.toNat ++ le 1 (roleCode r) ++ le 2 s.roles.gen.toNat)

/-- The hedge forms: a role map that waits takes effect and is logged (R40, R41). The spec does not say when the hedge manager
forms the hedge: at ST5, and at once on a module that waits for a map after a power cycle (DESIGN CHOICE, log entry 21). -/
def State.formHedge (s : State) : State :=
  match s.roles.pendingMap with
  | none => s
  | some m =>
    let r := roleIn true m s.dp.coord
    ({ s with roles := { s.roles with map := m, loaded := true, pendingMap := none, role := r, taken := [], waiting := false } }
      : State).roleRecord 3 s.dp.coord.code r

/-- A manager's heartbeat of 1 ms. -/
def State.sendBeat (s : State) : State :=
  if s.isManager then s.quickset .down 0x20 (le 1 (roleCode s.roles.role) ++ le 4 s.dp.coord.code.toNat) else s

def execManagerHeartbeatSend (s : State) : Out := .next s.sendBeat

/-- Two managers of one level: the one with the lower number keeps the role, the other acts as a worker (R43). -/
def State.settleRole (s : State) (l : Nat) (c : BitVec 17) : State :=
  let own := s.dp.coord.code
  if l < roleLevels s.roles.role ∧ c ≠ own ∧ levelScope l c = levelScope l own ∧ levelNumber l c < levelNumber l own then
    ({ s with roles := { s.roles with role := .worker } } : State).roleRecord 1 c (levelRole l)
  else s

/-- A heartbeat arrives: the time of its levels' managers, and the conflicts it shows, from the highest level down. -/
def State.beat (s : State) (r : Role) (c : BitVec 17) : State :=
  let own := s.dp.coord.code
  let ls := (List.range (roleLevels r)).filter fun l => levelScope l c == levelScope l own
  let s := { s with roles := { s.roles with
    beats := ls.foldl (fun m l => Sparse.set 0 m l (s.dp.now + 1)) s.roles.beats
    holders := ls.foldl (fun m l => Sparse.set none m l (some c)) s.roles.holders } }
  ls.reverse.foldl (fun s l => s.settleRole l c) s

def execHeartbeat (role : Role) (coord : BitVec 17) (s : State) : Out := .next (s.beat role coord)

/-- 20 ms without the level's manager: of the live candidates (the hedge's non-spare modules, the pod's hedge managers, the
pod managers) the one with the lowest number takes the role (R44). -/
def State.succeed (s : State) (l : Nat) (live : List (BitVec 17)) : State :=
  let own := s.dp.coord.code
  let first := (live.filter fun c => levelScope l c == levelScope l own).all fun c => decide (own.toNat ≤ c.toNat)
  if s.roles.role ≠ .spare ∧ roleLevels s.roles.role = l ∧ live.contains own ∧ first then
    ({ s with roles := { s.roles with role := levelRole l } } : State).roleRecord 2 own (levelRole l)
  else s

def execManagerSuccession (level : Fin 3) (live : List (BitVec 17)) (s : State) : Out := .next (s.succeed level live)

end Sys2Proof.Machine
end

