-- ==== Sys2Proof/Machine/Registers.lean ====
section
/-! DEFINITION. The register space: what every register reads as, and what a write to its fields does (00 R7 to R11; 07 R247, R248; the register maps of every chapter). -/
namespace Sys2Proof.Machine

/-! ### Packing -/

/-- Fields at their bit positions. -/
def pk (l : List (Nat × Nat)) : BitVec 64 := BitVec.ofNat 64 (l.foldl (fun a p => a + p.1 * 2 ^ p.2) 0)

/-- Flags in a row from bit 0, and their event counters, 16 bits each. -/
def flagBits (l : List Flag) : BitVec 64 := pk ((List.range l.length).map fun i => (boolN (l.getD i {}).set, i))
def flagCnts (l : List Flag) : BitVec 64 := pk ((List.range l.length).map fun i => ((l.getD i {}).cnt.toNat, 16 * i))

/-- A reserved slot. -/
def resvReg : Option (BitVec 64) := some 0

/-! ### Reads, block by block; `none` is an offset outside the block's map -/

def State.readClk (s : State) (o : Nat) : Option (BitVec 64) :=
  if o = 0 then some s.clk.count
  else if o = 8 then some (pk [(boolN s.clk.refLost.set, 0), (boolN s.clk.syncSeen.set, 1), (boolN s.clk.refPresent, 2),
    (s.clk.refLost.cnt.toNat, 16), (s.clk.syncSeen.cnt.toNat, 32)])
  else none

def mapHalf (m : PanelMap) (e : Nat) : BitVec 64 := pk ((List.range 8).map fun i => (m.at (e + i), 5 * i))

def State.readEmap (s : State) (o : Nat) : Option (BitVec 64) :=
  if 0x600 ≤ o then none
  else
    let m := s.panelMap (o / 0x20)
    match o % 0x20 with
    | 0 => some (mapHalf m 0)
    | 8 => some (mapHalf m 8)
    | 0x10 => some (pk [(m.retired.toNat, 0), (boolN m.otpPending, 26), (m.spare.toNat, 27)])
    | _ => resvReg

def State.readEq (s : State) (o : Nat) : Option (BitVec 64) :=
  if 1744 * 0x20 ≤ o then none
  else
    let e := s.eq (o / 0x20)
    match o % 0x20 with
    | 0 => some (pk [(e.base.toNat, 5)])
    | 8 => some (pk [(e.sizeLog2.toNat, 0), (boolN e.enable, 31)])
    | 0x10 => some (pk [(boolN e.fault.set, 0), (boolN e.busy, 1), (e.head.toNat, 20), (e.lastFault.toNat, 32), (e.fault.cnt.toNat, 48)])
    | _ => some (pk [(e.last.toNat, 0)])

/-- Eight region table entries from granule `g` on. -/
def State.regionWord (s : State) (g : Nat) : BitVec 64 :=
  pk ((List.range 8).map fun i => ((s.dp.mem.regionOf (g + i)).toNat, 8 * i))

/-- First granule of a region table slot (R248). -/
def regionSlot (o : Nat) : Option Nat :=
  if 0x1000 ≤ o ∧ o < 0xD000 ∧ (o - 0x1000) % 0x400 < 768 then
    some (granuleOf (2 ^ 41 + (o - 0x1000) / 0x400 * 2 ^ 31) + (o - 0x1000) % 0x400)
  else if 0x10000 ≤ o ∧ o < 0x90000 then some (o - 0x10000)
  else none

def State.readMem (s : State) (o : Nat) : Option (BitVec 64) :=
  if o < 0x1000 then
    let u := s.dp.unit (o / 0x40)
    match o % 0x40 with
    | 0 => some (flagBits [u.ce, u.ue, u.storm] ||| pk [(boolN u.repairPending, 3)])
    | 8 => some (flagCnts [u.ce, u.ue, u.storm])
    | 0x10 => some u.ueAddr
    | 0x18 => some (pk [(u.ceTotal.toNat, 0)])
    | 0x20 => some (pk [(u.granule.toNat, 0), (u.passes.toNat, 32)])
    | _ => resvReg
  else match regionSlot o with
    | some g => some (s.regionWord g)
    | none => none

def State.mbxStatus (s : State) (p : Port) : BitVec 64 :=
  pk [(boolN (s.isOwner p), 0), (boolN (s.port (portOther p)).up, 1), (boolN s.mbx.lapsed, 2),
      (boolN (s.mbx.take.isSome && s.isOwner p), 3), (s.stage % 8, 4), (boolN s.mbx.recovery, 7), ((s.port p).discards.toNat, 32)]

def segWord (g : Seg) : BitVec 64 := pk [(boolN g.enable, 0), (g.job.toNat, 16), (g.base.toNat, 32)]

def State.readMbx (s : State) (o : Nat) : Option (BitVec 64) :=
  if 0x200 ≤ o then none
  else
    let p : Port := if o < 0x100 then .A else .B
    let q := s.port p
    let r := o % 0x100
    if r = 0 then some (s.mbxStatus p)
    else if r = 0x10 then some (pk [(s.mbx.ageMs.toNat, 0)])
    else if r = 0x18 then some (flagBits [q.fDiscard, q.fUr, q.fOwner])
    else if r = 0x20 then some (flagCnts [q.fDiscard, q.fUr, q.fOwner])
    else if 0x40 ≤ r ∧ r < 0xC0 then some (segWord (q.seg ((r - 0x40) / 8)))
    else resvReg

def DomState.code : DomState → Nat
  | .off => 0 | .up => 1 | .on => 2 | .down => 3 | .retention => 4

def State.readPwr (s : State) (o : Nat) : Option (BitVec 64) :=
  let w := s.pwr
  if o = 0 then some (pk [(w.sus.toNat, 0), (w.peak.toNat, 16)])
  else if o = 8 then some (pk [(boolN w.failed, 0), (w.mstate.toNat, 6), (w.throttle.toNat, 8), (w.cap.toNat, 12),
    (s.actingW % 2 ^ 16, 16), (w.estimate.toNat, 32), (w.measured.toNat, 48)])
  else if o = 0x10 then some (flagBits [w.fPeak, w.fSus, w.fSuspect, w.fDroop])
  else if o = 0x18 then some (flagCnts [w.fPeak, w.fSus, w.fSuspect, w.fDroop])
  else if o = 0x20 then some (pk [(w.gain.toNat, 0), (boolN w.calLimit, 16)])
  else if o = 0x30 then some (pk [(boolN w.late.set, 0), (w.sources.toNat, 4), (w.lastSource.toNat, 8), (w.late.cnt.toNat, 16)])
  else if o = 0x38 then some w.rtc
  else if o = 0x40 then some (pk [(w.alarmAt.toNat, 0), (boolN w.alarmOn, 63)])
  else if o = 0x48 then some (pk [(w.hours.toNat, 0)])
  else if 0x100 ≤ o ∧ o < 0x280 then
    let p := s.pstate ((o - 0x100) / 8)
    some (pk [(p.req.toNat, 0), (p.tgt.toNat, 8), (p.cur.toNat, 12)])
  else if 0x400 ≤ o ∧ o < 0x430 then some (pk [(Sparse.get 0 w.energy ((o - 0x400) / 8) / 1000, 0)])
  else if 0x1000 ≤ o ∧ o < 0x2F00 then
    let n := (o - 0x1000) / 8
    some (pk [((s.domain n).votes.toNat, 0), (s.domainHolds n % 256, 8), ((s.domain n).st.code, 16)])
  else resvReg

def State.readPct (s : State) (o : Nat) : Option (BitVec 64) :=
  if o < 0x30000 then (if o % 0x100 / 8 < 19 then some ((s.pct (o / 0x100)).read (o % 0x100 / 8)) else resvReg)
  else if o = 0x30000 then some (pk [(s.win.us.toNat, 0), (s.win.seq.toNat, 32)])
  else if 0x31000 ≤ o ∧ o < 0x31A20 then some (pk [((Sparse.get 0 s.win.latched ((o - 0x31000) / 8)).toNat, 0)])
  else if 0x31A20 ≤ o then resvReg
  else none

def LinkSt.flags0 (l : LinkSt) : List Flag := [l.downEvent, l.degrade, l.quarantine, l.replay]
def LinkSt.flags1 (l : LinkSt) : List Flag := [l.notReady, l.pressure]

def State.readLnk (s : State) (o : Nat) : Option (BitVec 64) :=
  if 0x1800 ≤ o then none
  else
    let l := s.link (o / 0x40)
    match o % 0x40 with
    | 0 => some (pk [(l.st.code, 0), (l.laneMask.toNat, 8), (l.peerAbi.toNat, 16), (l.protoRev.toNat, 32), (l.peerLink.toNat, 40),
        (l.peerCoord.toNat, 47)])
    | 8 => some (pk [(boolN l.enable, 31)])
    | 0x10 => some (flagBits (l.flags0 ++ l.flags1))
    | 0x18 => some (flagCnts l.flags0)
    | 0x20 => some (flagCnts l.flags1)
    | 0x28 => some (pk [(l.crcFail.toNat, 0), (l.uncorrCw.toNat, 12), (l.tagFail.toNat, 24), (l.corrSym.toNat, 32)])
    | 0x30 => some (pk [(l.rtt.toNat, 0), (l.holds.toNat, 16), (l.resent.toNat, 32)])
    | _ => resvReg

def State.readEvr (s : State) (o : Nat) : Option (BitVec 64) :=
  let e := s.dp.evr
  if o = 0 then some (pk [(boolN e.full, 0), (boolN e.bank, 1), (e.nextSeq.toNat, 16)])
  else if o = 8 then some (pk [(e.firstSeq.toNat, 0)])
  else if o = 0x10 then some (pk [(e.dropped.toNat, 0)])
  else if o = 0x18 then some (flagBits [e.drop, e.fullEvent])
  else if o = 0x20 then some (flagCnts [e.drop, e.fullEvent])
  else resvReg

/-- Slots of a field that are written, that are spoiled, and the fault of the one in force. -/
def State.otpMasks (s : State) (f : Nat) : Nat × Nat :=
  (List.range (otpSlots f)).foldl (fun a g => match s.otpSlot f g with
    | .written _ _ => (a.1 + 2 ^ g, a.2)
    | .spoiled => (a.1, a.2 + 2 ^ g)
    | .unused => a) (0, 0)

def State.otpFault (s : State) (f : Nat) : Bool :=
  match s.otpForce f with
  | some (_, ok) => !ok
  | none => false

def State.readOtp (s : State) (o : Nat) : Option (BitVec 64) :=
  if 0x380 ≤ o then none
  else
    let f := o / 8
    if otpField f then some (pk [(boolN (s.otpFault f), 0), ((s.otpMasks f).1, 4), ((s.otpMasks f).2, 8)]) else resvReg

def State.readWdg (s : State) (o : Nat) : Option (BitVec 64) :=
  let w := s.wdg
  if o = 0 then some (pk [(w.limitMs.toNat, 0)])
  else if o = 8 then some (flagBits [w.hang, w.reset, w.escalated])
  else if o = 0x10 then some (flagCnts [w.hang, w.reset, w.escalated])
  else if o = 0x18 then some (pk [(w.level.toNat, 0), (w.status.toNat, 16), (w.moduleResets.toNat, 32)])
  else if 0x1000 ≤ o ∧ o < 0x4680 then
    let n := (o - 0x1000) / 8
    let e := s.wdgEng n
    some (pk [(e.sinceUs.toNat, 0), (e.hangs.toNat, 32), (s.engineLevel n, 48)])
  else resvReg

def CqState.code : CqState → Nat
  | .free => 0 | .running => 1 | .stopped => 2

def State.readCqReg (s : State) (o : Nat) : Option (BitVec 64) :=
  if o < 0x1000 then
    let c := s.cq (o / 0x40)
    match o % 0x40 with
    | 0 => some (pk [(c.base.toNat, 5)])
    | 8 => some (pk [(c.sizeLog2.toNat, 0), (c.timeout.toNat, 4), (c.st.code, 28), (boolN c.enable, 31),
        ((match c.group with | some g => g.id.toNat | none => 0), 32)])
    | 0x10 => some (flagBits [c.fFault, c.fOrder, c.fPressure] ||| pk [(c.lastFault.toNat, 48)])
    | 0x18 => some (flagCnts [c.fFault, c.fOrder, c.fPressure])
    | 0x20 => some (pk [(c.last.toNat, 0), (c.stale.toNat, 32)])
    | _ => resvReg
  else if 0x1000 ≤ o ∧ o < 0x2800 then
    let h := s.share ((o - 0x1000) / 0x40) (o % 0x40 / 8)
    some (pk [(h.weight.toNat, 0), (h.job.toNat, 8), (boolN h.held, 24)])
  else if 0x3000 ≤ o ∧ o < 0x4800 then some (s.share ((o - 0x3000) / 0x40) (o % 0x40 / 8)).bytes
  else none

def EpState.code : EpState → Nat
  | .free => 0 | .wet => 1 | .dry => 2 | .smudged => 3

def State.readWet (s : State) (o : Nat) : Option (BitVec 64) :=
  if o < 0x2000 then
    let e := (s.wet (o / 0x800)).ent (o % 0x800 / 8)
    some (pk [(e.step.toNat, 0), (e.attempt.toNat, 32), (e.consumed.toNat, 40), (e.state.code, 62)])
  else if o < 0x2100 then
    let w := s.wet ((o - 0x2000) / 0x40)
    match o % 0x40 with
    | 0 => some (pk [(w.wetCount.toNat, 0), (boolN w.settling, 4), (w.oldest.toNat, 8), (w.dryIndex.toNat, 16)])
    | 8 => some (pk [(w.dupLog2.toNat, 0)])
    | 0x10 => some (flagBits [w.smudge, w.dupMismatch, w.stall, w.hostWet])
    | 0x18 => some (flagCnts [w.smudge, w.dupMismatch, w.stall, w.hostWet])
    | _ => resvReg
  else if 0x3000 ≤ o ∧ o < 0x4800 then
    let x := Sparse.get {} s.dp.obs ((o - 0x3000) / 8)
    some (pk [(x.left.toNat, 0), (x.transient.toNat, 40), (x.permanent.toNat, 48)])
  else none

def State.readCkp (s : State) (o : Nat) : Option (BitVec 64) :=
  if o < 0x100 then
    let j := s.job (o / 0x40)
    let c := s.ckp (o / 0x40)
    let fs := [c.commit, c.torn, c.rollback, c.takeover]
    match o % 0x40 with
    | 0 => some (pk [(j.phase.toNat, 0), (c.mode.toNat, 6), (c.rollbacks.toNat, 24), (c.lastCommit.toNat, 32)])
    | 8 => some (pk [(c.interval.toNat, 0)])
    | 0x10 => some (flagBits fs)
    | 0x18 => some (flagCnts fs)
    | _ => resvReg
  else if 0x1000 ≤ o ∧ o < 0x1100 then
    let n := (o - 0x1000) / 0x10
    some (if o % 0x10 = 0 then (Sparse.get 0 s.integ.updated n).setWidth 64 else (Sparse.get 0 s.integ.skipped n).setWidth 64)
  else none

def State.secFlags (s : State) : List Flag := (List.range 5).map fun i => Sparse.get {} s.sec.flags i

def State.readSec (s : State) (o : Nat) : Option (BitVec 64) :=
  let c := s.sec
  if o = 0 then some (flagBits s.secFlags ||| pk [(c.active.toNat, 16)])
  else if o = 8 then some (flagCnts (s.secFlags.take 4))
  else if o = 0x10 then some (flagCnts (s.secFlags.drop 4))
  else if o = 0x18 then some (pk [(boolN c.hold, 2), (boolN c.erased, 3), (boolN c.disabled, 4), (c.revoke, 5)])
  else if o = 0x20 then some c.nonce
  else resvReg

/-- The slot at an 8-byte-aligned offset of the register space (R247). -/
def State.regSlot (s : State) (off : Nat) : Option (BitVec 64) :=
  let o := off % 2 ^ 20
  match off / 2 ^ 20 with
  | 0x00 => s.readClk o | 0x01 => s.readEmap o | 0x02 => s.readEq o | 0x03 => s.readMem o | 0x04 => s.readMbx o
  | 0x05 => s.readPwr o | 0x06 => s.readPct o | 0x07 => s.readLnk o | 0x08 => s.readEvr o | 0x09 => s.readOtp o
  | 0x0A => s.readWdg o | 0x0B => s.readCqReg o | 0x0C => s.readWet o | 0x0D => s.readCkp o | 0x0E => s.readSec o
  | _ => none

/-! ### RC fields (R7) -/

/-- Clear the RC fields of a slot; `lo`, `hi`: its halves that were read. -/
def State.clearRc (s : State) (off : Nat) (lo hi : Bool) : State :=
  let o := off % 2 ^ 20
  if off / 2 ^ 20 = 0x07 ∧ o < 0x1800 ∧ o % 0x40 = 0x28 then
    s.updLink (o / 0x40) fun l => { l with
      crcFail := if lo then 0 else l.crcFail, uncorrCw := if lo then 0 else l.uncorrCw, tagFail := if lo then 0 else l.tagFail
      corrSym := if hi then 0 else l.corrSym }
  else if off / 2 ^ 20 = 0x07 ∧ o < 0x1800 ∧ o % 0x40 = 0x30 then
    s.updLink (o / 0x40) fun l => { l with holds := if lo then 0 else l.holds, resent := if hi then 0 else l.resent }
  else if off / 2 ^ 20 = 0x0B ∧ o < 0x1000 ∧ o % 0x40 = 0x20 then
    s.updCq (o / 0x40) fun c => { c with stale := if hi then 0 else c.stale }
  else s

/-- A 64-bit read of a slot. -/
def State.regRead64 (s : State) (off : Nat) : State × Option (BitVec 64) :=
  match s.regSlot off with
  | some v => (s.clearRc off true true, some v)
  | none => (s, none)

/-- A 32-bit read: of the rack tick it latches the high half or takes the latched one (01 R38). One latch serves every agent,
and one read of the high half takes it (DESIGN CHOICE, log entry 103: the rule names neither). -/
def State.regRead32 (s : State) (off : Nat) : State × Option (BitVec 64) :=
  let hi := off % 8 ≥ 4
  match s.regSlot (off / 8 * 8) with
  | none => (s, none)
  | some v =>
    if off / 8 = 0 then
      if hi then
        ({ s with clk := { s.clk with latch := none } }, some ((s.clk.latch.getD (v.extractLsb' 32 32)).setWidth 64))
      else ({ s with clk := { s.clk with latch := some (v.extractLsb' 32 32) } }, some (v &&& 0xFFFFFFFF))
    else (s.clearRc (off / 8 * 8) (!hi) hi, some (if hi then v >>> 32 else v &&& 0xFFFFFFFF))

/-- A read of `wide` 64 or 32 bits at an aligned offset. -/
def State.regRead (s : State) (off : Nat) (wide : Bool) : State × Option (BitVec 64) :=
  if off % (if wide then 8 else 4) ≠ 0 then (s, none) else if wide then s.regRead64 off else s.regRead32 off

/-- A read of a register with RC fields: its value goes to the reader, then the fields are 0. -/
def State.readClear (s : State) (off : Nat) (wide : Bool) : State :=
  let r := s.regRead off wide
  match r.2 with
  | some v => r.1.send (.regValue v)
  | none => r.1.send (.answer .bounds 0)

def execRegisterReadClear (offset : BitVec 43) (wide : Bool) (s : State) : Out := .next (s.readClear offset.toNat wide)

/-! ### Writes -/

/-- A write as it reaches a slot: value, the bits it writes, the flags that hardware sets in the same cycle (R8). -/
structure RegW where
  v    : BitVec 64
  mask : BitVec 64
  hw   : BitVec 64 := 0

def RegW.bit (w : RegW) (i : Nat) : Bool := w.v.getLsbD i && w.mask.getLsbD i
/-- A write touches bits lo to lo + n - 1. -/
def RegW.touches (w : RegW) (lo n : Nat) : Bool := w.mask.extractLsb' lo n != 0
/-- A W1C flag at bit `i`. -/
def RegW.flag (w : RegW) (i : Nat) (f : Flag) : Flag := f.write (w.bit i) (w.hw.getLsbD i)
/-- An RW field of `n` bits at `lo`. -/
def RegW.field (w : RegW) (lo : Nat) {n : Nat} (old : BitVec n) : BitVec n :=
  let m := w.mask.extractLsb' lo n
  (old &&& ~~~m) ||| (w.v.extractLsb' lo n &&& m)
def RegW.fieldB (w : RegW) (lo : Nat) (old : Bool) : Bool := if w.mask.getLsbD lo then w.v.getLsbD lo else old
/-- The value written to a write-only field. -/
def RegW.wo (w : RegW) (lo n : Nat) : BitVec n := w.v.extractLsb' lo n &&& w.mask.extractLsb' lo n

def State.writeClk (s : State) (o : Nat) (w : RegW) : State :=
  if o = 8 then { s with clk := { s.clk with refLost := w.flag 0 s.clk.refLost, syncSeen := w.flag 1 s.clk.syncSeen } } else s

/-- EQ_CTRL: a size outside 4 to 12 holds the queue idle and sets FAULT; setting ENABLE is Ovind's checked enabling (06 R219). -/
def State.writeEqCtrl (s : State) (q : Nat) (w : RegW) : State :=
  let e := s.eq q
  let size := w.field 0 e.sizeLog2
  let on := w.fieldB 31 e.enable
  let s := s.updEq q fun e => { e with sizeLog2 := size }
  if on ∧ !e.enable then s.eqEnable q e.inScratch
  else
    let s := s.updEq q fun e => { e with enable := on }
    if on ∧ size ≠ e.sizeLog2 ∧ !sizeOk size then s.eqFault q .fieldReserved else s

def State.writeEq (s : State) (o : Nat) (w : RegW) : State :=
  let q := o / 0x20
  if 1744 ≤ q then s
  else match o % 0x20 with
    | 0 => s.updEq q fun e => { e with base := w.field 5 e.base }
    | 8 => s.writeEqCtrl q w
    | 0x10 => s.updEq q fun e => { e with fault := w.flag 0 e.fault }
    | _ => s

/-- A durable type for glaze, or another type for a durable granule while its partition exists (R229, R251). -/
def State.regionRefused (s : State) (g : Nat) (e : BitVec 8) : Bool :=
  let old := s.dp.mem.regionOf g
  (durableType (regionType e) && !inLpddr (g * 2 ^ 21))
    || (durableType (regionType old) && (s.job (regionPart old)).used && regionType e != regionType old)

/-- Region table entries that a write covers: whole bytes, bits [7:6] reserved (R248). -/
def State.regionWrites (s : State) (g : Nat) (w : RegW) : List (Nat × BitVec 8) :=
  ((List.range 8).filter fun i => w.touches (8 * i) 8).map fun i => (g + i, w.field (8 * i) (s.dp.mem.regionOf (g + i)) &&& 0x3F)

def State.writeRegion (s : State) (g : Nat) (w : RegW) : State × Status :=
  let l := s.regionWrites g w
  if l.any fun x => s.regionRefused x.1 x.2 then (s, .fieldReserved)
  else (l.foldl (fun s x => s.changeRegion x.1 x.2) s, .ok)

def State.writeMem (s : State) (o : Nat) (w : RegW) : State :=
  if o < 0x1000 then
    if o % 0x40 = 0 then
      s.onDp fun d => d.updUnit (o / 0x40) fun u => { u with ce := w.flag 0 u.ce, ue := w.flag 1 u.ue, storm := w.flag 2 u.storm }
    else s
  else s

/-- The whole register is a limit pair: out of range both fields stay and the write is logged (13 R436). -/
def State.setLimits (s : State) (peak sus : BitVec 16) : State × Bool :=
  if limitsOk peak.toNat sus.toNat then
    ({ s with pwr := { s.pwr with peak, sus }, flash := { s.flash with limits := some (peak, sus) } }, true)
  else (s.configRecord 0x500000 (peak.toNat * 2 ^ 16 + sus.toNat), false)

def State.writePwr (s : State) (o : Nat) (w : RegW) : State :=
  let p := s.pwr
  if o = 0 then (s.setLimits (w.field 16 p.peak) (w.field 0 p.sus)).1
  else if o = 0x10 then
    { s with pwr := { p with fPeak := w.flag 0 p.fPeak, fSus := w.flag 1 p.fSus, fSuspect := w.flag 2 p.fSuspect
                             fDroop := w.flag 3 p.fDroop } }
  else if o = 0x28 then s.vote (w.wo 16 3).toNat (w.wo 0 10).toNat (w.bit 31)
  else if o = 0x30 then { s with pwr := { p with late := w.flag 0 p.late } }
  else if o = 0x40 then { s with pwr := { p with alarmAt := w.field 0 p.alarmAt, alarmOn := w.fieldB 63 p.alarmOn } }
  else if o = 0x48 then
    let h := w.field 0 p.hours
    if 1 ≤ h.toNat ∧ h.toNat ≤ 168 then { s with pwr := { p with hours := h } } else s.configRecord (0x500000 + o) h.toNat
  else if 0x100 ≤ o ∧ o < 0x280 then
    let n := (o - 0x100) / 8
    if w.touches 0 4 then s.setRequest n (w.field 0 (s.pstate n).req) else s
  else s

def State.writePct (s : State) (o : Nat) (w : RegW) : State :=
  if o < 0x30000 then
    let i := o / 0x100
    match o % 0x100 with
    | 8 => s.updPct i fun p => { p with select := w.field 0 p.select }
    | 0x10 => s.updPct i fun p =>
        let p := if w.mask.getLsbD 0 then { p with enable := w.v.getLsbD 0 } else p
        let p := if w.bit 1 then p.clear [] else p
        if w.mask.getLsbD 2 ∧ w.v.getLsbD 2 ≠ p.frozen.isSome then p.setFreeze (w.v.getLsbD 2) else p
    | 0x18 => s.updPct i fun p => { p with ovf := (List.range 8).foldl (fun m k => Sparse.upd {} m k (w.flag k)) p.ovf }
    | _ => s
  else if o = 0x30000 ∧ w.touches 0 20 then s.windowWrite (w.field 0 s.win.us)
  else s

def State.writeLnkCtrl (s : State) (n : Nat) (w : RegW) : State :=
  let on := w.fieldB 31 (s.link n).enable
  let s := if on = (s.link n).enable then s else if on then s.linkEnable n else s.linkReject n
  let s := if w.bit 30 then s.linkRetrain n else s
  if w.bit 29 then s.linkRestore n else s

def State.writeLnk (s : State) (o : Nat) (w : RegW) : State :=
  let n := o / 0x40
  if 96 ≤ n then s
  else match o % 0x40 with
    | 8 => s.writeLnkCtrl n w
    | 0x10 => s.updLink n fun l => { l with
        downEvent := w.flag 0 l.downEvent, degrade := w.flag 1 l.degrade, quarantine := w.flag 2 l.quarantine
        replay := w.flag 3 l.replay, notReady := w.flag 4 l.notReady, pressure := w.flag 5 l.pressure }
    | _ => s

def State.writeEvr (s : State) (o : Nat) (w : RegW) : State :=
  if o = 0x18 then s.onEvr fun e => { e with drop := w.flag 0 e.drop, fullEvent := w.flag 1 e.fullEvent } else s

def State.writeWdg (s : State) (o : Nat) (w : RegW) : State :=
  if o = 0 then
    let l := w.field 0 s.wdg.limitMs
    if 1 ≤ l.toNat ∧ l.toNat ≤ 1000 then { s with wdg := { s.wdg with limitMs := l } } else s.configRecord 0xA00000 l.toNat
  else if o = 8 then
    { s with wdg := { s.wdg with hang := w.flag 0 s.wdg.hang, reset := w.flag 1 s.wdg.reset, escalated := w.flag 2 s.wdg.escalated } }
  else s

def State.writeCq (s : State) (o : Nat) (w : RegW) : State :=
  let q := o / 0x40
  if 64 ≤ q then s
  else match o % 0x40 with
    | 0 => s.updCq q fun c => { c with base := w.field 5 c.base }
    | 8 => s.updCq q fun c =>
        let t := w.field 4 c.timeout
        let size := w.field 0 c.sizeLog2
        let on := w.fieldB 31 c.enable
        let old := c.sizeLog2
        let was := c.enable
        let c := { c with enable := on, sizeLog2 := size, timeout := if t = 0 then 0x00C8 else t }
        if on ∧ (size ≠ old ∨ !was) ∧ !sizeOk size then { c with lastFault := Status.fieldReserved.toCode, fFault := c.fFault.hwSet } else c
    | 0x10 => s.updCq q fun c => { c with fFault := w.flag 0 c.fFault, fOrder := w.flag 1 c.fOrder, fPressure := w.flag 2 c.fPressure }
    | _ => s

def State.writeWet (s : State) (o : Nat) (w : RegW) : State :=
  if 0x2000 ≤ o ∧ o < 0x2100 then
    let k := (o - 0x2000) / 0x40
    match o % 0x40 with
    | 8 =>
      let d := w.field 0 (s.wet k).dupLog2
      if d.toNat ≤ 10 then s.updWet k fun x => { x with dupLog2 := d } else s.configRecord (0xC00000 + o) d.toNat
    | 0x10 => s.updWet k fun x => { x with
        smudge := w.flag 0 x.smudge, dupMismatch := w.flag 1 x.dupMismatch, stall := w.flag 2 x.stall, hostWet := w.flag 3 x.hostWet }
    | _ => s
  else s

def State.writeCkp (s : State) (o : Nat) (w : RegW) : State :=
  if o < 0x100 ∧ o % 0x40 = 0x10 then
    s.updCkp (o / 0x40) fun c => { c with
      commit := w.flag 0 c.commit, torn := w.flag 1 c.torn, rollback := w.flag 2 c.rollback, takeover := w.flag 3 c.takeover }
  else s

def State.writeSec (s : State) (o : Nat) (w : RegW) : State :=
  if o = 0 then
    { s with sec := { s.sec with flags := (List.range 5).foldl (fun m i => Sparse.upd {} m i (w.flag i)) s.sec.flags } }
  else s

/-- A port's registers as its own host writes them; a write of a field not granted to it is discarded and counted
(14 R461). -/
def State.writeMbx (s : State) (p : Port) (r : Nat) (w : RegW) : State :=
  if r = 0x08 then
    if s.isOwner p then { s with mbx := { s.mbx with ageMs := 0, lapsed := false } } else s.bar0Discard p 1
  else if r = 0x18 then
    s.updPort p fun q => { q with fDiscard := w.flag 0 q.fDiscard, fUr := w.flag 1 q.fUr, fOwner := w.flag 2 q.fOwner }
  else if 0x40 ≤ r ∧ r < 0xC0 ∧ s.isOwner p then
    s.updPort p fun q => { q with segs := Sparse.upd {} q.segs ((r - 0x40) / 8) fun g =>
      { base := w.field 32 g.base, job := w.field 16 g.job, enable := w.fieldB 0 g.enable } }
  else s.bar0Discard p 1

/-- The MSI-X table in BAR0: 16 bytes an entry; unmasking sends what is pending (14 R465). -/
def State.writeMsix (s : State) (p : Port) (o : Nat) (w : RegW) : State :=
  let v := o / 16
  s.onDp fun d =>
    let e := Sparse.get {} (d.msix p) v
    if o % 16 = 0 then d.setMsix p (Sparse.set {} (d.msix p) v { e with addr := w.field 0 e.addr })
    else
      let masked := w.fieldB 32 e.masked
      let fire := e.pending && !masked
      let e' := { e with data := w.field 0 e.data, masked, pending := e.pending && masked }
      let d := d.setMsix p (Sparse.set {} (d.msix p) v e')
      if fire then d.send (.msix p v e'.addr e'.data) else d

/-- A write through BAR0 (14 Table 14.2). Slot contents and state words have commands of their own; any other write into a
slot that is not FREE is discarded (R469). -/
def State.writeBar0 (s : State) (p : Port) (o : Nat) (w : RegW) : State :=
  if o < 0x8000 then (if (s.slot p (o / 0x1000)).st = .free then s else s.bar0Discard p 1)
  else if 0x8000 ≤ o ∧ o < 0x8100 then s.writeMbx p (o - 0x8000) w
  else if 0xC000 ≤ o ∧ o < 0xC400 then s.writeMsix p (o - 0xC000) w
  else s.bar0Discard p 1

/-! ### Who may write what -/

/-- Bits of a slot that the owner host may write, and bits of its other fields (`none`: no field is granted). The blocks
EQ_ and LNK_ name no exception for their W1C flags. -/
def State.ownerGrant (s : State) (p : Port) (off : Nat) : Option (BitVec 64 × BitVec 64) :=
  let o := off % 2 ^ 20
  match off / 2 ^ 20 with
  | 0x00 => if o = 8 then some (0x3, 0x0000FFFFFFFF0004) else none
  | 0x03 => if o < 0x1000 ∧ o % 0x40 = 0 then some (0x7, 0x8) else none
  | 0x04 =>
    let r := o % 0x100
    if o < 0x200 ∧ o / 0x100 = portNo p ∧ (r = 8 ∨ r = 0x18 ∨ (0x40 ≤ r ∧ r < 0xC0)) then some (BitVec.allOnes 64, 0) else none
  | 0x05 =>
    if o = 0 then some (0xFFFFFFFF, 0)
    else if o = 0x10 then some (0xF, 0)
    else if o = 0x30 then some (0x1, 0xFFFF0FF0)
    else if o = 0x48 then some (0xFF, 0)
    else none
  | 0x06 =>
    if o < 0x30000 then
      let grant := match s.easelPart (o / 0x100) with | some k => (s.job k).grant | none => false
      if (o % 0x100 = 8 ∨ o % 0x100 = 0x10) ∧ !grant then some (BitVec.allOnes 64, 0)
      else if o % 0x100 = 0x18 then some (0xFF, 0) else none
    else if o = 0x30000 then some (0xFFFFF, 0xFFFFFFFF00000000)
    else none
  | 0x07 => if o < 0x1800 ∧ o % 0x40 = 8 then some (0xE0000000, 0) else none
  | 0x08 => if o = 0x18 then some (0x3, 0) else none
  | 0x0A => if o = 0 then some (0xFFFF, 0) else if o = 8 then some (0x7, 0) else none
  | 0x0B => if o < 0x1000 ∧ o % 0x40 = 0x10 then some (0x7, 0xFFFF000000000000) else none
  | 0x0C =>
    if 0x2000 ≤ o ∧ o < 0x2100 then (if o % 0x40 = 8 ∨ o % 0x40 = 0x10 then some (0xF, 0) else none) else none
  | 0x0D => if o < 0x100 ∧ o % 0x40 = 0x10 then some (0xF, 0) else none
  | 0x0E => if o = 0 then some (0x1F, 0x1F0000) else none
  | _ => none

/-- A write that reaches its block. -/
def State.writeBlock (s : State) (off : Nat) (w : RegW) : State :=
  let o := off % 2 ^ 20
  match off / 2 ^ 20 with
  | 0x00 => s.writeClk o w | 0x02 => s.writeEq o w | 0x03 => s.writeMem o w | 0x05 => s.writePwr o w
  | 0x06 => s.writePct o w | 0x07 => s.writeLnk o w | 0x08 => s.writeEvr o w | 0x0A => s.writeWdg o w | 0x0B => s.writeCq o w
  | 0x0C => s.writeWet o w | 0x0D => s.writeCkp o w | 0x0E => s.writeSec o w
  | _ => s

/-- The owner host's masked write, 64 bits wide (14 R477, REG_WRITE): a field that is not granted fails it whole. A host's
own votes go through PWR_VOTE_CMD as client 6 (13 R446). -/
def State.ownerWrite (s : State) (p : Port) (off : Nat) (w : RegW) : State × Status :=
  if off % 8 ≠ 0 ∨ s.regSlot off = none then (s, .bounds)
  else match s.ownerGrant p off with
    | none => (s, .bounds)
    | some (g, other) =>
      if w.mask &&& other ≠ 0 then (s, .bounds)
      else if off / 2 ^ 20 = 4 then (s.writeMbx p (off % 0x100) w, .ok)
      else (s.writeBlock off { w with mask := w.mask &&& g }, .ok)

/-- Align a write to its slot: a 32-bit write covers one half. -/
def slotWrite (off : Nat) (wide : Bool) (w : RegW) : RegW :=
  if wide then w
  else if off % 8 ≥ 4 then { v := w.v <<< 32, mask := (w.mask &&& 0xFFFFFFFF) <<< 32, hw := w.hw <<< 32 }
  else { w with mask := w.mask &&& 0xFFFFFFFF }

/-- A write to register space by an agent: Ovind's reaches every writable field and the region tables, an engine's is ignored, another module's
fails with ST_BOUNDS, since no map grants remote writes (R247); the status goes to the writer. -/
def State.regWrite (s : State) (who : RegAgent) (off : Nat) (wide : Bool) (w : RegW) : State × Status :=
  let w := slotWrite off wide w
  match who with
  | .bar0 p => (s.writeBar0 p (off / 8 * 8) w, .ok)
  | .remote => (s, .bounds)
  | .owner p => s.ownerWrite p (off / 8 * 8) w
  | .engine => if s.regSlot (off / 8 * 8) = none then (s, .bounds) else (s, .ok)
  | .ovind =>
    let o := off / 8 * 8
    if s.regSlot o = none then (s, .bounds)
    else if o / 2 ^ 20 = 3 then match regionSlot (o % 2 ^ 20) with
      | some g => s.writeRegion g w
      | none => (s.writeBlock o w, .ok)
    else (s.writeBlock o w, .ok)

def execRegisterWrite (who : RegAgent) (offset : BitVec 43) (wide : Bool) (value mask hw : BitVec 64) (s : State) : Out :=
  let r := s.regWrite who offset.toNat wide { v := value, mask, hw }
  .next (r.1.send (.answer r.2 0))

end Sys2Proof.Machine
end

