-- ==== Sys2Proof/Machine/MemCmds.lean ====
section
/-! DEFINITION. Memory requests, responses and atomics, resolving uncorrectable words, patrol scrub (07 R236 to R243, R256 to R260). -/
namespace Sys2Proof.Machine

/-! ### Answers and issue (R258, R260; 08 Table 8.6) -/

/-- Data padded to whole 32-byte words. -/
def padWords (l : List Byte) : List Byte := (l ++ List.replicate 32 0).take (ceilDiv l.length 32 * 32)

/-- The job a request carries. -/
def reqJob : Agent → BitVec 16
  | .remote j => j
  | .host _ j => j
  | _ => 0

/-- Answer a request: a response packet to another module's issuer, otherwise the status and data here. -/
def State.answerReq (s : State) (q : MemReq) (op : Nat) (st : Status) (data : List Byte) : State :=
  match q.issuer with
  | some (c, txn) => s.respond
      { op := BitVec.ofNat 8 (op + 1), flags := 0, length := BitVec.ofNat 16 (ceilDiv data.length 32)
        dest := c.setWidth 32, src := coord32 s.dp.coord, job := reqJob q.who, txn, addr := q.addr, status := st.toCode
        hops := 0, resv := 0, data := padWords data }
  | none => if op = opRead then s.send (.readAnswer st data) else s.send (.answer st (BitVec.ofNat 64 (fld data 0 8)))

/-- Issue a request to another module: at once ST_LINK_NOT_READY or ST_LINK_QUARANTINE when its route is not up; otherwise the
packet leaves and the access awaits its response (R260). -/
def State.issueReq (s : State) (q : MemReq) (op : Nat) (c : Coord) (data : List Byte) : State :=
  if s.route c q.engine.toNat ≠ .ok then s.answerReq { q with issuer := none } op (s.route c q.engine.toNat) []
  else
    let txn := s.lnk.nextTxn
    let p : Packet :=
      { op := BitVec.ofNat 8 op, flags := 0, length := BitVec.ofNat 16 (ceilDiv data.length 32), dest := coord32 c
        src := coord32 s.dp.coord, job := match q.who with
          | .engine k => (s.job k.val).id
          | a => reqJob a
        txn, addr := q.addr, status := 0, hops := 0, resv := 0, data := padWords data }
    let r := s.sendPacket p q.engine.toNat
    if r.2 ≠ .ok then s.answerReq { q with issuer := none } op r.2 []
    else { r.1 with lnk := { r.1.lnk with
      nextTxn := txn + 1, txns := r.1.lnk.txns ++ [{ tag := txn, op, addr := q.addr, who := q.who, dest := c }] } }

/-- Serve a request here or issue it: `f` performs it at a local space and offset. In M2 a packet is answered with
ST_LINK_NOT_READY (13 R452). -/
def State.memReq (s : State) (q : MemReq) (op : Nat) (data : List Byte) (f : Nat → Nat → State × Status × List Byte) : State :=
  if q.issuer.isSome ∧ s.pwr.mstate = 2 then s.answerReq q op .linkNotReady []
  else match resolve s.dp.coord q.addr with
  | none => s.answerReq q op .bounds []
  | some (.far c _ _) => if q.issuer.isSome then s.answerReq q op .bounds [] else s.issueReq q op c data
  | some (.here sp off) => let r := f sp off; r.1.answerReq q op r.2.1 r.2.2

/-- Run an operation as a request's answer. -/
def State.runReq (s : State) (q : MemReq) (env : Env) (m : Ctx → Op (List Byte)) : State × Status × List Byte :=
  let r := s.runOp env (m (s.ctx env q.who q.tag q.attempt))
  match r.2 with
  | .ok l => (r.1, .ok, l)
  | .error f => (r.1, f.st, [])

/-! ### Reads and writes (R249, R256 to R258) -/

/-- A read of register space gives the register's value (R247). -/
def State.readReg (s : State) (off : Nat) : State × Status × List Byte :=
  let r := s.regRead off true
  match r.2 with
  | some v => (r.1, .ok, le 8 v.toNat)
  | none => (r.1, .bounds, [])

def State.memRead (s : State) (q : MemReq) (words : Nat) (env : Env) : State :=
  s.memReq q opRead [] fun sp off =>
    if sp = 1 then s.readReg off else s.runReq q env fun c => readAt c q.addr (32 * words)

def execRead (req : MemReq) (words : Fin 129) (env : Env) (s : State) : Out := .next (s.memRead req words env)

/-- Who writes a register through a memory request. -/
def regAgentOf (q : MemReq) : RegAgent :=
  if q.issuer.isSome then .remote else match q.who with
    | .remote _ => .remote
    | .ovind => .ovind
    | _ => .engine

def State.memWrite (s : State) (q : MemReq) (v : List Byte) (env : Env) : State :=
  s.memReq q opWrite v fun sp off =>
    if sp = 1 then
      let r := s.regWrite (regAgentOf q) off true { v := BitVec.ofNat 64 (fld v 0 8), mask := BitVec.allOnes 64 }
      (r.1, r.2, [])
    else s.runReq q env fun c => do
      writeAt c q.addr v
      pure []

def execWrite (req : MemReq) (bytes : List Byte) (env : Env) (s : State) : Out := .next (s.memWrite req bytes env)

/-! ### Atomics (R259, Table 7.8) -/

/-- Replace the 8 bytes at the target by `f` of the old value, which is returned. -/
def atomic8 (a : Addr) (f : BitVec 64 → BitVec 64) (c : Ctx) : Op (List Byte) := do
  if a.toNat % 8 ≠ 0 then failOp .align a
  else
    let d ← get
    needOk (rangeAt d c a 8 true) a
    let old ← readAt c a 8
    writeAt c a (le 8 (f (BitVec.ofNat 64 (unle old))).toNat)
    pure old

/-- FETCH_ADD64: adds modulo 2^64 and returns the old value. -/
def State.fetchAdd (s : State) (q : MemReq) (x : BitVec 64) (env : Env) : State :=
  s.memReq q opAtomic (le 8 x.toNat) fun _ _ => s.runReq q env (atomic8 q.addr (· + x))

def execFetchAdd64 (req : MemReq) (addend : BitVec 64) (env : Env) (s : State) : Out := .next (s.fetchAdd req addend env)

/-- CAS64: stores the new value where the old one equals the compared one; returns the old value. -/
def State.compareSwap (s : State) (q : MemReq) (x y : BitVec 64) (env : Env) : State :=
  s.memReq q opAtomic (le 8 x.toNat ++ le 8 y.toNat) fun _ _ =>
    s.runReq q env (atomic8 q.addr fun v => if v = x then y else v)

def execCas64 (req : MemReq) (compare swap : BitVec 64) (env : Env) (s : State) : Out := .next (s.compareSwap req compare swap env)

/-- A record is marked unreadable: its word fails every read until it is written whole (02 R82, 07 R239). -/
def State.markUnreadable (s : State) (a : Addr) : State :=
  match resolve s.dp.coord a with
  | some (.here _ off) => s.onDp fun d => { d with mem := { d.mem with unread := Sparse.set false d.mem.unread (off / 32) true } }
  | _ => s

/-- CENSUS_COMBINE: outside metadata space ST_BOUNDS, off alignment ST_ALIGN; then the update of 02 R77 and R78; an
uncorrectable record fails the writer and is marked unreadable (02 R82). -/
def State.censusCombine (s : State) (q : MemReq) (u : BitVec 256) (env : Env) : State :=
  s.memReq q opAtomic (le 32 u.toNat) fun sp off =>
    if off % 32 ≠ 0 then (s, .align, [])
    else if sp ≠ 2 then (s, .bounds, [])
    else
      let r := s.runReq q env fun c => do
        let d ← get
        needOk (rangeAt d c q.addr 32 true) q.addr
        let new := Census.ofBytes (le 32 u.toNat)
        if 64 ≤ new.flags then failOp .fieldReserved q.addr
        let r ← takeCensus c q.addr
        writeAt c q.addr (r.update new).bytes
        pure []
      if r.2.1 = .checkTile then (r.1.markUnreadable q.addr, r.2.1, r.2.2) else r

def execCensusCombine (req : MemReq) (update : BitVec 256) (env : Env) (s : State) : Out := .next (s.censusCombine req update env)

def partOut (p : PartIn) : PartOut :=
  { count := p.count, payload := p.payload, scales := p.scales.map fun x => (x.1.val, x.2), sat := p.sat
    nonfin := p.nonfin, clamped := p.clamped }

/-- The granules of a sidecar are of one type. -/
def oneGranuleType (d : Dp) (off len : Nat) : Bool :=
  regionType (d.mem.regionOf (granuleOf off)) == regionType (d.mem.regionOf (granuleOf (off + len - 1)))

/-- SIDECAR_PART: the atomic step of 06 R198 on the sidecar at the target, which must be that of the named tile; the part
that completes the tile reads it back and marks it COMPLETE or UNREADABLE. -/
def State.sidecarPart (s : State) (q : MemReq) (td : Addr) (tile : Nat) (p : PartIn) (env : Env) : State :=
  s.memReq q opAtomic (p.scales.map (·.2)) fun sp off =>
    s.runReq q env fun c => do
      let t ← fetchTD c td
      if keyOf s.dp.coord (t.sidecarAddr tile) ≠ keyOf s.dp.coord q.addr ∨ t.tiles ≤ tile ∨ off % 32 ≠ 0 then failOp .align q.addr
      else if sp ≠ 2 ∨ !oneGranuleType (← get) off 160 then failOp .bounds q.addr
      else
        let d ← get
        needOk (rangeAt d c q.addr 160 true) q.addr
        partSidecar c t tile (partOut p)
        pure []

def execSidecarPart (req : MemReq) (td : Addr) (tile : BitVec 32) (piece : PartIn) (env : Env) (s : State) : Out :=
  .next (s.sidecarPart req td tile.toNat piece env)

/-! ### Responses (R258, R260; 08 R275) -/

/-- The access that a response completes: same transaction tag, its request's OP, from the module it went to. -/
def State.txnOf (s : State) (p : Packet) (op : Nat) : Option Txn :=
  s.lnk.txns.find? fun t => t.tag == p.txn && t.op == op && coord32 t.dest == p.src

def State.dropTxn (s : State) (tag : BitVec 16) : State :=
  { s with lnk := { s.lnk with txns := s.lnk.txns.filter fun t => t.tag != tag } }

/-- A response reaches the issuer, and the access takes its status. A response with no access waiting is dropped. -/
def State.takeResp (s : State) (p : Packet) (op : Nat) : State :=
  match s.txnOf p op with
  | none => s
  | some t =>
    let st := (Status.ofCode p.status.toNat).getD .fieldReserved
    let data := if st = .ok then p.data else []
    (s.dropTxn t.tag).answerReq { who := t.who, addr := t.addr } op st data

def execReadResp (packet : Packet) (s : State) : Out := .next (s.takeResp packet opRead)
def execWriteAck (packet : Packet) (s : State) : Out := .next (s.takeResp packet opWrite)
def execAtomicResp (packet : Packet) (s : State) : Out := .next (s.takeResp packet opAtomic)

/-- No response within 20 ms: ST_HANG; at an engine a hang is declared, and the reset of 12 Table 12.1 waits for the hedge
manager's answer about the target (12 R414, R415). -/
def State.remoteTimeout (s : State) (txn : BitVec 16) (engine : Option QueueId) : State :=
  match s.lnk.txns.find? fun t => t.tag == txn with
  | none => s
  | some t =>
    let s := (s.dropTxn txn).answerReq { who := t.who, addr := t.addr } t.op .hang []
    match engine with
    | none => s
    | some q =>
      let s := s.declareHang q 20000 t.addr
      match s.hangLevel q with
      | some (l, target) => s.askLost t.dest.code (if q.val < 1536 then 1 else l) target q
      | none => s

def execRemoteAccessTimeout (txn : BitVec 16) (engine : Option QueueId) (s : State) : Out := .next (s.remoteTimeout txn engine)

/-! ### Uncorrectable words (R238) -/

/-- Set STATE UNREADABLE in the word that holds FLAGS; that word itself may be unreadable. -/
def setUnreadable (c : Ctx) (a : Addr) : Op Unit := do
  let l ← tryCatch (readAt c (a + 128) 32) (fun _ => pure unreadableWord)
  let f := SideFlags.ofNat (fld l 12 4)
  writeAt c (a + 128) (overlay l 12 (le 4 ({ f with state := stUnreadable } : SideFlags).toNat))

/-- Mark tile `i` of a descriptor for an uncorrectable word at `w`: of the payload, or of the sidecar, which is written
whole. Both addresses are taken as what they resolve to (R245). -/
def markTile (c : Ctx) (td : Addr) (i : Nat) (w : Addr) : Op Unit := do
  let t ← fetchTD c td
  let d ← get
  let a := t.sidecarAddr i
  let off := match keyOf d.coord a, keyOf d.coord w with
    | some (m, x), some (n, y) => if m = n ∧ x ≤ y then y - x else 160
    | _, _ => 160
  if off < 128 then
    writeAt c (a + BitVec.ofNat 64 (off / 32 * 32)) (List.replicate 32 0)
    setUnreadable c a
  else if off < 160 then writeAt c (a + 128) unreadableWord
  else setUnreadable c a

/-- Copy data back from a mirror. -/
def copyBack (c : Ctx) : List (Addr × Nat × Addr) → Op Unit
  | [] => pure ()
  | (src, n, dst) :: r => do
    let l ← readAt c src n
    writeAt c dst l
    copyBack c r

def State.resolveUe (s : State) (a : Addr) (p : UePlace) (env : Env) : State :=
  let c := s.ctx env .ovind
  let s := match p.tile with
    | some (td, i) => (s.runOp env (markTile c td i.toNat a)).1
    | none => s
  let s := if p.record then s.markUnreadable a else s
  (s.runOp env (copyBack c p.mirror)).1

def execUeResolve (addr : Addr) (place : UePlace) (env : Env) (s : State) : Out := .next (s.around env fun s env => s.resolveUe addr place env)

/-! ### Patrol scrub (R241 to R243) -/

/-- First granule of a unit, and how many it has. -/
def unitGranule (u : Nat) : Nat := if u < 48 then granuleOf (2 ^ 41 + u * 2 ^ 31) else (u - 48) * 32768
def unitGranules (u : Nat) : Nat := if u < 48 then 768 else 32768

/-- A type that the scrubber visits: neither unassigned nor retired. -/
def scrubbed (e : BitVec 8) : Bool := let ty := regionType e; ty != 0 && ty != 7

/-- The next granule of the unit at or above `lo` that the scrubber visits: one the table lists, or one of the reserved
area of a package (R254). -/
def nextGranule (m : Mem) (u lo : Nat) : Option Nat :=
  let listed := ((m.region.filter fun e => scrubbed e.2 && decide (unitGranule u + lo ≤ e.1 ∧ e.1 < unitGranule u + unitGranules u)).head?).map
    fun e => e.1 - unitGranule u
  let area := if u < 48 then none else
    ((List.range 72).find? fun i => decide (lo ≤ 32696 + i) && scrubbed (m.regionOf (unitGranule u + 32696 + i))).map (32696 + ·)
  match listed, area with
  | some a, some b => some (min a b)
  | none, b => b
  | a, none => a

/-- The scrub of one word that holds an error. `meanwhile`: a port wrote the word between the read and the write-back. -/
def scrubWord (d : Dp) (meanwhile : List Nat) (w : Nat) : Dp :=
  match d.mem.err w with
  | .none => d
  | .uncorrectable syn => markRow (countUe d 0 w syn) w
  | .correctable i f =>
    let d := countCe d (unitOf (w * 32))
    let d := if meanwhile.contains w then d
      else { d with mem := d.mem.putWord w ((WordErr.correctable i f).fix (d.mem.peek (w * 32) 32)) }
    let n := Sparse.get 0 d.mem.streak w + 1
    let d := { d with mem := { d.mem with streak := Sparse.set 0 d.mem.streak w n } }
    if 3 ≤ n then markRow d w else d

/-- Words of a granule with no correctable error in this pass end their streaks. -/
def endStreaks (m : Mem) (g : Nat) : Mem :=
  { m with streak := m.streak.filter fun e => !(e.1 / 65536 == g && !(m.err e.1 matches .correctable _ _)) }

/-- Scrub granule `g` (of the whole map). -/
def scrubGranule (d : Dp) (meanwhile : List Nat) (g : Nat) : Dp :=
  let d := { d with mem := endStreaks d.mem g }
  ((d.mem.errs.map (·.1)).filter fun w => w / 65536 == g).foldl (fun d w => scrubWord d meanwhile w) d

/-- The scrubber of a unit reads its next assigned granule; past the last one a pass is complete. -/
def State.patrol (s : State) (u : Nat) (meanwhile : List Nat) (env : Env) : State :=
  s.onDp fun d =>
    let d := d.upsets env.upsets
    let lo := (d.unit u).granule.toNat
    match nextGranule d.mem u lo with
    | none => d.updUnit u fun m => { m with granule := 0, escalated := false, passes := if lo = 0 then m.passes else m.passes + 1 }
    | some g =>
      let d := scrubGranule d meanwhile (unitGranule u + g)
      d.updUnit u fun m =>
        if (nextGranule d.mem u (g + 1)).isSome then { m with granule := BitVec.ofNat 16 (g + 1), escalated := false }
        else { m with granule := 0, passes := m.passes + 1, escalated := false }

def execPatrolScrubRead (unit : Fin 64) (meanwhile : List Nat) (env : Env) (s : State) : Out := .next (s.patrol unit meanwhile env)

/-- A scrub access has waited 1 us: it takes the next slot at the highest precedence. -/
def execScrubPriorityEscalation (unit : Fin 64) (s : State) : Out :=
  .next (s.onDp fun d => d.updUnit unit fun m => { m with escalated := true })

end Sys2Proof.Machine
end

