-- ==== Sys2Proof/Machine/Post.lean ====
section
/-! DEFINITION. Posting of engine and communication queue entries (06 R219, 09 R316, 10 R350). -/
namespace Sys2Proof.Machine

/-- Ovind may post work of an epoch: the partition runs and is not settling, and the tag names a WET epoch
that is still open, at its attempt (10 Table 10.1). -/
def State.mayPost (s : State) (k : Nat) (tag : Tag) (attempt : BitVec 8) : Bool :=
  let w := s.wet k
  let x := w.ent tag.epoch.toNat
  (s.job k).used && !w.settling && x.state == .wet && x.step == tag.step
    && x.attempt == attempt && (w.inf tag.epoch.toNat).fine == .opened

/-- A ring entry that may be filled: FREE, or DONE and returned to FREE first. -/
def freeEntry (b : List Byte) : Bool := fld b 12 2 == qFree || fld b 12 2 == qDone

/-- The epoch of a posted entry counts it; its last entry closes it. -/
def State.countPost (s : State) (k : Nat) (tag : Tag) (last : Bool) (env : Env) : State :=
  let s := s.updWet k fun w => w.updInf tag.epoch.toNat fun i => { i with running := i.running + 1 }
  if last then s.closeEpoch k tag env else s

/-- What a node needs before its operation is posted (03 R99 to R102): a reducible node its table for the step; a local node its
operands' scale fields, which Ovind writes now. A CURRENT record of another step fails the node and its epoch. -/
def State.nodeReady (s : State) (k q : Nat) (tag : Tag) (desc : Addr) (env : Env) : State × Bool :=
  match (s.job k).nodeOf desc with
  | none => (s, true)
  | some n =>
    let step := ((s.wet k).inf tag.epoch.toNat).index.toNat / s.epochsPerStep k
    if n.reducible then (s, ((s.job k).anchorOf n step).isSome)
    else if n.mode = 5 then (s, true)
    else
      let r := s.runOp env ((s.job k).startLocal (s.ctx env .ovind) n tag.step)
      match r.2 with
      | .ok (some m) => (r.1.noteScales k n m, true)
      | .ok none => (r.1, false)
      | .error f =>
        let s := r.1.updWet k fun w => w.updInf tag.epoch.toNat fun i => { i with failed := true }
        (s.opFailure k tag q f.st 0 none, false)

def State.postEngine (s : State) (q idx : Nat) (desc : Addr) (tag : Tag) (attempt : BitVec 8) (last : Bool) (env : Env) : State :=
  let e := s.eq q
  let part := s.queuePart q
  let ok := match part with | some k => s.mayPost k tag attempt | none => true
  if 1728 ≤ q ∨ !e.enable ∨ e.entries ≤ idx ∨ !ok ∨ desc.toNat % 32 ≠ 0 then s
  else
    let r := s.readRing q idx {}
    match r.2 with
    | .error _ => r.1
    | .ok b =>
      if !freeEntry b then r.1
      else
        let ready := match part with | some k => r.1.nodeReady k q tag desc env | none => (r.1, true)
        if !ready.2 then ready.1
        else
        let qe : QEntry := { desc, tag, attempt, part := part.getD 0 }
        let s := ready.1.writeRing q idx (entryBytes qe 0 qPosted 0)
        let s := s.updEq q fun e => { e with posted := Sparse.set none e.posted idx (some qe)
                                             tags := if e.tags.contains tag then e.tags else tag :: e.tags }
        let s := match part with | some k => s.countPost k tag last env | none => s
        s.leaveIdle

def State.postComm (s : State) (q idx : Nat) (desc : Addr) (tag : Tag) (attempt : BitVec 8) (last : Bool) (env : Env) : State :=
  let c := s.cq q
  match c.part with
  | none => s
  | some k =>
    if !c.committed ∨ c.destroying ∨ c.st ≠ .running ∨ !s.mayPost k tag attempt ∨ desc.toNat % 32 ≠ 0
        ∨ 2 ^ c.sizeLog2.toNat ≤ idx then s
    else
      let r := s.runOp {} (readKey (s.ctx {} .ovind) 2 (s.cqKey q idx) 32)
      match r.2 with
      | .error _ => r.1
      | .ok b =>
        if !freeEntry b then r.1
        else
          let qe : QEntry := { desc, tag, attempt, part := k }
          let s := r.1.writeCqAt q idx 0 (entryBytes qe 0 qPosted 0)
          let s := s.updCq q fun c => { c with posted := Sparse.set none c.posted idx (some qe) }
          (s.countPost k tag last env).leaveIdle

def execEngineQueuePost (queue : QueueRef) (index : BitVec 12) (desc : Addr) (tag : Tag) (attempt : BitVec 8) (last : Bool)
    (env : Env) (s : State) : Out :=
  .next (match queue with
    | .engine q => s.postEngine q index.toNat desc tag attempt last env
    | .comm q => s.postComm q index.toNat desc tag attempt last env)

end Sys2Proof.Machine
end

