-- ==== Sys2Proof/Machine/Varnish.lean ====
section
/-! DEFINITION. The varnish units: posting, checks, optimiser rules, state tiles (11 R387 to R398; 10 R360). -/
namespace Sys2Proof.Machine

/-! ### The descriptor (Table 11.1) -/

structure VD where
  kind   : Nat
  rule   : Nat
  flags  : Nat
  count  : Nat
  start  : Nat
  grad   : Addr
  master : Addr
  m1     : Addr
  m2     : Addr
  narrow : Addr
  params : Addr
  resv   : List Byte

def VD.ofBytes (l : List Byte) : VD :=
  { kind := fld l 0 1, rule := fld l 1 1, flags := fld l 2 1, count := fld l 4 4, start := fld l 8 8
    grad := BitVec.ofNat 64 (fld l 16 8), master := BitVec.ofNat 64 (fld l 24 8), m1 := BitVec.ofNat 64 (fld l 32 8)
    m2 := BitVec.ofNat 64 (fld l 40 8), narrow := BitVec.ofNat 64 (fld l 48 8), params := BitVec.ofNat 64 (fld l 56 8)
    resv := slice l 3 1 ++ slice l 72 56 }

def ruleEmit : Nat := 0
def ruleAdamW : Nat := 1
def ruleAdam : Nat := 2
def ruleSgd : Nat := 3
def ruleLion : Nat := 4

def VD.emit (v : VD) : Bool := v.rule == ruleEmit
def VD.usesM2 (v : VD) : Bool := v.rule == ruleAdamW || v.rule == ruleAdam
def VD.writesNarrow (v : VD) : Bool := v.flags == 1

/-- The first rows of Table 11.3: a pointer is given exactly when the rule requires it. -/
def VD.fieldRows (v : VD) : List (Bool × Status × Nat) :=
  [ (v.kind ≠ 0x71, .fieldReserved, 0), (ruleLion < v.rule, .fieldReserved, 1), (1 < v.flags, .fieldReserved, 2),
    (!zeros (v.resv.take 1), .fieldReserved, 3), (!zeros (v.resv.drop 1), .fieldReserved, 72), ((v.grad == 0) ≠ v.emit, .fieldReserved, 16), (v.master == 0, .fieldReserved, 24),
    ((v.m1 == 0) ≠ v.emit, .fieldReserved, 32), ((v.m2 == 0) == v.usesM2, .fieldReserved, 40),
    ((v.narrow == 0) == v.writesNarrow, .fieldReserved, 48) ]

/-- The rows after COUNT 0. -/
def VD.countRows (v : VD) : List (Bool × Status × Nat) :=
  [ (2 ^ 24 < v.count || v.count % 32 ≠ 0, .fieldReserved, 4), (v.start % 4096 ≠ 0, .fieldReserved, 8),
    (v.params.toNat % 32 ≠ 0, .align, 56) ]

/-! ### The parameter record (Table 11.2) -/

structure VParams where
  lr     : Nat
  wd     : Nat
  beta1  : Nat
  beta2  : Nat
  eps    : Nat
  omb1   : Nat
  omb2   : Nat
  ibc1   : Nat
  ibc2   : Nat
  gscale : Nat
  lrwd   : Nat

def VParams.ofBytes (l : List Byte) : VParams :=
  { lr := fld l 8 4, wd := fld l 12 4, beta1 := fld l 16 4, beta2 := fld l 20 4, eps := fld l 24 4, omb1 := fld l 28 4
    omb2 := fld l 32 4, ibc1 := fld l 36 4, ibc2 := fld l 40 4, gscale := fld l 44 4, lrwd := fld l 48 4 }

def paramObj : Nat := 0x0C

/-- Read and check the record. -/
def VD.takeParams (v : VD) (c : Ctx) : Op VParams := do
  let l ← tryCatch (readAt c v.params 64) fun f => failOp f.st v.params paramObj
  let bad (st : Status) (off : Nat) : Op VParams := failOp st v.params paramObj off
  let scalars : List Nat := (List.range 11).map fun i => fld l (8 + 4 * i) 4
  if (crc32c (l.take 56)).toNat ≠ fld l 56 4 then bad .checkTile 56
  else if fld l 0 4 ≠ (opTag c).step.toNat then bad .fieldReserved 0
  else if scalars.any fun x => 0x7F800000 ≤ mag32 x then bad .fieldReserved 8
  else if fld l 4 4 ≠ 0 ∨ fld l 52 4 ≠ 0 ∨ fld l 60 4 ≠ 0 then bad .fieldReserved 4
  else pure (VParams.ofBytes l)

/-! ### The checks (Table 11.3) -/

structure VPlan where
  vd     : VD
  par    : VParams
  grad   : TD := default
  master : TD := default
  m1     : TD := default
  m2     : TD := default
  narrow : TD := default
  table  : Option AnchorTable := none

/-- Elements BEGIN to BEGIN + COUNT - 1. -/
def VD.runs (v : VD) : List (Nat × Nat) := [(v.start, v.count)]

/-- Every byte of the elements satisfies a condition on space, offset of its first and of its last byte. -/
def elemsIn (d : Dp) (t : TD) (v : VD) (p : Nat → Nat → Nat → Bool) : Bool :=
  (t.spansOf v.start v.count).all fun sp => match resolve d.coord (t.base + BitVec.ofNat 64 sp.1) with
    | some (.here space off) => p space off (off + typeBytes t.type sp.2 - 1)
    | _ => false

/-- Durable data granules of package `n`. -/
def durableIn (d : Dp) (n space a b : Nat) : Bool :=
  space == 0 && unitOf a == 48 + n && unitOf b == 48 + n
    && (List.range (granuleOf b + 1 - granuleOf a)).all fun i => regionType (d.mem.regionOf (granuleOf a + i)) == 2

/-- The glaze of the unit's quadrant: twelve panels each. -/
def quadrantGlaze (n space a b : Nat) : Bool :=
  space == 2 && inGlaze a && inGlaze b && unitOf a / 12 == n / 4 && unitOf b / 12 == n / 4

def VPlan.given (p : VPlan) : List TD :=
  [p.grad, p.master, p.m1, p.m2, p.narrow].filter fun t => t.ptr ≠ 0

/-- A piece's elements lie within its extent and where Table 11.3 wants them. -/
def VPlan.within (p : VPlan) (d : Dp) (n : Nat) (t : TD) : Bool :=
  let v := p.vd
  decide (v.start + v.count ≤ t.total) && elemsIn d t v
    (if t.ptr = p.grad.ptr then fun _ _ _ => true else if t.ptr = p.narrow.ptr then quadrantGlaze n else durableIn d n)

/-- A piece whose footprint meets that of another (R215). -/
def VPlan.clash (p : VPlan) (d : Dp) : Option TD :=
  let fs := p.given.map fun t => (t, footprint d.coord t p.vd.runs)
  (fs.find? fun x => fs.any fun y => x.1.ptr != y.1.ptr && meets x.2 y.2).map (·.1)

/-- Everything up to the gradient's tags; `none` for a COUNT of 0. `tds` are the descriptors of a unit that has waited. -/
def VD.plan (v : VD) (c : Ctx) (desc : Addr) (n : Nat) (tds : List TD) : Op (Option VPlan) := do
  let bad (st : Status) (off : Nat) : Op (Option VPlan) := failOp st desc 1 off
  match firstRow v.fieldRows with
  | some (st, off) => bad st off
  | none =>
    if v.count = 0 then pure none
    else match firstRow v.countRows with
      | some (st, off) => bad st off
      | none => do
        let par ← v.takeParams c
        let td (i : Nat) (written : Bool) (p : Addr) : Op TD :=
          match tds[i]? with
          | some t => pure t
          | none => if p = 0 then pure default else takeTD c written p
        let grad ← td 0 false v.grad
        let master ← td 1 true v.master
        let m1 ← td 2 true v.m1
        let m2 ← td 3 true v.m2
        let narrow ← td 4 true v.narrow
        let types : List (Bool × Addr × Nat) :=
          [ (!v.emit && !((grad.type == 0x21 || grad.type == 0x22) && grad.distributed), v.grad, 1),
            (master.type ≠ 0x11, v.master, 1), (v.m1 ≠ 0 && m1.type ≠ 0x11, v.m1, 1), (v.m2 ≠ 0 && m2.type ≠ 0x11, v.m2, 1),
            (v.narrow ≠ 0 && !isMx narrow.type, v.narrow, 1) ]
        if ([grad, master, m1, m2, narrow].filter fun t => t.ptr ≠ 0).all fun t => t.empty then pure none
        else match types.find? (·.1) with
        | some (_, a, off) => failOp .fieldReserved a 2 off
        | none => do
          let table ← if v.emit then pure none else do
            let t ← takeTable c grad.anchor { step := (opTag c).step, out := some (grad.tensorId, nth grad.shape (grad.rank - 1)) }
            pure (some t)
          let p : VPlan := { vd := v, par, grad, master, m1, m2, narrow, table }
          let d ← get
          match p.given.find? (fun t => !p.within d n t), p.clash d with
          | some t, _ => failOp .bounds t.ptr 2
          | none, some t => failOp .overlap t.ptr 2
          | none, none => pure (some p)

/-- What the tags of the gradient's tiles say to the unit (10 R360): a smudged one ends it, a wet one makes it wait. -/
def gradSays (c : Ctx) (k : Nat) (t : TD) : List Nat → Op TagSays
  | [] => pure .nothing
  | i :: r => do
    let b ← readAt c (t.sidecarAddr i) 160
    let s := Sidecar.ofBytes b
    let d ← get
    let x := tagSays (d.wetPart k) none s.tag s.flags.attempt
    let y := tagSays (d.wetPart k) none s.carrier s.carrierAttempt
    let z ← gradSays c k t r
    let l := [x, y, z]
    pure (if l.contains .smudged then .smudged else if l.contains .wet then .wet else .nothing)

/-- State tiles of the range. -/
def VD.tiles (v : VD) : List Nat := (List.range (ceilDiv v.count 4096)).map (v.start / 4096 + ·)

/-! ### The rules (R391) -/

/-- sign(c): +1, -1, or 0 for ±0, an FP32 code. -/
def sign32 (c n : Nat) : Nat :=
  if isNan32 c then (Config.signNan n).toNat else if mag32 c = 0 then 0 else signed32 (neg32 c) one32

/-- One parameter's new (w, m1, m2) from a finite gradient. -/
def updateOne (rule : Nat) (p : VParams) (n g w m1 m2 : Nat) : Nat × Nat × Nat :=
  let adam (g : Nat) (decay : Bool) : Nat × Nat × Nat :=
    let m1 := fma32 p.beta1 m1 (mul32 p.omb1 g)
    let m2 := fma32 (mul32 p.omb2 g) g (mul32 p.beta2 m2)
    let d := add32 (sqrt32 (mul32 m2 p.ibc2)) p.eps
    let q := div32 (mul32 m1 p.ibc1) d
    let w := if decay then fma32 (negate32 p.lrwd) w w else w
    (fma32 (negate32 p.lr) q w, m1, m2)
  if rule = ruleAdamW then adam g true
  else if rule = ruleAdam then adam (fma32 p.wd w g) false
  else if rule = ruleSgd then
    let g := fma32 p.wd w g
    let m1 := fma32 p.beta1 m1 g
    (fma32 (negate32 p.lr) m1 w, m1, m2)
  else
    let c := fma32 p.beta1 m1 (mul32 p.omb1 g)
    let w := fma32 (negate32 p.lrwd) w w
    (fma32 (negate32 p.lr) (sign32 c n) w, fma32 p.beta2 m1 (mul32 p.omb2 g), m2)

/-- The rounded gradient of element `n` (R390). -/
def VPlan.gradient (p : VPlan) (c : Ctx) (n code : Nat) : Nat :=
  let t := p.grad
  let col := t.global (t.rank - 1) (n % max t.inner 1)
  let l := match p.table with | some a => a.at col | none => 0
  let x := match Acc.decode (wireWidth t.type) code with | some a => a.value l | none => .nan
  let word := philox c.seed t.tensorId (opTag c).step (t.globalIndex n)
  wideCode (fmtOf 0x11) (.sr word) (x.mul (fp32 p.par.gscale))

/-! ### State tiles (R392 to R394) -/

structure VSum where
  updated : Nat := 0
  skipped : Nat := 0
  already : Nat := 0
  wrote   : Bool := false
  torn    : Bool := false
  miss    : Bool := false

/-- Write the narrow copy of `codes`, elements `n0` on: RNE under the varnish row of Table 2.3, with the census. R392 rounds every
narrow copy by RNE; it stands before 02 R64 for a TD_NARROW of gradient class too (DESIGN CHOICE, log entry 102). -/
def VPlan.writeNarrow (p : VPlan) (c : Ctx) (i : Nat) (codes : List Nat) : Op Unit := do
  let t := p.narrow
  let g := gConvert one32 t.tscale
  let bs := (chunks 32 (codes.map fun w => ((fp32 w).preScale g, Rnd.rne))).map (mxBlock t.type)
  writeTilePart c t i 0 bs
  censusUpdate c t.census (censusOf t.type (opTag c).step bs)

/-- New data of a state tile and its sidecar. -/
def stateSide (c : Ctx) (t : TD) (i : Nat) (codes : List Nat) : Op Unit := do
  let o := outOf t.type ((chunks 32 codes).map (wideBlockOf t.type))
  writeAt c (t.sidecarAddr i) (wholeSidecar c (t.tileCount i) o).bytes

def stateData (c : Ctx) (t : TD) (i : Nat) (codes : List Nat) : Op Unit :=
  writeElems c t (4096 * i) codes.length (pack t.type codes)

def stateCensus (c : Ctx) (t : TD) (codes : List Nat) : Op Unit :=
  censusUpdate c t.census (censusOf t.type (opTag c).step ((chunks 32 codes).map (wideBlockOf t.type)))

/-- One state tile: `m` parameters of tile `i`; `miss`: the two datapaths disagree (R393). -/
def VPlan.tile (p : VPlan) (c : Ctx) (i m : Nat) (miss : Bool) (sum : VSum) : Op VSum := do
  let v := p.vd
  let codes (t : TD) (x : Tile) : List Nat := unpack t.type (t.tileCount i) x.payload
  if v.emit then
    let w ← checkTile c p.master i
    if miss then pure { sum with miss := true }
    else
      if v.writesNarrow then p.writeNarrow c i ((codes p.master w).take m)
      pure { sum with wrote := sum.wrote || v.writesNarrow }
  else
    let g ← checkTile c p.grad i
    if isWire p.grad.type ∧ (codes p.grad g).any (reservedWire p.grad.type) then failOp .checkTile (p.grad.sidecarAddr i) 4
    let w ← checkTile c p.master i
    let a ← checkTile c p.m1 i
    let b ← if v.usesM2 then checkTile c p.m2 i else pure w
    if a.side.tag ≠ w.side.tag ∨ b.side.tag ≠ w.side.tag then pure { sum with torn := true }
    else if w.side.tag = opTag c ∧ w.side.flags.attempt = c.attempt then pure { sum with already := sum.already + 1 }
    else if miss then pure { sum with miss := true }
    else
      let gs := codes p.grad g
      let ws := codes p.master w
      let as := codes p.m1 a
      let bs := if v.usesM2 then codes p.m2 b else ws
      let out : List (Bool × Nat × Nat × Nat) := (List.range ws.length).map fun j =>
        let n := 4096 * i + j
        let old := (nth ws j, nth as j, nth bs j)
        if m ≤ j then (false, old)
        else
          let g := p.gradient c n (nth gs j)
          if 0x7F800000 ≤ mag32 g then (true, old) else (false, updateOne v.rule p.par n g old.1 old.2.1 old.2.2)
      let ws := out.map (·.2.1)
      let as := out.map (·.2.2.1)
      let bs := out.map (·.2.2.2)
      let skips := (out.filter (·.1)).length
      stateData c p.master i ws
      afterWrite do
        stateData c p.m1 i as
        if v.usesM2 then stateData c p.m2 i bs
        stateSide c p.master i ws
        stateSide c p.m1 i as
        if v.usesM2 then stateSide c p.m2 i bs
        stateCensus c p.master ws
        stateCensus c p.m1 as
        if v.usesM2 then stateCensus c p.m2 bs
        if v.writesNarrow then p.writeNarrow c i (ws.take m)
      pure { sum with updated := sum.updated + (min m out.length - skips), skipped := sum.skipped + skips, wrote := true }

/-- Tiles in ascending order until one fails, is torn or mismatches; what was counted is kept beside the failure. -/
def VPlan.run (p : VPlan) (c : Ctx) (miss : Option Nat) : List Nat → VSum → Op (VSum × Option Fail)
  | [], sum => pure (sum, none)
  | i :: r, sum => do
    let v := p.vd
    let m := min 4096 (v.start + v.count - 4096 * i)
    let x ← tryCatch (do let s ← p.tile c i m (miss == some (i - v.start / 4096)) sum; pure (s, none))
      (fun f => pure ({ sum with wrote := sum.wrote || f.wrote }, some f))
    match x.2 with
    | some _ => pure x
    | none => if x.1.torn ∨ x.1.miss then pure x else p.run c miss r x.1

/-! ### The unit -/

/-- 48-bit counters stop at all ones. -/
def stop48 (x : BitVec 48) (n : Nat) : BitVec 48 := BitVec.ofNat 48 (min (x.toNat + n) (2 ^ 48 - 1))

def VSum.comp (x : VSum) (emit : Bool) (f : Fail) : Comp :=
  { st := f.st, fault := f, round := if emit then 0 else 2, partOut := f.st ≠ .ok && x.wrote
    tail := le 8 x.updated ++ le 8 x.skipped ++ le 8 x.already ++ le 4 (boolN x.miss) ++ le 4 0 }

/-- VNU_COUNT and VNU_SKIP of unit `n`. -/
def State.countVarnish (s : State) (n : Nat) (x : VSum) : State :=
  { s with integ := { s.integ with
    updated := Sparse.upd 0 s.integ.updated n fun y => stop48 y x.updated
    skipped := Sparse.upd 0 s.integ.skipped n fun y => stop48 y x.skipped } }

/-- The accepted entry of unit `n` is checked and runs to its end, or waits for its gradient to be dry. -/
def State.varnishRun (s : State) (n : Nat) (a : Active) (miss : Option Nat) (env : Env) : State :=
  let q := 1728 + n
  let c := s.entryCtx q a.entry env
  let v := VD.ofBytes a.desc
  let k := a.entry.part
  let r := s.runOp {} (v.plan c a.entry.desc n a.tds)
  let s := r.1
  match r.2 with
  | .error f => s.complete q (failComp f false) env
  | .ok none => (s.complete q {} env).tryStepDry k a.entry.tag.step.toNat
  | .ok (some p) =>
    let r := s.runOp {} (if v.emit then pure .nothing else gradSays c k p.grad v.tiles)
    let s := r.1
    match r.2 with
    | .error f => s.complete q (failComp f false) env
    | .ok .smudged => s.complete q (failComp { st := .smudged } false) env
    | .ok .wet => s.updCur q fun x => { x with started := true, tds := [p.grad, p.master, p.m1, p.m2, p.narrow] }
    | .ok .nothing =>
      let r := s.runOp {} (p.run c miss v.tiles {})
      let x := match r.2 with | .ok x => x | .error f => ({}, some f)
      let f : Fail := match x.2 with
        | some f => f
        | none => if x.1.torn then { st := .checkTile, addr := v.master, obj := 4 }
          else if x.1.miss then { st := .dupMismatch } else { st := .ok }
      let s := (r.1.countVarnish n x.1).complete q (x.1.comp v.emit f) env
      let s := if x.1.torn then s.askRollback (s.job k).id else s
      if f.st = .ok then s.tryStepDry k a.entry.tag.step.toNat else s

/-- A varnish entry that has been accepted runs; `mismatch`: the tile of the range at which the two datapaths disagree. -/
def State.varnishUpdate (s : State) (n : Nat) (miss : Option Nat) (env : Env) : State :=
  match s.fresh (1728 + n) with
  | some a => if s.engineHeld (1728 + n) then s else s.varnishRun n a miss env
  | none => s

def execVarnishUpdate (unit : Fin 16) (mismatch : Option (Fin 4096)) (env : Env) (s : State) : Out :=
  .next (s.around env fun s env => s.varnishUpdate unit (mismatch.map (·.val)) env)

/-- A unit that waits looks at its gradient's tags again (10 R360). -/
def State.varnishResume (s : State) (n : Nat) (miss : Option Nat) (env : Env) : State :=
  match (s.eq (1728 + n)).cur with
  | some a => if a.started && !s.engineHeld (1728 + n) then s.varnishRun n a miss env else s
  | none => s

def execVarnishTagWaitEnd (unit : Fin 16) (mismatch : Option (Fin 4096)) (env : Env) (s : State) : Out :=
  .next (s.around env fun s env => s.varnishResume unit (mismatch.map (·.val)) env)

/-! ### After a module reset (R395) -/

/-- The tag of a state tile's sidecar. -/
def tileTag (c : Ctx) (t : TD) (i : Nat) : Op Tag := do
  let l ← readAt c (t.sidecarAddr i) 160
  pure (Sidecar.ofBytes l).tag

/-- A tile of an entry whose master and moment sidecars carry different tags. -/
def tornEntry (c : Ctx) (e : QEntry) : Op Bool := do
  let l ← readAt c e.desc 128
  let v := VD.ofBytes l
  if v.emit then pure false
  else
    let ts ← ([v.master, v.m1] ++ if v.usesM2 then [v.m2] else []).mapM (fetchTD c)
    let xs ← v.tiles.mapM fun i => do
      let tags ← ts.mapM fun t => tileTag c t i
      pure (decide (1 < tags.eraseDups.length))
    pure (xs.any id)

/-- Ovind checks the tiles of every varnish entry with no completion; a torn one asks for a rollback. The entries are posted
anew. -/
def State.checkTorn (s : State) (env : Env) (k : Nat) : State :=
  let es := (s.job k).varOpen
  let r := s.runOp env (es.mapM fun e => tryCatch (tornEntry (s.ctx env .ovind) e.2) fun _ => pure false)
  let s := r.1.updJob k fun j => { j with varOpen := [] }
  match r.2 with
  | .ok l => if l.any id then s.askRollback (s.job k).id else s
  | .error _ => s

/-! ### Posting (R387, R389) -/

/-- The 64-byte parameter record of a parameter set. -/
def paramRecord (set : List Byte) : List Byte :=
  let b := (set ++ List.replicate 56 0).take 56
  b ++ le 4 (crc32c b).toNat ++ le 4 0

/-- The scalar of an FP32 tensor, once its epoch is dry. -/
def readScalar (c : Ctx) (k : Nat) (td : Addr) : Op (Option (BitVec 32)) := do
  let t ← takeTD c false td
  let x ← checkTile c t 0
  let d ← get
  pure (if (d.wetPart k).isDry x.side.tag then ((unpack t.type 1 x.payload).head?).map (BitVec.ofNat 32) else none)

/-- A parameter set with its GSCALE, and the record it enters (R389): from the tensor that the image names, once; from the step log
in a replay. -/
def State.scaledSet (s : State) (k : Nat) (step : BitVec 32) (i : Nat) : State × Option (List Byte) :=
  match (s.job k).records.find? fun r => r.st != .discarded && r.step.setWidth 32 == step with
  | none => (s, none)
  | some r =>
    match r.params[i]?, (((s.job k).setsAt r.step.toNat)[i]?).bind (·.gscale) with
    | some set, some td =>
      if r.scaled.contains i then (s, some set)
      else
        let x := s.runOp {} (readScalar (s.ctx {} .ovind) k td)
        match x.2 with
        | .ok (some g) =>
          let set := overlay set 44 (le 4 g.toNat)
          (x.1.setRecords k ((x.1.job k).records.map fun y => if y = r then { y with params := y.params.set i set, scaled := i :: y.scaled } else y),
            some set)
        | _ => (x.1, none)
    | set, none => (s, set)
    | none, _ => (s, none)

/-- Ovind posts an update once its gradient's epoch is DRY; a parameter record to write first is an address and a set of the
step's record. -/
def State.varnishPost (s : State) (n idx : Nat) (desc : Addr) (tag : Tag) (attempt : BitVec 8) (k : Nat)
    (params : Option (Addr × Nat)) : State :=
  let q := 1728 + n
  let e := s.eq q
  if !(s.job k).used || (s.job k).varHeld || !(s.wet k).isDry tag || !e.enable || decide (e.entries ≤ idx)
      || desc.toNat % 32 ≠ 0 then s
  else
    let r := s.readRing q idx {}
    match r.2 with
    | .error _ => r.1
    | .ok b =>
      let x : State × Option (List Byte) := match params with
        | some (_, i) => r.1.scaledSet k tag.step i
        | none => (r.1, none)
      if !freeEntry b || (params.isSome && x.2.isNone) then x.1
      else
        let s := match params, x.2 with
          | some (a, _), some set => (x.1.runOp {} (writeAt (x.1.ctx {} .ovind) a (paramRecord set))).1
          | _, _ => x.1
        let qe : QEntry := { desc, tag, attempt, part := k }
        let s := s.writeRing q idx (entryBytes qe 0 qPosted 0)
        let s := s.updEq q fun e => { e with posted := Sparse.set none e.posted idx (some qe) }
        (s.updJob k fun j => { j with varOpen := j.varOpen ++ [(n, qe)], heldSince := false }).leaveIdle

def execVarnishPost (unit : Fin 16) (index : BitVec 12) (desc : Addr) (tag : Tag) (attempt : BitVec 8) (part : Part)
    (params : Option (Addr × Nat)) (s : State) : Out :=
  .next (s.varnishPost unit index.toNat desc tag attempt part params)

end Sys2Proof.Machine
end

