-- ==== Sys2Proof/Machine/Training.lean ====
section
/-! DEFINITION. Checkpoints, mirrors, rollback, the loss of a module and its takeover (11 R402 to R411; 12 R426). -/
namespace Sys2Proof.Machine

/-! ### Records and mirror headers -/

/-- CHECKPOINT record: 1 commit, 2 failed, 3 torn, 4 rollback, 5 takeover (16 Table 16.2). -/
def State.ckptRecord (s : State) (kind : Nat) (step lost spare : Nat) (k : Nat) (st : Status) : State :=
  s.record 0x0304 (src 7 k) st (le 1 kind ++ le 8 step ++ le 4 lost ++ le 4 spare)

def mirrorWriting : Nat := 1
def mirrorCommitted : Nat := 2
def mirrorTorn : Nat := 3

/-- A mirror header's 64 bytes (R403), its fields in the order listed. -/
def mirrorHeader (source step state slot bytes : Nat) : List Byte :=
  let h := le 4 source ++ le 8 step ++ le 1 state ++ le 1 slot ++ le 8 bytes ++ le 38 0
  h ++ le 4 (crc32c h).toNat

/-- A header with another STATE. -/
def mirrorWith (l : List Byte) (state : Nat) : List Byte :=
  mirrorHeader (fld l 0 4) (fld l 4 8) state (fld l 13 1) (fld l 14 8)

/-! ### Checkpoints (R404, R405) -/

/-- Where the checkpoint engine writes: the header's address at the holder, the slot, the bytes of the pieces. -/
def State.writeHeader (s : State) (header : Addr) (step state slot bytes : Nat) (env : Env) : State × Except Fail Unit :=
  s.runOp env (writeAt (s.ctx env .ckpt) header (mirrorHeader s.dp.coord.code.toNat step state slot bytes))

/-- CKPT_BEGIN c: varnish posting is held; each holder's header is written WRITING at step c; the copy begins. -/
def State.ckptBegin (s : State) (k : Nat) (step : BitVec 64) (headers : List (Addr × BitVec 8)) (env : Env) : State :=
  if !(s.job k).used then s
  else
    let s := s.updJob k fun j => { j with varHeld := true, ckpt := some step, retried := false, phase := 1 }
    headers.foldl (fun s h => (s.writeHeader h.1 step.toNat mirrorWriting h.2.toNat 0 env).1) s

def execCkptBegin (part : Part) (step : BitVec 64) (headers : List (Addr × BitVec 8)) (env : Env) (s : State) : Out :=
  .next (s.around env fun s env => s.ckptBegin part step headers env)

/-- Copy pieces in order; on a failure, those from the failed one on. -/
def copyPieces (c : Ctx) : List (Addr × Nat × Addr) → Op (List (Addr × Nat × Addr) × Option Fail)
  | [] => pure ([], none)
  | p :: r => do
    let x ← tryCatch (do let b ← readAt c p.1 p.2.1; writeAt c p.2.2 b; pure none) (fun f => pure (some f))
    match x with
    | none => copyPieces c r
    | some f => pure (p :: r, some f)

/-- Check every tile of the tensors named (06 R201). -/
def checkTds (c : Ctx) : List Addr → Op Unit
  | [] => pure ()
  | a :: r => do
    let t ← fetchTD c a
    let rec go : List Nat → Op Unit
      | [] => pure ()
      | i :: l => do
        let _ ← checkTile c t i
        go l
    go (List.range t.tiles)
    checkTds c r

/-- Pieces lie in durable granules of the partition, in ascending order (R403, R404). -/
def State.piecesOk (s : State) (k : Nat) (pieces : List (Addr × Nat × Addr)) : Bool :=
  let offs := pieces.map fun p => match resolve s.dp.coord p.1 with
    | some (.here _ off) => some (off, p.2.1)
    | _ => none
  offs.all (fun o => match o with
    | some (off, n) => (List.range (granuleOf (off + n - 1) + 1 - granuleOf off)).all fun i =>
        let e := s.dp.mem.regionOf (granuleOf off + i)
        durableType (regionType e) && regionPart e == k
    | none => false)
  && decide ((offs.filterMap id).Pairwise fun a b => a.1 + a.2 ≤ b.1)

/-- The copy ends: its tiles checked, its pieces written, once again from the piece that failed (R405), the headers COMMITTED,
the report sent. A second failure leaves the headers WRITING and is reported. -/
def State.ckptCopyDone (s : State) (k : Nat) (pieces : List (Addr × Nat × Addr)) (tds : List Addr)
    (headers : List (Addr × BitVec 8)) (env again : Env) : State :=
  match (s.job k).ckpt with
  | none => s
  | some step =>
    if (s.job k).phase ≠ 1 ∨ !s.piecesOk k pieces then s
    else
      let total := pieces.foldl (fun n p => n + p.2.1) 0
      let once (s : State) (env : Env) (l : List (Addr × Nat × Addr)) : State × List (Addr × Nat × Addr) × Option Fail :=
        let r := s.runOp env (do
          checkTds (s.ctx env .ckpt) tds
          copyPieces (s.ctx env .ckpt) l)
        match r.2 with
        | .ok x => (r.1, x)
        | .error f => (r.1, l, some f)
      let r := once s env pieces
      let r := match r.2.2 with
        | some _ => once (r.1.updJob k fun j => { j with retried := true }) again r.2.1
        | none => r
      let value (st : Status) : BitVec 64 := BitVec.ofNat 64 (step.toNat % 2 ^ 48 * 2 ^ 16 + st.toCode.toNat)
      match r.2.2 with
      | some f => ((r.1.updJob k fun j => { j with phase := 2 }).ckptRecord 2 step.toNat 0 0 k f.st).mgmt .ckptReport
          s.dp.coord.code (value f.st)
      | none =>
        let s := headers.foldl (fun s h => (s.writeHeader h.1 step.toNat mirrorCommitted h.2.toNat total { again with upsets := [] }).1) r.1
        (s.updJob k fun j => { j with phase := 2 }).mgmt .ckptReport s.dp.coord.code (value .ok)

def execCheckpointCopyDone (part : Part) (pieces : List (Addr × Nat × Addr)) (tds : List Addr)
    (headers : List (Addr × BitVec 8)) (env again : Env) (s : State) : Out :=
  .next (s.around env fun s env => s.ckptCopyDone part pieces tds headers env again)

/-- The last committed checkpoint of a job as this module knows it. -/
def State.commitOf (s : State) (job : BitVec 16) : Nat :=
  match (s.mgr job).commit with
  | some c => c.toNat
  | none => match s.jobPart job with
    | some k => (s.job k).lastCommit.toNat
    | none => 0xFFFFFFFF

/-- A manager takes a report; managers below the machine manager pass it up; with every module's the machine manager sends
CKPT_COMMIT. A failed one is not committed, and the checkpoint is repeated at the end of the next step (R405); so that this step can
end, the last commit is sent again, which releases the varnish queues (DESIGN CHOICE, log entry 121). -/
def State.ckptReport (s : State) (job : BitVec 16) (step : BitVec 64) (sender : BitVec 17) (status : Status)
    (members : List (BitVec 17)) : State :=
  if !s.isManager then s
  else if !s.isMachine then s.mgmt .ckptReport sender (BitVec.ofNat 64 (step.toNat % 2 ^ 48 * 2 ^ 16 + status.toCode.toNat))
  else if (s.mgr job).ckpt ≠ some step then s
  else if status ≠ .ok then
    let s := s.updMgr job fun m => { m with ckpt := none, reports := [] }
    let s := s.mgmt .ckptCommit s.dp.coord.code (BitVec.ofNat 64 (s.commitOf job))
    match s.jobPart job with
    | some k => s.updJob k fun j => { j with asked := true }
    | none => s
  else
    let s := s.updMgr job fun m => { m with reports := if m.reports.contains sender then m.reports else sender :: m.reports }
    if members.all ((s.mgr job).reports.contains ·) then
      (s.updMgr job fun m => { m with ckpt := none, reports := [], commit := some step }).mgmt .ckptCommit s.dp.coord.code step
    else s

def execCheckpointReport (job : BitVec 16) (step : BitVec 64) (sender : BitVec 17) (status : Status)
    (members : List (BitVec 17)) (s : State) : Out :=
  .next (s.ckptReport job step sender status members)

/-! ### Spares (R409, R410) -/

/-- A dormant spare that may take a place: a spare of the role map, not DEGRADED, not taken. -/
def State.spareOk (s : State) (c : BitVec 17) : Bool :=
  roleIn s.roles.loaded s.roles.map (Coord.ofCode c) == .spare && !s.roles.degraded.contains c && !s.roles.taken.contains c

/-- The lowest slot of a hedge with a spare; `base` is the hedge's coordinate with slot 0. -/
def State.spareOf (s : State) (base : Nat) : Option (BitVec 17) :=
  ((List.range 16).map fun i => BitVec.ofNat 17 (base + i)).find? s.spareOk

/-- The spare for a lost module: of its hedge, else of the lowest hedge of its pod that has one. -/
def State.chooseSpare (s : State) (lost : BitVec 17) : Option (BitVec 17) :=
  match s.spareOf (lost.toNat / 16 * 16) with
  | some c => some c
  | none => (List.range 64).findSome? fun h => s.spareOf (lost.toNat / 1024 * 1024 + 16 * h)

/-- The takeover of lost module X by spare Y for one job: the loss is reported, Y is woken and substituted, the record logged. -/
def State.takeover (s : State) (x y : BitVec 17) (job : BitVec 16) : State :=
  let s := s.mgmt .lossReport x job.toNat
  let s := s.mgmt .spareWake y x.toNat
  let s := s.mgmt .substitute x y.toNat
  match s.jobPart job with
  | some k => ((s.updJob k fun j => { j with subst := Sparse.set 0 j.subst x.toNat y }).updCkp k fun c =>
      { c with takeover := c.takeover.hwSet }).ckptRecord 5
      (s.commitOf job) x.toNat y.toNat k .ok
  | none => s.record 0x0304 (src 0 0) .ok (le 1 5 ++ le 8 (s.commitOf job) ++ le 4 x.toNat ++ le 4 y.toNat)

/-- The job stops, its status names the lost coordinate. -/
def State.lostStop (s : State) (job : BitVec 16) (st : Status) (lost : BitVec 17) : State :=
  match s.jobPart job with
  | some k => s.stopJob k st.toCode (lost.setWidth 32)
  | none => s.mgmt .jobStop lost st.toCode.toNat

/-- The hedge manager replaces a module in its jobs, or stops them when no spare is left. -/
def State.replaceModule (s : State) (x : BitVec 17) (jobs : List (BitVec 16)) : State :=
  match s.chooseSpare x with
  | none => jobs.foldl (fun s j => s.lostStop j .hang x) s
  | some y =>
    let s := { s with roles := { s.roles with taken := y :: s.roles.taken } }
    jobs.foldl (fun s j => s.takeover x y j) s

/-- The mirror of a lost module that this module holds is still being written: TORN, and the job stops (R406); BUDDY2 has no
such window. Tells whether it tore. -/
def State.tearMirror (s : State) (x : BitVec 17) (mirror : Option (Part × Addr)) (env : Env) : State × Bool :=
  match mirror with
  | none => (s, false)
  | some (k, a) =>
    let c := s.ctx env .ovind
    let r := s.runOp env (readAt c a 64)
    match r.2 with
    | .error _ => (r.1, false)
    | .ok l =>
      if fld l 0 4 = x.toNat ∧ fld l 12 1 = mirrorWriting ∧ (s.job k).mode ≠ 1 then
        let s := (r.1.runOp {} (writeAt c a (mirrorWith l mirrorTorn))).1
        let s := s.updCkp k fun c => { c with torn := c.torn.hwSet }
        let s := s.ckptRecord 3 (fld l 4 8) x.toNat 0 k .checkTile
        ((s.mgmt .jobStop x Status.checkTile.toCode.toNat).stopJob k Status.checkTile.toCode (x.setWidth 32), true)
      else (r.1, false)

/-- A module is declared lost (R409): a RESET_NOTICE holds it off; a torn mirror stops the job; else a spare takes over. -/
def State.declareLost (s : State) (x : BitVec 17) (jobs : List (BitVec 16)) (mirror : Option (Part × Addr)) (env : Env) : State :=
  if s.roles.notices.contains x then s
  else
    let r := s.tearMirror x mirror env
    if r.2 then r.1
    else if s.isManager then r.1.replaceModule x jobs
    else r.1

def execModuleLost (coord : BitVec 17) (jobs : List (BitVec 16)) (mirror : Option (Part × Addr)) (env : Env) (s : State) : Out :=
  .next (s.declareLost coord jobs mirror env)

/-- No READY within 11 s of the notice (12 R426). -/
def execResetNoticeTimeout (sender : BitVec 17) (jobs : List (BitVec 16)) (mirror : Option (Part × Addr)) (env : Env)
    (s : State) : Out :=
  .next (if s.isManager ∧ s.roles.notices.contains sender then
      ({ s with roles := { s.roles with notices := s.roles.notices.filter (· != sender) } } : State).declareLost sender jobs mirror env
    else s)

/-- A DEGRADED report (R411, 10 R386): a spare is no longer chosen; a worker is replaced at the next commit, or at once when
the report comes of R393. -/
def State.degradedReport (s : State) (x : BitVec 17) (atOnce : Bool) (jobs : List (BitVec 16)) (mirror : Option (Part × Addr))
    (env : Env) : State :=
  if !s.isManager then s
  else
    let s := { s with roles := { s.roles with degraded := x :: s.roles.degraded.filter (· != x) } }
    if roleIn s.roles.loaded s.roles.map (Coord.ofCode x) = .spare ∧ !s.roles.taken.contains x then s
    else if atOnce then s.declareLost x jobs mirror env
    else jobs.foldl (fun s j => s.updMgr j fun m => { m with replace := x :: m.replace.filter (· != x) }) s

def execDegradedReport (coord : BitVec 17) (atOnce : Bool) (jobs : List (BitVec 16)) (mirror : Option (Part × Addr)) (env : Env)
    (s : State) : Out :=
  .next (s.degradedReport coord atOnce jobs mirror env)

/-! ### CKPT_COMMIT -/

/-- LAST_COMMIT and COMMIT, the records up to c reclaimed, the varnish queues released; a hedge manager replaces its DEGRADED
modules (R411). The commit that stands already releases the queues alone (log entry 121). -/
def State.ckptCommit (s : State) (job : BitVec 16) (step : BitVec 64) : State :=
  let again := match s.jobPart job with
    | some k => step.setWidth 32 == (s.job k).lastCommit
    | none => (s.mgr job).commit == some step
  let s := match s.jobPart job with
    | some k => if again then s.updJob k fun j => { j with varHeld := false, phase := 0, ckpt := none, retried := false }
      else ((s.updJob k fun j => { j with
        lastCommit := step.setWidth 32, varHeld := false, heldSince := true, phase := 0
        ckpt := none, retried := false, records := j.records.filter fun r => step.toNat < r.step.toNat }).updCkp k fun c => { c with
          lastCommit := step.setWidth 32, commit := c.commit.hwSet }).ckptRecord 1 step.toNat 0 0 k .ok
    | none => s
  if !s.isManager || again then s
  else
    let l := (s.mgr job).replace
    let s := s.updMgr job fun m => { m with replace := [], commit := some step }
    l.foldl (fun s x => s.replaceModule x [job]) s

def execCkptCommit (job : BitVec 16) (step : BitVec 64) (s : State) : Out := .next (s.ckptCommit job step)

/-! ### Rollback (R408) -/

/-- The machine manager raises the generation and sends ROLLBACK c; other managers pass the request up. With no committed
checkpoint the job stops: its durable state must come through the host. -/
def State.rollbackRequest (s : State) (job : BitVec 16) (requester : BitVec 17) : State :=
  if !s.isManager then s
  else if !s.isMachine then s.mgmt .rollbackRequest requester job.toNat
  else
    let c := s.commitOf job
    if c = 0xFFFFFFFF then s.lostStop job .checkTile requester
    else
      (s.updMgr job fun m => { m with rollGen := m.rollGen + 1, settling := false, stopped := false, ckpt := none, reports := [] }).mgmt
        .rollback requester (BitVec.ofNat 64 c)

def execRollbackRequest (job : BitVec 16) (requester : BitVec 17) (s : State) : Out := .next (s.rollbackRequest job requester)

/-- A queue's posted entries are FREE again. -/
def State.unpost (s : State) (q : Nat) : State :=
  let s := ((s.eq q).posted.map (·.1)).foldl (fun s i => s.writeRing q i (List.replicate 32 0)) s
  s.updEq q fun e => { e with posted := [], tags := [] }

def State.unpostCq (s : State) (q : Nat) (queues : List (Nat × BitVec 32)) : State :=
  let s := ((s.cq q).posted.map (·.1)).foldl (fun s i => s.writeCqAt q i 0 (List.replicate 32 0)) s
  s.updCq q fun c => { c with
    posted := [], accepted := [], replay := [], deferred := [], log := []
    last := match queues.find? fun x => x.1 == q with | some x => x.2 - 1 | none => c.last }

/-- The partition's operations end with ST_SMUDGED and its posted entries are taken back; its wet epochs are discarded. -/
def State.rollbackEnd (s : State) (k : Nat) (queues : List (Nat × BitVec 32)) (env : Env) : State :=
  let es := s.easelsOf k
  let qs := es ++ es.map (768 + ·) ++ s.moversOf k
  let vs := (List.range 16).map (1728 + ·) |>.filter fun q => (s.eq q).posted.any fun p => match p.2 with
    | some e => e.part == k
    | none => false
  let wet := (List.range 256).filter fun e => ((s.wet k).ent e).state == .wet
  let s := wet.foldl (fun s e => s.smudgeEpoch k (BitVec.ofNat 8 e)) s
  let s := (qs ++ s.varnishOf k).foldl (fun s q => s.endEngine q .smudged env) s
  let s := (s.cqsOf k).foldl (fun s q => s.cqComplete q { st := .smudged } env) s
  let s := (qs ++ vs).foldl State.unpost s
  (s.cqsOf k).foldl (fun s q => s.unpostCq q queues) s

/-- One EMIT of a unit over part of the shard: the narrow copies from the master weights, under the tag of the checkpoint's
last epoch. -/
def State.emitRun (s : State) (k n : Nat) (desc : Addr) (tag : Tag) (attempt : BitVec 8) (env : Env) : State × Except Fail Unit :=
  let c := { s.ctx env .varnish (some tag) attempt with seed := (s.job k).seed }
  let r := s.runOp {} (do
    let l ← readAt c desc 128
    let v := VD.ofBytes l
    if !v.emit then failOp .fieldReserved desc 1 1
    else
      let p ← v.plan c desc n []
      match p with
      | none => pure none
      | some p => p.run c none v.tiles {} >>= fun x => pure x.2)
  (r.1, match r.2 with | .ok none => .ok () | .ok (some f) => .error f | .error f => .error f)

/-- The spare takes the lost module's place (R410 step 3). -/
def State.takePlace (s : State) (k : Nat) (t : TakeIn) : State :=
  let s := s.updJob k fun j => { j with
    used := true, id := t.id, seed := t.seed, panels := t.panels, running := true, cls := t.cls, weight := t.weight
    mode := t.mode, interval := t.interval, buddy := t.buddy, graph := t.graph, powers := t.powers
    holders := t.holders, heldSince := false }
  let s := s.setRecords k t.records
  let s := s.updCkp k fun c => { c with mode := t.mode, interval := t.interval, takeover := c.takeover.hwSet }
  let s := s.onDp fun d => { d with mem := { d.mem with
    jobs := Sparse.set 0 d.mem.jobs t.id.toNat (k + 1)
    region := t.region.foldl (fun m x => Sparse.set 0 m x.1 x.2) d.mem.region } }
  { s with roles := { s.roles with role := t.role, waiting := false } }

/-- Durable state from the committed mirror, every tile checked. -/
def State.restoreDurable (s : State) (inp : RollIn) (env : Env) : State × Except Fail Unit :=
  s.runOp env (do
    let c := s.ctx env .ckpt
    let x ← copyPieces c inp.pieces
    match x.2 with
    | some f => throw f
    | none => checkTds c inp.tds)

/-- Step 4: the epoch table, the census records and the anchor tables of step c + 1, the carried values; then the replay. -/
def State.startReplay (s : State) (k : Nat) (commit : BitVec 64) (recopy : Bool) : State :=
  let n := s.epochsPerStep k
  let first := (commit.toNat + 1) * n
  let old := s.wet k
  let tag : Tag := { step := BitVec.ofNat 32 (commit.toNat + 1), epoch := 0 }
  let s := s.updWet k fun w => {
    dryIndex := BitVec.ofNat 48 (first - 1), oldest := BitVec.ofNat 8 first, dupLog2 := w.dupLog2, smudge := w.smudge
    dupMismatch := w.dupMismatch, stall := w.stall, hostWet := w.hostWet, next := first }
  let s := s.updJob k fun j => { j with guards := { j with guards := [] }.loggedGuards (commit.toNat + 1), dryCensus := [] }
  let s := (List.range n).foldl (fun s e => s.resetCensus k tag e) s
  let s := s.restoreTables k (commit.toNat + 1) fun _ => true
  let s := s.updJob k fun j => { j with
    step := commit + 1, varHeld := recopy, heldSince := true
    ckpt := if recopy then some commit else none, retried := false
    phase := if first < old.next then 4 else 0
    replayTo := max j.replayTo old.next
    dryBefore := BitVec.ofNat 64 (max j.dryBefore.toNat (old.next - old.wetCount.toNat)) }
  s.releaseHeld k

/-- ROLLBACK c: the steps of R408 in order; a restore or a rebuild that fails stops the job with its status. -/
def State.rollback (s : State) (k : Nat) (commit : BitVec 64) (gen : BitVec 16) (inp : RollIn) (env : Env) : State :=
  let s := match inp.take with | some t => s.takePlace k t | none => s
  if !(s.job k).used then s
  else
    let j := s.job k
    let queues := match j.records.find? fun r => r.step.toNat == commit.toNat + 1 with | some r => r.queues | none => []
    let n := s.epochsPerStep k
    let e := BitVec.ofNat 8 ((commit.toNat + 1) * n - 1)
    let x := (s.wet k).ent e.toNat
    let tag : Tag := { step := commit.setWidth 32, epoch := e }
    let attempt : BitVec 8 := if x.step = tag.step then x.attempt else 0
    let s := s.rollbackEnd k queues env
    let s := (s.updJob k fun j => { j with rollbacks := gen, lastCommit := commit.setWidth 32, phase := 3 }).setRecords k
      (j.records.map fun r => if commit.toNat < r.step.toNat then { r with st := .discarded } else r)
    let s := s.updCkp k fun c => { c with
      rollbacks := gen.setWidth 8, lastCommit := commit.setWidth 32, rollback := c.rollback.hwSet }
    let s := s.ckptRecord 4 commit.toNat (match inp.take with | some t => t.lost.toNat | none => 0) 0 k .ok
    let s := if s.isMachine then s.updMgr j.id fun m => { m with
        next := BitVec.ofNat 64 ((commit.toNat + 1) * n), votes := [], settling := false, faults := [], discards := [], joining := 0
        closures := [] } else s
    let r : State × Except Fail Unit := if j.heldSince then (s, .ok ()) else s.restoreDurable inp env
    match r.2 with
    | .error f => r.1.stopJob k f.st.toCode 0
    | .ok _ =>
      let r := inp.emits.foldl (fun (r : State × Except Fail Unit) u => match r.2 with
        | .ok _ => r.1.emitRun k u.1.val u.2 tag attempt env
        | .error _ => r) (r.1, .ok ())
      match r.2 with
      | .error f => r.1.stopJob k f.st.toCode 0
      | .ok _ => (r.1.startReplay k commit inp.recopy).tryStop k

def execRollbackMessage (part : Part) (commit : BitVec 64) (gen : BitVec 16) (inp : RollIn) (env : Env) (s : State) : Out :=
  .next (s.around env fun s env => s.rollback part commit gen inp env)

end Sys2Proof.Machine
end

