-- ==== Sys2Proof/Machine/JobCmds.lean ====
section
/-! DEFINITION. Mailbox commands of the groups module, job and partition, and graph (14 Table 14.7, opcodes 0x01 to 0x21). -/
namespace Sys2Proof.Machine

/-! ### Module (R477) -/

/-- The fault flag: held in ST1 (R487) or the identity disabled (15 R501). -/
def State.faultFlag (s : State) : Bool := s.mbx.fault || s.sec.disabled

def State.infoBytes (s : State) : List Byte :=
  le 16 s.dp.serial.toNat ++ le 4 s.dp.coord.code.toNat ++ le 2 s.fw.major.toNat ++ le 2 s.fw.minor.toNat ++ le 1 2 ++ le 1 s.stage
    ++ le 1 (boolN s.mbx.recovery + 2 * boolN s.integ.degraded + 4 * boolN s.faultFlag) ++ le 1 (roleCode s.roles.role)
    ++ le 1 s.pwr.mstate.toNat ++ le 3 0

def execGetInfo (seq : BitVec 48) (s : State) : Out := .next (s.runCmd seq 0x01 fun _ => (s, .ok, s.infoBytes))

/-- PWR_STATUS, the 96 link states, the partitions: 1 running, 0 stopped, 0xFF none (log entry 17). -/
def State.statusBytes (s : State) : List Byte :=
  le 8 ((s.regSlot 0x500008).getD 0).toNat ++ ((List.range 96).flatMap fun n => le 1 (s.link n).st.code)
    ++ ((List.range 4).flatMap fun k => le 1 (if (s.job k).used then boolN (s.job k).running else 0xFF)) ++ le 4 0

def execGetStatus (seq : BitVec 48) (s : State) : Out := .next (s.runCmd seq 0x02 fun _ => (s, .ok, s.statusBytes))

/-! ### Role map, cabling map, module state (01 R40 to R42; 08 R294; 13 R451) -/

/-- Entries of a role map: coordinate and role. -/
def mapEntries (pl : List Byte) : List (Nat × Role) :=
  (List.range (fld pl 0 4)).map fun i => (fld pl (4 + 8 * i) 4, roleOf (fld pl (8 + 8 * i) 1))

/-- R42: a coordinate out of range, a spare named as manager, more than two spares in a hedge, no or several hedge managers. -/
def roleMapBad (es : List (Nat × Role)) : Bool :=
  (es.any fun e => decide (2 ^ 17 ≤ e.1)) ||
  (es.any fun e => e.2 == .spare && es.any fun x => x.1 == e.1 && decide (0 < roleLevels x.2)) ||
  (es.any fun e => decide (2 < (es.filter fun x => x.1 / 16 == e.1 / 16 && x.2 == .spare).length)) ||
  (es.any fun e => (es.filter fun x => x.1 / 16 == e.1 / 16 && decide (0 < roleLevels x.2)).length != 1)

/-- The map goes to flash and waits for the hedge to form (R40); on a module that waits for a map it forms at once (log
entry 21). -/
def State.setRoleMap (s : State) (pl : List Byte) : State × Status × List Byte :=
  let es := mapEntries pl
  if es.isEmpty then (s, .ok, [])
  else if roleMapBad es then (s, .fieldReserved, [])
  else
    let m := es.foldl (fun m e => Sparse.set .worker m e.1 e.2) []
    let s : State := { s with roles := { s.roles with pendingMap := some m, gen := s.roles.gen + 1 }
                              flash := { s.flash with roleMap := some m } }
    (if s.roles.waiting then s.formHedge else s, .ok, [])

def execSetRoleMap (seq : BitVec 48) (s : State) : Out := .next (s.runCmd seq 0x05 fun c => s.setRoleMap c.req.payload)

/-- The map, and with it a new generation of routes, those that follow straight from it (08 R304; 11 R410); links in QUARANTINE
that it accepts repeat IDENTIFY, rejected ones may start again (08 R296). An entry whose peer link is none of 0 to 95 names no peer. -/
def State.setCabling (s : State) (pl : List Byte) : State :=
  let peer (n : Nat) : Option (Nat × Nat) :=
    let x := fld pl (4 + 4 * n) 4
    if bitsOf x 23 17 < 96 then some (bitsOf x 16 0, bitsOf x 23 17) else none
  let s := { s with lnk := { s.lnk with
    mapGen := BitVec.ofNat 16 (fld pl 0 2), active := [], routes := [], routeGen := s.lnk.routeGen + 1
    cabling := (List.range 96).foldl (fun m n => Sparse.set none m n (peer n)) [] } }
  s.newMap

def execSetCablingMap (seq : BitVec 48) (s : State) : Out :=
  .next (s.runCmd seq 0x06 fun c => (s.setCabling c.req.payload, .ok, []))

/-- STATE 2 or 3 begins the entry; from M0 or M1 no transition to M0 is the owner host's (Table 13.6). -/
def State.setMstate (s : State) (pl : List Byte) : State × Status × List Byte :=
  let dest := fld pl 0 1
  if s.pwr.trans ≠ none then (s, .mbxBusy, [])
  else if dest = 0 then (s, .ok, [])
  else if s.partitionExists then (s, .fieldReserved, [])
  else (s.beginEntry (BitVec.ofNat 2 dest) trigHost, .ok, [])

def execSetMstate (seq : BitVec 48) (s : State) : Out := .next (s.runCmd seq 0x07 fun c => s.setMstate c.req.payload)

/-! ### Jobs (11 R402, R407; 07 R229, R234, R243, R251) -/

/-- The partition of a job field; a job that the module does not hold is a field outside its range. -/
def State.cmdPart (s : State) (c : Cmd) : Option Nat := s.jobPart (BitVec.ofNat 16 (fld c.req.payload 0 2))

/-- Run a command on its job's partition. -/
def State.onJob (s : State) (c : Cmd) (f : Nat → State × Status × List Byte) : State × Status × List Byte :=
  match s.cmdPart c with
  | none => (s, .fieldReserved, [])
  | some k => f k

/-- Granules of type retired. -/
def Mem.retiredCount (m : Mem) : Nat := (m.region.filter fun e => regionType e.2 == 7).length

/-- Granules marked for retirement become retired, and the reported capacity falls by the granules retired (R243). A durable
granule of a partition that exists waits for a later job creation (R251, log entry 92). -/
def State.retireMarked (s : State) : State :=
  let gs := (s.dp.mem.toRetire.map (·.1)).filter fun g =>
    !(durableType (regionType (s.dp.mem.regionOf g)) && (s.job (regionPart (s.dp.mem.regionOf g))).used)
  let s := gs.foldl (fun s g => s.changeRegion g 7) s
  s.onDp fun d => { d with mem := { d.mem with toRetire := d.mem.toRetire.filter fun e => !gs.contains e.1, lowered := d.mem.retiredCount } }

/-- The first assignment of an LPDDR5X granule after a power cycle writes it to zero (R234). -/
def Mem.firstZero (m : Mem) (g : Nat) : Mem :=
  if 32768 * 16 ≤ g ∨ Sparse.get false m.zeroed g then m
  else { m with zeroed := Sparse.set false m.zeroed g true, bytes := m.bytes.filter fun e => e.1 / 2 ^ 21 != g
                errs := m.errs.filter fun e => e.1 / 65536 != g, unread := m.unread.filter fun e => e.1 / 65536 != g }

/-- Assign a granule to a partition. -/
def Mem.assign (m : Mem) (k g : Nat) (ty : Nat) : Mem :=
  { m.firstZero g with region := Sparse.set 0 m.region g (regionEntry k ty) }

/-- An assignment that cannot be made: outside memory, no job type, durable in glaze, not unassigned (R229, R248, R407). -/
def Mem.cannotAssign (m : Mem) (e : Nat × BitVec 4) : Bool :=
  !mapped (e.1 * 2 ^ 21) || e.2 == 0 || decide (5 < e.2.toNat) || (durableType e.2.toNat && !inLpddr (e.1 * 2 ^ 21)) || m.regionOf e.1 != 0

/-- The job's workers in this module's hedge. -/
def State.hedgeWorkers (s : State) (members : List (BitVec 17)) : List (BitVec 17) :=
  members.eraseDups.filter fun x => x.toNat / 16 == s.dp.coord.code.toNat / 16
    && roleIn s.roles.loaded s.roles.map (Coord.ofCode x) != .spare

/-- The module after another in a ring, or the buddy that a map names (R402). -/
def buddyOf (ring : List (BitVec 17)) (map : List (BitVec 17 × BitVec 17)) (x : BitVec 17) : Option (BitVec 17) :=
  match map.find? fun e => e.1 == x with
  | some e => some e.2
  | none =>
    let r := sortWith (fun (a b : BitVec 17) => decide (a.toNat ≤ b.toNat)) ring
    match r.find? fun y => decide (x.toNat < y.toNat) with
    | some y => some y
    | none => r.head?

/-- The holders of a module's checkpoint: the next one, or under STRIPE3 the next three. -/
def buddiesOf (ring : List (BitVec 17)) (map : List (BitVec 17 × BitVec 17)) : Nat → BitVec 17 → List (BitVec 17)
  | 0, _ => []
  | n + 1, x => match buddyOf ring map x with
    | some y => y :: buddiesOf ring map n y
    | none => []

/-- Domains that a partition's panels hold: easels, uncore, glaze, and the varnish, collective and switch units of their frames
(13 R446). -/
def State.partDomains (s : State) (panels : Nat) : List Nat :=
  let ps := (List.range 48).filter fun p => bitOf panels p
  let fs := (List.range 4).filter fun f => ps.any fun p => p / 12 == f
  (fs.flatMap fun f => [10, 11, 12, 13, 14, 16].map fun u => 912 + 20 * f + u)
    ++ (ps.map (816 + ·)) ++ (ps.map (864 + ·))
    ++ ps.flatMap fun p => ((List.range 16).filter fun e => (s.panelMap p).at e != 0x1F).map fun e => 17 * p + (s.panelMap p).at e

/-- The tables as they will stand once every change under way has applied go to flash (R261). -/
def State.saveRegion (s : State) : State :=
  { s with flash := { s.flash with
    region := s.dp.mem.regionDue.foldl (fun m x => match x.2 with | some e => Sparse.set 0 m x.1 e | none => m) s.dp.mem.region
    jobs := s.dp.mem.jobs } }

def State.jobCreate (s : State) (pl : List Byte) (i : JobIn) : State × Status × List Byte :=
  let f := fld pl
  let id := BitVec.ofNat 16 (f 0 2)
  let mode := f 2 1
  let panels := f 16 8
  let ret := s.retireMarked
  if s.mbx.fwSize.isSome ∨ s.mbx.programming then (s, .mbxBusy, [])
  else match (List.range 4).find? fun k => !(s.job k).used with
    | none => (s, .mbxBusy, [])
    | some k =>
      if (s.jobPart id).isSome ∨ ((List.range 4).any fun k => (s.job k).used && (s.job k).panels.toNat &&& panels != 0)
          ∨ (s.hedgeWorkers i.members).length < (if mode = 2 then 4 else 2)
          ∨ (i.granules.any fun e => ret.dp.mem.cannotAssign e) ∨ ¬ (i.granules.map (·.1)).Nodup then
        (s, .fieldReserved, [])
      else if i.conflict then (s, .routeConflict, [])
      else
        let s := ret.updJob k fun _ =>
          { used := true, id, seed := BitVec.ofNat 64 (f 8 8), panels := BitVec.ofNat 48 panels, cls := i.cls, weight := i.weight
            mode := BitVec.ofNat 2 mode, interval := BitVec.ofNat 14 (f 4 4), buddy := BitVec.ofNat 64 (f 24 8)
            holders := buddiesOf (s.hedgeWorkers i.members) (if f 24 8 = 0 then [] else i.buddies) (if mode = 2 then 3 else 1) s.dp.coord.code }
        let s := s.updCkp k fun c => { c with
          mode := BitVec.ofNat 2 mode, interval := BitVec.ofNat 14 (f 4 4), lastCommit := 0xFFFFFFFF, rollbacks := 0 }
        let s := s.onDp fun d => { d with mem := { i.granules.foldl (fun m e => m.assign k e.1 e.2.toNat) d.mem with
          jobs := Sparse.set 0 d.mem.jobs id.toNat (k + 1)
          easelAt := (i.regions.filter fun e => bitOf panels (e.1.val / 16) && decide (e.2.toNat ≤ 720)).foldl
            (fun m e => Sparse.set none m e.1.val (if e.2.toNat = 48 * (e.1.val % 16) then none else some e.2)) d.mem.easelAt } }
        let s := s.updWet k fun w => { dupLog2 := w.dupLog2, smudge := w.smudge, dupMismatch := w.dupMismatch, stall := w.stall
                                       hostWet := w.hostWet }
        let s := { s with pwr := { s.pwr with energy := Sparse.set 0 s.pwr.energy k 0 } }
        let ps := (List.range 48).filter fun p => bitOf panels p
        let s := ps.foldl (fun s p => s.setRequest p 0) s
        let s := (s.votes k (s.partDomains panels) true).votes 4
          ((i.granules.filter fun e => inGlaze (e.1 * 2 ^ 21)).map fun e => 864 + unitOf (e.1 * 2 ^ 21)) true
        (s.saveRegion, .ok, le 4 k)

def execJobCreate (seq : BitVec 48) (inp : JobIn) (s : State) : Out :=
  .next (s.runCmd seq 0x10 fun c => s.jobCreate c.req.payload inp)

/-- The job's granules become unassigned, its groups and shares end, its votes are withdrawn, its panels request P15. -/
def State.jobEnd (s : State) (k : Nat) : State :=
  let j := s.job k
  let panels := j.panels.toNat
  let s := ((List.range 64).filter fun q => match (s.cq q).group with | some g => g.part == k | none => false).foldl
    (fun s q => s.freeGroup q) s
  let glazes := (s.dp.mem.region.filter fun e => regionPart e.2 == k && inGlaze (e.1 * 2 ^ 21)
    && decide (1 ≤ regionType e.2) && decide (regionType e.2 ≤ 5)).map fun e => 864 + unitOf (e.1 * 2 ^ 21)
  let mine := (s.dp.mem.region.filter fun e => regionPart e.2 == k && decide (1 ≤ regionType e.2) && decide (regionType e.2 ≤ 5)).map (·.1)
  let s := mine.foldl (fun s g => s.changeRegion g 0) s
  let s := s.onDp fun d => { d with mem := { d.mem with jobs := Sparse.set 0 d.mem.jobs j.id.toNat 0 } }
  let s := (s.votes k (s.partDomains panels) false).votes 4 glazes.eraseDups false
  let s := ((List.range 48).filter fun p => bitOf panels p).foldl (fun s p => s.setRequest p 0xF) s
  (s.updJob k fun _ => {}).saveRegion

def State.jobDestroy (s : State) (k : Nat) : State × Status × List Byte :=
  if (s.job k).running then (s, .mbxBusy, []) else (s.jobEnd k, .ok, [])

def execJobDestroy (seq : BitVec 48) (s : State) : Out := .next (s.runCmd seq 0x11 fun c => s.onJob c s.jobDestroy)

/-! ### Partitions (14 Table 14.7) -/

/-- The graph runs from FIRST_STEP; a partition that runs already is busy (log entry 18). -/
def State.partitionStart (s : State) (k first : Nat) : State × Status × List Byte :=
  if (s.job k).graph.isNone then (s, .fieldReserved, [])
  else if (s.job k).running then (s, .mbxBusy, [])
  else
    let at_ := first * s.epochsPerStep k
    let s := s.leaveIdle
    let s := s.updJob k fun j => { j with running := true, stopping := false, step := BitVec.ofNat 64 first, lost := 0 }
    let s := s.updWet k fun w => { w with
      dryIndex := BitVec.ofNat 48 (at_ - 1), oldest := BitVec.ofNat 8 at_, next := at_, held := false, settling := false }
    let s := if s.isMachine then s.updMgr (s.job k).id fun m => { m with next := BitVec.ofNat 64 at_, stopped := false } else s
    ((s.imageCounters k none).jobStatus k Status.ok.toCode, .ok, [])

def execPartitionStart (seq : BitVec 48) (s : State) : Out :=
  .next (s.runCmd seq 0x12 fun c => s.onJob c fun k => s.partitionStart k (fld c.req.payload 4 8))

/-- The partition stops once every epoch is DRY or discarded; the command waits for it. -/
def State.partitionStop (s : State) (seq : BitVec 48) : State :=
  match s.cmdReady seq 0x13 with
  | none => s
  | some c => match s.cmdPart c with
    | none => s.finish c .fieldReserved []
    | some k =>
      if !(s.job k).running then s.finish c .ok (le 8 (s.wet k).dryIndex.toNat)
      else ((s.waitCmd c).updJob k fun j => { j with stopping := true }).tryStop k

def execPartitionStop (seq : BitVec 48) (s : State) : Out := .next (s.partitionStop seq)

/-- While HOLD is set every job status reported carries ST_ALARM (15 R497). -/
def State.jobStatusBytes (s : State) (k : Nat) : List Byte :=
  let j := s.job k
  le 2 (if s.sec.hold then Status.alarm.toCode else j.status).toNat ++ le 2 0 ++ le 8 j.step.toNat ++ le 4 j.lost.toNat ++ le 4 0
    ++ le 8 (s.wet k).dryIndex.toNat

def execJobStatus (seq : BitVec 48) (s : State) : Out :=
  .next (s.runCmd seq 0x14 fun c => s.onJob c fun k => (s, .ok, s.jobStatusBytes k))

/-- The request goes to the machine manager (11 R408); the response is the checkpoint rolled back to. -/
def State.hostRollback (s : State) (k : Nat) : State × Status × List Byte :=
  let id := (s.job k).id
  let c := s.commitOf id
  if c = 0xFFFFFFFF then (s, .checkTile, [])
  else if s.isMachine then (s.rollbackRequest id s.dp.coord.code, .ok, le 8 c)
  else (s.askRollback id, .ok, le 8 c)

def execRollback (seq : BitVec 48) (s : State) : Out := .next (s.runCmd seq 0x15 fun c => s.onJob c s.hostRollback)

/-! ### Graphs (00 R1; 03 R116; 07 R253) -/

/-- A sidecar, census record or anchor table of a durable tensor outside durable metadata granules in LPDDR5X. -/
def State.durableBad (s : State) (k : Nat) (a : Addr) : Bool :=
  match resolve s.dp.coord a with
  | some (.here sp off) => sp != 2 || !inLpddr off || s.dp.mem.regionOf (granuleOf off) != regionEntry k 4
  | _ => true

/-- GRAPH_LOAD. A partition that runs answers ST_MBX_BUSY before the image's major version is looked at (DESIGN CHOICE, log
entry 98: 00 R1 and 14 Table 14.7 give no order). -/
def State.graphLoad (s : State) (k : Nat) (c : Cmd) (g : GraphImage) : State × Status × List Byte :=
  let size := fld c.req.payload 4 4
  if (s.job k).running then (s, .mbxBusy, [])
  else if size = 0 then (s, .ok, [])
  else if size = 0xFFFFFFFF then (s, .fieldReserved, [])
  else
    let s := s.countPort (321 + 2 * portNo c.port) size
    if g.major ≠ s.fw.major then (s, .imageMajor, [])
    else if g.nodes.any (guardBad g) ∨ g.durables.any (s.durableBad k) then (s, .fieldReserved, [])
    else ((s.updJob k fun j => { j with graph := some g }).seedTables k, .ok, le 4 g.imageId.toNat)

def execGraphLoad (seq : BitVec 48) (image : GraphImage) (s : State) : Out :=
  .next (s.runCmd seq 0x20 fun c => s.onJob c fun k => s.graphLoad k c image)

def State.graphUnload (s : State) (k : Nat) : State × Status × List Byte :=
  if (s.job k).running then (s, .mbxBusy, []) else (s.updJob k fun j => { j with graph := none }, .ok, [])

def execGraphUnload (seq : BitVec 48) (s : State) : Out := .next (s.runCmd seq 0x21 fun c => s.onJob c s.graphUnload)

end Sys2Proof.Machine
end

