-- ==== Sys2Proof/Machine/DataCmds.lean ====
section
/-! DEFINITION. Mailbox commands of the data group: tensor reads and writes, register reads and writes (14 Table 14.7, 0x30 to 0x33; 10 R359; 11 R401). -/
namespace Sys2Proof.Machine

/-! ### Tensor ranges -/

/-- Fetch and check the descriptor, then the range: whole blocks, inside the piece (06 R204, R207). -/
def dataRange (c : Ctx) (written : Bool) (ptr : Addr) (first n : Nat) : Op TD := do
  let t ← takeTD c written ptr
  if blocked t.type ∧ (first % 32 ≠ 0 ∨ n % 32 ≠ 0) then failOp .fieldReserved ptr 2
  else if t.total < first + n then failOp .bounds ptr 2
  else pure t

/-- Tiles that hold elements `first` to `first + n - 1`. -/
def dataTiles (first n : Nat) : List Nat := (List.range ((first + n - 1) / 4096 + 1 - first / 4096)).map (first / 4096 + ·)

/-- The partition whose epochs judge a tensor's tags: the owner of its granule here, else of its descriptor's. -/
def tdPart (d : Dp) (t : TD) : Nat :=
  match resolve d.coord t.base, resolve d.coord t.ptr with
  | some (.here _ off), _ => regionPart (d.mem.regionOf (granuleOf off))
  | _, some (.here _ off) => regionPart (d.mem.regionOf (granuleOf off))
  | _, _ => 0

/-- Every tile's TAG is dry, or the partition is stopped and holds confirmed data only (10 R359). -/
def tagsDry (c : Ctx) (t : TD) : List Nat → Op Bool
  | [] => pure true
  | i :: r => do
    let s := Sidecar.ofBytes (← readAt c (t.sidecarAddr i) 160)
    let d ← get
    let k := tdPart d t
    if !c.running k || (d.wetPart k).isDry s.tag then tagsDry c t r else pure false

/-- The bytes of a range as they go to the host: element bytes, then for MX one scale byte a block (log entry 19). -/
def rangeBytes (t : TD) (cache : Cache) (first n : Nat) : List Byte :=
  pack t.type ((List.range n).map fun i => (cache.elem (first + i)).1)
    ++ (if isMx t.type then (List.range (n / 32)).map fun b => BitVec.ofNat 8 (cache.elem (first + 32 * b)).2 else [])

/-- The data of a read once every tag is dry, each tile checked; `none` while one is wet. -/
def dataFetch (c : Ctx) (ptr : Addr) (first n : Nat) : Op (Option (List Byte)) := do
  let t ← dataRange c false ptr first n
  let dry ← tagsDry c t (dataTiles first n)
  if dry then
    let cache ← loadTiles c t [] (dataTiles first n)
    pure (some (rangeBytes t cache first n))
  else pure none

/-- The partition of a command's descriptor. -/
def State.tdPartOf (s : State) (ptr : Addr) (env : Env) : Nat :=
  match (s.runOp env (fetchTD (s.ctx env .ovind) ptr)).2 with
  | .ok t => tdPart s.dp t
  | .error _ => 0

/-! ### DATA_READ (10 R359) -/

/-- No data; HOST_WET. -/
def State.hostReadWet (s : State) (c : Cmd) (k : Nat) : State :=
  (s.updWet k fun w => { w with hostWet := w.hostWet.hwSet }).finish c .wet []

/-- A read that can be answered: the bytes go to the host by DMA, then the response. -/
def State.readDone (s : State) (c : Cmd) (data : List Byte) (waitedUs : Nat) : State :=
  let s := (s.countPort (320 + 2 * portNo c.port) data.length).send
    (.dmaWrite c.port (BitVec.ofNat 64 (fld c.req.payload 8 8)) data)
  s.finish c .ok (le 8 data.length ++ le 4 waitedUs ++ le 4 0)

def State.dataRead (s : State) (seq : BitVec 48) (env : Env) : State :=
  match s.cmdReady seq 0x30 with
  | none => s
  | some c =>
    let f := fld c.req.payload
    let ptr := BitVec.ofNat 64 (f 0 8)
    if f 24 4 = 0 then s.readDone c [] 0
    else
      let r := s.runOp env (dataFetch (s.ctx env .ovind) ptr (f 16 8) (f 24 4))
      match r.2 with
      | .error x => r.1.finish c x.st []
      | .ok (some data) => r.1.readDone c data 0
      | .ok none =>
        if bitOf c.req.flags.toNat 0 then r.1.hostReadWet c (r.1.tdPartOf ptr env)
        else { r.1 with mbx := { r.1.mbx with cmds := r.1.mbx.cmds.map fun x =>
          if x.seq = c.seq then { x with waiting := true, since := r.1.dp.now } else x } }

def execDataRead (seq : BitVec 48) (env : Env) (s : State) : Out := .next (s.dataRead seq env)

/-- The tags of a waiting read are judged again. -/
def State.dataReadRelease (s : State) (seq : BitVec 48) (env : Env) : State :=
  match s.cmdWaiting seq 0x30 with
  | none => s
  | some c =>
    let f := fld c.req.payload
    let r := s.runOp env (dataFetch (s.ctx env .ovind) (BitVec.ofNat 64 (f 0 8)) (f 16 8) (f 24 4))
    match r.2 with
    | .error x => r.1.finish c x.st []
    | .ok (some data) => r.1.readDone c data (spanUs c.since s.dp.now)
    | .ok none => r.1

def execDataReadRelease (seq : BitVec 48) (env : Env) (s : State) : Out := .next (s.dataReadRelease seq env)

/-- 10 s of waiting. -/
def State.dataReadTimeout (s : State) (seq : BitVec 48) : State :=
  match s.cmdWaiting seq 0x30 with
  | none => s
  | some c => s.hostReadWet c (s.tdPartOf (BitVec.ofNat 64 (fld c.req.payload 0 8)) {})

def execDataReadWaitTimeout (seq : BitVec 48) (s : State) : Out := .next (s.dataReadTimeout seq)

/-! ### DATA_WRITE (11 R401) -/

/-- Bytes of a range as the host gives them. -/
def hostBytes (t : TD) (n : Nat) : Nat := typeBytes t.type n + (if isMx t.type then n / 32 else 0)

/-- Blocks of a range's tile from the host's bytes: codes as stored, the scale bytes given (MX) or formed (06 R196). -/
def hostBlocks (t : TD) (data : List Byte) (n : Nat) : List BlockOut :=
  let codes := unpack t.type n (data.take (typeBytes t.type n))
  let scales := data.drop (typeBytes t.type n)
  let cs := chunks 32 codes
  (List.range cs.length).map fun b => blockOf t.type (scales.getD b 0).toNat (cs.getD b [])

/-- Write blocks from block `b0` of the range: whole tiles or parts, one census update a tile. -/
def hostTiles (c : Ctx) (t : TD) (first n : Nat) (bs : List BlockOut) : List Nat → Op Unit
  | [] => pure ()
  | i :: r => do
    let lo := max first (4096 * i)
    let hi := min (first + n) (4096 * i + t.tileCount i)
    let mine := (bs.drop ((lo - first) / 32)).take (ceilDiv (hi - lo) 32)
    writeTilePart c t i (lo - 4096 * i) mine
    censusUpdate c t.census (censusOf t.type (opTag c).step mine)
    hostTiles c t first n bs r

/-- The tag host data is written under: that of the newest dry epoch, 0 with none (the spec states none: DESIGN CHOICE, log
entry 20). -/
def WetPart.dryTag (w : WetPart) : Tag × BitVec 8 :=
  let e := w.ent (w.dryIndex.toNat % 256)
  if e.state = .dry then ({ step := e.step, epoch := BitVec.ofNat 8 (w.dryIndex.toNat % 256) }, e.attempt)
  else ({ step := 0, epoch := 0 }, 0)

/-- A batch's CRC against the one logged at its first use; the first delivery logs it. -/
def State.batchOk (s : State) (k batch : Nat) (crc : BitVec 32) : State × Bool :=
  if batch = 0 then (s, true)
  else match Sparse.get none (s.job k).batchCrcs batch with
    | some x => (s, x == crc)
    | none => (s.updJob k fun j => { j with batchCrcs := Sparse.set none j.batchCrcs batch (some crc) }, true)

def State.dataWriteAt (s : State) (c : Cmd) (t : TD) (k : Nat) (data : List Byte) (ctx : Ctx) : State × Status × List Byte :=
  let f := fld c.req.payload
  let n := f 24 4
  let data := (data ++ List.replicate (hostBytes t n) 0).take (hostBytes t n)
  let crc := crc32c data
  let s := s.countPort (321 + 2 * portNo c.port) data.length
  let b := s.batchOk k (f 32 8) crc
  if !b.2 then (b.1.stopJob k Status.checkTile.toCode 0, .checkTile, [])
  else
    let r := b.1.runOp {} (hostTiles ctx t (f 16 8) n (hostBlocks t data n) (dataTiles (f 16 8) n))
    match r.2 with
    | .error x => (r.1, x.st, [])
    | .ok _ => (r.1, .ok, le 8 data.length ++ le 4 crc.toNat ++ le 4 0)

def State.dataWrite (s : State) (c : Cmd) (data : List Byte) (env : Env) : State × Status × List Byte :=
  let f := fld c.req.payload
  let ptr := BitVec.ofNat 64 (f 0 8)
  if f 24 4 = 0 then (s, .ok, le 8 0 ++ le 4 (crc32c []).toNat ++ le 4 0)
  else
    let k := s.tdPartOf ptr env
    let w := (s.wet k).dryTag
    let ctx := s.ctx { env with upsets := [] } (.host c.port (s.job k).id) (some w.1) w.2
    let r := s.runOp env (dataRange ctx true ptr (f 16 8) (f 24 4))
    match r.2 with
    | .error x => (r.1, x.st, [])
    | .ok t => r.1.dataWriteAt c t k data ctx

def execDataWrite (seq : BitVec 48) (data : List Byte) (env : Env) (s : State) : Out :=
  .next (s.runCmd seq 0x31 fun c => s.dataWrite c data env)

/-! ### Registers (07 R247) -/

/-- Read `n` 64-bit words from an offset of this module's register space. -/
def State.readRegs (s : State) : Nat → Nat → State × Option (List Byte)
  | _, 0 => (s, some [])
  | off, n + 1 =>
    let r := s.regRead off true
    match r.2 with
    | none => (r.1, none)
    | some v =>
      let t := State.readRegs r.1 (off + 8) n
      (t.1, t.2.map (le 8 v.toNat ++ ·))

def State.hostRegRead (s : State) (c : Cmd) (env : Env) : State × Status × List Byte :=
  let a := BitVec.ofNat 64 (fld c.req.payload 0 8)
  let n := fld c.req.payload 8 4
  if n = 0 then (s, .ok, [])
  else match resolve s.dp.coord a with
    | some (.here 1 off) =>
      let r := s.readRegs off n
      match r.2 with
      | some l => (r.1, .ok, l)
      | none => (r.1, .bounds, [])
    | some (.far m 1 off) =>
      if off % 8 ≠ 0 then (s, .bounds, [])
      else
        let r := s.runOp env (do
          let x := s.ctx env .ovind
          needOk (x.route m) a
          modify fun d => d.send (.remoteRead a (BitVec.ofNat 32 (8 * n)))
          let ws ← remoteWords x (a - BitVec.ofNat 64 (off % 32)) 0 (wordCount off (8 * n))
          pure (slice ws (off % 32) (8 * n)))
        match r.2 with
        | .ok l => (r.1, .ok, l)
        | .error x => (r.1, x.st, [])
    | _ => (s, .bounds, [])

def execRegRead (seq : BitVec 48) (env : Env) (s : State) : Out := .next (s.runCmd seq 0x32 fun c => s.hostRegRead c env)

/-- A masked write of this module's registers; a remote one fails with ST_BOUNDS. -/
def State.hostRegWrite (s : State) (c : Cmd) : State × Status × List Byte :=
  let f := fld c.req.payload
  match resolve s.dp.coord (BitVec.ofNat 64 (f 0 8)) with
  | some (.here 1 off) =>
    let r := s.ownerWrite c.port off { v := BitVec.ofNat 64 (f 8 8), mask := BitVec.ofNat 64 (f 16 8) }
    (r.1, r.2, [])
  | _ => (s, .bounds, [])

def execRegWrite (seq : BitVec 48) (s : State) : Out := .next (s.runCmd seq 0x33 s.hostRegWrite)

end Sys2Proof.Machine
end

