-- ==== Sys2Proof/Machine/AdminCmds.lean ====
section
/-! DEFINITION. Mailbox commands of the groups integrity, power, records and status, security, maintenance but firmware (14 Table 14.7, 0x50 to 0x91). -/
namespace Sys2Proof.Machine

/-! ### Test packages (10 R383 to R386) -/

/-- Commands that HOLD blocks (15 R497). -/
def State.unlessHold (s : State) (f : State × Status × List Byte) : State × Status × List Byte :=
  if s.sec.hold then (s, .alarm, []) else f

def State.tpkLoad (s : State) (c : Cmd) (package : List Byte) : State × Status × List Byte :=
  let size := fld c.req.payload 0 4
  if size = 0 then (s, .ok, [])
  else if size = 0xFFFFFFFF then (s, .fieldReserved, [])
  else
    let package := (package ++ List.replicate size 0).take size
    let s := s.countPort (321 + 2 * portNo c.port) size
    let r := s.takeTpk package
    (r.1, r.2, le 4 (fld package 4 4) ++ le 4 (fld package 8 4))

def execTpkLoad (seq : BitVec 48) (package : List Byte) (s : State) : Out :=
  .next (s.runCmd seq 0x50 fun c => s.unlessHold (s.tpkLoad c package))

/-- A partition runs on a panel that the package tests. -/
def State.testedBusy (s : State) (rs : List ItemResult) : Bool :=
  rs.any fun r => decide (r.phys.toNat < 816) && (List.range 4).any fun k => (s.job k).running && bitOf (s.job k).panels.toNat (r.phys.toNat / 17)

def State.tpkRun (s : State) (c : Cmd) (rs : List ItemResult) (inp : ResetIn) (env : Env) : State × Status × List Byte :=
  match s.integ.tpks.find? fun t => t.id.toNat == fld c.req.payload 0 4 with
  | none => (s, .fieldReserved, [])
  | some t =>
    let rs := rs.filter fun r => decide (r.item.toNat < t.items)
    if s.testedBusy rs then (s, .mbxBusy, [])
    else
      let ok := (rs.filter t.passes).length
      (s.leaveIdle.itemResults t rs inp env, .ok, le 2 ok ++ le 2 (rs.length - ok) ++ le 4 0)

def execTpkRun (seq : BitVec 48) (results : List ItemResult) (inp : ResetIn) (env : Env) (s : State) : Out :=
  .next (s.around env fun s env => s.runCmd seq 0x51 fun c => s.tpkRun c results inp env)

/-! ### Power (13 R433, R436, R446) -/

def State.powerLimits (s : State) (pl : List Byte) : State × Status × List Byte :=
  let r := s.setLimits (BitVec.ofNat 16 (fld pl 0 2)) (BitVec.ofNat 16 (fld pl 2 2))
  (r.1, if r.2 then .ok else .fieldReserved, [])

def execSetPowerLimits (seq : BitVec 48) (s : State) : Out := .next (s.runCmd seq 0x60 fun c => s.powerLimits c.req.payload)

/-- The request is kept when the cap holds the panels slower; the command then reports it. -/
def State.hostPstate (s : State) (pl : List Byte) : State × Status × List Byte :=
  let k := fld pl 0 1
  let r := BitVec.ofNat 4 (fld pl 1 1)
  if !(s.job k).used then (s, .fieldReserved, [])
  else
    let s := ((List.range 48).filter fun p => bitOf (s.job k).panels.toNat p).foldl (fun s p => s.setRequest p r) s
    (s, if r.toNat < s.pwr.cap.toNat then .powerLimit else .ok, [])

def execSetPstate (seq : BitVec 48) (s : State) : Out := .next (s.runCmd seq 0x61 fun c => s.hostPstate c.req.payload)

/-- The host's domain: unit 18 of its port's frame. -/
def hostDomain (p : Port) : Nat := 912 + 20 * (2 * portNo p) + 18

def State.hostVote (s : State) (c : Cmd) : State × Status × List Byte :=
  if fld c.req.payload 0 2 ≠ hostDomain c.port then (s, .fieldReserved, [])
  else (s.vote 6 (hostDomain c.port) (fld c.req.payload 2 1 == 1), .ok, [])

def execPowerVote (seq : BitVec 48) (s : State) : Out := .next (s.runCmd seq 0x62 s.hostVote)

/-! ### Records (16 R507, R508; 12 R428; 16 R515, R520) -/

/-- Up to `n` records from FIRST_SEQ on, flash and buffer alike. -/
def Evr.read (e : Evr) (first n : Nat) : List Record :=
  ((e.active ++ e.buffer).filter fun r => decide (first ≤ r.seq.toNat)).take n

def State.recordBytes (s : State) (pl : List Byte) : List Byte :=
  let l := s.dp.evr.read (fld pl 0 8) (fld pl 8 4)
  le 4 l.length ++ le 4 0 ++ l.flatMap (·.bytes)

def execRecordRead (seq : BitVec 48) (s : State) : Out :=
  .next (s.runCmd seq 0x70 fun c => (s, .ok, s.recordBytes c.req.payload))

/-! #### Clear tokens (15 R494) -/

/-- Does a token authorise the purpose, target and value? -/
def State.tokenOk (s : State) (t : List Byte) (purpose target : Nat) (hash : List Byte) : Bool :=
  fld t 0 2 == 1 && fld t 2 1 == purpose && fld t 3 1 == 0 && fld t 4 4 == target && fld t 8 16 == s.dp.serial.toNat
    && fld t 24 8 == s.sec.nonce.toNat && slice t 32 32 == hash
    && Config.sm2Verify (s.otpNow 0x05) (t.take 64) (slice t 64 64)

/-- SEC_NONCE takes a fresh random value (log entry 5). -/
def State.freshNonce (s : State) : State :=
  let r := s.dp.draw
  { s with dp := r.2, sec := { s.sec with nonce := r.1 } }

/-- A token that fails is recorded with the port (16 AUTH). -/
def State.tokenFailed (s : State) (p : Port) : State :=
  s.record 0x0901 (src 8 (portNo p)) .auth (le 2 (portNo p) ++ le 16 0)

/-- Run `f` under an accepted token. -/
def State.withToken (s : State) (c : Cmd) (t : List Byte) (purpose target : Nat) (hash : List Byte)
    (f : State → State × Status × List Byte) : State × Status × List Byte :=
  if s.tokenOk t purpose target hash then f s.freshNonce else (s.tokenFailed c.port, .auth, [])

def zeroHash : List Byte := List.replicate 32 0

/-- Steps 1 to 3 of a clear: the buffer goes to the old bank; the CLEAR record is the first of the other bank, which becomes
active; FIRST_SEQ, DROPPED and FULL start anew. -/
def Evr.clear (e : Evr) (nonce : BitVec 64) : Evr :=
  let e := e.flush
  let r : Record := { seq := e.nextSeq, type := 0x0002, source := src 0 0, status := 0
                      payload := le 6 (e.nextSeq - 1).toNat ++ le 4 e.dropped.toNat ++ le 8 nonce.toNat }
  ({ e with bank := !e.bank, firstSeq := e.nextSeq, nextSeq := e.nextSeq + 1, dropped := 0, full := false } : Evr).setActive [r]

def State.recordClear (s : State) (seq : BitVec 48) : State :=
  match s.cmdReady seq 0x71 with
  | none => s
  | some c =>
    if s.sec.hold then s.finish c .alarm []
    else if !s.tokenOk c.req.payload 1 0 zeroHash then (s.tokenFailed c.port).finish c .auth []
    else ((s.freshNonce.onEvr fun e => e.clear s.sec.nonce).waitCmd c)

def execRecordClear (seq : BitVec 48) (s : State) : Out := .next (s.recordClear seq)

/-- The old bank is erased (step 4). -/
def Evr.eraseOld (e : Evr) : Evr := if e.bank then { e with bank0 := [] } else { e with bank1 := [] }

def State.bankErased (s : State) (seq : BitVec 48) : State :=
  match s.cmdWaiting seq 0x71 with
  | none => s
  | some c => (s.onEvr Evr.eraseOld).finish c .ok []

def execRecordBankEraseDone (seq : BitVec 48) (s : State) : Out := .next (s.bankErased seq)

/-- Bytes of a sample area (12 R428). -/
def State.sampleRead (s : State) (pl : List Byte) (env : Env) : State × Status × List Byte :=
  let off := fld pl 4 4
  let n := fld pl 8 4
  if n = 0 then (s, .ok, [])
  else if 65536 < off + n then (s, .bounds, [])
  else
    let r := s.runOp env (readAt (s.ctx env .ovind) (s.sampleAddr (fld pl 0 2) + BitVec.ofNat 64 off) n)
    match r.2 with
    | .ok l => (r.1, .ok, l)
    | .error x => (r.1, x.st, [])

def execSampleRead (seq : BitVec 48) (env : Env) (s : State) : Out :=
  .next (s.runCmd seq 0x72 fun c => s.sampleRead c.req.payload env)

/-- A change of grant waits for the next snapshot point. -/
def State.counterGrant (s : State) (pl : List Byte) : State × Status × List Byte :=
  let k := fld pl 0 1
  if !(s.job k).used then (s, .fieldReserved, [])
  else (s.updJob k fun j => { j with grantNext := some (fld pl 1 1 == 1) }, .ok, [])

def execCounterGrant (seq : BitVec 48) (s : State) : Out := .next (s.runCmd seq 0x73 fun c => s.counterGrant c.req.payload)

def execWearRead (seq : BitVec 48) (s : State) : Out := .next (s.runCmd seq 0x74 fun _ => (s, .ok, s.wearReport))

/-! ### Security (15 R485 to R488, R496, R499) -/

/-- An alarm log entry of 16 bytes. -/
def alarmEntry (e : Nat × Nat × Nat × BitVec 48) : List Byte :=
  le 1 e.1 ++ le 1 e.2.1 ++ le 1 e.2.2.1 ++ le 1 0 ++ le 6 e.2.2.2.toNat ++ le 6 0

/-- SEC_STATE, SEC_ALARM and the newest 8 log entries, newest first. -/
def State.alarmBytes (s : State) : List Byte :=
  le 4 ((s.regSlot 0xE00018).getD 0).toNat ++ le 4 ((s.regSlot 0xE00000).getD 0).toNat
    ++ (((s.flash.alarms.map alarmEntry).flatten) ++ List.replicate 128 0).take 128

def execAlarmStatus (seq : BitVec 48) (s : State) : Out := .next (s.runCmd seq 0x80 fun _ => (s, .ok, s.alarmBytes))

/-- A field's generations: GENS, WRITTEN, SPOILED, reserved, each slot's value; IDENTITY_SEED and fields that Table 15.1 does
not list fail. -/
def State.otpBytes (s : State) (f : Nat) : Status × List Byte :=
  if f = 0 then (.bounds, [])
  else if !otpField f then (.fieldReserved, [])
  else if f = 2 then (.ok, le 1 1 ++ le 1 1 ++ le 1 0 ++ le 1 0 ++ le 1 (2 ^ min s.sec.revoke 4 - 1))
  else
    let m := otpMasks s f
    (.ok, le 1 (otpSlots f) ++ le 1 m.1 ++ le 1 m.2 ++ le 1 0 ++ (List.range (otpSlots f)).flatMap fun g =>
      match s.otpSlot f g with
      | .written v _ => v
      | _ => List.replicate (otpSize f) 0)

def execOtpRead (seq : BitVec 48) (s : State) : Out :=
  .next (s.runCmd seq 0x81 fun c => let r := s.otpBytes (fld c.req.payload 0 2); (s, r.1, r.2))

/-- Fields that the owner may write (Table 15.1). -/
def ownerField (f : Nat) : Bool := (0x03 ≤ f && f ≤ 0x07) || (0x40 ≤ f && f < 0x70)

/-- A value breaks its field's layout: a binning out of range, reserved bits set, a policy code not defined, a lane map that
names a lane twice. -/
def otpBroken (f : Nat) (v : List Byte) : Bool :=
  if f = 0x06 then decide (2 ^ 10 ≤ unle v) || (List.range 5).any fun i => decide (2 ≤ bitsOf (unle v) (2 * i + 1) (2 * i))
  else if f = 0x07 then v.any fun b => ((List.range 4).map fun i => bitsOf b.toNat (2 * i + 1) (2 * i)).eraseDups.length != 4
  else if 0x40 ≤ f then
    ((List.range 16).any fun i => let x := sext 8 (fld v i 1); decide (x < -30) || decide (30 < x))
      || decide (fld v 16 2 < 922) || decide (1126 < fld v 16 2) || !zeros (slice v 18 6)
  else false

/-- Fields whose new value takes effect later: at ST1, VF_BIN at ST3 (R488). -/
def otpLate (f : Nat) : Bool := f == 0x03 || f == 0x05 || f == 0x07 || (0x40 ≤ f && f < 0x70)

/-- Program a field; a late one's value in force stays. -/
def State.otpWriteValue (s : State) (f : Nat) (v : List Byte) : State :=
  let now := s.otpNow f
  let s := (s.otpProgram f v true).1
  if otpLate f then { s with sec := { s.sec with held := Sparse.set none s.sec.held f (some now) } } else s

/-- `whole` is false when power is lost before the marker: the slot is left spoiled and the command never completes. -/
def State.otpWrite (s : State) (seq : BitVec 48) (whole : Bool) : State :=
  match s.cmdReady seq 0x82 with
  | none => s
  | some c =>
    let f := fld c.req.payload 0 2
    let v := slice c.req.payload 4 (otpSize f)
    if s.sec.hold then s.finish c .alarm []
    else if !ownerField f ∨ (s.otpFree f).isNone ∨ otpBroken f v then s.finish c .fieldReserved []
    else if !s.tokenOk (slice c.req.payload (4 + otpSize f) 128) 3 f (sm3 v) then (s.tokenFailed c.port).finish c .auth []
    else if whole then (s.freshNonce.otpWriteValue f v).finish c .ok []
    else (s.freshNonce.otpProgram f v false).1.waitCmd c

def execOtpWrite (seq : BitVec 48) (whole : Bool) (s : State) : Out := .next (s.otpWrite seq whole)

/-- The episode ends: HOLD and ERASED clear (R499). -/
def State.alarmClear (s : State) (c : Cmd) : State × Status × List Byte :=
  if s.sec.active ≠ 0 then (s, .alarm, [])
  else s.withToken c c.req.payload 2 0 zeroHash fun s =>
    ({ s with sec := { s.sec with hold := false, erased := false, revoked := false }
              flash := { s.flash with hold := false, erased := false } }, .ok, [])

def execAlarmClear (seq : BitVec 48) (s : State) : Out := .next (s.runCmd seq 0x83 s.alarmClear)

/-! ### Maintenance (12 R420; 08 R288) -/

/-- A reset of any level on the owner host's command, its operations end with ST_SMUDGED (R419); at levels 4 and 5 the slots
are lost with the reset (R472). -/
def State.hostReset (s : State) (c : Cmd) (inp : ResetIn) (env : Env) : State × Status × List Byte :=
  let level := fld c.req.payload 0 1
  let target := if 4 ≤ level then 0 else fld c.req.payload 2 2
  (s.requestReset level target Status.smudged.toCode 0xFFFF false inp env, .ok, [])

def execReset (seq : BitVec 48) (inp : ResetIn) (env : Env) (s : State) : Out :=
  .next (s.around env fun s env => s.runCmd seq 0x90 fun c => s.hostReset c inp env)

def State.linkCtrl (s : State) (n action : Nat) : State :=
  match action with
  | 0 => s.linkDisable n
  | 1 => s.linkEnable n
  | 2 => s.linkRetrain n
  | _ => s.linkRestore n

def execLinkCtrl (seq : BitVec 48) (s : State) : Out :=
  .next (s.runCmd seq 0x91 fun c => (s.linkCtrl (fld c.req.payload 0 1) (fld c.req.payload 1 1), .ok, []))

end Sys2Proof.Machine
end

