-- ==== Sys2Proof/Machine/Boot.lean ====
section
/-! DEFINITION. Firmware image, update and recovery, start-up from ST0 to ST5 (14 R478 to R484; 16 R506, R509; 07 R230, R234, R243, R261; 17 R530). -/
namespace Sys2Proof.Machine

/-! ### The firmware image (R479, R480) -/

/-- The first `n` bytes of an image; erased flash reads 0xFF. -/
def imageBytes (img : List (Nat × Byte)) (n : Nat) : List Byte := (List.range n).map fun i => Sparse.get 0xFF img i

def fwSizeOk (n : Nat) : Bool := decide (4096 ≤ n) && decide (n ≤ 48 * 2 ^ 20)

/-- The first check of R480 that fails, in its order: 1 MAGIC, 2 FORMAT, 3 SIZE, 4 the signer's key, 5 DIGEST, 6 SIG; 0 none
(the spec numbers none but 0: DESIGN CHOICE, log entry 22). -/
def State.imageCheck (s : State) (img : List (Nat × Byte)) : Nat :=
  let h := imageBytes img 128
  let size := fld h 12 4
  if fld h 0 4 ≠ 0x444E564F then 1
  else if fld h 4 2 ≠ 1 then 2
  else if !fwSizeOk size then 3
  else if sm3 (slice h 48 64) ≠ s.otpNow 0x03 then 4
  else
    let b := imageBytes img size
    if sm3 (slice b 128 (size - 192)) ≠ slice h 16 32 then 5
    else if !Config.sm2Verify (s.otpNow 0x03) (b.take (size - 64)) (b.drop (size - 64)) then 6
    else 0

/-- FIRMWARE record (16 Table 16.3): the failed check, FW_MAJOR and FW_MINOR of the image. -/
def State.fwRecord (s : State) (failed : Nat) (img : List (Nat × Byte)) : State :=
  let h := imageBytes img 128
  s.record 0x0013 (src 0 0) .ok (le 1 failed ++ slice h 6 2 ++ slice h 8 2)

/-- FW_MAJOR and FW_MINOR, as a commit answers them. -/
def fwVersions (img : List (Nat × Byte)) : List Byte := slice (imageBytes img 12) 6 4

/-! ### Updates (R481, R482) -/

/-- In recovery the other host's hold turns an update command away (R482). -/
def State.heldByOther (s : State) (c : Cmd) : Bool :=
  s.mbx.recovery && match s.mbx.holder with
    | some p => p != c.port
    | none => false

/-- Staging granules become reserved area, or unassigned again. -/
def Mem.stage (m : Mem) (gs : List Nat) (ty : Nat) : Mem :=
  { gs.foldl Mem.firstZero m with region := gs.foldl (fun r g => Sparse.set 0 r g (BitVec.ofNat 8 ty)) m.region }

def State.endStaging (s : State) : State :=
  let s := s.onDp fun d => { d with mem := { d.mem with
    region := s.mbx.fwGranules.foldl (fun r g => Sparse.set 0 r g 0) d.mem.region } }
  { s with mbx := { s.mbx with fwSize := none, staged := [], fwGranules := [] } }

/-- Ovind assigns staging granules, of those named the unassigned ones of LPDDR5X; in recovery the image area is erased and
the host holds recovery. -/
def State.fwBegin (s : State) (c : Cmd) (granules : List Nat) : State × Status × List Byte :=
  let size := fld c.req.payload 0 4
  if s.heldByOther c ∨ s.partitionExists then (s, .mbxBusy, [])
  else if !fwSizeOk size then (s, .fieldReserved, [])
  else if s.mbx.recovery then
    ({ s with mbx := { s.mbx with fwSize := some size, holder := some c.port }, flash := { s.flash with image := [] } }, .ok, [])
  else
    let s := s.endStaging
    let gs := granules.eraseDups.filter fun g => decide (g < 524288) && s.dp.mem.regionOf g == 0
    let s := s.onDp fun d => { d with mem := d.mem.stage gs 6 }
    ({ s with mbx := { s.mbx with fwSize := some size, fwGranules := gs } }, .ok, [])

def execFwUpdateBegin (seq : BitVec 48) (granules : List Nat) (s : State) : Out :=
  .next (s.runCmd seq 0x92 fun c => s.unlessHold (s.fwBegin c granules))

/-- Write bytes from an offset; every byte written is listed. -/
def stageBytes (img : List (Nat × Byte)) (off : Nat) (v : List Byte) : List (Nat × Byte) :=
  (v.zipIdx off).foldl (fun m e => Sparse.ins m e.2 e.1) img

/-- Data goes to the staging, in recovery straight into the image area; BYTES of 0 writes nothing. -/
def State.fwData (s : State) (c : Cmd) : State × Status × List Byte :=
  let off := fld c.req.payload 0 4
  let n := fld c.req.payload 4 4
  let v := slice c.req.payload 8 n
  if s.heldByOther c then (s, .mbxBusy, [])
  else if n = 0 then (s, .ok, [])
  else if s.mbx.fwSize.getD 0 < off + n then (s, .bounds, [])
  else if s.mbx.recovery then
    ({ s with flash := { s.flash with image := stageBytes s.flash.image off v } }, .ok, [])
  else ({ s with mbx := { s.mbx with staged := stageBytes s.mbx.staged off v } }, .ok, [])

def execFwUpdateData (seq : BitVec 48) (s : State) : Out := .next (s.runCmd seq 0x93 fun c => s.unlessHold (s.fwData c))

/-- A commit's image is short: bytes of its SIZE were never sent, or no update has begun. -/
def State.fwShort (s : State) (img : List (Nat × Byte)) : Bool :=
  match s.mbx.fwSize with
  | none => true
  | some n => img.length != n

/-- The status of a check that fails: its own fields, or the key, digest and signature (Table 14.7). -/
def checkStatus (n : Nat) : Status := if n ≤ 3 then .fieldReserved else .auth

/-- In recovery a passing commit restarts the module at ST1; a failing one gives up the hold and recovery stays. Otherwise a
failing one ends the update with the flash untouched, a passing one starts programming over the erased image area. -/
def State.fwCommit (s : State) (seq : BitVec 48) : State :=
  match s.cmdReady seq 0x94 with
  | none => s
  | some c =>
    let img := if s.mbx.recovery then s.flash.image else s.mbx.staged
    let bad := s.imageCheck img
    if s.sec.hold then s.finish c .alarm []
    else if s.heldByOther c then s.finish c .mbxBusy []
    else if s.fwShort img then s.finish c .fieldReserved []
    else if s.mbx.recovery then
      let s := { s with mbx := { s.mbx with holder := none, fwSize := none } }
      if bad ≠ 0 then (s.fwRecord bad img).finish c (checkStatus bad) []
      else ((s.fwRecord 0 img).finish c .ok (fwVersions img)).resetDies
    else if bad ≠ 0 then (s.fwRecord bad img).endStaging.finish c (checkStatus bad) []
    else ({ s with mbx := { s.mbx with programming := true }, flash := { s.flash with image := [] } } : State).waitCmd c

def execFwUpdateCommit (seq : BitVec 48) (s : State) : Out := .next (s.fwCommit seq)

/-- The image area has been programmed and read back against DIGEST. -/
def State.fwProgrammed (s : State) (seq : BitVec 48) : State :=
  match s.cmdWaiting seq 0x94 with
  | none => s
  | some c =>
    let img := s.mbx.staged
    let s := ({ s with mbx := { s.mbx with programming := false }, flash := { s.flash with image := img } } : State).endStaging
    (s.fwRecord 0 img).finish c .ok (fwVersions img)

def execFwFlashProgramDone (seq : BitVec 48) (s : State) : Out := .next (s.fwProgrammed seq)

/-- 60 s pass with no command from the host that holds recovery. -/
def execRecoveryHoldExpiry (s : State) : Out := .next { s with mbx := { s.mbx with holder := none } }

/-! ### Power-up (17 R530, R532, R538) -/

/-- The always-on island runs; the module is in M3. -/
def State.standbyGood (s : State) : State :=
  if s.elec.stby then s
  else { s with stage := 0, pwr := { s.pwr with mstate := 3 }, elec := { s.elec with stby := true, startDue := true } }

def execStandbyGood (s : State) : Out := .next s.standbyGood

/-- Both inputs have been in range for 10 ms: ST0, and the main conversion starts; not after a thermal trip, nor while
`TRAY_PWR_REQ` is asserted (12 R427). -/
def State.powerGood (s : State) : State :=
  let s := { s with elec := { s.elec with mainGood := true } }
  if !s.elec.stby ∨ !s.elec.startDue ∨ s.elec.tripped ∨ s.elec.pwrReq then s
  else { s with stage := 0, pwr := { s.pwr with mstate := 0 }, elec := { s.elec with startDue := false, convOff := false } }

def execPowerGood (s : State) : Out := .next s.powerGood

/-! ### ST1 (R483; 16 R506, R509; 15 R487; 17 R525) -/

/-- R509: the bank whose first record has the higher SEQ is active, the other is erased. -/
def Evr.pickBank (e : Evr) : Evr :=
  match e.bank0, e.bank1 with
  | a :: _, b :: _ => if a.seq.toNat < b.seq.toNat then { e with bank := true, bank0 := [] } else { e with bank := false, bank1 := [] }
  | [], _ :: _ => { e with bank := true }
  | _, [] => { e with bank := false }

/-- R506: numbering goes on above the last record of the active bank, DROPPED and FULL come back. -/
def Evr.resume (e : Evr) : Evr :=
  let e := e.flush.pickBank
  let saved := e.saved.getD (0, false, 0)
  let next := match e.active.getLast? with
    | some r => r.seq + 1
    | none => saved.2.2
  let first := match e.active with
    | r :: _ => r.seq
    | [] => next
  { e with nextSeq := next, firstSeq := first, dropped := saved.1, full := saved.2.1, due := none }

/-- RESUME, as the first record of the new run, when the log is not full. -/
def State.resumeRecorder (s : State) : State :=
  match s.dp.evr.due with
  | none => s
  | some orderly =>
    let s := s.onEvr Evr.resume
    let e := s.dp.evr
    if e.full then s
    else s.record 0x0001 (src 0 0) .ok
      (le 6 (match e.active.getLast? with | some r => r.seq.toNat | none => 2 ^ 48 - 1) ++ le 1 (boolN orderly) ++ le 4 e.dropped.toNat)

/-- OTP fields that hold a value in slots. -/
def otpFields : List Nat :=
  [0x00, 0x01, 0x03, 0x04, 0x05, 0x06, 0x07] ++ (List.range 48).map (0x10 + ·) ++ (List.range 48).map (0x40 + ·)

/-- The slot in force of a field fails its CRC after the vote. -/
def State.otpFails (s : State) (f : Nat) : State :=
  match (List.range (otpSlots f)).reverse.find? fun g => match s.otpSlot f g with | .written _ _ => true | _ => false with
  | none => s
  | some g => match s.otpSlot f g with
    | .written v _ => s.setOtpSlot f g (.written v false)
    | _ => s

/-- R487: a slot in force fails its CRC, or a field has no written slot. -/
def State.otpBad (s : State) : Bool :=
  otpFields.any fun f => match s.otpForce f with
    | some (_, ok) => !ok
    | none => true

/-- ST1: the recorder resumes, OTP is read, the straps are sampled; HOLD and ERASED come back from flash. New values of
FW_KEY_HASH, MAINT_KEY_HASH and LANE_REMAP take effect (15 R488). A module whose straps name
another place than before takes that place's role (01 R41). `failing` are the fields whose slot in force fails. -/
def State.startSt1 (s : State) (straps : Coord) (parityOk : Bool) (failing : List (BitVec 8)) : State :=
  if 2 ≤ s.stage ∨ !s.elec.stby ∨ !s.elec.mainGood ∨ s.elec.convOff ∨ s.elec.startDue ∨ s.elec.pwrReq ∨ s.pwr.mstate ≠ 0 then s
  else
    let s := s.resumeRecorder
    let s := failing.foldl (fun s f => if otpFields.contains f.toNat then s.otpFails f.toNat else s) s
    let s := { s with sec := { s.sec with
      held := s.sec.held.filter fun e => decide (0x40 ≤ e.1), hold := s.flash.hold, erased := s.flash.erased } }
    let s := { s with roles := { s.roles with role := if s.roles.waiting ∨ straps = s.dp.coord then s.roles.role else roleIn s.roles.loaded s.roles.map straps } }
    let s := s.onDp fun d => { d with coord := straps }
    { s with stage := 1, mbx := { s.mbx with fault := !parityOk || s.otpBad } }

def execStartSt1 (straps : Coord) (parityOk : Bool) (failing : List (BitVec 8)) (s : State) : Out :=
  .next (s.startSt1 straps parityOk failing)

/-! ### ST2 (R480; 15 R489) -/

/-- The boot ROM checks the image: it starts Ovind and derives the keys, or enters recovery mode. -/
def State.startSt2 (s : State) : State :=
  if s.stage ≠ 1 ∨ s.mbx.fault ∨ s.elec.pwrReq then s
  else
    let img := s.flash.image
    let bad := s.imageCheck img
    let h := imageBytes img 128
    if bad = 0 then
      { s with stage := 2, sec := { s.sec with attKey := true }
               fw := { s.fw with major := BitVec.ofNat 16 (fld h 6 2), minor := BitVec.ofNat 16 (fld h 8 2), header := h } }
    else
      (({ s with stage := 2, mbx := { s.mbx with recovery := true } } : State).fwRecord bad img).onDp (·.raiseBoth 9)

def execStartSt2 (s : State) : Out := .next s.startSt2

/-! ### ST3 (R483; 07 R230, R234, R243, R261; 01 R22, R24; 10 R380; 11 R395) -/

/-- A pending row is repaired: a spare row of a glaze bank, post-package repair unless the device refuses. A granule whose
repair fails stays retired. -/
def repairRow (refused : List Nat) (d : Dp) (w : Nat) : Dp :=
  let off := w * 32
  let u := unitOf off
  let bank := u * 64 + bitsOf off 13 8
  let ok := if u < 48 then decide (Sparse.get 0 d.mem.spareUsed bank < 32) else !refused.contains w
  let m := d.mem
  let m := if ok then { m with spareUsed := if u < 48 then Sparse.upd 0 m.spareUsed bank (· + 1) else m.spareUsed }
    else { m with region := Sparse.set 0 m.region (granuleOf off) 7, toRetire := Sparse.set false m.toRetire (granuleOf off) true }
  memRecord { d with mem := m } (if ok then 4 else 5) u (ownAddr d.coord 0 off) 0 .ok

/-- The table that comes back from flash: whole, or after a loss of LPDDR5X without its granules; a granule stays retired
unless its rows are about to be repaired (R243, R261). -/
def State.restoredRegion (s : State) : List (Nat × BitVec 8) :=
  if s.elec.cold then s.flash.region.filter fun e =>
    if regionType e.2 = 7 then !(s.dp.mem.repair.any fun w => w.1 / 65536 == e.1) else inGlaze (e.1 * 2 ^ 21)
  else s.flash.region

/-- Glaze is written to zero; the tables come back from flash; after a loss of LPDDR5X its granules are unassigned and the
pending rows are repaired, and what became of them is recorded in flash. -/
def State.restoreMemory (s : State) (refused : List Nat) : State :=
  let region := s.restoredRegion
  let s := s.onDp fun d => { d with mem := { d.mem with
    bytes := d.mem.bytes.filter fun e => !inGlaze e.1
    errs := d.mem.errs.filter fun e => !inGlaze (e.1 * 32)
    unread := d.mem.unread.filter fun e => !inGlaze (e.1 * 32)
    region, regionDue := [], jobs := s.flash.jobs } }
  if s.elec.cold then
    let ws := s.dp.mem.repair.map (·.1)
    (s.onDp fun d => ws.foldl (repairRow refused) { d with mem := { d.mem with repair := [], toRetire := [] } }).saveRegion
  else s

/-- Every panel's map: OTP's last written generation, and the retirements of flash. -/
def State.loadMaps (s : State) : State :=
  { s with emap := (List.range 48).foldl (fun m p =>
      let f := Sparse.get {} s.flash.emap p
      Sparse.set {} m p (if f = {} then remapOf (s.otpNow (0x10 + p)) else f)) [] }

/-- A package that fails training has its granules retired, and the module reports DEGRADED. -/
def State.packageFails (s : State) (n : Nat) : State :=
  (s.onDp fun d => { d with mem := { d.mem with
    region := (List.range 32768).foldl (fun r g => Sparse.ins r (32768 * n + g) 7) d.mem.region } }).reportDegraded

/-- `failedSpares`: panels whose spare fails its self-test; `failedPackages`: LPDDR5X packages that fail training; `refused`:
words whose row a device will not repair. -/
def State.startSt3 (s : State) (failedSpares : List Panel) (failedPackages : List (Fin 16)) (refused : List Nat) (env : Env) :
    State :=
  if s.stage ≠ 2 ∨ s.mbx.recovery then s
  else
    let s := { s with stage := 3, sec := { s.sec with held := [] } }
    let s := s.restoreMemory refused
    let s := failedPackages.foldl (fun s n => s.packageFails n) s
    let s := failedSpares.foldl (fun s p => s.spareFails p) s.loadMaps
    let s := (s.onDp fun d => { d with obs := s.flash.obs })
    let unmapped := (List.range 48).any fun p => (List.range 16).any fun e => (s.panelMap p).at e == 0x1F
    let s := if unmapped ∧ !s.integ.degraded then s.reportDegraded else s
    let s := match s.flash.limits with
      | some (p, u) => { s with pwr := { s.pwr with peak := p, sus := u } }
      | none => s
    let s := { s with elec := { s.elec with cold := false } }
    let s := s.votes 4 s.ovindDomains true
    (List.range 4).foldl (fun s k => if (s.job k).used then s.checkTorn env k else s) s

def execStartSt3 (failedSpares : List Panel) (failedPackages : List (Fin 16)) (refused : List Nat) (env : Env) (s : State) : Out :=
  .next (s.around env fun s env => s.startSt3 failedSpares failedPackages refused env)

/-! ### ST4 and ST5 -/

/-- The link manager votes for its groups; the links start and the panels are powered when the module's start delay is over
(LINK_START_DELAY_EXPIRY, 08 R307). -/
def State.startSt4 (s : State) : State :=
  if s.stage ≠ 3 then s
  else
    let s := ({ s with stage := 4 } : State).sparesOff.votes 5 s.linkDomains true
    { s with lnk := { s.lnk with delayMs := startDelay s.dp.serial } }

def execStartSt4 (s : State) : Out := .next s.startSt4

/-- Each partition votes for its panels, which request P0 (13 R433). -/
def State.powerPanels (s : State) : State :=
  (List.range 4).foldl (fun s k =>
    if (s.job k).used then
      let ps := (List.range 48).filter fun p => bitOf (s.job k).panels.toNat p
      ps.foldl (fun s p => s.setRequest p 0) (s.votes k (s.partDomains (s.job k).panels.toNat) true)
    else s) s

/-- At the end of the start delay the links start together, and the panels are powered (08 R307). -/
def execLinkStartDelayExpiry (s : State) : Out := .next (if s.stage < 4 then s else s.startLinks.powerPanels)

/-- R473. -/
def Mbx.firstOwner (m : Mbx) : Option Port := if m.a.up then some .A else if m.b.up then some .B else none

/-- The reset that start-up completes ends with DONE and READY (12 R426, R430). -/
def State.endEpisode (s : State) : State :=
  match s.wdg.episodes.find? fun e => decide (4 ≤ e.level) with
  | none => s
  | some e =>
    let s := { s with roles := { s.roles with role := returnedRole s.roles.role }
                      wdg := { s.wdg with episodes := s.wdg.episodes.filter (fun e => decide (e.level < 4))
                                          reset := s.wdg.reset.hwSet } }
    s.moduleRecord 6 e.level e.status (spanUs e.begun s.dp.now)

/-- ST5: the owner is chosen, SEC_NONCE drawn, a waiting role map put in force, READY sent and vector 9 raised. -/
def State.startSt5 (s : State) : State :=
  if s.stage ≠ 4 then s
  else
    let s := { s with stage := 5, mbx := { s.mbx with owner := s.mbx.firstOwner } }
    let s := s.freshNonce.endEpisode.formHedge
    (s.mgmt .ready s.dp.coord.code 0).onDp (·.raiseBoth 9)

def execStartSt5 (s : State) : Out := .next s.startSt5

/-- ST5 not reached in 10 s: a module reset, and from one a power cycle (R484; 12 R418). The timer does not run on in recovery
mode or while ST1 is held (DEDUCED, log entry 23). -/
def State.startupTimeout (s : State) (inp : ResetIn) (env : Env) : State :=
  if s.stage = 5 ∨ s.pwr.mstate ≠ 0 ∨ s.mbx.recovery ∨ s.mbx.fault ∨ s.elec.pwrReq then s
  else if s.wdg.episodes.any fun e => e.level == 4 then s.escalate 4 0 inp env
  else s.moduleReset Status.hang.toCode

def execStartupTimeout (inp : ResetIn) (env : Env) (s : State) : Out := .next (s.startupTimeout inp env)

end Sys2Proof.Machine
end

