-- ==== Sys2Proof/Machine/Security.lean ====
section
/-! DEFINITION. Security alarms and attestation over SPDM (15 R489 to R501). -/
namespace Sys2Proof.Machine

/-! ### Alarms (R495) -/

def execSecurityAlarm (source : Fin 5) (s : State) : Out := .next (s.fireAlarm source)

/-- A condition ends: its ACTIVE bit clears. -/
def State.alarmEnd (s : State) (source : Nat) : State :=
  { s with sec := { s.sec with active := s.sec.active &&& ~~~(BitVec.ofNat 5 (2 ^ source)) } }

def execAlarmConditionEnd (source : Fin 5) (s : State) : Out := .next (s.alarmEnd source)

/-! ### Certificates (R489, R490) -/

/-- The alias certificate: what it binds, signed by the identity key. The order of its fields is the model's (log entry 24). -/
def State.aliasCert (s : State) : List Byte :=
  let body := s.publicKey 1 ++ slice s.fw.header 16 32 ++ le 2 s.fw.major.toNat ++ le 2 s.fw.minor.toNat ++ le 1 s.sec.revoke
    ++ le 16 s.dp.serial.toNat
  body ++ Config.sm2Sign (s.privateKey 0) body

/-- A certificate slot: 0 is empty when the stored chain is of an earlier epoch (R490); 1 extends 0 by the alias certificate. -/
def State.certSlot (s : State) (slot : Nat) : Option (List Byte) :=
  match s.flash.chain with
  | some (c, r) =>
    if r ≠ s.sec.revoke ∨ 2 ≤ slot then none else some (if slot = 0 then c else c ++ s.aliasCert)
  | none => none

/-! ### The responder (R492, R493) -/

def State.spdmSend (s : State) (p : Port) (a : SpdmAns) : State := s.send (.spdm p a)
def State.spdmError (s : State) (p : Port) (e : SpdmErr) : State := s.spdmSend p (.error e)

/-- Unspecified once the identity is disabled (R501); Busy before ST5 and in recovery mode; UnexpectedRequest before the port
has reached the negotiation that the request needs (SPDM 1.3: PRESUMED, log entry 25). -/
def State.spdmReady (s : State) (p : Port) (need : Nat) (f : State) : State :=
  if s.sec.disabled then s.spdmError p .unspecified
  else if s.stage ≠ 5 ∨ s.mbx.recovery then s.spdmError p .busy
  else if (s.port p).spdm < need then s.spdmError p .unexpected
  else f

/-- GET_VERSION starts the port's negotiation anew. -/
def State.spdmVersion (s : State) (p : Port) : State :=
  s.spdmReady p 0 ((s.updPort p fun q => { q with spdm := 1 }).spdmSend p (.version 1 3))

def execSpdmGetVersion (port : Port) (s : State) : Out := .next (s.spdmVersion port)

def State.spdmCapabilities (s : State) (p : Port) : State :=
  s.spdmReady p 1 ((s.updPort p fun q => { q with spdm := 2 }).spdmSend p .capabilities)

def execSpdmGetCapabilities (port : Port) (s : State) : Out := .next (s.spdmCapabilities port)

/-- `offered`: the request offers SM2 and SM3. Without them no algorithm is common (PRESUMED, log entry 25). -/
def State.spdmAlgorithms (s : State) (p : Port) (offered : Bool) : State :=
  s.spdmReady p 2 (if offered then (s.updPort p fun q => { q with spdm := 3 }).spdmSend p .algorithms else s.spdmError p .invalid)

def execSpdmNegotiateAlgorithms (port : Port) (offered : Bool) (s : State) : Out := .next (s.spdmAlgorithms port offered)

/-- SM3 of the chain of each filled slot. -/
def State.spdmDigests (s : State) : List (Nat × List Byte) :=
  [0, 1].filterMap fun n => (s.certSlot n).map fun c => (n, sm3 c)

def execSpdmGetDigests (port : Port) (s : State) : Out :=
  .next (s.spdmReady port 3 (s.spdmSend port (.digests s.spdmDigests)))

def State.spdmCertificate (s : State) (p : Port) (slot off len : Nat) : State :=
  match s.certSlot slot with
  | none => s.spdmError p .invalid
  | some c => if c.length < off then s.spdmError p .invalid
    else s.spdmSend p (.certificate slot (slice c off len) (c.length - off - (slice c off len).length))

def execSpdmGetCertificate (port : Port) (slot : Fin 8) (offset length : BitVec 16) (s : State) : Out :=
  .next (s.spdmReady port 3 (s.spdmCertificate port slot offset.toNat length.toNat))

/-- The key of a slot: 0 identity, 1 attestation; the key store signs with a key that it holds. -/
def State.canSign (s : State) (slot : Nat) : Bool := slot == 0 || s.sec.attKey

def State.spdmChallenge (s : State) (p : Port) (slot : Nat) (nonce : List Byte) : State :=
  match s.certSlot slot with
  | none => s.spdmError p .invalid
  | some c =>
    if !s.canSign slot then s.spdmError p .unspecified
    else s.spdmSend p (.challengeAuth slot (sm3 c) (Config.sm2Sign (s.privateKey slot) (sm3 c ++ nonce)))

def execSpdmChallenge (port : Port) (slot : Fin 8) (nonce : BitVec 256) (s : State) : Out :=
  .next (s.spdmReady port 3 (s.spdmChallenge port slot (le 32 nonce.toNat)))

/-- Insert a package by ascending TPK_ID and then VERSION. -/
def insertTpk (t : Tpk) : List Tpk → List Tpk
  | [] => [t]
  | x :: r => if t.id.toNat < x.id.toNat ∨ (t.id = x.id ∧ t.version.toNat ≤ x.version.toNat) then t :: x :: r else x :: insertTpk t r

/-- Measurement blocks 1 to 4 (Table 15.4). -/
def State.measurement (s : State) (index : Nat) : List Byte :=
  match index with
  | 1 => Config.romMeasurement
  | 2 => sm3 s.fw.header
  | 3 => sm3 (([3, 4, 5, 6, 7].flatMap fun f => s.otpNow f) ++ le 1 (2 ^ min s.sec.revoke 4 - 1))
  | _ => if s.integ.tpks.isEmpty then List.replicate 32 0
    else sm3 ((s.integ.tpks.foldl (fun l t => insertTpk t l) []).flatMap fun t => t.bytes.take 128)

/-- Index 0 asks for the number of blocks, 0xFF for all of them. -/
def State.spdmBlocks (s : State) (index : Nat) : Option (List (Nat × List Byte)) :=
  if index = 0 then some []
  else if index = 0xFF then some ([1, 2, 3, 4].map fun i => (i, s.measurement i))
  else if index ≤ 4 then some [(index, s.measurement index)]
  else none

/-- A signed response names the slot whose key signs. -/
def State.spdmMeasurements (s : State) (p : Port) (index : Nat) (sign : Option Nat) (nonce : List Byte) : State :=
  match s.spdmBlocks index with
  | none => s.spdmError p .invalid
  | some bs => match sign with
    | none => s.spdmSend p (.measurements 4 bs [])
    | some slot =>
      if (s.certSlot slot).isNone then s.spdmError p .invalid
      else if !s.canSign slot then s.spdmError p .unspecified
      else s.spdmSend p (.measurements 4 bs (Config.sm2Sign (s.privateKey slot) (bs.flatMap (fun b => le 1 b.1 ++ b.2) ++ nonce)))

def execSpdmGetMeasurements (port : Port) (index : BitVec 8) (sign : Option (Fin 8)) (nonce : BitVec 256) (s : State) : Out :=
  .next (s.spdmReady port 3 (s.spdmMeasurements port index.toNat (sign.map (·.val)) (le 32 nonce.toNat)))

/-- Re-enrolment is the owner's port's alone. -/
def State.ownerSpdm (s : State) (p : Port) (f : State) : State := if s.isOwner p then f else s.spdmError p .unsupported

def State.spdmCsr (s : State) (p : Port) : State :=
  let key := s.publicKey 0
  s.spdmSend p (.csr key s.dp.serial s.sec.revoke (Config.sm2Sign (s.privateKey 0) (key ++ le 16 s.dp.serial.toNat ++ le 1 s.sec.revoke)))

def execSpdmGetCsr (port : Port) (s : State) : Out := .next (s.spdmReady port 3 (s.ownerSpdm port (s.spdmCsr port)))

/-- A chain that verifies to the root, with the current identity key as its leaf, is installed in slot 0. -/
def State.spdmSetCert (s : State) (p : Port) (slot : Nat) (chain : List Byte) : State :=
  if slot ≠ 0 ∨ !Config.chainVerifies chain (s.publicKey 0) then s.spdmError p .invalid
  else ({ s with flash := { s.flash with chain := some (chain, s.sec.revoke) } } : State).spdmSend p (.certificateSet 0)

def execSpdmSetCertificate (port : Port) (slot : Fin 8) (chain : List Byte) (s : State) : Out :=
  .next (s.spdmReady port 3 (s.ownerSpdm port (s.spdmSetCert port slot chain)))

end Sys2Proof.Machine
end

