-- ==== Sys2Proof/Machine/Electrical.lean ====
section
/-! DEFINITION. Supplies, temperature alerts and the SMBus responder (17 R528 to R538). -/
namespace Sys2Proof.Machine

/-! ### Supplies (R530 to R533) -/

/-- The main conversion stops while standby holds (R532): the record buffer goes to flash, LPDDR5X and glaze are lost, only the
always-on island runs, and the module that comes back joins no job (12 R427). -/
def State.conversionStops (s : State) : State :=
  let s := (s.onEvr fun e => { e.flush with due := some true }).loseMemory.resetDies
  { s with stage := 0, pwr := { s.pwr with mstate := 3 }, roles := { gen := s.roles.gen, role := .worker, waiting := true }
           elec := { s.elec with convOff := true } }

/-- The conversion runs: both inputs are in range and the module is in none of the states that turn it off. -/
def State.converting (s : State) : Bool := s.elec.stby && s.elec.mainGood && !s.elec.convOff && !s.elec.startDue && s.pwr.mstate != 3

/-- Start-up follows at ST0 when main returns. -/
def State.mainLost (s : State) : State :=
  let on := s.converting
  let s := { s with elec := { s.elec with mainGood := false } }
  if on then
    let s := s.conversionStops
    { s with elec := { s.elec with startDue := true } }
  else s

def execMainUndervoltage (s : State) : Out := .next s.mainLost

/-- Records of the buffer that flash has not taken are lost (16 R506); registers whose reset domain is the power cycle are
reset; `TRAY_PWR_REQ` is released; a tripped conversion may start again. Flash and OTP keep what they hold. -/
def State.standbyLost (s : State) : State :=
  if !s.elec.stby then s
  else
    let e := s.dp.evr
    let s := s.loseMemory.resetDies
    let s := s.onDp fun d => { d with evr := { bank0 := e.bank0, bank1 := e.bank1, bank := e.bank, saved := e.saved
                                               due := some (e.buffer.isEmpty && e.due == some true) } }
    { s with
      stage := 0, clk := {}, wdg := {}, pwr := { mstate := 3 }, roles := { role := .worker, waiting := true }
      sec := { otp := s.sec.otp, held := s.sec.held, revoke := s.sec.revoke, revoked := s.sec.revoked, disabled := s.sec.disabled }
      elec := { stby := false, mainGood := s.elec.mainGood, cold := true } }

def execStandbyLoss (s : State) : Out := .next s.standbyLost

/-! ### Temperatures (R538), in 0.5 °C -/

/-- A reading: the hottest die and the coolant outlet. -/
def execThermalAlert (die outlet : BitVec 16) (s : State) : Out :=
  .next { s with elec := { s.elec with dieAlert := s.elec.dieAlert || decide (200 ≤ die.toInt)
                                       outAlert := s.elec.outAlert || decide (140 ≤ outlet.toInt) } }

def execThermalAlertRelease (die outlet : BitVec 16) (s : State) : Out :=
  .next { s with elec := { s.elec with dieAlert := s.elec.dieAlert && decide (190 < die.toInt)
                                       outAlert := s.elec.outAlert && decide (130 < outlet.toInt) } }

/-- `ALERT#` is asserted. -/
def State.alert (s : State) : Bool := s.elec.dieAlert || s.elec.outAlert

/-- The conversion turns off until standby has been removed. -/
def State.trip (s : State) : State :=
  let on := s.converting
  let s := if on then s.conversionStops else s
  { s with elec := { s.elec with tripped := true, convOff := true } }

def execThermalShutdown (s : State) : Out := .next s.trip

/-! ### SMBus (R528): the always-on island answers whenever standby is good -/

def State.smbus (s : State) (data : List Byte) : State := if s.elec.stby then s.send (.smbus data) else s

/-- "IDV-4800-01" in ASCII, padded with spaces to 16 bytes. -/
def partNumber : List Byte :=
  [0x49, 0x44, 0x56, 0x2D, 0x34, 0x38, 0x30, 0x30, 0x2D, 0x30, 0x31, 0x20, 0x20, 0x20, 0x20, 0x20]

def execSmbusPartNumber (s : State) : Out := .next (s.smbus partNumber)
def execSmbusSerial (s : State) : Out := .next (s.smbus (le 16 s.dp.serial.toNat))
def execSmbusCoordinate (s : State) : Out := .next (s.smbus (le 4 s.dp.coord.code.toNat))

/-- [2:0] STAGE, [5:4] MSTATE, bits 8 and 9 the alerts, bit 10 conversion off. -/
def State.smbusWord (s : State) : Nat :=
  s.stage % 8 + 16 * s.pwr.mstate.toNat + 256 * boolN s.elec.dieAlert + 512 * boolN s.elec.outAlert + 1024 * boolN s.elec.convOff

def execSmbusStatus (s : State) : Out := .next (s.smbus (le 4 s.smbusWord))

/-- MEASURED_W; 0 while the conversion is off. -/
def execSmbusPower (s : State) : Out := .next (s.smbus (le 2 (if s.converting then s.pwr.measured.toNat else 0)))

/-- The hottest die sensor and the coolant outlet sensor. -/
def execSmbusDieTemp (reading : BitVec 16) (s : State) : Out := .next (s.smbus (le 2 reading.toNat))
def execSmbusOutletTemp (reading : BitVec 16) (s : State) : Out := .next (s.smbus (le 2 reading.toNat))

end Sys2Proof.Machine
end

