-- ==== Sys2Proof/Machine/Array.lean ====
section
/-! DEFINITION. The easel matrix array: array descriptors, their checks, loads, column groups, the outlet, row statistics (04). -/
namespace Sys2Proof.Machine

/-- Pieces of an operand (R128). -/
def piecesOf (split : Nat) : Nat := if split = 0 then 1 else split
def AD.passes (a : AD) : Nat := piecesOf a.splitA * piecesOf a.splitB

/-- Chunk capacity (Table 4.2). -/
def AD.kcap (a : AD) : Nat := if a.splitA = 2 then 4096 else if a.splitA = 3 then 2720 else 8192

/-- The first row of Table 4.12. -/
def AD.fieldRows (a : AD) : List (Bool × Status × Nat) :=
  ([ (a.kind ≠ 0x41, .fieldReserved, 0), (5 < a.mode, .fieldReserved, 1),
    (!([0, 2, 3].contains a.splitA), .fieldReserved, 2), (!([0, 2, 3].contains a.splitB), .fieldReserved, 3),
    (!([1, 2].contains a.profile), .fieldReserved, 4), (2 < a.lin, .fieldReserved, 5), (3 < a.lout, .fieldReserved, 6),
    (7 < a.stats, .fieldReserved, 7), (a.saves && a.output ≠ 0, .fieldReserved, 24),
    (a.profile == 1 && a.anchor ≠ 0, .fieldReserved, 32), (!a.usesSpill && a.spill ≠ 0, .fieldReserved, 40),
    (a.stats == 0 && a.statsBase ≠ 0, .fieldReserved, 48), (4 < a.rank, .fieldReserved, 89), (!zeros a.resv, .fieldReserved, 90),
    (a.rank == 0 && a.chans ≠ 0, .fieldReserved, 92) ] : List (Bool × Status × Nat))
  ++ (List.range 4).flatMap fun i => (List.range 6).map fun k =>
    ((decide (a.rank ≤ i) || k == 5) && nth (a.axes.getD i []) k ≠ 0, Status.fieldReserved, 96 + 8 * i + k)

/-- The third row of Table 4.12. -/
def AD.countRows (a : AD) : List (Bool × Status × Nat) :=
  [ (a.kn == 0xFFFFFFFF, .fieldReserved, 68), (a.before == 0xFFFFFFFF, .fieldReserved, 72),
    (a.cols == 0xFFFFFFFF, .fieldReserved, 84), (a.rows == 0xFF, .fieldReserved, 88) ]

/-! ### Types, profiles, shapes (R125, R126, R145, R147) -/

def AD.operandOk (a : AD) (split t : Nat) : Bool := if isMx t then split == 0 else isWide t && split ≠ 0 && a.mode == 0

def AD.outputOk (a : AD) (t : Nat) : Bool :=
  if a.saves then true
  else if a.lout = 0 then (if a.mode = 5 then isInt32 t else isMx t || isWide t)
  else if a.mode ≤ 2 then isWire t
  else a.mode == 5 && t == 0x21

/-- Order-only modes are local; wire values are of a reducible node (Table 4.4, 03 R92). -/
def AD.profileOk (a : AD) : Bool :=
  (a.profile == 1 || !(a.mode == 3 || a.mode == 4)) && (a.lout ≠ 1 || a.profile == 2)

/-- O of axis `i` (R145); 0 where the formula gives less than 1. -/
def AD.outExtent (a : AD) (input : TD) (i : Nat) : Nat :=
  let n : Int := (input.extent (i + 1) : Int) + a.padLo i + a.padHi i - a.dilation i * ((a.kernel i : Int) - 1) - 1
  if n < 0 then 0 else n.toNat / a.stride i + 1

/-- The output positions' extents: batch and spatial. -/
def AD.positions (a : AD) (input : TD) : List Nat :=
  if a.rank = 0 then [input.extent 0] else input.extent 0 :: (List.range a.rank).map (a.outExtent input)

/-- R147: the rows of the address generator's fields, each with the offset of the field it judges. -/
def AD.agRows (a : AD) (i w o : TD) : List (Bool × Status × Nat) :=
  if a.rank = 0 then []
  else
    let ax := List.range a.rank
    let field (x : Nat) : List (Bool × Status × Nat) :=
      [(!(1 ≤ a.kernel x && a.kernel x ≤ 15), .fieldReserved, 96 + 8 * x), (!(1 ≤ a.stride x && a.stride x ≤ 8), .fieldReserved, 97 + 8 * x),
       (!(1 ≤ a.dilation x && a.dilation x ≤ 8), .fieldReserved, 98 + 8 * x), (7 < a.padLo x, .fieldReserved, 99 + 8 * x),
       (7 < a.padHi x, .fieldReserved, 100 + 8 * x)]
    ax.flatMap field ++ ax.map (fun x => (a.outExtent i x == 0, .fieldReserved, 96 + 8 * x))
      ++ [(a.chans == 0 || a.chans ≠ i.inner, .fieldReserved, 92)]
      ++ ax.map (fun x => (w.extent (x + 1) ≠ a.kernel x || (!a.saves && o.extent (x + 1) ≠ a.outExtent i x), .bounds, 96 + 8 * x))
      ++ [(!a.saves && (o.extent 0 ≠ i.extent 0 || o.inner ≠ w.extent 0), .bounds, 24)]

/-- Reduction elements of a weight column as it lies, and channels of a tap. -/
def AD.kOf (_a : AD) (w : TD) : Nat := product (w.extents.drop 1)

/-- The weight element of column `n` and reduction element `k`: channel k mod C of tap k / C (R145). -/
def AD.weightAt (a : AD) (w : TD) (n k : Nat) : Nat :=
  n * a.kOf w + (if a.rank = 0 then k else k / max a.chans 1 * w.inner + k % max a.chans 1)

/-- Rows, reduction elements and columns present. -/
def AD.rowsIn (a : AD) (i o : TD) : Nat :=
  let n := product (a.positions i)
  if a.saves then n else min n o.rows
/-- Under the address generator K is C × Π KERNEL (R145); a weight of fewer channels ends it at the first it lacks. -/
def AD.kIn (a : AD) (i w : TD) : Nat :=
  if a.rank = 0 then min i.inner (a.kOf w)
  else if w.inner < a.chans then w.inner else a.chans * product ((List.range a.rank).map a.kernel)
def AD.colsIn (a : AD) (w o : TD) : Nat := if a.saves then w.extent 0 else min (w.extent 0) o.inner

/-! ### Top exponents (03 R93 to R99, R140) -/

/-- The local profile's top exponent, from the descriptors' MAX_SCALE fields. -/
def AD.localEtop (a : AD) (i w : TD) : Int :=
  modeEtop a.mode i.type w.type ((i.maxScale : Int) - 127) ((w.maxScale : Int) - 127)

/-! ### Footprints (R135) -/

/-- The input element of block `kb` of row `r`; `none`: padding (R145, R146). -/
def AD.inputAt (a : AD) (i : TD) (r kb : Nat) : Option Nat :=
  let k := a.k0 + 32 * kb
  if a.rank = 0 then some ((a.row0 + r) * i.inner + k)
  else
    let pos := unravel (a.positions i) (a.row0 + r)
    let taps := unravel ((List.range a.rank).map a.kernel) (k / max a.chans 1)
    let ps : List Int := (List.range a.rank).map fun x =>
      (nth pos (x + 1) : Int) * a.stride x - a.padLo x + (nth taps x : Int) * a.dilation x
    if (List.range a.rank).all fun x => decide (0 ≤ ps.getD x 0) && decide (ps.getD x 0 < (i.extent (x + 1) : Int)) then
      some (ravel i.extents (nth pos 0 :: ps.map Int.toNat ++ [k % max a.chans 1]))
    else none

def AD.inputRuns (a : AD) (i : TD) (rows k : Nat) : List (Nat × Nat) :=
  if a.rank = 0 then (List.range rows).map fun r => ((a.row0 + r) * i.inner + a.k0, k)
  else (List.range rows).flatMap fun r => (List.range (k / 32)).filterMap fun kb => (a.inputAt i r kb).map fun n => (n, 32)

def AD.weightRuns (a : AD) (w : TD) (k cols : Nat) : List (Nat × Nat) :=
  if a.rank = 0 ∨ w.inner = a.chans then (List.range cols).map fun c => ((a.col0 + c) * a.kOf w + a.k0, k)
  else (List.range cols).flatMap fun c => (List.range (k / 32)).map fun kb => (a.weightAt w (a.col0 + c) (a.k0 + 32 * kb), 32)

def AD.outputRuns (a : AD) (o : TD) (rows cols : Nat) : List (Nat × Nat) :=
  (List.range rows).map fun r => ((a.row0 + r) * o.inner + a.col0, cols)

def spillArea (cols : Nat) : Nat := ceilDiv cols 4 * 8192

def areaOf (own : Coord) (x : Addr) (n : Nat) : List (Nat × Nat × Nat) :=
  match keyOf own x with
  | some (c, k) => if n = 0 then [] else [(c, k, k + n)]
  | none => []

/-- The object whose footprint intersects another under R135: the output, or the spill area of a saving operation. -/
def AD.overlaps (a : AD) (own : Coord) (i w o : TD) (rows k cols : Nat) : Option (Addr × Nat) :=
  let fi := footprint own i (a.inputRuns i rows k)
  let fw := footprint own w (a.weightRuns w k cols)
  let fo := if a.saves then [] else footprint own o (a.outputRuns o rows cols)
  let fs := if a.spillLp then areaOf own (BitVec.ofNat 64 a.spill) (spillArea cols) else []
  let ft := if a.stats = 0 then [] else areaOf own a.statsBase (128 * rows)
  if meets fo fi || meets fo fw || meets fo fs || meets fo ft then some (o.ptr, 2)
  else if meets fs fi || meets fs fw then some (BitVec.ofNat 64 a.spill, 8) else none

/-- The spill area lies in scratch, or in this module's LPDDR5X and may be accessed. -/
def AD.spillOk (a : AD) (d : Dp) (c : Ctx) (cols : Nat) : Bool :=
  (!a.spillScratch || decide (a.spill + spillArea cols ≤ 2 ^ 21)) &&
  (!a.spillLp || (a.spill ≠ 0 && (match resolve d.coord (BitVec.ofNat 64 a.spill) with
    | some (.here sp off) => (sp == 0 || sp == 2) && decide (off + spillArea cols ≤ 2 ^ 40)
    | _ => false) && rangeAt d c (BitVec.ofNat 64 a.spill) (spillArea cols) (a.lout == 3) == .ok))

/-! ### The checks of R158 -/

/-- Steps 3 to 5: the plan of the operation. The reduction length of 03 R104 counts the reduction elements left by the clip, which
are those its LACCs have summed (DEDUCED, log entry 104). -/
def AD.planOf (a : AD) (c : Ctx) (desc : Addr) (tds : List TD) : Op ArrayRun := do
  let i := tds.getD 0 default
  let w := tds.getD 1 default
  let o := tds.getD 2 default
  let bad (st : Status) (off : Nat) : Op Unit := failOp st desc 1 off
  if !(a.operandOk a.splitA i.type && a.operandOk a.splitB w.type && a.outputOk o.type && a.profileOk) then
    bad .fieldReserved (if !a.operandOk a.splitA i.type then 2 else if !a.operandOk a.splitB w.type then 3 else if !a.outputOk o.type then 24 else 4)
  if a.stats ≠ 0 ∧ (a.mode ≠ 0 ∨ a.lout ≠ 0) then bad .fieldReserved 7
  let rk := if a.rank = 0 then 2 else a.rank + 2
  if i.rank ≠ rk then failOp .rank i.ptr 2 2
  if w.rank ≠ rk then failOp .rank w.ptr 2 2
  if !a.saves ∧ o.rank ≠ rk then failOp .rank o.ptr 2 2
  if a.k0 % 32 ≠ 0 then bad .fieldReserved 64
  if a.kn % 32 ≠ 0 then bad .fieldReserved 68
  if a.col0 % 32 ≠ 0 then bad .fieldReserved 80
  if a.cols % 32 ≠ 0 then bad .fieldReserved 84
  if 2 ^ 24 < a.before + a.kn / 32 * a.passes then bad .fieldReserved 72
  match firstRow (a.agRows i w o) with
  | some (st, off) => bad st off
  | none => pure ()
  let rIn := a.rowsIn i o
  let kIn := a.kIn i w
  let cIn := a.colsIn w o
  let strict := if a.saves then !(i.sprig && w.sprig) else !o.sprig
  let tall : Bool := decide (64 < a.rows) || decide (rIn < a.row0 + a.rows)
  let deep : Bool := decide (a.kcap < a.kn) || decide (kIn < a.k0 + a.kn)
  if strict && (tall || deep || decide (cIn < a.col0 + a.cols)) then bad .bounds (if tall then 88 else if deep then 68 else 84)
  let rows := min (min a.rows 64) (rIn - a.row0)
  let k := min (min a.kn a.kcap) (kIn - a.k0)
  let cols := min a.cols (cIn - a.col0)
  if a.usesSpill ∧ a.spill % 32 ≠ 0 then bad .align 40
  if a.stats ≠ 0 ∧ a.statsBase.toNat % 32 ≠ 0 then bad .align 48
  let d ← get
  if !a.spillOk d c cols then failOp .bounds (BitVec.ofNat 64 a.spill) 8
  match a.overlaps d.coord i w o rows k cols with
  | some x => failOp .overlap x.1 x.2
  | none => pure ()
  let run : ArrayRun := { rows, k, cols, clipRows := a.rows - rows, clipK := a.kn - k, clipCols := a.cols - cols }
  let run ← if a.profile = 2 then (do
      let t ← takeTable c a.anchor
        { step := (opTag c).step
          out := if a.saves then none else some (o.tensorId, nth o.shape (o.rank - 1))
          cols := if a.saves then some (a.col0 + a.cols) else none
          termsOdd := a.before % a.passes ≠ 0
          reduce := some (32 * a.before / a.passes + k) }
      if a.stats ≠ 0 ∧ t.etop = -32768 then failOp .fieldReserved a.anchor 3 22
      if a.lout = 1 ∧ t.profile ≠ 2 then failOp .fieldReserved a.anchor 3 16
      if a.lout = 1 ∧ o.type ≠ t.wireType then failOp .fieldReserved o.ptr 2 1
      pure { run with wire := t.wire, anchors := t.entry, etop := t.etop, bound := t.bound 0 })
    else
      let e := a.localEtop i w
      pure { run with anchors := [if a.mode = 5 then 0 else e - 200], etop := e, bound := 230 }
  if a.lout = 0 ∧ o.gradient ∧ !isInt32 o.type then
    let sr ← takeSr c o (o.ptr + 128)
    pure { run with sr := some sr }
  else pure run

/-- The pieces that the operation names are all empty (06 R186). -/
def AD.allEmpty (a : AD) (tds : List TD) : Bool :=
  (tds.getD 0 default).empty && (tds.getD 1 default).empty && (a.saves || (tds.getD 2 default).empty)

/-- The operation's run; pieces that are all empty end the checks with nothing to do. -/
def AD.plan (a : AD) (c : Ctx) (desc : Addr) (tds : List TD) : Op ArrayRun :=
  if a.allEmpty tds then pure { rows := 0, k := 0, cols := 0 } else a.planOf c desc tds

/-- Step 2: the descriptors in order. -/
def AD.fetch (a : AD) (c : Ctx) : Op (List TD) := do
  let i ← takeTD c false a.input
  let w ← takeTD c false a.weight
  let o ← if a.saves then pure default else takeTD c true a.output
  pure [i, w, o]

/-! ### ARRAY_OPERATION -/

/-- Units of Table 10.8 that the operation's outputs lie in. -/
def AD.units (a : AD) (o : TD) (r : ArrayRun) : List Nat :=
  let n := nth o.shape (o.rank - 1)
  ((List.range r.rows).flatMap fun x =>
    let row := o.globalIndex ((a.row0 + x) * o.inner) / max n 1
    (List.range (ceilDiv r.cols 32)).map fun b =>
      row / 64 * ceilDiv n 64 + o.global (o.rank - 1) (a.col0 + 32 * b) / 64).eraseDups

/-- A clip may leave rows, columns or reduction elements at 0 (R159): with no row or column the operation ends at once; with no
reduction element its LACCs are converted or saved in their initial state (DESIGN CHOICE, log entries 39 and 105). -/
def State.arrayStart (s : State) (i : Nat) (node : BitVec 32) (env : Env) : State :=
  match s.fresh i with
  | none => s
  | some x =>
    if s.engineHeld i then s
    else
      let s := s.onDp (·.upsets env.upsets)
      let env := { env with upsets := [] }
      let a := AD.ofBytes x.desc
      let bad (st : Status) (off : Nat) : State := s.complete i (failComp { st, addr := x.entry.desc, obj := 1, off } false) env
      match firstRow a.fieldRows with
      | some (st, off) => bad st off
      | none =>
        if a.kn = 0 ∨ a.cols = 0 ∨ a.rows = 0 then s.complete i {} env
        else match firstRow a.countRows with
          | some (st, off) => bad st off
          | none =>
            let c := s.entryCtx i x.entry env
            let r := s.runOp {} (do
              let tds ← a.fetch c
              let run ← a.plan c x.entry.desc tds
              pure (tds, run))
            match r.2 with
            | .error f => r.1.complete i (failComp f false) env
            | .ok (tds, run) =>
              let s := r.1.updCur i fun x => { x with started := true, tds }
              let s := if a.saves then s else (a.units (tds.getD 2 default) run).foldl (fun s u => s.sampleUnit i x node u) s
              let s := s.setArray i (some run)
              if run.rows = 0 ∨ run.cols = 0 then s.endArray i { st := .ok } env else s

def execArrayOperation (easel : Easel) (node : BitVec 32) (env : Env) (s : State) : Out := .next (s.arrayStart easel node env)

/-! ### Slots (16 R512, R513; 05 R160) -/

/-- Account slots of an activity to the easel's counters and to the operation. -/
def State.accountSlots (s : State) (q : Nat) (i : Nat) (act : Activity) : State :=
  let ep : Option Nat := match (s.eq q).cur with
    | some x => match s.entryEpoch q x.entry with
      | some (k, e) => if ((s.wet k).inf e).index.toNat < (s.job k).dryBefore.toNat then none else some e
      | none => none
    | none => none
  s.updPct i fun p => p.account ep act

def ArrayRun.count (r : ArrayRun) (act : Activity) : ArrayRun :=
  let slots := 64 * act.cycles
  let t := min act.terms slots
  let b := min act.back (slots - t)
  { r with retired := r.retired + t, back := r.back + b, front := r.front + (slots - t - b) }

/-- Account an activity, then change the run. -/
def State.arrayAct (s : State) (i : Nat) (r : ArrayRun) (act : Activity) : State :=
  (s.accountSlots i i act).setArray i (some (r.count act))

/-! ### The input stage (R132, R134) -/

/-- Tiles that have been loaded: number, codes, scale bytes. -/
abbrev Loaded := List (Nat × List Nat × List Byte)

/-- Code and scale byte of an element of a loaded tile. -/
def Loaded.elem (x : Loaded) (n : Nat) : Nat × Nat :=
  match x.find? fun e => e.1 == n / 4096 with
  | some e => (e.2.1.getD (n % 4096) 0, (e.2.2.getD (n % 4096 / 32) 0).toNat)
  | none => (0, 0)

/-- A tile of operand `op` (0 input, 1 weight): on the list of the 64 most recently verified tiles, or read and verified now. -/
def fetchTile (c : Ctx) (t : TD) (op : Nat) (x : Loaded × List (Nat × Nat × List Nat × List Byte)) (i : Nat) :
    Op (Loaded × List (Nat × Nat × List Nat × List Byte)) := do
  if x.1.any fun e => e.1 == i then pure x
  else match x.2.find? fun e => e.1 == op && e.2.1 == i with
    | some e => pure (x.1 ++ [(i, e.2.2)], x.2)
    | none =>
      let y ← checkTile c t i
      let codes := unpack t.type (t.tileCount i) y.payload
      pure (x.1 ++ [(i, codes, y.side.scales)], ((op, i, codes, y.side.scales) :: x.2).take 64)

/-- A block of a loaded tile: its scale or exponent byte and 32 codes. -/
def Loaded.block (x : Loaded) (n0 : Nat) : Nat × List Nat :=
  ((x.elem n0).2, (List.range 32).map fun j => (x.elem (n0 + j)).1)

/-- Fill the input stage. -/
def AD.load (a : AD) (c : Ctx) (i : TD) (r : ArrayRun) : Op ArrayRun := do
  let at_ := (List.range r.rows).map fun row => (List.range (r.k / 32)).map fun kb => a.inputAt i row kb
  let tiles := (at_.flatten.filterMap fun x => x.map (· / 4096)).eraseDups
  let x ← tiles.foldlM (fetchTile c i 0) ([], r.verified)
  let stage := at_.map fun row => row.map fun b => b.map x.1.block
  pure { r with loaded := true, stage, verified := x.2 }

/-- Cycles, retired slots and range terms (0x11) of what a command broadcast: the difference modes take two cycles a slot (R136). -/
def AD.activity (a : AD) (r r' : ArrayRun) (act : Activity) : Activity :=
  let n := r'.used - r.used
  let rises := match act.events.find? fun e => e.1 == 0x11 with | some e => e.2.2 | none => 0
  { act with events := (0x11, r'.viol - r.viol, rises) :: act.events, cycles := max act.cycles (if a.mode = 1 ∨ a.mode = 2 then 2 * n else n), terms := n * r.rows }

/-- Run the array in progress; a failure ends the operation with what the run has counted and written by then (R160). -/
def State.onArray (s : State) (i : Nat) (env : Env) (act : Activity)
    (f : AD → Ctx → List TD → ArrayRun → Op (ArrayRun × Option Fail)) (k : State → ArrayRun → State) : State :=
  match s.array i, (s.eq i).cur with
  | some r, some x =>
    if s.engineHeld i then s
    else
      let s := s.onDp (·.upsets env.upsets)
      let env := { env with upsets := [] }
      let c := s.entryCtx i x.entry env
      let a := AD.ofBytes x.desc
      let y := s.runOp {} (f a c x.tds r)
      match y.2 with
      | .error e => (y.1.arrayAct i r (a.activity r r act)).endArray i e env
      | .ok (r', some e) => (y.1.arrayAct i r' (a.activity r r' act)).endArray i e env
      | .ok (r', none) => k (y.1.arrayAct i r' (a.activity r r' act)) (r'.count (a.activity r r' act))
  | _, _ => s

def State.inputLoaded (s : State) (i : Nat) (env : Env) (act : Activity) : State :=
  match s.array i with
  | some r => if r.loaded then s
    else s.onArray i env act (fun a c tds r => do let r ← a.load c (tds.getD 0 default) r; pure (r, none)) fun s _ => s
  | none => s

def execInputStageLoaded (easel : Easel) (env : Env) (act : Activity) (s : State) : Out := .next (s.inputLoaded easel env act)

/-! ### Block terms (03 R84, R106; 04 R127 to R139) -/

/-- The pieces of an operand block; an MX block is one piece of scaled values. -/
def blockPieces (split t : Nat) (b : Nat × List Nat) : List (List Num) :=
  if split = 0 then [b.2.map fun x => scaled b.1 (elemValue t x)] else splitPieces split t b.1 b.2

def Num.abs : Num → Num
  | .fin m e => .fin m.natAbs e
  | .negZero => .zero
  | .inf _ => .inf false
  | .nan => .nan

def Num.sum (l : List Num) : Num := l.foldl Num.add .zero

/-- Equal as exact real values; NaN matches nothing (R139). -/
def Num.matches : Num → Num → Bool
  | .fin m e, .fin n f => let g := min e f; alignTo m e g == alignTo n f g
  | .inf a, .inf b => a == b
  | _, _ => false

/-- The exact block term of the additive modes (Table 4.8). -/
def blockTerm (mode : Nat) (a b : List Num) : Num :=
  let p := a.zip b
  if mode = 0 then Num.sum (p.map fun x => x.1.mul x.2)
  else if mode = 1 then Num.sum (p.map fun x => (x.1.add x.2.neg).abs)
  else Num.sum (p.map fun x => let y := x.1.add x.2.neg; y.mul y)

/-- The terms of one pass with their violations, floored at `l` under the bound. -/
def passTerms (mode : Nat) (l bound : Int) (a b : List Num) : List (Acc × Bool) :=
  if mode = 5 then [(.fin ((a.zip b).filter fun x => x.1.matches x.2).length, false)]
  else if mode = 3 ∨ mode = 4 then (a.zip b).map fun x => termOf l (l + bound) (x.1.add x.2)
  else [termOf l (l + bound) (blockTerm mode a b)]

/-- Minimum or maximum under R138. -/
def Acc.order (wantMax : Bool) : Acc → Acc → Acc
  | .nan, _ | _, .nan => .nan
  | .inf a, b => if a ≠ wantMax then .inf a else b
  | a, .inf b => if b ≠ wantMax then .inf b else a
  | .fin a, .fin b => .fin (if wantMax then max a b else min a b)

/-- Combine a term into a LACC; the flag tells a sum at the finite limit (03 R89). -/
def laccAdd (mode : Nat) (x : Option Acc) (t : Acc) : Option Acc × Bool :=
  if mode = 3 ∨ mode = 4 then (match x with | none => (some t, false) | some y => (some (y.order (mode == 4) t), false))
  else let r := (x.getD (.fin 0)).combine 256 t; (some r.1, r.2)

/-- All passes of one block for one DPU: the LACC and the violations. A sum at the finite limit counts as one more violating term
(DESIGN CHOICE, log entry 106: R89 reports the violation and counts no terms). -/
def dpuBlock (mode : Nat) (l bound : Int) (pa pb : List (List Num)) (x : Option Acc) : Option Acc × Nat :=
  (pa.flatMap fun a => pb.flatMap fun b => passTerms mode l bound a b).foldl (fun s t =>
    let r := laccAdd mode s.1 t.1
    (r.1, s.2 + boolN t.2 + boolN r.2)) (x, 0)

/-- The anchor of column `c` of the operation. -/
def AD.anchorAt (a : AD) (w o : TD) (r : ArrayRun) (c : Nat) : Int :=
  if r.wire = 0 then r.anchors.getD 0 0
  else
    let g := if a.saves then w.global 0 (a.col0 + c) else o.global (o.rank - 1) (a.col0 + c)
    r.anchors.getD (g / 32) 0

/-! ### Spill images (R142, R143) -/

def AD.spillOff (_a : AD) (g d j : Nat) : Nat := ((g * 64 + d) * 4 + j) * 32

def AD.readSpill (a : AD) (c : Ctx) (i g d j : Nat) : Op Acc := do
  let off := a.spillOff g d j
  let at_ := BitVec.ofNat 64 (a.spill + off)
  let l ← tryCatch (if a.lin = 1 then readKey c 2 (scratchKey i (a.spill + off)) 32 else readAt c at_ 32)
    (fun f => failOp f.st at_ 8)
  match Acc.decode 256 (unle l) with
  | some x => pure x
  | none => failOp .checkTile at_ 8

def AD.writeSpill (a : AD) (c : Ctx) (i g d j : Nat) (x : Acc) : Op Unit := do
  let off := a.spillOff g d j
  let at_ := BitVec.ofNat 64 (a.spill + off)
  let b := le 32 (x.encode 256)
  tryCatch (if a.lout = 2 then writeKey c 2 (scratchKey i (a.spill + off)) b else writeAt c at_ b) (fun f => failOp f.st at_ 8)

/-! ### Column groups -/

/-- Columns of the group in progress. -/
def ArrayRun.width (r : ArrayRun) : Nat := min 4 (r.cols - 4 * r.group)

/-- LACCs at the start of a group: the mode's initial state, or the restored images. -/
def AD.startGroup (a : AD) (c : Ctx) (i : Nat) (r : ArrayRun) : Op ArrayRun := do
  if r.slot ≠ 0 ∨ r.lacc ≠ [] then pure r
  else if a.lin = 0 then
    pure { r with lacc := List.replicate (4 * r.rows) (if a.mode = 3 ∨ a.mode = 4 then none else some (.fin 0)) }
  else
    let l ← (List.range (4 * r.rows)).mapM fun n =>
      if n % 4 < r.width then (do let x ← a.readSpill c i r.group (n / 4) (n % 4); pure (some x)) else pure (some (.fin 0))
    pure { r with lacc := l }

/-! ### The weight streamer (R133) -/

/-- Blocks that a half of 128 KiB holds, each with its scale byte (DESIGN CHOICE, log entry 110: the spec gives the size alone). -/
def halfBlocks (w : TD) : Nat := 131072 / (typeBytes w.type 32 + 1)

/-- Blocks that the operation streams, and the column and block of the one numbered `n` (R127). -/
def ArrayRun.streamed (r : ArrayRun) : Nat := r.cols * (r.k / 32)
def ArrayRun.streamPos (r : ArrayRun) (n : Nat) : Nat × Nat :=
  let g := n / (4 * (r.k / 32))
  let wd := max 1 (min 4 (r.cols - 4 * g))
  (4 * g + (n - 4 * (r.k / 32) * g) % wd, (n - 4 * (r.k / 32) * g) / wd)

/-- A block enters the half that is being filled, or a free one. -/
def ArrayRun.push (r : ArrayRun) (cap : Nat) (b : Nat × List Nat) : ArrayRun :=
  match r.halves.getLast? with
  | some h => if h.1 < cap then { r with halves := r.halves.dropLast ++ [(h.1 + 1, h.2 ++ [b])], wnext := r.wnext + 1 }
    else { r with halves := r.halves ++ [(1, [b])], wnext := r.wnext + 1 }
  | none => { r with halves := [(1, [b])], wnext := r.wnext + 1 }

/-- Room for one more block: a half that is being filled, or a free half. -/
def ArrayRun.room (r : ArrayRun) (cap : Nat) : Bool :=
  decide (r.halves.length < 2) || (match r.halves.getLast? with | some h => decide (h.1 < cap) | none => true)

/-- The streamer reads ahead into the free half, up to block `limit`, and checks each tile as it reads it. -/
def AD.stream (a : AD) (c : Ctx) (w : TD) (limit : Nat) : Nat → ArrayRun → Op ArrayRun
  | 0, r => pure r
  | fuel + 1, r =>
    if limit ≤ r.wnext ∨ !r.room (halfBlocks w) then pure r
    else do
      let p := r.streamPos r.wnext
      let n0 := a.weightAt w (a.col0 + p.1) (a.k0 + 32 * p.2)
      let y ← fetchTile c w 1 ([], r.verified) (n0 / 4096)
      a.stream c w limit fuel ({ r with verified := y.2 }.push (halfBlocks w) (y.1.block n0))

/-- The array takes the next block; a half is released with its last one. -/
def ArrayRun.pop (r : ArrayRun) (cap : Nat) : (Nat × List Nat) × ArrayRun :=
  match r.halves with
  | (n, b :: l) :: rest => (b, { r with halves := if l.isEmpty && decide (cap ≤ n) then rest else (n, l) :: rest })
  | _ => (padBlock, r)

/-! ### Broadcasts -/

/-- Slots that the passes of one block take: an E2M1 pair carries two blocks a slot, an odd final block one of its own (R136). -/
def AD.blockSlots (a : AD) (i w : TD) (kb : Nat) : Nat :=
  if a.mode = 0 ∧ i.type = 5 ∧ w.type = 5 ∧ kb % 2 = 1 then 0 else a.passes

/-- What block `pb` adds to the LACC of a DPU; a padding block's term is 0 (R146). -/
def AD.dpuStep (a : AD) (i : TD) (l bound : Int) (x : Option (Nat × List Nat)) (pb : List (List Num)) (acc : Option Acc) :
    Option Acc × Nat :=
  match x with
  | some b => dpuBlock a.mode l bound (blockPieces a.splitA i.type b) pb acc
  | none => ((laccAdd a.mode acc (.fin 0)).1, 0)

/-- One broadcast: block kb of column c of the group, slot 4 kb + c (R127); the streamer has read on up to block `limit`. -/
def AD.slotStep (a : AD) (c : Ctx) (i w o : TD) (limit : Nat) (r : ArrayRun) : Op (ArrayRun × Option Fail) := do
  let kb := r.slot / 4
  let j := r.slot % 4
  if r.width ≤ j then pure ({ r with slot := r.slot + 1 }, none)
  else
    match ← attempt (a.stream c w limit (2 * halfBlocks w) r) with
    | .error f => pure (r, some f)
    | .ok r =>
      let y := r.pop (halfBlocks w)
      let pb := blockPieces a.splitB w.type y.1
      let l := a.anchorAt w o r (4 * r.group + j)
      let out := (List.range r.rows).map fun d =>
        a.dpuStep i l r.bound ((r.stage.getD d []).getD kb none) pb (r.lacc.getD (4 * d + j) none)
      let lacc := (List.range r.rows).foldl (fun l d => l.set (4 * d + j) (out.getD d (none, 0)).1) r.lacc
      pure ({ y.2 with lacc, slot := r.slot + 1, viol := r.viol + (out.map (·.2)).foldl (· + ·) 0
                       used := r.used + a.blockSlots i w kb }, none)

/-- Broadcasts of the next `n` slots. -/
def AD.slots (a : AD) (c : Ctx) (i w o : TD) (limit : Nat) (r : ArrayRun) : Nat → Op (ArrayRun × Option Fail)
  | 0 => pure (r, none)
  | n + 1 => do
    let y ← a.slotStep c i w o limit r
    if y.2.isSome then pure y else a.slots c i w o limit y.1 n

/-- Run the group's broadcasts up to slot `n`. -/
def AD.runTo (a : AD) (c : Ctx) (e : Nat) (tds : List TD) (r : ArrayRun) (n limit : Nat) : Op (ArrayRun × Option Fail) := do
  match ← attempt (a.startGroup c e r) with
  | .error f => pure (r, some f)
  | .ok r => a.slots c (tds.getD 0 default) (tds.getD 1 default) (tds.getD 2 default) limit r (n - r.slot)

/-- A group may run: the stage is loaded, a group is left, and a staging bank is open. -/
def ArrayRun.canRun (r : ArrayRun) : Bool := r.loaded && decide (4 * r.group < r.cols) && decide (r.full.length < 2)

/-- The array has broadcast every block before block `kb` of column `j` and waited for it; now it arrives, and the streamer has
read no further (R133). -/
def State.weightArrival (s : State) (e : Nat) (j kb : Nat) (env : Env) (act : Activity) : State :=
  match s.array e with
  | some r =>
    if !r.canRun ∨ r.k / 32 ≤ kb ∨ 4 * kb + j < r.slot then s
    else
      let n := 4 * r.group * (r.k / 32) + kb * r.width + min j r.width + 1
      s.onArray e env act (fun a c tds r => a.runTo c e tds r (4 * kb + j + 1) n) fun s _ => s
  | none => s

def execWeightBlockArrival (easel : Easel) (column : Fin 4) (block : BitVec 8) (env : Env) (act : Activity) (s : State) : Out :=
  .next (s.weightArrival easel column block.toNat env act)

/-- Operations in turn: how many ended well, and the failure that stopped them. -/
def tryEach : List (Op Unit) → Op (Nat × Option Fail)
  | [] => pure (0, none)
  | m :: r => do
    match ← attempt m with
    | .error f => pure (0, some f)
    | .ok _ =>
      let y ← tryEach r
      pure (y.1 + 1, y.2)

/-- The group's images leave the LACCs: to the spill area of a saving chunk, each written whole or not at all, and to the open
bank (R130, R142, R160). A LACC still marked empty, of a chunk that a clip left without terms, saves and converts as 0 (DESIGN
CHOICE, log entry 105). -/
def AD.stageGroup (a : AD) (c : Ctx) (e : Nat) (r : ArrayRun) : Op (ArrayRun × Option Fail) := do
  let saved ← tryEach (if a.saves then ((List.range (4 * r.rows)).filter fun n => n % 4 < r.width).map fun n =>
    a.writeSpill c e r.group (n / 4) (n % 4) ((r.lacc.getD n none).getD (.fin 0)) else [])
  let r := { r with wrote := r.wrote || saved.1 != 0 }
  if saved.2.isSome then pure (r, saved.2)
  else
    let cols := (List.range r.width).map fun j => (List.range r.rows).map fun d => (r.lacc.getD (4 * d + j) none).getD (.fin 0)
    let bank := r.bank ++ cols
    let r := { r with group := r.group + 1, slot := 0, lacc := [], bank }
    pure (if 32 ≤ bank.length ∨ r.cols ≤ 4 * r.group then { r with bank := [], full := r.full ++ [bank] } else r, none)

def State.groupComplete (s : State) (e : Nat) (env : Env) (act : Activity) : State :=
  match s.array e with
  | some r =>
    if !r.canRun then s
    else s.onArray e env act (fun a c tds r => do
      let y ← a.runTo c e tds r (4 * (r.k / 32)) r.streamed
      if y.2.isSome then pure y else a.stageGroup c e y.1) fun s _ => s.progress e
  | none => s

def execColumnGroupComplete (easel : Easel) (env : Env) (act : Activity) (s : State) : Out := .next (s.groupComplete easel env act)

/-! ### The outlet (R148 to R152) -/

/-- Convert one anchor block of a row, with its violations. -/
def AD.outBlock (a : AD) (c : Ctx) (i w o : TD) (r : ArrayRun) (l : Int) (n0 : Nat) (vals : List Acc) : BlockOut × Nat :=
  if a.lout = 1 then
    let x := vals.map (Acc.narrow (wireWidth o.type))
    (plainBlockOf (x.map fun y => y.1.encode (wireWidth o.type)), (x.filter (·.2)).length)
  else if a.mode = 5 then (plainBlockOf (vals.map fun v => v.encode 32 % 2 ^ 32), 0)
  else
    let g := gOutlet (if isMx i.type then i.tscale else one32) (if isMx w.type then w.tscale else one32) o.tscale
    let us := (List.range vals.length).map fun j => (((vals.getD j .nan).preScale l g), rndOf c o r.sr (n0 + j))
    ((if isMx o.type then mxBlock o.type us else wideBlock o.type us), 0)

/-- Write a block at linear element `n0`, cut at check tile boundaries. -/
def writeBlock (c : Ctx) (t : TD) (n0 : Nat) (b : BlockOut) : Op Unit := do
  let room := 4096 - n0 % 4096
  if b.codes.length ≤ room then writeTilePart c t (n0 / 4096) (n0 % 4096) [b]
  else
    writeTilePart c t (n0 / 4096) (n0 % 4096) [plainBlockOf (b.codes.take room)]
    writeTilePart c t (n0 / 4096 + 1) 0 [plainBlockOf (b.codes.drop room)]

/-- One more column value enters a row's statistics (R155); only a statistic of STATS sets STAT_RANGE (R156; DEDUCED, log
entry 90). -/
def RowStat.add (x : RowStat) (kinds : Nat) (l etop : Int) (v : Acc) : RowStat :=
  let ls := etop - 200
  let lq := 2 * etop - 200
  let t := termOf ls (ls + 230) (v.value l)
  let q := termOf lq (lq + 230) ((v.value l).mul (v.value l))
  { max := some (match x.max with | none => v | some y => y.order true v)
    sum := (x.sum.combine 256 t.1).1, sumsq := (x.sumsq.combine 256 q.1).1, range := x.range || bitOf kinds 1 && t.2 || bitOf kinds 2 && q.2 }

/-- The row-statistic record of row `d` (Table 4.11); COL_BEGIN is the global column (DEDUCED, log entry 90). -/
def AD.statBytes (a : AD) (c : Ctx) (o : TD) (r : ArrayRun) (l : Int) (d : Nat) : List Byte :=
  let x := r.stats.getD d {}
  let w (i : Nat) (v : Acc) : List Byte := if bitOf a.stats i then le 32 (v.encode 256) else le 32 0
  let row := o.globalIndex ((a.row0 + d) * o.inner) / max (nth o.shape (o.rank - 1)) 1
  w 0 (x.max.getD (.fin 0)) ++ w 1 x.sum ++ w 2 x.sumsq ++ le 4 o.tensorId.toNat ++ le 4 (opTag c).step.toNat ++ le 8 row
    ++ le 4 (o.global (o.rank - 1) a.col0) ++ le 4 r.cols ++ le 2 (code 16 l) ++ le 2 (code 16 r.etop) ++ le 1 (boolN x.range + 2 * a.stats) ++ le 3 0

/-- What follows the data of a bank: its census update, and after the last bank the row statistics. -/
def AD.afterBank (a : AD) (c : Ctx) (o w : TD) (r : ArrayRun) (bs : List BlockOut) : Op Unit := do
  censusUpdate c o.census (censusOf o.type (opTag c).step bs)
  if a.stats ≠ 0 ∧ r.cols ≤ 32 * r.banks then
    (List.range r.rows).forM fun d => writeAt c (a.statsBase + BitVec.ofNat 64 (128 * d)) (a.statBytes c o r (a.anchorAt w o r 0) d)

/-- Convert and write the oldest full bank, send its census update, and after the last bank write the row statistics. -/
def AD.writeBank (a : AD) (c : Ctx) (tds : List TD) (r : ArrayRun) : Op (ArrayRun × Option Fail) := do
  let i := tds.getD 0 default
  let w := tds.getD 1 default
  let o := tds.getD 2 default
  let bank := r.full.headD []
  let col := 32 * r.banks
  let r : ArrayRun := { r with full := r.full.drop 1, banks := r.banks + 1 }
  if a.saves then pure (r, none)
  else
    let l := a.anchorAt w o r col
    let vals (d : Nat) : List Acc := bank.map fun x => x.getD d .nan
    let out := (List.range r.rows).map fun d =>
      let n0 := (a.row0 + d) * o.inner + a.col0 + col
      (n0, a.outBlock c i w o r l n0 (vals d))
    let stats := if a.stats = 0 then [] else (List.range r.rows).map fun d => (vals d).foldl (fun x v => x.add a.stats l r.etop v) (r.stats.getD d {})
    let r : ArrayRun := { r with stats, viol := r.viol + (out.map (·.2.2)).foldl (· + ·) 0 }
    let y ← tryEach (out.map fun x => writeBlock c o x.1 x.2.1)
    let r : ArrayRun := { r with wrote := r.wrote || y.1 != 0 }
    if y.2.isSome then pure (r, y.2)
    else match ← attempt (a.afterBank c o w r (out.map (·.2.1))) with
      | .error f => pure (r, some f)
      | .ok _ => pure (r, none)

def State.bankWritten (s : State) (e : Nat) (env : Env) (act : Activity) : State :=
  match s.array e with
  | some r =>
    if r.full.isEmpty then s
    else s.onArray e env act (fun a c tds r => a.writeBank c tds r) fun s r =>
      let s := s.progress e
      if r.cols ≤ 32 * r.banks then s.endArray e { st := .ok } env else s
  | none => s

def execStagingBankWritten (easel : Easel) (env : Env) (act : Activity) (s : State) : Out := .next (s.bankWritten easel env act)

end Sys2Proof.Machine
end

