-- ==== Sys2Proof/Machine/Schedule.lean ====
section
/-! DEFINITION. Collective descriptors, their checks, and the schedule of a bulk operation as a pure function of what has arrived (09 R321 to R332, R341). -/
namespace Sys2Proof.Machine

/-! ### The collective descriptor (Table 9.3) -/

structure CD where
  kind  : Nat
  flags : Nat
  resv  : List Byte
  root  : Nat
  src   : Addr
  dst   : Addr
  route : Addr
  map   : Addr
  gate  : Addr
  ovf   : Addr
  statsBase : Addr
  stats : Nat
  resv2 : List Byte

def CD.ofBytes (l : List Byte) : CD :=
  { kind := fld l 0 1, flags := fld l 1 1, resv := slice l 2 2, root := fld l 4 4, src := BitVec.ofNat 64 (fld l 8 8)
    dst := BitVec.ofNat 64 (fld l 16 8), route := BitVec.ofNat 64 (fld l 24 8), map := BitVec.ofNat 64 (fld l 32 8)
    gate := BitVec.ofNat 64 (fld l 40 8), ovf := BitVec.ofNat 64 (fld l 48 8), statsBase := BitVec.ofNat 64 (fld l 64 8)
    stats := fld l 72 1, resv2 := slice l 73 23 }

def kAllReduce : Nat := 0x61
def kReduceScatter : Nat := 0x62
def kReduce : Nat := 0x63
def kAllGather : Nat := 0x64
def kBroadcast : Nat := 0x65
def kBarrier : Nat := 0x66
def kAnchorPre : Nat := 0x67
def kDispatch : Nat := 0x68
def kCombine : Nat := 0x69

def Coll.d (c : Coll) : CD := CD.ofBytes c.a.desc

def CD.qs (d : CD) : Bool := bitOf d.flags 0
def CD.reduces (d : CD) : Bool := d.kind == kAllReduce || d.kind == kReduceScatter || d.kind == kReduce
/-- The operation runs on the quickset path. -/
def CD.onQs (d : CD) : Bool := d.kind == kBarrier || d.kind == kAnchorPre || d.qs

/-- Which descriptors a member names; `holder` tells that it holds an expert. -/
def CD.needs (d : CD) (isRoot holder : Bool) : List Bool :=
  let k := d.kind
  let src := d.reduces || k == kAllGather || (k == kBroadcast && isRoot) || k == kAnchorPre || k == kDispatch || (k == kCombine && holder)
  let dst := k == kAllReduce || k == kReduceScatter || (k == kReduce && isRoot) || k == kAllGather || k == kBroadcast
    || (k == kDispatch && holder) || k == kCombine
  [src, dst, k == kDispatch, (k == kDispatch || k == kCombine) && holder, k == kCombine]

/-- Step 1 of R324, but for the overflow buffer. -/
def CD.fieldRows (d : CD) (size rank : Nat) (holder : Bool) : List (Bool × Status × Nat) :=
  let need := d.needs (rank == d.root) holder
  let ptr (i : Nat) (p : Addr) (may : Bool) : Bool := if need.getD i false then p == 0 else p != 0 && !may
  [ (2 ≤ d.flags || (d.qs && !(d.kind == kAllReduce || d.kind == kReduce || d.kind == kBarrier || d.kind == kAnchorPre)),
      .fieldReserved, 1),
    (!zeros d.resv, .fieldReserved, 2),
    (if d.kind = kReduce ∨ d.kind = kBroadcast then size ≤ d.root else d.root ≠ 0, .fieldReserved, 4),
    (ptr 0 d.src (d.kind == kBroadcast), .fieldReserved, 8),
    (ptr 1 d.dst (d.kind == kAnchorPre && d.dst == d.src), .fieldReserved, 16),
    (ptr 2 d.route false, .fieldReserved, 24), (ptr 3 d.map false, .fieldReserved, 32), (ptr 4 d.gate false, .fieldReserved, 40),
    (d.ovf ≠ 0 && !(d.kind == kDispatch && holder), .fieldReserved, 48),
    (d.stats ≠ 0 && (!d.reduces || 8 ≤ d.stats), .fieldReserved, 72),
    (d.stats ≠ 0 && d.statsBase == 0, .fieldReserved, 64),
    (!zeros d.resv2, .fieldReserved, 73) ]

/-! ### Shapes and shards (Table 9.4) -/

def TD.gshape (t : TD) : List Nat := t.shape.take t.rank
def TD.whole (t : TD) : Bool := (List.range t.rank).all fun i => t.kindOf i == 0 || t.kindOf i == 3
/-- The dimension along which a piece is sharded, when there is exactly one. -/
def TD.cutDim (t : TD) : Option Nat :=
  match (List.range t.rank).filter fun i => t.kindOf i == 1 || t.kindOf i == 2 with
  | [i] => some i
  | _ => none
/-- Block-sharded along dimension 0 by rank, whole along the others. -/
def TD.scattered (t : TD) (size rank : Nat) : Bool :=
  t.kindOf 0 == 1 && t.shardCount 0 == size && t.shardIdx 0 == rank &&
    (List.range t.rank).all fun i => i == 0 || t.kindOf i == 0 || t.kindOf i == 3
/-- Shard x = rank along one dimension. -/
def TD.sharded (t : TD) (size rank : Nat) : Bool :=
  match t.cutDim with
  | some i => t.shardCount i == size && t.shardIdx i == rank
  | none => false

/-- The same tensor's piece of another rank. -/
def TD.piece (t : TD) (r : Nat) : TD :=
  match t.cutDim with
  | some i => { t with shards := t.shards.set i (nth t.shards i / 2 ^ 16 * 2 ^ 16 + r) }
  | none => t

/-- Step 4 of R324: the first that fails names its descriptor. -/
def shapeFault (d : CD) (size rank : Nat) (src dst : TD) : Option Addr :=
  let need := d.needs (rank == d.root) true
  let both := need.getD 0 false && need.getD 1 false
  if both && (src.rank ≠ dst.rank || src.gshape ≠ dst.gshape) then some dst.ptr
  else if (d.kind = kAllReduce ∨ (d.kind = kReduce ∧ rank = d.root)) ∧ !dst.whole then some dst.ptr
  else if d.kind = kReduceScatter ∧ !dst.scattered size rank then some dst.ptr
  else if d.kind = kAllGather ∧ !src.sharded size rank then some src.ptr
  else if d.kind = kAllGather ∧ !dst.whole then some dst.ptr
  else none

/-- Bytes of TYPE, RANK and global shape that enter a signature (R322). -/
def sigBytes (t : TD) : List Byte := le 1 t.type ++ le 1 t.rank ++ t.gshape.flatMap (le 4)

/-- The descriptors of a signature; those that a kind leaves 0 on some members stay out of it (log entry 15). -/
def CD.sigUse (d : CD) : List Nat :=
  if d.kind = kAllReduce ∨ d.kind = kReduceScatter ∨ d.kind = kAllGather then [0, 1]
  else if d.kind = kReduce ∨ d.kind = kAnchorPre then [0]
  else if d.kind = kBroadcast then [1]
  else if d.kind = kDispatch then [0, 2]
  else if d.kind = kCombine then [1, 4] else []

def CD.signature (d : CD) (tds : List TD) : BitVec 32 :=
  crc32c (le 1 d.kind ++ le 4 d.root ++ d.sigUse.flatMap fun i => sigBytes (tds.getD i default))

/-- The signature as the descriptors in memory give it, before they are checked. -/
def CD.formSig (d : CD) (x : Ctx) : Op (BitVec 32) := do
  let tds ← ([d.src, d.dst, d.route, d.map, d.gate].zip (List.range 5)).mapM fun p =>
    if d.sigUse.contains p.2 then fetchTD x p.1 else pure default
  pure (d.signature tds)

/-! ### Owners of a reduction's shares (R327) -/

/-- First element and count of rank `x`'s share of dimension 0, in elements of the whole tensor. -/
def ownerRange (t : TD) (size x : Nat) : Nat × Nat :=
  let g := nth t.shape 0
  let u := if t.rank = 1 then 32 else 1
  let b := u * ceilDiv g (u * size)
  let inner := product (t.gshape.drop 1)
  (min (x * b) g * inner, (min ((x + 1) * b) g - min (x * b) g) * inner)

/-! ### Steps (R327) -/

/-- Ranks at the same positions along the axes. -/
def Group.agree (g : Group) (axes : List Nat) (a b : Nat) : Bool := axes.all fun x => g.pos a x == g.pos b x
def Group.agreeing (g : Group) (axes : List Nat) (r : Nat) : List Nat := (List.range g.size).filter (g.agree axes r)

/-- What a step does: scatter to owners, gather to all, gather to the root, spread from the root. -/
inductive Move where
  | scatter | gather | toRoot | spread
  deriving DecidableEq, Repr

structure SStep where
  move  : Move
  axis  : Nat
  /-- Axes whose positions fix which shares move. -/
  fixed : List Nat

def Group.steps (g : Group) (kind : Nat) : List SStep :=
  let a := g.masked
  let n := a.length
  let rs := (List.range n).map fun j => { move := .scatter, axis := a.getD j 0, fixed := a.take (j + 1) : SStep }
  let back (m : Move) := (List.range n).map fun j => { move := m, axis := a.getD (n - 1 - j) 0, fixed := a.take (n - j) : SStep }
  if kind = kAllReduce then rs ++ back .gather
  else if kind = kReduce then rs ++ back .toRoot
  else if kind = kAllGather then back .gather
  else if kind = kBroadcast then (List.range n).map fun j => { move := .spread, axis := a.getD j 0, fixed := a.drop (j + 1) }
  else rs

/-- Axes gathered before a step toward the root. -/
def Group.gathered (g : Group) (s : SStep) : List Nat := g.masked.filter fun a => !s.fixed.contains a

/-- Neighbours a member sends to in a step, and the ranks whose shares go to each. -/
def Group.sends (g : Group) (root r : Nat) (s : SStep) : List (Nat × List Nat) :=
  match s.move with
  | .scatter => (g.line r s.axis).map fun nb => (nb, g.agreeing s.fixed nb)
  | .gather => (g.line r s.axis).map fun nb => (nb, g.agreeing s.fixed r)
  | .toRoot => if g.agree (g.gathered s) r root && g.pos r s.axis != g.pos root s.axis then
      [(g.withPos r s.axis (g.pos root s.axis), g.agreeing s.fixed r)] else []
  | .spread => if g.agree (s.axis :: s.fixed) r root then (g.line r s.axis).map fun nb => (nb, [root]) else []

/-- Neighbours a member receives from, and the ranks whose shares come from each. -/
def Group.recvs (g : Group) (root r : Nat) (s : SStep) : List (Nat × List Nat) :=
  match s.move with
  | .scatter => (g.line r s.axis).map fun nb => (nb, g.agreeing s.fixed r)
  | .gather => (g.line r s.axis).map fun nb => (nb, g.agreeing s.fixed nb)
  | .toRoot => if g.agree (g.gathered s) r root && g.pos r s.axis == g.pos root s.axis then
      (g.line r s.axis).map fun nb => (nb, g.agreeing s.fixed nb) else []
  | .spread => if g.agree s.fixed r root && g.pos r s.axis != g.pos root s.axis then
      [(g.withPos r s.axis (g.pos root s.axis), [root])] else []

/-! ### Converted blocks (R328) -/

/-- What a block's conversion leaves, as one number beside its codes. -/
def BlockOut.pack (b : BlockOut) : Nat :=
  b.scale % 256 + 2 ^ 8 * boolN b.clampLo + 2 ^ 9 * boolN b.clampHi + 2 ^ 10 * (b.sats % 64) + 2 ^ 16 * boolN b.contrib.isSome

def BlockOut.unpack (t : Nat) (x : Nat × List Nat) : BlockOut :=
  let b := blockOf t (x.1 % 256) x.2
  if isMx t then { b with sats := bitsOf x.1 15 10, clampLo := bitOf x.1 8, clampHi := bitOf x.1 9
                          contrib := if bitOf x.1 16 then some (x.1 % 256) else none }
  else b

/-- L of an element by its global index. -/
def Coll.anchorAt (c : Coll) (src : TD) (gi : Nat) : Int :=
  c.anchors.getD (gi % max (nth src.shape (src.rank - 1)) 1 / 32) 0

def Coll.src (c : Coll) : TD := c.a.tds.getD 0 default
def Coll.dst (c : Coll) : TD := c.a.tds.getD 1 default

/-- Convert block `b` of the whole tensor from the combined words. -/
def Coll.convertBlock (c : Coll) (x : Ctx) (rank b : Nat) : BlockOut :=
  let src := c.src
  let dst := c.dst
  let codes := slice32 c.work (32 * b)
  if isWire dst.type then plainBlockOf codes
  else
    let g := gConvert one32 dst.tscale
    let l := c.anchorAt src (32 * b)
    let first := if dst.whole then 0 else (ownerRange dst (dst.shardCount 0) rank).1
    let us := (List.range codes.length).map fun j =>
      (((Acc.decode (wireWidth src.type) (codes.getD j 0)).getD .nan).preScale l g, rndOf x dst c.sr (32 * b + j - first))
    if isMx dst.type then mxBlock dst.type us else wideBlock dst.type us
where slice32 (l : List Nat) (n : Nat) : List Nat := (l.drop n).take 32

/-- Convert a range of elements into `blocks`. -/
def Coll.convert (c : Coll) (x : Ctx) (rank start len : Nat) : Coll :=
  { c with blocks := (List.range (len / 32)).foldl (fun m j =>
      let b := start / 32 + j
      let o := c.convertBlock x rank b
      Sparse.set none m b (some (o.pack, o.codes))) c.blocks }

/-! ### Streams: what one neighbour sends another in a step -/

/-- Element codes of shares in ascending order of owner. -/
def Coll.codeBytes (c : Coll) (size : Nat) (owners : List Nat) : List Byte :=
  pack c.src.type (owners.flatMap fun x => let r := ownerRange c.src size x; (c.work.drop r.1).take r.2)

/-- Combine (or take over) shares' codes; words at the finite limit are counted, a reserved encoding is marked (03 R87, R89). -/
def Coll.takeCodes (c : Coll) (size : Nat) (owners : List Nat) (combine : Bool) (bytes : List Byte) : Coll :=
  let w := wireWidth c.src.type
  let idx := owners.flatMap fun x => let r := ownerRange c.src size x; (List.range r.2).map (r.1 + ·)
  let codes := unpack c.src.type idx.length bytes
  (idx.zip codes).foldl (fun c p =>
    match Acc.decode w (c.work.getD p.1 0), Acc.decode w p.2 with
    | some a, some b =>
      if combine then
        let r := a.combine w b
        { c with work := c.work.set p.1 (r.1.encode w), a := { c.a with viol := c.a.viol + boolN r.2 } }
      else { c with work := c.work.set p.1 p.2 }
    | _, _ => { c with reserved := true }) c

/-- Converted blocks of shares. -/
def Coll.blockBytes (c : Coll) (size : Nat) (owners : List Nat) : List Byte :=
  owners.flatMap fun x =>
    let r := ownerRange c.dst size x
    (List.range (r.2 / 32)).flatMap fun j => match Sparse.get none c.blocks (r.1 / 32 + j) with
      | some b => pack c.dst.type b.2 ++ le 3 b.1
      | none => List.replicate (typeBytes c.dst.type 32 + 3) 0

def Coll.takeBlocks (c : Coll) (size : Nat) (owners : List Nat) (bytes : List Byte) : Coll :=
  let bs := owners.flatMap fun x => let r := ownerRange c.dst size x; (List.range (r.2 / 32)).map (r.1 / 32 + ·)
  let n := typeBytes c.dst.type 32
  { c with blocks := (List.range bs.length).foldl (fun m i =>
      let l := slice bytes (i * (n + 3)) (n + 3)
      Sparse.set none m (bs.getD i 0) (some (fld l n 3, codes32 c.dst.type l n))) c.blocks }
where codes32 (t : Nat) (l : List Byte) (n : Nat) : List Nat := Sys2Proof.Machine.unpack t 32 (l.take n)

/-- Tiles of ranks' pieces: payload and sidecar, unchanged (R330). -/
def Coll.tileBytes (c : Coll) (owners : List Nat) : List Byte :=
  owners.flatMap fun x => (c.tiles.filter fun t => t.1 == x).flatMap fun t => t.2.2.1 ++ t.2.2.2

/-- Cut the tiles of piece `t` of rank `r` out of a stream; what is left of it. -/
def takePiece (t : TD) (r : Nat) (bytes : List Byte) : List (Nat × Nat × List Byte × List Byte) × List Byte :=
  (List.range t.tiles).foldl (fun a i =>
    let n := typeBytes t.type (t.tileCount i)
    (a.1 ++ [(r, i, a.2.take n, slice a.2 n 160)], a.2.drop (n + 160))) ([], bytes)

def Coll.takeTiles (c : Coll) (owners : List Nat) (bytes : List Byte) : Coll :=
  let out := owners.foldl (fun a r => let p := takePiece (c.src.piece r) r a.2; (a.1 ++ p.1, p.2)) ([], bytes)
  { c with tiles := c.tiles ++ out.1 }

/-- The root's piece, preceded by its sharding, for a spread. -/
def Coll.spreadBytes (c : Coll) (root : Nat) : List Byte :=
  le 2 c.src.shardKind ++ (c.src.shards.flatMap (le 4)) ++ c.tileBytes [root]

def Coll.takeSpread (c : Coll) (root : Nat) (bytes : List Byte) : Coll :=
  let src : TD := { c.dst with shardKind := fld bytes 0 2, shards := (List.range 6).map fun i => fld bytes (2 + 4 * i) 4 }
  { c with a := { c.a with tds := c.a.tds.set 0 src }, tiles := (takePiece src root (bytes.drop 26)).1 }

/-- Rows of a token exchange bound for ranks: rank and slot, token, position, length, bytes. -/
def Coll.rowBytes (c : Coll) (owners : List Nat) : List Byte :=
  let l := c.rows.filter fun r => owners.contains (r.1 / 1024)
  le 4 l.length ++ l.flatMap fun r => le 4 r.1 ++ le 4 r.2.1 ++ le 4 r.2.2.1 ++ le 4 r.2.2.2.length ++ r.2.2.2

def takeRowsN : Nat → List Byte → List (Nat × Nat × Nat × List Byte)
  | 0, _ => []
  | n + 1, l => (fld l 0 4, fld l 4 4, fld l 8 4, slice l 16 (fld l 12 4)) :: takeRowsN n (l.drop (16 + fld l 12 4))

def Coll.takeRows (c : Coll) (bytes : List Byte) : Coll := { c with rows := c.rows ++ takeRowsN (fld bytes 0 4) (bytes.drop 4) }

/-- The stream to a neighbour. -/
def Coll.stream (c : Coll) (g : Group) (s : SStep) (owners : List Nat) : List Byte :=
  let k := c.d.kind
  if k = kDispatch ∨ k = kCombine then c.rowBytes owners
  else if k = kAllGather then c.tileBytes owners
  else if k = kBroadcast then c.spreadBytes c.d.root
  else match s.move with
    | .gather => c.blockBytes g.size owners
    | _ => c.codeBytes g.size owners

/-- A neighbour's stream is used. -/
def Coll.take (c : Coll) (g : Group) (s : SStep) (owners : List Nat) (bytes : List Byte) : Coll :=
  let k := c.d.kind
  if k = kDispatch ∨ k = kCombine then c.takeRows bytes
  else if k = kAllGather then c.takeTiles owners bytes
  else if k = kBroadcast then c.takeSpread c.d.root bytes
  else match s.move with
    | .gather => c.takeBlocks g.size owners bytes
    | m => c.takeCodes g.size owners (m == .scatter) bytes

/-- Chunks of up to 127 words; every sender sends at least one, the last marked (R325). -/
def cutChunks (rank step : Nat) (l : List Byte) : List OutChunk :=
  let ps := match chunks 4064 l with | [] => [[]] | p => p
  (List.range ps.length).map fun i =>
    let p := ps.getD i []
    { rank, step, idx := i, last := i + 1 == ps.length, payload := p ++ List.replicate (ceilDiv p.length 32 * 32 - p.length) 0 }

/-- A step begins: its chunks stand ready, its senders are awaited; rows that are sent leave. -/
def Coll.enter (c : Coll) (g : Group) : Coll :=
  match (g.steps c.d.kind)[c.step]? with
  | none => { c with await := [] }
  | some s =>
    let out := g.sends c.d.root g.rank s
    let gone := out.flatMap (·.2)
    { c with outq := c.outq ++ out.flatMap fun o => cutChunks o.1 c.step (c.stream g s o.2)
             await := (g.recvs c.d.root g.rank s).map (·.1)
             rows := if s.move = .scatter then c.rows.filter fun r => !gone.contains (r.1 / 1024) else c.rows }

/-- All bytes of a stream that has come whole. -/
def RxStream.whole (r : RxStream) : Option (List Byte) :=
  match r.last with
  | none => none
  | some n => if (List.range (n + 1)).all fun i => r.chunks.any fun x => x.1 == i then
      some ((List.range (n + 1)).flatMap fun i => ((r.chunks.find? fun x => x.1 == i).map (·.2)).getD []) else none

/-- The last scatter step is over: the owner converts its share (R328). -/
def Coll.leave (c : Coll) (g : Group) (x : Ctx) : Coll :=
  let n := g.masked.length
  if c.step + 1 = n ∧ (c.d.kind = kAllReduce ∨ c.d.kind = kReduceScatter) then
    let r := ownerRange c.src g.size g.rank
    c.convert x g.rank r.1 r.2
  else c

/-- Use what has arrived, step by step. -/
def Coll.advance (c : Coll) (g : Group) (x : Ctx) : Nat → Coll
  | 0 => c
  | fuel + 1 =>
    match (g.steps c.d.kind)[c.step]? with
    | none => c
    | some s =>
      if c.await.isEmpty then (({ c.leave g x with step := c.step + 1 } : Coll).enter g).advance g x fuel
      else
        match c.await.findSome? fun nb => match c.rx.find? fun r => r.step == c.step && r.rank == nb with
            | some r => r.whole.map fun b => (nb, b)
            | none => none with
        | none => c
        | some (nb, bytes) =>
          let owners := (((g.recvs c.d.root g.rank s).find? fun r => r.1 == nb).map (·.2)).getD []
          let c := c.take g s owners bytes
          ({ c with await := c.await.filter (· ≠ nb), rx := c.rx.filter fun r => !(r.step == c.step && r.rank == nb) } : Coll).advance g x fuel

def Coll.fuel (c : Coll) (g : Group) : Nat := c.rx.length + (g.steps c.d.kind).length + 1

/-- Every step is over. -/
def Coll.ran (c : Coll) (g : Group) : Bool := decide ((g.steps c.d.kind).length ≤ c.step)

/-- Neighbours still to send to this member or to receive from it (R333). -/
def Coll.pendingWith (c : Coll) (g : Group) : List Nat :=
  let later := (g.steps c.d.kind).drop (if c.a.started then c.step + 1 else 0)
  (c.await ++ c.outq.map (·.rank)
    ++ later.flatMap fun s => (g.sends c.d.root g.rank s).map (·.1) ++ (g.recvs c.d.root g.rank s).map (·.1)).eraseDups

/-! ### The destination (R330, R331) -/

/-- Local coordinates of global ones in a piece that holds them. -/
def TD.localOf (t : TD) (cs : List Nat) : Option (List Nat) :=
  (List.range t.rank).mapM fun i =>
    let x := nth cs i
    match t.kindOf i with
    | 1 => if x / max (t.blockLen i) 1 = t.shardIdx i then some (x - t.shardIdx i * t.blockLen i) else none
    | 2 => if x % t.shardCount i = t.shardIdx i then some (x / t.shardCount i) else none
    | _ => some x

/-- Rank and local element of the gathered source that holds a global element. -/
def Coll.find (c : Coll) (gi : Nat) : Option (Nat × Nat) :=
  let src := c.src
  let cs := unravel src.gshape gi
  let r := if c.d.kind = kBroadcast then c.d.root
    else match src.cutDim with
      | some i => if src.kindOf i = 1 then nth cs i / max (src.blockLen i) 1 else nth cs i % src.shardCount i
      | none => 0
  let p := if c.d.kind = kBroadcast then src else src.piece r
  (p.localOf cs).map fun l => (r, ravel p.extents l)

/-- Code and scale byte of a gathered element. -/
def Coll.gathered (c : Coll) (gi : Nat) : Option (Nat × Nat) := do
  let (r, n) ← c.find gi
  let t ← c.tiles.find? fun t => t.1 == r && t.2.1 == n / 4096
  let p := if c.d.kind = kBroadcast then c.src else c.src.piece r
  let codes := unpack p.type (p.tileCount (n / 4096)) t.2.2.1
  pure (codes.getD (n % 4096) 0, ((Sidecar.ofBytes t.2.2.2).scales.getD (n % 4096 / 32) 0).toNat)

/-- The source tile that a destination tile copies whole. -/
def Coll.carried (c : Coll) (i : Nat) : Option (List Byte × List Byte) := do
  let dst := c.dst
  let len := dst.tileCount i
  let g0 := dst.globalIndex (4096 * i)
  let (r, n) ← c.find g0
  let p := if c.d.kind = kBroadcast then c.src else c.src.piece r
  let t ← c.tiles.find? fun t => t.1 == r && t.2.1 == n / 4096
  if n % 4096 = 0 ∧ p.tileCount (n / 4096) = len ∧
      (List.range len).all fun j => p.globalIndex (n + j) == g0 + j && dst.globalIndex (4096 * i + j) == g0 + j then
    pure (t.2.2.1, t.2.2.2)
  else none

/-- Write destination tile `i`. -/
def Coll.writeTile (c : Coll) (x : Ctx) (i : Nat) : Op Unit := do
  let dst := c.dst
  let step := (opTag x).step
  let n := dst.tileCount i
  if c.d.reduces then
    let bs := (List.range (ceilDiv n 32)).map fun j =>
      BlockOut.unpack dst.type ((Sparse.get none c.blocks (dst.globalIndex (4096 * i + 32 * j) / 32)).getD (0, List.replicate 32 0))
    writeWhole x dst i (outOf dst.type bs)
    censusUpdate x dst.census (censusOf dst.type step bs)
  else
    let el := (List.range n).map fun j => c.gathered (dst.globalIndex (4096 * i + j))
    if el.any (·.isNone) then failOp .bounds dst.ptr 2
    else
      let el := el.map (·.getD (0, 0))
      let bs := (chunks 32 el).map fun b => blockOf dst.type ((b.getD 0 (0, 0)).2) (b.map (·.1))
      match c.carried i with
      | some (p, sb) =>
        let side := Sidecar.ofBytes sb
        let smudged ← noteSide x side
        if smudged then failOp .smudged (dst.sidecarAddr i) 4
        writeElems x dst (4096 * i) n p
        writeAt x (dst.sidecarAddr i) { side with carrier := opTag x, carrierAttempt := x.attempt }.bytes
      | none => writeWhole x dst i (outOf dst.type bs)
      censusUpdate x dst.census (censusOf dst.type step bs)

/-- The row-statistic records of rows `r0` to `r0 + n - 1` (R329). -/
def Coll.writeStats (c : Coll) (x : Ctx) (r0 n : Nat) : Op Unit :=
  (List.range n).forM fun j => do
    let src := c.src
    let w := wireWidth src.type
    let inner := nth src.shape (src.rank - 1)
    let l := c.anchors.getD 0 0
    let row := r0 + j
    let st : RowStat := ((c.work.drop (row * inner)).take inner).foldl (fun (a : RowStat) v => a.add c.d.stats l c.etop ((Acc.decode w v).getD .nan)) {}
    let put (i : Nat) (v : Acc) : List Byte := if bitOf c.d.stats i then le 32 (v.encode 256) else le 32 0
    writeAt x (c.d.statsBase + BitVec.ofNat 64 (128 * j))
      (put 0 (st.max.getD (.fin 0)) ++ put 1 st.sum ++ put 2 st.sumsq ++ le 4 src.tensorId.toNat ++ le 4 (opTag x).step.toNat ++ le 8 row
        ++ le 4 0 ++ le 4 inner ++ le 2 (code 16 l) ++ le 2 (code 16 c.etop) ++ le 1 (boolN st.range + 2 * c.d.stats) ++ le 3 0)

/-- Rows whose statistics this member writes: its share's, or all of them at a member that converts the whole of a quickset
result, which has no shares. -/
def Coll.statRows (c : Coll) (size rank : Nat) (all : Bool) : Nat × Nat :=
  let inner := max (nth c.src.shape (c.src.rank - 1)) 1
  if all then (0, product c.src.gshape / inner)
  else let r := ownerRange c.src size rank; (r.1 / inner, r.2 / inner)

/-! ### Checks and the member's contribution (R324) -/

/-- Checks of a reduction's statistics that R329 names, beside those of the descriptor's own fields. -/
def CD.statStatus (d : CD) (dp : Dp) (x : Ctx) (src dst : TD) (etop : Int) (rows : Nat) (hasDst : Bool) : Status :=
  if d.stats = 0 then .ok
  else if (hasDst && isWire dst.type) || src.rank < 2 || etop == -32768 then .fieldReserved
  else if d.statsBase.toNat % 32 ≠ 0 then .align
  else if rows = 0 then .ok
  else match resolve dp.coord d.statsBase with
    | some (.here _ _) =>
      if rangeAt dp x d.statsBase (128 * rows) true ≠ .ok then .bounds
      else
        let fa := areaOf dp.coord d.statsBase (128 * rows)
        if meets fa (footprint dp.coord src [(0, src.total)]) || (hasDst && meets fa (footprint dp.coord dst [(0, dst.total)])) then .overlap
        else .ok
    | _ => .bounds

/-- Read a whole piece: its codes and the tiles as they stand. -/
def readPiece (x : Ctx) (t : TD) : Op (List Nat × List (List Byte × List Byte)) := do
  let ts ← (List.range t.tiles).mapM fun i => checkTile x t i
  pure ((List.range t.tiles).flatMap fun i => unpack t.type (t.tileCount i) ((ts[i]?).map (·.payload) |>.getD []),
    ts.map fun t => (t.payload, t.side.bytes))

def takeDist (x : Ctx) (written : Bool) (p : Addr) : Op TD := do
  let t ← takeTD x written p
  if t.cls ≠ 2 then failOp .fieldReserved p 2 0 else pure t

/-- Checks of a reduction and its words. The reduction length it sums is the count of members' partial sums (03 R104; DEDUCED,
log entry 99). -/
def Coll.prepReduce (c : Coll) (x : Ctx) (size rank : Nat) : Op Coll := do
  let d := c.d
  let hasDst := d.kind != kReduce || rank == d.root
  let src ← takeDist x false d.src
  let dst ← if hasDst then takeDist x true d.dst else pure default
  if !isWire src.type then failOp .fieldReserved d.src 2 1
  if hasDst ∧ !(dst.type == src.type || isMx dst.type || isWide dst.type) then failOp .fieldReserved d.dst 2 1
  if d.qs ∧ (src.type ≠ 0x21 ∨ product src.gshape ≠ 32) then failOp .fieldReserved c.a.entry.desc 1 1
  let t ← takeTable x src.anchor { tableUse x src with reduce := some size }
  if t.profile ≠ 2 ∨ t.wireType ≠ src.type then failOp .fieldReserved src.anchor 3 16
  match shapeFault d size rank src dst with
  | some a => failOp .bounds a 2
  | none => pure ()
  let dp ← get
  if hasDst ∧ meets (footprint dp.coord dst [(0, dst.total)]) (footprint dp.coord src [(0, src.total)]) then failOp .overlap dst.ptr 2
  let c : Coll := { c with a := { c.a with tds := [src, dst] }, sig := d.signature [src, dst], anchors := t.entry, w := wireWidth src.type
                           bound := t.bound 0, etop := t.etop, crc := t.crc }
  let st := d.statStatus dp x src dst t.etop (if d.qs && !hasDst then 0 else (c.statRows size rank d.qs).2) hasDst
  if st ≠ .ok then failOp st c.a.entry.desc 1 64
  let sr ← if hasDst ∧ dst.gradient ∧ !isWire dst.type then (do let r ← takeSr x dst 0; pure (some r)) else pure none
  let (codes, _) ← readPiece x src
  if codes.any fun v => reservedWire src.type v then failOp .checkTile src.sidecar 4
  let zero := List.replicate (product src.gshape) 0
  let work := (List.range codes.length).foldl (fun w n => w.set (src.globalIndex n) (codes.getD n 0)) zero
  pure { c with work, sr }

/-- Checks of a gather or a broadcast and the member's tiles. -/
def Coll.prepCopy (c : Coll) (x : Ctx) (size rank : Nat) : Op Coll := do
  let d := c.d
  let hasSrc := d.kind == kAllGather || rank == d.root
  let src ← if hasSrc then takeDist x false d.src else pure default
  let dst ← takeDist x true d.dst
  if hasSrc ∧ (src.type ≠ dst.type ∨ src.tscale ≠ dst.tscale) then failOp .fieldReserved d.dst 2 1
  if hasSrc then
    match shapeFault d size rank src dst with
    | some a => failOp .bounds a 2
    | none => pure ()
  let dp ← get
  if hasSrc ∧ meets (footprint dp.coord dst [(0, dst.total)]) (footprint dp.coord src [(0, src.total)]) then failOp .overlap dst.ptr 2
  let c : Coll := { c with a := { c.a with tds := [src, dst] }, sig := d.signature [src, dst] }
  if hasSrc then
    let (_, ts) ← readPiece x src
    pure { c with tiles := (List.range ts.length).map fun i => (rank, i, ts.getD i ([], [])) }
  else pure c

end Sys2Proof.Machine
end

