-- ==== Sys2Proof/Machine/Collect.lean ====
section
/-! DEFINITION. Communication queues at work: acceptance, bulk collectives, chunks, credits, failures (09 R316 to R333, R337, R338). -/
namespace Sys2Proof.Machine

/-! ### Chunks (Table 9.5) -/

def ckData : Nat := 1
def ckCredit : Nat := 2
def ckResend : Nat := 3
def ckFail : Nat := 4

/-- A chunk's data: the header with its CRC, then the payload words. -/
def chunkBytes (id seq sig : BitVec 32) (rank chunk kind : Nat) (tag : Tag) (attempt : BitVec 8) (step : Nat) (anchorCrc : BitVec 32)
    (payload : List Byte) : List Byte :=
  let h := le 4 id.toNat ++ le 4 seq.toNat ++ le 4 sig.toNat ++ le 4 rank ++ le 4 chunk ++ le 1 kind ++ le 1 tag.epoch.toNat
    ++ le 1 attempt.toNat ++ le 1 step ++ le 4 anchorCrc.toNat
  h ++ le 4 (crc32c (h ++ payload)).toNat ++ payload

/-- A chunk as received. -/
structure Chunk where
  id      : BitVec 32
  seq     : BitVec 32
  sig     : BitVec 32
  rank    : Nat
  chunk   : Nat
  kind    : Nat
  epoch   : BitVec 8
  attempt : BitVec 8
  step    : Nat
  anchorCrc : BitVec 32
  good    : Bool
  payload : List Byte

def Chunk.ofBytes (l : List Byte) : Chunk :=
  { id := BitVec.ofNat 32 (fld l 0 4), seq := BitVec.ofNat 32 (fld l 4 4), sig := BitVec.ofNat 32 (fld l 8 4), rank := fld l 12 4
    chunk := fld l 16 4, kind := fld l 20 1, epoch := BitVec.ofNat 8 (fld l 21 1), attempt := BitVec.ofNat 8 (fld l 22 1)
    step := fld l 23 1, anchorCrc := BitVec.ofNat 32 (fld l 24 4)
    good := crc32c (l.take 28 ++ l.drop 32) == BitVec.ofNat 32 (fld l 28 4), payload := l.drop 32 }

def Chunk.idx (c : Chunk) : Nat := c.chunk % 2 ^ 31
def Chunk.last (c : Chunk) : Bool := decide (2 ^ 31 ≤ c.chunk)

/-! ### Sending -/

/-- The queue's number on another member. -/
def Group.queueAt (g : Group) (q r : Nat) : Nat := let x := Sparse.get 64 g.peerQ r; if x = 64 then q else x

/-- First slot that member `r` assigned to this one. -/
def Group.slotAt (g : Group) (r : Nat) : Nat := (g.neighbours r).idxOf g.rank * g.slots

/-- A packet to the member of rank `r`. -/
def State.memberPacket (s : State) (g : Group) (r op : Nat) (addr : Addr) (data : List Byte) : Packet :=
  { op := BitVec.ofNat 8 op, flags := 0, length := BitVec.ofNat 16 (data.length / 32), dest := coord32 (s.holderOf g.part (g.coord r))
    src := coord32 s.dp.coord, job := g.job, txn := 0, addr, status := 0, hops := 0, resv := 0, data }

def State.sendChunk (s : State) (q : Nat) (g : Group) (r slot : Nat) (data : List Byte) : State × Status :=
  s.sendPacket (s.memberPacket g r opChunk (BitVec.ofNat 64 (g.queueAt q r + 2 ^ 6 * (g.slotAt r + slot))) data)

/-- A chunk without payload about the operation `seq`. -/
def State.sendControl (s : State) (q : Nat) (g : Group) (r : Nat) (seq sig : BitVec 32) (kind chunk step : Nat) (tag : Tag)
    (attempt : BitVec 8) : State :=
  (s.sendChunk q g r 0 (chunkBytes g.id seq sig g.rank chunk kind tag attempt step 0 [])).1

/-- The bytes of a data chunk of the current operation. -/
def Coll.chunk (c : Coll) (g : Group) (o : OutChunk) : List Byte :=
  chunkBytes g.id c.a.seq c.sig g.rank (o.idx + 2 ^ 31 * boolN o.last) ckData c.a.entry.tag c.a.entry.attempt o.step c.crc o.payload

/-! ### The send log (R338) -/

/-- The first number at or above `n` that is not in use. -/
def firstFree (used : Nat → Bool) : Nat → Nat → Option Nat
  | 0, _ => none
  | fuel + 1, n => if used n then firstFree used fuel (n + 1) else some n

/-- Slots of Ovind's working areas that the send logs spill to: 4,096 in each package (DESIGN CHOICE, log entry 100). -/
def spillSlot (s : State) (i : Nat) : Addr := ownAddr s.dp.coord 0 (workOff (i / 4096) + 0x100000 + i % 4096 * 4096)

/-- Where a chunk is logged: a slot of the staging area that no neighbour received, else one of Ovind's working area. -/
def State.logSlot (s : State) (q : Nat) (g : Group) : Option Addr :=
  let held (a : Addr) : Bool := (s.cq q).log.any fun l => l.loc == some a
  let slot (i : Nat) : Addr := g.staging + BitVec.ofNat 64 (4096 * i)
  let first := (g.neighbours g.rank).length * g.slots
  match firstFree (fun i => held (slot i)) (g.bytes / 4096 - first) first with
  | some i => some (slot i)
  | none => (firstFree (fun i => s.cqs.any fun c => c.2.log.any fun l => l.loc == some (spillSlot s i)) 65536 0).map (spillSlot s)

/-- Does a log entry hold this chunk of an operation? -/
def LogChunk.holds (l : LogChunk) (seq : BitVec 32) (rank step idx : Nat) : Bool :=
  l.seq == seq && l.out.rank == rank && l.out.step == step && l.out.idx == idx

/-- The chunk's bytes `b` go into the log; a copy of an earlier attempt gives up its slot. -/
def State.logChunk (s : State) (q : Nat) (g : Group) (c : Coll) (o : OutChunk) (b : List Byte) : State :=
  let old := (s.cq q).log.find? fun l => l.holds c.a.seq o.rank o.step o.idx
  let loc := match old with | some l => l.loc | none => s.logSlot q g
  let s := match loc with
    | some a => (s.runOp {} (writeAt (s.ctx {} .ovind) a b)).1
    | none => s
  s.updCq q fun y => { y with
    log := (y.log.filter fun l => !l.holds c.a.seq o.rank o.step o.idx) ++
      [{ seq := c.a.seq, sig := c.sig, crc := BitVec.ofNat 32 (fld b 28 4), loc, anchor := c.crc, tag := c.a.entry.tag, out := o }] }

/-- The logged payload, when the copy in memory is still the chunk that was sent. -/
def State.logged (s : State) (l : LogChunk) : State × Option (List Byte) :=
  match l.loc with
  | none => (s, none)
  | some a =>
    let r := s.runOp {} (readAt (s.ctx {} .ovind) a (32 + l.out.payload.length))
    (r.1, match r.2 with
      | .ok b => if (Chunk.ofBytes b).good && BitVec.ofNat 32 (fld b 28 4) == l.crc then some (b.drop 32) else none
      | .error _ => none)

/-- A chunk to send, with the payload of the log when a replay reaches a chunk that the log holds. -/
def State.fromLog (s : State) (q : Nat) (c : Coll) (o : OutChunk) : State × OutChunk :=
  match (s.cq q).log.find? fun l => l.holds c.a.seq o.rank o.step o.idx with
  | none => (s, o)
  | some l =>
    let r := s.logged l
    (r.1, match r.2 with | some p => { o with payload := p } | none => o)

/-- Send what the credits cover (R318), each chunk logged (R338); the first failure of a send stops. -/
def State.pumpN (s : State) (q : Nat) (g : Group) : Nat → List OutChunk → List OutChunk → State × Option Status
  | 0, held, rest => (s.updColl q fun c => { c with outq := held ++ rest }, none)
  | _ + 1, held, [] => (s.updColl q fun c => { c with outq := held }, none)
  | n + 1, held, o :: rest =>
    match (s.cq q).cur with
    | none => (s, none)
    | some c =>
      if Sparse.get 0 (s.cq q).credits o.rank = 0 then s.pumpN q g n (held ++ [o]) rest
      else
        let f := s.fromLog q c o
        let b := c.chunk g f.2
        let r := f.1.sendChunk q g o.rank (o.idx % max g.slots 1) b
        if r.2 ≠ .ok then (r.1.updColl q fun c => { c with outq := held ++ o :: rest }, some r.2)
        else
          let s := (r.1.logChunk q g c f.2 b).updCq q fun y => { y with credits := Sparse.upd 0 y.credits o.rank (· - 1) }
          let s := s.updColl q fun c => { c with owed := Sparse.upd 0 c.owed o.rank (· + 1), sent := c.sent + 1 }
          s.pumpN q g n held rest

def State.pump (s : State) (q : Nat) (g : Group) : State × Option Status :=
  match (s.cq q).cur with
  | some c => s.pumpN q g c.outq.length [] c.outq
  | none => (s, none)

/-! ### Failures (R323, R333) -/

/-- A quickset message to a rank (R334): QOP, queue, QSEQ, part, the low 24 bits of the signature. -/
def State.sendQs (s : State) (q : Nat) (g : Group) (r qop : Nat) (seq sig : BitVec 32) (part : Nat) (data : List Byte) : State × Status :=
  let d := data ++ List.replicate (max 1 (ceilDiv data.length 32) * 32 - data.length) 0
  let p := s.memberPacket g r opQs
    (BitVec.ofNat 64 (qop + 2 ^ 8 * g.queueAt q r + 2 ^ 14 * seq.toNat + 2 ^ 46 * part)) d
  s.sendPacket { p with txn := sig.setWidth 16, flags := BitVec.ofNat 8 (sig.toNat / 2 ^ 16) }

def qopBarrier : Nat := 1
def qopMax : Nat := 2
def qopSum : Nat := 3
def qopCensus : Nat := 4
def qopFail : Nat := 5

/-- FAIL on the quickset path to every other member. -/
def State.failAll (s : State) (q : Nat) (g : Group) (seq sig : BitVec 32) (st : Status) : State :=
  ((List.range g.size).filter (· ≠ g.rank)).foldl (fun s r => (s.sendQs q g r qopFail seq sig 0 (le 2 st.toCode.toNat)).1) s

/-- FAIL to the members that await something of the operation: chunks to the neighbours of a bulk operation, messages to the
members of a quickset one. -/
def State.failNotice (s : State) (q : Nat) (g : Group) (c : Coll) (st : Status) : State :=
  if c.d.onQs then s.failAll q g c.a.seq c.sig st
  else (c.pendingWith g).foldl (fun s r =>
    s.sendControl q g r c.a.seq c.sig ckFail st.toCode.toNat c.step c.a.entry.tag c.a.entry.attempt) s

/-- The operation fails on this member: notices, then the completion. -/
def State.cqFail (s : State) (q : Nat) (f : Fail) (env : Env) : State :=
  match (s.cq q).cur, (s.cq q).group with
  | some c, some g => (s.failNotice q g c f.st).cqComplete q f env
  | _, _ => s

/-- A stopped queue accepts no further entry. -/
def State.stopQueue (s : State) (q : Nat) : State := s.updCq q fun c => { c with st := .stopped }

/-- The operation ends with an order fault that another member has told, which a bulk operation forwards (R323, R333). -/
def State.orderStop (s : State) (q : Nat) (env : Env) : State :=
  let part := (s.cq q).part
  let s := match (s.cq q).cur, (s.cq q).group with
    | some c, some g => if c.d.onQs then s else s.failNotice q g c .collOrder
    | _, _ => s
  let s := (s.cqComplete q { st := .collOrder } env).stopQueue q
  let s := s.updCq q fun c => { c with fOrder := c.fOrder.hwSet }
  match part with
  | some k => s.jobStatus k Status.collOrder.toCode
  | none => s

/-- This member detects the order fault first: it answers the sender, tells every member and its schedule neighbours, and logs
(R322, R323, R333). -/
def State.orderFault (s : State) (q r : Nat) (bulk : Bool) (env : Env) : State :=
  match (s.cq q).cur, (s.cq q).group with
  | some c, some g =>
    let s := if bulk then s.sendControl q g r c.a.seq c.sig ckFail Status.collOrder.toCode.toNat c.step c.a.entry.tag c.a.entry.attempt else s
    let s := (s.failAll q g c.a.seq c.sig .collOrder).orderStop q env
    s.groupRecord g.job g.id .collOrder
  | _, _ => s

/-! ### Bulk progress -/

/-- Use what has arrived, send what is ready, write the destination when every step is over. -/
def State.writeDest (s : State) (q : Nat) (x : Ctx) : List Nat → State × Option Fail
  | [] => (s, none)
  | i :: r =>
    match (s.cq q).cur with
    | none => (s, none)
    | some c =>
      let y := s.runOp {} (c.writeTile x i)
      match y.2 with
      | .error f => (y.1, some f)
      | .ok _ => (y.1.updColl q fun c => { c with a := { c.a with wrote := true } }).writeDest q x r

/-- The whole destination piece, then the statistics (R329, R331). -/
def State.finishBulk (s : State) (q : Nat) (g : Group) (env : Env) : State :=
  match (s.cq q).cur with
  | none => s
  | some c =>
    let x := s.cqCtx q c.a.entry {}
    let toRoot := c.d.kind == kReduce
    let c := if toRoot ∧ g.rank = c.d.root then c.convert x g.rank 0 (product c.src.gshape) else c
    let s := s.updColl q fun _ => c
    let hasDst := !toRoot || g.rank == c.d.root
    let r := if hasDst then s.writeDest q x (List.range c.dst.tiles) else (s, none)
    match r.2 with
    | some f => r.1.cqFail q f env
    | none =>
      let rows := c.statRows g.size g.rank false
      let y := if c.d.stats = 0 then (r.1, Except.ok ()) else r.1.runOp {} (c.writeStats x rows.1 rows.2)
      match y.2 with
      | .error f => y.1.cqFail q f env
      | .ok _ => y.1.updColl q fun c => { c with written := true }

/-- The steps of an operation as far as they go; a reserved encoding from a link fails it (03 R87); `fin` is what a kind does
when every step is over. -/
def State.runBulk (s : State) (q : Nat) (env : Env) (fin : State → Group → State) : State :=
  match (s.cq q).cur, (s.cq q).group with
  | some c, some g =>
    let x := s.cqCtx q c.a.entry {}
    let c := c.advance g x (c.fuel g)
    let s := s.updColl q fun _ => c
    if c.reserved then s.cqFail q { st := .checkTile } env
    else
      let p := s.pump q g
      match p.2 with
      | some st => p.1.cqFail q { st } env
      | none =>
        match (p.1.cq q).cur with
        | some c => if c.ran g && !c.written then fin p.1 g else p.1
        | none => p.1
  | _, _ => s

/-! ### Acceptance (R316) -/

def State.readCq (s : State) (q idx : Nat) (env : Env) : State × Except Fail (List Byte) :=
  s.runOp env (readKey (s.ctx env .ovind) 2 (s.cqKey q idx) 32)

/-- An entry that fails before it holds a record. -/
def State.cqUnrecorded (s : State) (q idx : Nat) (e : QEntry) (st : Status) : State :=
  let s := s.writeCqAt q idx 12 (le 2 qDone ++ le 2 st.toCode.toNat)
  let s := s.noteEpoch (s.epochOf (s.cq q).part e) e st
  s.updCq q fun c => { c with lastFault := st.toCode, fFault := c.fFault.hwSet }

/-- Entries and logged chunks whose epoch is dry are no longer kept (R338). -/
def Cq.purge (c : Cq) (w : WetPart) : Cq :=
  { c with accepted := c.accepted.filter fun a => !w.isDry a.2.2.tag, log := c.log.filter fun l => !w.isDry l.tag }

def State.collAccept (s : State) (q : Nat) (env : Env) : State :=
  let c := s.cq q
  match c.part with
  | none => s
  | some k =>
    if !c.committed ∨ !c.enable ∨ c.st ≠ .running ∨ c.cur.isSome ∨ !sizeOk c.sizeLog2 ∨ Sparse.get false s.wdg.held (1744 + q) ∨ (s.wet k).settling then s
    else
      let s := s.updCq q fun c => c.purge (s.wet k)
      let rep := c.replay.head?
      let idx := match rep with | some r => r.2 | none => c.head
      let r := s.readCq q idx env
      match r.2 with
      | .error _ =>
        let s := r.1.updCq q fun c => { c with lastFault := Status.checkTile.toCode, fFault := c.fFault.hwSet }
        match Sparse.get none c.posted idx with
        | some e => (s.writeCqAt q idx 0 (entryBytes e 0 qPosted 0)).report k e.tag.epoch causeMemory Status.checkTile.toCode none
        | none => s.writeCqAt q idx 0 (List.replicate 32 0)
      | .ok b =>
        let s := r.1
        let e : QEntry := { desc := BitVec.ofNat 64 (fld b 0 8), tag := tagOf b 16, attempt := BitVec.ofNat 8 (fld b 24 1), part := k }
        let step (s : State) : State := s.updCq q fun c => { c with
          posted := Sparse.set none c.posted idx none
          head := if rep.isSome then c.head else (c.head + 1) % 2 ^ c.sizeLog2.toNat
          replay := c.replay.drop 1 }
        let state := fld b 12 2
        if state = qFree ∨ state = qAccepted ∨ state = qDone then s
        else if state ≠ qPosted then (step s).cqUnrecorded q idx e .fieldReserved
        else if e.desc.toNat % 32 ≠ 0 then (step s).cqUnrecorded q idx e .align
        else
          let x := s.cqCtx q e env
          let y := s.runOp {} (readAt x e.desc 96)
          match y.2 with
          | .error f => (step y.1).cqUnrecorded q idx e f.st
          | .ok desc =>
            let comp : Addr := BitVec.ofNat 64 (fld desc 56 8)
            let cst := if comp.toNat % 32 ≠ 0 then Status.align else rangeAt y.1.dp x comp 64 true
            if cst ≠ .ok then (step y.1).cqUnrecorded q idx e cst
            else
              let seq : BitVec 32 := match rep with
                | some r => r.1
                | none => if c.last = 0xFFFFFFFF then 1 else c.last + 1
              let s := (step y.1).writeCqAt q idx 8 (le 4 seq.toNat ++ le 2 qAccepted)
              let a : Active := { entry := e, seq, desc, comp }
              let s := s.updCq q fun c => { c with
                last := seq, cur := some { a }
                accepted := (c.accepted.filter fun z => z.1 ≠ seq) ++ [(seq, idx, e)] }
              let z := s.runOp {} (writeAt x comp (le 2 Status.pending.toCode.toNat))
              let s := if fld desc 0 1 = kAnchorPre then (match z.1.epochOf (some k) e with
                | some (k, n) => z.1.onDp fun d => d.updWet k fun w => w.updInf n fun i => { i with census := i.census + 1 }
                | none => z.1) else z.1
              match z.2 with
              | .error f => (s.updCq q fun c => { c with cur := none }).cqUnrecorded q idx e f.st
              | .ok _ =>
                let w := (s.wet k).ent e.tag.epoch.toNat
                if w.step = e.tag.step ∧ (w.state = .smudged ∨ (w.state = .wet ∧ e.attempt.toNat < w.attempt.toNat)) then
                  s.cqComplete q { st := .smudged } env
                else if fld desc 0 1 < kAllReduce ∨ kCombine < fld desc 0 1 then
                  s.cqComplete q { st := .fieldReserved, addr := e.desc, obj := 1, off := 0 } env
                else s

def execCollectiveEntryAccept (queue : Fin 64) (env : Env) (s : State) : Out := .next (s.around env fun s env => s.collAccept queue env)

/-! ### Starting an operation -/

/-- The accepted entry of a queue that has not begun, when its kind is `kind`. -/
def State.collFresh (s : State) (q kind : Nat) : Option (Coll × Group) :=
  match (s.cq q).cur, (s.cq q).group with
  | some c, some g => if !c.a.started && c.d.kind == kind then some (c, g) else none
  | _, _ => none

/-- The signature that the notices of an operation failing its checks carry: what memory gives, 0 when it cannot be formed. -/
def State.formSig (s : State) (q : Nat) (c : Coll) : State :=
  match (s.runOp {} (c.d.formSig (s.cqCtx q c.a.entry {}))).2 with
  | .ok sig => s.updColl q fun c => { c with sig }
  | .error _ => s

/-- Check the descriptor's fields, run the kind's own checks, and begin; a failure completes the operation (R324, R333). -/
def State.collStart (s : State) (q : Nat) (c : Coll) (g : Group) (holder : Bool) (env : Env) (prep : Ctx → Op Coll)
    (go : State → State) : State :=
  match firstRow (c.d.fieldRows g.size g.rank holder) with
  | some (st, off) => (s.formSig q c).cqFail q { st, addr := c.a.entry.desc, obj := 1, off } env
  | none =>
    let r := s.runOp {} (prep (s.cqCtx q c.a.entry env))
    match r.2 with
    | .error f => (r.1.formSig q c).cqFail q f env
    | .ok c => go (r.1.updColl q fun _ => { c with a := { c.a with started := true } })

/-- Begin a bulk operation: its first step, and what follows at once. FLAGS.QS of a kind that has no quickset path fails its
checks (R324). -/
def State.bulkStart (s : State) (q : Nat) (kind : Nat) (env : Env) (prep : Coll → Group → Ctx → Op Coll) : State :=
  match s.collFresh q kind with
  | none => s
  | some (c, g) =>
    if c.d.qs ∧ (kind = kAllReduce ∨ kind = kReduce) then s
    else s.collStart q c g true env (fun x => do let c ← prep c g x; pure (c.enter g)) fun s =>
      s.runBulk q env fun s g => s.finishBulk q g env

def reducePrep (c : Coll) (g : Group) (x : Ctx) : Op Coll := c.prepReduce x g.size g.rank
def copyPrep (c : Coll) (g : Group) (x : Ctx) : Op Coll := c.prepCopy x g.size g.rank

def execAllReduce (queue : Fin 64) (env : Env) (s : State) : Out := .next (s.around env fun s env => s.bulkStart queue kAllReduce env reducePrep)
def execReduceScatter (queue : Fin 64) (env : Env) (s : State) : Out := .next (s.around env fun s env => s.bulkStart queue kReduceScatter env reducePrep)
def execReduce (queue : Fin 64) (env : Env) (s : State) : Out := .next (s.around env fun s env => s.bulkStart queue kReduce env reducePrep)
def execAllGather (queue : Fin 64) (env : Env) (s : State) : Out := .next (s.around env fun s env => s.bulkStart queue kAllGather env copyPrep)
def execBroadcast (queue : Fin 64) (env : Env) (s : State) : Out := .next (s.around env fun s env => s.bulkStart queue kBroadcast env copyPrep)

/-! ### Receiving -/

/-- Progress of an operation, whatever its kind. -/
def State.onward (s : State) (q : Nat) (env : Env) : State :=
  s.runBulk q env fun s g => match (s.cq q).cur with
    | some c => if c.d.kind = kDispatch ∨ c.d.kind = kCombine then s else s.finishBulk q g env
    | none => s

/-- A chunk or message is discarded as stale. -/
def State.countStale (s : State) (q : Nat) : State :=
  (s.updCq q fun c => { c with stale := satInc c.stale }).updColl q fun c => { c with stale := c.stale + 1 }

/-- The slot of a consumed chunk goes back to its sender. -/
def State.returnCredit (s : State) (q : Nat) (g : Group) (r : Nat) (h : Chunk) : State :=
  s.sendControl q g r h.seq h.sig ckCredit 1 h.step { step := 0, epoch := h.epoch } h.attempt

/-- The rank of the module that sent a packet. -/
def State.senderRank (s : State) (g : Group) (p : Packet) : Option Nat :=
  (List.range g.size).find? fun r => s.holderOf g.part (g.coord r) == srcOf p

/-- A corrupt chunk of rank `r` (R337): its slot is consumed, the operation fails with its notices, its epoch is reported, the
chunk is asked for again. -/
def State.corruptChunk (s : State) (q : Nat) (g : Group) (r : Nat) (h : Chunk) (slot : Option Nat) (env : Env) : State :=
  let s := if slot.isSome then s.returnCredit q g r h else s
  match (s.cq q).cur with
  | none => s
  | some c =>
    let addr := g.staging + BitVec.ofNat 64 (4096 * slot.getD 0)
    let s := s.cqFail q { st := .checkTile, addr, obj := 0x0A } env
    let s := s.report g.part c.a.entry.tag.epoch causeChunk Status.checkTile.toCode none
    s.sendControl q g r c.a.seq c.sig ckResend h.chunk h.step c.a.entry.tag c.a.entry.attempt

/-- Where a chunk or message of an operation stands to this member's own. -/
inductive Stand where
  | now | later | stale | order
  deriving DecidableEq, Repr

/-- R322 by QSEQ: the current one is used once the operation has begun. With no operation in progress the next entry's QSEQ
counts, and a chunk of a newer attempt waits for the replay. -/
def State.stand (s : State) (q : Nat) (seq : BitVec 32) (begun newer : Bool) : Stand :=
  let c := s.cq q
  match c.cur with
  | some o =>
    if seq = o.a.seq then if begun && !o.a.started then .later else .now
    else if qseqBefore o.a.seq seq then .later else .stale
  | none => if qseqBefore c.last seq ∨ newer ∨ (c.replay.any fun r => r.1 == seq) then .later else .stale

/-- R322, then R326 for a chunk whose CHUNK_CRC is right. A FAIL whose sender could form no signature carries 0, and one that
tells an order fault is not compared (log entry 48). -/
def State.chunkStand (s : State) (q : Nat) (h : Chunk) (begun : Bool) : Stand :=
  let att (k : Nat) : BitVec 8 := ((s.wet k).ent h.epoch.toNat).attempt
  let newer : Bool := match (s.cq q).part with
    | some k => (((s.wet k).ent h.epoch.toNat).state == .wet || ((s.wet k).ent h.epoch.toNat).state == .smudged)
        && decide ((att k).toNat < h.attempt.toNat)
    | none => false
  match s.stand q h.seq begun newer with
  | .now =>
    match (s.cq q).cur with
    | none => .stale
    | some o =>
      let own := if h.epoch = o.a.entry.tag.epoch then o.a.entry.attempt else att ((s.cq q).part.getD 0)
      if o.a.started && o.sig != h.sig && !(h.kind == ckFail && (h.sig == 0 || h.chunk % 2 ^ 16 == Status.collOrder.toCode.toNat)) then .order
      else if h.attempt.toNat < own.toNat then .stale
      else if own.toNat < h.attempt.toNat then .later else .now
  | x => x

/-- Keep a data chunk of the current operation, return its slot, and go on. -/
def State.useChunk (s : State) (q : Nat) (g : Group) (h : Chunk) (mismatch : Bool) (env : Env) : State :=
  let s := s.updColl q fun c =>
    let old := (c.rx.find? fun r => r.step == h.step && r.rank == h.rank).getD { step := h.step, rank := h.rank }
    let new := { old with chunks := (old.chunks.filter fun x => x.1 ≠ h.idx) ++ [(h.idx, h.payload)]
                          last := if h.last then some h.idx else old.last }
    { c with received := c.received + 1, rx := (c.rx.filter fun r => !(r.step == h.step && r.rank == h.rank)) ++ [new] }
  let s := s.returnCredit q g h.rank h
  if mismatch then
    match (s.cq q).cur with
    | some c => (s.cqFail q { st := .dupMismatch } env).report g.part c.a.entry.tag.epoch causeCombine Status.dupMismatch.toCode none
    | none => s
  else s.onward q env

/-- A chunk of kind DATA in its slot (R326). -/
def State.dataChunk (s : State) (q : Nat) (g : Group) (p : Packet) (mismatch : Bool) (env : Env) : State :=
  let h := Chunk.ofBytes p.data
  match s.chunkStand q h true with
  | .later => s.updCq q fun c => { c with deferred := c.deferred ++ [p] }
  | .stale => (s.countStale q).returnCredit q g h.rank h
  | .order => s.orderFault q h.rank true env
  | .now =>
    match (s.cq q).cur with
    | none => s
    | some c =>
      if c.crc ≠ h.anchorCrc then s.corruptChunk q g h.rank h (some (bitsOf p.addr.toNat 21 6)) env
      else s.useChunk q g h mismatch env

/-! ### RESEND_REQ (R338) -/

/-- Send a logged chunk again under its epoch's present attempt, which takes a credit (R318). -/
def State.resendNow (s : State) (q : Nat) (g : Group) (l : LogChunk) (payload : List Byte) : State :=
  let att := ((s.wet g.part).ent l.tag.epoch.toNat).attempt
  let b := chunkBytes g.id l.seq l.sig g.rank (l.out.idx + 2 ^ 31 * boolN l.out.last) ckData l.tag att l.out.step l.anchor payload
  let s := (s.sendChunk q g l.out.rank (l.out.idx % max g.slots 1) b).1
  (s.updCq q fun c => { c with credits := Sparse.upd 0 c.credits l.out.rank (· - 1) }).updColl q fun c =>
    if c.a.seq = l.seq then { c with resent := c.resent + 1, owed := Sparse.upd 0 c.owed l.out.rank (· + 1) } else c

/-- Does the source of an accepted operation still verify? -/
def sourceGood (x : Ctx) (desc : Addr) : Op Unit := do
  let d ← readAt x desc 96
  let t ← fetchTD x (BitVec.ofNat 64 (fld d 8 8))
  let _ ← readPiece x t

/-- The logged copy, when it still verifies, or one rebuilt from checked source tiles is sent; a source tile that fails smudges
the sender's own epoch. -/
def State.resendChunk (s : State) (q : Nat) (g : Group) (l : LogChunk) (env : Env) : State :=
  let r := s.logged l
  match r.2 with
  | some p => r.1.resendNow q g l p
  | none =>
    match (r.1.cq q).accepted.find? fun a => a.1 == l.seq with
    | none => r.1
    | some a =>
      let y := r.1.runOp {} (sourceGood (r.1.cqCtx q a.2.2 env) a.2.2.desc)
      match y.2 with
      | .ok _ => y.1.resendNow q g l l.out.payload
      | .error f => y.1.report g.part a.2.2.tag.epoch causeCheckTile f.st.toCode none

/-- Chunks asked for again go out as credits come. -/
def State.pumpResends (s : State) (q : Nat) (g : Group) (env : Env) : State :=
  (s.cq q).resends.foldl (fun s l =>
    if Sparse.get 0 (s.cq q).credits l.out.rank = 0 then s.updCq q fun c => { c with resends := c.resends ++ [l] }
    else s.resendChunk q g l env) (s.updCq q fun c => { c with resends := [] })

/-- `logGood`: the log's memory answers; when it does not, the chunk is rebuilt as a copy that fails its CRC is. -/
def State.resendReq (s : State) (q : Nat) (g : Group) (h : Chunk) (logGood : Bool) (env : Env) : State :=
  match (s.cq q).log.find? fun l => l.holds h.seq h.rank h.step h.idx && l.sig == h.sig with
  | none => s
  | some l =>
    let s := s.onDp (·.upsets env.upsets)
    let l := if logGood then l else { l with loc := none }
    (s.updCq q fun c => { c with resends := c.resends ++ [l] }).pumpResends q g env

/-! ### CREDIT, FAIL -/

/-- CREDIT (R318): a slot is free again, whatever operation its chunk was of; the count of the operation in progress goes down
by those of its own attempt. -/
def State.creditChunk (s : State) (q : Nat) (g : Group) (h : Chunk) (env : Env) : State :=
  let n := h.idx
  let s := s.updCq q fun c => { c with credits := Sparse.upd 0 c.credits h.rank fun x => min (x + n) g.slots }
  let s := s.pumpResends q g env
  match s.chunkStand q h true with
  | .order => s.orderFault q h.rank true env
  | .now => (s.updColl q fun c => { c with owed := Sparse.upd 0 c.owed h.rank (· - n) }).onward q env
  | _ => s.onward q env

/-- FAIL (R333): the operation completes with the status and forwards it. -/
def State.failChunk (s : State) (q : Nat) (p : Packet) (h : Chunk) (env : Env) : State :=
  let st := (Status.ofCode (h.chunk % 2 ^ 16)).getD .checkTile
  match s.chunkStand q h false with
  | .later => s.updCq q fun c => { c with deferred := c.deferred ++ [p] }
  | .stale => s.countStale q
  | .order => s.orderFault q h.rank true env
  | .now => if st = .collOrder then s.orderStop q env else s.cqFail q { st } env

/-! ### A chunk arrives -/

/-- The queue and group a chunk packet is for, and the rank that sent it; a malformed or strange one is not used. -/
def State.chunkFor (s : State) (p : Packet) : Option (Nat × Group × Nat) :=
  let q := p.addr.toNat % 64
  match (s.cq q).group with
  | some g =>
    if (s.cq q).committed && g.job == p.job && decide (32 ≤ p.data.length) && decide (p.addr.toNat < 2 ^ 22) then
      (s.senderRank g p).map fun r => (q, g, r)
    else none
  | none => none

/-- CHUNK_CRC comes before any field of the header is used (R326); then the chunk is for the group, from its sender, of the
command's kind. -/
def State.chunkOf (s : State) (p : Packet) (kind : Nat) (env : Env) (use : State → Nat → Group → Chunk → State) : State :=
  match s.chunkFor p with
  | none => s
  | some (q, g, r) =>
    let h := Chunk.ofBytes p.data
    if !h.good then s.corruptChunk q g r h (if kind = ckData then some (bitsOf p.addr.toNat 21 6) else none) env
    else if g.id == h.id && h.kind == kind && h.rank == r then use s q g h else s

/-- The chunk lands in its slot of the staging area. -/
def State.land (s : State) (g : Group) (p : Packet) : State :=
  match resolve s.dp.coord (g.staging + BitVec.ofNat 64 (4096 * bitsOf p.addr.toNat 21 6)) with
  | some (.here sp off) => (s.runOp {} (writeKey (s.ctx {} .ovind) sp off p.data)).1
  | _ => s

def State.landFor (s : State) (p : Packet) : State :=
  match s.chunkFor p with
  | some (_, g, _) => s.land g p
  | none => s

def execChunkData (packet : Packet) (mismatch : Bool) (env : Env) (s : State) : Out :=
  .next (s.around env fun s env => (s.landFor packet).chunkOf packet ckData env fun s q g _ => s.dataChunk q g packet mismatch env)

def execChunkCredit (packet : Packet) (env : Env) (s : State) : Out :=
  .next (s.around env fun s env => s.chunkOf packet ckCredit env fun s q g h => s.creditChunk q g h env)

def execChunkFail (packet : Packet) (env : Env) (s : State) : Out :=
  .next (s.around env fun s env => s.chunkOf packet ckFail env fun s q _ h => s.failChunk q packet h env)

def execChunkResendReq (packet : Packet) (logGood : Bool) (env : Env) (s : State) : Out :=
  .next (s.around env fun s env => s.chunkOf packet ckResend env fun s q g h => s.resendReq q g h logGood env)

/-! ### Completion, hangs, pressure -/

/-- R332. -/
def State.collComplete (s : State) (q : Nat) (env : Env) : State :=
  match (s.cq q).cur with
  | some c => if c.written && c.outq.isEmpty && c.owed.isEmpty && !c.d.onQs then s.cqComplete q { st := .ok } env else s
  | none => s

def execCollectiveComplete (queue : Fin 64) (env : Env) (s : State) : Out := .next (s.around env fun s env => s.collComplete queue env)

/-- The rank an operation waits for: a chunk's sender, a chunk's receiver, a credit's, a message's. -/
def Coll.awaited (c : Coll) (g : Group) : Option Nat :=
  if c.d.onQs then (List.range g.size).find? fun r => r != g.rank && !(c.qs.any fun p => (p.2.vals ++ p.2.ups).any fun v => v.1 == r)
  else match c.await ++ c.owed.map (·.1) ++ c.outq.map (·.rank) with
    | r :: _ => some r
    | [] => none

/-- R320: ST_HANG, the queue stops, and the hang names the neighbour (12 R414, R415). -/
def State.collTimeout (s : State) (q : Nat) (env : Env) : State :=
  match (s.cq q).cur, (s.cq q).group with
  | some c, some g =>
    match c.awaited g with
    | none => s
    | some r =>
      let dest := (s.holderOf g.part (g.coord r)).code
      let s := { s with wdg := { s.wdg with hang := s.wdg.hang.hwSet } }
      let s := s.hangRecord 1 3 Status.hang.toCode 0xFFFF 0xFFFF g.part c.a.entry.tag.epoch.toNat c.a.entry.tag.step c.a.seq
        ((s.cq q).timeout.toNat * 1000) (destAddr dest) (src 6 q)
      ((s.cqComplete q { st := .hang } env).stopQueue q).askLost dest 3 g.part 0xFFFF
  | _, _ => s

def execCollectiveProgressTimeout (queue : Fin 64) (env : Env) (s : State) : Out := .next (s.around env fun s env => s.collTimeout queue env)

/-- R319: each record of a pressure episode sets the flag. -/
def execQueueSustainedPressure (queue : Fin 64) (rank : BitVec 17) (intervals : BitVec 64) (s : State) : Out :=
  .next (match (s.cq queue).group with
    | none => s
    | some g =>
      (s.updCq queue fun c => { c with fPressure := c.fPressure.hwSet }).record 0x0403 (src 6 queue) .ok
        (le 2 queue ++ le 4 (s.holderOf g.part (g.coord (rank.toNat % max g.size 1))).code.toNat ++ le 1 g.cls ++ le 8 intervals.toNat))

end Sys2Proof.Machine
end

