-- ==== Sys2Proof/Machine/Quickset.lean ====
section
/-! DEFINITION. The quickset path: barriers, anchor pre-reductions, one-block reductions, their messages (09 R334 to R336; 02 R80). -/
namespace Sys2Proof.Machine

/-! ### Combination (Table 9.6) -/

/-- Words of 64 bits, modulo 2^64 or under Table 3.2; sums at the finite limit are counted. -/
def sumWords (wire : Bool) (a b : List Byte) : List Byte × Nat :=
  let n := max a.length b.length / 8
  let out := (List.range n).map fun i =>
    let x := fld a (8 * i) 8
    let y := fld b (8 * i) 8
    if wire then
      match Acc.decode 64 x, Acc.decode 64 y with
      | some p, some q => let r := p.combine 64 q; (r.1.encode 64, boolN r.2)
      | _, _ => (Acc.nan.encode 64, 0)
    else ((x + y) % 2 ^ 64, 0)
  (out.flatMap fun x => le 8 x.1, (out.map (·.2)).foldl (· + ·) 0)

def maxBytes (a b : List Byte) : List Byte :=
  (List.range (max a.length b.length)).map fun i =>
    let x := (a.getD i 0).toNat
    let y := (b.getD i 0).toNat
    BitVec.ofNat 8 (max x y)

/-- A census record and its RANGE byte (R80, 03 R117). -/
def censusBytes (a b : List Byte) : List Byte :=
  ((Census.ofBytes (a.take 32)).combine (Census.ofBytes (b.take 32))).bytes ++ [a.getD 32 0 ||| b.getD 32 0]

def qsCombine (qop : Nat) (wire : Bool) (a b : List Byte) : List Byte × Nat :=
  if qop = qopMax then (maxBytes a b, 0)
  else if qop = qopSum then sumWords wire a b
  else if qop = qopCensus then (censusBytes a b, 0)
  else ([], 0)

def qsTotal (qop : Nat) (wire : Bool) : List (List Byte) → List Byte × Nat
  | [] => ([], 0)
  | a :: r => r.foldl (fun t b => let x := qsCombine qop wire t.1 b; (x.1, t.2 + x.2)) (a, 0)

/-! ### The tree (R336) -/

def Group.hedge (g : Group) (r : Nat) : Nat := r / g.count 0
def Group.hedgeRep (g : Group) (r : Nat) : Nat := g.hedge r * g.count 0
def Group.podUnit (g : Group) : Nat := g.count 0 * g.count 1
def Group.siteUnit (g : Group) : Nat := g.podUnit * g.count 2

def Group.hedgePeers (g : Group) (r : Nat) : List Nat :=
  ((List.range (g.count 0)).map (g.hedgeRep r + ·)).filter (· ≠ r)

/-- Representatives that send their results to `r`. -/
def Group.children (g : Group) (r : Nat) : List Nat :=
  (if r % g.podUnit = 0 then (List.range (g.count 1 - 1)).map fun i => r + (i + 1) * g.count 0 else [])
    ++ (if r % g.siteUnit = 0 then (List.range (g.count 2 - 1)).map fun i => r + (i + 1) * g.podUnit else [])
    ++ (if r = 0 then (List.range (g.count 3 - 1)).map fun i => (i + 1) * g.siteUnit else [])

/-- The representative that a hedge representative sends to. -/
def Group.parent (g : Group) (r : Nat) : Option Nat :=
  if r % g.podUnit ≠ 0 then some (r / g.podUnit * g.podUnit)
  else if r % g.siteUnit ≠ 0 then some (r / g.siteUnit * g.siteUnit)
  else if r ≠ 0 then some 0 else none

def Coll.wireSum (c : Coll) : Bool := c.d.reduces

/-- One part goes on: the hedge result, then the units below, then up or down. -/
def Coll.qsStep (c : Coll) (g : Group) (part : Nat) : Coll :=
  let r := g.rank
  let p : QsPart := Sparse.get {} c.qs part
  let got (l : List (Nat × List Byte)) (x : Nat) : Bool := l.any fun v => v.1 == x
  if p.result.isSome ∨ p.sentUp ∨ !((r :: g.hedgePeers r).all (got p.vals)) then c
  else
    let sorted := (sortWith (fun a b => decide (a.1 ≤ b.1)) p.vals).map (·.2)
    if g.size = g.count 0 then
      let t := qsTotal p.qop c.wireSum sorted
      { c with qs := Sparse.set {} c.qs part { p with result := some t.1 }, a := { c.a with viol := c.a.viol + t.2 } }
    else if r ≠ g.hedgeRep r ∨ !((g.children r).all (got p.ups)) then c
    else
      let t := qsTotal p.qop c.wireSum (sorted ++ (sortWith (fun a b => decide (a.1 ≤ b.1)) p.ups).map (·.2))
      let c := { c with a := { c.a with viol := c.a.viol + t.2 } }
      match g.parent r with
      | some q => { c with qs := Sparse.set {} c.qs part { p with sentUp := true }, qsOut := c.qsOut ++ [(q, part, t.1)] }
      | none => { c with qs := Sparse.set {} c.qs part { p with result := some t.1 }
                         qsOut := c.qsOut ++ (g.children r ++ g.hedgePeers r).map fun x => (x, part, t.1) }

/-- A payload from a member: its own, its hedge's or unit's result from below, or the final one from above. -/
def Coll.qsTake (c : Coll) (g : Group) (sender part qop : Nat) (data : List Byte) : Coll :=
  let r := g.rank
  let p : QsPart := { (Sparse.get {} c.qs part : QsPart) with qop }
  let final (p : QsPart) : Coll :=
    { c with qs := Sparse.set {} c.qs part { p with result := some data }
             qsOut := if r = g.hedgeRep r then c.qsOut ++ (g.children r ++ g.hedgePeers r).map fun x => (x, part, data) else c.qsOut }
  if g.hedge sender = g.hedge r then
    if sender = g.hedgeRep r ∧ (p.vals.any fun v => v.1 == sender) then final p
    else { c with qs := Sparse.set {} c.qs part { p with vals := (p.vals.filter fun v => v.1 ≠ sender) ++ [(sender, data)] } }
  else if sender < r then final p
  else { c with qs := Sparse.set {} c.qs part { p with ups := (p.ups.filter fun v => v.1 ≠ sender) ++ [(sender, data)] } }

/-- The operation's own combination. -/
def Coll.qop (c : Coll) : Nat := if c.d.kind = kBarrier then qopBarrier else if c.d.kind = kAnchorPre then qopCensus else qopSum

/-- The member's own payloads go to its hedge. -/
def Coll.qsBegin (c : Coll) (g : Group) (payloads : List (List Byte)) : Coll :=
  (List.range payloads.length).foldl (fun c j =>
    let d := payloads.getD j []
    let p : QsPart := Sparse.get {} c.qs j
    { c with qs := Sparse.set {} c.qs j { p with qop := c.qop, vals := p.vals ++ [(g.rank, d)] }
             qsOut := c.qsOut ++ (g.hedgePeers g.rank).map fun r => (r, j, d) }) c

/-- Parts of an operation (R335). -/
def Coll.qsParts (c : Coll) : Nat := if c.d.reduces then 4 else 1

/-! ### Sending, finishing -/

/-- The wait before a message that failed is tried again: 1 ms, behind the module's start delay, then doubling to 64 ms (08 R308). -/
def Coll.backOff (c : Coll) (now delayMs : Nat) : Coll :=
  if c.qsOut.isEmpty then { c with retryMs := 0 }
  else if now < c.retryAt then c
  else
    let ms := if c.retryMs = 0 then 1 else min (2 * c.retryMs) 64
    { c with retryMs := ms, retryAt := now + 156250 * (ms + (if c.retryMs = 0 then delayMs else 0)) }

/-- A message that meets a link that is not ACTIVE fails with ST_LINK_NOT_READY; it is kept and retried (R336, 08 R308). -/
def State.pumpQs (s : State) (q : Nat) (g : Group) : State :=
  match (s.cq q).cur with
  | none => s
  | some c =>
    let s := c.qsOut.foldl (fun s o =>
      let r := s.sendQs q g o.1 (Sparse.get {} c.qs o.2.1).qop c.a.seq c.sig o.2.1 o.2.2
      if r.2 = .ok then r.1.updColl q fun c => { c with sent := c.sent + 1 }
      else r.1.updColl q fun c => { c with qsOut := c.qsOut ++ [o] })
      (s.updColl q fun c => { c with qsOut := [] })
    let now := s.dp.now
    let delay := s.lnk.delayMs
    s.updColl q fun c => c.backOff now delay

/-- The node of a partition whose output a census record describes. -/
def Job.nodeWriting (j : Job) (census : Addr) : Option GraphNode := j.nodes.find? fun n => n.census == census

/-- RANGE of the node whose output a record describes, as this module's operations have left it (03 R108, R117). -/
def State.rangeOf (s : State) (k : Nat) (tag : Tag) (census : Addr) : Bool :=
  match (s.job k).nodeWriting census with
  | some n => (s.guard k tag.step n.node).range
  | none => false

/-- The RANGE flag ORed over the group. -/
def State.noteReduced (s : State) (k : Nat) (tag : Tag) (census : Addr) (flag : Bool) : State :=
  match (s.job k).nodeWriting census with
  | some n => s.updGuard k tag.step n.node fun g => { g with reduced := some flag }
  | none => s

/-- Every part has its result: the barrier ends, the record is written with REDUCED, the block is converted (R80, R335). -/
def State.finishQs (s : State) (q : Nat) (g : Group) (env : Env) : State :=
  match (s.cq q).cur with
  | none => s
  | some c =>
    let res (j : Nat) : List Byte := ((Sparse.get {} c.qs j).result).getD []
    if c.d.kind = kBarrier then s.cqComplete q { st := .ok } env
    else if c.d.kind = kAnchorPre then
      let rec0 := Census.ofBytes ((res 0).take 32)
      let out := { rec0 with flags := rec0.flags ||| 0x10 }
      let r := s.runOp {} (tryCatch (writeAt (s.cqCtx q c.a.entry {}) c.src.census out.bytes) fun f => failOp f.st c.src.census 5)
      match r.2 with
      | .error f => r.1.cqFail q f env
      | .ok _ => (r.1.noteReduced g.part c.a.entry.tag c.src.census (fld (res 0) 32 1 != 0)).cqComplete q { st := .ok } env
    else
      let work := (List.range 4).flatMap fun j => (List.range 8).map fun i => fld (res j) (8 * i) 8
      let c := { c with work }
      let here := c.d.kind == kAllReduce || g.rank == c.d.root
      let x := s.cqCtx q c.a.entry {}
      let c := if here then c.convert x g.rank 0 32 else c
      let s := s.updColl q fun _ => c
      if !here then s.cqComplete q { st := .ok } env
      else
        let r := s.writeDest q x (List.range c.dst.tiles)
        match r.2 with
        | some f => r.1.cqFail q f env
        | none =>
          let rows := c.statRows g.size g.rank true
          let y := if c.d.stats = 0 then (r.1, Except.ok ()) else r.1.runOp {} (c.writeStats x 0 rows.2)
          match y.2 with
          | .error f => y.1.cqFail q f env
          | .ok _ => y.1.cqComplete q { st := .ok } env

/-- All parts go on; messages leave; the operation finishes when each part has its result. -/
def State.qsOnward (s : State) (q : Nat) (env : Env) : State :=
  match (s.cq q).cur, (s.cq q).group with
  | some c, some g =>
    let c := (List.range c.qsParts).foldl (fun c j => c.qsStep g j) c
    let s := (s.updColl q fun _ => c).pumpQs q g
    match (s.cq q).cur with
    | some c => if (List.range c.qsParts).all fun j => ((Sparse.get {} c.qs j).result).isSome then s.finishQs q g env else s
    | none => s
  | _, _ => s

/-! ### Starting -/

def State.qsStart (s : State) (q kind : Nat) (env : Env) (payloads : Coll → List (List Byte)) (prep : Coll → Group → Ctx → Op Coll) : State :=
  match s.collFresh q kind with
  | none => s
  | some (c, g) =>
    if !c.d.onQs then s
    else s.collStart q c g true env (fun x => do let c ← prep c g x; pure (c.qsBegin g (payloads c))) fun s => s.qsOnward q env

def execBarrier (queue : Fin 64) (env : Env) (s : State) : Out :=
  .next (s.around env fun s env => s.qsStart queue kBarrier env (fun _ => [[]]) fun c _ _ => pure { c with sig := c.d.signature [] })

/-- The member's census record; one of another step enters as reset (R80). -/
def anchorPrep (range : Addr → Bool) (c : Coll) (x : Ctx) : Op Coll := do
  let src ← takeDist x false c.d.src
  let rec0 ← takeCensus x src.census
  let rec1 := if rec0.step = (opTag x).step then rec0 else rec0.resetTo (opTag x).step
  let c : Coll := { c with a := { c.a with tds := [src] }, sig := c.d.signature [src] }
  -- the payload waits as part 0's result until it is sent
  pure { c with qs := [(0, { result := some (rec1.bytes ++ [if range src.census then 1 else 0]) })] }

/-- `range`: RANGE of operations of the node that the graph image does not list. -/
def execAnchorPre (queue : Fin 64) (range : Bool) (env : Env) (s : State) : Out :=
  .next (s.around env fun s env => match s.collFresh queue kAnchorPre with
    | none => s
    | some (c, g) =>
      s.collStart queue c g true env (fun x => do
        let c ← anchorPrep (fun a => range || s.rangeOf g.part c.a.entry.tag a) c x
        let d := ((Sparse.get {} c.qs 0).result).getD []
        pure (({ c with qs := [] } : Coll).qsBegin g [d])) fun s => s.qsOnward queue env)

/-- The four parts of a one-block reduction (R335). -/
def sumParts (c : Coll) : List (List Byte) := (List.range 4).map fun j => ((c.work.drop (8 * j)).take 8).flatMap (le 8)

/-- An ALL_REDUCE or REDUCE with FLAGS.QS. -/
def execQsReduction (queue : Fin 64) (env : Env) (s : State) : Out :=
  .next (s.around env fun s env =>
    s.qsStart queue (match s.collFresh queue kReduce with | some _ => kReduce | none => kAllReduce) env sumParts reducePrep)

/-! ### Messages (R322, R334) -/

/-- The fields of a message: QOP, queue, QSEQ, part, 24 bits of signature. -/
structure QsMsg where
  qop   : Nat
  q     : Nat
  seq   : BitVec 32
  part  : Nat
  sig   : Nat
  bad   : Bool

def QsMsg.of (p : Packet) : QsMsg :=
  let a := p.addr.toNat
  { qop := a % 256, q := bitsOf a 13 8, seq := BitVec.ofNat 32 (bitsOf a 45 14), part := bitsOf a 47 46
    sig := p.txn.toNat + 2 ^ 16 * p.flags.toNat, bad := decide (2 ^ 48 ≤ a) || p.data.isEmpty || decide (64 < p.data.length) }

/-- Bytes of a payload that a combination uses. -/
def qsPayload (qop : Nat) (l : List Byte) : List Byte := if qop = qopBarrier then [] else if qop = qopCensus then l.take 33 else l

/-- A payload with a reserved wire encoding (03 R87) or a census record with a reserved flag (00 R11). -/
def qsPayloadBad (qop : Nat) (wire : Bool) (l : List Byte) : Bool :=
  (qop == qopSum && wire && (List.range (l.length / 8)).any fun i => reservedWire 0x21 (fld l (8 * i) 8))
    || (qop == qopCensus && (Census.ofBytes (l.take 32)).flags / 64 ≠ 0)

/-- Before the quickset service has started at ST5, a request gets a response with ST_LINK_NOT_READY (08 R308). -/
def State.qsNotYet (s : State) (p : Packet) : State := s.respond (response s.dp.coord p .linkNotReady [])

/-- A combining message reaches its queue. -/
def State.qsMessage (s : State) (qop : Nat) (p : Packet) (env : Env) : State :=
  let m := QsMsg.of p
  match (s.cq m.q).group with
  | none => s
  | some g =>
    match s.senderRank g p with
    | none => s
    | some r =>
      if m.qop ≠ qop ∨ m.bad ∨ !(s.cq m.q).committed ∨ g.job ≠ p.job ∨ r = g.rank then s
      else match s.stand m.q m.seq true false with
        | .later => s.updCq m.q fun c => { c with deferred := c.deferred ++ [p] }
        | .stale => s.countStale m.q
        | .order => s
        | .now =>
          match (s.cq m.q).cur with
          | none => s
          | some c =>
            if c.sig.toNat % 2 ^ 24 ≠ m.sig ∨ !c.d.onQs then s.orderFault m.q r false env
            else if qsPayloadBad qop c.wireSum p.data then s.cqFail m.q { st := if qop = qopSum then .checkTile else .fieldReserved } env
            else
              let s := s.updColl m.q fun c => ({ c with received := c.received + 1 } : Coll).qsTake g r m.part qop (qsPayload qop p.data)
              s.qsOnward m.q env

def execQsBarrier (packet : Packet) (env : Env) (s : State) : Out :=
  .next (s.around env fun s env => if s.stage < 5 then s.qsNotYet packet else s.qsMessage qopBarrier packet env)
def execQsMaxU8 (packet : Packet) (env : Env) (s : State) : Out :=
  .next (s.around env fun s env => if s.stage < 5 then s.qsNotYet packet else s.qsMessage qopMax packet env)
def execQsSumU64 (packet : Packet) (env : Env) (s : State) : Out :=
  .next (s.around env fun s env => if s.stage < 5 then s.qsNotYet packet else s.qsMessage qopSum packet env)
def execQsCensus (packet : Packet) (env : Env) (s : State) : Out :=
  .next (s.around env fun s env => if s.stage < 5 then s.qsNotYet packet else s.qsMessage qopCensus packet env)

/-- FAIL: the operation ends with the status; an order fault stops the queue (R323, R333). -/
def State.qsFail (s : State) (p : Packet) (env : Env) : State :=
  let m := QsMsg.of p
  match (s.cq m.q).group with
  | none => s
  | some g =>
    if m.qop ≠ qopFail ∨ m.bad ∨ !(s.cq m.q).committed ∨ g.job ≠ p.job ∨ (s.senderRank g p).isNone then s
    else
      let st := (Status.ofCode (fld p.data 0 2)).getD .checkTile
      match s.stand m.q m.seq false false with
      | .later => s.updCq m.q fun c => { c with deferred := c.deferred ++ [p] }
      | .stale => s.countStale m.q
      | .order => s
      | .now =>
        let strange : Bool := match (s.cq m.q).cur with
          | some c => c.a.started && m.sig != 0 && c.sig.toNat % 2 ^ 24 != m.sig
          | none => false
        if st ≠ .collOrder ∧ strange then s.orderFault m.q ((s.senderRank g p).getD 0) false env
        else if st = .collOrder then s.orderStop m.q env else s.cqComplete m.q { st } env

def execQsFail (packet : Packet) (env : Env) (s : State) : Out :=
  .next (s.around env fun s env => if s.stage < 5 then s.qsNotYet packet else s.qsFail packet env)

/-! ### Deferred chunks and messages (R322, R326) -/

/-- Does a deferred packet's turn come now? -/
def State.dueNow (s : State) (q : Nat) (p : Packet) : Bool :=
  if p.op.toNat = opQs then (s.stand q (QsMsg.of p).seq ((QsMsg.of p).qop != qopFail) false) != .later
  else
    let h := Chunk.ofBytes p.data
    s.chunkStand q h (h.kind != ckFail) != .later

/-- The first deferred packet whose turn has come is checked and used. -/
def State.deferred (s : State) (q : Nat) (env : Env) : State :=
  match (s.cq q).deferred.find? (s.dueNow q), (s.cq q).group with
  | some p, some g =>
    let s := s.updCq q fun c => { c with deferred := c.deferred.erase p }
    if p.op.toNat = opQs then
      (if (QsMsg.of p).qop = qopFail then s.qsFail p env else s.qsMessage (QsMsg.of p).qop p env)
    else
      let h := Chunk.ofBytes p.data
      if h.kind = ckFail then s.failChunk q p h env else s.dataChunk q g p false env
  | _, _ => s

def execDeferredChunk (queue : Fin 64) (env : Env) (s : State) : Out := .next (s.around env fun s env => s.deferred queue env)

end Sys2Proof.Machine
end

