-- ==== Sys2Proof/Machine/Clock.lean ====
section
/-! DEFINITION. What passes with one edge of the reference clock while no command waits: the model's own clock, the rack tick counter and the counters of time (01 R34, R35; 10 R379; 12 R412, R413; 13 R455; 14 R474; 16 R518). Every event that falls at a time is a command of its own. -/
namespace Sys2Proof.Machine

/-- The rack tick counter: after a TICK_SYNC edge it loads 0, else it counts. -/
def Clk.tick (c : Clk) : Clk := if c.loadPending then { c with count := 0, loadPending := false } else { c with count := c.count + 1 }

/-- SINCE_US of an engine whose watchdog runs. -/
def State.sinceTick (s : State) (q : Nat) : State :=
  if s.armed q then s.updWdgEng q fun w => { w with sinceUs := satInc w.sinceUs } else s

def State.usTick (s : State) : State := s.eqs.foldl (fun s e => s.sinceTick e.1) s

/-- A ms of an operating day, 86,400,000 of them a day, in M0, M1 or M2. -/
def Wear.msTick (w : Wear) : Wear := if w.ms + 1 = 86400000 then { w with day := w.day + 1, ms := 0 } else { w with ms := w.ms + 1 }

/-- Seconds of observation run in M0 and M1; the last is left to OBSERVATION_END (log entry 14). -/
def Obs.secTick (o : Obs) : Obs := if 1 < o.left.toNat then { o with left := o.left - 1 } else o

def State.secTick (s : State) : State :=
  if s.pwr.mstate.toNat ≤ 1 then s.onDp fun d => { d with obs := Sparse.mapVal {} Obs.secTick d.obs } else s

/-- Quickset messages that could not leave are tried again (08 R308). -/
def State.retryTick (s : State) : State :=
  s.cqs.foldl (fun s e => match e.2.cur, e.2.group with
    | some c, some g => if c.qsOut = [] ∨ s.dp.now < c.retryAt then s else s.pumpQs e.1 g
    | _, _ => s) s

/-- RTC, AGE_MS and the operating day. -/
def State.msTick (s : State) : State :=
  let s := { s with
    pwr := { s.pwr with rtc := s.pwr.rtc + 1 }
    mbx := if s.stage = 5 ∧ s.mbx.owner.isSome then { s.mbx with ageMs := satInc s.mbx.ageMs } else s.mbx
    wear := if s.pwr.mstate ≠ 3 then s.wear.msTick else s.wear }
  s.retryTick

/-- Whole µs, ms and s passed at a number of edges. -/
def edgeUs (n : Nat) : Nat := 4 * n / 625
def edgeMs (n : Nat) : Nat := n / 156250
def edgeS (n : Nat) : Nat := n / 156250000

/-- One reference edge: with standby away nothing counts but the model's own clock. -/
def idleTick (s : State) : State :=
  let n := s.dp.now
  let s := s.onDp fun d => { d with now := n + 1 }
  if !s.elec.stby then s
  else
    let s := { s with clk := s.clk.tick }
    let s := if edgeUs n < edgeUs (n + 1) then s.usTick else s
    let s := if edgeMs n < edgeMs (n + 1) then s.msTick else s
    if edgeS n < edgeS (n + 1) then s.secTick else s

end Sys2Proof.Machine
end

