-- ==== Sys2Proof/Machine/Experts.lean ====
section
/-! DEFINITION. Token exchange: expert dispatch, placement and combine (09 R339 to R343). -/
namespace Sys2Proof.Machine

/-- Is this member the holder of some expert? -/
def Placement.holds (p : Placement) (g : Group) : Bool := p.entries.any fun e => e.1 == g.own.code.toNat

/-- Token dimension by rank, the others whole; a group of one member holds every token. -/
def TD.byToken (t : TD) (size rank : Nat) : Bool :=
  ((t.kindOf 0 == 1 || t.kindOf 0 == 2) && t.shardCount 0 == size && t.shardIdx 0 == rank || (size == 1 && (t.kindOf 0 == 0 || t.kindOf 0 == 3)))
    && (List.range t.rank).all fun i => i == 0 || t.kindOf i == 0 || t.kindOf i == 3

/-- The member that holds a token. -/
def TD.tokenOwner (t : TD) (token : Nat) : Nat :=
  match t.kindOf 0 with
  | 1 => token / max (t.blockLen 0) 1
  | 2 => token % t.shardCount 0
  | _ => 0

def needShape (t : TD) (l : List Nat) : Op Unit := if t.gshape = l then pure () else failOp .bounds t.ptr 2
def needType (t : TD) (ok : Bool) : Op Unit := if ok then pure () else failOp .fieldReserved t.ptr 2 1
def mxOrWide (t : Nat) : Bool := isMx t || isWide t

def whole (t : TD) : List (Nat × Nat) := [(0, t.total)]

def noOverlap (written : List TD) (read : List TD) : Op Unit := do
  let d ← get
  match written.find? fun w => (read.any fun r => meets (footprint d.coord w (whole w)) (footprint d.coord r (whole r))) with
  | some w => failOp .overlap w.ptr 2
  | none => pure ()

/-- A row of a piece as bytes: its codes and its scale bytes. -/
def rowOf (t : TD) (codes : List Nat) (tiles : List (List Byte × List Byte)) (n d : Nat) : List Byte :=
  pack t.type ((codes.drop n).take d) ++ (List.range (d / 32)).map fun b =>
    let m := n + 32 * b
    (Sidecar.ofBytes ((tiles[m / 4096]?).map (·.2) |>.getD [])).scales.getD (m % 4096 / 32) 0

/-! ### EXPERT_DISPATCH (R341) -/

/-- How a routing entry is read: an expert, none, an index out of range. -/
inductive Route where
  | expert (v : Nat)
  | none
  | out
  deriving DecidableEq

def routeOf (experts : Nat) (v : Int) : Route :=
  if v = -1 then .none else if 0 ≤ v ∧ v < experts then .expert v.toNat else .out

def Coll.prepDispatch (c : Coll) (g : Group) (p : Placement) (holder : Bool) (x : Ctx) : Op Coll := do
  let d := c.d
  let none' : Op TD := pure default
  if p.overflow = 0 ∧ d.ovf ≠ 0 then failOp .fieldReserved c.a.entry.desc 1 48
  if holder ∧ p.overflow ≠ 0 ∧ d.ovf = 0 then failOp .fieldReserved c.a.entry.desc 1 48
  let src ← takeDist x false d.src
  let dst ← if holder then takeDist x true d.dst else none'
  let route ← takeDist x false d.route
  let map ← if holder then takeDist x true d.map else none'
  let ovt ← if holder ∧ d.ovf ≠ 0 then takeDist x true d.ovf else none'
  needType src (mxOrWide src.type)
  needType route (isInt32 route.type)
  if holder then
    needType dst (dst.type == src.type && dst.tscale == src.tscale)
    needType map (isInt32 map.type)
    if d.ovf ≠ 0 then needType ovt (ovt.type == src.type && ovt.tscale == src.tscale)
  let t := nth src.shape 0
  let w := nth src.shape 1
  needShape src [t, w]
  needShape route [t, p.topk]
  if holder then
    let s := nth dst.shape 0
    needShape dst [s, p.capacity, w]
    needShape map [s, p.capacity + p.overflow, 2]
    if d.ovf ≠ 0 then needShape ovt [s, p.overflow, w]
    if !(dst.whole && map.whole && (d.ovf == 0 || ovt.whole)) then failOp .bounds dst.ptr 2
  if !(src.byToken g.size g.rank && route.byToken g.size g.rank && src.kindOf 0 == route.kindOf 0) then failOp .bounds src.ptr 2
  let dp ← get
  if holder ∧ d.ovf ≠ 0 then
    match resolve dp.coord ovt.base with
    | some (.here _ off) => if inLpddr off then pure () else failOp .bounds ovt.ptr 2
    | _ => failOp .bounds ovt.ptr 2
  if holder then noOverlap ([dst, map] ++ if d.ovf = 0 then [] else [ovt]) [src, route]
  let (rs, _) ← readPiece x route
  let vs : List (Nat × Route) := (List.range rs.length).map fun n => (n, routeOf p.experts (sext 32 (rs.getD n 0)))
  match vs.find? fun v => v.2 == .out with
  | some v => if route.sprig then pure () else failOp .indexRange (route.base + BitVec.ofNat 64 (route.rowOff (v.1 / p.topk) + 4 * (v.1 % p.topk))) 6
  | none => pure ()
  let (codes, tiles) ← readPiece x src
  let send ← (vs.filterMapM fun v => do
    match v.2 with
    | .expert e =>
      let en := p.entries.getD e (0, 0)
      match g.rankOf (Coord.ofCode (BitVec.ofNat 17 en.1)) with
      | some r =>
        let row := v.1 / p.topk
        pure (some (r * 1024 + en.2, src.global 0 row, v.1 % p.topk, rowOf src codes tiles (row * w) w))
      | none => failOp .bounds g.table 0x0B
    | _ => pure none)
  let n (r : Route) : Nat := (vs.filter fun v => v.2 == r).length
  pure { c with a := { c.a with tds := [src, dst, route, map, default, ovt] }, sig := d.signature [src, dst, route], rows := send
                counts := [send.length, 0, 0, n .out, n .none] }

/-- The placement table of the queue's group. -/
def State.withPlacement (s : State) (q : Nat) (c : Coll) (g : Group) (env : Env) (k : State → Placement → State) : State :=
  if g.table = 0 then s.cqFail q { st := .fieldReserved, addr := c.a.entry.desc, obj := 1, off := 0 } env
  else
    let r := s.runOp env (takePlacement (s.cqCtx q c.a.entry env) g.table)
    match r.2 with
    | .error f => r.1.cqFail q f env
    | .ok p => k r.1 p

def State.dispatch (s : State) (q : Nat) (env : Env) : State :=
  match s.collFresh q kDispatch with
  | none => s
  | some (c, g) => s.withPlacement q c g env fun s p =>
    let h := p.holds g
    s.collStart q c g h env (fun x => do let c ← c.prepDispatch g p h x; pure (c.enter g)) fun s => s.onward q env

def execExpertDispatch (queue : Fin 64) (env : Env) (s : State) : Out := .next (s.around env fun s env => s.dispatch queue env)

/-! ### EXPERT_PLACEMENT (R342) -/

/-- Rows of one slot in their order: global token index, then position. -/
def sortRows (l : List (Nat × Nat × Nat × List Byte)) : List (Nat × Nat × Nat × List Byte) :=
  sortWith (fun a b => decide (a.2.1 < b.2.1) || (a.2.1 == b.2.1 && decide (a.2.2.1 ≤ b.2.2.1))) l

/-- Write rows into a buffer of `per` rows a slot; tiles with unused rows keep those rows' contents. -/
def writeRows (x : Ctx) (t : TD) (rows : Nat → Option (List Byte)) : Op Unit :=
  (List.range t.tiles).forM fun i => do
    let w := t.inner
    let n := t.tileCount i
    let blk (b : Nat) : Option (Nat × List Nat) :=
      let m := 4096 * i + 32 * b
      (rows (m / w)).map fun l =>
        let codes := unpack t.type w (l.take (typeBytes t.type w))
        ((l.getD (typeBytes t.type w + m % w / 32) 0).toNat, (codes.drop (m % w)).take 32)
    let bs := (List.range (n / 32)).map blk
    let new := bs.filterMap id
    if new.isEmpty then pure ()
    else
      let made := new.map fun b => blockOf t.type b.1 b.2
      if bs.all (·.isSome) then writeWhole x t i (outOf t.type made)
      else
        let old ← checkTile x t i
        let oc := unpack t.type n old.payload
        let all := (List.range bs.length).map fun b =>
          ((bs.getD b none).getD ((old.side.scales.getD b 0).toNat, (oc.drop (32 * b)).take 32))
        writeUpdate x t i old.side (outOf t.type (all.map fun b => blockOf t.type b.1 b.2))
      censusUpdate x t.census (censusOf t.type (opTag x).step made)

/-- The dispatch map: token and position of each row, −1 in both for an empty one. -/
def writeMap (x : Ctx) (t : TD) (vals : List Nat) : Op Unit :=
  (List.range t.tiles).forM fun i => do
    let bs := (chunks 32 ((vals.drop (4096 * i)).take (t.tileCount i))).map plainBlockOf
    writeWhole x t i (outOf t.type bs)
    censusUpdate x t.census (censusOf t.type (opTag x).step bs)

/-- Place the rows that have come; counts of overflowed and dropped rows. -/
def Coll.place (c : Coll) (p : Placement) (x : Ctx) : Op (Nat × Nat) := do
  let dst := c.dst
  let map := c.a.tds.getD 3 default
  let ovt := c.a.tds.getD 5 default
  let s := nth dst.shape 0
  if c.rows.any fun r => decide (s ≤ r.1 % 1024) then failOp .bounds dst.ptr 2
  let slots := (List.range s).map fun i => sortRows (c.rows.filter fun r => r.1 % 1024 == i)
  if p.policy = 1 ∧ (slots.any fun l => decide (p.capacity + p.overflow < l.length)) then failOp .bounds dst.ptr 2
  let at_ (i j : Nat) : Option (Nat × Nat × Nat × List Byte) :=
    if p.policy = 1 ∨ j < p.capacity then (slots.getD i [])[j]? else none
  writeRows x dst fun r => (at_ (r / p.capacity) (r % p.capacity)).map (·.2.2.2)
  if p.overflow ≠ 0 then
    writeRows x ovt fun r => (at_ (r / p.overflow) (p.capacity + r % p.overflow)).map (·.2.2.2)
  let per := p.capacity + p.overflow
  writeMap x map ((List.range s).flatMap fun i => (List.range per).flatMap fun j => match at_ i j with
    | some r => [r.2.1 % 2 ^ 32, r.2.2.1]
    | none => [0xFFFFFFFF, 0xFFFFFFFF])
  let beyond := (slots.map fun l => l.length - p.capacity).foldl (· + ·) 0
  pure (if p.policy = 1 then (beyond, 0) else (0, beyond))

def State.placement (s : State) (q : Nat) (env : Env) : State :=
  match (s.cq q).cur, (s.cq q).group with
  | some c, some g =>
    if c.d.kind ≠ kDispatch ∨ !c.a.started ∨ c.written ∨ !c.ran g then s
    else s.withPlacement q c g env fun s p =>
      if !p.holds g then s.updColl q fun c => { c with written := true }
      else
        let x := s.cqCtx q c.a.entry env
        let r := s.runOp {} (c.place p x)
        match r.2 with
        | .error f => r.1.cqFail q f env
        | .ok n => r.1.updColl q fun c => { c with written := true, counts := (c.counts.set 1 n.1).set 2 n.2 }
  | _, _ => s

def execExpertPlacement (queue : Fin 64) (env : Env) (s : State) : Out := .next (s.around env fun s env => s.placement queue env)

/-! ### EXPERT_COMBINE (R343) -/

/-- A tile of wire values; a reserved encoding fails the operation (03 R87). -/
def wireTile (x : Ctx) (t : TD) (i : Nat) : Op (Tile × List Nat) := do
  let y ← checkTile x t i
  let codes := unpack t.type (t.tileCount i) y.payload
  if codes.any (reservedWire t.type) then failOp .checkTile (t.sidecarAddr i) 4 else pure (y, codes)

/-- Tiles of an update write must be COMPLETE with the operation's TAG and ATTEMPT (06 R200). -/
def ownTiles (x : Ctx) (t : TD) : Op Unit :=
  (List.range t.tiles).forM fun i => do
    let (y, _) ← wireTile x t i
    if y.side.tag ≠ opTag x ∨ y.side.flags.attempt ≠ x.attempt then failOp .checkTile (t.sidecarAddr i) 4

def Coll.prepCombine (c : Coll) (g : Group) (p : Placement) (holder : Bool) (x : Ctx) : Op Coll := do
  let d := c.d
  let none' : Op TD := pure default
  let src ← if holder then takeDist x false d.src else none'
  let dst ← takeDist x true d.dst
  let map ← if holder then takeDist x false d.map else none'
  let gate ← takeDist x false d.gate
  needType dst (dst.type == 0x21 || dst.type == 0x22)
  needType gate (isWide gate.type)
  if holder then
    needType src (mxOrWide src.type)
    needType map (isInt32 map.type)
  let tab ← takeTable x dst.anchor { tableUse x dst with reduce := some p.topk }
  if tab.profile ≠ 2 ∨ tab.wireType ≠ dst.type then failOp .fieldReserved dst.anchor 3 16
  let t := nth dst.shape 0
  let w := nth dst.shape 1
  needShape dst [t, w]
  needShape gate [t, p.topk]
  if holder then
    let s := nth src.shape 0
    needShape src [s, p.capacity + p.overflow, w]
    needShape map [s, p.capacity + p.overflow, 2]
    if !(src.whole && map.whole) then failOp .bounds src.ptr 2
  if !(dst.byToken g.size g.rank && gate.byToken g.size g.rank && dst.kindOf 0 == gate.kindOf 0) then failOp .bounds dst.ptr 2
  noOverlap [dst] ([gate] ++ if holder then [src, map] else [])
  ownTiles x dst
  let (gc, _) ← readPiece x gate
  let tds := [src, dst, default, map, gate]
  let c : Coll := { c with a := { c.a with tds }, sig := d.signature tds, anchors := tab.entry, bound := tab.bound 0, work := gc }
  if !holder then pure { c with counts := [0, 0] }
  else
    let (mc, _) ← readPiece x map
    let (codes, tiles) ← readPiece x src
    let rows ← (List.range (mc.length / 2)).filterMapM fun i => do
      let v := sext 32 (mc.getD (2 * i) 0)
      let j := sext 32 (mc.getD (2 * i + 1) 0)
      if v = -1 then pure none
      else if v < 0 ∨ (t : Int) ≤ v ∨ j < 0 ∨ (p.topk : Int) ≤ j then failOp .bounds map.ptr 2
      else pure (some (dst.tokenOwner v.toNat * 1024, v.toNat, j.toNat, le 1 src.type ++ le 4 src.tscale ++ rowOf src codes tiles (i * w) w))
    pure { c with rows, counts := [rows.length, 0] }

/-- The terms of one returned row: floor(w × y / 2^L) with its violations, per column. -/
def Coll.terms (c : Coll) (r : Nat × Nat × Nat × List Byte) : List (Acc × Bool) :=
  let dst := c.dst
  let gate := c.a.tds.getD 4 default
  let b := r.2.2.2
  let type := fld b 0 1
  let w := nth dst.shape 1
  let codes := unpack type w (b.drop 5)
  let scale (col : Nat) : Nat := (b.getD (5 + typeBytes type w + col / 32) 0).toNat
  let row := ((dst.localOf [r.2.1, 0]).getD []).getD 0 0
  let wt := elemValue gate.type (c.work.getD (row * nth gate.shape 1 + r.2.2.1) 0)
  let ts : Num := if isMx type then fp32 (fld b 1 4) else .fin 1 0
  (List.range w).map fun col =>
    let l := c.anchors.getD (col / 32) 0
    termOf l (l + c.bound) (wt.mul ((elemNum type 0 (codes.getD col 0, scale col)).mul ts))

/-- Add every returned row into the destination, tile by tile, as update writes. -/
def Coll.addRows (c : Coll) (x : Ctx) : Op Nat := do
  let dst := c.dst
  let w := nth dst.shape 1
  let n := wireWidth dst.type
  let rows := c.rows.map fun r => (((dst.localOf [r.2.1, 0]).getD []).getD 0 0, c.terms r)
  let out ← (List.range dst.tiles).mapM fun i => do
    let (t, codes) ← wireTile x dst i
    let touched := rows.any fun r => decide (r.1 * w < 4096 * i + codes.length) && decide (4096 * i < (r.1 + 1) * w)
    if !touched then pure 0
    else
      let new := (List.range codes.length).map fun j =>
        let m := 4096 * i + j
        (rows.filter fun r => r.1 == m / w).foldl (fun (a : Acc × Nat) r =>
          let y := r.2.getD (m % w) (.fin 0, false)
          let z := a.1.combine n y.1
          (z.1, a.2 + boolN y.2 + boolN z.2)) (((Acc.decode n (codes.getD j 0)).getD .nan), 0)
      let bs := (chunks 32 (new.map fun a => a.1.encode n)).map plainBlockOf
      writeUpdate x dst i t.side (outOf dst.type bs)
      censusUpdate x dst.census (censusOf dst.type (opTag x).step bs)
      pure ((new.map (·.2)).foldl (· + ·) 0)
  pure (out.foldl (· + ·) 0)

/-- Rows for this member have come from every holder: the terms are added. -/
def State.combineDone (s : State) (q : Nat) (env : Env) : State :=
  match (s.cq q).cur, (s.cq q).group with
  | some c, some g =>
    if c.d.kind ≠ kCombine ∨ !c.a.started ∨ c.written ∨ !c.ran g then s
    else
      let r := s.runOp {} (c.addRows (s.cqCtx q c.a.entry {}))
      match r.2 with
      | .error f => r.1.cqFail q f env
      | .ok viol => r.1.updColl q fun c =>
        { c with written := true, a := { c.a with viol := c.a.viol + viol, wrote := true }
                 counts := c.counts.set 1 (c.rows.length * nth c.dst.shape 1) }
  | _, _ => s

/-- The command begins a combine; given again once the rows of every holder are here, it adds their terms. -/
def State.combine (s : State) (q : Nat) (env : Env) : State :=
  match s.collFresh q kCombine with
  | none => s.combineDone q env
  | some (c, g) => s.withPlacement q c g env fun s p =>
    let h := p.holds g
    s.collStart q c g h env (fun x => do let c ← c.prepCombine g p h x; pure (c.enter g)) fun s =>
      (s.onward q env).combineDone q env

def execExpertCombine (queue : Fin 64) (env : Env) (s : State) : Out := .next (s.around env fun s env => s.combine queue env)

end Sys2Proof.Machine
end

