-- ==== Sys2Proof/Machine/Functions.lean ====
section
/-! DEFINITION. The function unit: special arguments, the exact results its bound of 1 ulp is measured from, the ROM's free value (05 R168). -/
namespace Sys2Proof.Machine

/-! ### Special arguments (Table 5.4) -/

/-- Is the finite code at or above n / d in magnitude? -/
def atLeast (c n d : Nat) : Bool :=
  match fp32 (mag32 c) with
  | .fin m e => if 0 ≤ e then decide (n ≤ m.toNat * 2 ^ e.toNat * d) else decide (n * 2 ^ (-e).toNat ≤ m.toNat * d)
  | _ => true

/-- The integer a finite code holds, when it holds one. -/
def intOf32 (c : Nat) : Option Int :=
  match fp32 c with
  | .fin m e => if 0 ≤ e then some (m * 2 ^ e.toNat) else if m % 2 ^ (-e).toNat = 0 then some (m / 2 ^ (-e).toNat) else none
  | _ => none

/-- Table 5.4: the function of a special argument. -/
def special (op a : Nat) : Option Nat :=
  let n := neg32 a
  if isNan32 a then some nan32
  else if op = 0x10 then
    if isInf32 a then some (if n then 0 else inf32 false)
    else if mag32 a = 0 then some one32
    else if n && atLeast a 150 1 then some 0
    else if !n && atLeast a 128 1 then some (inf32 false)
    else (intOf32 a).map fun k => rne32 (.fin 1 k)
  else if op = 0x11 then
    if isInf32 a then some (if n then nan32 else inf32 false)
    else if mag32 a = 0 then some (inf32 true)
    else if n then some nan32
    else if a = one32 then some 0 else none
  else if op = 0x12 then
    if isInf32 a then some (if n then nan32 else 0)
    else if mag32 a = 0 then some (inf32 n)
    else if n then some nan32 else none
  else if op = 0x13 then
    if isInf32 a then some (signed32 n 0) else if mag32 a = 0 then some (inf32 n) else none
  else
    if mag32 a = 0 then some a
    else if isInf32 a || (if op = 0x14 then atLeast a 91 10 else atLeast a 393 100) then some (signed32 n one32) else none

/-! ### Exact results, to 2^-240

The bound of R168 is on the error against the exact result. Each function below is its power series in integers that count
2^-240; what the series leaves out is far below 1 ulp of any FP32 value (DEDUCED, log entry 29). -/

/-- Product of two such values. -/
def fixMul (x y : Int) : Int := x * y / 2 ^ 240

/-- The sum of t, t x / (k + 1), t x² / ((k + 1)(k + 2)), … -/
def expGo (x : Int) : Nat → Nat → Int → Int → Int
  | 0, _, _, s => s
  | n + 1, k, t, s => expGo x n (k + 1) (fixMul t x / (k + 1 : Nat)) (s + t)
def expFix (x : Int) : Int := expGo x 160 0 (2 ^ 240) 0

/-- The sum of p / k, p q / (k + 2), p q² / (k + 4), … -/
def oddGo (q : Int) : Nat → Nat → Int → Int → Int
  | 0, _, _, s => s
  | n + 1, k, p, s => oddGo q n (k + 2) (fixMul p q) (s + p / (k : Nat))
/-- Artanh and arctan. -/
def artanhFix (z : Int) : Int := oddGo (fixMul z z) 90 1 z 0
def arctanFix (z : Int) : Int := oddGo (-fixMul z z) 120 1 z 0

def ln2Fix : Int := 2 * artanhFix (2 ^ 240 / 3)
/-- 16 arctan 1/5 - 4 arctan 1/239. -/
def piFix : Int := 16 * arctanFix (2 ^ 240 / 5) - 4 * arctanFix (2 ^ 240 / 239)

/-- The sum of t / (2 k + 1), t q / ((k + 1)(2 k + 3)), … -/
def erfGo (q : Int) : Nat → Nat → Int → Int → Int
  | 0, _, _, s => s
  | n + 1, k, t, s => erfGo q n (k + 1) (fixMul t q / (k + 1 : Nat)) (s + t / (2 * k + 1 : Nat))
def erfFix (x : Int) : Int :=
  erfGo (-fixMul x x) 200 0 x 0 * 2 * 2 ^ 240 / isqrt (piFix.toNat * 2 ^ 240)

/-- The exact result m × 2^e of function `op` on an argument that is not special. -/
def exactFunc (op a : Nat) : Int × Int :=
  match fp32 a with
  | .fin m e =>
    let x : Int := m * 2 ^ (e + 240).toNat
    let l := floorLog2 m e
    if op = 0x10 then
      let n := x / 2 ^ 240
      (expFix (fixMul (x - n * 2 ^ 240) ln2Fix), n - 240)
    else if op = 0x11 then
      let y : Int := m.natAbs * 2 ^ (240 + (e - l)).toNat
      (l * 2 ^ 240 + 2 * artanhFix ((y - 2 ^ 240) * 2 ^ 240 / (y + 2 ^ 240)) * 2 ^ 240 / ln2Fix, -240)
    else if op = 0x12 then (isqrt (2 ^ (480 - e).toNat / m.natAbs), -240)
    else if op = 0x13 then (2 ^ (240 - e).toNat / m, -240)
    else if op = 0x14 then
      let t := expFix (2 * x.natAbs)
      ((if x < 0 then -1 else 1) * ((t - 2 ^ 240) * 2 ^ 240 / (t + 2 ^ 240)), -240)
    else (erfFix x, -240)
  | _ => (0, 0)

/-! ### The function unit -/

/-- Is the code finite and at most 1 ulp of the exact result away from it, subnormal results included? -/
def withinUlp (c : Nat) (v : Int × Int) : Bool :=
  match (fp32 c).add (Num.fin (-v.1) v.2) with
  | .fin m e =>
    let u := max (floorLog2 v.1 v.2) (-126) - 23
    let g := min e u
    decide ((alignTo m e g).natAbs ≤ 2 ^ (u - g).toNat)
  | _ => false

/-- RCP beyond 2^126 gives a subnormal or zero (Table 5.4). -/
def edgeOk (op a c : Nat) : Bool := !(op == 0x13 && decide (0x7E800000 < mag32 a)) || decide (mag32 c < 0x800000)

/-- The function unit: the special arguments, else the free value of its ROM, held to 1 ulp of the exact result and to the edges
of Table 5.4: a free value beyond them is replaced by the nearest code. Where the exact result lies outside the finite range, the
free value stands. -/
def func32 (op a : Nat) : Nat :=
  match special op a with
  | some x => x
  | none =>
    let c := (Config.trellisRom (BitVec.ofNat 8 op) (BitVec.ofNat 32 a)).toNat
    let v := exactFunc op a
    if reaches v.1 v.2 128 || (withinUlp c v && edgeOk op a c) then c else rne32 (.fin v.1 v.2)

end Sys2Proof.Machine
end

