-- ==== Sys2Proof/Machine/Trellis.lean ====
section
/-! DEFINITION. The trellis vector fabric: images, strokes, functions, adapters, streams, runs (05). -/
namespace Sys2Proof.Machine

/-! ### Images (R174, R175) -/

structure Stroke where
  op  : Nat
  dst : Nat
  a   : Nat
  b   : Nat
  c   : Nat
  mod : Nat
  resv : Nat

structure Image where
  format : Nat
  body   : Nat
  tail   : Nat
  consts : Nat
  inputs : Nat
  outputs : Nat
  adapters : Nat
  major  : Nat
  size   : Nat
  crc    : Nat
  resv   : List Byte
  strokes : List Stroke
  k      : List Nat

def Image.ofBytes (l : List Byte) : Image :=
  let body := fld l 1 1
  let tail := fld l 2 1
  let consts := fld l 3 1
  { format := fld l 0 1, body, tail, consts, inputs := fld l 4 1, outputs := fld l 5 1, adapters := fld l 6 1
    major := fld l 8 2, size := fld l 16 4, crc := fld l 20 4, resv := slice l 7 1 ++ slice l 10 2 ++ slice l 24 40
    strokes := (List.range (body + tail)).map fun i =>
      let o := 64 + 8 * i
      { op := fld l o 1, dst := fld l (o + 1) 1, a := fld l (o + 2) 1, b := fld l (o + 3) 1, c := fld l (o + 4) 1
        mod := fld l (o + 5) 1, resv := fld l (o + 6) 2 }
    k := (List.range consts).map fun i => fld l (64 + 8 * (body + tail) + 4 * i) 4 }

def opListed (op : Nat) : Bool := (1 ≤ op && op ≤ 5) || (0x10 ≤ op && op ≤ 0x15) || (0x20 ≤ op && op ≤ 0x22)

/-- An operand selector that the image may name (Table 5.2). -/
def Image.selOk (im : Image) (x : Nat) : Bool :=
  x ≤ 0x0F || (0x10 ≤ x && x < 0x10 + im.inputs) || x == 0x14 || x == 0x15 || (0x80 ≤ x && x < 0x80 + im.consts)

/-- The fields of stroke `i` with their byte offsets: which of them are outside Tables 5.2 and 5.3 or in the wrong section. -/
def Image.strokeRows (im : Image) (i : Nat) (s : Stroke) : List (Nat × Bool) :=
  let o := 64 + 8 * i
  let tail := decide (im.body ≤ i)
  let dst : Bool :=
    if s.op = 0x20 ∨ s.op = 0x21 then 0x20 ≤ s.dst && s.dst < 0x20 + im.adapters
    else s.dst ≤ 0x0F || (0x18 ≤ s.dst && s.dst < 0x18 + im.outputs)
  let a : Bool :=
    if s.op = 0x21 then 0x10 ≤ s.a && s.a < 0x10 + im.inputs
    else if s.op = 0x22 then 0x20 ≤ s.a && s.a < 0x20 + im.adapters else im.selOk s.a
  [ (o, !opListed s.op || (s.op == 0x20 && tail) || ((s.op == 0x21 || s.op == 0x22) && !tail)), (o + 1, !dst), (o + 2, !a),
    (o + 3, !im.selOk s.b), (o + 4, !im.selOk s.c), (o + 5, !decide (s.mod < 8)), (o + 6, s.resv != 0) ]

/-- The fields of an image with their byte offsets, in byte order: which of them the last check of R175 refuses. -/
def Image.rows (im : Image) : List (Nat × Bool) :=
  [ (0, im.format != 1), (1, im.body == 0 || decide (192 < im.body)), (2, decide (64 < im.tail)), (3, decide (128 < im.consts)),
    (4, decide (4 < im.inputs)), (5, decide (2 < im.outputs)), (6, decide (2 < im.adapters)),
    (7, !zeros (im.resv.take 1)), (10, !zeros (slice im.resv 1 2)),
    (16, im.size != 64 + 8 * (im.body + im.tail) + 4 * im.consts), (24, !zeros (im.resv.drop 3)) ]
  ++ (List.range im.strokes.length).flatMap fun i => match im.strokes[i]? with | some s => im.strokeRows i s | none => []

/-- The byte offset of the first field that the image's last check refuses; 0xFF for one that FAULT_OFFSET cannot hold. -/
def Image.bad (im : Image) : Option Nat := (im.rows.find? (·.2)).map fun x => min x.1 0xFF

/-! ### Loads (R175) -/

/-- The image at SOURCE, checked. -/
def TrD.loadImage (d : TrD) (c : Ctx) (major : Nat) : Op (List Byte) := do
  let bad {α : Type} (st : Status) (off : Nat) : Op α := failOp st d.source 7 off
  let h ← tryCatch (readAt c d.source 64) fun f => failOp f.st d.source 7
  let size := fld h 16 4
  if size < 64 ∨ 4096 < size then bad .fieldReserved 16
  else
    let l ← tryCatch (readAt c d.source size) fun f => failOp f.st d.source 7
    let im := Image.ofBytes l
    if (crc32c (slice l 0 20 ++ l.drop 24)).toNat ≠ im.crc then bad .checkTile 20
    else if im.major ≠ major then bad .imageMajor 8
    else match im.bad with
      | some off => bad .fieldReserved off
      | none => pure l

/-- The offset of the first field that a load does not use and that is not 0 (R178). -/
def TrD.restOff (d : TrD) : Nat :=
  let j := d.rest.findIdx (· ≠ 0)
  let o := if j < 78 then 2 + j else if j < 86 then 10 + j else 18 + j
  ([2, 4, 8, 12, 16, 24, 32, 40, 48, 56, 64, 72, 74, 76, 88, 89, 90, 91, 92, 93, 94, 104].filter (· ≤ o)).getLastD 2

def State.imageLoad (s : State) (i : Nat) (env : Env) : State :=
  let q := 768 + i
  match s.fresh q with
  | none => s
  | some x =>
    let d := TrD.ofBytes x.desc
    if d.kind ≠ 0x43 ∨ s.engineHeld q then s
    else
      let s := s.onDp (·.upsets env.upsets)
      let env := { env with upsets := [] }
      let bad (st : Status) (off : Nat) : State := s.complete q (failComp { st, addr := x.entry.desc, obj := 1, off } false) env
      if 7 < d.slot then bad .fieldReserved 1
      else if !zeros d.rest then bad .fieldReserved d.restOff
      else if d.source.toNat % 32 ≠ 0 then bad .align 96
      else
        let r := s.runOp {} (d.loadImage (s.entryCtx q x.entry env) s.fw.major.toNat)
        match r.2 with
        | .error f => r.1.complete q (failComp f false) env
        | .ok l =>
          (r.1.updTrellis i fun t => { t with images := Sparse.set [] t.images d.slot l
                                              last := if t.last = some d.slot then none else t.last }).complete q {} env

def execTrellisImageLoad (easel : Easel) (env : Env) (s : State) : Out := .next (s.imageLoad easel env)

/-! ### The checks of a run (R180) -/

def inKind (d : TrD) (i : Nat) : Nat := nth d.ik i
def outKind (d : TrD) (i : Nat) : Nat := nth d.ok i
def TrD.given (d : TrD) (i : Nat) : Bool := d.ins.getD i 0 ≠ 0
/-- Input streams a stroke reads. -/
def Stroke.reads (s : Stroke) : List Nat :=
  let l := if s.op = 0x22 then [] else if s.op = 0x21 ∨ s.op = 0x20 ∨ (0x10 ≤ s.op ∧ s.op ≤ 0x15) then [s.a]
    else if s.op = 2 ∨ s.op = 3 then [s.a, s.b] else [s.a, s.b, s.c]
  (l.filter fun x => 0x10 ≤ x && x ≤ 0x13).map (· - 0x10)

/-- The descriptor field of a stream that the stroke needs and the run does not give, or that R543 rules out for it. -/
def TrD.strokeBad (d : TrD) (tail : Bool) (s : Stroke) : Option Nat :=
  match s.reads.find? fun x => !d.given x || (s.op == 0x21) != decide (5 ≤ inKind d x) || (inKind d x == 0 && tail) with
  | some x => some (if d.given x then 88 + x else 16 + 8 * x)
  | none =>
    if s.op = 0x20 ∨ s.op = 0x21 ∨ s.dst < 0x18 ∨ 0x19 < s.dst then none
    else
      let o := s.dst - 0x18
      if !d.outGiven o then some (48 + 8 * o) else if (outKind d o == 0) == tail then some (92 + o) else none

/-- The field that fails the streams' row of Table 5.9: too few of them, or one the image's strokes cannot use. -/
def TrD.streamBad (d : TrD) (im : Image) : Option Nat :=
  if ((List.range 4).filter d.given).length < im.inputs then some (16 + 8 * ((List.range 4).find? fun i => !d.given i).getD 0)
  else if ((List.range 2).filter d.outGiven).length < im.outputs then some (48 + 8 * ((List.range 2).find? fun i => !d.outGiven i).getD 0)
  else (List.range im.strokes.length).findSome? fun i => im.strokes[i]?.bind (d.strokeBad (decide (im.body ≤ i)))

def TrD.streamsOk (d : TrD) (im : Image) : Bool := (d.streamBad im).isNone

def TrD.fieldRows (d : TrD) : List (Bool × Status × Nat) :=
  ([ (7 < d.slot, .fieldReserved, 1) ] : List (Bool × Status × Nat))
  ++ (List.range 4).map (fun i => (decide (7 < nth d.ik i), Status.fieldReserved, 88 + i))
  ++ (List.range 2).map (fun i => (decide (1 < nth d.ok i), Status.fieldReserved, 92 + i))
  ++ ([ (!zeros (d.resv.take 2), .fieldReserved, 2), (!zeros (slice d.resv 2 2), .fieldReserved, 94),
       (!zeros (d.resv.drop 4), .fieldReserved, 104), (d.source ≠ 0, .fieldReserved, 96) ] : List (Bool × Status × Nat))

def TrD.countRows (d : TrD) : List (Bool × Status × Nat) :=
  ([ (d.rows == 0xFFFFFFFF, .fieldReserved, 4), (2 ^ 24 < d.len, .fieldReserved, 8) ] : List (Bool × Status × Nat))
  ++ (List.range 2).map fun i => (decide (d.l.getD i 0 < -512) || decide (511 < d.l.getD i 0), Status.fieldReserved, 72 + 2 * i)

def TrD.alignRows (d : TrD) : List (Bool × Status × Nat) :=
  (List.range 4).map (fun i => (decide ((d.ins.getD i 0).toNat % 32 ≠ 0), Status.align, 16 + 8 * i))
  ++ (List.range 2).map (fun i => (decide ((d.outs.getD i 0).toNat % 32 ≠ 0), Status.align, 48 + 8 * i))
  ++ [(decide (d.adapt.toNat % 32 ≠ 0), Status.align, 64)]

/-- The streams' descriptors: IN0 to IN3 then OUT0, OUT1; a stream with none keeps the default. -/
def TrD.fetch (d : TrD) (c : Ctx) : Op (List TD) := do
  let i ← (List.range 4).mapM fun i => if d.given i && decide (inKind d i ≤ 1) then takeTD c false (d.ins.getD i 0) else pure default
  let o ← (List.range 2).mapM fun i => if d.outGiven i then takeTD c true (d.outs.getD i 0) else pure default
  pure (i ++ o)

/-- Elements of a stream that `n` rows from ROW_BEGIN take. -/
def TrD.need (d : TrD) (elem : Bool) (n : Nat) : Nat := if elem then (d.row0 + n) * d.len else d.row0 + n

/-- The stream tensors: their element kind and descriptor. -/
def TrD.streams (d : TrD) (tds : List TD) : List (Bool × TD) :=
  ((List.range 4).filter fun i => d.given i && decide (inKind d i ≤ 1)).map (fun i => (inKind d i == 0, tds.getD i default))
  ++ ((List.range 2).filter d.outGiven).map (fun i => (outKind d i == 0, tds.getD (4 + i) default))

def streamRuns (d : TrD) (elem : Bool) (rows : Nat) : List (Nat × Nat) :=
  if elem then [(d.row0 * d.len, rows * d.len)] else [(d.row0, rows)]

def recordSize (k : Nat) : Nat := if k = 5 then 96 else 128

def TrD.overlaps (d : TrD) (own : Coord) (tds : List TD) (rows : Nat) : Bool :=
  let ins := (List.range 4).flatMap fun i =>
    if !d.given i then [] else if inKind d i ≤ 1 then footprint own (tds.getD i default) (streamRuns d (inKind d i == 0) rows)
    else areaOf own (d.ins.getD i 0) (recordSize (inKind d i) * rows)
  let outs := (List.range 2).map (fun i =>
    if d.outGiven i then footprint own (tds.getD (4 + i) default) (streamRuns d (outKind d i == 0) rows) else [])
    ++ [if d.adapt = 0 then [] else areaOf own d.adapt (96 * rows)]
  (outs.any fun o => meets o ins) || meets (outs.getD 0 []) (outs.getD 1 []) || meets (outs.getD 0 []) (outs.getD 2 [])
    || meets (outs.getD 1 []) (outs.getD 2 [])

/-- Rows of Table 5.9 after the descriptors: the run's plan. -/
def TrD.planOf (d : TrD) (c : Ctx) (desc : Addr) (tds : List TD) : Op TrellisRun := do
  let outs := (List.range 2).filter d.outGiven
  let o (i : Nat) : TD := tds.getD (4 + i) default
  match outs.find? fun i => !(isMx (o i).type || isWide (o i).type) with
  | some i => failOp .fieldReserved (o i).ptr 2 1
  | none => pure ()
  let anchors ← (List.range 4).mapM fun i => do
    let t := tds.getD i default
    if d.given i ∧ inKind d i = 0 ∧ isWire t.type then
      let x ← takeTable c t.anchor { step := (opTag c).step, out := some (t.tensorId, nth t.shape (t.rank - 1)) }
      pure x.entry
    else pure []
  match outs.find? fun i => if outKind d i = 0 then d.len % 32 ≠ 0 else d.row0 % 32 ≠ 0 ∨ d.rows % 32 ≠ 0 with
  | some i => failOp .fieldReserved desc 1 (if outKind d i = 0 then 8 else if d.row0 % 32 ≠ 0 then 76 else 4)
  | none => pure ()
  let srs ← (List.range 2).mapM fun i =>
    if d.outGiven i && (o i).gradient then (do let x ← takeSr c (o i) ((o i).ptr + 128); pure (some x)) else pure none
  let st := d.streams tds
  let short := st.find? fun x => decide (x.2.total < d.need x.1 d.rows)
  match short with
  | some x => if st.any fun y => !y.2.sprig then failOp .bounds x.2.ptr 2 else pure ()
  | none => pure ()
  let rows := st.foldl (fun n x => min n ((if x.1 then x.2.total / d.len else x.2.total) - d.row0)) d.rows
  let dp ← get
  if d.overlaps dp.coord tds rows then failOp .overlap desc 1
  else pure { rows, clipRows := d.rows - rows, anchors, srs, held := [[], []] }

/-- The stream pieces are all empty, and there is one (06 R186). -/
def TrD.allEmpty (d : TrD) (tds : List TD) : Bool :=
  let l := d.streams tds
  !l.isEmpty && l.all fun x => x.2.empty

/-- The run's plan; pieces that are all empty end the checks with no row. -/
def TrD.plan (d : TrD) (c : Ctx) (desc : Addr) (tds : List TD) : Op TrellisRun :=
  if d.allEmpty tds then pure { rows := 0, clipRows := 0, anchors := [], srs := [], held := [] } else d.planOf c desc tds

/-! ### Starting and ending -/

/-- The run starts: a switch of 64 cycles unless the previous run used the slot (R176). -/
def State.startRun (s : State) (i : Nat) (d : TrD) (r : TrellisRun) (env : Env) : State :=
  let sw := if (s.trellis i).last = some d.slot then 0 else 64
  let s := s.updTrellis i fun t => { t with last := some d.slot, run := some { r with switch := sw }, fenced := none, adapters := [] }
  if r.rows = 0 then s.endTrellis i { st := .ok } env else s

/-- The fence of a run that has passed its checks (R181). -/
def State.runFenced (s : State) (i : Nat) (x : Active) (env : Env) (r : TrellisRun) : State :=
  let d := TrD.ofBytes x.desc
  match s.fenceStatus i (BitVec.ofNat 32 d.fence) with
  | some st =>
    if fencePasses st then s.startRun i d r env
    else (s.updTrellis i fun t => { t with fenced := none }).complete (768 + i)
      (failComp { st := (Status.ofCode st.toNat).getD .fieldReserved } false) env
  | none => s.updTrellis i fun t => { t with fenced := some r }

/-- The checks, then the fence (R181). -/
def State.runChecked (s : State) (i : Nat) (x : Active) (env : Env) : State :=
  let q := 768 + i
  let d := TrD.ofBytes x.desc
  let c := s.entryCtx q x.entry env
  let y := s.runOp {} (do
    let tds ← d.fetch c
    let r ← d.plan c x.entry.desc tds
    pure (tds, r))
  match y.2 with
  | .error f => y.1.complete q (failComp f false) env
  | .ok (tds, r) =>
    let s := y.1.updCur q fun x => { x with started := true, tds }
    if d.allEmpty tds then s.complete q {} env
    else if d.fence = 0 then s.startRun i d r env
    else s.runFenced i x env r

def State.trellisRun (s : State) (i : Nat) (env : Env) : State :=
  let q := 768 + i
  match s.fresh q with
  | none => s
  | some x =>
    let d := TrD.ofBytes x.desc
    if d.kind ≠ 0x42 ∨ s.engineHeld q then s
    else
      let s := s.onDp (·.upsets env.upsets)
      let env := { env with upsets := [] }
      let bad (st : Status) (off : Nat) : State := s.complete q (failComp { st, addr := x.entry.desc, obj := 1, off } false) env
      match firstRow d.fieldRows with
      | some (st, off) => bad st off
      | none =>
        if d.rows = 0 ∨ d.len = 0 then s.complete q {} env
        else match firstRow d.countRows with
          | some (st, off) => bad st off
          | none =>
            match Sparse.get [] (s.trellis i).images d.slot with
            | [] => bad .fieldReserved 1
            | l =>
              if !d.streamsOk (Image.ofBytes l) then bad .fieldReserved ((d.streamBad (Image.ofBytes l)).getD 0xFF)
              else match firstRow d.alignRows with
                | some (st, off) => bad st off
                | none => s.runChecked i x env

def execTrellisRun (easel : Easel) (env : Env) (s : State) : Out := .next (s.trellisRun easel env)

/-- The array operation a run awaits has completed. -/
def State.trellisRelease (s : State) (i : Nat) (env : Env) : State :=
  let q := 768 + i
  match (s.eq q).cur, (s.trellis i).fenced with
  | some x, some r =>
    if s.engineHeld q then s
    else s.around env fun s env => s.runFenced i x env r
  | _, _ => s

def execTrellisFenceRelease (easel : Easel) (env : Env) (s : State) : Out := .next (s.trellisRelease easel env)

/-! ### Streams (Table 5.8) -/

/-- The FP32 value of an element: rounded once from its exact value, which is R52's with the tensor scale for MX types;
a zero keeps the sign that its code has (02 R48). -/
def laneValue (t : TD) (l : Int) (x : Nat × Nat) : Nat :=
  if t.type = 0x11 then x.1
  else if t.type = 0x10 then x.1 * 2 ^ 16
  else if isMx t.type then
    match (elemNum t.type 0 x).mul (fp32 t.tscale) with
    | .fin 0 _ => if t.type ≠ 6 ∧ bitOf x.1 (typeBits t.type - 1) then 2 ^ 31 else 0
    | v => rne32 v
  else rne32 (elemNum t.type l x)

/-- The lane values of elements `n0` to `n0 + m − 1`. -/
def readLanes (c : Ctx) (t : TD) (anchors : List Int) (n0 m : Nat) : Op (List Nat) := do
  let ns := (List.range m).map (n0 + ·)
  let cache ← loadTiles c t [] ((ns.map (· / 4096)).eraseDups)
  match ns.find? fun n => reservedWire t.type (cache.elem n).1 with
  | some n => failOp .checkTile (t.sidecarAddr (n / 4096)) 4
  | none => pure (ns.map fun n =>
      laneValue t (anchors.getD (t.global (t.rank - 1) (n % max t.inner 1) / 32) 0) (cache.elem n))

/-- A record of row `r` of a record stream. -/
def TrD.record (d : TrD) (c : Ctx) (i r : Nat) : Op (List Byte) :=
  readAt c (d.ins.getD i 0 + BitVec.ofNat 64 (recordSize (inKind d i) * r)) (recordSize (inKind d i))

def TrD.badRecord {α : Type} (d : TrD) (i r : Nat) : Op α :=
  failOp .checkTile (d.ins.getD i 0 + BitVec.ofNat 64 (recordSize (inKind d i) * r))

/-- The row value of stream `i` for row `r` of the run (kinds 1 to 4). A row stream of a wire type is read at L = 0, since Tables
5.8 and 5.9 name an anchor table for element streams alone (DESIGN CHOICE, log entry 108). -/
def TrD.rowValue (d : TrD) (c : Ctx) (tds : List TD) (i r : Nat) : Op Nat := do
  let k := inKind d i
  if k = 1 then
    let l ← readLanes c (tds.getD i default) [] (d.row0 + r) 1
    pure (l.getD 0 0)
  else
    let b ← d.record c i r
    let l := sext 16 (fld b 120 2)
    let e := sext 16 (fld b 122 2)
    let (off, at_) := if k = 2 then (0, l) else if k = 3 then (32, e - 200) else (64, 2 * e - 200)
    match Acc.decode 256 (fld b off 32) with
    | some x => pure (rne32 (x.value at_))
    | none => d.badRecord i r

/-- What two row-statistic records must have alike to combine: TENSOR_ID, STEP, ROW, L and ETOP (04 R157). -/
def statKey (b : List Byte) : List Byte := slice b 96 16 ++ slice b 120 4

/-- The image ADAPT_IN reads for adapter `k` from stream `i`, with its anchor (R172), and a statistic record's key; one that does
not match the key `old` of the records already combined fails as an anchor that does not match does (DEDUCED, log entry 111). -/
def TrD.adaptImage (d : TrD) (c : Ctx) (i k r : Nat) (old : Option (List Byte)) : Op (Acc × Option (List Byte)) := do
  let b ← d.record c i r
  let e := sext 16 (fld b 122 2)
  let (off, at_) := if inKind d i = 5 then (32 * k, sext 16 (fld b (64 + 2 * k) 2))
    else if inKind d i = 6 then (32, e - 200) else (64, 2 * e - 200)
  let key := if inKind d i = 5 then old else some (statKey b)
  if at_ ≠ d.l.getD k 0 ∨ (inKind d i ≠ 5 ∧ old.any fun o => o ≠ statKey b) then d.badRecord i r
  else match Acc.decode 256 (fld b off 32) with
    | some x => pure (x, key)
    | none => d.badRecord i r

/-! ### Strokes (R166 to R171) -/

/-- One cell in a sweep or a tail: V0 to V15, output values, adapters, violations. -/
structure Cell where
  v    : List Nat := List.replicate 16 0
  o    : List Nat := [0, 0]
  a    : Acc × Acc := (.fin 0, .fin 0)
  viol : Nat := 0

def operand (im : Image) (v ins : List Nat) (x : Nat) : Nat :=
  if x < 0x10 then nth v x else if x < 0x14 then nth ins (x - 0x10)
  else if x = 0x15 then one32 else if 0x80 ≤ x then nth im.k (x - 0x80) else 0

/-- MOD on A: absolute value before negation. -/
def modA (m c : Nat) : Nat :=
  let c := if bitOf m 1 then mag32 c else c
  if bitOf m 0 then (c + 2 ^ 31) % 2 ^ 32 else c
def modC (m c : Nat) : Nat := if bitOf m 2 then (c + 2 ^ 31) % 2 ^ 32 else c

/-- The value a stroke gives its destination; `none`: unchanged. -/
def strokeValue (s : Stroke) (a b c : Nat) : Option Nat :=
  if s.op = 1 then some (fma32 a b c) else if s.op = 2 then some (min32 a b) else if s.op = 3 then some (max32 a b)
  else if s.op = 4 then (if !isNan32 a && !isNan32 b && decide (val32 a < val32 b) then some (if isNan32 c then nan32 else c) else none)
  else if s.op = 5 then (if !isNan32 a && !isNan32 b && val32 a == val32 b then some (if isNan32 c then nan32 else c) else none)
  else some (func32 s.op a)

def Cell.put (x : Cell) (dst : Nat) (v : Nat) : Cell :=
  if dst < 0x10 then { x with v := x.v.set dst v } else { x with o := x.o.set (dst - 0x18) v }

def adapterOf (a : Acc × Acc) (k : Nat) : Acc := if k = 0 then a.1 else a.2
def setAdapter (a : Acc × Acc) (k : Nat) (v : Acc) : Acc × Acc := if k = 0 then (v, a.2) else (a.1, v)

/-- A body stroke in one cell. -/
def bodyStroke (im : Image) (l : List Int) (ins : List Nat) (x : Cell) (s : Stroke) : Cell :=
  let a := modA s.mod (operand im x.v ins s.a)
  if s.op = 0x20 then
    let k := s.dst - 0x20
    let at_ := l.getD k 0
    let t := termOf at_ (at_ + 230) (fp32 a)
    let r := (adapterOf x.a k).combine 256 t.1
    { x with a := setAdapter x.a k r.1, viol := x.viol + boolN t.2 + boolN r.2 }
  else match strokeValue s a (operand im x.v ins s.b) (modC s.mod (operand im x.v ins s.c)) with
    | some v => x.put s.dst v
    | none => x

/-- The exact total of adapter `k` over the cells (R171): finite values add without a limit, codes as in 03 Table 3.2. -/
def totalOf (l : List (Acc × Acc)) (k : Nat) : Acc :=
  l.foldl (fun t x => match t, adapterOf x k with
    | .fin a, .fin b => .fin (a + b)
    | a, b => (a.combine 256 b).1) (.fin 0)

/-- A total as an image: one at the finite limit of the encoding takes the NaN code (03 R89). -/
def totalImage (x : Acc) : Acc × Bool :=
  match x with
  | .fin n => if 2 ^ 254 ≤ n.natAbs then (.nan, true) else (x, false)
  | _ => (x, false)

/-- A row's tail in progress: the tail cell, the 64 cells' adapters, the keys of the statistic records each adapter has taken. -/
structure TailRun where
  cell : Cell := {}
  ad   : List (Acc × Acc)
  keys : List (Nat × Option (List Byte)) := []

/-- A tail stroke: every cell computes the same values; ADAPT_IN adds to cell 0. MOD's absolute value and negation have no effect
on the adapter or image that ADAPT_OUT and ADAPT_IN name (DESIGN CHOICE, log entry 107). -/
def tailStroke (d : TrD) (c : Ctx) (im : Image) (ins : List Nat) (r : Nat) (x : TailRun) (s : Stroke) : Op TailRun := do
  if s.op = 0x21 then
    let k := s.dst - 0x20
    let y ← d.adaptImage c (s.a - 0x10) k r (Sparse.get none x.keys k)
    let a0 := x.ad.headD (.fin 0, .fin 0)
    let z := (adapterOf a0 k).combine 256 y.1
    pure { cell := { x.cell with viol := x.cell.viol + boolN z.2 }, ad := setAdapter a0 k z.1 :: x.ad.drop 1
           keys := Sparse.set none x.keys k y.2 }
  else if s.op = 0x22 then
    let k := s.a - 0x20
    pure { x with cell := x.cell.put s.dst (rne32 ((totalOf x.ad k).value (d.l.getD k 0))) }
  else
    match strokeValue s (modA s.mod (operand im x.cell.v ins s.a)) (operand im x.cell.v ins s.b) (modC s.mod (operand im x.cell.v ins s.c)) with
    | some v => pure { x with cell := x.cell.put s.dst v }
    | none => pure x

/-! ### Outputs (R179) -/

/-- Write blocks in turn. -/
def writeBlocks (c : Ctx) (t : TD) : List (Nat × BlockOut) → Op Unit
  | [] => pure ()
  | x :: r => do
    writeBlock c t x.1 x.2
    afterWrite (writeBlocks c t r)

/-- Convert and write FP32 values as elements `n0` onward of an output stream, in blocks of 32, with one census update. -/
def writeValues (c : Ctx) (t : TD) (sr : Option SrCtx) (n0 : Nat) (vals : List Nat) : Op Unit := do
  if vals.isEmpty then pure ()
  else
    let g := gConvert one32 t.tscale
    let bs := (List.range (ceilDiv vals.length 32)).map fun b =>
      let us := (List.range (min 32 (vals.length - 32 * b))).map fun j =>
        (((fp32 (nth vals (32 * b + j))).preScale g), rndOf c t sr (n0 + 32 * b + j))
      (n0 + 32 * b, if isMx t.type then mxBlock t.type us else wideBlock t.type us)
    writeBlocks c t bs
    afterWrite (censusUpdate c t.census (censusOf t.type (opTag c).step (bs.map (·.2))))

/-! ### Sweeps and row ends (R163, R164, R543) -/

def adaptersOf (l : List (Acc × Acc)) : List (Acc × Acc) := if l.isEmpty then List.replicate 64 (.fin 0, .fin 0) else l

/-- One sweep: what its cells leave and the run's violations. A stream that is given is read and its tiles are checked though no
stroke reads it (DESIGN CHOICE, log entry 109). -/
def TrD.sweep (d : TrD) (c : Ctx) (im : Image) (tds : List TD) (r : TrellisRun) (ad : List (Acc × Acc)) : Op (List Cell) := do
  let m := min 64 (d.len - 64 * r.sweep)
  let n0 := (d.row0 + r.row) * d.len + 64 * r.sweep
  let ins ← (List.range 4).mapM fun i => do
    if !d.given i ∨ 5 ≤ inKind d i then pure (List.replicate m 0)
    else if inKind d i = 0 then readLanes c (tds.getD i default) (r.anchors.getD i []) n0 m
    else (do let v ← d.rowValue c tds i r.row; pure (List.replicate m v))
  let cells := (List.range 64).map fun k =>
    if m ≤ k then ({ a := ad.getD k (.fin 0, .fin 0) } : Cell)
    else (im.strokes.take im.body).foldl (bodyStroke im d.l (ins.map fun l => nth l k)) { a := ad.getD k (.fin 0, .fin 0) }
  let elem (i : Nat) : Bool := d.outGiven i && outKind d i == 0
  let put (i : Nat) : Op Unit :=
    if elem i then writeValues c (tds.getD (4 + i) default) (r.srs.getD i none) n0 ((cells.take m).map fun x => nth x.o i) else pure ()
  put 0
  (if elem 0 then afterWrite (put 1) else put 1)
  pure cells

/-- The tail of a row: the tail cell, the adapters. -/
def TrD.tail (d : TrD) (c : Ctx) (im : Image) (tds : List TD) (r : TrellisRun) (ad : List (Acc × Acc)) :
    Op (Cell × List (Acc × Acc)) := do
  let ins ← (List.range 4).mapM fun i =>
    if d.given i && decide (1 ≤ inKind d i) && decide (inKind d i ≤ 4) then d.rowValue c tds i r.row else pure 0
  let y ← (im.strokes.drop im.body).foldlM (tailStroke d c im ins r.row) { ad }
  let t0 := totalImage (totalOf y.ad 0)
  let t1 := totalImage (totalOf y.ad 1)
  let viol := y.cell.viol + (if d.adapt = 0 then 0 else boolN t0.2 + boolN t1.2)
  if d.adapt ≠ 0 then
    writeAt c (d.adapt + BitVec.ofNat 64 (96 * r.row))
      (le 32 (t0.1.encode 256) ++ le 32 (t1.1.encode 256) ++ le 2 (code 16 (d.l.getD 0 0)) ++ le 2 (code 16 (d.l.getD 1 0))
        ++ le 1 (boolN (r.rowRange || viol ≠ 0)) ++ le 3 0 ++ le 8 (d.row0 + r.row) ++ le 16 0)
  pure ({ y.cell with viol }, y.ad)

/-- The row outputs of the tail: a block of 32 rows is written when it is whole or the run ends. -/
def TrD.rowOuts (d : TrD) (c : Ctx) (tds : List TD) (r : TrellisRun) (o : List Nat) : Op (List (List Nat)) :=
  (List.range 2).mapM fun i =>
    if d.outGiven i && outKind d i == 1 then do
      let l := r.held.getD i [] ++ [nth o i]
      if l.length = 32 ∨ r.row + 1 = r.rows then
        writeValues c (tds.getD (4 + i) default) (r.srs.getD i none) (d.row0 + r.row + 1 - l.length) l
        pure []
      else pure l
    else pure []

/-- The run in progress of easel `i`: its entry, descriptor, image and context. -/
def State.onTrellis (s : State) (i : Nat) (env : Env) (act : Activity)
    (f : State → Active → TrD → Image → Ctx → TrellisRun → Env → State) : State :=
  let q := 768 + i
  match (s.trellis i).run, (s.eq q).cur with
  | some r, some x =>
    if s.engineHeld q then s
    else
      let s := (s.onDp (·.upsets env.upsets)).accountSlots q i { act with cycles := 0, terms := 0, back := 0 }
      let env := { env with upsets := [] }
      let d := TrD.ofBytes x.desc
      f s x d (Image.ofBytes (Sparse.get [] (s.trellis i).images d.slot)) (s.entryCtx q x.entry env) r env
  | _, _ => s

def State.trellisSweep (s : State) (i : Nat) (env : Env) (act : Activity) : State :=
  s.onTrellis i env act fun s x d im c r env =>
    if ceilDiv d.len 64 ≤ r.sweep then s
    else
      let y := s.runOp {} (d.sweep c im x.tds r (adaptersOf (s.trellis i).adapters))
      match y.2 with
      | .error f => y.1.endTrellis i f env
      | .ok cells =>
        let viol := (cells.map (·.viol)).foldl (· + ·) 0
        let s := y.1.updTrellis i fun t =>
          { t with cells := cells.map (·.v), adapters := cells.map (·.a)
                   run := some { r with sweep := r.sweep + 1, sweeps := r.sweeps + 1, viol := r.viol + viol
                                        rowRange := r.rowRange || viol ≠ 0 } }
        if (r.sweeps + 1) % 4096 = 0 then s.progress (768 + i) else s

def execTrellisSweep (easel : Easel) (env : Env) (act : Activity) (s : State) : Out := .next (s.trellisSweep easel env act)

/-- Units of Table 10.8: 64 whole rows. -/
def State.sampleRows (s : State) (i : Nat) (x : Active) (node : BitVec 32) (d : TrD) (r : TrellisRun) (last : Bool) : State :=
  let row := d.row0 + r.row
  if row % 64 = 63 ∨ last then s.sampleUnit (768 + i) x node (row / 64) else s

def State.trellisRowEnd (s : State) (i : Nat) (node : BitVec 32) (env : Env) (act : Activity) : State :=
  s.onTrellis i env act fun s x d im c r env =>
    if r.sweep < ceilDiv d.len 64 then s
    else
      let y := s.runOp {} (do
        let t ← d.tail c im x.tds r (adaptersOf (s.trellis i).adapters)
        let held ← (if d.adapt = 0 then d.rowOuts c x.tds r t.1.o else afterWrite (d.rowOuts c x.tds r t.1.o))
        pure (t, held))
      match y.2 with
      | .error f => y.1.endTrellis i f env
      | .ok (t, held) =>
        let last := r.row + 1 == r.rows
        let s := y.1.updTrellis i fun z =>
          { z with cells := List.replicate 64 t.1.v, adapters := []
                   run := some { r with row := r.row + 1, sweep := 0, viol := r.viol + t.1.viol, rowRange := false, held } }
        let s := (s.progress (768 + i)).sampleRows i x node d r last
        if last then s.endTrellis i { st := .ok } env else s

def execTrellisRowEnd (easel : Easel) (node : BitVec 32) (env : Env) (act : Activity) (s : State) : Out :=
  .next (s.trellisRowEnd easel node env act)

end Sys2Proof.Machine
end

