-- ==== Sys2Proof/Machine/Dispatch.lean ====
section
/-! DEFINITION. Machine/Dispatch.lean: one arm per command, each one call of its meaning. -/
namespace Sys2Proof.Machine

/-- The effect of a command on everything but the queue. -/
def exec (i : Instr) (s : State) : Host.Outcome State Fault Refusal :=
  match i with
  | .registerWrite who offset wide value mask hw => Sys2Proof.Machine.execRegisterWrite who offset wide value mask hw s
  | .registerReadClear offset wide => Sys2Proof.Machine.execRegisterReadClear offset wide s
  | .tickSync => Sys2Proof.Machine.execTickSync s
  | .refClockLoss => Sys2Proof.Machine.execRefClockLoss s
  | .refClockReturn => Sys2Proof.Machine.execRefClockReturn s
  | .rackTickHighRead => Sys2Proof.Machine.execRackTickHighRead s
  | .managerHeartbeatSend => Sys2Proof.Machine.execManagerHeartbeatSend s
  | .heartbeat role coord => Sys2Proof.Machine.execHeartbeat role coord s
  | .managerSuccession level live => Sys2Proof.Machine.execManagerSuccession level live s
  | .censusCombine req update env => Sys2Proof.Machine.execCensusCombine req update env s
  | .stepCompletion part step env => Sys2Proof.Machine.execStepCompletion part step env s
  | .layerGuardDecision part tag node range env => Sys2Proof.Machine.execLayerGuardDecision part tag node range env s
  | .arrayOperation easel node env => Sys2Proof.Machine.execArrayOperation easel node env s
  | .inputStageLoaded easel env act => Sys2Proof.Machine.execInputStageLoaded easel env act s
  | .weightBlockArrival easel column block env act => Sys2Proof.Machine.execWeightBlockArrival easel column block env act s
  | .columnGroupComplete easel env act => Sys2Proof.Machine.execColumnGroupComplete easel env act s
  | .stagingBankWritten easel env act => Sys2Proof.Machine.execStagingBankWritten easel env act s
  | .trellisImageLoad easel env => Sys2Proof.Machine.execTrellisImageLoad easel env s
  | .trellisRun easel env => Sys2Proof.Machine.execTrellisRun easel env s
  | .trellisFenceRelease easel env => Sys2Proof.Machine.execTrellisFenceRelease easel env s
  | .trellisSweep easel env act => Sys2Proof.Machine.execTrellisSweep easel env act s
  | .trellisRowEnd easel node env act => Sys2Proof.Machine.execTrellisRowEnd easel node env act s
  | .engineQueuePost queue index desc tag attempt last env => Sys2Proof.Machine.execEngineQueuePost queue index desc tag attempt last env s
  | .engineEntryAccept queue env => Sys2Proof.Machine.execEngineEntryAccept queue env s
  | .eqEnable queue scratch => Sys2Proof.Machine.execEqEnable queue scratch s
  | .copy queue env => Sys2Proof.Machine.execCopy queue env s
  | .copyT2 queue node env => Sys2Proof.Machine.execCopyT2 queue node env s
  | .convert queue node env => Sys2Proof.Machine.execConvert queue node env s
  | .gather queue env => Sys2Proof.Machine.execGather queue env s
  | .scatter queue env => Sys2Proof.Machine.execScatter queue env s
  | .scatterAdd queue node env => Sys2Proof.Machine.execScatterAdd queue node env s
  | .fill queue env => Sys2Proof.Machine.execFill queue env s
  | .moverFenceRelease queue node env => Sys2Proof.Machine.execMoverFenceRelease queue node env s
  | .sidecarPart req td tile piece env => Sys2Proof.Machine.execSidecarPart req td tile piece env s
  | .fetchAdd64 req addend env => Sys2Proof.Machine.execFetchAdd64 req addend env s
  | .cas64 req compare swap env => Sys2Proof.Machine.execCas64 req compare swap env s
  | .atomicResp packet => Sys2Proof.Machine.execAtomicResp packet s
  | .read req words env => Sys2Proof.Machine.execRead req words env s
  | .ueResolve addr place env => Sys2Proof.Machine.execUeResolve addr place env s
  | .readResp packet => Sys2Proof.Machine.execReadResp packet s
  | .write req bytes env => Sys2Proof.Machine.execWrite req bytes env s
  | .writeAck packet => Sys2Proof.Machine.execWriteAck packet s
  | .remoteAccessTimeout txn engine => Sys2Proof.Machine.execRemoteAccessTimeout txn engine s
  | .patrolScrubRead unit meanwhile env => Sys2Proof.Machine.execPatrolScrubRead unit meanwhile env s
  | .scrubPriorityEscalation unit => Sys2Proof.Machine.execScrubPriorityEscalation unit s
  | .linkEnable link => Sys2Proof.Machine.execLinkEnable link s
  | .linkDisable link => Sys2Proof.Machine.execLinkDisable link s
  | .linkRetrain link => Sys2Proof.Machine.execLinkRetrain link s
  | .linkRestoreLanes link => Sys2Proof.Machine.execLinkRestoreLanes link s
  | .linkStartDelayExpiry => Sys2Proof.Machine.execLinkStartDelayExpiry s
  | .linkBackoffExpiry link => Sys2Proof.Machine.execLinkBackoffExpiry link s
  | .trainComplete link locked => Sys2Proof.Machine.execTrainComplete link locked s
  | .trainTimeout link => Sys2Proof.Machine.execTrainTimeout link s
  | .identSend link stamp => Sys2Proof.Machine.execIdentSend link stamp s
  | .ident link ident => Sys2Proof.Machine.execIdent link ident s
  | .identifyComplete link sigOk kexOk rtt => Sys2Proof.Machine.execIdentifyComplete link sigOk kexOk rtt s
  | .identifyTimeout link => Sys2Proof.Machine.execIdentifyTimeout link s
  | .resumeWindowExpiry link => Sys2Proof.Machine.execResumeWindowExpiry link s
  | .allLanesLockLoss link => Sys2Proof.Machine.execAllLanesLockLoss link s
  | .laneBad link lane => Sys2Proof.Machine.execLaneBad link lane s
  | .dataFlit link flit => Sys2Proof.Machine.execDataFlit link flit s
  | .sealFlit link flit stalled => Sys2Proof.Machine.execSealFlit link flit stalled s
  | .idleFlit link avc ack credit => Sys2Proof.Machine.execIdleFlit link avc ack credit s
  | .replay link vc seq => Sys2Proof.Machine.execReplay link vc seq s
  | .hold link vc seq => Sys2Proof.Machine.execHold link vc seq s
  | .resume link vc seq => Sys2Proof.Machine.execResume link vc seq s
  | .grant link vc rate => Sys2Proof.Machine.execGrant link vc rate s
  | .notReady link vc seq => Sys2Proof.Machine.execNotReady link vc seq s
  | .ready link resumed => Sys2Proof.Machine.execReady link resumed s
  | .lanes link mask => Sys2Proof.Machine.execLanes link mask s
  | .echo link stamp own elapsed => Sys2Proof.Machine.execEcho link stamp own elapsed s
  | .flitTransmit link => Sys2Proof.Machine.execFlitTransmit link s
  | .controlEntryRepeat link => Sys2Proof.Machine.execControlEntryRepeat link s
  | .grantUpdate link drainedLow drainedHigh => Sys2Proof.Machine.execGrantUpdate link drainedLow drainedHigh s
  | .holdRelease link vc => Sys2Proof.Machine.execHoldRelease link vc s
  | .replayNoProgress link vc => Sys2Proof.Machine.execReplayNoProgress link vc s
  | .keyAgreementStart link => Sys2Proof.Machine.execKeyAgreementStart link s
  | .keyAgreementMsg link sigOk msg => Sys2Proof.Machine.execKeyAgreementMsg link sigOk msg s
  | .keyExhausted link => Sys2Proof.Machine.execKeyExhausted link s
  | .keyAgreementTimeout link => Sys2Proof.Machine.execKeyAgreementTimeout link s
  | .packetTransit vc packet => Sys2Proof.Machine.execPacketTransit vc packet s
  | .sustainedPressure link vc => Sys2Proof.Machine.execSustainedPressure link vc s
  | .pressureRepeat link vc intervals => Sys2Proof.Machine.execPressureRepeat link vc intervals s
  | .pressureEpisodeEnd link vc => Sys2Proof.Machine.execPressureEpisodeEnd link vc s
  | .groupCreate part desc inp env cmd => Sys2Proof.Machine.execGroupCreate part desc inp env cmd s
  | .groupCommit part id status peers cmd => Sys2Proof.Machine.execGroupCommit part id status peers cmd s
  | .groupDestroy part id cmd => Sys2Proof.Machine.execGroupDestroy part id cmd s
  | .groupRelease queue => Sys2Proof.Machine.execGroupRelease queue s
  | .collectiveEntryAccept queue env => Sys2Proof.Machine.execCollectiveEntryAccept queue env s
  | .allReduce queue env => Sys2Proof.Machine.execAllReduce queue env s
  | .reduceScatter queue env => Sys2Proof.Machine.execReduceScatter queue env s
  | .reduce queue env => Sys2Proof.Machine.execReduce queue env s
  | .allGather queue env => Sys2Proof.Machine.execAllGather queue env s
  | .broadcast queue env => Sys2Proof.Machine.execBroadcast queue env s
  | .barrier queue env => Sys2Proof.Machine.execBarrier queue env s
  | .anchorPre queue range env => Sys2Proof.Machine.execAnchorPre queue range env s
  | .qsReduction queue env => Sys2Proof.Machine.execQsReduction queue env s
  | .expertDispatch queue env => Sys2Proof.Machine.execExpertDispatch queue env s
  | .expertPlacement queue env => Sys2Proof.Machine.execExpertPlacement queue env s
  | .expertCombine queue env => Sys2Proof.Machine.execExpertCombine queue env s
  | .chunkData packet mismatch env => Sys2Proof.Machine.execChunkData packet mismatch env s
  | .deferredChunk queue env => Sys2Proof.Machine.execDeferredChunk queue env s
  | .chunkCredit packet env => Sys2Proof.Machine.execChunkCredit packet env s
  | .chunkResendReq packet logGood env => Sys2Proof.Machine.execChunkResendReq packet logGood env s
  | .chunkFail packet env => Sys2Proof.Machine.execChunkFail packet env s
  | .collectiveComplete queue env => Sys2Proof.Machine.execCollectiveComplete queue env s
  | .collectiveProgressTimeout queue env => Sys2Proof.Machine.execCollectiveProgressTimeout queue env s
  | .queueSustainedPressure queue rank intervals => Sys2Proof.Machine.execQueueSustainedPressure queue rank intervals s
  | .qsBarrier packet env => Sys2Proof.Machine.execQsBarrier packet env s
  | .qsMaxU8 packet env => Sys2Proof.Machine.execQsMaxU8 packet env s
  | .qsSumU64 packet env => Sys2Proof.Machine.execQsSumU64 packet env s
  | .qsCensus packet env => Sys2Proof.Machine.execQsCensus packet env s
  | .qsFail packet env => Sys2Proof.Machine.execQsFail packet env s
  | .epochOpen part empty log env => Sys2Proof.Machine.execEpochOpen part empty log env s
  | .dryVoteSend part epoch => Sys2Proof.Machine.execDryVoteSend part epoch s
  | .dryVote payload sender awaited => Sys2Proof.Machine.execDryVote payload sender awaited s
  | .dryNotice payload sender => Sys2Proof.Machine.execDryNotice payload sender s
  | .dryVoteResend part epoch => Sys2Proof.Machine.execDryVoteResend part epoch s
  | .operationFailureHandling part tag queue status kind producer => Sys2Proof.Machine.execOperationFailureHandling part tag queue status kind producer s
  | .smudgeReport payload sender => Sys2Proof.Machine.execSmudgeReport payload sender s
  | .smudgeOrder payload sender env => Sys2Proof.Machine.execSmudgeOrder payload sender env s
  | .smudgeClosure payload sender awaited => Sys2Proof.Machine.execSmudgeClosure payload sender awaited s
  | .smudgeFinal message damaged => Sys2Proof.Machine.execSmudgeFinal message damaged s
  | .duplicateStart id fault act => Sys2Proof.Machine.execDuplicateStart id fault act s
  | .duplicateCompare id results => Sys2Proof.Machine.execDuplicateCompare id results s
  | .thirdExecution id third act => Sys2Proof.Machine.execThirdExecution id third act s
  | .suspectRepeat easel rep inp env => Sys2Proof.Machine.execSuspectRepeat easel rep inp env s
  | .observationTpkTick easel results act inp env => Sys2Proof.Machine.execObservationTpkTick easel results act inp env s
  | .observationEnd easel => Sys2Proof.Machine.execObservationEnd easel s
  | .tpkPush package => Sys2Proof.Machine.execTpkPush package s
  | .dataReadRelease seq env => Sys2Proof.Machine.execDataReadRelease seq env s
  | .dataReadWaitTimeout seq => Sys2Proof.Machine.execDataReadWaitTimeout seq s
  | .varnishPost unit index desc tag attempt part params => Sys2Proof.Machine.execVarnishPost unit index desc tag attempt part params s
  | .varnishUpdate unit mismatch env => Sys2Proof.Machine.execVarnishUpdate unit mismatch env s
  | .varnishTagWaitEnd unit mismatch env => Sys2Proof.Machine.execVarnishTagWaitEnd unit mismatch env s
  | .ckptBegin part step headers env => Sys2Proof.Machine.execCkptBegin part step headers env s
  | .checkpointCopyDone part pieces tds headers env again => Sys2Proof.Machine.execCheckpointCopyDone part pieces tds headers env again s
  | .checkpointReport job step sender status members => Sys2Proof.Machine.execCheckpointReport job step sender status members s
  | .ckptCommit job step => Sys2Proof.Machine.execCkptCommit job step s
  | .rollbackMessage part commit gen inp env => Sys2Proof.Machine.execRollbackMessage part commit gen inp env s
  | .moduleLost coord jobs mirror env => Sys2Proof.Machine.execModuleLost coord jobs mirror env s
  | .engineWatchdogExpiry queue inp env => Sys2Proof.Machine.execEngineWatchdogExpiry queue inp env s
  | .lostQueryAnswer coord lost inp env => Sys2Proof.Machine.execLostQueryAnswer coord lost inp env s
  | .resetLevelComplete level target => Sys2Proof.Machine.execResetLevelComplete level target s
  | .resetTimeout level target inp env => Sys2Proof.Machine.execResetTimeout level target inp env s
  | .ovindWatchdogExpiry => Sys2Proof.Machine.execOvindWatchdogExpiry s
  | .resetNotice sender jobs => Sys2Proof.Machine.execResetNotice sender jobs s
  | .resetNoticeTimeout sender jobs mirror env => Sys2Proof.Machine.execResetNoticeTimeout sender jobs mirror env s
  | .moduleReady sender => Sys2Proof.Machine.execModuleReady sender s
  | .trayNoResponse => Sys2Proof.Machine.execTrayNoResponse s
  | .pstateStep panel => Sys2Proof.Machine.execPstateStep panel s
  | .droopTrip easel => Sys2Proof.Machine.execDroopTrip easel s
  | .droopRecovery easel => Sys2Proof.Machine.execDroopRecovery easel s
  | .droopPersist panel permille => Sys2Proof.Machine.execDroopPersist panel permille s
  | .powerEstimate counts => Sys2Proof.Machine.execPowerEstimate counts s
  | .powerMeasurement measured active shares => Sys2Proof.Machine.execPowerMeasurement measured active shares s
  | .slowLoop => Sys2Proof.Machine.execSlowLoop s
  | .pwrVoteSet client domain => Sys2Proof.Machine.execPwrVoteSet client domain s
  | .pwrVoteWithdraw client domain => Sys2Proof.Machine.execPwrVoteWithdraw client domain s
  | .domainTransitionDone domain => Sys2Proof.Machine.execDomainTransitionDone domain s
  | .idleEntry => Sys2Proof.Machine.execIdleEntry s
  | .dormantCommand => Sys2Proof.Machine.execDormantCommand s
  | .mstateEntryDone => Sys2Proof.Machine.execMstateEntryDone s
  | .wakeExitDone => Sys2Proof.Machine.execWakeExitDone s
  | .rtcAlarm => Sys2Proof.Machine.execRtcAlarm s
  | .selfTestDone failedSpares results inp env => Sys2Proof.Machine.execSelfTestDone failedSpares results inp env s
  | .keepaliveWake => Sys2Proof.Machine.execKeepaliveWake s
  | .trayWake => Sys2Proof.Machine.execTrayWake s
  | .portReset port linkDown => Sys2Proof.Machine.execPortReset port linkDown s
  | .slotPost port slot req => Sys2Proof.Machine.execSlotPost port slot req s
  | .slotAccept => Sys2Proof.Machine.execSlotAccept s
  | .slotFree port slot => Sys2Proof.Machine.execSlotFree port slot s
  | .bar0Discard port => Sys2Proof.Machine.execBar0Discard port s
  | .bar2Read port segment offset length env => Sys2Proof.Machine.execBar2Read port segment offset length env s
  | .bar2Write port segment offset bytes env => Sys2Proof.Machine.execBar2Write port segment offset bytes env s
  | .msixUnmask port vector => Sys2Proof.Machine.execMsixUnmask port vector s
  | .mbxHeartbeat port value => Sys2Proof.Machine.execMbxHeartbeat port value s
  | .ownerLapse => Sys2Proof.Machine.execOwnerLapse s
  | .ownershipAnswerTimeout => Sys2Proof.Machine.execOwnershipAnswerTimeout s
  | .getInfo seq => Sys2Proof.Machine.execGetInfo seq s
  | .getStatus seq => Sys2Proof.Machine.execGetStatus seq s
  | .takeOwnership seq => Sys2Proof.Machine.execTakeOwnership seq s
  | .releaseOwnership seq => Sys2Proof.Machine.execReleaseOwnership seq s
  | .setRoleMap seq => Sys2Proof.Machine.execSetRoleMap seq s
  | .setCablingMap seq => Sys2Proof.Machine.execSetCablingMap seq s
  | .setMstate seq => Sys2Proof.Machine.execSetMstate seq s
  | .jobCreate seq inp => Sys2Proof.Machine.execJobCreate seq inp s
  | .jobDestroy seq => Sys2Proof.Machine.execJobDestroy seq s
  | .partitionStart seq => Sys2Proof.Machine.execPartitionStart seq s
  | .partitionStop seq => Sys2Proof.Machine.execPartitionStop seq s
  | .jobStatus seq => Sys2Proof.Machine.execJobStatus seq s
  | .rollback seq => Sys2Proof.Machine.execRollback seq s
  | .graphLoad seq image => Sys2Proof.Machine.execGraphLoad seq image s
  | .graphUnload seq => Sys2Proof.Machine.execGraphUnload seq s
  | .dataRead seq env => Sys2Proof.Machine.execDataRead seq env s
  | .dataWrite seq data env => Sys2Proof.Machine.execDataWrite seq data env s
  | .regRead seq env => Sys2Proof.Machine.execRegRead seq env s
  | .regWrite seq => Sys2Proof.Machine.execRegWrite seq s
  | .tpkLoad seq package => Sys2Proof.Machine.execTpkLoad seq package s
  | .tpkRun seq results inp env => Sys2Proof.Machine.execTpkRun seq results inp env s
  | .setPowerLimits seq => Sys2Proof.Machine.execSetPowerLimits seq s
  | .setPstate seq => Sys2Proof.Machine.execSetPstate seq s
  | .powerVote seq => Sys2Proof.Machine.execPowerVote seq s
  | .recordRead seq => Sys2Proof.Machine.execRecordRead seq s
  | .recordClear seq => Sys2Proof.Machine.execRecordClear seq s
  | .recordBankEraseDone seq => Sys2Proof.Machine.execRecordBankEraseDone seq s
  | .sampleRead seq env => Sys2Proof.Machine.execSampleRead seq env s
  | .counterGrant seq => Sys2Proof.Machine.execCounterGrant seq s
  | .wearRead seq => Sys2Proof.Machine.execWearRead seq s
  | .alarmStatus seq => Sys2Proof.Machine.execAlarmStatus seq s
  | .otpRead seq => Sys2Proof.Machine.execOtpRead seq s
  | .otpWrite seq whole => Sys2Proof.Machine.execOtpWrite seq whole s
  | .alarmClear seq => Sys2Proof.Machine.execAlarmClear seq s
  | .reset seq inp env => Sys2Proof.Machine.execReset seq inp env s
  | .linkCtrl seq => Sys2Proof.Machine.execLinkCtrl seq s
  | .fwUpdateBegin seq granules => Sys2Proof.Machine.execFwUpdateBegin seq granules s
  | .fwUpdateData seq => Sys2Proof.Machine.execFwUpdateData seq s
  | .fwUpdateCommit seq => Sys2Proof.Machine.execFwUpdateCommit seq s
  | .fwFlashProgramDone seq => Sys2Proof.Machine.execFwFlashProgramDone seq s
  | .recoveryHoldExpiry => Sys2Proof.Machine.execRecoveryHoldExpiry s
  | .standbyGood => Sys2Proof.Machine.execStandbyGood s
  | .powerGood => Sys2Proof.Machine.execPowerGood s
  | .startSt1 straps parityOk failing => Sys2Proof.Machine.execStartSt1 straps parityOk failing s
  | .startSt2 => Sys2Proof.Machine.execStartSt2 s
  | .startSt3 failedSpares failedPackages refused env => Sys2Proof.Machine.execStartSt3 failedSpares failedPackages refused env s
  | .startSt4 => Sys2Proof.Machine.execStartSt4 s
  | .startSt5 => Sys2Proof.Machine.execStartSt5 s
  | .startupTimeout inp env => Sys2Proof.Machine.execStartupTimeout inp env s
  | .securityAlarm source => Sys2Proof.Machine.execSecurityAlarm source s
  | .recordFlashWrite => Sys2Proof.Machine.execRecordFlashWrite s
  | .flashConfigSave => Sys2Proof.Machine.execFlashConfigSave s
  | .spdmGetVersion port => Sys2Proof.Machine.execSpdmGetVersion port s
  | .spdmGetCapabilities port => Sys2Proof.Machine.execSpdmGetCapabilities port s
  | .spdmNegotiateAlgorithms port offered => Sys2Proof.Machine.execSpdmNegotiateAlgorithms port offered s
  | .spdmGetDigests port => Sys2Proof.Machine.execSpdmGetDigests port s
  | .spdmGetCertificate port slot offset length => Sys2Proof.Machine.execSpdmGetCertificate port slot offset length s
  | .spdmChallenge port slot nonce => Sys2Proof.Machine.execSpdmChallenge port slot nonce s
  | .spdmGetMeasurements port index sign nonce => Sys2Proof.Machine.execSpdmGetMeasurements port index sign nonce s
  | .spdmGetCsr port => Sys2Proof.Machine.execSpdmGetCsr port s
  | .spdmSetCertificate port slot chain => Sys2Proof.Machine.execSpdmSetCertificate port slot chain s
  | .pctClear easel additions => Sys2Proof.Machine.execPctClear easel additions s
  | .pctFreeze easel value => Sys2Proof.Machine.execPctFreeze easel value s
  | .pctEnable easel value => Sys2Proof.Machine.execPctEnable easel value s
  | .counterWrap easel k addition => Sys2Proof.Machine.execCounterWrap easel k addition s
  | .portWindowEnd => Sys2Proof.Machine.execPortWindowEnd s
  | .pctWindowWrite us => Sys2Proof.Machine.execPctWindowWrite us s
  | .wearSample monitor reading => Sys2Proof.Machine.execWearSample monitor reading s
  | .eyeSample link height => Sys2Proof.Machine.execEyeSample link height s
  | .mainUndervoltage => Sys2Proof.Machine.execMainUndervoltage s
  | .thermalAlert die outlet => Sys2Proof.Machine.execThermalAlert die outlet s
  | .thermalAlertRelease die outlet => Sys2Proof.Machine.execThermalAlertRelease die outlet s
  | .thermalShutdown => Sys2Proof.Machine.execThermalShutdown s
  | .smbusPartNumber => Sys2Proof.Machine.execSmbusPartNumber s
  | .smbusSerial => Sys2Proof.Machine.execSmbusSerial s
  | .smbusCoordinate => Sys2Proof.Machine.execSmbusCoordinate s
  | .smbusStatus => Sys2Proof.Machine.execSmbusStatus s
  | .smbusPower => Sys2Proof.Machine.execSmbusPower s
  | .smbusDieTemp reading => Sys2Proof.Machine.execSmbusDieTemp reading s
  | .smbusOutletTemp reading => Sys2Proof.Machine.execSmbusOutletTemp reading s
  | .alarmConditionEnd source => Sys2Proof.Machine.execAlarmConditionEnd source s
  | .standbyLoss => Sys2Proof.Machine.execStandbyLoss s
  | .pcieLinkUp port => Sys2Proof.Machine.execPcieLinkUp port s
  | .rollbackRequest job requester => Sys2Proof.Machine.execRollbackRequest job requester s
  | .degradedReport coord atOnce jobs mirror env => Sys2Proof.Machine.execDegradedReport coord atOnce jobs mirror env s

end Sys2Proof.Machine
end

