-- ==== Sys2Proof/Safety.lean ====
section
/-! DEFINITION. The terms that statements about steps use: the canonical form of memory, the rules of the security state, of the supplies and of the stages, and their conjunction, which every step keeps. -/
namespace Sys2Proof.Machine

/-- Memory in its canonical form: the stored bytes, the error states of words, the words marked unreadable, the region table, the granules zeroed and the job
table are sparse maps with rising keys that list no default. -/
structure Mem.Wf (m : Mem) : Prop where
  bytes  : Sparse.wf 0 m.bytes = true
  errs   : Sparse.wf 0 m.errs = true
  unread : Sparse.wf false m.unread = true
  region : Sparse.wf 0 m.region = true
  zeroed : Sparse.wf false m.zeroed = true
  jobs   : Sparse.wf 0 m.jobs = true

/-- The copies of the region table and the job table in flash are in the same form (07 R261). -/
structure Flash.Wf (f : Flash) : Prop where
  region : Sparse.wf 0 f.region = true
  jobs   : Sparse.wf 0 f.jobs = true

/-- Of the alarm state (15 R497 to R501): a hold in force is also in flash, so that it outlasts a reset; ERASED stands only
under HOLD, in flash too; of REVOKE's four bits no more than four are programmed; the identity is disabled only when none is left. -/
structure SecOk (x : Sec) (f : Flash) : Prop where
  hold     : x.hold = true → f.hold = true
  erased   : x.erased = true → x.hold = true
  flash    : f.erased = true → f.hold = true
  revoke   : x.revoke ≤ 4
  disabled : x.disabled = true → x.revoke = 4

/-- A conversion that has tripped is off (17 R538). -/
def ElecOk (e : Elec) : Prop := e.tripped = true → e.convOff = true

/-- STAGE is 0 to 5 (14 R483), and in M3, where only the always-on island is powered, it is 0 (13 R450). -/
structure StageOk (stage : Nat) (mstate : BitVec 2) : Prop where
  max : stage ≤ 5
  m3  : mstate = 3 → stage = 0

/-- What every step keeps. -/
structure State.Inv (s : State) : Prop where
  mem   : s.dp.mem.Wf
  flash : s.flash.Wf
  sec   : SecOk s.sec s.flash
  elec  : ElecOk s.elec
  stage : StageOk s.stage s.pwr.mstate

/-- Two data planes that differ in records, messages and interrupt vectors alone: memory, the wet/dry state, the clock and the free
values stand as they were. -/
def Dp.Quiet (d e : Dp) : Prop := e = { d with evr := e.evr, out := e.out, msixA := e.msixA, msixB := e.msixB }

/-- From `s` to `t` link `n` changed and nothing else, beside records, messages and vectors. -/
structure OnlyLink (n : Nat) (s t : State) : Prop where
  rest  : t = { s with dp := t.dp, lnk := t.lnk }
  quiet : s.dp.Quiet t.dp
  lnk   : t.lnk = { s.lnk with links := t.lnk.links }
  links : ∀ m, m ≠ n → t.link m = s.link m

/-- The accepted command `c` of a number and opcode may run; no other carries its number, and its slot awaits the response. -/
structure State.Ready (s : State) (seq : BitVec 48) (code : Nat) (c : Cmd) : Prop where
  ready : s.cmdReady seq code = some c
  only  : (s.mbx.cmds.find? fun x => x.seq == c.seq) = some c
  live  : c.live = true

/-- The same of a command that has started and waits. -/
structure State.Waits (s : State) (seq : BitVec 48) (code : Nat) (c : Cmd) : Prop where
  waits : s.cmdWaiting seq code = some c
  only  : (s.mbx.cmds.find? fun x => x.seq == c.seq) = some c
  live  : c.live = true

/-- From `s` to `t` command `c` completes: its slot is DONE with a status and a response (14 R467, Table 14.5). -/
structure Answered (s t : State) (c : Cmd) (st : Status) (resp : List Byte) : Prop where
  done   : (t.slot c.port c.slot).st = .done
  status : (t.slot c.port c.slot).status = st.toCode
  resp   : (t.slot c.port c.slot).resp = resp
  gone   : t.mbx.cmds = s.mbx.cmds.filter fun x => x.seq != c.seq

/-- The command completes, and nothing else changes beside records, messages and vectors. -/
structure OnlyAnswers (s t : State) (c : Cmd) (st : Status) (resp : List Byte) : Prop where
  done  : Answered s t c st resp
  rest  : t = { s with dp := t.dp, mbx := t.mbx }
  quiet : s.dp.Quiet t.dp
  mbx   : t.mbx = { s.mbx with a := t.mbx.a, b := t.mbx.b, cmds := t.mbx.cmds }
  slots : ∀ p n, (p, n) ≠ (c.port, c.slot) → t.slot p n = s.slot p n

/-- Entry `a` of engine `q` has been accepted and not been checked, and the engine is not held. -/
structure State.Fresh (s : State) (q : Nat) (a : Active) : Prop where
  cur  : (s.eq q).cur = some a
  new  : a.started = false
  free : s.engineHeld q = false

/-- The array of easel `i` runs operation `r` of entry `a`, and is not held. -/
structure State.Runs (s : State) (i : Nat) (a : Active) (r : ArrayRun) : Prop where
  run  : s.array i = some r
  cur  : (s.eq i).cur = some a
  free : s.engineHeld i = false

/-- The trellis of easel `i` runs `r` of entry `a`, and is not held. -/
structure State.Sweeps (s : State) (i : Nat) (a : Active) (r : TrellisRun) : Prop where
  run  : (s.trellis i).run = some r
  cur  : (s.eq (768 + i)).cur = some a
  free : s.engineHeld (768 + i) = false

/-- Every slot of the cycles counted is a term, front-starved or back-starved slot (16 R514), over pending accumulators in canonical form. -/
structure Pct.Sums (p : Pct) : Prop where
  form : Sparse.wf 0 p.pend = true
  sum  : p.retired + p.wasted + p.front + p.back + p.pending = 64 * p.cycle

end Sys2Proof.Machine
end

