-- ==== Sys2Proof/Certificates/Slice0/Obligations.lean ====
section
/-! DEFINITION. The statements for the provers. Each docstring names the rules of spec/ the statement rests on; "model's choice" marks what a log entry decides. -/
open Sys2Proof Sys2Proof.Machine

/-- For every command c at the front of the queue, a step is the meaning of c on the state whose queue is the rest. (00 Scope: a
block takes commands, log entry 1) -/
def Obligations.StepRunsTheFrontCommand : Prop :=
  ∀ (c : Instr) (rest : List Instr) (s : State),
    step { s with pending := c :: rest } = exec c { s with pending := rest }

/-- The spec gives every row of the opcode table an effect or says that it is turned away: no command ends in a fault or a
refusal. Whatever command runs, from a state with the invariant, the queue of waiting commands is after it what it was before
it. (00 Scope: a block takes commands, 00 Table 0.5, 14 R471, log entry 1) -/
def Obligations.CommandsEndInANextStateAndLeaveTheQueue : Prop :=
  ∀ (c : Instr) (s : State), ∃ t, exec c s = .next t ∧ (s.Inv → t.pending = s.pending)

/-- If the invariant holds (memory and its flash copies are in canonical form; a hold in force is also in flash, ERASED stands
only under HOLD, REVOKE has at most four bits and the identity is disabled only when all are programmed; a tripped conversion is
off; STAGE is at most 5 and 0 in M3), it holds after every step, from every state. (R483, R450, R497, R498, R499, R500, R538,
R261) -/
def Obligations.StepKeepsTheInvariant : Prop :=
  ∀ s t : State, s.Inv → step s = .next t → t.Inv

/-- Memory and its flash copies are canonical after reset, no hold or erasure stands, the conversion has not tripped, and the
stage and module state are legal. (R483, R450, R497, R538) -/
def Obligations.ResetHasTheInvariant : Prop :=
  State.reset.Inv

/-- On an empty queue a step is one edge of the reference clock (the model's choice, log entry 1). With standby present and no
engine entry or communication queue in the state, the model's clock advances by one and the rack tick counter loads 0 when a
TICK_SYNC edge waits, else counts; without standby only the model's clock moves. (R34, R35, R36, log entry 1) -/
def Obligations.IdleEdgeMovesTheClocks : Prop :=
  ∀ s : State, s.pending = [] →
    (s.elec.stby = true → s.eqs = [] → s.cqs = [] → ∃ t, step s = .next t ∧ t.dp.now = s.dp.now + 1 ∧
      (s.clk.loadPending = true → t.clk = { s.clk with count := 0, loadPending := false }) ∧
      (s.clk.loadPending = false → t.clk = { s.clk with count := s.clk.count + 1 }) ∧ t.dp.mem = s.dp.mem ∧ t.lnk = s.lnk) ∧
    (s.elec.stby = false → step s = .next { s with dp := { s.dp with now := s.dp.now + 1 } })

/-- A TICK_SYNC edge makes the counter load at the next edge and sets SYNC_SEEN with its event counter. The return of the clock
sets REF_PRESENT. A read of the low half answers it and latches the high half. Nothing else changes. (R36, R37, R38) -/
def Obligations.ClockInputsSetTheTickRegisters : Prop :=
  ∀ s : State,
    (∃ t, exec .tickSync s = .next t ∧ t.clk.loadPending = true ∧ t.clk.syncSeen.set = true ∧
      t.clk.syncSeen.cnt = s.clk.syncSeen.cnt + 1 ∧ t.clk.count = s.clk.count ∧ t = { s with clk := t.clk }) ∧
    (∃ t, exec .refClockReturn s = .next t ∧ t.clk = { s.clk with refPresent := true } ∧ t = { s with clk := t.clk }) ∧
    (∃ t, exec .rackTickHighRead s = .next t ∧ t.clk = { s.clk with latch := some (s.clk.count.extractLsb' 32 32) } ∧
      t.dp = s.dp.send (.regValue ((s.clk.count.extractLsb' 0 32).setWidth 64)) ∧ t = { s with clk := t.clk, dp := t.dp })

/-- A manager sends its heartbeat down the tree; another module sends none. A heartbeat of a manager in the same hedge, pod or
machine renews the time and the holder of each of its levels; where this module manages such a level too and has the higher
number it acts as a worker; without such a conflict it keeps its role. A live non-spare module that manages just the level
below, with the lowest coordinate of the live candidates in the level's scope, takes the role; any other module changes nothing.
(R42, R43, R44) -/
def Obligations.ManagersGiveWayToLowerNumbers : Prop :=
  ∀ (s : State) (r : Role) (c : BitVec 17) (l : Fin 3) (live : List (BitVec 17)),
    (s.isManager = true → exec .managerHeartbeatSend s =
      .next (s.send (.quickset .down 0x20 (le 1 (roleCode s.roles.role) ++ le 4 s.dp.coord.code.toNat)))) ∧
    (s.isManager = false → exec .managerHeartbeatSend s = .next s) ∧
    (∃ t, exec (.heartbeat r c) s = .next t ∧
      (∀ k, k < roleLevels r → levelScope k c = levelScope k s.dp.coord.code →
        Sparse.get 0 t.roles.beats k = s.dp.now + 1 ∧ Sparse.get none t.roles.holders k = some c) ∧
      (∀ k, k < roleLevels r → k < roleLevels s.roles.role → levelScope k c = levelScope k s.dp.coord.code → c ≠ s.dp.coord.code →
        levelNumber k c < levelNumber k s.dp.coord.code → t.roles.role = .worker) ∧
      ((∀ k, k < roleLevels r → k < roleLevels s.roles.role → levelScope k c = levelScope k s.dp.coord.code →
        levelNumber k s.dp.coord.code ≤ levelNumber k c) → t.roles.role = s.roles.role ∧ t.dp = s.dp) ∧
      t = { s with dp := t.dp, roles := t.roles } ∧ s.dp.Quiet t.dp) ∧
    (s.roles.role ≠ .spare → roleLevels s.roles.role = l.val → s.dp.coord.code ∈ live →
      (∀ x ∈ live, levelScope l x = levelScope l s.dp.coord.code → s.dp.coord.code.toNat ≤ x.toNat) →
      ∃ t, exec (.managerSuccession l live) s = .next t ∧ t.roles = { s.roles with role := levelRole l } ∧
        t = { s with dp := t.dp, roles := t.roles } ∧ s.dp.Quiet t.dp) ∧
    (s.roles.role = .spare ∨ roleLevels s.roles.role ≠ l.val ∨ s.dp.coord.code ∉ live ∨
      (∃ x ∈ live, levelScope l x = levelScope l s.dp.coord.code ∧ x.toNat < s.dp.coord.code.toNat) →
      exec (.managerSuccession l live) s = .next s)

/-- Writing 1 to a W1C flag clears it unless hardware sets it in the same cycle; every hardware set counts; a write of 0 changes
nothing; clearing leaves the counter. (R8) -/
def Obligations.SoftwareClearsAFlagHardwareSets : Prop :=
  ∀ (f : Flag) (w : Bool), (f.write true true).set = true ∧ (f.write w true).cnt = f.cnt + 1 ∧
    f.write true false = { f with set := false } ∧ f.write false false = f

/-- For every agent, offset, width, value, mask and hardware set. A write by Ovind to a slot of the maps acts on its block and
is answered ST_OK, to a region slot as the region rules allow; outside the maps it fails with ST_BOUNDS. An engine writes
nothing, and is answered ST_OK on a slot of the maps; another module is answered ST_BOUNDS. The owner host's masked write acts
on the granted bits of the slot, and fails whole with ST_BOUNDS where a bit of another field is in the mask or nothing is
granted. A host's write in BAR0 acts on its port's page. A write by Ovind to TICK_STATUS acts on its W1C flags bit by bit, one
to WDG_CTRL sets a limit of 1 to 1,000. A read of an aligned slot answers it, 32-bit wide one half, and clears the RC fields
read: the error counters and the hold and resend counters of a link, the stale counter of a communication queue; at the rack
tick it takes or latches the high half; elsewhere it fails with ST_BOUNDS. (R7, R8, R9, R11, R38, R247, R248, R251, R412, R477)
-/
def Obligations.RegisterAccessesReachTheirFields : Prop :=
  ∀ (s : State) (v m hw : BitVec 64) (o : BitVec 43) (wide : Bool) (p : Port) (b : Nat) (w : RegW),
    b = o.toNat / 8 * 8 → w = slotWrite o.toNat wide { v, mask := m, hw } →
    (∀ who, s.regSlot b = none → (∀ q, who ≠ .bar0 q) → exec (.registerWrite who o wide v m hw) s = .next (s.send (.answer .bounds 0))) ∧
    (exec (.registerWrite .remote o wide v m hw) s = .next (s.send (.answer .bounds 0))) ∧
    (exec (.registerWrite (.bar0 p) o wide v m hw) s = .next ((s.writeBar0 p b w).send (.answer .ok 0))) ∧
    (s.regSlot b ≠ none →
      exec (.registerWrite .engine o wide v m hw) s = .next (s.send (.answer .ok 0)) ∧
      (b / 2 ^ 20 ≠ 3 ∨ regionSlot (b % 2 ^ 20) = none → exec (.registerWrite .ovind o wide v m hw) s = .next ((s.writeBlock b w).send (.answer .ok 0))) ∧
      (∀ g, b / 2 ^ 20 = 3 → regionSlot (b % 2 ^ 20) = some g →
        ((∀ x ∈ s.regionWrites g w, s.regionRefused x.1 x.2 = false) → exec (.registerWrite .ovind o wide v m hw) s =
          .next (((s.regionWrites g w).foldl (fun s x => s.changeRegion x.1 x.2) s).send (.answer .ok 0))) ∧
        ((∃ x ∈ s.regionWrites g w, s.regionRefused x.1 x.2 = true) →
          exec (.registerWrite .ovind o wide v m hw) s = .next (s.send (.answer .fieldReserved 0)))) ∧
      (s.ownerGrant p b = none → exec (.registerWrite (.owner p) o wide v m hw) s = .next (s.send (.answer .bounds 0))) ∧
      (∀ g other, s.ownerGrant p b = some (g, other) →
        (w.mask &&& other ≠ 0 → exec (.registerWrite (.owner p) o wide v m hw) s = .next (s.send (.answer .bounds 0))) ∧
        (w.mask &&& other = 0 → b / 2 ^ 20 ≠ 4 → exec (.registerWrite (.owner p) o wide v m hw) s =
          .next ((s.writeBlock b { w with mask := w.mask &&& g }).send (.answer .ok 0))) ∧
        (w.mask &&& other = 0 → b / 2 ^ 20 = 4 → exec (.registerWrite (.owner p) o wide v m hw) s =
          .next ((s.writeMbx p (b % 0x100) w).send (.answer .ok 0))))) ∧
    (∃ t, exec (.registerWrite .ovind 8 true v m hw) s = .next t ∧
      t.clk.refLost = s.clk.refLost.write (v.getLsbD 0 && m.getLsbD 0) (hw.getLsbD 0) ∧
      t.clk.syncSeen = s.clk.syncSeen.write (v.getLsbD 1 && m.getLsbD 1) (hw.getLsbD 1) ∧
      t.clk.count = s.clk.count ∧ t = { s with dp := t.dp, clk := t.clk } ∧ s.dp.Quiet t.dp) ∧
    (1 ≤ (v.extractLsb' 0 16).toNat → (v.extractLsb' 0 16).toNat ≤ 1000 →
      ∃ t, exec (.registerWrite .ovind 0xA00000 true v (BitVec.allOnes 64) 0) s = .next t ∧
        t.wdg = { s.wdg with limitMs := v.extractLsb' 0 16 } ∧ t = { s with dp := t.dp, wdg := t.wdg }) ∧
    (1000 < (v.extractLsb' 0 16).toNat →
      ∃ t, exec (.registerWrite .ovind 0xA00000 true v (BitVec.allOnes 64) 0) s = .next t ∧ t.wdg = s.wdg ∧
        t = { s with dp := t.dp } ∧ s.dp.Quiet t.dp) ∧
    (∀ x, s.regSlot b = some x → o.toNat % (if wide then 8 else 4) = 0 →
      (wide = true ∨ 8 ≤ o.toNat → exec (.registerReadClear o wide) s =
        .next ((s.clearRc b (wide || decide (o.toNat % 8 < 4)) (wide || decide (4 ≤ o.toNat % 8))).send
          (.regValue (if wide then x else if 4 ≤ o.toNat % 8 then x >>> 32 else x &&& 0xFFFFFFFF)))) ∧
      (wide = false → o = 0 → ∃ t, exec (.registerReadClear o wide) s = .next t ∧
        t.clk = { s.clk with latch := some (s.clk.count.extractLsb' 32 32) } ∧
        t.dp = s.dp.send (.regValue (s.clk.count &&& 0xFFFFFFFF)) ∧ t = { s with dp := t.dp, clk := t.clk }) ∧
      (wide = false → o = 4 → ∃ t, exec (.registerReadClear o wide) s = .next t ∧ t.clk = { s.clk with latch := none } ∧
        t.dp = s.dp.send (.regValue ((s.clk.latch.getD (s.clk.count.extractLsb' 32 32)).setWidth 64)) ∧
        t = { s with dp := t.dp, clk := t.clk })) ∧
    (s.regSlot b = none ∨ o.toNat % (if wide then 8 else 4) ≠ 0 →
      exec (.registerReadClear o wide) s = .next (s.send (.answer .bounds 0))) ∧
    (∀ (n : Link) (q : Fin 64) (t : State),
      (t = s.clearRc (0x700028 + 0x40 * n.val) true true → (t.link n).crcFail = 0 ∧ (t.link n).uncorrCw = 0 ∧ (t.link n).tagFail = 0 ∧
        (t.link n).corrSym = 0 ∧ OnlyLink n s t) ∧
      (t = s.clearRc (0x700030 + 0x40 * n.val) true true → (t.link n).holds = 0 ∧ (t.link n).resent = 0 ∧ OnlyLink n s t) ∧
      (t = s.clearRc (0xB00020 + 0x40 * q.val) true true → t.cq q = { s.cq q with stale := 0 } ∧ t = { s with cqs := t.cqs } ∧
        ∀ k, k ≠ q.val → t.cq k = s.cq k))

/-- CENSUS_COMBINE on a readable record replaces its 32 bytes. When the update's step differs from STEP, the record is first
reset (counts 0, MAX_SCALE 0x00, MIN_SCALE 0xFE, FLAGS 0x20, STEP the update's step) and the update applied to that; otherwise
it is applied to the record as it stands, so that operations of one step accumulate one record. Both happen in the one command,
whose answer is ST_OK; where no error comes up every other byte of memory stands. Off alignment it answers ST_ALIGN, outside
metadata space ST_BOUNDS; at another module the request is issued. (R78, R259) -/
def Obligations.ACensusUpdateOfAnotherStepResetsFirst : Prop :=
  ∀ (s : State) (q : MemReq) (u : BitVec 256) (env : Env) (off : Nat) (old upd z : Census) (d e : Dp),
    (q.issuer = none ∨ s.pwr.mstate ≠ 2) → upd = Census.ofBytes (le 32 u.toNat) → upd.flags < 64 →
    z.elements = 0 → z.zeros = 0 → z.sats = 0 → z.nonfin = 0 → z.maxS = 0 → z.minS = 0xFE → z.flags = 0x20 → z.step = upd.step →
    (resolve s.dp.coord q.addr = some (.here 2 off) → off % 32 = 0 →
      rangeAt (s.dp.upsets env.upsets) (s.ctx env q.who q.tag q.attempt) q.addr 32 true = .ok →
      (takeCensus (s.ctx env q.who q.tag q.attempt) q.addr).exec (s.dp.upsets env.upsets) = (d, .ok old) →
      (writeAt (s.ctx env q.who q.tag q.attempt) q.addr (if upd.step = old.step then old.combine upd else z.combine upd).bytes).exec d = (e, .ok ()) →
      exec (.censusCombine q u env) s = .next (({ s with dp := e } : State).answerReq q opAtomic .ok [])) ∧
    (resolve s.dp.coord q.addr = some (.here 2 off) → off % 32 = 0 → q.issuer = none →
      rangeStatus s.dp (s.ctx {} q.who q.tag q.attempt) 2 off 32 true = .ok → rangeStatus s.dp (s.ctx {} q.who q.tag q.attempt) 2 off 32 false = .ok →
      s.dp.mem.err (off / 32) = .none → old = Census.ofBytes (s.dp.mem.peek off 32) → old.flags < 64 →
      ∃ t, exec (.censusCombine q u {}) s = .next t ∧ t.dp.out = s.dp.out ++ [.answer .ok 0] ∧
        (upd.step ≠ old.step → t.dp.mem.peek off 32 = (z.combine upd).bytes) ∧
        (upd.step = old.step → t.dp.mem.peek off 32 = (old.combine upd).bytes) ∧
        (∀ a, a < off ∨ off + 32 ≤ a → t.dp.mem.byte a = s.dp.mem.byte a) ∧ t = { s with dp := { s.dp with out := t.dp.out, mem := t.dp.mem } }) ∧
    (∀ sp, resolve s.dp.coord q.addr = some (.here sp off) →
      (off % 32 ≠ 0 → exec (.censusCombine q u env) s = .next (s.answerReq q opAtomic .align [])) ∧
      (off % 32 = 0 → sp ≠ 2 → exec (.censusCombine q u env) s = .next (s.answerReq q opAtomic .bounds []))) ∧
    (∀ m sp, resolve s.dp.coord q.addr = some (.far m sp off) → q.issuer = none →
      exec (.censusCombine q u env) s = .next (s.issueReq q opAtomic m (le 32 u.toNat)))

/-- SIDECAR_PART replaces the 160 bytes of the sidecar by the atomic step of R198 on them; a part too many marks the tile
UNREADABLE and fails with ST_CHECK_TILE. STEP_COMPLETION of a partition counts the step and takes the next step's tables: from
the step log where it holds them, else computed for each reducible node whose operands' records hold the group-wide values, with
L by R96. The guard's decision falls once the node's epoch is closed with nothing running: it raises the range level when RANGE
is set below level 3 and the level's sources are there, else the format step when a limit is passed and one is left, each time
reporting its epoch with cause GUARD; past the last format step it clears with ST_NONFINITE, and otherwise it clears. Before
that time, for a node that is not guarded or whose census is not reduced, nothing changes. (R93, R96, R101, R102, R117, R118,
R119, R198, R259) -/
def Obligations.GuardsDecideAndTilesGatherTheirParts : Prop :=
  ∀ (s : State) (q : MemReq) (td : Addr) (tile : BitVec 32) (pc : PartIn) (env : Env) (off oa ob ot : Nat) (d e d' : Dp) (x : TD) (sc : Sidecar)
    (last bad : Bool) (p : Part) (step : BitVec 64) (tag : Tag) (n : GraphNode) (g : Guard) (r : Census) (range : Bool) (w : WetPart) (k : Nat) (flag : Option Bool),
    ((q.issuer = none ∨ s.pwr.mstate ≠ 2) → resolve s.dp.coord q.addr = some (.here 2 off) → off % 32 = 0 →
      (fetchTD (s.ctx env q.who q.tag q.attempt) td).exec (s.dp.upsets env.upsets) = (d, .ok x) →
      keyOf s.dp.coord (x.sidecarAddr tile.toNat) = keyOf s.dp.coord q.addr → tile.toNat < x.tiles → oneGranuleType d off 160 = true →
      rangeAt d (s.ctx env q.who q.tag q.attempt) q.addr 160 true = .ok →
      (∀ z, (partSidecar (s.ctx env q.who q.tag q.attempt) x tile.toNat (partOut pc)).exec d = (e, .ok z) →
        exec (.sidecarPart q td tile pc env) s = .next (({ s with dp := e } : State).answerReq q opAtomic .ok [])) ∧
      (∀ f, (partSidecar (s.ctx env q.who q.tag q.attempt) x tile.toNat (partOut pc)).exec d = (e, .error f) →
        exec (.sidecarPart q td tile pc env) s = .next (({ s with dp := e } : State).answerReq q opAtomic f.st []))) ∧
    (q.issuer = none → resolve s.dp.coord q.addr = some (.here 2 off) → off % 32 = 0 →
      (fetchTD (s.ctx {} q.who q.tag q.attempt) td).exec s.dp = (d, .ok x) → q.addr = x.sidecarAddr tile.toNat → tile.toNat < x.tiles →
      oneGranuleType s.dp off 160 = true → rangeStatus s.dp (s.ctx {} q.who q.tag q.attempt) 2 off 160 true = .ok →
      rangeStatus s.dp (s.ctx {} q.who q.tag q.attempt) 2 off 160 false = .ok → s.dp.mem.errs = [] → s.dp.mem.unread = [] →
      sidecarStep (Sidecar.ofBytes (s.dp.mem.peek off 160)) (x.tileCount tile.toNat) (q.tag.getD { step := 0, epoch := 0 }) q.attempt (partOut pc) = (sc, last, bad) →
      (bad = true ∨ last = false) → ∃ t, exec (.sidecarPart q td tile pc {}) s = .next t ∧
        (∃ y, t.dp.out = y ++ [.answer (if bad then .checkTile else .ok) 0]) ∧ t.dp.mem.peek off 160 = sc.bytes ∧
        (∀ a, a < off ∨ off + 160 ≤ a → t.dp.mem.byte a = s.dp.mem.byte a) ∧ t = { s with dp := { s.dp with out := t.dp.out, mem := t.dp.mem } }) ∧
    ((s.job p).used = false → exec (.stepCompletion p step env) s = .next s) ∧
    ((s.job p).used = true → (s.job p).recOf (step.toNat + 1) = none →
      ∃ t l, exec (.stepCompletion p step env) s = .next t ∧
        (carryTables (s.ctx env .ovind) (step.setWidth 32) (s.job p).nodes).exec (s.dp.upsets env.upsets) = (t.dp, .ok l) ∧
        t.job p = { s.job p with anchors := l, step := step + 1 } ∧ (∀ j, j ≠ p.val → t.job j = s.job j) ∧ t = { s with dp := t.dp, jobs := t.jobs } ∧
        ∀ a ∈ l, ∃ m ∈ (s.job p).nodes, m.reducible = true ∧ a.tensorId = m.tensorId ∧ a.wire = m.wire ∧ a.l = nodeAnchor m a.etop 0 m.wire.toNat) ∧
    (∀ rec, (s.job p).used = true → (s.job p).recOf (step.toNat + 1) = some rec →
      ∃ t, exec (.stepCompletion p step env) s = .next t ∧ t.job p = { s.job p with anchors := rec.anchors, step := step + 1 } ∧
        (∀ j, j ≠ p.val → t.job j = s.job j) ∧ t = { s with dp := t.dp, jobs := t.jobs }) ∧
    ((s.job p).used = true → (s.job p).recOf (step.toNat + 1) = none → (s.job p).nodes = [n] → n.reducible = true →
      resolve s.dp.coord n.a.census = some (.here 2 oa) → resolve s.dp.coord n.b.census = some (.here 2 ob) → resolve s.dp.coord n.table = some (.here 2 ot) →
      rangeStatus s.dp (s.ctx {} .ovind) 2 oa 32 false = .ok → rangeStatus s.dp (s.ctx {} .ovind) 2 ob 32 false = .ok →
      rangeStatus s.dp (s.ctx {} .ovind) 2 ot (tableSize n.entries.toNat) true = .ok → s.dp.mem.errs = [] → s.dp.mem.unread = [] →
      (Census.ofBytes (s.dp.mem.peek oa 32)).flags < 64 → (Census.ofBytes (s.dp.mem.peek ob 32)).flags < 64 → ot % 32 = 0 →
      (Census.ofBytes (s.dp.mem.peek oa 32)).reducedAt (step.setWidth 32) = true → (Census.ofBytes (s.dp.mem.peek ob 32)).reducedAt (step.setWidth 32) = true →
      ∃ t et l, exec (.stepCompletion p step {}) s = .next t ∧
        et = nodeEtop n (censusM n.a (Census.ofBytes (s.dp.mem.peek oa 32))) (censusM n.b (Census.ofBytes (s.dp.mem.peek ob 32))) ∧
        l = nodeAnchor n et 0 n.wire.toNat ∧ t.dp.mem.peek ot (tableSize n.entries.toNat) =
          tableBytes n (step.setWidth 32 + 1) n.wire.toNat 0 2 0 et (List.replicate n.entries.toNat l) ∧
        (∀ a, a < ot ∨ ot + tableSize n.entries.toNat ≤ a → t.dp.mem.byte a = s.dp.mem.byte a)) ∧
    (((s.job p).nodes.find? fun m => m.node == n.node && m.guarded) = none →
      exec (.layerGuardDecision p tag n.node range env) s = .next s) ∧
    (((s.job p).nodes.find? fun m => m.node == n.node && m.guarded) = some n → g = s.guard p tag.step n.node → w = s.dp.wetPart p →
      k = (w.inf tag.epoch.toNat).index.toNat / s.epochsPerStep p → flag = (if n.distributed then g.reduced else some (g.range || range)) →
      ((w.ent tag.epoch.toNat).step ≠ tag.step ∨ (w.inf tag.epoch.toNat).fine ≠ .closed ∨ (w.inf tag.epoch.toNat).running ≠ 0 ∨ g.clear = true ∨
        n.epoch ≠ (w.inf tag.epoch.toNat).index.toNat % s.epochsPerStep p ∨ flag = none →
        exec (.layerGuardDecision p tag n.node range env) s = .next s) ∧
      ((w.ent tag.epoch.toNat).step = tag.step → (w.inf tag.epoch.toNat).fine = .closed → (w.inf tag.epoch.toNat).running = 0 → g.clear = false →
        n.epoch = (w.inf tag.epoch.toNat).index.toNat % s.epochsPerStep p →
        (flag = some true → g.level < 3 → s.mayRaise p k n (nextLevel n g.level) = true →
          ∃ t, exec (.layerGuardDecision p tag n.node range env) s = .next t ∧
          t.guard p tag.step n.node = { g with level := nextLevel n g.level, range := false, reduced := none } ∧
          ∃ m : SmudgeMsg, m.phase = 1 ∧ m.epoch = tag.epoch ∧ m.cause = 5 ∧ m.status = Status.rangeViolation.toCode ∧
            .quickset (.up (s.managerOf 0)) 0x12 (smudgeBytes m) ∈ t.dp.out) ∧
        (flag = some true → 3 ≤ g.level ∨ s.mayRaise p k n (nextLevel n g.level) = false →
          exec (.layerGuardDecision p tag n.node range env) s = .next s) ∧
        (flag = some false → (takeCensus (s.ctx env .ovind) n.census).exec (s.dp.upsets env.upsets) = (d', .ok r) →
          r.wholeAt n.distributed tag.step = true →
          (n.nfLimit.toNat < r.nonfin ∨ n.satLimit.toNat < r.sats → g.fmt + 1 < n.formats.length →
            ∃ t, exec (.layerGuardDecision p tag n.node range env) s = .next t ∧
            t.guard p tag.step n.node = { g with fmt := g.fmt + 1, range := false, reduced := none } ∧
            ∃ m : SmudgeMsg, m.phase = 1 ∧ m.epoch = tag.epoch ∧ m.cause = 5 ∧ m.status = Status.nonfinite.toCode ∧
              .quickset (.up (s.managerOf 0)) 0x12 (smudgeBytes m) ∈ t.dp.out) ∧
          (n.nfLimit.toNat < r.nonfin ∨ n.satLimit.toNat < r.sats → n.formats.length ≤ g.fmt + 1 →
            ∃ t, exec (.layerGuardDecision p tag n.node range env) s = .next t ∧ (t.job p).status = Status.nonfinite.toCode ∧
            t.guard p tag.step n.node = { g with clear := true } ∧
            ((t.dp.wetPart p).inf tag.epoch.toNat).guards = ((d'.wetPart p).inf tag.epoch.toNat).guards - 1 ∧ t.dp.mem = d'.mem) ∧
          (r.nonfin ≤ n.nfLimit.toNat → r.sats ≤ n.satLimit.toNat →
            ∃ t, exec (.layerGuardDecision p tag n.node range env) s = .next t ∧ t.guard p tag.step n.node = { g with clear := true } ∧
            ((t.dp.wetPart p).inf tag.epoch.toNat).guards = ((d'.wetPart p).inf tag.epoch.toNat).guards - 1 ∧ t.dp.mem = d'.mem ∧
            t.dp.out = d'.out ∧ t = { s with dp := t.dp, jobs := t.jobs }))))

/-- For every surroundings. ARRAY_OPERATION whose checks pass starts with the rows, blocks and columns that remain, writing
nothing; one with no rows, columns or reduction completes with ST_OK, one that fails a row of the checks with its status.
INPUT_STAGE_LOADED fills one block per row and position. WEIGHT_BLOCK_ARRIVAL broadcasts up to its slot. COLUMN_GROUP_COMPLETE
moves the group's sums to the bank and starts the next; STAGING_BANK_WRITTEN writes the oldest full bank, the last one
completing the operation. Each that fails ends the operation. An easel that is held, or has no such operation, group or bank,
changes nothing. A sum of finite terms below the limit is exact. (R126, R127, R130, R132, R133, R148, R158, R160) -/
def Obligations.ArrayOperationsRunGroupByGroup : Prop :=
  (∀ (l bound x v : Int) (a b : List Machine.Num), termOf l (l + bound) (Num.sum ((a.zip b).map fun y => y.1.mul y.2)) = (.fin v, false) → (x + v).natAbs < 2 ^ 254 →
    dpuBlock 0 l bound [a] [b] (some (.fin x)) = (some (.fin (x + v)), 0)) ∧
  ∀ (s u : State) (i : Easel) (node : BitVec 32) (env v : Env) (x : Active) (a : AD) (c : Ctx) (d : Dp) (tds : List TD) (r r1 : ArrayRun) (act : Activity)
    (j : Fin 4) (kb : BitVec 8) (st : Status) (off : Nat) (f : Fail),
    a = AD.ofBytes x.desc → u = { s with dp := s.dp.upsets env.upsets } → v = { env with upsets := [] } → c = u.entryCtx i x.entry v →
    (s.fresh i = none ∨ s.engineHeld i = true → exec (.arrayOperation i node env) s = .next s) ∧
    (s.Fresh i x →
      (firstRow a.fieldRows = some (st, off) → exec (.arrayOperation i node env) s =
        .next (u.complete i (failComp { st, addr := x.entry.desc, obj := 1, off } false) v)) ∧
      (firstRow a.fieldRows = none → a.kn = 0 ∨ a.cols = 0 ∨ a.rows = 0 → exec (.arrayOperation i node env) s = .next (u.complete i {} v)) ∧
      (firstRow a.fieldRows = none → a.kn ≠ 0 → a.cols ≠ 0 → a.rows ≠ 0 →
        (firstRow a.countRows = some (st, off) → exec (.arrayOperation i node env) s =
          .next (u.complete i (failComp { st, addr := x.entry.desc, obj := 1, off } false) v)) ∧
        (firstRow a.countRows = none →
          ((a.fetch c >>= fun l => a.plan c x.entry.desc l >>= fun y => pure (l, y)).exec u.dp = (d, .error f) →
            exec (.arrayOperation i node env) s = .next (({ u with dp := d } : State).complete i (failComp f false) v)) ∧
          ((a.fetch c >>= fun l => a.plan c x.entry.desc l >>= fun y => pure (l, y)).exec u.dp = (d, .ok (tds, r)) →
            (r.rows ≠ 0 → r.cols ≠ 0 → ∃ t, exec (.arrayOperation i node env) s = .next t ∧ t.array i = some r ∧
              (t.eq i).cur = some { x with started := true, tds := tds } ∧ (t.eq i).busy = (s.eq i).busy ∧ t.dp.mem = d.mem ∧ r.rows ≤ a.rows ∧ r.rows ≤ 64 ∧
              r.clipRows = a.rows - r.rows ∧ r.clipCols = a.cols - r.cols ∧ r.loaded = false ∧ (∀ q, q ≠ i.val → t.eq q = s.eq q ∧ t.array q = s.array q)) ∧
            (r.rows = 0 ∨ r.cols = 0 → ∃ t, exec (.arrayOperation i node env) s = .next t ∧ t.array i = none ∧ (t.eq i).busy = false ∧ (t.eq i).cur = none))))) ∧
    (s.array i = none ∨ (s.eq i).cur = none ∨ s.engineHeld i = true → exec (.inputStageLoaded i env act) s = .next s ∧
      exec (.weightBlockArrival i j kb env act) s = .next s ∧ exec (.columnGroupComplete i env act) s = .next s ∧ exec (.stagingBankWritten i env act) s = .next s) ∧
    (s.Runs i x r →
      (r.loaded = true → exec (.inputStageLoaded i env act) s = .next s) ∧
      (r.canRun = false ∨ r.k / 32 ≤ kb.toNat ∨ 4 * kb.toNat + j.val < r.slot → exec (.weightBlockArrival i j kb env act) s = .next s) ∧
      (r.canRun = false → exec (.columnGroupComplete i env act) s = .next s) ∧
      (r.full = [] → exec (.stagingBankWritten i env act) s = .next s)) ∧
    (s.Runs i x r → r.loaded = false →
      ((a.load c (x.tds.getD 0 default) r).exec u.dp = (d, .ok r1) →
        ∃ t, exec (.inputStageLoaded i env act) s = .next t ∧ t.array i = some (r1.count (a.activity r r1 act)) ∧ r1.loaded = true ∧ r1.stage.length = r.rows ∧
          (∀ row ∈ r1.stage, row.length = r.k / 32) ∧ t = { s with dp := d, arrays := t.arrays, pcts := t.pcts }) ∧
      ((a.load c (x.tds.getD 0 default) r).exec u.dp = (d, .error f) →
        ∃ t, exec (.inputStageLoaded i env act) s = .next t ∧ t.array i = none ∧ (t.eq i).busy = false ∧ (t.eq i).cur = none)) ∧
    (s.Runs i x r → r.canRun = true → kb.toNat < r.k / 32 → r.slot ≤ 4 * kb.toNat + j.val →
      ((a.runTo c i x.tds r (4 * kb.toNat + j.val + 1) (4 * r.group * (r.k / 32) + kb.toNat * r.width + min j.val r.width + 1)).exec u.dp = (d, .ok (r1, none)) →
        ∃ t, exec (.weightBlockArrival i j kb env act) s = .next t ∧ t.array i = some (r1.count (a.activity r r1 act)) ∧ r1.slot = 4 * kb.toNat + j.val + 1 ∧
          r1.group = r.group ∧ t = { s with dp := d, arrays := t.arrays, pcts := t.pcts }) ∧
      ((a.runTo c i x.tds r (4 * kb.toNat + j.val + 1) (4 * r.group * (r.k / 32) + kb.toNat * r.width + min j.val r.width + 1)).exec u.dp = (d, .ok (r1, some f)) →
        ∃ t, exec (.weightBlockArrival i j kb env act) s = .next t ∧ t.array i = none ∧ (t.eq i).busy = false ∧ (t.eq i).cur = none)) ∧
    (s.Runs i x r → r.canRun = true →
      ((do let y ← a.runTo c i x.tds r (4 * (r.k / 32)) r.streamed; if y.2.isSome then pure y else a.stageGroup c i y.1 : Op (ArrayRun × Option Fail)).exec u.dp = (d, .ok (r1, none)) →
        ∃ t, exec (.columnGroupComplete i env act) s = .next t ∧ r1.group = r.group + 1 ∧ r1.slot = 0 ∧ r1.lacc = [] ∧
          (r1.full = r.full ∧ r1.bank.length = r.bank.length + r.width ∨ r1.bank = [] ∧ ∃ b, r1.full = r.full ++ [b] ∧ b.length = r.bank.length + r.width) ∧
          t.array i = some (r1.count (a.activity r r1 act)) ∧ t = { s with dp := d, arrays := t.arrays, pcts := t.pcts, wdg := t.wdg }) ∧
      ((do let y ← a.runTo c i x.tds r (4 * (r.k / 32)) r.streamed; if y.2.isSome then pure y else a.stageGroup c i y.1 : Op (ArrayRun × Option Fail)).exec u.dp = (d, .ok (r1, some f)) →
        ∃ t, exec (.columnGroupComplete i env act) s = .next t ∧ t.array i = none ∧ (t.eq i).busy = false ∧ (t.eq i).cur = none)) ∧
    (s.Runs i x r → r.full ≠ [] →
      ((a.writeBank c x.tds r).exec u.dp = (d, .ok (r1, none)) →
        (r1.banks = r.banks + 1 ∧ r1.full = r.full.drop 1 ∧ (a.saves = true → d.mem = u.dp.mem)) ∧
        (32 * r1.banks < r1.cols → ∃ t, exec (.stagingBankWritten i env act) s = .next t ∧ t.array i = some (r1.count (a.activity r r1 act)) ∧
          t = { s with dp := d, arrays := t.arrays, pcts := t.pcts, wdg := t.wdg }) ∧
        (r1.cols ≤ 32 * r1.banks → ∃ t, ∃ w : State, exec (.stagingBankWritten i env act) s = .next t ∧ w.eq i = s.eq i ∧ w.dp = d ∧
          t = w.complete i (arrayComp a (r1.count (a.activity r r1 act)) { st := .ok }) v ∧ t.array i = none ∧ (t.eq i).busy = false)) ∧
      ((a.writeBank c x.tds r).exec u.dp = (d, .ok (r1, some f)) →
        ∃ t, exec (.stagingBankWritten i env act) s = .next t ∧ t.array i = none ∧ (t.eq i).busy = false ∧ (t.eq i).cur = none))

/-- For every surroundings. TRELLIS_IMAGE_LOAD of a checked image makes it resident in its slot and completes with ST_OK; one
that fails completes with its status and leaves every slot. TRELLIS_RUN whose checks pass starts, with a switch of 64 cycles
unless the slot was the last, or waits for its fence; the release of the fence starts it as it was checked, a failed fence ends
it with that status; a run that fails a check completes with its status, an empty one with ST_OK. Each sweep leaves its cells
and adapters; a row's end clears the adapters and passes to the next row; the last row ends the run, and so does a failure. A
trellis that is held or has no such entry or run changes nothing. (R163, R164, R174, R175, R176, R180, R181, R182) -/
def Obligations.TrellisRunsSweepRowByRow : Prop :=
  ∀ (s u : State) (i : Easel) (x : Active) (d : TrD) (env v : Env) (e : Dp) (l : List Byte) (f : Fail) (tds : List TD) (r : TrellisRun) (fs : BitVec 16) (node : BitVec 32) (act : Activity)
    (cells : List Cell) (y : Cell × List (Acc × Acc)) (held : List (List Nat)) (c : Ctx) (im : Image) (st : Status) (off : Nat),
    u = { s with dp := s.dp.upsets env.upsets } → v = { env with upsets := [] } →
    d = TrD.ofBytes x.desc → c = u.entryCtx (768 + i.val) x.entry v → im = Image.ofBytes (Sparse.get [] (s.trellis i).images d.slot) →
    (s.fresh (768 + i.val) = none ∨ s.engineHeld (768 + i.val) = true → exec (.trellisImageLoad i env) s = .next s ∧ exec (.trellisRun i env) s = .next s) ∧
    ((s.eq (768 + i.val)).cur = none ∨ (s.trellis i).fenced = none ∨ s.engineHeld (768 + i.val) = true → exec (.trellisFenceRelease i env) s = .next s) ∧
    ((s.eq (768 + i.val)).cur = none ∨ (s.trellis i).run = none ∨ s.engineHeld (768 + i.val) = true →
      exec (.trellisSweep i env act) s = .next s ∧ exec (.trellisRowEnd i node env act) s = .next s) ∧
    (s.Fresh (768 + i.val) x → d.kind ≠ 0x43 → exec (.trellisImageLoad i env) s = .next s) ∧
    (s.Fresh (768 + i.val) x → d.kind ≠ 0x42 → exec (.trellisRun i env) s = .next s) ∧
    (s.Fresh (768 + i.val) x → d.kind = 0x43 → d.slot ≤ 7 → zeros d.rest = true → d.source.toNat % 32 = 0 →
      ((d.loadImage c s.fw.major.toNat).exec u.dp = (e, .ok l) → ∃ t, ∃ w : State, exec (.trellisImageLoad i env) s = .next t ∧ t = w.complete (768 + i.val) {} v ∧
        Sparse.get [] (t.trellis i).images d.slot = l ∧ (∀ n, n ≠ d.slot → Sparse.get [] (t.trellis i).images n = Sparse.get [] (s.trellis i).images n) ∧
        (t.trellis i).last ≠ some d.slot ∧ w = { s with dp := e, trellises := w.trellises } ∧ (∀ n, n ≠ i.val → t.trellis n = s.trellis n) ∧ (Image.ofBytes l).bad = none) ∧
      ((d.loadImage c s.fw.major.toNat).exec u.dp = (e, .error f) → exec (.trellisImageLoad i env) s =
        .next (({ u with dp := e } : State).complete (768 + i.val) (failComp f false) v))) ∧
    (s.Fresh (768 + i.val) x → d.kind = 0x42 →
      (firstRow d.fieldRows = some (st, off) → exec (.trellisRun i env) s = .next (u.complete (768 + i.val) (failComp { st, addr := x.entry.desc, obj := 1, off } false) v)) ∧
      (firstRow d.fieldRows = none → d.rows = 0 ∨ d.len = 0 → exec (.trellisRun i env) s = .next (u.complete (768 + i.val) {} v)) ∧
      (firstRow d.fieldRows = none → d.rows ≠ 0 → d.len ≠ 0 → firstRow d.countRows = none → Sparse.get [] (s.trellis i).images d.slot ≠ [] →
        d.streamsOk im = true → firstRow d.alignRows = none →
        ((d.fetch c >>= fun tds => d.plan c x.entry.desc tds >>= fun r => pure (tds, r)).exec u.dp = (e, .error f) →
          exec (.trellisRun i env) s = .next (({ u with dp := e } : State).complete (768 + i.val) (failComp f false) v)) ∧
        ((d.fetch c >>= fun tds => d.plan c x.entry.desc tds >>= fun r => pure (tds, r)).exec u.dp = (e, .ok (tds, r)) →
          (d.allEmpty tds = true → ∃ t, exec (.trellisRun i env) s = .next t ∧ (t.eq (768 + i.val)).busy = false ∧ (t.eq (768 + i.val)).cur = none ∧ t.trellises = s.trellises) ∧
          (d.allEmpty tds = false → r.rows ≠ 0 →
            (d.fence = 0 ∨ (s.fenceStatus i (BitVec.ofNat 32 d.fence) = some fs ∧ fencePasses fs = true) → ∃ t, exec (.trellisRun i env) s = .next t ∧
              (t.trellis i).run = some { r with switch := if (s.trellis i).last = some d.slot then 0 else 64 } ∧ (t.trellis i).last = some d.slot ∧
              (t.trellis i).adapters = [] ∧ (t.eq (768 + i.val)).cur = some { x with started := true, tds := tds } ∧
              t = { s with dp := e, eqs := t.eqs, trellises := t.trellises }) ∧
            (d.fence ≠ 0 → s.fenceStatus i (BitVec.ofNat 32 d.fence) = none → ∃ t, exec (.trellisRun i env) s = .next t ∧
              (t.eq (768 + i.val)).cur = some { x with started := true, tds := tds } ∧ (t.trellis i).fenced = some r ∧ (t.trellis i).run = (s.trellis i).run ∧
              t = { s with dp := e, eqs := t.eqs, trellises := t.trellises }))))) ∧
    ((s.eq (768 + i.val)).cur = some x → (s.trellis i).fenced = some r → s.engineHeld (768 + i.val) = false →
      (s.fenceStatus i (BitVec.ofNat 32 d.fence) = none → ∃ t, exec (.trellisFenceRelease i env) s = .next t ∧ (t.trellis i).fenced = some r ∧ t.eqs = s.eqs) ∧
      (s.fenceStatus i (BitVec.ofNat 32 d.fence) = some fs →
        (fencePasses fs = true → r.rows ≠ 0 → ∃ t, exec (.trellisFenceRelease i env) s = .next t ∧
          (t.trellis i).run = some { r with switch := if (s.trellis i).last = some d.slot then 0 else 64 } ∧ (t.trellis i).last = some d.slot ∧
          (t.trellis i).fenced = none ∧ t = { u with trellises := t.trellises }) ∧
        (fencePasses fs = true → r.rows = 0 → ∃ t, exec (.trellisFenceRelease i env) s = .next t ∧ (t.trellis i).run = none ∧ (t.trellis i).fenced = none ∧
          (t.eq (768 + i.val)).busy = false) ∧
        (fencePasses fs = false → ∃ t, ∃ w : State, exec (.trellisFenceRelease i env) s = .next t ∧ w = { u with trellises := w.trellises } ∧
          (w.trellis i).fenced = none ∧ (w.trellis i).run = (s.trellis i).run ∧
          t = w.complete (768 + i.val) (failComp { st := (Status.ofCode fs.toNat).getD .fieldReserved } false) v))) ∧
    (s.Sweeps i x r → r.sweep < ceilDiv d.len 64 →
      ((d.sweep c im x.tds r (adaptersOf (s.trellis i).adapters)).exec u.dp = (e, .ok cells) →
        ∃ t, exec (.trellisSweep i env act) s = .next t ∧ (t.trellis i).cells = cells.map (·.v) ∧ (t.trellis i).adapters = cells.map (·.a) ∧ cells.length = 64 ∧
          (∃ r1, (t.trellis i).run = some r1 ∧ r1.sweep = r.sweep + 1 ∧ r1.sweeps = r.sweeps + 1 ∧ r1.row = r.row ∧ r1.viol = r.viol + (cells.map (·.viol)).foldl (· + ·) 0) ∧
          (∀ n, n ≠ i.val → t.trellis n = s.trellis n) ∧ t = { s with dp := e, pcts := t.pcts, trellises := t.trellises, wdg := t.wdg }) ∧
      ((d.sweep c im x.tds r (adaptersOf (s.trellis i).adapters)).exec u.dp = (e, .error f) →
        ∃ t, exec (.trellisSweep i env act) s = .next t ∧ (t.trellis i).run = none ∧ (t.eq (768 + i.val)).busy = false ∧ (t.eq (768 + i.val)).cur = none)) ∧
    (s.Sweeps i x r → ceilDiv d.len 64 ≤ r.sweep → (d.tail c im x.tds r (adaptersOf (s.trellis i).adapters) >>= fun y =>
        (if d.adapt = 0 then d.rowOuts c x.tds r y.1.o else afterWrite (d.rowOuts c x.tds r y.1.o)) >>= fun h => pure (y, h)).exec u.dp = (e, .ok (y, held)) →
      (r.row + 1 ≠ r.rows → ∃ t, exec (.trellisRowEnd i node env act) s = .next t ∧ (t.trellis i).adapters = [] ∧ (t.trellis i).cells = List.replicate 64 y.1.v ∧
        (t.trellis i).run = some { r with row := r.row + 1, sweep := 0, viol := r.viol + y.1.viol, rowRange := false, held := held } ∧ t.dp.mem = e.mem) ∧
      (r.row + 1 = r.rows → ∃ t, ∃ w : State, exec (.trellisRowEnd i node env act) s = .next t ∧ (t.trellis i).run = none ∧ (t.eq (768 + i.val)).busy = false ∧ w.dp.mem = e.mem ∧
        t = w.complete (768 + i.val) (trellisComp d x.tds { r with row := r.row + 1, sweep := 0, viol := r.viol + y.1.viol, rowRange := false, held := held } { st := .ok }) v)) ∧
    (s.Sweeps i x r → ceilDiv d.len 64 ≤ r.sweep → (d.tail c im x.tds r (adaptersOf (s.trellis i).adapters) >>= fun y =>
        (if d.adapt = 0 then d.rowOuts c x.tds r y.1.o else afterWrite (d.rowOuts c x.tds r y.1.o)) >>= fun h => pure (y, h)).exec u.dp = (e, .error f) →
      ∃ t, exec (.trellisRowEnd i node env act) s = .next t ∧ (t.trellis i).run = none ∧ (t.eq (768 + i.val)).busy = false ∧ (t.eq (768 + i.val)).cur = none)

/-- For every surroundings. COPY, COPY_T2, CONVERT, GATHER, SCATTER, SCATTER_ADD and FILL that fail a row of the checks complete
with its status; a COUNT of 0 or empty pieces complete with ST_OK. With the checks passed the index is read, source tiles are
read in ascending order, each destination tile written once its last source tile is read, and the operation completes with its
counts, ST_RANGE_VIOLATION when a term violated its range; an MD with a fence not yet completed waits with what its checks
settled, goes on when the fence passes, and ends with the failed entry's status. An entry of another KIND, a held mover or none
changes nothing. COPY_T2 takes element (j, i) for (i, j); an index entry addresses its slice, a negative one with WRAP_NEG from
the end; in SCATTER the highest position wins; into INT32 SCATTER_ADD adds modulo 2^32. (R203, R208, R211, R214, R217, R221) -/
def Obligations.MoversMoveWhatTheirDescriptorNames : Prop :=
  (∀ (p : Plan) (es : List (Option Nat)) (a b i j : Nat), p.md.kind = mdT2 → p.dst.extents = [a, b] → p.src.extents = [b, a] → i < a → j < b →
    p.source es (i * b + j) = some (j * a + i)) ∧
  (∀ (v : Int) (n : Nat) (wrap : Bool), (0 ≤ v → v < n → addressed v n wrap = some v.toNat) ∧ (-(n : Int) ≤ v → v < 0 → addressed v n true = some (n + v).toNat) ∧
    (v < -(n : Int) ∨ (n : Int) ≤ v → addressed v n wrap = none) ∧ (v < 0 → addressed v n false = none)) ∧
  (∀ (p : Plan) (es : List (Option Nat)) (n r : Nat), p.md.kind = mdScatter → p.md.axis = 0 → p.dst.extents = [n, 32] → p.src.extents = [r, 32] → p.rng.first = 0 →
    ∀ d j e, d < n → e < 32 → es.getD j none = some d → (∀ k, j < k → es.getD k none ≠ some d) → p.source es (d * 32 + e) = some (j * 32 + e)) ∧
  (∀ (p : Plan) (cache : Cache) (old n : Nat), p.dst.type = 0x20 → p.sum cache [some 0] old n = some ((old + (cache.elem
    ((n / (max (axisInner p.dst p.md.axis) 1 * max (nth p.dst.extents p.md.axis) 1) * nth p.src.extents p.md.axis + p.rng.first) * axisInner p.dst p.md.axis +
      n % max (axisInner p.dst p.md.axis) 1)).1) % 2 ^ 32, 0) ∨ n / max (axisInner p.dst p.md.axis) 1 % max (nth p.dst.extents p.md.axis) 1 ≠ 0) ∧
  ∀ (s u : State) (q : QueueId) (node : BitVec 32) (x : Active) (m : MD) (env v : Env) (c : Ctx) (st : Status) (off : Nat) (f : Fail) (d d1 d2 : Dp) (tds : List TD)
    (p : Plan) (k : MoveKept) (es : List (Option Nat)) (w : State) (mv : Moved) (fs : BitVec 16),
    u = { s with dp := s.dp.upsets env.upsets } → v = { env with upsets := [] } → m = MD.ofBytes x.desc → c = u.entryCtx q x.entry v →
    (∀ z ∈ [(mdCopy, Instr.copy q env, (0 : BitVec 32)), (mdT2, .copyT2 q node env, node), (mdConvert, .convert q node env, node), (mdGather, .gather q env, 0),
        (mdScatter, .scatter q env, 0), (mdScatterAdd, .scatterAdd q node env, node), (mdFill, .fill q env, 0)],
      (s.fresh q = none ∨ q.val < 1536 ∨ 1728 ≤ q.val ∨ s.engineHeld q = true → exec z.2.1 s = .next s) ∧
      (s.Fresh q x → 1536 ≤ q.val → q.val < 1728 → (m.kind ≠ z.1 → exec z.2.1 s = .next s) ∧ (m.kind = z.1 →
        (firstRow m.fieldRows = some (st, off) → exec z.2.1 s = .next (u.complete q (failComp { st, addr := x.entry.desc, obj := 1, off } false) v)) ∧
        (firstRow m.fieldRows = none →
          (m.count = 0 → exec z.2.1 s = .next (u.complete q {} v)) ∧
          (m.count = 0xFFFFFFFF ∨ (m.kind = mdScatterAdd ∧ 2 ^ 24 ≤ m.count) → exec z.2.1 s =
            .next (u.complete q (failComp { st := .fieldReserved, addr := x.entry.desc, obj := 1, off := 16 } false) v)) ∧
          (m.count ≠ 0 → m.count ≠ 0xFFFFFFFF → (m.kind = mdScatterAdd → m.count < 2 ^ 24) →
            (m.sr.toNat % 32 ≠ 0 → exec z.2.1 s = .next (u.complete q (failComp { st := .align, addr := x.entry.desc, obj := 1, off := 56 } false) v)) ∧
            (m.sr.toNat % 32 = 0 →
              ((m.fetch c x.tds >>= fun l => m.plan c x.entry.desc l >>= fun y => pure (l, y)).exec u.dp = (d, .error f) →
                exec z.2.1 s = .next (({ u with dp := d } : State).complete q (failComp f false) v)) ∧
              ((m.fetch c x.tds >>= fun l => m.plan c x.entry.desc l >>= fun y => pure (l, y)).exec u.dp = (d, .ok (tds, p)) →
                (m.allEmpty p.src p.dst p.idx = true → exec z.2.1 s = .next (({ u with dp := d } : State).complete q {} v)) ∧
                (m.allEmpty p.src p.dst p.idx = false → m.fq = 0 → exec z.2.1 s = .next (({ u with dp := d } : State).movePlan q x z.2.2 p v)) ∧
                (m.allEmpty p.src p.dst p.idx = false → m.fq ≠ 0 → p.md = m →
                  (s.fenceStatus (m.fenceQueue (queuePanel q)) (BitVec.ofNat 32 m.fence) = some fs → fencePasses fs = true →
                    exec z.2.1 s = .next (({ u with dp := d } : State).movePlan q { x with tds } z.2.2 p v)) ∧
                  (s.fenceStatus (m.fenceQueue (queuePanel q)) (BitVec.ofNat 32 m.fence) = some fs → fencePasses fs = false →
                    exec z.2.1 s = .next (({ u with dp := d } : State).complete q (failComp { st := (Status.ofCode fs.toNat).getD .fieldReserved } false) v)) ∧
                  (s.fenceStatus (m.fenceQueue (queuePanel q)) (BitVec.ofNat 32 m.fence) = none → ∃ t, exec z.2.1 s = .next t ∧
                    (t.eq q).cur = some { x with started := true, tds := tds, kept := some p.toMoveKept } ∧ t = { s with dp := d, eqs := t.eqs } ∧
                    ∀ j, j ≠ q.val → t.eq j = s.eq j))))))))) ∧
    ((s.eq q).cur = some x → x.kept = some k → 1536 ≤ q.val → q.val < 1728 → s.engineHeld q = false → p = m.planWith x.tds k →
      (s.fenceStatus (m.fenceQueue (queuePanel q)) (BitVec.ofNat 32 m.fence) = some fs →
        (fencePasses fs = true → exec (.moverFenceRelease q node env) s = .next (u.movePlan q x node p v)) ∧
        (fencePasses fs = false → exec (.moverFenceRelease q node env) s =
          .next (u.complete q (failComp { st := (Status.ofCode fs.toNat).getD .fieldReserved } false) v))) ∧
      (s.fenceStatus (m.fenceQueue (queuePanel q)) (BitVec.ofNat 32 m.fence) = none → ∃ t, exec (.moverFenceRelease q node env) s = .next t ∧
        (∃ a, (t.eq q).cur = some a ∧ a.kept = some k ∧ a.entry = x.entry ∧ a.tds = x.tds) ∧ t = { u with eqs := t.eqs })) ∧
    ((∀ a, (s.eq q).cur = some a → a.kept = none) ∨ q.val < 1536 ∨ 1728 ≤ q.val ∨ s.engineHeld q = true →
      exec (.moverFenceRelease q node env) s = .next s) ∧
    ((if p.md.indexed then readIndex c p else pure []).exec u.dp = (d, .error f) →
      u.movePlan q x node p v = ({ u with dp := d } : State).complete q (failComp f false) v) ∧
    ((if p.md.indexed then readIndex c p else pure []).exec u.dp = (d1, .ok es) →
      ((p.updateCheck c (tilesOf (p.writes es))).exec d1 = (d2, .error f) →
        u.movePlan q x node p v = ({ u with dp := d2 } : State).complete q (failComp f false) v) ∧
      ((p.updateCheck c (tilesOf (p.writes es))).exec d1 = (d2, .ok ()) →
        (({ u with dp := d2 } : State).moveTiles q x node p c es (p.writes es) {} (p.order es (p.writes es) (tilesOf (p.writes es))) = (w, mv, none) →
          u.movePlan q x node p v = w.complete q (p.comp es mv (if mv.viol ≠ 0 then .rangeViolation else .ok) { st := .ok }) v) ∧
        (({ u with dp := d2 } : State).moveTiles q x node p c es (p.writes es) {} (p.order es (p.writes es) (tilesOf (p.writes es))) = (w, mv, some f) →
          u.movePlan q x node p v = w.complete q (p.comp es mv f.st f) v)))

/-- For every surroundings. ENGINE_QUEUE_POST of an open epoch (or for a panel no partition owns) writes the entry as POSTED
into a free place of an engine's or a communication queue's ring and counts it to its epoch, after what its node needs is there;
else nothing is posted. ENGINE_ENTRY_ACCEPT takes the posted head entry of an enabled idle queue under the next sequence number
and writes ST_PENDING at its completion record; a head that is not POSTED changes nothing, a reserved state or a misaligned
descriptor sets FAULT, an unreadable head is written again. EQ_ENABLE of a checked ring restarts the sequence and leaves the
trellis with no previous slot; a SIZE_LOG2 outside 4 to 12 sets FAULT. A completing operation leaves its record, the entry DONE
with its status, the head on the next entry. (R219, R220, R221, R222, R223, R352) -/
def Obligations.QueuesTakeEntriesAndCompleteThem : Prop :=
  (∀ (s : State) (q sp off k : Nat) (a : Active) (c : Comp),
    (s.eq q).cur = some a → a.desc ≠ [] → s.dp.mem.errs = [] → s.dp.mem.unread = [] → s.dp.mem.regionDue = [] → a.comp.toNat % 32 = 0 → resolve s.dp.coord a.comp = some (.here sp off) → k = s.ringKey q (s.eq q).head.toNat →
    rangeStatus s.dp (s.entryCtx q a.entry {}) sp off 4 true = .ok → rangeStatus s.dp (s.entryCtx q a.entry {}) sp (off + 4) 60 true = .ok →
    (k + 16 ≤ off ∨ off + 64 ≤ k + 12) →
    ((s.complete q c {}).eq q).busy = false ∧ ((s.complete q c {}).eq q).cur = none ∧ ((s.complete q c {}).eq q).done = (a.seq, c.st.toCode) :: (s.eq q).done ∧
    ((s.complete q c {}).eq q).head = BitVec.ofNat 12 (((s.eq q).head.toNat + 1) % (s.eq q).entries) ∧ (s.complete q c {}).dp.mem.peek off 64 = c.bytes a ∧
    (s.complete q c {}).dp.mem.peek (k + 12) 4 = le 2 3 ++ le 2 c.st.toCode.toNat ∧ (∀ j, j ≠ q → (s.complete q c {}).eq j = s.eq j) ∧
    (∀ x, x < off ∨ off + 64 ≤ x → x < k + 12 ∨ k + 16 ≤ x → (s.complete q c {}).dp.mem.byte x = s.dp.mem.byte x)) ∧
  ∀ (s s1 s2 : State) (q : QueueId) (cq : Fin 64) (i : BitVec 12) (desc : Addr) (tag : Tag) (att : BitVec 8) (lst : Bool) (env : Env) (e : QEntry) (k : Nat) (scr : Bool)
    (sq : BitVec 32) (sp off so o : Nat) (D b : List Byte) (f : Fail) (d d2 : Dp),
    (q.val < 1728 → (s.eq q).enable = true → i.toNat < (s.eq q).entries → desc.toNat % 32 = 0 → s.readRing q i.toNat {} = (s1, .ok b) →
      (s.queuePart q = some k → s.mayPost k tag att = true →
        (freeEntry b = false → exec (.engineQueuePost (.engine q) i desc tag att lst env) s = .next s1) ∧
        (freeEntry b = true → s1.nodeReady k q tag desc env = (s2, false) → exec (.engineQueuePost (.engine q) i desc tag att lst env) s = .next s2) ∧
        (freeEntry b = true → s1.nodeReady k q tag desc env = (s2, true) → e = { desc, tag, attempt := att, part := k } →
          ∃ t, exec (.engineQueuePost (.engine q) i desc tag att lst env) s = .next t ∧ Sparse.get none (t.eq q).posted i.toNat = some e ∧ tag ∈ (t.eq q).tags ∧
            t.eq q = { s2.eq q with posted := (t.eq q).posted, tags := (t.eq q).tags } ∧ (∀ j, j ≠ q.val → t.eq j = s2.eq j) ∧ t.cqs = s2.cqs ∧
            (lst = true → (s2.job k).graph = none → ((s2.wet k).inf tag.epoch.toNat).fine = .opened → ((t.wet k).inf tag.epoch.toNat).fine = .closed))) ∧
      (s.queuePart q = none → freeEntry b = true → e = { desc, tag, attempt := att } →
        ∃ t, exec (.engineQueuePost (.engine q) i desc tag att lst env) s = .next t ∧ Sparse.get none (t.eq q).posted i.toNat = some e ∧
          t.eq q = { s.eq q with posted := (t.eq q).posted, tags := (t.eq q).tags } ∧ (∀ j, j ≠ q.val → t.eq j = s.eq j) ∧ t = { s with dp := t.dp, eqs := t.eqs, pwr := t.pwr })) ∧
    (1728 ≤ q.val ∨ (s.eq q).enable = false ∨ (s.eq q).entries ≤ i.toNat ∨ desc.toNat % 32 ≠ 0 ∨ (∃ k, s.queuePart q = some k ∧ s.mayPost k tag att = false) →
      exec (.engineQueuePost (.engine q) i desc tag att lst env) s = .next s) ∧
    (q.val < 1728 → (s.eq q).enable = true → i.toNat < (s.eq q).entries → s.queuePart q = some k → s.mayPost k tag att = true → desc.toNat % 32 = 0 →
      s.dp.mem.err (s.ringKey q i.toNat / 32) = .none → freeEntry (s.dp.mem.peek (s.ringKey q i.toNat) 32) = true → e = { desc, tag, attempt := att, part := k } →
      s.ringKey q i.toNat % 32 = 0 → (s.job k).nodeOf desc = none →
      ∃ t, exec (.engineQueuePost (.engine q) i desc tag att false env) s = .next t ∧ t.dp.mem.peek (s.ringKey q i.toNat) 32 = entryBytes e 0 1 0 ∧
        (∀ x, x < s.ringKey q i.toNat ∨ s.ringKey q i.toNat + 32 ≤ x → t.dp.mem.byte x = s.dp.mem.byte x) ∧
        (t.wet k).inf tag.epoch.toNat = { (s.wet k).inf tag.epoch.toNat with running := ((s.wet k).inf tag.epoch.toNat).running + 1 } ∧
        (t.wet k).ents = (s.wet k).ents ∧ t = { s with dp := t.dp, eqs := t.eqs, pwr := t.pwr }) ∧
    ((s.cq cq).part = none ∨ (s.cq cq).committed = false ∨ (s.cq cq).destroying = true ∨ (s.cq cq).st ≠ .running ∨ desc.toNat % 32 ≠ 0 ∨ 2 ^ (s.cq cq).sizeLog2.toNat ≤ i.toNat ∨
      (∃ k, (s.cq cq).part = some k ∧ s.mayPost k tag att = false) → exec (.engineQueuePost (.comm cq) i desc tag att lst env) s = .next s) ∧
    ((s.cq cq).part = some k → (s.cq cq).committed = true → (s.cq cq).destroying = false → (s.cq cq).st = .running → s.mayPost k tag att = true → desc.toNat % 32 = 0 →
      i.toNat < 2 ^ (s.cq cq).sizeLog2.toNat →
      (s.runOp {} (readKey (s.ctx {} .ovind) 2 (s.cqKey cq i.toNat) 32) = (s1, .ok b) →
        (freeEntry b = false → exec (.engineQueuePost (.comm cq) i desc tag att lst env) s = .next s1) ∧
        (freeEntry b = true → e = { desc, tag, attempt := att, part := k } → ∃ t, exec (.engineQueuePost (.comm cq) i desc tag att lst env) s = .next t ∧
          Sparse.get none (t.cq cq).posted i.toNat = some e ∧ t.cq cq = { s.cq cq with posted := (t.cq cq).posted } ∧ (∀ j, j ≠ cq.val → t.cq j = s.cq j) ∧ t.eqs = s.eqs)) ∧
      (s.dp.mem.err (s.cqKey cq i.toNat / 32) = .none → s.cqKey cq i.toNat % 32 = 0 → freeEntry (s.dp.mem.peek (s.cqKey cq i.toNat) 32) = true →
        e = { desc, tag, attempt := att, part := k } → ∃ t, exec (.engineQueuePost (.comm cq) i desc tag att false env) s = .next t ∧
          t.dp.mem.peek (s.cqKey cq i.toNat) 32 = entryBytes e 0 1 0 ∧ (∀ x, x < s.cqKey cq i.toNat ∨ s.cqKey cq i.toNat + 32 ≤ x → t.dp.mem.byte x = s.dp.mem.byte x) ∧
          (t.wet k).inf tag.epoch.toNat = { (s.wet k).inf tag.epoch.toNat with running := ((s.wet k).inf tag.epoch.toNat).running + 1 } ∧
          t = { s with dp := t.dp, cqs := t.cqs, pwr := t.pwr })) ∧
    ((s.eq q).enable = false ∨ (s.eq q).busy = true ∨ sizeOk (s.eq q).sizeLog2 = false ∨ s.engineHeld q = true → exec (.engineEntryAccept q env) s = .next s) ∧
    ((s.eq q).enable = true → (s.eq q).busy = false → sizeOk (s.eq q).sizeLog2 = true → s.engineHeld q = false →
      (s.readRing q (s.eq q).head.toNat env = (s1, .error f) → exec (.engineEntryAccept q env) s = .next (s1.headUe q)) ∧
      (s.readRing q (s.eq q).head.toNat env = (s1, .ok b) →
        (fld b 12 2 = 0 ∨ fld b 12 2 = 2 ∨ fld b 12 2 = 3 → exec (.engineEntryAccept q env) s = .next s1) ∧
        (3 < fld b 12 2 → ∃ t, exec (.engineEntryAccept q env) s = .next t ∧ (t.eq q).lastFault = 0x0204 ∧ (t.eq q).fault = (s.eq q).fault.hwSet) ∧
        (fld b 12 2 = 1 → desc = BitVec.ofNat 64 (fld b 0 8) →
          (desc.toNat % 32 ≠ 0 → ∃ t, exec (.engineEntryAccept q env) s = .next t ∧ (t.eq q).busy = false ∧ (t.eq q).lastFault = 0x0201 ∧
            (t.eq q).fault = (s.eq q).fault.hwSet ∧ (t.eq q).head = BitVec.ofNat 12 (((s.eq q).head.toNat + 1) % (s.eq q).entries)) ∧
          (desc.toNat % 32 = 0 → e = { desc, tag := tagOf b 16, attempt := BitVec.ofNat 8 (fld b 24 1),
                                       part := match Sparse.get none (s.eq q).posted (s.eq q).head.toNat with | some x => x.part | none => 0 } →
            (readAt (s1.entryCtx q e env) desc (descSize q)).exec s1.dp = (d, .ok D) → fld D (compOff q) 8 % 32 = 0 →
            rangeAt d (s1.entryCtx q e env) (BitVec.ofNat 64 (fld D (compOff q) 8)) 64 true = .ok →
            sq = (if (s.eq q).last = 0xFFFFFFFF then 1 else (s.eq q).last + 1) →
            s2 = (((({ s1 with dp := d } : State).writeRingAt q (s.eq q).head.toNat 8 (le 4 sq.toNat)).writeRingAt q (s.eq q).head.toNat 12 (le 2 2)).updEq q fun x =>
              { x with busy := true, last := sq, cur := some { entry := e, seq := sq, desc := D, comp := BitVec.ofNat 64 (fld D (compOff q) 8) } }) →
            (writeAt (s1.entryCtx q e env) (BitVec.ofNat 64 (fld D (compOff q) 8)) (le 2 1)).exec s2.dp = (d2, .ok ()) →
            ({ s2 with dp := d2 } : State).entryStale q e = false → kindOk q (fld D 0 1) = true →
            exec (.engineEntryAccept q env) s = .next { s2 with dp := d2 } ∧ (s2.eq q).busy = true ∧ (s2.eq q).last = sq)))) ∧
    ((s.eq q).enable = true → (s.eq q).busy = false → sizeOk (s.eq q).sizeLog2 = true → s.engineHeld q = false → s.dp.mem.errs = [] → s.dp.mem.unread = [] →
      k = s.ringKey q (s.eq q).head.toNat → e.desc = desc → s.dp.mem.peek k 32 = entryBytes e sq 1 0 → k % 32 = 0 →
      Sparse.get none (s.eq q).posted (s.eq q).head.toNat = some e →
      desc.toNat % 32 = 0 → resolve s.dp.coord desc = some (.here sp off) → rangeStatus s.dp (s.entryCtx q e {}) sp off (descSize q) false = .ok →
        D = s.dp.mem.peek off (descSize q) → fld D (compOff q) 8 % 32 = 0 → resolve s.dp.coord (BitVec.ofNat 64 (fld D (compOff q) 8)) = some (.here so o) →
        rangeStatus s.dp (s.entryCtx q e {}) so o 64 true = .ok → rangeStatus s.dp (s.entryCtx q e {}) so o 2 true = .ok →
        s.entryStale q e = false → kindOk q (fld D 0 1) = true → ∃ t sn, exec (.engineEntryAccept q {}) s = .next t ∧
          sn = (if (s.eq q).last = 0xFFFFFFFF then 1 else (s.eq q).last + 1) ∧
          t.eq q = { s.eq q with busy := true, last := sn, cur := some { entry := e, seq := sn, desc := D, comp := BitVec.ofNat 64 (fld D (compOff q) 8) } } ∧
          t.dp.mem.peek o 2 = le 2 1 ∧ (∀ x, x < k + 8 ∨ k + 14 ≤ x → x < o ∨ o + 2 ≤ x → t.dp.mem.byte x = s.dp.mem.byte x) ∧
          (∀ j, j ≠ q.val → t.eq j = s.eq j) ∧ t = { s with dp := { s.dp with mem := t.dp.mem }, eqs := t.eqs }) ∧
    (∃ t, exec (.eqEnable q scr) s = .next t ∧ (∀ j, j ≠ q.val → t.eq j = s.eq j) ∧ t = { s with eqs := t.eqs, trellises := t.trellises } ∧
      (768 ≤ q.val → q.val < 1536 → (Sparse.get {} t.trellises (q.val - 768)).last = none) ∧
      (sizeOk (s.eq q).sizeLog2 = true → (s.updEq q fun x => { x with inScratch := scr && decide (q.val < 1536) }).ringOk q = true →
        t.eq q = { s.eq q with inScratch := scr && decide (q.val < 1536), enable := true, last := 0, done := [] }) ∧
      (sizeOk (s.eq q).sizeLog2 = true → (s.updEq q fun x => { x with inScratch := scr && decide (q.val < 1536) }).ringOk q = false →
        t.eq q = { s.eq q with inScratch := scr && decide (q.val < 1536) }) ∧
      (sizeOk (s.eq q).sizeLog2 = false → (t.eq q).enable = true ∧ (t.eq q).fault = (s.eq q).fault.hwSet ∧ (t.eq q).lastFault = 0x0204))

/-- For every request and surroundings: READ, WRITE, FETCH_ADD64 and CAS64 are served at a local address and answer ST_OK with
what they read, or the status of the check that fails; to another module they are issued; at register space READ and WRITE read
and write the register; in M2 a packet is answered ST_LINK_NOT_READY. At a local address whose checks pass and whose words hold
no error: READ answers the bytes and changes none; WRITE stores its bytes at the address and every other byte stands;
FETCH_ADD64 adds modulo 2^64 and CAS64 stores its value where the old one equals the compared one, at the 8 bytes addressed
alone, and both answer the old value. A BAR2 access of an open segment reads and writes the same way; another is an Unsupported
Request, a failing read a Completer Abort where the rule says so. (R188, R249, R256, R259, R463, R464) -/
def Obligations.MemoryRequestsReadAndWriteBytes : Prop :=
  ∀ (s : State) (q : MemReq) (env : Env) (sp off : Nat) (n : Fin 129) (l : List Byte) (x y old : BitVec 64) (p : Port) (g : Fin 16) (o : BitVec 32) (m : BitVec 13),
    (q.issuer = none → resolve s.dp.coord q.addr = some (.here sp off) → sp = 0 ∨ sp = 2 →
      (rangeStatus s.dp (s.ctx {} q.who q.tag q.attempt) sp off (32 * n.val) false = .ok →
        (∀ w, off / 32 ≤ w → w ≤ (off + 32 * n.val - 1) / 32 → s.dp.mem.err w = .none) →
        ∃ t, exec (.read q n {}) s = .next t ∧ t.dp.out = s.dp.out ++ [.readAnswer .ok (s.dp.mem.peek off (32 * n.val))] ∧
          t.dp.mem.bytes = s.dp.mem.bytes ∧ t = { s with dp := { s.dp with out := t.dp.out, mem := { s.dp.mem with chan := t.dp.mem.chan } } }) ∧
      (rangeStatus s.dp (s.ctx {} q.who q.tag q.attempt) sp off l.length true = .ok →
        (∀ w, off / 32 ≤ w → w ≤ (off + l.length - 1) / 32 → s.dp.mem.err w = .none) →
        ∃ t, exec (.write q l {}) s = .next t ∧ t.dp.out = s.dp.out ++ [.answer .ok 0] ∧
          (∀ i, i < l.length → t.dp.mem.byte (off + i) = l.getD i 0) ∧
          (∀ a, a < off ∨ off + l.length ≤ a → t.dp.mem.byte a = s.dp.mem.byte a) ∧
          t = { s with dp := { s.dp with out := t.dp.out, mem := t.dp.mem } } ∧ t.dp.mem.region = s.dp.mem.region) ∧
      (q.addr.toNat % 8 = 0 → rangeStatus s.dp (s.ctx {} q.who q.tag q.attempt) sp off 8 true = .ok →
        rangeStatus s.dp (s.ctx {} q.who q.tag q.attempt) sp off 8 false = .ok → s.dp.mem.err (off / 32) = .none →
        old = BitVec.ofNat 64 (unle (s.dp.mem.peek off 8)) →
        (∃ t, exec (.fetchAdd64 q x {}) s = .next t ∧ t.dp.out = s.dp.out ++ [.answer .ok old] ∧
          BitVec.ofNat 64 (unle (t.dp.mem.peek off 8)) = old + x ∧
          (∀ a, a < off ∨ off + 8 ≤ a → t.dp.mem.byte a = s.dp.mem.byte a) ∧ t = { s with dp := { s.dp with out := t.dp.out, mem := t.dp.mem } }) ∧
        (∃ t, exec (.cas64 q x y {}) s = .next t ∧ t.dp.out = s.dp.out ++ [.answer .ok old] ∧
          BitVec.ofNat 64 (unle (t.dp.mem.peek off 8)) = (if old = x then y else old) ∧
          (∀ a, a < off ∨ off + 8 ≤ a → t.dp.mem.byte a = s.dp.mem.byte a) ∧ t = { s with dp := { s.dp with out := t.dp.out, mem := t.dp.mem } }))) ∧
    (∀ z ∈ [(Instr.read q n env, opRead, ([] : List Byte), (fun c => readAt c q.addr (32 * n.val) : Ctx → Op (List Byte))),
          (.write q l env, opWrite, l, fun c => do writeAt c q.addr l; pure []), (.fetchAdd64 q x env, opAtomic, le 8 x.toNat, atomic8 q.addr (· + x)),
          (.cas64 q x y env, opAtomic, le 8 x.toNat ++ le 8 y.toNat, atomic8 q.addr fun v => if v = x then y else v)],
      (q.issuer ≠ none → s.pwr.mstate = 2 → exec z.1 s = .next (s.answerReq q z.2.1 .linkNotReady [])) ∧
      (q.issuer = none ∨ s.pwr.mstate ≠ 2 →
        (resolve s.dp.coord q.addr = none → exec z.1 s = .next (s.answerReq q z.2.1 .bounds [])) ∧
        (∀ c k, resolve s.dp.coord q.addr = some (.far c k off) →
          (q.issuer = none → exec z.1 s = .next (s.issueReq q z.2.1 c z.2.2.1)) ∧ (q.issuer ≠ none → exec z.1 s = .next (s.answerReq q z.2.1 .bounds []))) ∧
        (resolve s.dp.coord q.addr = some (.here sp off) → sp ≠ 1 ∨ z.2.1 = opAtomic →
          (∀ d r, (z.2.2.2 (s.ctx env q.who q.tag q.attempt)).exec (s.dp.upsets env.upsets) = (d, .ok r) →
            exec z.1 s = .next (({ s with dp := d } : State).answerReq q z.2.1 .ok r)) ∧
          (∀ d f, (z.2.2.2 (s.ctx env q.who q.tag q.attempt)).exec (s.dp.upsets env.upsets) = (d, .error f) →
            exec z.1 s = .next (({ s with dp := d } : State).answerReq q z.2.1 f.st []))))) ∧
    (q.issuer = none ∨ s.pwr.mstate ≠ 2 → resolve s.dp.coord q.addr = some (.here 1 off) →
      exec (.read q n env) s = .next ((s.readReg off).1.answerReq q opRead (s.readReg off).2.1 (s.readReg off).2.2) ∧
      (∀ r, r = s.regWrite (regAgentOf q) off true { v := BitVec.ofNat 64 (fld l 0 8), mask := BitVec.allOnes 64 } →
        exec (.write q l env) s = .next (r.1.answerReq q opWrite r.2 []))) ∧
    (s.bar2Open ((s.port p).seg g) (((s.port p).seg g).addr o) m.toNat = false → exec (.bar2Read p g o m env) s = .next ((s.bar2Ur p).send (.hostRead p .ur))) ∧
    (s.isOwner p = false ∨ s.bar2Open ((s.port p).seg g) (((s.port p).seg g).addr o) l.length = false →
      exec (.bar2Write p g o l env) s = .next ((s.bar2Ur p).send (.hostWrite p false))) ∧
    (s.bar2Open ((s.port p).seg g) (((s.port p).seg g).addr o) m.toNat = true →
      (∀ d r, (readAt (s.ctx env (.host p ((s.port p).seg g).job)) (((s.port p).seg g).addr o) m.toNat).exec (s.dp.upsets env.upsets) = (d, .ok r) →
        exec (.bar2Read p g o m env) s = .next ((({ s with dp := d } : State).countPort (320 + 2 * portNo p) m.toNat).send (.hostRead p (.data r)))) ∧
      (∀ d f, (readAt (s.ctx env (.host p ((s.port p).seg g).job)) (((s.port p).seg g).addr o) m.toNat).exec (s.dp.upsets env.upsets) = (d, .error f) →
        exec (.bar2Read p g o m env) s = .next ((({ s with dp := d } : State).bar2Ur p).send
          (.hostRead p (if f.st = .checkTile ∨ f.st = .linkNotReady ∨ f.st = .linkQuarantine ∨ f.st = .hang then .ca else .ur))))) ∧
    (s.isOwner p = true → s.bar2Open ((s.port p).seg g) (((s.port p).seg g).addr o) l.length = true →
      (∀ d, (writeAt (s.ctx env (.host p ((s.port p).seg g).job)) (((s.port p).seg g).addr o) l).exec (s.dp.upsets env.upsets) = (d, .ok ()) →
        exec (.bar2Write p g o l env) s = .next ((({ s with dp := d } : State).countPort (321 + 2 * portNo p) l.length).send (.hostWrite p true))) ∧
      (∀ d f, (writeAt (s.ctx env (.host p ((s.port p).seg g).job)) (((s.port p).seg g).addr o) l).exec (s.dp.upsets env.upsets) = (d, .error f) →
        exec (.bar2Write p g o l env) s = .next ((({ s with dp := d } : State).bar2Ur p).send (.hostWrite p false)))) ∧
    (resolve s.dp.coord (((s.port p).seg g).addr o) = some (.here sp off) →
      (s.bar2Open ((s.port p).seg g) (((s.port p).seg g).addr o) m.toNat = true →
        rangeStatus s.dp (s.ctx {} (.host p ((s.port p).seg g).job)) sp off m.toNat false = .ok →
        (∀ w, off / 32 ≤ w → w ≤ (off + m.toNat - 1) / 32 → s.dp.mem.err w = .none) →
        ∃ t, exec (.bar2Read p g o m {}) s = .next t ∧ t.dp.out = s.dp.out ++ [.hostRead p (.data (s.dp.mem.peek off m.toNat))] ∧
          t.dp.mem.bytes = s.dp.mem.bytes ∧ t.mbx = s.mbx ∧ t = { s with dp := t.dp, portRun := t.portRun }) ∧
      (s.isOwner p = true → s.bar2Open ((s.port p).seg g) (((s.port p).seg g).addr o) l.length = true →
        rangeStatus s.dp (s.ctx {} (.host p ((s.port p).seg g).job)) sp off l.length true = .ok →
        (∀ w, off / 32 ≤ w → w ≤ (off + l.length - 1) / 32 → s.dp.mem.err w = .none) →
        ∃ t, exec (.bar2Write p g o l {}) s = .next t ∧ t.dp.out = s.dp.out ++ [.hostWrite p true] ∧
          (∀ i, i < l.length → t.dp.mem.byte (off + i) = l.getD i 0) ∧
          (∀ a, a < off ∨ off + l.length ≤ a → t.dp.mem.byte a = s.dp.mem.byte a) ∧ t.mbx = s.mbx ∧ t = { s with dp := t.dp, portRun := t.portRun }))

/-- An engine or a job bound to one partition gets ST_BOUNDS on a granule of another, and a job with no entry in the job table
on every granule. Unassigned and retired granules take Ovind's writes alone. A write of an engine into a durable granule of its
partition is accepted under a dry tag and refused with ST_WET_WRITE under another. A request that fails its checks answers that
status and changes nothing else; so does an atomic off its alignment, with ST_ALIGN. (R249, R252, R259) -/
def Obligations.AccessesAreCheckedFirst : Prop :=
  (∀ (d : Dp) (c : Ctx) (sp g : Nat) (w : Bool) (k : Part) (t : Tag),
    (c.who = .engine k → regionPart (d.mem.regionOf g) ≠ k → granuleStatus d c sp g w = .bounds) ∧
    (∀ j, c.who = .remote j → Sparse.get 0 d.mem.jobs j.toNat = 0 → granuleStatus d c sp g w = .bounds) ∧
    (∀ j i, c.who = .remote j → Sparse.get 0 d.mem.jobs j.toNat = i + 1 → regionPart (d.mem.regionOf g) ≠ i → granuleStatus d c sp g w = .bounds) ∧
    (c.who ≠ .ovind → regionType (d.mem.regionOf g) = 0 ∨ regionType (d.mem.regionOf g) = 7 → granuleStatus d c sp g w = .bounds) ∧
    (c.who = .engine k → regionPart (d.mem.regionOf g) = k → regionType (d.mem.regionOf g) = 2 → sp = 0 → c.tag = some t →
      granuleStatus d c sp g true = (if (d.wetPart k).isDry t then .ok else .wetWrite)) ∧
    (c.who = .engine k → regionPart (d.mem.regionOf g) = k → regionType (d.mem.regionOf g) = 1 → granuleStatus d c sp g w = (if sp = 0 then .ok else .bounds)) ∧
    (c.who = .engine k → regionPart (d.mem.regionOf g) = k → regionType (d.mem.regionOf g) = 5 → granuleStatus d c sp g true = .bounds)) ∧
  ∀ (s : State) (q : MemReq) (sp off : Nat) (n : Fin 129) (l : List Byte) (u : BitVec 256) (x y : BitVec 64) (st : Status),
    q.issuer = none → resolve s.dp.coord q.addr = some (.here sp off) → sp = 0 ∨ sp = 2 →
    (rangeStatus s.dp (s.ctx {} q.who q.tag q.attempt) sp off l.length true = st → st ≠ .ok →
      exec (.write q l {}) s = .next (s.send (.answer st 0))) ∧
    (rangeStatus s.dp (s.ctx {} q.who q.tag q.attempt) sp off (32 * n.val) false = st → st ≠ .ok →
      exec (.read q n {}) s = .next (s.send (.readAnswer st []))) ∧
    (q.addr.toNat % 8 ≠ 0 → exec (.fetchAdd64 q x {}) s = .next (s.send (.answer .align 0)) ∧
      exec (.cas64 q x y {}) s = .next (s.send (.answer .align 0))) ∧
    (off % 32 ≠ 0 → exec (.censusCombine q u {}) s = .next (s.send (.answer .align 0)))

/-- A response takes the waiting access of its tag, request and module off the list and gives its status and data to the issuer;
a response with no access waiting is dropped. An access with no response in time ends with ST_HANG; at an engine a hang is
declared and the hedge manager is asked before any reset. A scrubbed word with a correctable error is counted and written back
corrected unless a port wrote it meanwhile; an uncorrectable one is reported and its row marked for repair. The scrubber passes
to its next assigned granule and counts a pass after the last. Resolving an uncorrectable address marks the tile, keeps a
record's word failing, and copies mirrored data back. (R82, R238, R241, R242, R243, R258, R260, R414, R415) -/
def Obligations.ResponsesTimeoutsAndScrub : Prop :=
  (∀ (d : Dp) (m : List Nat) (w i : Nat) (f : Byte) (y : BitVec 32),
    (d.mem.err w = .correctable i f → ((scrubWord d m w).unit (unitOf (w * 32))).ce = (d.unit (unitOf (w * 32))).ce.hwSet ∧
      (w ∉ m → (scrubWord d m w).mem.err w = .none ∧ (i < 32 → (scrubWord d m w).mem.byte (w * 32 + i) = d.mem.byte (w * 32 + i) ^^^ f) ∧
        ∀ a, a ≠ w * 32 + i → (scrubWord d m w).mem.byte a = d.mem.byte a) ∧
      (w ∈ m → (scrubWord d m w).mem.bytes = d.mem.bytes)) ∧
    (d.mem.err w = .uncorrectable y → ((scrubWord d m w).unit (unitOf (w * 32))).ue = (d.unit (unitOf (w * 32))).ue.hwSet ∧
      ((scrubWord d m w).unit (unitOf (w * 32))).ueAddr = ownAddr d.coord 0 (w * 32) ∧ Sparse.get false (scrubWord d m w).mem.repair w = true ∧
      (scrubWord d m w).mem.err w = d.mem.err w ∧ (scrubWord d m w).mem.bytes = d.mem.bytes)) ∧
  ∀ (s : State) (p : Packet) (x : Txn) (st : Status) (tag : BitVec 16) (e : QueueId) (u : Fin 64) (m : List Nat) (g off : Nat) (a : Addr) (env : Env) (pl : UePlace) (d d1 : Dp)
    (td : Addr) (tile : BitVec 32),
    (s.txnOf p opRead = none → exec (.readResp p) s = .next s) ∧ (s.txnOf p opWrite = none → exec (.writeAck p) s = .next s) ∧
    (s.txnOf p opAtomic = none → exec (.atomicResp p) s = .next s) ∧
    (s.txnOf p opRead = some x → st = (Status.ofCode p.status.toNat).getD .fieldReserved → ∃ t, exec (.readResp p) s = .next t ∧
      t.dp.out = s.dp.out ++ [.readAnswer st (if st = .ok then p.data else [])] ∧
      (∀ y ∈ t.lnk.txns, y.tag ≠ x.tag) ∧ t = { s with dp := t.dp, lnk := { s.lnk with txns := t.lnk.txns } } ∧ s.dp.Quiet t.dp) ∧
    (s.txnOf p opWrite = some x → st = (Status.ofCode p.status.toNat).getD .fieldReserved → ∃ t, exec (.writeAck p) s = .next t ∧
      t.dp.out = s.dp.out ++ [.answer st (if st = .ok then BitVec.ofNat 64 (fld p.data 0 8) else 0)] ∧
      (∀ y ∈ t.lnk.txns, y.tag ≠ x.tag) ∧ t = { s with dp := t.dp, lnk := { s.lnk with txns := t.lnk.txns } } ∧ s.dp.Quiet t.dp) ∧
    (s.txnOf p opAtomic = some x → st = (Status.ofCode p.status.toNat).getD .fieldReserved → ∃ t, exec (.atomicResp p) s = .next t ∧
      t.dp.out = s.dp.out ++ [.answer st (if st = .ok then BitVec.ofNat 64 (fld p.data 0 8) else 0)] ∧
      (∀ y ∈ t.lnk.txns, y.tag ≠ x.tag) ∧ t = { s with dp := t.dp, lnk := { s.lnk with txns := t.lnk.txns } } ∧ s.dp.Quiet t.dp) ∧
    ((s.lnk.txns.find? fun y => y.tag == tag) = none → ∀ z, exec (.remoteAccessTimeout tag z) s = .next s) ∧
    ((s.lnk.txns.find? fun y => y.tag == tag) = some x →
      (∃ t, exec (.remoteAccessTimeout tag none) s = .next t ∧ t.dp.out = s.dp.out ++ [if x.op = opRead then .readAnswer .hang [] else .answer .hang 0] ∧
        (∀ y ∈ t.lnk.txns, y.tag ≠ tag) ∧ t = { s with dp := t.dp, lnk := { s.lnk with txns := t.lnk.txns } } ∧ s.dp.Quiet t.dp) ∧
      (∃ t, exec (.remoteAccessTimeout tag (some e)) s = .next t ∧ t.wdg.hang = s.wdg.hang.hwSet ∧ t.wdg.episodes = s.wdg.episodes ∧
        (t.wdgEng e).hangs = satInc (s.wdgEng e).hangs ∧ (∀ y ∈ t.lnk.txns, y.tag ≠ tag) ∧
        t = { s with dp := t.dp, wdg := t.wdg, lnk := { s.lnk with txns := t.lnk.txns } } ∧ s.dp.Quiet t.dp) ∧
      (e.val < 1536 → (∀ y ∈ s.wdg.queries, y.coord ≠ x.dest.code) → ∃ t, exec (.remoteAccessTimeout tag (some e)) s = .next t ∧
        t.wdg.queries = s.wdg.queries ++ [{ coord := x.dest.code, waits := [(1, e.val % 768, e.val)] }] ∧
        OutMsg.mgmt .lostQuery x.dest.code (BitVec.ofNat 64 s.dp.coord.code.toNat) ∈ t.dp.out)) ∧
    (d = s.dp.upsets env.upsets →
      (nextGranule d.mem u (d.unit u).granule.toNat = none → ∃ t, exec (.patrolScrubRead u m env) s = .next t ∧ (t.dp.unit u).granule = 0 ∧
        (t.dp.unit u).passes = (if (d.unit u).granule = 0 then (d.unit u).passes else (d.unit u).passes + 1) ∧
        t = { s with dp := { d with mem := { d.mem with units := t.dp.mem.units } } }) ∧
      (nextGranule d.mem u (d.unit u).granule.toNat = some g → d1 = scrubGranule d m (unitGranule u + g) → ∃ t, exec (.patrolScrubRead u m env) s = .next t ∧
        (nextGranule d1.mem u (g + 1) = none → (t.dp.unit u).granule = 0 ∧ (t.dp.unit u).passes = (d1.unit u).passes + 1) ∧
        (nextGranule d1.mem u (g + 1) ≠ none → (t.dp.unit u).granule = BitVec.ofNat 16 (g + 1) ∧ (t.dp.unit u).passes = (d1.unit u).passes) ∧
        t = { s with dp := { d1 with mem := { d1.mem with units := t.dp.mem.units } } })) ∧
    (∃ t, exec (.scrubPriorityEscalation u) s = .next t ∧ t.dp.unit u = { s.dp.unit u with escalated := true } ∧
      (∀ v, v ≠ u.val → t.dp.unit v = s.dp.unit v) ∧ t = { s with dp := { s.dp with mem := { s.dp.mem with units := t.dp.mem.units } } }) ∧
    (resolve s.dp.coord a = some (.here 2 off) → ∃ t, exec (.ueResolve a { tile := none, record := true, mirror := [] } env) s = .next t ∧
      (∃ y, t.dp.mem.err (off / 32) = .uncorrectable y) ∧ t.dp.mem.bytes = (s.dp.upsets env.upsets).mem.bytes ∧ t = { s with dp := t.dp }) ∧
    (pl.tile = none → pl.record = false → (copyBack (s.ctx { env with upsets := [] } .ovind) pl.mirror).exec (s.dp.upsets env.upsets) = (d, .ok ()) →
      exec (.ueResolve a pl env) s = .next { s with dp := d }) ∧
    (pl.tile = some (td, tile) → pl.record = false → pl.mirror = [] →
      (markTile (s.ctx { env with upsets := [] } .ovind) td tile.toNat a).exec (s.dp.upsets env.upsets) = (d, .ok ()) →
      exec (.ueResolve a pl env) s = .next { s with dp := d }) ∧
    (∃ t, exec (.ueResolve a pl env) s = .next t ∧ t = { s with dp := t.dp })

/-- ENABLE written 1, the end of the start delay and the end of the wait send an enabled link from DOWN to TRAIN at ST4 or
later, else leave its state; ENABLE written 0 sends any state to DOWN with no wait and marks the peer of a link in QUARANTINE as
rejected; RETRAIN and RESTORE_LANES send an ACTIVE or DEGRADED link to TRAIN, setting DOWN_EVENT, and RESTORE_LANES forgets bad
lanes; on another link they do nothing. No other link and no memory changes. (R287, R288, R298, R307) -/
def Obligations.LinkControlMovesTheLink : Prop :=
  ∀ (s : State) (n : Link),
    (∃ t, exec (.linkEnable n) s = .next t ∧ (t.link n).enable = true ∧ (t.link n).rejected = false ∧ OnlyLink n s t ∧
      (t.link n).st = (if (s.link n).st = .down ∧ 4 ≤ s.stage ∧ s.lnk.started = true ∧ (s.link n).waiting = false then .train else (s.link n).st)) ∧
    (∃ t, exec (.linkDisable n) s = .next t ∧ (t.link n).st = .down ∧ (t.link n).enable = false ∧ (t.link n).waiting = false ∧
      (t.link n).laneMask = 0 ∧ (t.link n).rejected = ((s.link n).rejected || (s.link n).st == .quarantine) ∧ OnlyLink n s t) ∧
    ((s.link n).st.up = true → ∃ t, exec (.linkRetrain n) s = .next t ∧ (t.link n).st = .train ∧
      (t.link n).downEvent = (s.link n).downEvent.hwSet ∧ OnlyLink n s t) ∧
    ((s.link n).st.up = true → ∃ t, exec (.linkRestoreLanes n) s = .next t ∧ (t.link n).st = .train ∧ (t.link n).bad = 0 ∧
      (t.link n).sticky = false ∧ OnlyLink n s t) ∧
    ((s.link n).st.up = false → exec (.linkRetrain n) s = .next s ∧ exec (.linkRestoreLanes n) s = .next s) ∧
    (4 ≤ s.stage → ∃ t, exec .linkStartDelayExpiry s = .next t ∧ t.lnk.started = true ∧
      (∀ m : Link, (t.link m).st = (if (s.link m).st = .down ∧ (s.link m).enable = true ∧ (s.link m).waiting = false then .train else (s.link m).st)) ∧
      t.dp.mem = s.dp.mem ∧ t.jobs = s.jobs ∧ t.eqs = s.eqs ∧ t.cqs = s.cqs) ∧
    (s.stage < 4 → exec .linkStartDelayExpiry s = .next s) ∧
    (∃ t, exec (.linkBackoffExpiry n) s = .next t ∧ (t.link n).waiting = false ∧ OnlyLink n s t ∧
      (t.link n).st = (if (s.link n).st = .down ∧ (s.link n).enable = true ∧ 4 ≤ s.stage ∧ s.lnk.started = true then .train else (s.link n).st))

/-- When TRAIN completes, the good logical lanes are those locked that both ends use (of a session that is new after DOWN, bad
lanes are tried again). With one or more the link enters IDENTIFY on the largest set of four, two or one of them, within the
lane count of an earlier degrade, with a fresh NONCE; with none it goes to DOWN. A timeout of TRAIN or IDENTIFY sends it to
DOWN, where it waits its backoff, doubled for the next time up to 1,280 ms; a link that waits for a permutation goes to
QUARANTINE instead. (R288, R289, R291, R295, R298) -/
def Obligations.TrainingTakesAWorkingSetOfGoodLanes : Prop :=
  ∀ (s : State) (n : Link) (locked : BitVec 4) (good : BitVec 4) (new : Bool) (k cap : Nat),
    new = ((s.link n).wentDown && (s.link n).kept.isNone) →
    good = s.logicalLanes n locked &&& (if new = true then 0xF else ~~~(s.link n).bad) &&& (s.link n).peerLanes →
    cap = (if (s.link n).sticky = true ∧ new = false then (s.link n).lanesBefore else 4) → k = min (popcount4 good) cap →
    ((s.link n).st = .train → 0 < k →
      ∃ t, exec (.trainComplete n locked) s = .next t ∧ (t.link n).st = .identify ∧ (t.link n).laneMask &&& good = (t.link n).laneMask ∧
        popcount4 (t.link n).laneMask = (if 4 ≤ k then 4 else if 2 ≤ k then 2 else 1) ∧
        (t.link n).nonce = Config.freeWord s.dp.freeCtr ++ Config.freeWord (s.dp.freeCtr + 1) ∧ (t.link n).peer = none ∧
        (∀ m, m ≠ n.val → t.link m = s.link m) ∧ t = { s with dp := t.dp, lnk := t.lnk } ∧
        t.dp.freeCtr = s.dp.freeCtr + (if farLink n = true then 10 else 2) ∧ ({ s.dp with freeCtr := t.dp.freeCtr } : Dp).Quiet t.dp) ∧
    ((s.link n).st = .train → k = 0 → ∃ t, exec (.trainComplete n locked) s = .next t ∧ (t.link n).st = .down ∧ (t.link n).waiting = true ∧
      (t.link n).waitMs = (s.link n).backoff ∧ OnlyLink n s t) ∧
    ((s.link n).st ≠ .train → exec (.trainComplete n locked) s = .next s ∧ exec (.trainTimeout n) s = .next s) ∧
    ((s.link n).st = .train → ∃ t, exec (.trainTimeout n) s = .next t ∧ (t.link n).st = .down ∧ (t.link n).waiting = true ∧
      (t.link n).waitMs = (s.link n).backoff ∧ (t.link n).backoff = min (2 * (s.link n).backoff) 1280 ∧ OnlyLink n s t) ∧
    ((s.link n).st = .identify → (s.link n).waitPerm = false → ∃ t, exec (.identifyTimeout n) s = .next t ∧
      (t.link n).st = .down ∧ (t.link n).waitMs = (s.link n).backoff ∧
      (t.link n).backoff = min (2 * (s.link n).backoff) 1280 ∧ OnlyLink n s t) ∧
    ((s.link n).st = .identify → (s.link n).waitPerm = true → ∃ t, exec (.identifyTimeout n) s = .next t ∧
      (t.link n).st = .quarantine ∧ (t.link n).quarantine = (s.link n).quarantine.hwSet ∧ OnlyLink n s t) ∧
    ((s.link n).st ≠ .identify → exec (.identifyTimeout n) s = .next s)

/-- A link in IDENTIFY sends its IDENT and an ECHO stamp. An arriving IDENT of the known format is kept and the highest common
revision taken; with none in common the link goes to DOWN for 1 s. When both NONCEs are echoed, a link whose peer is the one the
map in force names becomes ACTIVE on four lanes and DEGRADED on fewer; a far link whose signature or agreement fails goes to
DOWN; one that finds the named peer on another link that the map names for it waits until the found pairs are a permutation of
the named ones, and then every waiter comes up; any other peer puts the link in QUARANTINE. Outside IDENTIFY the commands do
nothing. (R288, R291, R292, R293, R294, R295, R296) -/
def Obligations.IdentityDecidesTheLink : Prop :=
  ∀ (s : State) (n : Link) (i : Ident) (stamp : BitVec 30) (sigOk kexOk : Bool) (rtt : BitVec 16),
    ((s.link n).st = .identify → ∃ t b c, exec (.identSend n stamp) s = .next t ∧ t.dp.out = s.dp.out ++ [.flit n b, .flit n c] ∧
      slice b 6 246 = identBytes (s.ownIdent n) ∧ (FlitHead.ofBytes b).type = tyIdent ∧ BitVec.ofNat 32 (fld b 252 4) = crc32c (slice b 0 252) ∧
      slice c 6 246 = ctrlPayload [{ op := 8, vc := 0, arg := stamp }] ∧ (FlitHead.ofBytes c).type = tyCtrl ∧
      (t.link n).echo = some (stamp, s.dp.now) ∧ (t.link n).st = .identify ∧ OnlyLink n s t) ∧
    (∀ r, (s.link n).st = .identify → i.format = 1 → commonRev s.fw.protoMask i.protoMask = some r →
      ∃ t, exec (.ident n i) s = .next t ∧ (t.link n).st = .identify ∧ (t.link n).peer = some i ∧ (t.link n).protoRev = BitVec.ofNat 8 r ∧
        (t.link n).echoed = ((s.link n).echoed || (i.peerNonce == (s.link n).nonce && i.peerNonce ≠ 0)) ∧ OnlyLink n s t) ∧
    ((s.link n).st = .identify → i.format = 1 → s.fw.protoMask &&& i.protoMask = 0 → ∃ t, exec (.ident n i) s = .next t ∧
      (t.link n).st = .down ∧ (t.link n).waiting = true ∧ (t.link n).waitMs = 1000 ∧ OnlyLink n s t) ∧
    ((s.link n).st ≠ .identify → exec (.identSend n stamp) s = .next s ∧ exec (.ident n i) s = .next s ∧
      exec (.identifyComplete n sigOk kexOk rtt) s = .next s) ∧
    (i.format ≠ 1 → exec (.ident n i) s = .next s) ∧
    ((s.link n).peer = none ∨ (s.link n).echoed = false → exec (.identifyComplete n sigOk kexOk rtt) s = .next s) ∧
    ((s.link n).st = .identify → (s.link n).peer = some i → (s.link n).echoed = true →
      (farLink n = true → (sigOk && kexOk) = false → ∃ t, exec (.identifyComplete n sigOk kexOk rtt) s = .next t ∧ (t.link n).st = .down ∧
        (t.link n).waiting = true ∧ t.dp.mem = s.dp.mem) ∧
      ((farLink n = true → sigOk = true ∧ kexOk = true) →
        (s.expected n = some ((i.coord.setWidth 17).toNat, i.linkIndex.toNat) ∨
            (s.expected n = none ∧ s.lnk.mapGen = 0 ∧ s.defaultOk n (Coord.ofCode (i.coord.setWidth 17)) i.linkIndex.toNat = true) →
          ∃ t, exec (.identifyComplete n sigOk kexOk rtt) s = .next t ∧
            (t.link n).st = (if popcount4 (s.link n).laneMask < 4 then .degraded else .active) ∧ (t.link n).rtt = rtt ∧
            (t.link n).backoff = 10 ∧ OnlyLink n s t) ∧
        ((∀ k, s.expected n ≠ some ((i.coord.setWidth 17).toNat, k)) →
            ¬(s.expected n = none ∧ s.lnk.mapGen = 0 ∧ s.defaultOk n (Coord.ofCode (i.coord.setWidth 17)) i.linkIndex.toNat = true) →
          ∃ t, exec (.identifyComplete n sigOk kexOk rtt) s = .next t ∧ (t.link n).st = .quarantine ∧
            (t.link n).quarantine = (s.link n).quarantine.hwSet ∧ OnlyLink n s t) ∧
        (∀ k u, s.expected n = some ((i.coord.setWidth 17).toNat, k) → k ≠ i.linkIndex.toNat →
          u = s.updLink n (fun l => { l with rtt, waitPerm := true }) →
          ((∀ m : Link, m ≠ n → s.expected m ≠ some ((i.coord.setWidth 17).toNat, i.linkIndex.toNat)) →
            ∃ t, exec (.identifyComplete n sigOk kexOk rtt) s = .next t ∧ (t.link n).st = .quarantine ∧ OnlyLink n s t) ∧
          (∀ m : Link, m ≠ n → s.expected m = some ((i.coord.setWidth 17).toNat, i.linkIndex.toNat) →
            (u.permComplete (u.permWaiters (i.coord.setWidth 17).toNat) = false →
              ∃ t, exec (.identifyComplete n sigOk kexOk rtt) s = .next t ∧ t.link n = u.link n ∧ OnlyLink n s t) ∧
            (u.permComplete (u.permWaiters (i.coord.setWidth 17).toNat) = true →
              ∃ t, exec (.identifyComplete n sigOk kexOk rtt) s = .next t ∧ t.dp.mem = s.dp.mem ∧
                ∀ w ∈ u.permWaiters (i.coord.setWidth 17).toNat, (t.link w).st.up = true ∧ (t.link w).waitPerm = false)))))

/-- A link in use or in QUARANTINE that is out of lock on every lane goes to DOWN. A lane that goes bad on an ACTIVE or DEGRADED
link is remembered, LANES is sent with the set that stays, and the link retrains, or goes to DOWN when no good lane is left.
LANES of the peer is kept, and an ACTIVE or DEGRADED link sends its own and retrains. At the end of the resume window the kept
session is released: stores and sequence begin anew, transmit queues stay. Loss of the reference clock takes down every link
that was ACTIVE, DEGRADED or in QUARANTINE. (R37, R290, R297, R308) -/
def Obligations.LostLanesTakeTheLinkDown : Prop :=
  ∀ (s : State) (n : Link) (lane : Fin 4) (mask bad : BitVec 4), bad = (s.link n).bad ||| (1#4 <<< lane.val) →
    ((s.link n).st.up = true ∨ (s.link n).st = .quarantine → ∃ t, exec (.allLanesLockLoss n) s = .next t ∧ (t.link n).st = .down ∧
      (t.link n).waiting = true ∧ ((s.link n).st.up = true → (t.link n).downEvent = (s.link n).downEvent.hwSet) ∧ OnlyLink n s t) ∧
    ((s.link n).st.up = false → (s.link n).st ≠ .quarantine → exec (.allLanesLockLoss n) s = .next s) ∧
    ((s.link n).st.up = true → (s.link n).laneMask &&& ~~~bad ≠ 0 →
      ∃ t b, exec (.laneBad n lane) s = .next t ∧ (t.link n).st = .train ∧ (t.link n).sticky = true ∧ (t.link n).bad = bad ∧
        t.dp.out = s.dp.out ++ [.flit n b] ∧
        slice b 6 246 = ctrlPayload [{ op := 7, vc := 0, arg := (workingSet ((s.link n).laneMask &&& ~~~bad) 4).setWidth 30 }] ∧ OnlyLink n s t) ∧
    ((s.link n).st.up = true → (s.link n).laneMask &&& ~~~bad = 0 →
      ∃ t, exec (.laneBad n lane) s = .next t ∧ (t.link n).st = .down ∧ OnlyLink n s t) ∧
    ((s.link n).st.up = false → exec (.laneBad n lane) s = .next s) ∧
    ((s.link n).st.up = true → ∃ t b, exec (.lanes n mask) s = .next t ∧ (t.link n).st = .train ∧ (t.link n).peerLanes = mask ∧
      (t.link n).sticky = true ∧ t.dp.out = s.dp.out ++ [.flit n b] ∧ (FlitHead.ofBytes b).type = tyCtrl ∧ OnlyLink n s t) ∧
    ((s.link n).st.up = false → ∃ t, exec (.lanes n mask) s = .next t ∧ t.link n = { s.link n with peerLanes := mask } ∧ t.dp = s.dp ∧ OnlyLink n s t) ∧
    ((s.link n).st.up = false → (s.link n).kept.isSome = true → ∃ t, exec (.resumeWindowExpiry n) s = .next t ∧
      (t.link n).kept = none ∧ (t.link n).store = [] ∧ (∀ v : Vc, ((t.link n).vc v).nextAbs = 0 ∧ ((t.link n).vc v).expectAbs = 0 ∧
        ((t.link n).vc v).buffer = [] ∧ ((t.link n).vc v).txq = ((s.link n).vc v).txq) ∧ t.dp = s.dp ∧ OnlyLink n s t) ∧
    ((s.link n).st.up = true ∨ (s.link n).kept = none → exec (.resumeWindowExpiry n) s = .next s) ∧
    (∃ t, exec .refClockLoss s = .next t ∧ t.clk.refLost = s.clk.refLost.hwSet ∧ t.clk.refPresent = false ∧
      (∀ m : Link, ((s.link m).st.up = true ∨ (s.link m).st = .quarantine → (t.link m).st = .down) ∧
        ((s.link m).st.up = false → (s.link m).st ≠ .quarantine → t.link m = s.link m)) ∧
      s.dp.Quiet t.dp ∧ t = { s with dp := t.dp, lnk := t.lnk, clk := t.clk })

/-- A flit the code cannot correct and one whose CRC or TYPE is wrong are lost and counted, the expected SEQ stands, and of a
sequenced one the VC asks for a REPLAY. On a link that is ACTIVE or DEGRADED a good flit with the expected SEQ advances it by
one: on a near link its bytes go to the receive buffer, which drains at once unless its consumers wait; on a far link with room
it joins the open group, and a SEAL whose tag verifies closes the group, while one whose tag fails discards it, is counted, sets
the expected SEQ back to the first of the group and, the fourth within 1 s, takes the link down; with the landing buffer full it
is refused with HOLD. A flit out of order is not taken and asks for a REPLAY. A link that is not up answers NOT_READY. A SEAL
flit on a near link is discarded and counted. An IDLE flit frees the acknowledged flits and returns credits. (R270, R271, R276,
R277, R281, R283, R301, R302, R308) -/
def Obligations.FlitsAreTakenInSequence : Prop :=
  ∀ (s : State) (n : Link) (f : FlitIn) (st : Bool) (avc : Vc) (ack : BitVec 18) (credit : BitVec 5) (h : FlitHead) (p : List Byte) (q : LinkVc) (key : LinkKey) (first : BitVec 62),
    h = flitHead f → p = flitPayload f → q = (s.link n).vc h.vc → first = (if q.group = [] then q.expectAbs else q.groupAbs) →
    key = keyAt (s.link n).rx (s.link n).rxNew h.vc first →
    (∀ c ∈ [Instr.dataFlit n f, .sealFlit n f st],
      (f.uncorrectable = true → ∃ t, exec c s = .next t ∧ (t.link n).uncorrCw.toNat = min ((s.link n).uncorrCw.toNat + f.codewords.toNat) 4095 ∧
        (t.link n).vcs = (s.link n).vcs ∧ OnlyLink n s t) ∧
      (f.uncorrectable = false → flitGood f = false → ∃ t, exec c s = .next t ∧ (t.link n).crcFail.toNat = min ((s.link n).crcFail.toNat + 1) 4095 ∧
        ((t.link n).vc h.vc).expectAbs = q.expectAbs ∧
        ((s.link n).st.up = true → h.type = tyData ∨ h.type = tySeal → q.awaiting = false →
          ∃ e ∈ (t.link n).ctrl, e.op = 1 ∧ e.vc = h.vc ∧ e.seq = q.expect)) ∧
      (f.uncorrectable = false → flitGood f = true →
        (h.type = tyIdle → ∃ t, exec c s = .next t ∧ OnlyLink n s t ∧
          (t.link n).store = (s.link n).store.filter (fun g => !(g.vc == h.avc && seqBefore g.seq h.ack))) ∧
        (h.type = tyIdent → ∃ u, exec c s = .next (u.ident n (identOf p)) ∧ OnlyLink n s u ∧ (u.link n).st = (s.link n).st) ∧
        (h.type = tyCtrl → ∃ u, exec c s = .next ((ctrlEntries p).foldl (fun s e => s.ctrlEntry n e) u) ∧ OnlyLink n s u ∧ (u.link n).st = (s.link n).st) ∧
        (h.type = tyData ∨ (h.type = tySeal ∧ farLink n = true) →
          ((s.link n).st.up = false → (s.link n).st ≠ .quarantine → ∃ t, exec c s = .next t ∧ ((t.link n).vc h.vc).expectAbs = q.expectAbs ∧
            (t.link n).notReady = (s.link n).notReady.hwSet ∧ (∃ e ∈ (t.link n).ctrl, e.op = 5 ∧ e.vc = h.vc) ∧ OnlyLink n { s with portRun := t.portRun } t) ∧
          ((s.link n).st.up = true → h.seq ≠ q.expect → ∃ t, exec c s = .next t ∧ ((t.link n).vc h.vc).expectAbs = q.expectAbs ∧
            ((t.link n).vc h.vc).buffer = q.buffer ∧ ((t.link n).vc h.vc).group = q.group ∧
            (q.refusing = none → q.awaiting = false → ∃ e ∈ (t.link n).ctrl, e.op = 1 ∧ e.vc = h.vc ∧ e.seq = q.expect) ∧
            OnlyLink n { s with portRun := t.portRun } t) ∧
          ((s.link n).st.up = true → h.seq = q.expect → farLink n = true → q.refusing = none → rxBuffer true h.vc ≤ q.holding →
            ∃ t, exec c s = .next t ∧ ((t.link n).vc h.vc).expectAbs = q.expectAbs ∧ ((t.link n).vc h.vc).refusing = some h.seq ∧
              (t.link n).holds.toNat = min ((s.link n).holds.toNat + 1) 65535 ∧ (∃ e ∈ (t.link n).ctrl, e.op = 2 ∧ e.vc = h.vc ∧ e.seq = h.seq) ∧
              OnlyLink n { s with portRun := t.portRun } t)) ∧
        (h.type = tyData → (s.link n).st.up = true → h.seq = q.expect → farLink n = true → q.refusing = none → q.holding < rxBuffer true h.vc →
          ∃ t, exec c s = .next t ∧ ((t.link n).vc h.vc).expectAbs = q.expectAbs + 1 ∧ ((t.link n).vc h.vc).group = q.group ++ [p] ∧
            OnlyLink n { s with portRun := t.portRun } t) ∧
        (h.type = tySeal → (s.link n).st.up = true → h.seq = q.expect → farLink n = true → q.refusing = none → q.holding < rxBuffer true h.vc →
          (∀ plain, openGroup key h.vc first (q.group ++ [p]) = some plain → ∃ t, exec c s = .next t ∧
            ((t.link n).vc h.vc).expectAbs = q.expectAbs + 1 ∧ ((t.link n).vc h.vc).group = []) ∧
          (openGroup key h.vc first (q.group ++ [p]) = none → ∃ t, exec c s = .next t ∧ ((t.link n).vc h.vc).group = [] ∧
            ((t.link n).vc h.vc).expectAbs = first ∧ (t.link n).tagFail.toNat = min ((s.link n).tagFail.toNat + 1) 255 ∧
            (t.link n).st = (if 3 ≤ ((s.link n).tagTimes.filter fun t => s.dp.now < t + edgesPerSecond).length then .down else (s.link n).st))) ∧
        (h.type = tySeal → farLink n = false → ∃ t, exec c s = .next t ∧ (t.link n).crcFail.toNat = min ((s.link n).crcFail.toNat + 1) 4095 ∧
          ((t.link n).vc h.vc).expectAbs = q.expectAbs ∧ OnlyLink n { s with portRun := t.portRun } t) ∧
        (h.type = tyData → (s.link n).st.up = true → farLink n = false → h.seq = q.expect → s.passesOn h.vc p = true →
          ∃ t, exec c s = .next t ∧ ((t.link n).vc h.vc).expectAbs = q.expectAbs + 1))) ∧
    (f.uncorrectable = false → flitGood f = true → h.type = tyData → (s.link n).st.up = true → farLink n = false → h.seq = q.expect → s.passesOn h.vc p = false →
      (∃ t, exec (.dataFlit n f) s = .next t ∧ ((t.link n).vc h.vc).expectAbs = q.expectAbs + 1 ∧
        ((t.link n).vc h.vc).buffer = (if f.stalled = true then q.buffer ++ [p] else []) ∧ OnlyLink n { s with portRun := t.portRun } t) ∧
      (∃ t, exec (.sealFlit n f st) s = .next t ∧ ((t.link n).vc h.vc).expectAbs = q.expectAbs + 1 ∧
        ((t.link n).vc h.vc).buffer = (if (f.stalled || st) = true then q.buffer ++ [p] else []) ∧ OnlyLink n { s with portRun := t.portRun } t)) ∧
    (∃ t, exec (.idleFlit n avc ack credit) s = .next t ∧
      (t.link n).store = (s.link n).store.filter (fun g => !(g.vc == avc.val && seqBefore g.seq ack)) ∧
      (farLink n = false → ((t.link n).vc avc).credit = min (((s.link n).vc avc).credit + credit.toNat) (rxBuffer false avc)) ∧
      t.dp = s.dp ∧ OnlyLink n s t)

/-- In a flit slot a link that is ACTIVE, DEGRADED, in QUARANTINE or in IDENTIFY sends one flit of 256 bytes: CTRL with the due
entries when one of them is REPLAY, HOLD or NOT_READY, a flit of a VC again or new, or IDLE. On a near link nothing else leaves
and memory stands; no other link changes unless a response waits on one that went down. A link in DOWN or TRAIN sends nothing.
(R271, R275, R284, Table 8.9) -/
def Obligations.OneFlitLeavesPerSlot : Prop :=
  ∀ (s : State) (n : Link),
    ((s.link n).st.up = true ∨ (s.link n).st = .quarantine ∨ (s.link n).st = .identify →
      ∃ t pre b, exec (.flitTransmit n) s = .next t ∧ t.dp.out = s.dp.out ++ pre ++ [.flit n b] ∧ b.length = 256 ∧
        (farLink n = false → (s.link n).rxNew = none → pre = [] ∧ t.dp = { s.dp with out := t.dp.out }) ∧
        (s.stranded n = [] → ∀ k, k ≠ n.val → t.link k = s.link k) ∧ (t.link n).st = (s.link n).st ∧
        t.eqs = s.eqs ∧ t.cqs = s.cqs ∧ t.jobs = s.jobs ∧
        (((s.link n).ctrl.any fun e => e.due && (e.op == 1 || e.op == 2 || e.op == 5)) = true →
          (FlitHead.ofBytes b).type = tyCtrl ∧ slice b 6 246 = ctrlPayload (((s.link n).ctrl.filter (·.due)).take 30) ∧
          BitVec.ofNat 32 (fld b 252 4) = crc32c (slice b 0 252))) ∧
    ((s.link n).st = .down ∨ (s.link n).st = .train → exec (.flitTransmit n) s = .next s)

/-- REPLAY of a flit sent makes an ACTIVE or DEGRADED link send again from the SEQ named, the sixteenth resend within 1 ms sets
the flag and retrains it; one repeated within the round trip, or naming the next unsent SEQ, does nothing (log entry 113). HOLD
stops a far VC and rewinds it, RESUME lets a held one go on, GRANT sets its rate; on near links they do nothing. NOT_READY marks
the earliest refused SEQ. READY of a new session gives a near VC the credits of its buffer less those of stored flits, or a far
VC the line rate; refused flits are sent again. An own ECHO measures the round trip, a peer stamp is returned. (R267, R276,
R280, R281, R282, R283, R290, R308, Table 8.5) -/
def Obligations.ControlEntriesActOnTheirVc : Prop :=
  ∀ (s : State) (n : Link) (v : Vc) (seq : BitVec 18) (rate : BitVec 12) (stamp : BitVec 30) (elapsed : BitVec 16) (res : Bool) (q : LinkVc) (recent : List Nat) (idle : Prop),
    q = (s.link n).vc v → recent = q.resends.filter (fun t => s.dp.now < t + 156250) →
    idle = (seq = q.nextSeq ∨ (q.resendSeq = seq ∧ ∃ t r, q.resends = t :: r ∧ s.dp.now < t + 10 * (s.link n).rtt.toNat)) →
    ((s.link n).st.up = false ∨ idle → exec (.replay n v seq) s = .next s) ∧
    ((s.link n).st.up = true → ¬idle → recent.length < 15 →
      ∃ t, exec (.replay n v seq) s = .next t ∧ (t.link n).vc v = { q with resend := some seq, resendSeq := seq, resends := s.dp.now :: recent } ∧
        (t.link n).st = (s.link n).st ∧ OnlyLink n s t) ∧
    ((s.link n).st.up = true → ¬idle → 15 ≤ recent.length →
      ∃ t, exec (.replay n v seq) s = .next t ∧ (t.link n).replay = (s.link n).replay.hwSet ∧ (t.link n).st = .train ∧ OnlyLink n s t) ∧
    (farLink n = true →
      (∃ t, exec (.hold n v seq) s = .next t ∧ (t.link n).vc v = { q with heldAt := some seq, resend := some seq } ∧ t.dp = s.dp ∧ OnlyLink n s t) ∧
      (q.heldAt ≠ none → ∃ t, exec (.resume n v seq) s = .next t ∧ (t.link n).vc v = { q with heldAt := none, resend := some seq } ∧ t.dp = s.dp ∧ OnlyLink n s t) ∧
      (∃ t, exec (.grant n v rate) s = .next t ∧ (t.link n).vc v = { q with grant := rate } ∧ t.dp = s.dp ∧ OnlyLink n s t)) ∧
    (farLink n = false → exec (.hold n v seq) s = .next s ∧ exec (.grant n v rate) s = .next s) ∧
    (farLink n = false ∨ q.heldAt = none → exec (.resume n v seq) s = .next s) ∧
    (∃ t, exec (.notReady n v seq) s = .next t ∧ t.dp = s.dp ∧ OnlyLink n s t ∧
      (t.link n).vc v = { q with notReady := match q.notReady with | some k => some (if seqBefore k seq = true then k else seq) | none => some seq }) ∧
    (res = true ∨ (s.link n).kept = none → ∃ t, exec (.ready n res) s = .next t ∧ ((t.link n).vc v).notReady = none ∧
      ((t.link n).vc v).credit = (if farLink n = true ∨ res = true then q.credit else rxBuffer false v - ((s.link n).storeOf v).length) ∧
      ((t.link n).vc v).grant = (if farLink n = true ∧ res = false then lineGrant else q.grant) ∧
      ((t.link n).vc v).resend = (match q.notReady with | some k => some k | none => q.resend) ∧ t.dp = s.dp ∧ OnlyLink n s t) ∧
    ((s.link n).kept ≠ none → ∃ t, exec (.ready n false) s = .next t ∧ (t.link n).kept = none ∧ (t.link n).store = [] ∧
      ((t.link n).vc v).nextAbs = 0 ∧ ((t.link n).vc v).expectAbs = 0 ∧ ((t.link n).vc v).txq = q.txq ∧
      (farLink n = false → ((t.link n).vc v).credit = rxBuffer false v) ∧ (farLink n = true → ((t.link n).vc v).grant = lineGrant) ∧ OnlyLink n s t) ∧
    (∃ t, exec (.echo n stamp true elapsed) s = .next t ∧ t.link n = { s.link n with rtt := elapsed } ∧ t.dp = s.dp ∧ OnlyLink n s t) ∧
    (∃ t b, exec (.echo n stamp false elapsed) s = .next t ∧ t.dp.out = s.dp.out ++ [.flit n b] ∧ t.dp = { s.dp with out := t.dp.out } ∧
      slice b 6 246 = ctrlPayload [{ op := 8, vc := 0, arg := stamp }] ∧ (FlitHead.ofBytes b).type = tyCtrl ∧ OnlyLink n s t)

/-- Every 2 us all pending control entries are due again. Every microsecond a far link that is up drains its buffers as they
free and enters a GRANT for each VC by the formula of R282. A VC that refused a SEQ drains to half its buffer, drops the pending
HOLD, enters RESUME with that SEQ and refuses no more. A VC without ACK progress sends again from its oldest unacknowledged
flit. On other links and VCs these do nothing. (R272, R277, R282, R283) -/
def Obligations.PendingControlEntriesAreRenewed : Prop :=
  ∀ (s : State) (n : Link) (v : Vc) (seq : BitVec 18) (low high : List Nat) (q : LinkVc), q = (s.link n).vc v →
    (∃ t, exec (.controlEntryRepeat n) s = .next t ∧ (t.link n).ctrl = (s.link n).ctrl.map (fun e => { e with due := true }) ∧
      t.dp = s.dp ∧ OnlyLink n s t) ∧
    (farLink n = true → (s.link n).st.up = true → ∃ t, exec (.grantUpdate n low high) s = .next t ∧ OnlyLink n s t ∧
      (∀ u : Vc, (∃ e ∈ (t.link n).ctrl, e.op = 4 ∧ e.vc = u.val ∧ e.arg = BitVec.ofNat 30 (grantArg u ((t.link n).vc u).holding
          (((t.link n).vc u).drained8 s.dp.now) (s.link n).rtt.toNat)) ∧
        ((t.link n).vc u).buffer = ((s.link n).vc u).buffer.drop (((low ++ [0, 0]).take 2 ++ high).getD u 0))) ∧
    (farLink n = false ∨ (s.link n).st.up = false → exec (.grantUpdate n low high) s = .next s) ∧
    (q.refusing = some seq → ∃ t, exec (.holdRelease n v) s = .next t ∧ ((t.link n).vc v).refusing = none ∧
      ((t.link n).vc v).buffer = q.buffer.drop (q.buffer.length - rxBuffer true v / 2) ∧
      (∃ e ∈ (t.link n).ctrl, e.op = 3 ∧ e.vc = v.val ∧ e.seq = seq) ∧ (∀ e ∈ (t.link n).ctrl, ¬(e.op = 2 ∧ e.vc = v.val)) ∧ OnlyLink n s t) ∧
    (q.refusing = none → exec (.holdRelease n v) s = .next s) ∧
    (∀ f r, (s.link n).storeOf v = f :: r → (s.link n).st.up = true → f.seq ≠ q.nextSeq → q.resends = [] →
      ∃ t, exec (.replayNoProgress n v) s = .next t ∧ ((t.link n).vc v).resend = some f.seq ∧ (t.link n).st = (s.link n).st ∧ OnlyLink n s t) ∧
    (∀ f r, (s.link n).storeOf v = f :: r → (s.link n).st.up = true → exec (.replayNoProgress n v) s = exec (.replay n v f.seq) s) ∧
    ((s.link n).storeOf v = [] ∨ (s.link n).st.up = false → exec (.replayNoProgress n v) s = .next s)

/-- On a far link that is up an agreement starts with a management packet that offers a fresh ephemeral point; a verified offer
is answered with a point of this end, an answer to the running offer puts the new sending key in force from its switch points
on, and its use starts anew; the named switch points put the receiving key in force. An exhausted key is marked, and 1 s later
without an agreement the link goes to DOWN. An unverified message and near links change nothing. The steps and the packet are
the model's (log entry 117). (R300, R303) -/
def Obligations.FarKeysChangeByAgreement : Prop :=
  ∀ (s : State) (n : Link) (sigOk : Bool) (msg : KeyMsg) (k : LinkKey),
    (farLink n = false ∨ (s.link n).st.up = false → exec (.keyAgreementStart n) s = .next s) ∧
    (farLink n = false ∨ (s.link n).st.up = false ∨ sigOk = false → exec (.keyAgreementMsg n sigOk msg) s = .next s) ∧
    (farLink n = false → exec (.keyExhausted n) s = .next s) ∧
    (farLink n = false ∨ (s.link n).exhausted = false → exec (.keyAgreementTimeout n) s = .next s) ∧
    (farLink n = true → (s.link n).st.up = true →
      (∃ t, exec (.keyAgreementStart n) s = .next t ∧ (t.link n).agreeing = true ∧ 2 ^ 31 ≤ (t.link n).underKey ∧
        (t.link n).kexPoint = freshPoint s.dp.freeCtr ∧
        ((t.link n).vc 1).txq.length + ((t.link n).vc 1).waiting.length = ((s.link n).vc 1).txq.length + ((s.link n).vc 1).waiting.length + 1 ∧
        OnlyLink n { s with dp := { s.dp with freeCtr := s.dp.freeCtr + 8 } } t) ∧
      (msg.stage = .offer → ∃ t, exec (.keyAgreementMsg n true msg) s = .next t ∧
        (t.link n).answered = some (sessionKeys ((s.link n).rx.no + 1) s.dp.serial (s.link n).serialKept (freshPoint s.dp.freeCtr) msg.point).2 ∧
        ((t.link n).vc 1).txq.length + ((t.link n).vc 1).waiting.length = ((s.link n).vc 1).txq.length + ((s.link n).vc 1).waiting.length + 1 ∧
        OnlyLink n { s with dp := { s.dp with freeCtr := s.dp.freeCtr + 8 } } t) ∧
      (msg.stage = .reply → (s.link n).agreeing = true → k = (sessionKeys ((s.link n).tx.no + 1) s.dp.serial (s.link n).serialKept (s.link n).kexPoint msg.point).1 →
        ∃ t, exec (.keyAgreementMsg n true msg) s = .next t ∧ (t.link n).underKey = 0 ∧ (t.link n).agreeing = false ∧ (t.link n).exhausted = false ∧
          ((t.link n).txNew = none → (t.link n).tx = k) ∧ (∀ y, (t.link n).txNew = some y → y.1 = k) ∧ .keyEvent n k.no false ∈ t.dp.out ∧ OnlyLink n s t) ∧
      (msg.stage = .reply → (s.link n).agreeing = false → exec (.keyAgreementMsg n true msg) s = .next s) ∧
      (msg.stage = .confirm → (s.link n).answered = some k → ∃ t, exec (.keyAgreementMsg n true msg) s = .next t ∧ (t.link n).answered = none ∧
        ((t.link n).rxNew = some (k, msg.points) ∨ ((t.link n).rx = k ∧ (t.link n).rxNew = none)) ∧ .keyEvent n k.no false ∈ t.dp.out ∧ OnlyLink n s t) ∧
      (msg.stage = .confirm → (s.link n).answered = none → exec (.keyAgreementMsg n true msg) s = .next s)) ∧
    (farLink n = true → ∃ t, exec (.keyExhausted n) s = .next t ∧ (t.link n).exhausted = true ∧ 2 ^ 32 ≤ (t.link n).underKey ∧ t.dp = s.dp ∧ OnlyLink n s t) ∧
    (farLink n = true → (s.link n).exhausted = true → ∃ t, exec (.keyAgreementTimeout n) s = .next t ∧ (t.link n).st = .down ∧
      (t.link n).waiting = true ∧ OnlyLink n s t)

/-- A malformed packet is discarded with its status. A well-formed packet for this module is handed over; in M2 one on DATA or
TRANSIT is not, and a request is answered ST_LINK_NOT_READY. One for another module on VC DATA is discarded with ST_BOUNDS; on
another VC it is queued on the output of its route with HOPS one more, when that link is up and its share allows it. Sustained
pressure of a link sets its flag and the episode of the VC, a repeat within the episode sets the flag again, the end of the
episode clears it; pressure of a communication queue sets the queue flag. (R274, R286, R304, R305, R338, R452) -/
def Obligations.PacketsPassAndPressureIsRecorded : Prop :=
  ∀ (s : State) (n : Link) (v : Vc) (p : Packet) (k : BitVec 64) (q : Fin 64) (rank : BitVec 17),
    (∀ st, pktFault p = some st → exec (.packetTransit v p) s = .next (s.discardPacket p st)) ∧
    (pktFault p = none →
      (2 ≤ v.val → s.pwr.mstate = 2 → exec (.packetTransit v p) s =
        .next (if isRequest p.op.toNat = true then s.respond (response s.dp.coord p .linkNotReady []) else s)) ∧
      (v.val < 2 ∨ s.pwr.mstate ≠ 2 →
        (destOf p = s.dp.coord → exec (.packetTransit v p) s = .next (s.send (.passed 0 v p))) ∧
        (destOf p ≠ s.dp.coord → v = 2 → exec (.packetTransit v p) s = .next (s.discardPacket p .bounds)) ∧
        (destOf p ≠ s.dp.coord → v ≠ 2 → p.hops.toNat = 15 → exec (.packetTransit v p) s = .next (s.discardPacket { p with hops := p.hops + 1 } .bounds)) ∧
        (destOf p ≠ s.dp.coord → v ≠ 2 → p.hops.toNat < 15 →
          (s.output (srcOf p) (destOf p) = none → isRequest p.op.toNat = true →
            exec (.packetTransit v p) s = .next (s.respond (response s.dp.coord p .bounds []))) ∧
          (∀ m u, s.output (srcOf p) (destOf p) = some m → (s.link m).st.up = true → u = pktVc p.op.toNat (s.peerOf m == (destOf p).code.toNat) →
            (u ≤ 1 ∨ p.job = 0 ∨ isRequest p.op.toNat = false ∨ s.classOn m p.job ≠ none → ∃ t c, exec (.packetTransit v p) s = .next t ∧
              (t.link m).vc u = ((s.link m).vc u).put u { cls := c, pkt := { p with hops := p.hops + 1 } } ∧
              (2 ≤ u → ∀ d, s.classOn m p.job = some d → c = d) ∧ t.dp = s.dp ∧ OnlyLink m s t) ∧
            (2 ≤ u → p.job ≠ 0 → isRequest p.op.toNat = true → s.classOn m p.job = none →
              exec (.packetTransit v p) s = .next (s.respond (response s.dp.coord p .routeConflict []))))))) ∧
    (∃ t, exec (.sustainedPressure n v) s = .next t ∧ (t.link n).pressure = (s.link n).pressure.hwSet ∧
      ((t.link n).vc v).pressure = true ∧ OnlyLink n s t) ∧
    (((s.link n).vc v).pressure = true → ∃ t, exec (.pressureRepeat n v k) s = .next t ∧
      (t.link n).pressure = (s.link n).pressure.hwSet ∧ OnlyLink n s t) ∧
    (((s.link n).vc v).pressure = false → exec (.pressureRepeat n v k) s = .next s) ∧
    (∃ t, exec (.pressureEpisodeEnd n v) s = .next t ∧ (t.link n).vc v = { (s.link n).vc v with pressure := false, refused := false } ∧
      t.dp = s.dp ∧ OnlyLink n s t) ∧
    (∀ g, (s.cq q).group = some g → ∃ t, exec (.queueSustainedPressure q rank k) s = .next t ∧
      t.cq q = { s.cq q with fPressure := (s.cq q).fPressure.hwSet } ∧ (∀ j, j ≠ q.val → t.cq j = s.cq j) ∧
      s.dp.Quiet t.dp ∧ t = { s with dp := t.dp, cqs := t.cqs }) ∧
    ((s.cq q).group = none → exec (.queueSustainedPressure q rank k) s = .next s)

/-- For every surroundings. GROUP_CREATE whose descriptor passes its checks holds the lowest free queue with its credits and its
links' shares, uncommitted, and tells ST_OK; one that fails tells the first failing row's status, ST_ROUTE_CONFLICT without a
route whose shares fit, or ST_QUEUE_EXHAUSTED, and holds nothing. GROUP_COMMIT with ST_OK makes the queue run, another status
frees it. GROUP_DESTROY marks a committed group, GROUP_RELEASE frees it once no operation is left. COLLECTIVE_ENTRY_ACCEPT takes
the posted head entry of a running idle queue under the next QSEQ (a replayed one under its own) and writes ST_PENDING at its
record; a head not POSTED changes nothing, a reserved state, a misaligned descriptor or an unreadable head set FAULT. A host's
command gives the descriptor, waits, and completes with the outcome. (R309, R312, R313, R314, R316, R317, R344) -/
def Obligations.GroupsAreHeldCommittedAndReleased : Prop :=
  (∀ (s : State) (k : Part) (desc : Addr) (inp : GroupIn) (env : Env) (d : Dp) (gd : GD) (minor q : Nat) (g : Group) (f : Fail) (links : List Link) (c : Cmd) (seq : BitVec 48) (u w : State),
    u = { s with dp := s.dp.upsets env.upsets } → w = (if inp.table = [] then u else u.loadRoutes inp.table) →
    ((s.job k).used = false → exec (.groupCreate k desc inp env none) s = .next w) ∧
    ((s.job k).used = true → (w.groupCheck k desc inp).exec w.dp = (d, .error f) → exec (.groupCreate k desc inp env none) s =
      .next (({ w with dp := d } : State).mgmt .groupCreate s.dp.coord.code (f.st.toCode.setWidth 64))) ∧
    ((s.job k).used = true → (w.groupCheck k desc inp).exec w.dp = (d, .ok (gd, minor)) → g = gd.group k (s.coordFor k) minor →
      (inp.refused = true ∨ (inp.routes ≠ [] ∧ (inp.routes.find? fun l => l.all fun x => s.shareOk x.val g.cls g.job g.weight) = none) →
        exec (.groupCreate k desc inp env none) s = .next (({ w with dp := d } : State).mgmt .groupCreate s.dp.coord.code (Status.routeConflict.toCode.setWidth 64))) ∧
      (inp.refused = false → inp.routes = [] ∧ links = [] ∨ (inp.routes.find? fun l => l.all fun x => s.shareOk x.val g.cls g.job g.weight) = some links →
        (s.freeQueue = none ∨ (g.neighbours g.rank ≠ [] ∧ g.slots < 4) → exec (.groupCreate k desc inp env none) s =
          .next (({ w with dp := d } : State).mgmt .groupCreate s.dp.coord.code (Status.queueExhausted.toCode.setWidth 64))) ∧
        (s.freeQueue = some q → g.neighbours g.rank = [] ∨ 4 ≤ g.slots →
          ∃ t, exec (.groupCreate k desc inp env none) s = .next t ∧ (t.cq q).group = some { g with links := links.map (·.val) } ∧ (t.cq q).committed = false ∧
            (t.cq q).credits = g.credits ∧ (t.cq q).last = 0 ∧ (t.cq q).cur = none ∧ (t.cq q).timeout = (if gd.timeout = 0 then 200 else BitVec.ofNat 16 gd.timeout) ∧
            (t.cq q).base = inp.ring ∧ (∀ x ∈ links, (t.share x.val g.cls).held = true) ∧ t.dp.out = d.out ++ [.mgmt .groupCreate s.dp.coord.code 0] ∧
            (∀ j, j ≠ q → t.cq j = s.cq j) ∧ t = { w with dp := t.dp, cqs := t.cqs, shares := t.shares } ∧ t.dp.mem = d.mem))) ∧
    (s.cmdReady seq 0x41 = none → exec (.groupCreate k desc inp env (some seq)) s = .next s) ∧
    (s.cmdReady seq 0x41 = some c → exec (.groupCreate k desc inp env (some seq)) s =
      exec (.groupCreate k (BitVec.ofNat 64 (fld c.req.payload 0 8)) inp env none) (s.waitCmd c))) ∧
  (∀ (s : State) (k : Part) (q : Nat) (g : Group) (c : Cmd) (seq : BitVec 48) (id : BitVec 32) (peers : List (BitVec 17 × Fin 64)) (st : Status) (cq : Fin 64),
    (s.queueOf k id = some q → (s.cq q).committed = false → (s.cq q).group = some g →
      (∃ t, exec (.groupCommit k id .ok peers none) s = .next t ∧ (t.cq q).committed = true ∧ (t.cq q).enable = true ∧ (t.cq q).st = .running ∧
        (∃ h, (t.cq q).group = some h ∧ h = { g with peerQ := h.peerQ }) ∧ (∀ j, j ≠ q → t.cq j = s.cq j) ∧ .answer .ok 0 ∈ t.dp.out ∧
        s.dp.Quiet t.dp ∧ t = { s with dp := t.dp, cqs := t.cqs }) ∧
      (st ≠ .ok → ∃ t, exec (.groupCommit k id st peers none) s = .next t ∧ (t.cq q).group = none ∧ (t.cq q).st = .free ∧ (∀ j, j ≠ q → t.cq j = s.cq j) ∧
        .answer st 0 ∈ t.dp.out ∧ s.dp.Quiet t.dp ∧ t = { s with dp := t.dp, cqs := t.cqs, shares := t.shares })) ∧
    (s.queueOf k id = none ∨ (s.queueOf k id = some q ∧ (s.cq q).committed = true) → ∃ t, exec (.groupCommit k id st peers none) s = .next t ∧
      t.cqs = s.cqs ∧ .answer st 0 ∈ t.dp.out ∧ s.dp.Quiet t.dp ∧ t = { s with dp := t.dp }) ∧
    (∃ t, exec (.groupCommit k id st peers none) s = .next t ∧
      (t.cmdWaiting seq 0x41 = none → exec (.groupCommit k id st peers (some seq)) s = .next t) ∧
      (t.cmdWaiting seq 0x41 = some c → exec (.groupCommit k id st peers (some seq)) s =
        .next (t.finish c st (match t.queueOf k id with | some q => le 4 q | none => [])))) ∧
    (s.queueOf k id = some q → (s.cq q).committed = true → ∃ t, exec (.groupDestroy k id none) s = .next t ∧ t.cq q = { s.cq q with destroying := true } ∧
      (∀ j, j ≠ q → t.cq j = s.cq j) ∧ t = { s with cqs := t.cqs }) ∧
    (s.queueOf k id = none ∨ (s.queueOf k id = some q ∧ (s.cq q).committed = false) → exec (.groupDestroy k id none) s = .next s) ∧
    (s.cmdReady seq 0x40 = none → exec (.groupDestroy k id (some seq)) s = .next s) ∧
    (s.cmdReady seq 0x40 = some c →
      (s.jobPart (BitVec.ofNat 16 (fld c.req.payload 0 2)) = none → exec (.groupDestroy k id (some seq)) s = .next (s.finish c .fieldReserved [])) ∧
      (∀ p, s.jobPart (BitVec.ofNat 16 (fld c.req.payload 0 2)) = some p →
        (s.queueOf p (BitVec.ofNat 32 (fld c.req.payload 4 4)) = none → exec (.groupDestroy k id (some seq)) s = .next (s.finish c .fieldReserved [])) ∧
        (s.queueOf p (BitVec.ofNat 32 (fld c.req.payload 4 4)) = some q → (s.cq q).committed = true →
          ∃ t : State, exec (.groupDestroy k id (some seq)) s = .next (t.waitCmd c) ∧ t.cq q = { s.cq q with destroying := true } ∧ t = { s with cqs := t.cqs }))) ∧
    ((s.cq cq).group = some g → (s.cq cq).destroying = true → (s.cq cq).idle = true → ∃ t, exec (.groupRelease cq) s = .next t ∧ t.cq cq = (s.cq cq).freed ∧
      (t.cq cq).group = none ∧ .mgmt .groupRelease s.dp.coord.code 0 ∈ t.dp.out ∧ (∀ j, j ≠ cq.val → t.cq j = s.cq j) ∧ t.dp.mem = s.dp.mem) ∧
    ((s.cq cq).group = none ∨ (s.cq cq).destroying = false ∨ (s.cq cq).idle = false → exec (.groupRelease cq) s = .next s)) ∧
  (∀ (s : State) (cq : Fin 64) (env : Env) (n idx : Nat) (e : QEntry) (b D : List Byte) (u w s1 s2 s3 : State) (v : Env) (f : Fail) (x : Ctx) (sn : BitVec 32) (comp : Addr) (d : Dp),
    u = { s with dp := s.dp.upsets env.upsets } → v = { env with upsets := [] } →
    ((s.cq cq).part = none ∨ (s.cq cq).committed = false ∨ (s.cq cq).enable = false ∨ (s.cq cq).st ≠ .running ∨ (s.cq cq).cur ≠ none ∨ sizeOk (s.cq cq).sizeLog2 = false ∨
      Sparse.get false s.wdg.held (1744 + cq.val) = true → exec (.collectiveEntryAccept cq env) s = .next u) ∧
    ((s.cq cq).part = some n → (s.cq cq).committed = true → (s.cq cq).enable = true → (s.cq cq).st = .running → (s.cq cq).cur = none → sizeOk (s.cq cq).sizeLog2 = true →
      Sparse.get false s.wdg.held (1744 + cq.val) = false → (u.wet n).settling = false → w = u.updCq cq (fun c => c.purge (u.wet n)) →
      idx = (match (s.cq cq).replay.head? with | some r => r.2 | none => (s.cq cq).head) →
      (w.readCq cq idx v = (s1, .error f) → ∃ t, exec (.collectiveEntryAccept cq env) s = .next t ∧ (t.cq cq).lastFault = Status.checkTile.toCode ∧
        (t.cq cq).fFault = (s.cq cq).fFault.hwSet ∧ (t.cq cq).cur = none) ∧
      (w.readCq cq idx v = (s1, .ok b) →
        (fld b 12 2 = 0 ∨ fld b 12 2 = 2 ∨ fld b 12 2 = 3 → exec (.collectiveEntryAccept cq env) s = .next s1) ∧
        (3 < fld b 12 2 → ∃ t, exec (.collectiveEntryAccept cq env) s = .next t ∧ (t.cq cq).lastFault = 0x0204 ∧ (t.cq cq).fFault = (s.cq cq).fFault.hwSet ∧ (t.cq cq).cur = none) ∧
        (fld b 12 2 = 1 → e = { desc := BitVec.ofNat 64 (fld b 0 8), tag := tagOf b 16, attempt := BitVec.ofNat 8 (fld b 24 1), part := n } →
          (e.desc.toNat % 32 ≠ 0 → ∃ t, exec (.collectiveEntryAccept cq env) s = .next t ∧ (t.cq cq).lastFault = 0x0201 ∧ (t.cq cq).fFault = (s.cq cq).fFault.hwSet ∧ (t.cq cq).cur = none) ∧
          (e.desc.toNat % 32 = 0 → x = s1.cqCtx cq e v →
            (s1.runOp {} (readAt x e.desc 96) = (s2, .error f) → ∃ t, exec (.collectiveEntryAccept cq env) s = .next t ∧ (t.cq cq).lastFault = f.st.toCode ∧
              (t.cq cq).fFault = (s.cq cq).fFault.hwSet ∧ (t.cq cq).cur = none) ∧
            (s1.runOp {} (readAt x e.desc 96) = (s2, .ok D) → comp = BitVec.ofNat 64 (fld D 56 8) → comp.toNat % 32 = 0 → rangeAt s2.dp x comp 64 true = .ok →
              sn = (match (s.cq cq).replay.head? with | some r => r.1 | none => if (s.cq cq).last = 0xFFFFFFFF then 1 else (s.cq cq).last + 1) →
              s3 = ((s2.updCq cq fun c => { c with
                      posted := Sparse.set none c.posted idx none, replay := c.replay.drop 1
                      head := if (s.cq cq).replay = [] then (c.head + 1) % 2 ^ c.sizeLog2.toNat else c.head }).writeCqAt cq idx 8 (le 4 sn.toNat ++ le 2 2)).updCq cq
                    (fun c => { c with last := sn, cur := some { a := { entry := e, seq := sn, desc := D, comp } }
                                       accepted := (c.accepted.filter fun z => z.1 ≠ sn) ++ [(sn, idx, e)] }) →
              (writeAt x comp (le 2 1)).exec s3.dp = (d, .ok ()) → ((s3.wet n).ent e.tag.epoch.toNat).step ≠ e.tag.step ∨ (((s3.wet n).ent e.tag.epoch.toNat).state ≠ .smudged ∧
                (((s3.wet n).ent e.tag.epoch.toNat).state = .wet → ((s3.wet n).ent e.tag.epoch.toNat).attempt.toNat ≤ e.attempt.toNat)) →
              kAllReduce ≤ fld D 0 1 → fld D 0 1 ≤ kCombine → fld D 0 1 ≠ kAnchorPre → exec (.collectiveEntryAccept cq env) s = .next { s3 with dp := d }))))) ∧
    (∀ key sp off so o sq, env = {} → (s.cq cq).part = some n → (s.cq cq).committed = true → (s.cq cq).enable = true → (s.cq cq).st = .running → (s.cq cq).cur = none → sizeOk (s.cq cq).sizeLog2 = true →
      Sparse.get false s.wdg.held (1744 + cq.val) = false → (s.wet n).settling = false → (s.cq cq).replay = [] → s.dp.mem.errs = [] → s.dp.mem.unread = [] → key = s.cqKey cq (s.cq cq).head → key % 32 = 0 →
      s.dp.mem.peek key 32 = entryBytes e sq 1 0 → e.part = n → e.desc.toNat % 32 = 0 → resolve s.dp.coord e.desc = some (.here sp off) →
      rangeStatus s.dp (s.cqCtx cq e {}) sp off 96 false = .ok → D = s.dp.mem.peek off 96 → fld D 56 8 % 32 = 0 →
      resolve s.dp.coord (BitVec.ofNat 64 (fld D 56 8)) = some (.here so o) → rangeStatus s.dp (s.cqCtx cq e {}) so o 64 true = .ok →
      rangeStatus s.dp (s.cqCtx cq e {}) so o 2 true = .ok → (o + 2 ≤ key ∨ key + 32 ≤ o) → (off + 96 ≤ key ∨ key + 32 ≤ off) →
      ((s.wet n).ent e.tag.epoch.toNat).step ≠ e.tag.step ∨ ((s.wet n).ent e.tag.epoch.toNat).state = .dry ∨
        (((s.wet n).ent e.tag.epoch.toNat).state = .wet ∧ ((s.wet n).ent e.tag.epoch.toNat).attempt.toNat ≤ e.attempt.toNat) →
      kAllReduce ≤ fld D 0 1 → fld D 0 1 ≤ kCombine → fld D 0 1 ≠ kAnchorPre → sn = (if (s.cq cq).last = 0xFFFFFFFF then 1 else (s.cq cq).last + 1) →
        ∃ t, exec (.collectiveEntryAccept cq {}) s = .next t ∧ (t.cq cq).cur = some { a := { entry := e, seq := sn, desc := D, comp := BitVec.ofNat 64 (fld D 56 8) } } ∧ (t.cq cq).last = sn ∧
        (t.cq cq).head = ((s.cq cq).head + 1) % 2 ^ (s.cq cq).sizeLog2.toNat ∧ (sn, (s.cq cq).head, e) ∈ (t.cq cq).accepted ∧ t.dp.mem.peek o 2 = le 2 1 ∧
        (∀ x, x < key + 8 ∨ key + 14 ≤ x → x < o ∨ o + 2 ≤ x → t.dp.mem.byte x = s.dp.mem.byte x) ∧ (∀ j, j ≠ cq.val → t.cq j = s.cq j) ∧
        t = { s with dp := { s.dp with mem := t.dp.mem }, cqs := t.cqs }))

/-- For every surroundings. ALL_REDUCE, REDUCE_SCATTER, REDUCE, ALL_GATHER and BROADCAST, and on the quickset path BARRIER,
ANCHOR_PRE and one-block reductions, that fail a row of their checks fail with its status; one that passes stands started with
its first step begun, its steps are run as far as they go, what credits cover is sent, and one whose steps are all over writes
its destination; a queue without such an entry does nothing. One that awaits a neighbour without credits stands as begun. A
quickset operation of several members waits with its part sent; a lone member's barrier completes, and its record is written
with REDUCED set. COLLECTIVE_COMPLETE ends a written operation that owes nothing; a timeout ends it with ST_HANG and stops the
queue. (R318, R320, R324, R325, R328, R332, R333, R335, R336) -/
def Obligations.CollectivesBeginStepAndComplete : Prop :=
  ∀ (s : State) (q : Fin 64) (env : Env) (c c1 e e2 c2 : Coll) (g : Group) (x y : Ctx) (st : Status) (off : Nat) (f : Fail) (d : Dp) (r : Nat) (range : Bool) (pl : List Byte) (rec0 : Census) (u w : State) (v : Env),
    u = { s with dp := s.dp.upsets env.upsets } → v = { env with upsets := [] } → x = u.cqCtx q c.a.entry v → y = ({ u with dp := d } : State).cqCtx q c1.a.entry {} →
    (∀ z ∈ ([(kAllReduce, Instr.allReduce q env, reducePrep), (kReduceScatter, .reduceScatter q env, reducePrep), (kReduce, .reduce q env, reducePrep),
        (kAllGather, .allGather q env, copyPrep), (kBroadcast, .broadcast q env, copyPrep)] : List (Nat × Instr × (Coll → Group → Ctx → Op Coll))),
      (s.collFresh q z.1 = none → exec z.2.1 s = .next u) ∧
      (s.collFresh q z.1 = some (c, g) → c.d.qs = true → z.1 = kAllReduce ∨ z.1 = kReduce → exec z.2.1 s = .next u) ∧
      (s.collFresh q z.1 = some (c, g) → c.d.qs = false ∨ (z.1 ≠ kAllReduce ∧ z.1 ≠ kReduce) →
        (firstRow (c.d.fieldRows g.size g.rank true) = some (st, off) →
          exec z.2.1 s = .next ((u.formSig q c).cqFail q { st, addr := c.a.entry.desc, obj := 1, off } v)) ∧
        (firstRow (c.d.fieldRows g.size g.rank true) = none → (z.2.2 c g x).exec u.dp = (d, .error f) →
          exec z.2.1 s = .next ((({ u with dp := d } : State).formSig q c).cqFail q f v)) ∧
        (firstRow (c.d.fieldRows g.size g.rank true) = none → (z.2.2 c g x).exec u.dp = (d, .ok c1) →
          e = { c1.enter g with a := { c1.a with started := true } } → e2 = e.advance g y (e.fuel g) →
          w = (({ u with dp := d } : State).updColl q fun _ => e).updColl q (fun _ => e2) →
          (e2.reserved = true → exec z.2.1 s = .next (w.cqFail q { st := .checkTile } v)) ∧
          (e2.reserved = false →
            ((w.pump q g).2 = some st → exec z.2.1 s = .next ((w.pump q g).1.cqFail q { st } v)) ∧
            ((w.pump q g).2 = none → ((w.pump q g).1.cq q).cur = some c2 →
              exec z.2.1 s = .next (if c2.ran g = true ∧ c2.written = false then (w.pump q g).1.finishBulk q g v else (w.pump q g).1))) ∧
          (e.await ≠ [] → e.rx = [] → e.reserved = false → (∀ o ∈ e.outq, Sparse.get 0 (s.cq q).credits o.rank = 0) → (e.ran g = false ∨ e.written = true) →
            ∃ t, exec z.2.1 s = .next t ∧ t.cq q = { s.cq q with cur := some e } ∧ (∀ j, j ≠ q.val → t.cq j = s.cq j) ∧ t = { s with dp := d, cqs := t.cqs })))) ∧
    (∀ z ∈ ([(kBarrier, Instr.barrier q env, (fun _ => [[]]), fun c _ _ => pure { c with sig := c.d.signature [] })] ++
        (if s.collFresh q kReduce = none then [] else [(kReduce, Instr.qsReduction q env, sumParts, reducePrep)]) ++
        (if s.collFresh q kReduce = none then [(kAllReduce, Instr.qsReduction q env, sumParts, reducePrep)] else []) :
          List (Nat × Instr × (Coll → List (List Byte)) × (Coll → Group → Ctx → Op Coll))),
      (s.collFresh q z.1 = none → exec z.2.1 s = .next u) ∧
      (s.collFresh q z.1 = some (c, g) → c.d.onQs = false → exec z.2.1 s = .next u) ∧
      (s.collFresh q z.1 = some (c, g) → c.d.onQs = true →
        (firstRow (c.d.fieldRows g.size g.rank true) = some (st, off) →
          exec z.2.1 s = .next ((u.formSig q c).cqFail q { st, addr := c.a.entry.desc, obj := 1, off } v)) ∧
        (firstRow (c.d.fieldRows g.size g.rank true) = none → (z.2.2.2 c g x).exec u.dp = (d, .error f) →
          exec z.2.1 s = .next ((({ u with dp := d } : State).formSig q c).cqFail q f v)) ∧
        (firstRow (c.d.fieldRows g.size g.rank true) = none → (z.2.2.2 c g x).exec u.dp = (d, .ok c1) → e = c1.qsBegin g (z.2.2.1 c1) →
          exec z.2.1 s = .next ((({ u with dp := d } : State).updColl q fun _ => { e with a := { e.a with started := true } }).qsOnward q v) ∧
          (c.qs = [] → c.qsOut = [] → c1.qs = [] → c1.qsOut = [] → 2 ≤ g.size → g.rank < g.size → ∃ t c2, exec z.2.1 s = .next t ∧ (t.cq q).cur = some c2 ∧ c2.a.started = true ∧
            c2.a.entry = c1.a.entry ∧ c2.work = c1.work ∧ c2.sig = c1.sig ∧ t.dp.mem = d.mem ∧ (∀ j, j ≠ q.val → t.cq j = s.cq j))))) ∧
    (s.collFresh q kBarrier = some (c, g) → firstRow (c.d.fieldRows g.size g.rank true) = none → c.qs = [] → c.qsOut = [] → g.size = 1 → g.count 0 = 1 →
      ∃ t : State, exec (.barrier q env) s = .next (t.cqComplete q { st := .ok } v) ∧ t = { u with cqs := t.cqs } ∧ (∀ j, j ≠ q.val → t.cq j = s.cq j)) ∧
    (s.collFresh q kAnchorPre = none → exec (.anchorPre q range env) s = .next u) ∧
    (s.collFresh q kAnchorPre = some (c, g) →
      (firstRow (c.d.fieldRows g.size g.rank true) = some (st, off) →
        exec (.anchorPre q range env) s = .next ((u.formSig q c).cqFail q { st, addr := c.a.entry.desc, obj := 1, off } v)) ∧
      (firstRow (c.d.fieldRows g.size g.rank true) = none → (anchorPrep (fun a => range || u.rangeOf g.part c.a.entry.tag a) c x).exec u.dp = (d, .error f) →
        exec (.anchorPre q range env) s = .next ((({ u with dp := d } : State).formSig q c).cqFail q f v)) ∧
      (firstRow (c.d.fieldRows g.size g.rank true) = none → (anchorPrep (fun a => range || u.rangeOf g.part c.a.entry.tag a) c x).exec u.dp = (d, .ok c1) →
        some pl = (Sparse.get {} c1.qs 0).result → e = ({ c1 with qs := [] } : Coll).qsBegin g [pl] →
        exec (.anchorPre q range env) s = .next ((({ u with dp := d } : State).updColl q fun _ => { e with a := { e.a with started := true } }).qsOnward q v) ∧
        (2 ≤ g.size → g.rank < g.size → c.qsOut = [] → ∃ t c2, exec (.anchorPre q range env) s = .next t ∧ (t.cq q).cur = some c2 ∧ c2.a.started = true ∧
          c2.sig = c1.sig ∧ t.dp.mem = d.mem) ∧
        (g.size = 1 → g.count 0 = 1 → c.qsOut = [] → rec0 = Census.ofBytes (pl.take 32) → resolve s.dp.coord c1.src.census = some (.here 2 off) →
          rangeStatus d y 2 off 32 true = .ok → off % 32 = 0 → d.mem.errs = [] →
          ∃ t : State, exec (.anchorPre q range env) s = .next (t.cqComplete q { st := .ok } v) ∧ t.dp.mem.peek off 32 = ({ rec0 with flags := rec0.flags ||| 0x10 } : Census).bytes ∧
            (∀ a, a < off ∨ off + 32 ≤ a → t.dp.mem.byte a = d.mem.byte a) ∧ t = { u with dp := { d with mem := t.dp.mem }, cqs := t.cqs, jobs := t.jobs }))) ∧
    ((s.cq q).cur = some c → c.written = true → c.outq = [] → c.owed = [] → c.d.onQs = false → exec (.collectiveComplete q env) s = .next (u.cqComplete q { st := .ok } v)) ∧
    ((s.cq q).cur = some c → c.written = false ∨ c.outq ≠ [] ∨ c.owed ≠ [] ∨ c.d.onQs = true → exec (.collectiveComplete q env) s = .next u) ∧
    ((s.cq q).cur = none → exec (.collectiveComplete q env) s = .next u ∧ exec (.collectiveProgressTimeout q env) s = .next u) ∧
    ((s.cq q).cur = some c → (s.cq q).group = some g → c.awaited g = none → exec (.collectiveProgressTimeout q env) s = .next u) ∧
    ((s.cq q).cur = some c → (s.cq q).group = some g → c.awaited g = some r → ∃ t, exec (.collectiveProgressTimeout q env) s = .next t ∧ (t.cq q).cur = none ∧
      (t.cq q).st = .stopped ∧ t.wdg.hang = s.wdg.hang.hwSet ∧ (∃ y ∈ t.wdg.queries, y.coord = (s.holderOf g.part (g.coord r)).code) ∧ (∀ j, j ≠ q.val → t.cq j = s.cq j))

/-- For every packet and surroundings. A chunk lands in its slot; one for no queue of the group or from a stranger is not used;
a damaged one fails the operation; one of a later operation is kept, a stale one counted and its slot returned, one of the
current operation kept for its step, one with another signature stops the queue with an order fault. Credits return up to the
slots; a RESEND_REQ sends the logged chunk again once a credit is held; a FAIL ends the operation. A kept packet is used when
its turn comes. Quickset messages before ST5 are answered ST_LINK_NOT_READY; after it they are treated alike, and a payload with
a reserved encoding fails the operation; the second member's BARRIER ends a two-member barrier. EXPERT_DISPATCH checks and takes
its rows; EXPERT_PLACEMENT writes them at their holder; EXPERT_COMBINE adds the rows that have returned. (R318, R322, R323,
R326, R334, R336, R338, R341, R342, R343) -/
def Obligations.ChunksMessagesAndExpertsAreUsedInTurn : Prop :=
  (∀ (s : State) (p : Packet) (mis good : Bool) (env : Env) (q : Nat) (g : Group) (r : Nat) (h : Chunk) (c : Coll) (sp off : Nat) (l l2 : LogChunk) (st : Status) (w : Fin 64) (u d d2 : State) (v : Env) (pl : List Byte),
    h = Chunk.ofBytes p.data → u = { s with dp := s.dp.upsets env.upsets } → v = { env with upsets := [] } →
    (s.chunkFor p = none → exec (.chunkData p mis env) s = .next u ∧ exec (.chunkCredit p env) s = .next u ∧ exec (.chunkFail p env) s = .next u ∧
      exec (.chunkResendReq p good env) s = .next u) ∧
    (s.chunkFor p = some (q, g, r) → d = u.land g p →
      (h.good = false → exec (.chunkData p mis env) s = .next (d.corruptChunk q g r h (some (bitsOf p.addr.toNat 21 6)) v) ∧
        exec (.chunkCredit p env) s = .next (u.corruptChunk q g r h none v) ∧ exec (.chunkFail p env) s = .next (u.corruptChunk q g r h none v) ∧
        exec (.chunkResendReq p good env) s = .next (u.corruptChunk q g r h none v)) ∧
      (h.good = true → g.id ≠ h.id ∨ h.rank ≠ r → exec (.chunkData p mis env) s = .next d ∧ exec (.chunkCredit p env) s = .next u ∧
        exec (.chunkFail p env) s = .next u ∧ exec (.chunkResendReq p good env) s = .next u) ∧
      (h.good = true → (h.kind ≠ ckData → exec (.chunkData p mis env) s = .next d) ∧ (h.kind ≠ ckCredit → exec (.chunkCredit p env) s = .next u) ∧
        (h.kind ≠ ckFail → exec (.chunkFail p env) s = .next u) ∧ (h.kind ≠ ckResend → exec (.chunkResendReq p good env) s = .next u)) ∧
      (h.good = true → g.id = h.id → h.rank = r →
        (h.kind = ckData →
          (d.chunkStand q h true = .later → ∃ t, exec (.chunkData p mis env) s = .next t ∧ t.cq q = { s.cq q with deferred := (s.cq q).deferred ++ [p] } ∧
            (∀ j, j ≠ q → t.cq j = s.cq j) ∧ t = { d with cqs := t.cqs } ∧
            (u.dp.mem.errs = [] → resolve s.dp.coord (g.staging + BitVec.ofNat 64 (4096 * bitsOf p.addr.toNat 21 6)) = some (.here sp off) →
              t.dp.mem.peek off p.data.length = p.data ∧ (∀ a, a < off ∨ off + p.data.length ≤ a → t.dp.mem.byte a = u.dp.mem.byte a))) ∧
          (d.chunkStand q h true = .stale → ∃ t, exec (.chunkData p mis env) s = .next t ∧ (t.cq q).stale = satInc (s.cq q).stale ∧
            (t.cq q).credits = (s.cq q).credits ∧ t.dp.mem = d.dp.mem) ∧
          (d.chunkStand q h true = .order → (s.cq q).cur = some c → ∃ t, exec (.chunkData p mis env) s = .next t ∧ (t.cq q).cur = none ∧ (t.cq q).st = .stopped ∧
            (t.cq q).fOrder = (s.cq q).fOrder.hwSet ∧ (t.job g.part).status = Status.collOrder.toCode) ∧
          (d.chunkStand q h true = .now → (s.cq q).cur = some c →
            (c.crc ≠ h.anchorCrc → exec (.chunkData p mis env) s = .next (d.corruptChunk q g r h (some (bitsOf p.addr.toNat 21 6)) v)) ∧
            (c.crc = h.anchorCrc → exec (.chunkData p mis env) s = .next (d.useChunk q g h mis v)) ∧
            (c.crc = h.anchorCrc → mis = false → c.rx = [] → c.outq = [] → c.await ≠ [] → c.reserved = false → c.step < (g.steps c.d.kind).length → h.last = false →
              ∃ t, exec (.chunkData p mis env) s = .next t ∧ (t.cq q).cur = some { c with
                received := c.received + 1, rx := [{ step := h.step, rank := h.rank, chunks := [(h.idx, h.payload)] }] } ∧ (∀ j, j ≠ q → t.cq j = s.cq j)))) ∧
        (h.kind = ckCredit → exec (.chunkCredit p env) s = .next (u.creditChunk q g h v) ∧
          ((s.cq q).cur = none → (s.cq q).resends = [] → ∃ t, exec (.chunkCredit p env) s = .next t ∧
            t.cq q = { s.cq q with credits := Sparse.upd 0 (s.cq q).credits h.rank fun x => min (x + h.idx) g.slots } ∧ (∀ j, j ≠ q → t.cq j = s.cq j) ∧ t = { u with cqs := t.cqs })) ∧
        (h.kind = ckResend →
          (((s.cq q).log.find? fun y => y.holds h.seq h.rank h.step h.idx && y.sig == h.sig) = none → exec (.chunkResendReq p good env) s = .next u) ∧
          (((s.cq q).log.find? fun y => y.holds h.seq h.rank h.step h.idx && y.sig == h.sig) = some l → l2 = (if good = true then l else { l with loc := none }) → (s.cq q).resends = [] →
            (Sparse.get 0 (s.cq q).credits l.out.rank = 0 → ∃ t, exec (.chunkResendReq p good env) s = .next t ∧ t.cq q = { s.cq q with resends := [l2] } ∧
              (∀ j, j ≠ q → t.cq j = s.cq j) ∧ t = { u with cqs := t.cqs }) ∧
            (Sparse.get 0 (s.cq q).credits l.out.rank ≠ 0 → ∃ a : State, exec (.chunkResendReq p good env) s = .next (a.resendChunk q g l2 v) ∧ a = { u with cqs := a.cqs } ∧
              (∀ j, a.cq j = s.cq j) ∧ (a.logged l2 = (d2, some pl) → ∃ t, exec (.chunkResendReq p good env) s = .next t ∧
                Sparse.get 0 (t.cq q).credits l.out.rank = Sparse.get 0 (s.cq q).credits l.out.rank - 1 ∧ (t.cq q).log = (s.cq q).log ∧ (∀ j, j ≠ q → t.cq j = s.cq j) ∧
                t.dp.mem = d2.dp.mem)))) ∧
        (h.kind = ckFail → st = (Status.ofCode (h.chunk % 2 ^ 16)).getD .checkTile →
          (u.chunkStand q h false = .now → exec (.chunkFail p env) s = .next (if st = .collOrder then u.orderStop q v else u.cqFail q { st } v)) ∧
          (u.chunkStand q h false = .order → exec (.chunkFail p env) s = .next (u.orderFault q h.rank true v)) ∧
          (u.chunkStand q h false = .stale → ∃ t, exec (.chunkFail p env) s = .next t ∧ (t.cq q).stale = satInc (s.cq q).stale ∧ t = { u with cqs := t.cqs }) ∧
          (u.chunkStand q h false = .later → ∃ t, exec (.chunkFail p env) s = .next t ∧ t.cq q = { s.cq q with deferred := (s.cq q).deferred ++ [p] } ∧ t = { u with cqs := t.cqs })))) ∧
    ((s.cq w).group = none ∨ (s.cq w).deferred.find? (u.dueNow w) = none → exec (.deferredChunk w env) s = .next u) ∧
    ((s.cq w).deferred.find? (u.dueNow w) = some p → (s.cq w).group = some g → d = u.updCq w (fun y => { y with deferred := y.deferred.erase p }) →
      exec (.deferredChunk w env) s = .next (if p.op.toNat = opQs then (if (QsMsg.of p).qop = qopFail then d.qsFail p v else d.qsMessage (QsMsg.of p).qop p v)
        else if h.kind = ckFail then d.failChunk w p h v else d.dataChunk w g p false v))) ∧
  (∀ (s : State) (p : Packet) (env : Env) (g : Group) (r : Nat) (m : QsMsg) (c : Coll) (st : Status) (u : State) (v : Env),
    m = QsMsg.of p → u = { s with dp := s.dp.upsets env.upsets } → v = { env with upsets := [] } →
    (∀ z ∈ [(qopBarrier, Instr.qsBarrier p env), (qopMax, .qsMaxU8 p env), (qopSum, .qsSumU64 p env), (qopCensus, .qsCensus p env)],
      (s.stage < 5 → exec z.2 s = .next (u.respond (response s.dp.coord p .linkNotReady []))) ∧
      (5 ≤ s.stage → (s.cq m.q).group = none → exec z.2 s = .next u) ∧
      (5 ≤ s.stage → (s.cq m.q).group = some g →
        (s.senderRank g p = none ∨ m.qop ≠ z.1 ∨ m.bad = true ∨ (s.cq m.q).committed = false ∨ g.job ≠ p.job ∨ s.senderRank g p = some g.rank → exec z.2 s = .next u) ∧
        (s.senderRank g p = some r → m.qop = z.1 → m.bad = false → (s.cq m.q).committed = true → g.job = p.job → r ≠ g.rank →
          (s.stand m.q m.seq true false = .later → ∃ t, exec z.2 s = .next t ∧ t.cq m.q = { s.cq m.q with deferred := (s.cq m.q).deferred ++ [p] } ∧
            (∀ j, j ≠ m.q → t.cq j = s.cq j) ∧ t = { u with cqs := t.cqs }) ∧
          (s.stand m.q m.seq true false = .stale → ∃ t, exec z.2 s = .next t ∧ (t.cq m.q).stale = satInc (s.cq m.q).stale ∧ t = { u with cqs := t.cqs }) ∧
          (s.stand m.q m.seq true false = .now → (s.cq m.q).cur = some c →
            (c.sig.toNat % 2 ^ 24 ≠ m.sig ∨ c.d.onQs = false → ∃ t, exec z.2 s = .next t ∧ (t.cq m.q).cur = none ∧ (t.cq m.q).st = .stopped ∧
              (t.cq m.q).fOrder = (s.cq m.q).fOrder.hwSet) ∧
            (c.sig.toNat % 2 ^ 24 = m.sig → c.d.onQs = true → qsPayloadBad z.1 c.wireSum p.data = true →
              exec z.2 s = .next (u.cqFail m.q { st := if z.1 = qopSum then .checkTile else .fieldReserved } v)) ∧
            (c.sig.toNat % 2 ^ 24 = m.sig → c.d.onQs = true → qsPayloadBad z.1 c.wireSum p.data = false → exec z.2 s =
              .next ((u.updColl m.q fun y => ({ y with received := y.received + 1 } : Coll).qsTake g r m.part z.1 (qsPayload z.1 p.data)).qsOnward m.q v)))))) ∧
    (5 ≤ s.stage → (s.cq m.q).group = some g → s.senderRank g p = some r → m.qop = qopBarrier → m.bad = false → (s.cq m.q).committed = true → g.job = p.job → r ≠ g.rank →
      s.stand m.q m.seq true false = .now → (s.cq m.q).cur = some c → c.sig.toNat % 2 ^ 24 = m.sig → c.d.kind = kBarrier → m.part = 0 → g.size = 2 → g.count 0 = 2 → g.rank < 2 →
      c.qs = [(0, { qop := qopBarrier, vals := [(g.rank, [])] })] → c.qsOut = [] → ∃ t : State, exec (.qsBarrier p env) s = .next (t.cqComplete m.q { st := .ok } v) ∧
        t = { u with cqs := t.cqs } ∧ ∀ j, j ≠ m.q → t.cq j = s.cq j) ∧
    (s.stage < 5 → exec (.qsFail p env) s = .next (u.respond (response s.dp.coord p .linkNotReady []))) ∧
    (5 ≤ s.stage → (s.cq m.q).group = none → exec (.qsFail p env) s = .next u) ∧
    (5 ≤ s.stage → (s.cq m.q).group = some g → st = (Status.ofCode (fld p.data 0 2)).getD .checkTile →
      (s.senderRank g p = none ∨ m.qop ≠ qopFail ∨ m.bad = true ∨ (s.cq m.q).committed = false ∨ g.job ≠ p.job → exec (.qsFail p env) s = .next u) ∧
      (s.senderRank g p = some r → m.qop = qopFail → m.bad = false → (s.cq m.q).committed = true → g.job = p.job →
        (s.stand m.q m.seq false false = .later → ∃ t, exec (.qsFail p env) s = .next t ∧ t.cq m.q = { s.cq m.q with deferred := (s.cq m.q).deferred ++ [p] } ∧ t = { u with cqs := t.cqs }) ∧
        (s.stand m.q m.seq false false = .stale → ∃ t, exec (.qsFail p env) s = .next t ∧ (t.cq m.q).stale = satInc (s.cq m.q).stale ∧ t = { u with cqs := t.cqs }) ∧
        (s.stand m.q m.seq false false = .now → (s.cq m.q).cur = some c →
          (st = .collOrder → exec (.qsFail p env) s = .next (u.orderStop m.q v)) ∧
          (st ≠ .collOrder → c.a.started = true → m.sig ≠ 0 → c.sig.toNat % 2 ^ 24 ≠ m.sig → exec (.qsFail p env) s = .next (u.orderFault m.q r false v)) ∧
          (st ≠ .collOrder → c.a.started = false ∨ m.sig = 0 ∨ c.sig.toNat % 2 ^ 24 = m.sig → exec (.qsFail p env) s = .next (u.cqComplete m.q { st } v)))))) ∧
  (∀ (s : State) (w : Fin 64) (env : Env) (c c1 : Coll) (g : Group) (P : Placement) (d d0 : Dp) (f : Fail) (st : Status) (off viol : Nat) (n : Nat × Nat) (x x0 : Ctx) (u : State) (v : Env),
    u = { s with dp := s.dp.upsets env.upsets } → v = { env with upsets := [] } → x = u.cqCtx w c.a.entry v → x0 = ({ u with dp := d0 } : State).cqCtx w c.a.entry v →
    (∀ z ∈ ([(kDispatch, Instr.expertDispatch w env, fun c g P x => c.prepDispatch g P (P.holds g) x), (kCombine, .expertCombine w env, fun c g P x => c.prepCombine g P (P.holds g) x)] :
          List (Nat × Instr × (Coll → Group → Placement → Ctx → Op Coll))),
      s.collFresh w z.1 = some (c, g) →
      (g.table = 0 → exec z.2.1 s = .next (u.cqFail w { st := .fieldReserved, addr := c.a.entry.desc, obj := 1, off := 0 } v)) ∧
      (g.table ≠ 0 → (takePlacement x g.table).exec u.dp = (d0, .error f) → exec z.2.1 s = .next (({ u with dp := d0 } : State).cqFail w f v)) ∧
      (g.table ≠ 0 → (takePlacement x g.table).exec u.dp = (d0, .ok P) →
        (firstRow (c.d.fieldRows g.size g.rank (P.holds g)) = some (st, off) →
          exec z.2.1 s = .next ((({ u with dp := d0 } : State).formSig w c).cqFail w { st, addr := c.a.entry.desc, obj := 1, off } v)) ∧
        (firstRow (c.d.fieldRows g.size g.rank (P.holds g)) = none → (z.2.2 c g P x0).exec d0 = (d, .error f) →
          exec z.2.1 s = .next ((({ u with dp := d } : State).formSig w c).cqFail w f v)) ∧
        (firstRow (c.d.fieldRows g.size g.rank (P.holds g)) = none → (z.2.2 c g P x0).exec d0 = (d, .ok c1) →
          ∃ a : State, a = ({ u with dp := d } : State).updColl w (fun _ => { c1.enter g with a := { c1.a with started := true } }) ∧
            (z.1 = kDispatch → exec z.2.1 s = .next (a.onward w v)) ∧ (z.1 = kCombine → exec z.2.1 s = .next ((a.onward w v).combineDone w v)) ∧
            (z.1 = kDispatch → g.size = 1 → c1.step = 0 → c1.outq = [] → c1.reserved = false → c1.a.desc = c.a.desc → ∃ t c2, exec z.2.1 s = .next t ∧
              (t.cq w).cur = some c2 ∧ c2.a.started = true ∧ c2.rows = c1.rows ∧ c2.counts = c1.counts ∧ c2.ran g = true ∧ t.dp.mem = d.mem)))) ∧
    (s.collFresh w kDispatch = none → exec (.expertDispatch w env) s = .next u) ∧
    ((s.cq w).cur = none ∨ (s.cq w).group = none → exec (.expertPlacement w env) s = .next u ∧ exec (.expertCombine w env) s = .next u) ∧
    ((s.cq w).cur = some c → (s.cq w).group = some g →
      (c.d.kind ≠ kDispatch ∨ c.a.started = false ∨ c.written = true ∨ c.ran g = false → exec (.expertPlacement w env) s = .next u) ∧
      (c.d.kind = kDispatch → c.a.started = true → c.written = false → c.ran g = true →
        (g.table = 0 → exec (.expertPlacement w env) s = .next (u.cqFail w { st := .fieldReserved, addr := c.a.entry.desc, obj := 1, off := 0 } v)) ∧
        (g.table ≠ 0 → (takePlacement x g.table).exec u.dp = (d0, .error f) → exec (.expertPlacement w env) s = .next (({ u with dp := d0 } : State).cqFail w f v)) ∧
        (g.table ≠ 0 → (takePlacement x g.table).exec u.dp = (d0, .ok P) →
          (P.holds g = false → ∃ t, exec (.expertPlacement w env) s = .next t ∧ t.cq w = { s.cq w with cur := some { c with written := true } } ∧ t = { u with dp := d0, cqs := t.cqs }) ∧
          (P.holds g = true → (c.place P x0).exec d0 = (d, .error f) → exec (.expertPlacement w env) s = .next (({ u with dp := d } : State).cqFail w f v)) ∧
          (P.holds g = true → (c.place P x0).exec d0 = (d, .ok n) → ∃ t, exec (.expertPlacement w env) s = .next t ∧
            t.cq w = { s.cq w with cur := some { c with written := true, counts := (c.counts.set 1 n.1).set 2 n.2 } } ∧ (∀ j, j ≠ w.val → t.cq j = s.cq j) ∧ t = { u with dp := d, cqs := t.cqs }))) ∧
      (c.d.kind ≠ kCombine ∨ (c.a.started = true ∧ (c.written = true ∨ c.ran g = false)) → exec (.expertCombine w env) s = .next u) ∧
      (c.d.kind = kCombine → c.a.started = true → c.written = false → c.ran g = true →
        ((c.addRows (u.cqCtx w c.a.entry {})).exec u.dp = (d, .error f) → exec (.expertCombine w env) s = .next (({ u with dp := d } : State).cqFail w f v)) ∧
        ((c.addRows (u.cqCtx w c.a.entry {})).exec u.dp = (d, .ok viol) → ∃ t, exec (.expertCombine w env) s = .next t ∧ t = { u with dp := d, cqs := t.cqs } ∧
          (∀ j, j ≠ w.val → t.cq j = s.cq j) ∧ t.cq w = { s.cq w with cur := some { c with
            written := true, a := { c.a with viol := c.a.viol + viol, wrote := true }, counts := c.counts.set 1 (c.rows.length * nth c.dst.shape 1) } }))))

/-- With room in the window EPOCH_OPEN makes the next epoch WET with its step and attempt, the step record placed first at a
step's first epoch (or a checkpoint asked for when it does not fit); with eight wet epochs posting is held and STALL set; while
a job is stopped, settles or waits it does nothing. A closed epoch with nothing running, failed, undecided or pending votes and
is VOTED; the vote is sent again when no notice comes. A manager discards stale payloads, answers a vote for a dry epoch with
the notice, else records votes and passes one up once all it awaits are held; the machine manager declares the index DRY. A
notice makes the module's epoch DRY and moves DRY_INDEX and OLDEST; other epochs stand. (R348, R350, R351, R352, R353, R354,
R355, R399) -/
def Obligations.EpochsOpenVoteAndDry : Prop :=
  ∀ (s : State) (k : Part) (b : Bool) (l : StepLogIn) (env : Env) (e : BitVec 8) (pay : List Byte) (m : DryMsg) (snd : BitVec 17) (aw : List (BitVec 17)) (n i p : Nat) (stale : Bool),
    m = DryMsg.ofBytes pay → stale = (!m.good || decide (m.attempt.toNat < (s.knownAttempt m.job m.epoch m.step).toNat)) → n = (s.wet k).next → i = n / s.epochsPerStep k →
    ((s.job k).running = false ∨ (s.wet k).settling = true ∨ ((s.wet k).held = true ∧ (s.wet k).wetCount.toNat < 8) ∨ ((s.job k).phase = 4 ∧ (s.mgr (s.job k).id).waits ≠ []) →
      exec (.epochOpen k b l env) s = .next s) ∧
    ((s.job k).running = true → (s.wet k).settling = false → ((s.job k).phase = 4 → (s.mgr (s.job k).id).waits = []) →
      (8 ≤ (s.wet k).wetCount.toNat → ∃ t, exec (.epochOpen k b l env) s = .next t ∧ t.wet k = { s.wet k with held := true, stall := (s.wet k).stall.hwSet } ∧
        t = { s with dp := { s.dp with wet := t.dp.wet } } ∧ (∀ j, j ≠ k.val → t.wet j = s.wet j)) ∧
      ((s.wet k).held = false → (s.wet k).wetCount.toNat < 8 → n < 2 ^ 64 →
        (∃ a : State, exec (.epochOpen k false l env) s = .next a ∧
          exec (.epochOpen k true l env) s = .next (a.closeEpoch k { step := BitVec.ofNat 32 i, epoch := BitVec.ofNat 8 n } env)) ∧
        ((b = true → ∀ g, (s.job k).graph = some g → ∀ p ∈ g.snapshots, p.1 ≠ n % s.epochsPerStep k) →
          ∃ t, exec (.epochOpen k b l env) s = .next t ∧
            (t.wet k).ent (n % 256) = { state := .wet, step := BitVec.ofNat 32 i, attempt := if n < (s.job k).replayTo then BitVec.ofNat 8 (32 * ((s.job k).rollbacks.toNat % 8)) else 0 } ∧
            (t.wet k).inf (n % 256) = { index := BitVec.ofNat 64 n, guards := s.guardsOf k n, fine := if b then .closed else .opened } ∧
            (∀ x, x ≠ n % 256 → (t.wet k).ent x = (s.wet k).ent x ∧ (t.wet k).inf x = (s.wet k).inf x) ∧
            (t.wet k).next = n + 1 ∧ (t.wet k).wetCount = (s.wet k).wetCount + 1 ∧ (t.wet k).oldest = (if (s.wet k).wetCount = 0 then BitVec.ofNat 8 n else (s.wet k).oldest) ∧
            (∀ j, j ≠ k.val → t.wet j = s.wet j) ∧ t = { s with dp := t.dp, jobs := t.jobs } ∧
            (n % s.epochsPerStep k ≠ 0 → (t.job k).records = (s.job k).records ∧ t.dp = { s.dp with wet := t.dp.wet }) ∧
            (n % s.epochsPerStep k = 0 → (∀ x ∈ (s.job k).records, x.step.toNat ≠ i) →
              (∃ r, (t.job k).records = (s.job k).records ++ [r] ∧ r = { s.newRecord k i n l with pos := r.pos, room := r.room } ∧ recSize r ≤ r.room) ∨
              ((t.job k).records = (s.job k).records ∧ (t.job k).asked = true ∧ .mgmt .ckptAsk s.dp.coord.code (BitVec.ofNat 64 i) ∈ t.dp.out))))) ∧
    ((s.wet k).mayVote e.toNat = true → ∃ t, exec (.dryVoteSend k e) s = .next t ∧
      t.dp.out = s.dp.out ++ [.quickset (.up (s.managerOf 0)) qopVote (dryBytes (s.ownVote k e))] ∧
      (t.wet k).inf e.toNat = { (s.wet k).inf e.toNat with fine := .voted, votedAt := s.dp.now } ∧ (t.wet k).ents = (s.wet k).ents ∧
      t = { s with dp := { s.dp with wet := t.dp.wet, out := t.dp.out } }) ∧
    ((s.wet k).mayVote e.toNat = false → exec (.dryVoteSend k e) s = .next s) ∧
    (((s.wet k).inf e.toNat).fine = .voted → ∃ t, exec (.dryVoteResend k e) s = .next t ∧
      t.dp.out = s.dp.out ++ [.quickset (.up (s.managerOf 0)) qopVote (dryBytes (s.ownVote k e))] ∧
      (t.wet k).inf e.toNat = { (s.wet k).inf e.toNat with votedAt := s.dp.now } ∧ (t.wet k).ents = (s.wet k).ents ∧ t = { s with dp := { s.dp with wet := t.dp.wet, out := t.dp.out } }) ∧
    (((s.wet k).inf e.toNat).fine ≠ .voted → exec (.dryVoteResend k e) s = .next s) ∧
    (stale = true → exec (.dryVote pay snd aw) s = exec (.dryNotice pay snd) s ∧
      ((s.mgr m.job).logged.contains (snd, m.epoch) = true → exec (.dryNotice pay snd) s = .next s) ∧
      ∃ t, exec (.dryNotice pay snd) s = .next t ∧ (snd, m.epoch) ∈ (t.mgr m.job).logged ∧ s.dp.Quiet t.dp ∧ t = { s with dp := t.dp, mgrs := t.mgrs }) ∧
    (stale = false →
      (s.gathers m.level.toNat = false → exec (.dryVote pay snd aw) s = .next s) ∧
      (s.gathers m.level.toNat = true → m.index.toNat < (s.mgr m.job).next.toNat → exec (.dryVote pay snd aw) s =
        .next (s.send (.quickset (.back snd) qopNotice (dryBytes { m with level := 3, count := (s.mgr m.job).modules })))) ∧
      (s.gathers m.level.toNat = true → (s.mgr m.job).next.toNat ≤ m.index.toNat →
        (m.level.toNat ≤ 1 → ∃ t, exec (.dryVote pay snd aw) s = .next t ∧
          { level := m.level.toNat, index := m.index, attempt := m.attempt, sender := snd, step := m.step, count := m.count } ∈ (t.mgr m.job).votes ∧
          (t.mgr m.job).await m.level.toNat = aw ∧ t = { s with dp := { s.dp with out := t.dp.out }, mgrs := t.mgrs } ∧
          (aw ≠ [] → (∀ a ∈ aw, a = snd ∨ ∃ v ∈ (s.mgr m.job).held m.level.toNat m.index m.attempt, v.sender = a) → t.dp.out = s.dp.out ++
            [.quickset (.up (s.managerOf (m.level.toNat + 1))) qopVote
              (dryBytes { m with level := m.level + 1, count := (t.mgr m.job).covered m.level.toNat m.index m.attempt })]) ∧
          (aw = [] ∨ (∃ a ∈ aw, a ≠ snd ∧ ∀ v ∈ (s.mgr m.job).held m.level.toNat m.index m.attempt, v.sender ≠ a) → t.dp = s.dp)) ∧
        (m.level = 2 → ∃ t, exec (.dryVote pay snd aw) s = .next t ∧ t = { s with dp := { s.dp with out := t.dp.out }, mgrs := t.mgrs } ∧
          (s.isMachine = false ∨ (s.mgr m.job).settling = true ∨ (s.mgr m.job).stopped = true → t.dp = s.dp ∧
            { level := 2, index := m.index, attempt := m.attempt, sender := snd, step := m.step, count := m.count } ∈ (t.mgr m.job).votes) ∧
          (s.isMachine = true → m.index = (s.mgr m.job).next → m.index.toNat < 2 ^ 63 → (s.mgr m.job).settling = false → (s.mgr m.job).stopped = false → aw ≠ [] →
            (∀ v ∈ (s.mgr m.job).votes, v.level = 2 → v.index = m.index → v.attempt.toNat ≤ m.attempt.toNat) →
            (∀ a ∈ aw, a = snd ∨ ∃ v ∈ (s.mgr m.job).held 2 m.index m.attempt, v.sender = a) →
            (∃ d : DryMsg, .quickset .down qopNotice (dryBytes d) ∈ t.dp.out ∧ d.job = m.job ∧ d.index = m.index ∧ d.level = 3 ∧ d.attempt = m.attempt ∧
              d.epoch = BitVec.ofNat 8 m.index.toNat) ∧ m.index.toNat < (t.mgr m.job).next.toNat))) ∧
      (∃ u : State, u = (if s.isManager = true ∧ s.isMachine = false then (s.send (.quickset .down qopNotice pay)).updMgr m.job (fun x =>
            if x.next.toNat ≤ m.index.toNat then x.dried m.index m.count else x) else s) ∧
        (s.jobPart m.job = none → exec (.dryNotice pay snd) s = .next u) ∧
        (s.jobPart m.job = some p →
          (((s.wet p).ent m.epoch.toNat).step ≠ m.step ∨ ((s.wet p).ent m.epoch.toNat).state ≠ .wet ∨ m.attempt.toNat < ((s.wet p).ent m.epoch.toNat).attempt.toNat →
            exec (.dryNotice pay snd) s = .next u) ∧
          (((s.wet p).ent m.epoch.toNat).step = m.step → ((s.wet p).ent m.epoch.toNat).state = .wet → ((s.wet p).ent m.epoch.toNat).attempt.toNat ≤ m.attempt.toNat →
            ∃ t, exec (.dryNotice pay snd) s = .next t ∧ (t.wet p).isDry { step := m.step, epoch := m.epoch } = true ∧
              (t.wet p).ent m.epoch.toNat = { (s.wet p).ent m.epoch.toNat with state := .dry } ∧ ((t.wet p).inf m.epoch.toNat).fine = .dry ∧
              (∀ x, x ≠ m.epoch.toNat → (t.wet p).ent x = (s.wet p).ent x) ∧ (t.wet p).dryIndex = BitVec.ofNat 48 m.index.toNat ∧
              (t.wet p).oldest = m.epoch + 1 ∧ (t.wet p).wetCount = (s.wet p).wetCount - 1 ∧
              (∀ j, j ≠ p → t.wet j = s.wet j)))))

/-- A REPORT of an open epoch at the machine manager starts round 1 with its mask, joins the set being settled, or changes
nothing when it is in it; other managers pass it up; a FAULT found again at the next attempt stops the job. An ORDER makes the
wet epochs of its mask SMUDGED, holds posting and answers a closure that contains the mask. Once every awaited CLOSURE is held,
a union within the mask sends FINAL (a rollback request when an epoch is discarded for the sixteenth time), a larger one the
next round's ORDER; a hedge or pod manager passes the union up. FINAL makes smudged epochs WET at the next attempt with CONSUMED
0 and releases posting and queues. A failed entry is reported under the cause that its record names, asks for a rollback, ends
the job, or is let stand. (R362, R364, R365, R366, R367, R369, R370, R393, R540) -/
def Obligations.SmudgesSettleToAFixedPoint : Prop :=
  (∀ (s : State) (k : Nat) (e : BitVec 8) (cause : Nat) (st : BitVec 16) (x : Tag),
    s.report k e cause st (some x) = s.send (.quickset (.up (s.managerOf 0)) qopSmudge (smudgeBytes
      { job := (s.job k).id, phase := 1, step := ((s.wet k).ent e.toNat).step, epoch := e, attempt := ((s.wet k).ent e.toNat).attempt,
        cause := BitVec.ofNat 8 cause, valid := true, status := st, cstep := x.step, cepoch := x.epoch }))) ∧
  (∀ (s : State) (pay : List Byte) (m : SmudgeMsg) (snd : BitVec 17) (aw : List (BitVec 17)) (env : Env) (k : Nat) (base u e : BitVec 8) (dmg : Option Bool) (w : State) (M : Mgr),
    m = SmudgeMsg.ofBytes pay → M = s.mgr m.job → base = (if M.settling = true then M.base else BitVec.ofNat 8 M.next.toNat) → w = { s with dp := s.dp.upsets env.upsets } →
    (∀ c ∈ [(m.epoch, Instr.smudgeReport pay snd), (m.base, .smudgeClosure pay snd aw), (m.base, .smudgeFinal (snd, pay) dmg)], m.good = false →
      (M.logged.contains (snd, c.1) = true → exec c.2 s = .next s) ∧
      ∃ t, exec c.2 s = .next t ∧ (snd, c.1) ∈ (t.mgr m.job).logged ∧ s.dp.Quiet t.dp ∧ t = { s with dp := t.dp, mgrs := t.mgrs }) ∧
    (m.good = false ∨ m.round.toNat < s.knownRound m.job → ∃ t, exec (.smudgeOrder pay snd env) s = .next t ∧ (snd, m.base) ∈ (t.mgr m.job).logged ∧
      w.dp.Quiet t.dp ∧ t = { w with dp := t.dp, mgrs := t.mgrs }) ∧
    (m.good = true → (s.knownAttempt m.job m.epoch m.step).toNat ≤ m.attempt.toNat →
      (s.isMachine = false → exec (.smudgeReport pay snd) s = .next (if s.isManager = true then s.quicksetUp qopSmudge pay else s)) ∧
      (s.isMachine = true → 8 ≤ (m.epoch - base).toNat → m.valid = false ∨ 8 ≤ (m.cepoch - base).toNat → exec (.smudgeReport pay snd) s = .next s) ∧
      (s.isMachine = true → ((m.epoch - base).toNat < 8 ∧ e = m.epoch) ∨ (8 ≤ (m.epoch - base).toNat ∧ m.valid = true ∧ (m.cepoch - base).toNat < 8 ∧ e = m.cepoch) →
        (M.settling = true → maskHas M.mask base e = true ∨ maskHas M.joining base e = true → exec (.smudgeReport pay snd) s = .next s) ∧
        (M.settling = false ∨ (maskHas M.mask base e = false ∧ maskHas M.joining base e = false) →
          (m.cause = 8 → M.faults.contains (e, m.status, m.attempt - 1) = true →
            ∃ t, exec (.smudgeReport pay snd) s = .next t ∧ (t.mgr m.job).stopped = true ∧ .mgmt .jobStop snd (BitVec.ofNat 64 m.status.toNat) ∈ t.dp.out ∧
              (∀ n, s.jobPart m.job = some n → (t.job n).running = false ∧ (t.job n).status = m.status)) ∧
          (¬(m.cause = 8 ∧ M.faults.contains (e, m.status, m.attempt - 1) = true) →
            (M.settling = true → ∃ t, exec (.smudgeReport pay snd) s = .next t ∧ (t.mgr m.job).joining = M.joining ||| maskBit base e ∧ t = { s with mgrs := t.mgrs }) ∧
            (M.settling = false → ∃ t, exec (.smudgeReport pay snd) s = .next t ∧ (t.mgr m.job).settling = true ∧ (t.mgr m.job).base = base ∧
              (t.mgr m.job).mask = maskBit base e ∧ (t.mgr m.job).round = 1 ∧ (t.mgr m.job).cause = m.cause ∧ (t.mgr m.job).reporter = snd ∧
              (t.mgr m.job).serious = decide (m.cause ≠ 5 ∧ m.cause ≠ 8) ∧
              t.dp.out = s.dp.out ++ [.quickset .down qopSmudge (smudgeBytes (t.smudgeMsg m.job 2))] ∧
              t = { s with dp := { s.dp with out := t.dp.out }, mgrs := t.mgrs }))))) ∧
    (m.good = true → s.knownRound m.job ≤ m.round.toNat →
      (s.jobPart m.job = none → ∃ t, exec (.smudgeOrder pay snd env) s = .next t ∧ t = { w with dp := { w.dp with out := t.dp.out }, mgrs := t.mgrs } ∧
        (s.isManager = false ∨ s.isMachine = true → t = w)) ∧
      (s.jobPart m.job = some k → ∃ t, exec (.smudgeOrder pay snd env) s = .next t ∧
        (t.wet k).settling = true ∧ (t.wet k).held = true ∧ (t.wet k).round = m.round.toNat ∧
        (∀ e, (t.wet k).ent e.toNat = if maskHas m.mask m.base e = true ∧ ((w.wet k).ent e.toNat).state = .wet
          then { (w.wet k).ent e.toNat with state := .smudged } else (w.wet k).ent e.toNat) ∧
        ∃ c, c &&& m.mask = m.mask ∧ t.dp.out.getLast? = some (.quickset (.up (s.managerOf 0)) qopSmudge (smudgeBytes { m with phase := 3, mask := c, count := 1 })))) ∧
    (m.good = true → M.round ≤ m.round.toNat →
      (s.isManager = false → exec (.smudgeClosure pay snd aw) s = .next s) ∧
      (s.isManager = true → (∃ a ∈ aw, a ≠ snd ∧ ∀ c ∈ M.closures, c.1 ≠ a) → ∃ t, exec (.smudgeClosure pay snd aw) s = .next t ∧
        (snd, m.mask, m.count) ∈ (t.mgr m.job).closures ∧ (t.mgr m.job).round = M.round ∧ t = { s with mgrs := t.mgrs }) ∧
      (s.isManager = true → (∀ a ∈ aw, a = snd ∨ ∃ c ∈ M.closures, c.1 = a) →
        u = (((snd, m.mask, m.count) :: M.closures.filter fun c => c.1 != snd).foldl (fun a c => a ||| c.2.1) 0) →
        (s.isMachine = false → ∃ t c, exec (.smudgeClosure pay snd aw) s = .next t ∧ (t.mgr m.job).closures = [] ∧
          t = { s with dp := { s.dp with out := t.dp.out }, mgrs := t.mgrs } ∧ c = { m with mask := u, count := c.count } ∧
          t.dp.out = s.dp.out ++ [.quickset (.up (s.managerOf (min (roleLevels s.roles.role) 2))) qopSmudge (smudgeBytes c)]) ∧
        (s.isMachine = true → u ||| M.mask ||| M.joining = M.mask ∨ 8 ≤ M.round →
          (M.countDiscards.worn = none → ∃ t, exec (.smudgeClosure pay snd aw) s = .next t ∧
            .quickset .down qopSmudge (smudgeBytes (s.smudgeMsg m.job 4)) ∈ t.dp.out ∧ (t.mgr m.job).settling = false ∧
            (∀ v ∈ (t.mgr m.job).votes, maskHas M.mask M.base (BitVec.ofNat 8 v.index.toNat) = false) ∧
            t = { s with dp := t.dp, mgrs := t.mgrs } ∧ s.dp.Quiet t.dp) ∧
          (M.countDiscards.worn ≠ none → ∃ t, exec (.smudgeClosure pay snd aw) s = .next t ∧ .mgmt .rollbackRequest s.dp.coord.code (BitVec.ofNat 64 m.job.toNat) ∈ t.dp.out ∧
            (∀ n, s.jobPart m.job = some n → (t.job n).status = Status.smudged.toCode) ∧ t = { s with dp := t.dp, mgrs := t.mgrs, jobs := t.jobs } ∧ s.dp.Quiet t.dp)) ∧
        (s.isMachine = true → u ||| M.mask ||| M.joining ≠ M.mask → M.round < 8 → ∃ t, exec (.smudgeClosure pay snd aw) s = .next t ∧
          (t.mgr m.job).mask = M.mask ||| u ||| M.joining ∧ (t.mgr m.job).round = M.round + 1 ∧
          (t.mgr m.job).settling = true ∧ t.dp.out = s.dp.out ++ [.quickset .down qopSmudge (smudgeBytes (t.smudgeMsg m.job 2))] ∧
          t = { s with dp := { s.dp with out := t.dp.out }, mgrs := t.mgrs }))) ∧
    (m.good = true → s.jobPart m.job = none → ∃ t, exec (.smudgeFinal (snd, pay) dmg) s = .next t ∧
      t = { s with dp := { s.dp with out := t.dp.out }, mgrs := t.mgrs } ∧ (s.isManager = false ∨ s.isMachine = true → t = s)) ∧
    (m.good = true → s.jobPart m.job = some k → ∃ t, exec (.smudgeFinal (snd, pay) dmg) s = .next t ∧
      (t.wet k).settling = false ∧ (t.wet k).held = false ∧ (t.wet k).round = 0 ∧ (t.wet k).smudge = (s.wet k).smudge.hwSet ∧
      (∀ x ∈ t.wdg.held, (if x.1 < 1744 then t.queuePart x.1 else (t.cq (x.1 - 1744)).part) ≠ some k) ∧
      (∀ e, (t.wet k).ent e.toNat = if maskHas m.mask m.base e = true ∧ ((s.wet k).ent e.toNat).state = .smudged
        then { (s.wet k).ent e.toNat with state := .wet, attempt := ((s.wet k).ent e.toNat).attempt + 1, consumed := 0 } else (s.wet k).ent e.toNat) ∧
      (dmg = some false → .mgmt .rollbackRequest s.dp.coord.code (BitVec.ofNat 64 m.job.toNat) ∈ t.dp.out))) ∧
  ∀ (s : State) (p : Part) (tag : Tag) (q : QueueId) (st : Status) (kind : Fin 3) (prod made : Option Tag) (cause : Nat) (named : BitVec 8),
    ((∀ f, (s.eq q).lastFail = some f → f.tag ≠ tag ∨ f.obj = 0) → (cause, made) = (if kind = 0 then causeCheckTile else if kind = 1 then causeMemory else causeChunk, prod)) →
    (∀ f, (s.eq q).lastFail = some f → f.tag = tag → f.obj ≠ 0 → (cause, made) = s.faultNames p f) →
    named = (match made with
      | some x => if ((s.wet p).ent x.epoch.toNat).step = x.step ∧ ((s.wet p).ent x.epoch.toNat).state = .wet then x.epoch else tag.epoch
      | none => tag.epoch) →
    (((s.wet p).inf tag.epoch.toNat).discards = 0 ∨ made = none →
      exec (.operationFailureHandling p tag q .checkTile kind prod) s = .next (s.report p named cause 0x0207 (some tag))) ∧
    (∀ x, ((s.wet p).inf tag.epoch.toNat).discards ≠ 0 → made = some x → ((s.wet p).ent x.epoch.toNat).step = x.step → ((s.wet p).ent x.epoch.toNat).state = .dry →
      (∀ f sp off, (s.eq q).lastFail = some f → resolve s.dp.coord f.addr = some (.here sp off) → durableType (regionType (s.dp.mem.regionOf (granuleOf off))) = false) →
      exec (.operationFailureHandling p tag q .checkTile kind prod) s = .next (s.askRollback (s.job p).id)) ∧
    (q.val < 1728 → exec (.operationFailureHandling p tag q .dupMismatch kind prod) s = .next (s.report p tag.epoch causeCombine 0x0603 none)) ∧
    (1728 ≤ q.val → Sparse.get 0 s.integ.varMiss (q.val - 1728) ≠ 0 → ∃ t, exec (.operationFailureHandling p tag q .dupMismatch kind prod) s = .next t ∧
      t.integ.degraded = true ∧ t.dp.out = s.dp.out ++ [.mgmt .degraded s.dp.coord.code 1] ∧ t = { s with dp := t.dp, integ := t.integ }) ∧
    (1728 ≤ q.val → Sparse.get 0 s.integ.varMiss (q.val - 1728) = 0 → ∃ a : State, exec (.operationFailureHandling p tag q .dupMismatch kind prod) s = .next (a.reissueVarnish q) ∧
      a = { s with integ := a.integ } ∧ Sparse.get 0 a.integ.varMiss (q.val - 1728) = 1) ∧
    ((st = .wetWrite ∨ st.group = 2) → st ≠ .checkTile → exec (.operationFailureHandling p tag q st kind prod) s =
      .next ((s.updJob p fun j => { j with failEngine := some q.val }).report p tag.epoch causeFault st.toCode none)) ∧
    (st ∈ [Status.ok, .pending, .smudged, .nonfinite, .rangeViolation] → exec (.operationFailureHandling p tag q st kind prod) s = .next s) ∧
    (st ∉ [Status.ok, .pending, .smudged, .nonfinite, .rangeViolation, .checkTile, .dupMismatch, .wetWrite] → st.group ≠ 2 → ∃ t, exec (.operationFailureHandling p tag q st kind prod) s = .next t ∧
      (t.job p).running = false ∧ (t.job p).status = st.toCode ∧ (∀ j, j ≠ p.val → t.job j = s.job j) ∧ t = { s with dp := t.dp, jobs := t.jobs } ∧
      s.dp.Quiet t.dp ∧ .mgmt .jobStop s.dp.coord.code (BitVec.ofNat 64 (s.job p).id.toNat) ∈ t.dp.out)

/-- The first waiting unit starts when a check buffer is free; a duplicate that fails a tile check is settled and reported.
Equal results settle the unit and release its epoch; a difference sets DUP_MISMATCH and a third execution runs. Its outcome is
recorded, names the suspects, settles the unit and discards the epoch unless the original stands. A suspect's repeat, against
the result standing, its unit's other suspects' repeats or by CRC during a replay, counts a transient or a permanent fault and
begins 24 hours of observation; observed easels run the OBSERVE items each minute; at the end of the observation both counts are
0. (R374, R375, R377, R378, R379, R380, R386) -/
def Obligations.DuplicatesAreComparedAndObserved : Prop :=
  (∀ (s : State) (id : BitVec 32) (d : Dup) (act : Activity) (flt : Option (Option Tag)) (x : Option Tag) (named : BitVec 8) (rs : List Byte × List Byte) (third : List Byte) (o : Nat),
    ((s.integ.dups.find? (·.waits)) = none ∨ (∃ y, (s.integ.dups.find? (·.waits)) = some y ∧ y.id ≠ id) ∨ 256 ≤ (s.integ.dups.filter fun y => !y.waits).length →
      exec (.duplicateStart id flt act) s = .next s) ∧
    ((s.integ.dups.find? (·.waits)) = some d → d.id = id → (s.integ.dups.filter fun y => !y.waits).length < 256 →
      (∃ t, exec (.duplicateStart id none act) s = .next t ∧
        t.integ = { s.integ with dups := s.integ.dups.map fun y => if y.id = id then { y with waits := false } else y } ∧
        t = { s with integ := t.integ, pcts := t.pcts } ∧ (d.mover = true → t.pcts = s.pcts) ∧
        (d.mover = false → t.pct (s.dupOn d.easel 24) = (s.pct (s.dupOn d.easel 24)).account none act ∧ ∀ j, j ≠ s.dupOn d.easel 24 → t.pct j = s.pct j)) ∧
      (named = (match x with
          | some t => if ((s.wet d.part).ent t.epoch.toNat).step = t.step ∧ ((s.wet d.part).ent t.epoch.toNat).state = .wet then t.epoch else d.epoch
          | none => d.epoch) →
        ∃ t, exec (.duplicateStart id (some x) act) s = .next t ∧ t.integ = { s.integ with dups := s.integ.dups.filter fun y => y.id != id } ∧
          ((t.wet d.part).inf d.epoch.toNat).dups = ((s.wet d.part).inf d.epoch.toNat).dups - 1 ∧ (t.wet d.part).ents = (s.wet d.part).ents ∧
          t.dp.out = s.dp.out ++ [.quickset (.up (s.managerOf 0)) qopSmudge (smudgeBytes
            { job := (s.job d.part).id, phase := 1, step := ((s.wet d.part).ent named.toNat).step, epoch := named, attempt := ((s.wet d.part).ent named.toNat).attempt,
              cause := 1, valid := true, status := 0x0207, cstep := ((s.wet d.part).ent d.epoch.toNat).step, cepoch := d.epoch })] ∧
          t = { s with dp := { s.dp with wet := t.dp.wet, out := t.dp.out }, integ := t.integ, pcts := t.pcts })) ∧
    (s.dup id = none → exec (.duplicateCompare id rs) s = .next s ∧ exec (.thirdExecution id third act) s = .next s) ∧
    (s.dup id = some d →
      (d.waits = true ∨ d.third = true → exec (.duplicateCompare id rs) s = .next s) ∧
      (d.waits = false → d.third = false →
        (rs.1 = rs.2 → ∃ t, exec (.duplicateCompare id rs) s = .next t ∧ t.integ = { s.integ with dups := s.integ.dups.filter fun y => y.id != id } ∧
          ((t.wet d.part).inf d.epoch.toNat).dups = ((s.wet d.part).inf d.epoch.toNat).dups - 1 ∧
          (t.wet d.part).ents = (s.wet d.part).ents ∧ t = { s with dp := { s.dp with wet := t.dp.wet }, integ := t.integ }) ∧
        (rs.1 ≠ rs.2 → ∃ t, exec (.duplicateCompare id rs) s = .next t ∧
          t.integ = { s.integ with dups := s.integ.dups.map fun y => if y.id = id then { y with third := true, results := rs } else y } ∧
          t.wet d.part = { s.wet d.part with dupMismatch := (s.wet d.part).dupMismatch.hwSet } ∧
          t = { s with dp := { s.dp with wet := t.dp.wet }, integ := t.integ })) ∧
      (d.third = false → exec (.thirdExecution id third act) s = .next s) ∧
      (d.third = true → o = (if third = d.results.2 then 1 else if third = d.results.1 then 2 else 3) → ∃ t, exec (.thirdExecution id third act) s = .next t ∧
        t.integ.dups = s.integ.dups.filter (fun y => y.id != id) ∧
        t.integ.suspects.map (·.easel) = s.integ.suspects.map (·.easel) ++ (if d.mover = true then [] else if o = 1 then [s.runsOn d.easel]
          else if o = 2 then [s.dupOn d.easel 24] else [s.runsOn d.easel, s.dupOn d.easel 24, s.dupOn d.easel 12]) ∧
        ((t.wet d.part).inf d.epoch.toNat).dups = ((s.wet d.part).inf d.epoch.toNat).dups - 1 ∧ (t.wet d.part).ents = (s.wet d.part).ents ∧
        (o ≠ 2 → ∃ q : SmudgeMsg, q.epoch = d.epoch ∧ q.cause = 2 ∧ q.phase = 1 ∧ .quickset (.up (s.managerOf 0)) qopSmudge (smudgeBytes q) ∈ t.dp.out) ∧
        t = { s with dp := t.dp, integ := t.integ, pcts := t.pcts } ∧ t.dp.mem = s.dp.mem))) ∧
  ∀ (s u : State) (i : Easel) (r : RepeatIn) (inp : ResetIn) (env v : Env) (y : Suspect) (l st : List Byte) (b : Bool) (perm tr : Nat) (o : Obs) (rs : List ItemResult) (p : Tpk) (act : Activity),
    u = { s with dp := s.dp.upsets env.upsets } → v = { env with upsets := [] } → o = Sparse.get ({} : Obs) u.dp.obs i →
    ((s.integ.suspects.find? fun z => z.easel == i.val && z.rep.isNone) = none → exec (.suspectRepeat i r inp env) s = .next u) ∧
    ((s.integ.suspects.find? fun z => z.easel == i.val && z.rep.isNone) = some y →
      (y.result = some l → y.standing = some st → exec (.suspectRepeat i r inp env) s = .next (u.classify y (decide (r.result ≠ l ∧ r.result = st)) inp v)) ∧
      (y.result = none → r.standing = some st → exec (.suspectRepeat i r inp env) s = .next (u.classify y (decide (crc32c r.result ≠ y.crc ∧ crc32c r.result = crc32c st)) inp v)) ∧
      (y.result = none → r.standing = none → exec (.suspectRepeat i r inp env) s = .next u) ∧
      (y.result = some l → y.standing = none → ∃ (w : State) (all : List Suspect), w = { u with integ := w.integ } ∧
        w.integ.suspects = s.integ.suspects.map (fun z => if z = y then { y with rep := some r.result } else z) ∧
        all = { y with rep := some r.result } :: (({ y with rep := some r.result } : Suspect).peers w.integ.suspects) ∧
        ((∃ z ∈ all, z.rep = none) → exec (.suspectRepeat i r inp env) s = .next w) ∧
        ((∀ z ∈ all, z.rep ≠ none) → exec (.suspectRepeat i r inp env) s = .next (all.foldl (fun a z =>
          a.classify z (decide (z.rep ≠ z.result ∧ ∃ x ∈ z.peers all, x.rep = z.rep)) inp v) w)))) ∧
    (tr = o.transient.toNat + (if b = true then 1 else 0) → perm = o.permanent.toNat + (if b = true then 0 else 1) + (if tr = 8 then 1 else 0) → y.easel = i.val →
      ∃ a : State, u.classify y b inp v = (if 2 ≤ perm then a.retire i inp v else a) ∧ a.integ = { u.integ with suspects := u.integ.suspects.erase y } ∧
        Sparse.get ({} : Obs) a.dp.obs i = { permanent := BitVec.ofNat 8 perm, transient := BitVec.ofNat 8 (tr % 8), left := obsSeconds } ∧
        (∀ j, j ≠ i.val → Sparse.get ({} : Obs) a.dp.obs j = Sparse.get ({} : Obs) u.dp.obs j) ∧
        a.flash.obs = Sparse.set {} u.flash.obs i (Sparse.get {} a.dp.obs i) ∧ a.dp.mem = u.dp.mem ∧ a.dp.wet = u.dp.wet ∧ a = { u with dp := a.dp, integ := a.integ, flash := a.flash }) ∧
    (o.left = 0 ∨ s.currentTpk 0 = none → exec (.observationTpkTick i rs act inp env) s = .next u) ∧
    (o.left ≠ 0 → s.currentTpk 0 = some p →
      ∃ a : State, exec (.observationTpkTick i rs act inp env) s = .next (a.itemResults p (rs.filter fun r => p.scope r.item.toNat = 1 ∧ r.phys.toNat = s.physOf i) inp v) ∧
        a.pct i = (s.pct i).account none act ∧ (∀ j, j ≠ i.val → a.pct j = s.pct j) ∧ a = { u with pcts := a.pcts } ∧
        ((∀ r ∈ rs, p.passes r = true) → ∃ t, exec (.observationTpkTick i rs act inp env) s = .next t ∧ t = { a with dp := t.dp, trellises := t.trellises } ∧ a.dp.Quiet t.dp)) ∧
    ((Sparse.get ({} : Obs) s.dp.obs i).left = 1 → ∃ t, exec (.observationEnd i) s = .next t ∧ Sparse.get ({} : Obs) t.dp.obs i = {} ∧
      Sparse.get ({} : Obs) t.flash.obs i = {} ∧ (∀ j, j ≠ i.val → Sparse.get ({} : Obs) t.dp.obs j = Sparse.get ({} : Obs) s.dp.obs j) ∧
      t = { s with dp := t.dp, flash := { s.flash with obs := t.flash.obs } } ∧ t.dp.mem = s.dp.mem ∧ t.dp.wet = s.dp.wet) ∧
    ((Sparse.get ({} : Obs) s.dp.obs i).left ≠ 1 → exec (.observationEnd i) s = .next s)

/-- CKPT_BEGIN holds varnish posting and starts the copy, each holder's header WRITING first. A copy that succeeds, at once or
at its one repetition from the piece that failed, writes the headers COMMITTED and reports ST_OK; one that fails twice reports
the failure. With the last report the machine manager commits; a failed report ends that checkpoint, asks for another and sends
the last commit again (the model's choice, log entry 121); other managers pass reports up. CKPT_COMMIT records the step,
reclaims the step records up to it and releases varnish posting; the one that stands already only releases. A rollback request
makes the machine manager raise the generation and send ROLLBACK, or stop a job without a commit; another manager passes it up.
ROLLBACK takes the partition's posted entries back, discards later step records, restores the durable state that was written
since, rebuilds the copies, and starts the replay at the step after the commit; a failure stops the job with its status. Outside
these conditions each of these messages changes nothing. (R399, R404, R405, R408) -/
def Obligations.CheckpointsCommitAndRollBack : Prop :=
  (∀ (s u a : State) (k : Part) (step : BitVec 64) (headers : List (Addr × BitVec 8)) (pieces rest rem : List (Addr × Nat × Addr)) (tds : List Addr)
      (env v again : Env) (d d2 : Dp) (f g : Fail) (n : Nat) (w : State),
    u = { s with dp := s.dp.upsets env.upsets } → v = { env with upsets := [] } → n = step.toNat % 2 ^ 48 * 2 ^ 16 →
    a = u.updJob k (fun j => { j with varHeld := true, ckpt := some step, retried := false, phase := 1 }) →
    w = ({ u with dp := d } : State).updJob k (fun j => { j with retried := true }) →
    ((s.job k).used = false → exec (.ckptBegin k step headers env) s = .next u) ∧
    ((s.job k).used = true →
      exec (.ckptBegin k step headers env) s = .next (headers.foldl (fun w h => (w.runOp v (writeAt (w.ctx v .ckpt) h.1
        (mirrorHeader w.dp.coord.code.toNat step.toNat 1 h.2.toNat 0))).1) a) ∧
      ∃ t, exec (.ckptBegin k step headers env) s = .next t ∧
        t.job k = { s.job k with varHeld := true, ckpt := some step, retried := false, phase := 1 } ∧ (∀ m, m ≠ k.val → t.job m = s.job m) ∧
        t = { s with dp := t.dp, jobs := t.jobs } ∧ (headers = [] → t.dp = u.dp)) ∧
    ((s.job k).ckpt = none ∨ (s.job k).phase ≠ 1 ∨ u.piecesOk k pieces = false →
      exec (.checkpointCopyDone k pieces tds headers env again) s = .next u) ∧
    ((s.job k).ckpt = some step → (s.job k).phase = 1 → u.piecesOk k pieces = true →
      ((do checkTds (u.ctx v .ckpt) tds
           copyPieces (u.ctx v .ckpt) pieces).exec (u.dp.upsets []) = (d, .ok ([], none)) →
        ∃ t, exec (.checkpointCopyDone k pieces tds headers env again) s = .next t ∧ t.job k = { s.job k with phase := 2 } ∧
          (∀ m, m ≠ k.val → t.job m = s.job m) ∧ t.dp.out.getLast? = some (.mgmt .ckptReport t.dp.coord.code (BitVec.ofNat 64 n)) ∧
          t = { s with dp := t.dp, jobs := t.jobs } ∧ (headers = [] → t.dp = d.send (.mgmt .ckptReport d.coord.code (BitVec.ofNat 64 n))) ∧
          ∀ h, headers = [h] → ∃ b : State, b = (({ u with dp := d } : State).writeHeader h.1 step.toNat 2 h.2.toNat
            (pieces.foldl (fun x p => x + p.2.1) 0) { again with upsets := [] }).1 ∧ t.dp.mem = b.dp.mem) ∧
      (((do checkTds (u.ctx v .ckpt) tds
            copyPieces (u.ctx v .ckpt) pieces).exec (u.dp.upsets []) = (d, .ok (rest, some f)) ∨
          ((do checkTds (u.ctx v .ckpt) tds
               copyPieces (u.ctx v .ckpt) pieces).exec (u.dp.upsets []) = (d, .error f) ∧ rest = pieces)) →
        ((do checkTds (w.ctx again .ckpt) tds
             copyPieces (w.ctx again .ckpt) rest).exec (d.upsets again.upsets) = (d2, .ok ([], none)) →
          ∃ t, exec (.checkpointCopyDone k pieces tds headers env again) s = .next t ∧ t.job k = { s.job k with phase := 2, retried := true } ∧
            t.dp.out.getLast? = some (.mgmt .ckptReport t.dp.coord.code (BitVec.ofNat 64 n)) ∧ t = { s with dp := t.dp, jobs := t.jobs }) ∧
        ((do checkTds (w.ctx again .ckpt) tds
             copyPieces (w.ctx again .ckpt) rest).exec (d.upsets again.upsets) = (d2, .ok (rem, some g)) ∨
          (do checkTds (w.ctx again .ckpt) tds
              copyPieces (w.ctx again .ckpt) rest).exec (d.upsets again.upsets) = (d2, .error g) →
          ∃ t, exec (.checkpointCopyDone k pieces tds headers env again) s = .next t ∧ t.job k = { s.job k with phase := 2, retried := true } ∧
            t.dp.out.getLast? = some (.mgmt .ckptReport s.dp.coord.code (BitVec.ofNat 64 (n + g.st.toCode.toNat))) ∧ t.dp.mem = d2.mem ∧
            t = { s with dp := t.dp, jobs := t.jobs })))) ∧
  (∀ (s : State) (job : BitVec 16) (step : BitVec 64) (x : BitVec 17) (st : Status) (ms : List (BitVec 17)) (k : Nat),
    (s.isManager = false → exec (.checkpointReport job step x st ms) s = .next s ∧ exec (.rollbackRequest job x) s = .next s) ∧
    (s.isManager = true → s.isMachine = false →
      exec (.checkpointReport job step x st ms) s = .next (s.send (.mgmt .ckptReport x (BitVec.ofNat 64 (step.toNat % 2 ^ 48 * 2 ^ 16 + st.toCode.toNat)))) ∧
      exec (.rollbackRequest job x) s = .next (s.send (.mgmt .rollbackRequest x (BitVec.ofNat 64 job.toNat)))) ∧
    (s.isMachine = true →
      ((s.mgr job).ckpt ≠ some step → exec (.checkpointReport job step x st ms) s = .next s) ∧
      ((s.mgr job).ckpt = some step → st ≠ .ok → ∃ t, exec (.checkpointReport job step x st ms) s = .next t ∧
        (t.mgr job).ckpt = none ∧ (t.mgr job).commit = (s.mgr job).commit ∧ (∀ n, s.jobPart job = some n → (t.job n).asked = true) ∧
        t.dp = s.dp.send (.mgmt .ckptCommit s.dp.coord.code (BitVec.ofNat 64 (s.commitOf job))) ∧ t = { s with dp := t.dp, jobs := t.jobs, mgrs := t.mgrs }) ∧
      ((s.mgr job).ckpt = some step → (∀ m ∈ ms, m = x ∨ m ∈ (s.mgr job).reports) →
        ∃ t, exec (.checkpointReport job step x .ok ms) s = .next t ∧ (t.mgr job).ckpt = none ∧ (t.mgr job).commit = some step ∧
          t.dp = s.dp.send (.mgmt .ckptCommit s.dp.coord.code step) ∧ t = { s with dp := t.dp, mgrs := t.mgrs }) ∧
      ((s.mgr job).ckpt = some step → (∃ m ∈ ms, m ≠ x ∧ m ∉ (s.mgr job).reports) →
        ∃ t, exec (.checkpointReport job step x .ok ms) s = .next t ∧ (t.mgr job).ckpt = some step ∧ (t.mgr job).commit = (s.mgr job).commit ∧
          x ∈ (t.mgr job).reports ∧ (∀ m ∈ (s.mgr job).reports, m ∈ (t.mgr job).reports) ∧ t = { s with mgrs := t.mgrs }) ∧
      (s.commitOf job = 0xFFFFFFFF → exec (.rollbackRequest job x) s = .next (s.lostStop job .checkTile x)) ∧
      (s.commitOf job ≠ 0xFFFFFFFF → ∃ t, exec (.rollbackRequest job x) s = .next t ∧
        (t.mgr job).rollGen = (s.mgr job).rollGen + 1 ∧ (t.mgr job).settling = false ∧ (t.mgr job).ckpt = none ∧
        t.dp = s.dp.send (.mgmt .rollback x (BitVec.ofNat 64 (s.commitOf job))) ∧ t = { s with dp := t.dp, mgrs := t.mgrs })) ∧
    (s.jobPart job = some k → step.setWidth 32 = (s.job k).lastCommit → ∃ t, exec (.ckptCommit job step) s = .next t ∧
      t.job k = { s.job k with varHeld := false, phase := 0, ckpt := none, retried := false } ∧ (∀ m, m ≠ k → t.job m = s.job m) ∧ t = { s with jobs := t.jobs }) ∧
    (s.jobPart job = some k → step.setWidth 32 ≠ (s.job k).lastCommit → ∃ a t : State, exec (.ckptCommit job step) s = .next t ∧
      a.job k = { s.job k with lastCommit := step.setWidth 32, varHeld := false, heldSince := true, phase := 0, ckpt := none, retried := false
                               records := (s.job k).records.filter fun r => step.toNat < r.step.toNat } ∧
      a.ckp k = { s.ckp k with lastCommit := step.setWidth 32, commit := (s.ckp k).commit.hwSet } ∧
      (∀ m, m ≠ k → a.job m = s.job m ∧ a.ckp m = s.ckp m) ∧ a = { s with dp := a.dp, jobs := a.jobs, ckps := a.ckps } ∧ s.dp.Quiet a.dp ∧
      (s.isManager = false → t = a) ∧
      (s.isManager = true → (s.mgr job).replace = [] → t = { a with mgrs := t.mgrs } ∧ (t.mgr job).commit = some step)) ∧
    (s.jobPart job = none → s.isManager = false ∨ (s.mgr job).commit = some step → exec (.ckptCommit job step) s = .next s) ∧
    (s.jobPart job = none → s.isManager = true → (s.mgr job).commit ≠ some step → ∃ a : State, a = { s with mgrs := a.mgrs } ∧
      a.mgr job = { s.mgr job with replace := [], commit := some step } ∧
      exec (.ckptCommit job step) s = .next ((s.mgr job).replace.foldl (fun w y => w.replaceModule y [job]) a))) ∧
  (∀ (s u : State) (k : Part) (c : BitVec 64) (gen : BitVec 16) (inp : RollIn) (env v : Env) (n : Nat),
    u = { s with dp := s.dp.upsets env.upsets } → v = { env with upsets := [] } → n = s.epochsPerStep k →
    ((s.job k).used = false → inp.take = none → exec (.rollbackMessage k c gen inp env) s = .next u) ∧
    ((s.job k).used = true → inp.take = none → ∃ (a : State) (r : State × Except Fail Unit),
      (a.job k).phase = 3 ∧ (a.job k).rollbacks = gen ∧ (a.job k).lastCommit = c.setWidth 32 ∧
      (a.job k).records = ((s.job k).records.map fun r => if c.toNat < r.step.toNat then { r with st := .discarded } else r) ∧
      a.ckp k = { s.ckp k with rollbacks := gen.setWidth 8, lastCommit := c.setWidth 32, rollback := (s.ckp k).rollback.hwSet } ∧
      (∀ e ∈ s.easelsOf k, (a.eq e).posted = [] ∧ (a.eq (768 + e)).posted = []) ∧ (∀ q ∈ s.cqsOf k, (a.cq q).posted = []) ∧
      (s.isMachine = true → (a.mgr (s.job k).id).next = BitVec.ofNat 64 ((c.toNat + 1) * n) ∧ (a.mgr (s.job k).id).votes = [] ∧
        (a.mgr (s.job k).id).settling = false) ∧
      r = (if (s.job k).heldSince = true then (a, .ok ()) else a.restoreDurable inp v) ∧
      (∀ f, r.2 = .error f → exec (.rollbackMessage k c gen inp env) s = .next (r.1.stopJob k f.st.toCode 0)) ∧
      (r.2 = .ok () → inp.emits = [] → exec (.rollbackMessage k c gen inp env) s = .next ((r.1.startReplay k c inp.recopy).tryStop k)) ∧
      (r.2 = .ok () → ∃ att, ∀ x l, inp.emits = x :: l →
        (∀ b f, r.1.emitRun k x.1.val x.2 { step := c.setWidth 32, epoch := BitVec.ofNat 8 ((c.toNat + 1) * n - 1) } att v = (b, .error f) →
          exec (.rollbackMessage k c gen inp env) s = .next (b.stopJob k f.st.toCode 0)) ∧
        (∀ b, r.1.emitRun k x.1.val x.2 { step := c.setWidth 32, epoch := BitVec.ofNat 8 ((c.toNat + 1) * n - 1) } att v = (b, .ok ()) → l = [] →
          exec (.rollbackMessage k c gen inp env) s = .next ((b.startReplay k c inp.recopy).tryStop k)))) ∧
    (∀ x, inp.take = some x → ∃ t, exec (.rollbackMessage k c gen inp env) s = .next t ∧ (t.job k).used = true ∧ (t.job k).id = x.id ∧
      (t.job k).rollbacks = gen ∧ (t.job k).lastCommit = c.setWidth 32 ∧ t.roles.role = x.role ∧ t.roles.waiting = false ∧
      t.ckp k = { s.ckp k with mode := x.mode, interval := x.interval, takeover := (s.ckp k).takeover.hwSet, rollbacks := gen.setWidth 8
                               lastCommit := c.setWidth 32, rollback := (s.ckp k).rollback.hwSet })) ∧
  ∀ (w t : State) (k : Nat) (c : BitVec 64) (b : Bool) (n : Nat), k < 4 → t = (w.startReplay k c b).tryStop k → n = w.epochsPerStep k →
    (t.job k).step = c + 1 ∧ (t.job k).guards = ({ w.job k with guards := [] } : Job).loggedGuards (c.toNat + 1) ∧ (t.job k).dryCensus = [] ∧
    (t.job k).varHeld = b ∧ (t.job k).heldSince = true ∧ (t.job k).ckpt = (if b = true then some c else none) ∧
    (t.job k).phase = (if (c.toNat + 1) * n < (w.wet k).next then 4 else 0) ∧ (t.job k).replayTo = max (w.job k).replayTo (w.wet k).next ∧
    (t.wet k).next = (c.toNat + 1) * n ∧ (t.wet k).wetCount = 0 ∧ (t.wet k).ents = [] ∧ (t.wet k).held = false ∧ (t.wet k).settling = false ∧
    (t.wet k).dryIndex = BitVec.ofNat 48 ((c.toNat + 1) * n - 1) ∧ (t.wet k).oldest = BitVec.ofNat 8 ((c.toNat + 1) * n) ∧
    (∀ x ∈ t.wdg.held, (if x.1 < 1744 then t.queuePart x.1 else (t.cq (x.1 - 1744)).part) ≠ some k) ∧
    (∀ m, m ≠ k → t.wet m = w.wet m ∧ t.job m = w.job m) ∧ ((w.job k).stopping = false → (t.job k).running = (w.job k).running) ∧
    ((w.job k).stopping = true → (t.job k).running = false ∧ (t.job k).stopping = false)

/-- VARNISH_POST for a dry epoch of a job whose varnish is not held fills a free place of the unit's ring, the parameter record
(with the scale of its tensor) written first when one is given, and notes the entry as open; otherwise nothing is posted.
VARNISH_UPDATE of an accepted entry with a COUNT of 0 completes with ST_OK; one that fails its checks with that status. A wet
gradient makes the unit wait and a smudged one ends it; otherwise the tiles are updated in order, the counters of the unit take
what was updated and skipped (stopping at all ones), and the entry completes: with ST_OK, with the status of the tile that
failed, with ST_CHECK_TILE and a rollback request for a torn tile, with ST_DUP_MISMATCH where the two datapaths disagree.
VARNISH_TAG_WAIT_END runs a waiting entry again. Without such an entry, or with the unit held, both change nothing. (R360, R387,
R388, R389, R391, R392, R394, R395) -/
def Obligations.VarnishUnitsUpdateTheirParameters : Prop :=
  (∀ (p : VParams) (n g w a b : Nat),
    updateOne ruleSgd p n g w a b = (fma32 (negate32 p.lr) (fma32 p.beta1 a (fma32 p.wd w g)) w, fma32 p.beta1 a (fma32 p.wd w g), b) ∧
    (updateOne ruleAdamW p n g w a b).2 = (fma32 p.beta1 a (mul32 p.omb1 g), fma32 (mul32 p.omb2 g) g (mul32 p.beta2 b)) ∧
    (updateOne ruleLion p n g w a b).2 = (fma32 p.beta2 a (mul32 p.omb2 g), b) ∧ (mag32 g = 0 → isNan32 g = false → sign32 g n = 0)) ∧
  (∀ (s : State) (n : Nat) (y : VSum),
    (Sparse.get 0 (s.countVarnish n y).integ.updated n).toNat = min ((Sparse.get 0 s.integ.updated n).toNat + y.updated) (2 ^ 48 - 1) ∧
    (Sparse.get 0 (s.countVarnish n y).integ.skipped n).toNat = min ((Sparse.get 0 s.integ.skipped n).toNat + y.skipped) (2 ^ 48 - 1) ∧
    ∀ m, m ≠ n → Sparse.get 0 (s.countVarnish n y).integ.updated m = Sparse.get 0 s.integ.updated m) ∧
  (∀ (s s1 s2 : State) (n : Fin 16) (i : BitVec 12) (desc : Addr) (tag : Tag) (att : BitVec 8) (k : Part) (pa : Option (Addr × Nat)) (e : QEntry) (q key so o j : Nat) (a : Addr) (b l : List Byte) (f : Fail),
    q = 1728 + n.val → e = { desc, tag, attempt := att, part := k.val } → key = s.ringKey q i.toNat →
    ((s.job k).used = false ∨ (s.job k).varHeld = true ∨ (s.wet k).isDry tag = false ∨ (s.eq q).enable = false ∨ (s.eq q).entries ≤ i.toNat ∨ desc.toNat % 32 ≠ 0 →
      exec (.varnishPost n i desc tag att k pa) s = .next s) ∧
    ((s.job k).used = true → (s.job k).varHeld = false → (s.wet k).isDry tag = true → (s.eq q).enable = true → i.toNat < (s.eq q).entries → desc.toNat % 32 = 0 →
      (s.readRing q i.toNat {} = (s1, .error f) → exec (.varnishPost n i desc tag att k pa) s = .next s1) ∧
      (s.readRing q i.toNat {} = (s1, .ok b) →
        (pa = none → freeEntry b = false → exec (.varnishPost n i desc tag att k pa) s = .next s1) ∧
        (pa = none → freeEntry b = true → ∃ t, exec (.varnishPost n i desc tag att k pa) s = .next t ∧ Sparse.get none (t.eq q).posted i.toNat = some e ∧
          t.job k = { s.job k with varOpen := (s.job k).varOpen ++ [(n.val, e)], heldSince := false } ∧ (∀ m, m ≠ k.val → t.job m = s.job m) ∧
          (∀ m, m ≠ q → t.eq m = s.eq m) ∧ t = { s with dp := t.dp, eqs := t.eqs, jobs := t.jobs, pwr := t.pwr }) ∧
        (pa = some (a, j) → s1.scaledSet k tag.step j = (s2, none) → exec (.varnishPost n i desc tag att k pa) s = .next s2) ∧
        (pa = some (a, j) → s1.scaledSet k tag.step j = (s2, some l) → freeEntry b = false → exec (.varnishPost n i desc tag att k pa) s = .next s2) ∧
        (pa = some (a, j) → s1.scaledSet k tag.step j = (s2, some l) → freeEntry b = true → ∃ t, exec (.varnishPost n i desc tag att k pa) s = .next t ∧
          Sparse.get none (t.eq q).posted i.toNat = some e ∧ t.job k = { s2.job k with varOpen := (s2.job k).varOpen ++ [(n.val, e)], heldSince := false } ∧
          (∀ m, m ≠ k.val → t.job m = s2.job m) ∧ (∀ m, m ≠ q → t.eq m = s2.eq m) ∧ t = { s2 with dp := t.dp, eqs := t.eqs, jobs := t.jobs, pwr := t.pwr } ∧
          (resolve s2.dp.coord a = some (.here so o) → o % 32 = 0 → rangeStatus s2.dp (s2.ctx {} .ovind) so o 64 true = .ok → s2.dp.mem.regionDue = [] →
            key = s2.ringKey q i.toNat → key % 32 = 0 → key + 32 ≤ o ∨ o + 64 ≤ key → t.dp.mem.peek key 32 = entryBytes e 0 1 0 ∧ t.dp.mem.peek o 64 = paramRecord l ∧
            ∀ x, x < key ∨ key + 32 ≤ x → x < o ∨ o + 64 ≤ x → t.dp.mem.byte x = s2.dp.mem.byte x))) ∧
      (pa = none → key % 32 = 0 → s.dp.mem.err (key / 32) = .none → freeEntry (s.dp.mem.peek key 32) = true →
        ∃ t, exec (.varnishPost n i desc tag att k pa) s = .next t ∧ t.dp.mem.peek key 32 = entryBytes e 0 1 0 ∧
          (∀ x, x < key ∨ key + 32 ≤ x → t.dp.mem.byte x = s.dp.mem.byte x) ∧ t.dp.wet = s.dp.wet))) ∧
  ∀ (s u : State) (n : Fin 16) (miss : Option (Fin 4096)) (env w : Env) (x : Active) (v : VD) (c : Ctx) (f : Fail) (d d1 d2 : Dp) (p : VPlan) (z : Instr) (y : VSum) (q : Nat),
    u = { s with dp := s.dp.upsets env.upsets } → w = { env with upsets := [] } → q = 1728 + n.val →
    ((s.eq q).cur = none ∨ u.engineHeld q = true ∨ (∃ x, (s.eq q).cur = some x ∧ x.started = true) → exec (.varnishUpdate n miss env) s = .next u) ∧
    ((s.eq q).cur = none ∨ u.engineHeld q = true ∨ (∃ x, (s.eq q).cur = some x ∧ x.started = false) → exec (.varnishTagWaitEnd n miss env) s = .next u) ∧
    ((s.eq q).cur = some x → u.engineHeld q = false → v = VD.ofBytes x.desc → c = u.entryCtx q x.entry w →
      (z = .varnishUpdate n miss env ∧ x.started = false ∨ z = .varnishTagWaitEnd n miss env ∧ x.started = true) →
      ((v.plan c x.entry.desc n x.tds).exec u.dp = (d, .error f) → exec z s = .next (({ u with dp := d } : State).complete q (failComp f false) w)) ∧
      ((v.plan c x.entry.desc n x.tds).exec u.dp = (d, .ok none) →
        exec z s = .next ((({ u with dp := d } : State).complete q {} w).tryStepDry x.entry.part x.entry.tag.step.toNat)) ∧
      (firstRow v.fieldRows = none → v.count = 0 → exec z s = .next ((u.complete q {} w).tryStepDry x.entry.part x.entry.tag.step.toNat)) ∧
      ((v.plan c x.entry.desc n x.tds).exec u.dp = (d, .ok (some p)) →
        ((if v.emit then pure .nothing else gradSays c x.entry.part p.grad v.tiles).exec d = (d1, .error f) →
          exec z s = .next (({ u with dp := d1 } : State).complete q (failComp f false) w)) ∧
        (v.emit = false → (gradSays c x.entry.part p.grad v.tiles).exec d = (d1, .ok .wet) → ∃ t, exec z s = .next t ∧
          (t.eq q).cur = some { x with started := true, tds := [p.grad, p.master, p.m1, p.m2, p.narrow] } ∧ (∀ m, m ≠ q → t.eq m = s.eq m) ∧ t = { s with dp := d1, eqs := t.eqs }) ∧
        (v.emit = false → (gradSays c x.entry.part p.grad v.tiles).exec d = (d1, .ok .smudged) →
          exec z s = .next (({ u with dp := d1 } : State).complete q (failComp { st := .smudged } false) w)) ∧
        ((if v.emit then pure .nothing else gradSays c x.entry.part p.grad v.tiles).exec d = (d1, .ok .nothing) →
          ((p.run c (miss.map (·.val)) v.tiles {}).exec d1 = (d2, .ok (y, none)) →
            (y.torn = false → y.miss = false → exec z s = .next (((({ u with dp := d2 } : State).countVarnish n y).complete q (y.comp v.emit { st := .ok }) w).tryStepDry
              x.entry.part x.entry.tag.step.toNat)) ∧
            (y.torn = false → y.miss = true → exec z s = .next ((({ u with dp := d2 } : State).countVarnish n y).complete q (y.comp v.emit { st := .dupMismatch }) w)) ∧
            (y.torn = true → ∃ a : State, a = (({ u with dp := d2 } : State).countVarnish n y).complete q (y.comp v.emit { st := .checkTile, addr := v.master, obj := 4 }) w ∧
              exec z s = .next (a.askRollback (a.job x.entry.part).id))) ∧
          ((p.run c (miss.map (·.val)) v.tiles {}).exec d1 = (d2, .ok (y, some f)) → y.torn = false → f.st ≠ .ok →
            exec z s = .next ((({ u with dp := d2 } : State).countVarnish n y).complete q (y.comp v.emit f) w)))))

/-- The watchdog of an engine that is armed and has made no progress for the limit declares a hang and begins the reset of its
level, after a sample; an array or trellis engine's easel goes under observation with one transient fault; before that it
changes nothing. The answer lost makes no local reset; the other answer begins the resets that wait. A level that completes is
released and counted. A level that misses its timeout sets ESCALATED and begins the next one: engine after context, partition
after engine (or the easel is switched off where no partition owns its panel), module after partition, power cycle request after
module. The Ovind watchdog resets the module without a notice, unless such a reset is under way. LPDDR5X and flash are kept.
What names no episode or question changes nothing. (R414, R415, R416, R418, R420, R421, R423, R426, R427) -/
def Obligations.HangsEnterTheResetLadder : Prop :=
  ∀ (s u : State) (q : QueueId) (i : Easel) (l : Fin 4) (lv : Fin 3) (c : BitVec 17) (lost : Bool) (e : Episode) (x : Query) (inp : ResetIn) (env v : Env) (tg k : Nat),
    u = { s with dp := s.dp.upsets env.upsets } → v = { env with upsets := [] } → tg = (if l.val = 3 then 0 else i.val) →
    (u.armed q = false ∨ (s.wdgEng q).sinceUs.toNat < 1000 * s.wdg.limitMs.toNat → exec (.engineWatchdogExpiry q inp env) s = .next u) ∧
    (u.armed q = true → 1000 * s.wdg.limitMs.toNat ≤ (s.wdgEng q).sinceUs.toNat → ∃ a : State,
      a.wdg.hang = s.wdg.hang.hwSet ∧ (a.wdgEng q).hangs = satInc (s.wdgEng q).hangs ∧ (∀ j, j ≠ q.val → a.wdgEng j = s.wdgEng j) ∧
      a.wdg.episodes = s.wdg.episodes ∧ a = { s with dp := a.dp, wdg := a.wdg } ∧ u.dp.Quiet a.dp ∧
      (u.hangLevel q = none → exec (.engineWatchdogExpiry q inp env) s = .next a) ∧
      (∀ m, u.hangLevel q = some m → exec (.engineWatchdogExpiry q inp env) s =
        .next (if q.val < 1536 then (a.requestReset m.1 m.2 Status.hang.toCode q false inp v).observe (q.val % 768) false inp v
          else a.requestReset m.1 m.2 Status.hang.toCode q false inp v)) ∧
      (q.val < 1536 → s.wdg.episodes = [] → Sparse.get 0 s.wdg.lastReset (q.val % 768) = 0 →
        (Sparse.get {} s.dp.obs (q.val % 768)).permanent = 0 → (Sparse.get {} s.dp.obs (q.val % 768)).transient.toNat < 7 →
        ∃ t, exec (.engineWatchdogExpiry q inp env) s = .next t ∧ t.wdg.hang = s.wdg.hang.hwSet ∧ t.wdg.level = 1 ∧ t.wdg.status = Status.hang.toCode ∧
          t.wdg.episodes = [{ level := 1, target := q.val % 768, status := Status.hang.toCode, engine := q.val, begun := s.dp.now }] ∧
          Sparse.get 0 t.wdg.samples (q.val % 768) = Sparse.get 0 s.wdg.samples (q.val % 768) + 1 ∧
          Sparse.get ({} : Obs) t.dp.obs (q.val % 768) = { permanent := 0, transient := (Sparse.get ({} : Obs) s.dp.obs (q.val % 768)).transient + 1, left := obsSeconds }) ∧
      (1536 ≤ q.val → s.wdg.episodes = [] → u.hangLevel q = some (3, k) → ∃ t, exec (.engineWatchdogExpiry q inp env) s = .next t ∧
        t.wdg.hang = s.wdg.hang.hwSet ∧ t.wdg.level = 3 ∧
        t.wdg.episodes = [{ level := 3, target := k, status := Status.hang.toCode, engine := q.val, begun := s.dp.now }])) ∧
    ((s.wdg.queries.find? fun y => y.coord == c) = none → exec (.lostQueryAnswer c lost inp env) s = .next u) ∧
    ((s.wdg.queries.find? fun y => y.coord == c) = some x → ∃ b : State,
      b = { u with wdg := { s.wdg with queries := s.wdg.queries.filter fun y => y.coord != c } } ∧ exec (.lostQueryAnswer c true inp env) s = .next b ∧
      exec (.lostQueryAnswer c false inp env) s = .next (x.waits.foldl (fun w y => w.requestReset y.1 y.2.1 Status.hang.toCode y.2.2 false inp v) b) ∧
      (x.waits = [(1, i.val, q.val)] → s.wdg.episodes = [] → ∃ t, exec (.lostQueryAnswer c false inp env) s = .next t ∧
        (∀ y ∈ t.wdg.queries, y.coord ≠ c) ∧ t.wdg.level = 1 ∧
        t.wdg.episodes = [{ level := 1, target := i.val, status := Status.hang.toCode, engine := q.val, begun := s.dp.now }])) ∧
    ((s.wdg.episodes.find? fun y => y.level == lv.val + 1 && y.target == i.val && decide (lv.val + 1 ≤ 3)) = none →
      exec (.resetLevelComplete lv i) s = .next s) ∧
    ((s.wdg.episodes.find? fun y => y.level == lv.val + 1 && y.target == i.val && decide (lv.val + 1 ≤ 3)) = some e →
      ∃ t, exec (.resetLevelComplete lv i) s = .next t ∧ t.wdg.reset = s.wdg.reset.hwSet ∧
        (∀ y, y ∈ t.wdg.episodes ↔ y ∈ s.wdg.episodes ∧ ¬ (y.level = lv.val + 1 ∧ y.target = i.val)) ∧
        (lv.val < 2 → Sparse.get 0 t.wdg.lastReset i = s.dp.now + 1) ∧ t = { s with dp := t.dp, wdg := t.wdg } ∧ s.dp.Quiet t.dp) ∧
    ((s.wdg.episodes.find? fun y => y.level == l.val + 1 && y.target == tg) = none → exec (.resetTimeout l i inp env) s = .next u) ∧
    ((s.wdg.episodes.find? fun y => y.level == l.val + 1 && y.target == tg) = some e → ∃ a : State,
      a.wdg = { s.wdg with escalated := s.wdg.escalated.hwSet, episodes := s.wdg.episodes.filter fun y => !(y.level == l.val + 1 && y.target == tg) } ∧
      a = { s with dp := a.dp, wdg := a.wdg } ∧ u.dp.Quiet a.dp ∧
      (l = 0 → exec (.resetTimeout l i inp env) s = .next ((a.requestReset 2 i e.status e.engine true inp v).observe i true inp v)) ∧
      (l = 1 → s.easelPart i = some k → exec (.resetTimeout l i inp env) s = .next ((a.requestReset 3 k e.status e.engine true inp v).observe i true inp v)) ∧
      (l = 1 → s.easelPart i = none → exec (.resetTimeout l i inp env) s = .next ((a.cutEasel (s.physOf i)).observe i true inp v)) ∧
      (l = 2 → ∃ b : State, b.wdg = a.wdg ∧ b = { a with dp := b.dp, jobs := b.jobs } ∧ (∀ n < 4, (s.job n).used = true → (b.job n).status = Status.resetEscalated.toCode) ∧
        exec (.resetTimeout l i inp env) s = .next (b.requestReset 4 0 e.status e.engine true inp v)) ∧
      (l = 3 → ∃ b : State, b.wdg = { a.wdg with hang := s.wdg.hang.hwSet } ∧ b = { a with dp := b.dp, wdg := b.wdg } ∧
        exec (.resetTimeout l i inp env) s = .next (b.requestReset 5 0 Status.resetEscalated.toCode e.engine true inp v))) ∧
    (s.wdg.episodes = [e] → e.level = 1 → e.target = i.val → (Sparse.get {} s.dp.obs i).permanent = 0 → (Sparse.get {} s.dp.obs i).transient.toNat < 7 →
      ∃ t, exec (.resetTimeout 0 i inp env) s = .next t ∧ t.wdg.escalated = s.wdg.escalated.hwSet ∧ t.wdg.level = 2 ∧
        t.wdg.episodes = [{ level := 2, target := i.val, status := e.status, engine := e.engine, begun := s.dp.now }]) ∧
    (s.wdg.episodes = [e] → e.level = 3 → e.target = i.val → ∃ t, exec (.resetTimeout 2 i inp env) s = .next t ∧ t.stage = 1 ∧
      t.wdg.level = 4 ∧ t.wdg.status = Status.resetEscalated.toCode ∧ t.wdg.moduleResets = satInc s.wdg.moduleResets ∧ t.flash = s.flash ∧
      ∀ a, a < scratchBase → t.dp.mem.byte a = u.dp.mem.byte a) ∧
    (s.wdg.episodes = [e] → e.level = 4 → e.target = 0 → ∃ t, exec (.resetTimeout 3 i inp env) s = .next t ∧ t.elec.pwrReq = true ∧
      t.wdg.level = 5 ∧ t.wdg.status = Status.resetEscalated.toCode ∧ t.dp.evr.buffer = [] ∧ t.flash = s.flash) ∧
    ((∀ y ∈ s.wdg.episodes, y.level < 4) → ∃ t, exec .ovindWatchdogExpiry s = .next t ∧ t.stage = 1 ∧ t.wdg.level = 4 ∧ t.wdg.status = Status.hang.toCode ∧
      t.wdg.moduleResets = satInc s.wdg.moduleResets ∧ t.flash = s.flash ∧ t.sec.otp = s.sec.otp ∧
      (∀ m v, OutMsg.mgmt .resetNotice m v ∈ t.dp.out → OutMsg.mgmt .resetNotice m v ∈ s.dp.out) ∧
      ∀ a, a < scratchBase → t.dp.mem.byte a = s.dp.mem.byte a) ∧
    ((∃ y ∈ s.wdg.episodes, 4 ≤ y.level) → ∃ t, exec .ovindWatchdogExpiry s = .next t ∧ t.wdg = { s.wdg with hang := s.wdg.hang.hwSet } ∧
      t = { s with dp := t.dp, wdg := t.wdg } ∧ s.dp.Quiet t.dp)

/-- A manager that takes a RESET_NOTICE holds the loss of the sender off and asks for a rollback of each of its jobs that waits
for it; READY ends both. With no READY in time, or on the loss of a module no notice covers, a mirror of it that was being
written is marked TORN and stops the job; else the spare chosen is taken and for each job the loss is reported, the spare woken
and substituted, or, with no spare left, the jobs stop. A DEGRADED worker is replaced at the next commit of each job, or at
once; a DEGRADED spare is no longer chosen. A module that is no manager only marks the mirror. (R406, R409, R410, R411, R426,
R430) -/
def Obligations.ManagersReplaceLostModules : Prop :=
  ∀ (s b : State) (x y : BitVec 17) (jobs : List (BitVec 16)) (mirror : Option (Part × Addr)) (atOnce : Bool) (env : Env) (k : Part) (a : Addr) (d : Dp) (l : List Byte),
    (s.isManager = false → exec (.resetNotice x jobs) s = .next s ∧ exec (.moduleReady x) s = .next s ∧
      exec (.degradedReport x atOnce jobs mirror env) s = .next s) ∧
    (s.isManager = false ∨ x ∉ s.roles.notices → exec (.resetNoticeTimeout x jobs mirror env) s = .next s) ∧
    (x ∈ s.roles.notices → exec (.moduleLost x jobs mirror env) s = .next s) ∧
    (x ∉ s.roles.notices → mirror = some (k, a) → (readAt (s.ctx env .ovind) a 64).exec (s.dp.upsets env.upsets) = (d, .ok l) →
      fld l 0 4 = x.toNat → fld l 12 1 = 1 → (s.job k).mode ≠ 1 → ∃ t, exec (.moduleLost x jobs mirror env) s = .next t ∧
        (t.job k).running = false ∧ (t.job k).status = Status.checkTile.toCode ∧ (∀ j, j ≠ k.val → t.job j = s.job j) ∧
        t.ckp k = { s.ckp k with torn := (s.ckp k).torn.hwSet } ∧ .mgmt .jobStop x (BitVec.ofNat 64 Status.checkTile.toCode.toNat) ∈ t.dp.out ∧
        t = { s with dp := t.dp, jobs := t.jobs, ckps := t.ckps } ∧
        t.dp.mem = ((writeAt (({ s with dp := d } : State).ctx {} .ovind) a (mirrorWith l 3)).exec d).1.mem) ∧
    (x ∉ s.roles.notices →
      (mirror = none ∧ b = s ∨
        ∃ k a, mirror = some (k, a) ∧ b = { s with dp := ((readAt (s.ctx env .ovind) a 64).exec (s.dp.upsets env.upsets)).1 } ∧
          ∀ l, ((readAt (s.ctx env .ovind) a 64).exec (s.dp.upsets env.upsets)).2 = .ok l → fld l 0 4 ≠ x.toNat ∨ fld l 12 1 ≠ 1 ∨ (s.job k).mode = 1) →
      (s.isManager = false → exec (.moduleLost x jobs mirror env) s = .next b) ∧
      (s.isManager = true → s.chooseSpare x = some y → ∃ t, exec (.moduleLost x jobs mirror env) s = .next t ∧
        t.roles = { s.roles with taken := y :: s.roles.taken } ∧ (∀ j ∈ jobs, .mgmt .lossReport x (BitVec.ofNat 64 j.toNat) ∈ t.dp.out ∧
          .mgmt .spareWake y (BitVec.ofNat 64 x.toNat) ∈ t.dp.out ∧ .mgmt .substitute x (BitVec.ofNat 64 y.toNat) ∈ t.dp.out) ∧
        (∀ j n, jobs = [j] → s.jobPart j = some n → (t.job n).subst = Sparse.set 0 (s.job n).subst x.toNat y ∧
          (t.ckp n).takeover = (s.ckp n).takeover.hwSet) ∧
        t = { b with dp := t.dp, roles := t.roles, jobs := t.jobs, ckps := t.ckps } ∧ b.dp.Quiet t.dp) ∧
      (s.isManager = true → s.chooseSpare x = none → exec (.moduleLost x jobs mirror env) s = .next (jobs.foldl (fun w j => w.lostStop j .hang x) b) ∧
        ((∀ j ∈ jobs, s.jobPart j = none) → ∃ t, exec (.moduleLost x jobs mirror env) s = .next t ∧
          (∀ j ∈ jobs, .mgmt .jobStop x (BitVec.ofNat 64 Status.hang.toCode.toNat) ∈ t.dp.out) ∧ t = { b with dp := t.dp } ∧ b.dp.Quiet t.dp) ∧
        (∀ j n, jobs = [j] → s.jobPart j = some n → ∃ t, exec (.moduleLost x jobs mirror env) s = .next t ∧ (t.job n).running = false ∧
          (t.job n).status = Status.hang.toCode ∧ (∀ m, m ≠ n → t.job m = s.job m) ∧ t = { b with dp := t.dp, jobs := t.jobs }))) ∧
    (s.isManager = true →
      (∃ t, exec (.resetNotice x jobs) s = .next t ∧ x ∈ t.roles.notices ∧ (∀ z, z ∈ s.roles.notices → z ∈ t.roles.notices) ∧
        (∀ j ∈ jobs, x ∈ (t.mgr j).waits ∧ .mgmt .rollbackRequest x (BitVec.ofNat 64 j.toNat) ∈ t.dp.out) ∧
        t = { s with dp := t.dp, roles := { s.roles with notices := t.roles.notices }, mgrs := t.mgrs } ∧ s.dp.Quiet t.dp) ∧
      (∃ t, exec (.moduleReady x) s = .next t ∧ x ∉ t.roles.notices ∧ (∀ j : BitVec 16, x ∉ (t.mgr j).waits) ∧
        t.dp.out = (if s.isMachine = true then s.dp.out else s.dp.out ++ [.mgmt .ready x 0]) ∧
        t = { s with dp := t.dp, roles := { s.roles with notices := t.roles.notices }, mgrs := t.mgrs } ∧ s.dp.Quiet t.dp) ∧
      (x ∈ s.roles.notices → b = { s with roles := { s.roles with notices := s.roles.notices.filter (· != x) } } →
        exec (.resetNoticeTimeout x jobs mirror env) s = .next (b.declareLost x jobs mirror env) ∧ exec (.moduleLost x jobs mirror env) b = .next (b.declareLost x jobs mirror env)) ∧
      (x ∈ s.roles.notices → s.chooseSpare x = some y → ∃ t, exec (.resetNoticeTimeout x jobs none env) s = .next t ∧ x ∉ t.roles.notices ∧
        t.roles.taken = y :: s.roles.taken ∧ (∀ j ∈ jobs, .mgmt .lossReport x (BitVec.ofNat 64 j.toNat) ∈ t.dp.out ∧
          .mgmt .spareWake y (BitVec.ofNat 64 x.toNat) ∈ t.dp.out) ∧ t = { s with dp := t.dp, roles := t.roles, jobs := t.jobs, ckps := t.ckps } ∧ s.dp.Quiet t.dp) ∧
      (roleIn s.roles.loaded s.roles.map (Coord.ofCode x) = .spare → x ∉ s.roles.taken → ∃ t, exec (.degradedReport x atOnce jobs mirror env) s = .next t ∧
        x ∈ t.roles.degraded ∧ t.spareOk x = false ∧ t = { s with roles := { s.roles with degraded := t.roles.degraded } }) ∧
      (roleIn s.roles.loaded s.roles.map (Coord.ofCode x) ≠ .spare ∨ x ∈ s.roles.taken →
        (∃ t, exec (.degradedReport x false jobs mirror env) s = .next t ∧ x ∈ t.roles.degraded ∧ (∀ j ∈ jobs, x ∈ (t.mgr j).replace) ∧
          t = { s with roles := { s.roles with degraded := t.roles.degraded }, mgrs := t.mgrs }) ∧
        (b = { s with roles := { s.roles with degraded := x :: s.roles.degraded.filter (· != x) } } →
          exec (.degradedReport x true jobs mirror env) s = .next (b.declareLost x jobs mirror env))))

/-- A vote of a client 0 to 6 on a domain sets its bit and, where the domain is OFF with its parents ON, powers it up;
withdrawing the last vote powers an ON domain down that no child holds and whose easel is not BUSY. A command of client 7 or of
a domain above 991 changes no domain and is logged; a retired or spare easel takes no vote but Ovind's during its self-test.
When a power-up ends, a domain still wanted is ON and one no longer wanted powers down; when a power-down ends, one no longer
wanted is OFF, and one voted for meanwhile powers up again. Votes of other domains stand. (R446, R447, R448, R449) -/
def Obligations.DomainsFollowTheirVotes : Prop :=
  ∀ (s : State) (c : Fin 8) (d : BitVec 10) (n : Fin 992),
    (c.val ≤ 6 → d.toNat ≤ 991 → (d.toNat < 816 → (s.logicalOf d.toNat).isSome = true ∨ (c.val = 4 ∧ s.spareTested d.toNat = true)) →
      ∃ t, exec (.pwrVoteSet c d) s = .next t ∧
        (t.domain d.toNat).votes = (s.domain d.toNat).votes ||| BitVec.ofNat 7 (2 ^ c.val) ∧
        ((s.domain d.toNat).st = .off → (∀ p ∈ domainParents d.toNat, (s.domain p).st = .on) → (t.domain d.toNat).st = .up) ∧
        (∀ m, m ≠ d.toNat → (t.domain m).votes = (s.domain m).votes) ∧
        t = { s with pwr := { s.pwr with domains := t.pwr.domains } }) ∧
    (c.val ≤ 6 → d.toNat < 816 → s.logicalOf d.toNat = none → c.val ≠ 4 ∨ s.spareTested d.toNat = false → exec (.pwrVoteSet c d) s = .next s) ∧
    (c.val ≤ 6 → d.toNat ≤ 991 →
      ∃ t, exec (.pwrVoteWithdraw c d) s = .next t ∧
        (t.domain d.toNat).votes = (s.domain d.toNat).votes &&& ~~~(BitVec.ofNat 7 (2 ^ c.val)) ∧
        ((s.domain d.toNat).st = .on → (t.domain d.toNat).votes = 0 → s.domainHolds d.toNat = 0 →
          s.domainBusy d.toNat = false → (t.domain d.toNat).st = .down) ∧
        (∀ m, m ≠ d.toNat → (t.domain m).votes = (s.domain m).votes) ∧
        t = { s with pwr := { s.pwr with domains := t.pwr.domains } }) ∧
    (c.val = 7 ∨ 991 < d.toNat → ∀ z ∈ [Instr.pwrVoteSet c d, .pwrVoteWithdraw c d], ∃ t, exec z s = .next t ∧ t = { s with dp := t.dp } ∧ s.dp.Quiet t.dp) ∧
    (∃ t, exec (.domainTransitionDone n) s = .next t ∧ (∀ m, (t.domain m).votes = (s.domain m).votes) ∧
      ((s.domain n).st = .up → s.wanted n = true → (t.domain n).st = .on) ∧
      ((s.domain n).st = .up → s.wanted n = false → s.domainBusy n = false → (t.domain n).st = .down) ∧
      ((s.domain n).st = .down → s.wanted n = false → (t.domain n).st = .off) ∧
      ((s.domain n).st = .down → s.wanted n = true → (∀ p ∈ domainParents n, (s.domain p).st = .on) → (t.domain n).st = .up) ∧
      t = { s with pwr := { s.pwr with domains := t.pwr.domains } })

/-- A P-state step brings the panel to the state it was stepping to and, short of its target, begins the next step of one; no
other panel moves. A droop trip sets DROOP with its counter, stretches the clock of that easel and counts in its counter block
alone; recovery ends the stretch. More than 10 % of stretched cycles in 1 ms is recorded once a second and panel; 10 % or less,
and what comes within that second, changes nothing. (R432, R434, R435) -/
def Obligations.PStatesStepAndDroopStretchesClocks : Prop :=
  ∀ (s : State) (p : Panel) (e : Easel) (f : Fin 1001),
    (∃ t, exec (.pstateStep p) s = .next t ∧ (t.pstate p).tgt = (s.pstate p).tgt ∧ (t.pstate p).req = (s.pstate p).req ∧
      (t.pstate p).cur = (s.pstate p).moving.getD (s.pstate p).cur ∧
      ((t.pstate p).cur.toNat < (s.pstate p).tgt.toNat → (t.pstate p).moving = some ((t.pstate p).cur + 1)) ∧
      ((s.pstate p).tgt.toNat < (t.pstate p).cur.toNat → (t.pstate p).moving = some ((t.pstate p).cur - 1)) ∧
      ((s.pstate p).tgt = (t.pstate p).cur → (t.pstate p).moving = none) ∧
      (∀ q, q ≠ p.val → t.pstate q = s.pstate q) ∧ t = { s with pwr := { s.pwr with pstates := t.pwr.pstates } }) ∧
    (∃ t, exec (.droopTrip e) s = .next t ∧ t.pwr.fDroop = s.pwr.fDroop.hwSet ∧ Sparse.get false t.pwr.stretched e = true ∧
      (∀ x, x ≠ e.val → Sparse.get false t.pwr.stretched x = Sparse.get false s.pwr.stretched x ∧ t.pct x = s.pct x) ∧
      t = { s with pwr := { s.pwr with fDroop := t.pwr.fDroop, stretched := t.pwr.stretched }, pcts := t.pcts }) ∧
    (∃ t, exec (.droopRecovery e) s = .next t ∧ Sparse.get false t.pwr.stretched e = false ∧
      (∀ x, x ≠ e.val → Sparse.get false t.pwr.stretched x = Sparse.get false s.pwr.stretched x) ∧
      t = { s with pwr := { s.pwr with stretched := t.pwr.stretched } }) ∧
    (100 < f.val → (Sparse.get 0 s.pwr.droopRec p = 0 ∨ 1000000 ≤ spanUs (Sparse.get 0 s.pwr.droopRec p - 1) s.dp.now) →
      ∃ t, exec (.droopPersist p f) s = .next t ∧ Sparse.get 0 t.pwr.droopRec p = s.dp.now + 1 ∧
        (∃ l, t.dp = s.dp.record 0x0800 (src 9 p) .ok l) ∧ t = { s with dp := t.dp, pwr := { s.pwr with droopRec := t.pwr.droopRec } }) ∧
    (f.val ≤ 100 ∨ (Sparse.get 0 s.pwr.droopRec p ≠ 0 ∧ spanUs (Sparse.get 0 s.pwr.droopRec p - 1) s.dp.now < 1000000) →
      exec (.droopPersist p f) s = .next s)

/-- A microsecond estimate lowers the throttle by one at 98 % of the peak limit, at the earliest 10 µs after the last lowering,
and raises it by one at 93 %, at the earliest 100 µs after the last change; else the throttle stands. A measurement forms the
value that the controller acts on (the larger of estimate and measurement, or 1.10 times the estimate with a failed sensor, one
that has measured less than 400 W twice with an easel active) and adds the energy to the total and, summed without loss, to the
accounts. The slow loop raises or lowers the cap by one, and every panel then targets the larger index of its request and the
cap; else the cap stands. (R433, R437, R438, R439, R442, R444) -/
def Obligations.TheControllerThrottlesAndCaps : Prop :=
  ∀ (s : State) (c : PowerCounts) (m : BitVec 16) (act : Bool) (sh : List (Part × Nat × Nat)) (n sum : Nat),
    (∃ t, exec (.powerEstimate c) s = .next t ∧ t.pwr.eCnt = s.pwr.eCnt + 1 ∧ t.pwr.eLink = s.pwr.eLink + plainTerm (312500000 * s.poweredLinks) ∧
      t.pwr.eLp = s.pwr.eLp + plainTerm (5300 * c.lpddr + 50000000 * (if s.pwr.mstate = 2 then 16 else 0)) ∧
      t = { s with pwr := t.pwr } ∧ t.pwr.cap = s.pwr.cap ∧ t.pwr.pstates = s.pwr.pstates ∧ t.pwr.acting = s.pwr.acting ∧
      (98 * s.peakNow ≤ 100 * s.pwr.acting → 4 < s.throttle → s.since s.pwr.lastLower 10 = true →
        t.pwr.throttle = s.pwr.throttle - 1 ∧ t.pwr.lastLower = some s.dp.now ∧ t.pwr.lastChange = some s.dp.now ∧
        t.pwr.fPeak = (if s.throttle = 16 then s.pwr.fPeak.hwSet else s.pwr.fPeak)) ∧
      (100 * s.pwr.acting ≤ 93 * s.peakNow → 0 < s.peakNow → s.throttle < 16 → s.since s.pwr.lastChange 100 = true →
        t.pwr.throttle = s.pwr.throttle + 1 ∧ t.pwr.lastChange = some s.dp.now) ∧
      (100 * s.pwr.acting < 98 * s.peakNow ∨ s.throttle ≤ 4 ∨ s.since s.pwr.lastLower 10 = false →
        93 * s.peakNow < 100 * s.pwr.acting ∨ 16 ≤ s.throttle ∨ s.since s.pwr.lastChange 100 = false →
        t.pwr.throttle = s.pwr.throttle ∧ t.pwr.lastChange = s.pwr.lastChange)) ∧
    (∃ t, exec (.powerMeasurement m act sh) s = .next t ∧ t.pwr.measured = m ∧
      (t.pwr.failed = true ↔ s.pwr.failed = true ∨ (act = true ∧ m.toNat < 400 ∧ 1 ≤ s.pwr.lowRuns)) ∧
      t.pwr.acting = (if t.pwr.failed then 110 * s.estimateMean else 100 * max s.estimateMean m.toNat) ∧
      (∃ e, e = 1000 * (if t.pwr.failed then t.pwr.estimate.toNat else m.toNat) ∧
        Sparse.get 0 t.pwr.energy 5 = Sparse.get 0 s.pwr.energy 5 + e ∧
        ((List.range 5).map fun k => Sparse.get 0 t.pwr.energy k).sum = ((List.range 5).map fun k => Sparse.get 0 s.pwr.energy k).sum + e) ∧
      t.pwr.eCnt = 0 ∧ t.pwr.est = [] ∧ t = { s with dp := t.dp, pwr := t.pwr } ∧ s.dp.Quiet t.dp) ∧
    (n = max s.pwr.hist.length 1 → sum = s.pwr.hist.foldl (· + ·) 0 →
      ∃ t, exec .slowLoop s = .next t ∧
        (99 * s.pwr.sus.toNat * n < sum → 97 * s.pwr.sus.toNat < s.pwr.acting → s.pwr.cap.toNat < 15 →
          t.pwr.cap = s.pwr.cap + 1 ∧ t.pwr.fSus = s.pwr.fSus.hwSet ∧
          ∀ p : Panel, (t.pstate p).tgt.toNat = max (s.pstate p).req.toNat (s.pwr.cap + 1).toNat ∧
            (t.pstate p).req = (s.pstate p).req ∧ (t.pstate p).cur = (s.pstate p).cur) ∧
        (sum < 95 * s.pwr.sus.toNat * n → s.pwr.acting < 93 * s.pwr.sus.toNat → s.throttle = 16 → 0 < s.pwr.cap.toNat →
          t.pwr.cap = s.pwr.cap - 1 ∧
          ∀ p : Panel, (t.pstate p).tgt.toNat = max (s.pstate p).req.toNat (s.pwr.cap - 1).toNat) ∧
        (sum ≤ 99 * s.pwr.sus.toNat * n ∨ s.pwr.acting ≤ 97 * s.pwr.sus.toNat ∨ s.pwr.cap = 15 →
          95 * s.pwr.sus.toNat * n ≤ sum ∨ 93 * s.pwr.sus.toNat ≤ s.pwr.acting ∨ s.throttle < 16 ∨ s.pwr.cap = 0 →
          t.pwr.cap = s.pwr.cap ∧ t.pwr.pstates = s.pwr.pstates) ∧
        t.pwr.throttle = s.pwr.throttle ∧ t = { s with dp := t.dp, pwr := t.pwr } ∧ s.dp.Quiet t.dp)

/-- With no partition running the module goes from M0 to M1. The DORMANT command starts the entry of a spare to M2 with its
alarm set HOURS ahead. The end of an entry to M2 leaves easel domains OFF and ON glazes in RETENTION, and keeps memory but the
scratch; the end of an entry to M3 leaves the module at ST0. Either starts the exit at once when a wake was latched. The end of
an exit at ST5 is M0 with retention ended; a manager returns as a worker. The RTC alarm, keepalive and tray wakes start the exit
from M2 under their source numbers (from M3 only alarm and tray); during an entry the first is latched and LATE is set; during
an exit and in M0 only the source is noted, but a running self-test is abandoned. A finished self-test retires failed spares,
sets the next alarm and returns to M2. Outside these conditions nothing changes. (R24, R44, R453, R454, R455, R456) -/
def Obligations.ModuleStatesEnterAndExit : Prop :=
  (∀ (w : State) (n : Nat) (bit : BitVec 4), n ∈ [1, 2, 3, 4] → bit = BitVec.ofNat 4 (2 ^ (n - 1)) →
    (∀ d, w.pwr.trans = some (.entry d) → w.wake n = { w with pwr := { w.pwr with
      latched := some (w.pwr.latched.getD (BitVec.ofNat 4 n)), late := w.pwr.late.hwSet, arrived := w.pwr.arrived ||| bit } }) ∧
    (w.pwr.trans = some .exit → w.wake n = { w with pwr := { w.pwr with arrived := w.pwr.arrived ||| bit } }) ∧
    (w.pwr.trans = none → w.pwr.mstate = 2 → ∃ t, w.wake n = t ∧ t.pwr = { w.pwr with trans := some .exit, lastSource := BitVec.ofNat 4 n, arrived := w.pwr.arrived ||| bit, sources := w.pwr.arrived ||| bit, latched := none } ∧
        t = { w with dp := t.dp, pwr := t.pwr } ∧ w.dp.Quiet t.dp) ∧
    (w.pwr.trans = none → w.pwr.mstate = 3 → n = 1 ∨ n = 4 → ∃ t, w.wake n = t ∧ t.pwr.trans = some .exit ∧ t.pwr.lastSource = BitVec.ofNat 4 n ∧
      (w.elec.mainGood = true → t.stage = 0 ∧ t.pwr.mstate = 0) ∧ (w.elec.mainGood = false → t.elec.startDue = true ∧ t.pwr.mstate = 3) ∧
      t = { w with dp := t.dp, pwr := t.pwr, elec := t.elec, stage := t.stage } ∧ w.dp.Quiet t.dp) ∧
    (w.pwr.trans = none → (w.pwr.mstate = 3 ∧ n ≠ 1 ∧ n ≠ 4) ∨ (w.pwr.mstate.toNat ≤ 1 ∧ (w.pwr.selfTest = false ∨ n = 1)) →
      w.wake n = { w with pwr := { w.pwr with arrived := w.pwr.arrived ||| bit } }) ∧
    (w.pwr.trans = none → w.pwr.mstate.toNat ≤ 1 → w.pwr.selfTest = true → n ≠ 1 →
      ∃ t, w.wake n = t ∧ t.pwr = { w.pwr with arrived := w.pwr.arrived ||| bit, selfTest := false } ∧ t = { w with dp := t.dp, pwr := t.pwr } ∧ t.dp.mem = w.dp.mem)) ∧
  ∀ (s u : State) (x : BitVec 4) (fs : List Panel) (rs : List ItemResult) (inp : ResetIn) (env : Env), u = { s with dp := s.dp.upsets env.upsets } →
    (s.pwr.mstate = 0 → s.pwr.trans = none → s.pwr.selfTest = false → (∀ k : Part, (s.job k).running = false) →
      ∃ t, exec .idleEntry s = .next t ∧ t.pwr = { s.pwr with mstate := 1, clocksGated := true } ∧
        t = { s with dp := t.dp, pwr := t.pwr } ∧ s.dp.Quiet t.dp) ∧
    (s.pwr.mstate ≠ 0 ∨ s.pwr.trans ≠ none ∨ s.pwr.selfTest = true ∨ (∃ k : Part, (s.job k).running = true) → exec .idleEntry s = .next s) ∧
    (s.roles.role = .spare → s.pwr.mstate.toNat ≤ 1 → s.pwr.trans = none → s.partitionExists = false →
      ∃ t, exec .dormantCommand s = .next t ∧ t.pwr = { s.pwr with
          trans := some (.entry 2), arrived := 0, selfTest := false, alarmOn := true
          alarmAt := BitVec.ofNat 63 (s.pwr.rtc.toNat + 3600000 * s.pwr.hours.toNat) } ∧
        t.dp.evr.buffer = [] ∧ t = { s with dp := t.dp, pwr := t.pwr } ∧ s.dp.Quiet t.dp) ∧
    (s.roles.role ≠ .spare ∨ 2 ≤ s.pwr.mstate.toNat ∨ s.pwr.trans ≠ none ∨ s.partitionExists = true → exec .dormantCommand s = .next s) ∧
    (s.pwr.trans = some (.entry 2) → s.pwr.latched = none →
      ∃ t, exec .mstateEntryDone s = .next t ∧ t.pwr = { s.pwr with mstate := 2, trans := none, domains := t.pwr.domains } ∧
        (∀ n, n < 816 → t.domain n = {}) ∧ (∀ n, 864 ≤ n → n < 912 → (s.domain n).st = .on → (t.domain n).st = .retention) ∧
        t = { s with dp := { s.dp with mem := s.dp.mem.dropScratch }, pwr := t.pwr }) ∧
    (s.pwr.trans = some (.entry 2) → s.pwr.latched = some x →
      ∃ t, exec .mstateEntryDone s = .next t ∧ t.pwr.mstate = 2 ∧ t.pwr.trans = some .exit ∧ t.pwr.lastSource = x ∧
        t.pwr.sources = s.pwr.arrived ∧ t.pwr.latched = none ∧ t.dp.mem = s.dp.mem.dropScratch ∧ t = { s with dp := t.dp, pwr := t.pwr }) ∧
    (s.pwr.trans = some (.entry 3) → ∃ t, exec .mstateEntryDone s = .next t ∧ t.stage = 0 ∧ t.elec.cold = true ∧ t.flash = s.flash ∧
      t.sec.otp = s.sec.otp ∧ (s.pwr.latched = none → t.pwr.mstate = 3 ∧ t.pwr.trans = none ∧ t.dp.evr.buffer = []) ∧
      (s.pwr.latched = some x → t.pwr.trans = some .exit ∧ t.pwr.lastSource = x ∧ t.pwr.sources = s.pwr.arrived)) ∧
    ((∀ d, s.pwr.trans ≠ some (.entry d)) → exec .mstateEntryDone s = .next s) ∧
    (s.pwr.trans = some .exit → s.stage = 5 → ∃ t, exec .wakeExitDone s = .next t ∧ t.pwr.mstate = 0 ∧ t.pwr.trans = none ∧
      t.pwr.clocksGated = false ∧ (s.pwr.mstate = 2 → ∀ n, (t.domain n).st ≠ .retention) ∧ t.dp.mem = s.dp.mem ∧
      t.roles = { s.roles with role := returnedRole s.roles.role } ∧ (t.pwr.selfTest = true ↔ s.roles.role = .spare ∧ s.pwr.lastSource = 1) ∧
      (s.pwr.mstate ≠ 2 → t.pwr.domains = s.pwr.domains ∧ t.lnk = s.lnk) ∧ t = { s with dp := t.dp, lnk := t.lnk, pwr := t.pwr, roles := t.roles }) ∧
    (s.pwr.trans ≠ some .exit ∨ s.stage ≠ 5 → exec .wakeExitDone s = .next s) ∧
    (s.pwr.alarmOn = true → s.pwr.alarmAt.toNat ≤ s.pwr.rtc.toNat →
      exec .rtcAlarm s = .next (({ s with pwr := { s.pwr with alarmOn := false } } : State).wake 1)) ∧
    (s.pwr.alarmOn = false ∨ s.pwr.rtc.toNat < s.pwr.alarmAt.toNat → exec .rtcAlarm s = .next s) ∧
    exec .keepaliveWake s = .next (s.wake 3) ∧ exec .trayWake s = .next (s.wake 4) ∧
    (s.pwr.selfTest = false → exec (.selfTestDone fs rs inp env) s = .next u) ∧
    (s.pwr.selfTest = true → ∃ t, exec (.selfTestDone fs rs inp env) s = .next t ∧
      t.pwr.trans = some (.entry 2) ∧ t.pwr.arrived = 0 ∧ t.pwr.selfTest = false ∧ (∀ p ∈ fs, (t.panelMap p).spare = 0x1F) ∧
      (s.roles.role = .spare → t.pwr.alarmOn = true ∧ t.pwr.alarmAt = BitVec.ofNat 63 (s.pwr.rtc.toNat + 3600000 * s.pwr.hours.toNat)) ∧
      (s.currentTpk 1 = none ∨ rs = [] → t.dp.mem = u.dp.mem ∧ t.dp.wet = s.dp.wet ∧ t.jobs = s.jobs ∧ t.eqs = s.eqs))

/-- ST1 samples the straps, takes HOLD and ERASED from flash and logs RESUME first when a resume is due; it waits for its
supplies. ST2 starts the firmware when the image passes every check, and recovery mode otherwise. ST3 brings region and job
tables back from flash, zeroes glaze and keeps LPDDR5X (a package that fails training is retired, a spare that fails its
self-test too). ST4 votes for each link group with an enabled link and sets the start delay from the serial number. ST5 chooses
the owner, draws SEC_NONCE, ends the reset in progress and sends READY. In any other stage each of these changes nothing. (R307,
R446, R473, R480, R483, R487, R506) -/
def Obligations.StartUpPassesThroughItsStages : Prop :=
  ∀ (s u : State) (straps : Coord) (ok : Bool) (failing : List (BitVec 8)) (fs : List Panel) (fp : List (Fin 16)) (rf : List Nat) (env : Env),
    u = { s with dp := s.dp.upsets env.upsets } →
    (2 ≤ s.stage ∨ s.elec.stby = false ∨ s.elec.mainGood = false ∨ s.elec.convOff = true ∨ s.elec.startDue = true ∨ s.elec.pwrReq = true ∨ s.pwr.mstate ≠ 0 →
      exec (.startSt1 straps ok failing) s = .next s) ∧
    (s.stage ≤ 1 → s.elec.stby = true → s.elec.mainGood = true → s.elec.convOff = false → s.elec.startDue = false → s.elec.pwrReq = false → s.pwr.mstate = 0 →
      ∃ t, exec (.startSt1 straps ok failing) s = .next t ∧
      t.stage = 1 ∧ t.dp.coord = straps ∧ t.sec.hold = s.flash.hold ∧ t.sec.erased = s.flash.erased ∧ t.dp.mem = s.dp.mem ∧
      t.mbx = { s.mbx with fault := !ok || t.otpBad } ∧ (s.dp.evr.due = none → t.dp.evr = s.dp.evr) ∧ (failing = [] → t.sec.otp = s.sec.otp) ∧
      (s.dp.evr.due.isSome = true → (Evr.resume s.dp.evr).full = false →
        ∃ r, t.dp.evr.buffer = [r] ∧ r.type = 1 ∧ r.seq = (Evr.resume s.dp.evr).nextSeq) ∧
      t.roles = { s.roles with role := if s.roles.waiting = true ∨ straps = s.dp.coord then s.roles.role else roleIn s.roles.loaded s.roles.map straps } ∧
      t = { s with stage := 1, dp := t.dp, sec := t.sec, roles := t.roles, mbx := t.mbx }) ∧
    (s.stage = 1 → s.mbx.fault = false → s.elec.pwrReq = false → ∃ t, exec .startSt2 s = .next t ∧ t.stage = 2 ∧
      (s.imageCheck s.flash.image = 0 → t.sec.attKey = true ∧ t.mbx = s.mbx ∧ t.dp = s.dp ∧
        t.fw.header = imageBytes s.flash.image 128) ∧
      (s.imageCheck s.flash.image ≠ 0 → t = { s with stage := 2, dp := t.dp, mbx := { s.mbx with recovery := true } } ∧ s.dp.Quiet t.dp)) ∧
    (s.stage ≠ 1 ∨ s.mbx.fault = true ∨ s.elec.pwrReq = true → exec .startSt2 s = .next s) ∧
    (s.stage ≠ 2 ∨ s.mbx.recovery = true → exec (.startSt3 fs fp rf env) s = .next u) ∧
    (s.stage = 2 → s.mbx.recovery = false → ∃ t, exec (.startSt3 fs fp rf env) s = .next t ∧ t.stage = 3 ∧ t.elec = { s.elec with cold := false } ∧
      t.sec = { s.sec with held := [] } ∧ t.dp.mem.jobs = s.flash.jobs ∧ t.dp.obs = s.flash.obs ∧ (∀ p ∈ fs, (t.panelMap p).spare = 0x1F) ∧
      (∀ n ∈ fp, ∀ g, 32768 * n.val ≤ g → g < 32768 * (n.val + 1) → t.dp.mem.regionOf g = 7) ∧ (fp ≠ [] → t.integ.degraded = true) ∧
      (∀ f ∈ [0, 1, 2, 3], (t.domain (912 + 20 * f + 15)).votes.getLsbD 4 = true) ∧
      (∀ k : Part, (s.job k).used = true → (t.job k).varOpen = []) ∧
      ((∀ k : Part, (s.job k).varOpen = []) → s.elec.cold = false →
        (∀ a, inGlaze a = true → t.dp.mem.byte a = 0) ∧ (∀ a, inGlaze a = false → t.dp.mem.byte a = u.dp.mem.byte a) ∧ (fp = [] → t.dp.mem.region = s.flash.region)) ∧
      t = { s with stage := 3, dp := t.dp, sec := t.sec, emap := t.emap, pwr := t.pwr, elec := t.elec, integ := t.integ, flash := t.flash, jobs := t.jobs }) ∧
    (s.stage = 3 → ∃ t, exec .startSt4 s = .next t ∧ t.stage = 4 ∧
      (∀ n : Link, (s.link n).enable = true → (t.domain (912 + 20 * (n.val / 24) + n.val % 24 / 4)).votes.getLsbD 5 = true) ∧
      t.lnk = { s.lnk with delayMs := startDelay s.dp.serial } ∧ t.pwr = { s.pwr with domains := t.pwr.domains } ∧
      t = { s with stage := 4, dp := t.dp, pwr := t.pwr, lnk := t.lnk } ∧ s.dp.Quiet t.dp) ∧
    (s.stage ≠ 3 → exec .startSt4 s = .next s) ∧
    (s.stage = 4 → ∃ t, exec .startSt5 s = .next t ∧ t.stage = 5 ∧ t.mbx = { s.mbx with owner := s.mbx.firstOwner } ∧
      t.sec = { s.sec with nonce := Config.freeWord s.dp.freeCtr } ∧ .mgmt .ready s.dp.coord.code 0 ∈ t.dp.out ∧ t.dp.mem = s.dp.mem ∧
      (∀ e ∈ t.wdg.episodes, e.level < 4) ∧ (∀ m, s.roles.pendingMap = some m → t.roles.map = m ∧ t.roles.role = roleIn true m s.dp.coord) ∧
      t = { s with stage := 5, dp := t.dp, mbx := t.mbx, sec := t.sec, wdg := t.wdg, roles := t.roles }) ∧
    (s.stage ≠ 4 → exec .startSt5 s = .next s)

/-- Where start-up runs and no module reset is in progress, the timeout is a module reset with ST_HANG that keeps LPDDR5X;
within a module reset it asserts TRAY_PWR_REQ; at ST5, in M1 to M3, in recovery mode, while ST1 is held and while the request
stands it changes nothing. A port whose link comes up is up, and takes ownership at ST5 when there is no owner. The hold of
recovery mode ends. (R418, R427, R473, R482, R484) -/
def Obligations.StartUpTimesOutIntoResets : Prop :=
  ∀ (s : State) (inp : ResetIn) (env : Env) (p : Port) (e : Episode),
    (s.stage = 5 ∨ s.pwr.mstate ≠ 0 ∨ s.mbx.recovery = true ∨ s.mbx.fault = true ∨ s.elec.pwrReq = true → exec (.startupTimeout inp env) s = .next s) ∧
    (s.stage ≠ 5 → s.pwr.mstate = 0 → s.mbx.recovery = false → s.mbx.fault = false → s.elec.pwrReq = false →
      ((∀ y ∈ s.wdg.episodes, y.level < 4) → ∃ t, exec (.startupTimeout inp env) s = .next t ∧ t.stage = 1 ∧ t.wdg.level = 4 ∧
        t.wdg.status = Status.hang.toCode ∧ t.wdg.moduleResets = satInc s.wdg.moduleResets ∧ t.flash = s.flash ∧ t.sec.otp = s.sec.otp ∧
        ∀ a, a < scratchBase → t.dp.mem.byte a = s.dp.mem.byte a) ∧
      ((s.wdg.episodes.find? fun y => y.level == 4 && y.target == 0) = some e → (∀ y ∈ s.wdg.episodes, y.level < 5) →
        ∃ t, exec (.startupTimeout inp env) s = .next t ∧ t.elec.pwrReq = true ∧
        t.wdg.level = 5 ∧ t.wdg.status = Status.resetEscalated.toCode ∧ t.dp.evr.buffer = [] ∧ t.flash = s.flash) ∧
      ((∀ y ∈ s.wdg.episodes, y.level ≠ 4) → (∃ y ∈ s.wdg.episodes, 5 ≤ y.level) → ∃ t, exec (.startupTimeout inp env) s = .next t ∧
        t = { s with dp := t.dp } ∧ s.dp.Quiet t.dp)) ∧
    (∃ t, exec (.pcieLinkUp p) s = .next t ∧ t.port p = { s.port p with up := true } ∧ t.port (portOther p) = s.port (portOther p) ∧
      t.mbx.owner = (if s.mbx.owner = none ∧ s.stage = 5 then some p else s.mbx.owner) ∧
      t = { s with mbx := { s.mbx with a := t.mbx.a, b := t.mbx.b, owner := t.mbx.owner } }) ∧
    (∃ t, exec .recoveryHoldExpiry s = .next t ∧ t = { s with mbx := { s.mbx with holder := none } })

/-- FW_UPDATE_BEGIN takes the size and turns the unassigned LPDDR5X granules it is given into reserved area, those of an update
before it being free again; in recovery mode it erases the image area and holds recovery for its host. FW_UPDATE_DATA writes the
bytes at their offset of the staged image, in recovery mode of the flash. FW_UPDATE_COMMIT of a complete image starts
programming when every check passes, in recovery mode restarts the module; one that fails a check leaves the flash image as it
was. After programming flash holds the staged image. A hold of the security logic, another host's hold of recovery, a partition,
a wrong size, range or length end each with its own status; what names no such command changes nothing. (R479, R480, R481, R482)
-/
def Obligations.FirmwareUpdatesStageCheckAndProgram : Prop :=
  ∀ (s : State) (seq : BitVec 48) (c : Cmd) (gs : List Nat) (off n : Nat),
    (∀ z ∈ [(0x92, Instr.fwUpdateBegin seq gs), (0x93, .fwUpdateData seq), (0x94, .fwUpdateCommit seq)],
      (s.cmdReady seq z.1 = none → exec z.2 s = .next s) ∧
      (s.Ready seq z.1 c → s.sec.hold = true → ∃ t, exec z.2 s = .next t ∧ OnlyAnswers s t c .alarm []) ∧
      (s.Ready seq z.1 c → s.sec.hold = false → s.heldByOther c = true → ∃ t, exec z.2 s = .next t ∧ OnlyAnswers s t c .mbxBusy [])) ∧
    (s.Ready seq 0x92 c → s.sec.hold = false → s.heldByOther c = false →
      (s.partitionExists = true → ∃ t, exec (.fwUpdateBegin seq gs) s = .next t ∧ OnlyAnswers s t c .mbxBusy []) ∧
      (s.partitionExists = false → fwSizeOk (fld c.req.payload 0 4) = false → ∃ t, exec (.fwUpdateBegin seq gs) s = .next t ∧ OnlyAnswers s t c .fieldReserved []) ∧
      (s.partitionExists = false → fwSizeOk (fld c.req.payload 0 4) = true → ∃ t, exec (.fwUpdateBegin seq gs) s = .next t ∧ Answered s t c .ok [] ∧
        t.mbx.fwSize = some (fld c.req.payload 0 4) ∧
        (s.mbx.recovery = true → t.mbx.holder = some c.port ∧ t.flash = { s.flash with image := [] } ∧ t = { s with dp := t.dp, mbx := t.mbx, flash := t.flash } ∧ s.dp.Quiet t.dp) ∧
        (s.mbx.recovery = false → t.mbx.staged = [] ∧
          (∀ g, t.dp.mem.regionOf g = if g ∈ gs ∧ g < 524288 ∧ (s.dp.mem.regionOf g = 0 ∨ g ∈ s.mbx.fwGranules) then 6
            else if g ∈ s.mbx.fwGranules then 0 else s.dp.mem.regionOf g) ∧ t = { s with dp := t.dp, mbx := t.mbx }))) ∧
    (s.Ready seq 0x93 c → s.sec.hold = false → s.heldByOther c = false → off = fld c.req.payload 0 4 → n = fld c.req.payload 4 4 →
      (n = 0 → ∃ t, exec (.fwUpdateData seq) s = .next t ∧ OnlyAnswers s t c .ok []) ∧
      (0 < n → s.mbx.fwSize.getD 0 < off + n → ∃ t, exec (.fwUpdateData seq) s = .next t ∧ OnlyAnswers s t c .bounds []) ∧
      (0 < n → off + n ≤ s.mbx.fwSize.getD 0 → c.req.payload.length = 8 + n → ∃ t img old, exec (.fwUpdateData seq) s = .next t ∧ Answered s t c .ok [] ∧
        (s.mbx.recovery = false → img = t.mbx.staged ∧ old = s.mbx.staged ∧ t = { s with dp := t.dp, mbx := t.mbx }) ∧
        (s.mbx.recovery = true → img = t.flash.image ∧ old = s.flash.image ∧ t = { s with dp := t.dp, mbx := t.mbx, flash := { s.flash with image := img } }) ∧
        (∀ i, i < n → Sparse.get 0xFF img (off + i) = c.req.payload.getD (8 + i) 0) ∧
        (∀ i, i < off ∨ off + n ≤ i → Sparse.get 0xFF img i = Sparse.get 0xFF old i) ∧ t.mbx.fwSize = s.mbx.fwSize ∧ s.dp.Quiet t.dp)) ∧
    (s.Ready seq 0x94 c → s.sec.hold = false → s.heldByOther c = false →
      (s.fwShort (if s.mbx.recovery = true then s.flash.image else s.mbx.staged) = true → ∃ t, exec (.fwUpdateCommit seq) s = .next t ∧ OnlyAnswers s t c .fieldReserved []) ∧
      (s.mbx.recovery = false → s.mbx.fwSize = some s.mbx.staged.length → ∃ t, exec (.fwUpdateCommit seq) s = .next t ∧
        (s.imageCheck s.mbx.staged = 0 → t.mbx.programming = true ∧ t.flash = { s.flash with image := [] } ∧ t.mbx.staged = s.mbx.staged ∧
          t = { s with mbx := t.mbx, flash := t.flash }) ∧
        (s.imageCheck s.mbx.staged ∈ [1, 2, 3] → Answered s t c .fieldReserved []) ∧
        (s.imageCheck s.mbx.staged ≠ 0 → t.flash.image = s.flash.image ∧ t.mbx.fwSize = none)) ∧
      (s.mbx.recovery = true → s.mbx.fwSize = some s.flash.image.length → ∃ t, exec (.fwUpdateCommit seq) s = .next t ∧ t.flash.image = s.flash.image ∧
        (s.imageCheck s.flash.image = 0 → t.stage = 1 ∧ t.mbx.recovery = false) ∧
        (s.imageCheck s.flash.image ∈ [1, 2, 3] → t.mbx.recovery = true ∧ t.mbx.holder = none ∧ Answered s t c .fieldReserved []))) ∧
    (s.cmdWaiting seq 0x94 = none → exec (.fwFlashProgramDone seq) s = .next s) ∧
    (s.Waits seq 0x94 c → ∃ t, exec (.fwFlashProgramDone seq) s = .next t ∧ Answered s t c .ok (fwVersions s.mbx.staged) ∧
      t.flash = { s.flash with image := s.mbx.staged } ∧ t.mbx.programming = false ∧ t.mbx.fwSize = none ∧ t = { s with dp := t.dp, mbx := t.mbx, flash := t.flash })

/-- A post to a FREE slot makes it POSTED with its request and is a wake source; to another slot it is discarded and counted.
Acceptance takes the next POSTED slot in turn, gives it the next SEQ and, when the checks pass, leaves it ACCEPTED; a command
that fails a check is DONE with that status at once; with no POSTED slot, or in M2 and M3, nothing is accepted. FREE written to
a DONE slot frees it, to a FREE slot it changes nothing, else it is discarded. Unmasking sends the pending message. A port reset
frees the slots of its port and takes the response of its accepted commands, and leaves the other port as it is. (R453, R458,
R465, R467, R468, R469, R471) -/
def Obligations.SlotsPassFromFreeToDone : Prop :=
  ∀ (s : State) (p : Port) (n : Fin 8) (q : SlotReq) (v : Fin 64) (down : Bool) (o : Port) (m : Nat),
    ((s.slot p n).st = .free → ∃ a : State, a.slot p n = { st := .posted, req := q } ∧ (∀ o m, (o, m) ≠ (p, n.val) → a.slot o m = s.slot o m) ∧
      a = { s with mbx := { s.mbx with a := a.mbx.a, b := a.mbx.b } } ∧ exec (.slotPost p n q) s = .next (a.wake 2) ∧
      ∃ t, exec (.slotPost p n q) s = .next t ∧ t.slot p n = { st := .posted, req := q } ∧
        (∀ o m, (o, m) ≠ (p, n.val) → t.slot o m = s.slot o m) ∧ t.dp.mem = s.dp.mem ∧ t.mbx.cmds = s.mbx.cmds) ∧
    ((s.slot p n).st ≠ .free → ∃ t, exec (.slotPost p n q) s = .next t ∧ t.port p = { s.port p with
        discards := (s.port p).discards + 1, fDiscard := (s.port p).fDiscard.hwSet } ∧ t.port (portOther p) = s.port (portOther p) ∧
      t = { s with mbx := { s.mbx with a := t.mbx.a, b := t.mbx.b } }) ∧
    (2 ≤ s.pwr.mstate.toNat ∨ s.nextSlot = none → exec .slotAccept s = .next s) ∧
    (s.pwr.mstate.toNat ≤ 1 → s.nextSlot = some (o, m) → s.cmdCheck o m (s.slot o m).req = .ok →
      ∃ t, exec .slotAccept s = .next t ∧ t.slot o m = { s.slot o m with st := .accepted, seq := s.mbx.nextSeq } ∧
        t.mbx.nextSeq = s.mbx.nextSeq + 1 ∧ t.mbx.last = 8 * portNo o + m ∧
        (∃ c : Cmd, t.mbx.cmds = s.mbx.cmds ++ [c] ∧ c.seq = s.mbx.nextSeq ∧ c.port = o ∧ c.slot = m ∧ c.req = (s.slot o m).req ∧ c.live = true) ∧
        t = { s with mbx := t.mbx } ∧ ∀ x y, (x, y) ≠ (o, m) → t.slot x y = s.slot x y) ∧
    (s.pwr.mstate.toNat ≤ 1 → s.nextSlot = some (o, m) → s.cmdCheck o m (s.slot o m).req ≠ .ok → s.cmdCheck o m (s.slot o m).req ≠ .auth →
      (∀ x ∈ s.mbx.cmds, x.seq ≠ s.mbx.nextSeq) → ∃ t, exec .slotAccept s = .next t ∧ (t.slot o m).st = .done ∧
        (t.slot o m).status = (s.cmdCheck o m (s.slot o m).req).toCode ∧ (t.slot o m).seq = s.mbx.nextSeq ∧ (t.slot o m).resp = [] ∧
        t.mbx.nextSeq = s.mbx.nextSeq + 1 ∧ t.mbx.cmds = s.mbx.cmds ∧ t = { s with dp := t.dp, mbx := t.mbx } ∧ s.dp.Quiet t.dp ∧
        ∀ x y, (x, y) ≠ (o, m) → t.slot x y = s.slot x y) ∧
    ((s.slot p n).st = .done → ∃ t, exec (.slotFree p n) s = .next t ∧ t.slot p n = {} ∧
      (∀ o m, (o, m) ≠ (p, n.val) → t.slot o m = s.slot o m) ∧ t = { s with mbx := { s.mbx with a := t.mbx.a, b := t.mbx.b } }) ∧
    ((s.slot p n).st = .free → exec (.slotFree p n) s = .next s) ∧
    (∀ z ∈ [Instr.bar0Discard p, .slotFree p n], z = .bar0Discard p ∨ (s.slot p n).st = .posted ∨ (s.slot p n).st = .accepted →
      ∃ t, exec z s = .next t ∧ t.port p = { s.port p with
        discards := (s.port p).discards + 1, fDiscard := (s.port p).fDiscard.hwSet } ∧ t.port (portOther p) = s.port (portOther p) ∧
      t = { s with mbx := { s.mbx with a := t.mbx.a, b := t.mbx.b } }) ∧
    (∃ t, exec (.msixUnmask p v) s = .next t ∧ (Sparse.get {} (t.dp.msix p) v).masked = false ∧
      (Sparse.get {} (t.dp.msix p) v).pending = false ∧ t.dp.msix (portOther p) = s.dp.msix (portOther p) ∧
      t.dp.out = s.dp.out ++ (if (Sparse.get {} (s.dp.msix p) v).pending then
        [.msix p v (Sparse.get {} (s.dp.msix p) v).addr (Sparse.get {} (s.dp.msix p) v).data] else []) ∧
      t = { s with dp := t.dp } ∧ s.dp.Quiet t.dp) ∧
    (∃ t, exec (.portReset p down) s = .next t ∧ (∀ m, t.slot p m = {}) ∧ (t.port p).segs = [] ∧
      (t.port p).up = ((s.port p).up && !down) ∧ t.port (portOther p) = s.port (portOther p) ∧ t.dp.msix p = [] ∧
      (∀ c ∈ t.mbx.cmds, c.port = p → c.live = false) ∧ t.mbx.owner = s.mbx.owner ∧ t.mbx.cmds.length = s.mbx.cmds.length ∧
      t = { s with dp := t.dp, mbx := t.mbx } ∧ s.dp.Quiet t.dp)

/-- The owner's heartbeat restarts the age and clears LAPSED; the peer's is discarded. At 5,000 ms LAPSED is set, when there is
an owner. TAKE_OWNERSHIP of the owner answers at once; it passes ownership at once when there is no owner or its heartbeat
lapsed, and otherwise asks the owner and waits. RELEASE_OWNERSHIP with answer 0 passes ownership to the host that asks, with
answer 1 fails the take with ST_NOT_OWNER; so does a second of silence. With no take that waits, answer 0 hands ownership to the
other host where its link is up and fails with ST_MBX_BUSY where it is not; answer 1 changes nothing. (R473, R474, R475, R476)
-/
def Obligations.OwnershipPassesOnAnswerOrLapse : Prop :=
  ∀ (s : State) (p o : Port) (v : BitVec 32) (seq : BitVec 48) (c w : Cmd),
    (s.isOwner p = true → ∃ t, exec (.mbxHeartbeat p v) s = .next t ∧ t = { s with mbx := { s.mbx with ageMs := 0, lapsed := false } }) ∧
    (s.isOwner p = false → ∃ t, exec (.mbxHeartbeat p v) s = .next t ∧ t.port p = { s.port p with
        discards := (s.port p).discards + 1, fDiscard := (s.port p).fDiscard.hwSet } ∧ t.port (portOther p) = s.port (portOther p) ∧
      t = { s with mbx := { s.mbx with a := t.mbx.a, b := t.mbx.b } }) ∧
    (s.mbx.owner = none → exec .ownerLapse s = .next s) ∧
    (s.mbx.owner ≠ none → ∃ t, exec .ownerLapse s = .next t ∧ t.mbx.lapsed = true ∧ 5000 ≤ t.mbx.ageMs.toNat ∧ t.mbx.owner = s.mbx.owner ∧
      t = { s with mbx := { s.mbx with lapsed := true, ageMs := t.mbx.ageMs } }) ∧
    (s.cmdReady seq 0x03 = none → exec (.takeOwnership seq) s = .next s) ∧ (s.cmdReady seq 0x04 = none → exec (.releaseOwnership seq) s = .next s) ∧
    (s.takeCmd = none → exec .ownershipAnswerTimeout s = .next s) ∧
    (s.Ready seq 0x03 c → s.isOwner c.port = true → ∃ t, exec (.takeOwnership seq) s = .next t ∧ OnlyAnswers s t c .ok []) ∧
    (s.Ready seq 0x03 c → s.isOwner c.port = false → s.mbx.lapsed = true ∨ s.mbx.owner = none →
      ∃ t, exec (.takeOwnership seq) s = .next t ∧ Answered s t c .ok [] ∧ t.mbx.owner = some c.port ∧ t.mbx.lapsed = false ∧
        (∀ x, (t.port x).fOwner = (s.port x).fOwner.hwSet) ∧ t = { s with dp := t.dp, mbx := t.mbx } ∧ s.dp.Quiet t.dp) ∧
    (s.Ready seq 0x03 c → s.mbx.owner = some o → o ≠ c.port → s.mbx.lapsed = false →
      ∃ t, exec (.takeOwnership seq) s = .next t ∧ t.mbx.take = some seq ∧ t.mbx.owner = some o ∧
        (∀ x n, t.slot x n = s.slot x n) ∧ t = { s with dp := t.dp, mbx := t.mbx } ∧ s.dp.Quiet t.dp) ∧
    (s.Ready seq 0x04 c → s.takeCmd = some w → w.live = true → w.seq ≠ c.seq → (w.port, w.slot) ≠ (c.port, c.slot) →
      ∃ t, exec (.releaseOwnership seq) s = .next t ∧ (t.slot c.port c.slot).st = .done ∧ (t.slot c.port c.slot).status = Status.ok.toCode ∧
        (t.slot w.port w.slot).st = .done ∧ t.mbx.take = none ∧
        (fld c.req.payload 0 1 = 0 → t.mbx.owner = some w.port ∧ (t.slot w.port w.slot).status = Status.ok.toCode) ∧
        (fld c.req.payload 0 1 ≠ 0 → t.mbx.owner = s.mbx.owner ∧ (t.slot w.port w.slot).status = Status.notOwner.toCode) ∧
        t = { s with dp := t.dp, mbx := t.mbx } ∧ s.dp.Quiet t.dp) ∧
    (s.Ready seq 0x04 c → s.takeCmd = none →
      (fld c.req.payload 0 1 ≠ 0 → ∃ t, exec (.releaseOwnership seq) s = .next t ∧ OnlyAnswers s t c .ok []) ∧
      (fld c.req.payload 0 1 = 0 → (s.port (portOther c.port)).up = false → ∃ t, exec (.releaseOwnership seq) s = .next t ∧ OnlyAnswers s t c .mbxBusy []) ∧
      (fld c.req.payload 0 1 = 0 → (s.port (portOther c.port)).up = true → ∃ t, exec (.releaseOwnership seq) s = .next t ∧ Answered s t c .ok [] ∧
        t.mbx.owner = some (portOther c.port) ∧ (∀ x, (t.port x).fOwner = (s.port x).fOwner.hwSet) ∧ t = { s with dp := t.dp, mbx := t.mbx } ∧ s.dp.Quiet t.dp)) ∧
    (s.takeCmd = some w → w.live = true → ∃ t, exec .ownershipAnswerTimeout s = .next t ∧ Answered s t w .notOwner [] ∧
      t.mbx.take = none ∧ t.mbx.owner = s.mbx.owner ∧ t = { s with dp := t.dp, mbx := t.mbx } ∧ s.dp.Quiet t.dp)

/-- Each of these commands completes with ST_OK and the fields Table 14.7 gives it, at their offsets, and changes nothing else.
JOB_STATUS of a job the module does not hold fails with ST_FIELD_RESERVED. SAMPLE_READ answers the bytes of the sample area and
leaves memory bytes as they are; of no bytes it answers none, past the area it fails with ST_BOUNDS, and otherwise with the
status of the read. A number that no such command carries changes nothing. (R467, R477, R507, R520) -/
def Obligations.StatusCommandsOnlyAnswer : Prop :=
  ∀ (s : State) (seq : BitVec 48) (c : Cmd) (k n : Nat) (l : List Byte) (env : Env) (d : Dp) (f : Fail),
    (∀ z ∈ [(0x01, Instr.getInfo seq), (0x02, .getStatus seq), (0x14, .jobStatus seq), (0x70, .recordRead seq), (0x72, .sampleRead seq env), (0x74, .wearRead seq)],
      s.cmdReady seq z.1 = none → exec z.2 s = .next s) ∧
    (s.Ready seq 0x01 c → ∃ t, exec (.getInfo seq) s = .next t ∧ ∃ r, OnlyAnswers s t c .ok r ∧ r.length = 32 ∧
      fld r 0 16 = s.dp.serial.toNat ∧ fld r 16 4 = s.dp.coord.code.toNat ∧ fld r 20 2 = s.fw.major.toNat ∧
      fld r 22 2 = s.fw.minor.toNat ∧ fld r 25 1 = s.stage % 256 ∧ fld r 28 1 = s.pwr.mstate.toNat) ∧
    (s.Ready seq 0x02 c → ∃ t, exec (.getStatus seq) s = .next t ∧ ∃ r, OnlyAnswers s t c .ok r ∧ r.length = 112 ∧
      ∀ n : Link, fld r (8 + n.val) 1 = (s.link n).st.code) ∧
    (s.Ready seq 0x14 c → s.cmdPart c = none → ∃ t, exec (.jobStatus seq) s = .next t ∧ OnlyAnswers s t c .fieldReserved []) ∧
    (s.Ready seq 0x14 c → s.cmdPart c = some k → ∃ t, exec (.jobStatus seq) s = .next t ∧ ∃ r, OnlyAnswers s t c .ok r ∧ r.length = 28 ∧
      fld r 0 2 = (if s.sec.hold then Status.alarm.toCode.toNat else (s.job k).status.toNat) ∧ fld r 4 8 = (s.job k).step.toNat ∧
      fld r 12 4 = (s.job k).lost.toNat ∧ fld r 20 8 = (s.wet k).dryIndex.toNat) ∧
    (s.Ready seq 0x70 c → ∃ t, exec (.recordRead seq) s = .next t ∧ ∃ r l, OnlyAnswers s t c .ok r ∧
      l = ((s.dp.evr.active ++ s.dp.evr.buffer).filter fun x => decide (fld c.req.payload 0 8 ≤ x.seq.toNat)).take (fld c.req.payload 8 4) ∧
      r = le 4 l.length ++ le 4 0 ++ l.flatMap (·.bytes)) ∧
    (s.Ready seq 0x74 c → ∃ t, exec (.wearRead seq) s = .next t ∧ ∃ r, OnlyAnswers s t c .ok r ∧ r.length = 2592 ∧
      (∀ m : Fin 160, fld r (32 + 16 * m.val + 12) 2 = (s.wearMon m).days m)) ∧
    (s.Ready seq 0x72 c → n = fld c.req.payload 8 4 →
      (n = 0 → ∃ t, exec (.sampleRead seq env) s = .next t ∧ OnlyAnswers s t c .ok []) ∧
      (0 < n → 65536 < fld c.req.payload 4 4 + n → ∃ t, exec (.sampleRead seq env) s = .next t ∧ OnlyAnswers s t c .bounds []) ∧
      (0 < n → fld c.req.payload 4 4 + n ≤ 65536 →
        ((readAt (s.ctx env .ovind) (s.sampleAddr (fld c.req.payload 0 2) + BitVec.ofNat 64 (fld c.req.payload 4 4)) n).exec (s.dp.upsets env.upsets) = (d, .ok l) →
          ∃ t, exec (.sampleRead seq env) s = .next t ∧ Answered s t c .ok l ∧ t.dp.mem = d.mem ∧ t = { s with dp := t.dp, mbx := t.mbx }) ∧
        ((readAt (s.ctx env .ovind) (s.sampleAddr (fld c.req.payload 0 2) + BitVec.ofNat 64 (fld c.req.payload 4 4)) n).exec (s.dp.upsets env.upsets) = (d, .error f) →
          f.st ≠ .auth → f.st ≠ .ok → ∃ t, exec (.sampleRead seq env) s = .next t ∧ Answered s t c f.st [] ∧ t.dp.mem = d.mem ∧ t = { s with dp := t.dp, mbx := t.mbx })))

/-- SET_ROLE_MAP of a legal map keeps it in flash to take effect when the hedge forms, at once where the module waits for a map;
SET_CABLING_MAP sets each link's expected peer and a new generation of routes, and links in QUARANTINE that it accepts repeat
IDENTIFY; SET_MSTATE 2 or 3 with no partition and no transition starts the entry; SET_POWER_LIMITS in range sets both limits, in
flash too; SET_PSTATE sets the request of each panel of the partition and reports a cap above it; POWER_VOTE sets or withdraws
the host's vote on its own domain; COUNTER_GRANT waits for the next snapshot point; LINK_CTRL disables, enables, retrains or
restores a link. A map that breaks the rules, a used transition, a partition in the way, limits out of range, a job the module
does not hold or another host's domain end each with its status and change nothing; a number that no such command carries
changes nothing. (R40, R42, R288, R294, R296, R298, R304, R433, R436, R446, R451, R515) -/
def Obligations.ModuleCommandsSetTheModule : Prop :=
  ∀ (s : State) (seq : BitVec 48) (c : Cmd) (k n a : Nat),
    (∀ z ∈ [(0x05, Instr.setRoleMap seq), (0x06, .setCablingMap seq), (0x07, .setMstate seq), (0x60, .setPowerLimits seq), (0x61, .setPstate seq),
        (0x62, .powerVote seq), (0x73, .counterGrant seq), (0x91, .linkCtrl seq)], s.cmdReady seq z.1 = none → exec z.2 s = .next s) ∧
    (s.Ready seq 0x05 c →
      (mapEntries c.req.payload = [] → ∃ t, exec (.setRoleMap seq) s = .next t ∧ OnlyAnswers s t c .ok []) ∧
      (mapEntries c.req.payload ≠ [] → roleMapBad (mapEntries c.req.payload) = true → ∃ t, exec (.setRoleMap seq) s = .next t ∧ OnlyAnswers s t c .fieldReserved []) ∧
      (mapEntries c.req.payload ≠ [] → roleMapBad (mapEntries c.req.payload) = false → ∃ t m, exec (.setRoleMap seq) s = .next t ∧ Answered s t c .ok [] ∧
        t.flash = { s.flash with roleMap := some m } ∧
        (((mapEntries c.req.payload).map (·.1)).Nodup → ∀ e ∈ mapEntries c.req.payload, Sparse.get .worker m e.1 = e.2) ∧
        (s.roles.waiting = false → t.roles = { s.roles with pendingMap := some m, gen := s.roles.gen + 1 }) ∧
        (s.roles.waiting = true → t.roles = { s.roles with gen := s.roles.gen + 1, map := m, loaded := true, pendingMap := none, role := roleIn true m s.dp.coord, taken := [], waiting := false }) ∧
        t = { s with dp := t.dp, mbx := t.mbx, roles := t.roles, flash := t.flash } ∧ s.dp.Quiet t.dp)) ∧
    (s.Ready seq 0x06 c → ∃ t, exec (.setCablingMap seq) s = .next t ∧ Answered s t c .ok [] ∧
      t.lnk = { s.lnk with mapGen := BitVec.ofNat 16 (fld c.req.payload 0 2), active := [], routes := [], routeGen := s.lnk.routeGen + 1, cabling := t.lnk.cabling, links := t.lnk.links } ∧
      (∀ i : Link, Sparse.get none t.lnk.cabling i =
        (if bitsOf (fld c.req.payload (4 + 4 * i.val) 4) 23 17 < 96 then
          some (bitsOf (fld c.req.payload (4 + 4 * i.val) 4) 16 0, bitsOf (fld c.req.payload (4 + 4 * i.val) 4) 23 17) else none)) ∧
      (∀ i : Link,
        ((s.link i).st = .quarantine → Sparse.get none t.lnk.cabling i = some ((s.link i).peerCoord.toNat, (s.link i).peerLink.toNat) → (t.link i).st = .identify) ∧
        ((s.link i).st = .quarantine → Sparse.get none t.lnk.cabling i ≠ some ((s.link i).peerCoord.toNat, (s.link i).peerLink.toNat) → (s.link i).rejected = false →
          t.link i = s.link i) ∧
        ((s.link i).st ≠ .quarantine → (s.link i).rejected = true → (t.link i).enable = true ∧ (t.link i).rejected = false) ∧
        ((s.link i).st ≠ .quarantine → (s.link i).rejected = false → t.link i = s.link i)) ∧
      t = { s with dp := t.dp, mbx := t.mbx, lnk := t.lnk } ∧ t.dp.mem = s.dp.mem) ∧
    (s.Ready seq 0x07 c → n = fld c.req.payload 0 1 →
      (s.pwr.trans ≠ none → ∃ t, exec (.setMstate seq) s = .next t ∧ OnlyAnswers s t c .mbxBusy []) ∧
      (s.pwr.trans = none → n = 0 → ∃ t, exec (.setMstate seq) s = .next t ∧ OnlyAnswers s t c .ok []) ∧
      (s.pwr.trans = none → n ≠ 0 → s.partitionExists = true → ∃ t, exec (.setMstate seq) s = .next t ∧ OnlyAnswers s t c .fieldReserved []) ∧
      (s.pwr.trans = none → n ≠ 0 → s.partitionExists = false → ∃ t, exec (.setMstate seq) s = .next t ∧ Answered s t c .ok [] ∧
        t.pwr.trans = some (.entry (BitVec.ofNat 2 n)) ∧ t.pwr.arrived = 0 ∧ t.pwr.selfTest = false ∧ t.pwr.mstate = s.pwr.mstate ∧
        (s.roles.role ≠ .spare ∨ BitVec.ofNat 2 n ≠ 2 → t.pwr = { s.pwr with trans := t.pwr.trans, arrived := 0, selfTest := false }) ∧
        (s.roles.role = .spare → BitVec.ofNat 2 n = 2 → t.pwr.alarmOn = true ∧ t.pwr.alarmAt = BitVec.ofNat 63 (s.pwr.rtc.toNat + 3600000 * s.pwr.hours.toNat)) ∧
        t.dp.evr.buffer = [] ∧ t = { s with dp := t.dp, mbx := t.mbx, pwr := t.pwr } ∧ s.dp.Quiet t.dp)) ∧
    (s.Ready seq 0x60 c →
      (limitsOk (fld c.req.payload 0 2) (fld c.req.payload 2 2) = false → ∃ t, exec (.setPowerLimits seq) s = .next t ∧ OnlyAnswers s t c .fieldReserved []) ∧
      (limitsOk (fld c.req.payload 0 2) (fld c.req.payload 2 2) = true → ∃ t, exec (.setPowerLimits seq) s = .next t ∧
        Answered s t c .ok [] ∧ t.pwr.peak.toNat = fld c.req.payload 0 2 ∧ t.pwr.sus.toNat = fld c.req.payload 2 2 ∧
        t.flash = { s.flash with limits := some (t.pwr.peak, t.pwr.sus) } ∧
        t = { s with dp := t.dp, mbx := t.mbx, flash := t.flash, pwr := { s.pwr with peak := t.pwr.peak, sus := t.pwr.sus } } ∧ s.dp.Quiet t.dp)) ∧
    (s.Ready seq 0x61 c → k = fld c.req.payload 0 1 → n = fld c.req.payload 1 1 % 16 →
      ((s.job k).used = false → ∃ t, exec (.setPstate seq) s = .next t ∧ OnlyAnswers s t c .fieldReserved []) ∧
      ((s.job k).used = true → ∃ t, exec (.setPstate seq) s = .next t ∧ Answered s t c (if n < s.pwr.cap.toNat then .powerLimit else .ok) [] ∧
        (∀ p : Panel, (s.job k).panels.getLsbD p = true → (t.pstate p).req.toNat = n ∧ (t.pstate p).tgt.toNat = max n s.pwr.cap.toNat ∧ (t.pstate p).cur = (s.pstate p).cur) ∧
        (∀ p : Panel, (s.job k).panels.getLsbD p = false → t.pstate p = s.pstate p) ∧
        t = { s with dp := t.dp, mbx := t.mbx, pwr := { s.pwr with pstates := t.pwr.pstates } } ∧ s.dp.Quiet t.dp)) ∧
    (s.Ready seq 0x62 c →
      (fld c.req.payload 0 2 ≠ hostDomain c.port → ∃ t, exec (.powerVote seq) s = .next t ∧ OnlyAnswers s t c .fieldReserved []) ∧
      (fld c.req.payload 0 2 = hostDomain c.port → ∃ t, exec (.powerVote seq) s = .next t ∧ Answered s t c .ok [] ∧
        (t.domain (hostDomain c.port)).votes = (if fld c.req.payload 2 1 = 1 then (s.domain (hostDomain c.port)).votes ||| 64
          else (s.domain (hostDomain c.port)).votes &&& 63) ∧
        (∀ m, m ≠ hostDomain c.port → (t.domain m).votes = (s.domain m).votes) ∧
        t = { s with dp := t.dp, mbx := t.mbx, pwr := { s.pwr with domains := t.pwr.domains } } ∧ s.dp.Quiet t.dp)) ∧
    (s.Ready seq 0x73 c → k = fld c.req.payload 0 1 →
      ((s.job k).used = false → ∃ t, exec (.counterGrant seq) s = .next t ∧ OnlyAnswers s t c .fieldReserved []) ∧
      ((s.job k).used = true → ∃ t, exec (.counterGrant seq) s = .next t ∧
        Answered s t c .ok [] ∧ t.job k = { s.job k with grantNext := some (fld c.req.payload 1 1 == 1) } ∧ (∀ m, m ≠ k → t.job m = s.job m) ∧
        t = { s with dp := t.dp, mbx := t.mbx, jobs := t.jobs } ∧ s.dp.Quiet t.dp)) ∧
    (s.Ready seq 0x91 c → n = fld c.req.payload 0 1 → a = fld c.req.payload 1 1 → ∃ t, exec (.linkCtrl seq) s = .next t ∧ Answered s t c .ok [] ∧
      (∀ m, m ≠ n → t.link m = s.link m) ∧
      (a = 0 → (t.link n).st = .down ∧ (t.link n).enable = false) ∧
      (a = 1 → (t.link n).enable = true ∧ (t.link n).rejected = false ∧
        ((s.link n).st = .down → 4 ≤ s.stage → s.lnk.started = true → (s.link n).waiting = false → (t.link n).st = .train) ∧
        ((s.link n).st ≠ .down ∨ s.stage < 4 ∨ s.lnk.started = false ∨ (s.link n).waiting = true → t.link n = { s.link n with enable := true, rejected := false })) ∧
      (a = 2 → (s.link n).st.up = true → (t.link n).st = .train) ∧ (3 ≤ a → (s.link n).st.up = true → (t.link n).st = .train ∧ (t.link n).bad = 0 ∧ (t.link n).sticky = false) ∧
      (2 ≤ a → (s.link n).st.up = false → t.link n = s.link n) ∧
      t = { s with dp := t.dp, mbx := t.mbx, lnk := { s.lnk with links := t.lnk.links } } ∧ s.dp.Quiet t.dp)

/-- JOB_CREATE takes the lowest free partition for the job, keeps its parameters, enters it in the job table, assigns the
granules named (LPDDR5X zeroed at its first assignment), votes for its domains, requests P0 for its panels, starts its
checkpoint state anew, and answers the partition. JOB_DESTROY of a stopped job leaves its partition empty, frees its groups,
unassigns its granules once no operation touches them, withdraws its votes, requests P15 and takes the job out of the job table.
GRAPH_LOAD of an image of the module's major version that meets the rules gives the partition its graph and writes the SEED
tables; GRAPH_UNLOAD takes it away. A firmware update, no free partition, a running partition, a field, a granule or a route
that cannot be had, an image of another major version end each with its status and make no change; that a running partition
answers before the image is looked at is the model's choice (log entry 98). No other partition changes. (R1, R98, R116, R117,
R228, R229, R234, R250, R251, R402, R433, R477) -/
def Obligations.JobCommandsMakeAndEndPartitions : Prop :=
  ∀ (s b : State) (seq : BitVec 48) (c : Cmd) (i : JobIn) (g : GraphImage) (k id ps mode : Nat) (bad : Prop) (m : Mem) (d : Dp) (nd : GraphNode) (l : List Byte) (e : Easel) (v : BitVec 10),
    (∀ z ∈ [(0x10, Instr.jobCreate seq i), (0x11, .jobDestroy seq), (0x20, .graphLoad seq g), (0x21, .graphUnload seq)], s.cmdReady seq z.1 = none → exec z.2 s = .next s) ∧
    (s.Ready seq 0x10 c → id = fld c.req.payload 0 2 → mode = fld c.req.payload 2 1 → ps = fld c.req.payload 16 8 → m = s.retireMarked.dp.mem →
      (bad ↔ (s.jobPart (BitVec.ofNat 16 id)).isSome = true ∨ (∃ x : Part, (s.job x).used = true ∧ (s.job x).panels.toNat &&& ps ≠ 0) ∨
        (s.hedgeWorkers i.members).length < (if mode = 2 then 4 else 2) ∨ (∃ x ∈ i.granules, m.cannotAssign x = true) ∨ ¬ (i.granules.map (·.1)).Nodup) →
      (s.mbx.fwSize ≠ none ∨ s.mbx.programming = true ∨ (∀ x : Part, (s.job x).used = true) → ∃ t, exec (.jobCreate seq i) s = .next t ∧ OnlyAnswers s t c .mbxBusy []) ∧
      (s.mbx.fwSize = none → s.mbx.programming = false → ((List.range 4).find? fun k => !(s.job k).used) = some k →
        (bad → ∃ t, exec (.jobCreate seq i) s = .next t ∧ OnlyAnswers s t c .fieldReserved []) ∧
        (¬ bad → i.conflict = true → ∃ t, exec (.jobCreate seq i) s = .next t ∧ OnlyAnswers s t c .routeConflict []) ∧
        (¬ bad → i.conflict = false → ∃ t, exec (.jobCreate seq i) s = .next t ∧ Answered s t c .ok (le 4 k) ∧
          t.job k = { used := true, id := BitVec.ofNat 16 id, seed := BitVec.ofNat 64 (fld c.req.payload 8 8), panels := BitVec.ofNat 48 ps, cls := i.cls, weight := i.weight, mode := BitVec.ofNat 2 mode, interval := BitVec.ofNat 14 (fld c.req.payload 4 4), buddy := BitVec.ofNat 64 (fld c.req.payload 24 8), holders := buddiesOf (s.hedgeWorkers i.members) (if fld c.req.payload 24 8 = 0 then [] else i.buddies) (if mode = 2 then 3 else 1) s.dp.coord.code } ∧
          t.ckp k = { s.ckp k with mode := BitVec.ofNat 2 mode, interval := BitVec.ofNat 14 (fld c.req.payload 4 4), lastCommit := 0xFFFFFFFF, rollbacks := 0 } ∧
          (t.wet k).ents = [] ∧ (t.wet k).wetCount = 0 ∧ (t.wet k).next = 0 ∧ (t.wet k).smudge = (s.wet k).smudge ∧
          Sparse.get 0 t.dp.mem.jobs id = k + 1 ∧ t.flash.jobs = t.dp.mem.jobs ∧ (m.regionDue = [] → t.flash.region = t.dp.mem.region) ∧
          (∀ x ∈ i.granules, t.dp.mem.regionOf x.1 = regionEntry k x.2.toNat) ∧ (∀ y, (∀ x ∈ i.granules, x.1 ≠ y) → t.dp.mem.regionOf y = m.regionOf y) ∧
          (∀ x ∈ i.granules, x.1 < 524288 → Sparse.get false s.dp.mem.zeroed x.1 = false → ∀ a, a / 2 ^ 21 = x.1 → t.dp.mem.byte a = 0) ∧
          (∀ a, (∀ x ∈ i.granules, x.1 ≠ a / 2 ^ 21) → t.dp.mem.byte a = s.dp.mem.byte a) ∧
          (i.regions = [] → t.dp.mem.easelAt = s.dp.mem.easelAt) ∧
          (i.regions = [(e, v)] → ps.testBit (e.val / 16) = true → v.toNat ≤ 720 → t.dp.mem.easelRegion e = v.toNat * 2 ^ 21) ∧
          Sparse.get 0 t.pwr.energy k = 0 ∧ (∀ p : Panel, ps.testBit p = true → (t.pstate p).req = 0) ∧
          (∀ n ∈ s.partDomains ps, (t.domain n).votes.getLsbD k = true) ∧ (∀ n, n ≠ k → t.job n = s.job n) ∧
          t = { s with dp := t.dp, mbx := t.mbx, jobs := t.jobs, ckps := t.ckps, pwr := t.pwr, flash := t.flash }))) ∧
    (∀ z ∈ [(0x11, Instr.jobDestroy seq), (0x20, .graphLoad seq g), (0x21, .graphUnload seq)], s.Ready seq z.1 c →
      (s.cmdPart c = none → ∃ t, exec z.2 s = .next t ∧ OnlyAnswers s t c .fieldReserved []) ∧
      (s.cmdPart c = some k → (s.job k).running = true → ∃ t, exec z.2 s = .next t ∧ OnlyAnswers s t c .mbxBusy [])) ∧
    (s.Ready seq 0x11 c → s.cmdPart c = some k → (s.job k).running = false → ∃ t, exec (.jobDestroy seq) s = .next t ∧
      Answered s t c .ok [] ∧ t.job k = {} ∧ (∀ n, n ≠ k → t.job n = s.job n) ∧ t.ckps = s.ckps ∧ Sparse.get 0 t.dp.mem.jobs (s.job k).id.toNat = 0 ∧
      t.flash.jobs = t.dp.mem.jobs ∧ t.dp.mem.bytes = s.dp.mem.bytes ∧ (∀ p : Panel, (s.job k).panels.getLsbD p = true → (t.pstate p).req = 15) ∧
      (∀ n ∈ s.partDomains (s.job k).panels.toNat, (t.domain n).votes.getLsbD k = false) ∧ (∀ q : Fin 64, ∀ x, (s.cq q).group = some x → x.part = k → (t.cq q).group = none) ∧
      (s.dp.mem.Wf → ∀ x,
        (regionPart (Sparse.get 0 s.dp.mem.region x) ≠ k ∨ regionType (Sparse.get 0 s.dp.mem.region x) = 0 ∨ 5 < regionType (Sparse.get 0 s.dp.mem.region x) →
          t.dp.mem.regionOf x = s.dp.mem.regionOf x) ∧
        (regionPart (Sparse.get 0 s.dp.mem.region x) = k → 1 ≤ regionType (Sparse.get 0 s.dp.mem.region x) → regionType (Sparse.get 0 s.dp.mem.region x) ≤ 5 →
          (Sparse.get 0 t.dp.mem.region x = 0 ∨ Sparse.get none t.dp.mem.regionDue x = some 0 ∧ t.dp.mem.regionOf x = s.dp.mem.regionOf x) ∧
          ((∀ y, s.inFlight y = false) → Sparse.get 0 t.dp.mem.region x = 0))) ∧
      ((∀ y, s.inFlight y = false) → s.dp.mem.regionDue = [] → t.flash.region = t.dp.mem.region)) ∧
    (s.Ready seq 0x20 c → s.cmdPart c = some k → (s.job k).running = false →
      (fld c.req.payload 4 4 = 0 → ∃ t, exec (.graphLoad seq g) s = .next t ∧ OnlyAnswers s t c .ok []) ∧
      (fld c.req.payload 4 4 = 0xFFFFFFFF → ∃ t, exec (.graphLoad seq g) s = .next t ∧ OnlyAnswers s t c .fieldReserved []) ∧
      (0 < fld c.req.payload 4 4 → fld c.req.payload 4 4 ≠ 0xFFFFFFFF →
        (g.major ≠ s.fw.major → ∃ t, exec (.graphLoad seq g) s = .next t ∧ Answered s t c .imageMajor [] ∧ t = { s with dp := t.dp, mbx := t.mbx, portRun := t.portRun } ∧ s.dp.Quiet t.dp) ∧
        (g.major = s.fw.major → (∃ n ∈ g.nodes, guardBad g n = true) ∨ (∃ a ∈ g.durables, s.durableBad k a = true) →
          ∃ t, exec (.graphLoad seq g) s = .next t ∧ Answered s t c .fieldReserved [] ∧ t = { s with dp := t.dp, mbx := t.mbx, portRun := t.portRun } ∧ s.dp.Quiet t.dp) ∧
        (g.major = s.fw.major → (∀ n ∈ g.nodes, guardBad g n = false) → (∀ a ∈ g.durables, s.durableBad k a = false) →
          (b = (s.countPort (321 + 2 * portNo c.port) (fld c.req.payload 4 4)).updJob k (fun j => { j with graph := some g }) →
            exec (.graphLoad seq g) s = .next ((b.seedTables k).finish c .ok (le 4 g.imageId.toNat)) ∧
            (g.nodes = [nd] → nd.seed = some l → (writeAt (b.ctx {} .ovind) nd.table l).exec b.dp = (d, .ok ()) →
              ∃ t, exec (.graphLoad seq g) s = .next t ∧ t.dp.mem = d.mem ∧ t.jobs = b.jobs)) ∧
          ∃ t, exec (.graphLoad seq g) s = .next t ∧ Answered s t c .ok (le 4 g.imageId.toNat) ∧ t.job k = { s.job k with graph := some g } ∧
            (∀ n, n ≠ k → t.job n = s.job n) ∧ t = { s with dp := t.dp, mbx := t.mbx, jobs := t.jobs, portRun := t.portRun } ∧
            ((∀ n ∈ g.nodes, n.seed = none) → s.dp.Quiet t.dp)))) ∧
    (s.Ready seq 0x21 c → s.cmdPart c = some k → (s.job k).running = false → ∃ t, exec (.graphUnload seq) s = .next t ∧
      Answered s t c .ok [] ∧ t.job k = { s.job k with graph := none } ∧ (∀ n, n ≠ k → t.job n = s.job n) ∧
      t = { s with dp := t.dp, mbx := t.mbx, jobs := t.jobs } ∧ s.dp.Quiet t.dp)

/-- PARTITION_START of a stopped partition with a graph runs it from FIRST_STEP, its first epoch the first of that step.
PARTITION_STOP of a partition with no wet epoch stops it and answers its dry index; with one it waits in ACCEPTED. ROLLBACK with
a committed checkpoint answers the step and, on the machine manager, sends ROLLBACK; elsewhere it asks for it; with none it
fails with ST_CHECK_TILE. RESET of levels 1 to 3 begins the reset of its target with ST_SMUDGED and answers; at level 4 it is a
module reset and at level 5 a power cycle request. A job the module does not hold, no graph, a partition that runs already end
each with its status; a number that no such command carries changes nothing. (R408, R419, R420, R426, R427, R472, R477) -/
def Obligations.PartitionsStartStopAndRollBack : Prop :=
  ∀ (s u : State) (seq : BitVec 48) (c : Cmd) (k lv tg : Nat) (inp : ResetIn) (env v : Env),
    u = { s with dp := s.dp.upsets env.upsets } → v = { env with upsets := [] } →
    (∀ z ∈ [(0x12, Instr.partitionStart seq), (0x13, .partitionStop seq), (0x15, .rollback seq)],
      (s.cmdReady seq z.1 = none → exec z.2 s = .next s) ∧
      (s.Ready seq z.1 c → s.cmdPart c = none → ∃ t, exec z.2 s = .next t ∧ OnlyAnswers s t c .fieldReserved [])) ∧
    (s.cmdReady seq 0x90 = none → exec (.reset seq inp env) s = .next u) ∧
    (s.Ready seq 0x12 c → s.cmdPart c = some k →
      ((s.job k).graph = none → ∃ t, exec (.partitionStart seq) s = .next t ∧ OnlyAnswers s t c .fieldReserved []) ∧
      ((s.job k).graph ≠ none → (s.job k).running = true → ∃ t, exec (.partitionStart seq) s = .next t ∧ OnlyAnswers s t c .mbxBusy []) ∧
      ((s.job k).graph ≠ none → (s.job k).running = false → ∃ t, exec (.partitionStart seq) s = .next t ∧
        Answered s t c .ok [] ∧ t.job k = { s.job k with running := true, stopping := false, step := BitVec.ofNat 64 (fld c.req.payload 4 8), lost := 0, status := Status.ok.toCode } ∧
        t.wet k = { s.wet k with dryIndex := BitVec.ofNat 48 (fld c.req.payload 4 8 * s.epochsPerStep k - 1), oldest := BitVec.ofNat 8 (fld c.req.payload 4 8 * s.epochsPerStep k), next := fld c.req.payload 4 8 * s.epochsPerStep k, held := false, settling := false } ∧
        (s.isMachine = true → t.mgr (s.job k).id = { s.mgr (s.job k).id with next := BitVec.ofNat 64 (fld c.req.payload 4 8 * s.epochsPerStep k), stopped := false }) ∧
        (s.isMachine = false → t.mgrs = s.mgrs) ∧ ((s.job k).grant = false → t.pcts = s.pcts) ∧
        (s.pwr.trans = none → t.pwr = (if s.pwr.mstate = 1 then { s.pwr with mstate := 0, clocksGated := false } else s.pwr)) ∧
        (∀ m, m ≠ k → t.job m = s.job m) ∧ t.dp.mem = s.dp.mem ∧
        t = { s with dp := t.dp, mbx := t.mbx, jobs := t.jobs, mgrs := t.mgrs, pcts := t.pcts, pwr := t.pwr })) ∧
    (s.Ready seq 0x13 c → s.cmdPart c = some k →
      ((s.job k).running = false → ∃ t, exec (.partitionStop seq) s = .next t ∧ OnlyAnswers s t c .ok (le 8 (s.wet k).dryIndex.toNat)) ∧
      ((s.job k).running = true → (s.wet k).wetCount ≠ 0 → ∃ t, exec (.partitionStop seq) s = .next t ∧ t.job k = { s.job k with stopping := true } ∧
        (∀ m, m ≠ k → t.job m = s.job m) ∧ (∀ p n, t.slot p n = s.slot p n) ∧ (t.cmdWaiting seq 0x13).isSome = true ∧ t = { s with mbx := t.mbx, jobs := t.jobs }) ∧
      ((s.job k).running = true → (s.wet k).wetCount = 0 → ∃ t, exec (.partitionStop seq) s = .next t ∧
        t.job k = { s.job k with running := false, stopping := false } ∧ (∀ m, m ≠ k → t.job m = s.job m) ∧
        ((∀ x ∈ s.mbx.cmds, x.waiting = false) → Answered s t c .ok (le 8 (s.wet k).dryIndex.toNat)) ∧
        t = { s with dp := t.dp, mbx := t.mbx, jobs := t.jobs } ∧ s.dp.Quiet t.dp)) ∧
    (s.Ready seq 0x15 c → s.cmdPart c = some k →
      (s.commitOf (s.job k).id = 0xFFFFFFFF → ∃ t, exec (.rollback seq) s = .next t ∧ OnlyAnswers s t c .checkTile []) ∧
      (s.commitOf (s.job k).id ≠ 0xFFFFFFFF → ∃ t, exec (.rollback seq) s = .next t ∧ Answered s t c .ok (le 8 (s.commitOf (s.job k).id)) ∧
        (s.isMachine = true → OutMsg.mgmt .rollback s.dp.coord.code (BitVec.ofNat 64 (s.commitOf (s.job k).id)) ∈ t.dp.out ∧
          t.mgr (s.job k).id = { s.mgr (s.job k).id with rollGen := (s.mgr (s.job k).id).rollGen + 1, settling := false, stopped := false, ckpt := none, reports := [] }) ∧
        (s.isMachine = false → OutMsg.mgmt .rollbackRequest s.dp.coord.code (BitVec.ofNat 64 (s.job k).id.toNat) ∈ t.dp.out ∧ t.mgrs = s.mgrs) ∧
        t = { s with dp := t.dp, mbx := t.mbx, mgrs := t.mgrs } ∧ s.dp.Quiet t.dp)) ∧
    (s.Ready seq 0x90 c → lv = fld c.req.payload 0 1 → tg = fld c.req.payload 2 2 →
      (lv ≤ 3 → exec (.reset seq inp env) s = .next ((u.requestReset lv tg Status.smudged.toCode 0xFFFF false inp v).finish c .ok [])) ∧
      (lv = 1 → s.wdg.episodes = [] → ∃ t, exec (.reset seq inp env) s = .next t ∧ t.wdg.level = 1 ∧ t.wdg.status = Status.smudged.toCode ∧
        t.wdg.episodes = [{ level := 1, target := tg, status := Status.smudged.toCode, engine := 0xFFFF, begun := s.dp.now }]) ∧
      (lv = 4 → s.wdg.episodes = [] → ∃ t, exec (.reset seq inp env) s = .next t ∧ t.stage = 1 ∧
        t.wdg.level = 4 ∧ t.wdg.status = Status.smudged.toCode ∧ t.wdg.moduleResets = satInc s.wdg.moduleResets ∧ t.mbx.cmds = [] ∧
        t.flash = s.flash ∧ ∀ a, a < scratchBase → t.dp.mem.byte a = u.dp.mem.byte a) ∧
      (5 ≤ lv → s.wdg.episodes = [] → ∃ t, exec (.reset seq inp env) s = .next t ∧
        t.elec.pwrReq = true ∧ t.wdg.level = 5 ∧ t.wdg.status = Status.smudged.toCode ∧ t.dp.evr.buffer = [] ∧ t.flash = s.flash))

/-- A DATA_READ whose tags are all dry sends the data by DMA and answers its bytes. With a wet tag it fails with ST_WET and sets
HOST_WET when the flag says so, and otherwise waits; a waiting read is answered once its tags are dry, and fails with ST_WET
after 10 s. DATA_WRITE of a range that is checked and written answers the bytes and their CRC; a batch whose CRC differs from
the one logged stops the job with ST_CHECK_TILE. REG_READ answers the registers of a range, of another module by remote read;
one that does not exist fails with ST_BOUNDS. REG_WRITE writes what the owner may write; another register fails with ST_BOUNDS
and changes nothing. A failing operation gives its status. Commands of no elements or words answer at once; a number that no
such command carries changes nothing. (R247, R359, R401, R477) -/
def Obligations.DataCommandsMoveDryDataOnly : Prop :=
  ∀ (s : State) (seq : BitVec 48) (c : Cmd) (env : Env) (data l : List Byte) (r : State × Except Fail (Option (List Byte))) (d : TD) (o w k n first : Nat) (ptr : Addr) (v : BitVec 64)
    (f : Fail) (x : Ctx) (y b : State) (m : Coord) (st : Status),
    (∀ z ∈ [(0x30, Instr.dataRead seq env), (0x31, .dataWrite seq data env), (0x32, .regRead seq env), (0x33, .regWrite seq)], s.cmdReady seq z.1 = none → exec z.2 s = .next s) ∧
    (s.cmdWaiting seq 0x30 = none → exec (.dataReadRelease seq env) s = .next s ∧ exec (.dataReadWaitTimeout seq) s = .next s) ∧
    (s.Ready seq 0x30 c → fld c.req.payload 24 4 = 0 → ∃ t, exec (.dataRead seq env) s = .next t ∧ Answered s t c .ok (le 16 0) ∧ t.dp.mem = s.dp.mem) ∧
    (ptr = BitVec.ofNat 64 (fld c.req.payload 0 8) → r = s.runOp env (dataFetch (s.ctx env .ovind) ptr (fld c.req.payload 16 8) (fld c.req.payload 24 4)) →
      (s.Ready seq 0x30 c → 0 < fld c.req.payload 24 4 →
        (r.2 = .ok (some l) → ∃ t, exec (.dataRead seq env) s = .next t ∧
          Answered s t c .ok (le 8 l.length ++ le 4 0 ++ le 4 0) ∧ OutMsg.dmaWrite c.port (BitVec.ofNat 64 (fld c.req.payload 8 8)) l ∈ t.dp.out ∧
          t.dp.mem = r.1.dp.mem ∧ t = { s with dp := t.dp, mbx := t.mbx, portRun := t.portRun }) ∧
        (r.2 = .ok none → c.req.flags.getLsbD 0 = true → ∃ t, exec (.dataRead seq env) s = .next t ∧ Answered s t c .wet [] ∧
          (t.wet (r.1.tdPartOf ptr env)).hostWet = (r.1.wet (r.1.tdPartOf ptr env)).hostWet.hwSet ∧ t.dp.mem = r.1.dp.mem ∧ t = { s with dp := t.dp, mbx := t.mbx }) ∧
        (r.2 = .ok none → c.req.flags.getLsbD 0 = false → ∃ t, exec (.dataRead seq env) s = .next t ∧
          (∀ p n, t.slot p n = s.slot p n) ∧ (∃ c', t.cmdWaiting seq 0x30 = some c' ∧ c' = { c with waiting := true, since := s.dp.now }) ∧ t = { r.1 with mbx := t.mbx }) ∧
        (r.2 = .error f → f.st ≠ .auth → ∃ t, exec (.dataRead seq env) s = .next t ∧ Answered s t c f.st [] ∧ t.dp.mem = r.1.dp.mem ∧ t = { s with dp := t.dp, mbx := t.mbx })) ∧
      (s.Waits seq 0x30 c →
        (r.2 = .ok (some l) → ∃ t, exec (.dataReadRelease seq env) s = .next t ∧
          Answered s t c .ok (le 8 l.length ++ le 4 (spanUs c.since s.dp.now) ++ le 4 0) ∧
          OutMsg.dmaWrite c.port (BitVec.ofNat 64 (fld c.req.payload 8 8)) l ∈ t.dp.out ∧ t.dp.mem = r.1.dp.mem ∧ t = { s with dp := t.dp, mbx := t.mbx, portRun := t.portRun }) ∧
        (r.2 = .ok none → exec (.dataReadRelease seq env) s = .next r.1) ∧
        (r.2 = .error f → f.st ≠ .auth → ∃ t, exec (.dataReadRelease seq env) s = .next t ∧ Answered s t c f.st [] ∧ t.dp.mem = r.1.dp.mem ∧ t = { s with dp := t.dp, mbx := t.mbx }) ∧
        ∃ t, exec (.dataReadWaitTimeout seq) s = .next t ∧ Answered s t c .wet [] ∧
          (t.wet (s.tdPartOf ptr {})).hostWet = (s.wet (s.tdPartOf ptr {})).hostWet.hwSet ∧ t.dp.mem = s.dp.mem ∧ t = { s with dp := t.dp, mbx := t.mbx })) ∧
    (s.Ready seq 0x31 c → ptr = BitVec.ofNat 64 (fld c.req.payload 0 8) → first = fld c.req.payload 16 8 → n = fld c.req.payload 24 4 →
      (n = 0 → ∃ t, exec (.dataWrite seq data env) s = .next t ∧ OnlyAnswers s t c .ok (le 8 0 ++ le 4 (crc32c []).toNat ++ le 4 0)) ∧
      (0 < n → k = s.tdPartOf ptr env → x = s.ctx { env with upsets := [] } (.host c.port (s.job k).id) (some (s.wet k).dryTag.1) (s.wet k).dryTag.2 →
        ((s.runOp env (dataRange x true ptr first n)).2 = .error f → f.st ≠ .auth → f.st ≠ .ok → ∃ t, exec (.dataWrite seq data env) s = .next t ∧
          Answered s t c f.st [] ∧ t.dp.mem = (s.runOp env (dataRange x true ptr first n)).1.dp.mem ∧ t = { s with dp := t.dp, mbx := t.mbx }) ∧
        (s.runOp env (dataRange x true ptr first n) = (b, .ok d) → l = (data ++ List.replicate (hostBytes d n) 0).take (hostBytes d n) →
          (w = fld c.req.payload 32 8 → w ≠ 0 → Sparse.get none (s.job k).batchCrcs w ≠ none → Sparse.get none (s.job k).batchCrcs w ≠ some (crc32c l) →
            ∃ t, exec (.dataWrite seq data env) s = .next t ∧ Answered s t c .checkTile [] ∧ (t.job k).running = false ∧ (t.job k).status = Status.checkTile.toCode ∧
              (∀ i, i ≠ k → t.job i = s.job i) ∧ t.dp.mem = b.dp.mem) ∧
          (w = fld c.req.payload 32 8 → w = 0 ∨ Sparse.get none (s.job k).batchCrcs w = none ∨ Sparse.get none (s.job k).batchCrcs w = some (crc32c l) →
            (∀ e, (b.runOp {} (hostTiles x d first n (hostBlocks d l n) (dataTiles first n))).2 = .ok e → ∃ t, exec (.dataWrite seq data env) s = .next t ∧
              Answered s t c .ok (le 8 l.length ++ le 4 (crc32c l).toNat ++ le 4 0) ∧ t.dp.mem = (b.runOp {} (hostTiles x d first n (hostBlocks d l n) (dataTiles first n))).1.dp.mem ∧
              (w = 0 → t.jobs = s.jobs) ∧ (w ≠ 0 → Sparse.get none (t.job k).batchCrcs w = some (crc32c l)) ∧
              t = { s with dp := t.dp, mbx := t.mbx, jobs := t.jobs, portRun := t.portRun }) ∧
            ((b.runOp {} (hostTiles x d first n (hostBlocks d l n) (dataTiles first n))).2 = .error f → f.st ≠ .auth → f.st ≠ .ok → ∃ t, exec (.dataWrite seq data env) s = .next t ∧
              Answered s t c f.st [] ∧ t.dp.mem = (b.runOp {} (hostTiles x d first n (hostBlocks d l n) (dataTiles first n))).1.dp.mem))))) ∧
    (s.Ready seq 0x32 c → ptr = BitVec.ofNat 64 (fld c.req.payload 0 8) → n = fld c.req.payload 8 4 →
      (n = 0 → ∃ t, exec (.regRead seq env) s = .next t ∧ OnlyAnswers s t c .ok []) ∧
      (0 < n → (resolve s.dp.coord ptr = none ∨ ∃ sp o, resolve s.dp.coord ptr = some (.here sp o) ∧ sp ≠ 1) → ∃ t, exec (.regRead seq env) s = .next t ∧ OnlyAnswers s t c .bounds []) ∧
      (0 < n → resolve s.dp.coord ptr = some (.here 1 o) →
        (s.readRegs o n = (y, some l) → exec (.regRead seq env) s = .next (y.finish c .ok l)) ∧ (s.readRegs o n = (y, none) → exec (.regRead seq env) s = .next (y.finish c .bounds [])) ∧
        (s.regSlot o = none → o % 8 = 0 → ∃ t, exec (.regRead seq env) s = .next t ∧ OnlyAnswers s t c .bounds []) ∧
        (n = 1 → o % 8 = 0 → s.regSlot o = some v → ∃ t, exec (.regRead seq env) s = .next t ∧ Answered s t c .ok (le 8 v.toNat) ∧ t.dp.mem.bytes = s.dp.mem.bytes)) ∧
      (0 < n → resolve s.dp.coord ptr = some (.far m 1 o) →
        (o % 8 ≠ 0 → ∃ t, exec (.regRead seq env) s = .next t ∧ OnlyAnswers s t c .bounds []) ∧
        (o % 8 = 0 → (s.ctx env .ovind).route m ≠ .ok → (s.ctx env .ovind).route m ≠ .auth → ∃ t, exec (.regRead seq env) s = .next t ∧ Answered s t c ((s.ctx env .ovind).route m) [] ∧
          t = { s with dp := t.dp, mbx := t.mbx }) ∧
        (o % 8 = 0 → (s.ctx env .ovind).route m = .ok →
          y = { s with dp := (s.dp.upsets env.upsets).send (.remoteRead ptr (BitVec.ofNat 32 (8 * n))) } →
          (y.runOp {} (remoteWords (s.ctx env .ovind) (ptr - BitVec.ofNat 64 (o % 32)) 0 (wordCount o (8 * n)))).2 = .ok l →
            ∃ t, exec (.regRead seq env) s = .next t ∧ Answered s t c .ok (slice l (o % 32) (8 * n)) ∧ t = { s with dp := t.dp, mbx := t.mbx }))) ∧
    (s.Ready seq 0x33 c → ptr = BitVec.ofNat 64 (fld c.req.payload 0 8) →
      ((∀ o, resolve s.dp.coord ptr ≠ some (.here 1 o)) → ∃ t, exec (.regWrite seq) s = .next t ∧ OnlyAnswers s t c .bounds []) ∧
      (resolve s.dp.coord ptr = some (.here 1 o) →
        (o % 8 ≠ 0 ∨ s.regSlot o = none ∨ s.ownerGrant c.port o = none → ∃ t, exec (.regWrite seq) s = .next t ∧ OnlyAnswers s t c .bounds []) ∧
        (s.ownerWrite c.port o { v := BitVec.ofNat 64 (fld c.req.payload 8 8), mask := BitVec.ofNat 64 (fld c.req.payload 16 8) } = (y, st) →
          exec (.regWrite seq) s = .next (y.finish c st [])) ∧
        (o = 0xA00000 → 1 ≤ fld c.req.payload 8 8 → fld c.req.payload 8 8 ≤ 1000 → fld c.req.payload 16 8 = 0xFFFF → ∃ t, exec (.regWrite seq) s = .next t ∧
          Answered s t c .ok [] ∧ t.wdg = { s.wdg with limitMs := t.wdg.limitMs } ∧ t.wdg.limitMs.toNat = fld c.req.payload 8 8 ∧
          t = { s with dp := t.dp, mbx := t.mbx, wdg := t.wdg })))

/-- RECORD_CLEAR with a token that verifies starts the other bank with the CLEAR record as its first, numbered on, with DROPPED
and FULL anew, and waits; with one that does not it fails with ST_AUTH; the end of the erase empties the old bank and completes
it. TPK_LOAD of a package that passes its checks stores it, one that fails them completes with that status and stores nothing.
TPK_RUN of a stored package answers how many items passed and failed, and acts on each failure; a package the module does not
hold or a partition that runs on a tested panel ends it. A push sends its status to the hedge manager. HOLD of the security
logic ends clear and load with ST_ALARM; a number that no such command carries changes nothing. (R383, R384, R385, R386, R494,
R497, R508) -/
def Obligations.RecordsClearUnderATokenAndPackagesRun : Prop :=
  ∀ (s u : State) (seq : BitVec 48) (c : Cmd) (b p : List Byte) (inp : ResetIn) (env v : Env) (x : Tpk) (q : ItemResult) (rs rs' : List ItemResult) (ok : Nat),
    u = { s with dp := s.dp.upsets env.upsets } → v = { env with upsets := [] } →
    (∀ z ∈ [(0x71, Instr.recordClear seq), (0x50, .tpkLoad seq b)], (s.cmdReady seq z.1 = none → exec z.2 s = .next s) ∧
      (s.Ready seq z.1 c → s.sec.hold = true → ∃ t, exec z.2 s = .next t ∧ OnlyAnswers s t c .alarm [])) ∧
    (s.Ready seq 0x71 c → s.sec.hold = false →
      (s.tokenOk c.req.payload 1 0 zeroHash = true → ∃ t, exec (.recordClear seq) s = .next t ∧ t.dp.evr.bank = (!s.dp.evr.bank) ∧ t.dp.evr.buffer = [] ∧ t.dp.evr.dropped = 0 ∧
        t.dp.evr.full = false ∧ t.dp.evr.firstSeq = s.dp.evr.nextSeq ∧ t.dp.evr.nextSeq = s.dp.evr.nextSeq + 1 ∧
        (∃ r, t.dp.evr.active = [r] ∧ r.type = 2 ∧ r.seq = s.dp.evr.nextSeq) ∧ (t.cmdWaiting seq 0x71).isSome = true ∧ (∀ p n, t.slot p n = s.slot p n) ∧
        t.sec = { s.sec with nonce := Config.freeWord s.dp.freeCtr } ∧ t.dp.mem = s.dp.mem ∧ t = { s with dp := t.dp, sec := t.sec, mbx := t.mbx }) ∧
      (s.tokenOk c.req.payload 1 0 zeroHash = false → (s.sec.authFails.filter fun a => decide (s.dp.now < a + edges60s)).length < 7 →
        ∃ t, exec (.recordClear seq) s = .next t ∧ Answered s t c .auth [] ∧ t.sec = { s.sec with authFails := s.dp.now :: s.sec.authFails.filter fun a => decide (s.dp.now < a + edges60s) } ∧
          t = { s with dp := t.dp, sec := t.sec, mbx := t.mbx } ∧ s.dp.Quiet t.dp) ∧
      (s.tokenOk c.req.payload 1 0 zeroHash = false → exec (.recordClear seq) s = .next ((s.tokenFailed c.port).finish c .auth []))) ∧
    (s.cmdWaiting seq 0x71 = none → exec (.recordBankEraseDone seq) s = .next s) ∧
    (s.Waits seq 0x71 c → ∃ t, exec (.recordBankEraseDone seq) s = .next t ∧ Answered s t c .ok [] ∧
      (s.dp.evr.bank = true → t.dp.evr.bank0 = [] ∧ t.dp.evr.bank1 = s.dp.evr.bank1) ∧
      (s.dp.evr.bank = false → t.dp.evr.bank1 = [] ∧ t.dp.evr.bank0 = s.dp.evr.bank0) ∧
      t = { s with dp := t.dp, mbx := t.mbx } ∧ s.dp.Quiet t.dp) ∧
    (s.Ready seq 0x50 c → s.sec.hold = false → p = (b ++ List.replicate (fld c.req.payload 0 4) 0).take (fld c.req.payload 0 4) →
      (fld c.req.payload 0 4 = 0 → ∃ t, exec (.tpkLoad seq b) s = .next t ∧ OnlyAnswers s t c .ok []) ∧
      (fld c.req.payload 0 4 = 0xFFFFFFFF → ∃ t, exec (.tpkLoad seq b) s = .next t ∧ OnlyAnswers s t c .fieldReserved []) ∧
      (fld c.req.payload 0 4 ≠ 0 → fld c.req.payload 0 4 ≠ 0xFFFFFFFF →
        (s.tpkCheck p = .ok → ∃ t, exec (.tpkLoad seq b) s = .next t ∧ Answered s t c .ok (le 4 (fld p 4 4) ++ le 4 (fld p 8 4)) ∧ tpkOf p ∈ t.integ.tpks ∧
          (∀ y ∈ t.integ.tpks, y = tpkOf p ∨ y ∈ s.integ.tpks ∧ y.id ≠ (tpkOf p).id) ∧
          t = { s with dp := t.dp, mbx := t.mbx, portRun := t.portRun, integ := { s.integ with tpks := t.integ.tpks } } ∧ s.dp.Quiet t.dp) ∧
        (s.tpkCheck p ≠ .ok → s.tpkCheck p ≠ .auth ∨ (s.sec.authFails.filter fun a => decide (s.dp.now < a + edges60s)).length < 7 →
          ∃ t, exec (.tpkLoad seq b) s = .next t ∧ Answered s t c (s.tpkCheck p) [] ∧ t.integ = s.integ ∧
            t = { s with dp := t.dp, mbx := t.mbx, portRun := t.portRun, sec := { s.sec with authFails := t.sec.authFails } } ∧ s.dp.Quiet t.dp))) ∧
    (s.cmdReady seq 0x51 = none → exec (.tpkRun seq rs inp env) s = .next u) ∧
    (s.Ready seq 0x51 c → (s.integ.tpks.find? fun t => t.id.toNat == fld c.req.payload 0 4) = none →
      ∃ t, exec (.tpkRun seq rs inp env) s = .next t ∧ OnlyAnswers u t c .fieldReserved []) ∧
    (s.Ready seq 0x51 c → (s.integ.tpks.find? fun t => t.id.toNat == fld c.req.payload 0 4) = some x → rs' = rs.filter (fun r => decide (r.item.toNat < x.items)) →
      (s.testedBusy rs' = true → ∃ t, exec (.tpkRun seq rs inp env) s = .next t ∧ OnlyAnswers u t c .mbxBusy []) ∧
      (s.testedBusy rs' = false → ok = (rs'.filter x.passes).length →
        exec (.tpkRun seq rs inp env) s = .next ((u.leaveIdle.itemResults x rs' inp v).finish c .ok (le 2 ok ++ le 2 (rs'.length - ok) ++ le 4 0)) ∧
        ((∀ r ∈ rs', x.passes r = true) → ∃ t, exec (.tpkRun seq rs inp env) s = .next t ∧ Answered s t c .ok (le 2 rs'.length ++ le 2 0 ++ le 4 0) ∧
          t = { u with dp := t.dp, mbx := t.mbx, pwr := t.pwr, trellises := t.trellises } ∧ u.dp.Quiet t.dp) ∧
        (rs' = [q] → x.passes q = false → x.scope q.item.toNat ≠ 1 → ∃ t, exec (.tpkRun seq rs inp env) s = .next t ∧
          Answered s t c .ok (le 2 0 ++ le 2 1 ++ le 4 0) ∧ t.integ.degraded = true ∧ OutMsg.mgmt .degraded s.dp.coord.code 0 ∈ t.dp.out))) ∧
    (∃ t, exec (.tpkPush b) s = .next t ∧ t.dp.out = s.dp.out ++ [.mgmt .tpkStatus s.dp.coord.code (BitVec.ofNat 64 (s.tpkCheck b).toCode.toNat)] ∧
      (s.tpkCheck b = .ok → tpkOf b ∈ t.integ.tpks) ∧ (s.tpkCheck b ≠ .ok → t.integ = s.integ) ∧
      t = { s with dp := { s.dp with out := t.dp.out }, integ := { s.integ with tpks := t.integ.tpks } })

/-- A source that fires sets its flag and ACTIVE bit, enters the alarm log in flash and sets HOLD there too. Under a policy that
erases, and with nothing erased yet, the attestation key is dropped, the next REVOKE bit is programmed (with none left the
identity is disabled), ERASED is set and the module resets with ST_ALARM; with something erased already it is logged alone. The
end of a condition clears its ACTIVE bit and leaves HOLD. ALARM_CLEAR fails with ST_ALARM while a bit is ACTIVE; with a token
that verifies it clears HOLD and ERASED, with one that does not it fails with ST_AUTH and HOLD stays. (R494, R495, R496, R497,
R498, R499, R501) -/
def Obligations.AlarmsHoldAndErase : Prop :=
  ∀ (s : State) (n : Fin 5) (seq : BitVec 48) (c : Cmd),
    (s.policyErases n = false ∨ s.sec.erased = true → ∃ t, exec (.securityAlarm n) s = .next t ∧ t.sec.hold = true ∧ t.flash.hold = true ∧
      t.sec = { s.sec with flags := t.sec.flags, active := s.sec.active ||| BitVec.ofNat 5 (2 ^ n.val), hold := true } ∧
      Sparse.get {} t.sec.flags n = (Sparse.get {} s.sec.flags n).hwSet ∧ (∀ m, m ≠ n.val → Sparse.get {} t.sec.flags m = Sparse.get {} s.sec.flags m) ∧
      t.flash.alarms = ((n.val, if s.policyErases n = true then 1 else 0, s.sec.revoke, s.dp.evr.nextSeq) :: s.flash.alarms).take 64 ∧
      t = { s with dp := t.dp, sec := t.sec, flash := { s.flash with alarms := t.flash.alarms, hold := true } } ∧ s.dp.Quiet t.dp) ∧
    (s.policyErases n = true → s.sec.erased = false → ∃ t, exec (.securityAlarm n) s = .next t ∧ t.sec.erased = true ∧
      t.flash.erased = true ∧ t.flash.hold = true ∧ t.sec.hold = true ∧ t.sec.attKey = false ∧
      (s.wdg.episodes = [] → t.stage = 1 ∧ t.wdg.level = 4 ∧ t.wdg.status = Status.alarm.toCode) ∧
      (s.sec.revoked = false → s.sec.revoke < 4 → t.sec.revoke = s.sec.revoke + 1) ∧
      (s.sec.revoked = false → 4 ≤ s.sec.revoke → t.sec.disabled = true)) ∧
    (∃ t, exec (.alarmConditionEnd n) s = .next t ∧ t = { s with sec := { s.sec with active := t.sec.active } } ∧
      t.sec.active.getLsbD n = false ∧ ∀ m, m ≠ n.val → t.sec.active.getLsbD m = s.sec.active.getLsbD m) ∧
    (s.cmdReady seq 0x83 = none → exec (.alarmClear seq) s = .next s) ∧
    (s.Ready seq 0x83 c → s.sec.active ≠ 0 → ∃ t, exec (.alarmClear seq) s = .next t ∧ OnlyAnswers s t c .alarm []) ∧
    (s.Ready seq 0x83 c → s.sec.active = 0 →
      (s.tokenOk c.req.payload 2 0 zeroHash = true → ∃ t, exec (.alarmClear seq) s = .next t ∧ Answered s t c .ok [] ∧
        t.sec = { s.sec with hold := false, erased := false, revoked := false, nonce := Config.freeWord s.dp.freeCtr } ∧
        t.flash = { s.flash with hold := false, erased := false } ∧ t.dp.mem = s.dp.mem ∧ t = { s with dp := t.dp, mbx := t.mbx, sec := t.sec, flash := t.flash }) ∧
      (s.tokenOk c.req.payload 2 0 zeroHash = false → exec (.alarmClear seq) s = .next ((s.tokenFailed c.port).finish c .auth []) ∧
        ((s.sec.authFails.filter fun a => decide (s.dp.now < a + edges60s)).length < 7 → ∃ t, exec (.alarmClear seq) s = .next t ∧ Answered s t c .auth [] ∧
          t.sec = { s.sec with authFails := s.dp.now :: s.sec.authFails.filter fun a => decide (s.dp.now < a + edges60s) } ∧
          t = { s with dp := t.dp, mbx := t.mbx, sec := t.sec } ∧ s.dp.Quiet t.dp)))

/-- OTP_WRITE of a field that the owner may write, with a free slot and a legal value, writes the lowest free slot when the
token verifies, leaves the value of a late field in force, and changes no other slot; when power is lost before the marker the
slot is spoiled and the command waits for ever. HOLD ends it with ST_ALARM, another field, no slot or a broken value with
ST_FIELD_RESERVED, a token that does not verify with ST_AUTH; these leave OTP as it was. OTP_READ answers the field's slots (the
seed with ST_BOUNDS, a field that does not exist with ST_FIELD_RESERVED), ALARM_STATUS the alarm state; both change nothing, and
so does a number that no such command carries. (R485, R486, R487, R488, R494, R496, R497) -/
def Obligations.OtpWritesTakeOneSlot : Prop :=
  ∀ (s : State) (seq : BitVec 48) (c : Cmd) (f g : Nat) (v : List Byte) (whole : Bool),
    (∀ z ∈ [(0x80, Instr.alarmStatus seq), (0x81, .otpRead seq), (0x82, .otpWrite seq whole)], s.cmdReady seq z.1 = none → exec z.2 s = .next s) ∧
    (s.Ready seq 0x82 c → f = fld c.req.payload 0 2 → v = slice c.req.payload 4 (otpSize f) →
      (s.sec.hold = true → ∃ t, exec (.otpWrite seq whole) s = .next t ∧ OnlyAnswers s t c .alarm []) ∧
      (s.sec.hold = false → ownerField f = false ∨ s.otpFree f = none ∨ otpBroken f v = true → ∃ t, exec (.otpWrite seq whole) s = .next t ∧ OnlyAnswers s t c .fieldReserved []) ∧
      (s.sec.hold = false → ownerField f = true → s.otpFree f = some g → otpBroken f v = false →
        (s.tokenOk (slice c.req.payload (4 + otpSize f) 128) 3 f (sm3 v) = true →
          (∃ t, exec (.otpWrite seq true) s = .next t ∧ Answered s t c .ok [] ∧ t.otpSlot f g = .written v true ∧
            (∀ f' g', g' < 4 → (f', g') ≠ (f, g) → t.otpSlot f' g' = s.otpSlot f' g') ∧
            (otpLate f = true → t.otpNow f = s.otpNow f) ∧ t.sec.nonce = Config.freeWord s.dp.freeCtr ∧ t.dp.mem = s.dp.mem ∧
            t = { s with dp := t.dp, mbx := t.mbx, sec := { s.sec with otp := t.sec.otp, held := t.sec.held, nonce := t.sec.nonce } }) ∧
          (∃ t, exec (.otpWrite seq false) s = .next t ∧ t.otpSlot f g = .spoiled ∧ (∀ f' g', g' < 4 → (f', g') ≠ (f, g) → t.otpSlot f' g' = s.otpSlot f' g') ∧
            (t.cmdWaiting seq 0x82).isSome = true ∧ (∀ p n, t.slot p n = s.slot p n))) ∧
        (s.tokenOk (slice c.req.payload (4 + otpSize f) 128) 3 f (sm3 v) = false →
          exec (.otpWrite seq whole) s = .next ((s.tokenFailed c.port).finish c .auth []) ∧
          ((s.sec.authFails.filter fun a => decide (s.dp.now < a + edges60s)).length < 7 → ∃ t, exec (.otpWrite seq whole) s = .next t ∧ Answered s t c .auth [] ∧
            t.sec = { s.sec with authFails := s.dp.now :: s.sec.authFails.filter fun a => decide (s.dp.now < a + edges60s) } ∧
            t = { s with dp := t.dp, mbx := t.mbx, sec := t.sec } ∧ s.dp.Quiet t.dp)))) ∧
    (s.Ready seq 0x81 c → f = fld c.req.payload 0 2 →
      (f = 0 → ∃ t, exec (.otpRead seq) s = .next t ∧ OnlyAnswers s t c .bounds []) ∧
      (f ≠ 0 → otpField f = false → ∃ t, exec (.otpRead seq) s = .next t ∧ OnlyAnswers s t c .fieldReserved []) ∧
      (f = 2 → ∃ t, exec (.otpRead seq) s = .next t ∧ OnlyAnswers s t c .ok (le 4 0x0101 ++ le 1 (2 ^ min s.sec.revoke 4 - 1))) ∧
      (f ≠ 0 → f ≠ 2 → otpField f = true → ∃ t, exec (.otpRead seq) s = .next t ∧
        ∃ r, OnlyAnswers s t c .ok r ∧ fld r 0 1 = otpSlots f ∧ (∀ g, g < otpSlots f → (fld r 1 1).testBit g = (match s.otpSlot f g with | .written _ _ => true | _ => false)) ∧
          r.drop 4 = (List.range (otpSlots f)).flatMap fun g => match s.otpSlot f g with
            | .written v _ => v
            | _ => List.replicate (otpSize f) 0)) ∧
    (s.Ready seq 0x80 c → ∃ t, exec (.alarmStatus seq) s = .next t ∧ ∃ r, OnlyAnswers s t c .ok r ∧ r.length = 136 ∧
      (∀ e es, s.flash.alarms = e :: es → fld r 8 1 = e.1 % 256 ∧ fld r 10 1 = e.2.2.1 % 256 ∧ fld r 12 6 = e.2.2.2.toNat))

/-- A request answers Unspecified once the identity is disabled, Busy before ST5 and in recovery mode, UnexpectedRequest before
its port has negotiated what it needs (SPDM 1.3: presumed, log entry 25). Otherwise versions, capabilities and algorithms move
the negotiation on, from no common algorithm the request is invalid. A certificate is that of the slot, from the offset; digests
name the filled slots; a challenge and a signed measurement use the key of the slot, where the key store holds it; block 0 asks
for the number of blocks and 0xFF for all. The CSR and a new certificate chain are for the owner alone, and a chain that
verifies is kept with the revocation count. Nothing but the negotiation and the chain changes. (R489, R490, R492, R493, R501) -/
def Obligations.TheResponderAttests : Prop :=
  ∀ (s : State) (p : Port) (slot : Fin 8) (off len : BitVec 16) (nonce : BitVec 256) (chain : List Byte) (i : BitVec 8) (sign : Option (Fin 8)) (b : Bool) (bs : List (Nat × List Byte)),
    (∀ z ∈ [(0, Instr.spdmGetVersion p), (1, .spdmGetCapabilities p), (2, .spdmNegotiateAlgorithms p b), (3, .spdmGetDigests p), (3, .spdmGetCertificate p slot off len),
        (3, .spdmChallenge p slot nonce), (3, .spdmGetMeasurements p i sign nonce), (3, .spdmGetCsr p), (3, .spdmSetCertificate p slot chain)],
      (s.sec.disabled = true → exec z.2 s = .next (s.send (.spdm p (.error .unspecified)))) ∧
      (s.sec.disabled = false → s.stage ≠ 5 ∨ s.mbx.recovery = true → exec z.2 s = .next (s.send (.spdm p (.error .busy)))) ∧
      (s.sec.disabled = false → s.stage = 5 → s.mbx.recovery = false → (s.port p).spdm < z.1 → exec z.2 s = .next (s.send (.spdm p (.error .unexpected))))) ∧
    (s.sec.disabled = false → s.stage = 5 → s.mbx.recovery = false →
      (∃ t, exec (.spdmGetVersion p) s = .next t ∧ t.port p = { s.port p with spdm := 1 } ∧ t.port (portOther p) = s.port (portOther p) ∧
        t.dp = s.dp.send (.spdm p (.version 1 3)) ∧ t = { s with dp := t.dp, mbx := { s.mbx with a := t.mbx.a, b := t.mbx.b } }) ∧
      (1 ≤ (s.port p).spdm → ∃ t, exec (.spdmGetCapabilities p) s = .next t ∧ t.port p = { s.port p with spdm := 2 } ∧ t.port (portOther p) = s.port (portOther p) ∧
        t.dp = s.dp.send (.spdm p .capabilities) ∧ t = { s with dp := t.dp, mbx := { s.mbx with a := t.mbx.a, b := t.mbx.b } }) ∧
      (2 ≤ (s.port p).spdm → (∃ t, exec (.spdmNegotiateAlgorithms p true) s = .next t ∧ t.port p = { s.port p with spdm := 3 } ∧ t.port (portOther p) = s.port (portOther p) ∧
          t.dp = s.dp.send (.spdm p .algorithms) ∧ t = { s with dp := t.dp, mbx := { s.mbx with a := t.mbx.a, b := t.mbx.b } }) ∧
        exec (.spdmNegotiateAlgorithms p false) s = .next (s.send (.spdm p (.error .invalid)))) ∧
      (3 ≤ (s.port p).spdm →
        (∃ l, exec (.spdmGetDigests p) s = .next (s.send (.spdm p (.digests l))) ∧
          ∀ n x, (n, x) ∈ l ↔ n < 2 ∧ ∃ c, s.certSlot n = some c ∧ x = sm3 c) ∧
        (s.certSlot slot = none → ∀ z ∈ [Instr.spdmGetCertificate p slot off len, .spdmChallenge p slot nonce], exec z s = .next (s.send (.spdm p (.error .invalid)))) ∧
        (∀ c, s.certSlot slot = some c →
          (c.length < off.toNat → exec (.spdmGetCertificate p slot off len) s = .next (s.send (.spdm p (.error .invalid)))) ∧
          (off.toNat ≤ c.length → ∃ part rest, exec (.spdmGetCertificate p slot off len) s = .next (s.send (.spdm p (.certificate slot part rest))) ∧
            part = (c.drop off.toNat).take len.toNat ∧ off.toNat + part.length + rest = c.length) ∧
          (s.canSign slot = true → exec (.spdmChallenge p slot nonce) s =
            .next (s.send (.spdm p (.challengeAuth slot (sm3 c) (Config.sm2Sign (s.privateKey slot) (sm3 c ++ le 32 nonce.toNat)))))) ∧
          (s.canSign slot = false → exec (.spdmChallenge p slot nonce) s = .next (s.send (.spdm p (.error .unspecified))))) ∧
        (bs = (if i = 0 then [] else if i = 0xFF then [1, 2, 3, 4].map fun j => (j, s.measurement j) else [(i.toNat, s.measurement i.toNat)]) →
          (i.toNat ≤ 4 ∨ i = 0xFF → exec (.spdmGetMeasurements p i none nonce) s = .next (s.send (.spdm p (.measurements 4 bs []))) ∧
            (s.certSlot slot = none → exec (.spdmGetMeasurements p i (some slot) nonce) s = .next (s.send (.spdm p (.error .invalid)))) ∧
            (s.certSlot slot ≠ none → s.canSign slot = false → exec (.spdmGetMeasurements p i (some slot) nonce) s = .next (s.send (.spdm p (.error .unspecified)))) ∧
            (s.certSlot slot ≠ none → s.canSign slot = true → exec (.spdmGetMeasurements p i (some slot) nonce) s =
              .next (s.send (.spdm p (.measurements 4 bs (Config.sm2Sign (s.privateKey slot) (bs.flatMap (fun b => le 1 b.1 ++ b.2) ++ le 32 nonce.toNat))))))) ∧
          (4 < i.toNat → i ≠ 0xFF → exec (.spdmGetMeasurements p i sign nonce) s = .next (s.send (.spdm p (.error .invalid))))) ∧
        (s.isOwner p = false → ∀ z ∈ [Instr.spdmGetCsr p, .spdmSetCertificate p slot chain], exec z s = .next (s.send (.spdm p (.error .unsupported)))) ∧
        (s.isOwner p = true →
          (exec (.spdmGetCsr p) s = .next (s.send (.spdm p (.csr (s.publicKey 0) s.dp.serial s.sec.revoke
            (Config.sm2Sign (s.privateKey 0) (s.publicKey 0 ++ le 16 s.dp.serial.toNat ++ le 1 s.sec.revoke)))))) ∧
          (slot = 0 → Config.chainVerifies chain (s.publicKey 0) = true → ∃ t, exec (.spdmSetCertificate p slot chain) s = .next t ∧
            t = { s with dp := s.dp.send (.spdm p (.certificateSet 0)), flash := { s.flash with chain := some (chain, s.sec.revoke) } }) ∧
          (slot ≠ 0 ∨ Config.chainVerifies chain (s.publicKey 0) = false → exec (.spdmSetCertificate p slot chain) s = .next (s.send (.spdm p (.error .invalid)))))))

/-- Accounting an activity, settling an epoch and a CLEAR keep the identity of the slot registers. CLEAR zeroes cycle counter,
slot registers and pending accumulators and leaves in each counter the addition of its cycle. While FREEZE is 1 every slot but
PCT_CTRL reads as it stood whatever is counted. A counter that wraps sets its flag; a held one takes no addition. A window end
latches each port's count, raises SEQ and starts anew; a write of US in range restarts the window without a latch, one out of
range is only logged. No other block changes. (R10, R511, R513, R514, R517) -/
def Obligations.CountersSumFreezeAndClear : Prop :=
  (∀ (p : Pct) (e : Option Nat) (a : Activity) (n : Nat) (dry : Bool) (l : List (BitVec 8)),
    p.Sums → (p.account e a).Sums ∧ (p.settle n dry).Sums ∧ (p.clear l).Sums) ∧
  ∀ (s : State) (i : Easel) (l : List (BitVec 8)) (v : Bool) (k : Fin 8) (x : BitVec 8) (us : BitVec 20),
    (∃ t, exec (.pctClear i l) s = .next t ∧ (t.pct i).cycle = 0 ∧ (t.pct i).retired = 0 ∧ (t.pct i).wasted = 0 ∧ (t.pct i).front = 0 ∧
      (t.pct i).back = 0 ∧ (t.pct i).pending = 0 ∧ (t.pct i).ovf = (s.pct i).ovf ∧
      (∀ k : Fin 8, (t.pct i).counter k = if (s.pct i).enable then (l.getD k 0).setWidth 48 else 0) ∧
      (∀ m, m ≠ i.val → t.pct m = s.pct m) ∧ t = { s with pcts := t.pcts }) ∧
    (∃ t, exec (.pctFreeze i true) s = .next t ∧ (∀ (n : Fin 19) (e : Option Nat) (a : Activity), n.val ≠ 2 →
        ((t.pct i).account e a).read n = (s.pct i).image.getD n 0) ∧ (t.pct i).cnt = (s.pct i).cnt ∧
      (∀ m, m ≠ i.val → t.pct m = s.pct m) ∧ t = { s with pcts := t.pcts }) ∧
    (∃ t, exec (.pctFreeze i false) s = .next t ∧ (∀ n : Fin 19, (t.pct i).read n = (t.pct i).image.getD n 0) ∧
      (t.pct i).cnt = (s.pct i).cnt ∧ (∀ m, m ≠ i.val → t.pct m = s.pct m) ∧ t = { s with pcts := t.pcts }) ∧
    (∃ t, exec (.pctEnable i v) s = .next t ∧ t.pct i = { s.pct i with enable := v } ∧ (∀ m, m ≠ i.val → t.pct m = s.pct m) ∧
      t = { s with pcts := t.pcts }) ∧
    (∃ t, exec (.counterWrap i k x) s = .next t ∧ (∀ m, m ≠ i.val → t.pct m = s.pct m) ∧ t = { s with pcts := t.pcts } ∧
      ((s.pct i).enable = false → t.pct i = s.pct i) ∧
      ((s.pct i).enable = true →
        (t.pct i).counter k = (s.pct i).counter k + x.setWidth 48 ∧
        (2 ^ 48 ≤ ((s.pct i).counter k).toNat + x.toNat → (t.pct i).flag k = ((s.pct i).flag k).hwSet) ∧
        (((s.pct i).counter k).toNat + x.toNat < 2 ^ 48 → (t.pct i).flag k = (s.pct i).flag k) ∧
        ∀ j : Fin 8, j ≠ k → (t.pct i).counter j = (s.pct i).counter j ∧ (t.pct i).flag j = (s.pct i).flag j)) ∧
    (∃ t, exec .portWindowEnd s = .next t ∧ t.win.seq = s.win.seq + 1 ∧ t.win.us = s.win.us ∧ t.win.start = s.clk.count ∧
      (∀ j, j < 324 → Sparse.get 0 t.win.latched j = BitVec.ofNat 48 (s.portCount j) ∧ t.portCount j = 0) ∧
      t = { s with win := t.win, portRun := [], dp := { s.dp with mem := { s.dp.mem with chan := [] } } }) ∧
    (1 ≤ us.toNat → us.toNat ≤ 1000000 → ∃ t, exec (.pctWindowWrite us) s = .next t ∧ t.win = { s.win with us := us, start := s.clk.count } ∧
      (∀ j, t.portCount j = 0) ∧ t = { s with win := t.win, portRun := [], dp := { s.dp with mem := { s.dp.mem with chan := [] } } }) ∧
    (us = 0 ∨ 1000000 < us.toNat → ∃ t, exec (.pctWindowWrite us) s = .next t ∧ t = { s with dp := t.dp } ∧ s.dp.Quiet t.dp)

/-- A record that enters takes NEXT_SEQ, which rises by one; the one that makes 16,384 fills the log; a record that finds the
log or the buffer full is dropped, takes no number and is counted. The recorder moves its oldest buffered record to the end of
the active bank, and with none changes nothing; a configuration save keeps DROPPED, FULL and NEXT_SEQ. A wear or eye sample
replaces the sample of its day as the kind says (the last for ageing, the lowest for an eye, the day's sum for memory) or joins
the last 90 days, and DAYS follows the stored samples; a memory monitor reads the errors counted since its last reading; nothing
is logged unless DAYS crosses 90, 30 or 1. (R503, R504, R505, R506, R518, R519, R521) -/
def Obligations.RecordsAreNumberedKeptAndDropped : Prop :=
  (∀ (d : Dp) (ty : Nat) (src st : BitVec 16) (x : Status) (l : List Byte), st = x.toCode →
    (d.evr.full = false → d.evr.buffer.length < 512 → (d.record ty src x l).evr.buffer = d.evr.buffer ++
        [{ seq := d.evr.nextSeq, type := BitVec.ofNat 16 ty, source := src, status := st, payload := l }] ∧
      (d.record ty src x l).evr.nextSeq = d.evr.nextSeq + 1 ∧ (d.record ty src x l).evr.dropped = d.evr.dropped ∧
      ((d.record ty src x l).evr.full = true ↔ (d.evr.nextSeq + 1 - d.evr.firstSeq).toNat = 16384)) ∧
    (d.evr.full = true ∨ 512 ≤ d.evr.buffer.length → (d.record ty src x l).evr.buffer = d.evr.buffer ∧
      (d.record ty src x l).evr.nextSeq = d.evr.nextSeq ∧ (d.record ty src x l).evr.drop = d.evr.drop.hwSet ∧
      (d.record ty src x l).evr.dropped = (if d.evr.dropped = BitVec.allOnes 32 then d.evr.dropped else d.evr.dropped + 1))) ∧
  ∀ (s : State) (r : Record) (l : List Record) (m : Fin 160) (x v y : Int) (n : Link) (h : BitVec 16) (z : Nat × Instr),
    (s.dp.evr.buffer = r :: l → ∃ t, exec .recordFlashWrite s = .next t ∧ t.dp.evr.buffer = l ∧
      t.dp.evr.active = s.dp.evr.active ++ [r] ∧ t.dp.evr.bank = s.dp.evr.bank ∧ t.dp.evr.nextSeq = s.dp.evr.nextSeq ∧ t = { s with dp := { s.dp with evr := t.dp.evr } }) ∧
    (s.dp.evr.buffer = [] → exec .recordFlashWrite s = .next s) ∧
    (∃ t, exec .flashConfigSave s = .next t ∧ t = { s with dp := { s.dp with evr := { s.dp.evr with
      saved := some (s.dp.evr.dropped, s.dp.evr.full, s.dp.evr.nextSeq) } } }) ∧
    (v = (if wearKind m = 3 then (if (s.wearMon m).seen ≤ s.ceTotal m then (s.ceTotal m : Int) - (s.wearMon m).seen else s.ceTotal m) else x) →
      z = (m.val, Instr.wearSample m x) ∨ m.val = 48 + n.val ∧ v = (h.toNat : Int) ∧ z = (48 + n.val, .eyeSample n h) →
      ∃ t, exec z.2 s = .next t ∧
        ((s.wearMon m).samples.getLast? = some (s.wear.day, y) →
          (t.wearMon m).samples = (s.wearMon m).samples.dropLast ++ [(s.wear.day, if wearKind m = 1 then v else if wearKind m = 2 then min y v else y + v)]) ∧
        ((∀ b, (s.wearMon m).samples.getLast? ≠ some (s.wear.day, b)) →
          (t.wearMon m).samples = ((s.wearMon m).samples ++ [(s.wear.day, v)]).drop ((s.wearMon m).samples.length - 89)) ∧
        (t.wearMon m).last = (t.wearMon m).days m ∧ (wearKind m = 3 → (t.wearMon m).seen = s.ceTotal m) ∧
        (∀ j, j ≠ m.val → t.wearMon j = s.wearMon j) ∧ ((∀ b ∈ [90, 30, 1], (t.wearMon m).last < b → (s.wearMon m).last < b) → t.dp = s.dp) ∧
        t = { s with dp := t.dp, wear := t.wear } ∧ s.dp.Quiet t.dp)

/-- Loss of main while the conversion runs stops it: ST0 and M3, memory lost, the record buffer in flash, start-up due;
otherwise it is only noted. Loss of standby resets what the power cycle resets and loses the buffer; flash records and OTP stay.
Standby good brings the always-on island up in M3. Both inputs good start the module at ST0 and M0, not after a trip, while
TRAY_PWR_REQ is asserted or with no start due. A thermal shutdown trips the conversion. With no response to TRAY_PWR_REQ the
request stays and is logged again. Where nothing is lost or due, nothing changes. (R427, R530, R532, R533, R538) -/
def Obligations.SuppliesStopAndStartTheModule : Prop :=
  ∀ s : State,
    (s.converting = true → ∃ t, exec .mainUndervoltage s = .next t ∧ t.stage = 0 ∧ t.pwr.mstate = 3 ∧
      t.elec = { s.elec with mainGood := false, convOff := true, startDue := true, cold := true } ∧ t.dp.mem.bytes = [] ∧
      t.dp.evr.buffer = [] ∧ t.dp.evr.active = s.dp.evr.active ++ s.dp.evr.buffer ∧ t.jobs = [] ∧ t.roles.waiting = true ∧ t.roles.role = .worker ∧
      t.flash = s.flash ∧ t.sec.otp = s.sec.otp) ∧
    (s.converting = false → exec .mainUndervoltage s = .next { s with elec := { s.elec with mainGood := false } }) ∧
    (s.elec.stby = true → ∃ t, exec .standbyLoss s = .next t ∧ t.stage = 0 ∧ t.pwr = { mstate := 3 } ∧
      t.elec = { stby := false, mainGood := s.elec.mainGood, cold := true } ∧ t.dp.mem.bytes = [] ∧ t.dp.evr.buffer = [] ∧
      t.dp.evr.active = s.dp.evr.active ∧ t.flash = s.flash ∧ t.sec.otp = s.sec.otp ∧ t.sec.hold = false ∧ t.jobs = [] ∧ t.wdg = {} ∧ t.clk = {}) ∧
    (s.elec.stby = false → exec .standbyLoss s = .next s) ∧
    (s.elec.stby = false → exec .standbyGood s = .next { s with
      stage := 0, pwr := { s.pwr with mstate := 3 }, elec := { s.elec with stby := true, startDue := true } }) ∧
    (s.elec.stby = true → exec .standbyGood s = .next s) ∧
    (s.elec.stby = true → s.elec.startDue = true → s.elec.tripped = false → s.elec.pwrReq = false →
      exec .powerGood s = .next { s with
        stage := 0, pwr := { s.pwr with mstate := 0 }, elec := { s.elec with mainGood := true, startDue := false, convOff := false } }) ∧
    (s.elec.stby = false ∨ s.elec.startDue = false ∨ s.elec.tripped = true ∨ s.elec.pwrReq = true →
      exec .powerGood s = .next { s with elec := { s.elec with mainGood := true } }) ∧
    (s.converting = true → ∃ t, exec .thermalShutdown s = .next t ∧ t.elec = { s.elec with tripped := true, convOff := true, cold := true } ∧ t.stage = 0 ∧
      t.pwr.mstate = 3 ∧ t.dp.mem.bytes = [] ∧ t.dp.evr.buffer = [] ∧ t.dp.evr.active = s.dp.evr.active ++ s.dp.evr.buffer ∧ t.flash = s.flash ∧ t.sec.otp = s.sec.otp) ∧
    (s.converting = false → exec .thermalShutdown s = .next { s with elec := { s.elec with tripped := true, convOff := true } }) ∧
    (s.elec.pwrReq = true → s.elec.stby = true → ∃ t, exec .trayNoResponse s = .next t ∧ t = { s with dp := t.dp } ∧
      s.dp.Quiet t.dp ∧ t.elec.pwrReq = true ∧ (s.dp.evr.full = false → s.dp.evr.buffer.length < 512 →
        ∃ r, t.dp.evr.buffer = s.dp.evr.buffer ++ [r] ∧ r.seq = s.dp.evr.nextSeq ∧ r.status = s.wdg.status)) ∧
    (s.elec.pwrReq = false ∨ s.elec.stby = false → exec .trayNoResponse s = .next s)

/-- A die at 100 °C or an outlet at 70 °C asserts its cause of ALERT#; it is released once the die is at or below 95 °C or the
outlet at or below 65 °C; the causes are separate. The responder answers part number, serial, coordinate, status, power and the
two temperatures while standby is good, and not otherwise, and changes nothing. (R528, R538) -/
def Obligations.TemperaturesAndSMBus : Prop :=
  ∀ (s : State) (d o r : BitVec 16),
    (∃ t, exec (.thermalAlert d o) s = .next t ∧ t = { s with elec := t.elec } ∧
      (200 ≤ d.toInt → t.elec.dieAlert = true) ∧ (d.toInt < 200 → t.elec.dieAlert = s.elec.dieAlert) ∧
      (140 ≤ o.toInt → t.elec.outAlert = true) ∧ (o.toInt < 140 → t.elec.outAlert = s.elec.outAlert) ∧
      t.elec = { s.elec with dieAlert := t.elec.dieAlert, outAlert := t.elec.outAlert }) ∧
    (∃ t, exec (.thermalAlertRelease d o) s = .next t ∧ t = { s with elec := t.elec } ∧
      (d.toInt ≤ 190 → t.elec.dieAlert = false) ∧ (190 < d.toInt → t.elec.dieAlert = s.elec.dieAlert) ∧
      (o.toInt ≤ 130 → t.elec.outAlert = false) ∧ (130 < o.toInt → t.elec.outAlert = s.elec.outAlert) ∧
      t.elec = { s.elec with dieAlert := t.elec.dieAlert, outAlert := t.elec.outAlert }) ∧
    (s.elec.stby = true →
      exec .smbusPartNumber s = .next (s.send (.smbus partNumber)) ∧
      exec .smbusSerial s = .next (s.send (.smbus (le 16 s.dp.serial.toNat))) ∧
      exec .smbusCoordinate s = .next (s.send (.smbus (le 4 s.dp.coord.code.toNat))) ∧
      (∃ w, exec .smbusStatus s = .next (s.send (.smbus (le 4 w))) ∧ bitsOf w 2 0 = s.stage % 8 ∧ bitsOf w 5 4 = s.pwr.mstate.toNat ∧
        bitOf w 8 = s.elec.dieAlert ∧ bitOf w 9 = s.elec.outAlert ∧ bitOf w 10 = s.elec.convOff) ∧
      exec .smbusPower s = .next (s.send (.smbus (le 2 (if s.converting then s.pwr.measured.toNat else 0)))) ∧
      exec (.smbusDieTemp r) s = .next (s.send (.smbus (le 2 r.toNat))) ∧
      exec (.smbusOutletTemp r) s = .next (s.send (.smbus (le 2 r.toNat)))) ∧
    (s.elec.stby = false → ∀ z ∈ [Instr.smbusPartNumber, .smbusSerial, .smbusCoordinate, .smbusStatus, .smbusPower, .smbusDieTemp r, .smbusOutletTemp r], exec z s = .next s)
end

