-- ==== Sys2Proof/Laws/Sparse.lean ====
section
/-! SUPPORT. The sparse maps: what each operation reads afterwards, and that each keeps the canonical form. -/
namespace Sys2Proof.Machine

variable {α : Type} [DecidableEq α] {d : α}

theorem Sparse.wfFrom_mono {lo lo' : Nat} (h : lo ≤ lo') : ∀ {m : List (Nat × α)}, Sparse.wfFrom d lo' m = true → Sparse.wfFrom d lo m = true
  | [], _ => rfl
  | (k, v) :: r, w => by
    simp only [Sparse.wfFrom, Bool.and_eq_true, decide_eq_true_eq] at w ⊢
    exact ⟨⟨Nat.le_trans h w.1.1, w.1.2⟩, w.2⟩

theorem Sparse.wfFrom_tail {lo k : Nat} {v : α} {r : List (Nat × α)} (w : Sparse.wfFrom d lo ((k, v) :: r) = true) :
    lo ≤ k ∧ v ≠ d ∧ Sparse.wfFrom d (k + 1) r = true := by
  simp only [Sparse.wfFrom, Bool.and_eq_true, decide_eq_true_eq] at w
  exact ⟨w.1.1, w.1.2, w.2⟩

theorem Sparse.wfFrom_cons {lo k : Nat} {v : α} {r : List (Nat × α)} (h1 : lo ≤ k) (h2 : v ≠ d) (h3 : Sparse.wfFrom d (k + 1) r = true) :
    Sparse.wfFrom d lo ((k, v) :: r) = true := by
  simp [Sparse.wfFrom, h1, h2, h3]

theorem Sparse.wfFrom_filter (p : Nat × α → Bool) : ∀ {lo : Nat} {m : List (Nat × α)},
    Sparse.wfFrom d lo m = true → Sparse.wfFrom d lo (m.filter p) = true
  | _, [], _ => rfl
  | lo, (k, v) :: r, w => by
    obtain ⟨h1, h2, h3⟩ := Sparse.wfFrom_tail w
    have ih := Sparse.wfFrom_filter p h3
    rw [List.filter_cons]
    split
    · exact Sparse.wfFrom_cons h1 h2 ih
    · exact Sparse.wfFrom_mono (by omega) ih

theorem Sparse.wfFrom_mapVal (f : α → α) : ∀ {lo : Nat} {m : List (Nat × α)},
    Sparse.wfFrom d lo m = true → Sparse.wfFrom d lo (Sparse.mapVal d f m) = true
  | _, [], _ => rfl
  | lo, (k, v) :: r, w => by
    obtain ⟨h1, _, h3⟩ := Sparse.wfFrom_tail w
    have ih := Sparse.wfFrom_mapVal f h3
    simp only [Sparse.mapVal, List.filterMap_cons] at ih ⊢
    split
    · exact Sparse.wfFrom_mono (by omega) ih
    · next h =>
      split at h
      · cases h
      · cases h
        exact Sparse.wfFrom_cons h1 (by assumption) ih

theorem Sparse.wfFrom_del (k : Nat) {lo : Nat} {m : List (Nat × α)} (w : Sparse.wfFrom d lo m = true) :
    Sparse.wfFrom d lo (Sparse.del m k) = true := Sparse.wfFrom_filter _ w

theorem Sparse.wfFrom_ins {k : Nat} {x : α} (hx : x ≠ d) : ∀ {lo : Nat} {m : List (Nat × α)}, lo ≤ k →
    Sparse.wfFrom d lo m = true → Sparse.wfFrom d lo (Sparse.ins m k x) = true
  | _, [], hk, _ => Sparse.wfFrom_cons hk hx rfl
  | lo, (k', v) :: r, hk, w => by
    obtain ⟨h1, h2, h3⟩ := Sparse.wfFrom_tail w
    simp only [Sparse.ins]
    split
    · subst k'; exact Sparse.wfFrom_cons hk hx h3
    · split
      · exact Sparse.wfFrom_cons hk hx (Sparse.wfFrom_cons (by omega) h2 h3)
      · exact Sparse.wfFrom_cons h1 h2 (Sparse.wfFrom_ins hx (by omega) h3)

theorem Sparse.wf_nil : Sparse.wf d [] = true := rfl

theorem Sparse.wf_ins {m : List (Nat × α)} {k : Nat} {x : α} (hx : x ≠ d) (w : Sparse.wf d m = true) :
    Sparse.wf d (Sparse.ins m k x) = true := Sparse.wfFrom_ins hx (Nat.zero_le k) w

/-- Writing keeps the canonical form. -/
theorem Sparse.wf_set {m : List (Nat × α)} {k : Nat} {x : α} (w : Sparse.wf d m = true) : Sparse.wf d (Sparse.set d m k x) = true := by
  unfold Sparse.set
  split
  · exact Sparse.wfFrom_del k w
  · exact Sparse.wfFrom_ins (by assumption) (Nat.zero_le k) w

theorem Sparse.wf_upd {m : List (Nat × α)} {k : Nat} {f : α → α} (w : Sparse.wf d m = true) : Sparse.wf d (Sparse.upd d m k f) = true :=
  Sparse.wf_set w

theorem Sparse.wf_filter {m : List (Nat × α)} {p : Nat × α → Bool} (w : Sparse.wf d m = true) : Sparse.wf d (m.filter p) = true :=
  Sparse.wfFrom_filter p w

theorem Sparse.wf_mapVal {m : List (Nat × α)} {f : α → α} (w : Sparse.wf d m = true) : Sparse.wf d (Sparse.mapVal d f m) = true :=
  Sparse.wfFrom_mapVal f w

omit [DecidableEq α] in
theorem Sparse.get_del {m : List (Nat × α)} {k j : Nat} :
    Sparse.get d (Sparse.del m k) j = if j = k then d else Sparse.get d m j := by
  unfold Sparse.del
  induction m with
  | nil => simp [Sparse.get]
  | cons e r ih =>
    obtain ⟨k', v⟩ := e
    rw [List.filter_cons]
    by_cases hk : k' = k
    · subst hk
      simp only [bne_self_eq_false, Bool.false_eq_true, if_false, ih, Sparse.get]
      split <;> rfl
    · simp only [bne_iff_ne, ne_eq, hk, not_false_eq_true, if_true, Sparse.get, ih]
      by_cases hj : j = k'
      · rw [if_pos hj, if_pos hj, if_neg (by omega)]
      · rw [if_neg hj, if_neg hj]

omit [DecidableEq α] in
theorem Sparse.get_ins {m : List (Nat × α)} {k j : Nat} {x : α} :
    Sparse.get d (Sparse.ins m k x) j = if j = k then x else Sparse.get d m j := by
  induction m with
  | nil => rfl
  | cons e r ih =>
    obtain ⟨k', v⟩ := e
    simp only [Sparse.ins]
    split
    · subst k'; simp only [Sparse.get]; split <;> rfl
    · split
      · rfl
      · simp only [Sparse.get, ih]
        by_cases hj : j = k'
        · rw [if_pos hj, if_pos hj, if_neg (by omega)]
        · rw [if_neg hj, if_neg hj]

/-- A read after a write: the value at its key, every other key as before. -/
theorem Sparse.get_set (m : List (Nat × α)) (k j : Nat) (x : α) :
    Sparse.get d (Sparse.set d m k x) j = if j = k then x else Sparse.get d m j := by
  unfold Sparse.set
  split
  · next h => rw [Sparse.get_del, h]
  · exact Sparse.get_ins

@[simp] theorem Sparse.get_set_self (m : List (Nat × α)) (k : Nat) (x : α) : Sparse.get d (Sparse.set d m k x) k = x := by
  simp [Sparse.get_set]

theorem Sparse.get_set_ne (m : List (Nat × α)) {k j : Nat} (x : α) (h : j ≠ k) :
    Sparse.get d (Sparse.set d m k x) j = Sparse.get d m j := by
  simp [Sparse.get_set, h]

@[simp] theorem Sparse.get_upd_self (m : List (Nat × α)) (k : Nat) (f : α → α) :
    Sparse.get d (Sparse.upd d m k f) k = f (Sparse.get d m k) := by
  simp [Sparse.upd]

theorem Sparse.get_upd_ne (m : List (Nat × α)) {k j : Nat} (f : α → α) (h : j ≠ k) :
    Sparse.get d (Sparse.upd d m k f) j = Sparse.get d m j := by
  simp [Sparse.upd, Sparse.get_set, h]

end Sys2Proof.Machine
end

