-- ==== Sys2Proof/Laws/Keep.lean ====
section
/-! SUPPORT. Rules by which a state operation is shown to leave the queue alone and to keep the invariant of Safety.lean: one rule for each way a definition is built. -/
namespace Sys2Proof.Laws
open Sys2Proof Sys2Proof.Machine

/-- The queue is `q` and the invariant holds. -/
structure Keep (q : List Instr) (s : State) : Prop where
  pending : s.pending = q
  inv     : s.Inv

/-- A data plane whose memory is canonical. -/
abbrev KeepD (d : Dp) : Prop := d.mem.Wf

variable {q : List Instr}

/-! ### State -/

theorem Keep.mk' {s : State} {dp clk emap eqs arrays trellises cqs lnk shares portRun win pcts wear jobs stage mgrs roles integ wdg pwr mbx
    flash sec elec fw ckps} (h : Keep q s)
    (hd : Keep q s → dp.mem.Wf) (hf : Keep q s → flash.Wf) (hs : Keep q s → SecOk sec flash) (he : Keep q s → ElecOk elec)
    (hst : Keep q s → StageOk stage pwr.mstate) :
    Keep q ⟨s.pending, dp, clk, emap, eqs, arrays, trellises, cqs, lnk, shares, portRun, win, pcts, wear, jobs, stage, mgrs, roles, integ,
      wdg, pwr, mbx, flash, sec, elec, fw, ckps⟩ :=
  ⟨h.pending, hd h, hf h, hs h, he h, hst h⟩

/-! State with only some of its parts written. -/

theorem Keep.upd {s : State} {clk emap eqs arrays trellises cqs lnk shares portRun win pcts wear jobs mgrs roles integ wdg mbx fw ckps} (h : Keep q s) :
    Keep q ⟨s.pending, s.dp, clk, emap, eqs, arrays, trellises, cqs, lnk, shares, portRun, win, pcts, wear, jobs, s.stage, mgrs, roles, integ,
      wdg, s.pwr, mbx, s.flash, s.sec, s.elec, fw, ckps⟩ :=
  ⟨h.pending, h.inv.mem, h.inv.flash, h.inv.sec, h.inv.elec, h.inv.stage⟩

theorem Keep.updD {s : State} {clk emap eqs arrays trellises cqs lnk shares portRun win pcts wear jobs mgrs roles integ wdg mbx fw ckps dp} (h : Keep q s) (hd : Keep q s → dp.mem.Wf) :
    Keep q ⟨s.pending, dp, clk, emap, eqs, arrays, trellises, cqs, lnk, shares, portRun, win, pcts, wear, jobs, s.stage, mgrs, roles, integ,
      wdg, s.pwr, mbx, s.flash, s.sec, s.elec, fw, ckps⟩ :=
  ⟨h.pending, hd h, h.inv.flash, h.inv.sec, h.inv.elec, h.inv.stage⟩

theorem Keep.updP {s : State} {clk emap eqs arrays trellises cqs lnk shares portRun win pcts wear jobs mgrs roles integ wdg mbx fw ckps pwr} (h : Keep q s) (hm : pwr.mstate = s.pwr.mstate) :
    Keep q ⟨s.pending, s.dp, clk, emap, eqs, arrays, trellises, cqs, lnk, shares, portRun, win, pcts, wear, jobs, s.stage, mgrs, roles, integ,
      wdg, pwr, mbx, s.flash, s.sec, s.elec, fw, ckps⟩ :=
  ⟨h.pending, h.inv.mem, h.inv.flash, h.inv.sec, h.inv.elec, hm ▸ h.inv.stage⟩

theorem Keep.updDP {s : State} {clk emap eqs arrays trellises cqs lnk shares portRun win pcts wear jobs mgrs roles integ wdg mbx fw ckps dp pwr} (h : Keep q s) (hd : Keep q s → dp.mem.Wf) (hm : pwr.mstate = s.pwr.mstate) :
    Keep q ⟨s.pending, dp, clk, emap, eqs, arrays, trellises, cqs, lnk, shares, portRun, win, pcts, wear, jobs, s.stage, mgrs, roles, integ,
      wdg, pwr, mbx, s.flash, s.sec, s.elec, fw, ckps⟩ :=
  ⟨h.pending, hd h, h.inv.flash, h.inv.sec, h.inv.elec, hm ▸ h.inv.stage⟩

theorem keep_let {e : State} {b : State → State} (h : Keep q e) (hb : ∀ x, Keep q x → Keep q (b x)) : Keep q (let x := e; b x) := hb e h
theorem keep_letP {β : Type} {e : State × β} {b : State × β → State} (h : Keep q e.1) (hb : ∀ x, Keep q x.1 → Keep q (b x)) :
    Keep q (let x := e; b x) := hb e h
theorem keep_letA {β : Type} {e : β} {b : β → State} (hb : ∀ x, Keep q (b x)) : Keep q (let x := e; b x) := hb e
theorem keep1_let {γ : Type} {e : State} {b : State → State × γ} (h : Keep q e) (hb : ∀ x, Keep q x → Keep q (b x).1) :
    Keep q (let x := e; b x).1 := hb e h
theorem keep1_letP {β γ : Type} {e : State × β} {b : State × β → State × γ} (h : Keep q e.1) (hb : ∀ x, Keep q x.1 → Keep q (b x).1) :
    Keep q (let x := e; b x).1 := hb e h
theorem keep1_letA {β γ : Type} {e : β} {b : β → State × γ} (hb : ∀ x, Keep q (b x).1) : Keep q (let x := e; b x).1 := hb e

theorem keep_foldl {β : Type} {l : List β} {g : State → β → State} {s : State} (h : Keep q s) (hg : ∀ s x, Keep q s → Keep q (g s x)) :
    Keep q (l.foldl g s) := by
  induction l generalizing s with
  | nil => exact h
  | cons x r ih => exact ih (hg s x h)

theorem keep_foldlP {β γ : Type} {l : List β} {g : State × γ → β → State × γ} {s : State × γ} (h : Keep q s.1)
    (hg : ∀ s x, Keep q s.1 → Keep q (g s x).1) : Keep q (l.foldl g s).1 := by
  induction l generalizing s with
  | nil => exact h
  | cons x r ih => exact ih (hg s x h)

theorem keep_fstOf {β : Type} {e : State × β} {s : State} {b : β} (h : e = (s, b)) (hk : Keep q e.1) : Keep q s := by
  subst h
  exact hk

theorem keep_onDp {s : State} {f : Dp → Dp} (h : Keep q s) (hf : ∀ d, KeepD d → KeepD (f d)) : Keep q (s.onDp f) :=
  ⟨h.pending, hf _ h.inv.mem, h.inv.flash, h.inv.sec, h.inv.elec, h.inv.stage⟩

theorem keep_ite {c : Prop} [Decidable c] {a b : State} (ha : c → Keep q a) (hb : ¬c → Keep q b) : Keep q (if c then a else b) := by
  split
  · exact ha ‹_›
  · exact hb ‹_›
theorem keep1_ite {γ : Type} {c : Prop} [Decidable c] {a b : State × γ} (ha : c → Keep q a.1) (hb : ¬c → Keep q b.1) :
    Keep q (if c then a else b).1 := by
  split
  · exact ha ‹_›
  · exact hb ‹_›

theorem keep_dp {s : State} (h : Keep q s) : KeepD s.dp := h.inv.mem

/-! ### What a command answers -/

/-- Where a command answers a next state, that state is kept. -/
def KeepX (q : List Instr) (o : Out) : Prop := ∀ t, o = .next t → Keep q t

theorem keepX_next {s : State} (h : Keep q s) : KeepX q (.next s) := fun _ e => (Host.Outcome.next.inj e) ▸ h
theorem keepX_ite {c : Prop} [Decidable c] {a b : Out} (ha : c → KeepX q a) (hb : ¬c → KeepX q b) : KeepX q (if c then a else b) := by
  split
  · exact ha ‹_›
  · exact hb ‹_›
theorem keepX_fault {f : Fault} : KeepX q (.fault f) := fun _ e => nomatch e
theorem keepX_refused {r : Refusal} : KeepX q (.refused r) := fun _ e => nomatch e

/-! ### The data plane -/

theorem keepD_ite {c : Prop} [Decidable c] {a b : Dp} (ha : c → KeepD a) (hb : ¬c → KeepD b) : KeepD (if c then a else b) := by
  split
  · exact ha ‹_›
  · exact hb ‹_›
theorem keepD1_ite {γ : Type} {c : Prop} [Decidable c] {a b : Dp × γ} (ha : c → KeepD a.1) (hb : ¬c → KeepD b.1) :
    KeepD (if c then a else b).1 := by
  split
  · exact ha ‹_›
  · exact hb ‹_›
theorem keepM_ite {c : Prop} [Decidable c] {a b : Mem} (ha : c → a.Wf) (hb : ¬c → b.Wf) : (if c then a else b).Wf := by
  split
  · exact ha ‹_›
  · exact hb ‹_›

theorem keepD_mk {now coord serial mem evr wet obs msixA msixB freeCtr out} (h : mem.Wf) :
    KeepD ⟨now, coord, serial, mem, evr, wet, obs, msixA, msixB, freeCtr, out⟩ := h
theorem keepD_let {e : Dp} {b : Dp → Dp} (h : KeepD e) (hb : ∀ x, KeepD x → KeepD (b x)) : KeepD (let x := e; b x) := hb e h
theorem keepD_letA {β : Type} {e : β} {b : β → Dp} (hb : ∀ x, KeepD (b x)) : KeepD (let x := e; b x) := hb e
theorem keepD_foldl {β : Type} {l : List β} {g : Dp → β → Dp} {s : Dp} (h : KeepD s) (hg : ∀ s x, KeepD s → KeepD (g s x)) :
    KeepD (l.foldl g s) := by
  induction l generalizing s with
  | nil => exact h
  | cons x r ih => exact ih (hg s x h)

theorem keepD_fstOf {β : Type} {e : Dp × β} {s : Dp} {b : β} (h : e = (s, b)) (hk : KeepD e.1) : KeepD s := by
  subst h
  exact hk

theorem keepM_fstOf {β : Type} {e : Mem × β} {s : Mem} {b : β} (h : e = (s, b)) (hk : e.1.Wf) : s.Wf := by
  subst h
  exact hk

theorem wf_foldlSparse {α β : Type} [DecidableEq α] {d : α} {l : List β} {g : List (Nat × α) → β → List (Nat × α)} {m : List (Nat × α)}
    (h : Sparse.wf d m = true) (hg : ∀ m x, Sparse.wf d m = true → Sparse.wf d (g m x) = true) : Sparse.wf d (l.foldl g m) = true := by
  induction l generalizing m with
  | nil => exact h
  | cons x r ih => exact ih (hg m x h)

theorem wf_foldlMem {β : Type} {l : List β} {g : Mem → β → Mem} {m : Mem} (h : m.Wf) (hg : ∀ m x, m.Wf → (g m x).Wf) :
    (l.foldl g m).Wf := by
  induction l generalizing m with
  | nil => exact h
  | cons x r ih => exact ih (hg m x h)

theorem memWf_mk {bytes errs unread region regionDue easelAt zeroed jobs units spareUsed repair toRetire streak lowered chan} (h1 : Sparse.wf 0 bytes = true)
    (h2 : Sparse.wf 0 errs = true) (h6 : Sparse.wf false unread = true) (h3 : Sparse.wf 0 region = true) (h4 : Sparse.wf false zeroed = true)
    (h5 : Sparse.wf 0 jobs = true) :
    (⟨bytes, errs, unread, region, regionDue, easelAt, zeroed, jobs, units, spareUsed, repair, toRetire, streak, lowered, chan⟩ : Mem).Wf :=
  ⟨h1, h2, h6, h3, h4, h5⟩

/-! ### Operations on the data plane -/

/-- An operation that keeps memory canonical, whatever it answers. -/
def KeepO {α : Type} (m : Op α) : Prop :=
  ∀ d, KeepD d → match m d with
    | .ok _ d' => KeepD d'
    | .error _ d' => KeepD d'

theorem keepO_ite {α : Type} {c : Prop} [Decidable c] {a b : Op α} (ha : c → KeepO a) (hb : ¬c → KeepO b) : KeepO (if c then a else b) := by
  split
  · exact ha ‹_›
  · exact hb ‹_›
theorem keepO_pure {α : Type} {a : α} : KeepO (pure a) := fun _ h => h
theorem keepO_throw {α : Type} {f : Fail} : KeepO (throw f : Op α) := fun _ h => h

theorem keepO_bind {α β : Type} {m : Op α} {k : α → Op β} (h : KeepO m) (hk : ∀ a, KeepO (k a)) : KeepO (m >>= k) := by
  intro d hd
  have h1 := h d hd
  simp only [bind, EStateM.bind]
  cases hm : m d with
  | ok a d' => rw [hm] at h1; exact hk a d' h1
  | error f d' => rw [hm] at h1; exact h1

/-- After `get` the state read is the state reached. -/
theorem keepO_get {β : Type} {k : Dp → Op β} (hk : ∀ d, KeepD d → KeepO (k d)) : KeepO ((get : Op Dp) >>= k) :=
  fun d hd => hk d hd d hd

theorem keepO_set {d : Dp} (h : KeepD d) : KeepO (set d : Op PUnit) := fun _ _ => h
theorem keepO_modify {f : Dp → Dp} (h : ∀ d, KeepD d → KeepD (f d)) : KeepO (modify f : Op PUnit) := fun d hd => h d hd
theorem keepO_letA {α β : Type} {e : β} {b : β → Op α} (hb : ∀ x, KeepO (b x)) : KeepO (let x := e; b x) := hb e
theorem keepO_letD {α : Type} {e : Dp} {b : Dp → Op α} (h : KeepD e) (hb : ∀ x, KeepD x → KeepO (b x)) : KeepO (let x := e; b x) := hb e h

theorem keepO_tryCatch {α : Type} {m : Op α} {k : Fail → Op α} (h : KeepO m) (hk : ∀ f, KeepO (k f)) : KeepO (tryCatch m k) := by
  intro d hd
  have h1 := h d hd
  simp only [tryCatch, tryCatchThe, MonadExceptOf.tryCatch, EStateM.tryCatch]
  cases hm : m d with
  | ok a d' => rw [hm] at h1; exact h1
  | error f d' => rw [hm] at h1; exact hk f d' h1

theorem keepO_forM {α : Type} {l : List α} {g : α → Op PUnit} (h : ∀ x, KeepO (g x)) : KeepO (l.forM g) := by
  induction l with
  | nil => exact keepO_pure
  | cons x r ih => exact keepO_bind (h x) fun _ => ih

theorem keepO_foldlM {α β : Type} {l : List α} {g : β → α → Op β} {b : β} (h : ∀ b x, KeepO (g b x)) : KeepO (l.foldlM g b) := by
  induction l generalizing b with
  | nil => exact keepO_pure
  | cons x r ih => exact keepO_bind (h b x) fun _ => ih

theorem keepO_mapM {α β : Type} {l : List α} {g : α → Op β} (h : ∀ x, KeepO (g x)) : KeepO (l.mapM g) := by
  induction l with
  | nil => exact keepO_pure
  | cons x r ih => simp only [List.mapM_cons]; exact keepO_bind (h x) fun _ => keepO_bind ih fun _ => keepO_pure

theorem keepO_filterMapM {α β : Type} {l : List α} {g : α → Op (Option β)} (h : ∀ x, KeepO (g x)) : KeepO (l.filterMapM g) := by
  suffices ∀ acc, KeepO (List.filterMapM.loop g l acc) from this []
  induction l with
  | nil => exact fun acc => keepO_pure
  | cons x r ih =>
    intro acc
    simp only [List.filterMapM.loop]
    refine keepO_bind (h x) fun y => ?_
    cases y <;> exact ih _

theorem keepD_draw {d : Dp} (h : KeepD d) : KeepD d.draw.2 := h

theorem keepO_exec {α : Type} {m : Op α} {d : Dp} (h : KeepO m) (hd : KeepD d) : KeepD (m.exec d).1 := by
  have h1 := h d hd
  simp only [Op.exec]
  cases hm : m d with
  | ok a d' => rw [hm] at h1; exact h1
  | error f d' => rw [hm] at h1; exact h1

end Sys2Proof.Laws
end

