-- ==== Sys2Proof/Laws/KeepOps.lean ====
section
/-! SUPPORT. What each operation of Machine/Ops.lean keeps: the queue and the invariant of Safety.lean, or the canonical form of memory. -/
namespace Sys2Proof.Laws
open Sys2Proof Sys2Proof.Machine
variable {q : List Instr}

theorem keep_Dp_setMsix {a0 : Dp} {a1 : Port} {a2 : List (Nat × MsixEntry)} (g0 : KeepD a0) : KeepD (@Dp.setMsix a0 a1 a2) := by
  unfold Dp.setMsix
  split
  · refine keepD_mk ?_
    show KeepD _
    assumption
  · refine keepD_mk ?_
    show KeepD _
    assumption

theorem keep_Dp_send {a0 : Dp} {a1 : OutMsg} (g0 : KeepD a0) : KeepD (@Dp.send a0 a1) := by
  unfold Dp.send
  refine keepD_mk ?_
  show KeepD _
  assumption

theorem keep_Dp_raise {a0 : Dp} {a1 : Port} {a2 : Nat} (g0 : KeepD a0) : KeepD (@Dp.raise a0 a1 a2) := by
  unfold Dp.raise
  extract_lets +onlyGivenNames -merge -useContext -underBinder x0
  try clear_value x0
  refine keepD_ite (fun _ => ?_) (fun _ => ?_)
  · refine keep_Dp_setMsix ?_
    assumption
  · refine keep_Dp_send ?_
    assumption

theorem keep_Dp_raiseBoth {a0 : Dp} {a1 : Nat} (g0 : KeepD a0) : KeepD (@Dp.raiseBoth a0 a1) := by
  unfold Dp.raiseBoth
  refine keep_Dp_raise ?_
  refine keep_Dp_raise ?_
  assumption

theorem keep_Dp_record {a0 : Dp} {a1 : Nat} {a2 : BitVec 16} {a3 : Status} {a4 : List Byte} (g0 : KeepD a0) : KeepD (@Dp.record a0 a1 a2 a3 a4) := by
  unfold Dp.record
  refine keepD_ite (fun _ => ?_) (fun _ => ?_)
  · refine keepD_mk ?_
    show KeepD _
    assumption
  · extract_lets +onlyGivenNames -merge -useContext -underBinder x0
    try clear_value x0
    refine keepD_ite (fun _ => ?_) (fun _ => ?_)
    · refine keep_Dp_raiseBoth ?_
      refine keepD_mk ?_
      show KeepD _
      assumption
    · refine keepD_mk ?_
      show KeepD _
      assumption

theorem keep_Dp_updWet {a0 : Dp} {a1 : Nat} {a2 : WetPart → WetPart} (g0 : KeepD a0) : KeepD (@Dp.updWet a0 a1 a2) := by
  unfold Dp.updWet
  refine keepD_mk ?_
  show KeepD _
  assumption

end Sys2Proof.Laws
end

