-- ==== Sys2Proof/Laws/KeepMemory.lean ====
section
/-! SUPPORT. What each operation of Machine/Memory.lean keeps: the queue and the invariant of Safety.lean, or the canonical form of memory. -/
namespace Sys2Proof.Laws
open Sys2Proof Sys2Proof.Machine
variable {q : List Instr}

theorem keep_Op_exec {a0 : Type} {a1 : Op a0} {a2 : Dp} (h1 : KeepO a1) (h2 : KeepD a2) : KeepD (@Op.exec a0 a1 a2).1 := by
  have h := h1 a2 h2
  unfold Op.exec
  split <;> simp_all

theorem keep_failOp {a0 : Type} {a1 : Status} {a2 : optParam Addr 0} {a3 : optParam Nat 0} {a4 : optParam Nat 255} : KeepO (@failOp a0 a1 a2 a3 a4) := by
  unfold failOp
  exact keepO_throw

theorem keep_afterWrite {a0 : Type} {a1 : Op a0} (g1 : KeepO a1) : KeepO (@afterWrite a0 a1) := by
  unfold afterWrite
  refine keepO_tryCatch ?_ ?_
  · assumption
  · intro _
    exact keepO_throw

theorem keep_attempt {a0 : Type} {a1 : Op a0} (g1 : KeepO a1) : KeepO (@attempt a0 a1) := by
  unfold attempt
  refine keepO_tryCatch ?_ ?_
  · refine keepO_bind ?_ ?_
    · assumption
    · intro _
      exact keepO_pure
  · intro _
    exact keepO_pure

theorem keep_needOk {a0 : Status} {a1 : optParam Addr 0} {a2 : optParam Nat 0} : KeepO (@needOk a0 a1 a2) := by
  unfold needOk
  refine keepO_ite (fun _ => ?_) (fun _ => ?_)
  · exact keepO_pure
  · exact keep_failOp

theorem keep_Dp_updUnit {a0 : Dp} {a1 : Nat} {a2 : MemUnit → MemUnit} (g0 : KeepD a0) : KeepD (@Dp.updUnit a0 a1 a2) := by
  unfold Dp.updUnit
  refine keepD_mk ?_
  extract_lets +onlyGivenNames -merge -useContext -underBinder x0
  have h0 : Mem.Wf x0 := by
    unfold x0
    show KeepD _
    assumption
  try clear_value x0
  refine memWf_mk ?_ ?_ ?_ ?_ ?_ ?_
  · refine Mem.Wf.bytes ?_
    assumption
  · refine Mem.Wf.errs ?_
    assumption
  · refine Mem.Wf.unread ?_
    assumption
  · refine Mem.Wf.region ?_
    assumption
  · refine Mem.Wf.zeroed ?_
    assumption
  · refine Mem.Wf.jobs ?_
    assumption

theorem keep_memRecord {a0 : Dp} {a1 : Nat} {a2 : Nat} {a3 : Addr} {a4 : BitVec 32} {a5 : Status} (g0 : KeepD a0) : KeepD (@memRecord a0 a1 a2 a3 a4 a5) := by
  unfold memRecord
  refine keep_Dp_record ?_
  assumption

theorem keep_countCe {a0 : Dp} {a1 : Nat} (g0 : KeepD a0) : KeepD (@countCe a0 a1) := by
  unfold countCe
  extract_lets +onlyGivenNames -merge -useContext -underBinder x0
  try clear_value x0
  extract_lets +onlyGivenNames -merge -useContext -underBinder x1
  try clear_value x1
  extract_lets +onlyGivenNames -merge -useContext -underBinder x2
  try clear_value x2
  extract_lets +onlyGivenNames -merge -useContext -underBinder x3
  try clear_value x3
  extract_lets +onlyGivenNames -merge -useContext -underBinder x4
  have h4 : KeepD x4 := by
    unfold x4
    refine keep_Dp_updUnit ?_
    assumption
  try clear_value x4
  refine keepD_ite (fun _ => ?_) (fun _ => ?_)
  · refine keep_memRecord ?_
    assumption
  · assumption

theorem keep_markRow {a0 : Dp} {a1 : Nat} (g0 : KeepD a0) : KeepD (@markRow a0 a1) := by
  unfold markRow
  refine keepD_ite (fun _ => ?_) (fun _ => ?_)
  · assumption
  · extract_lets +onlyGivenNames -merge -useContext -underBinder x0
    try clear_value x0
    extract_lets +onlyGivenNames -merge -useContext -underBinder x1
    have h1 : Mem.Wf x1 := by
      unfold x1
      show KeepD _
      assumption
    try clear_value x1
    extract_lets +onlyGivenNames -merge -useContext -underBinder x2
    have h2 : KeepD x2 := by
      unfold x2
      refine keepD_mk ?_
      refine memWf_mk ?_ ?_ ?_ ?_ ?_ ?_
      · refine Mem.Wf.bytes ?_
        assumption
      · refine Mem.Wf.errs ?_
        assumption
      · refine Mem.Wf.unread ?_
        assumption
      · refine Mem.Wf.region ?_
        assumption
      · refine Mem.Wf.zeroed ?_
        assumption
      · refine Mem.Wf.jobs ?_
        assumption
    try clear_value x2
    refine keep_memRecord ?_
    refine keep_Dp_updUnit ?_
    assumption

theorem keep_countUe {a0 : Dp} {a1 : Nat} {a2 : Nat} {a3 : BitVec 32} (g0 : KeepD a0) : KeepD (@countUe a0 a1 a2 a3) := by
  unfold countUe
  extract_lets +onlyGivenNames -merge -useContext -underBinder x0
  try clear_value x0
  extract_lets +onlyGivenNames -merge -useContext -underBinder x1
  try clear_value x1
  refine keep_memRecord ?_
  refine keep_Dp_updUnit ?_
  assumption

theorem keep_Mem_setByte {a0 : Mem} {a1 : Nat} {a2 : Byte} (g0 : Mem.Wf a0) : Mem.Wf (@Mem.setByte a0 a1 a2) := by
  unfold Mem.setByte
  refine memWf_mk ?_ ?_ ?_ ?_ ?_ ?_
  · refine Sparse.wf_set ?_
    refine Mem.Wf.bytes ?_
    assumption
  · refine Mem.Wf.errs ?_
    assumption
  · refine Mem.Wf.unread ?_
    assumption
  · refine Mem.Wf.region ?_
    assumption
  · refine Mem.Wf.zeroed ?_
    assumption
  · refine Mem.Wf.jobs ?_
    assumption

theorem keep_Mem_poke {a0 : Mem} {a1 : Nat} {a2 : List Byte} (g0 : Mem.Wf a0) : Mem.Wf (@Mem.poke a0 a1 a2) := by
  induction a2 generalizing a0 a1 with
  | nil =>
    rw [Mem.poke]
    assumption
  | cons u1 u2 ih =>
    rw [Mem.poke]
    apply ih
    refine keep_Mem_setByte ?_
    assumption

theorem keep_Mem_putWord {a0 : Mem} {a1 : Nat} {a2 : List Byte} (g0 : Mem.Wf a0) : Mem.Wf (@Mem.putWord a0 a1 a2) := by
  unfold Mem.putWord
  refine keep_Mem_poke ?_
  refine memWf_mk ?_ ?_ ?_ ?_ ?_ ?_
  · refine Mem.Wf.bytes ?_
    assumption
  · refine Sparse.wf_set ?_
    refine Mem.Wf.errs ?_
    assumption
  · refine Sparse.wf_set ?_
    refine Mem.Wf.unread ?_
    assumption
  · refine Mem.Wf.region ?_
    assumption
  · refine Mem.Wf.zeroed ?_
    assumption
  · refine Mem.Wf.jobs ?_
    assumption

theorem keep_Mem_flip {a0 : Mem} {a1 : Nat} {a2 : Nat} {a3 : Byte} (g0 : Mem.Wf a0) : Mem.Wf (@Mem.flip a0 a1 a2 a3) := by
  unfold Mem.flip
  extract_lets +onlyGivenNames -merge -useContext -underBinder x0
  try clear_value x0
  extract_lets +onlyGivenNames -merge -useContext -underBinder x1
  have h1 : Mem.Wf x1 := by
    unfold x1
    refine keep_Mem_poke ?_
    assumption
  try clear_value x1
  refine memWf_mk ?_ ?_ ?_ ?_ ?_ ?_
  · refine Mem.Wf.bytes ?_
    assumption
  · refine Sparse.wf_set ?_
    refine Mem.Wf.errs ?_
    assumption
  · refine Mem.Wf.unread ?_
    assumption
  · refine Mem.Wf.region ?_
    assumption
  · refine Mem.Wf.zeroed ?_
    assumption
  · refine Mem.Wf.jobs ?_
    assumption

theorem keep_Mem_upset {a0 : Mem} {a1 : Upset} (g0 : Mem.Wf a0) : Mem.Wf (@Mem.upset a0 a1) := by
  unfold Mem.upset
  split
  · refine keepM_ite (fun _ => ?_) (fun _ => ?_)
    · refine keep_Mem_flip ?_
      assumption
    · assumption
  · refine keepM_ite (fun _ => ?_) (fun _ => ?_)
    · refine keep_Mem_flip ?_
      assumption
    · assumption

theorem keep_Dp_upsets {a0 : Dp} {a1 : List Upset} (g0 : KeepD a0) : KeepD (@Dp.upsets a0 a1) := by
  unfold Dp.upsets
  refine keepD_mk ?_
  refine wf_foldlMem ?_ ?_
  · show KeepD _
    assumption
  · intro _ _ _
    refine keep_Mem_upset ?_
    assumption

theorem keep_countChan {a0 : Dp} {a1 : Nat} {a2 : Bool} (g0 : KeepD a0) : KeepD (@countChan a0 a1 a2) := by
  unfold countChan
  extract_lets +onlyGivenNames -merge -useContext -underBinder x0
  try clear_value x0
  refine keepD_ite (fun _ => ?_) (fun _ => ?_)
  · refine keepD_mk ?_
    extract_lets +onlyGivenNames -merge -useContext -underBinder x1
    have h1 : Mem.Wf x1 := by
      unfold x1
      show KeepD _
      assumption
    try clear_value x1
    refine memWf_mk ?_ ?_ ?_ ?_ ?_ ?_
    · refine Mem.Wf.bytes ?_
      assumption
    · refine Mem.Wf.errs ?_
      assumption
    · refine Mem.Wf.unread ?_
      assumption
    · refine Mem.Wf.region ?_
      assumption
    · refine Mem.Wf.zeroed ?_
      assumption
    · refine Mem.Wf.jobs ?_
      assumption
  · assumption

theorem keep_readWord {a0 : Ctx} {a1 : Nat} {a2 : Nat} : KeepO (@readWord a0 a1 a2) := by
  unfold readWord
  refine keepO_bind ?_ ?_
  · refine keepO_modify ?_
    intro _ _
    refine keep_countChan ?_
    assumption
  · intro _
    refine keepO_get ?_
    intro _ _
    refine keepO_ite (fun _ => ?_) (fun _ => ?_)
    · exact keepO_pure
    · extract_lets +onlyGivenNames -merge -useContext -underBinder x0
      try clear_value x0
      extract_lets +onlyGivenNames -merge -useContext -underBinder x1
      try clear_value x1
      split
      · exact keepO_pure
      · refine keepO_bind ?_ ?_
        · refine keepO_set ?_
          refine keep_countCe ?_
          refine keepD_mk ?_
          refine keep_Mem_putWord ?_
          show KeepD _
          assumption
        · intro _
          exact keepO_pure
      · extract_lets +onlyGivenNames -merge -useContext -underBinder x2
        try clear_value x2
        split
        · extract_lets +onlyGivenNames -merge -useContext -underBinder x3
          have h3 : KeepD x3 := by
            unfold x3
            refine keep_countUe ?_
            assumption
          try clear_value x3
          refine keepO_bind ?_ ?_
          · refine keepO_set ?_
            refine keepD_ite (fun _ => ?_) (fun _ => ?_)
            · refine keep_markRow ?_
              assumption
            · assumption
          · intro _
            exact keep_failOp
        · refine keepO_bind ?_ ?_
          · refine keepO_set ?_
            refine keep_countCe ?_
            refine keepD_mk ?_
            refine keep_Mem_putWord ?_
            show KeepD _
            assumption
          · intro _
            exact keepO_pure

theorem keep_landWord {a0 : Ctx} {a1 : Nat} {a2 : Nat} {a3 : Nat} {a4 : List Byte} : KeepO (@landWord a0 a1 a2 a3 a4) := by
  unfold landWord
  refine keepO_bind ?_ ?_
  · refine keepO_modify ?_
    intro _ _
    refine keep_countChan ?_
    assumption
  · intro _
    refine keepO_get ?_
    intro _ _
    refine keepO_ite (fun _ => ?_) (fun _ => ?_)
    · exact keepO_pure
    · extract_lets +onlyGivenNames -merge -useContext -underBinder x0
      try clear_value x0
      extract_lets +onlyGivenNames -merge -useContext -underBinder x1
      try clear_value x1
      refine keepO_ite (fun _ => ?_) (fun _ => ?_)
      · exact keep_failOp
      · extract_lets +onlyGivenNames -merge -useContext -underBinder x2
        try clear_value x2
        refine keepO_ite (fun _ => ?_) (fun _ => ?_)
        · exact keepO_pure
        · refine keepO_bind ?_ ?_
          · exact keep_readWord
          · intro _
            exact keepO_pure

theorem keep_readWords {a0 : Ctx} {a1 : Nat} {a2 : Nat} {a3 : Nat} : KeepO (@readWords a0 a1 a2 a3) := by
  induction a3 generalizing a0 a1 a2 with
  | zero =>
    rw [readWords]
    exact keepO_pure
  | succ u1 ih =>
    rw [readWords]
    refine keepO_bind ?_ ?_
    · exact keep_readWord
    · intro _
      refine keepO_bind ?_ ?_
      · apply ih
      · intro _
        exact keepO_pure

theorem keep_readKey {a0 : Ctx} {a1 : Nat} {a2 : Nat} {a3 : Nat} : KeepO (@readKey a0 a1 a2 a3) := by
  unfold readKey
  refine keepO_bind ?_ ?_
  · exact keep_readWords
  · intro _
    exact keepO_pure

theorem keep_Mem_store {a0 : Mem} {a1 : List (Nat × List Byte)} (g0 : Mem.Wf a0) : Mem.Wf (@Mem.store a0 a1) := by
  unfold Mem.store
  refine wf_foldlMem ?_ ?_
  · assumption
  · intro _ _ r0
    refine keepM_ite (fun _ => ?_) (fun _ => ?_)
    · refine keep_Mem_putWord ?_
      assumption
    · refine keep_Mem_poke ?_
      assumption

theorem keep_writeKey {a0 : Ctx} {a1 : Nat} {a2 : Nat} {a3 : List Byte} : KeepO (@writeKey a0 a1 a2 a3) := by
  unfold writeKey
  refine keepO_bind ?_ ?_
  · refine keepO_mapM ?_
    intro r0
    refine keepO_bind ?_ ?_
    · exact keep_landWord
    · intro _
      exact keepO_pure
  · intro _
    refine keepO_modify ?_
    intro _ _
    refine keepD_mk ?_
    refine keep_Mem_store ?_
    show KeepD _
    assumption

theorem keep_remoteWords {a0 : Ctx} {a1 : Addr} {a2 : Nat} {a3 : Nat} : KeepO (@remoteWords a0 a1 a2 a3) := by
  induction a3 generalizing a0 a1 a2 with
  | zero =>
    rw [remoteWords]
    exact keepO_pure
  | succ u1 ih =>
    rw [remoteWords]
    split
    · refine keepO_bind ?_ ?_
      · apply ih
      · intro _
        exact keepO_pure
    · exact keep_failOp
    · exact keep_failOp

theorem keep_readAt {a0 : Ctx} {a1 : Addr} {a2 : Nat} : KeepO (@readAt a0 a1 a2) := by
  unfold readAt
  refine keepO_get ?_
  intro _ _
  split
  · exact keep_failOp
  · refine keepO_bind ?_ ?_
    · exact keep_needOk
    · intro _
      exact keep_readKey
  · refine keepO_bind ?_ ?_
    · exact keep_needOk
    · intro _
      refine keepO_bind ?_ ?_
      · refine keepO_modify ?_
        intro _ _
        refine keep_Dp_send ?_
        assumption
      · intro _
        refine keepO_bind ?_ ?_
        · exact keep_remoteWords
        · intro _
          exact keepO_pure

theorem keep_writeAt {a0 : Ctx} {a1 : Addr} {a2 : List Byte} : KeepO (@writeAt a0 a1 a2) := by
  unfold writeAt
  refine keepO_get ?_
  intro _ _
  split
  · exact keep_failOp
  · refine keepO_bind ?_ ?_
    · exact keep_needOk
    · intro _
      exact keep_writeKey
  · refine keepO_bind ?_ ?_
    · exact keep_needOk
    · intro _
      refine keepO_bind ?_ ?_
      · refine keepO_modify ?_
        intro _ _
        refine keep_Dp_send ?_
        assumption
      · intro _
        split
        · exact keep_failOp
        · exact keepO_pure

end Sys2Proof.Laws
end

