-- ==== Sys2Proof/Laws/KeepContext.lean ====
section
/-! SUPPORT. What each operation of Machine/Context.lean keeps: the queue and the invariant of Safety.lean, or the canonical form of memory. -/
namespace Sys2Proof.Laws
open Sys2Proof Sys2Proof.Machine
variable {q : List Instr}

theorem keep_updLink {a0 : State} {a1 : Nat} {a2 : LinkSt → LinkSt} (g0 : Keep q a0) : Keep q (@State.updLink a0 a1 a2) := by
  unfold State.updLink
  refine Keep.upd ?_
  assumption

theorem keep_updJob {a0 : State} {a1 : Nat} {a2 : Job → Job} (g0 : Keep q a0) : Keep q (@State.updJob a0 a1 a2) := by
  unfold State.updJob
  refine Keep.upd ?_
  assumption

theorem keep_updCkp {a0 : State} {a1 : Nat} {a2 : Ckp → Ckp} (g0 : Keep q a0) : Keep q (@State.updCkp a0 a1 a2) := by
  unfold State.updCkp
  refine Keep.upd ?_
  assumption

theorem keep_updShare {a0 : State} {a1 : Nat} {a2 : Nat} {a3 : Share → Share} (g0 : Keep q a0) : Keep q (@State.updShare a0 a1 a2 a3) := by
  unfold State.updShare
  refine Keep.upd ?_
  assumption

theorem keep_updEq {a0 : State} {a1 : Nat} {a2 : Eq → Eq} (g0 : Keep q a0) : Keep q (@State.updEq a0 a1 a2) := by
  unfold State.updEq
  refine Keep.upd ?_
  assumption

theorem keep_send {a0 : State} {a1 : OutMsg} (g0 : Keep q a0) : Keep q (@State.send a0 a1) := by
  unfold State.send
  refine keep_onDp ?_ ?_
  · assumption
  · intro _ _
    refine keep_Dp_send ?_
    assumption

theorem keep_record {a0 : State} {a1 : Nat} {a2 : BitVec 16} {a3 : Status} {a4 : List Byte} (g0 : Keep q a0) : Keep q (@State.record a0 a1 a2 a3 a4) := by
  unfold State.record
  refine keep_onDp ?_ ?_
  · assumption
  · intro _ _
    refine keep_Dp_record ?_
    assumption

theorem keep_raise {a0 : State} {a1 : Port} {a2 : Nat} (g0 : Keep q a0) : Keep q (@State.raise a0 a1 a2) := by
  unfold State.raise
  refine keep_onDp ?_ ?_
  · assumption
  · intro _ _
    refine keep_Dp_raise ?_
    assumption

theorem keep_loadRoutes {a0 : State} {a1 : List (BitVec 17 × List Link)} (g0 : Keep q a0) : Keep q (@State.loadRoutes a0 a1) := by
  unfold State.loadRoutes
  refine Keep.upd ?_
  assumption

theorem keep_runOp {a0 : Type} {a1 : State} {a2 : Env} {a3 : Op a0} (g1 : Keep q a1) (g3 : KeepO a3) : Keep q (@State.runOp a0 a1 a2 a3).1 := by
  unfold State.runOp
  extract_lets +onlyGivenNames -merge -useContext -underBinder x0
  have h0 : KeepD x0.1 := by
    unfold x0
    refine keep_Op_exec ?_ ?_
    · assumption
    · refine keep_Dp_upsets ?_
      first | exact h.inv.mem | exact Keep.inv ‹_› |>.mem
  try clear_value x0
  show Keep q _
  refine Keep.updD ?_ ?_
  · assumption
  · intro h
    assumption

theorem keep_around {a0 : State} {a1 : Env} {a2 : State → Env → State} (g0 : Keep q a0) (g2 : ∀ y0 y1, Keep q y0 → Keep q (a2 y0 y1)) : Keep q (@State.around a0 a1 a2) := by
  unfold State.around
  refine g2 _ _ ?_
  refine Keep.updD ?_ ?_
  · assumption
  · intro h
    refine keep_Dp_upsets ?_
    first | exact h.inv.mem | exact Keep.inv ‹_› |>.mem

end Sys2Proof.Laws
end

