-- ==== Sys2Proof/Laws/KeepRecorder.lean ====
section
/-! SUPPORT. What each operation of Machine/Recorder.lean keeps: the queue and the invariant of Safety.lean, or the canonical form of memory. -/
namespace Sys2Proof.Laws
open Sys2Proof Sys2Proof.Machine
variable {q : List Instr}

theorem keep_configRecord {a0 : State} {a1 : Nat} {a2 : Nat} (g0 : Keep q a0) : Keep q (@State.configRecord a0 a1 a2) := by
  unfold State.configRecord
  refine keep_record ?_
  assumption

theorem keep_onEvr {a0 : State} {a1 : Evr → Evr} (g0 : Keep q a0) : Keep q (@State.onEvr a0 a1) := by
  unfold State.onEvr
  refine keep_onDp ?_ ?_
  · assumption
  · intro _ _
    refine keepD_mk ?_
    show KeepD _
    assumption

theorem keep_execRecordFlashWrite {a0 : State} (g0 : Keep q a0) : KeepX q (@execRecordFlashWrite a0) := by
  unfold execRecordFlashWrite
  refine keepX_next ?_
  refine keep_onEvr ?_
  assumption

theorem keep_execFlashConfigSave {a0 : State} (g0 : Keep q a0) : KeepX q (@execFlashConfigSave a0) := by
  unfold execFlashConfigSave
  refine keepX_next ?_
  refine keep_onEvr ?_
  assumption

theorem keep_updPct {a0 : State} {a1 : Nat} {a2 : Pct → Pct} (g0 : Keep q a0) : Keep q (@State.updPct a0 a1 a2) := by
  unfold State.updPct
  refine Keep.upd ?_
  assumption

theorem keep_updPanel {a0 : State} {a1 : Nat} {a2 : PanelMap → PanelMap} (g0 : Keep q a0) : Keep q (@State.updPanel a0 a1 a2) := by
  unfold State.updPanel
  refine Keep.upd ?_
  assumption

theorem keep_execPctClear {a0 : Easel} {a1 : List (BitVec 8)} {a2 : State} (g2 : Keep q a2) : KeepX q (@execPctClear a0 a1 a2) := by
  unfold execPctClear
  refine keepX_next ?_
  refine keep_updPct ?_
  assumption

theorem keep_execPctFreeze {a0 : Easel} {a1 : Bool} {a2 : State} (g2 : Keep q a2) : KeepX q (@execPctFreeze a0 a1 a2) := by
  unfold execPctFreeze
  refine keepX_next ?_
  refine keep_updPct ?_
  assumption

theorem keep_execPctEnable {a0 : Easel} {a1 : Bool} {a2 : State} (g2 : Keep q a2) : KeepX q (@execPctEnable a0 a1 a2) := by
  unfold execPctEnable
  refine keepX_next ?_
  refine keep_updPct ?_
  assumption

theorem keep_execCounterWrap {a0 : Easel} {a1 : Fin 8} {a2 : BitVec 8} {a3 : State} (g3 : Keep q a3) : KeepX q (@execCounterWrap a0 a1 a2 a3) := by
  unfold execCounterWrap
  refine keepX_next ?_
  refine keep_updPct ?_
  assumption

theorem keep_windowEnd {a0 : State} (g0 : Keep q a0) : Keep q (@State.windowEnd a0) := by
  unfold State.windowEnd
  refine Keep.updD ?_ ?_
  · assumption
  · intro h
    extract_lets +onlyGivenNames -merge -useContext -underBinder x0
    have h0 : KeepD x0 := by
      unfold x0
      first | exact h.inv.mem | exact Keep.inv ‹_› |>.mem
    try clear_value x0
    refine keepD_mk ?_
    extract_lets +onlyGivenNames -merge -useContext -underBinder x1
    have h1 : Mem.Wf x1 := by
      unfold x1
      show KeepD _
      first | exact h.inv.mem | exact Keep.inv ‹_› |>.mem
    try clear_value x1
    refine memWf_mk ?_ ?_ ?_ ?_ ?_ ?_
    · refine Mem.Wf.bytes ?_
      assumption
    · refine Mem.Wf.errs ?_
      assumption
    · refine Mem.Wf.unread ?_
      assumption
    · refine Mem.Wf.region ?_
      assumption
    · refine Mem.Wf.zeroed ?_
      assumption
    · refine Mem.Wf.jobs ?_
      assumption

theorem keep_execPortWindowEnd {a0 : State} (g0 : Keep q a0) : KeepX q (@execPortWindowEnd a0) := by
  unfold execPortWindowEnd
  refine keepX_next ?_
  refine keep_windowEnd ?_
  assumption

theorem keep_windowWrite {a0 : State} {a1 : BitVec 20} (g0 : Keep q a0) : Keep q (@State.windowWrite a0 a1) := by
  unfold State.windowWrite
  refine keep_ite (fun _ => ?_) (fun _ => ?_)
  · refine keep_configRecord ?_
    assumption
  · refine Keep.updD ?_ ?_
    · assumption
    · intro h
      extract_lets +onlyGivenNames -merge -useContext -underBinder x0
      have h0 : KeepD x0 := by
        unfold x0
        first | exact h.inv.mem | exact Keep.inv ‹_› |>.mem
      try clear_value x0
      refine keepD_mk ?_
      extract_lets +onlyGivenNames -merge -useContext -underBinder x1
      have h1 : Mem.Wf x1 := by
        unfold x1
        show KeepD _
        first | exact h.inv.mem | exact Keep.inv ‹_› |>.mem
      try clear_value x1
      refine memWf_mk ?_ ?_ ?_ ?_ ?_ ?_
      · refine Mem.Wf.bytes ?_
        assumption
      · refine Mem.Wf.errs ?_
        assumption
      · refine Mem.Wf.unread ?_
        assumption
      · refine Mem.Wf.region ?_
        assumption
      · refine Mem.Wf.zeroed ?_
        assumption
      · refine Mem.Wf.jobs ?_
        assumption

theorem keep_execPctWindowWrite {a0 : BitVec 20} {a1 : State} (g1 : Keep q a1) : KeepX q (@execPctWindowWrite a0 a1) := by
  unfold execPctWindowWrite
  refine keepX_next ?_
  refine keep_windowWrite ?_
  assumption

theorem keep_wearSample {a0 : State} {a1 : Nat} {a2 : Int} (g0 : Keep q a0) : Keep q (@State.wearSample a0 a1 a2) := by
  unfold State.wearSample
  extract_lets +onlyGivenNames -merge -useContext -underBinder x0
  try clear_value x0
  extract_lets +onlyGivenNames -merge -useContext -underBinder x1
  try clear_value x1
  extract_lets +onlyGivenNames -merge -useContext -underBinder x2
  try clear_value x2
  extract_lets +onlyGivenNames -merge -useContext -underBinder x3
  try clear_value x3
  extract_lets +onlyGivenNames -merge -useContext -underBinder x4
  have h4 : Keep q x4 := by
    unfold x4
    refine Keep.upd ?_
    assumption
  try clear_value x4
  refine keep_foldl ?_ ?_
  · assumption
  · intro _ _ _
    refine keep_ite (fun _ => ?_) (fun _ => ?_)
    · refine keep_record ?_
      assumption
    · assumption

theorem keep_execWearSample {a0 : Fin 160} {a1 : Int} {a2 : State} (g2 : Keep q a2) : KeepX q (@execWearSample a0 a1 a2) := by
  unfold execWearSample
  refine keepX_next ?_
  refine keep_wearSample ?_
  assumption

theorem keep_execEyeSample {a0 : Link} {a1 : BitVec 16} {a2 : State} (g2 : Keep q a2) : KeepX q (@execEyeSample a0 a1 a2) := by
  unfold execEyeSample
  refine keepX_next ?_
  refine keep_wearSample ?_
  assumption

end Sys2Proof.Laws
end

