-- ==== Sys2Proof/Laws/KeepControl.lean ====
section
/-! SUPPORT. What each operation of Machine/Control.lean keeps: the queue and the invariant of Safety.lean, or the canonical form of memory. -/
namespace Sys2Proof.Laws
open Sys2Proof Sys2Proof.Machine
variable {q : List Instr}

theorem foldl_frame {α β : Type} {f : State → α} {g : State → β → State} {l : List β} (h : ∀ s x, f (g s x) = f s) :
    ∀ {s : State}, f (l.foldl g s) = f s := by
  induction l with
  | nil => exact rfl
  | cons x r ih => exact (ih (s := g _ x)).trans (h _ x)

theorem foldl_mstate {β : Type} {g : State → β → State} {l : List β} {s : State}
    (h : ∀ s x, (g s x).pwr.mstate = s.pwr.mstate) : (l.foldl g s).pwr.mstate = s.pwr.mstate :=
  foldl_frame (f := fun s => s.pwr.mstate) h

theorem zeroise_sec (s : State) : s.zeroise.sec.hold = s.sec.hold ∧ s.zeroise.flash = s.flash := by
  unfold State.zeroise
  constructor
  · exact foldl_frame (f := fun s => s.sec.hold) (g := fun s n => s.send (.keyEvent n (s.link n).tx.no true)) fun _ _ => rfl
  · exact foldl_frame (f := fun s => s.flash) (g := fun s n => s.send (.keyEvent n (s.link n).tx.no true)) fun _ _ => rfl

theorem Pwr_sense_mstate (p : Pwr) (m : BitVec 16) (a : Bool) : (p.sense m a).mstate = p.mstate := by
  unfold Pwr.sense
  extract_lets n
  split <;> rfl

theorem keep_quickset {a0 : State} {a1 : TreeTo} {a2 : Nat} {a3 : List Byte} (g0 : Keep q a0) : Keep q (@State.quickset a0 a1 a2 a3) := by
  unfold State.quickset
  refine keep_send ?_
  assumption

theorem keep_quicksetUp {a0 : State} {a1 : Nat} {a2 : List Byte} (g0 : Keep q a0) : Keep q (@State.quicksetUp a0 a1 a2) := by
  unfold State.quicksetUp
  refine keep_quickset ?_
  assumption

theorem keep_mgmt {a0 : State} {a1 : Mgmt} {a2 : BitVec 17} {a3 : BitVec 64} (g0 : Keep q a0) : Keep q (@State.mgmt a0 a1 a2 a3) := by
  unfold State.mgmt
  refine keep_send ?_
  assumption

theorem keep_report {a0 : State} {a1 : Nat} {a2 : BitVec 8} {a3 : Nat} {a4 : BitVec 16} {a5 : Option Tag} (g0 : Keep q a0) : Keep q (@State.report a0 a1 a2 a3 a4 a5) := by
  unfold State.report
  extract_lets +onlyGivenNames -merge -useContext -underBinder x0
  try clear_value x0
  refine keep_quickset ?_
  assumption

theorem keep_jobStatus {a0 : State} {a1 : Nat} {a2 : BitVec 16} (g0 : Keep q a0) : Keep q (@State.jobStatus a0 a1 a2) := by
  unfold State.jobStatus
  refine keep_ite (fun _ => ?_) (fun _ => ?_)
  · assumption
  · refine keep_onDp ?_ ?_
    · refine keep_updJob ?_
      assumption
    · intro _ _
      refine keep_Dp_raiseBoth ?_
      assumption

theorem keep_stopJob {a0 : State} {a1 : Nat} {a2 : BitVec 16} {a3 : BitVec 32} (g0 : Keep q a0) : Keep q (@State.stopJob a0 a1 a2 a3) := by
  unfold State.stopJob
  refine keep_mgmt ?_
  refine keep_jobStatus ?_
  refine keep_updJob ?_
  assumption

theorem keep_reportDegraded {a0 : State} (g0 : Keep q a0) : Keep q (@State.reportDegraded a0) := by
  unfold State.reportDegraded
  refine keep_mgmt ?_
  refine Keep.upd ?_
  assumption

theorem keep_setOtpSlot {a0 : State} {a1 : Nat} {a2 : Nat} {a3 : OtpSlot} (g0 : Keep q a0) : Keep q (@State.setOtpSlot a0 a1 a2 a3) := by
  unfold State.setOtpSlot
  refine Keep.mk' ?_ ?_ ?_ ?_ ?_ ?_
  · assumption
  · exact fun h => h.inv.mem
  · exact fun h => h.inv.flash
  · exact fun h => ⟨h.inv.sec.hold, h.inv.sec.erased, h.inv.sec.flash, h.inv.sec.revoke, h.inv.sec.disabled⟩
  · exact fun h => h.inv.elec
  · exact fun h => h.inv.stage

theorem keep_otpProgram {a0 : State} {a1 : Nat} {a2 : List Byte} {a3 : Bool} (g0 : Keep q a0) : Keep q (@State.otpProgram a0 a1 a2 a3).1 := by
  unfold State.otpProgram
  split
  · show Keep q _
    assumption
  · show Keep q _
    refine keep_setOtpSlot ?_
    assumption

theorem keep_Mem_dropScratch {a0 : Mem} (g0 : Mem.Wf a0) : Mem.Wf (@Mem.dropScratch a0) := by
  unfold Mem.dropScratch
  refine memWf_mk ?_ ?_ ?_ ?_ ?_ ?_
  · refine Sparse.wf_filter ?_
    refine Mem.Wf.bytes ?_
    assumption
  · refine Mem.Wf.errs ?_
    assumption
  · refine Mem.Wf.unread ?_
    assumption
  · refine Mem.Wf.region ?_
    assumption
  · refine Mem.Wf.zeroed ?_
    assumption
  · refine Mem.Wf.jobs ?_
    assumption

theorem keep_resetDies {a0 : State} (g0 : Keep q a0) : Keep q (@State.resetDies a0) := by
  unfold State.resetDies
  refine Keep.mk' ?_ ?_ ?_ ?_ ?_ ?_
  · assumption
  · intro h
    extract_lets +onlyGivenNames -merge -useContext -underBinder x0
    have h0 : KeepD x0 := by
      unfold x0
      first | exact h.inv.mem | exact Keep.inv ‹_› |>.mem
    try clear_value x0
    refine keepD_mk ?_
    extract_lets +onlyGivenNames -merge -useContext -underBinder x1
    have h1 : Mem.Wf x1 := by
      unfold x1
      refine keep_Mem_dropScratch ?_
      show KeepD _
      first | exact h.inv.mem | exact Keep.inv ‹_› |>.mem
    try clear_value x1
    refine memWf_mk ?_ ?_ ?_ ?_ ?_ ?_
    · refine Mem.Wf.bytes ?_
      assumption
    · refine Mem.Wf.errs ?_
      assumption
    · refine Mem.Wf.unread ?_
      assumption
    · rfl
    · refine Mem.Wf.zeroed ?_
      assumption
    · rfl
  · exact fun h => h.inv.flash
  · exact fun h => ⟨h.inv.sec.hold, h.inv.sec.erased, h.inv.sec.flash, h.inv.sec.revoke, h.inv.sec.disabled⟩
  · exact fun h => h.inv.elec
  · first | exact fun h => ⟨by decide, fun _ => rfl⟩ | exact fun h => ⟨by decide, fun e => absurd (show (0 : BitVec 2) = 3 from e) (by decide)⟩

theorem keep_hangRecord {a0 : State} {a1 : Nat} {a2 : Nat} {a3 : BitVec 16} {a4 : Nat} {a5 : Nat} {a6 : Nat} {a7 : Nat} {a8 : BitVec 32} {a9 : BitVec 32} {a10 : Nat} {a11 : BitVec 64} {a12 : BitVec 16} (g0 : Keep q a0) : Keep q (@State.hangRecord a0 a1 a2 a3 a4 a5 a6 a7 a8 a9 a10 a11 a12) := by
  unfold State.hangRecord
  extract_lets +onlyGivenNames -merge -useContext -underBinder x0
  try clear_value x0
  refine keep_record ?_
  assumption

theorem keep_levelRecord {a0 : State} {a1 : Nat} {a2 : Nat} {a3 : Nat} {a4 : BitVec 16} {a5 : Nat} {a6 : Nat} {a7 : BitVec 64} (g0 : Keep q a0) : Keep q (@State.levelRecord a0 a1 a2 a3 a4 a5 a6 a7) := by
  unfold State.levelRecord
  extract_lets +onlyGivenNames -merge -useContext -underBinder x0
  try clear_value x0
  extract_lets +onlyGivenNames -merge -useContext -underBinder x1
  try clear_value x1
  split
  · refine keep_hangRecord ?_
    assumption
  · refine keep_hangRecord ?_
    assumption

theorem keep_moduleRecord {a0 : State} {a1 : Nat} {a2 : Nat} {a3 : BitVec 16} {a4 : Nat} (g0 : Keep q a0) : Keep q (@State.moduleRecord a0 a1 a2 a3 a4) := by
  unfold State.moduleRecord
  refine keep_hangRecord ?_
  assumption

theorem keep_absorb {a0 : State} {a1 : Episode} (g0 : Keep q a0) : Keep q (@State.absorb a0 a1) := by
  unfold State.absorb
  refine keep_levelRecord ?_
  assumption

theorem keep_moduleReset {a0 : State} {a1 : BitVec 16} {a2 : optParam Bool Bool.true} {a3 : optParam Bool Bool.false} (g0 : Keep q a0) : Keep q (@State.moduleReset a0 a1 a2 a3) := by
  unfold State.moduleReset
  extract_lets +onlyGivenNames -merge -useContext -underBinder x0
  try clear_value x0
  refine keep_ite (fun _ => ?_) (fun _ => ?_)
  · refine keep_absorb ?_
    assumption
  · extract_lets +onlyGivenNames -merge -useContext -underBinder x1
    try clear_value x1
    extract_lets +onlyGivenNames -merge -useContext -underBinder x2
    have h2 : Keep q x2 := by
      unfold x2
      refine keep_foldl ?_ ?_
      · assumption
      · intro _ _ _
        refine keep_absorb ?_
        assumption
    try clear_value x2
    extract_lets +onlyGivenNames -merge -useContext -underBinder x3
    have h3 : Keep q x3 := by
      unfold x3
      refine keep_ite (fun _ => ?_) (fun _ => ?_)
      · refine keep_onDp ?_ ?_
        · refine keep_mgmt ?_
          assumption
        · intro _ _
          refine keep_Dp_raiseBoth ?_
          assumption
      · assumption
    try clear_value x3
    extract_lets +onlyGivenNames -merge -useContext -underBinder x4
    have h4 : Keep q x4 := by
      unfold x4
      refine keep_moduleRecord ?_
      assumption
    try clear_value x4
    extract_lets +onlyGivenNames -merge -useContext -underBinder x5
    have h5 : Keep q x5 := by
      unfold x5
      refine keep_ite (fun _ => ?_) (fun _ => ?_)
      · refine keep_onEvr ?_
        assumption
      · assumption
    try clear_value x5
    extract_lets +onlyGivenNames -merge -useContext -underBinder x6
    have h6 : Keep q x6 := by
      unfold x6
      refine keep_resetDies ?_
      assumption
    try clear_value x6
    refine Keep.upd ?_
    assumption

theorem keep_powerRequest {a0 : State} {a1 : BitVec 16} (g0 : Keep q a0) : Keep q (@State.powerRequest a0 a1) := by
  unfold State.powerRequest
  extract_lets +onlyGivenNames -merge -useContext -underBinder x0
  try clear_value x0
  refine keep_ite (fun _ => ?_) (fun _ => ?_)
  · refine keep_absorb ?_
    assumption
  · extract_lets +onlyGivenNames -merge -useContext -underBinder x1
    have h1 : Keep q x1 := by
      unfold x1
      refine keep_foldl ?_ ?_
      · assumption
      · intro _ _ _
        refine keep_absorb ?_
        assumption
    try clear_value x1
    extract_lets +onlyGivenNames -merge -useContext -underBinder x2
    have h2 : Keep q x2 := by
      unfold x2
      refine keep_moduleRecord ?_
      assumption
    try clear_value x2
    extract_lets +onlyGivenNames -merge -useContext -underBinder x3
    have h3 : Keep q x3 := by
      unfold x3
      refine keep_onEvr ?_
      refine keep_onEvr ?_
      assumption
    try clear_value x3
    extract_lets +onlyGivenNames -merge -useContext -underBinder x4
    have h4 : Keep q x4 := by
      unfold x4
      refine keep_resetDies ?_
      assumption
    try clear_value x4
    refine Keep.mk' ?_ ?_ ?_ ?_ ?_ ?_
    · assumption
    · exact fun h => h.inv.mem
    · exact fun h => h.inv.flash
    · exact fun h => h.inv.sec
    · first | exact fun h ht => h.inv.elec ht | exact fun _ _ => rfl
    · exact fun h => h.inv.stage

theorem keep_loseMemory {a0 : State} (g0 : Keep q a0) : Keep q (@State.loseMemory a0) := by
  unfold State.loseMemory
  extract_lets +onlyGivenNames -merge -useContext -underBinder x0
  have h0 : Keep q x0 := by
    unfold x0
    refine keep_onDp ?_ ?_
    · assumption
    · intro _ _
      refine keepD_mk ?_
      refine memWf_mk ?_ ?_ ?_ ?_ ?_ ?_
      · rfl
      · rfl
      · rfl
      · rfl
      · rfl
      · rfl
  try clear_value x0
  refine Keep.mk' ?_ ?_ ?_ ?_ ?_ ?_
  · assumption
  · exact fun h => h.inv.mem
  · exact fun h => h.inv.flash
  · exact fun h => h.inv.sec
  · exact fun h ht => g0.inv.elec ht
  · exact fun h => h.inv.stage

theorem keep_zeroise {a0 : State} (g0 : Keep q a0) : Keep q (@State.zeroise a0) := by
  unfold State.zeroise
  extract_lets +onlyGivenNames -merge -useContext -underBinder x0
  try clear_value x0
  extract_lets +onlyGivenNames -merge -useContext -underBinder x1
  have h1 : Keep q x1 := by
    unfold x1
    refine keep_foldl ?_ ?_
    · assumption
    · intro _ _ _
      refine keep_send ?_
      assumption
  try clear_value x1
  refine Keep.mk' ?_ ?_ ?_ ?_ ?_ ?_
  · assumption
  · exact fun h => h.inv.mem
  · exact fun h => h.inv.flash
  · exact fun h => ⟨h.inv.sec.hold, h.inv.sec.erased, h.inv.sec.flash, h.inv.sec.revoke, h.inv.sec.disabled⟩
  · exact fun h => h.inv.elec
  · exact fun h => h.inv.stage

theorem keep_erase {a0 : State} (g0 : Keep q a0) (hh : a0.sec.hold = true) : Keep q a0.erase := by
  have h0 : Keep q a0.zeroise := keep_zeroise g0
  have hx : a0.zeroise.sec.hold = true := (zeroise_sec a0).1.trans hh
  unfold State.erase
  generalize a0.zeroise = s at h0 hx
  have hf : s.flash.hold = true := h0.inv.sec.hold hx
  have hv := h0.inv.sec.revoke
  have hd := h0.inv.sec.disabled
  have main : ∀ x : Sec, x.hold = true → x.revoke ≤ 4 → (x.disabled = true → x.revoke = 4) →
      Keep q ({ s with sec := { x with erased := true }, flash := { s.flash with erased := true } } : State) := fun x h1 h2 h3 =>
    Keep.mk' h0 (fun h => h.inv.mem) (fun h => ⟨h.inv.flash.region, h.inv.flash.jobs⟩)
      (fun _ => ⟨fun _ => hf, fun _ => h1, fun _ => hf, h2, h3⟩) (fun h => h.inv.elec) fun h => h.inv.stage
  refine keep_moduleReset (main _ ?_ ?_ ?_) <;> split
  · exact hx
  · split <;> exact hx
  · exact hv
  · split
    · assumption
    · exact hv
  · exact hd
  · split
    · exact fun e => absurd (hd e) (by omega)
    · rename_i c
      exact fun _ => Nat.le_antisymm hv (Nat.le_of_not_lt c)

theorem keep_fireAlarm {a0 : State} {a1 : Nat} (g0 : Keep q a0) : Keep q (@State.fireAlarm a0 a1) := by
  unfold State.fireAlarm
  extract_lets +onlyGivenNames -merge -useContext -underBinder x0
  try clear_value x0
  extract_lets +onlyGivenNames -merge -useContext -underBinder x1
  extract_lets +onlyGivenNames -merge -useContext -underBinder x2
  have h2 : Keep q x2 := by
    unfold x2
    refine Keep.mk' ?_ ?_ ?_ ?_ ?_ ?_
    · assumption
    · exact fun h => h.inv.mem
    · exact fun h => h.inv.flash
    · exact fun h => ⟨h.inv.sec.hold, h.inv.sec.erased, h.inv.sec.flash, h.inv.sec.revoke, h.inv.sec.disabled⟩
    · exact fun h => h.inv.elec
    · exact fun h => h.inv.stage
  try clear_value x2
  extract_lets +onlyGivenNames -merge -useContext -underBinder x3
  try clear_value x3
  extract_lets +onlyGivenNames -merge -useContext -underBinder x4
  have h4 : Keep q x4 := by
    unfold x4
    refine keep_record ?_
    assumption
  try clear_value x4
  extract_lets +onlyGivenNames -merge -useContext -underBinder x5
  extract_lets +onlyGivenNames -merge -useContext -underBinder x6
  have h6 : Keep q x6 := by
    unfold x6
    refine Keep.mk' ?_ ?_ ?_ ?_ ?_ ?_
    · assumption
    · exact fun h => h.inv.mem
    · first | exact fun h => ⟨h.inv.flash.region, h.inv.flash.jobs⟩ | exact fun h => ⟨h.inv.mem.region, h.inv.mem.jobs⟩
    · exact fun h => ⟨fun _ => rfl, h.inv.sec.erased, fun _ => rfl, h.inv.sec.revoke, h.inv.sec.disabled⟩
    · exact fun h => h.inv.elec
    · exact fun h => h.inv.stage
  have hf : x6.flash.hold = true := rfl
  try clear_value x6
  extract_lets +onlyGivenNames -merge -useContext -underBinder x7
  have h7 : Keep q x7 := by
    unfold x7
    refine keep_onDp ?_ ?_
    · assumption
    · intro _ _
      refine keep_Dp_raiseBoth ?_
      assumption
  have hf : x7.flash.hold = true := hf
  try clear_value x7
  extract_lets +onlyGivenNames -merge -useContext -underBinder x8
  extract_lets +onlyGivenNames -merge -useContext -underBinder x9
  have h9 : Keep q x9 := by
    unfold x9
    refine Keep.mk' ?_ ?_ ?_ ?_ ?_ ?_
    · assumption
    · exact fun h => h.inv.mem
    · exact fun h => h.inv.flash
    · exact fun h => ⟨fun _ => hf, fun _ => rfl, h.inv.sec.flash, h.inv.sec.revoke, h.inv.sec.disabled⟩
    · exact fun h => h.inv.elec
    · exact fun h => h.inv.stage
  have hh : x9.sec.hold = true := rfl
  try clear_value x9
  refine keep_ite (fun _ => ?_) (fun _ => ?_)
  · exact keep_erase h9 hh
  · assumption

theorem keep_identFail {a0 : State} (g0 : Keep q a0) : Keep q (@State.identFail a0) := by
  unfold State.identFail
  extract_lets +onlyGivenNames -merge -useContext -underBinder x0
  try clear_value x0
  refine keep_ite (fun _ => ?_) (fun _ => ?_)
  · refine keep_fireAlarm ?_
    refine Keep.mk' ?_ ?_ ?_ ?_ ?_ ?_
    · assumption
    · exact fun h => h.inv.mem
    · exact fun h => h.inv.flash
    · exact fun h => ⟨h.inv.sec.hold, h.inv.sec.erased, h.inv.sec.flash, h.inv.sec.revoke, h.inv.sec.disabled⟩
    · exact fun h => h.inv.elec
    · exact fun h => h.inv.stage
  · refine Keep.mk' ?_ ?_ ?_ ?_ ?_ ?_
    · assumption
    · exact fun h => h.inv.mem
    · exact fun h => h.inv.flash
    · exact fun h => ⟨h.inv.sec.hold, h.inv.sec.erased, h.inv.sec.flash, h.inv.sec.revoke, h.inv.sec.disabled⟩
    · exact fun h => h.inv.elec
    · exact fun h => h.inv.stage

theorem keep_authFail {a0 : State} (g0 : Keep q a0) : Keep q (@State.authFail a0) := by
  unfold State.authFail
  extract_lets +onlyGivenNames -merge -useContext -underBinder x0
  try clear_value x0
  refine keep_ite (fun _ => ?_) (fun _ => ?_)
  · refine keep_fireAlarm ?_
    refine Keep.mk' ?_ ?_ ?_ ?_ ?_ ?_
    · assumption
    · exact fun h => h.inv.mem
    · exact fun h => h.inv.flash
    · exact fun h => ⟨h.inv.sec.hold, h.inv.sec.erased, h.inv.sec.flash, h.inv.sec.revoke, h.inv.sec.disabled⟩
    · exact fun h => h.inv.elec
    · exact fun h => h.inv.stage
  · refine Keep.mk' ?_ ?_ ?_ ?_ ?_ ?_
    · assumption
    · exact fun h => h.inv.mem
    · exact fun h => h.inv.flash
    · exact fun h => ⟨h.inv.sec.hold, h.inv.sec.erased, h.inv.sec.flash, h.inv.sec.revoke, h.inv.sec.disabled⟩
    · exact fun h => h.inv.elec
    · exact fun h => h.inv.stage

theorem keep_mstateRecord {a0 : State} {a1 : Nat} {a2 : Nat} {a3 : Nat} {a4 : Nat} (g0 : Keep q a0) : Keep q (@State.mstateRecord a0 a1 a2 a3 a4) := by
  unfold State.mstateRecord
  refine keep_record ?_
  assumption

theorem keep_leaveIdle {a0 : State} (g0 : Keep q a0) : Keep q (@State.leaveIdle a0) := by
  unfold State.leaveIdle
  refine keep_ite (fun _ => ?_) (fun _ => ?_)
  · refine keep_mstateRecord ?_
    refine Keep.mk' ?_ ?_ ?_ ?_ ?_ ?_
    · assumption
    · exact fun h => h.inv.mem
    · exact fun h => h.inv.flash
    · exact fun h => h.inv.sec
    · exact fun h => h.inv.elec
    · exact fun h => ⟨h.inv.stage.max, fun e => absurd (show (0 : BitVec 2) = 3 from e) (by decide)⟩
  · assumption

theorem keep_beginExit {a0 : State} {a1 : BitVec 4} (g0 : Keep q a0) : Keep q (@State.beginExit a0 a1) := by
  unfold State.beginExit
  extract_lets +onlyGivenNames -merge -useContext -underBinder x0
  try clear_value x0
  extract_lets +onlyGivenNames -merge -useContext -underBinder x1
  extract_lets +onlyGivenNames -merge -useContext -underBinder x2
  have h2 : Keep q x2 := by
    unfold x2
    refine Keep.updP ?_ rfl
    assumption
  try clear_value x2
  extract_lets +onlyGivenNames -merge -useContext -underBinder x3
  have h3 : Keep q x3 := by
    unfold x3
    refine keep_mstateRecord ?_
    assumption
  try clear_value x3
  refine keep_ite (fun _ => ?_) (fun _ => ?_)
  · assumption
  · refine keep_ite (fun _ => ?_) (fun _ => ?_)
    · refine Keep.mk' ?_ ?_ ?_ ?_ ?_ ?_
      · assumption
      · exact fun h => h.inv.mem
      · exact fun h => h.inv.flash
      · exact fun h => h.inv.sec
      · exact fun h => h.inv.elec
      · first | exact fun h => ⟨by decide, fun _ => rfl⟩ | exact fun h => ⟨by decide, fun e => absurd (show (0 : BitVec 2) = 3 from e) (by decide)⟩
    · refine Keep.mk' ?_ ?_ ?_ ?_ ?_ ?_
      · assumption
      · exact fun h => h.inv.mem
      · exact fun h => h.inv.flash
      · exact fun h => h.inv.sec
      · first | exact fun h ht => h.inv.elec ht | exact fun _ _ => rfl
      · exact fun h => h.inv.stage

theorem keep_abandonTest {a0 : State} (g0 : Keep q a0) : Keep q (@State.abandonTest a0) := by
  unfold State.abandonTest
  extract_lets +onlyGivenNames -merge -useContext -underBinder x0
  extract_lets +onlyGivenNames -merge -useContext -underBinder x1
  try clear_value x1
  refine keep_mstateRecord ?_
  refine keep_record ?_
  refine Keep.updDP ?_ ?_ rfl
  · assumption
  · intro h
    first | exact keepD_draw h.inv.mem | exact keepD_draw (keepD_draw h.inv.mem)

theorem keep_wake {a0 : State} {a1 : Nat} (g0 : Keep q a0) : Keep q (@State.wake a0 a1) := by
  unfold State.wake
  extract_lets +onlyGivenNames -merge -useContext -underBinder x0
  try clear_value x0
  extract_lets +onlyGivenNames -merge -useContext -underBinder x1
  try clear_value x1
  extract_lets +onlyGivenNames -merge -useContext -underBinder x2
  extract_lets +onlyGivenNames -merge -useContext -underBinder x3
  have h3 : Keep q x3 := by
    unfold x3
    refine Keep.updP ?_ rfl
    assumption
  try clear_value x3
  split
  · refine Keep.updP ?_ rfl
    assumption
  · assumption
  · refine keep_ite (fun _ => ?_) (fun _ => ?_)
    · refine keep_beginExit ?_
      assumption
    · refine keep_ite (fun _ => ?_) (fun _ => ?_)
      · refine keep_ite (fun _ => ?_) (fun _ => ?_)
        · refine keep_beginExit ?_
          assumption
        · assumption
      · refine keep_ite (fun _ => ?_) (fun _ => ?_)
        · refine keep_abandonTest ?_
          assumption
        · assumption

end Sys2Proof.Laws
end

