-- ==== Sys2Proof/Laws/KeepLinkOps.lean ====
section
/-! SUPPORT. What each operation of Machine/LinkOps.lean keeps: the queue and the invariant of Safety.lean, or the canonical form of memory. -/
namespace Sys2Proof.Laws
open Sys2Proof Sys2Proof.Machine
variable {q : List Instr}

theorem keep_enqueue {a0 : State} {a1 : Nat} {a2 : Nat} {a3 : Nat} {a4 : Packet} (g0 : Keep q a0) : Keep q (@State.enqueue a0 a1 a2 a3 a4) := by
  unfold State.enqueue
  refine keep_updLink ?_
  assumption

theorem keep_sendOver {a0 : State} {a1 : Nat} {a2 : Packet} (g0 : Keep q a0) : Keep q (@State.sendOver a0 a1 a2).1 := by
  unfold State.sendOver
  extract_lets +onlyGivenNames -merge -useContext -underBinder x0
  try clear_value x0
  extract_lets +onlyGivenNames -merge -useContext -underBinder x1
  try clear_value x1
  split
  · refine keep1_ite (fun _ => ?_) (fun _ => ?_)
    · show Keep q _
      refine keep_enqueue ?_
      assumption
    · show Keep q _
      assumption
  · refine keep1_ite (fun _ => ?_) (fun _ => ?_)
    · show Keep q _
      refine keep_enqueue ?_
      assumption
    · split
      · show Keep q _
        refine keep_enqueue ?_
        assumption
      · refine keep1_ite (fun _ => ?_) (fun _ => ?_)
        · show Keep q _
          assumption
        · show Keep q _
          refine keep_enqueue ?_
          assumption
  · refine keep1_ite (fun _ => ?_) (fun _ => ?_)
    · show Keep q _
      refine keep_enqueue ?_
      assumption
    · split
      · show Keep q _
        refine keep_enqueue ?_
        assumption
      · refine keep1_ite (fun _ => ?_) (fun _ => ?_)
        · show Keep q _
          assumption
        · show Keep q _
          refine keep_enqueue ?_
          assumption
  · show Keep q _
    assumption

theorem keep_sendPacket {a0 : State} {a1 : Packet} {a2 : optParam Nat 0} (g0 : Keep q a0) : Keep q (@State.sendPacket a0 a1 a2).1 := by
  unfold State.sendPacket
  split
  · show Keep q _
    assumption
  · refine keep_sendOver ?_
    assumption

theorem keep_respond {a0 : State} {a1 : Packet} (g0 : Keep q a0) : Keep q (@State.respond a0 a1) := by
  unfold State.respond
  refine keep_ite (fun _ => ?_) (fun _ => ?_)
  · refine keep_send ?_
    assumption
  · extract_lets +onlyGivenNames -merge -useContext -underBinder x0
    have h0 : Keep q x0.1 := by
      unfold x0
      refine keep_sendPacket ?_
      assumption
    try clear_value x0
    refine keep_ite (fun _ => ?_) (fun _ => ?_)
    · assumption
    · split
      · refine keep_sendOver ?_
        assumption
      · assumption

theorem keep_discardPacket {a0 : State} {a1 : Packet} {a2 : Status} (g0 : Keep q a0) : Keep q (@State.discardPacket a0 a1 a2) := by
  unfold State.discardPacket
  extract_lets +onlyGivenNames -merge -useContext -underBinder x0
  have h0 : Keep q x0 := by
    unfold x0
    refine keep_ite (fun _ => ?_) (fun _ => ?_)
    · refine keep_respond ?_
      assumption
    · assumption
  try clear_value x0
  refine keep_record ?_
  assumption

theorem keep_linkRecord {a0 : State} {a1 : Nat} {a2 : LnkState} {a3 : LnkState} {a4 : Nat} {a5 : Status} (g0 : Keep q a0) : Keep q (@State.linkRecord a0 a1 a2 a3 a4 a5) := by
  unfold State.linkRecord
  extract_lets +onlyGivenNames -merge -useContext -underBinder x0
  try clear_value x0
  extract_lets +onlyGivenNames -merge -useContext -underBinder x1
  try clear_value x1
  refine keep_record ?_
  assumption

theorem keep_moveLink {a0 : State} {a1 : Nat} {a2 : LnkState} {a3 : Nat} {a4 : optParam Status Status.ok} (g0 : Keep q a0) : Keep q (@State.moveLink a0 a1 a2 a3 a4) := by
  unfold State.moveLink
  extract_lets +onlyGivenNames -merge -useContext -underBinder x0
  try clear_value x0
  extract_lets +onlyGivenNames -merge -useContext -underBinder x1
  have h1 : Keep q x1 := by
    unfold x1
    refine keep_updLink ?_
    assumption
  try clear_value x1
  refine keep_linkRecord ?_
  assumption

theorem keep_linkDown {a0 : State} {a1 : Nat} {a2 : Nat} {a3 : optParam Status Status.ok} (g0 : Keep q a0) : Keep q (@State.linkDown a0 a1 a2 a3) := by
  unfold State.linkDown
  refine keep_updLink ?_
  refine keep_moveLink ?_
  assumption

theorem keep_linkTrain {a0 : State} {a1 : Nat} {a2 : Nat} (g0 : Keep q a0) : Keep q (@State.linkTrain a0 a1 a2) := by
  unfold State.linkTrain
  refine keep_updLink ?_
  refine keep_moveLink ?_
  assumption

theorem keep_linkIdentify {a0 : State} {a1 a2 : Nat} (g0 : Keep q a0) : Keep q (a0.linkIdentify a1 a2) := by
  unfold State.linkIdentify
  refine keep_moveLink (keep_updLink (Keep.updD g0 fun h => ?_))
  split <;> exact h.inv.mem

theorem keep_linkActive {a0 : State} {a1 : Nat} {a2 : Nat} {a3 : Bool} (g0 : Keep q a0) : Keep q (@State.linkActive a0 a1 a2 a3) := by
  unfold State.linkActive
  extract_lets +onlyGivenNames -merge -useContext -underBinder x0
  try clear_value x0
  extract_lets +onlyGivenNames -merge -useContext -underBinder x1
  try clear_value x1
  extract_lets +onlyGivenNames -merge -useContext -underBinder x2
  have h2 : Keep q x2 := by
    unfold x2
    refine keep_updLink ?_
    assumption
  try clear_value x2
  refine keep_moveLink ?_
  assumption

theorem keep_takeAck {a0 : State} {a1 : Nat} {a2 : Nat} {a3 : BitVec 18} {a4 : Nat} (g0 : Keep q a0) : Keep q (@State.takeAck a0 a1 a2 a3 a4) := by
  unfold State.takeAck
  refine keep_updLink ?_
  assumption

theorem keep_dropOldKeys {a0 : State} {a1 : Nat} (g0 : Keep q a0) : Keep q (@State.dropOldKeys a0 a1) := by
  unfold State.dropOldKeys
  extract_lets +onlyGivenNames -merge -useContext -underBinder x0
  try clear_value x0
  extract_lets +onlyGivenNames -merge -useContext -underBinder x1
  try clear_value x1
  extract_lets +onlyGivenNames -merge -useContext -underBinder x2
  try clear_value x2
  extract_lets +onlyGivenNames -merge -useContext -underBinder x3
  have h3 : Keep q x3 := by
    unfold x3
    split
    · refine keep_ite (fun _ => ?_) (fun _ => ?_)
      · refine keep_updLink ?_
        assumption
      · assumption
    · assumption
  try clear_value x3
  split
  · refine keep_ite (fun _ => ?_) (fun _ => ?_)
    · refine keep_send ?_
      refine keep_updLink ?_
      assumption
    · assumption
  · assumption

theorem keep_resendFrom {a0 : State} {a1 : Nat} {a2 : Nat} {a3 : BitVec 18} (g0 : Keep q a0) : Keep q (@State.resendFrom a0 a1 a2 a3) := by
  unfold State.resendFrom
  extract_lets +onlyGivenNames -merge -useContext -underBinder x0
  try clear_value x0
  extract_lets +onlyGivenNames -merge -useContext -underBinder x1
  try clear_value x1
  extract_lets +onlyGivenNames -merge -useContext -underBinder x2
  try clear_value x2
  extract_lets +onlyGivenNames -merge -useContext -underBinder x3
  try clear_value x3
  refine keep_ite (fun _ => ?_) (fun _ => ?_)
  · assumption
  · extract_lets +onlyGivenNames -merge -useContext -underBinder x4
    have h4 : Keep q x4 := by
      unfold x4
      refine keep_updLink ?_
      assumption
    try clear_value x4
    refine keep_ite (fun _ => ?_) (fun _ => ?_)
    · refine keep_linkTrain ?_
      refine keep_updLink ?_
      assumption
    · assumption

theorem keep_passBytes {a0 : State} {a1 : Nat} {a2 : Nat} {a3 : List Byte} (g0 : Keep q a0) : Keep q (@State.passBytes a0 a1 a2 a3) := by
  unfold State.passBytes
  extract_lets +onlyGivenNames -merge -useContext -underBinder x0
  try clear_value x0
  extract_lets +onlyGivenNames -merge -useContext -underBinder x1
  try clear_value x1
  extract_lets +onlyGivenNames -merge -useContext -underBinder x2
  have h2 : Keep q x2 := by
    unfold x2
    refine keep_updLink ?_
    assumption
  try clear_value x2
  refine keep_foldl ?_ ?_
  · assumption
  · intro _ _ _
    refine keep_send ?_
    assumption

theorem keep_drain {a0 : State} {a1 : Nat} {a2 : Nat} {a3 : Nat} (g0 : Keep q a0) : Keep q (@State.drain a0 a1 a2 a3) := by
  unfold State.drain
  extract_lets +onlyGivenNames -merge -useContext -underBinder x0
  try clear_value x0
  extract_lets +onlyGivenNames -merge -useContext -underBinder x1
  try clear_value x1
  extract_lets +onlyGivenNames -merge -useContext -underBinder x2
  have h2 : Keep q x2 := by
    unfold x2
    refine keep_updLink ?_
    assumption
  try clear_value x2
  refine keep_foldl ?_ ?_
  · assumption
  · intro _ _ _
    refine keep_passBytes ?_
    assumption

theorem keep_askReplay {a0 : State} {a1 : Nat} {a2 : Nat} (g0 : Keep q a0) : Keep q (@State.askReplay a0 a1 a2) := by
  unfold State.askReplay
  extract_lets +onlyGivenNames -merge -useContext -underBinder x0
  try clear_value x0
  refine keep_ite (fun _ => ?_) (fun _ => ?_)
  · assumption
  · refine keep_updLink ?_
    assumption

theorem keep_putFlit {a0 : State} {a1 : Nat} {a2 : Nat} {a3 : Nat} {a4 : BitVec 18} {a5 : List Byte} {a6 : optParam Bool Bool.false} (g0 : Keep q a0) : Keep q (@State.putFlit a0 a1 a2 a3 a4 a5 a6) := by
  unfold State.putFlit
  extract_lets +onlyGivenNames -merge -useContext -underBinder x0
  try clear_value x0
  extract_lets +onlyGivenNames -merge -useContext -underBinder x1
  try clear_value x1
  extract_lets +onlyGivenNames -merge -useContext -underBinder x2
  try clear_value x2
  refine keep_send ?_
  refine keep_updLink ?_
  assumption

theorem keep_countPort {a0 : State} {a1 : Nat} {a2 : Nat} (g0 : Keep q a0) : Keep q (@State.countPort a0 a1 a2) := by
  unfold State.countPort
  refine Keep.upd ?_
  assumption

end Sys2Proof.Laws
end

