-- ==== Sys2Proof/Laws/KeepLinks.lean ====
section
/-! SUPPORT. What each operation of Machine/Links.lean keeps: the queue and the invariant of Safety.lean, or the canonical form of memory. -/
namespace Sys2Proof.Laws
open Sys2Proof Sys2Proof.Machine
variable {q : List Instr}

theorem keep_linkEnable {a0 : State} {a1 : Nat} (g0 : Keep q a0) : Keep q (@State.linkEnable a0 a1) := by
  unfold State.linkEnable
  extract_lets +onlyGivenNames -merge -useContext -underBinder x0
  have h0 : Keep q x0 := by
    unfold x0
    refine keep_updLink ?_
    assumption
  try clear_value x0
  refine keep_ite (fun _ => ?_) (fun _ => ?_)
  · refine keep_linkTrain ?_
    assumption
  · assumption

theorem keep_linkDisable {a0 : State} {a1 : Nat} (g0 : Keep q a0) : Keep q (@State.linkDisable a0 a1) := by
  unfold State.linkDisable
  extract_lets +onlyGivenNames -merge -useContext -underBinder x0
  have h0 : Keep q x0 := by
    unfold x0
    refine keep_updLink ?_
    assumption
  try clear_value x0
  extract_lets +onlyGivenNames -merge -useContext -underBinder x1
  have h1 : Keep q x1 := by
    unfold x1
    refine keep_ite (fun _ => ?_) (fun _ => ?_)
    · assumption
    · refine keep_moveLink ?_
      assumption
  try clear_value x1
  refine keep_updLink ?_
  assumption

theorem keep_linkReject {a0 : State} {a1 : Nat} (g0 : Keep q a0) : Keep q (@State.linkReject a0 a1) := by
  unfold State.linkReject
  refine keep_linkDisable ?_
  refine keep_updLink ?_
  assumption

theorem keep_linkRetrain {a0 : State} {a1 : Nat} (g0 : Keep q a0) : Keep q (@State.linkRetrain a0 a1) := by
  unfold State.linkRetrain
  refine keep_ite (fun _ => ?_) (fun _ => ?_)
  · refine keep_linkTrain ?_
    assumption
  · assumption

theorem keep_linkRestore {a0 : State} {a1 : Nat} (g0 : Keep q a0) : Keep q (@State.linkRestore a0 a1) := by
  unfold State.linkRestore
  refine keep_ite (fun _ => ?_) (fun _ => ?_)
  · refine keep_linkTrain ?_
    refine keep_updLink ?_
    assumption
  · assumption

theorem keep_execLinkEnable {a0 : Link} {a1 : State} (g1 : Keep q a1) : KeepX q (@execLinkEnable a0 a1) := by
  unfold execLinkEnable
  refine keepX_next ?_
  refine keep_linkEnable ?_
  assumption

theorem keep_execLinkDisable {a0 : Link} {a1 : State} (g1 : Keep q a1) : KeepX q (@execLinkDisable a0 a1) := by
  unfold execLinkDisable
  refine keepX_next ?_
  refine keep_linkReject ?_
  assumption

theorem keep_execLinkRetrain {a0 : Link} {a1 : State} (g1 : Keep q a1) : KeepX q (@execLinkRetrain a0 a1) := by
  unfold execLinkRetrain
  refine keepX_next ?_
  refine keep_linkRetrain ?_
  assumption

theorem keep_execLinkRestoreLanes {a0 : Link} {a1 : State} (g1 : Keep q a1) : KeepX q (@execLinkRestoreLanes a0 a1) := by
  unfold execLinkRestoreLanes
  refine keepX_next ?_
  refine keep_linkRestore ?_
  assumption

theorem keep_startLinks {a0 : State} (g0 : Keep q a0) : Keep q (@State.startLinks a0) := by
  unfold State.startLinks
  extract_lets +onlyGivenNames -merge -useContext -underBinder x0
  try clear_value x0
  extract_lets +onlyGivenNames -merge -useContext -underBinder x1
  have h1 : Keep q x1 := by
    unfold x1
    refine Keep.upd ?_
    assumption
  try clear_value x1
  refine keep_foldl ?_ ?_
  · assumption
  · intro _ _ _
    refine keep_ite (fun _ => ?_) (fun _ => ?_)
    · refine keep_linkTrain ?_
      assumption
    · assumption

theorem keep_execLinkBackoffExpiry {a0 : Link} {a1 : State} (g1 : Keep q a1) : KeepX q (@execLinkBackoffExpiry a0 a1) := by
  unfold execLinkBackoffExpiry
  extract_lets +onlyGivenNames -merge -useContext -underBinder x0
  have h0 : Keep q x0 := by
    unfold x0
    refine keep_updLink ?_
    assumption
  try clear_value x0
  refine keepX_next ?_
  refine keep_ite (fun _ => ?_) (fun _ => ?_)
  · refine keep_linkTrain ?_
    assumption
  · assumption

theorem keep_trainComplete {a0 : State} {a1 : Nat} {a2 : BitVec 4} (g0 : Keep q a0) : Keep q (@State.trainComplete a0 a1 a2) := by
  unfold State.trainComplete
  extract_lets +onlyGivenNames -merge -useContext -underBinder x0
  try clear_value x0
  refine keep_ite (fun _ => ?_) (fun _ => ?_)
  · assumption
  · extract_lets +onlyGivenNames -merge -useContext -underBinder x1
    try clear_value x1
    extract_lets +onlyGivenNames -merge -useContext -underBinder x2
    try clear_value x2
    extract_lets +onlyGivenNames -merge -useContext -underBinder x3
    try clear_value x3
    refine keep_ite (fun _ => ?_) (fun _ => ?_)
    · refine keep_linkDown ?_
      assumption
    · refine keep_linkIdentify ?_
      refine keep_updLink ?_
      assumption

theorem keep_execTrainComplete {a0 : Link} {a1 : BitVec 4} {a2 : State} (g2 : Keep q a2) : KeepX q (@execTrainComplete a0 a1 a2) := by
  unfold execTrainComplete
  refine keepX_next ?_
  refine keep_trainComplete ?_
  assumption

theorem keep_execTrainTimeout {a0 : Link} {a1 : State} (g1 : Keep q a1) : KeepX q (@execTrainTimeout a0 a1) := by
  unfold execTrainTimeout
  refine keepX_next ?_
  refine keep_ite (fun _ => ?_) (fun _ => ?_)
  · refine keep_linkDown ?_
    assumption
  · assumption

theorem keep_identSend {a0 : State} {a1 : Nat} {a2 : BitVec 30} (g0 : Keep q a0) : Keep q (@State.identSend a0 a1 a2) := by
  unfold State.identSend
  extract_lets +onlyGivenNames -merge -useContext -underBinder x0
  have h0 : Keep q x0 := by
    unfold x0
    refine keep_putFlit ?_
    assumption
  try clear_value x0
  extract_lets +onlyGivenNames -merge -useContext -underBinder x1
  try clear_value x1
  refine keep_putFlit ?_
  refine keep_updLink ?_
  assumption

theorem keep_execIdentSend {a0 : Link} {a1 : BitVec 30} {a2 : State} (g2 : Keep q a2) : KeepX q (@execIdentSend a0 a1 a2) := by
  unfold execIdentSend
  refine keepX_next ?_
  refine keep_ite (fun _ => ?_) (fun _ => ?_)
  · refine keep_identSend ?_
    assumption
  · assumption

theorem keep_ident {a0 : State} {a1 : Nat} {a2 : Ident} (g0 : Keep q a0) : Keep q (@State.ident a0 a1 a2) := by
  unfold State.ident
  extract_lets +onlyGivenNames -merge -useContext -underBinder x0
  try clear_value x0
  refine keep_ite (fun _ => ?_) (fun _ => ?_)
  · assumption
  · extract_lets +onlyGivenNames -merge -useContext -underBinder x1
    have h1 : Keep q x1 := by
      unfold x1
      refine keep_updLink ?_
      assumption
    try clear_value x1
    split
    · refine keep_linkDown ?_
      assumption
    · refine keep_updLink ?_
      assumption

theorem keep_execIdent {a0 : Link} {a1 : Ident} {a2 : State} (g2 : Keep q a2) : KeepX q (@execIdent a0 a1 a2) := by
  unfold execIdent
  refine keepX_next ?_
  refine keep_ident ?_
  assumption

theorem keep_renumberRecords {a0 : State} {a1 : Nat} {a2 : List (List (Nat × Nat))} (g0 : Keep q a0) : Keep q (@State.renumberRecords a0 a1 a2) := by
  induction a2 generalizing a0 a1 with
  | nil =>
    rw [State.renumberRecords]
    assumption
  | cons u1 u2 ih =>
    rw [State.renumberRecords]
    apply ih
    refine keep_record ?_
    assumption

theorem keep_renumber {a0 : State} {a1 : Nat} {a2 : List Nat} (g0 : Keep q a0) : Keep q (@State.renumber a0 a1 a2) := by
  unfold State.renumber
  extract_lets +onlyGivenNames -merge -useContext -underBinder x0
  try clear_value x0
  extract_lets +onlyGivenNames -merge -useContext -underBinder x1
  have h1 : Keep q x1 := by
    unfold x1
    refine keep_foldl ?_ ?_
    · assumption
    · intro _ _ _
      refine Keep.upd ?_
      assumption
  try clear_value x1
  extract_lets +onlyGivenNames -merge -useContext -underBinder x2
  have h2 : Keep q x2 := by
    unfold x2
    refine keep_renumberRecords ?_
    assumption
  try clear_value x2
  refine keep_foldl ?_ ?_
  · assumption
  · intro _ _ _
    refine keep_linkActive ?_
    assumption

theorem keep_quarantineLink {a0 : State} {a1 : Nat} (g0 : Keep q a0) : Keep q (@State.quarantineLink a0 a1) := by
  unfold State.quarantineLink
  extract_lets +onlyGivenNames -merge -useContext -underBinder x0
  try clear_value x0
  extract_lets +onlyGivenNames -merge -useContext -underBinder x1
  try clear_value x1
  extract_lets +onlyGivenNames -merge -useContext -underBinder x2
  have h2 : Keep q x2 := by
    unfold x2
    refine keep_record ?_
    assumption
  try clear_value x2
  extract_lets +onlyGivenNames -merge -useContext -underBinder x3
  try clear_value x3
  refine keep_moveLink ?_
  refine keep_updLink ?_
  assumption

theorem keep_identifyComplete {a0 : State} {a1 : Nat} {a2 : Bool} {a3 : Bool} {a4 : BitVec 16} (g0 : Keep q a0) : Keep q (@State.identifyComplete a0 a1 a2 a3 a4) := by
  unfold State.identifyComplete
  extract_lets +onlyGivenNames -merge -useContext -underBinder x0
  try clear_value x0
  split
  · refine keep_ite (fun _ => ?_) (fun _ => ?_)
    · assumption
    · extract_lets +onlyGivenNames -merge -useContext -underBinder x1
      have h1 : Keep q x1 := by
        unfold x1
        refine keep_updLink ?_
        assumption
      try clear_value x1
      extract_lets +onlyGivenNames -merge -useContext -underBinder x2
      have h2 : Keep q x2 := by
        unfold x2
        refine keep_ite (fun _ => ?_) (fun _ => ?_)
        · refine keep_linkRecord ?_
          assumption
        · assumption
      try clear_value x2
      refine keep_ite (fun _ => ?_) (fun _ => ?_)
      · refine keep_identFail ?_
        refine keep_linkDown ?_
        refine keep_record ?_
        assumption
      · extract_lets +onlyGivenNames -merge -useContext -underBinder x3
        try clear_value x3
        extract_lets +onlyGivenNames -merge -useContext -underBinder x4
        try clear_value x4
        split
        · refine keep_ite (fun _ => ?_) (fun _ => ?_)
          · refine keep_linkActive ?_
            assumption
          · refine keep_ite (fun _ => ?_) (fun _ => ?_)
            · extract_lets +onlyGivenNames -merge -useContext -underBinder x5
              have h5 : Keep q x5 := by
                unfold x5
                refine keep_updLink ?_
                assumption
              try clear_value x5
              extract_lets +onlyGivenNames -merge -useContext -underBinder x6
              try clear_value x6
              refine keep_ite (fun _ => ?_) (fun _ => ?_)
              · refine keep_renumber ?_
                assumption
              · assumption
            · refine keep_quarantineLink ?_
              assumption
        · refine keep_ite (fun _ => ?_) (fun _ => ?_)
          · refine keep_linkActive ?_
            assumption
          · refine keep_quarantineLink ?_
            assumption
  · assumption

theorem keep_execIdentifyComplete {a0 : Link} {a1 : Bool} {a2 : Bool} {a3 : BitVec 16} {a4 : State} (g4 : Keep q a4) : KeepX q (@execIdentifyComplete a0 a1 a2 a3 a4) := by
  unfold execIdentifyComplete
  refine keepX_next ?_
  refine keep_identifyComplete ?_
  assumption

theorem keep_execIdentifyTimeout {a0 : Link} {a1 : State} (g1 : Keep q a1) : KeepX q (@execIdentifyTimeout a0 a1) := by
  unfold execIdentifyTimeout
  extract_lets +onlyGivenNames -merge -useContext -underBinder x0
  try clear_value x0
  refine keepX_next ?_
  refine keep_ite (fun _ => ?_) (fun _ => ?_)
  · assumption
  · refine keep_ite (fun _ => ?_) (fun _ => ?_)
    · refine keep_quarantineLink ?_
      refine keep_updLink ?_
      assumption
    · refine keep_linkDown ?_
      assumption

theorem keep_execResumeWindowExpiry {a0 : Link} {a1 : State} (g1 : Keep q a1) : KeepX q (@execResumeWindowExpiry a0 a1) := by
  unfold execResumeWindowExpiry
  refine keepX_next ?_
  refine keep_ite (fun _ => ?_) (fun _ => ?_)
  · assumption
  · refine keep_updLink ?_
    assumption

theorem keep_execAllLanesLockLoss {a0 : Link} {a1 : State} (g1 : Keep q a1) : KeepX q (@execAllLanesLockLoss a0 a1) := by
  unfold execAllLanesLockLoss
  extract_lets +onlyGivenNames -merge -useContext -underBinder x0
  try clear_value x0
  refine keepX_next ?_
  refine keep_ite (fun _ => ?_) (fun _ => ?_)
  · refine keep_linkDown ?_
    assumption
  · assumption

theorem keep_sendLanes {a0 : State} {a1 : Nat} {a2 : BitVec 4} (g0 : Keep q a0) : Keep q (@State.sendLanes a0 a1 a2) := by
  unfold State.sendLanes
  refine keep_putFlit ?_
  assumption

theorem keep_laneBad {a0 : State} {a1 : Nat} {a2 : Fin 4} (g0 : Keep q a0) : Keep q (@State.laneBad a0 a1 a2) := by
  unfold State.laneBad
  extract_lets +onlyGivenNames -merge -useContext -underBinder x0
  try clear_value x0
  refine keep_ite (fun _ => ?_) (fun _ => ?_)
  · assumption
  · extract_lets +onlyGivenNames -merge -useContext -underBinder x1
    try clear_value x1
    extract_lets +onlyGivenNames -merge -useContext -underBinder x2
    try clear_value x2
    refine keep_ite (fun _ => ?_) (fun _ => ?_)
    · refine keep_linkDown ?_
      assumption
    · refine keep_updLink ?_
      refine keep_linkTrain ?_
      refine keep_sendLanes ?_
      assumption

theorem keep_execLaneBad {a0 : Link} {a1 : Fin 4} {a2 : State} (g2 : Keep q a2) : KeepX q (@execLaneBad a0 a1 a2) := by
  unfold execLaneBad
  refine keepX_next ?_
  refine keep_laneBad ?_
  assumption

theorem keep_lanes {a0 : State} {a1 : Nat} {a2 : BitVec 4} (g0 : Keep q a0) : Keep q (@State.lanes a0 a1 a2) := by
  unfold State.lanes
  extract_lets +onlyGivenNames -merge -useContext -underBinder x0
  try clear_value x0
  refine keep_ite (fun _ => ?_) (fun _ => ?_)
  · refine keep_updLink ?_
    assumption
  · refine keep_updLink ?_
    refine keep_linkTrain ?_
    refine keep_sendLanes ?_
    assumption

theorem keep_execLanes {a0 : Link} {a1 : BitVec 4} {a2 : State} (g2 : Keep q a2) : KeepX q (@execLanes a0 a1 a2) := by
  unfold execLanes
  refine keepX_next ?_
  refine keep_lanes ?_
  assumption

theorem keep_newMap {a0 : State} (g0 : Keep q a0) : Keep q (@State.newMap a0) := by
  unfold State.newMap
  refine keep_foldl ?_ ?_
  · assumption
  · intro _ _ _
    extract_lets +onlyGivenNames -merge -useContext -underBinder x0
    try clear_value x0
    refine keep_ite (fun _ => ?_) (fun _ => ?_)
    · refine keep_linkIdentify ?_
      assumption
    · refine keep_ite (fun _ => ?_) (fun _ => ?_)
      · refine keep_linkEnable ?_
        assumption
      · assumption

theorem keep_drr {a0 : State} {a1 : Nat} {a2 : List Nat} {a3 : Nat} (g0 : Keep q a0) : Keep q (@State.drr a0 a1 a2 a3).1 := by
  induction a3 generalizing a0 a1 a2 with
  | zero =>
    rw [State.drr]
    show Keep q _
    assumption
  | succ u1 ih =>
    rw [State.drr]
    split
    · apply ih
      refine keep_updLink ?_
      assumption
    · extract_lets +onlyGivenNames -merge -useContext -underBinder x0
      try clear_value x0
      extract_lets +onlyGivenNames -merge -useContext -underBinder x1
      try clear_value x1
      extract_lets +onlyGivenNames -merge -useContext -underBinder x2
      try clear_value x2
      refine keep1_ite (fun _ => ?_) (fun _ => ?_)
      · show Keep q _
        refine keep_updLink ?_
        assumption
      · apply ih
        refine keep_updLink ?_
        assumption

theorem keep_makeRoom {a0 : State} {a1 : Nat} (g0 : Keep q a0) : Keep q (@State.makeRoom a0 a1).1 := by
  unfold State.makeRoom
  extract_lets +onlyGivenNames -merge -useContext -underBinder x0
  try clear_value x0
  refine keep1_ite (fun _ => ?_) (fun _ => ?_)
  · show Keep q _
    assumption
  · split
    · show Keep q _
      assumption
    · extract_lets +onlyGivenNames -merge -useContext -underBinder x1
      try clear_value x1
      extract_lets +onlyGivenNames -merge -useContext -underBinder x2
      have h2 : Keep q x2 := by
        unfold x2
        refine keep_onDp ?_ ?_
        · assumption
        · intro _ _
          refine keepD_mk ?_
          show KeepD _
          assumption
      try clear_value x2
      extract_lets +onlyGivenNames -merge -useContext -underBinder x3
      try clear_value x3
      refine keep1_ite (fun _ => ?_) (fun _ => ?_)
      · show Keep q _
        assumption
      · extract_lets +onlyGivenNames -merge -useContext -underBinder x4
        try clear_value x4
        extract_lets +onlyGivenNames -merge -useContext -underBinder x5
        have h5 : Keep q x5.1 := by
          unfold x5
          refine keep_runOp ?_ ?_
          · assumption
          · exact keep_writeAt
        try clear_value x5
        split
        · show Keep q _
          assumption
        · show Keep q _
          refine keep_updLink ?_
          assumption

theorem keep_storedPayload {a0 : State} {a1 : Nat} {a2 : TxFlit} (g0 : Keep q a0) : Keep q (@State.storedPayload a0 a1 a2).1 := by
  unfold State.storedPayload
  split
  · show Keep q _
    assumption
  · extract_lets +onlyGivenNames -merge -useContext -underBinder x0
    have h0 : Keep q x0.1 := by
      unfold x0
      refine keep_runOp ?_ ?_
      · assumption
      · exact keep_readAt
    try clear_value x0
    split
    · show Keep q _
      assumption
    · show Keep q _
      assumption

theorem keep_sendAgain {a0 : State} {a1 : Nat} {a2 : Nat} {a3 : BitVec 18} (g0 : Keep q a0) : Keep q (@State.sendAgain a0 a1 a2 a3) := by
  unfold State.sendAgain
  split
  · refine keep_updLink ?_
    assumption
  · extract_lets +onlyGivenNames -merge -useContext -underBinder x0
    try clear_value x0
    extract_lets +onlyGivenNames -merge -useContext -underBinder x1
    have h1 : Keep q x1 := by
      unfold x1
      refine keep_updLink ?_
      assumption
    try clear_value x1
    extract_lets +onlyGivenNames -merge -useContext -underBinder x2
    have h2 : Keep q x2.1 := by
      unfold x2
      refine keep_storedPayload ?_
      assumption
    try clear_value x2
    refine keep_countPort ?_
    refine keep_putFlit ?_
    assumption

theorem keep_sendIdle {a0 : State} {a1 : Nat} (g0 : Keep q a0) : Keep q (@State.sendIdle a0 a1) := by
  unfold State.sendIdle
  refine keep_putFlit ?_
  assumption

theorem keep_sendNew {a0 : State} {a1 : Nat} {a2 : Nat} (g0 : Keep q a0) : Keep q (@State.sendNew a0 a1 a2) := by
  unfold State.sendNew
  extract_lets +onlyGivenNames -merge -useContext -underBinder x0
  try clear_value x0
  extract_lets +onlyGivenNames -merge -useContext -underBinder x1
  have h1 : Keep q x1.1 := by
    unfold x1
    refine keep_makeRoom ?_
    assumption
  try clear_value x1
  refine keep_ite (fun _ => ?_) (fun _ => ?_)
  · refine keep_sendIdle ?_
    assumption
  · extract_lets +onlyGivenNames -merge -useContext -underBinder x2
    have h2 : Keep q x2 := by
      unfold x2
      assumption
    try clear_value x2
    extract_lets +onlyGivenNames -merge -useContext -underBinder x3
    try clear_value x3
    extract_lets +onlyGivenNames -merge -useContext -underBinder x4
    try clear_value x4
    extract_lets +onlyGivenNames -merge -useContext -underBinder x5
    try clear_value x5
    extract_lets +onlyGivenNames -merge -useContext -underBinder x6
    try clear_value x6
    extract_lets +onlyGivenNames -merge -useContext -underBinder x7
    try clear_value x7
    extract_lets +onlyGivenNames -merge -useContext -underBinder x8
    try clear_value x8
    extract_lets +onlyGivenNames -merge -useContext -underBinder x9
    have h9 : Keep q x9 := by
      unfold x9
      refine keep_updLink ?_
      assumption
    try clear_value x9
    extract_lets +onlyGivenNames -merge -useContext -underBinder x10
    have h10 : Keep q x10 := by
      unfold x10
      refine keep_ite (fun _ => ?_) (fun _ => ?_)
      · refine keep_updShare ?_
        assumption
      · assumption
    try clear_value x10
    refine keep_countPort ?_
    refine keep_putFlit ?_
    refine keep_dropOldKeys ?_
    assumption

theorem keep_sendVc {a0 : State} {a1 : Nat} {a2 : Nat} {a3 : Option Nat} (g0 : Keep q a0) : Keep q (@State.sendVc a0 a1 a2 a3) := by
  unfold State.sendVc
  split
  · refine keep_sendAgain ?_
    assumption
  · extract_lets +onlyGivenNames -merge -useContext -underBinder x0
    have h0 : Keep q x0 := by
      unfold x0
      refine keep_ite (fun _ => ?_) (fun _ => ?_)
      · refine keep_updLink ?_
        assumption
      · assumption
    try clear_value x0
    refine keep_sendNew ?_
    assumption

theorem keep_sendCtrl {a0 : State} {a1 : Nat} (g0 : Keep q a0) : Keep q (@State.sendCtrl a0 a1) := by
  unfold State.sendCtrl
  extract_lets +onlyGivenNames -merge -useContext -underBinder x0
  try clear_value x0
  refine keep_putFlit ?_
  refine keep_updLink ?_
  assumption

theorem keep_adopt {a0 : State} {a1 : Nat} (g0 : Keep q a0) : Keep q (@State.adopt a0 a1) := by
  unfold State.adopt
  refine keep_foldl ?_ ?_
  · assumption
  · intro _ _ r0
    refine keep_sendOver ?_
    refine keep_updLink ?_
    assumption

theorem keep_slot1 {a0 : State} {a1 : Nat} (g0 : Keep q a0) : Keep q (@State.slot1 a0 a1) := by
  unfold State.slot1
  extract_lets +onlyGivenNames -merge -useContext -underBinder x0
  try clear_value x0
  extract_lets +onlyGivenNames -merge -useContext -underBinder x1
  try clear_value x1
  extract_lets +onlyGivenNames -merge -useContext -underBinder x2
  try clear_value x2
  extract_lets +onlyGivenNames -merge -useContext -underBinder x3
  try clear_value x3
  extract_lets +onlyGivenNames -merge -useContext -underBinder x4
  try clear_value x4
  refine keep_ite (fun _ => ?_) (fun _ => ?_)
  · refine keep_sendCtrl ?_
    assumption
  · refine keep_ite (fun _ => ?_) (fun _ => ?_)
    · refine keep_sendVc ?_
      assumption
    · refine keep_ite (fun _ => ?_) (fun _ => ?_)
      · refine keep_sendVc ?_
        assumption
      · refine keep_ite (fun _ => ?_) (fun _ => ?_)
        · extract_lets +onlyGivenNames -merge -useContext -underBinder x5
          try clear_value x5
          split
          · refine keep_sendVc ?_
            assumption
          · split
            · rename_i he6
              have hs6 := keep_fstOf (q := q) he6 (by
                  refine keep_drr ?_
                  assumption
                )
              refine keep_sendVc ?_
              assumption
            · rename_i he7
              have hs7 := keep_fstOf (q := q) he7 (by
                  refine keep_drr ?_
                  assumption
                )
              refine keep_sendIdle ?_
              assumption
        · refine keep_sendIdle ?_
          assumption

theorem keep_transmit {a0 : State} {a1 : Nat} (g0 : Keep q a0) : Keep q (@State.transmit a0 a1) := by
  unfold State.transmit
  refine keep_ite (fun _ => ?_) (fun _ => ?_)
  · refine keep_slot1 ?_
    refine keep_adopt ?_
    assumption
  · refine keep_ite (fun _ => ?_) (fun _ => ?_)
    · refine keep_slot1 ?_
      assumption
    · assumption

theorem keep_execFlitTransmit {a0 : Link} {a1 : State} (g1 : Keep q a1) : KeepX q (@execFlitTransmit a0 a1) := by
  unfold execFlitTransmit
  refine keepX_next ?_
  refine keep_transmit ?_
  assumption

theorem keep_startQs {a0 : State} {a1 : Nat} {a2 : List Byte} {a3 : Option (Nat × BitVec 18)} (g0 : Keep q a0) : Keep q (@State.startQs a0 a1 a2 a3) := by
  unfold State.startQs
  extract_lets +onlyGivenNames -merge -useContext -underBinder x0
  try clear_value x0
  extract_lets +onlyGivenNames -merge -useContext -underBinder x1
  have h1 : Keep q x1.1 := by
    unfold x1
    refine keep_makeRoom ?_
    assumption
  try clear_value x1
  refine keep_ite (fun _ => ?_) (fun _ => ?_)
  · assumption
  · extract_lets +onlyGivenNames -merge -useContext -underBinder x2
    have h2 : Keep q x2 := by
      unfold x2
      assumption
    try clear_value x2
    extract_lets +onlyGivenNames -merge -useContext -underBinder x3
    try clear_value x3
    extract_lets +onlyGivenNames -merge -useContext -underBinder x4
    try clear_value x4
    extract_lets +onlyGivenNames -merge -useContext -underBinder x5
    try clear_value x5
    refine keep_countPort ?_
    refine keep_putFlit ?_
    refine keep_updLink ?_
    assumption

theorem keep_fillHole {a0 : State} {a1 : Nat} {a2 : TxFlit} {a3 : List Byte} (g0 : Keep q a0) : Keep q (@State.fillHole a0 a1 a2 a3) := by
  unfold State.fillHole
  refine keep_updLink ?_
  assumption

theorem keep_forwardQs {a0 : State} {a1 : Nat} {a2 : BitVec 18} {a3 : List Byte} (g0 : Keep q a0) : Keep q (@State.forwardQs a0 a1 a2 a3) := by
  unfold State.forwardQs
  extract_lets +onlyGivenNames -merge -useContext -underBinder x0
  try clear_value x0
  extract_lets +onlyGivenNames -merge -useContext -underBinder x1
  try clear_value x1
  split
  · refine keep_discardPacket ?_
    assumption
  · split
    · refine keep_discardPacket ?_
      assumption
    · split
      · refine keep_fillHole ?_
        assumption
      · refine keep_ite (fun _ => ?_) (fun _ => ?_)
        · refine keep_startQs ?_
          assumption
        · extract_lets +onlyGivenNames -merge -useContext -underBinder x2
          have h2 : Keep q x2.1 := by
            unfold x2
            refine keep_sendOver ?_
            assumption
          try clear_value x2
          refine keep_ite (fun _ => ?_) (fun _ => ?_)
          · assumption
          · refine keep_respond ?_
            assumption

theorem keep_failQs {a0 : State} {a1 : Nat} {a2 : BitVec 18} {a3 : List Byte} (g0 : Keep q a0) : Keep q (@State.failQs a0 a1 a2 a3) := by
  unfold State.failQs
  extract_lets +onlyGivenNames -merge -useContext -underBinder x0
  try clear_value x0
  extract_lets +onlyGivenNames -merge -useContext -underBinder x1
  try clear_value x1
  split
  · refine keep_ite (fun _ => ?_) (fun _ => ?_)
    · refine keep_startQs ?_
      assumption
    · assumption
  · assumption

theorem keep_replay {a0 : State} {a1 : Nat} {a2 : Nat} {a3 : BitVec 18} (g0 : Keep q a0) : Keep q (@State.replay a0 a1 a2 a3) := by
  unfold State.replay
  refine keep_ite (fun _ => ?_) (fun _ => ?_)
  · refine keep_resendFrom ?_
    assumption
  · assumption

theorem keep_execReplay {a0 : Link} {a1 : Vc} {a2 : BitVec 18} {a3 : State} (g3 : Keep q a3) : KeepX q (@execReplay a0 a1 a2 a3) := by
  unfold execReplay
  refine keepX_next ?_
  refine keep_replay ?_
  assumption

theorem keep_hold {a0 : State} {a1 : Nat} {a2 : Nat} {a3 : BitVec 18} (g0 : Keep q a0) : Keep q (@State.hold a0 a1 a2 a3) := by
  unfold State.hold
  refine keep_ite (fun _ => ?_) (fun _ => ?_)
  · refine keep_updLink ?_
    assumption
  · assumption

theorem keep_execHold {a0 : Link} {a1 : Vc} {a2 : BitVec 18} {a3 : State} (g3 : Keep q a3) : KeepX q (@execHold a0 a1 a2 a3) := by
  unfold execHold
  refine keepX_next ?_
  refine keep_hold ?_
  assumption

theorem keep_resume {a0 : State} {a1 : Nat} {a2 : Nat} {a3 : BitVec 18} (g0 : Keep q a0) : Keep q (@State.resume a0 a1 a2 a3) := by
  unfold State.resume
  refine keep_ite (fun _ => ?_) (fun _ => ?_)
  · refine keep_updLink ?_
    assumption
  · assumption

theorem keep_execResume {a0 : Link} {a1 : Vc} {a2 : BitVec 18} {a3 : State} (g3 : Keep q a3) : KeepX q (@execResume a0 a1 a2 a3) := by
  unfold execResume
  refine keepX_next ?_
  refine keep_resume ?_
  assumption

theorem keep_grant {a0 : State} {a1 : Nat} {a2 : Nat} {a3 : BitVec 12} (g0 : Keep q a0) : Keep q (@State.grant a0 a1 a2 a3) := by
  unfold State.grant
  refine keep_ite (fun _ => ?_) (fun _ => ?_)
  · refine keep_updLink ?_
    assumption
  · assumption

theorem keep_execGrant {a0 : Link} {a1 : Vc} {a2 : BitVec 12} {a3 : State} (g3 : Keep q a3) : KeepX q (@execGrant a0 a1 a2 a3) := by
  unfold execGrant
  refine keepX_next ?_
  refine keep_grant ?_
  assumption

theorem keep_notReady {a0 : State} {a1 : Nat} {a2 : Nat} {a3 : BitVec 18} (g0 : Keep q a0) : Keep q (@State.notReady a0 a1 a2 a3) := by
  unfold State.notReady
  refine keep_updLink ?_
  assumption

theorem keep_execNotReady {a0 : Link} {a1 : Vc} {a2 : BitVec 18} {a3 : State} (g3 : Keep q a3) : KeepX q (@execNotReady a0 a1 a2 a3) := by
  unfold execNotReady
  refine keepX_next ?_
  refine keep_notReady ?_
  assumption

theorem keep_ready {a0 : State} {a1 : Nat} {a2 : Bool} (g0 : Keep q a0) : Keep q (@State.ready a0 a1 a2) := by
  unfold State.ready
  refine keep_updLink ?_
  assumption

theorem keep_execReady {a0 : Link} {a1 : Bool} {a2 : State} (g2 : Keep q a2) : KeepX q (@execReady a0 a1 a2) := by
  unfold execReady
  refine keepX_next ?_
  refine keep_ready ?_
  assumption

theorem keep_echoBack {a0 : State} {a1 : Nat} {a2 : BitVec 30} (g0 : Keep q a0) : Keep q (@State.echoBack a0 a1 a2) := by
  unfold State.echoBack
  refine keep_putFlit ?_
  assumption

theorem keep_execEcho {a0 : Link} {a1 : BitVec 30} {a2 : Bool} {a3 : BitVec 16} {a4 : State} (g4 : Keep q a4) : KeepX q (@execEcho a0 a1 a2 a3 a4) := by
  unfold execEcho
  refine keepX_next ?_
  refine keep_ite (fun _ => ?_) (fun _ => ?_)
  · refine keep_updLink ?_
    assumption
  · refine keep_echoBack ?_
    assumption

theorem keep_echoEntry {a0 : State} {a1 : Nat} {a2 : BitVec 30} (g0 : Keep q a0) : Keep q (@State.echoEntry a0 a1 a2) := by
  unfold State.echoEntry
  split
  · refine keep_ite (fun _ => ?_) (fun _ => ?_)
    · extract_lets +onlyGivenNames -merge -useContext -underBinder x0
      try clear_value x0
      refine keep_updLink ?_
      assumption
    · refine keep_echoBack ?_
      assumption
  · refine keep_echoBack ?_
    assumption

theorem keep_ctrlEntry {a0 : State} {a1 : Nat} {a2 : CtrlEntry} (g0 : Keep q a0) : Keep q (@State.ctrlEntry a0 a1 a2) := by
  unfold State.ctrlEntry
  split
  · refine keep_replay ?_
    assumption
  · refine keep_hold ?_
    assumption
  · refine keep_resume ?_
    assumption
  · refine keep_grant ?_
    assumption
  · refine keep_notReady ?_
    assumption
  · refine keep_ready ?_
    assumption
  · refine keep_lanes ?_
    assumption
  · refine keep_echoEntry ?_
    assumption
  · refine keep_ite (fun _ => ?_) (fun _ => ?_)
    · assumption
    · refine keep_updLink ?_
      refine keep_linkRecord ?_
      assumption

theorem keep_bufferFlit {a0 : State} {a1 : Nat} {a2 : Nat} {a3 : List (List Byte)} {a4 : Bool} (g0 : Keep q a0) : Keep q (@State.bufferFlit a0 a1 a2 a3 a4) := by
  unfold State.bufferFlit
  extract_lets +onlyGivenNames -merge -useContext -underBinder x0
  have h0 : Keep q x0 := by
    unfold x0
    refine keep_updLink ?_
    assumption
  try clear_value x0
  refine keep_ite (fun _ => ?_) (fun _ => ?_)
  · assumption
  · refine keep_drain ?_
    assumption

theorem keep_loseFlit {a0 : State} {a1 : Nat} {a2 : FlitIn} (g0 : Keep q a0) : Keep q (@State.loseFlit a0 a1 a2) := by
  unfold State.loseFlit
  refine keep_ite (fun _ => ?_) (fun _ => ?_)
  · assumption
  · extract_lets +onlyGivenNames -merge -useContext -underBinder x0
    try clear_value x0
    extract_lets +onlyGivenNames -merge -useContext -underBinder x1
    have h1 : Keep q x1 := by
      unfold x1
      refine keep_updLink ?_
      assumption
    try clear_value x1
    extract_lets +onlyGivenNames -merge -useContext -underBinder x2
    try clear_value x2
    extract_lets +onlyGivenNames -merge -useContext -underBinder x3
    have h3 : Keep q x3 := by
      unfold x3
      refine keep_ite (fun _ => ?_) (fun _ => ?_)
      · refine keep_failQs ?_
        assumption
      · assumption
    try clear_value x3
    refine keep_ite (fun _ => ?_) (fun _ => ?_)
    · refine keep_askReplay ?_
      assumption
    · assumption

theorem keep_refuseInactive {a0 : State} {a1 : Nat} {a2 : FlitHead} {a3 : Option (List Byte)} (g0 : Keep q a0) : Keep q (@State.refuseInactive a0 a1 a2 a3) := by
  unfold State.refuseInactive
  refine keep_ite (fun _ => ?_) (fun _ => ?_)
  · split
    · refine keep_ite (fun _ => ?_) (fun _ => ?_)
      · refine keep_respond ?_
        assumption
      · assumption
    · assumption
  · refine keep_updLink ?_
    assumption

theorem keep_takeSeq {a0 : State} {a1 : Nat} {a2 : FlitHead} {a3 : List Byte} (g0 : Keep q a0) : Keep q (@State.takeSeq a0 a1 a2 a3).1 := by
  unfold State.takeSeq
  extract_lets +onlyGivenNames -merge -useContext -underBinder x0
  try clear_value x0
  extract_lets +onlyGivenNames -merge -useContext -underBinder x1
  try clear_value x1
  refine keep1_ite (fun _ => ?_) (fun _ => ?_)
  · show Keep q _
    refine keep_refuseInactive ?_
    assumption
  · refine keep1_ite (fun _ => ?_) (fun _ => ?_)
    · show Keep q _
      refine keep_ite (fun _ => ?_) (fun _ => ?_)
      · assumption
      · refine keep_askReplay ?_
        assumption
    · refine keep1_ite (fun _ => ?_) (fun _ => ?_)
      · refine keep1_ite (fun _ => ?_) (fun _ => ?_)
        · show Keep q _
          assumption
        · show Keep q _
          refine keep_updLink ?_
          assumption
      · show Keep q _
        refine keep_updLink ?_
        assumption

theorem keep_dataArrives {a0 : State} {a1 : Nat} {a2 : FlitHead} {a3 : List Byte} {a4 : Bool} (g0 : Keep q a0) : Keep q (@State.dataArrives a0 a1 a2 a3 a4) := by
  unfold State.dataArrives
  extract_lets +onlyGivenNames -merge -useContext -underBinder x0
  try clear_value x0
  extract_lets +onlyGivenNames -merge -useContext -underBinder x1
  have h1 : Keep q x1.1 := by
    unfold x1
    refine keep_takeSeq ?_
    assumption
  try clear_value x1
  refine keep_ite (fun _ => ?_) (fun _ => ?_)
  · assumption
  · refine keep_ite (fun _ => ?_) (fun _ => ?_)
    · refine keep_updLink ?_
      assumption
    · refine keep_ite (fun _ => ?_) (fun _ => ?_)
      · refine keep_forwardQs ?_
        refine keep_updLink ?_
        assumption
      · refine keep_bufferFlit ?_
        assumption

theorem keep_tagFailure {a0 : State} {a1 : Nat} {a2 : Nat} {a3 : BitVec 62} (g0 : Keep q a0) : Keep q (@State.tagFailure a0 a1 a2 a3) := by
  unfold State.tagFailure
  extract_lets +onlyGivenNames -merge -useContext -underBinder x0
  try clear_value x0
  extract_lets +onlyGivenNames -merge -useContext -underBinder x1
  try clear_value x1
  extract_lets +onlyGivenNames -merge -useContext -underBinder x2
  have h2 : Keep q x2 := by
    unfold x2
    refine keep_updLink ?_
    assumption
  try clear_value x2
  refine keep_ite (fun _ => ?_) (fun _ => ?_)
  · extract_lets +onlyGivenNames -merge -useContext -underBinder x3
    try clear_value x3
    extract_lets +onlyGivenNames -merge -useContext -underBinder x4
    have h4 : Keep q x4 := by
      unfold x4
      refine keep_record ?_
      assumption
    try clear_value x4
    refine keep_fireAlarm ?_
    refine keep_linkDown ?_
    refine keep_updLink ?_
    assumption
  · assumption

theorem keep_sealArrives {a0 : State} {a1 : Nat} {a2 : FlitHead} {a3 : List Byte} {a4 : Bool} (g0 : Keep q a0) : Keep q (@State.sealArrives a0 a1 a2 a3 a4) := by
  unfold State.sealArrives
  refine keep_ite (fun _ => ?_) (fun _ => ?_)
  · refine keep_updLink ?_
    assumption
  · extract_lets +onlyGivenNames -merge -useContext -underBinder x0
    try clear_value x0
    extract_lets +onlyGivenNames -merge -useContext -underBinder x1
    try clear_value x1
    extract_lets +onlyGivenNames -merge -useContext -underBinder x2
    try clear_value x2
    extract_lets +onlyGivenNames -merge -useContext -underBinder x3
    have h3 : Keep q x3.1 := by
      unfold x3
      refine keep_takeSeq ?_
      assumption
    try clear_value x3
    refine keep_ite (fun _ => ?_) (fun _ => ?_)
    · assumption
    · split
      · refine keep_tagFailure ?_
        assumption
      · extract_lets +onlyGivenNames -merge -useContext -underBinder x4
        have h4 : Keep q x4 := by
          unfold x4
          refine keep_dropOldKeys ?_
          refine keep_updLink ?_
          assumption
        try clear_value x4
        refine keep_ite (fun _ => ?_) (fun _ => ?_)
        · refine keep_forwardQs ?_
          assumption
        · refine keep_bufferFlit ?_
          assumption

theorem keep_receive {a0 : State} {a1 : Nat} {a2 : FlitIn} {a3 : Bool} (g0 : Keep q a0) : Keep q (@State.receive a0 a1 a2 a3) := by
  unfold State.receive
  extract_lets +onlyGivenNames -merge -useContext -underBinder x0
  try clear_value x0
  extract_lets +onlyGivenNames -merge -useContext -underBinder x1
  have h1 : Keep q x1 := by
    unfold x1
    refine keep_updLink ?_
    assumption
  try clear_value x1
  refine keep_ite (fun _ => ?_) (fun _ => ?_)
  · refine keep_loseFlit ?_
    assumption
  · extract_lets +onlyGivenNames -merge -useContext -underBinder x2
    have h2 : Keep q x2 := by
      unfold x2
      refine keep_takeAck ?_
      assumption
    try clear_value x2
    refine keep_ite (fun _ => ?_) (fun _ => ?_)
    · refine keep_dataArrives ?_
      refine keep_countPort ?_
      assumption
    · refine keep_ite (fun _ => ?_) (fun _ => ?_)
      · refine keep_sealArrives ?_
        refine keep_countPort ?_
        assumption
      · refine keep_ite (fun _ => ?_) (fun _ => ?_)
        · refine keep_foldl ?_ ?_
          · assumption
          · intro _ _ _
            refine keep_ctrlEntry ?_
            assumption
        · refine keep_ite (fun _ => ?_) (fun _ => ?_)
          · refine keep_ident ?_
            assumption
          · assumption

theorem keep_execDataFlit {a0 : Link} {a1 : FlitIn} {a2 : State} (g2 : Keep q a2) : KeepX q (@execDataFlit a0 a1 a2) := by
  unfold execDataFlit
  refine keepX_next ?_
  refine keep_receive ?_
  assumption

theorem keep_execSealFlit {a0 : Link} {a1 : FlitIn} {a2 : Bool} {a3 : State} (g3 : Keep q a3) : KeepX q (@execSealFlit a0 a1 a2 a3) := by
  unfold execSealFlit
  refine keepX_next ?_
  refine keep_receive ?_
  assumption

theorem keep_execIdleFlit {a0 : Link} {a1 : Vc} {a2 : BitVec 18} {a3 : BitVec 5} {a4 : State} (g4 : Keep q a4) : KeepX q (@execIdleFlit a0 a1 a2 a3 a4) := by
  unfold execIdleFlit
  refine keepX_next ?_
  refine keep_takeAck ?_
  assumption

theorem keep_execControlEntryRepeat {a0 : Link} {a1 : State} (g1 : Keep q a1) : KeepX q (@execControlEntryRepeat a0 a1) := by
  unfold execControlEntryRepeat
  refine keepX_next ?_
  refine keep_updLink ?_
  assumption

theorem keep_grantUpdate {a0 : State} {a1 : Nat} {a2 : List Nat} (g0 : Keep q a0) : Keep q (@State.grantUpdate a0 a1 a2) := by
  unfold State.grantUpdate
  refine keep_ite (fun _ => ?_) (fun _ => ?_)
  · assumption
  · extract_lets +onlyGivenNames -merge -useContext -underBinder x0
    have h0 : Keep q x0 := by
      unfold x0
      refine keep_foldl ?_ ?_
      · assumption
      · intro _ _ _
        refine keep_drain ?_
        assumption
    try clear_value x0
    extract_lets +onlyGivenNames -merge -useContext -underBinder x1
    try clear_value x1
    refine keep_foldl ?_ ?_
    · assumption
    · intro _ _ _
      refine keep_updLink ?_
      assumption

theorem keep_execGrantUpdate {a0 : Link} {a1 : List Nat} {a2 : List Nat} {a3 : State} (g3 : Keep q a3) : KeepX q (@execGrantUpdate a0 a1 a2 a3) := by
  unfold execGrantUpdate
  refine keepX_next ?_
  refine keep_grantUpdate ?_
  assumption

theorem keep_holdRelease {a0 : State} {a1 : Nat} {a2 : Nat} (g0 : Keep q a0) : Keep q (@State.holdRelease a0 a1 a2) := by
  unfold State.holdRelease
  split
  · assumption
  · extract_lets +onlyGivenNames -merge -useContext -underBinder x0
    try clear_value x0
    extract_lets +onlyGivenNames -merge -useContext -underBinder x1
    have h1 : Keep q x1 := by
      unfold x1
      refine keep_drain ?_
      assumption
    try clear_value x1
    refine keep_updLink ?_
    assumption

theorem keep_execHoldRelease {a0 : Link} {a1 : Vc} {a2 : State} (g2 : Keep q a2) : KeepX q (@execHoldRelease a0 a1 a2) := by
  unfold execHoldRelease
  refine keepX_next ?_
  refine keep_holdRelease ?_
  assumption

theorem keep_execReplayNoProgress {a0 : Link} {a1 : Vc} {a2 : State} (g2 : Keep q a2) : KeepX q (@execReplayNoProgress a0 a1 a2) := by
  unfold execReplayNoProgress
  refine keepX_next ?_
  split
  · refine keep_ite (fun _ => ?_) (fun _ => ?_)
    · refine keep_resendFrom ?_
      assumption
    · assumption
  · assumption

theorem keep_drawPoint {a0 : State} (g0 : Keep q a0) : Keep q a0.drawPoint.1 := by
  unfold State.drawPoint
  exact show Keep q (a0.onDp fun d => { d with freeCtr := d.freeCtr + 8 }) from keep_onDp g0 fun _ h => h

theorem keep_offerKey {a0 : State} {a1 : Nat} (g0 : Keep q a0) : Keep q (@State.offerKey a0 a1) := by
  unfold State.offerKey
  extract_lets +onlyGivenNames -merge -useContext -underBinder x0
  have h0 : Keep q x0.1 := by
    unfold x0
    refine keep_drawPoint ?_
    assumption
  try clear_value x0
  extract_lets +onlyGivenNames -merge -useContext -underBinder x1
  have h1 : Keep q x1 := by
    unfold x1
    refine keep_updLink ?_
    assumption
  try clear_value x1
  refine keep_sendOver ?_
  assumption

theorem keep_execKeyAgreementStart {a0 : Link} {a1 : State} (g1 : Keep q a1) : KeepX q (@execKeyAgreementStart a0 a1) := by
  unfold execKeyAgreementStart
  refine keepX_next ?_
  refine keep_ite (fun _ => ?_) (fun _ => ?_)
  · refine keep_offerKey ?_
    assumption
  · assumption

theorem keep_answerKey {a0 : State} {a1 : Nat} {a2 : List Byte} (g0 : Keep q a0) : Keep q (@State.answerKey a0 a1 a2) := by
  unfold State.answerKey
  extract_lets +onlyGivenNames -merge -useContext -underBinder x0
  have h0 : Keep q x0.1 := by
    unfold x0
    refine keep_drawPoint ?_
    assumption
  try clear_value x0
  extract_lets +onlyGivenNames -merge -useContext -underBinder x1
  try clear_value x1
  extract_lets +onlyGivenNames -merge -useContext -underBinder x2
  try clear_value x2
  extract_lets +onlyGivenNames -merge -useContext -underBinder x3
  have h3 : Keep q x3 := by
    unfold x3
    refine keep_updLink ?_
    assumption
  try clear_value x3
  refine keep_sendOver ?_
  assumption

theorem keep_switchKey {a0 : State} {a1 : Nat} {a2 : List Byte} (g0 : Keep q a0) : Keep q (@State.switchKey a0 a1 a2) := by
  unfold State.switchKey
  extract_lets +onlyGivenNames -merge -useContext -underBinder x0
  try clear_value x0
  extract_lets +onlyGivenNames -merge -useContext -underBinder x1
  try clear_value x1
  extract_lets +onlyGivenNames -merge -useContext -underBinder x2
  try clear_value x2
  extract_lets +onlyGivenNames -merge -useContext -underBinder x3
  have h3 : Keep q x3 := by
    unfold x3
    refine keep_updLink ?_
    assumption
  try clear_value x3
  refine keep_dropOldKeys ?_
  refine keep_send ?_
  refine keep_sendOver ?_
  assumption

theorem keep_acceptKey {a0 : State} {a1 : Nat} {a2 : List (BitVec 62)} (g0 : Keep q a0) : Keep q (@State.acceptKey a0 a1 a2) := by
  unfold State.acceptKey
  split
  · assumption
  · refine keep_dropOldKeys ?_
    refine keep_send ?_
    refine keep_updLink ?_
    assumption

theorem keep_keyMsg {a0 : State} {a1 : Nat} {a2 : KeyMsg} (g0 : Keep q a0) : Keep q (@State.keyMsg a0 a1 a2) := by
  unfold State.keyMsg
  split
  · refine keep_answerKey ?_
    assumption
  · refine keep_ite (fun _ => ?_) (fun _ => ?_)
    · refine keep_switchKey ?_
      assumption
    · assumption
  · refine keep_acceptKey ?_
    assumption

theorem keep_execKeyAgreementMsg {a0 : Link} {a1 : Bool} {a2 : KeyMsg} {a3 : State} (g3 : Keep q a3) : KeepX q (@execKeyAgreementMsg a0 a1 a2 a3) := by
  unfold execKeyAgreementMsg
  refine keepX_next ?_
  refine keep_ite (fun _ => ?_) (fun _ => ?_)
  · refine keep_keyMsg ?_
    assumption
  · assumption

theorem keep_execKeyExhausted {a0 : Link} {a1 : State} (g1 : Keep q a1) : KeepX q (@execKeyExhausted a0 a1) := by
  unfold execKeyExhausted
  refine keepX_next ?_
  refine keep_ite (fun _ => ?_) (fun _ => ?_)
  · refine keep_updLink ?_
    assumption
  · assumption

theorem keep_execKeyAgreementTimeout {a0 : Link} {a1 : State} (g1 : Keep q a1) : KeepX q (@execKeyAgreementTimeout a0 a1) := by
  unfold execKeyAgreementTimeout
  refine keepX_next ?_
  refine keep_ite (fun _ => ?_) (fun _ => ?_)
  · refine keep_linkDown ?_
    refine keep_record ?_
    assumption
  · assumption

theorem keep_transit {a0 : State} {a1 : Nat} {a2 : Packet} (g0 : Keep q a0) : Keep q (@State.transit a0 a1 a2) := by
  unfold State.transit
  split
  · refine keep_discardPacket ?_
    assumption
  · refine keep_ite (fun _ => ?_) (fun _ => ?_)
    · refine keep_ite (fun _ => ?_) (fun _ => ?_)
      · refine keep_respond ?_
        assumption
      · assumption
    · refine keep_ite (fun _ => ?_) (fun _ => ?_)
      · refine keep_send ?_
        assumption
      · refine keep_ite (fun _ => ?_) (fun _ => ?_)
        · refine keep_discardPacket ?_
          assumption
        · extract_lets +onlyGivenNames -merge -useContext -underBinder x0
          try clear_value x0
          split
          · refine keep_discardPacket ?_
            assumption
          · extract_lets +onlyGivenNames -merge -useContext -underBinder x1
            have h1 : Keep q x1.1 := by
              unfold x1
              refine keep_sendPacket ?_
              assumption
            try clear_value x1
            refine keep_ite (fun _ => ?_) (fun _ => ?_)
            · assumption
            · refine keep_ite (fun _ => ?_) (fun _ => ?_)
              · refine keep_respond ?_
                assumption
              · refine keep_respond ?_
                assumption

theorem keep_execPacketTransit {a0 : Vc} {a1 : Packet} {a2 : State} (g2 : Keep q a2) : KeepX q (@execPacketTransit a0 a1 a2) := by
  unfold execPacketTransit
  refine keepX_next ?_
  refine keep_transit ?_
  assumption

theorem keep_pressureRecord {a0 : State} {a1 : Nat} {a2 : Nat} {a3 : BitVec 64} (g0 : Keep q a0) : Keep q (@State.pressureRecord a0 a1 a2 a3) := by
  unfold State.pressureRecord
  extract_lets +onlyGivenNames -merge -useContext -underBinder x0
  try clear_value x0
  extract_lets +onlyGivenNames -merge -useContext -underBinder x1
  try clear_value x1
  refine keep_updLink ?_
  refine keep_record ?_
  assumption

theorem keep_execSustainedPressure {a0 : Link} {a1 : Vc} {a2 : State} (g2 : Keep q a2) : KeepX q (@execSustainedPressure a0 a1 a2) := by
  unfold execSustainedPressure
  refine keepX_next ?_
  refine keep_updLink ?_
  refine keep_pressureRecord ?_
  assumption

theorem keep_execPressureRepeat {a0 : Link} {a1 : Vc} {a2 : BitVec 64} {a3 : State} (g3 : Keep q a3) : KeepX q (@execPressureRepeat a0 a1 a2 a3) := by
  unfold execPressureRepeat
  refine keepX_next ?_
  refine keep_ite (fun _ => ?_) (fun _ => ?_)
  · refine keep_pressureRecord ?_
    assumption
  · assumption

theorem keep_execPressureEpisodeEnd {a0 : Link} {a1 : Vc} {a2 : State} (g2 : Keep q a2) : KeepX q (@execPressureEpisodeEnd a0 a1 a2) := by
  unfold execPressureEpisodeEnd
  refine keepX_next ?_
  refine keep_updLink ?_
  assumption

end Sys2Proof.Laws
end

