-- ==== Sys2Proof/Laws/KeepPower.lean ====
section
/-! SUPPORT. What each operation of Machine/Power.lean keeps: the queue and the invariant of Safety.lean, or the canonical form of memory. -/
namespace Sys2Proof.Laws
open Sys2Proof Sys2Proof.Machine
variable {q : List Instr}

theorem keep_easelRecord {a0 : State} {a1 : Nat} {a2 : Nat} {a3 : Nat} (g0 : Keep q a0) : Keep q (@State.easelRecord a0 a1 a2 a3) := by
  unfold State.easelRecord
  extract_lets +onlyGivenNames -merge -useContext -underBinder x0
  try clear_value x0
  refine keep_record ?_
  assumption

theorem keep_updDomain {a0 : State} {a1 : Nat} {a2 : Domain → Domain} (g0 : Keep q a0) : Keep q (@State.updDomain a0 a1 a2) := by
  unfold State.updDomain
  refine Keep.updP ?_ rfl
  assumption

theorem keep_evalDomain {a0 : State} {a1 : Nat} (g0 : Keep q a0) : Keep q (@State.evalDomain a0 a1) := by
  unfold State.evalDomain
  split
  · refine keep_ite (fun _ => ?_) (fun _ => ?_)
    · refine keep_updDomain ?_
      assumption
    · assumption
  · refine keep_ite (fun _ => ?_) (fun _ => ?_)
    · refine keep_updDomain ?_
      assumption
    · assumption
  · refine keep_ite (fun _ => ?_) (fun _ => ?_)
    · assumption
    · refine keep_updDomain ?_
      assumption
  · assumption
  · assumption

theorem keep_evalUp {a0 : State} {a1 : Nat} (g0 : Keep q a0) : Keep q (@State.evalUp a0 a1) := by
  unfold State.evalUp
  refine keep_foldl ?_ ?_
  · assumption
  · intro _ _ _
    refine keep_evalDomain ?_
    assumption

theorem keep_vote {a0 : State} {a1 : Nat} {a2 : Nat} {a3 : Bool} (g0 : Keep q a0) : Keep q (@State.vote a0 a1 a2 a3) := by
  unfold State.vote
  refine keep_ite (fun _ => ?_) (fun _ => ?_)
  · refine keep_configRecord ?_
    assumption
  · refine keep_ite (fun _ => ?_) (fun _ => ?_)
    · assumption
    · extract_lets +onlyGivenNames -merge -useContext -underBinder x0
      try clear_value x0
      refine keep_evalUp ?_
      refine keep_updDomain ?_
      assumption

theorem keep_execPwrVoteSet {a0 : Fin 8} {a1 : BitVec 10} {a2 : State} (g2 : Keep q a2) : KeepX q (@execPwrVoteSet a0 a1 a2) := by
  unfold execPwrVoteSet
  refine keepX_next ?_
  refine keep_vote ?_
  assumption

theorem keep_execPwrVoteWithdraw {a0 : Fin 8} {a1 : BitVec 10} {a2 : State} (g2 : Keep q a2) : KeepX q (@execPwrVoteWithdraw a0 a1 a2) := by
  unfold execPwrVoteWithdraw
  refine keepX_next ?_
  refine keep_vote ?_
  assumption

theorem keep_votes {a0 : State} {a1 : Nat} {a2 : List Nat} {a3 : Bool} (g0 : Keep q a0) : Keep q (@State.votes a0 a1 a2 a3) := by
  unfold State.votes
  refine keep_foldl ?_ ?_
  · assumption
  · intro _ _ _
    refine keep_vote ?_
    assumption

theorem keep_domainDone {a0 : State} {a1 : Nat} (g0 : Keep q a0) : Keep q (@State.domainDone a0 a1) := by
  unfold State.domainDone
  extract_lets +onlyGivenNames -merge -useContext -underBinder x0
  have h0 : Keep q x0 := by
    unfold x0
    refine keep_updDomain ?_
    assumption
  try clear_value x0
  extract_lets +onlyGivenNames -merge -useContext -underBinder x1
  have h1 : Keep q x1 := by
    unfold x1
    refine keep_evalUp ?_
    assumption
  try clear_value x1
  refine keep_foldl ?_ ?_
  · assumption
  · intro _ _ _
    refine keep_evalDomain ?_
    assumption

theorem keep_execDomainTransitionDone {a0 : Fin 992} {a1 : State} (g1 : Keep q a1) : KeepX q (@execDomainTransitionDone a0 a1) := by
  unfold execDomainTransitionDone
  refine keepX_next ?_
  refine keep_domainDone ?_
  assumption

theorem keep_cutEasel {a0 : State} {a1 : Nat} (g0 : Keep q a0) : Keep q (@State.cutEasel a0 a1) := by
  unfold State.cutEasel
  refine keep_evalUp ?_
  refine keep_updDomain ?_
  assumption

theorem keep_updPstate {a0 : State} {a1 : Nat} {a2 : PState → PState} (g0 : Keep q a0) : Keep q (@State.updPstate a0 a1 a2) := by
  unfold State.updPstate
  refine Keep.updP ?_ rfl
  assumption

theorem keep_setRequest {a0 : State} {a1 : Nat} {a2 : BitVec 4} (g0 : Keep q a0) : Keep q (@State.setRequest a0 a1 a2) := by
  unfold State.setRequest
  refine keep_updPstate ?_
  assumption

theorem keep_setCap {a0 : State} {a1 : BitVec 4} (g0 : Keep q a0) : Keep q (@State.setCap a0 a1) := by
  unfold State.setCap
  extract_lets +onlyGivenNames -merge -useContext -underBinder x0
  extract_lets +onlyGivenNames -merge -useContext -underBinder x1
  have h1 : Keep q x1 := by
    unfold x1
    refine Keep.updP ?_ rfl
    assumption
  try clear_value x1
  refine keep_foldl ?_ ?_
  · assumption
  · intro _ _ _
    refine keep_setRequest ?_
    assumption

theorem keep_execPstateStep {a0 : Panel} {a1 : State} (g1 : Keep q a1) : KeepX q (@execPstateStep a0 a1) := by
  unfold execPstateStep
  refine keepX_next ?_
  refine keep_updPstate ?_
  assumption

theorem keep_execDroopTrip {a0 : Easel} {a1 : State} (g1 : Keep q a1) : KeepX q (@execDroopTrip a0 a1) := by
  unfold execDroopTrip
  refine keepX_next ?_
  refine keep_updPct ?_
  refine Keep.updP ?_ rfl
  assumption

theorem keep_execDroopRecovery {a0 : Easel} {a1 : State} (g1 : Keep q a1) : KeepX q (@execDroopRecovery a0 a1) := by
  unfold execDroopRecovery
  refine keepX_next ?_
  refine Keep.updP ?_ rfl
  assumption

theorem keep_powerRecord {a0 : State} {a1 : Nat} {a2 : Nat} {a3 : Nat} {a4 : Nat} {a5 : Nat} {a6 : Status} (g0 : Keep q a0) : Keep q (@State.powerRecord a0 a1 a2 a3 a4 a5 a6) := by
  unfold State.powerRecord
  refine keep_record ?_
  assumption

theorem keep_droopPersist {a0 : State} {a1 : Nat} {a2 : Nat} (g0 : Keep q a0) : Keep q (@State.droopPersist a0 a1 a2) := by
  unfold State.droopPersist
  extract_lets +onlyGivenNames -merge -useContext -underBinder x0
  try clear_value x0
  refine keep_ite (fun _ => ?_) (fun _ => ?_)
  · assumption
  · refine keep_powerRecord ?_
    refine Keep.updP ?_ rfl
    assumption

theorem keep_execDroopPersist {a0 : Panel} {a1 : Fin 1001} {a2 : State} (g2 : Keep q a2) : KeepX q (@execDroopPersist a0 a1 a2) := by
  unfold execDroopPersist
  refine keepX_next ?_
  refine keep_droopPersist ?_
  assumption

theorem keep_addEstimate {a0 : State} {a1 : PowerCounts} (g0 : Keep q a0) : Keep q (@State.addEstimate a0 a1) := by
  unfold State.addEstimate
  extract_lets +onlyGivenNames -merge -useContext -underBinder x0
  try clear_value x0
  extract_lets +onlyGivenNames -merge -useContext -underBinder x1
  try clear_value x1
  extract_lets +onlyGivenNames -merge -useContext -underBinder x2
  try clear_value x2
  refine Keep.updP ?_ rfl
  assumption

theorem keep_fastLoop {a0 : State} (g0 : Keep q a0) : Keep q (@State.fastLoop a0) := by
  unfold State.fastLoop
  extract_lets +onlyGivenNames -merge -useContext -underBinder x0
  try clear_value x0
  refine keep_ite (fun _ => ?_) (fun _ => ?_)
  · refine Keep.updP ?_ rfl
    assumption
  · refine keep_ite (fun _ => ?_) (fun _ => ?_)
    · refine Keep.updP ?_ rfl
      assumption
    · assumption

theorem keep_execPowerEstimate {a0 : PowerCounts} {a1 : State} (g1 : Keep q a1) : KeepX q (@execPowerEstimate a0 a1) := by
  unfold execPowerEstimate
  refine keepX_next ?_
  refine keep_fastLoop ?_
  refine keep_addEstimate ?_
  assumption

theorem keep_suspectCheck {a0 : State} (g0 : Keep q a0) : Keep q (@State.suspectCheck a0) := by
  unfold State.suspectCheck
  extract_lets +onlyGivenNames -merge -useContext -underBinder x0
  try clear_value x0
  extract_lets +onlyGivenNames -merge -useContext -underBinder x1
  try clear_value x1
  extract_lets +onlyGivenNames -merge -useContext -underBinder x2
  try clear_value x2
  extract_lets +onlyGivenNames -merge -useContext -underBinder x3
  try clear_value x3
  extract_lets +onlyGivenNames -merge -useContext -underBinder x4
  try clear_value x4
  extract_lets +onlyGivenNames -merge -useContext -underBinder x5
  extract_lets +onlyGivenNames -merge -useContext -underBinder x6
  have h6 : Keep q x6 := by
    unfold x6
    refine Keep.updP ?_ rfl
    assumption
  try clear_value x6
  refine keep_ite (fun _ => ?_) (fun _ => ?_)
  · assumption
  · extract_lets +onlyGivenNames -merge -useContext -underBinder x7
    extract_lets +onlyGivenNames -merge -useContext -underBinder x8
    have h8 : Keep q x8 := by
      unfold x8
      refine keep_ite (fun _ => ?_) (fun _ => ?_)
      · assumption
      · refine keep_powerRecord ?_
        refine Keep.updP ?_ rfl
        assumption
    try clear_value x8
    refine keep_ite (fun _ => ?_) (fun _ => ?_)
    · assumption
    · extract_lets +onlyGivenNames -merge -useContext -underBinder x9
      try clear_value x9
      extract_lets +onlyGivenNames -merge -useContext -underBinder x10
      try clear_value x10
      split
      · extract_lets +onlyGivenNames -merge -useContext -underBinder x11
        try clear_value x11
        extract_lets +onlyGivenNames -merge -useContext -underBinder x12
        try clear_value x12
        refine Keep.updP ?_ rfl
        assumption

theorem keep_apportion {a0 : State} {a1 : List (Part × Nat × Nat)} (g0 : Keep q a0) : Keep q (@State.apportion a0 a1) := by
  unfold State.apportion
  extract_lets +onlyGivenNames -merge -useContext -underBinder x0
  try clear_value x0
  extract_lets +onlyGivenNames -merge -useContext -underBinder x1
  try clear_value x1
  extract_lets +onlyGivenNames -merge -useContext -underBinder x2
  try clear_value x2
  extract_lets +onlyGivenNames -merge -useContext -underBinder x3
  try clear_value x3
  extract_lets +onlyGivenNames -merge -useContext -underBinder x4
  try clear_value x4
  extract_lets +onlyGivenNames -merge -useContext -underBinder x5
  try clear_value x5
  extract_lets +onlyGivenNames -merge -useContext -underBinder x6
  try clear_value x6
  extract_lets +onlyGivenNames -merge -useContext -underBinder x7
  try clear_value x7
  refine Keep.updP ?_ rfl
  assumption

theorem keep_powerMeasure {a0 : State} {a1 : BitVec 16} {a2 : Bool} {a3 : List (Part × Nat × Nat)} (g0 : Keep q a0) : Keep q (@State.powerMeasure a0 a1 a2 a3) := by
  unfold State.powerMeasure
  extract_lets +onlyGivenNames -merge -useContext -underBinder x0
  try clear_value x0
  extract_lets +onlyGivenNames -merge -useContext -underBinder x1
  try clear_value x1
  extract_lets +onlyGivenNames -merge -useContext -underBinder x2
  have h2 : Keep q x2 := by
    unfold x2
    refine Keep.mk' ?_ ?_ ?_ ?_ ?_ ?_
    · assumption
    · exact fun h => h.inv.mem
    · exact fun h => h.inv.flash
    · exact fun h => h.inv.sec
    · exact fun h => h.inv.elec
    · first | exact fun h => ⟨h.inv.stage.max, fun e => h.inv.stage.m3 ((Pwr_sense_mstate _ _ _).symm.trans e)⟩ | exact fun h => ⟨h.inv.stage.max, fun e => absurd (show (0 : BitVec 2) = 3 from e) (by decide)⟩ | exact fun h => ⟨h.inv.stage.max, fun e => absurd (show (1 : BitVec 2) = 3 from e) (by decide)⟩
  try clear_value x2
  extract_lets +onlyGivenNames -merge -useContext -underBinder x3
  try clear_value x3
  extract_lets +onlyGivenNames -merge -useContext -underBinder x4
  extract_lets +onlyGivenNames -merge -useContext -underBinder x5
  have h5 : Keep q x5 := by
    unfold x5
    refine Keep.updP ?_ rfl
    assumption
  try clear_value x5
  extract_lets +onlyGivenNames -merge -useContext -underBinder x6
  have h6 : Keep q x6 := by
    unfold x6
    refine keep_ite (fun _ => ?_) (fun _ => ?_)
    · refine keep_powerRecord ?_
      assumption
    · assumption
  try clear_value x6
  extract_lets +onlyGivenNames -merge -useContext -underBinder x7
  have h7 : Keep q x7 := by
    unfold x7
    refine keep_apportion ?_
    assumption
  try clear_value x7
  refine keep_ite (fun _ => ?_) (fun _ => ?_)
  · assumption
  · refine keep_suspectCheck ?_
    assumption

theorem keep_execPowerMeasurement {a0 : BitVec 16} {a1 : Bool} {a2 : List (Part × Nat × Nat)} {a3 : State} (g3 : Keep q a3) : KeepX q (@execPowerMeasurement a0 a1 a2 a3) := by
  unfold execPowerMeasurement
  refine keepX_next ?_
  refine keep_powerMeasure ?_
  assumption

theorem keep_limitRecord {a0 : State} {a1 : Nat} {a2 : Nat} (g0 : Keep q a0) : Keep q (@State.limitRecord a0 a1 a2) := by
  unfold State.limitRecord
  extract_lets +onlyGivenNames -merge -useContext -underBinder x0
  try clear_value x0
  refine keep_ite (fun _ => ?_) (fun _ => ?_)
  · refine Keep.updP ?_ rfl
    assumption
  · extract_lets +onlyGivenNames -merge -useContext -underBinder x1
    try clear_value x1
    extract_lets +onlyGivenNames -merge -useContext -underBinder x2
    extract_lets +onlyGivenNames -merge -useContext -underBinder x3
    have h3 : Keep q x3 := by
      unfold x3
      refine Keep.updP ?_ rfl
      assumption
    try clear_value x3
    refine keep_ite (fun _ => ?_) (fun _ => ?_)
    · refine keep_powerRecord ?_
      refine Keep.updP ?_ rfl
      assumption
    · assumption

theorem keep_slowLoop {a0 : State} (g0 : Keep q a0) : Keep q (@State.slowLoop a0) := by
  unfold State.slowLoop
  extract_lets +onlyGivenNames -merge -useContext -underBinder x0
  try clear_value x0
  extract_lets +onlyGivenNames -merge -useContext -underBinder x1
  try clear_value x1
  extract_lets +onlyGivenNames -merge -useContext -underBinder x2
  try clear_value x2
  extract_lets +onlyGivenNames -merge -useContext -underBinder x3
  try clear_value x3
  extract_lets +onlyGivenNames -merge -useContext -underBinder x4
  extract_lets +onlyGivenNames -merge -useContext -underBinder x5
  have h5 : Keep q x5 := by
    unfold x5
    refine keep_ite (fun _ => ?_) (fun _ => ?_)
    · refine keep_setCap ?_
      refine Keep.updP ?_ rfl
      assumption
    · refine keep_ite (fun _ => ?_) (fun _ => ?_)
      · refine keep_setCap ?_
        assumption
      · assumption
  try clear_value x5
  refine keep_limitRecord ?_
  assumption

theorem keep_execSlowLoop {a0 : State} (g0 : Keep q a0) : KeepX q (@execSlowLoop a0) := by
  unfold execSlowLoop
  refine keepX_next ?_
  refine keep_slowLoop ?_
  assumption

theorem keep_idleEntry {a0 : State} (g0 : Keep q a0) : Keep q (@State.idleEntry a0) := by
  unfold State.idleEntry
  refine keep_ite (fun _ => ?_) (fun _ => ?_)
  · refine keep_mstateRecord ?_
    refine Keep.mk' ?_ ?_ ?_ ?_ ?_ ?_
    · assumption
    · exact fun h => h.inv.mem
    · exact fun h => h.inv.flash
    · exact fun h => h.inv.sec
    · exact fun h => h.inv.elec
    · exact fun h => ⟨h.inv.stage.max, fun e => absurd (show (1 : BitVec 2) = 3 from e) (by decide)⟩
  · assumption

theorem keep_execIdleEntry {a0 : State} (g0 : Keep q a0) : KeepX q (@execIdleEntry a0) := by
  unfold execIdleEntry
  refine keepX_next ?_
  refine keep_idleEntry ?_
  assumption

theorem keep_beginEntry {a0 : State} {a1 : BitVec 2} {a2 : Nat} (g0 : Keep q a0) : Keep q (@State.beginEntry a0 a1 a2) := by
  unfold State.beginEntry
  extract_lets +onlyGivenNames -merge -useContext -underBinder x0
  have h0 : Keep q x0 := by
    unfold x0
    refine keep_mstateRecord ?_
    assumption
  try clear_value x0
  extract_lets +onlyGivenNames -merge -useContext -underBinder x1
  extract_lets +onlyGivenNames -merge -useContext -underBinder x2
  have h2 : Keep q x2 := by
    unfold x2
    refine keep_ite (fun _ => ?_) (fun _ => ?_)
    · refine Keep.updP ?_ rfl
      assumption
    · assumption
  try clear_value x2
  refine keep_onEvr ?_
  refine Keep.updP ?_ rfl
  assumption

theorem keep_dormant {a0 : State} (g0 : Keep q a0) : Keep q (@State.dormant a0) := by
  unfold State.dormant
  refine keep_ite (fun _ => ?_) (fun _ => ?_)
  · refine keep_beginEntry ?_
    assumption
  · assumption

theorem keep_execDormantCommand {a0 : State} (g0 : Keep q a0) : KeepX q (@execDormantCommand a0) := by
  unfold execDormantCommand
  refine keepX_next ?_
  refine keep_dormant ?_
  assumption

theorem keep_powerDown {a0 : State} (g0 : Keep q a0) : Keep q (@State.powerDown a0) := by
  unfold State.powerDown
  refine Keep.updDP ?_ ?_ rfl
  · assumption
  · intro h
    extract_lets +onlyGivenNames -merge -useContext -underBinder x0
    have h0 : KeepD x0 := by
      unfold x0
      first | exact h.inv.mem | exact Keep.inv ‹_› |>.mem
    try clear_value x0
    refine keepD_mk ?_
    refine keep_Mem_dropScratch ?_
    show KeepD _
    first | exact h.inv.mem | exact Keep.inv ‹_› |>.mem

theorem keep_entryDone {a0 : State} (g0 : Keep q a0) : Keep q (@State.entryDone a0) := by
  unfold State.entryDone
  split
  · rename_i dst _
    extract_lets +onlyGivenNames -merge -useContext -underBinder x0
    have h0 : Keep q x0 := by
      unfold x0
      refine keep_onEvr ?_
      assumption
    try clear_value x0
    extract_lets +onlyGivenNames -merge -useContext -underBinder x1
    try clear_value x1
    extract_lets +onlyGivenNames -merge -useContext -underBinder x2
    try clear_value x2
    extract_lets +onlyGivenNames -merge -useContext -underBinder x3
    have h3 : Keep q x3 := by
      unfold x3
      refine keep_resetDies ?_
      refine keep_loseMemory ?_
      assumption
    try clear_value x3
    extract_lets +onlyGivenNames -merge -useContext -underBinder x4
    extract_lets +onlyGivenNames -merge -useContext -underBinder x5
    have h5 : Keep q x5 := by
      unfold x5
      refine keep_ite (fun _ => ?_) (fun _ => ?_)
      · refine keep_powerDown ?_
        assumption
      · refine Keep.mk' ?_ ?_ ?_ ?_ ?_ ?_
        · assumption
        · exact fun h => h.inv.mem
        · exact fun h => h.inv.flash
        · exact fun h => h.inv.sec
        · exact fun h => h.inv.elec
        · first | exact fun h => ⟨by decide, fun _ => rfl⟩ | exact fun h => ⟨by decide, fun e => absurd (show (0 : BitVec 2) = 3 from e) (by decide)⟩
    have hs5 : ¬dst = 2 → x5.stage = 0 := fun ht => by unfold x5; rw [if_neg ht]
    try clear_value x5
    extract_lets +onlyGivenNames -merge -useContext -underBinder x6
    extract_lets +onlyGivenNames -merge -useContext -underBinder x7
    have h7 : Keep q x7 := by
      unfold x7
      refine Keep.mk' ?_ ?_ ?_ ?_ ?_ ?_
      · assumption
      · exact fun h => h.inv.mem
      · exact fun h => h.inv.flash
      · exact fun h => h.inv.sec
      · exact fun h => h.inv.elec
      · exact fun h => ⟨h.inv.stage.max, fun e => hs5 (fun e2 => absurd ((show dst = 3 from e).symm.trans e2) (by decide))⟩
    try clear_value x7
    split
    · refine keep_beginExit ?_
      assumption
    · assumption
  · assumption

theorem keep_execMstateEntryDone {a0 : State} (g0 : Keep q a0) : KeepX q (@execMstateEntryDone a0) := by
  unfold execMstateEntryDone
  refine keepX_next ?_
  refine keep_entryDone ?_
  assumption

theorem keep_resumeVotes {a0 : State} (g0 : Keep q a0) : Keep q (@State.resumeVotes a0) := by
  unfold State.resumeVotes
  extract_lets +onlyGivenNames -merge -useContext -underBinder x0
  have h0 : Keep q x0 := by
    unfold x0
    refine keep_votes ?_
    refine keep_votes ?_
    assumption
  try clear_value x0
  refine Keep.updP ?_ rfl
  assumption

theorem keep_exitDone {a0 : State} (g0 : Keep q a0) : Keep q (@State.exitDone a0) := by
  unfold State.exitDone
  refine keep_ite (fun _ => ?_) (fun _ => ?_)
  · assumption
  · extract_lets +onlyGivenNames -merge -useContext -underBinder x0
    try clear_value x0
    extract_lets +onlyGivenNames -merge -useContext -underBinder x1
    extract_lets +onlyGivenNames -merge -useContext -underBinder x2
    have h2 : Keep q x2 := by
      unfold x2
      refine Keep.mk' ?_ ?_ ?_ ?_ ?_ ?_
      · assumption
      · exact fun h => h.inv.mem
      · exact fun h => h.inv.flash
      · exact fun h => h.inv.sec
      · exact fun h => h.inv.elec
      · first | exact fun h => ⟨h.inv.stage.max, h.inv.stage.m3⟩ | exact fun h => ⟨h.inv.stage.max, fun e => absurd (show (0 : BitVec 2) = 3 from e) (by decide)⟩ | exact fun h => ⟨h.inv.stage.max, fun e => absurd (show (1 : BitVec 2) = 3 from e) (by decide)⟩
    try clear_value x2
    extract_lets +onlyGivenNames -merge -useContext -underBinder x3
    have h3 : Keep q x3 := by
      unfold x3
      refine keep_ite (fun _ => ?_) (fun _ => ?_)
      · refine keep_resumeVotes ?_
        assumption
      · assumption
    try clear_value x3
    extract_lets +onlyGivenNames -merge -useContext -underBinder x4
    try clear_value x4
    extract_lets +onlyGivenNames -merge -useContext -underBinder x5
    have h5 : Keep q x5 := by
      unfold x5
      refine Keep.upd ?_
      assumption
    try clear_value x5
    refine keep_ite (fun _ => ?_) (fun _ => ?_)
    · refine keep_foldl ?_ ?_
      · assumption
      · intro _ _ _
        refine keep_ite (fun _ => ?_) (fun _ => ?_)
        · refine keep_updLink ?_
          refine keep_linkTrain ?_
          assumption
        · assumption
    · assumption

theorem keep_execWakeExitDone {a0 : State} (g0 : Keep q a0) : KeepX q (@execWakeExitDone a0) := by
  unfold execWakeExitDone
  refine keepX_next ?_
  refine keep_exitDone ?_
  assumption

theorem keep_rtcAlarm {a0 : State} (g0 : Keep q a0) : Keep q (@State.rtcAlarm a0) := by
  unfold State.rtcAlarm
  refine keep_ite (fun _ => ?_) (fun _ => ?_)
  · refine keep_wake ?_
    refine Keep.updP ?_ rfl
    assumption
  · assumption

theorem keep_execRtcAlarm {a0 : State} (g0 : Keep q a0) : KeepX q (@execRtcAlarm a0) := by
  unfold execRtcAlarm
  refine keepX_next ?_
  refine keep_rtcAlarm ?_
  assumption

theorem keep_execKeepaliveWake {a0 : State} (g0 : Keep q a0) : KeepX q (@execKeepaliveWake a0) := by
  unfold execKeepaliveWake
  refine keepX_next ?_
  refine keep_wake ?_
  assumption

theorem keep_execTrayWake {a0 : State} (g0 : Keep q a0) : KeepX q (@execTrayWake a0) := by
  unfold execTrayWake
  refine keepX_next ?_
  refine keep_wake ?_
  assumption

theorem keep_tpkRecord {a0 : State} {a1 : Tpk} {a2 : Nat} {a3 : Nat} {a4 : Nat} (g0 : Keep q a0) : Keep q (@State.tpkRecord a0 a1 a2 a3 a4) := by
  unfold State.tpkRecord
  refine keep_record ?_
  assumption

theorem keep_spareFails {a0 : State} {a1 : Nat} (g0 : Keep q a0) : Keep q (@State.spareFails a0 a1) := by
  unfold State.spareFails
  extract_lets +onlyGivenNames -merge -useContext -underBinder x0
  try clear_value x0
  refine keep_ite (fun _ => ?_) (fun _ => ?_)
  · assumption
  · extract_lets +onlyGivenNames -merge -useContext -underBinder x1
    have h1 : Keep q x1 := by
      unfold x1
      refine keep_updPanel ?_
      assumption
    try clear_value x1
    extract_lets +onlyGivenNames -merge -useContext -underBinder x2
    extract_lets +onlyGivenNames -merge -useContext -underBinder x3
    try clear_value x3
    extract_lets +onlyGivenNames -merge -useContext -underBinder x4
    have h4 : Keep q x4 := by
      unfold x4
      refine Keep.mk' ?_ ?_ ?_ ?_ ?_ ?_
      · assumption
      · exact fun h => h.inv.mem
      · first | exact fun h => ⟨h.inv.flash.region, h.inv.flash.jobs⟩ | exact fun h => ⟨h.inv.mem.region, h.inv.mem.jobs⟩
      · exact fun h => ⟨h.inv.sec.hold, h.inv.sec.erased, h.inv.sec.flash, h.inv.sec.revoke, h.inv.sec.disabled⟩
      · exact fun h => h.inv.elec
      · exact fun h => h.inv.stage
    try clear_value x4
    refine keep_easelRecord ?_
    refine keep_cutEasel ?_
    assumption

theorem keep_sparesOff {a0 : State} (g0 : Keep q a0) : Keep q (@State.sparesOff a0) := by
  unfold State.sparesOff
  refine keep_foldl ?_ ?_
  · assumption
  · intro _ _ _
    extract_lets +onlyGivenNames -merge -useContext -underBinder x0
    try clear_value x0
    refine keep_ite (fun _ => ?_) (fun _ => ?_)
    · assumption
    · refine keep_cutEasel ?_
      assumption

end Sys2Proof.Laws
end

