-- ==== Sys2Proof/Laws/KeepHost.lean ====
section
/-! SUPPORT. What each operation of Machine/Host.lean keeps: the queue and the invariant of Safety.lean, or the canonical form of memory. -/
namespace Sys2Proof.Laws
open Sys2Proof Sys2Proof.Machine
variable {q : List Instr}

theorem keep_updPort {a0 : State} {a1 : Port} {a2 : PortSt → PortSt} (g0 : Keep q a0) : Keep q (@State.updPort a0 a1 a2) := by
  unfold State.updPort
  split
  · refine Keep.upd ?_
    assumption
  · refine Keep.upd ?_
    assumption

theorem keep_updSlot {a0 : State} {a1 : Port} {a2 : Nat} {a3 : Slot → Slot} (g0 : Keep q a0) : Keep q (@State.updSlot a0 a1 a2 a3) := by
  unfold State.updSlot
  refine keep_updPort ?_
  assumption

theorem keep_bar0Discard {a0 : State} {a1 : Port} {a2 : Nat} (g0 : Keep q a0) : Keep q (@State.bar0Discard a0 a1 a2) := by
  unfold State.bar0Discard
  refine keep_updPort ?_
  assumption

theorem keep_execBar0Discard {a0 : Port} {a1 : State} (g1 : Keep q a1) : KeepX q (@execBar0Discard a0 a1) := by
  unfold execBar0Discard
  refine keepX_next ?_
  refine keep_bar0Discard ?_
  assumption

theorem keep_slotPost {a0 : State} {a1 : Port} {a2 : Nat} {a3 : SlotReq} (g0 : Keep q a0) : Keep q (@State.slotPost a0 a1 a2 a3) := by
  unfold State.slotPost
  refine keep_ite (fun _ => ?_) (fun _ => ?_)
  · refine keep_wake ?_
    refine keep_updSlot ?_
    assumption
  · refine keep_bar0Discard ?_
    assumption

theorem keep_execSlotPost {a0 : Port} {a1 : Fin 8} {a2 : SlotReq} {a3 : State} (g3 : Keep q a3) : KeepX q (@execSlotPost a0 a1 a2 a3) := by
  unfold execSlotPost
  refine keepX_next ?_
  refine keep_slotPost ?_
  assumption

theorem keep_slotFree {a0 : State} {a1 : Port} {a2 : Nat} (g0 : Keep q a0) : Keep q (@State.slotFree a0 a1 a2) := by
  unfold State.slotFree
  split
  · refine keep_updSlot ?_
    assumption
  · assumption
  · refine keep_bar0Discard ?_
    assumption

theorem keep_execSlotFree {a0 : Port} {a1 : Fin 8} {a2 : State} (g2 : Keep q a2) : KeepX q (@execSlotFree a0 a1 a2) := by
  unfold execSlotFree
  refine keepX_next ?_
  refine keep_slotFree ?_
  assumption

theorem keep_finish {a0 : State} {a1 : Cmd} {a2 : Status} {a3 : List Byte} (g0 : Keep q a0) : Keep q (@State.finish a0 a1 a2 a3) := by
  unfold State.finish
  split
  · assumption
  · extract_lets +onlyGivenNames -merge -useContext -underBinder x0
    try clear_value x0
    extract_lets +onlyGivenNames -merge -useContext -underBinder x1
    have h1 : Keep q x1 := by
      unfold x1
      refine Keep.upd ?_
      assumption
    try clear_value x1
    extract_lets +onlyGivenNames -merge -useContext -underBinder x2
    have h2 : Keep q x2 := by
      unfold x2
      refine keep_ite (fun _ => ?_) (fun _ => ?_)
      · refine keep_raise ?_
        refine keep_updSlot ?_
        assumption
      · assumption
    try clear_value x2
    refine keep_ite (fun _ => ?_) (fun _ => ?_)
    · refine keep_authFail ?_
      assumption
    · assumption

theorem keep_slotAccept {a0 : State} (g0 : Keep q a0) : Keep q (@State.slotAccept a0) := by
  unfold State.slotAccept
  split
  · assumption
  · extract_lets +onlyGivenNames -merge -useContext -underBinder x0
    try clear_value x0
    extract_lets +onlyGivenNames -merge -useContext -underBinder x1
    try clear_value x1
    extract_lets +onlyGivenNames -merge -useContext -underBinder x2
    try clear_value x2
    extract_lets +onlyGivenNames -merge -useContext -underBinder x3
    try clear_value x3
    extract_lets +onlyGivenNames -merge -useContext -underBinder x4
    try clear_value x4
    extract_lets +onlyGivenNames -merge -useContext -underBinder x5
    have h5 : Keep q x5 := by
      unfold x5
      refine Keep.upd ?_
      assumption
    try clear_value x5
    extract_lets +onlyGivenNames -merge -useContext -underBinder x6
    have h6 : Keep q x6 := by
      unfold x6
      refine keep_updSlot ?_
      assumption
    try clear_value x6
    refine keep_ite (fun _ => ?_) (fun _ => ?_)
    · assumption
    · refine keep_finish ?_
      assumption

theorem keep_execSlotAccept {a0 : State} (g0 : Keep q a0) : KeepX q (@execSlotAccept a0) := by
  unfold execSlotAccept
  refine keepX_next ?_
  refine keep_slotAccept ?_
  assumption

theorem keep_runCmd {a0 : State} {a1 : BitVec 48} {a2 : Nat} {a3 : Cmd → State × Status × List Byte} (g0 : Keep q a0) (g3 : ∀ y0, Keep q (a3 y0).1) : Keep q (@State.runCmd a0 a1 a2 a3) := by
  unfold State.runCmd
  split
  · assumption
  · extract_lets +onlyGivenNames -merge -useContext -underBinder x0
    have h0 : Keep q x0.1 := by
      unfold x0
      exact g3 _
    try clear_value x0
    refine keep_finish ?_
    assumption

theorem keep_waitCmd {a0 : State} {a1 : Cmd} (g0 : Keep q a0) : Keep q (@State.waitCmd a0 a1) := by
  unfold State.waitCmd
  refine Keep.upd ?_
  assumption

theorem keep_passOwner {a0 : State} {a1 : Port} {a2 : Nat} (g0 : Keep q a0) : Keep q (@State.passOwner a0 a1 a2) := by
  unfold State.passOwner
  extract_lets +onlyGivenNames -merge -useContext -underBinder x0
  try clear_value x0
  extract_lets +onlyGivenNames -merge -useContext -underBinder x1
  have h1 : Keep q x1 := by
    unfold x1
    refine Keep.upd ?_
    assumption
  try clear_value x1
  extract_lets +onlyGivenNames -merge -useContext -underBinder x2
  have h2 : Keep q x2 := by
    unfold x2
    refine keep_updPort ?_
    refine keep_updPort ?_
    assumption
  try clear_value x2
  refine keep_record ?_
  refine keep_onDp ?_ ?_
  · assumption
  · intro _ _
    refine keep_Dp_raiseBoth ?_
    assumption

theorem keep_execMbxHeartbeat {a0 : Port} {a1 : BitVec 32} {a2 : State} (g2 : Keep q a2) : KeepX q (@execMbxHeartbeat a0 a1 a2) := by
  unfold execMbxHeartbeat
  refine keepX_next ?_
  refine keep_ite (fun _ => ?_) (fun _ => ?_)
  · refine Keep.upd ?_
    assumption
  · refine keep_bar0Discard ?_
    assumption

theorem keep_execOwnerLapse {a0 : State} (g0 : Keep q a0) : KeepX q (@execOwnerLapse a0) := by
  unfold execOwnerLapse
  refine keepX_next ?_
  refine keep_ite (fun _ => ?_) (fun _ => ?_)
  · assumption
  · refine Keep.upd ?_
    assumption

theorem keep_takeOwnership {a0 : State} {a1 : BitVec 48} (g0 : Keep q a0) : Keep q (@State.takeOwnership a0 a1) := by
  unfold State.takeOwnership
  split
  · assumption
  · refine keep_ite (fun _ => ?_) (fun _ => ?_)
    · refine keep_finish ?_
      assumption
    · refine keep_ite (fun _ => ?_) (fun _ => ?_)
      · refine keep_finish ?_
        refine keep_passOwner ?_
        assumption
      · split
        · refine keep_raise ?_
          refine keep_waitCmd ?_
          refine Keep.upd ?_
          assumption
        · refine keep_finish ?_
          refine keep_passOwner ?_
          assumption

theorem keep_execTakeOwnership {a0 : BitVec 48} {a1 : State} (g1 : Keep q a1) : KeepX q (@execTakeOwnership a0 a1) := by
  unfold execTakeOwnership
  refine keepX_next ?_
  refine keep_takeOwnership ?_
  assumption

theorem keep_releaseOwnership {a0 : State} {a1 : BitVec 48} (g0 : Keep q a0) : Keep q (@State.releaseOwnership a0 a1) := by
  unfold State.releaseOwnership
  refine keep_runCmd ?_ ?_
  · assumption
  · intro _
    extract_lets +onlyGivenNames -merge -useContext -underBinder x0
    try clear_value x0
    split
    · extract_lets +onlyGivenNames -merge -useContext -underBinder x1
      try clear_value x1
      extract_lets +onlyGivenNames -merge -useContext -underBinder x2
      have h2 : Keep q x2 := by
        unfold x2
        refine Keep.upd ?_
        assumption
      try clear_value x2
      refine keep1_ite (fun _ => ?_) (fun _ => ?_)
      · show Keep q _
        refine keep_finish ?_
        refine keep_passOwner ?_
        assumption
      · show Keep q _
        refine keep_finish ?_
        assumption
    · refine keep1_ite (fun _ => ?_) (fun _ => ?_)
      · show Keep q _
        assumption
      · refine keep1_ite (fun _ => ?_) (fun _ => ?_)
        · show Keep q _
          refine keep_passOwner ?_
          assumption
        · show Keep q _
          assumption

theorem keep_execReleaseOwnership {a0 : BitVec 48} {a1 : State} (g1 : Keep q a1) : KeepX q (@execReleaseOwnership a0 a1) := by
  unfold execReleaseOwnership
  refine keepX_next ?_
  refine keep_releaseOwnership ?_
  assumption

theorem keep_execOwnershipAnswerTimeout {a0 : State} (g0 : Keep q a0) : KeepX q (@execOwnershipAnswerTimeout a0) := by
  unfold execOwnershipAnswerTimeout
  refine keepX_next ?_
  split
  · refine keep_finish ?_
    refine Keep.upd ?_
    assumption
  · assumption

theorem keep_portReset {a0 : State} {a1 : Port} {a2 : Bool} (g0 : Keep q a0) : Keep q (@State.portReset a0 a1 a2) := by
  unfold State.portReset
  extract_lets +onlyGivenNames -merge -useContext -underBinder x0
  try clear_value x0
  extract_lets +onlyGivenNames -merge -useContext -underBinder x1
  have h1 : Keep q x1 := by
    unfold x1
    refine Keep.upd ?_
    assumption
  try clear_value x1
  refine keep_onDp ?_ ?_
  · refine keep_updPort ?_
    assumption
  · intro _ _
    refine keep_Dp_setMsix ?_
    assumption

theorem keep_execPortReset {a0 : Port} {a1 : Bool} {a2 : State} (g2 : Keep q a2) : KeepX q (@execPortReset a0 a1 a2) := by
  unfold execPortReset
  refine keepX_next ?_
  refine keep_portReset ?_
  assumption

theorem keep_execPcieLinkUp {a0 : Port} {a1 : State} (g1 : Keep q a1) : KeepX q (@execPcieLinkUp a0 a1) := by
  unfold execPcieLinkUp
  refine keepX_next ?_
  extract_lets +onlyGivenNames -merge -useContext -underBinder x0
  have h0 : Keep q x0 := by
    unfold x0
    refine keep_updPort ?_
    assumption
  try clear_value x0
  refine keep_ite (fun _ => ?_) (fun _ => ?_)
  · refine Keep.upd ?_
    assumption
  · assumption

theorem keep_execMsixUnmask {a0 : Port} {a1 : Fin 64} {a2 : State} (g2 : Keep q a2) : KeepX q (@execMsixUnmask a0 a1 a2) := by
  unfold execMsixUnmask
  refine keepX_next ?_
  refine keep_onDp ?_ ?_
  · assumption
  · intro _ _
    extract_lets +onlyGivenNames -merge -useContext -underBinder x0
    try clear_value x0
    extract_lets +onlyGivenNames -merge -useContext -underBinder x1
    have h1 : KeepD x1 := by
      unfold x1
      refine keep_Dp_setMsix ?_
      assumption
    try clear_value x1
    refine keepD_ite (fun _ => ?_) (fun _ => ?_)
    · refine keep_Dp_send ?_
      assumption
    · assumption

theorem keep_bar2Ur {a0 : State} {a1 : Port} (g0 : Keep q a0) : Keep q (@State.bar2Ur a0 a1) := by
  unfold State.bar2Ur
  refine keep_updPort ?_
  assumption

theorem keep_bar2Read {a0 : State} {a1 : Port} {a2 : Nat} {a3 : BitVec 32} {a4 : Nat} {a5 : Env} (g0 : Keep q a0) : Keep q (@State.bar2Read a0 a1 a2 a3 a4 a5) := by
  unfold State.bar2Read
  extract_lets +onlyGivenNames -merge -useContext -underBinder x0
  try clear_value x0
  extract_lets +onlyGivenNames -merge -useContext -underBinder x1
  try clear_value x1
  refine keep_ite (fun _ => ?_) (fun _ => ?_)
  · refine keep_send ?_
    refine keep_bar2Ur ?_
    assumption
  · extract_lets +onlyGivenNames -merge -useContext -underBinder x2
    have h2 : Keep q x2.1 := by
      unfold x2
      refine keep_runOp ?_ ?_
      · assumption
      · exact keep_readAt
    try clear_value x2
    split
    · refine keep_send ?_
      refine keep_countPort ?_
      assumption
    · refine keep_send ?_
      refine keep_bar2Ur ?_
      assumption

theorem keep_execBar2Read {a0 : Port} {a1 : Fin 16} {a2 : BitVec 32} {a3 : BitVec 13} {a4 : Env} {a5 : State} (g5 : Keep q a5) : KeepX q (@execBar2Read a0 a1 a2 a3 a4 a5) := by
  unfold execBar2Read
  refine keepX_next ?_
  refine keep_bar2Read ?_
  assumption

theorem keep_bar2Write {a0 : State} {a1 : Port} {a2 : Nat} {a3 : BitVec 32} {a4 : List Byte} {a5 : Env} (g0 : Keep q a0) : Keep q (@State.bar2Write a0 a1 a2 a3 a4 a5) := by
  unfold State.bar2Write
  extract_lets +onlyGivenNames -merge -useContext -underBinder x0
  try clear_value x0
  extract_lets +onlyGivenNames -merge -useContext -underBinder x1
  try clear_value x1
  refine keep_ite (fun _ => ?_) (fun _ => ?_)
  · refine keep_send ?_
    refine keep_bar2Ur ?_
    assumption
  · extract_lets +onlyGivenNames -merge -useContext -underBinder x2
    have h2 : Keep q x2.1 := by
      unfold x2
      refine keep_runOp ?_ ?_
      · assumption
      · exact keep_writeAt
    try clear_value x2
    split
    · refine keep_send ?_
      refine keep_countPort ?_
      assumption
    · refine keep_send ?_
      refine keep_bar2Ur ?_
      assumption

theorem keep_execBar2Write {a0 : Port} {a1 : Fin 16} {a2 : BitVec 32} {a3 : List Byte} {a4 : Env} {a5 : State} (g5 : Keep q a5) : KeepX q (@execBar2Write a0 a1 a2 a3 a4 a5) := by
  unfold execBar2Write
  refine keepX_next ?_
  refine keep_bar2Write ?_
  assumption

end Sys2Proof.Laws
end

