-- ==== Sys2Proof/Laws/KeepTiles.lean ====
section
/-! SUPPORT. What each operation of Machine/Tiles.lean keeps: the queue and the invariant of Safety.lean, or the canonical form of memory. -/
namespace Sys2Proof.Laws
open Sys2Proof Sys2Proof.Machine
variable {q : List Instr}

theorem keep_fetchTD {a0 : Ctx} {a1 : Addr} : KeepO (@fetchTD a0 a1) := by
  unfold fetchTD
  refine keepO_get ?_
  intro _ _
  refine keepO_ite (fun _ => ?_) (fun _ => ?_)
  · exact keep_failOp
  · refine keepO_ite (fun _ => ?_) (fun _ => ?_)
    · exact keep_failOp
    · refine keepO_bind ?_ ?_
      · exact keep_needOk
      · intro _
        refine keepO_bind ?_ ?_
        · exact keep_readAt
        · intro _
          exact keepO_pure

theorem keep_takeTD {a0 : Ctx} {a1 : Bool} {a2 : Addr} : KeepO (@takeTD a0 a1 a2) := by
  unfold takeTD
  refine keepO_bind ?_ ?_
  · exact keep_fetchTD
  · intro _
    refine keepO_get ?_
    intro _ _
    split
    · exact keepO_pure
    · exact keep_failOp

theorem keep_noteTag {a0 : Dp} {a1 : Nat} {a2 : Tag} {a3 : Tag} {a4 : BitVec 8} (g0 : KeepD a0) : KeepD (@noteTag a0 a1 a2 a3 a4).1 := by
  unfold noteTag
  split
  · show KeepD _
    assumption
  · show KeepD _
    refine keep_Dp_updWet ?_
    assumption
  · show KeepD _
    refine keep_Dp_updWet ?_
    assumption

theorem keep_readSpans {a0 : Ctx} {a1 : TD} {a2 : List (Nat × Nat)} : KeepO (@readSpans a0 a1 a2) := by
  induction a2 generalizing a0 a1 with
  | nil =>
    rw [readSpans]
    exact keepO_pure
  | cons u1 u2 ih =>
    rw [readSpans]
    refine keepO_bind ?_ ?_
    · exact keep_readAt
    · intro _
      refine keepO_bind ?_ ?_
      · apply ih
      · intro _
        exact keepO_pure

theorem keep_readElems {a0 : Ctx} {a1 : TD} {a2 : Nat} {a3 : Nat} : KeepO (@readElems a0 a1 a2 a3) := by
  unfold readElems
  exact keep_readSpans

theorem keep_writeSpans {a0 : Ctx} {a1 : TD} {a2 : List (Nat × Nat)} {a3 : List Byte} : KeepO (@writeSpans a0 a1 a2 a3) := by
  induction a2 generalizing a0 a1 a3 with
  | nil =>
    rw [writeSpans]
    exact keepO_pure
  | cons u1 u2 ih =>
    rw [writeSpans]
    refine keepO_bind ?_ ?_
    · exact keep_writeAt
    · intro _
      refine keep_afterWrite ?_
      apply ih

theorem keep_writeElems {a0 : Ctx} {a1 : TD} {a2 : Nat} {a3 : Nat} {a4 : List Byte} : KeepO (@writeElems a0 a1 a2 a3 a4) := by
  unfold writeElems
  exact keep_writeSpans

theorem keep_noteSide {a0 : Ctx} {a1 : Sidecar} : KeepO (@noteSide a0 a1) := by
  unfold noteSide
  split
  · refine keepO_get ?_
    intro _ _
    split
    · rename_i he0
      have hs0 := keepD_fstOf he0 (by
          refine keep_noteTag ?_
          assumption
        )
      split
      · rename_i he1
        have hs1 := keepD_fstOf he1 (by
            refine keepD1_ite (fun _ => ?_) (fun _ => ?_)
            · show KeepD _
              assumption
            · refine keep_noteTag ?_
              assumption
          )
        refine keepO_bind ?_ ?_
        · refine keepO_set ?_
          assumption
        · intro _
          exact keepO_pure
  · exact keepO_pure

theorem keep_checkTile {a0 : Ctx} {a1 : TD} {a2 : Nat} : KeepO (@checkTile a0 a1 a2) := by
  unfold checkTile
  refine keepO_bind ?_ ?_
  · exact keep_readElems
  · intro _
    refine keepO_bind ?_ ?_
    · exact keep_readAt
    · intro _
      extract_lets +onlyGivenNames -merge -useContext -underBinder x0
      try clear_value x0
      refine keepO_bind ?_ ?_
      · exact keep_noteSide
      · intro _
        refine keepO_ite (fun _ => ?_) (fun _ => ?_)
        · exact keep_failOp
        · refine keepO_ite (fun _ => ?_) (fun _ => ?_)
          · exact keep_failOp
          · exact keepO_pure

theorem keep_writeWhole {a0 : Ctx} {a1 : TD} {a2 : Nat} {a3 : TileOut} : KeepO (@writeWhole a0 a1 a2 a3) := by
  unfold writeWhole
  refine keepO_bind ?_ ?_
  · exact keep_writeElems
  · intro _
    refine keep_afterWrite ?_
    exact keep_writeAt

theorem keep_partSidecar {a0 : Ctx} {a1 : TD} {a2 : Nat} {a3 : PartOut} : KeepO (@partSidecar a0 a1 a2 a3) := by
  unfold partSidecar
  extract_lets +onlyGivenNames -merge -useContext -underBinder x0
  try clear_value x0
  refine keepO_bind ?_ ?_
  · exact keep_readAt
  · intro _
    extract_lets +onlyGivenNames -merge -useContext -underBinder x1
    try clear_value x1
    split
    · refine keepO_bind ?_ ?_
      · exact keep_writeAt
      · intro _
        refine keepO_ite (fun _ => ?_) (fun _ => ?_)
        · exact keep_failOp
        · refine keepO_ite (fun _ => ?_) (fun _ => ?_)
          · refine keepO_bind ?_ ?_
            · exact keep_readElems
            · intro _
              split
              · refine keepO_bind ?_ ?_
                · exact keep_writeAt
                · intro _
                  refine keepO_ite (fun _ => ?_) (fun _ => ?_)
                  · exact keep_failOp
                  · exact keepO_pure
          · exact keepO_pure

theorem keep_writeTilePart {a0 : Ctx} {a1 : TD} {a2 : Nat} {a3 : Nat} {a4 : List BlockOut} : KeepO (@writeTilePart a0 a1 a2 a3 a4) := by
  unfold writeTilePart
  extract_lets +onlyGivenNames -merge -useContext -underBinder x0
  try clear_value x0
  extract_lets +onlyGivenNames -merge -useContext -underBinder x1
  try clear_value x1
  refine keepO_ite (fun _ => ?_) (fun _ => ?_)
  · exact keep_writeWhole
  · refine keepO_bind ?_ ?_
    · exact keep_writeElems
    · intro _
      extract_lets +onlyGivenNames -merge -useContext -underBinder x2
      try clear_value x2
      extract_lets +onlyGivenNames -merge -useContext -underBinder x3
      try clear_value x3
      refine keep_afterWrite ?_
      exact keep_partSidecar

theorem keep_writeUpdate {a0 : Ctx} {a1 : TD} {a2 : Nat} {a3 : Sidecar} {a4 : TileOut} : KeepO (@writeUpdate a0 a1 a2 a3 a4) := by
  unfold writeUpdate
  extract_lets +onlyGivenNames -merge -useContext -underBinder x0
  try clear_value x0
  refine keepO_bind ?_ ?_
  · exact keep_writeElems
  · intro _
    refine keep_afterWrite ?_
    exact keep_writeAt

theorem keep_takeCensus {a0 : Ctx} {a1 : Addr} : KeepO (@takeCensus a0 a1) := by
  unfold takeCensus
  refine keepO_bind ?_ ?_
  · refine keepO_tryCatch ?_ ?_
    · exact keep_readAt
    · intro _
      exact keep_failOp
  · intro _
    extract_lets +onlyGivenNames -merge -useContext -underBinder x0
    try clear_value x0
    refine keepO_ite (fun _ => ?_) (fun _ => ?_)
    · exact keep_failOp
    · exact keepO_pure

theorem keep_censusUpdate {a0 : Ctx} {a1 : Addr} {a2 : Census} : KeepO (@censusUpdate a0 a1 a2) := by
  unfold censusUpdate
  refine keepO_ite (fun _ => ?_) (fun _ => ?_)
  · exact keepO_pure
  · refine keepO_bind ?_ ?_
    · exact keep_takeCensus
    · intro _
      exact keep_writeAt

theorem keep_takeTable {a0 : Ctx} {a1 : Addr} {a2 : TableUse} : KeepO (@takeTable a0 a1 a2) := by
  unfold takeTable
  refine keepO_get ?_
  intro _ _
  extract_lets +onlyGivenNames -merge -useContext -underBinder x0
  have h0 : ∀ y0 y1, KeepO (@x0 y0 y1) := by
    intro _ _
    unfold x0
    try dsimp -zeta only
    exact keep_failOp
  try clear_value x0
  refine keepO_ite (fun _ => ?_) (fun _ => ?_)
  · exact h0 _ _
  · refine keepO_ite (fun _ => ?_) (fun _ => ?_)
    · exact h0 _ _
    · refine keepO_bind ?_ ?_
      · refine keepO_tryCatch ?_ ?_
        · exact keep_readAt
        · intro _
          exact keep_failOp
      · intro _
        extract_lets +onlyGivenNames -merge -useContext -underBinder x1
        try clear_value x1
        refine keepO_ite (fun _ => ?_) (fun _ => ?_)
        · exact h0 _ _
        · refine keepO_bind ?_ ?_
          · refine keepO_tryCatch ?_ ?_
            · exact keep_readAt
            · intro _
              exact keep_failOp
          · intro _
            extract_lets +onlyGivenNames -merge -useContext -underBinder x2
            try clear_value x2
            refine keepO_ite (fun _ => ?_) (fun _ => ?_)
            · exact h0 _ _
            · refine keepO_ite (fun _ => ?_) (fun _ => ?_)
              · exact h0 _ _
              · refine keepO_ite (fun _ => ?_) (fun _ => ?_)
                · exact h0 _ _
                · refine keepO_ite (fun _ => ?_) (fun _ => ?_)
                  · exact h0 _ _
                  · refine keepO_ite (fun _ => ?_) (fun _ => ?_)
                    · exact h0 _ _
                    · refine keepO_ite (fun _ => ?_) (fun _ => ?_)
                      · exact h0 _ _
                      · refine keepO_ite (fun _ => ?_) (fun _ => ?_)
                        · exact h0 _ _
                        · refine keepO_ite (fun _ => ?_) (fun _ => ?_)
                          · exact h0 _ _
                          · refine keepO_ite (fun _ => ?_) (fun _ => ?_)
                            · exact h0 _ _
                            · refine keepO_ite (fun _ => ?_) (fun _ => ?_)
                              · exact h0 _ _
                              · refine keepO_ite (fun _ => ?_) (fun _ => ?_)
                                · exact h0 _ _
                                · refine keepO_ite (fun _ => ?_) (fun _ => ?_)
                                  · exact h0 _ _
                                  · refine keepO_ite (fun _ => ?_) (fun _ => ?_)
                                    · exact h0 _ _
                                    · refine keepO_ite (fun _ => ?_) (fun _ => ?_)
                                      · exact h0 _ _
                                      · exact keepO_pure

theorem keep_takeSr {a0 : Ctx} {a1 : TD} {a2 : Addr} : KeepO (@takeSr a0 a1 a2) := by
  unfold takeSr
  refine keepO_ite (fun _ => ?_) (fun _ => ?_)
  · exact keepO_pure
  · refine keepO_get ?_
    intro _ _
    refine keepO_ite (fun _ => ?_) (fun _ => ?_)
    · exact keep_failOp
    · refine keepO_bind ?_ ?_
      · refine keepO_tryCatch ?_ ?_
        · exact keep_readAt
        · intro _
          exact keep_failOp
      · intro _
        refine keepO_ite (fun _ => ?_) (fun _ => ?_)
        · exact keep_failOp
        · split
          · exact keepO_pure
          · exact keep_failOp

end Sys2Proof.Laws
end

