-- ==== Sys2Proof/Laws/KeepQueues.lean ====
section
/-! SUPPORT. What each operation of Machine/Queues.lean keeps: the queue and the invariant of Safety.lean, or the canonical form of memory. -/
namespace Sys2Proof.Laws
open Sys2Proof Sys2Proof.Machine
variable {q : List Instr}

theorem keep_readRing {a0 : State} {a1 : Nat} {a2 : Nat} {a3 : Env} (g0 : Keep q a0) : Keep q (@State.readRing a0 a1 a2 a3).1 := by
  unfold State.readRing
  refine keep_runOp ?_ ?_
  · assumption
  · exact keep_readKey

theorem keep_writeRing {a0 : State} {a1 : Nat} {a2 : Nat} {a3 : List Byte} (g0 : Keep q a0) : Keep q (@State.writeRing a0 a1 a2 a3) := by
  unfold State.writeRing
  refine keep_runOp ?_ ?_
  · assumption
  · exact keep_writeKey

theorem keep_writeRingAt {a0 : State} {a1 : Nat} {a2 : Nat} {a3 : Nat} {a4 : List Byte} (g0 : Keep q a0) : Keep q (@State.writeRingAt a0 a1 a2 a3 a4) := by
  unfold State.writeRingAt
  refine keep_runOp ?_ ?_
  · assumption
  · exact keep_writeKey

theorem keep_eqEnable {a0 : State} {a1 : Nat} {a2 : Bool} (g0 : Keep q a0) : Keep q (@State.eqEnable a0 a1 a2) := by
  unfold State.eqEnable
  extract_lets +onlyGivenNames -merge -useContext -underBinder x0
  have h0 : Keep q x0 := by
    unfold x0
    refine keep_updEq ?_
    assumption
  try clear_value x0
  extract_lets +onlyGivenNames -merge -useContext -underBinder x1
  have h1 : Keep q x1 := by
    unfold x1
    refine keep_ite (fun _ => ?_) (fun _ => ?_)
    · refine Keep.upd ?_
      assumption
    · assumption
  try clear_value x1
  refine keep_ite (fun _ => ?_) (fun _ => ?_)
  · refine keep_updEq ?_
    assumption
  · refine keep_ite (fun _ => ?_) (fun _ => ?_)
    · refine keep_updEq ?_
      assumption
    · assumption

theorem keep_execEqEnable {a0 : QueueId} {a1 : Bool} {a2 : State} (g2 : Keep q a2) : KeepX q (@execEqEnable a0 a1 a2) := by
  unfold execEqEnable
  refine keepX_next ?_
  refine keep_eqEnable ?_
  assumption

theorem keep_updGuard {a0 : State} {a1 : Nat} {a2 : BitVec 32} {a3 : BitVec 32} {a4 : Guard → Guard} (g0 : Keep q a0) : Keep q (@State.updGuard a0 a1 a2 a3 a4) := by
  unfold State.updGuard
  refine keep_updJob ?_
  assumption

theorem keep_noteRange {a0 : State} {a1 : Nat} {a2 : Tag} {a3 : Addr} (g0 : Keep q a0) : Keep q (@State.noteRange a0 a1 a2 a3) := by
  unfold State.noteRange
  split
  · refine keep_updGuard ?_
    assumption
  · assumption

theorem keep_noteEpoch {a0 : State} {a1 : Option (Nat × Nat)} {a2 : QEntry} {a3 : Status} (g0 : Keep q a0) : Keep q (@State.noteEpoch a0 a1 a2 a3) := by
  unfold State.noteEpoch
  split
  · assumption
  · refine keep_onDp ?_ ?_
    · refine keep_ite (fun _ => ?_) (fun _ => ?_)
      · refine keep_noteRange ?_
        assumption
      · assumption
    · intro _ _
      refine keep_Dp_updWet ?_
      assumption

theorem keep_noteEnd {a0 : State} {a1 : Nat} {a2 : QEntry} {a3 : Status} (g0 : Keep q a0) : Keep q (@State.noteEnd a0 a1 a2 a3) := by
  unfold State.noteEnd
  extract_lets +onlyGivenNames -merge -useContext -underBinder x0
  have h0 : Keep q x0 := by
    unfold x0
    refine keep_ite (fun _ => ?_) (fun _ => ?_)
    · refine keep_updJob ?_
      assumption
    · assumption
  try clear_value x0
  refine keep_noteEpoch ?_
  assumption

theorem keep_sampleUnit {a0 : State} {a1 : Nat} {a2 : Active} {a3 : BitVec 32} {a4 : Nat} (g0 : Keep q a0) : Keep q (@State.sampleUnit a0 a1 a2 a3 a4) := by
  unfold State.sampleUnit
  split
  · assumption
  · extract_lets +onlyGivenNames -merge -useContext -underBinder x0
    try clear_value x0
    refine keep_ite (fun _ => ?_) (fun _ => ?_)
    · refine keep_onDp ?_ ?_
      · refine Keep.upd ?_
        assumption
      · intro _ _
        refine keep_Dp_updWet ?_
        assumption
    · assumption

theorem keep_eqFault {a0 : State} {a1 : Nat} {a2 : Status} (g0 : Keep q a0) : Keep q (@State.eqFault a0 a1 a2) := by
  unfold State.eqFault
  refine keep_updEq ?_
  assumption

theorem keep_nextHead {a0 : State} {a1 : Nat} (g0 : Keep q a0) : Keep q (@State.nextHead a0 a1) := by
  unfold State.nextHead
  refine keep_updEq ?_
  assumption

theorem keep_endUnrecorded {a0 : State} {a1 : Nat} {a2 : Status} (g0 : Keep q a0) : Keep q (@State.endUnrecorded a0 a1 a2) := by
  unfold State.endUnrecorded
  extract_lets +onlyGivenNames -merge -useContext -underBinder x0
  try clear_value x0
  refine keep_nextHead ?_
  refine keep_writeRingAt ?_
  refine keep_eqFault ?_
  assumption

theorem keep_changeRegion {a0 : State} {a1 : Nat} {a2 : BitVec 8} (g0 : Keep q a0) : Keep q (@State.changeRegion a0 a1 a2) := by
  unfold State.changeRegion
  refine keep_ite (fun _ => ?_) (fun _ => ?_)
  · refine keep_onDp ?_ ?_
    · assumption
    · intro _ _
      refine keepD_mk ?_
      extract_lets +onlyGivenNames -merge -useContext -underBinder x0
      have h0 : Mem.Wf x0 := by
        unfold x0
        show KeepD _
        assumption
      try clear_value x0
      refine memWf_mk ?_ ?_ ?_ ?_ ?_ ?_
      · refine Mem.Wf.bytes ?_
        assumption
      · refine Mem.Wf.errs ?_
        assumption
      · refine Mem.Wf.unread ?_
        assumption
      · refine Mem.Wf.region ?_
        assumption
      · refine Mem.Wf.zeroed ?_
        assumption
      · refine Mem.Wf.jobs ?_
        assumption
  · refine keep_onDp ?_ ?_
    · assumption
    · intro _ _
      refine keepD_mk ?_
      extract_lets +onlyGivenNames -merge -useContext -underBinder x1
      have h1 : Mem.Wf x1 := by
        unfold x1
        show KeepD _
        assumption
      try clear_value x1
      refine memWf_mk ?_ ?_ ?_ ?_ ?_ ?_
      · refine Mem.Wf.bytes ?_
        assumption
      · refine Mem.Wf.errs ?_
        assumption
      · refine Mem.Wf.unread ?_
        assumption
      · refine Sparse.wf_set ?_
        refine Mem.Wf.region ?_
        show KeepD _
        assumption
      · refine Mem.Wf.zeroed ?_
        assumption
      · refine Mem.Wf.jobs ?_
        assumption

theorem keep_settleRegions {a0 : State} (g0 : Keep q a0) : Keep q (@State.settleRegions a0) := by
  unfold State.settleRegions
  refine keep_foldl ?_ ?_
  · assumption
  · intro _ _ r0
    refine keep_changeRegion ?_
    assumption

theorem keep_afterBusy {a0 : State} {a1 : Nat} (g0 : Keep q a0) : Keep q (@State.afterBusy a0 a1) := by
  unfold State.afterBusy
  refine keep_ite (fun _ => ?_) (fun _ => ?_)
  · extract_lets +onlyGivenNames -merge -useContext -underBinder x0
    try clear_value x0
    refine keep_ite (fun _ => ?_) (fun _ => ?_)
    · refine keep_evalDomain ?_
      assumption
    · assumption
  · assumption

theorem keep_complete {a0 : State} {a1 : Nat} {a2 : Comp} {a3 : Env} (g0 : Keep q a0) : Keep q (@State.complete a0 a1 a2 a3) := by
  unfold State.complete
  split
  · assumption
  · extract_lets +onlyGivenNames -merge -useContext -underBinder x0
    try clear_value x0
    extract_lets +onlyGivenNames -merge -useContext -underBinder x1
    try clear_value x1
    extract_lets +onlyGivenNames -merge -useContext -underBinder x2
    try clear_value x2
    extract_lets +onlyGivenNames -merge -useContext -underBinder x3
    have h3 : Keep q x3.1 := by
      unfold x3
      refine keep_runOp ?_ ?_
      · assumption
      · refine keepO_bind ?_ ?_
        · exact keep_writeAt
        · intro _
          exact keep_writeAt
    try clear_value x3
    extract_lets +onlyGivenNames -merge -useContext -underBinder x4
    have h4 : Keep q x4 := by
      unfold x4
      assumption
    try clear_value x4
    extract_lets +onlyGivenNames -merge -useContext -underBinder x5
    try clear_value x5
    extract_lets +onlyGivenNames -merge -useContext -underBinder x6
    have h6 : Keep q x6 := by
      unfold x6
      split
      · refine keep_nextHead ?_
        refine keep_writeRingAt ?_
        assumption
      · refine keep_endUnrecorded ?_
        assumption
    try clear_value x6
    extract_lets +onlyGivenNames -merge -useContext -underBinder x7
    have h7 : Keep q x7 := by
      unfold x7
      refine keep_noteEnd ?_
      assumption
    try clear_value x7
    extract_lets +onlyGivenNames -merge -useContext -underBinder x8
    have h8 : Keep q x8 := by
      unfold x8
      refine keep_updEq ?_
      assumption
    try clear_value x8
    extract_lets +onlyGivenNames -merge -useContext -underBinder x9
    try clear_value x9
    extract_lets +onlyGivenNames -merge -useContext -underBinder x10
    have h10 : Keep q x10 := by
      unfold x10
      refine Keep.upd ?_
      assumption
    try clear_value x10
    refine keep_afterBusy ?_
    refine keep_settleRegions ?_
    assumption

theorem keep_progress {a0 : State} {a1 : Nat} (g0 : Keep q a0) : Keep q (@State.progress a0 a1) := by
  unfold State.progress
  refine Keep.upd ?_
  assumption

theorem keep_updCur {a0 : State} {a1 : Nat} {a2 : Active → Active} (g0 : Keep q a0) : Keep q (@State.updCur a0 a1 a2) := by
  unfold State.updCur
  refine keep_updEq ?_
  assumption

theorem keep_headUe {a0 : State} {a1 : Nat} (g0 : Keep q a0) : Keep q (@State.headUe a0 a1) := by
  unfold State.headUe
  extract_lets +onlyGivenNames -merge -useContext -underBinder x0
  try clear_value x0
  extract_lets +onlyGivenNames -merge -useContext -underBinder x1
  have h1 : Keep q x1 := by
    unfold x1
    refine keep_eqFault ?_
    assumption
  try clear_value x1
  split
  · extract_lets +onlyGivenNames -merge -useContext -underBinder x2
    have h2 : Keep q x2 := by
      unfold x2
      refine keep_writeRing ?_
      assumption
    try clear_value x2
    split
    · refine keep_report ?_
      assumption
    · assumption
  · refine keep_writeRing ?_
    assumption

theorem keep_accept {a0 : State} {a1 : Nat} {a2 : Env} (g0 : Keep q a0) : Keep q (@State.accept a0 a1 a2) := by
  unfold State.accept
  extract_lets +onlyGivenNames -merge -useContext -underBinder x0
  try clear_value x0
  refine keep_ite (fun _ => ?_) (fun _ => ?_)
  · assumption
  · extract_lets +onlyGivenNames -merge -useContext -underBinder x1
    try clear_value x1
    extract_lets +onlyGivenNames -merge -useContext -underBinder x2
    have h2 : Keep q x2.1 := by
      unfold x2
      refine keep_readRing ?_
      assumption
    try clear_value x2
    split
    · refine keep_headUe ?_
      assumption
    · extract_lets +onlyGivenNames -merge -useContext -underBinder x3
      have h3 : Keep q x3 := by
        unfold x3
        assumption
      try clear_value x3
      extract_lets +onlyGivenNames -merge -useContext -underBinder x4
      try clear_value x4
      extract_lets +onlyGivenNames -merge -useContext -underBinder x5
      try clear_value x5
      extract_lets +onlyGivenNames -merge -useContext -underBinder x6
      try clear_value x6
      extract_lets +onlyGivenNames -merge -useContext -underBinder x7
      have h7 : ∀ y0 y1, Keep q y0 → Keep q (@x7 y0 y1) := by
        intro _ _ _
        unfold x7
        try dsimp -zeta only
        refine keep_noteEnd ?_
        refine keep_endUnrecorded ?_
        assumption
      try clear_value x7
      refine keep_ite (fun _ => ?_) (fun _ => ?_)
      · assumption
      · refine keep_ite (fun _ => ?_) (fun _ => ?_)
        · refine h7 _ _ ?_
          assumption
        · refine keep_ite (fun _ => ?_) (fun _ => ?_)
          · refine h7 _ _ ?_
            assumption
          · extract_lets +onlyGivenNames -merge -useContext -underBinder x8
            try clear_value x8
            extract_lets +onlyGivenNames -merge -useContext -underBinder x9
            have h9 : Keep q x9.1 := by
              unfold x9
              refine keep_runOp ?_ ?_
              · assumption
              · exact keep_readAt
            try clear_value x9
            split
            · refine h7 _ _ ?_
              assumption
            · extract_lets +onlyGivenNames -merge -useContext -underBinder x10
              have h10 : Keep q x10 := by
                unfold x10
                assumption
              try clear_value x10
              extract_lets +onlyGivenNames -merge -useContext -underBinder x11
              try clear_value x11
              extract_lets +onlyGivenNames -merge -useContext -underBinder x12
              try clear_value x12
              refine keep_ite (fun _ => ?_) (fun _ => ?_)
              · refine h7 _ _ ?_
                assumption
              · refine keep_ite (fun _ => ?_) (fun _ => ?_)
                · refine h7 _ _ ?_
                  assumption
                · extract_lets +onlyGivenNames -merge -useContext -underBinder x13
                  try clear_value x13
                  extract_lets +onlyGivenNames -merge -useContext -underBinder x14
                  have h14 : Keep q x14 := by
                    unfold x14
                    refine keep_writeRingAt ?_
                    refine keep_writeRingAt ?_
                    assumption
                  try clear_value x14
                  extract_lets +onlyGivenNames -merge -useContext -underBinder x15
                  have h15 : Keep q x15 := by
                    unfold x15
                    refine keep_updEq ?_
                    assumption
                  try clear_value x15
                  extract_lets +onlyGivenNames -merge -useContext -underBinder x16
                  have h16 : Keep q x16.1 := by
                    unfold x16
                    refine keep_runOp ?_ ?_
                    · assumption
                    · exact keep_writeAt
                  try clear_value x16
                  split
                  · extract_lets +onlyGivenNames -merge -useContext -underBinder x17
                    have h17 : Keep q x17 := by
                      unfold x17
                      refine keep_noteEnd ?_
                      refine keep_endUnrecorded ?_
                      assumption
                    try clear_value x17
                    refine keep_updEq ?_
                    assumption
                  · refine keep_ite (fun _ => ?_) (fun _ => ?_)
                    · refine keep_complete ?_
                      assumption
                    · refine keep_ite (fun _ => ?_) (fun _ => ?_)
                      · assumption
                      · refine keep_complete ?_
                        assumption

theorem keep_execEngineEntryAccept {a0 : QueueId} {a1 : Env} {a2 : State} (g2 : Keep q a2) : KeepX q (@execEngineEntryAccept a0 a1 a2) := by
  unfold execEngineEntryAccept
  refine keepX_next ?_
  refine keep_accept ?_
  assumption

end Sys2Proof.Laws
end

