-- ==== Sys2Proof/Laws/KeepEngines.lean ====
section
/-! SUPPORT. What each operation of Machine/Engines.lean keeps: the queue and the invariant of Safety.lean, or the canonical form of memory. -/
namespace Sys2Proof.Laws
open Sys2Proof Sys2Proof.Machine
variable {q : List Instr}

theorem keep_setArray {a0 : State} {a1 : Nat} {a2 : Option ArrayRun} (g0 : Keep q a0) : Keep q (@State.setArray a0 a1 a2) := by
  unfold State.setArray
  refine Keep.upd ?_
  assumption

theorem keep_endArray {a0 : State} {a1 : Nat} {a2 : Fail} {a3 : Env} (g0 : Keep q a0) : Keep q (@State.endArray a0 a1 a2 a3) := by
  unfold State.endArray
  split
  · refine keep_setArray ?_
    assumption
  · extract_lets +onlyGivenNames -merge -useContext -underBinder x0
    try clear_value x0
    refine keep_complete ?_
    refine keep_setArray ?_
    assumption

theorem keep_updTrellis {a0 : State} {a1 : Nat} {a2 : Trellis → Trellis} (g0 : Keep q a0) : Keep q (@State.updTrellis a0 a1 a2) := by
  unfold State.updTrellis
  refine Keep.upd ?_
  assumption

theorem keep_endTrellis {a0 : State} {a1 : Nat} {a2 : Fail} {a3 : Env} (g0 : Keep q a0) : Keep q (@State.endTrellis a0 a1 a2 a3) := by
  unfold State.endTrellis
  extract_lets +onlyGivenNames -merge -useContext -underBinder x0
  try clear_value x0
  split
  · refine keep_updTrellis ?_
    assumption
  · extract_lets +onlyGivenNames -merge -useContext -underBinder x1
    try clear_value x1
    refine keep_complete ?_
    refine keep_updTrellis ?_
    assumption

theorem keep_updCq {a0 : State} {a1 : Nat} {a2 : Cq → Cq} (g0 : Keep q a0) : Keep q (@State.updCq a0 a1 a2) := by
  unfold State.updCq
  refine Keep.upd ?_
  assumption

theorem keep_updColl {a0 : State} {a1 : Nat} {a2 : Coll → Coll} (g0 : Keep q a0) : Keep q (@State.updColl a0 a1 a2) := by
  unfold State.updColl
  refine keep_updCq ?_
  assumption

theorem keep_writeCqAt {a0 : State} {a1 : Nat} {a2 : Nat} {a3 : Nat} {a4 : List Byte} (g0 : Keep q a0) : Keep q (@State.writeCqAt a0 a1 a2 a3 a4) := by
  unfold State.writeCqAt
  refine keep_runOp ?_ ?_
  · assumption
  · exact keep_writeKey

theorem keep_cqDone {a0 : State} {a1 : Nat} {a2 : Coll} {a3 : Status} (g0 : Keep q a0) : Keep q (@State.cqDone a0 a1 a2 a3) := by
  unfold State.cqDone
  extract_lets +onlyGivenNames -merge -useContext -underBinder x0
  try clear_value x0
  extract_lets +onlyGivenNames -merge -useContext -underBinder x1
  try clear_value x1
  extract_lets +onlyGivenNames -merge -useContext -underBinder x2
  have h2 : Keep q x2 := by
    unfold x2
    refine keep_updCq ?_
    assumption
  try clear_value x2
  extract_lets +onlyGivenNames -merge -useContext -underBinder x3
  try clear_value x3
  extract_lets +onlyGivenNames -merge -useContext -underBinder x4
  have h4 : Keep q x4 := by
    unfold x4
    split
    · refine keep_ite (fun _ => ?_) (fun _ => ?_)
      · refine keep_onDp ?_ ?_
        · assumption
        · intro _ _
          refine keep_Dp_updWet ?_
          assumption
      · assumption
    · assumption
  try clear_value x4
  refine keep_settleRegions ?_
  refine keep_noteEpoch ?_
  assumption

theorem keep_cqComplete {a0 : State} {a1 : Nat} {a2 : Fail} {a3 : Env} (g0 : Keep q a0) : Keep q (@State.cqComplete a0 a1 a2 a3) := by
  unfold State.cqComplete
  split
  · assumption
  · extract_lets +onlyGivenNames -merge -useContext -underBinder x0
    try clear_value x0
    extract_lets +onlyGivenNames -merge -useContext -underBinder x1
    try clear_value x1
    extract_lets +onlyGivenNames -merge -useContext -underBinder x2
    try clear_value x2
    extract_lets +onlyGivenNames -merge -useContext -underBinder x3
    have h3 : Keep q x3.1 := by
      unfold x3
      refine keep_runOp ?_ ?_
      · assumption
      · refine keepO_bind ?_ ?_
        · exact keep_writeAt
        · intro _
          exact keep_writeAt
    try clear_value x3
    extract_lets +onlyGivenNames -merge -useContext -underBinder x4
    try clear_value x4
    refine keep_cqDone ?_
    refine keep_writeCqAt ?_
    assumption

theorem keep_cqEnd {a0 : State} {a1 : Nat} {a2 : BitVec 8} {a3 : BitVec 8} {a4 : Env} (g0 : Keep q a0) : Keep q (@State.cqEnd a0 a1 a2 a3 a4) := by
  unfold State.cqEnd
  refine keep_foldl ?_ ?_
  · assumption
  · intro _ _ _
    split
    · refine keep_ite (fun _ => ?_) (fun _ => ?_)
      · refine keep_cqComplete ?_
        assumption
      · assumption
    · assumption

theorem keep_cqReplay {a0 : State} {a1 : Nat} {a2 : BitVec 8} {a3 : BitVec 8} {a4 : Bool} (g0 : Keep q a0) : Keep q (@State.cqReplay a0 a1 a2 a3 a4) := by
  unfold State.cqReplay
  refine keep_foldl ?_ ?_
  · assumption
  · intro _ _ _
    extract_lets +onlyGivenNames -merge -useContext -underBinder x0
    try clear_value x0
    extract_lets +onlyGivenNames -merge -useContext -underBinder x1
    try clear_value x1
    extract_lets +onlyGivenNames -merge -useContext -underBinder x2
    have h2 : Keep q x2 := by
      unfold x2
      refine keep_foldl ?_ ?_
      · assumption
      · intro _ _ r3
        refine keep_writeCqAt ?_
        assumption
    try clear_value x2
    extract_lets +onlyGivenNames -merge -useContext -underBinder x4
    have h4 : Keep q x4 := by
      unfold x4
      refine keep_foldl ?_ ?_
      · assumption
      · intro _ _ r5
        refine keep_onDp ?_ ?_
        · assumption
        · intro _ _
          refine keep_Dp_updWet ?_
          assumption
    try clear_value x4
    refine keep_updCq ?_
    assumption

theorem keep_cqReset {a0 : State} {a1 : Nat} (g0 : Keep q a0) : Keep q (@State.cqReset a0 a1) := by
  unfold State.cqReset
  refine keep_foldl ?_ ?_
  · assumption
  · intro _ _ _
    refine keep_updCq ?_
    assumption

theorem keep_cqEndAll {a0 : State} {a1 : Nat} {a2 : Status} {a3 : Env} (g0 : Keep q a0) : Keep q (@State.cqEndAll a0 a1 a2 a3) := by
  unfold State.cqEndAll
  refine keep_foldl ?_ ?_
  · assumption
  · intro _ _ _
    refine keep_cqComplete ?_
    assumption

theorem keep_holdQueues {a0 : State} {a1 : List Nat} (g0 : Keep q a0) : Keep q (@State.holdQueues a0 a1) := by
  unfold State.holdQueues
  refine Keep.upd ?_
  assumption

theorem keep_releaseHeld {a0 : State} {a1 : Nat} (g0 : Keep q a0) : Keep q (@State.releaseHeld a0 a1) := by
  unfold State.releaseHeld
  refine Keep.upd ?_
  assumption

theorem keep_endEngine {a0 : State} {a1 : Nat} {a2 : Status} {a3 : Env} (g0 : Keep q a0) : Keep q (@State.endEngine a0 a1 a2 a3) := by
  unfold State.endEngine
  refine keep_ite (fun _ => ?_) (fun _ => ?_)
  · refine keep_endArray ?_
    assumption
  · refine keep_ite (fun _ => ?_) (fun _ => ?_)
    · refine keep_endTrellis ?_
      assumption
    · split
      · refine keep_complete ?_
        assumption
      · assumption

theorem keep_clearEasel {a0 : State} {a1 : Nat} {a2 : Bool} (g0 : Keep q a0) : Keep q (@State.clearEasel a0 a1 a2) := by
  unfold State.clearEasel
  extract_lets +onlyGivenNames -merge -useContext -underBinder x0
  have h0 : Keep q x0 := by
    unfold x0
    refine keep_updTrellis ?_
    refine keep_setArray ?_
    assumption
  try clear_value x0
  refine keep_ite (fun _ => ?_) (fun _ => ?_)
  · refine keep_updPct ?_
    refine keep_onDp ?_ ?_
    · assumption
    · intro _ _
      refine keepD_mk ?_
      extract_lets +onlyGivenNames -merge -useContext -underBinder x1
      have h1 : Mem.Wf x1 := by
        unfold x1
        show KeepD _
        assumption
      try clear_value x1
      refine memWf_mk ?_ ?_ ?_ ?_ ?_ ?_
      · refine Sparse.wf_filter ?_
        refine Mem.Wf.bytes ?_
        show KeepD _
        assumption
      · refine Mem.Wf.errs ?_
        assumption
      · refine Mem.Wf.unread ?_
        assumption
      · refine Mem.Wf.region ?_
        assumption
      · refine Mem.Wf.zeroed ?_
        assumption
      · refine Mem.Wf.jobs ?_
        assumption
  · assumption

theorem keep_resetQueue {a0 : State} {a1 : Nat} (g0 : Keep q a0) : Keep q (@State.resetQueue a0 a1) := by
  unfold State.resetQueue
  extract_lets +onlyGivenNames -merge -useContext -underBinder x0
  try clear_value x0
  extract_lets +onlyGivenNames -merge -useContext -underBinder x1
  have h1 : Keep q x1 := by
    unfold x1
    refine keep_foldl ?_ ?_
    · assumption
    · intro _ _ _
      refine keep_writeRing ?_
      assumption
  try clear_value x1
  refine keep_updEq ?_
  assumption

theorem keep_reissueVarnish {a0 : State} {a1 : Nat} (g0 : Keep q a0) : Keep q (@State.reissueVarnish a0 a1) := by
  unfold State.reissueVarnish
  split
  · extract_lets +onlyGivenNames -merge -useContext -underBinder x0
    try clear_value x0
    extract_lets +onlyGivenNames -merge -useContext -underBinder x1
    have h1 : Keep q x1 := by
      unfold x1
      refine keep_writeRing ?_
      assumption
    try clear_value x1
    extract_lets +onlyGivenNames -merge -useContext -underBinder x2
    have h2 : Keep q x2 := by
      unfold x2
      refine keep_updEq ?_
      assumption
    try clear_value x2
    refine keep_updJob ?_
    assumption
  · assumption

end Sys2Proof.Laws
end

