-- ==== Sys2Proof/Laws/KeepGuards.lean ====
section
/-! SUPPORT. What each operation of Machine/Guards.lean keeps: the queue and the invariant of Safety.lean, or the canonical form of memory. -/
namespace Sys2Proof.Laws
open Sys2Proof Sys2Proof.Machine
variable {q : List Instr}

theorem keep_carryTable {a0 : Ctx} {a1 : GraphNode} {a2 : BitVec 32} : KeepO (@carryTable a0 a1 a2) := by
  unfold carryTable
  refine keepO_bind ?_ ?_
  · exact keep_takeCensus
  · intro _
    refine keepO_bind ?_ ?_
    · exact keep_takeCensus
    · intro _
      refine keepO_ite (fun _ => ?_) (fun _ => ?_)
      · extract_lets +onlyGivenNames -merge -useContext -underBinder x0
        try clear_value x0
        extract_lets +onlyGivenNames -merge -useContext -underBinder x1
        try clear_value x1
        refine keepO_bind ?_ ?_
        · exact keep_writeAt
        · intro _
          exact keepO_pure
      · exact keepO_pure

theorem keep_carryTables {a0 : Ctx} {a1 : BitVec 32} {a2 : List GraphNode} : KeepO (@carryTables a0 a1 a2) := by
  induction a2 generalizing a0 a1 with
  | nil =>
    rw [carryTables]
    exact keepO_pure
  | cons u1 u2 ih =>
    rw [carryTables]
    refine keepO_ite (fun _ => ?_) (fun _ => ?_)
    · refine keepO_bind ?_ ?_
      · refine keepO_tryCatch ?_ ?_
        · exact keep_carryTable
        · intro _
          exact keepO_pure
      · intro _
        refine keepO_bind ?_ ?_
        · apply ih
        · intro _
          exact keepO_pure
    · refine keepO_bind ?_ ?_
      · exact keepO_pure
      · intro _
        refine keepO_bind ?_ ?_
        · apply ih
        · intro _
          exact keepO_pure

theorem keep_Job_operandM {a0 : Job} {a1 : Ctx} {a2 : NodeOperand} {a3 : BitVec 32} : KeepO (@Job.operandM a0 a1 a2 a3) := by
  unfold Job.operandM
  split
  · exact keepO_pure
  · extract_lets +onlyGivenNames -merge -useContext -underBinder x0
    have h0 : ∀ y0, KeepO (@x0 y0) := by
      intro _
      unfold x0
      try dsimp -zeta only
      exact keepO_pure
    try clear_value x0
    split
    · refine keepO_bind ?_ ?_
      · exact keep_takeCensus
      · intro _
        exact h0 _
    · refine keepO_bind ?_ ?_
      · exact keepO_pure
      · intro _
        exact h0 _
  · refine keepO_bind ?_ ?_
    · exact keep_takeCensus
    · intro _
      extract_lets +onlyGivenNames -merge -useContext -underBinder x1
      have h1 : ∀ y0, KeepO (@x1 y0) := by
        intro _
        unfold x1
        try dsimp -zeta only
        exact keepO_pure
      try clear_value x1
      refine keepO_ite (fun _ => ?_) (fun _ => ?_)
      · refine keepO_bind ?_ ?_
        · exact keep_failOp
        · intro _
          exact h1 _
      · exact h1 _

theorem keep_refreshed {a0 : NodeOperand} {a1 : Ctx} {a2 : BitVec 32} : KeepO (@refreshed a0 a1 a2) := by
  unfold refreshed
  refine keepO_bind ?_ ?_
  · exact keep_takeCensus
  · intro _
    exact keepO_pure

theorem keep_Job_mendTd {a0 : Job} {a1 : Ctx} {a2 : Addr} : KeepO (@Job.mendTd a0 a1 a2) := by
  unfold Job.mendTd
  refine keepO_bind ?_ ?_
  · refine keepO_tryCatch ?_ ?_
    · refine keepO_bind ?_ ?_
      · exact keep_readAt
      · intro _
        exact keepO_pure
    · intro _
      exact keepO_pure
  · intro _
    refine keepO_ite (fun _ => ?_) (fun _ => ?_)
    · exact keepO_pure
    · split
      · exact keep_writeAt
      · exact keepO_pure

theorem keep_Job_writeScale {a0 : Job} {a1 : Ctx} {a2 : NodeOperand} {a3 : Int} : KeepO (@Job.writeScale a0 a1 a2 a3) := by
  unfold Job.writeScale
  refine keepO_bind ?_ ?_
  · exact keep_Job_mendTd
  · intro _
    exact keep_writeAt

theorem keep_Job_startLocal {a0 : Job} {a1 : Ctx} {a2 : GraphNode} {a3 : BitVec 32} : KeepO (@Job.startLocal a0 a1 a2 a3) := by
  unfold Job.startLocal
  refine keepO_bind ?_ ?_
  · exact keep_Job_operandM
  · intro _
    refine keepO_bind ?_ ?_
    · exact keep_Job_operandM
    · intro _
      split
      · refine keepO_bind ?_ ?_
        · exact keep_Job_writeScale
        · intro _
          refine keepO_bind ?_ ?_
          · exact keep_Job_writeScale
          · intro _
            exact keepO_pure
      · exact keepO_pure

theorem keep_noteScales {a0 : State} {a1 : Nat} {a2 : GraphNode} {a3 : Int × Int} (g0 : Keep q a0) : Keep q (@State.noteScales a0 a1 a2 a3) := by
  unfold State.noteScales
  refine keep_updJob ?_
  assumption

theorem keep_Job_levelAnchor {a0 : Job} {a1 : Ctx} {a2 : GraphNode} {a3 : Nat} {a4 : Nat} : KeepO (@Job.levelAnchor a0 a1 a2 a3 a4) := by
  unfold Job.levelAnchor
  extract_lets +onlyGivenNames -merge -useContext -underBinder x0
  try clear_value x0
  extract_lets +onlyGivenNames -merge -useContext -underBinder x1
  try clear_value x1
  refine keepO_ite (fun _ => ?_) (fun _ => ?_)
  · refine keepO_bind ?_ ?_
    · exact keep_refreshed
    · intro _
      refine keepO_bind ?_ ?_
      · exact keep_refreshed
      · intro _
        exact keepO_pure
  · refine keepO_ite (fun _ => ?_) (fun _ => ?_)
    · exact keepO_pure
    · refine keepO_bind ?_ ?_
      · exact keep_Job_operandM
      · intro _
        refine keepO_bind ?_ ?_
        · exact keep_Job_operandM
        · intro _
          exact keepO_pure

theorem keep_Job_putTable {a0 : Job} {a1 : Ctx} {a2 : GraphNode} {a3 : Nat} {a4 : Nat} : KeepO (@Job.putTable a0 a1 a2 a3 a4) := by
  unfold Job.putTable
  refine keepO_ite (fun _ => ?_) (fun _ => ?_)
  · exact keepO_pure
  · extract_lets +onlyGivenNames -merge -useContext -underBinder x0
    try clear_value x0
    refine keepO_bind ?_ ?_
    · exact keep_Job_levelAnchor
    · intro _
      split
      · refine keepO_bind ?_ ?_
        · exact keep_writeAt
        · intro _
          exact keepO_pure
      · exact keepO_pure

theorem keep_selectOut {a0 : GraphNode} {a1 : Ctx} {a2 : Nat} : KeepO (@selectOut a0 a1 a2) := by
  unfold selectOut
  split
  · refine keepO_forM ?_
    intro _
    exact keep_writeAt
  · exact keepO_pure

theorem keep_restoreTables {a0 : State} {a1 : Nat} {a2 : Nat} {a3 : GraphNode → Bool} (g0 : Keep q a0) : Keep q (@State.restoreTables a0 a1 a2 a3) := by
  unfold State.restoreTables
  refine keep_foldl ?_ ?_
  · assumption
  · intro _ _ _
    refine keep_ite (fun _ => ?_) (fun _ => ?_)
    · extract_lets +onlyGivenNames -merge -useContext -underBinder x0
      try clear_value x0
      refine keep_runOp ?_ ?_
      · assumption
      · refine keepO_tryCatch ?_ ?_
        · refine keepO_bind ?_ ?_
          · exact keep_Job_putTable
          · intro _
            exact keep_selectOut
        · intro _
          exact keepO_pure
    · assumption

theorem keep_stepCompletion {a0 : State} {a1 : Nat} {a2 : BitVec 64} {a3 : Env} (g0 : Keep q a0) : Keep q (@State.stepCompletion a0 a1 a2 a3) := by
  unfold State.stepCompletion
  refine keep_ite (fun _ => ?_) (fun _ => ?_)
  · assumption
  · extract_lets +onlyGivenNames -merge -useContext -underBinder x0
    try clear_value x0
    extract_lets +onlyGivenNames -merge -useContext -underBinder x1
    have h1 : Keep q x1 := by
      unfold x1
      split
      · refine keep_restoreTables ?_
        refine keep_updJob ?_
        assumption
      · extract_lets +onlyGivenNames -merge -useContext -underBinder x2
        have h2 : Keep q x2.1 := by
          unfold x2
          refine keep_runOp ?_ ?_
          · assumption
          · exact keep_carryTables
        try clear_value x2
        refine keep_updJob ?_
        assumption
    try clear_value x1
    refine keep_updJob ?_
    assumption

theorem keep_execStepCompletion {a0 : Part} {a1 : BitVec 64} {a2 : Env} {a3 : State} (g3 : Keep q a3) : KeepX q (@execStepCompletion a0 a1 a2 a3) := by
  unfold execStepCompletion
  refine keepX_next ?_
  refine keep_stepCompletion ?_
  assumption

theorem keep_guardRecord {a0 : State} {a1 : Nat} {a2 : BitVec 32} {a3 : BitVec 32} {a4 : Nat} {a5 : Guard} {a6 : Status} (g0 : Keep q a0) : Keep q (@State.guardRecord a0 a1 a2 a3 a4 a5 a6) := by
  unfold State.guardRecord
  refine keep_record ?_
  assumption

theorem keep_Job_resetRecord {a0 : Job} {a1 : Ctx} {a2 : GraphNode} {a3 : Nat} {a4 : BitVec 32} : KeepO (@Job.resetRecord a0 a1 a2 a3 a4) := by
  unfold Job.resetRecord
  extract_lets +onlyGivenNames -merge -useContext -underBinder x0
  have h0 : ∀ y0, KeepO (@x0 y0) := by
    intro _
    unfold x0
    try dsimp -zeta only
    refine keepO_bind ?_ ?_
    · refine keepO_tryCatch ?_ ?_
      · exact keep_readAt
      · intro _
        exact keepO_pure
    · intro _
      extract_lets +onlyGivenNames -merge -useContext -underBinder x1
      try clear_value x1
      exact keep_writeAt
  try clear_value x0
  split
  · refine keepO_bind ?_ ?_
    · exact keep_Job_mendTd
    · intro _
      exact h0 _
  · exact h0 _

theorem keep_guardRepeat {a0 : State} {a1 : Nat} {a2 : Tag} {a3 : Nat} {a4 : GraphNode} {a5 : Guard} {a6 : Nat} {a7 : Status} (g0 : Keep q a0) : Keep q (@State.guardRepeat a0 a1 a2 a3 a4 a5 a6 a7) := by
  unfold State.guardRepeat
  extract_lets +onlyGivenNames -merge -useContext -underBinder x0
  have h0 : Keep q x0 := by
    unfold x0
    refine keep_report ?_
    assumption
  try clear_value x0
  extract_lets +onlyGivenNames -merge -useContext -underBinder x1
  try clear_value x1
  extract_lets +onlyGivenNames -merge -useContext -underBinder x2
  have h2 : Keep q x2.1 := by
    unfold x2
    refine keep_runOp ?_ ?_
    · assumption
    · refine keepO_bind ?_ ?_
      · exact keep_Job_resetRecord
      · intro _
        refine keepO_ite (fun _ => ?_) (fun _ => ?_)
        · exact keep_Job_putTable
        · refine keepO_bind ?_ ?_
          · exact keep_selectOut
          · intro _
            exact keepO_pure
  try clear_value x2
  refine keep_guardRecord ?_
  refine keep_updGuard ?_
  assumption

theorem keep_guardClear {a0 : State} {a1 : Nat} {a2 : Tag} {a3 : GraphNode} (g0 : Keep q a0) : Keep q (@State.guardClear a0 a1 a2 a3) := by
  unfold State.guardClear
  refine keep_onDp ?_ ?_
  · refine keep_updGuard ?_
    assumption
  · intro _ _
    refine keep_Dp_updWet ?_
    assumption

theorem keep_guardDecision {a0 : State} {a1 : Nat} {a2 : Tag} {a3 : GraphNode} {a4 : Bool} {a5 : Env} (g0 : Keep q a0) : Keep q (@State.guardDecision a0 a1 a2 a3 a4 a5) := by
  unfold State.guardDecision
  extract_lets +onlyGivenNames -merge -useContext -underBinder x0
  try clear_value x0
  extract_lets +onlyGivenNames -merge -useContext -underBinder x1
  try clear_value x1
  extract_lets +onlyGivenNames -merge -useContext -underBinder x2
  try clear_value x2
  extract_lets +onlyGivenNames -merge -useContext -underBinder x3
  try clear_value x3
  extract_lets +onlyGivenNames -merge -useContext -underBinder x4
  try clear_value x4
  refine keep_ite (fun _ => ?_) (fun _ => ?_)
  · assumption
  · split
    · assumption
    · refine keep_ite (fun _ => ?_) (fun _ => ?_)
      · assumption
      · refine keep_guardRepeat ?_
        assumption
    · extract_lets +onlyGivenNames -merge -useContext -underBinder x5
      have h5 : Keep q x5.1 := by
        unfold x5
        refine keep_runOp ?_ ?_
        · assumption
        · exact keep_takeCensus
      try clear_value x5
      extract_lets +onlyGivenNames -merge -useContext -underBinder x6
      have h6 : Keep q x6 := by
        unfold x6
        assumption
      try clear_value x6
      split
      · assumption
      · refine keep_ite (fun _ => ?_) (fun _ => ?_)
        · assumption
        · refine keep_ite (fun _ => ?_) (fun _ => ?_)
          · refine keep_ite (fun _ => ?_) (fun _ => ?_)
            · refine keep_guardRepeat ?_
              assumption
            · refine keep_jobStatus ?_
              refine keep_guardClear ?_
              refine keep_guardRecord ?_
              assumption
          · refine keep_guardClear ?_
            assumption

theorem keep_execLayerGuardDecision {a0 : Part} {a1 : Tag} {a2 : BitVec 32} {a3 : Bool} {a4 : Env} {a5 : State} (g5 : Keep q a5) : KeepX q (@execLayerGuardDecision a0 a1 a2 a3 a4 a5) := by
  unfold execLayerGuardDecision
  refine keepX_next ?_
  split
  · refine keep_guardDecision ?_
    assumption
  · assumption

theorem keep_seedTables {a0 : State} {a1 : Nat} (g0 : Keep q a0) : Keep q (@State.seedTables a0 a1) := by
  unfold State.seedTables
  refine keep_foldl ?_ ?_
  · assumption
  · intro _ _ _
    split
    · refine keep_runOp ?_ ?_
      · assumption
      · refine keepO_tryCatch ?_ ?_
        · exact keep_writeAt
        · intro _
          exact keepO_pure
    · assumption

end Sys2Proof.Laws
end

