-- ==== Sys2Proof/Laws/KeepEpochs.lean ====
section
/-! SUPPORT. What each operation of Machine/Epochs.lean keeps: the queue and the invariant of Safety.lean, or the canonical form of memory. -/
namespace Sys2Proof.Laws
open Sys2Proof Sys2Proof.Machine
variable {q : List Instr}

theorem keep_updWet {a0 : State} {a1 : Nat} {a2 : WetPart → WetPart} (g0 : Keep q a0) : Keep q (@State.updWet a0 a1 a2) := by
  unfold State.updWet
  refine keep_onDp ?_ ?_
  · assumption
  · intro _ _
    refine keep_Dp_updWet ?_
    assumption

theorem keep_settlePct {a0 : State} {a1 : Nat} {a2 : BitVec 8} {a3 : Bool} (g0 : Keep q a0) : Keep q (@State.settlePct a0 a1 a2 a3) := by
  unfold State.settlePct
  refine keep_foldl ?_ ?_
  · assumption
  · intro _ _ _
    refine keep_ite (fun _ => ?_) (fun _ => ?_)
    · assumption
    · refine keep_updPct ?_
      assumption

theorem keep_putRec {a0 : State} {a1 : Nat} {a2 : StepRec} (g0 : Keep q a0) : Keep q (@State.putRec a0 a1 a2) := by
  unfold State.putRec
  extract_lets +onlyGivenNames -merge -useContext -underBinder x0
  try clear_value x0
  extract_lets +onlyGivenNames -merge -useContext -underBinder x1
  try clear_value x1
  extract_lets +onlyGivenNames -merge -useContext -underBinder x2
  try clear_value x2
  extract_lets +onlyGivenNames -merge -useContext -underBinder x3
  try clear_value x3
  refine keep_runOp ?_ ?_
  · assumption
  · refine keepO_bind ?_ ?_
    · exact keep_writeAt
    · intro _
      refine keepO_ite (fun _ => ?_) (fun _ => ?_)
      · exact keepO_pure
      · exact keep_writeAt

theorem keep_setRecords {a0 : State} {a1 : Nat} {a2 : List StepRec} (g0 : Keep q a0) : Keep q (@State.setRecords a0 a1 a2) := by
  unfold State.setRecords
  extract_lets +onlyGivenNames -merge -useContext -underBinder x0
  try clear_value x0
  refine keep_foldl ?_ ?_
  · refine keep_updJob ?_
    assumption
  · intro _ _ _
    refine keep_putRec ?_
    assumption

theorem keep_writeStepLog {a0 : State} {a1 : Nat} {a2 : Nat} {a3 : Nat} {a4 : StepLogIn} (g0 : Keep q a0) : Keep q (@State.writeStepLog a0 a1 a2 a3 a4) := by
  unfold State.writeStepLog
  extract_lets +onlyGivenNames -merge -useContext -underBinder x0
  try clear_value x0
  extract_lets +onlyGivenNames -merge -useContext -underBinder x1
  try clear_value x1
  extract_lets +onlyGivenNames -merge -useContext -underBinder x2
  try clear_value x2
  extract_lets +onlyGivenNames -merge -useContext -underBinder x3
  try clear_value x3
  extract_lets +onlyGivenNames -merge -useContext -underBinder x4
  try clear_value x4
  extract_lets +onlyGivenNames -merge -useContext -underBinder x5
  try clear_value x5
  extract_lets +onlyGivenNames -merge -useContext -underBinder x6
  have h6 : Keep q x6 := by
    unfold x6
    refine keep_updJob ?_
    assumption
  try clear_value x6
  extract_lets +onlyGivenNames -merge -useContext -underBinder x7
  have h7 : Keep q x7 := by
    unfold x7
    refine keep_ite (fun _ => ?_) (fun _ => ?_)
    · assumption
    · refine keep_restoreTables ?_
      assumption
  try clear_value x7
  split
  · refine keep_setRecords ?_
    assumption
  · refine keep_mgmt ?_
    refine keep_updJob ?_
    assumption

theorem keep_updMgr {a0 : State} {a1 : BitVec 16} {a2 : Mgr → Mgr} (g0 : Keep q a0) : Keep q (@State.updMgr a0 a1 a2) := by
  unfold State.updMgr
  refine Keep.upd ?_
  assumption

theorem keep_copyRec {a0 : State} {a1 : Nat} {a2 : Nat} (g0 : Keep q a0) : Keep q (@State.copyRec a0 a1 a2) := by
  unfold State.copyRec
  split
  · refine keep_send ?_
    assumption
  · assumption

theorem keep_tryStepDry {a0 : State} {a1 : Nat} {a2 : Nat} (g0 : Keep q a0) : Keep q (@State.tryStepDry a0 a1 a2) := by
  unfold State.tryStepDry
  extract_lets +onlyGivenNames -merge -useContext -underBinder x0
  try clear_value x0
  extract_lets +onlyGivenNames -merge -useContext -underBinder x1
  try clear_value x1
  extract_lets +onlyGivenNames -merge -useContext -underBinder x2
  try clear_value x2
  extract_lets +onlyGivenNames -merge -useContext -underBinder x3
  try clear_value x3
  extract_lets +onlyGivenNames -merge -useContext -underBinder x4
  try clear_value x4
  refine keep_ite (fun _ => ?_) (fun _ => ?_)
  · assumption
  · extract_lets +onlyGivenNames -merge -useContext -underBinder x5
    have h5 : Keep q x5 := by
      unfold x5
      refine keep_copyRec ?_
      refine keep_setRecords ?_
      assumption
    try clear_value x5
    extract_lets +onlyGivenNames -merge -useContext -underBinder x6
    try clear_value x6
    extract_lets +onlyGivenNames -merge -useContext -underBinder x7
    have h7 : Keep q x7 := by
      unfold x7
      refine Keep.upd ?_
      assumption
    try clear_value x7
    extract_lets +onlyGivenNames -merge -useContext -underBinder x8
    have h8 : Keep q x8 := by
      unfold x8
      refine keep_updJob ?_
      assumption
    try clear_value x8
    refine keep_ite (fun _ => ?_) (fun _ => ?_)
    · refine keep_mgmt ?_
      refine keep_updJob ?_
      refine keep_updMgr ?_
      assumption
    · assumption

theorem keep_snapshotWrite_go {a0 : Ctx} {a1 : TD} {a2 : Nat} {a3 : List (List Nat)} : KeepO (@snapshotWrite.go a0 a1 a2 a3) := by
  induction a3 generalizing a0 a1 a2 with
  | nil =>
    rw [snapshotWrite.go]
    exact keepO_pure
  | cons u1 u2 ih =>
    rw [snapshotWrite.go]
    refine keepO_bind ?_ ?_
    · exact keep_writeWhole
    · intro _
      refine keepO_bind ?_ ?_
      · exact keep_censusUpdate
      · intro _
        apply ih

theorem keep_snapshotWrite {a0 : Ctx} {a1 : Addr} {a2 : List (List Nat)} : KeepO (@snapshotWrite a0 a1 a2) := by
  unfold snapshotWrite
  refine keepO_bind ?_ ?_
  · exact keep_fetchTD
  · intro _
    extract_lets +onlyGivenNames -merge -useContext -underBinder x0
    try clear_value x0
    extract_lets +onlyGivenNames -merge -useContext -underBinder x1
    try clear_value x1
    exact keep_snapshotWrite_go

theorem keep_imageCounters {a0 : State} {a1 : Nat} {a2 : Option Nat} (g0 : Keep q a0) : Keep q (@State.imageCounters a0 a1 a2) := by
  unfold State.imageCounters
  split
  · assumption
  · split
    · assumption
    · refine keep_foldl ?_ ?_
      · assumption
      · intro _ _ _
        refine keep_updPct ?_
        assumption

theorem keep_grantPoint {a0 : State} {a1 : Nat} (g0 : Keep q a0) : Keep q (@State.grantPoint a0 a1) := by
  unfold State.grantPoint
  refine keep_updJob ?_
  assumption

theorem keep_snapshot {a0 : State} {a1 : Nat} {a2 : Tag} {a3 : BitVec 8} {a4 : Env} (g0 : Keep q a0) : Keep q (@State.snapshot a0 a1 a2 a3 a4) := by
  unfold State.snapshot
  extract_lets +onlyGivenNames -merge -useContext -underBinder x0
  try clear_value x0
  split
  · assumption
  · split
    · assumption
    · extract_lets +onlyGivenNames -merge -useContext -underBinder x1
      have h1 : Keep q x1 := by
        unfold x1
        refine keep_imageCounters ?_
        refine keep_grantPoint ?_
        assumption
      try clear_value x1
      extract_lets +onlyGivenNames -merge -useContext -underBinder x2
      try clear_value x2
      refine keep_runOp ?_ ?_
      · assumption
      · exact keep_snapshotWrite

theorem keep_closeEpoch {a0 : State} {a1 : Nat} {a2 : Tag} {a3 : Env} (g0 : Keep q a0) : Keep q (@State.closeEpoch a0 a1 a2 a3) := by
  unfold State.closeEpoch
  extract_lets +onlyGivenNames -merge -useContext -underBinder x0
  try clear_value x0
  refine keep_ite (fun _ => ?_) (fun _ => ?_)
  · assumption
  · extract_lets +onlyGivenNames -merge -useContext -underBinder x1
    have h1 : Keep q x1 := by
      unfold x1
      refine keep_updWet ?_
      assumption
    try clear_value x1
    refine keep_snapshot ?_
    assumption

theorem keep_openEpoch {a0 : State} {a1 : Nat} {a2 : Bool} {a3 : StepLogIn} {a4 : Env} (g0 : Keep q a0) : Keep q (@State.openEpoch a0 a1 a2 a3 a4) := by
  unfold State.openEpoch
  extract_lets +onlyGivenNames -merge -useContext -underBinder x0
  try clear_value x0
  refine keep_ite (fun _ => ?_) (fun _ => ?_)
  · assumption
  · refine keep_ite (fun _ => ?_) (fun _ => ?_)
    · refine keep_updWet ?_
      assumption
    · extract_lets +onlyGivenNames -merge -useContext -underBinder x1
      try clear_value x1
      extract_lets +onlyGivenNames -merge -useContext -underBinder x2
      try clear_value x2
      extract_lets +onlyGivenNames -merge -useContext -underBinder x3
      have h3 : Keep q x3 := by
        unfold x3
        refine keep_ite (fun _ => ?_) (fun _ => ?_)
        · refine keep_writeStepLog ?_
          assumption
        · assumption
      try clear_value x3
      extract_lets +onlyGivenNames -merge -useContext -underBinder x4
      have h4 : Keep q x4 := by
        unfold x4
        refine keep_ite (fun _ => ?_) (fun _ => ?_)
        · refine keep_updJob ?_
          assumption
        · assumption
      try clear_value x4
      extract_lets +onlyGivenNames -merge -useContext -underBinder x5
      try clear_value x5
      extract_lets +onlyGivenNames -merge -useContext -underBinder x6
      try clear_value x6
      extract_lets +onlyGivenNames -merge -useContext -underBinder x7
      have h7 : Keep q x7 := by
        unfold x7
        refine keep_updWet ?_
        assumption
      try clear_value x7
      refine keep_ite (fun _ => ?_) (fun _ => ?_)
      · refine keep_closeEpoch ?_
        assumption
      · assumption

theorem keep_execEpochOpen {a0 : Part} {a1 : Bool} {a2 : StepLogIn} {a3 : Env} {a4 : State} (g4 : Keep q a4) : KeepX q (@execEpochOpen a0 a1 a2 a3 a4) := by
  unfold execEpochOpen
  refine keepX_next ?_
  refine keep_openEpoch ?_
  assumption

theorem keep_sendVote {a0 : State} {a1 : Nat} {a2 : BitVec 8} (g0 : Keep q a0) : Keep q (@State.sendVote a0 a1 a2) := by
  unfold State.sendVote
  refine keep_updWet ?_
  refine keep_quickset ?_
  assumption

theorem keep_dryVoteSend {a0 : State} {a1 : Nat} {a2 : BitVec 8} (g0 : Keep q a0) : Keep q (@State.dryVoteSend a0 a1 a2) := by
  unfold State.dryVoteSend
  refine keep_ite (fun _ => ?_) (fun _ => ?_)
  · refine keep_updWet ?_
    refine keep_sendVote ?_
    assumption
  · assumption

theorem keep_execDryVoteSend {a0 : Part} {a1 : BitVec 8} {a2 : State} (g2 : Keep q a2) : KeepX q (@execDryVoteSend a0 a1 a2) := by
  unfold execDryVoteSend
  refine keepX_next ?_
  refine keep_dryVoteSend ?_
  assumption

theorem keep_execDryVoteResend {a0 : Part} {a1 : BitVec 8} {a2 : State} (g2 : Keep q a2) : KeepX q (@execDryVoteResend a0 a1 a2) := by
  unfold execDryVoteResend
  refine keepX_next ?_
  refine keep_ite (fun _ => ?_) (fun _ => ?_)
  · refine keep_sendVote ?_
    assumption
  · assumption

theorem keep_discardQs {a0 : State} {a1 : BitVec 16} {a2 : BitVec 17} {a3 : BitVec 8} {a4 : List Byte} (g0 : Keep q a0) : Keep q (@State.discardQs a0 a1 a2 a3 a4) := by
  unfold State.discardQs
  refine keep_ite (fun _ => ?_) (fun _ => ?_)
  · assumption
  · refine keep_record ?_
    refine keep_updMgr ?_
    assumption

theorem keep_declareDry {a0 : State} {a1 : BitVec 16} {a2 : Nat} (g0 : Keep q a0) : Keep q (@State.declareDry a0 a1 a2) := by
  induction a2 generalizing a0 a1 with
  | zero =>
    rw [State.declareDry]
    assumption
  | succ u1 ih =>
    rw [State.declareDry]
    split
    · assumption
    · refine keep_ite (fun _ => ?_) (fun _ => ?_)
      · assumption
      · extract_lets +onlyGivenNames -merge -useContext -underBinder x0
        try clear_value x0
        apply ih
        refine keep_updMgr ?_
        refine keep_quickset ?_
        assumption

theorem keep_dryVote {a0 : State} {a1 : List Byte} {a2 : BitVec 17} {a3 : List (BitVec 17)} (g0 : Keep q a0) : Keep q (@State.dryVote a0 a1 a2 a3) := by
  unfold State.dryVote
  extract_lets +onlyGivenNames -merge -useContext -underBinder x0
  try clear_value x0
  extract_lets +onlyGivenNames -merge -useContext -underBinder x1
  try clear_value x1
  refine keep_ite (fun _ => ?_) (fun _ => ?_)
  · refine keep_discardQs ?_
    assumption
  · refine keep_ite (fun _ => ?_) (fun _ => ?_)
    · assumption
    · refine keep_ite (fun _ => ?_) (fun _ => ?_)
      · refine keep_quickset ?_
        assumption
      · extract_lets +onlyGivenNames -merge -useContext -underBinder x2
        try clear_value x2
        extract_lets +onlyGivenNames -merge -useContext -underBinder x3
        have h3 : Keep q x3 := by
          unfold x3
          refine keep_updMgr ?_
          assumption
        try clear_value x3
        extract_lets +onlyGivenNames -merge -useContext -underBinder x4
        try clear_value x4
        refine keep_ite (fun _ => ?_) (fun _ => ?_)
        · refine keep_ite (fun _ => ?_) (fun _ => ?_)
          · refine keep_declareDry ?_
            assumption
          · refine keep_quickset ?_
            assumption
        · assumption

theorem keep_execDryVote {a0 : List Byte} {a1 : BitVec 17} {a2 : List (BitVec 17)} {a3 : State} (g3 : Keep q a3) : KeepX q (@execDryVote a0 a1 a2 a3) := by
  unfold execDryVote
  refine keepX_next ?_
  refine keep_dryVote ?_
  assumption

theorem keep_logGuards {a0 : State} {a1 : Nat} {a2 : Tag} {a3 : Nat} (g0 : Keep q a0) : Keep q (@State.logGuards a0 a1 a2 a3) := by
  unfold State.logGuards
  extract_lets +onlyGivenNames -merge -useContext -underBinder x0
  try clear_value x0
  refine keep_foldl ?_ ?_
  · assumption
  · intro _ _ _
    extract_lets +onlyGivenNames -merge -useContext -underBinder x1
    try clear_value x1
    refine keep_ite (fun _ => ?_) (fun _ => ?_)
    · extract_lets +onlyGivenNames -merge -useContext -underBinder x2
      have h2 : Keep q x2 := by
        unfold x2
        refine keep_updGuard ?_
        assumption
      try clear_value x2
      refine keep_setRecords ?_
      assumption
    · assumption

theorem keep_keepCensus {a0 : State} {a1 : Nat} {a2 : Nat} (g0 : Keep q a0) : Keep q (@State.keepCensus a0 a1 a2) := by
  unfold State.keepCensus
  extract_lets +onlyGivenNames -merge -useContext -underBinder x0
  try clear_value x0
  refine keep_foldl ?_ ?_
  · assumption
  · intro _ _ _
    refine keep_ite (fun _ => ?_) (fun _ => ?_)
    · extract_lets +onlyGivenNames -merge -useContext -underBinder x1
      have h1 : Keep q x1.1 := by
        unfold x1
        refine keep_runOp ?_ ?_
        · assumption
        · exact keep_readAt
      try clear_value x1
      split
      · refine keep_updJob ?_
        assumption
      · assumption
    · assumption

theorem keep_tryStop {a0 : State} {a1 : Nat} (g0 : Keep q a0) : Keep q (@State.tryStop a0 a1) := by
  unfold State.tryStop
  refine keep_ite (fun _ => ?_) (fun _ => ?_)
  · extract_lets +onlyGivenNames -merge -useContext -underBinder x0
    have h0 : Keep q x0 := by
      unfold x0
      refine keep_updJob ?_
      assumption
    try clear_value x0
    split
    · refine keep_finish ?_
      assumption
    · assumption
  · assumption

theorem keep_applyDry {a0 : State} {a1 : Nat} {a2 : DryMsg} (g0 : Keep q a0) : Keep q (@State.applyDry a0 a1 a2) := by
  unfold State.applyDry
  extract_lets +onlyGivenNames -merge -useContext -underBinder x0
  try clear_value x0
  extract_lets +onlyGivenNames -merge -useContext -underBinder x1
  try clear_value x1
  refine keep_ite (fun _ => ?_) (fun _ => ?_)
  · assumption
  · extract_lets +onlyGivenNames -merge -useContext -underBinder x2
    try clear_value x2
    extract_lets +onlyGivenNames -merge -useContext -underBinder x3
    have h3 : Keep q x3 := by
      unfold x3
      refine keep_settlePct ?_
      assumption
    try clear_value x3
    extract_lets +onlyGivenNames -merge -useContext -underBinder x4
    have h4 : Keep q x4 := by
      unfold x4
      refine keep_keepCensus ?_
      refine keep_logGuards ?_
      assumption
    try clear_value x4
    extract_lets +onlyGivenNames -merge -useContext -underBinder x5
    have h5 : Keep q x5 := by
      unfold x5
      refine keep_updWet ?_
      assumption
    try clear_value x5
    refine keep_tryStop ?_
    refine keep_tryStepDry ?_
    assumption

theorem keep_dryNotice {a0 : State} {a1 : List Byte} {a2 : BitVec 17} (g0 : Keep q a0) : Keep q (@State.dryNotice a0 a1 a2) := by
  unfold State.dryNotice
  extract_lets +onlyGivenNames -merge -useContext -underBinder x0
  try clear_value x0
  refine keep_ite (fun _ => ?_) (fun _ => ?_)
  · refine keep_discardQs ?_
    assumption
  · extract_lets +onlyGivenNames -merge -useContext -underBinder x1
    have h1 : Keep q x1 := by
      unfold x1
      refine keep_ite (fun _ => ?_) (fun _ => ?_)
      · refine keep_updMgr ?_
        refine keep_quickset ?_
        assumption
      · assumption
    try clear_value x1
    split
    · refine keep_applyDry ?_
      assumption
    · assumption

theorem keep_execDryNotice {a0 : List Byte} {a1 : BitVec 17} {a2 : State} (g2 : Keep q a2) : KeepX q (@execDryNotice a0 a1 a2) := by
  unfold execDryNotice
  refine keepX_next ?_
  refine keep_dryNotice ?_
  assumption

theorem keep_askRollback {a0 : State} {a1 : BitVec 16} (g0 : Keep q a0) : Keep q (@State.askRollback a0 a1) := by
  unfold State.askRollback
  refine keep_mgmt ?_
  assumption

theorem keep_opFailure {a0 : State} {a1 : Nat} {a2 : Tag} {a3 : Nat} {a4 : Status} {a5 : Fin 3} {a6 : Option Tag} (g0 : Keep q a0) : Keep q (@State.opFailure a0 a1 a2 a3 a4 a5 a6) := by
  unfold State.opFailure
  extract_lets +onlyGivenNames -merge -useContext -underBinder x0
  try clear_value x0
  split
  · extract_lets +onlyGivenNames -merge -useContext -underBinder x1
    try clear_value x1
    extract_lets +onlyGivenNames -merge -useContext -underBinder x2
    try clear_value x2
    extract_lets +onlyGivenNames -merge -useContext -underBinder x3
    try clear_value x3
    extract_lets +onlyGivenNames -merge -useContext -underBinder x4
    try clear_value x4
    split
    · assumption
    · assumption
    · assumption
    · assumption
    · assumption
    · refine keep_ite (fun _ => ?_) (fun _ => ?_)
      · refine keep_askRollback ?_
        assumption
      · refine keep_report ?_
        assumption
    · refine keep_ite (fun _ => ?_) (fun _ => ?_)
      · extract_lets +onlyGivenNames -merge -useContext -underBinder x5
        try clear_value x5
        extract_lets +onlyGivenNames -merge -useContext -underBinder x6
        try clear_value x6
        extract_lets +onlyGivenNames -merge -useContext -underBinder x7
        have h7 : Keep q x7 := by
          unfold x7
          refine Keep.upd ?_
          assumption
        try clear_value x7
        refine keep_ite (fun _ => ?_) (fun _ => ?_)
        · refine keep_mgmt ?_
          refine Keep.upd ?_
          assumption
        · refine keep_reissueVarnish ?_
          assumption
      · refine keep_report ?_
        assumption
    · refine keep_ite (fun _ => ?_) (fun _ => ?_)
      · refine keep_report ?_
        refine keep_updJob ?_
        assumption
      · refine keep_stopJob ?_
        assumption

theorem keep_execOperationFailureHandling {a0 : Part} {a1 : Tag} {a2 : QueueId} {a3 : Status} {a4 : Fin 3} {a5 : Option Tag} {a6 : State} (g6 : Keep q a6) : KeepX q (@execOperationFailureHandling a0 a1 a2 a3 a4 a5 a6) := by
  unfold execOperationFailureHandling
  refine keepX_next ?_
  refine keep_opFailure ?_
  assumption

theorem keep_sendOrder {a0 : State} {a1 : BitVec 16} (g0 : Keep q a0) : Keep q (@State.sendOrder a0 a1) := by
  unfold State.sendOrder
  extract_lets +onlyGivenNames -merge -useContext -underBinder x0
  have h0 : Keep q x0 := by
    unfold x0
    refine keep_updMgr ?_
    assumption
  try clear_value x0
  refine keep_quickset ?_
  assumption

theorem keep_smudgeReport {a0 : State} {a1 : List Byte} {a2 : BitVec 17} (g0 : Keep q a0) : Keep q (@State.smudgeReport a0 a1 a2) := by
  unfold State.smudgeReport
  extract_lets +onlyGivenNames -merge -useContext -underBinder x0
  try clear_value x0
  refine keep_ite (fun _ => ?_) (fun _ => ?_)
  · refine keep_discardQs ?_
    assumption
  · refine keep_ite (fun _ => ?_) (fun _ => ?_)
    · refine keep_ite (fun _ => ?_) (fun _ => ?_)
      · refine keep_quicksetUp ?_
        assumption
      · assumption
    · extract_lets +onlyGivenNames -merge -useContext -underBinder x1
      try clear_value x1
      extract_lets +onlyGivenNames -merge -useContext -underBinder x2
      try clear_value x2
      extract_lets +onlyGivenNames -merge -useContext -underBinder x3
      try clear_value x3
      extract_lets +onlyGivenNames -merge -useContext -underBinder x4
      try clear_value x4
      split
      · assumption
      · refine keep_ite (fun _ => ?_) (fun _ => ?_)
        · assumption
        · refine keep_ite (fun _ => ?_) (fun _ => ?_)
          · extract_lets +onlyGivenNames -merge -useContext -underBinder x5
            have h5 : Keep q x5 := by
              unfold x5
              refine keep_mgmt ?_
              refine keep_updMgr ?_
              assumption
            try clear_value x5
            split
            · refine keep_stopJob ?_
              assumption
            · assumption
          · extract_lets +onlyGivenNames -merge -useContext -underBinder x6
            have h6 : Keep q x6 := by
              unfold x6
              refine keep_updMgr ?_
              assumption
            try clear_value x6
            refine keep_ite (fun _ => ?_) (fun _ => ?_)
            · refine keep_updMgr ?_
              assumption
            · extract_lets +onlyGivenNames -merge -useContext -underBinder x7
              try clear_value x7
              refine keep_sendOrder ?_
              refine keep_updMgr ?_
              assumption

theorem keep_execSmudgeReport {a0 : List Byte} {a1 : BitVec 17} {a2 : State} (g2 : Keep q a2) : KeepX q (@execSmudgeReport a0 a1 a2) := by
  unfold execSmudgeReport
  refine keepX_next ?_
  refine keep_smudgeReport ?_
  assumption

theorem keep_smudgeEpoch {a0 : State} {a1 : Nat} {a2 : BitVec 8} (g0 : Keep q a0) : Keep q (@State.smudgeEpoch a0 a1 a2) := by
  unfold State.smudgeEpoch
  extract_lets +onlyGivenNames -merge -useContext -underBinder x0
  try clear_value x0
  refine keep_ite (fun _ => ?_) (fun _ => ?_)
  · assumption
  · extract_lets +onlyGivenNames -merge -useContext -underBinder x1
    have h1 : Keep q x1 := by
      unfold x1
      refine keep_settlePct ?_
      assumption
    try clear_value x1
    extract_lets +onlyGivenNames -merge -useContext -underBinder x2
    have h2 : Keep q x2 := by
      unfold x2
      refine keep_updWet ?_
      assumption
    try clear_value x2
    refine Keep.upd ?_
    assumption

theorem keep_smudgeOrder {a0 : State} {a1 : List Byte} {a2 : BitVec 17} {a3 : Env} (g0 : Keep q a0) : Keep q (@State.smudgeOrder a0 a1 a2 a3) := by
  unfold State.smudgeOrder
  extract_lets +onlyGivenNames -merge -useContext -underBinder x0
  try clear_value x0
  refine keep_ite (fun _ => ?_) (fun _ => ?_)
  · refine keep_discardQs ?_
    assumption
  · extract_lets +onlyGivenNames -merge -useContext -underBinder x1
    have h1 : Keep q x1 := by
      unfold x1
      refine keep_ite (fun _ => ?_) (fun _ => ?_)
      · refine keep_updMgr ?_
        refine keep_quickset ?_
        assumption
      · assumption
    try clear_value x1
    split
    · assumption
    · extract_lets +onlyGivenNames -merge -useContext -underBinder x2
      have h2 : Keep q x2 := by
        unfold x2
        refine keep_foldl ?_ ?_
        · assumption
        · intro _ _ _
          refine keep_smudgeEpoch ?_
          assumption
      try clear_value x2
      extract_lets +onlyGivenNames -merge -useContext -underBinder x3
      try clear_value x3
      extract_lets +onlyGivenNames -merge -useContext -underBinder x4
      have h4 : Keep q x4 := by
        unfold x4
        refine keep_foldl ?_ ?_
        · assumption
        · intro _ _ _
          refine keep_endEngine ?_
          assumption
      try clear_value x4
      extract_lets +onlyGivenNames -merge -useContext -underBinder x5
      have h5 : Keep q x5 := by
        unfold x5
        refine keep_cqEnd ?_
        assumption
      try clear_value x5
      extract_lets +onlyGivenNames -merge -useContext -underBinder x6
      have h6 : Keep q x6 := by
        unfold x6
        refine keep_updWet ?_
        assumption
      try clear_value x6
      extract_lets +onlyGivenNames -merge -useContext -underBinder x7
      try clear_value x7
      refine keep_quickset ?_
      assumption

theorem keep_execSmudgeOrder {a0 : List Byte} {a1 : BitVec 17} {a2 : Env} {a3 : State} (g3 : Keep q a3) : KeepX q (@execSmudgeOrder a0 a1 a2 a3) := by
  unfold execSmudgeOrder
  refine keepX_next ?_
  refine keep_around ?_ ?_
  · assumption
  · intro _ _ _
    refine keep_smudgeOrder ?_
    assumption

theorem keep_smudgeRecord {a0 : State} {a1 : Mgr} {a2 : BitVec 8} {a3 : BitVec 8} {a4 : BitVec 17} (g0 : Keep q a0) : Keep q (@State.smudgeRecord a0 a1 a2 a3 a4) := by
  unfold State.smudgeRecord
  refine keep_record ?_
  assumption

theorem keep_settled {a0 : State} {a1 : BitVec 16} (g0 : Keep q a0) : Keep q (@State.settled a0 a1) := by
  unfold State.settled
  extract_lets +onlyGivenNames -merge -useContext -underBinder x0
  have h0 : Keep q x0 := by
    unfold x0
    refine keep_updMgr ?_
    assumption
  try clear_value x0
  extract_lets +onlyGivenNames -merge -useContext -underBinder x1
  try clear_value x1
  split
  · extract_lets +onlyGivenNames -merge -useContext -underBinder x2
    have h2 : Keep q x2 := by
      unfold x2
      refine keep_foldl ?_ ?_
      · assumption
      · intro _ _ r3
        refine keep_smudgeRecord ?_
        assumption
    try clear_value x2
    extract_lets +onlyGivenNames -merge -useContext -underBinder x4
    have h4 : Keep q x4 := by
      unfold x4
      refine keep_askRollback ?_
      refine keep_updMgr ?_
      assumption
    try clear_value x4
    split
    · refine keep_jobStatus ?_
      assumption
    · assumption
  · extract_lets +onlyGivenNames -merge -useContext -underBinder x5
    try clear_value x5
    extract_lets +onlyGivenNames -merge -useContext -underBinder x6
    have h6 : Keep q x6 := by
      unfold x6
      refine keep_smudgeRecord ?_
      refine keep_quickset ?_
      assumption
    try clear_value x6
    refine keep_declareDry ?_
    refine keep_updMgr ?_
    assumption

theorem keep_smudgeClosure {a0 : State} {a1 : List Byte} {a2 : BitVec 17} {a3 : List (BitVec 17)} (g0 : Keep q a0) : Keep q (@State.smudgeClosure a0 a1 a2 a3) := by
  unfold State.smudgeClosure
  extract_lets +onlyGivenNames -merge -useContext -underBinder x0
  try clear_value x0
  extract_lets +onlyGivenNames -merge -useContext -underBinder x1
  try clear_value x1
  refine keep_ite (fun _ => ?_) (fun _ => ?_)
  · refine keep_discardQs ?_
    assumption
  · refine keep_ite (fun _ => ?_) (fun _ => ?_)
    · assumption
    · extract_lets +onlyGivenNames -merge -useContext -underBinder x2
      try clear_value x2
      extract_lets +onlyGivenNames -merge -useContext -underBinder x3
      have h3 : Keep q x3 := by
        unfold x3
        refine keep_updMgr ?_
        assumption
      try clear_value x3
      refine keep_ite (fun _ => ?_) (fun _ => ?_)
      · assumption
      · extract_lets +onlyGivenNames -merge -useContext -underBinder x4
        try clear_value x4
        refine keep_ite (fun _ => ?_) (fun _ => ?_)
        · refine keep_quicksetUp ?_
          refine keep_updMgr ?_
          assumption
        · refine keep_ite (fun _ => ?_) (fun _ => ?_)
          · refine keep_settled ?_
            assumption
          · refine keep_sendOrder ?_
            refine keep_updMgr ?_
            assumption

theorem keep_execSmudgeClosure {a0 : List Byte} {a1 : BitVec 17} {a2 : List (BitVec 17)} {a3 : State} (g3 : Keep q a3) : KeepX q (@execSmudgeClosure a0 a1 a2 a3) := by
  unfold execSmudgeClosure
  refine keepX_next ?_
  refine keep_smudgeClosure ?_
  assumption

theorem keep_resetCensus {a0 : State} {a1 : Nat} {a2 : Tag} {a3 : Nat} (g0 : Keep q a0) : Keep q (@State.resetCensus a0 a1 a2 a3) := by
  unfold State.resetCensus
  extract_lets +onlyGivenNames -merge -useContext -underBinder x0
  try clear_value x0
  refine keep_foldl ?_ ?_
  · assumption
  · intro _ _ _
    refine keep_ite (fun _ => ?_) (fun _ => ?_)
    · refine keep_runOp ?_ ?_
      · assumption
      · refine keepO_tryCatch ?_ ?_
        · exact keep_Job_resetRecord
        · intro _
          exact keepO_pure
    · assumption

theorem keep_restoreCensus {a0 : State} {a1 : Nat} {a2 : Nat} (g0 : Keep q a0) : Keep q (@State.restoreCensus a0 a1 a2) := by
  unfold State.restoreCensus
  extract_lets +onlyGivenNames -merge -useContext -underBinder x0
  try clear_value x0
  extract_lets +onlyGivenNames -merge -useContext -underBinder x1
  try clear_value x1
  refine keep_foldl ?_ ?_
  · assumption
  · intro _ _ _
    split
    · assumption
    · refine keep_ite (fun _ => ?_) (fun _ => ?_)
      · assumption
      · refine keep_runOp ?_ ?_
        · assumption
        · refine keepO_tryCatch ?_ ?_
          · exact keep_writeAt
          · intro _
            exact keepO_pure

theorem keep_restoreGuards {a0 : State} {a1 : Nat} {a2 : Tag} {a3 : Nat} {a4 : Bool} (g0 : Keep q a0) : Keep q (@State.restoreGuards a0 a1 a2 a3 a4) := by
  unfold State.restoreGuards
  extract_lets +onlyGivenNames -merge -useContext -underBinder x0
  try clear_value x0
  extract_lets +onlyGivenNames -merge -useContext -underBinder x1
  have h1 : Keep q x1 := by
    unfold x1
    refine keep_foldl ?_ ?_
    · assumption
    · intro _ _ _
      refine keep_ite (fun _ => ?_) (fun _ => ?_)
      · refine keep_updGuard ?_
        assumption
      · assumption
  try clear_value x1
  refine keep_restoreTables ?_
  assumption

theorem keep_reopen {a0 : State} {a1 : Nat} {a2 : Bool} {a3 : BitVec 8} (g0 : Keep q a0) : Keep q (@State.reopen a0 a1 a2 a3) := by
  unfold State.reopen
  extract_lets +onlyGivenNames -merge -useContext -underBinder x0
  try clear_value x0
  refine keep_ite (fun _ => ?_) (fun _ => ?_)
  · assumption
  · extract_lets +onlyGivenNames -merge -useContext -underBinder x1
    try clear_value x1
    extract_lets +onlyGivenNames -merge -useContext -underBinder x2
    try clear_value x2
    extract_lets +onlyGivenNames -merge -useContext -underBinder x3
    have h3 : Keep q x3 := by
      unfold x3
      refine keep_restoreCensus ?_
      refine keep_resetCensus ?_
      refine keep_restoreGuards ?_
      assumption
    try clear_value x3
    refine keep_updWet ?_
    assumption

theorem keep_smudgeFinal {a0 : State} {a1 : BitVec 17 × List Byte} {a2 : Option Bool} (g0 : Keep q a0) : Keep q (@State.smudgeFinal a0 a1 a2) := by
  unfold State.smudgeFinal
  extract_lets +onlyGivenNames -merge -useContext -underBinder x0
  try clear_value x0
  refine keep_ite (fun _ => ?_) (fun _ => ?_)
  · refine keep_discardQs ?_
    assumption
  · extract_lets +onlyGivenNames -merge -useContext -underBinder x1
    have h1 : Keep q x1 := by
      unfold x1
      refine keep_ite (fun _ => ?_) (fun _ => ?_)
      · refine keep_updMgr ?_
        refine keep_quickset ?_
        assumption
      · assumption
    try clear_value x1
    split
    · assumption
    · extract_lets +onlyGivenNames -merge -useContext -underBinder x2
      have h2 : Keep q x2 := by
        unfold x2
        refine keep_foldl ?_ ?_
        · assumption
        · intro _ _ _
          refine keep_reopen ?_
          assumption
      try clear_value x2
      extract_lets +onlyGivenNames -merge -useContext -underBinder x3
      have h3 : Keep q x3 := by
        unfold x3
        refine keep_cqReplay ?_
        assumption
      try clear_value x3
      extract_lets +onlyGivenNames -merge -useContext -underBinder x4
      have h4 : Keep q x4 := by
        unfold x4
        refine keep_updWet ?_
        assumption
      try clear_value x4
      extract_lets +onlyGivenNames -merge -useContext -underBinder x5
      have h5 : Keep q x5 := by
        unfold x5
        refine keep_releaseHeld ?_
        assumption
      try clear_value x5
      split
      · refine keep_askRollback ?_
        assumption
      · assumption

theorem keep_execSmudgeFinal {a0 : BitVec 17 × List Byte} {a1 : Option Bool} {a2 : State} (g2 : Keep q a2) : KeepX q (@execSmudgeFinal a0 a1 a2) := by
  unfold execSmudgeFinal
  refine keepX_next ?_
  refine keep_smudgeFinal ?_
  assumption

end Sys2Proof.Laws
end

