-- ==== Sys2Proof/Laws/KeepResetOps.lean ====
section
/-! SUPPORT. What each operation of Machine/ResetOps.lean keeps: the queue and the invariant of Safety.lean, or the canonical form of memory. -/
namespace Sys2Proof.Laws
open Sys2Proof Sys2Proof.Machine
variable {q : List Instr}

theorem keep_takeSample {a0 : State} {a1 : Nat} {a2 : Nat} {a3 : BitVec 16} {a4 : Nat} {a5 : BitVec 7} {a6 : Env} (g0 : Keep q a0) : Keep q (@State.takeSample a0 a1 a2 a3 a4 a5 a6) := by
  unfold State.takeSample
  extract_lets +onlyGivenNames -merge -useContext -underBinder x0
  try clear_value x0
  extract_lets +onlyGivenNames -merge -useContext -underBinder x1
  try clear_value x1
  extract_lets +onlyGivenNames -merge -useContext -underBinder x2
  try clear_value x2
  extract_lets +onlyGivenNames -merge -useContext -underBinder x3
  try clear_value x3
  extract_lets +onlyGivenNames -merge -useContext -underBinder x4
  have h4 : Keep q x4 := by
    unfold x4
    refine keep_runOp ?_ ?_
    · assumption
    · refine keepO_bind ?_ ?_
      · exact keep_writeAt
      · intro _
        refine keepO_bind ?_ ?_
        · exact keep_writeAt
        · intro _
          exact keep_writeAt
  try clear_value x4
  refine keep_levelRecord ?_
  refine Keep.upd ?_
  assumption

theorem keep_setEpisode {a0 : State} {a1 : Episode} (g0 : Keep q a0) : Keep q (@State.setEpisode a0 a1) := by
  unfold State.setEpisode
  refine Keep.upd ?_
  assumption

theorem keep_reportReset {a0 : State} {a1 : Nat} {a2 : List Tag} {a3 : BitVec 16} (g0 : Keep q a0) : Keep q (@State.reportReset a0 a1 a2 a3) := by
  unfold State.reportReset
  refine keep_foldl ?_ ?_
  · assumption
  · intro _ _ _
    refine keep_report ?_
    assumption

theorem keep_endWith {a0 : State} {a1 : List Nat} {a2 : BitVec 16} {a3 : Env} (g0 : Keep q a0) : Keep q (@State.endWith a0 a1 a2 a3) := by
  unfold State.endWith
  refine keep_foldl ?_ ?_
  · assumption
  · intro _ _ _
    refine keep_endEngine ?_
    assumption

theorem keep_easelReset {a0 : State} {a1 : Nat} {a2 : Nat} {a3 : BitVec 16} {a4 : Env} (g0 : Keep q a0) : Keep q (@State.easelReset a0 a1 a2 a3 a4) := by
  unfold State.easelReset
  extract_lets +onlyGivenNames -merge -useContext -underBinder x0
  try clear_value x0
  extract_lets +onlyGivenNames -merge -useContext -underBinder x1
  try clear_value x1
  extract_lets +onlyGivenNames -merge -useContext -underBinder x2
  have h2 : Keep q x2 := by
    unfold x2
    refine keep_clearEasel ?_
    refine keep_endWith ?_
    assumption
  try clear_value x2
  extract_lets +onlyGivenNames -merge -useContext -underBinder x3
  have h3 : Keep q x3 := by
    unfold x3
    refine keep_ite (fun _ => ?_) (fun _ => ?_)
    · refine keep_resetQueue ?_
      refine keep_resetQueue ?_
      assumption
    · assumption
  try clear_value x3
  split
  · refine keep_ite (fun _ => ?_) (fun _ => ?_)
    · assumption
    · refine keep_holdQueues ?_
      refine keep_reportReset ?_
      assumption
  · assumption

theorem keep_partReset {a0 : State} {a1 : Nat} {a2 : BitVec 16} {a3 : Env} (g0 : Keep q a0) : Keep q (@State.partReset a0 a1 a2 a3) := by
  unfold State.partReset
  extract_lets +onlyGivenNames -merge -useContext -underBinder x0
  try clear_value x0
  extract_lets +onlyGivenNames -merge -useContext -underBinder x1
  try clear_value x1
  extract_lets +onlyGivenNames -merge -useContext -underBinder x2
  try clear_value x2
  extract_lets +onlyGivenNames -merge -useContext -underBinder x3
  try clear_value x3
  extract_lets +onlyGivenNames -merge -useContext -underBinder x4
  have h4 : Keep q x4 := by
    unfold x4
    refine keep_cqEndAll ?_
    refine keep_endWith ?_
    assumption
  try clear_value x4
  extract_lets +onlyGivenNames -merge -useContext -underBinder x5
  have h5 : Keep q x5 := by
    unfold x5
    refine keep_foldl ?_ ?_
    · assumption
    · intro _ _ _
      refine keep_clearEasel ?_
      assumption
  try clear_value x5
  extract_lets +onlyGivenNames -merge -useContext -underBinder x6
  have h6 : Keep q x6 := by
    unfold x6
    refine keep_foldl ?_ ?_
    · assumption
    · intro _ _ _
      refine keep_resetQueue ?_
      assumption
  try clear_value x6
  extract_lets +onlyGivenNames -merge -useContext -underBinder x7
  have h7 : Keep q x7 := by
    unfold x7
    refine keep_foldl ?_ ?_
    · assumption
    · intro _ _ _
      refine keep_reissueVarnish ?_
      assumption
  try clear_value x7
  extract_lets +onlyGivenNames -merge -useContext -underBinder x8
  have h8 : Keep q x8 := by
    unfold x8
    refine keep_updWet ?_
    assumption
  try clear_value x8
  extract_lets +onlyGivenNames -merge -useContext -underBinder x9
  have h9 : Keep q x9 := by
    unfold x9
    refine keep_foldl ?_ ?_
    · assumption
    · intro _ _ _
      refine keep_smudgeEpoch ?_
      assumption
  try clear_value x9
  extract_lets +onlyGivenNames -merge -useContext -underBinder x10
  have h10 : Keep q x10 := by
    unfold x10
    refine keep_cqReset ?_
    assumption
  try clear_value x10
  refine keep_holdQueues ?_
  refine keep_reportReset ?_
  assumption

theorem keep_requestReset {a0 : State} {a1 : Nat} {a2 : Nat} {a3 : BitVec 16} {a4 : Nat} {a5 : Bool} {a6 : ResetIn} {a7 : Env} (g0 : Keep q a0) : Keep q (@State.requestReset a0 a1 a2 a3 a4 a5 a6 a7) := by
  unfold State.requestReset
  extract_lets +onlyGivenNames -merge -useContext -underBinder x0
  try clear_value x0
  refine keep_ite (fun _ => ?_) (fun _ => ?_)
  · refine keep_powerRequest ?_
    assumption
  · refine keep_ite (fun _ => ?_) (fun _ => ?_)
    · refine keep_moduleReset ?_
      assumption
    · refine keep_ite (fun _ => ?_) (fun _ => ?_)
      · refine keep_absorb ?_
        assumption
      · extract_lets +onlyGivenNames -merge -useContext -underBinder x1
        try clear_value x1
        extract_lets +onlyGivenNames -merge -useContext -underBinder x2
        try clear_value x2
        extract_lets +onlyGivenNames -merge -useContext -underBinder x3
        have h3 : Keep q x3 := by
          unfold x3
          refine keep_foldl ?_ ?_
          · refine Keep.upd ?_
            assumption
          · intro _ _ _
            refine keep_absorb ?_
            assumption
        try clear_value x3
        extract_lets +onlyGivenNames -merge -useContext -underBinder x4
        have h4 : Keep q x4 := by
          unfold x4
          refine keep_ite (fun _ => ?_) (fun _ => ?_)
          · refine keep_takeSample ?_
            assumption
          · assumption
        try clear_value x4
        extract_lets +onlyGivenNames -merge -useContext -underBinder x5
        have h5 : Keep q x5 := by
          unfold x5
          refine keep_setEpisode ?_
          refine keep_levelRecord ?_
          assumption
        try clear_value x5
        refine keep_ite (fun _ => ?_) (fun _ => ?_)
        · refine keep_partReset ?_
          assumption
        · refine keep_easelReset ?_
          assumption

theorem keep_resetDone {a0 : State} {a1 : Nat} {a2 : Nat} (g0 : Keep q a0) : Keep q (@State.resetDone a0 a1 a2) := by
  unfold State.resetDone
  split
  · assumption
  · extract_lets +onlyGivenNames -merge -useContext -underBinder x0
    try clear_value x0
    extract_lets +onlyGivenNames -merge -useContext -underBinder x1
    have h1 : Keep q x1 := by
      unfold x1
      refine Keep.upd ?_
      assumption
    try clear_value x1
    refine keep_levelRecord ?_
    assumption

theorem keep_saveMap {a0 : State} {a1 : Nat} (g0 : Keep q a0) : Keep q (@State.saveMap a0 a1) := by
  unfold State.saveMap
  refine Keep.mk' ?_ ?_ ?_ ?_ ?_ ?_
  · assumption
  · exact fun h => h.inv.mem
  · first | exact fun h => ⟨h.inv.flash.region, h.inv.flash.jobs⟩ | exact fun h => ⟨h.inv.mem.region, h.inv.mem.jobs⟩
  · exact fun h => ⟨h.inv.sec.hold, h.inv.sec.erased, h.inv.sec.flash, h.inv.sec.revoke, h.inv.sec.disabled⟩
  · exact fun h => h.inv.elec
  · exact fun h => h.inv.stage

theorem keep_setObs {a0 : State} {a1 : Nat} {a2 : Obs} (g0 : Keep q a0) : Keep q (@State.setObs a0 a1 a2) := by
  unfold State.setObs
  extract_lets +onlyGivenNames -merge -useContext -underBinder x0
  have h0 : Keep q x0 := by
    unfold x0
    refine keep_onDp ?_ ?_
    · assumption
    · intro _ _
      refine keepD_mk ?_
      show KeepD _
      assumption
  try clear_value x0
  refine Keep.mk' ?_ ?_ ?_ ?_ ?_ ?_
  · assumption
  · exact fun h => h.inv.mem
  · first | exact fun h => ⟨h.inv.flash.region, h.inv.flash.jobs⟩ | exact fun h => ⟨h.inv.mem.region, h.inv.mem.jobs⟩
  · exact fun h => ⟨h.inv.sec.hold, h.inv.sec.erased, h.inv.sec.flash, h.inv.sec.revoke, h.inv.sec.disabled⟩
  · exact fun h => h.inv.elec
  · exact fun h => h.inv.stage

theorem keep_moveVotes {a0 : State} {a1 : Nat} {a2 : Nat} (g0 : Keep q a0) : Keep q (@State.moveVotes a0 a1 a2) := by
  unfold State.moveVotes
  extract_lets +onlyGivenNames -merge -useContext -underBinder x0
  try clear_value x0
  refine keep_evalUp ?_
  refine keep_updDomain ?_
  refine keep_cutEasel ?_
  assumption

theorem keep_retire {a0 : State} {a1 : Nat} {a2 : ResetIn} {a3 : Env} (g0 : Keep q a0) : Keep q (@State.retire a0 a1 a2 a3) := by
  unfold State.retire
  extract_lets +onlyGivenNames -merge -useContext -underBinder x0
  try clear_value x0
  extract_lets +onlyGivenNames -merge -useContext -underBinder x1
  try clear_value x1
  extract_lets +onlyGivenNames -merge -useContext -underBinder x2
  try clear_value x2
  extract_lets +onlyGivenNames -merge -useContext -underBinder x3
  try clear_value x3
  refine keep_ite (fun _ => ?_) (fun _ => ?_)
  · assumption
  · refine keep_ite (fun _ => ?_) (fun _ => ?_)
    · extract_lets +onlyGivenNames -merge -useContext -underBinder x4
      have h4 : Keep q x4 := by
        unfold x4
        refine keep_updPanel ?_
        assumption
      try clear_value x4
      extract_lets +onlyGivenNames -merge -useContext -underBinder x5
      have h5 : Keep q x5 := by
        unfold x5
        refine keep_cutEasel ?_
        refine keep_saveMap ?_
        assumption
      try clear_value x5
      extract_lets +onlyGivenNames -merge -useContext -underBinder x6
      have h6 : Keep q x6 := by
        unfold x6
        refine keep_reportDegraded ?_
        refine keep_easelRecord ?_
        assumption
      try clear_value x6
      refine keep_setObs ?_
      refine keep_easelRecord ?_
      assumption
    · extract_lets +onlyGivenNames -merge -useContext -underBinder x7
      try clear_value x7
      extract_lets +onlyGivenNames -merge -useContext -underBinder x8
      have h8 : Keep q x8 := by
        unfold x8
        refine keep_requestReset ?_
        assumption
      try clear_value x8
      extract_lets +onlyGivenNames -merge -useContext -underBinder x9
      have h9 : Keep q x9 := by
        unfold x9
        refine keep_updPanel ?_
        assumption
      try clear_value x9
      extract_lets +onlyGivenNames -merge -useContext -underBinder x10
      have h10 : Keep q x10 := by
        unfold x10
        refine keep_moveVotes ?_
        refine keep_saveMap ?_
        assumption
      try clear_value x10
      extract_lets +onlyGivenNames -merge -useContext -underBinder x11
      have h11 : Keep q x11 := by
        unfold x11
        refine keep_ite (fun _ => ?_) (fun _ => ?_)
        · assumption
        · refine keep_resetDone ?_
          assumption
      try clear_value x11
      extract_lets +onlyGivenNames -merge -useContext -underBinder x12
      have h12 : Keep q x12 := by
        unfold x12
        refine keep_easelRecord ?_
        assumption
      try clear_value x12
      extract_lets +onlyGivenNames -merge -useContext -underBinder x13
      have h13 : Keep q x13.1 := by
        unfold x13
        refine keep_otpProgram ?_
        assumption
      try clear_value x13
      extract_lets +onlyGivenNames -merge -useContext -underBinder x14
      have h14 : Keep q x14 := by
        unfold x14
        refine keep_ite (fun _ => ?_) (fun _ => ?_)
        · refine keep_saveMap ?_
          refine keep_updPanel ?_
          assumption
        · refine keep_easelRecord ?_
          assumption
      try clear_value x14
      refine keep_setObs ?_
      refine keep_easelRecord ?_
      assumption

theorem keep_observe {a0 : State} {a1 : Nat} {a2 : Bool} {a3 : ResetIn} {a4 : Env} (g0 : Keep q a0) : Keep q (@State.observe a0 a1 a2 a3 a4) := by
  unfold State.observe
  extract_lets +onlyGivenNames -merge -useContext -underBinder x0
  try clear_value x0
  extract_lets +onlyGivenNames -merge -useContext -underBinder x1
  try clear_value x1
  extract_lets +onlyGivenNames -merge -useContext -underBinder x2
  try clear_value x2
  extract_lets +onlyGivenNames -merge -useContext -underBinder x3
  have h3 : Keep q x3 := by
    unfold x3
    refine keep_setObs ?_
    assumption
  try clear_value x3
  extract_lets +onlyGivenNames -merge -useContext -underBinder x4
  have h4 : Keep q x4 := by
    unfold x4
    refine keep_ite (fun _ => ?_) (fun _ => ?_)
    · refine keep_easelRecord ?_
      assumption
    · assumption
  try clear_value x4
  refine keep_ite (fun _ => ?_) (fun _ => ?_)
  · refine keep_retire ?_
    assumption
  · assumption

theorem keep_updWdgEng {a0 : State} {a1 : Nat} {a2 : WdgEng → WdgEng} (g0 : Keep q a0) : Keep q (@State.updWdgEng a0 a1 a2) := by
  unfold State.updWdgEng
  refine Keep.upd ?_
  assumption

theorem keep_declareHang {a0 : State} {a1 : Nat} {a2 : Nat} {a3 : BitVec 64} (g0 : Keep q a0) : Keep q (@State.declareHang a0 a1 a2 a3) := by
  unfold State.declareHang
  extract_lets +onlyGivenNames -merge -useContext -underBinder x0
  try clear_value x0
  extract_lets +onlyGivenNames -merge -useContext -underBinder x1
  have h1 : Keep q x1 := by
    unfold x1
    refine Keep.upd ?_
    assumption
  try clear_value x1
  extract_lets +onlyGivenNames -merge -useContext -underBinder x2
  have h2 : Keep q x2 := by
    unfold x2
    refine keep_updWdgEng ?_
    assumption
  try clear_value x2
  split
  · refine keep_levelRecord ?_
    assumption
  · refine keep_levelRecord ?_
    assumption

theorem keep_askLost {a0 : State} {a1 : BitVec 17} {a2 : Nat} {a3 : Nat} {a4 : Nat} (g0 : Keep q a0) : Keep q (@State.askLost a0 a1 a2 a3 a4) := by
  unfold State.askLost
  refine keep_ite (fun _ => ?_) (fun _ => ?_)
  · refine Keep.upd ?_
    assumption
  · refine keep_mgmt ?_
    refine Keep.upd ?_
    assumption

end Sys2Proof.Laws
end

