-- ==== Sys2Proof/Laws/KeepResets.lean ====
section
/-! SUPPORT. What each operation of Machine/Resets.lean keeps: the queue and the invariant of Safety.lean, or the canonical form of memory. -/
namespace Sys2Proof.Laws
open Sys2Proof Sys2Proof.Machine
variable {q : List Instr}

theorem keep_watchdog {a0 : State} {a1 : Nat} {a2 : ResetIn} {a3 : Env} (g0 : Keep q a0) : Keep q (@State.watchdog a0 a1 a2 a3) := by
  unfold State.watchdog
  refine keep_ite (fun _ => ?_) (fun _ => ?_)
  · assumption
  · extract_lets +onlyGivenNames -merge -useContext -underBinder x0
    have h0 : Keep q x0 := by
      unfold x0
      refine keep_declareHang ?_
      assumption
    try clear_value x0
    extract_lets +onlyGivenNames -merge -useContext -underBinder x1
    try clear_value x1
    extract_lets +onlyGivenNames -merge -useContext -underBinder x2
    have h2 : Keep q x2 := by
      unfold x2
      split
      · refine keep_requestReset ?_
        assumption
      · assumption
    try clear_value x2
    refine keep_ite (fun _ => ?_) (fun _ => ?_)
    · refine keep_observe ?_
      assumption
    · assumption

theorem keep_execEngineWatchdogExpiry {a0 : QueueId} {a1 : ResetIn} {a2 : Env} {a3 : State} (g3 : Keep q a3) : KeepX q (@execEngineWatchdogExpiry a0 a1 a2 a3) := by
  unfold execEngineWatchdogExpiry
  refine keepX_next ?_
  refine keep_around ?_ ?_
  · assumption
  · intro _ _ _
    refine keep_watchdog ?_
    assumption

theorem keep_lostAnswer {a0 : State} {a1 : BitVec 17} {a2 : Bool} {a3 : ResetIn} {a4 : Env} (g0 : Keep q a0) : Keep q (@State.lostAnswer a0 a1 a2 a3 a4) := by
  unfold State.lostAnswer
  split
  · assumption
  · extract_lets +onlyGivenNames -merge -useContext -underBinder x0
    try clear_value x0
    extract_lets +onlyGivenNames -merge -useContext -underBinder x1
    have h1 : Keep q x1 := by
      unfold x1
      refine Keep.upd ?_
      assumption
    try clear_value x1
    refine keep_ite (fun _ => ?_) (fun _ => ?_)
    · assumption
    · refine keep_foldl ?_ ?_
      · assumption
      · intro _ _ r2
        refine keep_requestReset ?_
        assumption

theorem keep_execLostQueryAnswer {a0 : BitVec 17} {a1 : Bool} {a2 : ResetIn} {a3 : Env} {a4 : State} (g4 : Keep q a4) : KeepX q (@execLostQueryAnswer a0 a1 a2 a3 a4) := by
  unfold execLostQueryAnswer
  refine keepX_next ?_
  refine keep_around ?_ ?_
  · assumption
  · intro _ _ _
    refine keep_lostAnswer ?_
    assumption

theorem keep_execResetLevelComplete {a0 : Fin 3} {a1 : Easel} {a2 : State} (g2 : Keep q a2) : KeepX q (@execResetLevelComplete a0 a1 a2) := by
  unfold execResetLevelComplete
  refine keepX_next ?_
  refine keep_resetDone ?_
  assumption

theorem keep_escalate {a0 : State} {a1 : Nat} {a2 : Nat} {a3 : ResetIn} {a4 : Env} (g0 : Keep q a0) : Keep q (@State.escalate a0 a1 a2 a3 a4) := by
  unfold State.escalate
  split
  · assumption
  · extract_lets +onlyGivenNames -merge -useContext -underBinder x0
    try clear_value x0
    extract_lets +onlyGivenNames -merge -useContext -underBinder x1
    have h1 : Keep q x1 := by
      unfold x1
      refine Keep.upd ?_
      assumption
    try clear_value x1
    extract_lets +onlyGivenNames -merge -useContext -underBinder x2
    have h2 : Keep q x2 := by
      unfold x2
      refine keep_levelRecord ?_
      assumption
    try clear_value x2
    split
    · refine keep_observe ?_
      refine keep_requestReset ?_
      assumption
    · split
      · refine keep_observe ?_
        refine keep_requestReset ?_
        assumption
      · refine keep_observe ?_
        refine keep_cutEasel ?_
        assumption
    · extract_lets +onlyGivenNames -merge -useContext -underBinder x3
      have h3 : Keep q x3 := by
        unfold x3
        refine keep_foldl ?_ ?_
        · assumption
        · intro _ _ _
          refine keep_ite (fun _ => ?_) (fun _ => ?_)
          · refine keep_jobStatus ?_
            assumption
          · assumption
      try clear_value x3
      refine keep_requestReset ?_
      assumption
    · extract_lets +onlyGivenNames -merge -useContext -underBinder x4
      try clear_value x4
      extract_lets +onlyGivenNames -merge -useContext -underBinder x5
      have h5 : Keep q x5 := by
        unfold x5
        refine Keep.upd ?_
        assumption
      try clear_value x5
      extract_lets +onlyGivenNames -merge -useContext -underBinder x6
      have h6 : Keep q x6 := by
        unfold x6
        refine keep_hangRecord ?_
        assumption
      try clear_value x6
      refine keep_requestReset ?_
      assumption

theorem keep_execResetTimeout {a0 : Fin 4} {a1 : Easel} {a2 : ResetIn} {a3 : Env} {a4 : State} (g4 : Keep q a4) : KeepX q (@execResetTimeout a0 a1 a2 a3 a4) := by
  unfold execResetTimeout
  refine keepX_next ?_
  refine keep_around ?_ ?_
  · assumption
  · intro _ _ _
    refine keep_escalate ?_
    assumption

theorem keep_ovindExpiry {a0 : State} (g0 : Keep q a0) : Keep q (@State.ovindExpiry a0) := by
  unfold State.ovindExpiry
  extract_lets +onlyGivenNames -merge -useContext -underBinder x0
  try clear_value x0
  extract_lets +onlyGivenNames -merge -useContext -underBinder x1
  have h1 : Keep q x1 := by
    unfold x1
    refine Keep.upd ?_
    assumption
  try clear_value x1
  refine keep_moduleReset ?_
  refine keep_hangRecord ?_
  assumption

theorem keep_execOvindWatchdogExpiry {a0 : State} (g0 : Keep q a0) : KeepX q (@execOvindWatchdogExpiry a0) := by
  unfold execOvindWatchdogExpiry
  refine keepX_next ?_
  refine keep_ovindExpiry ?_
  assumption

theorem keep_resetNotice {a0 : State} {a1 : BitVec 17} {a2 : List (BitVec 16)} (g0 : Keep q a0) : Keep q (@State.resetNotice a0 a1 a2) := by
  unfold State.resetNotice
  refine keep_ite (fun _ => ?_) (fun _ => ?_)
  · assumption
  · extract_lets +onlyGivenNames -merge -useContext -underBinder x0
    try clear_value x0
    extract_lets +onlyGivenNames -merge -useContext -underBinder x1
    have h1 : Keep q x1 := by
      unfold x1
      refine Keep.upd ?_
      assumption
    try clear_value x1
    refine keep_foldl ?_ ?_
    · assumption
    · intro _ _ _
      refine keep_mgmt ?_
      refine keep_updMgr ?_
      assumption

theorem keep_execResetNotice {a0 : BitVec 17} {a1 : List (BitVec 16)} {a2 : State} (g2 : Keep q a2) : KeepX q (@execResetNotice a0 a1 a2) := by
  unfold execResetNotice
  refine keepX_next ?_
  refine keep_resetNotice ?_
  assumption

theorem keep_moduleReady {a0 : State} {a1 : BitVec 17} (g0 : Keep q a0) : Keep q (@State.moduleReady a0 a1) := by
  unfold State.moduleReady
  refine keep_ite (fun _ => ?_) (fun _ => ?_)
  · assumption
  · extract_lets +onlyGivenNames -merge -useContext -underBinder x0
    try clear_value x0
    extract_lets +onlyGivenNames -merge -useContext -underBinder x1
    have h1 : Keep q x1 := by
      unfold x1
      refine Keep.upd ?_
      assumption
    try clear_value x1
    refine keep_ite (fun _ => ?_) (fun _ => ?_)
    · assumption
    · refine keep_mgmt ?_
      assumption

theorem keep_execModuleReady {a0 : BitVec 17} {a1 : State} (g1 : Keep q a1) : KeepX q (@execModuleReady a0 a1) := by
  unfold execModuleReady
  refine keepX_next ?_
  refine keep_moduleReady ?_
  assumption

theorem keep_execTrayNoResponse {a0 : State} (g0 : Keep q a0) : KeepX q (@execTrayNoResponse a0) := by
  unfold execTrayNoResponse
  refine keepX_next ?_
  refine keep_ite (fun _ => ?_) (fun _ => ?_)
  · refine keep_moduleRecord ?_
    assumption
  · assumption

end Sys2Proof.Laws
end

