-- ==== Sys2Proof/Laws/KeepIntegrity.lean ====
section
/-! SUPPORT. What each operation of Machine/Integrity.lean keeps: the queue and the invariant of Safety.lean, or the canonical form of memory. -/
namespace Sys2Proof.Laws
open Sys2Proof Sys2Proof.Machine
variable {q : List Instr}

theorem keep_settleDup {a0 : State} {a1 : Dup} (g0 : Keep q a0) : Keep q (@State.settleDup a0 a1) := by
  unfold State.settleDup
  refine keep_updWet ?_
  refine Keep.upd ?_
  assumption

theorem keep_setDup {a0 : State} {a1 : BitVec 32} {a2 : Dup → Dup} (g0 : Keep q a0) : Keep q (@State.setDup a0 a1 a2) := by
  unfold State.setDup
  refine Keep.upd ?_
  assumption

theorem keep_wasteOn {a0 : State} {a1 : Dup} {a2 : Nat} {a3 : Activity} (g0 : Keep q a0) : Keep q (@State.wasteOn a0 a1 a2 a3) := by
  unfold State.wasteOn
  refine keep_ite (fun _ => ?_) (fun _ => ?_)
  · assumption
  · refine keep_updPct ?_
    assumption

theorem keep_dupStart {a0 : State} {a1 : BitVec 32} {a2 : Option (Option Tag)} {a3 : Activity} (g0 : Keep q a0) : Keep q (@State.dupStart a0 a1 a2 a3) := by
  unfold State.dupStart
  split
  · assumption
  · refine keep_ite (fun _ => ?_) (fun _ => ?_)
    · assumption
    · extract_lets +onlyGivenNames -merge -useContext -underBinder x0
      have h0 : Keep q x0 := by
        unfold x0
        refine keep_wasteOn ?_
        assumption
      try clear_value x0
      split
      · refine keep_setDup ?_
        assumption
      · extract_lets +onlyGivenNames -merge -useContext -underBinder x1
        try clear_value x1
        extract_lets +onlyGivenNames -merge -useContext -underBinder x2
        try clear_value x2
        refine keep_report ?_
        refine keep_settleDup ?_
        assumption

theorem keep_execDuplicateStart {a0 : BitVec 32} {a1 : Option (Option Tag)} {a2 : Activity} {a3 : State} (g3 : Keep q a3) : KeepX q (@execDuplicateStart a0 a1 a2 a3) := by
  unfold execDuplicateStart
  refine keepX_next ?_
  refine keep_dupStart ?_
  assumption

theorem keep_dupCompare {a0 : State} {a1 : BitVec 32} {a2 : List Byte × List Byte} (g0 : Keep q a0) : Keep q (@State.dupCompare a0 a1 a2) := by
  unfold State.dupCompare
  split
  · assumption
  · refine keep_ite (fun _ => ?_) (fun _ => ?_)
    · assumption
    · refine keep_ite (fun _ => ?_) (fun _ => ?_)
      · refine keep_settleDup ?_
        assumption
      · refine keep_setDup ?_
        refine keep_updWet ?_
        assumption

theorem keep_execDuplicateCompare {a0 : BitVec 32} {a1 : List Byte × List Byte} {a2 : State} (g2 : Keep q a2) : KeepX q (@execDuplicateCompare a0 a1 a2) := by
  unfold execDuplicateCompare
  refine keepX_next ?_
  refine keep_dupCompare ?_
  assumption

theorem keep_dupRecord {a0 : State} {a1 : BitVec 16} {a2 : List Nat} {a3 : Nat} {a4 : BitVec 32} {a5 : BitVec 64} {a6 : Nat} (g0 : Keep q a0) : Keep q (@State.dupRecord a0 a1 a2 a3 a4 a5 a6) := by
  unfold State.dupRecord
  refine keep_record ?_
  assumption

theorem keep_thirdDone {a0 : State} {a1 : BitVec 32} {a2 : List Byte} {a3 : Activity} (g0 : Keep q a0) : Keep q (@State.thirdDone a0 a1 a2 a3) := by
  unfold State.thirdDone
  split
  · assumption
  · refine keep_ite (fun _ => ?_) (fun _ => ?_)
    · assumption
    · extract_lets +onlyGivenNames -merge -useContext -underBinder x0
      try clear_value x0
      extract_lets +onlyGivenNames -merge -useContext -underBinder x1
      have h1 : Keep q x1 := by
        unfold x1
        refine keep_wasteOn ?_
        assumption
      try clear_value x1
      extract_lets +onlyGivenNames -merge -useContext -underBinder x2
      try clear_value x2
      extract_lets +onlyGivenNames -merge -useContext -underBinder x3
      try clear_value x3
      extract_lets +onlyGivenNames -merge -useContext -underBinder x4
      have h4 : Keep q x4 := by
        unfold x4
        refine keep_dupRecord ?_
        assumption
      try clear_value x4
      extract_lets +onlyGivenNames -merge -useContext -underBinder x5
      try clear_value x5
      extract_lets +onlyGivenNames -merge -useContext -underBinder x6
      have h6 : Keep q x6 := by
        unfold x6
        refine Keep.upd ?_
        assumption
      try clear_value x6
      extract_lets +onlyGivenNames -merge -useContext -underBinder x7
      have h7 : Keep q x7 := by
        unfold x7
        refine keep_settleDup ?_
        assumption
      try clear_value x7
      refine keep_ite (fun _ => ?_) (fun _ => ?_)
      · assumption
      · refine keep_report ?_
        assumption

theorem keep_execThirdExecution {a0 : BitVec 32} {a1 : List Byte} {a2 : Activity} {a3 : State} (g3 : Keep q a3) : KeepX q (@execThirdExecution a0 a1 a2 a3) := by
  unfold execThirdExecution
  refine keepX_next ?_
  refine keep_thirdDone ?_
  assumption

theorem keep_classify {a0 : State} {a1 : Suspect} {a2 : Bool} {a3 : ResetIn} {a4 : Env} (g0 : Keep q a0) : Keep q (@State.classify a0 a1 a2 a3 a4) := by
  unfold State.classify
  extract_lets +onlyGivenNames -merge -useContext -underBinder x0
  try clear_value x0
  extract_lets +onlyGivenNames -merge -useContext -underBinder x1
  have h1 : Keep q x1 := by
    unfold x1
    refine Keep.upd ?_
    assumption
  try clear_value x1
  extract_lets +onlyGivenNames -merge -useContext -underBinder x2
  have h2 : Keep q x2 := by
    unfold x2
    refine keep_dupRecord ?_
    assumption
  try clear_value x2
  refine keep_observe ?_
  assumption

theorem keep_suspectRepeat {a0 : State} {a1 : Nat} {a2 : RepeatIn} {a3 : ResetIn} {a4 : Env} (g0 : Keep q a0) : Keep q (@State.suspectRepeat a0 a1 a2 a3 a4) := by
  unfold State.suspectRepeat
  split
  · assumption
  · split
    · refine keep_classify ?_
      assumption
    · extract_lets +onlyGivenNames -merge -useContext -underBinder x0
      try clear_value x0
      extract_lets +onlyGivenNames -merge -useContext -underBinder x1
      try clear_value x1
      extract_lets +onlyGivenNames -merge -useContext -underBinder x2
      have h2 : Keep q x2 := by
        unfold x2
        refine Keep.upd ?_
        assumption
      try clear_value x2
      extract_lets +onlyGivenNames -merge -useContext -underBinder x3
      try clear_value x3
      refine keep_ite (fun _ => ?_) (fun _ => ?_)
      · assumption
      · refine keep_foldl ?_ ?_
        · assumption
        · intro _ _ _
          refine keep_classify ?_
          assumption
    · split
      · refine keep_classify ?_
        assumption
      · assumption

theorem keep_execSuspectRepeat {a0 : Easel} {a1 : RepeatIn} {a2 : ResetIn} {a3 : Env} {a4 : State} (g4 : Keep q a4) : KeepX q (@execSuspectRepeat a0 a1 a2 a3 a4) := by
  unfold execSuspectRepeat
  refine keepX_next ?_
  refine keep_around ?_ ?_
  · assumption
  · intro _ _ _
    refine keep_suspectRepeat ?_
    assumption

theorem keep_afterItem {a0 : State} {a1 : Tpk} {a2 : ItemResult} (g0 : Keep q a0) : Keep q (@State.afterItem a0 a1 a2) := by
  unfold State.afterItem
  refine keep_ite (fun _ => ?_) (fun _ => ?_)
  · split
    · refine keep_updTrellis ?_
      assumption
    · assumption
  · assumption

theorem keep_itemResult {a0 : State} {a1 : Tpk} {a2 : ItemResult} {a3 : ResetIn} {a4 : Env} (g0 : Keep q a0) : Keep q (@State.itemResult a0 a1 a2 a3 a4) := by
  unfold State.itemResult
  extract_lets +onlyGivenNames -merge -useContext -underBinder x0
  have h0 : Keep q x0 := by
    unfold x0
    refine keep_afterItem ?_
    refine keep_tpkRecord ?_
    assumption
  try clear_value x0
  refine keep_ite (fun _ => ?_) (fun _ => ?_)
  · assumption
  · refine keep_ite (fun _ => ?_) (fun _ => ?_)
    · split
      · refine keep_observe ?_
        assumption
      · refine keep_ite (fun _ => ?_) (fun _ => ?_)
        · refine keep_spareFails ?_
          assumption
        · assumption
    · refine keep_reportDegraded ?_
      assumption

theorem keep_itemResults {a0 : State} {a1 : Tpk} {a2 : List ItemResult} {a3 : ResetIn} {a4 : Env} (g0 : Keep q a0) : Keep q (@State.itemResults a0 a1 a2 a3 a4) := by
  unfold State.itemResults
  refine keep_foldl ?_ ?_
  · assumption
  · intro _ _ _
    refine keep_itemResult ?_
    assumption

theorem keep_obsTick {a0 : State} {a1 : Nat} {a2 : List ItemResult} {a3 : Activity} {a4 : ResetIn} {a5 : Env} (g0 : Keep q a0) : Keep q (@State.obsTick a0 a1 a2 a3 a4 a5) := by
  unfold State.obsTick
  split
  · assumption
  · extract_lets +onlyGivenNames -merge -useContext -underBinder x0
    have h0 : Keep q x0 := by
      unfold x0
      refine keep_updPct ?_
      assumption
    try clear_value x0
    refine keep_itemResults ?_
    assumption

theorem keep_execObservationTpkTick {a0 : Easel} {a1 : List ItemResult} {a2 : Activity} {a3 : ResetIn} {a4 : Env} {a5 : State} (g5 : Keep q a5) : KeepX q (@execObservationTpkTick a0 a1 a2 a3 a4 a5) := by
  unfold execObservationTpkTick
  refine keepX_next ?_
  refine keep_around ?_ ?_
  · assumption
  · intro _ _ _
    refine keep_obsTick ?_
    assumption

theorem keep_obsEnd {a0 : State} {a1 : Nat} (g0 : Keep q a0) : Keep q (@State.obsEnd a0 a1) := by
  unfold State.obsEnd
  extract_lets +onlyGivenNames -merge -useContext -underBinder x0
  try clear_value x0
  refine keep_ite (fun _ => ?_) (fun _ => ?_)
  · refine keep_easelRecord ?_
    refine keep_setObs ?_
    assumption
  · assumption

theorem keep_execObservationEnd {a0 : Easel} {a1 : State} (g1 : Keep q a1) : KeepX q (@execObservationEnd a0 a1) := by
  unfold execObservationEnd
  refine keepX_next ?_
  refine keep_obsEnd ?_
  assumption

theorem keep_storeTpk {a0 : State} {a1 : List Byte} (g0 : Keep q a0) : Keep q (@State.storeTpk a0 a1) := by
  unfold State.storeTpk
  extract_lets +onlyGivenNames -merge -useContext -underBinder x0
  try clear_value x0
  extract_lets +onlyGivenNames -merge -useContext -underBinder x1
  try clear_value x1
  extract_lets +onlyGivenNames -merge -useContext -underBinder x2
  try clear_value x2
  refine Keep.upd ?_
  assumption

theorem keep_takeTpk {a0 : State} {a1 : List Byte} (g0 : Keep q a0) : Keep q (@State.takeTpk a0 a1).1 := by
  unfold State.takeTpk
  extract_lets +onlyGivenNames -merge -useContext -underBinder x0
  try clear_value x0
  refine keep1_ite (fun _ => ?_) (fun _ => ?_)
  · show Keep q _
    refine keep_storeTpk ?_
    assumption
  · show Keep q _
    assumption

theorem keep_execTpkPush {a0 : List Byte} {a1 : State} (g1 : Keep q a1) : KeepX q (@execTpkPush a0 a1) := by
  unfold execTpkPush
  refine keepX_next ?_
  extract_lets +onlyGivenNames -merge -useContext -underBinder x0
  have h0 : Keep q x0.1 := by
    unfold x0
    refine keep_takeTpk ?_
    assumption
  try clear_value x0
  refine keep_mgmt ?_
  assumption

theorem keep_selfTestDone {a0 : State} {a1 : List Panel} {a2 : List ItemResult} {a3 : ResetIn} {a4 : Env} (g0 : Keep q a0) : Keep q (@State.selfTestDone a0 a1 a2 a3 a4) := by
  unfold State.selfTestDone
  refine keep_ite (fun _ => ?_) (fun _ => ?_)
  · assumption
  · extract_lets +onlyGivenNames -merge -useContext -underBinder x0
    have h0 : Keep q x0 := by
      unfold x0
      refine keep_foldl ?_ ?_
      · assumption
      · intro _ _ _
        refine keep_spareFails ?_
        assumption
    try clear_value x0
    extract_lets +onlyGivenNames -merge -useContext -underBinder x1
    have h1 : Keep q x1 := by
      unfold x1
      split
      · refine keep_itemResults ?_
        assumption
      · assumption
    try clear_value x1
    refine keep_beginEntry ?_
    refine keep_sparesOff ?_
    refine Keep.updP ?_ rfl
    assumption

theorem keep_execSelfTestDone {a0 : List Panel} {a1 : List ItemResult} {a2 : ResetIn} {a3 : Env} {a4 : State} (g4 : Keep q a4) : KeepX q (@execSelfTestDone a0 a1 a2 a3 a4) := by
  unfold execSelfTestDone
  refine keepX_next ?_
  refine keep_around ?_ ?_
  · assumption
  · intro _ _ _
    refine keep_selfTestDone ?_
    assumption

end Sys2Proof.Laws
end

