-- ==== Sys2Proof/Laws/KeepMovers.lean ====
section
/-! SUPPORT. What each operation of Machine/Movers.lean keeps: the queue and the invariant of Safety.lean, or the canonical form of memory. -/
namespace Sys2Proof.Laws
open Sys2Proof Sys2Proof.Machine
variable {q : List Instr}

theorem keep_MD_fetch {a0 : MD} {a1 : Ctx} {a2 : List TD} : KeepO (@MD.fetch a0 a1 a2) := by
  unfold MD.fetch
  split
  · extract_lets +onlyGivenNames -merge -useContext -underBinder x0
    have h0 : ∀ y0, KeepO (@x0 y0) := by
      intro _
      unfold x0
      try dsimp -zeta only
      refine keepO_bind ?_ ?_
      · exact keep_takeTD
      · intro _
        extract_lets +onlyGivenNames -merge -useContext -underBinder x1
        have h1 : ∀ y0, KeepO (@x1 y0) := by
          intro _
          unfold x1
          try dsimp -zeta only
          exact keepO_pure
        try clear_value x1
        refine keepO_ite (fun _ => ?_) (fun _ => ?_)
        · refine keepO_bind ?_ ?_
          · exact keep_takeTD
          · intro _
            exact h1 _
        · refine keepO_bind ?_ ?_
          · exact keepO_pure
          · intro _
            exact h1 _
    try clear_value x0
    refine keepO_ite (fun _ => ?_) (fun _ => ?_)
    · refine keepO_bind ?_ ?_
      · exact keepO_pure
      · intro _
        exact h0 _
    · refine keepO_bind ?_ ?_
      · exact keep_takeTD
      · intro _
        exact h0 _
  · exact keepO_pure

theorem keep_MD_planOf {a0 : MD} {a1 : Ctx} {a2 : Addr} {a3 : TD} {a4 : TD} {a5 : TD} : KeepO (@MD.planOf a0 a1 a2 a3 a4 a5) := by
  unfold MD.planOf
  extract_lets +onlyGivenNames -merge -useContext -underBinder x0
  have h0 : ∀ y0, KeepO (@x0 y0) := by
    intro _
    unfold x0
    try dsimp -zeta only
    extract_lets +onlyGivenNames -merge -useContext -underBinder x1
    try clear_value x1
    extract_lets +onlyGivenNames -merge -useContext -underBinder x2
    try clear_value x2
    extract_lets +onlyGivenNames -merge -useContext -underBinder x3
    have h3 : ∀ y0, KeepO (@x3 y0) := by
      intro _
      unfold x3
      try dsimp -zeta only
      extract_lets +onlyGivenNames -merge -useContext -underBinder x4
      have h4 : ∀ y0, KeepO (@x4 y0) := by
        intro _
        unfold x4
        try dsimp -zeta only
        extract_lets +onlyGivenNames -merge -useContext -underBinder x5
        have h5 : ∀ y0, KeepO (@x5 y0) := by
          intro _
          unfold x5
          try dsimp -zeta only
          extract_lets +onlyGivenNames -merge -useContext -underBinder x6
          have h6 : ∀ y0, KeepO (@x6 y0) := by
            intro _
            unfold x6
            try dsimp -zeta only
            extract_lets +onlyGivenNames -merge -useContext -underBinder x7
            have h7 : ∀ y0, KeepO (@x7 y0) := by
              intro _
              unfold x7
              try dsimp -zeta only
              extract_lets +onlyGivenNames -merge -useContext -underBinder x8
              have h8 : ∀ y0, KeepO (@x8 y0) := by
                intro _
                unfold x8
                try dsimp -zeta only
                split
                · exact keep_failOp
                · refine keepO_get ?_
                  intro _ _
                  refine keepO_ite (fun _ => ?_) (fun _ => ?_)
                  · exact keep_failOp
                  · exact keepO_pure
              try clear_value x8
              refine keepO_ite (fun _ => ?_) (fun _ => ?_)
              · refine keepO_bind ?_ ?_
                · refine keepO_bind ?_ ?_
                  · exact keep_takeSr
                  · intro _
                    exact keepO_pure
                · intro _
                  exact h8 _
              · refine keepO_bind ?_ ?_
                · exact keepO_pure
                · intro _
                  exact h8 _
            try clear_value x7
            split
            · refine keepO_ite (fun _ => ?_) (fun _ => ?_)
              · refine keepO_bind ?_ ?_
                · exact keep_failOp
                · intro _
                  exact h7 _
              · refine keepO_ite (fun _ => ?_) (fun _ => ?_)
                · refine keepO_bind ?_ ?_
                  · exact keep_failOp
                  · intro _
                    exact h7 _
                · exact h7 _
            · exact h7 _
          try clear_value x6
          refine keepO_ite (fun _ => ?_) (fun _ => ?_)
          · refine keepO_bind ?_ ?_
            · exact keep_failOp
            · intro _
              exact h6 _
          · exact h6 _
        try clear_value x5
        refine keepO_ite (fun _ => ?_) (fun _ => ?_)
        · refine keepO_bind ?_ ?_
          · exact keep_failOp
          · intro _
            exact h5 _
        · exact h5 _
      try clear_value x4
      refine keepO_ite (fun _ => ?_) (fun _ => ?_)
      · refine keepO_bind ?_ ?_
        · refine keepO_bind ?_ ?_
          · exact keep_takeTable
          · intro _
            exact keepO_pure
        · intro _
          exact h4 _
      · refine keepO_bind ?_ ?_
        · exact keepO_pure
        · intro _
          exact h4 _
    try clear_value x3
    refine keepO_ite (fun _ => ?_) (fun _ => ?_)
    · refine keepO_bind ?_ ?_
      · refine keepO_bind ?_ ?_
        · exact keep_takeTable
        · intro _
          exact keepO_pure
      · intro _
        exact h3 _
    · refine keepO_bind ?_ ?_
      · exact keepO_pure
      · intro _
        exact h3 _
  try clear_value x0
  split
  · refine keepO_bind ?_ ?_
    · exact keepO_throw
    · intro _
      exact h0 _
  · exact h0 _

theorem keep_MD_plan {a0 : MD} {a1 : Ctx} {a2 : Addr} {a3 : List TD} : KeepO (@MD.plan a0 a1 a2 a3) := by
  unfold MD.plan
  extract_lets +onlyGivenNames -merge -useContext -underBinder x0
  try clear_value x0
  extract_lets +onlyGivenNames -merge -useContext -underBinder x1
  try clear_value x1
  extract_lets +onlyGivenNames -merge -useContext -underBinder x2
  try clear_value x2
  refine keepO_ite (fun _ => ?_) (fun _ => ?_)
  · exact keepO_pure
  · exact keep_MD_planOf

theorem keep_readIndex {a0 : Ctx} {a1 : Plan} : KeepO (@readIndex a0 a1) := by
  unfold readIndex
  extract_lets +onlyGivenNames -merge -useContext -underBinder x0
  try clear_value x0
  extract_lets +onlyGivenNames -merge -useContext -underBinder x1
  try clear_value x1
  extract_lets +onlyGivenNames -merge -useContext -underBinder x2
  try clear_value x2
  refine keepO_ite (fun _ => ?_) (fun _ => ?_)
  · exact keepO_pure
  · extract_lets +onlyGivenNames -merge -useContext -underBinder x3
    try clear_value x3
    refine keepO_bind ?_ ?_
    · refine keepO_mapM ?_
      intro _
      exact keep_checkTile
    · intro _
      extract_lets +onlyGivenNames -merge -useContext -underBinder x4
      try clear_value x4
      extract_lets +onlyGivenNames -merge -useContext -underBinder x5
      try clear_value x5
      split
      · refine keepO_ite (fun _ => ?_) (fun _ => ?_)
        · exact keepO_pure
        · exact keep_failOp
      · exact keepO_pure

theorem keep_loadTile {a0 : Ctx} {a1 : TD} {a2 : Cache} {a3 : Nat} : KeepO (@loadTile a0 a1 a2 a3) := by
  unfold loadTile
  refine keepO_ite (fun _ => ?_) (fun _ => ?_)
  · exact keepO_pure
  · refine keepO_bind ?_ ?_
    · exact keep_checkTile
    · intro _
      exact keepO_pure

theorem keep_loadTiles {a0 : Ctx} {a1 : TD} {a2 : Cache} {a3 : List Nat} : KeepO (@loadTiles a0 a1 a2 a3) := by
  unfold loadTiles
  refine keepO_foldlM ?_
  intro _ _
  exact keep_loadTile

theorem keep_Plan_tile {a0 : Plan} {a1 : Ctx} {a2 : List (Option Nat)} {a3 : List (Nat × Nat)} {a4 : Moved} {a5 : Nat × List Nat} : KeepO (@Plan.tile a0 a1 a2 a3 a4 a5) := by
  unfold Plan.tile
  extract_lets +onlyGivenNames -merge -useContext -underBinder x0
  try clear_value x0
  extract_lets +onlyGivenNames -merge -useContext -underBinder x1
  try clear_value x1
  extract_lets +onlyGivenNames -merge -useContext -underBinder x2
  try clear_value x2
  refine keepO_bind ?_ ?_
  · exact keep_loadTiles
  · intro _
    extract_lets +onlyGivenNames -merge -useContext -underBinder x3
    have h3 : ∀ y0, KeepO (@x3 y0) := by
      intro _
      unfold x3
      try dsimp -zeta only
      refine keep_afterWrite ?_
      exact keep_censusUpdate
    try clear_value x3
    refine keepO_ite (fun _ => ?_) (fun _ => ?_)
    · refine keepO_bind ?_ ?_
      · exact keep_checkTile
      · intro _
        extract_lets +onlyGivenNames -merge -useContext -underBinder x4
        try clear_value x4
        extract_lets +onlyGivenNames -merge -useContext -underBinder x5
        try clear_value x5
        refine keepO_ite (fun _ => ?_) (fun _ => ?_)
        · exact keep_failOp
        · extract_lets +onlyGivenNames -merge -useContext -underBinder x6
          try clear_value x6
          extract_lets +onlyGivenNames -merge -useContext -underBinder x7
          try clear_value x7
          refine keepO_bind ?_ ?_
          · exact keep_writeUpdate
          · intro _
            refine keepO_bind ?_ ?_
            · exact h3 _
            · intro _
              exact keepO_pure
    · refine keepO_ite (fun _ => ?_) (fun _ => ?_)
      · split
        · exact keepO_pure
        · refine keepO_bind ?_ ?_
          · exact keep_writeElems
          · intro _
            refine keepO_bind ?_ ?_
            · refine keep_afterWrite ?_
              exact keep_writeAt
            · intro _
              refine keepO_bind ?_ ?_
              · exact h3 _
              · intro _
                exact keepO_pure
      · split
        · exact keep_failOp
        · extract_lets +onlyGivenNames -merge -useContext -underBinder x8
          try clear_value x8
          extract_lets +onlyGivenNames -merge -useContext -underBinder x9
          have h9 : ∀ y0, KeepO (@x9 y0) := by
            intro _
            unfold x9
            try dsimp -zeta only
            refine keepO_bind ?_ ?_
            · exact h3 _
            · intro _
              exact keepO_pure
          try clear_value x9
          refine keepO_ite (fun _ => ?_) (fun _ => ?_)
          · refine keepO_bind ?_ ?_
            · exact keep_checkTile
            · intro _
              extract_lets +onlyGivenNames -merge -useContext -underBinder x10
              try clear_value x10
              extract_lets +onlyGivenNames -merge -useContext -underBinder x11
              try clear_value x11
              extract_lets +onlyGivenNames -merge -useContext -underBinder x12
              try clear_value x12
              extract_lets +onlyGivenNames -merge -useContext -underBinder x13
              try clear_value x13
              refine keepO_bind ?_ ?_
              · exact keep_writeUpdate
              · intro _
                exact h9 _
          · split
            · exact h9 _
            · refine keepO_bind ?_ ?_
              · exact keep_writeTilePart
              · intro _
                refine keepO_bind ?_ ?_
                · refine keep_afterWrite ?_
                  refine keepO_forM ?_
                  intro r14
                  exact keep_writeTilePart
                · intro _
                  exact h9 _

theorem keep_Plan_updateCheck {a0 : Plan} {a1 : Ctx} {a2 : List Nat} : KeepO (@Plan.updateCheck a0 a1 a2) := by
  unfold Plan.updateCheck
  refine keepO_ite (fun _ => ?_) (fun _ => ?_)
  · refine keepO_forM ?_
    intro _
    refine keepO_bind ?_ ?_
    · exact keep_checkTile
    · intro _
      refine keepO_ite (fun _ => ?_) (fun _ => ?_)
      · exact keep_failOp
      · exact keepO_pure
  · exact keepO_pure

theorem keep_moveTiles {a0 : State} {a1 : Nat} {a2 : Active} {a3 : BitVec 32} {a4 : Plan} {a5 : Ctx} {a6 : List (Option Nat)} {a7 : List (Nat × Nat)} {a8 : Moved} {a9 : List (Nat × List Nat)} (g0 : Keep q a0) : Keep q (@State.moveTiles a0 a1 a2 a3 a4 a5 a6 a7 a8 a9).1 := by
  induction a9 generalizing a0 a1 a2 a3 a4 a5 a6 a7 a8 with
  | nil =>
    rw [State.moveTiles]
    show Keep q _
    assumption
  | cons u1 u2 ih =>
    rw [State.moveTiles]
    split
    · show Keep q _
      refine keep_runOp ?_ ?_
      · assumption
      · exact keep_Plan_tile
    · extract_lets +onlyGivenNames -merge -useContext -underBinder x0
      have h0 : Keep q x0 := by
        unfold x0
        refine keep_ite (fun _ => ?_) (fun _ => ?_)
        · refine keep_sampleUnit ?_
          refine keep_runOp ?_ ?_
          · assumption
          · exact keep_Plan_tile
        · refine keep_runOp ?_ ?_
          · assumption
          · exact keep_Plan_tile
      try clear_value x0
      apply ih
      assumption

theorem keep_movePlan {a0 : State} {a1 : Nat} {a2 : Active} {a3 : BitVec 32} {a4 : Plan} {a5 : Env} (g0 : Keep q a0) : Keep q (@State.movePlan a0 a1 a2 a3 a4 a5) := by
  unfold State.movePlan
  extract_lets +onlyGivenNames -merge -useContext -underBinder x0
  try clear_value x0
  extract_lets +onlyGivenNames -merge -useContext -underBinder x1
  have h1 : Keep q x1.1 := by
    unfold x1
    refine keep_runOp ?_ ?_
    · assumption
    · refine keepO_ite (fun _ => ?_) (fun _ => ?_)
      · exact keep_readIndex
      · exact keepO_pure
  try clear_value x1
  split
  · refine keep_complete ?_
    assumption
  · extract_lets +onlyGivenNames -merge -useContext -underBinder x2
    try clear_value x2
    extract_lets +onlyGivenNames -merge -useContext -underBinder x3
    try clear_value x3
    extract_lets +onlyGivenNames -merge -useContext -underBinder x4
    have h4 : Keep q x4.1 := by
      unfold x4
      refine keep_runOp ?_ ?_
      · assumption
      · exact keep_Plan_updateCheck
    try clear_value x4
    split
    · refine keep_complete ?_
      assumption
    · extract_lets +onlyGivenNames -merge -useContext -underBinder x5
      have h5 : Keep q x5.1 := by
        unfold x5
        refine keep_moveTiles ?_
        assumption
      try clear_value x5
      split
      · refine keep_complete ?_
        assumption
      · refine keep_complete ?_
        assumption

theorem keep_moveFenced {a0 : State} {a1 : Nat} {a2 : Active} {a3 : BitVec 32} {a4 : Plan} {a5 : Env} (g0 : Keep q a0) : Keep q (@State.moveFenced a0 a1 a2 a3 a4 a5) := by
  unfold State.moveFenced
  split
  · refine keep_ite (fun _ => ?_) (fun _ => ?_)
    · refine keep_movePlan ?_
      assumption
    · refine keep_complete ?_
      assumption
  · refine keep_updCur ?_
    assumption

theorem keep_moveChecked {a0 : State} {a1 : Nat} {a2 : Active} {a3 : BitVec 32} {a4 : MD} {a5 : Env} (g0 : Keep q a0) : Keep q (@State.moveChecked a0 a1 a2 a3 a4 a5) := by
  unfold State.moveChecked
  extract_lets +onlyGivenNames -merge -useContext -underBinder x0
  try clear_value x0
  extract_lets +onlyGivenNames -merge -useContext -underBinder x1
  have h1 : Keep q x1.1 := by
    unfold x1
    refine keep_runOp ?_ ?_
    · assumption
    · refine keepO_bind ?_ ?_
      · exact keep_MD_fetch
      · intro _
        refine keepO_bind ?_ ?_
        · exact keep_MD_plan
        · intro _
          exact keepO_pure
  try clear_value x1
  split
  · refine keep_complete ?_
    assumption
  · refine keep_ite (fun _ => ?_) (fun _ => ?_)
    · refine keep_complete ?_
      assumption
    · refine keep_ite (fun _ => ?_) (fun _ => ?_)
      · refine keep_movePlan ?_
        assumption
      · refine keep_moveFenced ?_
        assumption

theorem keep_move {a0 : State} {a1 : Nat} {a2 : Nat} {a3 : BitVec 32} {a4 : Env} (g0 : Keep q a0) : Keep q (@State.move a0 a1 a2 a3 a4) := by
  unfold State.move
  split
  · assumption
  · extract_lets +onlyGivenNames -merge -useContext -underBinder x0
    try clear_value x0
    refine keep_ite (fun _ => ?_) (fun _ => ?_)
    · assumption
    · extract_lets +onlyGivenNames -merge -useContext -underBinder x1
      have h1 : Keep q x1 := by
        unfold x1
        refine keep_onDp ?_ ?_
        · assumption
        · intro _ _
          refine keep_Dp_upsets ?_
          assumption
      try clear_value x1
      extract_lets +onlyGivenNames -merge -useContext -underBinder x2
      try clear_value x2
      extract_lets +onlyGivenNames -merge -useContext -underBinder x3
      have h3 : ∀ y0 y1, Keep q (@x3 y0 y1) := by
        intro _ _
        unfold x3
        try dsimp -zeta only
        refine keep_complete ?_
        assumption
      try clear_value x3
      split
      · exact h3 _ _
      · refine keep_ite (fun _ => ?_) (fun _ => ?_)
        · refine keep_complete ?_
          assumption
        · refine keep_ite (fun _ => ?_) (fun _ => ?_)
          · exact h3 _ _
          · refine keep_ite (fun _ => ?_) (fun _ => ?_)
            · exact h3 _ _
            · refine keep_moveChecked ?_
              assumption

theorem keep_execCopy {a0 : QueueId} {a1 : Env} {a2 : State} (g2 : Keep q a2) : KeepX q (@execCopy a0 a1 a2) := by
  unfold execCopy
  refine keepX_next ?_
  refine keep_move ?_
  assumption

theorem keep_execCopyT2 {a0 : QueueId} {a1 : BitVec 32} {a2 : Env} {a3 : State} (g3 : Keep q a3) : KeepX q (@execCopyT2 a0 a1 a2 a3) := by
  unfold execCopyT2
  refine keepX_next ?_
  refine keep_move ?_
  assumption

theorem keep_execConvert {a0 : QueueId} {a1 : BitVec 32} {a2 : Env} {a3 : State} (g3 : Keep q a3) : KeepX q (@execConvert a0 a1 a2 a3) := by
  unfold execConvert
  refine keepX_next ?_
  refine keep_move ?_
  assumption

theorem keep_execGather {a0 : QueueId} {a1 : Env} {a2 : State} (g2 : Keep q a2) : KeepX q (@execGather a0 a1 a2) := by
  unfold execGather
  refine keepX_next ?_
  refine keep_move ?_
  assumption

theorem keep_execScatter {a0 : QueueId} {a1 : Env} {a2 : State} (g2 : Keep q a2) : KeepX q (@execScatter a0 a1 a2) := by
  unfold execScatter
  refine keepX_next ?_
  refine keep_move ?_
  assumption

theorem keep_execScatterAdd {a0 : QueueId} {a1 : BitVec 32} {a2 : Env} {a3 : State} (g3 : Keep q a3) : KeepX q (@execScatterAdd a0 a1 a2 a3) := by
  unfold execScatterAdd
  refine keepX_next ?_
  refine keep_move ?_
  assumption

theorem keep_execFill {a0 : QueueId} {a1 : Env} {a2 : State} (g2 : Keep q a2) : KeepX q (@execFill a0 a1 a2) := by
  unfold execFill
  refine keepX_next ?_
  refine keep_move ?_
  assumption

theorem keep_moverRelease {a0 : State} {a1 : Nat} {a2 : BitVec 32} {a3 : Env} (g0 : Keep q a0) : Keep q (@State.moverRelease a0 a1 a2 a3) := by
  unfold State.moverRelease
  split
  · assumption
  · refine keep_ite (fun _ => ?_) (fun _ => ?_)
    · assumption
    · refine keep_around ?_ ?_
      · assumption
      · intro _ _ _
        refine keep_moveFenced ?_
        assumption

theorem keep_execMoverFenceRelease {a0 : QueueId} {a1 : BitVec 32} {a2 : Env} {a3 : State} (g3 : Keep q a3) : KeepX q (@execMoverFenceRelease a0 a1 a2 a3) := by
  unfold execMoverFenceRelease
  refine keepX_next ?_
  refine keep_moverRelease ?_
  assumption

end Sys2Proof.Laws
end

