-- ==== Sys2Proof/Laws/KeepArray.lean ====
section
/-! SUPPORT. What each operation of Machine/Array.lean keeps: the queue and the invariant of Safety.lean, or the canonical form of memory. -/
namespace Sys2Proof.Laws
open Sys2Proof Sys2Proof.Machine
variable {q : List Instr}

theorem keep_AD_planOf {a0 : AD} {a1 : Ctx} {a2 : Addr} {a3 : List TD} : KeepO (@AD.planOf a0 a1 a2 a3) := by
  unfold AD.planOf
  extract_lets +onlyGivenNames -merge -useContext -underBinder x0
  try clear_value x0
  extract_lets +onlyGivenNames -merge -useContext -underBinder x1
  try clear_value x1
  extract_lets +onlyGivenNames -merge -useContext -underBinder x2
  try clear_value x2
  extract_lets +onlyGivenNames -merge -useContext -underBinder x3
  have h3 : ∀ y0 y1, KeepO (@x3 y0 y1) := by
    intro _ _
    unfold x3
    try dsimp -zeta only
    exact keep_failOp
  try clear_value x3
  extract_lets +onlyGivenNames -merge -useContext -underBinder x4
  have h4 : ∀ y0, KeepO (@x4 y0) := by
    intro _
    unfold x4
    try dsimp -zeta only
    extract_lets +onlyGivenNames -merge -useContext -underBinder x5
    have h5 : ∀ y0, KeepO (@x5 y0) := by
      intro _
      unfold x5
      try dsimp -zeta only
      extract_lets +onlyGivenNames -merge -useContext -underBinder x6
      try clear_value x6
      extract_lets +onlyGivenNames -merge -useContext -underBinder x7
      have h7 : ∀ y0, KeepO (@x7 y0) := by
        intro _
        unfold x7
        try dsimp -zeta only
        extract_lets +onlyGivenNames -merge -useContext -underBinder x8
        have h8 : ∀ y0, KeepO (@x8 y0) := by
          intro _
          unfold x8
          try dsimp -zeta only
          extract_lets +onlyGivenNames -merge -useContext -underBinder x9
          have h9 : ∀ y0, KeepO (@x9 y0) := by
            intro _
            unfold x9
            try dsimp -zeta only
            extract_lets +onlyGivenNames -merge -useContext -underBinder x10
            have h10 : ∀ y0, KeepO (@x10 y0) := by
              intro _
              unfold x10
              try dsimp -zeta only
              extract_lets +onlyGivenNames -merge -useContext -underBinder x11
              have h11 : ∀ y0, KeepO (@x11 y0) := by
                intro _
                unfold x11
                try dsimp -zeta only
                extract_lets +onlyGivenNames -merge -useContext -underBinder x12
                have h12 : ∀ y0, KeepO (@x12 y0) := by
                  intro _
                  unfold x12
                  try dsimp -zeta only
                  extract_lets +onlyGivenNames -merge -useContext -underBinder x13
                  have h13 : ∀ y0, KeepO (@x13 y0) := by
                    intro _
                    unfold x13
                    try dsimp -zeta only
                    extract_lets +onlyGivenNames -merge -useContext -underBinder x14
                    have h14 : ∀ y0, KeepO (@x14 y0) := by
                      intro _
                      unfold x14
                      try dsimp -zeta only
                      extract_lets +onlyGivenNames -merge -useContext -underBinder x15
                      have h15 : ∀ y0, KeepO (@x15 y0) := by
                        intro _
                        unfold x15
                        try dsimp -zeta only
                        extract_lets +onlyGivenNames -merge -useContext -underBinder x16
                        try clear_value x16
                        extract_lets +onlyGivenNames -merge -useContext -underBinder x17
                        try clear_value x17
                        extract_lets +onlyGivenNames -merge -useContext -underBinder x18
                        try clear_value x18
                        extract_lets +onlyGivenNames -merge -useContext -underBinder x19
                        try clear_value x19
                        extract_lets +onlyGivenNames -merge -useContext -underBinder x20
                        try clear_value x20
                        extract_lets +onlyGivenNames -merge -useContext -underBinder x21
                        try clear_value x21
                        extract_lets +onlyGivenNames -merge -useContext -underBinder x22
                        have h22 : ∀ y0, KeepO (@x22 y0) := by
                          intro _
                          unfold x22
                          try dsimp -zeta only
                          extract_lets +onlyGivenNames -merge -useContext -underBinder x23
                          try clear_value x23
                          extract_lets +onlyGivenNames -merge -useContext -underBinder x24
                          try clear_value x24
                          extract_lets +onlyGivenNames -merge -useContext -underBinder x25
                          try clear_value x25
                          extract_lets +onlyGivenNames -merge -useContext -underBinder x26
                          have h26 : ∀ y0, KeepO (@x26 y0) := by
                            intro _
                            unfold x26
                            try dsimp -zeta only
                            extract_lets +onlyGivenNames -merge -useContext -underBinder x27
                            have h27 : ∀ y0, KeepO (@x27 y0) := by
                              intro _
                              unfold x27
                              try dsimp -zeta only
                              refine keepO_get ?_
                              intro _ _
                              extract_lets +onlyGivenNames -merge -useContext -underBinder x28
                              have h28 : ∀ y0, KeepO (@x28 y0) := by
                                intro _
                                unfold x28
                                try dsimp -zeta only
                                extract_lets +onlyGivenNames -merge -useContext -underBinder x29
                                have h29 : ∀ y0, KeepO (@x29 y0) := by
                                  intro _
                                  unfold x29
                                  try dsimp -zeta only
                                  extract_lets +onlyGivenNames -merge -useContext -underBinder x30
                                  try clear_value x30
                                  extract_lets +onlyGivenNames -merge -useContext -underBinder x31
                                  have h31 : ∀ y0, KeepO (@x31 y0) := by
                                    intro _
                                    unfold x31
                                    try dsimp -zeta only
                                    refine keepO_ite (fun _ => ?_) (fun _ => ?_)
                                    · refine keepO_bind ?_ ?_
                                      · exact keep_takeSr
                                      · intro _
                                        exact keepO_pure
                                    · exact keepO_pure
                                  try clear_value x31
                                  refine keepO_ite (fun _ => ?_) (fun _ => ?_)
                                  · refine keepO_bind ?_ ?_
                                    · refine keepO_bind ?_ ?_
                                      · exact keep_takeTable
                                      · intro _
                                        extract_lets +onlyGivenNames -merge -useContext -underBinder x32
                                        have h32 : ∀ y0, KeepO (@x32 y0) := by
                                          intro _
                                          unfold x32
                                          try dsimp -zeta only
                                          extract_lets +onlyGivenNames -merge -useContext -underBinder x33
                                          have h33 : ∀ y0, KeepO (@x33 y0) := by
                                            intro _
                                            unfold x33
                                            try dsimp -zeta only
                                            extract_lets +onlyGivenNames -merge -useContext -underBinder x34
                                            have h34 : ∀ y0, KeepO (@x34 y0) := by
                                              intro _
                                              unfold x34
                                              try dsimp -zeta only
                                              exact keepO_pure
                                            try clear_value x34
                                            refine keepO_ite (fun _ => ?_) (fun _ => ?_)
                                            · refine keepO_bind ?_ ?_
                                              · exact keep_failOp
                                              · intro _
                                                exact h34 _
                                            · exact h34 _
                                          try clear_value x33
                                          refine keepO_ite (fun _ => ?_) (fun _ => ?_)
                                          · refine keepO_bind ?_ ?_
                                            · exact keep_failOp
                                            · intro _
                                              exact h33 _
                                          · exact h33 _
                                        try clear_value x32
                                        refine keepO_ite (fun _ => ?_) (fun _ => ?_)
                                        · refine keepO_bind ?_ ?_
                                          · exact keep_failOp
                                          · intro _
                                            exact h32 _
                                        · exact h32 _
                                    · intro _
                                      exact h31 _
                                  · extract_lets +onlyGivenNames -merge -useContext -underBinder x35
                                    try clear_value x35
                                    refine keepO_bind ?_ ?_
                                    · exact keepO_pure
                                    · intro _
                                      exact h31 _
                                try clear_value x29
                                split
                                · refine keepO_bind ?_ ?_
                                  · exact keep_failOp
                                  · intro _
                                    exact h29 _
                                · exact h29 _
                              try clear_value x28
                              refine keepO_ite (fun _ => ?_) (fun _ => ?_)
                              · refine keepO_bind ?_ ?_
                                · exact keep_failOp
                                · intro _
                                  exact h28 _
                              · exact h28 _
                            try clear_value x27
                            refine keepO_ite (fun _ => ?_) (fun _ => ?_)
                            · refine keepO_bind ?_ ?_
                              · exact h3 _ _
                              · intro _
                                exact h27 _
                            · exact h27 _
                          try clear_value x26
                          refine keepO_ite (fun _ => ?_) (fun _ => ?_)
                          · refine keepO_bind ?_ ?_
                            · exact h3 _ _
                            · intro _
                              exact h26 _
                          · exact h26 _
                        try clear_value x22
                        refine keepO_ite (fun _ => ?_) (fun _ => ?_)
                        · refine keepO_bind ?_ ?_
                          · exact h3 _ _
                          · intro _
                            exact h22 _
                        · exact h22 _
                      try clear_value x15
                      split
                      · refine keepO_bind ?_ ?_
                        · exact h3 _ _
                        · intro _
                          exact h15 _
                      · exact h15 _
                    try clear_value x14
                    refine keepO_ite (fun _ => ?_) (fun _ => ?_)
                    · refine keepO_bind ?_ ?_
                      · exact h3 _ _
                      · intro _
                        exact h14 _
                    · exact h14 _
                  try clear_value x13
                  refine keepO_ite (fun _ => ?_) (fun _ => ?_)
                  · refine keepO_bind ?_ ?_
                    · exact h3 _ _
                    · intro _
                      exact h13 _
                  · exact h13 _
                try clear_value x12
                refine keepO_ite (fun _ => ?_) (fun _ => ?_)
                · refine keepO_bind ?_ ?_
                  · exact h3 _ _
                  · intro _
                    exact h12 _
                · exact h12 _
              try clear_value x11
              refine keepO_ite (fun _ => ?_) (fun _ => ?_)
              · refine keepO_bind ?_ ?_
                · exact h3 _ _
                · intro _
                  exact h11 _
              · exact h11 _
            try clear_value x10
            refine keepO_ite (fun _ => ?_) (fun _ => ?_)
            · refine keepO_bind ?_ ?_
              · exact h3 _ _
              · intro _
                exact h10 _
            · exact h10 _
          try clear_value x9
          refine keepO_ite (fun _ => ?_) (fun _ => ?_)
          · refine keepO_bind ?_ ?_
            · exact keep_failOp
            · intro _
              exact h9 _
          · exact h9 _
        try clear_value x8
        refine keepO_ite (fun _ => ?_) (fun _ => ?_)
        · refine keepO_bind ?_ ?_
          · exact keep_failOp
          · intro _
            exact h8 _
        · exact h8 _
      try clear_value x7
      refine keepO_ite (fun _ => ?_) (fun _ => ?_)
      · refine keepO_bind ?_ ?_
        · exact keep_failOp
        · intro _
          exact h7 _
      · exact h7 _
    try clear_value x5
    refine keepO_ite (fun _ => ?_) (fun _ => ?_)
    · refine keepO_bind ?_ ?_
      · exact h3 _ _
      · intro _
        exact h5 _
    · exact h5 _
  try clear_value x4
  refine keepO_ite (fun _ => ?_) (fun _ => ?_)
  · refine keepO_bind ?_ ?_
    · exact h3 _ _
    · intro _
      exact h4 _
  · exact h4 _

theorem keep_AD_plan {a0 : AD} {a1 : Ctx} {a2 : Addr} {a3 : List TD} : KeepO (@AD.plan a0 a1 a2 a3) := by
  unfold AD.plan
  refine keepO_ite (fun _ => ?_) (fun _ => ?_)
  · exact keepO_pure
  · exact keep_AD_planOf

theorem keep_AD_fetch {a0 : AD} {a1 : Ctx} : KeepO (@AD.fetch a0 a1) := by
  unfold AD.fetch
  refine keepO_bind ?_ ?_
  · exact keep_takeTD
  · intro _
    refine keepO_bind ?_ ?_
    · exact keep_takeTD
    · intro _
      extract_lets +onlyGivenNames -merge -useContext -underBinder x0
      have h0 : ∀ y0, KeepO (@x0 y0) := by
        intro _
        unfold x0
        try dsimp -zeta only
        exact keepO_pure
      try clear_value x0
      refine keepO_ite (fun _ => ?_) (fun _ => ?_)
      · refine keepO_bind ?_ ?_
        · exact keepO_pure
        · intro _
          exact h0 _
      · refine keepO_bind ?_ ?_
        · exact keep_takeTD
        · intro _
          exact h0 _

theorem keep_arrayStart {a0 : State} {a1 : Nat} {a2 : BitVec 32} {a3 : Env} (g0 : Keep q a0) : Keep q (@State.arrayStart a0 a1 a2 a3) := by
  unfold State.arrayStart
  split
  · assumption
  · refine keep_ite (fun _ => ?_) (fun _ => ?_)
    · assumption
    · extract_lets +onlyGivenNames -merge -useContext -underBinder x0
      have h0 : Keep q x0 := by
        unfold x0
        refine keep_onDp ?_ ?_
        · assumption
        · intro _ _
          refine keep_Dp_upsets ?_
          assumption
      try clear_value x0
      extract_lets +onlyGivenNames -merge -useContext -underBinder x1
      try clear_value x1
      extract_lets +onlyGivenNames -merge -useContext -underBinder x2
      try clear_value x2
      extract_lets +onlyGivenNames -merge -useContext -underBinder x3
      have h3 : ∀ y0 y1, Keep q (@x3 y0 y1) := by
        intro _ _
        unfold x3
        try dsimp -zeta only
        refine keep_complete ?_
        assumption
      try clear_value x3
      split
      · exact h3 _ _
      · refine keep_ite (fun _ => ?_) (fun _ => ?_)
        · refine keep_complete ?_
          assumption
        · split
          · exact h3 _ _
          · extract_lets +onlyGivenNames -merge -useContext -underBinder x4
            try clear_value x4
            extract_lets +onlyGivenNames -merge -useContext -underBinder x5
            have h5 : Keep q x5.1 := by
              unfold x5
              refine keep_runOp ?_ ?_
              · assumption
              · refine keepO_bind ?_ ?_
                · exact keep_AD_fetch
                · intro _
                  refine keepO_bind ?_ ?_
                  · exact keep_AD_plan
                  · intro _
                    exact keepO_pure
            try clear_value x5
            split
            · refine keep_complete ?_
              assumption
            · extract_lets +onlyGivenNames -merge -useContext -underBinder x6
              have h6 : Keep q x6 := by
                unfold x6
                refine keep_updCur ?_
                assumption
              try clear_value x6
              extract_lets +onlyGivenNames -merge -useContext -underBinder x7
              have h7 : Keep q x7 := by
                unfold x7
                refine keep_ite (fun _ => ?_) (fun _ => ?_)
                · assumption
                · refine keep_foldl ?_ ?_
                  · assumption
                  · intro _ _ _
                    refine keep_sampleUnit ?_
                    assumption
              try clear_value x7
              extract_lets +onlyGivenNames -merge -useContext -underBinder x8
              have h8 : Keep q x8 := by
                unfold x8
                refine keep_setArray ?_
                assumption
              try clear_value x8
              refine keep_ite (fun _ => ?_) (fun _ => ?_)
              · refine keep_endArray ?_
                assumption
              · assumption

theorem keep_execArrayOperation {a0 : Easel} {a1 : BitVec 32} {a2 : Env} {a3 : State} (g3 : Keep q a3) : KeepX q (@execArrayOperation a0 a1 a2 a3) := by
  unfold execArrayOperation
  refine keepX_next ?_
  refine keep_arrayStart ?_
  assumption

theorem keep_accountSlots {a0 : State} {a1 : Nat} {a2 : Nat} {a3 : Activity} (g0 : Keep q a0) : Keep q (@State.accountSlots a0 a1 a2 a3) := by
  unfold State.accountSlots
  extract_lets +onlyGivenNames -merge -useContext -underBinder x0
  try clear_value x0
  refine keep_updPct ?_
  assumption

theorem keep_arrayAct {a0 : State} {a1 : Nat} {a2 : ArrayRun} {a3 : Activity} (g0 : Keep q a0) : Keep q (@State.arrayAct a0 a1 a2 a3) := by
  unfold State.arrayAct
  refine keep_setArray ?_
  refine keep_accountSlots ?_
  assumption

theorem keep_fetchTile {a0 : Ctx} {a1 : TD} {a2 : Nat} {a3 : Loaded × List (Nat × Nat × List Nat × List Byte)} {a4 : Nat} : KeepO (@fetchTile a0 a1 a2 a3 a4) := by
  unfold fetchTile
  refine keepO_ite (fun _ => ?_) (fun _ => ?_)
  · exact keepO_pure
  · split
    · exact keepO_pure
    · refine keepO_bind ?_ ?_
      · exact keep_checkTile
      · intro _
        extract_lets +onlyGivenNames -merge -useContext -underBinder x0
        try clear_value x0
        exact keepO_pure

theorem keep_AD_load {a0 : AD} {a1 : Ctx} {a2 : TD} {a3 : ArrayRun} : KeepO (@AD.load a0 a1 a2 a3) := by
  unfold AD.load
  extract_lets +onlyGivenNames -merge -useContext -underBinder x0
  try clear_value x0
  extract_lets +onlyGivenNames -merge -useContext -underBinder x1
  try clear_value x1
  refine keepO_bind ?_ ?_
  · refine keepO_foldlM ?_
    intro r2 _
    exact keep_fetchTile
  · intro r3
    extract_lets +onlyGivenNames -merge -useContext -underBinder x4
    try clear_value x4
    exact keepO_pure

theorem keep_onArray {a0 : State} {a1 : Nat} {a2 : Env} {a3 : Activity} {a4 : AD →   Ctx →     List TD →       ArrayRun → Op (ArrayRun × Option Fail)} {a5 : State → ArrayRun → State} (g0 : Keep q a0) (g4 : ∀ y0 y1 y2 y3, KeepO (a4 y0 y1 y2 y3)) (g5 : ∀ y0 y1, Keep q y0 → Keep q (a5 y0 y1)) : Keep q (@State.onArray a0 a1 a2 a3 a4 a5) := by
  unfold State.onArray
  split
  · refine keep_ite (fun _ => ?_) (fun _ => ?_)
    · assumption
    · extract_lets +onlyGivenNames -merge -useContext -underBinder x0
      have h0 : Keep q x0 := by
        unfold x0
        refine keep_onDp ?_ ?_
        · assumption
        · intro _ _
          refine keep_Dp_upsets ?_
          assumption
      try clear_value x0
      extract_lets +onlyGivenNames -merge -useContext -underBinder x1
      try clear_value x1
      extract_lets +onlyGivenNames -merge -useContext -underBinder x2
      try clear_value x2
      extract_lets +onlyGivenNames -merge -useContext -underBinder x3
      try clear_value x3
      extract_lets +onlyGivenNames -merge -useContext -underBinder x4
      have h4 : Keep q x4.1 := by
        unfold x4
        refine keep_runOp ?_ ?_
        · assumption
        · exact g4 _ _ _ _
      try clear_value x4
      split
      · refine keep_endArray ?_
        refine keep_arrayAct ?_
        assumption
      · refine keep_endArray ?_
        refine keep_arrayAct ?_
        assumption
      · refine g5 _ _ ?_
        refine keep_arrayAct ?_
        assumption
  · assumption

theorem keep_inputLoaded {a0 : State} {a1 : Nat} {a2 : Env} {a3 : Activity} (g0 : Keep q a0) : Keep q (@State.inputLoaded a0 a1 a2 a3) := by
  unfold State.inputLoaded
  split
  · refine keep_ite (fun _ => ?_) (fun _ => ?_)
    · assumption
    · refine keep_onArray ?_ ?_ ?_
      · assumption
      · intro _ _ _ _
        refine keepO_bind ?_ ?_
        · exact keep_AD_load
        · intro _
          exact keepO_pure
      · intro _ _ _
        assumption
  · assumption

theorem keep_execInputStageLoaded {a0 : Easel} {a1 : Env} {a2 : Activity} {a3 : State} (g3 : Keep q a3) : KeepX q (@execInputStageLoaded a0 a1 a2 a3) := by
  unfold execInputStageLoaded
  refine keepX_next ?_
  refine keep_inputLoaded ?_
  assumption

theorem keep_AD_readSpill {a0 : AD} {a1 : Ctx} {a2 : Nat} {a3 : Nat} {a4 : Nat} {a5 : Nat} : KeepO (@AD.readSpill a0 a1 a2 a3 a4 a5) := by
  unfold AD.readSpill
  extract_lets +onlyGivenNames -merge -useContext -underBinder x0
  try clear_value x0
  extract_lets +onlyGivenNames -merge -useContext -underBinder x1
  try clear_value x1
  refine keepO_bind ?_ ?_
  · refine keepO_tryCatch ?_ ?_
    · refine keepO_ite (fun _ => ?_) (fun _ => ?_)
      · exact keep_readKey
      · exact keep_readAt
    · intro _
      exact keep_failOp
  · intro _
    split
    · exact keepO_pure
    · exact keep_failOp

theorem keep_AD_writeSpill {a0 : AD} {a1 : Ctx} {a2 : Nat} {a3 : Nat} {a4 : Nat} {a5 : Nat} {a6 : Acc} : KeepO (@AD.writeSpill a0 a1 a2 a3 a4 a5 a6) := by
  unfold AD.writeSpill
  extract_lets +onlyGivenNames -merge -useContext -underBinder x0
  try clear_value x0
  extract_lets +onlyGivenNames -merge -useContext -underBinder x1
  try clear_value x1
  extract_lets +onlyGivenNames -merge -useContext -underBinder x2
  try clear_value x2
  refine keepO_tryCatch ?_ ?_
  · refine keepO_ite (fun _ => ?_) (fun _ => ?_)
    · exact keep_writeKey
    · exact keep_writeAt
  · intro _
    exact keep_failOp

theorem keep_AD_startGroup {a0 : AD} {a1 : Ctx} {a2 : Nat} {a3 : ArrayRun} : KeepO (@AD.startGroup a0 a1 a2 a3) := by
  unfold AD.startGroup
  refine keepO_ite (fun _ => ?_) (fun _ => ?_)
  · exact keepO_pure
  · refine keepO_ite (fun _ => ?_) (fun _ => ?_)
    · exact keepO_pure
    · refine keepO_bind ?_ ?_
      · refine keepO_mapM ?_
        intro _
        refine keepO_ite (fun _ => ?_) (fun _ => ?_)
        · refine keepO_bind ?_ ?_
          · exact keep_AD_readSpill
          · intro _
            exact keepO_pure
        · exact keepO_pure
      · intro _
        exact keepO_pure

theorem keep_AD_stream {a0 : AD} {a1 : Ctx} {a2 : TD} {a3 : Nat} {a4 : Nat} {a5 : ArrayRun} : KeepO (@AD.stream a0 a1 a2 a3 a4 a5) := by
  induction a4 generalizing a0 a1 a2 a3 a5 with
  | zero =>
    rw [AD.stream]
    exact keepO_pure
  | succ u1 ih =>
    rw [AD.stream]
    refine keepO_ite (fun _ => ?_) (fun _ => ?_)
    · exact keepO_pure
    · extract_lets +onlyGivenNames -merge -useContext -underBinder x0
      try clear_value x0
      extract_lets +onlyGivenNames -merge -useContext -underBinder x1
      try clear_value x1
      refine keepO_bind ?_ ?_
      · exact keep_fetchTile
      · intro r2
        apply ih

theorem keep_AD_slotStep {a0 : AD} {a1 : Ctx} {a2 : TD} {a3 : TD} {a4 : TD} {a5 : Nat} {a6 : ArrayRun} : KeepO (@AD.slotStep a0 a1 a2 a3 a4 a5 a6) := by
  unfold AD.slotStep
  extract_lets +onlyGivenNames -merge -useContext -underBinder x0
  try clear_value x0
  extract_lets +onlyGivenNames -merge -useContext -underBinder x1
  try clear_value x1
  refine keepO_ite (fun _ => ?_) (fun _ => ?_)
  · exact keepO_pure
  · refine keepO_bind ?_ ?_
    · refine keep_attempt ?_
      exact keep_AD_stream
    · intro _
      split
      · exact keepO_pure
      · extract_lets +onlyGivenNames -merge -useContext -underBinder x2
        try clear_value x2
        extract_lets +onlyGivenNames -merge -useContext -underBinder x3
        try clear_value x3
        extract_lets +onlyGivenNames -merge -useContext -underBinder x4
        try clear_value x4
        extract_lets +onlyGivenNames -merge -useContext -underBinder x5
        try clear_value x5
        extract_lets +onlyGivenNames -merge -useContext -underBinder x6
        try clear_value x6
        exact keepO_pure

theorem keep_AD_slots {a0 : AD} {a1 : Ctx} {a2 : TD} {a3 : TD} {a4 : TD} {a5 : Nat} {a6 : ArrayRun} {a7 : Nat} : KeepO (@AD.slots a0 a1 a2 a3 a4 a5 a6 a7) := by
  induction a7 generalizing a0 a1 a2 a3 a4 a5 a6 with
  | zero =>
    rw [AD.slots]
    exact keepO_pure
  | succ u1 ih =>
    rw [AD.slots]
    refine keepO_bind ?_ ?_
    · exact keep_AD_slotStep
    · intro r0
      refine keepO_ite (fun _ => ?_) (fun _ => ?_)
      · exact keepO_pure
      · apply ih

theorem keep_AD_runTo {a0 : AD} {a1 : Ctx} {a2 : Nat} {a3 : List TD} {a4 : ArrayRun} {a5 : Nat} {a6 : Nat} : KeepO (@AD.runTo a0 a1 a2 a3 a4 a5 a6) := by
  unfold AD.runTo
  refine keepO_bind ?_ ?_
  · refine keep_attempt ?_
    exact keep_AD_startGroup
  · intro _
    split
    · exact keepO_pure
    · exact keep_AD_slots

theorem keep_weightArrival {a0 : State} {a1 : Nat} {a2 : Nat} {a3 : Nat} {a4 : Env} {a5 : Activity} (g0 : Keep q a0) : Keep q (@State.weightArrival a0 a1 a2 a3 a4 a5) := by
  unfold State.weightArrival
  split
  · refine keep_ite (fun _ => ?_) (fun _ => ?_)
    · assumption
    · extract_lets +onlyGivenNames -merge -useContext -underBinder x0
      try clear_value x0
      refine keep_onArray ?_ ?_ ?_
      · assumption
      · intro _ _ _ _
        exact keep_AD_runTo
      · intro _ _ _
        assumption
  · assumption

theorem keep_execWeightBlockArrival {a0 : Easel} {a1 : Fin 4} {a2 : BitVec 8} {a3 : Env} {a4 : Activity} {a5 : State} (g5 : Keep q a5) : KeepX q (@execWeightBlockArrival a0 a1 a2 a3 a4 a5) := by
  unfold execWeightBlockArrival
  refine keepX_next ?_
  refine keep_weightArrival ?_
  assumption

theorem keep_tryEach {a0 : List (Op Unit)} (g0 : ∀ m ∈ a0, KeepO m) : KeepO (tryEach a0) := by
  induction a0 with
  | nil => exact keepO_pure
  | cons m r ih =>
    refine keepO_bind (keep_attempt (g0 m (List.mem_cons_self ..))) fun y => ?_
    split
    · exact keepO_pure
    · exact keepO_bind (ih fun x hx => g0 x (List.mem_cons_of_mem _ hx)) fun _ => keepO_pure

theorem keep_AD_stageGroup {a0 : AD} {a1 : Ctx} {a2 : Nat} {a3 : ArrayRun} : KeepO (a0.stageGroup a1 a2 a3) := by
  unfold AD.stageGroup
  refine keepO_bind (keep_tryEach fun m hm => ?_) fun _ => ?_
  · split at hm
    · obtain ⟨n, -, rfl⟩ := List.mem_map.1 hm
      exact keep_AD_writeSpill
    · exact absurd hm (by simp)
  · exact keepO_ite (fun _ => keepO_pure) fun _ => keepO_pure

theorem keep_groupComplete {a0 : State} {a1 : Nat} {a2 : Env} {a3 : Activity} (g0 : Keep q a0) : Keep q (@State.groupComplete a0 a1 a2 a3) := by
  unfold State.groupComplete
  split
  · refine keep_ite (fun _ => ?_) (fun _ => ?_)
    · assumption
    · refine keep_onArray ?_ ?_ ?_
      · assumption
      · intro _ _ _ _
        refine keepO_bind ?_ ?_
        · exact keep_AD_runTo
        · intro r0
          refine keepO_ite (fun _ => ?_) (fun _ => ?_)
          · exact keepO_pure
          · exact keep_AD_stageGroup
      · intro _ _ _
        refine keep_progress ?_
        assumption
  · assumption

theorem keep_execColumnGroupComplete {a0 : Easel} {a1 : Env} {a2 : Activity} {a3 : State} (g3 : Keep q a3) : KeepX q (@execColumnGroupComplete a0 a1 a2 a3) := by
  unfold execColumnGroupComplete
  refine keepX_next ?_
  refine keep_groupComplete ?_
  assumption

theorem keep_writeBlock {a0 : Ctx} {a1 : TD} {a2 : Nat} {a3 : BlockOut} : KeepO (@writeBlock a0 a1 a2 a3) := by
  unfold writeBlock
  extract_lets +onlyGivenNames -merge -useContext -underBinder x0
  try clear_value x0
  refine keepO_ite (fun _ => ?_) (fun _ => ?_)
  · exact keep_writeTilePart
  · refine keepO_bind ?_ ?_
    · exact keep_writeTilePart
    · intro _
      exact keep_writeTilePart

theorem keep_AD_afterBank {a0 : AD} {a1 : Ctx} {a2 : TD} {a3 : TD} {a4 : ArrayRun} {a5 : List BlockOut} : KeepO (@AD.afterBank a0 a1 a2 a3 a4 a5) := by
  unfold AD.afterBank
  refine keepO_bind ?_ ?_
  · exact keep_censusUpdate
  · intro _
    refine keepO_ite (fun _ => ?_) (fun _ => ?_)
    · refine keepO_forM ?_
      intro _
      exact keep_writeAt
    · exact keepO_pure

theorem keep_AD_writeBank {a0 : AD} {a1 : Ctx} {a2 : List TD} {a3 : ArrayRun} : KeepO (@AD.writeBank a0 a1 a2 a3) := by
  unfold AD.writeBank
  extract_lets +onlyGivenNames -merge -useContext -underBinder x0
  try clear_value x0
  extract_lets +onlyGivenNames -merge -useContext -underBinder x1
  try clear_value x1
  extract_lets +onlyGivenNames -merge -useContext -underBinder x2
  try clear_value x2
  extract_lets +onlyGivenNames -merge -useContext -underBinder x3
  try clear_value x3
  extract_lets +onlyGivenNames -merge -useContext -underBinder x4
  try clear_value x4
  extract_lets +onlyGivenNames -merge -useContext -underBinder x5
  try clear_value x5
  refine keepO_ite (fun _ => ?_) (fun _ => ?_)
  · exact keepO_pure
  · extract_lets +onlyGivenNames -merge -useContext -underBinder x6
    try clear_value x6
    extract_lets +onlyGivenNames -merge -useContext -underBinder x7
    try clear_value x7
    extract_lets +onlyGivenNames -merge -useContext -underBinder x8
    try clear_value x8
    extract_lets +onlyGivenNames -merge -useContext -underBinder x9
    try clear_value x9
    extract_lets +onlyGivenNames -merge -useContext -underBinder x10
    try clear_value x10
    refine keepO_bind ?_ ?_
    · refine keep_tryEach fun m hm => ?_
      obtain ⟨x, -, rfl⟩ := List.mem_map.1 hm
      exact keep_writeBlock
    · intro r11
      extract_lets +onlyGivenNames -merge -useContext -underBinder x12
      try clear_value x12
      refine keepO_ite (fun _ => ?_) (fun _ => ?_)
      · exact keepO_pure
      · refine keepO_bind ?_ ?_
        · refine keep_attempt ?_
          exact keep_AD_afterBank
        · intro _
          split
          · exact keepO_pure
          · exact keepO_pure

theorem keep_bankWritten {a0 : State} {a1 : Nat} {a2 : Env} {a3 : Activity} (g0 : Keep q a0) : Keep q (@State.bankWritten a0 a1 a2 a3) := by
  unfold State.bankWritten
  split
  · refine keep_ite (fun _ => ?_) (fun _ => ?_)
    · assumption
    · refine keep_onArray ?_ ?_ ?_
      · assumption
      · intro _ _ _ _
        exact keep_AD_writeBank
      · intro _ _ _
        extract_lets +onlyGivenNames -merge -useContext -underBinder x0
        have h0 : Keep q x0 := by
          unfold x0
          refine keep_progress ?_
          assumption
        try clear_value x0
        refine keep_ite (fun _ => ?_) (fun _ => ?_)
        · refine keep_endArray ?_
          assumption
        · assumption
  · assumption

theorem keep_execStagingBankWritten {a0 : Easel} {a1 : Env} {a2 : Activity} {a3 : State} (g3 : Keep q a3) : KeepX q (@execStagingBankWritten a0 a1 a2 a3) := by
  unfold execStagingBankWritten
  refine keepX_next ?_
  refine keep_bankWritten ?_
  assumption

end Sys2Proof.Laws
end

