-- ==== Sys2Proof/Laws/KeepTrellis.lean ====
section
/-! SUPPORT. What each operation of Machine/Trellis.lean keeps: the queue and the invariant of Safety.lean, or the canonical form of memory. -/
namespace Sys2Proof.Laws
open Sys2Proof Sys2Proof.Machine
variable {q : List Instr}

theorem keep_TrD_loadImage {a0 : TrD} {a1 : Ctx} {a2 : Nat} : KeepO (@TrD.loadImage a0 a1 a2) := by
  unfold TrD.loadImage
  extract_lets +onlyGivenNames -merge -useContext -underBinder x0
  have h0 : ∀ y0 y1 y2, KeepO (@x0 y0 y1 y2) := by
    intro _ _ _
    unfold x0
    try dsimp -zeta only
    exact keep_failOp
  try clear_value x0
  refine keepO_bind ?_ ?_
  · refine keepO_tryCatch ?_ ?_
    · exact keep_readAt
    · intro _
      exact keep_failOp
  · intro _
    extract_lets +onlyGivenNames -merge -useContext -underBinder x1
    try clear_value x1
    refine keepO_ite (fun _ => ?_) (fun _ => ?_)
    · exact h0 _ _ _
    · refine keepO_bind ?_ ?_
      · refine keepO_tryCatch ?_ ?_
        · exact keep_readAt
        · intro _
          exact keep_failOp
      · intro _
        extract_lets +onlyGivenNames -merge -useContext -underBinder x2
        try clear_value x2
        refine keepO_ite (fun _ => ?_) (fun _ => ?_)
        · exact h0 _ _ _
        · refine keepO_ite (fun _ => ?_) (fun _ => ?_)
          · exact h0 _ _ _
          · split
            · exact h0 _ _ _
            · exact keepO_pure

theorem keep_imageLoad {a0 : State} {a1 : Nat} {a2 : Env} (g0 : Keep q a0) : Keep q (@State.imageLoad a0 a1 a2) := by
  unfold State.imageLoad
  extract_lets +onlyGivenNames -merge -useContext -underBinder x0
  try clear_value x0
  split
  · assumption
  · extract_lets +onlyGivenNames -merge -useContext -underBinder x1
    try clear_value x1
    refine keep_ite (fun _ => ?_) (fun _ => ?_)
    · assumption
    · extract_lets +onlyGivenNames -merge -useContext -underBinder x2
      have h2 : Keep q x2 := by
        unfold x2
        refine keep_onDp ?_ ?_
        · assumption
        · intro _ _
          refine keep_Dp_upsets ?_
          assumption
      try clear_value x2
      extract_lets +onlyGivenNames -merge -useContext -underBinder x3
      try clear_value x3
      extract_lets +onlyGivenNames -merge -useContext -underBinder x4
      have h4 : ∀ y0 y1, Keep q (@x4 y0 y1) := by
        intro _ _
        unfold x4
        try dsimp -zeta only
        refine keep_complete ?_
        assumption
      try clear_value x4
      refine keep_ite (fun _ => ?_) (fun _ => ?_)
      · exact h4 _ _
      · refine keep_ite (fun _ => ?_) (fun _ => ?_)
        · exact h4 _ _
        · refine keep_ite (fun _ => ?_) (fun _ => ?_)
          · exact h4 _ _
          · extract_lets +onlyGivenNames -merge -useContext -underBinder x5
            have h5 : Keep q x5.1 := by
              unfold x5
              refine keep_runOp ?_ ?_
              · assumption
              · exact keep_TrD_loadImage
            try clear_value x5
            split
            · refine keep_complete ?_
              assumption
            · refine keep_complete ?_
              refine keep_updTrellis ?_
              assumption

theorem keep_execTrellisImageLoad {a0 : Easel} {a1 : Env} {a2 : State} (g2 : Keep q a2) : KeepX q (@execTrellisImageLoad a0 a1 a2) := by
  unfold execTrellisImageLoad
  refine keepX_next ?_
  refine keep_imageLoad ?_
  assumption

theorem keep_TrD_fetch {a0 : TrD} {a1 : Ctx} : KeepO (@TrD.fetch a0 a1) := by
  unfold TrD.fetch
  refine keepO_bind ?_ ?_
  · refine keepO_mapM ?_
    intro _
    refine keepO_ite (fun _ => ?_) (fun _ => ?_)
    · exact keep_takeTD
    · exact keepO_pure
  · intro _
    refine keepO_bind ?_ ?_
    · refine keepO_mapM ?_
      intro _
      refine keepO_ite (fun _ => ?_) (fun _ => ?_)
      · exact keep_takeTD
      · exact keepO_pure
    · intro _
      exact keepO_pure

theorem keep_TrD_planOf {a0 : TrD} {a1 : Ctx} {a2 : Addr} {a3 : List TD} : KeepO (@TrD.planOf a0 a1 a2 a3) := by
  unfold TrD.planOf
  extract_lets +onlyGivenNames -merge -useContext -underBinder x0
  try clear_value x0
  extract_lets +onlyGivenNames -merge -useContext -underBinder x1
  try clear_value x1
  extract_lets +onlyGivenNames -merge -useContext -underBinder x2
  have h2 : ∀ y0, KeepO (@x2 y0) := by
    intro _
    unfold x2
    try dsimp -zeta only
    refine keepO_bind ?_ ?_
    · refine keepO_mapM ?_
      intro _
      extract_lets +onlyGivenNames -merge -useContext -underBinder x3
      try clear_value x3
      refine keepO_ite (fun _ => ?_) (fun _ => ?_)
      · refine keepO_bind ?_ ?_
        · exact keep_takeTable
        · intro _
          exact keepO_pure
      · exact keepO_pure
    · intro _
      extract_lets +onlyGivenNames -merge -useContext -underBinder x4
      have h4 : ∀ y0, KeepO (@x4 y0) := by
        intro _
        unfold x4
        try dsimp -zeta only
        refine keepO_bind ?_ ?_
        · refine keepO_mapM ?_
          intro _
          refine keepO_ite (fun _ => ?_) (fun _ => ?_)
          · refine keepO_bind ?_ ?_
            · exact keep_takeSr
            · intro _
              exact keepO_pure
          · exact keepO_pure
        · intro _
          extract_lets +onlyGivenNames -merge -useContext -underBinder x5
          try clear_value x5
          extract_lets +onlyGivenNames -merge -useContext -underBinder x6
          try clear_value x6
          extract_lets +onlyGivenNames -merge -useContext -underBinder x7
          have h7 : ∀ y0, KeepO (@x7 y0) := by
            intro _
            unfold x7
            try dsimp -zeta only
            extract_lets +onlyGivenNames -merge -useContext -underBinder x8
            try clear_value x8
            refine keepO_get ?_
            intro _ _
            refine keepO_ite (fun _ => ?_) (fun _ => ?_)
            · exact keep_failOp
            · exact keepO_pure
          try clear_value x7
          split
          · refine keepO_ite (fun _ => ?_) (fun _ => ?_)
            · refine keepO_bind ?_ ?_
              · exact keep_failOp
              · intro _
                exact h7 _
            · exact h7 _
          · exact h7 _
      try clear_value x4
      split
      · refine keepO_bind ?_ ?_
        · exact keep_failOp
        · intro _
          exact h4 _
      · exact h4 _
  try clear_value x2
  split
  · refine keepO_bind ?_ ?_
    · exact keep_failOp
    · intro _
      exact h2 _
  · exact h2 _

theorem keep_TrD_plan {a0 : TrD} {a1 : Ctx} {a2 : Addr} {a3 : List TD} : KeepO (@TrD.plan a0 a1 a2 a3) := by
  unfold TrD.plan
  refine keepO_ite (fun _ => ?_) (fun _ => ?_)
  · exact keepO_pure
  · exact keep_TrD_planOf

theorem keep_startRun {a0 : State} {a1 : Nat} {a2 : TrD} {a3 : TrellisRun} {a4 : Env} (g0 : Keep q a0) : Keep q (@State.startRun a0 a1 a2 a3 a4) := by
  unfold State.startRun
  extract_lets +onlyGivenNames -merge -useContext -underBinder x0
  try clear_value x0
  extract_lets +onlyGivenNames -merge -useContext -underBinder x1
  have h1 : Keep q x1 := by
    unfold x1
    refine keep_updTrellis ?_
    assumption
  try clear_value x1
  refine keep_ite (fun _ => ?_) (fun _ => ?_)
  · refine keep_endTrellis ?_
    assumption
  · assumption

theorem keep_runFenced {a0 : State} {a1 : Nat} {a2 : Active} {a3 : Env} {a4 : TrellisRun} (g0 : Keep q a0) : Keep q (@State.runFenced a0 a1 a2 a3 a4) := by
  unfold State.runFenced
  extract_lets +onlyGivenNames -merge -useContext -underBinder x0
  try clear_value x0
  split
  · refine keep_ite (fun _ => ?_) (fun _ => ?_)
    · refine keep_startRun ?_
      assumption
    · refine keep_complete ?_
      refine keep_updTrellis ?_
      assumption
  · refine keep_updTrellis ?_
    assumption

theorem keep_runChecked {a0 : State} {a1 : Nat} {a2 : Active} {a3 : Env} (g0 : Keep q a0) : Keep q (@State.runChecked a0 a1 a2 a3) := by
  unfold State.runChecked
  extract_lets +onlyGivenNames -merge -useContext -underBinder x0
  try clear_value x0
  extract_lets +onlyGivenNames -merge -useContext -underBinder x1
  try clear_value x1
  extract_lets +onlyGivenNames -merge -useContext -underBinder x2
  try clear_value x2
  extract_lets +onlyGivenNames -merge -useContext -underBinder x3
  have h3 : Keep q x3.1 := by
    unfold x3
    refine keep_runOp ?_ ?_
    · assumption
    · refine keepO_bind ?_ ?_
      · exact keep_TrD_fetch
      · intro _
        refine keepO_bind ?_ ?_
        · exact keep_TrD_plan
        · intro _
          exact keepO_pure
  try clear_value x3
  split
  · refine keep_complete ?_
    assumption
  · extract_lets +onlyGivenNames -merge -useContext -underBinder x4
    have h4 : Keep q x4 := by
      unfold x4
      refine keep_updCur ?_
      assumption
    try clear_value x4
    refine keep_ite (fun _ => ?_) (fun _ => ?_)
    · refine keep_complete ?_
      assumption
    · refine keep_ite (fun _ => ?_) (fun _ => ?_)
      · refine keep_startRun ?_
        assumption
      · refine keep_runFenced ?_
        assumption

theorem keep_trellisRun {a0 : State} {a1 : Nat} {a2 : Env} (g0 : Keep q a0) : Keep q (@State.trellisRun a0 a1 a2) := by
  unfold State.trellisRun
  extract_lets +onlyGivenNames -merge -useContext -underBinder x0
  try clear_value x0
  split
  · assumption
  · extract_lets +onlyGivenNames -merge -useContext -underBinder x1
    try clear_value x1
    refine keep_ite (fun _ => ?_) (fun _ => ?_)
    · assumption
    · extract_lets +onlyGivenNames -merge -useContext -underBinder x2
      have h2 : Keep q x2 := by
        unfold x2
        refine keep_onDp ?_ ?_
        · assumption
        · intro _ _
          refine keep_Dp_upsets ?_
          assumption
      try clear_value x2
      extract_lets +onlyGivenNames -merge -useContext -underBinder x3
      try clear_value x3
      extract_lets +onlyGivenNames -merge -useContext -underBinder x4
      have h4 : ∀ y0 y1, Keep q (@x4 y0 y1) := by
        intro _ _
        unfold x4
        try dsimp -zeta only
        refine keep_complete ?_
        assumption
      try clear_value x4
      split
      · exact h4 _ _
      · refine keep_ite (fun _ => ?_) (fun _ => ?_)
        · refine keep_complete ?_
          assumption
        · split
          · exact h4 _ _
          · split
            · exact h4 _ _
            · refine keep_ite (fun _ => ?_) (fun _ => ?_)
              · exact h4 _ _
              · split
                · exact h4 _ _
                · refine keep_runChecked ?_
                  assumption

theorem keep_execTrellisRun {a0 : Easel} {a1 : Env} {a2 : State} (g2 : Keep q a2) : KeepX q (@execTrellisRun a0 a1 a2) := by
  unfold execTrellisRun
  refine keepX_next ?_
  refine keep_trellisRun ?_
  assumption

theorem keep_trellisRelease {a0 : State} {a1 : Nat} {a2 : Env} (g0 : Keep q a0) : Keep q (@State.trellisRelease a0 a1 a2) := by
  unfold State.trellisRelease
  extract_lets +onlyGivenNames -merge -useContext -underBinder x0
  try clear_value x0
  split
  · refine keep_ite (fun _ => ?_) (fun _ => ?_)
    · assumption
    · refine keep_around ?_ ?_
      · assumption
      · intro _ _ _
        refine keep_runFenced ?_
        assumption
  · assumption

theorem keep_execTrellisFenceRelease {a0 : Easel} {a1 : Env} {a2 : State} (g2 : Keep q a2) : KeepX q (@execTrellisFenceRelease a0 a1 a2) := by
  unfold execTrellisFenceRelease
  refine keepX_next ?_
  refine keep_trellisRelease ?_
  assumption

theorem keep_readLanes {a0 : Ctx} {a1 : TD} {a2 : List Int} {a3 : Nat} {a4 : Nat} : KeepO (@readLanes a0 a1 a2 a3 a4) := by
  unfold readLanes
  extract_lets +onlyGivenNames -merge -useContext -underBinder x0
  try clear_value x0
  refine keepO_bind ?_ ?_
  · exact keep_loadTiles
  · intro _
    split
    · exact keep_failOp
    · exact keepO_pure

theorem keep_TrD_record {a0 : TrD} {a1 : Ctx} {a2 : Nat} {a3 : Nat} : KeepO (@TrD.record a0 a1 a2 a3) := by
  unfold TrD.record
  exact keep_readAt

theorem keep_TrD_badRecord {a0 : Type} {a1 : TrD} {a2 : Nat} {a3 : Nat} : KeepO (@TrD.badRecord a0 a1 a2 a3) := by
  unfold TrD.badRecord
  exact keep_failOp

theorem keep_TrD_rowValue {a0 : TrD} {a1 : Ctx} {a2 : List TD} {a3 : Nat} {a4 : Nat} : KeepO (@TrD.rowValue a0 a1 a2 a3 a4) := by
  unfold TrD.rowValue
  extract_lets +onlyGivenNames -merge -useContext -underBinder x0
  try clear_value x0
  refine keepO_ite (fun _ => ?_) (fun _ => ?_)
  · refine keepO_bind ?_ ?_
    · exact keep_readLanes
    · intro _
      exact keepO_pure
  · refine keepO_bind ?_ ?_
    · exact keep_TrD_record
    · intro _
      extract_lets +onlyGivenNames -merge -useContext -underBinder x1
      try clear_value x1
      extract_lets +onlyGivenNames -merge -useContext -underBinder x2
      try clear_value x2
      split
      · split
        · exact keepO_pure
        · exact keep_TrD_badRecord

theorem keep_TrD_adaptImage {a0 : TrD} {a1 : Ctx} {a2 : Nat} {a3 : Nat} {a4 : Nat} {a5 : Option (List Byte)} : KeepO (@TrD.adaptImage a0 a1 a2 a3 a4 a5) := by
  unfold TrD.adaptImage
  refine keepO_bind ?_ ?_
  · exact keep_TrD_record
  · intro _
    extract_lets +onlyGivenNames -merge -useContext -underBinder x0
    try clear_value x0
    split
    · extract_lets +onlyGivenNames -merge -useContext -underBinder x1
      try clear_value x1
      refine keepO_ite (fun _ => ?_) (fun _ => ?_)
      · exact keep_TrD_badRecord
      · split
        · exact keepO_pure
        · exact keep_TrD_badRecord

theorem keep_tailStroke {a0 : TrD} {a1 : Ctx} {a2 : Image} {a3 : List Nat} {a4 : Nat} {a5 : TailRun} {a6 : Stroke} : KeepO (@tailStroke a0 a1 a2 a3 a4 a5 a6) := by
  unfold tailStroke
  refine keepO_ite (fun _ => ?_) (fun _ => ?_)
  · extract_lets +onlyGivenNames -merge -useContext -underBinder x0
    try clear_value x0
    refine keepO_bind ?_ ?_
    · exact keep_TrD_adaptImage
    · intro r1
      extract_lets +onlyGivenNames -merge -useContext -underBinder x2
      try clear_value x2
      extract_lets +onlyGivenNames -merge -useContext -underBinder x3
      try clear_value x3
      exact keepO_pure
  · refine keepO_ite (fun _ => ?_) (fun _ => ?_)
    · extract_lets +onlyGivenNames -merge -useContext -underBinder x4
      try clear_value x4
      exact keepO_pure
    · split
      · exact keepO_pure
      · exact keepO_pure

theorem keep_writeBlocks {a0 : Ctx} {a1 : TD} {a2 : List (Nat × BlockOut)} : KeepO (@writeBlocks a0 a1 a2) := by
  induction a2 generalizing a0 a1 with
  | nil =>
    rw [writeBlocks]
    exact keepO_pure
  | cons u1 u2 ih =>
    rw [writeBlocks]
    refine keepO_bind ?_ ?_
    · exact keep_writeBlock
    · intro _
      refine keep_afterWrite ?_
      apply ih

theorem keep_writeValues {a0 : Ctx} {a1 : TD} {a2 : Option SrCtx} {a3 : Nat} {a4 : List Nat} : KeepO (@writeValues a0 a1 a2 a3 a4) := by
  unfold writeValues
  refine keepO_ite (fun _ => ?_) (fun _ => ?_)
  · exact keepO_pure
  · extract_lets +onlyGivenNames -merge -useContext -underBinder x0
    try clear_value x0
    extract_lets +onlyGivenNames -merge -useContext -underBinder x1
    try clear_value x1
    refine keepO_bind ?_ ?_
    · exact keep_writeBlocks
    · intro _
      refine keep_afterWrite ?_
      exact keep_censusUpdate

theorem keep_TrD_sweep {a0 : TrD} {a1 : Ctx} {a2 : Image} {a3 : List TD} {a4 : TrellisRun} {a5 : List (Acc × Acc)} : KeepO (@TrD.sweep a0 a1 a2 a3 a4 a5) := by
  unfold TrD.sweep
  extract_lets +onlyGivenNames -merge -useContext -underBinder x0
  try clear_value x0
  extract_lets +onlyGivenNames -merge -useContext -underBinder x1
  try clear_value x1
  refine keepO_bind ?_ ?_
  · refine keepO_mapM ?_
    intro _
    refine keepO_ite (fun _ => ?_) (fun _ => ?_)
    · exact keepO_pure
    · refine keepO_ite (fun _ => ?_) (fun _ => ?_)
      · exact keep_readLanes
      · refine keepO_bind ?_ ?_
        · exact keep_TrD_rowValue
        · intro _
          exact keepO_pure
  · intro _
    extract_lets +onlyGivenNames -merge -useContext -underBinder x2
    try clear_value x2
    extract_lets +onlyGivenNames -merge -useContext -underBinder x3
    try clear_value x3
    extract_lets +onlyGivenNames -merge -useContext -underBinder x4
    have h4 : ∀ y0, KeepO (@x4 y0) := by
      intro _
      unfold x4
      try dsimp -zeta only
      refine keepO_ite (fun _ => ?_) (fun _ => ?_)
      · exact keep_writeValues
      · exact keepO_pure
    try clear_value x4
    refine keepO_bind ?_ ?_
    · exact h4 _
    · intro _
      refine keepO_bind ?_ ?_
      · refine keepO_ite (fun _ => ?_) (fun _ => ?_)
        · refine keep_afterWrite ?_
          exact h4 _
        · exact h4 _
      · intro _
        exact keepO_pure

theorem keep_TrD_tail {a0 : TrD} {a1 : Ctx} {a2 : Image} {a3 : List TD} {a4 : TrellisRun} {a5 : List (Acc × Acc)} : KeepO (@TrD.tail a0 a1 a2 a3 a4 a5) := by
  unfold TrD.tail
  refine keepO_bind ?_ ?_
  · refine keepO_mapM ?_
    intro _
    refine keepO_ite (fun _ => ?_) (fun _ => ?_)
    · exact keep_TrD_rowValue
    · exact keepO_pure
  · intro _
    refine keepO_bind ?_ ?_
    · refine keepO_foldlM ?_
      intro _ _
      exact keep_tailStroke
    · intro _
      extract_lets +onlyGivenNames -merge -useContext -underBinder x0
      try clear_value x0
      extract_lets +onlyGivenNames -merge -useContext -underBinder x1
      try clear_value x1
      extract_lets +onlyGivenNames -merge -useContext -underBinder x2
      try clear_value x2
      extract_lets +onlyGivenNames -merge -useContext -underBinder x3
      have h3 : ∀ y0, KeepO (@x3 y0) := by
        intro _
        unfold x3
        try dsimp -zeta only
        exact keepO_pure
      try clear_value x3
      refine keepO_ite (fun _ => ?_) (fun _ => ?_)
      · refine keepO_bind ?_ ?_
        · exact keep_writeAt
        · intro _
          exact h3 _
      · exact h3 _

theorem keep_TrD_rowOuts {a0 : TrD} {a1 : Ctx} {a2 : List TD} {a3 : TrellisRun} {a4 : List Nat} : KeepO (@TrD.rowOuts a0 a1 a2 a3 a4) := by
  unfold TrD.rowOuts
  refine keepO_mapM ?_
  intro _
  refine keepO_ite (fun _ => ?_) (fun _ => ?_)
  · extract_lets +onlyGivenNames -merge -useContext -underBinder x0
    try clear_value x0
    refine keepO_ite (fun _ => ?_) (fun _ => ?_)
    · refine keepO_bind ?_ ?_
      · exact keep_writeValues
      · intro _
        exact keepO_pure
    · exact keepO_pure
  · exact keepO_pure

theorem keep_onTrellis {a0 : State} {a1 : Nat} {a2 : Env} {a3 : Activity} {a4 : State →   Active →     TrD →       Image →         Ctx → TrellisRun → Env → State} (g0 : Keep q a0) (g4 : ∀ y0 y1 y2 y3 y4 y5 y6, Keep q y0 → Keep q (a4 y0 y1 y2 y3 y4 y5 y6)) : Keep q (@State.onTrellis a0 a1 a2 a3 a4) := by
  unfold State.onTrellis
  extract_lets +onlyGivenNames -merge -useContext -underBinder x0
  try clear_value x0
  split
  · refine keep_ite (fun _ => ?_) (fun _ => ?_)
    · assumption
    · extract_lets +onlyGivenNames -merge -useContext -underBinder x1
      have h1 : Keep q x1 := by
        unfold x1
        refine keep_accountSlots ?_
        refine keep_onDp ?_ ?_
        · assumption
        · intro _ _
          refine keep_Dp_upsets ?_
          assumption
      try clear_value x1
      extract_lets +onlyGivenNames -merge -useContext -underBinder x2
      try clear_value x2
      extract_lets +onlyGivenNames -merge -useContext -underBinder x3
      try clear_value x3
      refine g4 _ _ _ _ _ _ _ ?_
      assumption
  · assumption

theorem keep_trellisSweep {a0 : State} {a1 : Nat} {a2 : Env} {a3 : Activity} (g0 : Keep q a0) : Keep q (@State.trellisSweep a0 a1 a2 a3) := by
  unfold State.trellisSweep
  refine keep_onTrellis ?_ ?_
  · assumption
  · intro _ _ _ _ _ _ _ _
    refine keep_ite (fun _ => ?_) (fun _ => ?_)
    · assumption
    · extract_lets +onlyGivenNames -merge -useContext -underBinder x0
      have h0 : Keep q x0.1 := by
        unfold x0
        refine keep_runOp ?_ ?_
        · assumption
        · exact keep_TrD_sweep
      try clear_value x0
      split
      · refine keep_endTrellis ?_
        assumption
      · extract_lets +onlyGivenNames -merge -useContext -underBinder x1
        try clear_value x1
        extract_lets +onlyGivenNames -merge -useContext -underBinder x2
        have h2 : Keep q x2 := by
          unfold x2
          refine keep_updTrellis ?_
          assumption
        try clear_value x2
        refine keep_ite (fun _ => ?_) (fun _ => ?_)
        · refine keep_progress ?_
          assumption
        · assumption

theorem keep_execTrellisSweep {a0 : Easel} {a1 : Env} {a2 : Activity} {a3 : State} (g3 : Keep q a3) : KeepX q (@execTrellisSweep a0 a1 a2 a3) := by
  unfold execTrellisSweep
  refine keepX_next ?_
  refine keep_trellisSweep ?_
  assumption

theorem keep_sampleRows {a0 : State} {a1 : Nat} {a2 : Active} {a3 : BitVec 32} {a4 : TrD} {a5 : TrellisRun} {a6 : Bool} (g0 : Keep q a0) : Keep q (@State.sampleRows a0 a1 a2 a3 a4 a5 a6) := by
  unfold State.sampleRows
  extract_lets +onlyGivenNames -merge -useContext -underBinder x0
  try clear_value x0
  refine keep_ite (fun _ => ?_) (fun _ => ?_)
  · refine keep_sampleUnit ?_
    assumption
  · assumption

theorem keep_trellisRowEnd {a0 : State} {a1 : Nat} {a2 : BitVec 32} {a3 : Env} {a4 : Activity} (g0 : Keep q a0) : Keep q (@State.trellisRowEnd a0 a1 a2 a3 a4) := by
  unfold State.trellisRowEnd
  refine keep_onTrellis ?_ ?_
  · assumption
  · intro _ _ _ _ _ _ _ _
    refine keep_ite (fun _ => ?_) (fun _ => ?_)
    · assumption
    · extract_lets +onlyGivenNames -merge -useContext -underBinder x0
      have h0 : Keep q x0.1 := by
        unfold x0
        refine keep_runOp ?_ ?_
        · assumption
        · refine keepO_bind ?_ ?_
          · exact keep_TrD_tail
          · intro r1
            refine keepO_bind ?_ ?_
            · refine keepO_ite (fun _ => ?_) (fun _ => ?_)
              · exact keep_TrD_rowOuts
              · refine keep_afterWrite ?_
                exact keep_TrD_rowOuts
            · intro _
              exact keepO_pure
      try clear_value x0
      split
      · refine keep_endTrellis ?_
        assumption
      · extract_lets +onlyGivenNames -merge -useContext -underBinder x2
        try clear_value x2
        extract_lets +onlyGivenNames -merge -useContext -underBinder x3
        have h3 : Keep q x3 := by
          unfold x3
          refine keep_updTrellis ?_
          assumption
        try clear_value x3
        extract_lets +onlyGivenNames -merge -useContext -underBinder x4
        have h4 : Keep q x4 := by
          unfold x4
          refine keep_sampleRows ?_
          refine keep_progress ?_
          assumption
        try clear_value x4
        refine keep_ite (fun _ => ?_) (fun _ => ?_)
        · refine keep_endTrellis ?_
          assumption
        · assumption

theorem keep_execTrellisRowEnd {a0 : Easel} {a1 : BitVec 32} {a2 : Env} {a3 : Activity} {a4 : State} (g4 : Keep q a4) : KeepX q (@execTrellisRowEnd a0 a1 a2 a3 a4) := by
  unfold execTrellisRowEnd
  refine keepX_next ?_
  refine keep_trellisRowEnd ?_
  assumption

end Sys2Proof.Laws
end

