-- ==== Sys2Proof/Laws/KeepPost.lean ====
section
/-! SUPPORT. What each operation of Machine/Post.lean keeps: the queue and the invariant of Safety.lean, or the canonical form of memory. -/
namespace Sys2Proof.Laws
open Sys2Proof Sys2Proof.Machine
variable {q : List Instr}

theorem keep_countPost {a0 : State} {a1 : Nat} {a2 : Tag} {a3 : Bool} {a4 : Env} (g0 : Keep q a0) : Keep q (@State.countPost a0 a1 a2 a3 a4) := by
  unfold State.countPost
  extract_lets +onlyGivenNames -merge -useContext -underBinder x0
  have h0 : Keep q x0 := by
    unfold x0
    refine keep_updWet ?_
    assumption
  try clear_value x0
  refine keep_ite (fun _ => ?_) (fun _ => ?_)
  · refine keep_closeEpoch ?_
    assumption
  · assumption

theorem keep_nodeReady {a0 : State} {a1 a2 : Nat} {a3 : Tag} {a4 : Addr} {a5 : Env} (g0 : Keep q a0) : Keep q (a0.nodeReady a1 a2 a3 a4 a5).1 := by
  unfold State.nodeReady
  split
  · exact g0
  · extract_lets +onlyGivenNames -merge -useContext -underBinder step
    refine keep1_ite (fun _ => g0) fun _ => keep1_ite (fun _ => g0) fun _ => ?_
    extract_lets +onlyGivenNames -merge -useContext -underBinder r
    have hr : Keep q r.1 := keep_runOp g0 keep_Job_startLocal
    clear_value r
    split
    · exact keep_noteScales hr
    · exact hr
    · dsimp only
      exact keep_opFailure (keep_updWet hr)

theorem keep_postEngine {a0 : State} {a1 : Nat} {a2 : Nat} {a3 : Addr} {a4 : Tag} {a5 : BitVec 8} {a6 : Bool} {a7 : Env} (g0 : Keep q a0) : Keep q (@State.postEngine a0 a1 a2 a3 a4 a5 a6 a7) := by
  unfold State.postEngine
  extract_lets +onlyGivenNames -merge -useContext -underBinder x0
  try clear_value x0
  extract_lets +onlyGivenNames -merge -useContext -underBinder x1
  try clear_value x1
  extract_lets +onlyGivenNames -merge -useContext -underBinder x2
  try clear_value x2
  refine keep_ite (fun _ => ?_) (fun _ => ?_)
  · assumption
  · extract_lets +onlyGivenNames -merge -useContext -underBinder x3
    have h3 : Keep q x3.1 := by
      unfold x3
      refine keep_readRing ?_
      assumption
    try clear_value x3
    split
    · assumption
    · refine keep_ite (fun _ => ?_) (fun _ => ?_)
      · assumption
      · extract_lets +onlyGivenNames -merge -useContext -underBinder x4
        have h4 : Keep q x4.1 := by
          unfold x4
          split
          · refine keep_nodeReady ?_
            assumption
          · show Keep q _
            assumption
        try clear_value x4
        refine keep_ite (fun _ => ?_) (fun _ => ?_)
        · assumption
        · extract_lets +onlyGivenNames -merge -useContext -underBinder x5
          try clear_value x5
          extract_lets +onlyGivenNames -merge -useContext -underBinder x6
          have h6 : Keep q x6 := by
            unfold x6
            refine keep_writeRing ?_
            assumption
          try clear_value x6
          extract_lets +onlyGivenNames -merge -useContext -underBinder x7
          have h7 : Keep q x7 := by
            unfold x7
            refine keep_updEq ?_
            assumption
          try clear_value x7
          extract_lets +onlyGivenNames -merge -useContext -underBinder x8
          have h8 : Keep q x8 := by
            unfold x8
            split
            · refine keep_countPost ?_
              assumption
            · assumption
          try clear_value x8
          refine keep_leaveIdle ?_
          assumption

theorem keep_postComm {a0 : State} {a1 : Nat} {a2 : Nat} {a3 : Addr} {a4 : Tag} {a5 : BitVec 8} {a6 : Bool} {a7 : Env} (g0 : Keep q a0) : Keep q (@State.postComm a0 a1 a2 a3 a4 a5 a6 a7) := by
  unfold State.postComm
  extract_lets +onlyGivenNames -merge -useContext -underBinder x0
  try clear_value x0
  split
  · assumption
  · refine keep_ite (fun _ => ?_) (fun _ => ?_)
    · assumption
    · extract_lets +onlyGivenNames -merge -useContext -underBinder x1
      have h1 : Keep q x1.1 := by
        unfold x1
        refine keep_runOp ?_ ?_
        · assumption
        · exact keep_readKey
      try clear_value x1
      split
      · assumption
      · refine keep_ite (fun _ => ?_) (fun _ => ?_)
        · assumption
        · extract_lets +onlyGivenNames -merge -useContext -underBinder x2
          try clear_value x2
          extract_lets +onlyGivenNames -merge -useContext -underBinder x3
          have h3 : Keep q x3 := by
            unfold x3
            refine keep_writeCqAt ?_
            assumption
          try clear_value x3
          extract_lets +onlyGivenNames -merge -useContext -underBinder x4
          have h4 : Keep q x4 := by
            unfold x4
            refine keep_updCq ?_
            assumption
          try clear_value x4
          refine keep_leaveIdle ?_
          refine keep_countPost ?_
          assumption

theorem keep_execEngineQueuePost {a0 : QueueRef} {a1 : BitVec 12} {a2 : Addr} {a3 : Tag} {a4 : BitVec 8} {a5 : Bool} {a6 : Env} {a7 : State} (g7 : Keep q a7) : KeepX q (@execEngineQueuePost a0 a1 a2 a3 a4 a5 a6 a7) := by
  unfold execEngineQueuePost
  refine keepX_next ?_
  split
  · refine keep_postEngine ?_
    assumption
  · refine keep_postComm ?_
    assumption

end Sys2Proof.Laws
end

