-- ==== Sys2Proof/Laws/KeepGroups.lean ====
section
/-! SUPPORT. What each operation of Machine/Groups.lean keeps: the queue and the invariant of Safety.lean, or the canonical form of memory. -/
namespace Sys2Proof.Laws
open Sys2Proof Sys2Proof.Machine
variable {q : List Instr}

theorem keep_takePlacement {a0 : Ctx} {a1 : Addr} : KeepO (@takePlacement a0 a1) := by
  unfold takePlacement
  refine keepO_get ?_
  intro _ _
  refine keepO_ite (fun _ => ?_) (fun _ => ?_)
  · exact keep_failOp
  · refine keepO_ite (fun _ => ?_) (fun _ => ?_)
    · exact keep_failOp
    · refine keepO_bind ?_ ?_
      · refine keepO_tryCatch ?_ ?_
        · exact keep_readAt
        · intro _
          exact keep_failOp
      · intro _
        refine keepO_ite (fun _ => ?_) (fun _ => ?_)
        · exact keep_failOp
        · refine keepO_bind ?_ ?_
          · refine keepO_tryCatch ?_ ?_
            · exact keep_readAt
            · intro _
              exact keep_failOp
          · intro _
            extract_lets +onlyGivenNames -merge -useContext -underBinder x0
            try clear_value x0
            refine keepO_ite (fun _ => ?_) (fun _ => ?_)
            · exact keep_failOp
            · refine keepO_ite (fun _ => ?_) (fun _ => ?_)
              · exact keep_failOp
              · exact keepO_pure

theorem keep_reserve {a0 : State} {a1 : Nat} {a2 : Nat} {a3 : BitVec 16} {a4 : Nat} (g0 : Keep q a0) : Keep q (@State.reserve a0 a1 a2 a3 a4) := by
  unfold State.reserve
  refine keep_ite (fun _ => ?_) (fun _ => ?_)
  · assumption
  · refine keep_updShare ?_
    assumption

theorem keep_releaseShares {a0 : State} {a1 : Nat} {a2 : Group} (g0 : Keep q a0) : Keep q (@State.releaseShares a0 a1 a2) := by
  unfold State.releaseShares
  refine keep_foldl ?_ ?_
  · assumption
  · intro _ _ _
    extract_lets +onlyGivenNames -merge -useContext -underBinder x0
    try clear_value x0
    refine keep_ite (fun _ => ?_) (fun _ => ?_)
    · assumption
    · refine keep_updShare ?_
      assumption

theorem keep_groupCheck {a0 : State} {a1 : Nat} {a2 : Addr} {a3 : GroupIn} (g0 : Keep q a0) : KeepO (@State.groupCheck a0 a1 a2 a3) := by
  unfold State.groupCheck
  extract_lets +onlyGivenNames -merge -useContext -underBinder x0
  try clear_value x0
  extract_lets +onlyGivenNames -merge -useContext -underBinder x1
  have h1 : ∀ y0, KeepO (@x1 y0) := by
    intro _
    unfold x1
    try dsimp -zeta only
    refine keepO_bind ?_ ?_
    · refine keepO_tryCatch ?_ ?_
      · exact keep_readAt
      · intro _
        exact keep_failOp
    · intro _
      extract_lets +onlyGivenNames -merge -useContext -underBinder x2
      try clear_value x2
      extract_lets +onlyGivenNames -merge -useContext -underBinder x3
      have h3 : ∀ y0, KeepO (@x3 y0) := by
        intro _
        unfold x3
        try dsimp -zeta only
        extract_lets +onlyGivenNames -merge -useContext -underBinder x4
        have h4 : ∀ y0, KeepO (@x4 y0) := by
          intro _
          unfold x4
          try dsimp -zeta only
          extract_lets +onlyGivenNames -merge -useContext -underBinder x5
          have h5 : ∀ y0, KeepO (@x5 y0) := by
            intro _
            unfold x5
            try dsimp -zeta only
            extract_lets +onlyGivenNames -merge -useContext -underBinder x6
            try clear_value x6
            extract_lets +onlyGivenNames -merge -useContext -underBinder x7
            have h7 : ∀ y0, KeepO (@x7 y0) := by
              intro _
              unfold x7
              try dsimp -zeta only
              extract_lets +onlyGivenNames -merge -useContext -underBinder x8
              have h8 : ∀ y0, KeepO (@x8 y0) := by
                intro _
                unfold x8
                try dsimp -zeta only
                split
                · exact keepO_pure
                · exact keep_failOp
              try clear_value x8
              refine keepO_ite (fun _ => ?_) (fun _ => ?_)
              · refine keepO_bind ?_ ?_
                · exact keep_takePlacement
                · intro _
                  refine keepO_ite (fun _ => ?_) (fun _ => ?_)
                  · refine keepO_bind ?_ ?_
                    · exact keep_failOp
                    · intro _
                      exact h8 _
                  · exact h8 _
              · exact h8 _
            try clear_value x7
            refine keepO_ite (fun _ => ?_) (fun _ => ?_)
            · refine keepO_bind ?_ ?_
              · exact keep_failOp
              · intro _
                exact h7 _
            · exact h7 _
          try clear_value x5
          refine keepO_ite (fun _ => ?_) (fun _ => ?_)
          · refine keepO_bind ?_ ?_
            · exact keep_failOp
            · intro _
              exact h5 _
          · exact h5 _
        try clear_value x4
        refine keepO_ite (fun _ => ?_) (fun _ => ?_)
        · refine keepO_bind ?_ ?_
          · exact keep_failOp
          · intro _
            exact h4 _
        · exact h4 _
      try clear_value x3
      refine keepO_ite (fun _ => ?_) (fun _ => ?_)
      · refine keepO_bind ?_ ?_
        · exact keep_failOp
        · intro _
          exact h3 _
      · exact h3 _
  try clear_value x1
  refine keepO_ite (fun _ => ?_) (fun _ => ?_)
  · refine keepO_bind ?_ ?_
    · exact keep_failOp
    · intro _
      exact h1 _
  · exact h1 _

theorem keep_groupCreate {a0 : State} {a1 : Nat} {a2 : Addr} {a3 : GroupIn} {a4 : Env} (g0 : Keep q a0) : Keep q (@State.groupCreate a0 a1 a2 a3 a4) := by
  unfold State.groupCreate
  extract_lets +onlyGivenNames -merge -useContext -underBinder x0
  have h0 : Keep q x0 := by
    unfold x0
    refine keep_onDp ?_ ?_
    · assumption
    · intro _ _
      refine keep_Dp_upsets ?_
      assumption
  try clear_value x0
  extract_lets +onlyGivenNames -merge -useContext -underBinder x1
  have h1 : Keep q x1 := by
    unfold x1
    refine keep_ite (fun _ => ?_) (fun _ => ?_)
    · assumption
    · refine keep_loadRoutes ?_
      assumption
  try clear_value x1
  extract_lets +onlyGivenNames -merge -useContext -underBinder x2
  have h2 : ∀ y0 y1, Keep q y0 → Keep q (@x2 y0 y1) := by
    intro _ _ _
    unfold x2
    try dsimp -zeta only
    refine keep_mgmt ?_
    assumption
  try clear_value x2
  refine keep_ite (fun _ => ?_) (fun _ => ?_)
  · assumption
  · extract_lets +onlyGivenNames -merge -useContext -underBinder x3
    have h3 : Keep q x3.1 := by
      unfold x3
      refine keep_runOp ?_ ?_
      · assumption
      · refine keep_groupCheck (q := q) ?_
        assumption
    try clear_value x3
    split
    · refine h2 _ _ ?_
      assumption
    · extract_lets +onlyGivenNames -merge -useContext -underBinder x4
      have h4 : Keep q x4 := by
        unfold x4
        assumption
      try clear_value x4
      extract_lets +onlyGivenNames -merge -useContext -underBinder x5
      try clear_value x5
      extract_lets +onlyGivenNames -merge -useContext -underBinder x6
      try clear_value x6
      extract_lets +onlyGivenNames -merge -useContext -underBinder x7
      try clear_value x7
      extract_lets +onlyGivenNames -merge -useContext -underBinder x8
      try clear_value x8
      split
      · refine h2 _ _ ?_
        assumption
      · split
        · refine h2 _ _ ?_
          assumption
        · refine keep_ite (fun _ => ?_) (fun _ => ?_)
          · refine h2 _ _ ?_
            assumption
          · extract_lets +onlyGivenNames -merge -useContext -underBinder x9
            have h9 : Keep q x9 := by
              unfold x9
              refine keep_foldl ?_ ?_
              · assumption
              · intro _ _ _
                refine keep_reserve ?_
                assumption
            try clear_value x9
            extract_lets +onlyGivenNames -merge -useContext -underBinder x10
            have h10 : Keep q x10 := by
              unfold x10
              refine keep_updCq ?_
              assumption
            try clear_value x10
            refine h2 _ _ ?_
            assumption

theorem keep_groupCreateCmd {a0 : State} {a1 : Nat} {a2 : BitVec 48} {a3 : GroupIn} {a4 : Env} (g0 : Keep q a0) : Keep q (@State.groupCreateCmd a0 a1 a2 a3 a4) := by
  unfold State.groupCreateCmd
  split
  · assumption
  · refine keep_groupCreate ?_
    refine keep_waitCmd ?_
    assumption

theorem keep_execGroupCreate {a0 : Part} {a1 : Addr} {a2 : GroupIn} {a3 : Env} {a4 : Option (BitVec 48)} {a5 : State} (g5 : Keep q a5) : KeepX q (@execGroupCreate a0 a1 a2 a3 a4 a5) := by
  unfold execGroupCreate
  refine keepX_next ?_
  split
  · refine keep_groupCreateCmd ?_
    assumption
  · refine keep_groupCreate ?_
    assumption

theorem keep_groupRecord {a0 : State} {a1 : BitVec 16} {a2 : BitVec 32} {a3 : Status} (g0 : Keep q a0) : Keep q (@State.groupRecord a0 a1 a2 a3) := by
  unfold State.groupRecord
  refine keep_ite (fun _ => ?_) (fun _ => ?_)
  · refine keep_record ?_
    assumption
  · assumption

theorem keep_freeGroup {a0 : State} {a1 : Nat} (g0 : Keep q a0) : Keep q (@State.freeGroup a0 a1) := by
  unfold State.freeGroup
  split
  · refine keep_updCq ?_
    refine keep_releaseShares ?_
    assumption
  · assumption

theorem keep_groupCommit {a0 : State} {a1 : Nat} {a2 : BitVec 32} {a3 : Status} {a4 : List (BitVec 17 × Fin 64)} (g0 : Keep q a0) : Keep q (@State.groupCommit a0 a1 a2 a3 a4) := by
  unfold State.groupCommit
  extract_lets +onlyGivenNames -merge -useContext -underBinder x0
  have h0 : Keep q x0 := by
    unfold x0
    refine keep_groupRecord ?_
    assumption
  try clear_value x0
  extract_lets +onlyGivenNames -merge -useContext -underBinder x1
  try clear_value x1
  extract_lets +onlyGivenNames -merge -useContext -underBinder x2
  have h2 : Keep q x2 := by
    unfold x2
    split
    · assumption
    · refine keep_ite (fun _ => ?_) (fun _ => ?_)
      · assumption
      · refine keep_ite (fun _ => ?_) (fun _ => ?_)
        · refine keep_updCq ?_
          assumption
        · refine keep_freeGroup ?_
          assumption
  try clear_value x2
  refine keep_send ?_
  assumption

theorem keep_groupCommitCmd {a0 : State} {a1 : Nat} {a2 : BitVec 32} {a3 : Status} {a4 : BitVec 48} (g0 : Keep q a0) : Keep q (@State.groupCommitCmd a0 a1 a2 a3 a4) := by
  unfold State.groupCommitCmd
  split
  · assumption
  · refine keep_finish ?_
    assumption

theorem keep_execGroupCommit {a0 : Part} {a1 : BitVec 32} {a2 : Status} {a3 : List (BitVec 17 × Fin 64)} {a4 : Option (BitVec 48)} {a5 : State} (g5 : Keep q a5) : KeepX q (@execGroupCommit a0 a1 a2 a3 a4 a5) := by
  unfold execGroupCommit
  refine keepX_next ?_
  extract_lets +onlyGivenNames -merge -useContext -underBinder x0
  have h0 : Keep q x0 := by
    unfold x0
    refine keep_groupCommit ?_
    assumption
  try clear_value x0
  split
  · refine keep_groupCommitCmd ?_
    assumption
  · assumption

theorem keep_groupDestroy {a0 : State} {a1 : Nat} {a2 : BitVec 32} (g0 : Keep q a0) : Keep q (@State.groupDestroy a0 a1 a2) := by
  unfold State.groupDestroy
  split
  · refine keep_ite (fun _ => ?_) (fun _ => ?_)
    · refine keep_updCq ?_
      assumption
    · assumption
  · assumption

theorem keep_groupDestroyCmd {a0 : State} {a1 : BitVec 48} (g0 : Keep q a0) : Keep q (@State.groupDestroyCmd a0 a1) := by
  unfold State.groupDestroyCmd
  split
  · assumption
  · extract_lets +onlyGivenNames -merge -useContext -underBinder x0
    try clear_value x0
    split
    · refine keep_finish ?_
      assumption
    · refine keep_ite (fun _ => ?_) (fun _ => ?_)
      · refine keep_finish ?_
        assumption
      · refine keep_waitCmd ?_
        refine keep_groupDestroy ?_
        assumption

theorem keep_execGroupDestroy {a0 : Part} {a1 : BitVec 32} {a2 : Option (BitVec 48)} {a3 : State} (g3 : Keep q a3) : KeepX q (@execGroupDestroy a0 a1 a2 a3) := by
  unfold execGroupDestroy
  refine keepX_next ?_
  split
  · refine keep_groupDestroyCmd ?_
    assumption
  · refine keep_groupDestroy ?_
    assumption

theorem keep_releasedCmds {a0 : State} {a1 : Group} (g0 : Keep q a0) : Keep q (@State.releasedCmds a0 a1) := by
  unfold State.releasedCmds
  refine keep_foldl ?_ ?_
  · assumption
  · intro _ _ _
    refine keep_finish ?_
    assumption

theorem keep_groupRelease {a0 : State} {a1 : Nat} (g0 : Keep q a0) : Keep q (@State.groupRelease a0 a1) := by
  unfold State.groupRelease
  split
  · assumption
  · refine keep_ite (fun _ => ?_) (fun _ => ?_)
    · refine keep_releasedCmds ?_
      refine keep_mgmt ?_
      refine keep_freeGroup ?_
      assumption
    · assumption

theorem keep_execGroupRelease {a0 : Fin 64} {a1 : State} (g1 : Keep q a1) : KeepX q (@execGroupRelease a0 a1) := by
  unfold execGroupRelease
  refine keepX_next ?_
  refine keep_groupRelease ?_
  assumption

end Sys2Proof.Laws
end

