-- ==== Sys2Proof/Laws/KeepSchedule.lean ====
section
/-! SUPPORT. What each operation of Machine/Schedule.lean keeps: the queue and the invariant of Safety.lean, or the canonical form of memory. -/
namespace Sys2Proof.Laws
open Sys2Proof Sys2Proof.Machine
variable {q : List Instr}

theorem keep_CD_formSig {a0 : CD} {a1 : Ctx} : KeepO (@CD.formSig a0 a1) := by
  unfold CD.formSig
  refine keepO_bind ?_ ?_
  · refine keepO_mapM ?_
    intro r0
    refine keepO_ite (fun _ => ?_) (fun _ => ?_)
    · exact keep_fetchTD
    · exact keepO_pure
  · intro _
    exact keepO_pure

theorem keep_Coll_writeTile {a0 : Coll} {a1 : Ctx} {a2 : Nat} : KeepO (@Coll.writeTile a0 a1 a2) := by
  unfold Coll.writeTile
  extract_lets +onlyGivenNames -merge -useContext -underBinder x0
  try clear_value x0
  extract_lets +onlyGivenNames -merge -useContext -underBinder x1
  try clear_value x1
  extract_lets +onlyGivenNames -merge -useContext -underBinder x2
  try clear_value x2
  refine keepO_ite (fun _ => ?_) (fun _ => ?_)
  · extract_lets +onlyGivenNames -merge -useContext -underBinder x3
    try clear_value x3
    refine keepO_bind ?_ ?_
    · exact keep_writeWhole
    · intro _
      exact keep_censusUpdate
  · extract_lets +onlyGivenNames -merge -useContext -underBinder x4
    try clear_value x4
    refine keepO_ite (fun _ => ?_) (fun _ => ?_)
    · exact keep_failOp
    · extract_lets +onlyGivenNames -merge -useContext -underBinder x5
      try clear_value x5
      extract_lets +onlyGivenNames -merge -useContext -underBinder x6
      try clear_value x6
      extract_lets +onlyGivenNames -merge -useContext -underBinder x7
      have h7 : ∀ y0, KeepO (@x7 y0) := by
        intro _
        unfold x7
        try dsimp -zeta only
        exact keep_censusUpdate
      try clear_value x7
      split
      · extract_lets +onlyGivenNames -merge -useContext -underBinder x8
        try clear_value x8
        refine keepO_bind ?_ ?_
        · exact keep_noteSide
        · intro _
          extract_lets +onlyGivenNames -merge -useContext -underBinder x9
          have h9 : ∀ y0, KeepO (@x9 y0) := by
            intro _
            unfold x9
            try dsimp -zeta only
            refine keepO_bind ?_ ?_
            · exact keep_writeElems
            · intro _
              refine keepO_bind ?_ ?_
              · exact keep_writeAt
              · intro _
                exact h7 _
          try clear_value x9
          refine keepO_ite (fun _ => ?_) (fun _ => ?_)
          · refine keepO_bind ?_ ?_
            · exact keep_failOp
            · intro _
              exact h9 _
          · exact h9 _
      · refine keepO_bind ?_ ?_
        · exact keep_writeWhole
        · intro _
          exact h7 _

theorem keep_Coll_writeStats {a0 : Coll} {a1 : Ctx} {a2 : Nat} {a3 : Nat} : KeepO (@Coll.writeStats a0 a1 a2 a3) := by
  unfold Coll.writeStats
  refine keepO_forM ?_
  intro _
  extract_lets +onlyGivenNames -merge -useContext -underBinder x0
  try clear_value x0
  extract_lets +onlyGivenNames -merge -useContext -underBinder x1
  try clear_value x1
  extract_lets +onlyGivenNames -merge -useContext -underBinder x2
  try clear_value x2
  extract_lets +onlyGivenNames -merge -useContext -underBinder x3
  try clear_value x3
  extract_lets +onlyGivenNames -merge -useContext -underBinder x4
  try clear_value x4
  extract_lets +onlyGivenNames -merge -useContext -underBinder x5
  try clear_value x5
  extract_lets +onlyGivenNames -merge -useContext -underBinder x6
  try clear_value x6
  exact keep_writeAt

theorem keep_readPiece {a0 : Ctx} {a1 : TD} : KeepO (@readPiece a0 a1) := by
  unfold readPiece
  refine keepO_bind ?_ ?_
  · refine keepO_mapM ?_
    intro _
    exact keep_checkTile
  · intro _
    exact keepO_pure

theorem keep_takeDist {a0 : Ctx} {a1 : Bool} {a2 : Addr} : KeepO (@takeDist a0 a1 a2) := by
  unfold takeDist
  refine keepO_bind ?_ ?_
  · exact keep_takeTD
  · intro _
    refine keepO_ite (fun _ => ?_) (fun _ => ?_)
    · exact keep_failOp
    · exact keepO_pure

theorem keep_Coll_prepReduce {a0 : Coll} {a1 : Ctx} {a2 : Nat} {a3 : Nat} : KeepO (@Coll.prepReduce a0 a1 a2 a3) := by
  unfold Coll.prepReduce
  extract_lets +onlyGivenNames -merge -useContext -underBinder x0
  try clear_value x0
  extract_lets +onlyGivenNames -merge -useContext -underBinder x1
  try clear_value x1
  refine keepO_bind ?_ ?_
  · exact keep_takeDist
  · intro _
    extract_lets +onlyGivenNames -merge -useContext -underBinder x2
    have h2 : ∀ y0, KeepO (@x2 y0) := by
      intro _
      unfold x2
      try dsimp -zeta only
      extract_lets +onlyGivenNames -merge -useContext -underBinder x3
      have h3 : ∀ y0, KeepO (@x3 y0) := by
        intro _
        unfold x3
        try dsimp -zeta only
        extract_lets +onlyGivenNames -merge -useContext -underBinder x4
        have h4 : ∀ y0, KeepO (@x4 y0) := by
          intro _
          unfold x4
          try dsimp -zeta only
          extract_lets +onlyGivenNames -merge -useContext -underBinder x5
          have h5 : ∀ y0, KeepO (@x5 y0) := by
            intro _
            unfold x5
            try dsimp -zeta only
            refine keepO_bind ?_ ?_
            · exact keep_takeTable
            · intro _
              extract_lets +onlyGivenNames -merge -useContext -underBinder x6
              have h6 : ∀ y0, KeepO (@x6 y0) := by
                intro _
                unfold x6
                try dsimp -zeta only
                extract_lets +onlyGivenNames -merge -useContext -underBinder x7
                have h7 : ∀ y0, KeepO (@x7 y0) := by
                  intro _
                  unfold x7
                  try dsimp -zeta only
                  refine keepO_get ?_
                  intro _ _
                  extract_lets +onlyGivenNames -merge -useContext -underBinder x8
                  have h8 : ∀ y0, KeepO (@x8 y0) := by
                    intro _
                    unfold x8
                    try dsimp -zeta only
                    extract_lets +onlyGivenNames -merge -useContext -underBinder x9
                    try clear_value x9
                    extract_lets +onlyGivenNames -merge -useContext -underBinder x10
                    try clear_value x10
                    extract_lets +onlyGivenNames -merge -useContext -underBinder x11
                    try clear_value x11
                    extract_lets +onlyGivenNames -merge -useContext -underBinder x12
                    have h12 : ∀ y0, KeepO (@x12 y0) := by
                      intro _
                      unfold x12
                      try dsimp -zeta only
                      extract_lets +onlyGivenNames -merge -useContext -underBinder x13
                      have h13 : ∀ y0, KeepO (@x13 y0) := by
                        intro _
                        unfold x13
                        try dsimp -zeta only
                        refine keepO_bind ?_ ?_
                        · exact keep_readPiece
                        · intro r14
                          obtain ⟨_, _⟩ := r14
                          try dsimp -zeta only
                          extract_lets +onlyGivenNames -merge -useContext -underBinder x15
                          have h15 : ∀ y0, KeepO (@x15 y0) := by
                            intro _
                            unfold x15
                            try dsimp -zeta only
                            extract_lets +onlyGivenNames -merge -useContext -underBinder x16
                            try clear_value x16
                            extract_lets +onlyGivenNames -merge -useContext -underBinder x17
                            try clear_value x17
                            exact keepO_pure
                          try clear_value x15
                          refine keepO_ite (fun _ => ?_) (fun _ => ?_)
                          · refine keepO_bind ?_ ?_
                            · exact keep_failOp
                            · intro _
                              exact h15 _
                          · exact h15 _
                      try clear_value x13
                      refine keepO_ite (fun _ => ?_) (fun _ => ?_)
                      · refine keepO_bind ?_ ?_
                        · refine keepO_bind ?_ ?_
                          · exact keep_takeSr
                          · intro _
                            exact keepO_pure
                        · intro _
                          exact h13 _
                      · refine keepO_bind ?_ ?_
                        · exact keepO_pure
                        · intro _
                          exact h13 _
                    try clear_value x12
                    refine keepO_ite (fun _ => ?_) (fun _ => ?_)
                    · refine keepO_bind ?_ ?_
                      · exact keep_failOp
                      · intro _
                        exact h12 _
                    · exact h12 _
                  try clear_value x8
                  refine keepO_ite (fun _ => ?_) (fun _ => ?_)
                  · refine keepO_bind ?_ ?_
                    · exact keep_failOp
                    · intro _
                      exact h8 _
                  · exact h8 _
                try clear_value x7
                split
                · refine keepO_bind ?_ ?_
                  · exact keep_failOp
                  · intro _
                    exact h7 _
                · exact h7 _
              try clear_value x6
              refine keepO_ite (fun _ => ?_) (fun _ => ?_)
              · refine keepO_bind ?_ ?_
                · exact keep_failOp
                · intro _
                  exact h6 _
              · exact h6 _
          try clear_value x5
          refine keepO_ite (fun _ => ?_) (fun _ => ?_)
          · refine keepO_bind ?_ ?_
            · exact keep_failOp
            · intro _
              exact h5 _
          · exact h5 _
        try clear_value x4
        refine keepO_ite (fun _ => ?_) (fun _ => ?_)
        · refine keepO_bind ?_ ?_
          · exact keep_failOp
          · intro _
            exact h4 _
        · exact h4 _
      try clear_value x3
      refine keepO_ite (fun _ => ?_) (fun _ => ?_)
      · refine keepO_bind ?_ ?_
        · exact keep_failOp
        · intro _
          exact h3 _
      · exact h3 _
    try clear_value x2
    refine keepO_ite (fun _ => ?_) (fun _ => ?_)
    · refine keepO_bind ?_ ?_
      · exact keep_takeDist
      · intro _
        exact h2 _
    · refine keepO_bind ?_ ?_
      · exact keepO_pure
      · intro _
        exact h2 _

theorem keep_Coll_prepCopy {a0 : Coll} {a1 : Ctx} {a2 : Nat} {a3 : Nat} : KeepO (@Coll.prepCopy a0 a1 a2 a3) := by
  unfold Coll.prepCopy
  extract_lets +onlyGivenNames -merge -useContext -underBinder x0
  try clear_value x0
  extract_lets +onlyGivenNames -merge -useContext -underBinder x1
  try clear_value x1
  extract_lets +onlyGivenNames -merge -useContext -underBinder x2
  have h2 : ∀ y0, KeepO (@x2 y0) := by
    intro _
    unfold x2
    try dsimp -zeta only
    refine keepO_bind ?_ ?_
    · exact keep_takeDist
    · intro _
      extract_lets +onlyGivenNames -merge -useContext -underBinder x3
      have h3 : ∀ y0, KeepO (@x3 y0) := by
        intro _
        unfold x3
        try dsimp -zeta only
        extract_lets +onlyGivenNames -merge -useContext -underBinder x4
        have h4 : ∀ y0, KeepO (@x4 y0) := by
          intro _
          unfold x4
          try dsimp -zeta only
          refine keepO_get ?_
          intro _ _
          extract_lets +onlyGivenNames -merge -useContext -underBinder x5
          have h5 : ∀ y0, KeepO (@x5 y0) := by
            intro _
            unfold x5
            try dsimp -zeta only
            extract_lets +onlyGivenNames -merge -useContext -underBinder x6
            try clear_value x6
            extract_lets +onlyGivenNames -merge -useContext -underBinder x7
            try clear_value x7
            refine keepO_ite (fun _ => ?_) (fun _ => ?_)
            · refine keepO_bind ?_ ?_
              · exact keep_readPiece
              · intro r8
                obtain ⟨_, _⟩ := r8
                try dsimp -zeta only
                exact keepO_pure
            · exact keepO_pure
          try clear_value x5
          refine keepO_ite (fun _ => ?_) (fun _ => ?_)
          · refine keepO_bind ?_ ?_
            · exact keep_failOp
            · intro _
              exact h5 _
          · exact h5 _
        try clear_value x4
        refine keepO_ite (fun _ => ?_) (fun _ => ?_)
        · split
          · refine keepO_bind ?_ ?_
            · exact keep_failOp
            · intro _
              exact h4 _
          · exact h4 _
        · exact h4 _
      try clear_value x3
      refine keepO_ite (fun _ => ?_) (fun _ => ?_)
      · refine keepO_bind ?_ ?_
        · exact keep_failOp
        · intro _
          exact h3 _
      · exact h3 _
  try clear_value x2
  refine keepO_ite (fun _ => ?_) (fun _ => ?_)
  · refine keepO_bind ?_ ?_
    · exact keep_takeDist
    · intro _
      exact h2 _
  · refine keepO_bind ?_ ?_
    · exact keepO_pure
    · intro _
      exact h2 _

end Sys2Proof.Laws
end

