-- ==== Sys2Proof/Laws/KeepCollect.lean ====
section
/-! SUPPORT. What each operation of Machine/Collect.lean keeps: the queue and the invariant of Safety.lean, or the canonical form of memory. -/
namespace Sys2Proof.Laws
open Sys2Proof Sys2Proof.Machine
variable {q : List Instr}

theorem keep_sendChunk {a0 : State} {a1 : Nat} {a2 : Group} {a3 : Nat} {a4 : Nat} {a5 : List Byte} (g0 : Keep q a0) : Keep q (@State.sendChunk a0 a1 a2 a3 a4 a5).1 := by
  unfold State.sendChunk
  refine keep_sendPacket ?_
  assumption

theorem keep_sendControl {a0 : State} {a1 : Nat} {a2 : Group} {a3 : Nat} {a4 : BitVec 32} {a5 : BitVec 32} {a6 : Nat} {a7 : Nat} {a8 : Nat} {a9 : Tag} {a10 : BitVec 8} (g0 : Keep q a0) : Keep q (@State.sendControl a0 a1 a2 a3 a4 a5 a6 a7 a8 a9 a10) := by
  unfold State.sendControl
  refine keep_sendChunk ?_
  assumption

theorem keep_logChunk {a0 : State} {a1 : Nat} {a2 : Group} {a3 : Coll} {a4 : OutChunk} {a5 : List Byte} (g0 : Keep q a0) : Keep q (@State.logChunk a0 a1 a2 a3 a4 a5) := by
  unfold State.logChunk
  extract_lets +onlyGivenNames -merge -useContext -underBinder x0
  try clear_value x0
  extract_lets +onlyGivenNames -merge -useContext -underBinder x1
  try clear_value x1
  extract_lets +onlyGivenNames -merge -useContext -underBinder x2
  have h2 : Keep q x2 := by
    unfold x2
    split
    · refine keep_runOp ?_ ?_
      · assumption
      · exact keep_writeAt
    · assumption
  try clear_value x2
  refine keep_updCq ?_
  assumption

theorem keep_logged {a0 : State} {a1 : LogChunk} (g0 : Keep q a0) : Keep q (@State.logged a0 a1).1 := by
  unfold State.logged
  split
  · show Keep q _
    assumption
  · extract_lets +onlyGivenNames -merge -useContext -underBinder x0
    have h0 : Keep q x0.1 := by
      unfold x0
      refine keep_runOp ?_ ?_
      · assumption
      · exact keep_readAt
    try clear_value x0
    show Keep q _
    assumption

theorem keep_fromLog {a0 : State} {a1 : Nat} {a2 : Coll} {a3 : OutChunk} (g0 : Keep q a0) : Keep q (@State.fromLog a0 a1 a2 a3).1 := by
  unfold State.fromLog
  split
  · show Keep q _
    assumption
  · extract_lets +onlyGivenNames -merge -useContext -underBinder x0
    have h0 : Keep q x0.1 := by
      unfold x0
      refine keep_logged ?_
      assumption
    try clear_value x0
    show Keep q _
    assumption

theorem keep_pumpN {a0 : State} {a1 : Nat} {a2 : Group} {a3 : Nat} {a4 a5 : List OutChunk} (g0 : Keep q a0) :
    Keep q (a0.pumpN a1 a2 a3 a4 a5).1 := by
  induction a3 generalizing a0 a4 a5 with
  | zero => exact keep_updColl g0
  | succ n ih =>
    cases a5 with
    | nil => exact keep_updColl g0
    | cons o r =>
      rw [State.pumpN]
      split
      · exact g0
      · refine keep1_ite (fun _ => ih g0) fun _ => ?_
        extract_lets f b y
        have hf : Keep q f.1 := keep_fromLog g0
        have hy : Keep q y.1 := keep_sendChunk hf
        exact keep1_ite (fun _ => keep_updColl hy) fun _ => ih (keep_updColl (keep_updCq (keep_logChunk hy)))

theorem keep_pump {a0 : State} {a1 : Nat} {a2 : Group} (g0 : Keep q a0) : Keep q (@State.pump a0 a1 a2).1 := by
  unfold State.pump
  split
  · refine keep_pumpN ?_
    assumption
  · show Keep q _
    assumption

theorem keep_sendQs {a0 : State} {a1 : Nat} {a2 : Group} {a3 : Nat} {a4 : Nat} {a5 : BitVec 32} {a6 : BitVec 32} {a7 : Nat} {a8 : List Byte} (g0 : Keep q a0) : Keep q (@State.sendQs a0 a1 a2 a3 a4 a5 a6 a7 a8).1 := by
  unfold State.sendQs
  extract_lets +onlyGivenNames -merge -useContext -underBinder x0
  try clear_value x0
  extract_lets +onlyGivenNames -merge -useContext -underBinder x1
  try clear_value x1
  refine keep_sendPacket ?_
  assumption

theorem keep_failAll {a0 : State} {a1 : Nat} {a2 : Group} {a3 : BitVec 32} {a4 : BitVec 32} {a5 : Status} (g0 : Keep q a0) : Keep q (@State.failAll a0 a1 a2 a3 a4 a5) := by
  unfold State.failAll
  refine keep_foldl ?_ ?_
  · assumption
  · intro _ _ _
    refine keep_sendQs ?_
    assumption

theorem keep_failNotice {a0 : State} {a1 : Nat} {a2 : Group} {a3 : Coll} {a4 : Status} (g0 : Keep q a0) : Keep q (@State.failNotice a0 a1 a2 a3 a4) := by
  unfold State.failNotice
  refine keep_ite (fun _ => ?_) (fun _ => ?_)
  · refine keep_failAll ?_
    assumption
  · refine keep_foldl ?_ ?_
    · assumption
    · intro _ _ _
      refine keep_sendControl ?_
      assumption

theorem keep_cqFail {a0 : State} {a1 : Nat} {a2 : Fail} {a3 : Env} (g0 : Keep q a0) : Keep q (@State.cqFail a0 a1 a2 a3) := by
  unfold State.cqFail
  split
  · refine keep_cqComplete ?_
    refine keep_failNotice ?_
    assumption
  · assumption

theorem keep_stopQueue {a0 : State} {a1 : Nat} (g0 : Keep q a0) : Keep q (@State.stopQueue a0 a1) := by
  unfold State.stopQueue
  refine keep_updCq ?_
  assumption

theorem keep_orderStop {a0 : State} {a1 : Nat} {a2 : Env} (g0 : Keep q a0) : Keep q (@State.orderStop a0 a1 a2) := by
  unfold State.orderStop
  extract_lets +onlyGivenNames -merge -useContext -underBinder x0
  try clear_value x0
  extract_lets +onlyGivenNames -merge -useContext -underBinder x1
  have h1 : Keep q x1 := by
    unfold x1
    split
    · refine keep_ite (fun _ => ?_) (fun _ => ?_)
      · assumption
      · refine keep_failNotice ?_
        assumption
    · assumption
  try clear_value x1
  extract_lets +onlyGivenNames -merge -useContext -underBinder x2
  have h2 : Keep q x2 := by
    unfold x2
    refine keep_stopQueue ?_
    refine keep_cqComplete ?_
    assumption
  try clear_value x2
  extract_lets +onlyGivenNames -merge -useContext -underBinder x3
  have h3 : Keep q x3 := by
    unfold x3
    refine keep_updCq ?_
    assumption
  try clear_value x3
  split
  · refine keep_jobStatus ?_
    assumption
  · assumption

theorem keep_orderFault {a0 : State} {a1 : Nat} {a2 : Nat} {a3 : Bool} {a4 : Env} (g0 : Keep q a0) : Keep q (@State.orderFault a0 a1 a2 a3 a4) := by
  unfold State.orderFault
  split
  · extract_lets +onlyGivenNames -merge -useContext -underBinder x0
    have h0 : Keep q x0 := by
      unfold x0
      refine keep_ite (fun _ => ?_) (fun _ => ?_)
      · refine keep_sendControl ?_
        assumption
      · assumption
    try clear_value x0
    extract_lets +onlyGivenNames -merge -useContext -underBinder x1
    have h1 : Keep q x1 := by
      unfold x1
      refine keep_orderStop ?_
      refine keep_failAll ?_
      assumption
    try clear_value x1
    refine keep_groupRecord ?_
    assumption
  · assumption

theorem keep_writeDest {a0 : State} {a1 : Nat} {a2 : Ctx} {a3 : List Nat} (g0 : Keep q a0) : Keep q (@State.writeDest a0 a1 a2 a3).1 := by
  induction a3 generalizing a0 a1 a2 with
  | nil =>
    rw [State.writeDest]
    show Keep q _
    assumption
  | cons u1 u2 ih =>
    rw [State.writeDest]
    split
    · show Keep q _
      assumption
    · extract_lets +onlyGivenNames -merge -useContext -underBinder x0
      have h0 : Keep q x0.1 := by
        unfold x0
        refine keep_runOp ?_ ?_
        · assumption
        · exact keep_Coll_writeTile
      try clear_value x0
      split
      · show Keep q _
        assumption
      · apply ih
        refine keep_updColl ?_
        assumption

theorem keep_finishBulk {a0 : State} {a1 : Nat} {a2 : Group} {a3 : Env} (g0 : Keep q a0) : Keep q (@State.finishBulk a0 a1 a2 a3) := by
  unfold State.finishBulk
  split
  · assumption
  · extract_lets +onlyGivenNames -merge -useContext -underBinder x0
    try clear_value x0
    extract_lets +onlyGivenNames -merge -useContext -underBinder x1
    try clear_value x1
    extract_lets +onlyGivenNames -merge -useContext -underBinder x2
    try clear_value x2
    extract_lets +onlyGivenNames -merge -useContext -underBinder x3
    have h3 : Keep q x3 := by
      unfold x3
      refine keep_updColl ?_
      assumption
    try clear_value x3
    extract_lets +onlyGivenNames -merge -useContext -underBinder x4
    try clear_value x4
    extract_lets +onlyGivenNames -merge -useContext -underBinder x5
    have h5 : Keep q x5.1 := by
      unfold x5
      refine keep1_ite (fun _ => ?_) (fun _ => ?_)
      · refine keep_writeDest ?_
        assumption
      · show Keep q _
        assumption
    try clear_value x5
    split
    · refine keep_cqFail ?_
      assumption
    · extract_lets +onlyGivenNames -merge -useContext -underBinder x6
      try clear_value x6
      extract_lets +onlyGivenNames -merge -useContext -underBinder x7
      have h7 : Keep q x7.1 := by
        unfold x7
        refine keep1_ite (fun _ => ?_) (fun _ => ?_)
        · show Keep q _
          assumption
        · refine keep_runOp ?_ ?_
          · assumption
          · exact keep_Coll_writeStats
      try clear_value x7
      split
      · refine keep_cqFail ?_
        assumption
      · refine keep_updColl ?_
        assumption

theorem keep_runBulk {a0 : State} {a1 : Nat} {a2 : Env} {a3 : State → Group → State} (g0 : Keep q a0) (g3 : ∀ y0 y1, Keep q y0 → Keep q (a3 y0 y1)) : Keep q (@State.runBulk a0 a1 a2 a3) := by
  unfold State.runBulk
  split
  · extract_lets +onlyGivenNames -merge -useContext -underBinder x0
    try clear_value x0
    extract_lets +onlyGivenNames -merge -useContext -underBinder x1
    try clear_value x1
    extract_lets +onlyGivenNames -merge -useContext -underBinder x2
    have h2 : Keep q x2 := by
      unfold x2
      refine keep_updColl ?_
      assumption
    try clear_value x2
    refine keep_ite (fun _ => ?_) (fun _ => ?_)
    · refine keep_cqFail ?_
      assumption
    · extract_lets +onlyGivenNames -merge -useContext -underBinder x3
      have h3 : Keep q x3.1 := by
        unfold x3
        refine keep_pump ?_
        assumption
      try clear_value x3
      split
      · refine keep_cqFail ?_
        assumption
      · split
        · refine keep_ite (fun _ => ?_) (fun _ => ?_)
          · refine g3 _ _ ?_
            assumption
          · assumption
        · assumption
  · assumption

theorem keep_readCq {a0 : State} {a1 : Nat} {a2 : Nat} {a3 : Env} (g0 : Keep q a0) : Keep q (@State.readCq a0 a1 a2 a3).1 := by
  unfold State.readCq
  refine keep_runOp ?_ ?_
  · assumption
  · exact keep_readKey

theorem keep_cqUnrecorded {a0 : State} {a1 : Nat} {a2 : Nat} {a3 : QEntry} {a4 : Status} (g0 : Keep q a0) : Keep q (@State.cqUnrecorded a0 a1 a2 a3 a4) := by
  unfold State.cqUnrecorded
  extract_lets +onlyGivenNames -merge -useContext -underBinder x0
  have h0 : Keep q x0 := by
    unfold x0
    refine keep_writeCqAt ?_
    assumption
  try clear_value x0
  extract_lets +onlyGivenNames -merge -useContext -underBinder x1
  have h1 : Keep q x1 := by
    unfold x1
    refine keep_noteEpoch ?_
    assumption
  try clear_value x1
  refine keep_updCq ?_
  assumption

theorem keep_collAccept {a0 : State} {a1 : Nat} {a2 : Env} (g0 : Keep q a0) : Keep q (@State.collAccept a0 a1 a2) := by
  unfold State.collAccept
  extract_lets +onlyGivenNames -merge -useContext -underBinder x0
  try clear_value x0
  split
  · assumption
  · refine keep_ite (fun _ => ?_) (fun _ => ?_)
    · assumption
    · extract_lets +onlyGivenNames -merge -useContext -underBinder x1
      have h1 : Keep q x1 := by
        unfold x1
        refine keep_updCq ?_
        assumption
      try clear_value x1
      extract_lets +onlyGivenNames -merge -useContext -underBinder x2
      try clear_value x2
      extract_lets +onlyGivenNames -merge -useContext -underBinder x3
      try clear_value x3
      extract_lets +onlyGivenNames -merge -useContext -underBinder x4
      have h4 : Keep q x4.1 := by
        unfold x4
        refine keep_readCq ?_
        assumption
      try clear_value x4
      split
      · extract_lets +onlyGivenNames -merge -useContext -underBinder x5
        have h5 : Keep q x5 := by
          unfold x5
          refine keep_updCq ?_
          assumption
        try clear_value x5
        split
        · refine keep_report ?_
          refine keep_writeCqAt ?_
          assumption
        · refine keep_writeCqAt ?_
          assumption
      · extract_lets +onlyGivenNames -merge -useContext -underBinder x6
        have h6 : Keep q x6 := by
          unfold x6
          assumption
        try clear_value x6
        extract_lets +onlyGivenNames -merge -useContext -underBinder x7
        try clear_value x7
        extract_lets +onlyGivenNames -merge -useContext -underBinder x8
        have h8 : ∀ y0, Keep q y0 → Keep q (@x8 y0) := by
          intro _ _
          unfold x8
          try dsimp -zeta only
          refine keep_updCq ?_
          assumption
        try clear_value x8
        extract_lets +onlyGivenNames -merge -useContext -underBinder x9
        try clear_value x9
        refine keep_ite (fun _ => ?_) (fun _ => ?_)
        · assumption
        · refine keep_ite (fun _ => ?_) (fun _ => ?_)
          · refine keep_cqUnrecorded ?_
            refine h8 _ ?_
            assumption
          · refine keep_ite (fun _ => ?_) (fun _ => ?_)
            · refine keep_cqUnrecorded ?_
              refine h8 _ ?_
              assumption
            · extract_lets +onlyGivenNames -merge -useContext -underBinder x10
              try clear_value x10
              extract_lets +onlyGivenNames -merge -useContext -underBinder x11
              have h11 : Keep q x11.1 := by
                unfold x11
                refine keep_runOp ?_ ?_
                · assumption
                · exact keep_readAt
              try clear_value x11
              split
              · refine keep_cqUnrecorded ?_
                refine h8 _ ?_
                assumption
              · extract_lets +onlyGivenNames -merge -useContext -underBinder x12
                try clear_value x12
                extract_lets +onlyGivenNames -merge -useContext -underBinder x13
                try clear_value x13
                refine keep_ite (fun _ => ?_) (fun _ => ?_)
                · refine keep_cqUnrecorded ?_
                  refine h8 _ ?_
                  assumption
                · extract_lets +onlyGivenNames -merge -useContext -underBinder x14
                  try clear_value x14
                  extract_lets +onlyGivenNames -merge -useContext -underBinder x15
                  have h15 : Keep q x15 := by
                    unfold x15
                    refine keep_writeCqAt ?_
                    refine h8 _ ?_
                    assumption
                  try clear_value x15
                  extract_lets +onlyGivenNames -merge -useContext -underBinder x16
                  try clear_value x16
                  extract_lets +onlyGivenNames -merge -useContext -underBinder x17
                  have h17 : Keep q x17 := by
                    unfold x17
                    refine keep_updCq ?_
                    assumption
                  try clear_value x17
                  extract_lets +onlyGivenNames -merge -useContext -underBinder x18
                  have h18 : Keep q x18.1 := by
                    unfold x18
                    refine keep_runOp ?_ ?_
                    · assumption
                    · exact keep_writeAt
                  try clear_value x18
                  extract_lets +onlyGivenNames -merge -useContext -underBinder x19
                  have h19 : Keep q x19 := by
                    unfold x19
                    refine keep_ite (fun _ => ?_) (fun _ => ?_)
                    · split
                      · refine keep_onDp ?_ ?_
                        · assumption
                        · intro _ _
                          refine keep_Dp_updWet ?_
                          assumption
                      · assumption
                    · assumption
                  try clear_value x19
                  split
                  · refine keep_cqUnrecorded ?_
                    refine keep_updCq ?_
                    assumption
                  · extract_lets +onlyGivenNames -merge -useContext -underBinder x20
                    try clear_value x20
                    refine keep_ite (fun _ => ?_) (fun _ => ?_)
                    · refine keep_cqComplete ?_
                      assumption
                    · refine keep_ite (fun _ => ?_) (fun _ => ?_)
                      · refine keep_cqComplete ?_
                        assumption
                      · assumption

theorem keep_execCollectiveEntryAccept {a0 : Fin 64} {a1 : Env} {a2 : State} (g2 : Keep q a2) : KeepX q (@execCollectiveEntryAccept a0 a1 a2) := by
  unfold execCollectiveEntryAccept
  refine keepX_next ?_
  refine keep_around ?_ ?_
  · assumption
  · intro _ _ _
    refine keep_collAccept ?_
    assumption

theorem keep_formSig {a0 : State} {a1 : Nat} {a2 : Coll} (g0 : Keep q a0) : Keep q (@State.formSig a0 a1 a2) := by
  unfold State.formSig
  split
  · refine keep_updColl ?_
    assumption
  · assumption

theorem keep_collStart {a0 : State} {a1 : Nat} {a2 : Coll} {a3 : Group} {a4 : Bool} {a5 : Env} {a6 : Ctx → Op Coll} {a7 : State → State} (g0 : Keep q a0) (g6 : ∀ y0, KeepO (a6 y0)) (g7 : ∀ y0, Keep q y0 → Keep q (a7 y0)) : Keep q (@State.collStart a0 a1 a2 a3 a4 a5 a6 a7) := by
  unfold State.collStart
  split
  · refine keep_cqFail ?_
    refine keep_formSig ?_
    assumption
  · extract_lets +onlyGivenNames -merge -useContext -underBinder x0
    have h0 : Keep q x0.1 := by
      unfold x0
      refine keep_runOp ?_ ?_
      · assumption
      · exact g6 _
    try clear_value x0
    split
    · refine keep_cqFail ?_
      refine keep_formSig ?_
      assumption
    · refine g7 _ ?_
      refine keep_updColl ?_
      assumption

theorem keep_bulkStart {a0 : State} {a1 : Nat} {a2 : Nat} {a3 : Env} {a4 : Coll → Group → Ctx → Op Coll} (g0 : Keep q a0) (g4 : ∀ y0 y1 y2, KeepO (a4 y0 y1 y2)) : Keep q (@State.bulkStart a0 a1 a2 a3 a4) := by
  unfold State.bulkStart
  split
  · assumption
  · refine keep_ite (fun _ => ?_) (fun _ => ?_)
    · assumption
    · refine keep_collStart ?_ ?_ ?_
      · assumption
      · intro _
        refine keepO_bind ?_ ?_
        · exact g4 _ _ _
        · intro _
          exact keepO_pure
      · intro _ _
        refine keep_runBulk ?_ ?_
        · assumption
        · intro _ _ _
          refine keep_finishBulk ?_
          assumption

theorem keep_reducePrep {a0 : Coll} {a1 : Group} {a2 : Ctx} : KeepO (@reducePrep a0 a1 a2) := by
  unfold reducePrep
  exact keep_Coll_prepReduce

theorem keep_copyPrep {a0 : Coll} {a1 : Group} {a2 : Ctx} : KeepO (@copyPrep a0 a1 a2) := by
  unfold copyPrep
  exact keep_Coll_prepCopy

theorem keep_execAllReduce {a0 : Fin 64} {a1 : Env} {a2 : State} (g2 : Keep q a2) : KeepX q (@execAllReduce a0 a1 a2) := by
  unfold execAllReduce
  refine keepX_next ?_
  refine keep_around ?_ ?_
  · assumption
  · intro _ _ _
    refine keep_bulkStart ?_ ?_
    · assumption
    · intro _ _ _
      exact keep_reducePrep

theorem keep_execReduceScatter {a0 : Fin 64} {a1 : Env} {a2 : State} (g2 : Keep q a2) : KeepX q (@execReduceScatter a0 a1 a2) := by
  unfold execReduceScatter
  refine keepX_next ?_
  refine keep_around ?_ ?_
  · assumption
  · intro _ _ _
    refine keep_bulkStart ?_ ?_
    · assumption
    · intro _ _ _
      exact keep_reducePrep

theorem keep_execReduce {a0 : Fin 64} {a1 : Env} {a2 : State} (g2 : Keep q a2) : KeepX q (@execReduce a0 a1 a2) := by
  unfold execReduce
  refine keepX_next ?_
  refine keep_around ?_ ?_
  · assumption
  · intro _ _ _
    refine keep_bulkStart ?_ ?_
    · assumption
    · intro _ _ _
      exact keep_reducePrep

theorem keep_execAllGather {a0 : Fin 64} {a1 : Env} {a2 : State} (g2 : Keep q a2) : KeepX q (@execAllGather a0 a1 a2) := by
  unfold execAllGather
  refine keepX_next ?_
  refine keep_around ?_ ?_
  · assumption
  · intro _ _ _
    refine keep_bulkStart ?_ ?_
    · assumption
    · intro _ _ _
      exact keep_copyPrep

theorem keep_execBroadcast {a0 : Fin 64} {a1 : Env} {a2 : State} (g2 : Keep q a2) : KeepX q (@execBroadcast a0 a1 a2) := by
  unfold execBroadcast
  refine keepX_next ?_
  refine keep_around ?_ ?_
  · assumption
  · intro _ _ _
    refine keep_bulkStart ?_ ?_
    · assumption
    · intro _ _ _
      exact keep_copyPrep

theorem keep_onward {a0 : State} {a1 : Nat} {a2 : Env} (g0 : Keep q a0) : Keep q (@State.onward a0 a1 a2) := by
  unfold State.onward
  refine keep_runBulk ?_ ?_
  · assumption
  · intro _ _ _
    split
    · refine keep_ite (fun _ => ?_) (fun _ => ?_)
      · assumption
      · refine keep_finishBulk ?_
        assumption
    · assumption

theorem keep_countStale {a0 : State} {a1 : Nat} (g0 : Keep q a0) : Keep q (@State.countStale a0 a1) := by
  unfold State.countStale
  refine keep_updColl ?_
  refine keep_updCq ?_
  assumption

theorem keep_returnCredit {a0 : State} {a1 : Nat} {a2 : Group} {a3 : Nat} {a4 : Chunk} (g0 : Keep q a0) : Keep q (@State.returnCredit a0 a1 a2 a3 a4) := by
  unfold State.returnCredit
  refine keep_sendControl ?_
  assumption

theorem keep_corruptChunk {a0 : State} {a1 : Nat} {a2 : Group} {a3 : Nat} {a4 : Chunk} {a5 : Option Nat} {a6 : Env} (g0 : Keep q a0) : Keep q (@State.corruptChunk a0 a1 a2 a3 a4 a5 a6) := by
  unfold State.corruptChunk
  extract_lets +onlyGivenNames -merge -useContext -underBinder x0
  have h0 : Keep q x0 := by
    unfold x0
    refine keep_ite (fun _ => ?_) (fun _ => ?_)
    · refine keep_returnCredit ?_
      assumption
    · assumption
  try clear_value x0
  split
  · assumption
  · extract_lets +onlyGivenNames -merge -useContext -underBinder x1
    try clear_value x1
    extract_lets +onlyGivenNames -merge -useContext -underBinder x2
    have h2 : Keep q x2 := by
      unfold x2
      refine keep_cqFail ?_
      assumption
    try clear_value x2
    extract_lets +onlyGivenNames -merge -useContext -underBinder x3
    have h3 : Keep q x3 := by
      unfold x3
      refine keep_report ?_
      assumption
    try clear_value x3
    refine keep_sendControl ?_
    assumption

theorem keep_useChunk {a0 : State} {a1 : Nat} {a2 : Group} {a3 : Chunk} {a4 : Bool} {a5 : Env} (g0 : Keep q a0) : Keep q (@State.useChunk a0 a1 a2 a3 a4 a5) := by
  unfold State.useChunk
  extract_lets +onlyGivenNames -merge -useContext -underBinder x0
  have h0 : Keep q x0 := by
    unfold x0
    refine keep_updColl ?_
    assumption
  try clear_value x0
  extract_lets +onlyGivenNames -merge -useContext -underBinder x1
  have h1 : Keep q x1 := by
    unfold x1
    refine keep_returnCredit ?_
    assumption
  try clear_value x1
  refine keep_ite (fun _ => ?_) (fun _ => ?_)
  · split
    · refine keep_report ?_
      refine keep_cqFail ?_
      assumption
    · assumption
  · refine keep_onward ?_
    assumption

theorem keep_dataChunk {a0 : State} {a1 : Nat} {a2 : Group} {a3 : Packet} {a4 : Bool} {a5 : Env} (g0 : Keep q a0) : Keep q (@State.dataChunk a0 a1 a2 a3 a4 a5) := by
  unfold State.dataChunk
  extract_lets +onlyGivenNames -merge -useContext -underBinder x0
  try clear_value x0
  split
  · refine keep_updCq ?_
    assumption
  · refine keep_returnCredit ?_
    refine keep_countStale ?_
    assumption
  · refine keep_orderFault ?_
    assumption
  · split
    · assumption
    · refine keep_ite (fun _ => ?_) (fun _ => ?_)
      · refine keep_corruptChunk ?_
        assumption
      · refine keep_useChunk ?_
        assumption

theorem keep_resendNow {a0 : State} {a1 : Nat} {a2 : Group} {a3 : LogChunk} {a4 : List Byte} (g0 : Keep q a0) : Keep q (@State.resendNow a0 a1 a2 a3 a4) := by
  unfold State.resendNow
  extract_lets +onlyGivenNames -merge -useContext -underBinder x0
  try clear_value x0
  extract_lets +onlyGivenNames -merge -useContext -underBinder x1
  try clear_value x1
  extract_lets +onlyGivenNames -merge -useContext -underBinder x2
  have h2 : Keep q x2 := by
    unfold x2
    refine keep_sendChunk ?_
    assumption
  try clear_value x2
  refine keep_updColl ?_
  refine keep_updCq ?_
  assumption

theorem keep_sourceGood {a0 : Ctx} {a1 : Addr} : KeepO (@sourceGood a0 a1) := by
  unfold sourceGood
  refine keepO_bind ?_ ?_
  · exact keep_readAt
  · intro _
    refine keepO_bind ?_ ?_
    · exact keep_fetchTD
    · intro _
      refine keepO_bind ?_ ?_
      · exact keep_readPiece
      · intro r0
        exact keepO_pure

theorem keep_resendChunk {a0 : State} {a1 : Nat} {a2 : Group} {a3 : LogChunk} {a4 : Env} (g0 : Keep q a0) : Keep q (@State.resendChunk a0 a1 a2 a3 a4) := by
  unfold State.resendChunk
  extract_lets +onlyGivenNames -merge -useContext -underBinder x0
  have h0 : Keep q x0.1 := by
    unfold x0
    refine keep_logged ?_
    assumption
  try clear_value x0
  split
  · refine keep_resendNow ?_
    assumption
  · split
    · assumption
    · extract_lets +onlyGivenNames -merge -useContext -underBinder x1
      have h1 : Keep q x1.1 := by
        unfold x1
        refine keep_runOp ?_ ?_
        · assumption
        · exact keep_sourceGood
      try clear_value x1
      split
      · refine keep_resendNow ?_
        assumption
      · refine keep_report ?_
        assumption

theorem keep_pumpResends {a0 : State} {a1 : Nat} {a2 : Group} {a3 : Env} (g0 : Keep q a0) : Keep q (@State.pumpResends a0 a1 a2 a3) := by
  unfold State.pumpResends
  refine keep_foldl ?_ ?_
  · refine keep_updCq ?_
    assumption
  · intro _ _ _
    refine keep_ite (fun _ => ?_) (fun _ => ?_)
    · refine keep_updCq ?_
      assumption
    · refine keep_resendChunk ?_
      assumption

theorem keep_resendReq {a0 : State} {a1 : Nat} {a2 : Group} {a3 : Chunk} {a4 : Bool} {a5 : Env} (g0 : Keep q a0) : Keep q (@State.resendReq a0 a1 a2 a3 a4 a5) := by
  unfold State.resendReq
  split
  · assumption
  · extract_lets +onlyGivenNames -merge -useContext -underBinder x0
    have h0 : Keep q x0 := by
      unfold x0
      refine keep_onDp ?_ ?_
      · assumption
      · intro _ _
        refine keep_Dp_upsets ?_
        assumption
    try clear_value x0
    extract_lets +onlyGivenNames -merge -useContext -underBinder x1
    try clear_value x1
    refine keep_pumpResends ?_
    refine keep_updCq ?_
    assumption

theorem keep_creditChunk {a0 : State} {a1 : Nat} {a2 : Group} {a3 : Chunk} {a4 : Env} (g0 : Keep q a0) : Keep q (@State.creditChunk a0 a1 a2 a3 a4) := by
  unfold State.creditChunk
  extract_lets +onlyGivenNames -merge -useContext -underBinder x0
  try clear_value x0
  extract_lets +onlyGivenNames -merge -useContext -underBinder x1
  have h1 : Keep q x1 := by
    unfold x1
    refine keep_updCq ?_
    assumption
  try clear_value x1
  extract_lets +onlyGivenNames -merge -useContext -underBinder x2
  have h2 : Keep q x2 := by
    unfold x2
    refine keep_pumpResends ?_
    assumption
  try clear_value x2
  split
  · refine keep_orderFault ?_
    assumption
  · refine keep_onward ?_
    refine keep_updColl ?_
    assumption
  · refine keep_onward ?_
    assumption

theorem keep_failChunk {a0 : State} {a1 : Nat} {a2 : Packet} {a3 : Chunk} {a4 : Env} (g0 : Keep q a0) : Keep q (@State.failChunk a0 a1 a2 a3 a4) := by
  unfold State.failChunk
  extract_lets +onlyGivenNames -merge -useContext -underBinder x0
  try clear_value x0
  split
  · refine keep_updCq ?_
    assumption
  · refine keep_countStale ?_
    assumption
  · refine keep_orderFault ?_
    assumption
  · refine keep_ite (fun _ => ?_) (fun _ => ?_)
    · refine keep_orderStop ?_
      assumption
    · refine keep_cqFail ?_
      assumption

theorem keep_chunkOf {a0 : State} {a1 : Packet} {a2 : Nat} {a3 : Env} {a4 : State → Nat → Group → Chunk → State} (g0 : Keep q a0) (g4 : ∀ y0 y1 y2 y3, Keep q y0 → Keep q (a4 y0 y1 y2 y3)) : Keep q (@State.chunkOf a0 a1 a2 a3 a4) := by
  unfold State.chunkOf
  split
  · assumption
  · extract_lets +onlyGivenNames -merge -useContext -underBinder x0
    try clear_value x0
    refine keep_ite (fun _ => ?_) (fun _ => ?_)
    · refine keep_corruptChunk ?_
      assumption
    · refine keep_ite (fun _ => ?_) (fun _ => ?_)
      · refine g4 _ _ _ _ ?_
        assumption
      · assumption

theorem keep_land {a0 : State} {a1 : Group} {a2 : Packet} (g0 : Keep q a0) : Keep q (@State.land a0 a1 a2) := by
  unfold State.land
  split
  · refine keep_runOp ?_ ?_
    · assumption
    · exact keep_writeKey
  · assumption

theorem keep_landFor {a0 : State} {a1 : Packet} (g0 : Keep q a0) : Keep q (@State.landFor a0 a1) := by
  unfold State.landFor
  split
  · refine keep_land ?_
    assumption
  · assumption

theorem keep_execChunkData {a0 : Packet} {a1 : Bool} {a2 : Env} {a3 : State} (g3 : Keep q a3) : KeepX q (@execChunkData a0 a1 a2 a3) := by
  unfold execChunkData
  refine keepX_next ?_
  refine keep_around ?_ ?_
  · assumption
  · intro _ _ _
    refine keep_chunkOf ?_ ?_
    · refine keep_landFor ?_
      assumption
    · intro _ _ _ _ _
      refine keep_dataChunk ?_
      assumption

theorem keep_execChunkCredit {a0 : Packet} {a1 : Env} {a2 : State} (g2 : Keep q a2) : KeepX q (@execChunkCredit a0 a1 a2) := by
  unfold execChunkCredit
  refine keepX_next ?_
  refine keep_around ?_ ?_
  · assumption
  · intro _ _ _
    refine keep_chunkOf ?_ ?_
    · assumption
    · intro _ _ _ _ _
      refine keep_creditChunk ?_
      assumption

theorem keep_execChunkFail {a0 : Packet} {a1 : Env} {a2 : State} (g2 : Keep q a2) : KeepX q (@execChunkFail a0 a1 a2) := by
  unfold execChunkFail
  refine keepX_next ?_
  refine keep_around ?_ ?_
  · assumption
  · intro _ _ _
    refine keep_chunkOf ?_ ?_
    · assumption
    · intro _ _ _ _ _
      refine keep_failChunk ?_
      assumption

theorem keep_execChunkResendReq {a0 : Packet} {a1 : Bool} {a2 : Env} {a3 : State} (g3 : Keep q a3) : KeepX q (@execChunkResendReq a0 a1 a2 a3) := by
  unfold execChunkResendReq
  refine keepX_next ?_
  refine keep_around ?_ ?_
  · assumption
  · intro _ _ _
    refine keep_chunkOf ?_ ?_
    · assumption
    · intro _ _ _ _ _
      refine keep_resendReq ?_
      assumption

theorem keep_collComplete {a0 : State} {a1 : Nat} {a2 : Env} (g0 : Keep q a0) : Keep q (@State.collComplete a0 a1 a2) := by
  unfold State.collComplete
  split
  · refine keep_ite (fun _ => ?_) (fun _ => ?_)
    · refine keep_cqComplete ?_
      assumption
    · assumption
  · assumption

theorem keep_execCollectiveComplete {a0 : Fin 64} {a1 : Env} {a2 : State} (g2 : Keep q a2) : KeepX q (@execCollectiveComplete a0 a1 a2) := by
  unfold execCollectiveComplete
  refine keepX_next ?_
  refine keep_around ?_ ?_
  · assumption
  · intro _ _ _
    refine keep_collComplete ?_
    assumption

theorem keep_collTimeout {a0 : State} {a1 : Nat} {a2 : Env} (g0 : Keep q a0) : Keep q (@State.collTimeout a0 a1 a2) := by
  unfold State.collTimeout
  split
  · split
    · assumption
    · extract_lets +onlyGivenNames -merge -useContext -underBinder x0
      try clear_value x0
      extract_lets +onlyGivenNames -merge -useContext -underBinder x1
      try clear_value x1
      extract_lets +onlyGivenNames -merge -useContext -underBinder x2
      have h2 : Keep q x2 := by
        unfold x2
        refine Keep.upd ?_
        assumption
      try clear_value x2
      extract_lets +onlyGivenNames -merge -useContext -underBinder x3
      have h3 : Keep q x3 := by
        unfold x3
        refine keep_hangRecord ?_
        assumption
      try clear_value x3
      refine keep_askLost ?_
      refine keep_stopQueue ?_
      refine keep_cqComplete ?_
      assumption
  · assumption

theorem keep_execCollectiveProgressTimeout {a0 : Fin 64} {a1 : Env} {a2 : State} (g2 : Keep q a2) : KeepX q (@execCollectiveProgressTimeout a0 a1 a2) := by
  unfold execCollectiveProgressTimeout
  refine keepX_next ?_
  refine keep_around ?_ ?_
  · assumption
  · intro _ _ _
    refine keep_collTimeout ?_
    assumption

theorem keep_execQueueSustainedPressure {a0 : Fin 64} {a1 : BitVec 17} {a2 : BitVec 64} {a3 : State} (g3 : Keep q a3) : KeepX q (@execQueueSustainedPressure a0 a1 a2 a3) := by
  unfold execQueueSustainedPressure
  refine keepX_next ?_
  split
  · assumption
  · refine keep_record ?_
    refine keep_updCq ?_
    assumption

end Sys2Proof.Laws
end

