-- ==== Sys2Proof/Laws/KeepQuickset.lean ====
section
/-! SUPPORT. What each operation of Machine/Quickset.lean keeps: the queue and the invariant of Safety.lean, or the canonical form of memory. -/
namespace Sys2Proof.Laws
open Sys2Proof Sys2Proof.Machine
variable {q : List Instr}

theorem keep_pumpQs {a0 : State} {a1 : Nat} {a2 : Group} (g0 : Keep q a0) : Keep q (@State.pumpQs a0 a1 a2) := by
  unfold State.pumpQs
  split
  · assumption
  · extract_lets +onlyGivenNames -merge -useContext -underBinder x0
    have h0 : Keep q x0 := by
      unfold x0
      refine keep_foldl ?_ ?_
      · refine keep_updColl ?_
        assumption
      · intro _ _ r1
        extract_lets +onlyGivenNames -merge -useContext -underBinder x2
        have h2 : Keep q x2.1 := by
          unfold x2
          refine keep_sendQs ?_
          assumption
        try clear_value x2
        refine keep_ite (fun _ => ?_) (fun _ => ?_)
        · refine keep_updColl ?_
          assumption
        · refine keep_updColl ?_
          assumption
    try clear_value x0
    extract_lets +onlyGivenNames -merge -useContext -underBinder x3
    try clear_value x3
    extract_lets +onlyGivenNames -merge -useContext -underBinder x4
    try clear_value x4
    refine keep_updColl ?_
    assumption

theorem keep_noteReduced {a0 : State} {a1 : Nat} {a2 : Tag} {a3 : Addr} {a4 : Bool} (g0 : Keep q a0) : Keep q (@State.noteReduced a0 a1 a2 a3 a4) := by
  unfold State.noteReduced
  split
  · refine keep_updGuard ?_
    assumption
  · assumption

theorem keep_finishQs {a0 : State} {a1 : Nat} {a2 : Group} {a3 : Env} (g0 : Keep q a0) : Keep q (@State.finishQs a0 a1 a2 a3) := by
  unfold State.finishQs
  split
  · assumption
  · extract_lets +onlyGivenNames -merge -useContext -underBinder x0
    try clear_value x0
    refine keep_ite (fun _ => ?_) (fun _ => ?_)
    · refine keep_cqComplete ?_
      assumption
    · refine keep_ite (fun _ => ?_) (fun _ => ?_)
      · extract_lets +onlyGivenNames -merge -useContext -underBinder x1
        try clear_value x1
        extract_lets +onlyGivenNames -merge -useContext -underBinder x2
        try clear_value x2
        extract_lets +onlyGivenNames -merge -useContext -underBinder x3
        have h3 : Keep q x3.1 := by
          unfold x3
          refine keep_runOp ?_ ?_
          · assumption
          · refine keepO_tryCatch ?_ ?_
            · exact keep_writeAt
            · intro _
              exact keep_failOp
        try clear_value x3
        split
        · refine keep_cqFail ?_
          assumption
        · refine keep_cqComplete ?_
          refine keep_noteReduced ?_
          assumption
      · extract_lets +onlyGivenNames -merge -useContext -underBinder x4
        try clear_value x4
        extract_lets +onlyGivenNames -merge -useContext -underBinder x5
        try clear_value x5
        extract_lets +onlyGivenNames -merge -useContext -underBinder x6
        try clear_value x6
        extract_lets +onlyGivenNames -merge -useContext -underBinder x7
        try clear_value x7
        extract_lets +onlyGivenNames -merge -useContext -underBinder x8
        try clear_value x8
        extract_lets +onlyGivenNames -merge -useContext -underBinder x9
        have h9 : Keep q x9 := by
          unfold x9
          refine keep_updColl ?_
          assumption
        try clear_value x9
        refine keep_ite (fun _ => ?_) (fun _ => ?_)
        · refine keep_cqComplete ?_
          assumption
        · extract_lets +onlyGivenNames -merge -useContext -underBinder x10
          have h10 : Keep q x10.1 := by
            unfold x10
            refine keep_writeDest ?_
            assumption
          try clear_value x10
          split
          · refine keep_cqFail ?_
            assumption
          · extract_lets +onlyGivenNames -merge -useContext -underBinder x11
            try clear_value x11
            extract_lets +onlyGivenNames -merge -useContext -underBinder x12
            have h12 : Keep q x12.1 := by
              unfold x12
              refine keep1_ite (fun _ => ?_) (fun _ => ?_)
              · show Keep q _
                assumption
              · refine keep_runOp ?_ ?_
                · assumption
                · exact keep_Coll_writeStats
            try clear_value x12
            split
            · refine keep_cqFail ?_
              assumption
            · refine keep_cqComplete ?_
              assumption

theorem keep_qsOnward {a0 : State} {a1 : Nat} {a2 : Env} (g0 : Keep q a0) : Keep q (@State.qsOnward a0 a1 a2) := by
  unfold State.qsOnward
  split
  · extract_lets +onlyGivenNames -merge -useContext -underBinder x0
    try clear_value x0
    extract_lets +onlyGivenNames -merge -useContext -underBinder x1
    have h1 : Keep q x1 := by
      unfold x1
      refine keep_pumpQs ?_
      refine keep_updColl ?_
      assumption
    try clear_value x1
    split
    · refine keep_ite (fun _ => ?_) (fun _ => ?_)
      · refine keep_finishQs ?_
        assumption
      · assumption
    · assumption
  · assumption

theorem keep_qsStart {a0 : State} {a1 : Nat} {a2 : Nat} {a3 : Env} {a4 : Coll → List (List Byte)} {a5 : Coll → Group → Ctx → Op Coll} (g0 : Keep q a0) (g5 : ∀ y0 y1 y2, KeepO (a5 y0 y1 y2)) : Keep q (@State.qsStart a0 a1 a2 a3 a4 a5) := by
  unfold State.qsStart
  split
  · assumption
  · refine keep_ite (fun _ => ?_) (fun _ => ?_)
    · assumption
    · refine keep_collStart ?_ ?_ ?_
      · assumption
      · intro _
        refine keepO_bind ?_ ?_
        · exact g5 _ _ _
        · intro _
          exact keepO_pure
      · intro _ _
        refine keep_qsOnward ?_
        assumption

theorem keep_execBarrier {a0 : Fin 64} {a1 : Env} {a2 : State} (g2 : Keep q a2) : KeepX q (@execBarrier a0 a1 a2) := by
  unfold execBarrier
  refine keepX_next ?_
  refine keep_around ?_ ?_
  · assumption
  · intro _ _ _
    refine keep_qsStart ?_ ?_
    · assumption
    · intro _ _ _
      exact keepO_pure

theorem keep_anchorPrep {a0 : Addr → Bool} {a1 : Coll} {a2 : Ctx} : KeepO (@anchorPrep a0 a1 a2) := by
  unfold anchorPrep
  refine keepO_bind ?_ ?_
  · exact keep_takeDist
  · intro _
    refine keepO_bind ?_ ?_
    · exact keep_takeCensus
    · intro _
      extract_lets +onlyGivenNames -merge -useContext -underBinder x0
      try clear_value x0
      extract_lets +onlyGivenNames -merge -useContext -underBinder x1
      try clear_value x1
      extract_lets +onlyGivenNames -merge -useContext -underBinder x2
      try clear_value x2
      exact keepO_pure

theorem keep_execAnchorPre {a0 : Fin 64} {a1 : Bool} {a2 : Env} {a3 : State} (g3 : Keep q a3) : KeepX q (@execAnchorPre a0 a1 a2 a3) := by
  unfold execAnchorPre
  refine keepX_next ?_
  refine keep_around ?_ ?_
  · assumption
  · intro _ _ _
    split
    · assumption
    · refine keep_collStart ?_ ?_ ?_
      · assumption
      · intro _
        refine keepO_bind ?_ ?_
        · exact keep_anchorPrep
        · intro _
          extract_lets +onlyGivenNames -merge -useContext -underBinder x0
          try clear_value x0
          exact keepO_pure
      · intro _ _
        refine keep_qsOnward ?_
        assumption

theorem keep_execQsReduction {a0 : Fin 64} {a1 : Env} {a2 : State} (g2 : Keep q a2) : KeepX q (@execQsReduction a0 a1 a2) := by
  unfold execQsReduction
  refine keepX_next ?_
  refine keep_around ?_ ?_
  · assumption
  · intro _ _ _
    refine keep_qsStart ?_ ?_
    · assumption
    · intro _ _ _
      exact keep_reducePrep

theorem keep_qsNotYet {a0 : State} {a1 : Packet} (g0 : Keep q a0) : Keep q (@State.qsNotYet a0 a1) := by
  unfold State.qsNotYet
  refine keep_respond ?_
  assumption

theorem keep_qsMessage {a0 : State} {a1 : Nat} {a2 : Packet} {a3 : Env} (g0 : Keep q a0) : Keep q (@State.qsMessage a0 a1 a2 a3) := by
  unfold State.qsMessage
  extract_lets +onlyGivenNames -merge -useContext -underBinder x0
  try clear_value x0
  split
  · assumption
  · split
    · assumption
    · refine keep_ite (fun _ => ?_) (fun _ => ?_)
      · assumption
      · split
        · refine keep_updCq ?_
          assumption
        · refine keep_countStale ?_
          assumption
        · assumption
        · split
          · assumption
          · refine keep_ite (fun _ => ?_) (fun _ => ?_)
            · refine keep_orderFault ?_
              assumption
            · refine keep_ite (fun _ => ?_) (fun _ => ?_)
              · refine keep_cqFail ?_
                assumption
              · extract_lets +onlyGivenNames -merge -useContext -underBinder x1
                have h1 : Keep q x1 := by
                  unfold x1
                  refine keep_updColl ?_
                  assumption
                try clear_value x1
                refine keep_qsOnward ?_
                assumption

theorem keep_execQsBarrier {a0 : Packet} {a1 : Env} {a2 : State} (g2 : Keep q a2) : KeepX q (@execQsBarrier a0 a1 a2) := by
  unfold execQsBarrier
  refine keepX_next ?_
  refine keep_around ?_ ?_
  · assumption
  · intro _ _ _
    refine keep_ite (fun _ => ?_) (fun _ => ?_)
    · refine keep_qsNotYet ?_
      assumption
    · refine keep_qsMessage ?_
      assumption

theorem keep_execQsMaxU8 {a0 : Packet} {a1 : Env} {a2 : State} (g2 : Keep q a2) : KeepX q (@execQsMaxU8 a0 a1 a2) := by
  unfold execQsMaxU8
  refine keepX_next ?_
  refine keep_around ?_ ?_
  · assumption
  · intro _ _ _
    refine keep_ite (fun _ => ?_) (fun _ => ?_)
    · refine keep_qsNotYet ?_
      assumption
    · refine keep_qsMessage ?_
      assumption

theorem keep_execQsSumU64 {a0 : Packet} {a1 : Env} {a2 : State} (g2 : Keep q a2) : KeepX q (@execQsSumU64 a0 a1 a2) := by
  unfold execQsSumU64
  refine keepX_next ?_
  refine keep_around ?_ ?_
  · assumption
  · intro _ _ _
    refine keep_ite (fun _ => ?_) (fun _ => ?_)
    · refine keep_qsNotYet ?_
      assumption
    · refine keep_qsMessage ?_
      assumption

theorem keep_execQsCensus {a0 : Packet} {a1 : Env} {a2 : State} (g2 : Keep q a2) : KeepX q (@execQsCensus a0 a1 a2) := by
  unfold execQsCensus
  refine keepX_next ?_
  refine keep_around ?_ ?_
  · assumption
  · intro _ _ _
    refine keep_ite (fun _ => ?_) (fun _ => ?_)
    · refine keep_qsNotYet ?_
      assumption
    · refine keep_qsMessage ?_
      assumption

theorem keep_qsFail {a0 : State} {a1 : Packet} {a2 : Env} (g0 : Keep q a0) : Keep q (@State.qsFail a0 a1 a2) := by
  unfold State.qsFail
  extract_lets +onlyGivenNames -merge -useContext -underBinder x0
  try clear_value x0
  split
  · assumption
  · refine keep_ite (fun _ => ?_) (fun _ => ?_)
    · assumption
    · extract_lets +onlyGivenNames -merge -useContext -underBinder x1
      try clear_value x1
      split
      · refine keep_updCq ?_
        assumption
      · refine keep_countStale ?_
        assumption
      · assumption
      · extract_lets +onlyGivenNames -merge -useContext -underBinder x2
        try clear_value x2
        refine keep_ite (fun _ => ?_) (fun _ => ?_)
        · refine keep_orderFault ?_
          assumption
        · refine keep_ite (fun _ => ?_) (fun _ => ?_)
          · refine keep_orderStop ?_
            assumption
          · refine keep_cqComplete ?_
            assumption

theorem keep_execQsFail {a0 : Packet} {a1 : Env} {a2 : State} (g2 : Keep q a2) : KeepX q (@execQsFail a0 a1 a2) := by
  unfold execQsFail
  refine keepX_next ?_
  refine keep_around ?_ ?_
  · assumption
  · intro _ _ _
    refine keep_ite (fun _ => ?_) (fun _ => ?_)
    · refine keep_qsNotYet ?_
      assumption
    · refine keep_qsFail ?_
      assumption

theorem keep_deferred {a0 : State} {a1 : Nat} {a2 : Env} (g0 : Keep q a0) : Keep q (@State.deferred a0 a1 a2) := by
  unfold State.deferred
  split
  · extract_lets +onlyGivenNames -merge -useContext -underBinder x0
    have h0 : Keep q x0 := by
      unfold x0
      refine keep_updCq ?_
      assumption
    try clear_value x0
    refine keep_ite (fun _ => ?_) (fun _ => ?_)
    · refine keep_ite (fun _ => ?_) (fun _ => ?_)
      · refine keep_qsFail ?_
        assumption
      · refine keep_qsMessage ?_
        assumption
    · extract_lets +onlyGivenNames -merge -useContext -underBinder x1
      try clear_value x1
      refine keep_ite (fun _ => ?_) (fun _ => ?_)
      · refine keep_failChunk ?_
        assumption
      · refine keep_dataChunk ?_
        assumption
  · assumption

theorem keep_execDeferredChunk {a0 : Fin 64} {a1 : Env} {a2 : State} (g2 : Keep q a2) : KeepX q (@execDeferredChunk a0 a1 a2) := by
  unfold execDeferredChunk
  refine keepX_next ?_
  refine keep_around ?_ ?_
  · assumption
  · intro _ _ _
    refine keep_deferred ?_
    assumption

end Sys2Proof.Laws
end

