-- ==== Sys2Proof/Laws/KeepExperts.lean ====
section
/-! SUPPORT. What each operation of Machine/Experts.lean keeps: the queue and the invariant of Safety.lean, or the canonical form of memory. -/
namespace Sys2Proof.Laws
open Sys2Proof Sys2Proof.Machine
variable {q : List Instr}

theorem keep_needShape {a0 : TD} {a1 : List Nat} : KeepO (@needShape a0 a1) := by
  unfold needShape
  refine keepO_ite (fun _ => ?_) (fun _ => ?_)
  · exact keepO_pure
  · exact keep_failOp

theorem keep_needType {a0 : TD} {a1 : Bool} : KeepO (@needType a0 a1) := by
  unfold needType
  refine keepO_ite (fun _ => ?_) (fun _ => ?_)
  · exact keepO_pure
  · exact keep_failOp

theorem keep_noOverlap {a0 : List TD} {a1 : List TD} : KeepO (@noOverlap a0 a1) := by
  unfold noOverlap
  refine keepO_get ?_
  intro _ _
  split
  · exact keep_failOp
  · exact keepO_pure

theorem keep_Coll_prepDispatch {a0 : Coll} {a1 : Group} {a2 : Placement} {a3 : Bool} {a4 : Ctx} : KeepO (@Coll.prepDispatch a0 a1 a2 a3 a4) := by
  unfold Coll.prepDispatch
  extract_lets +onlyGivenNames -merge -useContext -underBinder x0
  try clear_value x0
  extract_lets +onlyGivenNames -merge -useContext -underBinder x1
  have h1 : KeepO x1 := by
    unfold x1
    exact keepO_pure
  try clear_value x1
  extract_lets +onlyGivenNames -merge -useContext -underBinder x2
  have h2 : ∀ y0, KeepO (@x2 y0) := by
    intro _
    unfold x2
    try dsimp -zeta only
    extract_lets +onlyGivenNames -merge -useContext -underBinder x3
    have h3 : ∀ y0, KeepO (@x3 y0) := by
      intro _
      unfold x3
      try dsimp -zeta only
      refine keepO_bind ?_ ?_
      · exact keep_takeDist
      · intro _
        extract_lets +onlyGivenNames -merge -useContext -underBinder x4
        have h4 : ∀ y0, KeepO (@x4 y0) := by
          intro _
          unfold x4
          try dsimp -zeta only
          refine keepO_bind ?_ ?_
          · exact keep_takeDist
          · intro _
            extract_lets +onlyGivenNames -merge -useContext -underBinder x5
            have h5 : ∀ y0, KeepO (@x5 y0) := by
              intro _
              unfold x5
              try dsimp -zeta only
              extract_lets +onlyGivenNames -merge -useContext -underBinder x6
              have h6 : ∀ y0, KeepO (@x6 y0) := by
                intro _
                unfold x6
                try dsimp -zeta only
                refine keepO_bind ?_ ?_
                · exact keep_needType
                · intro _
                  refine keepO_bind ?_ ?_
                  · exact keep_needType
                  · intro _
                    extract_lets +onlyGivenNames -merge -useContext -underBinder x7
                    have h7 : ∀ y0, KeepO (@x7 y0) := by
                      intro _
                      unfold x7
                      try dsimp -zeta only
                      extract_lets +onlyGivenNames -merge -useContext -underBinder x8
                      try clear_value x8
                      extract_lets +onlyGivenNames -merge -useContext -underBinder x9
                      try clear_value x9
                      refine keepO_bind ?_ ?_
                      · exact keep_needShape
                      · intro _
                        refine keepO_bind ?_ ?_
                        · exact keep_needShape
                        · intro _
                          extract_lets +onlyGivenNames -merge -useContext -underBinder x10
                          have h10 : ∀ y0, KeepO (@x10 y0) := by
                            intro _
                            unfold x10
                            try dsimp -zeta only
                            extract_lets +onlyGivenNames -merge -useContext -underBinder x11
                            have h11 : ∀ y0, KeepO (@x11 y0) := by
                              intro _
                              unfold x11
                              try dsimp -zeta only
                              refine keepO_get ?_
                              intro _ _
                              extract_lets +onlyGivenNames -merge -useContext -underBinder x12
                              have h12 : ∀ y0, KeepO (@x12 y0) := by
                                intro _
                                unfold x12
                                try dsimp -zeta only
                                extract_lets +onlyGivenNames -merge -useContext -underBinder x13
                                have h13 : ∀ y0, KeepO (@x13 y0) := by
                                  intro _
                                  unfold x13
                                  try dsimp -zeta only
                                  refine keepO_bind ?_ ?_
                                  · exact keep_readPiece
                                  · intro r14
                                    obtain ⟨_, _⟩ := r14
                                    try dsimp -zeta only
                                    extract_lets +onlyGivenNames -merge -useContext -underBinder x15
                                    try clear_value x15
                                    extract_lets +onlyGivenNames -merge -useContext -underBinder x16
                                    have h16 : ∀ y0, KeepO (@x16 y0) := by
                                      intro _
                                      unfold x16
                                      try dsimp -zeta only
                                      refine keepO_bind ?_ ?_
                                      · exact keep_readPiece
                                      · intro r17
                                        obtain ⟨_, _⟩ := r17
                                        try dsimp -zeta only
                                        refine keepO_bind ?_ ?_
                                        · refine keepO_filterMapM ?_
                                          intro r18
                                          split
                                          · extract_lets +onlyGivenNames -merge -useContext -underBinder x19
                                            try clear_value x19
                                            split
                                            · extract_lets +onlyGivenNames -merge -useContext -underBinder x20
                                              try clear_value x20
                                              exact keepO_pure
                                            · exact keep_failOp
                                          · exact keepO_pure
                                        · intro _
                                          extract_lets +onlyGivenNames -merge -useContext -underBinder x21
                                          try clear_value x21
                                          exact keepO_pure
                                    try clear_value x16
                                    split
                                    · refine keepO_ite (fun _ => ?_) (fun _ => ?_)
                                      · exact h16 _
                                      · refine keepO_bind ?_ ?_
                                        · exact keep_failOp
                                        · intro _
                                          exact h16 _
                                    · exact h16 _
                                try clear_value x13
                                refine keepO_ite (fun _ => ?_) (fun _ => ?_)
                                · refine keepO_bind ?_ ?_
                                  · exact keep_noOverlap
                                  · intro _
                                    exact h13 _
                                · exact h13 _
                              try clear_value x12
                              refine keepO_ite (fun _ => ?_) (fun _ => ?_)
                              · split
                                · refine keepO_ite (fun _ => ?_) (fun _ => ?_)
                                  · exact h12 _
                                  · refine keepO_bind ?_ ?_
                                    · exact keep_failOp
                                    · intro _
                                      exact h12 _
                                · refine keepO_bind ?_ ?_
                                  · exact keep_failOp
                                  · intro _
                                    exact h12 _
                              · exact h12 _
                            try clear_value x11
                            refine keepO_ite (fun _ => ?_) (fun _ => ?_)
                            · refine keepO_bind ?_ ?_
                              · exact keep_failOp
                              · intro _
                                exact h11 _
                            · exact h11 _
                          try clear_value x10
                          refine keepO_ite (fun _ => ?_) (fun _ => ?_)
                          · extract_lets +onlyGivenNames -merge -useContext -underBinder x22
                            try clear_value x22
                            refine keepO_bind ?_ ?_
                            · exact keep_needShape
                            · intro _
                              refine keepO_bind ?_ ?_
                              · exact keep_needShape
                              · intro _
                                extract_lets +onlyGivenNames -merge -useContext -underBinder x23
                                have h23 : ∀ y0, KeepO (@x23 y0) := by
                                  intro _
                                  unfold x23
                                  try dsimp -zeta only
                                  refine keepO_ite (fun _ => ?_) (fun _ => ?_)
                                  · refine keepO_bind ?_ ?_
                                    · exact keep_failOp
                                    · intro _
                                      exact h10 _
                                  · exact h10 _
                                try clear_value x23
                                refine keepO_ite (fun _ => ?_) (fun _ => ?_)
                                · refine keepO_bind ?_ ?_
                                  · exact keep_needShape
                                  · intro _
                                    exact h23 _
                                · exact h23 _
                          · exact h10 _
                    try clear_value x7
                    refine keepO_ite (fun _ => ?_) (fun _ => ?_)
                    · refine keepO_bind ?_ ?_
                      · exact keep_needType
                      · intro _
                        refine keepO_bind ?_ ?_
                        · exact keep_needType
                        · intro _
                          refine keepO_ite (fun _ => ?_) (fun _ => ?_)
                          · refine keepO_bind ?_ ?_
                            · exact keep_needType
                            · intro _
                              exact h7 _
                          · exact h7 _
                    · exact h7 _
              try clear_value x6
              refine keepO_ite (fun _ => ?_) (fun _ => ?_)
              · refine keepO_bind ?_ ?_
                · exact keep_takeDist
                · intro _
                  exact h6 _
              · refine keepO_bind ?_ ?_
                · assumption
                · intro _
                  exact h6 _
            try clear_value x5
            refine keepO_ite (fun _ => ?_) (fun _ => ?_)
            · refine keepO_bind ?_ ?_
              · exact keep_takeDist
              · intro _
                exact h5 _
            · refine keepO_bind ?_ ?_
              · assumption
              · intro _
                exact h5 _
        try clear_value x4
        refine keepO_ite (fun _ => ?_) (fun _ => ?_)
        · refine keepO_bind ?_ ?_
          · exact keep_takeDist
          · intro _
            exact h4 _
        · refine keepO_bind ?_ ?_
          · assumption
          · intro _
            exact h4 _
    try clear_value x3
    refine keepO_ite (fun _ => ?_) (fun _ => ?_)
    · refine keepO_bind ?_ ?_
      · exact keep_failOp
      · intro _
        exact h3 _
    · exact h3 _
  try clear_value x2
  refine keepO_ite (fun _ => ?_) (fun _ => ?_)
  · refine keepO_bind ?_ ?_
    · exact keep_failOp
    · intro _
      exact h2 _
  · exact h2 _

theorem keep_withPlacement {a0 : State} {a1 : Nat} {a2 : Coll} {a3 : Group} {a4 : Env} {a5 : State → Placement → State} (g0 : Keep q a0) (g5 : ∀ y0 y1, Keep q y0 → Keep q (a5 y0 y1)) : Keep q (@State.withPlacement a0 a1 a2 a3 a4 a5) := by
  unfold State.withPlacement
  refine keep_ite (fun _ => ?_) (fun _ => ?_)
  · refine keep_cqFail ?_
    assumption
  · extract_lets +onlyGivenNames -merge -useContext -underBinder x0
    have h0 : Keep q x0.1 := by
      unfold x0
      refine keep_runOp ?_ ?_
      · assumption
      · exact keep_takePlacement
    try clear_value x0
    split
    · refine keep_cqFail ?_
      assumption
    · refine g5 _ _ ?_
      assumption

theorem keep_dispatch {a0 : State} {a1 : Nat} {a2 : Env} (g0 : Keep q a0) : Keep q (@State.dispatch a0 a1 a2) := by
  unfold State.dispatch
  split
  · assumption
  · refine keep_withPlacement ?_ ?_
    · assumption
    · intro _ _ _
      extract_lets +onlyGivenNames -merge -useContext -underBinder x0
      try clear_value x0
      refine keep_collStart ?_ ?_ ?_
      · assumption
      · intro _
        refine keepO_bind ?_ ?_
        · exact keep_Coll_prepDispatch
        · intro _
          exact keepO_pure
      · intro _ _
        refine keep_onward ?_
        assumption

theorem keep_execExpertDispatch {a0 : Fin 64} {a1 : Env} {a2 : State} (g2 : Keep q a2) : KeepX q (@execExpertDispatch a0 a1 a2) := by
  unfold execExpertDispatch
  refine keepX_next ?_
  refine keep_around ?_ ?_
  · assumption
  · intro _ _ _
    refine keep_dispatch ?_
    assumption

theorem keep_writeRows {a0 : Ctx} {a1 : TD} {a2 : Nat → Option (List Byte)} : KeepO (@writeRows a0 a1 a2) := by
  unfold writeRows
  refine keepO_forM ?_
  intro _
  extract_lets +onlyGivenNames -merge -useContext -underBinder x0
  try clear_value x0
  extract_lets +onlyGivenNames -merge -useContext -underBinder x1
  try clear_value x1
  extract_lets +onlyGivenNames -merge -useContext -underBinder x2
  try clear_value x2
  extract_lets +onlyGivenNames -merge -useContext -underBinder x3
  try clear_value x3
  extract_lets +onlyGivenNames -merge -useContext -underBinder x4
  try clear_value x4
  refine keepO_ite (fun _ => ?_) (fun _ => ?_)
  · exact keepO_pure
  · extract_lets +onlyGivenNames -merge -useContext -underBinder x5
    try clear_value x5
    extract_lets +onlyGivenNames -merge -useContext -underBinder x6
    have h6 : ∀ y0, KeepO (@x6 y0) := by
      intro _
      unfold x6
      try dsimp -zeta only
      exact keep_censusUpdate
    try clear_value x6
    refine keepO_ite (fun _ => ?_) (fun _ => ?_)
    · refine keepO_bind ?_ ?_
      · exact keep_writeWhole
      · intro _
        exact h6 _
    · refine keepO_bind ?_ ?_
      · exact keep_checkTile
      · intro _
        extract_lets +onlyGivenNames -merge -useContext -underBinder x7
        try clear_value x7
        extract_lets +onlyGivenNames -merge -useContext -underBinder x8
        try clear_value x8
        refine keepO_bind ?_ ?_
        · exact keep_writeUpdate
        · intro _
          exact h6 _

theorem keep_writeMap {a0 : Ctx} {a1 : TD} {a2 : List Nat} : KeepO (@writeMap a0 a1 a2) := by
  unfold writeMap
  refine keepO_forM ?_
  intro _
  extract_lets +onlyGivenNames -merge -useContext -underBinder x0
  try clear_value x0
  refine keepO_bind ?_ ?_
  · exact keep_writeWhole
  · intro _
    exact keep_censusUpdate

theorem keep_Coll_place {a0 : Coll} {a1 : Placement} {a2 : Ctx} : KeepO (@Coll.place a0 a1 a2) := by
  unfold Coll.place
  extract_lets +onlyGivenNames -merge -useContext -underBinder x0
  try clear_value x0
  extract_lets +onlyGivenNames -merge -useContext -underBinder x1
  try clear_value x1
  extract_lets +onlyGivenNames -merge -useContext -underBinder x2
  try clear_value x2
  extract_lets +onlyGivenNames -merge -useContext -underBinder x3
  try clear_value x3
  extract_lets +onlyGivenNames -merge -useContext -underBinder x4
  have h4 : ∀ y0, KeepO (@x4 y0) := by
    intro _
    unfold x4
    try dsimp -zeta only
    extract_lets +onlyGivenNames -merge -useContext -underBinder x5
    try clear_value x5
    extract_lets +onlyGivenNames -merge -useContext -underBinder x6
    have h6 : ∀ y0, KeepO (@x6 y0) := by
      intro _
      unfold x6
      try dsimp -zeta only
      extract_lets +onlyGivenNames -merge -useContext -underBinder x7
      try clear_value x7
      refine keepO_bind ?_ ?_
      · exact keep_writeRows
      · intro _
        extract_lets +onlyGivenNames -merge -useContext -underBinder x8
        have h8 : ∀ y0, KeepO (@x8 y0) := by
          intro _
          unfold x8
          try dsimp -zeta only
          extract_lets +onlyGivenNames -merge -useContext -underBinder x9
          try clear_value x9
          refine keepO_bind ?_ ?_
          · exact keep_writeMap
          · intro _
            extract_lets +onlyGivenNames -merge -useContext -underBinder x10
            try clear_value x10
            exact keepO_pure
        try clear_value x8
        refine keepO_ite (fun _ => ?_) (fun _ => ?_)
        · refine keepO_bind ?_ ?_
          · exact keep_writeRows
          · intro _
            exact h8 _
        · exact h8 _
    try clear_value x6
    refine keepO_ite (fun _ => ?_) (fun _ => ?_)
    · refine keepO_bind ?_ ?_
      · exact keep_failOp
      · intro _
        exact h6 _
    · exact h6 _
  try clear_value x4
  refine keepO_ite (fun _ => ?_) (fun _ => ?_)
  · refine keepO_bind ?_ ?_
    · exact keep_failOp
    · intro _
      exact h4 _
  · exact h4 _

theorem keep_placement {a0 : State} {a1 : Nat} {a2 : Env} (g0 : Keep q a0) : Keep q (@State.placement a0 a1 a2) := by
  unfold State.placement
  split
  · refine keep_ite (fun _ => ?_) (fun _ => ?_)
    · assumption
    · refine keep_withPlacement ?_ ?_
      · assumption
      · intro _ _ _
        refine keep_ite (fun _ => ?_) (fun _ => ?_)
        · refine keep_updColl ?_
          assumption
        · extract_lets +onlyGivenNames -merge -useContext -underBinder x0
          try clear_value x0
          extract_lets +onlyGivenNames -merge -useContext -underBinder x1
          have h1 : Keep q x1.1 := by
            unfold x1
            refine keep_runOp ?_ ?_
            · assumption
            · exact keep_Coll_place
          try clear_value x1
          split
          · refine keep_cqFail ?_
            assumption
          · refine keep_updColl ?_
            assumption
  · assumption

theorem keep_execExpertPlacement {a0 : Fin 64} {a1 : Env} {a2 : State} (g2 : Keep q a2) : KeepX q (@execExpertPlacement a0 a1 a2) := by
  unfold execExpertPlacement
  refine keepX_next ?_
  refine keep_around ?_ ?_
  · assumption
  · intro _ _ _
    refine keep_placement ?_
    assumption

theorem keep_wireTile {a0 : Ctx} {a1 : TD} {a2 : Nat} : KeepO (@wireTile a0 a1 a2) := by
  unfold wireTile
  refine keepO_bind ?_ ?_
  · exact keep_checkTile
  · intro _
    extract_lets +onlyGivenNames -merge -useContext -underBinder x0
    try clear_value x0
    refine keepO_ite (fun _ => ?_) (fun _ => ?_)
    · exact keep_failOp
    · exact keepO_pure

theorem keep_ownTiles {a0 : Ctx} {a1 : TD} : KeepO (@ownTiles a0 a1) := by
  unfold ownTiles
  refine keepO_forM ?_
  intro _
  refine keepO_bind ?_ ?_
  · exact keep_wireTile
  · intro r0
    obtain ⟨_, _⟩ := r0
    try dsimp -zeta only
    refine keepO_ite (fun _ => ?_) (fun _ => ?_)
    · exact keep_failOp
    · exact keepO_pure

theorem keep_Coll_prepCombine {a0 : Coll} {a1 : Group} {a2 : Placement} {a3 : Bool} {a4 : Ctx} : KeepO (@Coll.prepCombine a0 a1 a2 a3 a4) := by
  unfold Coll.prepCombine
  extract_lets +onlyGivenNames -merge -useContext -underBinder x0
  try clear_value x0
  extract_lets +onlyGivenNames -merge -useContext -underBinder x1
  have h1 : KeepO x1 := by
    unfold x1
    exact keepO_pure
  try clear_value x1
  extract_lets +onlyGivenNames -merge -useContext -underBinder x2
  have h2 : ∀ y0, KeepO (@x2 y0) := by
    intro _
    unfold x2
    try dsimp -zeta only
    refine keepO_bind ?_ ?_
    · exact keep_takeDist
    · intro _
      extract_lets +onlyGivenNames -merge -useContext -underBinder x3
      have h3 : ∀ y0, KeepO (@x3 y0) := by
        intro _
        unfold x3
        try dsimp -zeta only
        refine keepO_bind ?_ ?_
        · exact keep_takeDist
        · intro _
          refine keepO_bind ?_ ?_
          · exact keep_needType
          · intro _
            refine keepO_bind ?_ ?_
            · exact keep_needType
            · intro _
              extract_lets +onlyGivenNames -merge -useContext -underBinder x4
              have h4 : ∀ y0, KeepO (@x4 y0) := by
                intro _
                unfold x4
                try dsimp -zeta only
                refine keepO_bind ?_ ?_
                · exact keep_takeTable
                · intro _
                  extract_lets +onlyGivenNames -merge -useContext -underBinder x5
                  have h5 : ∀ y0, KeepO (@x5 y0) := by
                    intro _
                    unfold x5
                    try dsimp -zeta only
                    extract_lets +onlyGivenNames -merge -useContext -underBinder x6
                    try clear_value x6
                    extract_lets +onlyGivenNames -merge -useContext -underBinder x7
                    try clear_value x7
                    refine keepO_bind ?_ ?_
                    · exact keep_needShape
                    · intro _
                      refine keepO_bind ?_ ?_
                      · exact keep_needShape
                      · intro _
                        extract_lets +onlyGivenNames -merge -useContext -underBinder x8
                        have h8 : ∀ y0, KeepO (@x8 y0) := by
                          intro _
                          unfold x8
                          try dsimp -zeta only
                          extract_lets +onlyGivenNames -merge -useContext -underBinder x9
                          have h9 : ∀ y0, KeepO (@x9 y0) := by
                            intro _
                            unfold x9
                            try dsimp -zeta only
                            refine keepO_bind ?_ ?_
                            · exact keep_noOverlap
                            · intro _
                              refine keepO_bind ?_ ?_
                              · exact keep_ownTiles
                              · intro _
                                refine keepO_bind ?_ ?_
                                · exact keep_readPiece
                                · intro r10
                                  obtain ⟨_, _⟩ := r10
                                  try dsimp -zeta only
                                  extract_lets +onlyGivenNames -merge -useContext -underBinder x11
                                  try clear_value x11
                                  extract_lets +onlyGivenNames -merge -useContext -underBinder x12
                                  try clear_value x12
                                  extract_lets +onlyGivenNames -merge -useContext -underBinder x13
                                  try clear_value x13
                                  refine keepO_ite (fun _ => ?_) (fun _ => ?_)
                                  · exact keepO_pure
                                  · refine keepO_bind ?_ ?_
                                    · exact keep_readPiece
                                    · intro r14
                                      obtain ⟨_, _⟩ := r14
                                      try dsimp -zeta only
                                      refine keepO_bind ?_ ?_
                                      · exact keep_readPiece
                                      · intro r15
                                        obtain ⟨_, _⟩ := r15
                                        try dsimp -zeta only
                                        refine keepO_bind ?_ ?_
                                        · refine keepO_filterMapM ?_
                                          intro _
                                          extract_lets +onlyGivenNames -merge -useContext -underBinder x16
                                          try clear_value x16
                                          extract_lets +onlyGivenNames -merge -useContext -underBinder x17
                                          try clear_value x17
                                          refine keepO_ite (fun _ => ?_) (fun _ => ?_)
                                          · exact keepO_pure
                                          · refine keepO_ite (fun _ => ?_) (fun _ => ?_)
                                            · exact keep_failOp
                                            · exact keepO_pure
                                        · intro _
                                          exact keepO_pure
                          try clear_value x9
                          refine keepO_ite (fun _ => ?_) (fun _ => ?_)
                          · refine keepO_bind ?_ ?_
                            · exact keep_failOp
                            · intro _
                              exact h9 _
                          · exact h9 _
                        try clear_value x8
                        refine keepO_ite (fun _ => ?_) (fun _ => ?_)
                        · extract_lets +onlyGivenNames -merge -useContext -underBinder x18
                          try clear_value x18
                          refine keepO_bind ?_ ?_
                          · exact keep_needShape
                          · intro _
                            refine keepO_bind ?_ ?_
                            · exact keep_needShape
                            · intro _
                              refine keepO_ite (fun _ => ?_) (fun _ => ?_)
                              · refine keepO_bind ?_ ?_
                                · exact keep_failOp
                                · intro _
                                  exact h8 _
                              · exact h8 _
                        · exact h8 _
                  try clear_value x5
                  refine keepO_ite (fun _ => ?_) (fun _ => ?_)
                  · refine keepO_bind ?_ ?_
                    · exact keep_failOp
                    · intro _
                      exact h5 _
                  · exact h5 _
              try clear_value x4
              refine keepO_ite (fun _ => ?_) (fun _ => ?_)
              · refine keepO_bind ?_ ?_
                · exact keep_needType
                · intro _
                  refine keepO_bind ?_ ?_
                  · exact keep_needType
                  · intro _
                    exact h4 _
              · exact h4 _
      try clear_value x3
      refine keepO_ite (fun _ => ?_) (fun _ => ?_)
      · refine keepO_bind ?_ ?_
        · exact keep_takeDist
        · intro _
          exact h3 _
      · refine keepO_bind ?_ ?_
        · assumption
        · intro _
          exact h3 _
  try clear_value x2
  refine keepO_ite (fun _ => ?_) (fun _ => ?_)
  · refine keepO_bind ?_ ?_
    · exact keep_takeDist
    · intro _
      exact h2 _
  · refine keepO_bind ?_ ?_
    · assumption
    · intro _
      exact h2 _

theorem keep_Coll_addRows {a0 : Coll} {a1 : Ctx} : KeepO (@Coll.addRows a0 a1) := by
  unfold Coll.addRows
  extract_lets +onlyGivenNames -merge -useContext -underBinder x0
  try clear_value x0
  extract_lets +onlyGivenNames -merge -useContext -underBinder x1
  try clear_value x1
  extract_lets +onlyGivenNames -merge -useContext -underBinder x2
  try clear_value x2
  extract_lets +onlyGivenNames -merge -useContext -underBinder x3
  try clear_value x3
  refine keepO_bind ?_ ?_
  · refine keepO_mapM ?_
    intro _
    refine keepO_bind ?_ ?_
    · exact keep_wireTile
    · intro r4
      obtain ⟨_, _⟩ := r4
      try dsimp -zeta only
      extract_lets +onlyGivenNames -merge -useContext -underBinder x5
      try clear_value x5
      refine keepO_ite (fun _ => ?_) (fun _ => ?_)
      · exact keepO_pure
      · extract_lets +onlyGivenNames -merge -useContext -underBinder x6
        try clear_value x6
        extract_lets +onlyGivenNames -merge -useContext -underBinder x7
        try clear_value x7
        refine keepO_bind ?_ ?_
        · exact keep_writeUpdate
        · intro _
          refine keepO_bind ?_ ?_
          · exact keep_censusUpdate
          · intro _
            exact keepO_pure
  · intro _
    exact keepO_pure

theorem keep_combineDone {a0 : State} {a1 : Nat} {a2 : Env} (g0 : Keep q a0) : Keep q (@State.combineDone a0 a1 a2) := by
  unfold State.combineDone
  split
  · refine keep_ite (fun _ => ?_) (fun _ => ?_)
    · assumption
    · extract_lets +onlyGivenNames -merge -useContext -underBinder x0
      have h0 : Keep q x0.1 := by
        unfold x0
        refine keep_runOp ?_ ?_
        · assumption
        · exact keep_Coll_addRows
      try clear_value x0
      split
      · refine keep_cqFail ?_
        assumption
      · refine keep_updColl ?_
        assumption
  · assumption

theorem keep_combine {a0 : State} {a1 : Nat} {a2 : Env} (g0 : Keep q a0) : Keep q (@State.combine a0 a1 a2) := by
  unfold State.combine
  split
  · refine keep_combineDone ?_
    assumption
  · refine keep_withPlacement ?_ ?_
    · assumption
    · intro _ _ _
      extract_lets +onlyGivenNames -merge -useContext -underBinder x0
      try clear_value x0
      refine keep_collStart ?_ ?_ ?_
      · assumption
      · intro _
        refine keepO_bind ?_ ?_
        · exact keep_Coll_prepCombine
        · intro _
          exact keepO_pure
      · intro _ _
        refine keep_combineDone ?_
        refine keep_onward ?_
        assumption

theorem keep_execExpertCombine {a0 : Fin 64} {a1 : Env} {a2 : State} (g2 : Keep q a2) : KeepX q (@execExpertCombine a0 a1 a2) := by
  unfold execExpertCombine
  refine keepX_next ?_
  refine keep_around ?_ ?_
  · assumption
  · intro _ _ _
    refine keep_combine ?_
    assumption

end Sys2Proof.Laws
end

