-- ==== Sys2Proof/Laws/KeepVarnish.lean ====
section
/-! SUPPORT. What each operation of Machine/Varnish.lean keeps: the queue and the invariant of Safety.lean, or the canonical form of memory. -/
namespace Sys2Proof.Laws
open Sys2Proof Sys2Proof.Machine
variable {q : List Instr}

theorem keep_VD_takeParams {a0 : VD} {a1 : Ctx} : KeepO (@VD.takeParams a0 a1) := by
  unfold VD.takeParams
  refine keepO_bind ?_ ?_
  · refine keepO_tryCatch ?_ ?_
    · exact keep_readAt
    · intro _
      exact keep_failOp
  · intro _
    extract_lets +onlyGivenNames -merge -useContext -underBinder x0
    have h0 : ∀ y0 y1, KeepO (@x0 y0 y1) := by
      intro _ _
      unfold x0
      try dsimp -zeta only
      exact keep_failOp
    try clear_value x0
    extract_lets +onlyGivenNames -merge -useContext -underBinder x1
    try clear_value x1
    refine keepO_ite (fun _ => ?_) (fun _ => ?_)
    · exact h0 _ _
    · refine keepO_ite (fun _ => ?_) (fun _ => ?_)
      · exact h0 _ _
      · refine keepO_ite (fun _ => ?_) (fun _ => ?_)
        · exact h0 _ _
        · refine keepO_ite (fun _ => ?_) (fun _ => ?_)
          · exact h0 _ _
          · exact keepO_pure

theorem keep_VD_plan {a0 : VD} {a1 : Ctx} {a2 : Addr} {a3 : Nat} {a4 : List TD} : KeepO (@VD.plan a0 a1 a2 a3 a4) := by
  unfold VD.plan
  extract_lets +onlyGivenNames -merge -useContext -underBinder x0
  have h0 : ∀ y0 y1, KeepO (@x0 y0 y1) := by
    intro _ _
    unfold x0
    try dsimp -zeta only
    exact keep_failOp
  try clear_value x0
  split
  · exact h0 _ _
  · refine keepO_ite (fun _ => ?_) (fun _ => ?_)
    · exact keepO_pure
    · split
      · exact h0 _ _
      · refine keepO_bind ?_ ?_
        · exact keep_VD_takeParams
        · intro _
          extract_lets +onlyGivenNames -merge -useContext -underBinder x1
          have h1 : ∀ y0 y1 y2, KeepO (@x1 y0 y1 y2) := by
            intro _ _ _
            unfold x1
            try dsimp -zeta only
            split
            · exact keepO_pure
            · refine keepO_ite (fun _ => ?_) (fun _ => ?_)
              · exact keepO_pure
              · exact keep_takeTD
          try clear_value x1
          refine keepO_bind ?_ ?_
          · exact h1 _ _ _
          · intro _
            refine keepO_bind ?_ ?_
            · exact h1 _ _ _
            · intro _
              refine keepO_bind ?_ ?_
              · exact h1 _ _ _
              · intro _
                refine keepO_bind ?_ ?_
                · exact h1 _ _ _
                · intro _
                  refine keepO_bind ?_ ?_
                  · exact h1 _ _ _
                  · intro _
                    extract_lets +onlyGivenNames -merge -useContext -underBinder x2
                    try clear_value x2
                    refine keepO_ite (fun _ => ?_) (fun _ => ?_)
                    · exact keepO_pure
                    · split
                      · exact keep_failOp
                      · extract_lets +onlyGivenNames -merge -useContext -underBinder x3
                        have h3 : ∀ y0, KeepO (@x3 y0) := by
                          intro _
                          unfold x3
                          try dsimp -zeta only
                          extract_lets +onlyGivenNames -merge -useContext -underBinder x4
                          try clear_value x4
                          refine keepO_get ?_
                          intro _ _
                          split
                          · exact keep_failOp
                          · exact keep_failOp
                          · exact keepO_pure
                        try clear_value x3
                        refine keepO_ite (fun _ => ?_) (fun _ => ?_)
                        · refine keepO_bind ?_ ?_
                          · exact keepO_pure
                          · intro _
                            exact h3 _
                        · refine keepO_bind ?_ ?_
                          · exact keep_takeTable
                          · intro _
                            refine keepO_bind ?_ ?_
                            · exact keepO_pure
                            · intro _
                              exact h3 _

theorem keep_gradSays {a0 : Ctx} {a1 : Nat} {a2 : TD} {a3 : List Nat} : KeepO (@gradSays a0 a1 a2 a3) := by
  induction a3 generalizing a0 a1 a2 with
  | nil =>
    rw [gradSays]
    exact keepO_pure
  | cons u1 u2 ih =>
    rw [gradSays]
    refine keepO_bind ?_ ?_
    · exact keep_readAt
    · intro _
      extract_lets +onlyGivenNames -merge -useContext -underBinder x0
      try clear_value x0
      refine keepO_get ?_
      intro _ _
      extract_lets +onlyGivenNames -merge -useContext -underBinder x1
      try clear_value x1
      extract_lets +onlyGivenNames -merge -useContext -underBinder x2
      try clear_value x2
      refine keepO_bind ?_ ?_
      · apply ih
      · intro _
        extract_lets +onlyGivenNames -merge -useContext -underBinder x3
        try clear_value x3
        exact keepO_pure

theorem keep_VPlan_writeNarrow {a0 : VPlan} {a1 : Ctx} {a2 : Nat} {a3 : List Nat} : KeepO (@VPlan.writeNarrow a0 a1 a2 a3) := by
  unfold VPlan.writeNarrow
  extract_lets +onlyGivenNames -merge -useContext -underBinder x0
  try clear_value x0
  extract_lets +onlyGivenNames -merge -useContext -underBinder x1
  try clear_value x1
  extract_lets +onlyGivenNames -merge -useContext -underBinder x2
  try clear_value x2
  refine keepO_bind ?_ ?_
  · exact keep_writeTilePart
  · intro _
    exact keep_censusUpdate

theorem keep_stateSide {a0 : Ctx} {a1 : TD} {a2 : Nat} {a3 : List Nat} : KeepO (@stateSide a0 a1 a2 a3) := by
  unfold stateSide
  extract_lets +onlyGivenNames -merge -useContext -underBinder x0
  try clear_value x0
  exact keep_writeAt

theorem keep_stateData {a0 : Ctx} {a1 : TD} {a2 : Nat} {a3 : List Nat} : KeepO (@stateData a0 a1 a2 a3) := by
  unfold stateData
  exact keep_writeElems

theorem keep_stateCensus {a0 : Ctx} {a1 : TD} {a2 : List Nat} : KeepO (@stateCensus a0 a1 a2) := by
  unfold stateCensus
  exact keep_censusUpdate

theorem keep_VPlan_tile {a0 : VPlan} {a1 : Ctx} {a2 : Nat} {a3 : Nat} {a4 : Bool} {a5 : VSum} : KeepO (@VPlan.tile a0 a1 a2 a3 a4 a5) := by
  unfold VPlan.tile
  extract_lets +onlyGivenNames -merge -useContext -underBinder x0
  try clear_value x0
  extract_lets +onlyGivenNames -merge -useContext -underBinder x1
  try clear_value x1
  refine keepO_ite (fun _ => ?_) (fun _ => ?_)
  · refine keepO_bind ?_ ?_
    · exact keep_checkTile
    · intro _
      refine keepO_ite (fun _ => ?_) (fun _ => ?_)
      · exact keepO_pure
      · extract_lets +onlyGivenNames -merge -useContext -underBinder x2
        have h2 : ∀ y0, KeepO (@x2 y0) := by
          intro _
          unfold x2
          try dsimp -zeta only
          exact keepO_pure
        try clear_value x2
        refine keepO_ite (fun _ => ?_) (fun _ => ?_)
        · refine keepO_bind ?_ ?_
          · exact keep_VPlan_writeNarrow
          · intro _
            exact h2 _
        · exact h2 _
  · refine keepO_bind ?_ ?_
    · exact keep_checkTile
    · intro _
      extract_lets +onlyGivenNames -merge -useContext -underBinder x3
      have h3 : ∀ y0, KeepO (@x3 y0) := by
        intro _
        unfold x3
        try dsimp -zeta only
        refine keepO_bind ?_ ?_
        · exact keep_checkTile
        · intro _
          refine keepO_bind ?_ ?_
          · exact keep_checkTile
          · intro _
            extract_lets +onlyGivenNames -merge -useContext -underBinder x4
            have h4 : ∀ y0, KeepO (@x4 y0) := by
              intro _
              unfold x4
              try dsimp -zeta only
              refine keepO_ite (fun _ => ?_) (fun _ => ?_)
              · exact keepO_pure
              · refine keepO_ite (fun _ => ?_) (fun _ => ?_)
                · exact keepO_pure
                · refine keepO_ite (fun _ => ?_) (fun _ => ?_)
                  · exact keepO_pure
                  · extract_lets +onlyGivenNames -merge -useContext -underBinder x5
                    try clear_value x5
                    extract_lets +onlyGivenNames -merge -useContext -underBinder x6
                    try clear_value x6
                    extract_lets +onlyGivenNames -merge -useContext -underBinder x7
                    try clear_value x7
                    extract_lets +onlyGivenNames -merge -useContext -underBinder x8
                    try clear_value x8
                    extract_lets +onlyGivenNames -merge -useContext -underBinder x9
                    try clear_value x9
                    extract_lets +onlyGivenNames -merge -useContext -underBinder x10
                    try clear_value x10
                    extract_lets +onlyGivenNames -merge -useContext -underBinder x11
                    try clear_value x11
                    extract_lets +onlyGivenNames -merge -useContext -underBinder x12
                    try clear_value x12
                    extract_lets +onlyGivenNames -merge -useContext -underBinder x13
                    try clear_value x13
                    refine keepO_bind ?_ ?_
                    · exact keep_stateData
                    · intro _
                      refine keepO_bind ?_ ?_
                      · refine keep_afterWrite ?_
                        refine keepO_bind ?_ ?_
                        · exact keep_stateData
                        · intro _
                          extract_lets +onlyGivenNames -merge -useContext -underBinder x14
                          have h14 : ∀ y0, KeepO (@x14 y0) := by
                            intro _
                            unfold x14
                            try dsimp -zeta only
                            refine keepO_bind ?_ ?_
                            · exact keep_stateSide
                            · intro _
                              refine keepO_bind ?_ ?_
                              · exact keep_stateSide
                              · intro _
                                extract_lets +onlyGivenNames -merge -useContext -underBinder x15
                                have h15 : ∀ y0, KeepO (@x15 y0) := by
                                  intro _
                                  unfold x15
                                  try dsimp -zeta only
                                  refine keepO_bind ?_ ?_
                                  · exact keep_stateCensus
                                  · intro _
                                    refine keepO_bind ?_ ?_
                                    · exact keep_stateCensus
                                    · intro _
                                      extract_lets +onlyGivenNames -merge -useContext -underBinder x16
                                      have h16 : ∀ y0, KeepO (@x16 y0) := by
                                        intro _
                                        unfold x16
                                        try dsimp -zeta only
                                        refine keepO_ite (fun _ => ?_) (fun _ => ?_)
                                        · exact keep_VPlan_writeNarrow
                                        · exact keepO_pure
                                      try clear_value x16
                                      refine keepO_ite (fun _ => ?_) (fun _ => ?_)
                                      · refine keepO_bind ?_ ?_
                                        · exact keep_stateCensus
                                        · intro _
                                          exact h16 _
                                      · exact h16 _
                                try clear_value x15
                                refine keepO_ite (fun _ => ?_) (fun _ => ?_)
                                · refine keepO_bind ?_ ?_
                                  · exact keep_stateSide
                                  · intro _
                                    exact h15 _
                                · exact h15 _
                          try clear_value x14
                          refine keepO_ite (fun _ => ?_) (fun _ => ?_)
                          · refine keepO_bind ?_ ?_
                            · exact keep_stateData
                            · intro _
                              exact h14 _
                          · exact h14 _
                      · intro _
                        exact keepO_pure
            try clear_value x4
            refine keepO_ite (fun _ => ?_) (fun _ => ?_)
            · refine keepO_bind ?_ ?_
              · exact keep_checkTile
              · intro _
                exact h4 _
            · refine keepO_bind ?_ ?_
              · exact keepO_pure
              · intro _
                exact h4 _
      try clear_value x3
      refine keepO_ite (fun _ => ?_) (fun _ => ?_)
      · refine keepO_bind ?_ ?_
        · exact keep_failOp
        · intro _
          exact h3 _
      · exact h3 _

theorem keep_VPlan_run {a0 : VPlan} {a1 : Ctx} {a2 : Option Nat} {a3 : List Nat} {a4 : VSum} : KeepO (@VPlan.run a0 a1 a2 a3 a4) := by
  induction a3 generalizing a0 a1 a2 a4 with
  | nil =>
    rw [VPlan.run]
    exact keepO_pure
  | cons u1 u2 ih =>
    rw [VPlan.run]
    refine keepO_bind ?_ ?_
    · refine keepO_tryCatch ?_ ?_
      · refine keepO_bind ?_ ?_
        · exact keep_VPlan_tile
        · intro _
          exact keepO_pure
      · intro _
        exact keepO_pure
    · intro r0
      split
      · exact keepO_pure
      · refine keepO_ite (fun _ => ?_) (fun _ => ?_)
        · exact keepO_pure
        · apply ih

theorem keep_countVarnish {a0 : State} {a1 : Nat} {a2 : VSum} (g0 : Keep q a0) : Keep q (@State.countVarnish a0 a1 a2) := by
  unfold State.countVarnish
  refine Keep.upd ?_
  assumption

theorem keep_varnishRun {a0 : State} {a1 : Nat} {a2 : Active} {a3 : Option Nat} {a4 : Env} (g0 : Keep q a0) : Keep q (@State.varnishRun a0 a1 a2 a3 a4) := by
  unfold State.varnishRun
  extract_lets +onlyGivenNames -merge -useContext -underBinder x0
  try clear_value x0
  extract_lets +onlyGivenNames -merge -useContext -underBinder x1
  try clear_value x1
  extract_lets +onlyGivenNames -merge -useContext -underBinder x2
  try clear_value x2
  extract_lets +onlyGivenNames -merge -useContext -underBinder x3
  try clear_value x3
  extract_lets +onlyGivenNames -merge -useContext -underBinder x4
  have h4 : Keep q x4.1 := by
    unfold x4
    refine keep_runOp ?_ ?_
    · assumption
    · exact keep_VD_plan
  try clear_value x4
  extract_lets +onlyGivenNames -merge -useContext -underBinder x5
  have h5 : Keep q x5 := by
    unfold x5
    assumption
  try clear_value x5
  split
  · refine keep_complete ?_
    assumption
  · refine keep_tryStepDry ?_
    refine keep_complete ?_
    assumption
  · extract_lets +onlyGivenNames -merge -useContext -underBinder x6
    have h6 : Keep q x6.1 := by
      unfold x6
      refine keep_runOp ?_ ?_
      · assumption
      · refine keepO_ite (fun _ => ?_) (fun _ => ?_)
        · exact keepO_pure
        · exact keep_gradSays
    try clear_value x6
    extract_lets +onlyGivenNames -merge -useContext -underBinder x7
    have h7 : Keep q x7 := by
      unfold x7
      assumption
    try clear_value x7
    split
    · refine keep_complete ?_
      assumption
    · refine keep_complete ?_
      assumption
    · refine keep_updCur ?_
      assumption
    · extract_lets +onlyGivenNames -merge -useContext -underBinder x8
      have h8 : Keep q x8.1 := by
        unfold x8
        refine keep_runOp ?_ ?_
        · assumption
        · exact keep_VPlan_run
      try clear_value x8
      extract_lets +onlyGivenNames -merge -useContext -underBinder x9
      try clear_value x9
      extract_lets +onlyGivenNames -merge -useContext -underBinder x10
      try clear_value x10
      extract_lets +onlyGivenNames -merge -useContext -underBinder x11
      have h11 : Keep q x11 := by
        unfold x11
        refine keep_complete ?_
        refine keep_countVarnish ?_
        assumption
      try clear_value x11
      extract_lets +onlyGivenNames -merge -useContext -underBinder x12
      have h12 : Keep q x12 := by
        unfold x12
        refine keep_ite (fun _ => ?_) (fun _ => ?_)
        · refine keep_askRollback ?_
          assumption
        · assumption
      try clear_value x12
      refine keep_ite (fun _ => ?_) (fun _ => ?_)
      · refine keep_tryStepDry ?_
        assumption
      · assumption

theorem keep_varnishUpdate {a0 : State} {a1 : Nat} {a2 : Option Nat} {a3 : Env} (g0 : Keep q a0) : Keep q (@State.varnishUpdate a0 a1 a2 a3) := by
  unfold State.varnishUpdate
  split
  · refine keep_ite (fun _ => ?_) (fun _ => ?_)
    · assumption
    · refine keep_varnishRun ?_
      assumption
  · assumption

theorem keep_execVarnishUpdate {a0 : Fin 16} {a1 : Option (Fin 4096)} {a2 : Env} {a3 : State} (g3 : Keep q a3) : KeepX q (@execVarnishUpdate a0 a1 a2 a3) := by
  unfold execVarnishUpdate
  refine keepX_next ?_
  refine keep_around ?_ ?_
  · assumption
  · intro _ _ _
    refine keep_varnishUpdate ?_
    assumption

theorem keep_varnishResume {a0 : State} {a1 : Nat} {a2 : Option Nat} {a3 : Env} (g0 : Keep q a0) : Keep q (@State.varnishResume a0 a1 a2 a3) := by
  unfold State.varnishResume
  split
  · refine keep_ite (fun _ => ?_) (fun _ => ?_)
    · refine keep_varnishRun ?_
      assumption
    · assumption
  · assumption

theorem keep_execVarnishTagWaitEnd {a0 : Fin 16} {a1 : Option (Fin 4096)} {a2 : Env} {a3 : State} (g3 : Keep q a3) : KeepX q (@execVarnishTagWaitEnd a0 a1 a2 a3) := by
  unfold execVarnishTagWaitEnd
  refine keepX_next ?_
  refine keep_around ?_ ?_
  · assumption
  · intro _ _ _
    refine keep_varnishResume ?_
    assumption

theorem keep_tileTag {a0 : Ctx} {a1 : TD} {a2 : Nat} : KeepO (@tileTag a0 a1 a2) := by
  unfold tileTag
  refine keepO_bind ?_ ?_
  · exact keep_readAt
  · intro _
    exact keepO_pure

theorem keep_tornEntry {a0 : Ctx} {a1 : QEntry} : KeepO (@tornEntry a0 a1) := by
  unfold tornEntry
  refine keepO_bind ?_ ?_
  · exact keep_readAt
  · intro _
    extract_lets +onlyGivenNames -merge -useContext -underBinder x0
    try clear_value x0
    refine keepO_ite (fun _ => ?_) (fun _ => ?_)
    · exact keepO_pure
    · refine keepO_bind ?_ ?_
      · refine keepO_mapM ?_
        intro _
        exact keep_fetchTD
      · intro _
        refine keepO_bind ?_ ?_
        · refine keepO_mapM ?_
          intro _
          refine keepO_bind ?_ ?_
          · refine keepO_mapM ?_
            intro _
            exact keep_tileTag
          · intro _
            exact keepO_pure
        · intro _
          exact keepO_pure

theorem keep_checkTorn {a0 : State} {a1 : Env} {a2 : Nat} (g0 : Keep q a0) : Keep q (@State.checkTorn a0 a1 a2) := by
  unfold State.checkTorn
  extract_lets +onlyGivenNames -merge -useContext -underBinder x0
  try clear_value x0
  extract_lets +onlyGivenNames -merge -useContext -underBinder x1
  have h1 : Keep q x1.1 := by
    unfold x1
    refine keep_runOp ?_ ?_
    · assumption
    · refine keepO_mapM ?_
      intro r2
      refine keepO_tryCatch ?_ ?_
      · exact keep_tornEntry
      · intro _
        exact keepO_pure
  try clear_value x1
  extract_lets +onlyGivenNames -merge -useContext -underBinder x3
  have h3 : Keep q x3 := by
    unfold x3
    refine keep_updJob ?_
    assumption
  try clear_value x3
  split
  · refine keep_ite (fun _ => ?_) (fun _ => ?_)
    · refine keep_askRollback ?_
      assumption
    · assumption
  · assumption

theorem keep_readScalar {a0 : Ctx} {a1 : Nat} {a2 : Addr} : KeepO (@readScalar a0 a1 a2) := by
  unfold readScalar
  refine keepO_bind ?_ ?_
  · exact keep_takeTD
  · intro _
    refine keepO_bind ?_ ?_
    · exact keep_checkTile
    · intro _
      refine keepO_get ?_
      intro _ _
      exact keepO_pure

theorem keep_scaledSet {a0 : State} {a1 : Nat} {a2 : BitVec 32} {a3 : Nat} (g0 : Keep q a0) : Keep q (@State.scaledSet a0 a1 a2 a3).1 := by
  unfold State.scaledSet
  split
  · show Keep q _
    assumption
  · split
    · refine keep1_ite (fun _ => ?_) (fun _ => ?_)
      · show Keep q _
        assumption
      · extract_lets +onlyGivenNames -merge -useContext -underBinder x0
        have h0 : Keep q x0.1 := by
          unfold x0
          refine keep_runOp ?_ ?_
          · assumption
          · exact keep_readScalar
        try clear_value x0
        split
        · extract_lets +onlyGivenNames -merge -useContext -underBinder x1
          try clear_value x1
          show Keep q _
          refine keep_setRecords ?_
          assumption
        · show Keep q _
          assumption
    · show Keep q _
      assumption
    · show Keep q _
      assumption

theorem keep_varnishPost {a0 : State} {a1 : Nat} {a2 : Nat} {a3 : Addr} {a4 : Tag} {a5 : BitVec 8} {a6 : Nat} {a7 : Option (Addr × Nat)} (g0 : Keep q a0) : Keep q (@State.varnishPost a0 a1 a2 a3 a4 a5 a6 a7) := by
  unfold State.varnishPost
  extract_lets +onlyGivenNames -merge -useContext -underBinder x0
  try clear_value x0
  extract_lets +onlyGivenNames -merge -useContext -underBinder x1
  try clear_value x1
  refine keep_ite (fun _ => ?_) (fun _ => ?_)
  · assumption
  · extract_lets +onlyGivenNames -merge -useContext -underBinder x2
    have h2 : Keep q x2.1 := by
      unfold x2
      refine keep_readRing ?_
      assumption
    try clear_value x2
    split
    · assumption
    · extract_lets +onlyGivenNames -merge -useContext -underBinder x3
      have h3 : Keep q x3.1 := by
        unfold x3
        split
        · refine keep_scaledSet ?_
          assumption
        · show Keep q _
          assumption
      try clear_value x3
      refine keep_ite (fun _ => ?_) (fun _ => ?_)
      · assumption
      · extract_lets +onlyGivenNames -merge -useContext -underBinder x4
        have h4 : Keep q x4 := by
          unfold x4
          split
          · refine keep_runOp ?_ ?_
            · assumption
            · exact keep_writeAt
          · assumption
        try clear_value x4
        extract_lets +onlyGivenNames -merge -useContext -underBinder x5
        try clear_value x5
        extract_lets +onlyGivenNames -merge -useContext -underBinder x6
        have h6 : Keep q x6 := by
          unfold x6
          refine keep_writeRing ?_
          assumption
        try clear_value x6
        extract_lets +onlyGivenNames -merge -useContext -underBinder x7
        have h7 : Keep q x7 := by
          unfold x7
          refine keep_updEq ?_
          assumption
        try clear_value x7
        refine keep_leaveIdle ?_
        refine keep_updJob ?_
        assumption

theorem keep_execVarnishPost {a0 : Fin 16} {a1 : BitVec 12} {a2 : Addr} {a3 : Tag} {a4 : BitVec 8} {a5 : Part} {a6 : Option (Addr × Nat)} {a7 : State} (g7 : Keep q a7) : KeepX q (@execVarnishPost a0 a1 a2 a3 a4 a5 a6 a7) := by
  unfold execVarnishPost
  refine keepX_next ?_
  refine keep_varnishPost ?_
  assumption

end Sys2Proof.Laws
end

