-- ==== Sys2Proof/Laws/KeepTraining.lean ====
section
/-! SUPPORT. What each operation of Machine/Training.lean keeps: the queue and the invariant of Safety.lean, or the canonical form of memory. -/
namespace Sys2Proof.Laws
open Sys2Proof Sys2Proof.Machine
variable {q : List Instr}

theorem keep_ckptRecord {a0 : State} {a1 : Nat} {a2 : Nat} {a3 : Nat} {a4 : Nat} {a5 : Nat} {a6 : Status} (g0 : Keep q a0) : Keep q (@State.ckptRecord a0 a1 a2 a3 a4 a5 a6) := by
  unfold State.ckptRecord
  refine keep_record ?_
  assumption

theorem keep_writeHeader {a0 : State} {a1 : Addr} {a2 : Nat} {a3 : Nat} {a4 : Nat} {a5 : Nat} {a6 : Env} (g0 : Keep q a0) : Keep q (@State.writeHeader a0 a1 a2 a3 a4 a5 a6).1 := by
  unfold State.writeHeader
  refine keep_runOp ?_ ?_
  · assumption
  · exact keep_writeAt

theorem keep_ckptBegin {a0 : State} {a1 : Nat} {a2 : BitVec 64} {a3 : List (Addr × BitVec 8)} {a4 : Env} (g0 : Keep q a0) : Keep q (@State.ckptBegin a0 a1 a2 a3 a4) := by
  unfold State.ckptBegin
  refine keep_ite (fun _ => ?_) (fun _ => ?_)
  · assumption
  · extract_lets +onlyGivenNames -merge -useContext -underBinder x0
    have h0 : Keep q x0 := by
      unfold x0
      refine keep_updJob ?_
      assumption
    try clear_value x0
    refine keep_foldl ?_ ?_
    · assumption
    · intro _ _ r1
      refine keep_writeHeader ?_
      assumption

theorem keep_execCkptBegin {a0 : Part} {a1 : BitVec 64} {a2 : List (Addr × BitVec 8)} {a3 : Env} {a4 : State} (g4 : Keep q a4) : KeepX q (@execCkptBegin a0 a1 a2 a3 a4) := by
  unfold execCkptBegin
  refine keepX_next ?_
  refine keep_around ?_ ?_
  · assumption
  · intro _ _ _
    refine keep_ckptBegin ?_
    assumption

theorem keep_copyPieces {a0 : Ctx} {a1 : List (Addr × Nat × Addr)} : KeepO (@copyPieces a0 a1) := by
  induction a1 generalizing a0 with
  | nil =>
    rw [copyPieces]
    exact keepO_pure
  | cons u1 u2 ih =>
    rw [copyPieces]
    refine keepO_bind ?_ ?_
    · refine keepO_tryCatch ?_ ?_
      · refine keepO_bind ?_ ?_
        · exact keep_readAt
        · intro _
          refine keepO_bind ?_ ?_
          · exact keep_writeAt
          · intro _
            exact keepO_pure
      · intro _
        exact keepO_pure
    · intro _
      split
      · apply ih
      · exact keepO_pure

theorem keep_checkTds_go {a0 : Ctx} {a1 : TD} {a2 : List Nat} : KeepO (@checkTds.go a0 a1 a2) := by
  induction a2 generalizing a0 a1 with
  | nil =>
    rw [checkTds.go]
    exact keepO_pure
  | cons u1 u2 ih =>
    rw [checkTds.go]
    refine keepO_bind ?_ ?_
    · exact keep_checkTile
    · intro _
      apply ih

theorem keep_checkTds {a0 : Ctx} {a1 : List Addr} : KeepO (@checkTds a0 a1) := by
  induction a1 generalizing a0 with
  | nil =>
    rw [checkTds]
    exact keepO_pure
  | cons u1 u2 ih =>
    rw [checkTds]
    refine keepO_bind ?_ ?_
    · exact keep_fetchTD
    · intro _
      refine keepO_bind ?_ ?_
      · exact keep_checkTds_go
      · intro _
        apply ih

theorem keep_ckptCopyDone {a0 : State} {a1 : Nat} {a2 : List (Addr × Nat × Addr)} {a3 : List Addr} {a4 : List (Addr × BitVec 8)} {a5 : Env} {a6 : Env} (g0 : Keep q a0) : Keep q (@State.ckptCopyDone a0 a1 a2 a3 a4 a5 a6) := by
  unfold State.ckptCopyDone
  split
  · assumption
  · refine keep_ite (fun _ => ?_) (fun _ => ?_)
    · assumption
    · extract_lets +onlyGivenNames -merge -useContext -underBinder x0
      try clear_value x0
      extract_lets +onlyGivenNames -merge -useContext -underBinder x1
      have h1 : ∀ y0 y1 y2, Keep q y0 → Keep q (@x1 y0 y1 y2).1 := by
        intro _ _ _ _
        unfold x1
        try dsimp -zeta only
        extract_lets +onlyGivenNames -merge -useContext -underBinder x2
        have h2 : Keep q x2.1 := by
          unfold x2
          refine keep_runOp ?_ ?_
          · assumption
          · refine keepO_bind ?_ ?_
            · exact keep_checkTds
            · intro _
              exact keep_copyPieces
        try clear_value x2
        split
        · show Keep q _
          assumption
        · show Keep q _
          assumption
      try clear_value x1
      extract_lets +onlyGivenNames -merge -useContext -underBinder x3
      have h3 : Keep q x3.1 := by
        unfold x3
        refine h1 _ _ _ ?_
        assumption
      try clear_value x3
      extract_lets +onlyGivenNames -merge -useContext -underBinder x4
      have h4 : Keep q x4.1 := by
        unfold x4
        split
        · refine h1 _ _ _ ?_
          refine keep_updJob ?_
          assumption
        · assumption
      try clear_value x4
      extract_lets +onlyGivenNames -merge -useContext -underBinder x5
      try clear_value x5
      split
      · refine keep_mgmt ?_
        refine keep_ckptRecord ?_
        refine keep_updJob ?_
        assumption
      · extract_lets +onlyGivenNames -merge -useContext -underBinder x6
        have h6 : Keep q x6 := by
          unfold x6
          refine keep_foldl ?_ ?_
          · assumption
          · intro _ _ r7
            refine keep_writeHeader ?_
            assumption
        try clear_value x6
        refine keep_mgmt ?_
        refine keep_updJob ?_
        assumption

theorem keep_execCheckpointCopyDone {a0 : Part} {a1 : List (Addr × Nat × Addr)} {a2 : List Addr} {a3 : List (Addr × BitVec 8)} {a4 : Env} {a5 : Env} {a6 : State} (g6 : Keep q a6) : KeepX q (@execCheckpointCopyDone a0 a1 a2 a3 a4 a5 a6) := by
  unfold execCheckpointCopyDone
  refine keepX_next ?_
  refine keep_around ?_ ?_
  · assumption
  · intro _ _ _
    refine keep_ckptCopyDone ?_
    assumption

theorem keep_ckptReport {a0 : State} {a1 : BitVec 16} {a2 : BitVec 64} {a3 : BitVec 17} {a4 : Status} {a5 : List (BitVec 17)} (g0 : Keep q a0) : Keep q (@State.ckptReport a0 a1 a2 a3 a4 a5) := by
  unfold State.ckptReport
  refine keep_ite (fun _ => ?_) (fun _ => ?_)
  · assumption
  · refine keep_ite (fun _ => ?_) (fun _ => ?_)
    · refine keep_mgmt ?_
      assumption
    · refine keep_ite (fun _ => ?_) (fun _ => ?_)
      · assumption
      · refine keep_ite (fun _ => ?_) (fun _ => ?_)
        · extract_lets +onlyGivenNames -merge -useContext -underBinder x0
          have h0 : Keep q x0 := by
            unfold x0
            refine keep_updMgr ?_
            assumption
          try clear_value x0
          extract_lets +onlyGivenNames -merge -useContext -underBinder x1
          have h1 : Keep q x1 := by
            unfold x1
            refine keep_mgmt ?_
            assumption
          try clear_value x1
          split
          · refine keep_updJob ?_
            assumption
          · assumption
        · extract_lets +onlyGivenNames -merge -useContext -underBinder x2
          have h2 : Keep q x2 := by
            unfold x2
            refine keep_updMgr ?_
            assumption
          try clear_value x2
          refine keep_ite (fun _ => ?_) (fun _ => ?_)
          · refine keep_mgmt ?_
            refine keep_updMgr ?_
            assumption
          · assumption

theorem keep_execCheckpointReport {a0 : BitVec 16} {a1 : BitVec 64} {a2 : BitVec 17} {a3 : Status} {a4 : List (BitVec 17)} {a5 : State} (g5 : Keep q a5) : KeepX q (@execCheckpointReport a0 a1 a2 a3 a4 a5) := by
  unfold execCheckpointReport
  refine keepX_next ?_
  refine keep_ckptReport ?_
  assumption

theorem keep_takeover {a0 : State} {a1 : BitVec 17} {a2 : BitVec 17} {a3 : BitVec 16} (g0 : Keep q a0) : Keep q (@State.takeover a0 a1 a2 a3) := by
  unfold State.takeover
  extract_lets +onlyGivenNames -merge -useContext -underBinder x0
  have h0 : Keep q x0 := by
    unfold x0
    refine keep_mgmt ?_
    assumption
  try clear_value x0
  extract_lets +onlyGivenNames -merge -useContext -underBinder x1
  have h1 : Keep q x1 := by
    unfold x1
    refine keep_mgmt ?_
    assumption
  try clear_value x1
  extract_lets +onlyGivenNames -merge -useContext -underBinder x2
  have h2 : Keep q x2 := by
    unfold x2
    refine keep_mgmt ?_
    assumption
  try clear_value x2
  split
  · refine keep_ckptRecord ?_
    refine keep_updCkp ?_
    refine keep_updJob ?_
    assumption
  · refine keep_record ?_
    assumption

theorem keep_lostStop {a0 : State} {a1 : BitVec 16} {a2 : Status} {a3 : BitVec 17} (g0 : Keep q a0) : Keep q (@State.lostStop a0 a1 a2 a3) := by
  unfold State.lostStop
  split
  · refine keep_stopJob ?_
    assumption
  · refine keep_mgmt ?_
    assumption

theorem keep_replaceModule {a0 : State} {a1 : BitVec 17} {a2 : List (BitVec 16)} (g0 : Keep q a0) : Keep q (@State.replaceModule a0 a1 a2) := by
  unfold State.replaceModule
  split
  · refine keep_foldl ?_ ?_
    · assumption
    · intro _ _ _
      refine keep_lostStop ?_
      assumption
  · extract_lets +onlyGivenNames -merge -useContext -underBinder x0
    try clear_value x0
    extract_lets +onlyGivenNames -merge -useContext -underBinder x1
    have h1 : Keep q x1 := by
      unfold x1
      refine Keep.upd ?_
      assumption
    try clear_value x1
    refine keep_foldl ?_ ?_
    · assumption
    · intro _ _ _
      refine keep_takeover ?_
      assumption

theorem keep_tearMirror {a0 : State} {a1 : BitVec 17} {a2 : Option (Part × Addr)} {a3 : Env} (g0 : Keep q a0) : Keep q (@State.tearMirror a0 a1 a2 a3).1 := by
  unfold State.tearMirror
  split
  · show Keep q _
    assumption
  · extract_lets +onlyGivenNames -merge -useContext -underBinder x0
    try clear_value x0
    extract_lets +onlyGivenNames -merge -useContext -underBinder x1
    have h1 : Keep q x1.1 := by
      unfold x1
      refine keep_runOp ?_ ?_
      · assumption
      · exact keep_readAt
    try clear_value x1
    split
    · show Keep q _
      assumption
    · refine keep1_ite (fun _ => ?_) (fun _ => ?_)
      · extract_lets +onlyGivenNames -merge -useContext -underBinder x2
        have h2 : Keep q x2 := by
          unfold x2
          refine keep_runOp ?_ ?_
          · assumption
          · exact keep_writeAt
        try clear_value x2
        extract_lets +onlyGivenNames -merge -useContext -underBinder x3
        have h3 : Keep q x3 := by
          unfold x3
          refine keep_updCkp ?_
          assumption
        try clear_value x3
        extract_lets +onlyGivenNames -merge -useContext -underBinder x4
        have h4 : Keep q x4 := by
          unfold x4
          refine keep_ckptRecord ?_
          assumption
        try clear_value x4
        show Keep q _
        refine keep_stopJob ?_
        refine keep_mgmt ?_
        assumption
      · show Keep q _
        assumption

theorem keep_declareLost {a0 : State} {a1 : BitVec 17} {a2 : List (BitVec 16)} {a3 : Option (Part × Addr)} {a4 : Env} (g0 : Keep q a0) : Keep q (@State.declareLost a0 a1 a2 a3 a4) := by
  unfold State.declareLost
  refine keep_ite (fun _ => ?_) (fun _ => ?_)
  · assumption
  · extract_lets +onlyGivenNames -merge -useContext -underBinder x0
    have h0 : Keep q x0.1 := by
      unfold x0
      refine keep_tearMirror ?_
      assumption
    try clear_value x0
    refine keep_ite (fun _ => ?_) (fun _ => ?_)
    · assumption
    · refine keep_ite (fun _ => ?_) (fun _ => ?_)
      · refine keep_replaceModule ?_
        assumption
      · assumption

theorem keep_execModuleLost {a0 : BitVec 17} {a1 : List (BitVec 16)} {a2 : Option (Part × Addr)} {a3 : Env} {a4 : State} (g4 : Keep q a4) : KeepX q (@execModuleLost a0 a1 a2 a3 a4) := by
  unfold execModuleLost
  refine keepX_next ?_
  refine keep_declareLost ?_
  assumption

theorem keep_execResetNoticeTimeout {a0 : BitVec 17} {a1 : List (BitVec 16)} {a2 : Option (Part × Addr)} {a3 : Env} {a4 : State} (g4 : Keep q a4) : KeepX q (@execResetNoticeTimeout a0 a1 a2 a3 a4) := by
  unfold execResetNoticeTimeout
  refine keepX_next ?_
  refine keep_ite (fun _ => ?_) (fun _ => ?_)
  · refine keep_declareLost ?_
    refine Keep.upd ?_
    assumption
  · assumption

theorem keep_degradedReport {a0 : State} {a1 : BitVec 17} {a2 : Bool} {a3 : List (BitVec 16)} {a4 : Option (Part × Addr)} {a5 : Env} (g0 : Keep q a0) : Keep q (@State.degradedReport a0 a1 a2 a3 a4 a5) := by
  unfold State.degradedReport
  refine keep_ite (fun _ => ?_) (fun _ => ?_)
  · assumption
  · extract_lets +onlyGivenNames -merge -useContext -underBinder x0
    try clear_value x0
    extract_lets +onlyGivenNames -merge -useContext -underBinder x1
    have h1 : Keep q x1 := by
      unfold x1
      refine Keep.upd ?_
      assumption
    try clear_value x1
    refine keep_ite (fun _ => ?_) (fun _ => ?_)
    · assumption
    · refine keep_ite (fun _ => ?_) (fun _ => ?_)
      · refine keep_declareLost ?_
        assumption
      · refine keep_foldl ?_ ?_
        · assumption
        · intro _ _ _
          refine keep_updMgr ?_
          assumption

theorem keep_execDegradedReport {a0 : BitVec 17} {a1 : Bool} {a2 : List (BitVec 16)} {a3 : Option (Part × Addr)} {a4 : Env} {a5 : State} (g5 : Keep q a5) : KeepX q (@execDegradedReport a0 a1 a2 a3 a4 a5) := by
  unfold execDegradedReport
  refine keepX_next ?_
  refine keep_degradedReport ?_
  assumption

theorem keep_ckptCommit {a0 : State} {a1 : BitVec 16} {a2 : BitVec 64} (g0 : Keep q a0) : Keep q (@State.ckptCommit a0 a1 a2) := by
  unfold State.ckptCommit
  extract_lets +onlyGivenNames -merge -useContext -underBinder x0
  try clear_value x0
  extract_lets +onlyGivenNames -merge -useContext -underBinder x1
  have h1 : Keep q x1 := by
    unfold x1
    split
    · refine keep_ite (fun _ => ?_) (fun _ => ?_)
      · refine keep_updJob ?_
        assumption
      · refine keep_ckptRecord ?_
        refine keep_updCkp ?_
        refine keep_updJob ?_
        assumption
    · assumption
  try clear_value x1
  refine keep_ite (fun _ => ?_) (fun _ => ?_)
  · assumption
  · extract_lets +onlyGivenNames -merge -useContext -underBinder x2
    try clear_value x2
    extract_lets +onlyGivenNames -merge -useContext -underBinder x3
    have h3 : Keep q x3 := by
      unfold x3
      refine keep_updMgr ?_
      assumption
    try clear_value x3
    refine keep_foldl ?_ ?_
    · assumption
    · intro _ _ _
      refine keep_replaceModule ?_
      assumption

theorem keep_execCkptCommit {a0 : BitVec 16} {a1 : BitVec 64} {a2 : State} (g2 : Keep q a2) : KeepX q (@execCkptCommit a0 a1 a2) := by
  unfold execCkptCommit
  refine keepX_next ?_
  refine keep_ckptCommit ?_
  assumption

theorem keep_rollbackRequest {a0 : State} {a1 : BitVec 16} {a2 : BitVec 17} (g0 : Keep q a0) : Keep q (@State.rollbackRequest a0 a1 a2) := by
  unfold State.rollbackRequest
  refine keep_ite (fun _ => ?_) (fun _ => ?_)
  · assumption
  · refine keep_ite (fun _ => ?_) (fun _ => ?_)
    · refine keep_mgmt ?_
      assumption
    · extract_lets +onlyGivenNames -merge -useContext -underBinder x0
      try clear_value x0
      refine keep_ite (fun _ => ?_) (fun _ => ?_)
      · refine keep_lostStop ?_
        assumption
      · refine keep_mgmt ?_
        refine keep_updMgr ?_
        assumption

theorem keep_execRollbackRequest {a0 : BitVec 16} {a1 : BitVec 17} {a2 : State} (g2 : Keep q a2) : KeepX q (@execRollbackRequest a0 a1 a2) := by
  unfold execRollbackRequest
  refine keepX_next ?_
  refine keep_rollbackRequest ?_
  assumption

theorem keep_unpost {a0 : State} {a1 : Nat} (g0 : Keep q a0) : Keep q (@State.unpost a0 a1) := by
  unfold State.unpost
  extract_lets +onlyGivenNames -merge -useContext -underBinder x0
  have h0 : Keep q x0 := by
    unfold x0
    refine keep_foldl ?_ ?_
    · assumption
    · intro _ _ _
      refine keep_writeRing ?_
      assumption
  try clear_value x0
  refine keep_updEq ?_
  assumption

theorem keep_unpostCq {a0 : State} {a1 : Nat} {a2 : List (Nat × BitVec 32)} (g0 : Keep q a0) : Keep q (@State.unpostCq a0 a1 a2) := by
  unfold State.unpostCq
  extract_lets +onlyGivenNames -merge -useContext -underBinder x0
  have h0 : Keep q x0 := by
    unfold x0
    refine keep_foldl ?_ ?_
    · assumption
    · intro _ _ _
      refine keep_writeCqAt ?_
      assumption
  try clear_value x0
  refine keep_updCq ?_
  assumption

theorem keep_rollbackEnd {a0 : State} {a1 : Nat} {a2 : List (Nat × BitVec 32)} {a3 : Env} (g0 : Keep q a0) : Keep q (@State.rollbackEnd a0 a1 a2 a3) := by
  unfold State.rollbackEnd
  extract_lets +onlyGivenNames -merge -useContext -underBinder x0
  try clear_value x0
  extract_lets +onlyGivenNames -merge -useContext -underBinder x1
  try clear_value x1
  extract_lets +onlyGivenNames -merge -useContext -underBinder x2
  try clear_value x2
  extract_lets +onlyGivenNames -merge -useContext -underBinder x3
  try clear_value x3
  extract_lets +onlyGivenNames -merge -useContext -underBinder x4
  have h4 : Keep q x4 := by
    unfold x4
    refine keep_foldl ?_ ?_
    · assumption
    · intro _ _ _
      refine keep_smudgeEpoch ?_
      assumption
  try clear_value x4
  extract_lets +onlyGivenNames -merge -useContext -underBinder x5
  have h5 : Keep q x5 := by
    unfold x5
    refine keep_foldl ?_ ?_
    · assumption
    · intro _ _ _
      refine keep_endEngine ?_
      assumption
  try clear_value x5
  extract_lets +onlyGivenNames -merge -useContext -underBinder x6
  have h6 : Keep q x6 := by
    unfold x6
    refine keep_foldl ?_ ?_
    · assumption
    · intro _ _ _
      refine keep_cqComplete ?_
      assumption
  try clear_value x6
  extract_lets +onlyGivenNames -merge -useContext -underBinder x7
  have h7 : Keep q x7 := by
    unfold x7
    refine keep_foldl ?_ ?_
    · assumption
    · intro _ _ _
      refine keep_unpost ?_
      assumption
  try clear_value x7
  refine keep_foldl ?_ ?_
  · assumption
  · intro _ _ _
    refine keep_unpostCq ?_
    assumption

theorem keep_emitRun {a0 : State} {a1 : Nat} {a2 : Nat} {a3 : Addr} {a4 : Tag} {a5 : BitVec 8} {a6 : Env} (g0 : Keep q a0) : Keep q (@State.emitRun a0 a1 a2 a3 a4 a5 a6).1 := by
  unfold State.emitRun
  extract_lets +onlyGivenNames -merge -useContext -underBinder x0
  try clear_value x0
  extract_lets +onlyGivenNames -merge -useContext -underBinder x1
  try clear_value x1
  extract_lets +onlyGivenNames -merge -useContext -underBinder x2
  have h2 : Keep q x2.1 := by
    unfold x2
    refine keep_runOp ?_ ?_
    · assumption
    · refine keepO_bind ?_ ?_
      · exact keep_readAt
      · intro _
        extract_lets +onlyGivenNames -merge -useContext -underBinder x3
        try clear_value x3
        refine keepO_ite (fun _ => ?_) (fun _ => ?_)
        · exact keep_failOp
        · refine keepO_bind ?_ ?_
          · exact keep_VD_plan
          · intro _
            split
            · exact keepO_pure
            · refine keepO_bind ?_ ?_
              · exact keep_VPlan_run
              · intro r4
                exact keepO_pure
  try clear_value x2
  show Keep q _
  assumption

theorem keep_takePlace {a0 : State} {a1 : Nat} {a2 : TakeIn} (g0 : Keep q a0) : Keep q (@State.takePlace a0 a1 a2) := by
  unfold State.takePlace
  extract_lets +onlyGivenNames -merge -useContext -underBinder x0
  have h0 : Keep q x0 := by
    unfold x0
    refine keep_updJob ?_
    assumption
  try clear_value x0
  extract_lets +onlyGivenNames -merge -useContext -underBinder x1
  have h1 : Keep q x1 := by
    unfold x1
    refine keep_setRecords ?_
    assumption
  try clear_value x1
  extract_lets +onlyGivenNames -merge -useContext -underBinder x2
  have h2 : Keep q x2 := by
    unfold x2
    refine keep_updCkp ?_
    assumption
  try clear_value x2
  extract_lets +onlyGivenNames -merge -useContext -underBinder x3
  have h3 : Keep q x3 := by
    unfold x3
    refine keep_onDp ?_ ?_
    · assumption
    · intro _ _
      refine keepD_mk ?_
      extract_lets +onlyGivenNames -merge -useContext -underBinder x4
      have h4 : Mem.Wf x4 := by
        unfold x4
        show KeepD _
        assumption
      try clear_value x4
      refine memWf_mk ?_ ?_ ?_ ?_ ?_ ?_
      · refine Mem.Wf.bytes ?_
        assumption
      · refine Mem.Wf.errs ?_
        assumption
      · refine Mem.Wf.unread ?_
        assumption
      · refine wf_foldlSparse ?_ ?_
        · refine Mem.Wf.region ?_
          show KeepD _
          assumption
        · intro _ _ _
          refine Sparse.wf_set ?_
          assumption
      · refine Mem.Wf.zeroed ?_
        assumption
      · refine Sparse.wf_set ?_
        refine Mem.Wf.jobs ?_
        show KeepD _
        assumption
  try clear_value x3
  refine Keep.upd ?_
  assumption

theorem keep_restoreDurable {a0 : State} {a1 : RollIn} {a2 : Env} (g0 : Keep q a0) : Keep q (@State.restoreDurable a0 a1 a2).1 := by
  unfold State.restoreDurable
  refine keep_runOp ?_ ?_
  · assumption
  · extract_lets +onlyGivenNames -merge -useContext -underBinder x0
    try clear_value x0
    refine keepO_bind ?_ ?_
    · exact keep_copyPieces
    · intro r1
      split
      · exact keepO_throw
      · exact keep_checkTds

theorem keep_startReplay {a0 : State} {a1 : Nat} {a2 : BitVec 64} {a3 : Bool} (g0 : Keep q a0) : Keep q (@State.startReplay a0 a1 a2 a3) := by
  unfold State.startReplay
  extract_lets +onlyGivenNames -merge -useContext -underBinder x0
  try clear_value x0
  extract_lets +onlyGivenNames -merge -useContext -underBinder x1
  try clear_value x1
  extract_lets +onlyGivenNames -merge -useContext -underBinder x2
  try clear_value x2
  extract_lets +onlyGivenNames -merge -useContext -underBinder x3
  try clear_value x3
  extract_lets +onlyGivenNames -merge -useContext -underBinder x4
  have h4 : Keep q x4 := by
    unfold x4
    refine keep_updWet ?_
    assumption
  try clear_value x4
  extract_lets +onlyGivenNames -merge -useContext -underBinder x5
  have h5 : Keep q x5 := by
    unfold x5
    refine keep_updJob ?_
    assumption
  try clear_value x5
  extract_lets +onlyGivenNames -merge -useContext -underBinder x6
  have h6 : Keep q x6 := by
    unfold x6
    refine keep_foldl ?_ ?_
    · assumption
    · intro _ _ _
      refine keep_resetCensus ?_
      assumption
  try clear_value x6
  extract_lets +onlyGivenNames -merge -useContext -underBinder x7
  have h7 : Keep q x7 := by
    unfold x7
    refine keep_restoreTables ?_
    assumption
  try clear_value x7
  extract_lets +onlyGivenNames -merge -useContext -underBinder x8
  have h8 : Keep q x8 := by
    unfold x8
    refine keep_updJob ?_
    assumption
  try clear_value x8
  refine keep_releaseHeld ?_
  assumption

theorem keep_rollback {a0 : State} {a1 : Nat} {a2 : BitVec 64} {a3 : BitVec 16} {a4 : RollIn} {a5 : Env} (g0 : Keep q a0) : Keep q (@State.rollback a0 a1 a2 a3 a4 a5) := by
  unfold State.rollback
  extract_lets +onlyGivenNames -merge -useContext -underBinder x0
  have h0 : Keep q x0 := by
    unfold x0
    split
    · refine keep_takePlace ?_
      assumption
    · assumption
  try clear_value x0
  refine keep_ite (fun _ => ?_) (fun _ => ?_)
  · assumption
  · extract_lets +onlyGivenNames -merge -useContext -underBinder x1
    try clear_value x1
    extract_lets +onlyGivenNames -merge -useContext -underBinder x2
    try clear_value x2
    extract_lets +onlyGivenNames -merge -useContext -underBinder x3
    try clear_value x3
    extract_lets +onlyGivenNames -merge -useContext -underBinder x4
    try clear_value x4
    extract_lets +onlyGivenNames -merge -useContext -underBinder x5
    try clear_value x5
    extract_lets +onlyGivenNames -merge -useContext -underBinder x6
    try clear_value x6
    extract_lets +onlyGivenNames -merge -useContext -underBinder x7
    try clear_value x7
    extract_lets +onlyGivenNames -merge -useContext -underBinder x8
    have h8 : Keep q x8 := by
      unfold x8
      refine keep_rollbackEnd ?_
      assumption
    try clear_value x8
    extract_lets +onlyGivenNames -merge -useContext -underBinder x9
    have h9 : Keep q x9 := by
      unfold x9
      refine keep_setRecords ?_
      refine keep_updJob ?_
      assumption
    try clear_value x9
    extract_lets +onlyGivenNames -merge -useContext -underBinder x10
    have h10 : Keep q x10 := by
      unfold x10
      refine keep_updCkp ?_
      assumption
    try clear_value x10
    extract_lets +onlyGivenNames -merge -useContext -underBinder x11
    have h11 : Keep q x11 := by
      unfold x11
      refine keep_ckptRecord ?_
      assumption
    try clear_value x11
    extract_lets +onlyGivenNames -merge -useContext -underBinder x12
    have h12 : Keep q x12 := by
      unfold x12
      refine keep_ite (fun _ => ?_) (fun _ => ?_)
      · refine keep_updMgr ?_
        assumption
      · assumption
    try clear_value x12
    extract_lets +onlyGivenNames -merge -useContext -underBinder x13
    have h13 : Keep q x13.1 := by
      unfold x13
      refine keep1_ite (fun _ => ?_) (fun _ => ?_)
      · show Keep q _
        assumption
      · refine keep_restoreDurable ?_
        assumption
    try clear_value x13
    split
    · refine keep_stopJob ?_
      assumption
    · extract_lets +onlyGivenNames -merge -useContext -underBinder x14
      have h14 : Keep q x14.1 := by
        unfold x14
        refine keep_foldlP ?_ ?_
        · show Keep q _
          assumption
        · intro r15 _ r16
          split
          · refine keep_emitRun ?_
            assumption
          · assumption
      try clear_value x14
      split
      · refine keep_stopJob ?_
        assumption
      · refine keep_tryStop ?_
        refine keep_startReplay ?_
        assumption

theorem keep_execRollbackMessage {a0 : Part} {a1 : BitVec 64} {a2 : BitVec 16} {a3 : RollIn} {a4 : Env} {a5 : State} (g5 : Keep q a5) : KeepX q (@execRollbackMessage a0 a1 a2 a3 a4 a5) := by
  unfold execRollbackMessage
  refine keepX_next ?_
  refine keep_around ?_ ?_
  · assumption
  · intro _ _ _
    refine keep_rollback ?_
    assumption

end Sys2Proof.Laws
end

