-- ==== Sys2Proof/Laws/KeepRoles.lean ====
section
/-! SUPPORT. What each operation of Machine/Roles.lean keeps: the queue and the invariant of Safety.lean, or the canonical form of memory. -/
namespace Sys2Proof.Laws
open Sys2Proof Sys2Proof.Machine
variable {q : List Instr}

theorem keep_execTickSync {a0 : State} (g0 : Keep q a0) : KeepX q (@execTickSync a0) := by
  unfold execTickSync
  refine keepX_next ?_
  refine Keep.upd ?_
  assumption

theorem keep_refLoss {a0 : State} (g0 : Keep q a0) : Keep q (@State.refLoss a0) := by
  unfold State.refLoss
  refine keep_foldl ?_ ?_
  · refine Keep.upd ?_
    assumption
  · intro _ _ _
    refine keep_ite (fun _ => ?_) (fun _ => ?_)
    · refine keep_linkDown ?_
      assumption
    · assumption

theorem keep_execRefClockLoss {a0 : State} (g0 : Keep q a0) : KeepX q (@execRefClockLoss a0) := by
  unfold execRefClockLoss
  refine keepX_next ?_
  refine keep_refLoss ?_
  assumption

theorem keep_execRefClockReturn {a0 : State} (g0 : Keep q a0) : KeepX q (@execRefClockReturn a0) := by
  unfold execRefClockReturn
  refine keepX_next ?_
  refine Keep.upd ?_
  assumption

theorem keep_execRackTickHighRead {a0 : State} (g0 : Keep q a0) : KeepX q (@execRackTickHighRead a0) := by
  unfold execRackTickHighRead
  refine keepX_next ?_
  refine keep_send ?_
  refine Keep.upd ?_
  assumption

theorem keep_roleRecord {a0 : State} {a1 : Nat} {a2 : BitVec 17} {a3 : Role} (g0 : Keep q a0) : Keep q (@State.roleRecord a0 a1 a2 a3) := by
  unfold State.roleRecord
  refine keep_record ?_
  assumption

theorem keep_formHedge {a0 : State} (g0 : Keep q a0) : Keep q (@State.formHedge a0) := by
  unfold State.formHedge
  split
  · assumption
  · extract_lets +onlyGivenNames -merge -useContext -underBinder x0
    try clear_value x0
    refine keep_roleRecord ?_
    refine Keep.upd ?_
    assumption

theorem keep_sendBeat {a0 : State} (g0 : Keep q a0) : Keep q (@State.sendBeat a0) := by
  unfold State.sendBeat
  refine keep_ite (fun _ => ?_) (fun _ => ?_)
  · refine keep_quickset ?_
    assumption
  · assumption

theorem keep_execManagerHeartbeatSend {a0 : State} (g0 : Keep q a0) : KeepX q (@execManagerHeartbeatSend a0) := by
  unfold execManagerHeartbeatSend
  refine keepX_next ?_
  refine keep_sendBeat ?_
  assumption

theorem keep_settleRole {a0 : State} {a1 : Nat} {a2 : BitVec 17} (g0 : Keep q a0) : Keep q (@State.settleRole a0 a1 a2) := by
  unfold State.settleRole
  extract_lets +onlyGivenNames -merge -useContext -underBinder x0
  try clear_value x0
  refine keep_ite (fun _ => ?_) (fun _ => ?_)
  · refine keep_roleRecord ?_
    refine Keep.upd ?_
    assumption
  · assumption

theorem keep_beat {a0 : State} {a1 : Role} {a2 : BitVec 17} (g0 : Keep q a0) : Keep q (@State.beat a0 a1 a2) := by
  unfold State.beat
  extract_lets +onlyGivenNames -merge -useContext -underBinder x0
  try clear_value x0
  extract_lets +onlyGivenNames -merge -useContext -underBinder x1
  try clear_value x1
  extract_lets +onlyGivenNames -merge -useContext -underBinder x2
  try clear_value x2
  extract_lets +onlyGivenNames -merge -useContext -underBinder x3
  have h3 : Keep q x3 := by
    unfold x3
    refine Keep.upd ?_
    assumption
  try clear_value x3
  refine keep_foldl ?_ ?_
  · assumption
  · intro _ _ _
    refine keep_settleRole ?_
    assumption

theorem keep_execHeartbeat {a0 : Role} {a1 : BitVec 17} {a2 : State} (g2 : Keep q a2) : KeepX q (@execHeartbeat a0 a1 a2) := by
  unfold execHeartbeat
  refine keepX_next ?_
  refine keep_beat ?_
  assumption

theorem keep_succeed {a0 : State} {a1 : Nat} {a2 : List (BitVec 17)} (g0 : Keep q a0) : Keep q (@State.succeed a0 a1 a2) := by
  unfold State.succeed
  extract_lets +onlyGivenNames -merge -useContext -underBinder x0
  try clear_value x0
  extract_lets +onlyGivenNames -merge -useContext -underBinder x1
  try clear_value x1
  refine keep_ite (fun _ => ?_) (fun _ => ?_)
  · refine keep_roleRecord ?_
    refine Keep.upd ?_
    assumption
  · assumption

theorem keep_execManagerSuccession {a0 : Fin 3} {a1 : List (BitVec 17)} {a2 : State} (g2 : Keep q a2) : KeepX q (@execManagerSuccession a0 a1 a2) := by
  unfold execManagerSuccession
  refine keepX_next ?_
  refine keep_succeed ?_
  assumption

end Sys2Proof.Laws
end

