-- ==== Sys2Proof/Laws/KeepRegisters.lean ====
section
/-! SUPPORT. What each operation of Machine/Registers.lean keeps: the queue and the invariant of Safety.lean, or the canonical form of memory. -/
namespace Sys2Proof.Laws
open Sys2Proof Sys2Proof.Machine
variable {q : List Instr}

theorem keep_clearRc {a0 : State} {a1 : Nat} {a2 : Bool} {a3 : Bool} (g0 : Keep q a0) : Keep q (@State.clearRc a0 a1 a2 a3) := by
  unfold State.clearRc
  extract_lets +onlyGivenNames -merge -useContext -underBinder x0
  try clear_value x0
  refine keep_ite (fun _ => ?_) (fun _ => ?_)
  · refine keep_updLink ?_
    assumption
  · refine keep_ite (fun _ => ?_) (fun _ => ?_)
    · refine keep_updLink ?_
      assumption
    · refine keep_ite (fun _ => ?_) (fun _ => ?_)
      · refine keep_updCq ?_
        assumption
      · assumption

theorem keep_regRead64 {a0 : State} {a1 : Nat} (g0 : Keep q a0) : Keep q (@State.regRead64 a0 a1).1 := by
  unfold State.regRead64
  split
  · show Keep q _
    refine keep_clearRc ?_
    assumption
  · show Keep q _
    assumption

theorem keep_regRead32 {a0 : State} {a1 : Nat} (g0 : Keep q a0) : Keep q (@State.regRead32 a0 a1).1 := by
  unfold State.regRead32
  extract_lets +onlyGivenNames -merge -useContext -underBinder x0
  try clear_value x0
  split
  · show Keep q _
    assumption
  · refine keep1_ite (fun _ => ?_) (fun _ => ?_)
    · refine keep1_ite (fun _ => ?_) (fun _ => ?_)
      · show Keep q _
        refine Keep.upd ?_
        assumption
      · show Keep q _
        refine Keep.upd ?_
        assumption
    · show Keep q _
      refine keep_clearRc ?_
      assumption

theorem keep_regRead {a0 : State} {a1 : Nat} {a2 : Bool} (g0 : Keep q a0) : Keep q (@State.regRead a0 a1 a2).1 := by
  unfold State.regRead
  refine keep1_ite (fun _ => ?_) (fun _ => ?_)
  · show Keep q _
    assumption
  · refine keep1_ite (fun _ => ?_) (fun _ => ?_)
    · refine keep_regRead64 ?_
      assumption
    · refine keep_regRead32 ?_
      assumption

theorem keep_readClear {a0 : State} {a1 : Nat} {a2 : Bool} (g0 : Keep q a0) : Keep q (@State.readClear a0 a1 a2) := by
  unfold State.readClear
  extract_lets +onlyGivenNames -merge -useContext -underBinder x0
  have h0 : Keep q x0.1 := by
    unfold x0
    refine keep_regRead ?_
    assumption
  try clear_value x0
  split
  · refine keep_send ?_
    assumption
  · refine keep_send ?_
    assumption

theorem keep_execRegisterReadClear {a0 : BitVec 43} {a1 : Bool} {a2 : State} (g2 : Keep q a2) : KeepX q (@execRegisterReadClear a0 a1 a2) := by
  unfold execRegisterReadClear
  refine keepX_next ?_
  refine keep_readClear ?_
  assumption

theorem keep_writeClk {a0 : State} {a1 : Nat} {a2 : RegW} (g0 : Keep q a0) : Keep q (@State.writeClk a0 a1 a2) := by
  unfold State.writeClk
  refine keep_ite (fun _ => ?_) (fun _ => ?_)
  · refine Keep.upd ?_
    assumption
  · assumption

theorem keep_writeEqCtrl {a0 : State} {a1 : Nat} {a2 : RegW} (g0 : Keep q a0) : Keep q (@State.writeEqCtrl a0 a1 a2) := by
  unfold State.writeEqCtrl
  extract_lets +onlyGivenNames -merge -useContext -underBinder x0
  try clear_value x0
  extract_lets +onlyGivenNames -merge -useContext -underBinder x1
  try clear_value x1
  extract_lets +onlyGivenNames -merge -useContext -underBinder x2
  try clear_value x2
  extract_lets +onlyGivenNames -merge -useContext -underBinder x3
  have h3 : Keep q x3 := by
    unfold x3
    refine keep_updEq ?_
    assumption
  try clear_value x3
  refine keep_ite (fun _ => ?_) (fun _ => ?_)
  · refine keep_eqEnable ?_
    assumption
  · extract_lets +onlyGivenNames -merge -useContext -underBinder x4
    have h4 : Keep q x4 := by
      unfold x4
      refine keep_updEq ?_
      assumption
    try clear_value x4
    refine keep_ite (fun _ => ?_) (fun _ => ?_)
    · refine keep_eqFault ?_
      assumption
    · assumption

theorem keep_writeEq {a0 : State} {a1 : Nat} {a2 : RegW} (g0 : Keep q a0) : Keep q (@State.writeEq a0 a1 a2) := by
  unfold State.writeEq
  extract_lets +onlyGivenNames -merge -useContext -underBinder x0
  try clear_value x0
  refine keep_ite (fun _ => ?_) (fun _ => ?_)
  · assumption
  · split
    · refine keep_updEq ?_
      assumption
    · refine keep_writeEqCtrl ?_
      assumption
    · refine keep_updEq ?_
      assumption
    · assumption

theorem keep_writeRegion {a0 : State} {a1 : Nat} {a2 : RegW} (g0 : Keep q a0) : Keep q (@State.writeRegion a0 a1 a2).1 := by
  unfold State.writeRegion
  extract_lets +onlyGivenNames -merge -useContext -underBinder x0
  try clear_value x0
  refine keep1_ite (fun _ => ?_) (fun _ => ?_)
  · show Keep q _
    assumption
  · show Keep q _
    refine keep_foldl ?_ ?_
    · assumption
    · intro _ _ r1
      refine keep_changeRegion ?_
      assumption

theorem keep_writeMem {a0 : State} {a1 : Nat} {a2 : RegW} (g0 : Keep q a0) : Keep q (@State.writeMem a0 a1 a2) := by
  unfold State.writeMem
  refine keep_ite (fun _ => ?_) (fun _ => ?_)
  · refine keep_ite (fun _ => ?_) (fun _ => ?_)
    · refine keep_onDp ?_ ?_
      · assumption
      · intro _ _
        refine keep_Dp_updUnit ?_
        assumption
    · assumption
  · assumption

theorem keep_setLimits {a0 : State} {a1 : BitVec 16} {a2 : BitVec 16} (g0 : Keep q a0) : Keep q (@State.setLimits a0 a1 a2).1 := by
  unfold State.setLimits
  refine keep1_ite (fun _ => ?_) (fun _ => ?_)
  · show Keep q _
    refine Keep.mk' ?_ ?_ ?_ ?_ ?_ ?_
    · assumption
    · exact fun h => h.inv.mem
    · first | exact fun h => ⟨h.inv.flash.region, h.inv.flash.jobs⟩ | exact fun h => ⟨h.inv.mem.region, h.inv.mem.jobs⟩
    · exact fun h => ⟨h.inv.sec.hold, h.inv.sec.erased, h.inv.sec.flash, h.inv.sec.revoke, h.inv.sec.disabled⟩
    · exact fun h => h.inv.elec
    · first | exact fun h => ⟨h.inv.stage.max, h.inv.stage.m3⟩ | exact fun h => ⟨h.inv.stage.max, fun e => absurd (show (0 : BitVec 2) = 3 from e) (by decide)⟩ | exact fun h => ⟨h.inv.stage.max, fun e => absurd (show (1 : BitVec 2) = 3 from e) (by decide)⟩
  · show Keep q _
    refine keep_configRecord ?_
    assumption

theorem keep_writePwr {a0 : State} {a1 : Nat} {a2 : RegW} (g0 : Keep q a0) : Keep q (@State.writePwr a0 a1 a2) := by
  unfold State.writePwr
  extract_lets +onlyGivenNames -merge -useContext -underBinder x0
  refine keep_ite (fun _ => ?_) (fun _ => ?_)
  · refine keep_setLimits ?_
    assumption
  · refine keep_ite (fun _ => ?_) (fun _ => ?_)
    · refine Keep.updP ?_ rfl
      assumption
    · refine keep_ite (fun _ => ?_) (fun _ => ?_)
      · refine keep_vote ?_
        assumption
      · refine keep_ite (fun _ => ?_) (fun _ => ?_)
        · refine Keep.updP ?_ rfl
          assumption
        · refine keep_ite (fun _ => ?_) (fun _ => ?_)
          · refine Keep.updP ?_ rfl
            assumption
          · refine keep_ite (fun _ => ?_) (fun _ => ?_)
            · extract_lets +onlyGivenNames -merge -useContext -underBinder x1
              try clear_value x1
              refine keep_ite (fun _ => ?_) (fun _ => ?_)
              · refine Keep.updP ?_ rfl
                assumption
              · refine keep_configRecord ?_
                assumption
            · refine keep_ite (fun _ => ?_) (fun _ => ?_)
              · extract_lets +onlyGivenNames -merge -useContext -underBinder x2
                try clear_value x2
                refine keep_ite (fun _ => ?_) (fun _ => ?_)
                · refine keep_setRequest ?_
                  assumption
                · assumption
              · assumption

theorem keep_writePct {a0 : State} {a1 : Nat} {a2 : RegW} (g0 : Keep q a0) : Keep q (@State.writePct a0 a1 a2) := by
  unfold State.writePct
  refine keep_ite (fun _ => ?_) (fun _ => ?_)
  · extract_lets +onlyGivenNames -merge -useContext -underBinder x0
    try clear_value x0
    split
    · refine keep_updPct ?_
      assumption
    · refine keep_updPct ?_
      assumption
    · refine keep_updPct ?_
      assumption
    · assumption
  · refine keep_ite (fun _ => ?_) (fun _ => ?_)
    · refine keep_windowWrite ?_
      assumption
    · assumption

theorem keep_writeLnkCtrl {a0 : State} {a1 : Nat} {a2 : RegW} (g0 : Keep q a0) : Keep q (@State.writeLnkCtrl a0 a1 a2) := by
  unfold State.writeLnkCtrl
  extract_lets +onlyGivenNames -merge -useContext -underBinder x0
  try clear_value x0
  extract_lets +onlyGivenNames -merge -useContext -underBinder x1
  have h1 : Keep q x1 := by
    unfold x1
    refine keep_ite (fun _ => ?_) (fun _ => ?_)
    · assumption
    · refine keep_ite (fun _ => ?_) (fun _ => ?_)
      · refine keep_linkEnable ?_
        assumption
      · refine keep_linkReject ?_
        assumption
  try clear_value x1
  extract_lets +onlyGivenNames -merge -useContext -underBinder x2
  have h2 : Keep q x2 := by
    unfold x2
    refine keep_ite (fun _ => ?_) (fun _ => ?_)
    · refine keep_linkRetrain ?_
      assumption
    · assumption
  try clear_value x2
  refine keep_ite (fun _ => ?_) (fun _ => ?_)
  · refine keep_linkRestore ?_
    assumption
  · assumption

theorem keep_writeLnk {a0 : State} {a1 : Nat} {a2 : RegW} (g0 : Keep q a0) : Keep q (@State.writeLnk a0 a1 a2) := by
  unfold State.writeLnk
  extract_lets +onlyGivenNames -merge -useContext -underBinder x0
  try clear_value x0
  refine keep_ite (fun _ => ?_) (fun _ => ?_)
  · assumption
  · split
    · refine keep_writeLnkCtrl ?_
      assumption
    · refine keep_updLink ?_
      assumption
    · assumption

theorem keep_writeEvr {a0 : State} {a1 : Nat} {a2 : RegW} (g0 : Keep q a0) : Keep q (@State.writeEvr a0 a1 a2) := by
  unfold State.writeEvr
  refine keep_ite (fun _ => ?_) (fun _ => ?_)
  · refine keep_onEvr ?_
    assumption
  · assumption

theorem keep_writeWdg {a0 : State} {a1 : Nat} {a2 : RegW} (g0 : Keep q a0) : Keep q (@State.writeWdg a0 a1 a2) := by
  unfold State.writeWdg
  refine keep_ite (fun _ => ?_) (fun _ => ?_)
  · extract_lets +onlyGivenNames -merge -useContext -underBinder x0
    try clear_value x0
    refine keep_ite (fun _ => ?_) (fun _ => ?_)
    · refine Keep.upd ?_
      assumption
    · refine keep_configRecord ?_
      assumption
  · refine keep_ite (fun _ => ?_) (fun _ => ?_)
    · refine Keep.upd ?_
      assumption
    · assumption

theorem keep_writeCq {a0 : State} {a1 : Nat} {a2 : RegW} (g0 : Keep q a0) : Keep q (@State.writeCq a0 a1 a2) := by
  unfold State.writeCq
  extract_lets +onlyGivenNames -merge -useContext -underBinder x0
  try clear_value x0
  refine keep_ite (fun _ => ?_) (fun _ => ?_)
  · assumption
  · split
    · refine keep_updCq ?_
      assumption
    · refine keep_updCq ?_
      assumption
    · refine keep_updCq ?_
      assumption
    · assumption

theorem keep_writeWet {a0 : State} {a1 : Nat} {a2 : RegW} (g0 : Keep q a0) : Keep q (@State.writeWet a0 a1 a2) := by
  unfold State.writeWet
  refine keep_ite (fun _ => ?_) (fun _ => ?_)
  · extract_lets +onlyGivenNames -merge -useContext -underBinder x0
    try clear_value x0
    split
    · extract_lets +onlyGivenNames -merge -useContext -underBinder x1
      try clear_value x1
      refine keep_ite (fun _ => ?_) (fun _ => ?_)
      · refine keep_updWet ?_
        assumption
      · refine keep_configRecord ?_
        assumption
    · refine keep_updWet ?_
      assumption
    · assumption
  · assumption

theorem keep_writeCkp {a0 : State} {a1 : Nat} {a2 : RegW} (g0 : Keep q a0) : Keep q (@State.writeCkp a0 a1 a2) := by
  unfold State.writeCkp
  refine keep_ite (fun _ => ?_) (fun _ => ?_)
  · refine keep_updCkp ?_
    assumption
  · assumption

theorem keep_writeSec {a0 : State} {a1 : Nat} {a2 : RegW} (g0 : Keep q a0) : Keep q (@State.writeSec a0 a1 a2) := by
  unfold State.writeSec
  refine keep_ite (fun _ => ?_) (fun _ => ?_)
  · refine Keep.mk' ?_ ?_ ?_ ?_ ?_ ?_
    · assumption
    · exact fun h => h.inv.mem
    · exact fun h => h.inv.flash
    · exact fun h => ⟨h.inv.sec.hold, h.inv.sec.erased, h.inv.sec.flash, h.inv.sec.revoke, h.inv.sec.disabled⟩
    · exact fun h => h.inv.elec
    · exact fun h => h.inv.stage
  · assumption

theorem keep_writeMbx {a0 : State} {a1 : Port} {a2 : Nat} {a3 : RegW} (g0 : Keep q a0) : Keep q (@State.writeMbx a0 a1 a2 a3) := by
  unfold State.writeMbx
  refine keep_ite (fun _ => ?_) (fun _ => ?_)
  · refine keep_ite (fun _ => ?_) (fun _ => ?_)
    · refine Keep.upd ?_
      assumption
    · refine keep_bar0Discard ?_
      assumption
  · refine keep_ite (fun _ => ?_) (fun _ => ?_)
    · refine keep_updPort ?_
      assumption
    · refine keep_ite (fun _ => ?_) (fun _ => ?_)
      · refine keep_updPort ?_
        assumption
      · refine keep_bar0Discard ?_
        assumption

theorem keep_writeMsix {a0 : State} {a1 : Port} {a2 : Nat} {a3 : RegW} (g0 : Keep q a0) : Keep q (@State.writeMsix a0 a1 a2 a3) := by
  unfold State.writeMsix
  extract_lets +onlyGivenNames -merge -useContext -underBinder x0
  try clear_value x0
  refine keep_onDp ?_ ?_
  · assumption
  · intro _ _
    extract_lets +onlyGivenNames -merge -useContext -underBinder x1
    try clear_value x1
    refine keepD_ite (fun _ => ?_) (fun _ => ?_)
    · refine keep_Dp_setMsix ?_
      assumption
    · extract_lets +onlyGivenNames -merge -useContext -underBinder x2
      try clear_value x2
      extract_lets +onlyGivenNames -merge -useContext -underBinder x3
      try clear_value x3
      extract_lets +onlyGivenNames -merge -useContext -underBinder x4
      try clear_value x4
      extract_lets +onlyGivenNames -merge -useContext -underBinder x5
      have h5 : KeepD x5 := by
        unfold x5
        refine keep_Dp_setMsix ?_
        assumption
      try clear_value x5
      refine keepD_ite (fun _ => ?_) (fun _ => ?_)
      · refine keep_Dp_send ?_
        assumption
      · assumption

theorem keep_writeBar0 {a0 : State} {a1 : Port} {a2 : Nat} {a3 : RegW} (g0 : Keep q a0) : Keep q (@State.writeBar0 a0 a1 a2 a3) := by
  unfold State.writeBar0
  refine keep_ite (fun _ => ?_) (fun _ => ?_)
  · refine keep_ite (fun _ => ?_) (fun _ => ?_)
    · assumption
    · refine keep_bar0Discard ?_
      assumption
  · refine keep_ite (fun _ => ?_) (fun _ => ?_)
    · refine keep_writeMbx ?_
      assumption
    · refine keep_ite (fun _ => ?_) (fun _ => ?_)
      · refine keep_writeMsix ?_
        assumption
      · refine keep_bar0Discard ?_
        assumption

theorem keep_State_writeBlock {a0 : State} {a1 : Nat} {a2 : RegW} (g0 : Keep q a0) : Keep q (@State.writeBlock a0 a1 a2) := by
  unfold State.writeBlock
  extract_lets +onlyGivenNames -merge -useContext -underBinder x0
  try clear_value x0
  split
  · refine keep_writeClk ?_
    assumption
  · refine keep_writeEq ?_
    assumption
  · refine keep_writeMem ?_
    assumption
  · refine keep_writePwr ?_
    assumption
  · refine keep_writePct ?_
    assumption
  · refine keep_writeLnk ?_
    assumption
  · refine keep_writeEvr ?_
    assumption
  · refine keep_writeWdg ?_
    assumption
  · refine keep_writeCq ?_
    assumption
  · refine keep_writeWet ?_
    assumption
  · refine keep_writeCkp ?_
    assumption
  · refine keep_writeSec ?_
    assumption
  · assumption

theorem keep_ownerWrite {a0 : State} {a1 : Port} {a2 : Nat} {a3 : RegW} (g0 : Keep q a0) : Keep q (@State.ownerWrite a0 a1 a2 a3).1 := by
  unfold State.ownerWrite
  refine keep1_ite (fun _ => ?_) (fun _ => ?_)
  · show Keep q _
    assumption
  · split
    · show Keep q _
      assumption
    · refine keep1_ite (fun _ => ?_) (fun _ => ?_)
      · show Keep q _
        assumption
      · refine keep1_ite (fun _ => ?_) (fun _ => ?_)
        · show Keep q _
          refine keep_writeMbx ?_
          assumption
        · show Keep q _
          refine keep_State_writeBlock ?_
          assumption

theorem keep_regWrite {a0 : State} {a1 : RegAgent} {a2 : Nat} {a3 : Bool} {a4 : RegW} (g0 : Keep q a0) : Keep q (@State.regWrite a0 a1 a2 a3 a4).1 := by
  unfold State.regWrite
  extract_lets +onlyGivenNames -merge -useContext -underBinder x0
  try clear_value x0
  split
  · show Keep q _
    refine keep_writeBar0 ?_
    assumption
  · show Keep q _
    assumption
  · refine keep_ownerWrite ?_
    assumption
  · refine keep1_ite (fun _ => ?_) (fun _ => ?_)
    · show Keep q _
      assumption
    · show Keep q _
      assumption
  · extract_lets +onlyGivenNames -merge -useContext -underBinder x1
    try clear_value x1
    refine keep1_ite (fun _ => ?_) (fun _ => ?_)
    · show Keep q _
      assumption
    · refine keep1_ite (fun _ => ?_) (fun _ => ?_)
      · split
        · refine keep_writeRegion ?_
          assumption
        · show Keep q _
          refine keep_State_writeBlock ?_
          assumption
      · show Keep q _
        refine keep_State_writeBlock ?_
        assumption

theorem keep_execRegisterWrite {a0 : RegAgent} {a1 : BitVec 43} {a2 : Bool} {a3 : BitVec 64} {a4 : BitVec 64} {a5 : BitVec 64} {a6 : State} (g6 : Keep q a6) : KeepX q (@execRegisterWrite a0 a1 a2 a3 a4 a5 a6) := by
  unfold execRegisterWrite
  extract_lets +onlyGivenNames -merge -useContext -underBinder x0
  have h0 : Keep q x0.1 := by
    unfold x0
    refine keep_regWrite ?_
    assumption
  try clear_value x0
  refine keepX_next ?_
  refine keep_send ?_
  assumption

end Sys2Proof.Laws
end

