-- ==== Sys2Proof/Laws/KeepMemCmds.lean ====
section
/-! SUPPORT. What each operation of Machine/MemCmds.lean keeps: the queue and the invariant of Safety.lean, or the canonical form of memory. -/
namespace Sys2Proof.Laws
open Sys2Proof Sys2Proof.Machine
variable {q : List Instr}

theorem keep_answerReq {a0 : State} {a1 : MemReq} {a2 : Nat} {a3 : Status} {a4 : List Byte} (g0 : Keep q a0) : Keep q (@State.answerReq a0 a1 a2 a3 a4) := by
  unfold State.answerReq
  split
  · refine keep_respond ?_
    assumption
  · refine keep_ite (fun _ => ?_) (fun _ => ?_)
    · refine keep_send ?_
      assumption
    · refine keep_send ?_
      assumption

theorem keep_issueReq {a0 : State} {a1 : MemReq} {a2 : Nat} {a3 : Coord} {a4 : List Byte} (g0 : Keep q a0) : Keep q (@State.issueReq a0 a1 a2 a3 a4) := by
  unfold State.issueReq
  refine keep_ite (fun _ => ?_) (fun _ => ?_)
  · refine keep_answerReq ?_
    assumption
  · extract_lets +onlyGivenNames -merge -useContext -underBinder x0
    try clear_value x0
    extract_lets +onlyGivenNames -merge -useContext -underBinder x1
    try clear_value x1
    extract_lets +onlyGivenNames -merge -useContext -underBinder x2
    have h2 : Keep q x2.1 := by
      unfold x2
      refine keep_sendPacket ?_
      assumption
    try clear_value x2
    refine keep_ite (fun _ => ?_) (fun _ => ?_)
    · refine keep_answerReq ?_
      assumption
    · extract_lets +onlyGivenNames -merge -useContext -underBinder x3
      have h3 : Keep q x3 := by
        unfold x3
        assumption
      try clear_value x3
      refine Keep.upd ?_
      assumption

theorem keep_memReq {a0 : State} {a1 : MemReq} {a2 : Nat} {a3 : List Byte} {a4 : Nat → Nat → State × Status × List Byte} (g0 : Keep q a0) (g4 : ∀ y0 y1, Keep q (a4 y0 y1).1) : Keep q (@State.memReq a0 a1 a2 a3 a4) := by
  unfold State.memReq
  refine keep_ite (fun _ => ?_) (fun _ => ?_)
  · refine keep_answerReq ?_
    assumption
  · split
    · refine keep_answerReq ?_
      assumption
    · refine keep_ite (fun _ => ?_) (fun _ => ?_)
      · refine keep_answerReq ?_
        assumption
      · refine keep_issueReq ?_
        assumption
    · extract_lets +onlyGivenNames -merge -useContext -underBinder x0
      have h0 : Keep q x0.1 := by
        unfold x0
        exact g4 _ _
      try clear_value x0
      refine keep_answerReq ?_
      assumption

theorem keep_runReq {a0 : State} {a1 : MemReq} {a2 : Env} {a3 : Ctx → Op (List Byte)} (g0 : Keep q a0) (g3 : ∀ y0, KeepO (a3 y0)) : Keep q (@State.runReq a0 a1 a2 a3).1 := by
  unfold State.runReq
  extract_lets +onlyGivenNames -merge -useContext -underBinder x0
  have h0 : Keep q x0.1 := by
    unfold x0
    refine keep_runOp ?_ ?_
    · assumption
    · exact g3 _
  try clear_value x0
  split
  · show Keep q _
    assumption
  · show Keep q _
    assumption

theorem keep_readReg {a0 : State} {a1 : Nat} (g0 : Keep q a0) : Keep q (@State.readReg a0 a1).1 := by
  unfold State.readReg
  extract_lets +onlyGivenNames -merge -useContext -underBinder x0
  have h0 : Keep q x0.1 := by
    unfold x0
    refine keep_regRead ?_
    assumption
  try clear_value x0
  split
  · show Keep q _
    assumption
  · show Keep q _
    assumption

theorem keep_memRead {a0 : State} {a1 : MemReq} {a2 : Nat} {a3 : Env} (g0 : Keep q a0) : Keep q (@State.memRead a0 a1 a2 a3) := by
  unfold State.memRead
  refine keep_memReq ?_ ?_
  · assumption
  · intro _ _
    refine keep1_ite (fun _ => ?_) (fun _ => ?_)
    · refine keep_readReg ?_
      assumption
    · refine keep_runReq ?_ ?_
      · assumption
      · intro _
        exact keep_readAt

theorem keep_execRead {a0 : MemReq} {a1 : Fin 129} {a2 : Env} {a3 : State} (g3 : Keep q a3) : KeepX q (@execRead a0 a1 a2 a3) := by
  unfold execRead
  refine keepX_next ?_
  refine keep_memRead ?_
  assumption

theorem keep_memWrite {a0 : State} {a1 : MemReq} {a2 : List Byte} {a3 : Env} (g0 : Keep q a0) : Keep q (@State.memWrite a0 a1 a2 a3) := by
  unfold State.memWrite
  refine keep_memReq ?_ ?_
  · assumption
  · intro _ _
    refine keep1_ite (fun _ => ?_) (fun _ => ?_)
    · extract_lets +onlyGivenNames -merge -useContext -underBinder x0
      have h0 : Keep q x0.1 := by
        unfold x0
        refine keep_regWrite ?_
        assumption
      try clear_value x0
      show Keep q _
      assumption
    · refine keep_runReq ?_ ?_
      · assumption
      · intro _
        refine keepO_bind ?_ ?_
        · exact keep_writeAt
        · intro _
          exact keepO_pure

theorem keep_execWrite {a0 : MemReq} {a1 : List Byte} {a2 : Env} {a3 : State} (g3 : Keep q a3) : KeepX q (@execWrite a0 a1 a2 a3) := by
  unfold execWrite
  refine keepX_next ?_
  refine keep_memWrite ?_
  assumption

theorem keep_atomic8 {a0 : Addr} {a1 : BitVec 64 → BitVec 64} {a2 : Ctx} : KeepO (@atomic8 a0 a1 a2) := by
  unfold atomic8
  refine keepO_ite (fun _ => ?_) (fun _ => ?_)
  · exact keep_failOp
  · refine keepO_get ?_
    intro _ _
    refine keepO_bind ?_ ?_
    · exact keep_needOk
    · intro _
      refine keepO_bind ?_ ?_
      · exact keep_readAt
      · intro _
        refine keepO_bind ?_ ?_
        · exact keep_writeAt
        · intro _
          exact keepO_pure

theorem keep_fetchAdd {a0 : State} {a1 : MemReq} {a2 : BitVec 64} {a3 : Env} (g0 : Keep q a0) : Keep q (@State.fetchAdd a0 a1 a2 a3) := by
  unfold State.fetchAdd
  refine keep_memReq ?_ ?_
  · assumption
  · intro _ _
    refine keep_runReq ?_ ?_
    · assumption
    · intro _
      exact keep_atomic8

theorem keep_execFetchAdd64 {a0 : MemReq} {a1 : BitVec 64} {a2 : Env} {a3 : State} (g3 : Keep q a3) : KeepX q (@execFetchAdd64 a0 a1 a2 a3) := by
  unfold execFetchAdd64
  refine keepX_next ?_
  refine keep_fetchAdd ?_
  assumption

theorem keep_compareSwap {a0 : State} {a1 : MemReq} {a2 : BitVec 64} {a3 : BitVec 64} {a4 : Env} (g0 : Keep q a0) : Keep q (@State.compareSwap a0 a1 a2 a3 a4) := by
  unfold State.compareSwap
  refine keep_memReq ?_ ?_
  · assumption
  · intro _ _
    refine keep_runReq ?_ ?_
    · assumption
    · intro _
      exact keep_atomic8

theorem keep_execCas64 {a0 : MemReq} {a1 : BitVec 64} {a2 : BitVec 64} {a3 : Env} {a4 : State} (g4 : Keep q a4) : KeepX q (@execCas64 a0 a1 a2 a3 a4) := by
  unfold execCas64
  refine keepX_next ?_
  refine keep_compareSwap ?_
  assumption

theorem keep_markUnreadable {a0 : State} {a1 : Addr} (g0 : Keep q a0) : Keep q (@State.markUnreadable a0 a1) := by
  unfold State.markUnreadable
  split
  · refine keep_onDp ?_ ?_
    · assumption
    · intro _ _
      refine keepD_mk ?_
      extract_lets +onlyGivenNames -merge -useContext -underBinder x0
      have h0 : Mem.Wf x0 := by
        unfold x0
        show KeepD _
        assumption
      try clear_value x0
      refine memWf_mk ?_ ?_ ?_ ?_ ?_ ?_
      · refine Mem.Wf.bytes ?_
        assumption
      · refine Mem.Wf.errs ?_
        assumption
      · refine Sparse.wf_set ?_
        refine Mem.Wf.unread ?_
        show KeepD _
        assumption
      · refine Mem.Wf.region ?_
        assumption
      · refine Mem.Wf.zeroed ?_
        assumption
      · refine Mem.Wf.jobs ?_
        assumption
  · assumption

theorem keep_censusCombine {a0 : State} {a1 : MemReq} {a2 : BitVec 256} {a3 : Env} (g0 : Keep q a0) : Keep q (@State.censusCombine a0 a1 a2 a3) := by
  unfold State.censusCombine
  refine keep_memReq ?_ ?_
  · assumption
  · intro _ _
    refine keep1_ite (fun _ => ?_) (fun _ => ?_)
    · show Keep q _
      assumption
    · refine keep1_ite (fun _ => ?_) (fun _ => ?_)
      · show Keep q _
        assumption
      · extract_lets +onlyGivenNames -merge -useContext -underBinder x0
        have h0 : Keep q x0.1 := by
          unfold x0
          refine keep_runReq ?_ ?_
          · assumption
          · intro _
            refine keepO_get ?_
            intro _ _
            refine keepO_bind ?_ ?_
            · exact keep_needOk
            · intro _
              extract_lets +onlyGivenNames -merge -useContext -underBinder x1
              try clear_value x1
              extract_lets +onlyGivenNames -merge -useContext -underBinder x2
              have h2 : ∀ y0, KeepO (@x2 y0) := by
                intro _
                unfold x2
                try dsimp -zeta only
                refine keepO_bind ?_ ?_
                · exact keep_takeCensus
                · intro _
                  refine keepO_bind ?_ ?_
                  · exact keep_writeAt
                  · intro _
                    exact keepO_pure
              try clear_value x2
              refine keepO_ite (fun _ => ?_) (fun _ => ?_)
              · refine keepO_bind ?_ ?_
                · exact keep_failOp
                · intro _
                  exact h2 _
              · exact h2 _
        try clear_value x0
        refine keep1_ite (fun _ => ?_) (fun _ => ?_)
        · show Keep q _
          refine keep_markUnreadable ?_
          assumption
        · assumption

theorem keep_execCensusCombine {a0 : MemReq} {a1 : BitVec 256} {a2 : Env} {a3 : State} (g3 : Keep q a3) : KeepX q (@execCensusCombine a0 a1 a2 a3) := by
  unfold execCensusCombine
  refine keepX_next ?_
  refine keep_censusCombine ?_
  assumption

theorem keep_sidecarPart {a0 : State} {a1 : MemReq} {a2 : Addr} {a3 : Nat} {a4 : PartIn} {a5 : Env} (g0 : Keep q a0) : Keep q (@State.sidecarPart a0 a1 a2 a3 a4 a5) := by
  unfold State.sidecarPart
  refine keep_memReq ?_ ?_
  · assumption
  · intro _ _
    refine keep_runReq ?_ ?_
    · assumption
    · intro _
      refine keepO_bind ?_ ?_
      · exact keep_fetchTD
      · intro _
        refine keepO_ite (fun _ => ?_) (fun _ => ?_)
        · exact keep_failOp
        · refine keepO_get ?_
          intro _ _
          refine keepO_ite (fun _ => ?_) (fun _ => ?_)
          · exact keep_failOp
          · refine keepO_get ?_
            intro _ _
            refine keepO_bind ?_ ?_
            · exact keep_needOk
            · intro _
              refine keepO_bind ?_ ?_
              · exact keep_partSidecar
              · intro _
                exact keepO_pure

theorem keep_execSidecarPart {a0 : MemReq} {a1 : Addr} {a2 : BitVec 32} {a3 : PartIn} {a4 : Env} {a5 : State} (g5 : Keep q a5) : KeepX q (@execSidecarPart a0 a1 a2 a3 a4 a5) := by
  unfold execSidecarPart
  refine keepX_next ?_
  refine keep_sidecarPart ?_
  assumption

theorem keep_dropTxn {a0 : State} {a1 : BitVec 16} (g0 : Keep q a0) : Keep q (@State.dropTxn a0 a1) := by
  unfold State.dropTxn
  refine Keep.upd ?_
  assumption

theorem keep_takeResp {a0 : State} {a1 : Packet} {a2 : Nat} (g0 : Keep q a0) : Keep q (@State.takeResp a0 a1 a2) := by
  unfold State.takeResp
  split
  · assumption
  · extract_lets +onlyGivenNames -merge -useContext -underBinder x0
    try clear_value x0
    extract_lets +onlyGivenNames -merge -useContext -underBinder x1
    try clear_value x1
    refine keep_answerReq ?_
    refine keep_dropTxn ?_
    assumption

theorem keep_execReadResp {a0 : Packet} {a1 : State} (g1 : Keep q a1) : KeepX q (@execReadResp a0 a1) := by
  unfold execReadResp
  refine keepX_next ?_
  refine keep_takeResp ?_
  assumption

theorem keep_execWriteAck {a0 : Packet} {a1 : State} (g1 : Keep q a1) : KeepX q (@execWriteAck a0 a1) := by
  unfold execWriteAck
  refine keepX_next ?_
  refine keep_takeResp ?_
  assumption

theorem keep_execAtomicResp {a0 : Packet} {a1 : State} (g1 : Keep q a1) : KeepX q (@execAtomicResp a0 a1) := by
  unfold execAtomicResp
  refine keepX_next ?_
  refine keep_takeResp ?_
  assumption

theorem keep_remoteTimeout {a0 : State} {a1 : BitVec 16} {a2 : Option QueueId} (g0 : Keep q a0) : Keep q (@State.remoteTimeout a0 a1 a2) := by
  unfold State.remoteTimeout
  split
  · assumption
  · extract_lets +onlyGivenNames -merge -useContext -underBinder x0
    have h0 : Keep q x0 := by
      unfold x0
      refine keep_answerReq ?_
      refine keep_dropTxn ?_
      assumption
    try clear_value x0
    split
    · assumption
    · extract_lets +onlyGivenNames -merge -useContext -underBinder x1
      have h1 : Keep q x1 := by
        unfold x1
        refine keep_declareHang ?_
        assumption
      try clear_value x1
      split
      · refine keep_askLost ?_
        assumption
      · assumption

theorem keep_execRemoteAccessTimeout {a0 : BitVec 16} {a1 : Option QueueId} {a2 : State} (g2 : Keep q a2) : KeepX q (@execRemoteAccessTimeout a0 a1 a2) := by
  unfold execRemoteAccessTimeout
  refine keepX_next ?_
  refine keep_remoteTimeout ?_
  assumption

theorem keep_setUnreadable {a0 : Ctx} {a1 : Addr} : KeepO (@setUnreadable a0 a1) := by
  unfold setUnreadable
  refine keepO_bind ?_ ?_
  · refine keepO_tryCatch ?_ ?_
    · exact keep_readAt
    · intro _
      exact keepO_pure
  · intro _
    extract_lets +onlyGivenNames -merge -useContext -underBinder x0
    try clear_value x0
    exact keep_writeAt

theorem keep_markTile {a0 : Ctx} {a1 : Addr} {a2 : Nat} {a3 : Addr} : KeepO (@markTile a0 a1 a2 a3) := by
  unfold markTile
  refine keepO_bind ?_ ?_
  · exact keep_fetchTD
  · intro _
    refine keepO_get ?_
    intro _ _
    extract_lets +onlyGivenNames -merge -useContext -underBinder x0
    try clear_value x0
    extract_lets +onlyGivenNames -merge -useContext -underBinder x1
    try clear_value x1
    refine keepO_ite (fun _ => ?_) (fun _ => ?_)
    · refine keepO_bind ?_ ?_
      · exact keep_writeAt
      · intro _
        exact keep_setUnreadable
    · refine keepO_ite (fun _ => ?_) (fun _ => ?_)
      · exact keep_writeAt
      · exact keep_setUnreadable

theorem keep_copyBack {a0 : Ctx} {a1 : List (Addr × Nat × Addr)} : KeepO (@copyBack a0 a1) := by
  induction a1 generalizing a0 with
  | nil =>
    rw [copyBack]
    exact keepO_pure
  | cons u1 u2 ih =>
    rw [copyBack]
    refine keepO_bind ?_ ?_
    · exact keep_readAt
    · intro _
      refine keepO_bind ?_ ?_
      · exact keep_writeAt
      · intro _
        apply ih

theorem keep_resolveUe {a0 : State} {a1 : Addr} {a2 : UePlace} {a3 : Env} (g0 : Keep q a0) : Keep q (@State.resolveUe a0 a1 a2 a3) := by
  unfold State.resolveUe
  extract_lets +onlyGivenNames -merge -useContext -underBinder x0
  try clear_value x0
  extract_lets +onlyGivenNames -merge -useContext -underBinder x1
  have h1 : Keep q x1 := by
    unfold x1
    split
    · refine keep_runOp ?_ ?_
      · assumption
      · exact keep_markTile
    · assumption
  try clear_value x1
  extract_lets +onlyGivenNames -merge -useContext -underBinder x2
  have h2 : Keep q x2 := by
    unfold x2
    refine keep_ite (fun _ => ?_) (fun _ => ?_)
    · refine keep_markUnreadable ?_
      assumption
    · assumption
  try clear_value x2
  refine keep_runOp ?_ ?_
  · assumption
  · exact keep_copyBack

theorem keep_execUeResolve {a0 : Addr} {a1 : UePlace} {a2 : Env} {a3 : State} (g3 : Keep q a3) : KeepX q (@execUeResolve a0 a1 a2 a3) := by
  unfold execUeResolve
  refine keepX_next ?_
  refine keep_around ?_ ?_
  · assumption
  · intro _ _ _
    refine keep_resolveUe ?_
    assumption

theorem keep_scrubWord {a0 : Dp} {a1 : List Nat} {a2 : Nat} (g0 : KeepD a0) : KeepD (@scrubWord a0 a1 a2) := by
  unfold scrubWord
  split
  · assumption
  · refine keep_markRow ?_
    refine keep_countUe ?_
    assumption
  · extract_lets +onlyGivenNames -merge -useContext -underBinder x0
    have h0 : KeepD x0 := by
      unfold x0
      refine keep_countCe ?_
      assumption
    try clear_value x0
    extract_lets +onlyGivenNames -merge -useContext -underBinder x1
    have h1 : KeepD x1 := by
      unfold x1
      refine keepD_ite (fun _ => ?_) (fun _ => ?_)
      · assumption
      · refine keepD_mk ?_
        refine keep_Mem_putWord ?_
        show KeepD _
        assumption
    try clear_value x1
    extract_lets +onlyGivenNames -merge -useContext -underBinder x2
    try clear_value x2
    extract_lets +onlyGivenNames -merge -useContext -underBinder x3
    have h3 : Mem.Wf x3 := by
      unfold x3
      show KeepD _
      assumption
    try clear_value x3
    extract_lets +onlyGivenNames -merge -useContext -underBinder x4
    have h4 : KeepD x4 := by
      unfold x4
      refine keepD_mk ?_
      refine memWf_mk ?_ ?_ ?_ ?_ ?_ ?_
      · refine Mem.Wf.bytes ?_
        assumption
      · refine Mem.Wf.errs ?_
        assumption
      · refine Mem.Wf.unread ?_
        assumption
      · refine Mem.Wf.region ?_
        assumption
      · refine Mem.Wf.zeroed ?_
        assumption
      · refine Mem.Wf.jobs ?_
        assumption
    try clear_value x4
    refine keepD_ite (fun _ => ?_) (fun _ => ?_)
    · refine keep_markRow ?_
      assumption
    · assumption

theorem keep_endStreaks {a0 : Mem} {a1 : Nat} (g0 : Mem.Wf a0) : Mem.Wf (@endStreaks a0 a1) := by
  unfold endStreaks
  refine memWf_mk ?_ ?_ ?_ ?_ ?_ ?_
  · refine Mem.Wf.bytes ?_
    assumption
  · refine Mem.Wf.errs ?_
    assumption
  · refine Mem.Wf.unread ?_
    assumption
  · refine Mem.Wf.region ?_
    assumption
  · refine Mem.Wf.zeroed ?_
    assumption
  · refine Mem.Wf.jobs ?_
    assumption

theorem keep_scrubGranule {a0 : Dp} {a1 : List Nat} {a2 : Nat} (g0 : KeepD a0) : KeepD (@scrubGranule a0 a1 a2) := by
  unfold scrubGranule
  extract_lets +onlyGivenNames -merge -useContext -underBinder x0
  have h0 : KeepD x0 := by
    unfold x0
    refine keepD_mk ?_
    refine keep_endStreaks ?_
    show KeepD _
    assumption
  try clear_value x0
  refine keepD_foldl ?_ ?_
  · assumption
  · intro _ _ _
    refine keep_scrubWord ?_
    assumption

theorem keep_patrol {a0 : State} {a1 : Nat} {a2 : List Nat} {a3 : Env} (g0 : Keep q a0) : Keep q (@State.patrol a0 a1 a2 a3) := by
  unfold State.patrol
  refine keep_onDp ?_ ?_
  · assumption
  · intro _ _
    extract_lets +onlyGivenNames -merge -useContext -underBinder x0
    have h0 : KeepD x0 := by
      unfold x0
      refine keep_Dp_upsets ?_
      assumption
    try clear_value x0
    extract_lets +onlyGivenNames -merge -useContext -underBinder x1
    try clear_value x1
    split
    · refine keep_Dp_updUnit ?_
      assumption
    · extract_lets +onlyGivenNames -merge -useContext -underBinder x2
      have h2 : KeepD x2 := by
        unfold x2
        refine keep_scrubGranule ?_
        assumption
      try clear_value x2
      refine keep_Dp_updUnit ?_
      assumption

theorem keep_execPatrolScrubRead {a0 : Fin 64} {a1 : List Nat} {a2 : Env} {a3 : State} (g3 : Keep q a3) : KeepX q (@execPatrolScrubRead a0 a1 a2 a3) := by
  unfold execPatrolScrubRead
  refine keepX_next ?_
  refine keep_patrol ?_
  assumption

theorem keep_execScrubPriorityEscalation {a0 : Fin 64} {a1 : State} (g1 : Keep q a1) : KeepX q (@execScrubPriorityEscalation a0 a1) := by
  unfold execScrubPriorityEscalation
  refine keepX_next ?_
  refine keep_onDp ?_ ?_
  · assumption
  · intro _ _
    refine keep_Dp_updUnit ?_
    assumption

end Sys2Proof.Laws
end

