-- ==== Sys2Proof/Laws/KeepJobCmds.lean ====
section
/-! SUPPORT. What each operation of Machine/JobCmds.lean keeps: the queue and the invariant of Safety.lean, or the canonical form of memory. -/
namespace Sys2Proof.Laws
open Sys2Proof Sys2Proof.Machine
variable {q : List Instr}

theorem keep_execGetInfo {a0 : BitVec 48} {a1 : State} (g1 : Keep q a1) : KeepX q (@execGetInfo a0 a1) := by
  unfold execGetInfo
  refine keepX_next ?_
  refine keep_runCmd ?_ ?_
  · assumption
  · intro _
    show Keep q _
    assumption

theorem keep_execGetStatus {a0 : BitVec 48} {a1 : State} (g1 : Keep q a1) : KeepX q (@execGetStatus a0 a1) := by
  unfold execGetStatus
  refine keepX_next ?_
  refine keep_runCmd ?_ ?_
  · assumption
  · intro _
    show Keep q _
    assumption

theorem keep_setRoleMap {a0 : State} {a1 : List Byte} (g0 : Keep q a0) : Keep q (@State.setRoleMap a0 a1).1 := by
  unfold State.setRoleMap
  extract_lets +onlyGivenNames -merge -useContext -underBinder x0
  try clear_value x0
  refine keep1_ite (fun _ => ?_) (fun _ => ?_)
  · show Keep q _
    assumption
  · refine keep1_ite (fun _ => ?_) (fun _ => ?_)
    · show Keep q _
      assumption
    · extract_lets +onlyGivenNames -merge -useContext -underBinder x1
      try clear_value x1
      extract_lets +onlyGivenNames -merge -useContext -underBinder x2
      try clear_value x2
      extract_lets +onlyGivenNames -merge -useContext -underBinder x3
      extract_lets +onlyGivenNames -merge -useContext -underBinder x4
      have h4 : Keep q x4 := by
        unfold x4
        refine Keep.mk' ?_ ?_ ?_ ?_ ?_ ?_
        · assumption
        · exact fun h => h.inv.mem
        · first | exact fun h => ⟨h.inv.flash.region, h.inv.flash.jobs⟩ | exact fun h => ⟨h.inv.mem.region, h.inv.mem.jobs⟩
        · exact fun h => ⟨h.inv.sec.hold, h.inv.sec.erased, h.inv.sec.flash, h.inv.sec.revoke, h.inv.sec.disabled⟩
        · exact fun h => h.inv.elec
        · exact fun h => h.inv.stage
      try clear_value x4
      show Keep q _
      refine keep_ite (fun _ => ?_) (fun _ => ?_)
      · refine keep_formHedge ?_
        assumption
      · assumption

theorem keep_execSetRoleMap {a0 : BitVec 48} {a1 : State} (g1 : Keep q a1) : KeepX q (@execSetRoleMap a0 a1) := by
  unfold execSetRoleMap
  refine keepX_next ?_
  refine keep_runCmd ?_ ?_
  · assumption
  · intro _
    refine keep_setRoleMap ?_
    assumption

theorem keep_setCabling {a0 : State} {a1 : List Byte} (g0 : Keep q a0) : Keep q (@State.setCabling a0 a1) := by
  unfold State.setCabling
  extract_lets +onlyGivenNames -merge -useContext -underBinder x0
  try clear_value x0
  extract_lets +onlyGivenNames -merge -useContext -underBinder x1
  try clear_value x1
  extract_lets +onlyGivenNames -merge -useContext -underBinder x2
  have h2 : Keep q x2 := by
    unfold x2
    refine Keep.upd ?_
    assumption
  try clear_value x2
  refine keep_newMap ?_
  assumption

theorem keep_execSetCablingMap {a0 : BitVec 48} {a1 : State} (g1 : Keep q a1) : KeepX q (execSetCablingMap a0 a1) := by
  unfold execSetCablingMap
  refine keepX_next (keep_runCmd g1 fun c => ?_)
  dsimp only
  exact keep_setCabling g1

theorem keep_setMstate {a0 : State} {a1 : List Byte} (g0 : Keep q a0) : Keep q (@State.setMstate a0 a1).1 := by
  unfold State.setMstate
  extract_lets +onlyGivenNames -merge -useContext -underBinder x0
  try clear_value x0
  refine keep1_ite (fun _ => ?_) (fun _ => ?_)
  · show Keep q _
    assumption
  · refine keep1_ite (fun _ => ?_) (fun _ => ?_)
    · show Keep q _
      assumption
    · refine keep1_ite (fun _ => ?_) (fun _ => ?_)
      · show Keep q _
        assumption
      · show Keep q _
        refine keep_beginEntry ?_
        assumption

theorem keep_execSetMstate {a0 : BitVec 48} {a1 : State} (g1 : Keep q a1) : KeepX q (@execSetMstate a0 a1) := by
  unfold execSetMstate
  refine keepX_next ?_
  refine keep_runCmd ?_ ?_
  · assumption
  · intro _
    refine keep_setMstate ?_
    assumption

theorem keep_onJob {a0 : State} {a1 : Cmd} {a2 : Nat → State × Status × List Byte} (g0 : Keep q a0) (g2 : ∀ y0, Keep q (a2 y0).1) : Keep q (@State.onJob a0 a1 a2).1 := by
  unfold State.onJob
  split
  · show Keep q _
    assumption
  · exact g2 _

theorem keep_retireMarked {a0 : State} (g0 : Keep q a0) : Keep q (@State.retireMarked a0) := by
  unfold State.retireMarked
  extract_lets +onlyGivenNames -merge -useContext -underBinder x0
  try clear_value x0
  extract_lets +onlyGivenNames -merge -useContext -underBinder x1
  have h1 : Keep q x1 := by
    unfold x1
    refine keep_foldl ?_ ?_
    · assumption
    · intro _ _ _
      refine keep_changeRegion ?_
      assumption
  try clear_value x1
  refine keep_onDp ?_ ?_
  · assumption
  · intro _ _
    refine keepD_mk ?_
    extract_lets +onlyGivenNames -merge -useContext -underBinder x2
    have h2 : Mem.Wf x2 := by
      unfold x2
      show KeepD _
      assumption
    try clear_value x2
    refine memWf_mk ?_ ?_ ?_ ?_ ?_ ?_
    · refine Mem.Wf.bytes ?_
      assumption
    · refine Mem.Wf.errs ?_
      assumption
    · refine Mem.Wf.unread ?_
      assumption
    · refine Mem.Wf.region ?_
      assumption
    · refine Mem.Wf.zeroed ?_
      assumption
    · refine Mem.Wf.jobs ?_
      assumption

theorem keep_Mem_firstZero {a0 : Mem} {a1 : Nat} (g0 : Mem.Wf a0) : Mem.Wf (@Mem.firstZero a0 a1) := by
  unfold Mem.firstZero
  refine keepM_ite (fun _ => ?_) (fun _ => ?_)
  · assumption
  · refine memWf_mk ?_ ?_ ?_ ?_ ?_ ?_
    · refine Sparse.wf_filter ?_
      refine Mem.Wf.bytes ?_
      assumption
    · refine Sparse.wf_filter ?_
      refine Mem.Wf.errs ?_
      assumption
    · refine Sparse.wf_filter ?_
      refine Mem.Wf.unread ?_
      assumption
    · refine Mem.Wf.region ?_
      assumption
    · refine Sparse.wf_set ?_
      refine Mem.Wf.zeroed ?_
      assumption
    · refine Mem.Wf.jobs ?_
      assumption

theorem keep_Mem_assign {a0 : Mem} {a1 : Nat} {a2 : Nat} {a3 : Nat} (g0 : Mem.Wf a0) : Mem.Wf (@Mem.assign a0 a1 a2 a3) := by
  unfold Mem.assign
  extract_lets +onlyGivenNames -merge -useContext -underBinder x0
  have h0 : Mem.Wf x0 := by
    unfold x0
    refine keep_Mem_firstZero ?_
    assumption
  try clear_value x0
  refine memWf_mk ?_ ?_ ?_ ?_ ?_ ?_
  · refine Mem.Wf.bytes ?_
    assumption
  · refine Mem.Wf.errs ?_
    assumption
  · refine Mem.Wf.unread ?_
    assumption
  · refine Sparse.wf_set ?_
    refine Mem.Wf.region ?_
    assumption
  · refine Mem.Wf.zeroed ?_
    assumption
  · refine Mem.Wf.jobs ?_
    assumption

theorem keep_saveRegion {a0 : State} (g0 : Keep q a0) : Keep q a0.saveRegion := by
  unfold State.saveRegion
  refine Keep.mk' g0 (fun h => h.inv.mem) (fun h => ⟨wf_foldlSparse h.inv.mem.region fun m x hm => ?_, h.inv.mem.jobs⟩)
    (fun h => ⟨h.inv.sec.hold, h.inv.sec.erased, h.inv.sec.flash, h.inv.sec.revoke, h.inv.sec.disabled⟩) (fun h => h.inv.elec) fun h => h.inv.stage
  split
  · exact Sparse.wf_set hm
  · exact hm

theorem keep_jobCreate {a0 : State} {a1 : List Byte} {a2 : JobIn} (g0 : Keep q a0) : Keep q (@State.jobCreate a0 a1 a2).1 := by
  unfold State.jobCreate
  extract_lets +onlyGivenNames -merge -useContext -underBinder x0
  try clear_value x0
  extract_lets +onlyGivenNames -merge -useContext -underBinder x1
  try clear_value x1
  extract_lets +onlyGivenNames -merge -useContext -underBinder x2
  try clear_value x2
  extract_lets +onlyGivenNames -merge -useContext -underBinder x3
  try clear_value x3
  extract_lets +onlyGivenNames -merge -useContext -underBinder x4
  have h4 : Keep q x4 := by
    unfold x4
    refine keep_retireMarked ?_
    assumption
  try clear_value x4
  refine keep1_ite (fun _ => ?_) (fun _ => ?_)
  · show Keep q _
    assumption
  · split
    · show Keep q _
      assumption
    · refine keep1_ite (fun _ => ?_) (fun _ => ?_)
      · show Keep q _
        assumption
      · refine keep1_ite (fun _ => ?_) (fun _ => ?_)
        · show Keep q _
          assumption
        · extract_lets +onlyGivenNames -merge -useContext -underBinder x5
          have h5 : Keep q x5 := by
            unfold x5
            refine keep_updJob ?_
            assumption
          try clear_value x5
          extract_lets +onlyGivenNames -merge -useContext -underBinder x6
          have h6 : Keep q x6 := by
            unfold x6
            refine keep_updCkp ?_
            assumption
          try clear_value x6
          extract_lets +onlyGivenNames -merge -useContext -underBinder x7
          have h7 : Keep q x7 := by
            unfold x7
            refine keep_onDp ?_ ?_
            · assumption
            · intro _ _
              refine keepD_mk ?_
              extract_lets +onlyGivenNames -merge -useContext -underBinder x8
              have h8 : Mem.Wf x8 := by
                unfold x8
                refine wf_foldlMem ?_ ?_
                · show KeepD _
                  assumption
                · intro _ _ r9
                  refine keep_Mem_assign ?_
                  assumption
              try clear_value x8
              refine memWf_mk ?_ ?_ ?_ ?_ ?_ ?_
              · refine Mem.Wf.bytes ?_
                assumption
              · refine Mem.Wf.errs ?_
                assumption
              · refine Mem.Wf.unread ?_
                assumption
              · refine Mem.Wf.region ?_
                assumption
              · refine Mem.Wf.zeroed ?_
                assumption
              · refine Sparse.wf_set ?_
                refine Mem.Wf.jobs ?_
                show KeepD _
                assumption
          try clear_value x7
          extract_lets +onlyGivenNames -merge -useContext -underBinder x10
          have h10 : Keep q x10 := by
            unfold x10
            refine keep_updWet ?_
            assumption
          try clear_value x10
          extract_lets +onlyGivenNames -merge -useContext -underBinder x11
          extract_lets +onlyGivenNames -merge -useContext -underBinder x12
          have h12 : Keep q x12 := by
            unfold x12
            refine Keep.updP ?_ rfl
            assumption
          try clear_value x12
          extract_lets +onlyGivenNames -merge -useContext -underBinder x13
          try clear_value x13
          extract_lets +onlyGivenNames -merge -useContext -underBinder x14
          have h14 : Keep q x14 := by
            unfold x14
            refine keep_foldl ?_ ?_
            · assumption
            · intro _ _ _
              refine keep_setRequest ?_
              assumption
          try clear_value x14
          extract_lets +onlyGivenNames -merge -useContext -underBinder x15
          have h15 : Keep q x15 := by
            unfold x15
            refine keep_votes ?_
            refine keep_votes ?_
            assumption
          try clear_value x15
          show Keep q _
          refine keep_saveRegion ?_
          assumption

theorem keep_execJobCreate {a0 : BitVec 48} {a1 : JobIn} {a2 : State} (g2 : Keep q a2) : KeepX q (@execJobCreate a0 a1 a2) := by
  unfold execJobCreate
  refine keepX_next ?_
  refine keep_runCmd ?_ ?_
  · assumption
  · intro _
    refine keep_jobCreate ?_
    assumption

theorem keep_jobEnd {a0 : State} {a1 : Nat} (g0 : Keep q a0) : Keep q (@State.jobEnd a0 a1) := by
  unfold State.jobEnd
  extract_lets +onlyGivenNames -merge -useContext -underBinder x0
  try clear_value x0
  extract_lets +onlyGivenNames -merge -useContext -underBinder x1
  try clear_value x1
  extract_lets +onlyGivenNames -merge -useContext -underBinder x2
  have h2 : Keep q x2 := by
    unfold x2
    refine keep_foldl ?_ ?_
    · assumption
    · intro _ _ _
      refine keep_freeGroup ?_
      assumption
  try clear_value x2
  extract_lets +onlyGivenNames -merge -useContext -underBinder x3
  try clear_value x3
  extract_lets +onlyGivenNames -merge -useContext -underBinder x4
  try clear_value x4
  extract_lets +onlyGivenNames -merge -useContext -underBinder x5
  have h5 : Keep q x5 := by
    unfold x5
    refine keep_foldl ?_ ?_
    · assumption
    · intro _ _ _
      refine keep_changeRegion ?_
      assumption
  try clear_value x5
  extract_lets +onlyGivenNames -merge -useContext -underBinder x6
  have h6 : Keep q x6 := by
    unfold x6
    refine keep_onDp ?_ ?_
    · assumption
    · intro _ _
      refine keepD_mk ?_
      extract_lets +onlyGivenNames -merge -useContext -underBinder x7
      have h7 : Mem.Wf x7 := by
        unfold x7
        show KeepD _
        assumption
      try clear_value x7
      refine memWf_mk ?_ ?_ ?_ ?_ ?_ ?_
      · refine Mem.Wf.bytes ?_
        assumption
      · refine Mem.Wf.errs ?_
        assumption
      · refine Mem.Wf.unread ?_
        assumption
      · refine Mem.Wf.region ?_
        assumption
      · refine Mem.Wf.zeroed ?_
        assumption
      · refine Sparse.wf_set ?_
        refine Mem.Wf.jobs ?_
        show KeepD _
        assumption
  try clear_value x6
  extract_lets +onlyGivenNames -merge -useContext -underBinder x8
  have h8 : Keep q x8 := by
    unfold x8
    refine keep_votes ?_
    refine keep_votes ?_
    assumption
  try clear_value x8
  extract_lets +onlyGivenNames -merge -useContext -underBinder x9
  have h9 : Keep q x9 := by
    unfold x9
    refine keep_foldl ?_ ?_
    · assumption
    · intro _ _ _
      refine keep_setRequest ?_
      assumption
  try clear_value x9
  refine keep_saveRegion ?_
  refine keep_updJob ?_
  assumption

theorem keep_jobDestroy {a0 : State} {a1 : Nat} (g0 : Keep q a0) : Keep q (@State.jobDestroy a0 a1).1 := by
  unfold State.jobDestroy
  refine keep1_ite (fun _ => ?_) (fun _ => ?_)
  · show Keep q _
    assumption
  · show Keep q _
    refine keep_jobEnd ?_
    assumption

theorem keep_execJobDestroy {a0 : BitVec 48} {a1 : State} (g1 : Keep q a1) : KeepX q (@execJobDestroy a0 a1) := by
  unfold execJobDestroy
  refine keepX_next ?_
  refine keep_runCmd ?_ ?_
  · assumption
  · intro _
    refine keep_onJob ?_ ?_
    · assumption
    · intro _
      refine keep_jobDestroy ?_
      assumption

theorem keep_partitionStart {a0 : State} {a1 : Nat} {a2 : Nat} (g0 : Keep q a0) : Keep q (@State.partitionStart a0 a1 a2).1 := by
  unfold State.partitionStart
  refine keep1_ite (fun _ => ?_) (fun _ => ?_)
  · show Keep q _
    assumption
  · refine keep1_ite (fun _ => ?_) (fun _ => ?_)
    · show Keep q _
      assumption
    · extract_lets +onlyGivenNames -merge -useContext -underBinder x0
      try clear_value x0
      extract_lets +onlyGivenNames -merge -useContext -underBinder x1
      have h1 : Keep q x1 := by
        unfold x1
        refine keep_leaveIdle ?_
        assumption
      try clear_value x1
      extract_lets +onlyGivenNames -merge -useContext -underBinder x2
      have h2 : Keep q x2 := by
        unfold x2
        refine keep_updJob ?_
        assumption
      try clear_value x2
      extract_lets +onlyGivenNames -merge -useContext -underBinder x3
      have h3 : Keep q x3 := by
        unfold x3
        refine keep_updWet ?_
        assumption
      try clear_value x3
      extract_lets +onlyGivenNames -merge -useContext -underBinder x4
      have h4 : Keep q x4 := by
        unfold x4
        refine keep_ite (fun _ => ?_) (fun _ => ?_)
        · refine keep_updMgr ?_
          assumption
        · assumption
      try clear_value x4
      show Keep q _
      refine keep_jobStatus ?_
      refine keep_imageCounters ?_
      assumption

theorem keep_execPartitionStart {a0 : BitVec 48} {a1 : State} (g1 : Keep q a1) : KeepX q (@execPartitionStart a0 a1) := by
  unfold execPartitionStart
  refine keepX_next ?_
  refine keep_runCmd ?_ ?_
  · assumption
  · intro _
    refine keep_onJob ?_ ?_
    · assumption
    · intro _
      refine keep_partitionStart ?_
      assumption

theorem keep_partitionStop {a0 : State} {a1 : BitVec 48} (g0 : Keep q a0) : Keep q (@State.partitionStop a0 a1) := by
  unfold State.partitionStop
  split
  · assumption
  · split
    · refine keep_finish ?_
      assumption
    · refine keep_ite (fun _ => ?_) (fun _ => ?_)
      · refine keep_finish ?_
        assumption
      · refine keep_tryStop ?_
        refine keep_updJob ?_
        refine keep_waitCmd ?_
        assumption

theorem keep_execPartitionStop {a0 : BitVec 48} {a1 : State} (g1 : Keep q a1) : KeepX q (@execPartitionStop a0 a1) := by
  unfold execPartitionStop
  refine keepX_next ?_
  refine keep_partitionStop ?_
  assumption

theorem keep_execJobStatus {a0 : BitVec 48} {a1 : State} (g1 : Keep q a1) : KeepX q (@execJobStatus a0 a1) := by
  unfold execJobStatus
  refine keepX_next ?_
  refine keep_runCmd ?_ ?_
  · assumption
  · intro _
    refine keep_onJob ?_ ?_
    · assumption
    · intro _
      show Keep q _
      assumption

theorem keep_hostRollback {a0 : State} {a1 : Nat} (g0 : Keep q a0) : Keep q (@State.hostRollback a0 a1).1 := by
  unfold State.hostRollback
  extract_lets +onlyGivenNames -merge -useContext -underBinder x0
  try clear_value x0
  extract_lets +onlyGivenNames -merge -useContext -underBinder x1
  try clear_value x1
  refine keep1_ite (fun _ => ?_) (fun _ => ?_)
  · show Keep q _
    assumption
  · refine keep1_ite (fun _ => ?_) (fun _ => ?_)
    · show Keep q _
      refine keep_rollbackRequest ?_
      assumption
    · show Keep q _
      refine keep_askRollback ?_
      assumption

theorem keep_execRollback {a0 : BitVec 48} {a1 : State} (g1 : Keep q a1) : KeepX q (@execRollback a0 a1) := by
  unfold execRollback
  refine keepX_next ?_
  refine keep_runCmd ?_ ?_
  · assumption
  · intro _
    refine keep_onJob ?_ ?_
    · assumption
    · intro _
      refine keep_hostRollback ?_
      assumption

theorem keep_graphLoad {a0 : State} {a1 : Nat} {a2 : Cmd} {a3 : GraphImage} (g0 : Keep q a0) : Keep q (@State.graphLoad a0 a1 a2 a3).1 := by
  unfold State.graphLoad
  extract_lets +onlyGivenNames -merge -useContext -underBinder x0
  try clear_value x0
  refine keep1_ite (fun _ => ?_) (fun _ => ?_)
  · show Keep q _
    assumption
  · refine keep1_ite (fun _ => ?_) (fun _ => ?_)
    · show Keep q _
      assumption
    · refine keep1_ite (fun _ => ?_) (fun _ => ?_)
      · show Keep q _
        assumption
      · extract_lets +onlyGivenNames -merge -useContext -underBinder x1
        have h1 : Keep q x1 := by
          unfold x1
          refine keep_countPort ?_
          assumption
        try clear_value x1
        refine keep1_ite (fun _ => ?_) (fun _ => ?_)
        · show Keep q _
          assumption
        · refine keep1_ite (fun _ => ?_) (fun _ => ?_)
          · show Keep q _
            assumption
          · show Keep q _
            refine keep_seedTables ?_
            refine keep_updJob ?_
            assumption

theorem keep_execGraphLoad {a0 : BitVec 48} {a1 : GraphImage} {a2 : State} (g2 : Keep q a2) : KeepX q (@execGraphLoad a0 a1 a2) := by
  unfold execGraphLoad
  refine keepX_next ?_
  refine keep_runCmd ?_ ?_
  · assumption
  · intro _
    refine keep_onJob ?_ ?_
    · assumption
    · intro _
      refine keep_graphLoad ?_
      assumption

theorem keep_graphUnload {a0 : State} {a1 : Nat} (g0 : Keep q a0) : Keep q (@State.graphUnload a0 a1).1 := by
  unfold State.graphUnload
  refine keep1_ite (fun _ => ?_) (fun _ => ?_)
  · show Keep q _
    assumption
  · show Keep q _
    refine keep_updJob ?_
    assumption

theorem keep_execGraphUnload {a0 : BitVec 48} {a1 : State} (g1 : Keep q a1) : KeepX q (@execGraphUnload a0 a1) := by
  unfold execGraphUnload
  refine keepX_next ?_
  refine keep_runCmd ?_ ?_
  · assumption
  · intro _
    refine keep_onJob ?_ ?_
    · assumption
    · intro _
      refine keep_graphUnload ?_
      assumption

end Sys2Proof.Laws
end

