-- ==== Sys2Proof/Laws/KeepDataCmds.lean ====
section
/-! SUPPORT. What each operation of Machine/DataCmds.lean keeps: the queue and the invariant of Safety.lean, or the canonical form of memory. -/
namespace Sys2Proof.Laws
open Sys2Proof Sys2Proof.Machine
variable {q : List Instr}

theorem keep_dataRange {a0 : Ctx} {a1 : Bool} {a2 : Addr} {a3 : Nat} {a4 : Nat} : KeepO (@dataRange a0 a1 a2 a3 a4) := by
  unfold dataRange
  refine keepO_bind ?_ ?_
  · exact keep_takeTD
  · intro _
    refine keepO_ite (fun _ => ?_) (fun _ => ?_)
    · exact keep_failOp
    · refine keepO_ite (fun _ => ?_) (fun _ => ?_)
      · exact keep_failOp
      · exact keepO_pure

theorem keep_tagsDry {a0 : Ctx} {a1 : TD} {a2 : List Nat} : KeepO (@tagsDry a0 a1 a2) := by
  induction a2 generalizing a0 a1 with
  | nil =>
    rw [tagsDry]
    exact keepO_pure
  | cons u1 u2 ih =>
    rw [tagsDry]
    refine keepO_bind ?_ ?_
    · exact keep_readAt
    · intro _
      extract_lets +onlyGivenNames -merge -useContext -underBinder x0
      try clear_value x0
      refine keepO_get ?_
      intro _ _
      extract_lets +onlyGivenNames -merge -useContext -underBinder x1
      try clear_value x1
      refine keepO_ite (fun _ => ?_) (fun _ => ?_)
      · apply ih
      · exact keepO_pure

theorem keep_dataFetch {a0 : Ctx} {a1 : Addr} {a2 : Nat} {a3 : Nat} : KeepO (@dataFetch a0 a1 a2 a3) := by
  unfold dataFetch
  refine keepO_bind ?_ ?_
  · exact keep_dataRange
  · intro _
    refine keepO_bind ?_ ?_
    · exact keep_tagsDry
    · intro _
      refine keepO_ite (fun _ => ?_) (fun _ => ?_)
      · refine keepO_bind ?_ ?_
        · exact keep_loadTiles
        · intro _
          exact keepO_pure
      · exact keepO_pure

theorem keep_hostReadWet {a0 : State} {a1 : Cmd} {a2 : Nat} (g0 : Keep q a0) : Keep q (@State.hostReadWet a0 a1 a2) := by
  unfold State.hostReadWet
  refine keep_finish ?_
  refine keep_updWet ?_
  assumption

theorem keep_readDone {a0 : State} {a1 : Cmd} {a2 : List Byte} {a3 : Nat} (g0 : Keep q a0) : Keep q (@State.readDone a0 a1 a2 a3) := by
  unfold State.readDone
  extract_lets +onlyGivenNames -merge -useContext -underBinder x0
  have h0 : Keep q x0 := by
    unfold x0
    refine keep_send ?_
    refine keep_countPort ?_
    assumption
  try clear_value x0
  refine keep_finish ?_
  assumption

theorem keep_dataRead {a0 : State} {a1 : BitVec 48} {a2 : Env} (g0 : Keep q a0) : Keep q (@State.dataRead a0 a1 a2) := by
  unfold State.dataRead
  split
  · assumption
  · extract_lets +onlyGivenNames -merge -useContext -underBinder x0
    try clear_value x0
    extract_lets +onlyGivenNames -merge -useContext -underBinder x1
    try clear_value x1
    refine keep_ite (fun _ => ?_) (fun _ => ?_)
    · refine keep_readDone ?_
      assumption
    · extract_lets +onlyGivenNames -merge -useContext -underBinder x2
      have h2 : Keep q x2.1 := by
        unfold x2
        refine keep_runOp ?_ ?_
        · assumption
        · exact keep_dataFetch
      try clear_value x2
      split
      · refine keep_finish ?_
        assumption
      · refine keep_readDone ?_
        assumption
      · refine keep_ite (fun _ => ?_) (fun _ => ?_)
        · refine keep_hostReadWet ?_
          assumption
        · extract_lets +onlyGivenNames -merge -useContext -underBinder x3
          have h3 : Keep q x3 := by
            unfold x3
            assumption
          try clear_value x3
          refine Keep.upd ?_
          assumption

theorem keep_execDataRead {a0 : BitVec 48} {a1 : Env} {a2 : State} (g2 : Keep q a2) : KeepX q (@execDataRead a0 a1 a2) := by
  unfold execDataRead
  refine keepX_next ?_
  refine keep_dataRead ?_
  assumption

theorem keep_dataReadRelease {a0 : State} {a1 : BitVec 48} {a2 : Env} (g0 : Keep q a0) : Keep q (@State.dataReadRelease a0 a1 a2) := by
  unfold State.dataReadRelease
  split
  · assumption
  · extract_lets +onlyGivenNames -merge -useContext -underBinder x0
    try clear_value x0
    extract_lets +onlyGivenNames -merge -useContext -underBinder x1
    have h1 : Keep q x1.1 := by
      unfold x1
      refine keep_runOp ?_ ?_
      · assumption
      · exact keep_dataFetch
    try clear_value x1
    split
    · refine keep_finish ?_
      assumption
    · refine keep_readDone ?_
      assumption
    · assumption

theorem keep_execDataReadRelease {a0 : BitVec 48} {a1 : Env} {a2 : State} (g2 : Keep q a2) : KeepX q (@execDataReadRelease a0 a1 a2) := by
  unfold execDataReadRelease
  refine keepX_next ?_
  refine keep_dataReadRelease ?_
  assumption

theorem keep_dataReadTimeout {a0 : State} {a1 : BitVec 48} (g0 : Keep q a0) : Keep q (@State.dataReadTimeout a0 a1) := by
  unfold State.dataReadTimeout
  split
  · assumption
  · refine keep_hostReadWet ?_
    assumption

theorem keep_execDataReadWaitTimeout {a0 : BitVec 48} {a1 : State} (g1 : Keep q a1) : KeepX q (@execDataReadWaitTimeout a0 a1) := by
  unfold execDataReadWaitTimeout
  refine keepX_next ?_
  refine keep_dataReadTimeout ?_
  assumption

theorem keep_hostTiles {a0 : Ctx} {a1 : TD} {a2 : Nat} {a3 : Nat} {a4 : List BlockOut} {a5 : List Nat} : KeepO (@hostTiles a0 a1 a2 a3 a4 a5) := by
  induction a5 generalizing a0 a1 a2 a3 a4 with
  | nil =>
    rw [hostTiles]
    exact keepO_pure
  | cons u1 u2 ih =>
    rw [hostTiles]
    refine keepO_bind ?_ ?_
    · exact keep_writeTilePart
    · intro _
      refine keepO_bind ?_ ?_
      · exact keep_censusUpdate
      · intro _
        apply ih

theorem keep_batchOk {a0 : State} {a1 : Nat} {a2 : Nat} {a3 : BitVec 32} (g0 : Keep q a0) : Keep q (@State.batchOk a0 a1 a2 a3).1 := by
  unfold State.batchOk
  refine keep1_ite (fun _ => ?_) (fun _ => ?_)
  · show Keep q _
    assumption
  · split
    · show Keep q _
      assumption
    · show Keep q _
      refine keep_updJob ?_
      assumption

theorem keep_dataWriteAt {a0 : State} {a1 : Cmd} {a2 : TD} {a3 : Nat} {a4 : List Byte} {a5 : Ctx} (g0 : Keep q a0) : Keep q (@State.dataWriteAt a0 a1 a2 a3 a4 a5).1 := by
  unfold State.dataWriteAt
  extract_lets +onlyGivenNames -merge -useContext -underBinder x0
  try clear_value x0
  extract_lets +onlyGivenNames -merge -useContext -underBinder x1
  try clear_value x1
  extract_lets +onlyGivenNames -merge -useContext -underBinder x2
  try clear_value x2
  extract_lets +onlyGivenNames -merge -useContext -underBinder x3
  try clear_value x3
  extract_lets +onlyGivenNames -merge -useContext -underBinder x4
  have h4 : Keep q x4 := by
    unfold x4
    refine keep_countPort ?_
    assumption
  try clear_value x4
  extract_lets +onlyGivenNames -merge -useContext -underBinder x5
  have h5 : Keep q x5.1 := by
    unfold x5
    refine keep_batchOk ?_
    assumption
  try clear_value x5
  refine keep1_ite (fun _ => ?_) (fun _ => ?_)
  · show Keep q _
    refine keep_stopJob ?_
    assumption
  · extract_lets +onlyGivenNames -merge -useContext -underBinder x6
    have h6 : Keep q x6.1 := by
      unfold x6
      refine keep_runOp ?_ ?_
      · assumption
      · exact keep_hostTiles
    try clear_value x6
    split
    · show Keep q _
      assumption
    · show Keep q _
      assumption

theorem keep_dataWrite {a0 : State} {a1 : Cmd} {a2 : List Byte} {a3 : Env} (g0 : Keep q a0) : Keep q (@State.dataWrite a0 a1 a2 a3).1 := by
  unfold State.dataWrite
  extract_lets +onlyGivenNames -merge -useContext -underBinder x0
  try clear_value x0
  extract_lets +onlyGivenNames -merge -useContext -underBinder x1
  try clear_value x1
  refine keep1_ite (fun _ => ?_) (fun _ => ?_)
  · show Keep q _
    assumption
  · extract_lets +onlyGivenNames -merge -useContext -underBinder x2
    try clear_value x2
    extract_lets +onlyGivenNames -merge -useContext -underBinder x3
    try clear_value x3
    extract_lets +onlyGivenNames -merge -useContext -underBinder x4
    try clear_value x4
    extract_lets +onlyGivenNames -merge -useContext -underBinder x5
    have h5 : Keep q x5.1 := by
      unfold x5
      refine keep_runOp ?_ ?_
      · assumption
      · exact keep_dataRange
    try clear_value x5
    split
    · show Keep q _
      assumption
    · refine keep_dataWriteAt ?_
      assumption

theorem keep_execDataWrite {a0 : BitVec 48} {a1 : List Byte} {a2 : Env} {a3 : State} (g3 : Keep q a3) : KeepX q (@execDataWrite a0 a1 a2 a3) := by
  unfold execDataWrite
  refine keepX_next ?_
  refine keep_runCmd ?_ ?_
  · assumption
  · intro _
    refine keep_dataWrite ?_
    assumption

theorem keep_readRegs {a0 : State} {a1 : Nat} {a2 : Nat} (g0 : Keep q a0) : Keep q (@State.readRegs a0 a1 a2).1 := by
  induction a2 generalizing a0 a1 with
  | zero =>
    rw [State.readRegs]
    show Keep q _
    assumption
  | succ u1 ih =>
    rw [State.readRegs]
    split
    · show Keep q _
      refine keep_regRead ?_
      assumption
    · extract_lets +onlyGivenNames -merge -useContext -underBinder x0
      have h0 : Keep q x0.1 := by
        unfold x0
        apply ih
        refine keep_regRead ?_
        assumption
      try clear_value x0
      show Keep q _
      assumption

theorem keep_hostRegRead {a0 : State} {a1 : Cmd} {a2 : Env} (g0 : Keep q a0) : Keep q (@State.hostRegRead a0 a1 a2).1 := by
  unfold State.hostRegRead
  extract_lets +onlyGivenNames -merge -useContext -underBinder x0
  try clear_value x0
  extract_lets +onlyGivenNames -merge -useContext -underBinder x1
  try clear_value x1
  refine keep1_ite (fun _ => ?_) (fun _ => ?_)
  · show Keep q _
    assumption
  · split
    · extract_lets +onlyGivenNames -merge -useContext -underBinder x2
      have h2 : Keep q x2.1 := by
        unfold x2
        refine keep_readRegs ?_
        assumption
      try clear_value x2
      split
      · show Keep q _
        assumption
      · show Keep q _
        assumption
    · refine keep1_ite (fun _ => ?_) (fun _ => ?_)
      · show Keep q _
        assumption
      · extract_lets +onlyGivenNames -merge -useContext -underBinder x3
        try clear_value x3
        extract_lets +onlyGivenNames -merge -useContext -underBinder x4
        have h4 : Keep q x4.1 := by
          unfold x4
          refine keep_runOp ?_ ?_
          · assumption
          · refine keepO_bind ?_ ?_
            · exact keep_needOk
            · intro _
              refine keepO_bind ?_ ?_
              · refine keepO_modify ?_
                intro _ _
                refine keep_Dp_send ?_
                assumption
              · intro _
                refine keepO_bind ?_ ?_
                · exact keep_remoteWords
                · intro _
                  exact keepO_pure
        try clear_value x4
        split
        · show Keep q _
          assumption
        · show Keep q _
          assumption
    · show Keep q _
      assumption

theorem keep_execRegRead {a0 : BitVec 48} {a1 : Env} {a2 : State} (g2 : Keep q a2) : KeepX q (@execRegRead a0 a1 a2) := by
  unfold execRegRead
  refine keepX_next ?_
  refine keep_runCmd ?_ ?_
  · assumption
  · intro _
    refine keep_hostRegRead ?_
    assumption

theorem keep_hostRegWrite {a0 : State} {a1 : Cmd} (g0 : Keep q a0) : Keep q (@State.hostRegWrite a0 a1).1 := by
  unfold State.hostRegWrite
  extract_lets +onlyGivenNames -merge -useContext -underBinder x0
  try clear_value x0
  split
  · extract_lets +onlyGivenNames -merge -useContext -underBinder x1
    have h1 : Keep q x1.1 := by
      unfold x1
      refine keep_ownerWrite ?_
      assumption
    try clear_value x1
    show Keep q _
    assumption
  · show Keep q _
    assumption

theorem keep_execRegWrite {a0 : BitVec 48} {a1 : State} (g1 : Keep q a1) : KeepX q (@execRegWrite a0 a1) := by
  unfold execRegWrite
  refine keepX_next ?_
  refine keep_runCmd ?_ ?_
  · assumption
  · intro _
    refine keep_hostRegWrite ?_
    assumption

end Sys2Proof.Laws
end

