-- ==== Sys2Proof/Laws/KeepAdminCmds.lean ====
section
/-! SUPPORT. What each operation of Machine/AdminCmds.lean keeps: the queue and the invariant of Safety.lean, or the canonical form of memory. -/
namespace Sys2Proof.Laws
open Sys2Proof Sys2Proof.Machine
variable {q : List Instr}

theorem keep_unlessHold {a0 : State} {a1 : State × Status × List Byte} (g0 : Keep q a0) (g1 : Keep q a1.1) : Keep q (@State.unlessHold a0 a1).1 := by
  unfold State.unlessHold
  refine keep1_ite (fun _ => ?_) (fun _ => ?_)
  · show Keep q _
    assumption
  · assumption

theorem keep_tpkLoad {a0 : State} {a1 : Cmd} {a2 : List Byte} (g0 : Keep q a0) : Keep q (@State.tpkLoad a0 a1 a2).1 := by
  unfold State.tpkLoad
  extract_lets +onlyGivenNames -merge -useContext -underBinder x0
  try clear_value x0
  refine keep1_ite (fun _ => ?_) (fun _ => ?_)
  · show Keep q _
    assumption
  · refine keep1_ite (fun _ => ?_) (fun _ => ?_)
    · show Keep q _
      assumption
    · extract_lets +onlyGivenNames -merge -useContext -underBinder x1
      try clear_value x1
      extract_lets +onlyGivenNames -merge -useContext -underBinder x2
      have h2 : Keep q x2 := by
        unfold x2
        refine keep_countPort ?_
        assumption
      try clear_value x2
      extract_lets +onlyGivenNames -merge -useContext -underBinder x3
      have h3 : Keep q x3.1 := by
        unfold x3
        refine keep_takeTpk ?_
        assumption
      try clear_value x3
      show Keep q _
      assumption

theorem keep_execTpkLoad {a0 : BitVec 48} {a1 : List Byte} {a2 : State} (g2 : Keep q a2) : KeepX q (@execTpkLoad a0 a1 a2) := by
  unfold execTpkLoad
  refine keepX_next ?_
  refine keep_runCmd ?_ ?_
  · assumption
  · intro _
    refine keep_unlessHold ?_ ?_
    · assumption
    · refine keep_tpkLoad ?_
      assumption

theorem keep_tpkRun {a0 : State} {a1 : Cmd} {a2 : List ItemResult} {a3 : ResetIn} {a4 : Env} (g0 : Keep q a0) : Keep q (@State.tpkRun a0 a1 a2 a3 a4).1 := by
  unfold State.tpkRun
  split
  · show Keep q _
    assumption
  · extract_lets +onlyGivenNames -merge -useContext -underBinder x0
    try clear_value x0
    refine keep1_ite (fun _ => ?_) (fun _ => ?_)
    · show Keep q _
      assumption
    · extract_lets +onlyGivenNames -merge -useContext -underBinder x1
      try clear_value x1
      show Keep q _
      refine keep_itemResults ?_
      refine keep_leaveIdle ?_
      assumption

theorem keep_execTpkRun {a0 : BitVec 48} {a1 : List ItemResult} {a2 : ResetIn} {a3 : Env} {a4 : State} (g4 : Keep q a4) : KeepX q (@execTpkRun a0 a1 a2 a3 a4) := by
  unfold execTpkRun
  refine keepX_next ?_
  refine keep_around ?_ ?_
  · assumption
  · intro _ _ _
    refine keep_runCmd ?_ ?_
    · assumption
    · intro _
      refine keep_tpkRun ?_
      assumption

theorem keep_powerLimits {a0 : State} {a1 : List Byte} (g0 : Keep q a0) : Keep q (@State.powerLimits a0 a1).1 := by
  unfold State.powerLimits
  extract_lets +onlyGivenNames -merge -useContext -underBinder x0
  have h0 : Keep q x0.1 := by
    unfold x0
    refine keep_setLimits ?_
    assumption
  try clear_value x0
  show Keep q _
  assumption

theorem keep_execSetPowerLimits {a0 : BitVec 48} {a1 : State} (g1 : Keep q a1) : KeepX q (@execSetPowerLimits a0 a1) := by
  unfold execSetPowerLimits
  refine keepX_next ?_
  refine keep_runCmd ?_ ?_
  · assumption
  · intro _
    refine keep_powerLimits ?_
    assumption

theorem keep_hostPstate {a0 : State} {a1 : List Byte} (g0 : Keep q a0) : Keep q (@State.hostPstate a0 a1).1 := by
  unfold State.hostPstate
  extract_lets +onlyGivenNames -merge -useContext -underBinder x0
  try clear_value x0
  extract_lets +onlyGivenNames -merge -useContext -underBinder x1
  try clear_value x1
  refine keep1_ite (fun _ => ?_) (fun _ => ?_)
  · show Keep q _
    assumption
  · extract_lets +onlyGivenNames -merge -useContext -underBinder x2
    have h2 : Keep q x2 := by
      unfold x2
      refine keep_foldl ?_ ?_
      · assumption
      · intro _ _ _
        refine keep_setRequest ?_
        assumption
    try clear_value x2
    show Keep q _
    assumption

theorem keep_execSetPstate {a0 : BitVec 48} {a1 : State} (g1 : Keep q a1) : KeepX q (@execSetPstate a0 a1) := by
  unfold execSetPstate
  refine keepX_next ?_
  refine keep_runCmd ?_ ?_
  · assumption
  · intro _
    refine keep_hostPstate ?_
    assumption

theorem keep_hostVote {a0 : State} {a1 : Cmd} (g0 : Keep q a0) : Keep q (@State.hostVote a0 a1).1 := by
  unfold State.hostVote
  refine keep1_ite (fun _ => ?_) (fun _ => ?_)
  · show Keep q _
    assumption
  · show Keep q _
    refine keep_vote ?_
    assumption

theorem keep_execPowerVote {a0 : BitVec 48} {a1 : State} (g1 : Keep q a1) : KeepX q (@execPowerVote a0 a1) := by
  unfold execPowerVote
  refine keepX_next ?_
  refine keep_runCmd ?_ ?_
  · assumption
  · intro _
    refine keep_hostVote ?_
    assumption

theorem keep_execRecordRead {a0 : BitVec 48} {a1 : State} (g1 : Keep q a1) : KeepX q (@execRecordRead a0 a1) := by
  unfold execRecordRead
  refine keepX_next ?_
  refine keep_runCmd ?_ ?_
  · assumption
  · intro _
    show Keep q _
    assumption

theorem keep_freshNonce {a0 : State} (g0 : Keep q a0) : Keep q (@State.freshNonce a0) := by
  unfold State.freshNonce
  extract_lets +onlyGivenNames -merge -useContext -underBinder x0
  refine Keep.mk' ?_ ?_ ?_ ?_ ?_ ?_
  · assumption
  · intro h
    first | exact keepD_draw h.inv.mem | exact keepD_draw (keepD_draw h.inv.mem)
  · exact fun h => h.inv.flash
  · exact fun h => ⟨h.inv.sec.hold, h.inv.sec.erased, h.inv.sec.flash, h.inv.sec.revoke, h.inv.sec.disabled⟩
  · exact fun h => h.inv.elec
  · exact fun h => h.inv.stage

theorem keep_tokenFailed {a0 : State} {a1 : Port} (g0 : Keep q a0) : Keep q (@State.tokenFailed a0 a1) := by
  unfold State.tokenFailed
  refine keep_record ?_
  assumption

theorem keep_withToken {a0 : State} {a1 : Cmd} {a2 : List Byte} {a3 : Nat} {a4 : Nat} {a5 : List Byte} {a6 : State → State × Status × List Byte} (g0 : Keep q a0) (g6 : ∀ y0, Keep q y0 → Keep q (a6 y0).1) : Keep q (@State.withToken a0 a1 a2 a3 a4 a5 a6).1 := by
  unfold State.withToken
  refine keep1_ite (fun _ => ?_) (fun _ => ?_)
  · refine g6 _ ?_
    refine keep_freshNonce ?_
    assumption
  · show Keep q _
    refine keep_tokenFailed ?_
    assumption

theorem keep_recordClear {a0 : State} {a1 : BitVec 48} (g0 : Keep q a0) : Keep q (@State.recordClear a0 a1) := by
  unfold State.recordClear
  split
  · assumption
  · refine keep_ite (fun _ => ?_) (fun _ => ?_)
    · refine keep_finish ?_
      assumption
    · refine keep_ite (fun _ => ?_) (fun _ => ?_)
      · refine keep_finish ?_
        refine keep_tokenFailed ?_
        assumption
      · refine keep_waitCmd ?_
        refine keep_onEvr ?_
        refine keep_freshNonce ?_
        assumption

theorem keep_execRecordClear {a0 : BitVec 48} {a1 : State} (g1 : Keep q a1) : KeepX q (@execRecordClear a0 a1) := by
  unfold execRecordClear
  refine keepX_next ?_
  refine keep_recordClear ?_
  assumption

theorem keep_bankErased {a0 : State} {a1 : BitVec 48} (g0 : Keep q a0) : Keep q (@State.bankErased a0 a1) := by
  unfold State.bankErased
  split
  · assumption
  · refine keep_finish ?_
    refine keep_onEvr ?_
    assumption

theorem keep_execRecordBankEraseDone {a0 : BitVec 48} {a1 : State} (g1 : Keep q a1) : KeepX q (@execRecordBankEraseDone a0 a1) := by
  unfold execRecordBankEraseDone
  refine keepX_next ?_
  refine keep_bankErased ?_
  assumption

theorem keep_sampleRead {a0 : State} {a1 : List Byte} {a2 : Env} (g0 : Keep q a0) : Keep q (@State.sampleRead a0 a1 a2).1 := by
  unfold State.sampleRead
  extract_lets +onlyGivenNames -merge -useContext -underBinder x0
  try clear_value x0
  extract_lets +onlyGivenNames -merge -useContext -underBinder x1
  try clear_value x1
  refine keep1_ite (fun _ => ?_) (fun _ => ?_)
  · show Keep q _
    assumption
  · refine keep1_ite (fun _ => ?_) (fun _ => ?_)
    · show Keep q _
      assumption
    · extract_lets +onlyGivenNames -merge -useContext -underBinder x2
      have h2 : Keep q x2.1 := by
        unfold x2
        refine keep_runOp ?_ ?_
        · assumption
        · exact keep_readAt
      try clear_value x2
      split
      · show Keep q _
        assumption
      · show Keep q _
        assumption

theorem keep_execSampleRead {a0 : BitVec 48} {a1 : Env} {a2 : State} (g2 : Keep q a2) : KeepX q (@execSampleRead a0 a1 a2) := by
  unfold execSampleRead
  refine keepX_next ?_
  refine keep_runCmd ?_ ?_
  · assumption
  · intro _
    refine keep_sampleRead ?_
    assumption

theorem keep_counterGrant {a0 : State} {a1 : List Byte} (g0 : Keep q a0) : Keep q (@State.counterGrant a0 a1).1 := by
  unfold State.counterGrant
  extract_lets +onlyGivenNames -merge -useContext -underBinder x0
  try clear_value x0
  refine keep1_ite (fun _ => ?_) (fun _ => ?_)
  · show Keep q _
    assumption
  · show Keep q _
    refine keep_updJob ?_
    assumption

theorem keep_execCounterGrant {a0 : BitVec 48} {a1 : State} (g1 : Keep q a1) : KeepX q (@execCounterGrant a0 a1) := by
  unfold execCounterGrant
  refine keepX_next ?_
  refine keep_runCmd ?_ ?_
  · assumption
  · intro _
    refine keep_counterGrant ?_
    assumption

theorem keep_execWearRead {a0 : BitVec 48} {a1 : State} (g1 : Keep q a1) : KeepX q (@execWearRead a0 a1) := by
  unfold execWearRead
  refine keepX_next ?_
  refine keep_runCmd ?_ ?_
  · assumption
  · intro _
    show Keep q _
    assumption

theorem keep_execAlarmStatus {a0 : BitVec 48} {a1 : State} (g1 : Keep q a1) : KeepX q (@execAlarmStatus a0 a1) := by
  unfold execAlarmStatus
  refine keepX_next ?_
  refine keep_runCmd ?_ ?_
  · assumption
  · intro _
    show Keep q _
    assumption

theorem keep_execOtpRead {a0 : BitVec 48} {a1 : State} (g1 : Keep q a1) : KeepX q (@execOtpRead a0 a1) := by
  unfold execOtpRead
  refine keepX_next ?_
  refine keep_runCmd ?_ ?_
  · assumption
  · intro _
    extract_lets +onlyGivenNames -merge -useContext -underBinder x0
    try clear_value x0
    show Keep q _
    assumption

theorem keep_otpWriteValue {a0 : State} {a1 : Nat} {a2 : List Byte} (g0 : Keep q a0) : Keep q (@State.otpWriteValue a0 a1 a2) := by
  unfold State.otpWriteValue
  extract_lets +onlyGivenNames -merge -useContext -underBinder x0
  try clear_value x0
  extract_lets +onlyGivenNames -merge -useContext -underBinder x1
  have h1 : Keep q x1 := by
    unfold x1
    refine keep_otpProgram ?_
    assumption
  try clear_value x1
  refine keep_ite (fun _ => ?_) (fun _ => ?_)
  · refine Keep.mk' ?_ ?_ ?_ ?_ ?_ ?_
    · assumption
    · exact fun h => h.inv.mem
    · exact fun h => h.inv.flash
    · exact fun h => ⟨h.inv.sec.hold, h.inv.sec.erased, h.inv.sec.flash, h.inv.sec.revoke, h.inv.sec.disabled⟩
    · exact fun h => h.inv.elec
    · exact fun h => h.inv.stage
  · assumption

theorem keep_otpWrite {a0 : State} {a1 : BitVec 48} {a2 : Bool} (g0 : Keep q a0) : Keep q (@State.otpWrite a0 a1 a2) := by
  unfold State.otpWrite
  split
  · assumption
  · extract_lets +onlyGivenNames -merge -useContext -underBinder x0
    try clear_value x0
    extract_lets +onlyGivenNames -merge -useContext -underBinder x1
    try clear_value x1
    refine keep_ite (fun _ => ?_) (fun _ => ?_)
    · refine keep_finish ?_
      assumption
    · refine keep_ite (fun _ => ?_) (fun _ => ?_)
      · refine keep_finish ?_
        assumption
      · refine keep_ite (fun _ => ?_) (fun _ => ?_)
        · refine keep_finish ?_
          refine keep_tokenFailed ?_
          assumption
        · refine keep_ite (fun _ => ?_) (fun _ => ?_)
          · refine keep_finish ?_
            refine keep_otpWriteValue ?_
            refine keep_freshNonce ?_
            assumption
          · refine keep_waitCmd ?_
            refine keep_otpProgram ?_
            refine keep_freshNonce ?_
            assumption

theorem keep_execOtpWrite {a0 : BitVec 48} {a1 : Bool} {a2 : State} (g2 : Keep q a2) : KeepX q (@execOtpWrite a0 a1 a2) := by
  unfold execOtpWrite
  refine keepX_next ?_
  refine keep_otpWrite ?_
  assumption

theorem keep_alarmClear {a0 : State} {a1 : Cmd} (g0 : Keep q a0) : Keep q (@State.alarmClear a0 a1).1 := by
  unfold State.alarmClear
  refine keep1_ite (fun _ => ?_) (fun _ => ?_)
  · show Keep q _
    assumption
  · refine keep_withToken ?_ ?_
    · assumption
    · intro _ _
      show Keep q _
      refine Keep.mk' ?_ ?_ ?_ ?_ ?_ ?_
      · assumption
      · exact fun h => h.inv.mem
      · first | exact fun h => ⟨h.inv.flash.region, h.inv.flash.jobs⟩ | exact fun h => ⟨h.inv.mem.region, h.inv.mem.jobs⟩
      · exact fun h => ⟨fun e => absurd e Bool.false_ne_true, fun e => absurd e Bool.false_ne_true, fun e => absurd e Bool.false_ne_true, h.inv.sec.revoke, h.inv.sec.disabled⟩
      · exact fun h => h.inv.elec
      · exact fun h => h.inv.stage

theorem keep_execAlarmClear {a0 : BitVec 48} {a1 : State} (g1 : Keep q a1) : KeepX q (@execAlarmClear a0 a1) := by
  unfold execAlarmClear
  refine keepX_next ?_
  refine keep_runCmd ?_ ?_
  · assumption
  · intro _
    refine keep_alarmClear ?_
    assumption

theorem keep_hostReset {a0 : State} {a1 : Cmd} {a2 : ResetIn} {a3 : Env} (g0 : Keep q a0) : Keep q (@State.hostReset a0 a1 a2 a3).1 := by
  unfold State.hostReset
  extract_lets +onlyGivenNames -merge -useContext -underBinder x0
  try clear_value x0
  extract_lets +onlyGivenNames -merge -useContext -underBinder x1
  try clear_value x1
  show Keep q _
  refine keep_requestReset ?_
  assumption

theorem keep_execReset {a0 : BitVec 48} {a1 : ResetIn} {a2 : Env} {a3 : State} (g3 : Keep q a3) : KeepX q (@execReset a0 a1 a2 a3) := by
  unfold execReset
  refine keepX_next ?_
  refine keep_around ?_ ?_
  · assumption
  · intro _ _ _
    refine keep_runCmd ?_ ?_
    · assumption
    · intro _
      refine keep_hostReset ?_
      assumption

theorem keep_linkCtrl {a0 : State} {a1 : Nat} {a2 : Nat} (g0 : Keep q a0) : Keep q (@State.linkCtrl a0 a1 a2) := by
  unfold State.linkCtrl
  split
  · refine keep_linkDisable ?_
    assumption
  · refine keep_linkEnable ?_
    assumption
  · refine keep_linkRetrain ?_
    assumption
  · refine keep_linkRestore ?_
    assumption

theorem keep_execLinkCtrl {a0 : BitVec 48} {a1 : State} (g1 : Keep q a1) : KeepX q (@execLinkCtrl a0 a1) := by
  unfold execLinkCtrl
  refine keepX_next ?_
  refine keep_runCmd ?_ ?_
  · assumption
  · intro _
    show Keep q _
    refine keep_linkCtrl ?_
    assumption

end Sys2Proof.Laws
end

