-- ==== Sys2Proof/Laws/KeepBoot.lean ====
section
/-! SUPPORT. What each operation of Machine/Boot.lean keeps: the queue and the invariant of Safety.lean, or the canonical form of memory. -/
namespace Sys2Proof.Laws
open Sys2Proof Sys2Proof.Machine
variable {q : List Instr}

theorem otpFails_mstate (s : State) (f : Nat) : (s.otpFails f).pwr.mstate = s.pwr.mstate := by
  unfold State.otpFails
  split
  · rfl
  · split <;> rfl

theorem resumeRecorder_mstate (s : State) : s.resumeRecorder.pwr.mstate = s.pwr.mstate := by
  unfold State.resumeRecorder
  split
  · rfl
  · simp only
    split <;> rfl

theorem keep_fwRecord {a0 : State} {a1 : Nat} {a2 : List (Nat × Byte)} (g0 : Keep q a0) : Keep q (@State.fwRecord a0 a1 a2) := by
  unfold State.fwRecord
  extract_lets +onlyGivenNames -merge -useContext -underBinder x0
  try clear_value x0
  refine keep_record ?_
  assumption

theorem keep_Mem_stage {a0 : Mem} {a1 : List Nat} {a2 : Nat} (g0 : Mem.Wf a0) : Mem.Wf (@Mem.stage a0 a1 a2) := by
  unfold Mem.stage
  extract_lets +onlyGivenNames -merge -useContext -underBinder x0
  have h0 : Mem.Wf x0 := by
    unfold x0
    refine wf_foldlMem ?_ ?_
    · assumption
    · intro _ _ _
      refine keep_Mem_firstZero ?_
      assumption
  try clear_value x0
  refine memWf_mk ?_ ?_ ?_ ?_ ?_ ?_
  · refine Mem.Wf.bytes ?_
    assumption
  · refine Mem.Wf.errs ?_
    assumption
  · refine Mem.Wf.unread ?_
    assumption
  · refine wf_foldlSparse ?_ ?_
    · refine Mem.Wf.region ?_
      assumption
    · intro _ _ _
      refine Sparse.wf_set ?_
      assumption
  · refine Mem.Wf.zeroed ?_
    assumption
  · refine Mem.Wf.jobs ?_
    assumption

theorem keep_endStaging {a0 : State} (g0 : Keep q a0) : Keep q (@State.endStaging a0) := by
  unfold State.endStaging
  extract_lets +onlyGivenNames -merge -useContext -underBinder x0
  have h0 : Keep q x0 := by
    unfold x0
    refine keep_onDp ?_ ?_
    · assumption
    · intro _ _
      refine keepD_mk ?_
      extract_lets +onlyGivenNames -merge -useContext -underBinder x1
      have h1 : Mem.Wf x1 := by
        unfold x1
        show KeepD _
        assumption
      try clear_value x1
      refine memWf_mk ?_ ?_ ?_ ?_ ?_ ?_
      · refine Mem.Wf.bytes ?_
        assumption
      · refine Mem.Wf.errs ?_
        assumption
      · refine Mem.Wf.unread ?_
        assumption
      · refine wf_foldlSparse ?_ ?_
        · refine Mem.Wf.region ?_
          show KeepD _
          assumption
        · intro _ _ _
          refine Sparse.wf_set ?_
          assumption
      · refine Mem.Wf.zeroed ?_
        assumption
      · refine Mem.Wf.jobs ?_
        assumption
  try clear_value x0
  refine Keep.upd ?_
  assumption

theorem keep_fwBegin {a0 : State} {a1 : Cmd} {a2 : List Nat} (g0 : Keep q a0) : Keep q (@State.fwBegin a0 a1 a2).1 := by
  unfold State.fwBegin
  extract_lets +onlyGivenNames -merge -useContext -underBinder x0
  try clear_value x0
  refine keep1_ite (fun _ => ?_) (fun _ => ?_)
  · show Keep q _
    assumption
  · refine keep1_ite (fun _ => ?_) (fun _ => ?_)
    · show Keep q _
      assumption
    · refine keep1_ite (fun _ => ?_) (fun _ => ?_)
      · show Keep q _
        refine Keep.mk' ?_ ?_ ?_ ?_ ?_ ?_
        · assumption
        · exact fun h => h.inv.mem
        · first | exact fun h => ⟨h.inv.flash.region, h.inv.flash.jobs⟩ | exact fun h => ⟨h.inv.mem.region, h.inv.mem.jobs⟩
        · exact fun h => ⟨h.inv.sec.hold, h.inv.sec.erased, h.inv.sec.flash, h.inv.sec.revoke, h.inv.sec.disabled⟩
        · exact fun h => h.inv.elec
        · exact fun h => h.inv.stage
      · extract_lets +onlyGivenNames -merge -useContext -underBinder x1
        have h1 : Keep q x1 := by
          unfold x1
          refine keep_endStaging ?_
          assumption
        try clear_value x1
        extract_lets +onlyGivenNames -merge -useContext -underBinder x2
        try clear_value x2
        extract_lets +onlyGivenNames -merge -useContext -underBinder x3
        have h3 : Keep q x3 := by
          unfold x3
          refine keep_onDp ?_ ?_
          · assumption
          · intro _ _
            refine keepD_mk ?_
            refine keep_Mem_stage ?_
            show KeepD _
            assumption
        try clear_value x3
        show Keep q _
        refine Keep.upd ?_
        assumption

theorem keep_execFwUpdateBegin {a0 : BitVec 48} {a1 : List Nat} {a2 : State} (g2 : Keep q a2) : KeepX q (@execFwUpdateBegin a0 a1 a2) := by
  unfold execFwUpdateBegin
  refine keepX_next ?_
  refine keep_runCmd ?_ ?_
  · assumption
  · intro _
    refine keep_unlessHold ?_ ?_
    · assumption
    · refine keep_fwBegin ?_
      assumption

theorem keep_fwData {a0 : State} {a1 : Cmd} (g0 : Keep q a0) : Keep q (@State.fwData a0 a1).1 := by
  unfold State.fwData
  extract_lets +onlyGivenNames -merge -useContext -underBinder x0
  try clear_value x0
  extract_lets +onlyGivenNames -merge -useContext -underBinder x1
  try clear_value x1
  extract_lets +onlyGivenNames -merge -useContext -underBinder x2
  try clear_value x2
  refine keep1_ite (fun _ => ?_) (fun _ => ?_)
  · show Keep q _
    assumption
  · refine keep1_ite (fun _ => ?_) (fun _ => ?_)
    · show Keep q _
      assumption
    · refine keep1_ite (fun _ => ?_) (fun _ => ?_)
      · show Keep q _
        assumption
      · refine keep1_ite (fun _ => ?_) (fun _ => ?_)
        · show Keep q _
          refine Keep.mk' ?_ ?_ ?_ ?_ ?_ ?_
          · assumption
          · exact fun h => h.inv.mem
          · first | exact fun h => ⟨h.inv.flash.region, h.inv.flash.jobs⟩ | exact fun h => ⟨h.inv.mem.region, h.inv.mem.jobs⟩
          · exact fun h => ⟨h.inv.sec.hold, h.inv.sec.erased, h.inv.sec.flash, h.inv.sec.revoke, h.inv.sec.disabled⟩
          · exact fun h => h.inv.elec
          · exact fun h => h.inv.stage
        · show Keep q _
          refine Keep.upd ?_
          assumption

theorem keep_execFwUpdateData {a0 : BitVec 48} {a1 : State} (g1 : Keep q a1) : KeepX q (@execFwUpdateData a0 a1) := by
  unfold execFwUpdateData
  refine keepX_next ?_
  refine keep_runCmd ?_ ?_
  · assumption
  · intro _
    refine keep_unlessHold ?_ ?_
    · assumption
    · refine keep_fwData ?_
      assumption

theorem keep_fwCommit {a0 : State} {a1 : BitVec 48} (g0 : Keep q a0) : Keep q (@State.fwCommit a0 a1) := by
  unfold State.fwCommit
  split
  · assumption
  · extract_lets +onlyGivenNames -merge -useContext -underBinder x0
    try clear_value x0
    extract_lets +onlyGivenNames -merge -useContext -underBinder x1
    try clear_value x1
    refine keep_ite (fun _ => ?_) (fun _ => ?_)
    · refine keep_finish ?_
      assumption
    · refine keep_ite (fun _ => ?_) (fun _ => ?_)
      · refine keep_finish ?_
        assumption
      · refine keep_ite (fun _ => ?_) (fun _ => ?_)
        · refine keep_finish ?_
          assumption
        · refine keep_ite (fun _ => ?_) (fun _ => ?_)
          · extract_lets +onlyGivenNames -merge -useContext -underBinder x2
            try clear_value x2
            extract_lets +onlyGivenNames -merge -useContext -underBinder x3
            have h3 : Keep q x3 := by
              unfold x3
              refine Keep.upd ?_
              assumption
            try clear_value x3
            refine keep_ite (fun _ => ?_) (fun _ => ?_)
            · refine keep_finish ?_
              refine keep_fwRecord ?_
              assumption
            · refine keep_resetDies ?_
              refine keep_finish ?_
              refine keep_fwRecord ?_
              assumption
          · refine keep_ite (fun _ => ?_) (fun _ => ?_)
            · refine keep_finish ?_
              refine keep_endStaging ?_
              refine keep_fwRecord ?_
              assumption
            · refine keep_waitCmd ?_
              refine Keep.mk' ?_ ?_ ?_ ?_ ?_ ?_
              · assumption
              · exact fun h => h.inv.mem
              · first | exact fun h => ⟨h.inv.flash.region, h.inv.flash.jobs⟩ | exact fun h => ⟨h.inv.mem.region, h.inv.mem.jobs⟩
              · exact fun h => ⟨h.inv.sec.hold, h.inv.sec.erased, h.inv.sec.flash, h.inv.sec.revoke, h.inv.sec.disabled⟩
              · exact fun h => h.inv.elec
              · exact fun h => h.inv.stage

theorem keep_execFwUpdateCommit {a0 : BitVec 48} {a1 : State} (g1 : Keep q a1) : KeepX q (@execFwUpdateCommit a0 a1) := by
  unfold execFwUpdateCommit
  refine keepX_next ?_
  refine keep_fwCommit ?_
  assumption

theorem keep_fwProgrammed {a0 : State} {a1 : BitVec 48} (g0 : Keep q a0) : Keep q (@State.fwProgrammed a0 a1) := by
  unfold State.fwProgrammed
  split
  · assumption
  · extract_lets +onlyGivenNames -merge -useContext -underBinder x0
    try clear_value x0
    extract_lets +onlyGivenNames -merge -useContext -underBinder x1
    try clear_value x1
    extract_lets +onlyGivenNames -merge -useContext -underBinder x2
    extract_lets +onlyGivenNames -merge -useContext -underBinder x3
    have h3 : Keep q x3 := by
      unfold x3
      refine keep_endStaging ?_
      refine Keep.mk' ?_ ?_ ?_ ?_ ?_ ?_
      · assumption
      · exact fun h => h.inv.mem
      · first | exact fun h => ⟨h.inv.flash.region, h.inv.flash.jobs⟩ | exact fun h => ⟨h.inv.mem.region, h.inv.mem.jobs⟩
      · exact fun h => ⟨h.inv.sec.hold, h.inv.sec.erased, h.inv.sec.flash, h.inv.sec.revoke, h.inv.sec.disabled⟩
      · exact fun h => h.inv.elec
      · exact fun h => h.inv.stage
    try clear_value x3
    refine keep_finish ?_
    refine keep_fwRecord ?_
    assumption

theorem keep_execFwFlashProgramDone {a0 : BitVec 48} {a1 : State} (g1 : Keep q a1) : KeepX q (@execFwFlashProgramDone a0 a1) := by
  unfold execFwFlashProgramDone
  refine keepX_next ?_
  refine keep_fwProgrammed ?_
  assumption

theorem keep_execRecoveryHoldExpiry {a0 : State} (g0 : Keep q a0) : KeepX q (@execRecoveryHoldExpiry a0) := by
  unfold execRecoveryHoldExpiry
  refine keepX_next ?_
  refine Keep.upd ?_
  assumption

theorem keep_standbyGood {a0 : State} (g0 : Keep q a0) : Keep q (@State.standbyGood a0) := by
  unfold State.standbyGood
  refine keep_ite (fun _ => ?_) (fun _ => ?_)
  · assumption
  · refine Keep.mk' ?_ ?_ ?_ ?_ ?_ ?_
    · assumption
    · exact fun h => h.inv.mem
    · exact fun h => h.inv.flash
    · exact fun h => h.inv.sec
    · first | exact fun h ht => h.inv.elec ht | exact fun _ _ => rfl
    · first | exact fun h => ⟨by decide, fun _ => rfl⟩ | exact fun h => ⟨by decide, fun e => absurd (show (0 : BitVec 2) = 3 from e) (by decide)⟩

theorem keep_execStandbyGood {a0 : State} (g0 : Keep q a0) : KeepX q (@execStandbyGood a0) := by
  unfold execStandbyGood
  refine keepX_next ?_
  refine keep_standbyGood ?_
  assumption

theorem keep_powerGood {a0 : State} (g0 : Keep q a0) : Keep q (@State.powerGood a0) := by
  unfold State.powerGood
  extract_lets +onlyGivenNames -merge -useContext -underBinder x0
  extract_lets +onlyGivenNames -merge -useContext -underBinder x1
  have h1 : Keep q x1 := by
    unfold x1
    refine Keep.mk' ?_ ?_ ?_ ?_ ?_ ?_
    · assumption
    · exact fun h => h.inv.mem
    · exact fun h => h.inv.flash
    · exact fun h => h.inv.sec
    · first | exact fun h ht => h.inv.elec ht | exact fun _ _ => rfl
    · exact fun h => h.inv.stage
  try clear_value x1
  refine keep_ite (fun _ => ?_) (fun _ => ?_)
  · assumption
  · refine Keep.mk' ?_ ?_ ?_ ?_ ?_ ?_
    · assumption
    · exact fun h => h.inv.mem
    · exact fun h => h.inv.flash
    · exact fun h => h.inv.sec
    · exact fun _ e => absurd (show x1.elec.tripped = true from e) (by simp_all)
    · first | exact fun h => ⟨by decide, fun _ => rfl⟩ | exact fun h => ⟨by decide, fun e => absurd (show (0 : BitVec 2) = 3 from e) (by decide)⟩

theorem keep_execPowerGood {a0 : State} (g0 : Keep q a0) : KeepX q (@execPowerGood a0) := by
  unfold execPowerGood
  refine keepX_next ?_
  refine keep_powerGood ?_
  assumption

theorem keep_resumeRecorder {a0 : State} (g0 : Keep q a0) : Keep q (@State.resumeRecorder a0) := by
  unfold State.resumeRecorder
  split
  · assumption
  · extract_lets +onlyGivenNames -merge -useContext -underBinder x0
    have h0 : Keep q x0 := by
      unfold x0
      refine keep_onEvr ?_
      assumption
    try clear_value x0
    extract_lets +onlyGivenNames -merge -useContext -underBinder x1
    try clear_value x1
    refine keep_ite (fun _ => ?_) (fun _ => ?_)
    · assumption
    · refine keep_record ?_
      assumption

theorem keep_otpFails {a0 : State} {a1 : Nat} (g0 : Keep q a0) : Keep q (@State.otpFails a0 a1) := by
  unfold State.otpFails
  split
  · assumption
  · split
    · refine keep_setOtpSlot ?_
      assumption
    · assumption

theorem keep_startSt1 {a0 : State} {a1 : Coord} {a2 : Bool} {a3 : List (BitVec 8)} (g0 : Keep q a0) : Keep q (@State.startSt1 a0 a1 a2 a3) := by
  unfold State.startSt1
  refine keep_ite (fun _ => ?_) (fun hc => ?_)
  · assumption
  · extract_lets +onlyGivenNames -merge -useContext -underBinder x0
    have h0 : Keep q x0 := by
      unfold x0
      refine keep_resumeRecorder ?_
      assumption
    have hm0 : x0.pwr.mstate = a0.pwr.mstate := resumeRecorder_mstate a0
    try clear_value x0
    extract_lets +onlyGivenNames -merge -useContext -underBinder x1
    have h1 : Keep q x1 := by
      unfold x1
      refine keep_foldl ?_ ?_
      · assumption
      · intro _ _ _
        refine keep_ite (fun _ => ?_) (fun _ => ?_)
        · refine keep_otpFails ?_
          assumption
        · assumption
    have hm1 : x1.pwr.mstate = a0.pwr.mstate := by
      rw [← hm0]
      exact foldl_mstate fun s f => by split <;> simp [otpFails_mstate]
    try clear_value x1
    extract_lets +onlyGivenNames -merge -useContext -underBinder x2
    extract_lets +onlyGivenNames -merge -useContext -underBinder x3
    have h3 : Keep q x3 := by
      unfold x3
      refine Keep.mk' ?_ ?_ ?_ ?_ ?_ ?_
      · assumption
      · exact fun h => h.inv.mem
      · exact fun h => h.inv.flash
      · exact fun h => ⟨id, h.inv.sec.flash, h.inv.sec.flash, h.inv.sec.revoke, h.inv.sec.disabled⟩
      · exact fun h => h.inv.elec
      · exact fun h => h.inv.stage
    have hm3 : x3.pwr.mstate = a0.pwr.mstate := hm1
    try clear_value x3
    extract_lets +onlyGivenNames -merge -useContext -underBinder x4
    try clear_value x4
    extract_lets +onlyGivenNames -merge -useContext -underBinder x5
    have h5 : Keep q x5 := by
      unfold x5
      refine Keep.upd ?_
      assumption
    have hm5 : x5.pwr.mstate = a0.pwr.mstate := hm3
    try clear_value x5
    extract_lets +onlyGivenNames -merge -useContext -underBinder x6
    have h6 : Keep q x6 := by
      unfold x6
      refine keep_onDp ?_ ?_
      · assumption
      · intro _ _
        refine keepD_mk ?_
        show KeepD _
        assumption
    have hm6 : x6.pwr.mstate = a0.pwr.mstate := hm5
    try clear_value x6
    refine Keep.mk' ?_ ?_ ?_ ?_ ?_ ?_
    · assumption
    · exact fun h => h.inv.mem
    · exact fun h => h.inv.flash
    · exact fun h => h.inv.sec
    · exact fun h => h.inv.elec
    · exact fun _ => ⟨by decide, fun e => absurd (hm6.symm.trans e) (fun e => hc (by simp [e]))⟩

theorem keep_execStartSt1 {a0 : Coord} {a1 : Bool} {a2 : List (BitVec 8)} {a3 : State} (g3 : Keep q a3) : KeepX q (@execStartSt1 a0 a1 a2 a3) := by
  unfold execStartSt1
  refine keepX_next ?_
  refine keep_startSt1 ?_
  assumption

theorem keep_startSt2 {a0 : State} (g0 : Keep q a0) : Keep q (@State.startSt2 a0) := by
  unfold State.startSt2
  refine keep_ite (fun _ => ?_) (fun hc => ?_)
  · assumption
  · extract_lets +onlyGivenNames -merge -useContext -underBinder x0
    try clear_value x0
    extract_lets +onlyGivenNames -merge -useContext -underBinder x1
    try clear_value x1
    extract_lets +onlyGivenNames -merge -useContext -underBinder x2
    try clear_value x2
    refine keep_ite (fun _ => ?_) (fun _ => ?_)
    · refine Keep.mk' ?_ ?_ ?_ ?_ ?_ ?_
      · assumption
      · exact fun h => h.inv.mem
      · exact fun h => h.inv.flash
      · exact fun h => ⟨h.inv.sec.hold, h.inv.sec.erased, h.inv.sec.flash, h.inv.sec.revoke, h.inv.sec.disabled⟩
      · exact fun h => h.inv.elec
      · exact fun h => ⟨by decide, fun e => absurd (g0.inv.stage.m3 e) (by simp_all)⟩
    · refine keep_onDp ?_ ?_
      · refine keep_fwRecord ?_
        refine Keep.mk' ?_ ?_ ?_ ?_ ?_ ?_
        · assumption
        · exact fun h => h.inv.mem
        · exact fun h => h.inv.flash
        · exact fun h => h.inv.sec
        · exact fun h => h.inv.elec
        · exact fun h => ⟨by decide, fun e => absurd (g0.inv.stage.m3 e) (by simp_all)⟩
      · intro _ _
        refine keep_Dp_raiseBoth ?_
        assumption

theorem keep_execStartSt2 {a0 : State} (g0 : Keep q a0) : KeepX q (@execStartSt2 a0) := by
  unfold execStartSt2
  refine keepX_next ?_
  refine keep_startSt2 ?_
  assumption

theorem keep_repairRow {a0 : List Nat} {a1 : Dp} {a2 : Nat} (g1 : KeepD a1) : KeepD (@repairRow a0 a1 a2) := by
  unfold repairRow
  extract_lets +onlyGivenNames -merge -useContext -underBinder x0
  try clear_value x0
  extract_lets +onlyGivenNames -merge -useContext -underBinder x1
  try clear_value x1
  extract_lets +onlyGivenNames -merge -useContext -underBinder x2
  try clear_value x2
  extract_lets +onlyGivenNames -merge -useContext -underBinder x3
  try clear_value x3
  extract_lets +onlyGivenNames -merge -useContext -underBinder x4
  have h4 : Mem.Wf x4 := by
    unfold x4
    show KeepD _
    assumption
  try clear_value x4
  extract_lets +onlyGivenNames -merge -useContext -underBinder x5
  have h5 : Mem.Wf x5 := by
    unfold x5
    refine keepM_ite (fun _ => ?_) (fun _ => ?_)
    · refine memWf_mk ?_ ?_ ?_ ?_ ?_ ?_
      · refine Mem.Wf.bytes ?_
        assumption
      · refine Mem.Wf.errs ?_
        assumption
      · refine Mem.Wf.unread ?_
        assumption
      · refine Mem.Wf.region ?_
        assumption
      · refine Mem.Wf.zeroed ?_
        assumption
      · refine Mem.Wf.jobs ?_
        assumption
    · refine memWf_mk ?_ ?_ ?_ ?_ ?_ ?_
      · refine Mem.Wf.bytes ?_
        assumption
      · refine Mem.Wf.errs ?_
        assumption
      · refine Mem.Wf.unread ?_
        assumption
      · refine Sparse.wf_set ?_
        refine Mem.Wf.region ?_
        assumption
      · refine Mem.Wf.zeroed ?_
        assumption
      · refine Mem.Wf.jobs ?_
        assumption
  try clear_value x5
  refine keep_memRecord ?_
  refine keepD_mk ?_
  assumption

theorem keep_restoreMemory {a0 : State} {a1 : List Nat} (g0 : Keep q a0) : Keep q (a0.restoreMemory a1) := by
  unfold State.restoreMemory
  extract_lets region x1
  have hr : Sparse.wf 0 region = true := by
    unfold region State.restoredRegion
    split <;> first | exact g0.inv.flash.region | exact Sparse.wf_filter g0.inv.flash.region | exact Sparse.wf_mapVal g0.inv.flash.region
  have h1 : Keep q x1 := by
    unfold x1
    refine keep_onDp g0 fun d hd => ?_
    exact ⟨Sparse.wf_filter hd.bytes, Sparse.wf_filter hd.errs, Sparse.wf_filter hd.unread, hr, hd.zeroed, g0.inv.flash.jobs⟩
  clear_value x1
  refine keep_ite (fun _ => ?_) fun _ => h1
  refine keep_saveRegion (keep_onDp h1 fun d hd => keepD_foldl ?_ fun _ _ h => keep_repairRow h)
  exact ⟨hd.bytes, hd.errs, hd.unread, hd.region, hd.zeroed, hd.jobs⟩

theorem keep_loadMaps {a0 : State} (g0 : Keep q a0) : Keep q (@State.loadMaps a0) := by
  unfold State.loadMaps
  refine Keep.upd ?_
  assumption

theorem keep_packageFails {a0 : State} {a1 : Nat} (g0 : Keep q a0) : Keep q (a0.packageFails a1) := by
  refine keep_reportDegraded (keep_onDp g0 fun d hd => ?_)
  refine memWf_mk hd.bytes hd.errs hd.unread ?_ hd.zeroed hd.jobs
  generalize List.range 32768 = l
  exact wf_foldlSparse hd.region fun _ _ h => Sparse.wf_ins (by decide) h

theorem keep_startSt3 {a0 : State} {a1 : List Panel} {a2 : List (Fin 16)} {a3 : List Nat} {a4 : Env} (g0 : Keep q a0) : Keep q (@State.startSt3 a0 a1 a2 a3 a4) := by
  unfold State.startSt3
  refine keep_ite (fun _ => ?_) (fun hc => ?_)
  · assumption
  · extract_lets +onlyGivenNames -merge -useContext -underBinder x0
    extract_lets +onlyGivenNames -merge -useContext -underBinder x1
    have h1 : Keep q x1 := by
      unfold x1
      refine Keep.mk' ?_ ?_ ?_ ?_ ?_ ?_
      · assumption
      · exact fun h => h.inv.mem
      · exact fun h => h.inv.flash
      · exact fun h => ⟨h.inv.sec.hold, h.inv.sec.erased, h.inv.sec.flash, h.inv.sec.revoke, h.inv.sec.disabled⟩
      · exact fun h => h.inv.elec
      · exact fun h => ⟨by decide, fun e => absurd (g0.inv.stage.m3 e) (by simp_all)⟩
    try clear_value x1
    extract_lets +onlyGivenNames -merge -useContext -underBinder x2
    have h2 : Keep q x2 := by
      unfold x2
      refine keep_restoreMemory ?_
      assumption
    try clear_value x2
    extract_lets +onlyGivenNames -merge -useContext -underBinder x3
    have h3 : Keep q x3 := by
      unfold x3
      refine keep_foldl ?_ ?_
      · assumption
      · intro _ _ _
        refine keep_packageFails ?_
        assumption
    try clear_value x3
    extract_lets +onlyGivenNames -merge -useContext -underBinder x4
    have h4 : Keep q x4 := by
      unfold x4
      refine keep_foldl ?_ ?_
      · refine keep_loadMaps ?_
        assumption
      · intro _ _ _
        refine keep_spareFails ?_
        assumption
    try clear_value x4
    extract_lets +onlyGivenNames -merge -useContext -underBinder x5
    have h5 : Keep q x5 := by
      unfold x5
      refine keep_onDp ?_ ?_
      · assumption
      · intro _ _
        refine keepD_mk ?_
        show KeepD _
        assumption
    try clear_value x5
    extract_lets +onlyGivenNames -merge -useContext -underBinder x6
    try clear_value x6
    extract_lets +onlyGivenNames -merge -useContext -underBinder x7
    have h7 : Keep q x7 := by
      unfold x7
      refine keep_ite (fun _ => ?_) (fun _ => ?_)
      · refine keep_reportDegraded ?_
        assumption
      · assumption
    try clear_value x7
    extract_lets +onlyGivenNames -merge -useContext -underBinder x8
    have h8 : Keep q x8 := by
      unfold x8
      split
      · refine Keep.updP ?_ rfl
        assumption
      · assumption
    try clear_value x8
    extract_lets +onlyGivenNames -merge -useContext -underBinder x9
    extract_lets +onlyGivenNames -merge -useContext -underBinder x10
    have h10 : Keep q x10 := by
      unfold x10
      refine Keep.mk' ?_ ?_ ?_ ?_ ?_ ?_
      · assumption
      · exact fun h => h.inv.mem
      · exact fun h => h.inv.flash
      · exact fun h => h.inv.sec
      · first | exact fun h ht => h.inv.elec ht | exact fun _ _ => rfl
      · exact fun h => h.inv.stage
    try clear_value x10
    extract_lets +onlyGivenNames -merge -useContext -underBinder x11
    have h11 : Keep q x11 := by
      unfold x11
      refine keep_votes ?_
      assumption
    try clear_value x11
    refine keep_foldl ?_ ?_
    · assumption
    · intro _ _ _
      refine keep_ite (fun _ => ?_) (fun _ => ?_)
      · refine keep_checkTorn ?_
        assumption
      · assumption

theorem keep_execStartSt3 {a0 : List Panel} {a1 : List (Fin 16)} {a2 : List Nat} {a3 : Env} {a4 : State} (g4 : Keep q a4) : KeepX q (@execStartSt3 a0 a1 a2 a3 a4) := by
  unfold execStartSt3
  refine keepX_next ?_
  refine keep_around ?_ ?_
  · assumption
  · intro _ _ _
    refine keep_startSt3 ?_
    assumption

theorem keep_startSt4 {a0 : State} (g0 : Keep q a0) : Keep q (@State.startSt4 a0) := by
  unfold State.startSt4
  refine keep_ite (fun _ => ?_) (fun hc => ?_)
  · assumption
  · extract_lets +onlyGivenNames -merge -useContext -underBinder x0
    have h0 : Keep q x0 := by
      unfold x0
      refine keep_votes ?_
      refine keep_sparesOff ?_
      refine Keep.mk' ?_ ?_ ?_ ?_ ?_ ?_
      · assumption
      · exact fun h => h.inv.mem
      · exact fun h => h.inv.flash
      · exact fun h => h.inv.sec
      · exact fun h => h.inv.elec
      · exact fun h => ⟨by decide, fun e => absurd (g0.inv.stage.m3 e) (by simp_all)⟩
    try clear_value x0
    refine Keep.upd ?_
    assumption

theorem keep_execStartSt4 {a0 : State} (g0 : Keep q a0) : KeepX q (@execStartSt4 a0) := by
  unfold execStartSt4
  refine keepX_next ?_
  refine keep_startSt4 ?_
  assumption

theorem keep_powerPanels {a0 : State} (g0 : Keep q a0) : Keep q (@State.powerPanels a0) := by
  unfold State.powerPanels
  refine keep_foldl ?_ ?_
  · assumption
  · intro _ _ _
    refine keep_ite (fun _ => ?_) (fun _ => ?_)
    · extract_lets +onlyGivenNames -merge -useContext -underBinder x0
      try clear_value x0
      refine keep_foldl ?_ ?_
      · refine keep_votes ?_
        assumption
      · intro _ _ _
        refine keep_setRequest ?_
        assumption
    · assumption

theorem keep_execLinkStartDelayExpiry {a0 : State} (g0 : Keep q a0) : KeepX q (@execLinkStartDelayExpiry a0) := by
  unfold execLinkStartDelayExpiry
  refine keepX_next ?_
  refine keep_ite (fun _ => ?_) (fun _ => ?_)
  · assumption
  · refine keep_powerPanels ?_
    refine keep_startLinks ?_
    assumption

theorem keep_endEpisode {a0 : State} (g0 : Keep q a0) : Keep q (@State.endEpisode a0) := by
  unfold State.endEpisode
  split
  · assumption
  · extract_lets +onlyGivenNames -merge -useContext -underBinder x0
    try clear_value x0
    extract_lets +onlyGivenNames -merge -useContext -underBinder x1
    try clear_value x1
    extract_lets +onlyGivenNames -merge -useContext -underBinder x2
    have h2 : Keep q x2 := by
      unfold x2
      refine Keep.upd ?_
      assumption
    try clear_value x2
    refine keep_moduleRecord ?_
    assumption

theorem keep_startSt5 {a0 : State} (g0 : Keep q a0) : Keep q (@State.startSt5 a0) := by
  unfold State.startSt5
  refine keep_ite (fun _ => ?_) (fun hc => ?_)
  · assumption
  · extract_lets +onlyGivenNames -merge -useContext -underBinder x0
    try clear_value x0
    extract_lets +onlyGivenNames -merge -useContext -underBinder x1
    have h1 : Keep q x1 := by
      unfold x1
      refine Keep.mk' ?_ ?_ ?_ ?_ ?_ ?_
      · assumption
      · exact fun h => h.inv.mem
      · exact fun h => h.inv.flash
      · exact fun h => h.inv.sec
      · exact fun h => h.inv.elec
      · exact fun h => ⟨by decide, fun e => absurd (g0.inv.stage.m3 e) (by simp_all)⟩
    try clear_value x1
    extract_lets +onlyGivenNames -merge -useContext -underBinder x2
    have h2 : Keep q x2 := by
      unfold x2
      refine keep_formHedge ?_
      refine keep_endEpisode ?_
      refine keep_freshNonce ?_
      assumption
    try clear_value x2
    refine keep_onDp ?_ ?_
    · refine keep_mgmt ?_
      assumption
    · intro _ _
      refine keep_Dp_raiseBoth ?_
      assumption

theorem keep_execStartSt5 {a0 : State} (g0 : Keep q a0) : KeepX q (@execStartSt5 a0) := by
  unfold execStartSt5
  refine keepX_next ?_
  refine keep_startSt5 ?_
  assumption

theorem keep_startupTimeout {a0 : State} {a1 : ResetIn} {a2 : Env} (g0 : Keep q a0) : Keep q (@State.startupTimeout a0 a1 a2) := by
  unfold State.startupTimeout
  refine keep_ite (fun _ => ?_) (fun _ => ?_)
  · assumption
  · refine keep_ite (fun _ => ?_) (fun _ => ?_)
    · refine keep_escalate ?_
      assumption
    · refine keep_moduleReset ?_
      assumption

theorem keep_execStartupTimeout {a0 : ResetIn} {a1 : Env} {a2 : State} (g2 : Keep q a2) : KeepX q (@execStartupTimeout a0 a1 a2) := by
  unfold execStartupTimeout
  refine keepX_next ?_
  refine keep_startupTimeout ?_
  assumption

end Sys2Proof.Laws
end

