-- ==== Sys2Proof/Laws/KeepSecurity.lean ====
section
/-! SUPPORT. What each operation of Machine/Security.lean keeps: the queue and the invariant of Safety.lean, or the canonical form of memory. -/
namespace Sys2Proof.Laws
open Sys2Proof Sys2Proof.Machine
variable {q : List Instr}

theorem keep_execSecurityAlarm {a0 : Fin 5} {a1 : State} (g1 : Keep q a1) : KeepX q (@execSecurityAlarm a0 a1) := by
  unfold execSecurityAlarm
  refine keepX_next ?_
  refine keep_fireAlarm ?_
  assumption

theorem keep_alarmEnd {a0 : State} {a1 : Nat} (g0 : Keep q a0) : Keep q (@State.alarmEnd a0 a1) := by
  unfold State.alarmEnd
  refine Keep.mk' ?_ ?_ ?_ ?_ ?_ ?_
  · assumption
  · exact fun h => h.inv.mem
  · exact fun h => h.inv.flash
  · exact fun h => ⟨h.inv.sec.hold, h.inv.sec.erased, h.inv.sec.flash, h.inv.sec.revoke, h.inv.sec.disabled⟩
  · exact fun h => h.inv.elec
  · exact fun h => h.inv.stage

theorem keep_execAlarmConditionEnd {a0 : Fin 5} {a1 : State} (g1 : Keep q a1) : KeepX q (@execAlarmConditionEnd a0 a1) := by
  unfold execAlarmConditionEnd
  refine keepX_next ?_
  refine keep_alarmEnd ?_
  assumption

theorem keep_spdmSend {a0 : State} {a1 : Port} {a2 : SpdmAns} (g0 : Keep q a0) : Keep q (@State.spdmSend a0 a1 a2) := by
  unfold State.spdmSend
  refine keep_send ?_
  assumption

theorem keep_spdmError {a0 : State} {a1 : Port} {a2 : SpdmErr} (g0 : Keep q a0) : Keep q (@State.spdmError a0 a1 a2) := by
  unfold State.spdmError
  refine keep_spdmSend ?_
  assumption

theorem keep_spdmReady {a0 : State} {a1 : Port} {a2 : Nat} {a3 : State} (g0 : Keep q a0) (g3 : Keep q a3) : Keep q (@State.spdmReady a0 a1 a2 a3) := by
  unfold State.spdmReady
  refine keep_ite (fun _ => ?_) (fun _ => ?_)
  · refine keep_spdmError ?_
    assumption
  · refine keep_ite (fun _ => ?_) (fun _ => ?_)
    · refine keep_spdmError ?_
      assumption
    · refine keep_ite (fun _ => ?_) (fun _ => ?_)
      · refine keep_spdmError ?_
        assumption
      · assumption

theorem keep_spdmVersion {a0 : State} {a1 : Port} (g0 : Keep q a0) : Keep q (@State.spdmVersion a0 a1) := by
  unfold State.spdmVersion
  refine keep_spdmReady ?_ ?_
  · assumption
  · refine keep_spdmSend ?_
    refine keep_updPort ?_
    assumption

theorem keep_execSpdmGetVersion {a0 : Port} {a1 : State} (g1 : Keep q a1) : KeepX q (@execSpdmGetVersion a0 a1) := by
  unfold execSpdmGetVersion
  refine keepX_next ?_
  refine keep_spdmVersion ?_
  assumption

theorem keep_spdmCapabilities {a0 : State} {a1 : Port} (g0 : Keep q a0) : Keep q (@State.spdmCapabilities a0 a1) := by
  unfold State.spdmCapabilities
  refine keep_spdmReady ?_ ?_
  · assumption
  · refine keep_spdmSend ?_
    refine keep_updPort ?_
    assumption

theorem keep_execSpdmGetCapabilities {a0 : Port} {a1 : State} (g1 : Keep q a1) : KeepX q (@execSpdmGetCapabilities a0 a1) := by
  unfold execSpdmGetCapabilities
  refine keepX_next ?_
  refine keep_spdmCapabilities ?_
  assumption

theorem keep_spdmAlgorithms {a0 : State} {a1 : Port} {a2 : Bool} (g0 : Keep q a0) : Keep q (@State.spdmAlgorithms a0 a1 a2) := by
  unfold State.spdmAlgorithms
  refine keep_spdmReady ?_ ?_
  · assumption
  · refine keep_ite (fun _ => ?_) (fun _ => ?_)
    · refine keep_spdmSend ?_
      refine keep_updPort ?_
      assumption
    · refine keep_spdmError ?_
      assumption

theorem keep_execSpdmNegotiateAlgorithms {a0 : Port} {a1 : Bool} {a2 : State} (g2 : Keep q a2) : KeepX q (@execSpdmNegotiateAlgorithms a0 a1 a2) := by
  unfold execSpdmNegotiateAlgorithms
  refine keepX_next ?_
  refine keep_spdmAlgorithms ?_
  assumption

theorem keep_execSpdmGetDigests {a0 : Port} {a1 : State} (g1 : Keep q a1) : KeepX q (@execSpdmGetDigests a0 a1) := by
  unfold execSpdmGetDigests
  refine keepX_next ?_
  refine keep_spdmReady ?_ ?_
  · assumption
  · refine keep_spdmSend ?_
    assumption

theorem keep_spdmCertificate {a0 : State} {a1 : Port} {a2 : Nat} {a3 : Nat} {a4 : Nat} (g0 : Keep q a0) : Keep q (@State.spdmCertificate a0 a1 a2 a3 a4) := by
  unfold State.spdmCertificate
  split
  · refine keep_spdmError ?_
    assumption
  · refine keep_ite (fun _ => ?_) (fun _ => ?_)
    · refine keep_spdmError ?_
      assumption
    · refine keep_spdmSend ?_
      assumption

theorem keep_execSpdmGetCertificate {a0 : Port} {a1 : Fin 8} {a2 : BitVec 16} {a3 : BitVec 16} {a4 : State} (g4 : Keep q a4) : KeepX q (@execSpdmGetCertificate a0 a1 a2 a3 a4) := by
  unfold execSpdmGetCertificate
  refine keepX_next ?_
  refine keep_spdmReady ?_ ?_
  · assumption
  · refine keep_spdmCertificate ?_
    assumption

theorem keep_spdmChallenge {a0 : State} {a1 : Port} {a2 : Nat} {a3 : List Byte} (g0 : Keep q a0) : Keep q (@State.spdmChallenge a0 a1 a2 a3) := by
  unfold State.spdmChallenge
  split
  · refine keep_spdmError ?_
    assumption
  · refine keep_ite (fun _ => ?_) (fun _ => ?_)
    · refine keep_spdmError ?_
      assumption
    · refine keep_spdmSend ?_
      assumption

theorem keep_execSpdmChallenge {a0 : Port} {a1 : Fin 8} {a2 : BitVec 256} {a3 : State} (g3 : Keep q a3) : KeepX q (@execSpdmChallenge a0 a1 a2 a3) := by
  unfold execSpdmChallenge
  refine keepX_next ?_
  refine keep_spdmReady ?_ ?_
  · assumption
  · refine keep_spdmChallenge ?_
    assumption

theorem keep_spdmMeasurements {a0 : State} {a1 : Port} {a2 : Nat} {a3 : Option Nat} {a4 : List Byte} (g0 : Keep q a0) : Keep q (@State.spdmMeasurements a0 a1 a2 a3 a4) := by
  unfold State.spdmMeasurements
  split
  · refine keep_spdmError ?_
    assumption
  · split
    · refine keep_spdmSend ?_
      assumption
    · refine keep_ite (fun _ => ?_) (fun _ => ?_)
      · refine keep_spdmError ?_
        assumption
      · refine keep_ite (fun _ => ?_) (fun _ => ?_)
        · refine keep_spdmError ?_
          assumption
        · refine keep_spdmSend ?_
          assumption

theorem keep_execSpdmGetMeasurements {a0 : Port} {a1 : BitVec 8} {a2 : Option (Fin 8)} {a3 : BitVec 256} {a4 : State} (g4 : Keep q a4) : KeepX q (@execSpdmGetMeasurements a0 a1 a2 a3 a4) := by
  unfold execSpdmGetMeasurements
  refine keepX_next ?_
  refine keep_spdmReady ?_ ?_
  · assumption
  · refine keep_spdmMeasurements ?_
    assumption

theorem keep_ownerSpdm {a0 : State} {a1 : Port} {a2 : State} (g0 : Keep q a0) (g2 : Keep q a2) : Keep q (@State.ownerSpdm a0 a1 a2) := by
  unfold State.ownerSpdm
  refine keep_ite (fun _ => ?_) (fun _ => ?_)
  · assumption
  · refine keep_spdmError ?_
    assumption

theorem keep_spdmCsr {a0 : State} {a1 : Port} (g0 : Keep q a0) : Keep q (@State.spdmCsr a0 a1) := by
  unfold State.spdmCsr
  extract_lets +onlyGivenNames -merge -useContext -underBinder x0
  try clear_value x0
  refine keep_spdmSend ?_
  assumption

theorem keep_execSpdmGetCsr {a0 : Port} {a1 : State} (g1 : Keep q a1) : KeepX q (@execSpdmGetCsr a0 a1) := by
  unfold execSpdmGetCsr
  refine keepX_next ?_
  refine keep_spdmReady ?_ ?_
  · assumption
  · refine keep_ownerSpdm ?_ ?_
    · assumption
    · refine keep_spdmCsr ?_
      assumption

theorem keep_spdmSetCert {a0 : State} {a1 : Port} {a2 : Nat} {a3 : List Byte} (g0 : Keep q a0) : Keep q (@State.spdmSetCert a0 a1 a2 a3) := by
  unfold State.spdmSetCert
  refine keep_ite (fun _ => ?_) (fun _ => ?_)
  · refine keep_spdmError ?_
    assumption
  · refine keep_spdmSend ?_
    refine Keep.mk' ?_ ?_ ?_ ?_ ?_ ?_
    · assumption
    · exact fun h => h.inv.mem
    · first | exact fun h => ⟨h.inv.flash.region, h.inv.flash.jobs⟩ | exact fun h => ⟨h.inv.mem.region, h.inv.mem.jobs⟩
    · exact fun h => ⟨h.inv.sec.hold, h.inv.sec.erased, h.inv.sec.flash, h.inv.sec.revoke, h.inv.sec.disabled⟩
    · exact fun h => h.inv.elec
    · exact fun h => h.inv.stage

theorem keep_execSpdmSetCertificate {a0 : Port} {a1 : Fin 8} {a2 : List Byte} {a3 : State} (g3 : Keep q a3) : KeepX q (@execSpdmSetCertificate a0 a1 a2 a3) := by
  unfold execSpdmSetCertificate
  refine keepX_next ?_
  refine keep_spdmReady ?_ ?_
  · assumption
  · refine keep_ownerSpdm ?_ ?_
    · assumption
    · refine keep_spdmSetCert ?_
      assumption

end Sys2Proof.Laws
end

