-- ==== Sys2Proof/Laws/KeepElectrical.lean ====
section
/-! SUPPORT. What each operation of Machine/Electrical.lean keeps: the queue and the invariant of Safety.lean, or the canonical form of memory. -/
namespace Sys2Proof.Laws
open Sys2Proof Sys2Proof.Machine
variable {q : List Instr}

theorem keep_conversionStops {a0 : State} (g0 : Keep q a0) : Keep q (@State.conversionStops a0) := by
  unfold State.conversionStops
  extract_lets +onlyGivenNames -merge -useContext -underBinder x0
  have h0 : Keep q x0 := by
    unfold x0
    refine keep_resetDies ?_
    refine keep_loseMemory ?_
    refine keep_onEvr ?_
    assumption
  try clear_value x0
  refine Keep.mk' ?_ ?_ ?_ ?_ ?_ ?_
  · assumption
  · exact fun h => h.inv.mem
  · exact fun h => h.inv.flash
  · exact fun h => h.inv.sec
  · first | exact fun h ht => h.inv.elec ht | exact fun _ _ => rfl
  · first | exact fun h => ⟨by decide, fun _ => rfl⟩ | exact fun h => ⟨by decide, fun e => absurd (show (0 : BitVec 2) = 3 from e) (by decide)⟩

theorem keep_mainLost {a0 : State} (g0 : Keep q a0) : Keep q (@State.mainLost a0) := by
  unfold State.mainLost
  extract_lets +onlyGivenNames -merge -useContext -underBinder x0
  try clear_value x0
  extract_lets +onlyGivenNames -merge -useContext -underBinder x1
  extract_lets +onlyGivenNames -merge -useContext -underBinder x2
  have h2 : Keep q x2 := by
    unfold x2
    refine Keep.mk' ?_ ?_ ?_ ?_ ?_ ?_
    · assumption
    · exact fun h => h.inv.mem
    · exact fun h => h.inv.flash
    · exact fun h => h.inv.sec
    · first | exact fun h ht => h.inv.elec ht | exact fun _ _ => rfl
    · exact fun h => h.inv.stage
  try clear_value x2
  refine keep_ite (fun _ => ?_) (fun _ => ?_)
  · extract_lets +onlyGivenNames -merge -useContext -underBinder x3
    have h3 : Keep q x3 := by
      unfold x3
      refine keep_conversionStops ?_
      assumption
    try clear_value x3
    refine Keep.mk' ?_ ?_ ?_ ?_ ?_ ?_
    · assumption
    · exact fun h => h.inv.mem
    · exact fun h => h.inv.flash
    · exact fun h => h.inv.sec
    · first | exact fun h ht => h.inv.elec ht | exact fun _ _ => rfl
    · exact fun h => h.inv.stage
  · assumption

theorem keep_execMainUndervoltage {a0 : State} (g0 : Keep q a0) : KeepX q (@execMainUndervoltage a0) := by
  unfold execMainUndervoltage
  refine keepX_next ?_
  refine keep_mainLost ?_
  assumption

theorem keep_standbyLost {a0 : State} (g0 : Keep q a0) : Keep q (@State.standbyLost a0) := by
  unfold State.standbyLost
  refine keep_ite (fun _ => ?_) (fun _ => ?_)
  · assumption
  · extract_lets +onlyGivenNames -merge -useContext -underBinder x0
    try clear_value x0
    extract_lets +onlyGivenNames -merge -useContext -underBinder x1
    have h1 : Keep q x1 := by
      unfold x1
      refine keep_resetDies ?_
      refine keep_loseMemory ?_
      assumption
    try clear_value x1
    extract_lets +onlyGivenNames -merge -useContext -underBinder x2
    have h2 : Keep q x2 := by
      unfold x2
      refine keep_onDp ?_ ?_
      · assumption
      · intro _ _
        refine keepD_mk ?_
        show KeepD _
        assumption
    try clear_value x2
    refine Keep.mk' ?_ ?_ ?_ ?_ ?_ ?_
    · assumption
    · exact fun h => h.inv.mem
    · exact fun h => h.inv.flash
    · exact fun h => ⟨fun e => absurd e Bool.false_ne_true, fun e => absurd e Bool.false_ne_true, h.inv.sec.flash, h.inv.sec.revoke, h.inv.sec.disabled⟩
    · exact fun _ e => absurd e Bool.false_ne_true
    · first | exact fun h => ⟨by decide, fun _ => rfl⟩ | exact fun h => ⟨by decide, fun e => absurd (show (0 : BitVec 2) = 3 from e) (by decide)⟩

theorem keep_execStandbyLoss {a0 : State} (g0 : Keep q a0) : KeepX q (@execStandbyLoss a0) := by
  unfold execStandbyLoss
  refine keepX_next ?_
  refine keep_standbyLost ?_
  assumption

theorem keep_execThermalAlert {a0 : BitVec 16} {a1 : BitVec 16} {a2 : State} (g2 : Keep q a2) : KeepX q (@execThermalAlert a0 a1 a2) := by
  unfold execThermalAlert
  refine keepX_next ?_
  refine Keep.mk' ?_ ?_ ?_ ?_ ?_ ?_
  · assumption
  · exact fun h => h.inv.mem
  · exact fun h => h.inv.flash
  · exact fun h => h.inv.sec
  · first | exact fun h ht => h.inv.elec ht | exact fun _ _ => rfl
  · exact fun h => h.inv.stage

theorem keep_execThermalAlertRelease {a0 : BitVec 16} {a1 : BitVec 16} {a2 : State} (g2 : Keep q a2) : KeepX q (@execThermalAlertRelease a0 a1 a2) := by
  unfold execThermalAlertRelease
  refine keepX_next ?_
  refine Keep.mk' ?_ ?_ ?_ ?_ ?_ ?_
  · assumption
  · exact fun h => h.inv.mem
  · exact fun h => h.inv.flash
  · exact fun h => h.inv.sec
  · first | exact fun h ht => h.inv.elec ht | exact fun _ _ => rfl
  · exact fun h => h.inv.stage

theorem keep_trip {a0 : State} (g0 : Keep q a0) : Keep q (@State.trip a0) := by
  unfold State.trip
  extract_lets +onlyGivenNames -merge -useContext -underBinder x0
  try clear_value x0
  extract_lets +onlyGivenNames -merge -useContext -underBinder x1
  have h1 : Keep q x1 := by
    unfold x1
    refine keep_ite (fun _ => ?_) (fun _ => ?_)
    · refine keep_conversionStops ?_
      assumption
    · assumption
  try clear_value x1
  refine Keep.mk' ?_ ?_ ?_ ?_ ?_ ?_
  · assumption
  · exact fun h => h.inv.mem
  · exact fun h => h.inv.flash
  · exact fun h => h.inv.sec
  · first | exact fun h ht => h.inv.elec ht | exact fun _ _ => rfl
  · exact fun h => h.inv.stage

theorem keep_execThermalShutdown {a0 : State} (g0 : Keep q a0) : KeepX q (@execThermalShutdown a0) := by
  unfold execThermalShutdown
  refine keepX_next ?_
  refine keep_trip ?_
  assumption

theorem keep_smbus {a0 : State} {a1 : List Byte} (g0 : Keep q a0) : Keep q (@State.smbus a0 a1) := by
  unfold State.smbus
  refine keep_ite (fun _ => ?_) (fun _ => ?_)
  · refine keep_send ?_
    assumption
  · assumption

theorem keep_execSmbusPartNumber {a0 : State} (g0 : Keep q a0) : KeepX q (@execSmbusPartNumber a0) := by
  unfold execSmbusPartNumber
  refine keepX_next ?_
  refine keep_smbus ?_
  assumption

theorem keep_execSmbusSerial {a0 : State} (g0 : Keep q a0) : KeepX q (@execSmbusSerial a0) := by
  unfold execSmbusSerial
  refine keepX_next ?_
  refine keep_smbus ?_
  assumption

theorem keep_execSmbusCoordinate {a0 : State} (g0 : Keep q a0) : KeepX q (@execSmbusCoordinate a0) := by
  unfold execSmbusCoordinate
  refine keepX_next ?_
  refine keep_smbus ?_
  assumption

theorem keep_execSmbusStatus {a0 : State} (g0 : Keep q a0) : KeepX q (@execSmbusStatus a0) := by
  unfold execSmbusStatus
  refine keepX_next ?_
  refine keep_smbus ?_
  assumption

theorem keep_execSmbusPower {a0 : State} (g0 : Keep q a0) : KeepX q (@execSmbusPower a0) := by
  unfold execSmbusPower
  refine keepX_next ?_
  refine keep_smbus ?_
  assumption

theorem keep_execSmbusDieTemp {a0 : BitVec 16} {a1 : State} (g1 : Keep q a1) : KeepX q (@execSmbusDieTemp a0 a1) := by
  unfold execSmbusDieTemp
  refine keepX_next ?_
  refine keep_smbus ?_
  assumption

theorem keep_execSmbusOutletTemp {a0 : BitVec 16} {a1 : State} (g1 : Keep q a1) : KeepX q (@execSmbusOutletTemp a0 a1) := by
  unfold execSmbusOutletTemp
  refine keepX_next ?_
  refine keep_smbus ?_
  assumption

end Sys2Proof.Laws
end

