-- ==== Sys2Proof/Laws/KeepClock.lean ====
section
/-! SUPPORT. What each operation of Machine/Clock.lean keeps: the queue and the invariant of Safety.lean, or the canonical form of memory. -/
namespace Sys2Proof.Laws
open Sys2Proof Sys2Proof.Machine
variable {q : List Instr}

theorem keep_sinceTick {a0 : State} {a1 : Nat} (g0 : Keep q a0) : Keep q (@State.sinceTick a0 a1) := by
  unfold State.sinceTick
  refine keep_ite (fun _ => ?_) (fun _ => ?_)
  · refine keep_updWdgEng ?_
    assumption
  · assumption

theorem keep_usTick {a0 : State} (g0 : Keep q a0) : Keep q (@State.usTick a0) := by
  unfold State.usTick
  refine keep_foldl ?_ ?_
  · assumption
  · intro _ _ r0
    refine keep_sinceTick ?_
    assumption

theorem keep_secTick {a0 : State} (g0 : Keep q a0) : Keep q (@State.secTick a0) := by
  unfold State.secTick
  refine keep_ite (fun _ => ?_) (fun _ => ?_)
  · refine keep_onDp ?_ ?_
    · assumption
    · intro _ _
      refine keepD_mk ?_
      show KeepD _
      assumption
  · assumption

theorem keep_retryTick {a0 : State} (g0 : Keep q a0) : Keep q (@State.retryTick a0) := by
  unfold State.retryTick
  refine keep_foldl ?_ ?_
  · assumption
  · intro _ _ r0
    split
    · refine keep_ite (fun _ => ?_) (fun _ => ?_)
      · assumption
      · refine keep_pumpQs ?_
        assumption
    · assumption

theorem keep_msTick {a0 : State} (g0 : Keep q a0) : Keep q (@State.msTick a0) := by
  unfold State.msTick
  extract_lets +onlyGivenNames -merge -useContext -underBinder x0
  extract_lets +onlyGivenNames -merge -useContext -underBinder x1
  try clear_value x1
  extract_lets +onlyGivenNames -merge -useContext -underBinder x2
  have h2 : Keep q x2 := by
    unfold x2
    refine Keep.updP ?_ rfl
    assumption
  try clear_value x2
  refine keep_retryTick ?_
  assumption

theorem keep_idleTick {a0 : State} (g0 : Keep q a0) : Keep q (@idleTick a0) := by
  unfold idleTick
  extract_lets +onlyGivenNames -merge -useContext -underBinder x0
  try clear_value x0
  extract_lets +onlyGivenNames -merge -useContext -underBinder x1
  have h1 : Keep q x1 := by
    unfold x1
    refine keep_onDp ?_ ?_
    · assumption
    · intro _ _
      refine keepD_mk ?_
      show KeepD _
      assumption
  try clear_value x1
  refine keep_ite (fun _ => ?_) (fun _ => ?_)
  · assumption
  · extract_lets +onlyGivenNames -merge -useContext -underBinder x2
    have h2 : Keep q x2 := by
      unfold x2
      refine Keep.upd ?_
      assumption
    try clear_value x2
    extract_lets +onlyGivenNames -merge -useContext -underBinder x3
    have h3 : Keep q x3 := by
      unfold x3
      refine keep_ite (fun _ => ?_) (fun _ => ?_)
      · refine keep_usTick ?_
        assumption
      · assumption
    try clear_value x3
    extract_lets +onlyGivenNames -merge -useContext -underBinder x4
    have h4 : Keep q x4 := by
      unfold x4
      refine keep_ite (fun _ => ?_) (fun _ => ?_)
      · refine keep_msTick ?_
        assumption
      · assumption
    try clear_value x4
    refine keep_ite (fun _ => ?_) (fun _ => ?_)
    · refine keep_secTick ?_
      assumption
    · assumption

end Sys2Proof.Laws
end

