-- ==== Sys2Proof/Laws/State.lean ====
section
/-! SUPPORT. What each update of one part of the state leaves in every part: one lemma per update and field, all by definition. -/
namespace Sys2Proof.Machine
variable (s : State)

/-! ### Updates of the whole state -/

@[simp] theorem State.onDp_pending (f : Dp → Dp) : (s.onDp f).pending = s.pending := rfl
@[simp] theorem State.onDp_dp (f : Dp → Dp) : (s.onDp f).dp = f s.dp := rfl
@[simp] theorem State.onDp_clk (f : Dp → Dp) : (s.onDp f).clk = s.clk := rfl
@[simp] theorem State.onDp_emap (f : Dp → Dp) : (s.onDp f).emap = s.emap := rfl
@[simp] theorem State.onDp_eqs (f : Dp → Dp) : (s.onDp f).eqs = s.eqs := rfl
@[simp] theorem State.onDp_arrays (f : Dp → Dp) : (s.onDp f).arrays = s.arrays := rfl
@[simp] theorem State.onDp_trellises (f : Dp → Dp) : (s.onDp f).trellises = s.trellises := rfl
@[simp] theorem State.onDp_cqs (f : Dp → Dp) : (s.onDp f).cqs = s.cqs := rfl
@[simp] theorem State.onDp_lnk (f : Dp → Dp) : (s.onDp f).lnk = s.lnk := rfl
@[simp] theorem State.onDp_shares (f : Dp → Dp) : (s.onDp f).shares = s.shares := rfl
@[simp] theorem State.onDp_portRun (f : Dp → Dp) : (s.onDp f).portRun = s.portRun := rfl
@[simp] theorem State.onDp_win (f : Dp → Dp) : (s.onDp f).win = s.win := rfl
@[simp] theorem State.onDp_pcts (f : Dp → Dp) : (s.onDp f).pcts = s.pcts := rfl
@[simp] theorem State.onDp_wear (f : Dp → Dp) : (s.onDp f).wear = s.wear := rfl
@[simp] theorem State.onDp_jobs (f : Dp → Dp) : (s.onDp f).jobs = s.jobs := rfl
@[simp] theorem State.onDp_stage (f : Dp → Dp) : (s.onDp f).stage = s.stage := rfl
@[simp] theorem State.onDp_mgrs (f : Dp → Dp) : (s.onDp f).mgrs = s.mgrs := rfl
@[simp] theorem State.onDp_roles (f : Dp → Dp) : (s.onDp f).roles = s.roles := rfl
@[simp] theorem State.onDp_integ (f : Dp → Dp) : (s.onDp f).integ = s.integ := rfl
@[simp] theorem State.onDp_wdg (f : Dp → Dp) : (s.onDp f).wdg = s.wdg := rfl
@[simp] theorem State.onDp_pwr (f : Dp → Dp) : (s.onDp f).pwr = s.pwr := rfl
@[simp] theorem State.onDp_mbx (f : Dp → Dp) : (s.onDp f).mbx = s.mbx := rfl
@[simp] theorem State.onDp_flash (f : Dp → Dp) : (s.onDp f).flash = s.flash := rfl
@[simp] theorem State.onDp_sec (f : Dp → Dp) : (s.onDp f).sec = s.sec := rfl
@[simp] theorem State.onDp_elec (f : Dp → Dp) : (s.onDp f).elec = s.elec := rfl
@[simp] theorem State.onDp_fw (f : Dp → Dp) : (s.onDp f).fw = s.fw := rfl
@[simp] theorem State.onDp_ckps (f : Dp → Dp) : (s.onDp f).ckps = s.ckps := rfl

@[simp] theorem State.onEvr_pending (f : Evr → Evr) : (s.onEvr f).pending = s.pending := rfl
@[simp] theorem State.onEvr_dp (f : Evr → Evr) : (s.onEvr f).dp = { s.dp with evr := f s.dp.evr } := rfl
@[simp] theorem State.onEvr_clk (f : Evr → Evr) : (s.onEvr f).clk = s.clk := rfl
@[simp] theorem State.onEvr_emap (f : Evr → Evr) : (s.onEvr f).emap = s.emap := rfl
@[simp] theorem State.onEvr_eqs (f : Evr → Evr) : (s.onEvr f).eqs = s.eqs := rfl
@[simp] theorem State.onEvr_arrays (f : Evr → Evr) : (s.onEvr f).arrays = s.arrays := rfl
@[simp] theorem State.onEvr_trellises (f : Evr → Evr) : (s.onEvr f).trellises = s.trellises := rfl
@[simp] theorem State.onEvr_cqs (f : Evr → Evr) : (s.onEvr f).cqs = s.cqs := rfl
@[simp] theorem State.onEvr_lnk (f : Evr → Evr) : (s.onEvr f).lnk = s.lnk := rfl
@[simp] theorem State.onEvr_shares (f : Evr → Evr) : (s.onEvr f).shares = s.shares := rfl
@[simp] theorem State.onEvr_portRun (f : Evr → Evr) : (s.onEvr f).portRun = s.portRun := rfl
@[simp] theorem State.onEvr_win (f : Evr → Evr) : (s.onEvr f).win = s.win := rfl
@[simp] theorem State.onEvr_pcts (f : Evr → Evr) : (s.onEvr f).pcts = s.pcts := rfl
@[simp] theorem State.onEvr_wear (f : Evr → Evr) : (s.onEvr f).wear = s.wear := rfl
@[simp] theorem State.onEvr_jobs (f : Evr → Evr) : (s.onEvr f).jobs = s.jobs := rfl
@[simp] theorem State.onEvr_stage (f : Evr → Evr) : (s.onEvr f).stage = s.stage := rfl
@[simp] theorem State.onEvr_mgrs (f : Evr → Evr) : (s.onEvr f).mgrs = s.mgrs := rfl
@[simp] theorem State.onEvr_roles (f : Evr → Evr) : (s.onEvr f).roles = s.roles := rfl
@[simp] theorem State.onEvr_integ (f : Evr → Evr) : (s.onEvr f).integ = s.integ := rfl
@[simp] theorem State.onEvr_wdg (f : Evr → Evr) : (s.onEvr f).wdg = s.wdg := rfl
@[simp] theorem State.onEvr_pwr (f : Evr → Evr) : (s.onEvr f).pwr = s.pwr := rfl
@[simp] theorem State.onEvr_mbx (f : Evr → Evr) : (s.onEvr f).mbx = s.mbx := rfl
@[simp] theorem State.onEvr_flash (f : Evr → Evr) : (s.onEvr f).flash = s.flash := rfl
@[simp] theorem State.onEvr_sec (f : Evr → Evr) : (s.onEvr f).sec = s.sec := rfl
@[simp] theorem State.onEvr_elec (f : Evr → Evr) : (s.onEvr f).elec = s.elec := rfl
@[simp] theorem State.onEvr_fw (f : Evr → Evr) : (s.onEvr f).fw = s.fw := rfl
@[simp] theorem State.onEvr_ckps (f : Evr → Evr) : (s.onEvr f).ckps = s.ckps := rfl

@[simp] theorem State.send_pending (m : OutMsg) : (s.send m).pending = s.pending := rfl
@[simp] theorem State.send_dp (m : OutMsg) : (s.send m).dp = s.dp.send m := rfl
@[simp] theorem State.send_clk (m : OutMsg) : (s.send m).clk = s.clk := rfl
@[simp] theorem State.send_emap (m : OutMsg) : (s.send m).emap = s.emap := rfl
@[simp] theorem State.send_eqs (m : OutMsg) : (s.send m).eqs = s.eqs := rfl
@[simp] theorem State.send_arrays (m : OutMsg) : (s.send m).arrays = s.arrays := rfl
@[simp] theorem State.send_trellises (m : OutMsg) : (s.send m).trellises = s.trellises := rfl
@[simp] theorem State.send_cqs (m : OutMsg) : (s.send m).cqs = s.cqs := rfl
@[simp] theorem State.send_lnk (m : OutMsg) : (s.send m).lnk = s.lnk := rfl
@[simp] theorem State.send_shares (m : OutMsg) : (s.send m).shares = s.shares := rfl
@[simp] theorem State.send_portRun (m : OutMsg) : (s.send m).portRun = s.portRun := rfl
@[simp] theorem State.send_win (m : OutMsg) : (s.send m).win = s.win := rfl
@[simp] theorem State.send_pcts (m : OutMsg) : (s.send m).pcts = s.pcts := rfl
@[simp] theorem State.send_wear (m : OutMsg) : (s.send m).wear = s.wear := rfl
@[simp] theorem State.send_jobs (m : OutMsg) : (s.send m).jobs = s.jobs := rfl
@[simp] theorem State.send_stage (m : OutMsg) : (s.send m).stage = s.stage := rfl
@[simp] theorem State.send_mgrs (m : OutMsg) : (s.send m).mgrs = s.mgrs := rfl
@[simp] theorem State.send_roles (m : OutMsg) : (s.send m).roles = s.roles := rfl
@[simp] theorem State.send_integ (m : OutMsg) : (s.send m).integ = s.integ := rfl
@[simp] theorem State.send_wdg (m : OutMsg) : (s.send m).wdg = s.wdg := rfl
@[simp] theorem State.send_pwr (m : OutMsg) : (s.send m).pwr = s.pwr := rfl
@[simp] theorem State.send_mbx (m : OutMsg) : (s.send m).mbx = s.mbx := rfl
@[simp] theorem State.send_flash (m : OutMsg) : (s.send m).flash = s.flash := rfl
@[simp] theorem State.send_sec (m : OutMsg) : (s.send m).sec = s.sec := rfl
@[simp] theorem State.send_elec (m : OutMsg) : (s.send m).elec = s.elec := rfl
@[simp] theorem State.send_fw (m : OutMsg) : (s.send m).fw = s.fw := rfl
@[simp] theorem State.send_ckps (m : OutMsg) : (s.send m).ckps = s.ckps := rfl

@[simp] theorem State.mgmt_pending (m : Mgmt) (c : BitVec 17) (v : BitVec 64) : (s.mgmt m c v).pending = s.pending := rfl
@[simp] theorem State.mgmt_dp (m : Mgmt) (c : BitVec 17) (v : BitVec 64) : (s.mgmt m c v).dp = s.dp.send (.mgmt m c v) := rfl
@[simp] theorem State.mgmt_clk (m : Mgmt) (c : BitVec 17) (v : BitVec 64) : (s.mgmt m c v).clk = s.clk := rfl
@[simp] theorem State.mgmt_emap (m : Mgmt) (c : BitVec 17) (v : BitVec 64) : (s.mgmt m c v).emap = s.emap := rfl
@[simp] theorem State.mgmt_eqs (m : Mgmt) (c : BitVec 17) (v : BitVec 64) : (s.mgmt m c v).eqs = s.eqs := rfl
@[simp] theorem State.mgmt_arrays (m : Mgmt) (c : BitVec 17) (v : BitVec 64) : (s.mgmt m c v).arrays = s.arrays := rfl
@[simp] theorem State.mgmt_trellises (m : Mgmt) (c : BitVec 17) (v : BitVec 64) : (s.mgmt m c v).trellises = s.trellises := rfl
@[simp] theorem State.mgmt_cqs (m : Mgmt) (c : BitVec 17) (v : BitVec 64) : (s.mgmt m c v).cqs = s.cqs := rfl
@[simp] theorem State.mgmt_lnk (m : Mgmt) (c : BitVec 17) (v : BitVec 64) : (s.mgmt m c v).lnk = s.lnk := rfl
@[simp] theorem State.mgmt_shares (m : Mgmt) (c : BitVec 17) (v : BitVec 64) : (s.mgmt m c v).shares = s.shares := rfl
@[simp] theorem State.mgmt_portRun (m : Mgmt) (c : BitVec 17) (v : BitVec 64) : (s.mgmt m c v).portRun = s.portRun := rfl
@[simp] theorem State.mgmt_win (m : Mgmt) (c : BitVec 17) (v : BitVec 64) : (s.mgmt m c v).win = s.win := rfl
@[simp] theorem State.mgmt_pcts (m : Mgmt) (c : BitVec 17) (v : BitVec 64) : (s.mgmt m c v).pcts = s.pcts := rfl
@[simp] theorem State.mgmt_wear (m : Mgmt) (c : BitVec 17) (v : BitVec 64) : (s.mgmt m c v).wear = s.wear := rfl
@[simp] theorem State.mgmt_jobs (m : Mgmt) (c : BitVec 17) (v : BitVec 64) : (s.mgmt m c v).jobs = s.jobs := rfl
@[simp] theorem State.mgmt_stage (m : Mgmt) (c : BitVec 17) (v : BitVec 64) : (s.mgmt m c v).stage = s.stage := rfl
@[simp] theorem State.mgmt_mgrs (m : Mgmt) (c : BitVec 17) (v : BitVec 64) : (s.mgmt m c v).mgrs = s.mgrs := rfl
@[simp] theorem State.mgmt_roles (m : Mgmt) (c : BitVec 17) (v : BitVec 64) : (s.mgmt m c v).roles = s.roles := rfl
@[simp] theorem State.mgmt_integ (m : Mgmt) (c : BitVec 17) (v : BitVec 64) : (s.mgmt m c v).integ = s.integ := rfl
@[simp] theorem State.mgmt_wdg (m : Mgmt) (c : BitVec 17) (v : BitVec 64) : (s.mgmt m c v).wdg = s.wdg := rfl
@[simp] theorem State.mgmt_pwr (m : Mgmt) (c : BitVec 17) (v : BitVec 64) : (s.mgmt m c v).pwr = s.pwr := rfl
@[simp] theorem State.mgmt_mbx (m : Mgmt) (c : BitVec 17) (v : BitVec 64) : (s.mgmt m c v).mbx = s.mbx := rfl
@[simp] theorem State.mgmt_flash (m : Mgmt) (c : BitVec 17) (v : BitVec 64) : (s.mgmt m c v).flash = s.flash := rfl
@[simp] theorem State.mgmt_sec (m : Mgmt) (c : BitVec 17) (v : BitVec 64) : (s.mgmt m c v).sec = s.sec := rfl
@[simp] theorem State.mgmt_elec (m : Mgmt) (c : BitVec 17) (v : BitVec 64) : (s.mgmt m c v).elec = s.elec := rfl
@[simp] theorem State.mgmt_fw (m : Mgmt) (c : BitVec 17) (v : BitVec 64) : (s.mgmt m c v).fw = s.fw := rfl
@[simp] theorem State.mgmt_ckps (m : Mgmt) (c : BitVec 17) (v : BitVec 64) : (s.mgmt m c v).ckps = s.ckps := rfl

@[simp] theorem State.quickset_pending (w : TreeTo) (o : Nat) (l : List Byte) : (s.quickset w o l).pending = s.pending := rfl
@[simp] theorem State.quickset_dp (w : TreeTo) (o : Nat) (l : List Byte) : (s.quickset w o l).dp = s.dp.send (.quickset w o l) := rfl
@[simp] theorem State.quickset_clk (w : TreeTo) (o : Nat) (l : List Byte) : (s.quickset w o l).clk = s.clk := rfl
@[simp] theorem State.quickset_emap (w : TreeTo) (o : Nat) (l : List Byte) : (s.quickset w o l).emap = s.emap := rfl
@[simp] theorem State.quickset_eqs (w : TreeTo) (o : Nat) (l : List Byte) : (s.quickset w o l).eqs = s.eqs := rfl
@[simp] theorem State.quickset_arrays (w : TreeTo) (o : Nat) (l : List Byte) : (s.quickset w o l).arrays = s.arrays := rfl
@[simp] theorem State.quickset_trellises (w : TreeTo) (o : Nat) (l : List Byte) : (s.quickset w o l).trellises = s.trellises := rfl
@[simp] theorem State.quickset_cqs (w : TreeTo) (o : Nat) (l : List Byte) : (s.quickset w o l).cqs = s.cqs := rfl
@[simp] theorem State.quickset_lnk (w : TreeTo) (o : Nat) (l : List Byte) : (s.quickset w o l).lnk = s.lnk := rfl
@[simp] theorem State.quickset_shares (w : TreeTo) (o : Nat) (l : List Byte) : (s.quickset w o l).shares = s.shares := rfl
@[simp] theorem State.quickset_portRun (w : TreeTo) (o : Nat) (l : List Byte) : (s.quickset w o l).portRun = s.portRun := rfl
@[simp] theorem State.quickset_win (w : TreeTo) (o : Nat) (l : List Byte) : (s.quickset w o l).win = s.win := rfl
@[simp] theorem State.quickset_pcts (w : TreeTo) (o : Nat) (l : List Byte) : (s.quickset w o l).pcts = s.pcts := rfl
@[simp] theorem State.quickset_wear (w : TreeTo) (o : Nat) (l : List Byte) : (s.quickset w o l).wear = s.wear := rfl
@[simp] theorem State.quickset_jobs (w : TreeTo) (o : Nat) (l : List Byte) : (s.quickset w o l).jobs = s.jobs := rfl
@[simp] theorem State.quickset_stage (w : TreeTo) (o : Nat) (l : List Byte) : (s.quickset w o l).stage = s.stage := rfl
@[simp] theorem State.quickset_mgrs (w : TreeTo) (o : Nat) (l : List Byte) : (s.quickset w o l).mgrs = s.mgrs := rfl
@[simp] theorem State.quickset_roles (w : TreeTo) (o : Nat) (l : List Byte) : (s.quickset w o l).roles = s.roles := rfl
@[simp] theorem State.quickset_integ (w : TreeTo) (o : Nat) (l : List Byte) : (s.quickset w o l).integ = s.integ := rfl
@[simp] theorem State.quickset_wdg (w : TreeTo) (o : Nat) (l : List Byte) : (s.quickset w o l).wdg = s.wdg := rfl
@[simp] theorem State.quickset_pwr (w : TreeTo) (o : Nat) (l : List Byte) : (s.quickset w o l).pwr = s.pwr := rfl
@[simp] theorem State.quickset_mbx (w : TreeTo) (o : Nat) (l : List Byte) : (s.quickset w o l).mbx = s.mbx := rfl
@[simp] theorem State.quickset_flash (w : TreeTo) (o : Nat) (l : List Byte) : (s.quickset w o l).flash = s.flash := rfl
@[simp] theorem State.quickset_sec (w : TreeTo) (o : Nat) (l : List Byte) : (s.quickset w o l).sec = s.sec := rfl
@[simp] theorem State.quickset_elec (w : TreeTo) (o : Nat) (l : List Byte) : (s.quickset w o l).elec = s.elec := rfl
@[simp] theorem State.quickset_fw (w : TreeTo) (o : Nat) (l : List Byte) : (s.quickset w o l).fw = s.fw := rfl
@[simp] theorem State.quickset_ckps (w : TreeTo) (o : Nat) (l : List Byte) : (s.quickset w o l).ckps = s.ckps := rfl

@[simp] theorem State.record_pending (ty : Nat) (so : BitVec 16) (st : Status) (l : List Byte) : (s.record ty so st l).pending = s.pending := rfl
@[simp] theorem State.record_dp (ty : Nat) (so : BitVec 16) (st : Status) (l : List Byte) : (s.record ty so st l).dp = s.dp.record ty so st l := rfl
@[simp] theorem State.record_clk (ty : Nat) (so : BitVec 16) (st : Status) (l : List Byte) : (s.record ty so st l).clk = s.clk := rfl
@[simp] theorem State.record_emap (ty : Nat) (so : BitVec 16) (st : Status) (l : List Byte) : (s.record ty so st l).emap = s.emap := rfl
@[simp] theorem State.record_eqs (ty : Nat) (so : BitVec 16) (st : Status) (l : List Byte) : (s.record ty so st l).eqs = s.eqs := rfl
@[simp] theorem State.record_arrays (ty : Nat) (so : BitVec 16) (st : Status) (l : List Byte) : (s.record ty so st l).arrays = s.arrays := rfl
@[simp] theorem State.record_trellises (ty : Nat) (so : BitVec 16) (st : Status) (l : List Byte) : (s.record ty so st l).trellises = s.trellises := rfl
@[simp] theorem State.record_cqs (ty : Nat) (so : BitVec 16) (st : Status) (l : List Byte) : (s.record ty so st l).cqs = s.cqs := rfl
@[simp] theorem State.record_lnk (ty : Nat) (so : BitVec 16) (st : Status) (l : List Byte) : (s.record ty so st l).lnk = s.lnk := rfl
@[simp] theorem State.record_shares (ty : Nat) (so : BitVec 16) (st : Status) (l : List Byte) : (s.record ty so st l).shares = s.shares := rfl
@[simp] theorem State.record_portRun (ty : Nat) (so : BitVec 16) (st : Status) (l : List Byte) : (s.record ty so st l).portRun = s.portRun := rfl
@[simp] theorem State.record_win (ty : Nat) (so : BitVec 16) (st : Status) (l : List Byte) : (s.record ty so st l).win = s.win := rfl
@[simp] theorem State.record_pcts (ty : Nat) (so : BitVec 16) (st : Status) (l : List Byte) : (s.record ty so st l).pcts = s.pcts := rfl
@[simp] theorem State.record_wear (ty : Nat) (so : BitVec 16) (st : Status) (l : List Byte) : (s.record ty so st l).wear = s.wear := rfl
@[simp] theorem State.record_jobs (ty : Nat) (so : BitVec 16) (st : Status) (l : List Byte) : (s.record ty so st l).jobs = s.jobs := rfl
@[simp] theorem State.record_stage (ty : Nat) (so : BitVec 16) (st : Status) (l : List Byte) : (s.record ty so st l).stage = s.stage := rfl
@[simp] theorem State.record_mgrs (ty : Nat) (so : BitVec 16) (st : Status) (l : List Byte) : (s.record ty so st l).mgrs = s.mgrs := rfl
@[simp] theorem State.record_roles (ty : Nat) (so : BitVec 16) (st : Status) (l : List Byte) : (s.record ty so st l).roles = s.roles := rfl
@[simp] theorem State.record_integ (ty : Nat) (so : BitVec 16) (st : Status) (l : List Byte) : (s.record ty so st l).integ = s.integ := rfl
@[simp] theorem State.record_wdg (ty : Nat) (so : BitVec 16) (st : Status) (l : List Byte) : (s.record ty so st l).wdg = s.wdg := rfl
@[simp] theorem State.record_pwr (ty : Nat) (so : BitVec 16) (st : Status) (l : List Byte) : (s.record ty so st l).pwr = s.pwr := rfl
@[simp] theorem State.record_mbx (ty : Nat) (so : BitVec 16) (st : Status) (l : List Byte) : (s.record ty so st l).mbx = s.mbx := rfl
@[simp] theorem State.record_flash (ty : Nat) (so : BitVec 16) (st : Status) (l : List Byte) : (s.record ty so st l).flash = s.flash := rfl
@[simp] theorem State.record_sec (ty : Nat) (so : BitVec 16) (st : Status) (l : List Byte) : (s.record ty so st l).sec = s.sec := rfl
@[simp] theorem State.record_elec (ty : Nat) (so : BitVec 16) (st : Status) (l : List Byte) : (s.record ty so st l).elec = s.elec := rfl
@[simp] theorem State.record_fw (ty : Nat) (so : BitVec 16) (st : Status) (l : List Byte) : (s.record ty so st l).fw = s.fw := rfl
@[simp] theorem State.record_ckps (ty : Nat) (so : BitVec 16) (st : Status) (l : List Byte) : (s.record ty so st l).ckps = s.ckps := rfl

@[simp] theorem State.raise_pending (p : Port) (v : Nat) : (s.raise p v).pending = s.pending := rfl
@[simp] theorem State.raise_dp (p : Port) (v : Nat) : (s.raise p v).dp = s.dp.raise p v := rfl
@[simp] theorem State.raise_clk (p : Port) (v : Nat) : (s.raise p v).clk = s.clk := rfl
@[simp] theorem State.raise_emap (p : Port) (v : Nat) : (s.raise p v).emap = s.emap := rfl
@[simp] theorem State.raise_eqs (p : Port) (v : Nat) : (s.raise p v).eqs = s.eqs := rfl
@[simp] theorem State.raise_arrays (p : Port) (v : Nat) : (s.raise p v).arrays = s.arrays := rfl
@[simp] theorem State.raise_trellises (p : Port) (v : Nat) : (s.raise p v).trellises = s.trellises := rfl
@[simp] theorem State.raise_cqs (p : Port) (v : Nat) : (s.raise p v).cqs = s.cqs := rfl
@[simp] theorem State.raise_lnk (p : Port) (v : Nat) : (s.raise p v).lnk = s.lnk := rfl
@[simp] theorem State.raise_shares (p : Port) (v : Nat) : (s.raise p v).shares = s.shares := rfl
@[simp] theorem State.raise_portRun (p : Port) (v : Nat) : (s.raise p v).portRun = s.portRun := rfl
@[simp] theorem State.raise_win (p : Port) (v : Nat) : (s.raise p v).win = s.win := rfl
@[simp] theorem State.raise_pcts (p : Port) (v : Nat) : (s.raise p v).pcts = s.pcts := rfl
@[simp] theorem State.raise_wear (p : Port) (v : Nat) : (s.raise p v).wear = s.wear := rfl
@[simp] theorem State.raise_jobs (p : Port) (v : Nat) : (s.raise p v).jobs = s.jobs := rfl
@[simp] theorem State.raise_stage (p : Port) (v : Nat) : (s.raise p v).stage = s.stage := rfl
@[simp] theorem State.raise_mgrs (p : Port) (v : Nat) : (s.raise p v).mgrs = s.mgrs := rfl
@[simp] theorem State.raise_roles (p : Port) (v : Nat) : (s.raise p v).roles = s.roles := rfl
@[simp] theorem State.raise_integ (p : Port) (v : Nat) : (s.raise p v).integ = s.integ := rfl
@[simp] theorem State.raise_wdg (p : Port) (v : Nat) : (s.raise p v).wdg = s.wdg := rfl
@[simp] theorem State.raise_pwr (p : Port) (v : Nat) : (s.raise p v).pwr = s.pwr := rfl
@[simp] theorem State.raise_mbx (p : Port) (v : Nat) : (s.raise p v).mbx = s.mbx := rfl
@[simp] theorem State.raise_flash (p : Port) (v : Nat) : (s.raise p v).flash = s.flash := rfl
@[simp] theorem State.raise_sec (p : Port) (v : Nat) : (s.raise p v).sec = s.sec := rfl
@[simp] theorem State.raise_elec (p : Port) (v : Nat) : (s.raise p v).elec = s.elec := rfl
@[simp] theorem State.raise_fw (p : Port) (v : Nat) : (s.raise p v).fw = s.fw := rfl
@[simp] theorem State.raise_ckps (p : Port) (v : Nat) : (s.raise p v).ckps = s.ckps := rfl

@[simp] theorem State.updWet_pending (k : Nat) (f : WetPart → WetPart) : (s.updWet k f).pending = s.pending := rfl
@[simp] theorem State.updWet_dp (k : Nat) (f : WetPart → WetPart) : (s.updWet k f).dp = s.dp.updWet k f := rfl
@[simp] theorem State.updWet_clk (k : Nat) (f : WetPart → WetPart) : (s.updWet k f).clk = s.clk := rfl
@[simp] theorem State.updWet_emap (k : Nat) (f : WetPart → WetPart) : (s.updWet k f).emap = s.emap := rfl
@[simp] theorem State.updWet_eqs (k : Nat) (f : WetPart → WetPart) : (s.updWet k f).eqs = s.eqs := rfl
@[simp] theorem State.updWet_arrays (k : Nat) (f : WetPart → WetPart) : (s.updWet k f).arrays = s.arrays := rfl
@[simp] theorem State.updWet_trellises (k : Nat) (f : WetPart → WetPart) : (s.updWet k f).trellises = s.trellises := rfl
@[simp] theorem State.updWet_cqs (k : Nat) (f : WetPart → WetPart) : (s.updWet k f).cqs = s.cqs := rfl
@[simp] theorem State.updWet_lnk (k : Nat) (f : WetPart → WetPart) : (s.updWet k f).lnk = s.lnk := rfl
@[simp] theorem State.updWet_shares (k : Nat) (f : WetPart → WetPart) : (s.updWet k f).shares = s.shares := rfl
@[simp] theorem State.updWet_portRun (k : Nat) (f : WetPart → WetPart) : (s.updWet k f).portRun = s.portRun := rfl
@[simp] theorem State.updWet_win (k : Nat) (f : WetPart → WetPart) : (s.updWet k f).win = s.win := rfl
@[simp] theorem State.updWet_pcts (k : Nat) (f : WetPart → WetPart) : (s.updWet k f).pcts = s.pcts := rfl
@[simp] theorem State.updWet_wear (k : Nat) (f : WetPart → WetPart) : (s.updWet k f).wear = s.wear := rfl
@[simp] theorem State.updWet_jobs (k : Nat) (f : WetPart → WetPart) : (s.updWet k f).jobs = s.jobs := rfl
@[simp] theorem State.updWet_stage (k : Nat) (f : WetPart → WetPart) : (s.updWet k f).stage = s.stage := rfl
@[simp] theorem State.updWet_mgrs (k : Nat) (f : WetPart → WetPart) : (s.updWet k f).mgrs = s.mgrs := rfl
@[simp] theorem State.updWet_roles (k : Nat) (f : WetPart → WetPart) : (s.updWet k f).roles = s.roles := rfl
@[simp] theorem State.updWet_integ (k : Nat) (f : WetPart → WetPart) : (s.updWet k f).integ = s.integ := rfl
@[simp] theorem State.updWet_wdg (k : Nat) (f : WetPart → WetPart) : (s.updWet k f).wdg = s.wdg := rfl
@[simp] theorem State.updWet_pwr (k : Nat) (f : WetPart → WetPart) : (s.updWet k f).pwr = s.pwr := rfl
@[simp] theorem State.updWet_mbx (k : Nat) (f : WetPart → WetPart) : (s.updWet k f).mbx = s.mbx := rfl
@[simp] theorem State.updWet_flash (k : Nat) (f : WetPart → WetPart) : (s.updWet k f).flash = s.flash := rfl
@[simp] theorem State.updWet_sec (k : Nat) (f : WetPart → WetPart) : (s.updWet k f).sec = s.sec := rfl
@[simp] theorem State.updWet_elec (k : Nat) (f : WetPart → WetPart) : (s.updWet k f).elec = s.elec := rfl
@[simp] theorem State.updWet_fw (k : Nat) (f : WetPart → WetPart) : (s.updWet k f).fw = s.fw := rfl
@[simp] theorem State.updWet_ckps (k : Nat) (f : WetPart → WetPart) : (s.updWet k f).ckps = s.ckps := rfl

@[simp] theorem State.updLink_pending (n : Nat) (f : LinkSt → LinkSt) : (s.updLink n f).pending = s.pending := rfl
@[simp] theorem State.updLink_dp (n : Nat) (f : LinkSt → LinkSt) : (s.updLink n f).dp = s.dp := rfl
@[simp] theorem State.updLink_clk (n : Nat) (f : LinkSt → LinkSt) : (s.updLink n f).clk = s.clk := rfl
@[simp] theorem State.updLink_emap (n : Nat) (f : LinkSt → LinkSt) : (s.updLink n f).emap = s.emap := rfl
@[simp] theorem State.updLink_eqs (n : Nat) (f : LinkSt → LinkSt) : (s.updLink n f).eqs = s.eqs := rfl
@[simp] theorem State.updLink_arrays (n : Nat) (f : LinkSt → LinkSt) : (s.updLink n f).arrays = s.arrays := rfl
@[simp] theorem State.updLink_trellises (n : Nat) (f : LinkSt → LinkSt) : (s.updLink n f).trellises = s.trellises := rfl
@[simp] theorem State.updLink_cqs (n : Nat) (f : LinkSt → LinkSt) : (s.updLink n f).cqs = s.cqs := rfl
@[simp] theorem State.updLink_lnk (n : Nat) (f : LinkSt → LinkSt) : (s.updLink n f).lnk = { s.lnk with links := Sparse.upd {} s.lnk.links n f } := rfl
@[simp] theorem State.updLink_shares (n : Nat) (f : LinkSt → LinkSt) : (s.updLink n f).shares = s.shares := rfl
@[simp] theorem State.updLink_portRun (n : Nat) (f : LinkSt → LinkSt) : (s.updLink n f).portRun = s.portRun := rfl
@[simp] theorem State.updLink_win (n : Nat) (f : LinkSt → LinkSt) : (s.updLink n f).win = s.win := rfl
@[simp] theorem State.updLink_pcts (n : Nat) (f : LinkSt → LinkSt) : (s.updLink n f).pcts = s.pcts := rfl
@[simp] theorem State.updLink_wear (n : Nat) (f : LinkSt → LinkSt) : (s.updLink n f).wear = s.wear := rfl
@[simp] theorem State.updLink_jobs (n : Nat) (f : LinkSt → LinkSt) : (s.updLink n f).jobs = s.jobs := rfl
@[simp] theorem State.updLink_stage (n : Nat) (f : LinkSt → LinkSt) : (s.updLink n f).stage = s.stage := rfl
@[simp] theorem State.updLink_mgrs (n : Nat) (f : LinkSt → LinkSt) : (s.updLink n f).mgrs = s.mgrs := rfl
@[simp] theorem State.updLink_roles (n : Nat) (f : LinkSt → LinkSt) : (s.updLink n f).roles = s.roles := rfl
@[simp] theorem State.updLink_integ (n : Nat) (f : LinkSt → LinkSt) : (s.updLink n f).integ = s.integ := rfl
@[simp] theorem State.updLink_wdg (n : Nat) (f : LinkSt → LinkSt) : (s.updLink n f).wdg = s.wdg := rfl
@[simp] theorem State.updLink_pwr (n : Nat) (f : LinkSt → LinkSt) : (s.updLink n f).pwr = s.pwr := rfl
@[simp] theorem State.updLink_mbx (n : Nat) (f : LinkSt → LinkSt) : (s.updLink n f).mbx = s.mbx := rfl
@[simp] theorem State.updLink_flash (n : Nat) (f : LinkSt → LinkSt) : (s.updLink n f).flash = s.flash := rfl
@[simp] theorem State.updLink_sec (n : Nat) (f : LinkSt → LinkSt) : (s.updLink n f).sec = s.sec := rfl
@[simp] theorem State.updLink_elec (n : Nat) (f : LinkSt → LinkSt) : (s.updLink n f).elec = s.elec := rfl
@[simp] theorem State.updLink_fw (n : Nat) (f : LinkSt → LinkSt) : (s.updLink n f).fw = s.fw := rfl
@[simp] theorem State.updLink_ckps (n : Nat) (f : LinkSt → LinkSt) : (s.updLink n f).ckps = s.ckps := rfl

@[simp] theorem State.updJob_pending (k : Nat) (f : Job → Job) : (s.updJob k f).pending = s.pending := rfl
@[simp] theorem State.updJob_dp (k : Nat) (f : Job → Job) : (s.updJob k f).dp = s.dp := rfl
@[simp] theorem State.updJob_clk (k : Nat) (f : Job → Job) : (s.updJob k f).clk = s.clk := rfl
@[simp] theorem State.updJob_emap (k : Nat) (f : Job → Job) : (s.updJob k f).emap = s.emap := rfl
@[simp] theorem State.updJob_eqs (k : Nat) (f : Job → Job) : (s.updJob k f).eqs = s.eqs := rfl
@[simp] theorem State.updJob_arrays (k : Nat) (f : Job → Job) : (s.updJob k f).arrays = s.arrays := rfl
@[simp] theorem State.updJob_trellises (k : Nat) (f : Job → Job) : (s.updJob k f).trellises = s.trellises := rfl
@[simp] theorem State.updJob_cqs (k : Nat) (f : Job → Job) : (s.updJob k f).cqs = s.cqs := rfl
@[simp] theorem State.updJob_lnk (k : Nat) (f : Job → Job) : (s.updJob k f).lnk = s.lnk := rfl
@[simp] theorem State.updJob_shares (k : Nat) (f : Job → Job) : (s.updJob k f).shares = s.shares := rfl
@[simp] theorem State.updJob_portRun (k : Nat) (f : Job → Job) : (s.updJob k f).portRun = s.portRun := rfl
@[simp] theorem State.updJob_win (k : Nat) (f : Job → Job) : (s.updJob k f).win = s.win := rfl
@[simp] theorem State.updJob_pcts (k : Nat) (f : Job → Job) : (s.updJob k f).pcts = s.pcts := rfl
@[simp] theorem State.updJob_wear (k : Nat) (f : Job → Job) : (s.updJob k f).wear = s.wear := rfl
@[simp] theorem State.updJob_jobs (k : Nat) (f : Job → Job) : (s.updJob k f).jobs = Sparse.upd {} s.jobs k f := rfl
@[simp] theorem State.updJob_stage (k : Nat) (f : Job → Job) : (s.updJob k f).stage = s.stage := rfl
@[simp] theorem State.updJob_mgrs (k : Nat) (f : Job → Job) : (s.updJob k f).mgrs = s.mgrs := rfl
@[simp] theorem State.updJob_roles (k : Nat) (f : Job → Job) : (s.updJob k f).roles = s.roles := rfl
@[simp] theorem State.updJob_integ (k : Nat) (f : Job → Job) : (s.updJob k f).integ = s.integ := rfl
@[simp] theorem State.updJob_wdg (k : Nat) (f : Job → Job) : (s.updJob k f).wdg = s.wdg := rfl
@[simp] theorem State.updJob_pwr (k : Nat) (f : Job → Job) : (s.updJob k f).pwr = s.pwr := rfl
@[simp] theorem State.updJob_mbx (k : Nat) (f : Job → Job) : (s.updJob k f).mbx = s.mbx := rfl
@[simp] theorem State.updJob_flash (k : Nat) (f : Job → Job) : (s.updJob k f).flash = s.flash := rfl
@[simp] theorem State.updJob_sec (k : Nat) (f : Job → Job) : (s.updJob k f).sec = s.sec := rfl
@[simp] theorem State.updJob_elec (k : Nat) (f : Job → Job) : (s.updJob k f).elec = s.elec := rfl
@[simp] theorem State.updJob_fw (k : Nat) (f : Job → Job) : (s.updJob k f).fw = s.fw := rfl
@[simp] theorem State.updJob_ckps (k : Nat) (f : Job → Job) : (s.updJob k f).ckps = s.ckps := rfl

@[simp] theorem State.updShare_pending (n c : Nat) (f : Share → Share) : (s.updShare n c f).pending = s.pending := rfl
@[simp] theorem State.updShare_dp (n c : Nat) (f : Share → Share) : (s.updShare n c f).dp = s.dp := rfl
@[simp] theorem State.updShare_clk (n c : Nat) (f : Share → Share) : (s.updShare n c f).clk = s.clk := rfl
@[simp] theorem State.updShare_emap (n c : Nat) (f : Share → Share) : (s.updShare n c f).emap = s.emap := rfl
@[simp] theorem State.updShare_eqs (n c : Nat) (f : Share → Share) : (s.updShare n c f).eqs = s.eqs := rfl
@[simp] theorem State.updShare_arrays (n c : Nat) (f : Share → Share) : (s.updShare n c f).arrays = s.arrays := rfl
@[simp] theorem State.updShare_trellises (n c : Nat) (f : Share → Share) : (s.updShare n c f).trellises = s.trellises := rfl
@[simp] theorem State.updShare_cqs (n c : Nat) (f : Share → Share) : (s.updShare n c f).cqs = s.cqs := rfl
@[simp] theorem State.updShare_lnk (n c : Nat) (f : Share → Share) : (s.updShare n c f).lnk = s.lnk := rfl
@[simp] theorem State.updShare_shares (n c : Nat) (f : Share → Share) : (s.updShare n c f).shares = Sparse.upd {} s.shares (n * 8 + c) f := rfl
@[simp] theorem State.updShare_portRun (n c : Nat) (f : Share → Share) : (s.updShare n c f).portRun = s.portRun := rfl
@[simp] theorem State.updShare_win (n c : Nat) (f : Share → Share) : (s.updShare n c f).win = s.win := rfl
@[simp] theorem State.updShare_pcts (n c : Nat) (f : Share → Share) : (s.updShare n c f).pcts = s.pcts := rfl
@[simp] theorem State.updShare_wear (n c : Nat) (f : Share → Share) : (s.updShare n c f).wear = s.wear := rfl
@[simp] theorem State.updShare_jobs (n c : Nat) (f : Share → Share) : (s.updShare n c f).jobs = s.jobs := rfl
@[simp] theorem State.updShare_stage (n c : Nat) (f : Share → Share) : (s.updShare n c f).stage = s.stage := rfl
@[simp] theorem State.updShare_mgrs (n c : Nat) (f : Share → Share) : (s.updShare n c f).mgrs = s.mgrs := rfl
@[simp] theorem State.updShare_roles (n c : Nat) (f : Share → Share) : (s.updShare n c f).roles = s.roles := rfl
@[simp] theorem State.updShare_integ (n c : Nat) (f : Share → Share) : (s.updShare n c f).integ = s.integ := rfl
@[simp] theorem State.updShare_wdg (n c : Nat) (f : Share → Share) : (s.updShare n c f).wdg = s.wdg := rfl
@[simp] theorem State.updShare_pwr (n c : Nat) (f : Share → Share) : (s.updShare n c f).pwr = s.pwr := rfl
@[simp] theorem State.updShare_mbx (n c : Nat) (f : Share → Share) : (s.updShare n c f).mbx = s.mbx := rfl
@[simp] theorem State.updShare_flash (n c : Nat) (f : Share → Share) : (s.updShare n c f).flash = s.flash := rfl
@[simp] theorem State.updShare_sec (n c : Nat) (f : Share → Share) : (s.updShare n c f).sec = s.sec := rfl
@[simp] theorem State.updShare_elec (n c : Nat) (f : Share → Share) : (s.updShare n c f).elec = s.elec := rfl
@[simp] theorem State.updShare_fw (n c : Nat) (f : Share → Share) : (s.updShare n c f).fw = s.fw := rfl
@[simp] theorem State.updShare_ckps (n c : Nat) (f : Share → Share) : (s.updShare n c f).ckps = s.ckps := rfl

@[simp] theorem State.updEq_pending (q : Nat) (f : Eq → Eq) : (s.updEq q f).pending = s.pending := rfl
@[simp] theorem State.updEq_dp (q : Nat) (f : Eq → Eq) : (s.updEq q f).dp = s.dp := rfl
@[simp] theorem State.updEq_clk (q : Nat) (f : Eq → Eq) : (s.updEq q f).clk = s.clk := rfl
@[simp] theorem State.updEq_emap (q : Nat) (f : Eq → Eq) : (s.updEq q f).emap = s.emap := rfl
@[simp] theorem State.updEq_eqs (q : Nat) (f : Eq → Eq) : (s.updEq q f).eqs = Sparse.upd {} s.eqs q f := rfl
@[simp] theorem State.updEq_arrays (q : Nat) (f : Eq → Eq) : (s.updEq q f).arrays = s.arrays := rfl
@[simp] theorem State.updEq_trellises (q : Nat) (f : Eq → Eq) : (s.updEq q f).trellises = s.trellises := rfl
@[simp] theorem State.updEq_cqs (q : Nat) (f : Eq → Eq) : (s.updEq q f).cqs = s.cqs := rfl
@[simp] theorem State.updEq_lnk (q : Nat) (f : Eq → Eq) : (s.updEq q f).lnk = s.lnk := rfl
@[simp] theorem State.updEq_shares (q : Nat) (f : Eq → Eq) : (s.updEq q f).shares = s.shares := rfl
@[simp] theorem State.updEq_portRun (q : Nat) (f : Eq → Eq) : (s.updEq q f).portRun = s.portRun := rfl
@[simp] theorem State.updEq_win (q : Nat) (f : Eq → Eq) : (s.updEq q f).win = s.win := rfl
@[simp] theorem State.updEq_pcts (q : Nat) (f : Eq → Eq) : (s.updEq q f).pcts = s.pcts := rfl
@[simp] theorem State.updEq_wear (q : Nat) (f : Eq → Eq) : (s.updEq q f).wear = s.wear := rfl
@[simp] theorem State.updEq_jobs (q : Nat) (f : Eq → Eq) : (s.updEq q f).jobs = s.jobs := rfl
@[simp] theorem State.updEq_stage (q : Nat) (f : Eq → Eq) : (s.updEq q f).stage = s.stage := rfl
@[simp] theorem State.updEq_mgrs (q : Nat) (f : Eq → Eq) : (s.updEq q f).mgrs = s.mgrs := rfl
@[simp] theorem State.updEq_roles (q : Nat) (f : Eq → Eq) : (s.updEq q f).roles = s.roles := rfl
@[simp] theorem State.updEq_integ (q : Nat) (f : Eq → Eq) : (s.updEq q f).integ = s.integ := rfl
@[simp] theorem State.updEq_wdg (q : Nat) (f : Eq → Eq) : (s.updEq q f).wdg = s.wdg := rfl
@[simp] theorem State.updEq_pwr (q : Nat) (f : Eq → Eq) : (s.updEq q f).pwr = s.pwr := rfl
@[simp] theorem State.updEq_mbx (q : Nat) (f : Eq → Eq) : (s.updEq q f).mbx = s.mbx := rfl
@[simp] theorem State.updEq_flash (q : Nat) (f : Eq → Eq) : (s.updEq q f).flash = s.flash := rfl
@[simp] theorem State.updEq_sec (q : Nat) (f : Eq → Eq) : (s.updEq q f).sec = s.sec := rfl
@[simp] theorem State.updEq_elec (q : Nat) (f : Eq → Eq) : (s.updEq q f).elec = s.elec := rfl
@[simp] theorem State.updEq_fw (q : Nat) (f : Eq → Eq) : (s.updEq q f).fw = s.fw := rfl
@[simp] theorem State.updEq_ckps (q : Nat) (f : Eq → Eq) : (s.updEq q f).ckps = s.ckps := rfl

@[simp] theorem State.updCq_pending (q : Nat) (f : Cq → Cq) : (s.updCq q f).pending = s.pending := rfl
@[simp] theorem State.updCq_dp (q : Nat) (f : Cq → Cq) : (s.updCq q f).dp = s.dp := rfl
@[simp] theorem State.updCq_clk (q : Nat) (f : Cq → Cq) : (s.updCq q f).clk = s.clk := rfl
@[simp] theorem State.updCq_emap (q : Nat) (f : Cq → Cq) : (s.updCq q f).emap = s.emap := rfl
@[simp] theorem State.updCq_eqs (q : Nat) (f : Cq → Cq) : (s.updCq q f).eqs = s.eqs := rfl
@[simp] theorem State.updCq_arrays (q : Nat) (f : Cq → Cq) : (s.updCq q f).arrays = s.arrays := rfl
@[simp] theorem State.updCq_trellises (q : Nat) (f : Cq → Cq) : (s.updCq q f).trellises = s.trellises := rfl
@[simp] theorem State.updCq_cqs (q : Nat) (f : Cq → Cq) : (s.updCq q f).cqs = Sparse.upd {} s.cqs q f := rfl
@[simp] theorem State.updCq_lnk (q : Nat) (f : Cq → Cq) : (s.updCq q f).lnk = s.lnk := rfl
@[simp] theorem State.updCq_shares (q : Nat) (f : Cq → Cq) : (s.updCq q f).shares = s.shares := rfl
@[simp] theorem State.updCq_portRun (q : Nat) (f : Cq → Cq) : (s.updCq q f).portRun = s.portRun := rfl
@[simp] theorem State.updCq_win (q : Nat) (f : Cq → Cq) : (s.updCq q f).win = s.win := rfl
@[simp] theorem State.updCq_pcts (q : Nat) (f : Cq → Cq) : (s.updCq q f).pcts = s.pcts := rfl
@[simp] theorem State.updCq_wear (q : Nat) (f : Cq → Cq) : (s.updCq q f).wear = s.wear := rfl
@[simp] theorem State.updCq_jobs (q : Nat) (f : Cq → Cq) : (s.updCq q f).jobs = s.jobs := rfl
@[simp] theorem State.updCq_stage (q : Nat) (f : Cq → Cq) : (s.updCq q f).stage = s.stage := rfl
@[simp] theorem State.updCq_mgrs (q : Nat) (f : Cq → Cq) : (s.updCq q f).mgrs = s.mgrs := rfl
@[simp] theorem State.updCq_roles (q : Nat) (f : Cq → Cq) : (s.updCq q f).roles = s.roles := rfl
@[simp] theorem State.updCq_integ (q : Nat) (f : Cq → Cq) : (s.updCq q f).integ = s.integ := rfl
@[simp] theorem State.updCq_wdg (q : Nat) (f : Cq → Cq) : (s.updCq q f).wdg = s.wdg := rfl
@[simp] theorem State.updCq_pwr (q : Nat) (f : Cq → Cq) : (s.updCq q f).pwr = s.pwr := rfl
@[simp] theorem State.updCq_mbx (q : Nat) (f : Cq → Cq) : (s.updCq q f).mbx = s.mbx := rfl
@[simp] theorem State.updCq_flash (q : Nat) (f : Cq → Cq) : (s.updCq q f).flash = s.flash := rfl
@[simp] theorem State.updCq_sec (q : Nat) (f : Cq → Cq) : (s.updCq q f).sec = s.sec := rfl
@[simp] theorem State.updCq_elec (q : Nat) (f : Cq → Cq) : (s.updCq q f).elec = s.elec := rfl
@[simp] theorem State.updCq_fw (q : Nat) (f : Cq → Cq) : (s.updCq q f).fw = s.fw := rfl
@[simp] theorem State.updCq_ckps (q : Nat) (f : Cq → Cq) : (s.updCq q f).ckps = s.ckps := rfl

@[simp] theorem State.updPct_pending (i : Nat) (f : Pct → Pct) : (s.updPct i f).pending = s.pending := rfl
@[simp] theorem State.updPct_dp (i : Nat) (f : Pct → Pct) : (s.updPct i f).dp = s.dp := rfl
@[simp] theorem State.updPct_clk (i : Nat) (f : Pct → Pct) : (s.updPct i f).clk = s.clk := rfl
@[simp] theorem State.updPct_emap (i : Nat) (f : Pct → Pct) : (s.updPct i f).emap = s.emap := rfl
@[simp] theorem State.updPct_eqs (i : Nat) (f : Pct → Pct) : (s.updPct i f).eqs = s.eqs := rfl
@[simp] theorem State.updPct_arrays (i : Nat) (f : Pct → Pct) : (s.updPct i f).arrays = s.arrays := rfl
@[simp] theorem State.updPct_trellises (i : Nat) (f : Pct → Pct) : (s.updPct i f).trellises = s.trellises := rfl
@[simp] theorem State.updPct_cqs (i : Nat) (f : Pct → Pct) : (s.updPct i f).cqs = s.cqs := rfl
@[simp] theorem State.updPct_lnk (i : Nat) (f : Pct → Pct) : (s.updPct i f).lnk = s.lnk := rfl
@[simp] theorem State.updPct_shares (i : Nat) (f : Pct → Pct) : (s.updPct i f).shares = s.shares := rfl
@[simp] theorem State.updPct_portRun (i : Nat) (f : Pct → Pct) : (s.updPct i f).portRun = s.portRun := rfl
@[simp] theorem State.updPct_win (i : Nat) (f : Pct → Pct) : (s.updPct i f).win = s.win := rfl
@[simp] theorem State.updPct_pcts (i : Nat) (f : Pct → Pct) : (s.updPct i f).pcts = Sparse.upd {} s.pcts i f := rfl
@[simp] theorem State.updPct_wear (i : Nat) (f : Pct → Pct) : (s.updPct i f).wear = s.wear := rfl
@[simp] theorem State.updPct_jobs (i : Nat) (f : Pct → Pct) : (s.updPct i f).jobs = s.jobs := rfl
@[simp] theorem State.updPct_stage (i : Nat) (f : Pct → Pct) : (s.updPct i f).stage = s.stage := rfl
@[simp] theorem State.updPct_mgrs (i : Nat) (f : Pct → Pct) : (s.updPct i f).mgrs = s.mgrs := rfl
@[simp] theorem State.updPct_roles (i : Nat) (f : Pct → Pct) : (s.updPct i f).roles = s.roles := rfl
@[simp] theorem State.updPct_integ (i : Nat) (f : Pct → Pct) : (s.updPct i f).integ = s.integ := rfl
@[simp] theorem State.updPct_wdg (i : Nat) (f : Pct → Pct) : (s.updPct i f).wdg = s.wdg := rfl
@[simp] theorem State.updPct_pwr (i : Nat) (f : Pct → Pct) : (s.updPct i f).pwr = s.pwr := rfl
@[simp] theorem State.updPct_mbx (i : Nat) (f : Pct → Pct) : (s.updPct i f).mbx = s.mbx := rfl
@[simp] theorem State.updPct_flash (i : Nat) (f : Pct → Pct) : (s.updPct i f).flash = s.flash := rfl
@[simp] theorem State.updPct_sec (i : Nat) (f : Pct → Pct) : (s.updPct i f).sec = s.sec := rfl
@[simp] theorem State.updPct_elec (i : Nat) (f : Pct → Pct) : (s.updPct i f).elec = s.elec := rfl
@[simp] theorem State.updPct_fw (i : Nat) (f : Pct → Pct) : (s.updPct i f).fw = s.fw := rfl
@[simp] theorem State.updPct_ckps (i : Nat) (f : Pct → Pct) : (s.updPct i f).ckps = s.ckps := rfl

@[simp] theorem State.updPanel_pending (p : Nat) (f : PanelMap → PanelMap) : (s.updPanel p f).pending = s.pending := rfl
@[simp] theorem State.updPanel_dp (p : Nat) (f : PanelMap → PanelMap) : (s.updPanel p f).dp = s.dp := rfl
@[simp] theorem State.updPanel_clk (p : Nat) (f : PanelMap → PanelMap) : (s.updPanel p f).clk = s.clk := rfl
@[simp] theorem State.updPanel_emap (p : Nat) (f : PanelMap → PanelMap) : (s.updPanel p f).emap = Sparse.upd {} s.emap p f := rfl
@[simp] theorem State.updPanel_eqs (p : Nat) (f : PanelMap → PanelMap) : (s.updPanel p f).eqs = s.eqs := rfl
@[simp] theorem State.updPanel_arrays (p : Nat) (f : PanelMap → PanelMap) : (s.updPanel p f).arrays = s.arrays := rfl
@[simp] theorem State.updPanel_trellises (p : Nat) (f : PanelMap → PanelMap) : (s.updPanel p f).trellises = s.trellises := rfl
@[simp] theorem State.updPanel_cqs (p : Nat) (f : PanelMap → PanelMap) : (s.updPanel p f).cqs = s.cqs := rfl
@[simp] theorem State.updPanel_lnk (p : Nat) (f : PanelMap → PanelMap) : (s.updPanel p f).lnk = s.lnk := rfl
@[simp] theorem State.updPanel_shares (p : Nat) (f : PanelMap → PanelMap) : (s.updPanel p f).shares = s.shares := rfl
@[simp] theorem State.updPanel_portRun (p : Nat) (f : PanelMap → PanelMap) : (s.updPanel p f).portRun = s.portRun := rfl
@[simp] theorem State.updPanel_win (p : Nat) (f : PanelMap → PanelMap) : (s.updPanel p f).win = s.win := rfl
@[simp] theorem State.updPanel_pcts (p : Nat) (f : PanelMap → PanelMap) : (s.updPanel p f).pcts = s.pcts := rfl
@[simp] theorem State.updPanel_wear (p : Nat) (f : PanelMap → PanelMap) : (s.updPanel p f).wear = s.wear := rfl
@[simp] theorem State.updPanel_jobs (p : Nat) (f : PanelMap → PanelMap) : (s.updPanel p f).jobs = s.jobs := rfl
@[simp] theorem State.updPanel_stage (p : Nat) (f : PanelMap → PanelMap) : (s.updPanel p f).stage = s.stage := rfl
@[simp] theorem State.updPanel_mgrs (p : Nat) (f : PanelMap → PanelMap) : (s.updPanel p f).mgrs = s.mgrs := rfl
@[simp] theorem State.updPanel_roles (p : Nat) (f : PanelMap → PanelMap) : (s.updPanel p f).roles = s.roles := rfl
@[simp] theorem State.updPanel_integ (p : Nat) (f : PanelMap → PanelMap) : (s.updPanel p f).integ = s.integ := rfl
@[simp] theorem State.updPanel_wdg (p : Nat) (f : PanelMap → PanelMap) : (s.updPanel p f).wdg = s.wdg := rfl
@[simp] theorem State.updPanel_pwr (p : Nat) (f : PanelMap → PanelMap) : (s.updPanel p f).pwr = s.pwr := rfl
@[simp] theorem State.updPanel_mbx (p : Nat) (f : PanelMap → PanelMap) : (s.updPanel p f).mbx = s.mbx := rfl
@[simp] theorem State.updPanel_flash (p : Nat) (f : PanelMap → PanelMap) : (s.updPanel p f).flash = s.flash := rfl
@[simp] theorem State.updPanel_sec (p : Nat) (f : PanelMap → PanelMap) : (s.updPanel p f).sec = s.sec := rfl
@[simp] theorem State.updPanel_elec (p : Nat) (f : PanelMap → PanelMap) : (s.updPanel p f).elec = s.elec := rfl
@[simp] theorem State.updPanel_fw (p : Nat) (f : PanelMap → PanelMap) : (s.updPanel p f).fw = s.fw := rfl
@[simp] theorem State.updPanel_ckps (p : Nat) (f : PanelMap → PanelMap) : (s.updPanel p f).ckps = s.ckps := rfl

@[simp] theorem State.updDomain_pending (n : Nat) (f : Domain → Domain) : (s.updDomain n f).pending = s.pending := rfl
@[simp] theorem State.updDomain_dp (n : Nat) (f : Domain → Domain) : (s.updDomain n f).dp = s.dp := rfl
@[simp] theorem State.updDomain_clk (n : Nat) (f : Domain → Domain) : (s.updDomain n f).clk = s.clk := rfl
@[simp] theorem State.updDomain_emap (n : Nat) (f : Domain → Domain) : (s.updDomain n f).emap = s.emap := rfl
@[simp] theorem State.updDomain_eqs (n : Nat) (f : Domain → Domain) : (s.updDomain n f).eqs = s.eqs := rfl
@[simp] theorem State.updDomain_arrays (n : Nat) (f : Domain → Domain) : (s.updDomain n f).arrays = s.arrays := rfl
@[simp] theorem State.updDomain_trellises (n : Nat) (f : Domain → Domain) : (s.updDomain n f).trellises = s.trellises := rfl
@[simp] theorem State.updDomain_cqs (n : Nat) (f : Domain → Domain) : (s.updDomain n f).cqs = s.cqs := rfl
@[simp] theorem State.updDomain_lnk (n : Nat) (f : Domain → Domain) : (s.updDomain n f).lnk = s.lnk := rfl
@[simp] theorem State.updDomain_shares (n : Nat) (f : Domain → Domain) : (s.updDomain n f).shares = s.shares := rfl
@[simp] theorem State.updDomain_portRun (n : Nat) (f : Domain → Domain) : (s.updDomain n f).portRun = s.portRun := rfl
@[simp] theorem State.updDomain_win (n : Nat) (f : Domain → Domain) : (s.updDomain n f).win = s.win := rfl
@[simp] theorem State.updDomain_pcts (n : Nat) (f : Domain → Domain) : (s.updDomain n f).pcts = s.pcts := rfl
@[simp] theorem State.updDomain_wear (n : Nat) (f : Domain → Domain) : (s.updDomain n f).wear = s.wear := rfl
@[simp] theorem State.updDomain_jobs (n : Nat) (f : Domain → Domain) : (s.updDomain n f).jobs = s.jobs := rfl
@[simp] theorem State.updDomain_stage (n : Nat) (f : Domain → Domain) : (s.updDomain n f).stage = s.stage := rfl
@[simp] theorem State.updDomain_mgrs (n : Nat) (f : Domain → Domain) : (s.updDomain n f).mgrs = s.mgrs := rfl
@[simp] theorem State.updDomain_roles (n : Nat) (f : Domain → Domain) : (s.updDomain n f).roles = s.roles := rfl
@[simp] theorem State.updDomain_integ (n : Nat) (f : Domain → Domain) : (s.updDomain n f).integ = s.integ := rfl
@[simp] theorem State.updDomain_wdg (n : Nat) (f : Domain → Domain) : (s.updDomain n f).wdg = s.wdg := rfl
@[simp] theorem State.updDomain_mbx (n : Nat) (f : Domain → Domain) : (s.updDomain n f).mbx = s.mbx := rfl
@[simp] theorem State.updDomain_flash (n : Nat) (f : Domain → Domain) : (s.updDomain n f).flash = s.flash := rfl
@[simp] theorem State.updDomain_sec (n : Nat) (f : Domain → Domain) : (s.updDomain n f).sec = s.sec := rfl
@[simp] theorem State.updDomain_elec (n : Nat) (f : Domain → Domain) : (s.updDomain n f).elec = s.elec := rfl
@[simp] theorem State.updDomain_fw (n : Nat) (f : Domain → Domain) : (s.updDomain n f).fw = s.fw := rfl
@[simp] theorem State.updDomain_ckps (n : Nat) (f : Domain → Domain) : (s.updDomain n f).ckps = s.ckps := rfl

@[simp] theorem State.updPstate_pending (p : Nat) (f : PState → PState) : (s.updPstate p f).pending = s.pending := rfl
@[simp] theorem State.updPstate_dp (p : Nat) (f : PState → PState) : (s.updPstate p f).dp = s.dp := rfl
@[simp] theorem State.updPstate_clk (p : Nat) (f : PState → PState) : (s.updPstate p f).clk = s.clk := rfl
@[simp] theorem State.updPstate_emap (p : Nat) (f : PState → PState) : (s.updPstate p f).emap = s.emap := rfl
@[simp] theorem State.updPstate_eqs (p : Nat) (f : PState → PState) : (s.updPstate p f).eqs = s.eqs := rfl
@[simp] theorem State.updPstate_arrays (p : Nat) (f : PState → PState) : (s.updPstate p f).arrays = s.arrays := rfl
@[simp] theorem State.updPstate_trellises (p : Nat) (f : PState → PState) : (s.updPstate p f).trellises = s.trellises := rfl
@[simp] theorem State.updPstate_cqs (p : Nat) (f : PState → PState) : (s.updPstate p f).cqs = s.cqs := rfl
@[simp] theorem State.updPstate_lnk (p : Nat) (f : PState → PState) : (s.updPstate p f).lnk = s.lnk := rfl
@[simp] theorem State.updPstate_shares (p : Nat) (f : PState → PState) : (s.updPstate p f).shares = s.shares := rfl
@[simp] theorem State.updPstate_portRun (p : Nat) (f : PState → PState) : (s.updPstate p f).portRun = s.portRun := rfl
@[simp] theorem State.updPstate_win (p : Nat) (f : PState → PState) : (s.updPstate p f).win = s.win := rfl
@[simp] theorem State.updPstate_pcts (p : Nat) (f : PState → PState) : (s.updPstate p f).pcts = s.pcts := rfl
@[simp] theorem State.updPstate_wear (p : Nat) (f : PState → PState) : (s.updPstate p f).wear = s.wear := rfl
@[simp] theorem State.updPstate_jobs (p : Nat) (f : PState → PState) : (s.updPstate p f).jobs = s.jobs := rfl
@[simp] theorem State.updPstate_stage (p : Nat) (f : PState → PState) : (s.updPstate p f).stage = s.stage := rfl
@[simp] theorem State.updPstate_mgrs (p : Nat) (f : PState → PState) : (s.updPstate p f).mgrs = s.mgrs := rfl
@[simp] theorem State.updPstate_roles (p : Nat) (f : PState → PState) : (s.updPstate p f).roles = s.roles := rfl
@[simp] theorem State.updPstate_integ (p : Nat) (f : PState → PState) : (s.updPstate p f).integ = s.integ := rfl
@[simp] theorem State.updPstate_wdg (p : Nat) (f : PState → PState) : (s.updPstate p f).wdg = s.wdg := rfl
@[simp] theorem State.updPstate_mbx (p : Nat) (f : PState → PState) : (s.updPstate p f).mbx = s.mbx := rfl
@[simp] theorem State.updPstate_flash (p : Nat) (f : PState → PState) : (s.updPstate p f).flash = s.flash := rfl
@[simp] theorem State.updPstate_sec (p : Nat) (f : PState → PState) : (s.updPstate p f).sec = s.sec := rfl
@[simp] theorem State.updPstate_elec (p : Nat) (f : PState → PState) : (s.updPstate p f).elec = s.elec := rfl
@[simp] theorem State.updPstate_fw (p : Nat) (f : PState → PState) : (s.updPstate p f).fw = s.fw := rfl
@[simp] theorem State.updPstate_ckps (p : Nat) (f : PState → PState) : (s.updPstate p f).ckps = s.ckps := rfl

@[simp] theorem State.setArray_pending (i : Nat) (r : Option ArrayRun) : (s.setArray i r).pending = s.pending := rfl
@[simp] theorem State.setArray_dp (i : Nat) (r : Option ArrayRun) : (s.setArray i r).dp = s.dp := rfl
@[simp] theorem State.setArray_clk (i : Nat) (r : Option ArrayRun) : (s.setArray i r).clk = s.clk := rfl
@[simp] theorem State.setArray_emap (i : Nat) (r : Option ArrayRun) : (s.setArray i r).emap = s.emap := rfl
@[simp] theorem State.setArray_eqs (i : Nat) (r : Option ArrayRun) : (s.setArray i r).eqs = s.eqs := rfl
@[simp] theorem State.setArray_arrays (i : Nat) (r : Option ArrayRun) : (s.setArray i r).arrays = Sparse.set none s.arrays i r := rfl
@[simp] theorem State.setArray_trellises (i : Nat) (r : Option ArrayRun) : (s.setArray i r).trellises = s.trellises := rfl
@[simp] theorem State.setArray_cqs (i : Nat) (r : Option ArrayRun) : (s.setArray i r).cqs = s.cqs := rfl
@[simp] theorem State.setArray_lnk (i : Nat) (r : Option ArrayRun) : (s.setArray i r).lnk = s.lnk := rfl
@[simp] theorem State.setArray_shares (i : Nat) (r : Option ArrayRun) : (s.setArray i r).shares = s.shares := rfl
@[simp] theorem State.setArray_portRun (i : Nat) (r : Option ArrayRun) : (s.setArray i r).portRun = s.portRun := rfl
@[simp] theorem State.setArray_win (i : Nat) (r : Option ArrayRun) : (s.setArray i r).win = s.win := rfl
@[simp] theorem State.setArray_pcts (i : Nat) (r : Option ArrayRun) : (s.setArray i r).pcts = s.pcts := rfl
@[simp] theorem State.setArray_wear (i : Nat) (r : Option ArrayRun) : (s.setArray i r).wear = s.wear := rfl
@[simp] theorem State.setArray_jobs (i : Nat) (r : Option ArrayRun) : (s.setArray i r).jobs = s.jobs := rfl
@[simp] theorem State.setArray_stage (i : Nat) (r : Option ArrayRun) : (s.setArray i r).stage = s.stage := rfl
@[simp] theorem State.setArray_mgrs (i : Nat) (r : Option ArrayRun) : (s.setArray i r).mgrs = s.mgrs := rfl
@[simp] theorem State.setArray_roles (i : Nat) (r : Option ArrayRun) : (s.setArray i r).roles = s.roles := rfl
@[simp] theorem State.setArray_integ (i : Nat) (r : Option ArrayRun) : (s.setArray i r).integ = s.integ := rfl
@[simp] theorem State.setArray_wdg (i : Nat) (r : Option ArrayRun) : (s.setArray i r).wdg = s.wdg := rfl
@[simp] theorem State.setArray_pwr (i : Nat) (r : Option ArrayRun) : (s.setArray i r).pwr = s.pwr := rfl
@[simp] theorem State.setArray_mbx (i : Nat) (r : Option ArrayRun) : (s.setArray i r).mbx = s.mbx := rfl
@[simp] theorem State.setArray_flash (i : Nat) (r : Option ArrayRun) : (s.setArray i r).flash = s.flash := rfl
@[simp] theorem State.setArray_sec (i : Nat) (r : Option ArrayRun) : (s.setArray i r).sec = s.sec := rfl
@[simp] theorem State.setArray_elec (i : Nat) (r : Option ArrayRun) : (s.setArray i r).elec = s.elec := rfl
@[simp] theorem State.setArray_fw (i : Nat) (r : Option ArrayRun) : (s.setArray i r).fw = s.fw := rfl
@[simp] theorem State.setArray_ckps (i : Nat) (r : Option ArrayRun) : (s.setArray i r).ckps = s.ckps := rfl

@[simp] theorem State.updTrellis_pending (i : Nat) (f : Trellis → Trellis) : (s.updTrellis i f).pending = s.pending := rfl
@[simp] theorem State.updTrellis_dp (i : Nat) (f : Trellis → Trellis) : (s.updTrellis i f).dp = s.dp := rfl
@[simp] theorem State.updTrellis_clk (i : Nat) (f : Trellis → Trellis) : (s.updTrellis i f).clk = s.clk := rfl
@[simp] theorem State.updTrellis_emap (i : Nat) (f : Trellis → Trellis) : (s.updTrellis i f).emap = s.emap := rfl
@[simp] theorem State.updTrellis_eqs (i : Nat) (f : Trellis → Trellis) : (s.updTrellis i f).eqs = s.eqs := rfl
@[simp] theorem State.updTrellis_arrays (i : Nat) (f : Trellis → Trellis) : (s.updTrellis i f).arrays = s.arrays := rfl
@[simp] theorem State.updTrellis_cqs (i : Nat) (f : Trellis → Trellis) : (s.updTrellis i f).cqs = s.cqs := rfl
@[simp] theorem State.updTrellis_lnk (i : Nat) (f : Trellis → Trellis) : (s.updTrellis i f).lnk = s.lnk := rfl
@[simp] theorem State.updTrellis_shares (i : Nat) (f : Trellis → Trellis) : (s.updTrellis i f).shares = s.shares := rfl
@[simp] theorem State.updTrellis_portRun (i : Nat) (f : Trellis → Trellis) : (s.updTrellis i f).portRun = s.portRun := rfl
@[simp] theorem State.updTrellis_win (i : Nat) (f : Trellis → Trellis) : (s.updTrellis i f).win = s.win := rfl
@[simp] theorem State.updTrellis_pcts (i : Nat) (f : Trellis → Trellis) : (s.updTrellis i f).pcts = s.pcts := rfl
@[simp] theorem State.updTrellis_wear (i : Nat) (f : Trellis → Trellis) : (s.updTrellis i f).wear = s.wear := rfl
@[simp] theorem State.updTrellis_jobs (i : Nat) (f : Trellis → Trellis) : (s.updTrellis i f).jobs = s.jobs := rfl
@[simp] theorem State.updTrellis_stage (i : Nat) (f : Trellis → Trellis) : (s.updTrellis i f).stage = s.stage := rfl
@[simp] theorem State.updTrellis_mgrs (i : Nat) (f : Trellis → Trellis) : (s.updTrellis i f).mgrs = s.mgrs := rfl
@[simp] theorem State.updTrellis_roles (i : Nat) (f : Trellis → Trellis) : (s.updTrellis i f).roles = s.roles := rfl
@[simp] theorem State.updTrellis_integ (i : Nat) (f : Trellis → Trellis) : (s.updTrellis i f).integ = s.integ := rfl
@[simp] theorem State.updTrellis_wdg (i : Nat) (f : Trellis → Trellis) : (s.updTrellis i f).wdg = s.wdg := rfl
@[simp] theorem State.updTrellis_pwr (i : Nat) (f : Trellis → Trellis) : (s.updTrellis i f).pwr = s.pwr := rfl
@[simp] theorem State.updTrellis_mbx (i : Nat) (f : Trellis → Trellis) : (s.updTrellis i f).mbx = s.mbx := rfl
@[simp] theorem State.updTrellis_flash (i : Nat) (f : Trellis → Trellis) : (s.updTrellis i f).flash = s.flash := rfl
@[simp] theorem State.updTrellis_sec (i : Nat) (f : Trellis → Trellis) : (s.updTrellis i f).sec = s.sec := rfl
@[simp] theorem State.updTrellis_elec (i : Nat) (f : Trellis → Trellis) : (s.updTrellis i f).elec = s.elec := rfl
@[simp] theorem State.updTrellis_fw (i : Nat) (f : Trellis → Trellis) : (s.updTrellis i f).fw = s.fw := rfl
@[simp] theorem State.updTrellis_ckps (i : Nat) (f : Trellis → Trellis) : (s.updTrellis i f).ckps = s.ckps := rfl

@[simp] theorem State.updMgr_pending (j : BitVec 16) (f : Mgr → Mgr) : (s.updMgr j f).pending = s.pending := rfl
@[simp] theorem State.updMgr_dp (j : BitVec 16) (f : Mgr → Mgr) : (s.updMgr j f).dp = s.dp := rfl
@[simp] theorem State.updMgr_clk (j : BitVec 16) (f : Mgr → Mgr) : (s.updMgr j f).clk = s.clk := rfl
@[simp] theorem State.updMgr_emap (j : BitVec 16) (f : Mgr → Mgr) : (s.updMgr j f).emap = s.emap := rfl
@[simp] theorem State.updMgr_eqs (j : BitVec 16) (f : Mgr → Mgr) : (s.updMgr j f).eqs = s.eqs := rfl
@[simp] theorem State.updMgr_arrays (j : BitVec 16) (f : Mgr → Mgr) : (s.updMgr j f).arrays = s.arrays := rfl
@[simp] theorem State.updMgr_trellises (j : BitVec 16) (f : Mgr → Mgr) : (s.updMgr j f).trellises = s.trellises := rfl
@[simp] theorem State.updMgr_cqs (j : BitVec 16) (f : Mgr → Mgr) : (s.updMgr j f).cqs = s.cqs := rfl
@[simp] theorem State.updMgr_lnk (j : BitVec 16) (f : Mgr → Mgr) : (s.updMgr j f).lnk = s.lnk := rfl
@[simp] theorem State.updMgr_shares (j : BitVec 16) (f : Mgr → Mgr) : (s.updMgr j f).shares = s.shares := rfl
@[simp] theorem State.updMgr_portRun (j : BitVec 16) (f : Mgr → Mgr) : (s.updMgr j f).portRun = s.portRun := rfl
@[simp] theorem State.updMgr_win (j : BitVec 16) (f : Mgr → Mgr) : (s.updMgr j f).win = s.win := rfl
@[simp] theorem State.updMgr_pcts (j : BitVec 16) (f : Mgr → Mgr) : (s.updMgr j f).pcts = s.pcts := rfl
@[simp] theorem State.updMgr_wear (j : BitVec 16) (f : Mgr → Mgr) : (s.updMgr j f).wear = s.wear := rfl
@[simp] theorem State.updMgr_jobs (j : BitVec 16) (f : Mgr → Mgr) : (s.updMgr j f).jobs = s.jobs := rfl
@[simp] theorem State.updMgr_stage (j : BitVec 16) (f : Mgr → Mgr) : (s.updMgr j f).stage = s.stage := rfl
@[simp] theorem State.updMgr_roles (j : BitVec 16) (f : Mgr → Mgr) : (s.updMgr j f).roles = s.roles := rfl
@[simp] theorem State.updMgr_integ (j : BitVec 16) (f : Mgr → Mgr) : (s.updMgr j f).integ = s.integ := rfl
@[simp] theorem State.updMgr_wdg (j : BitVec 16) (f : Mgr → Mgr) : (s.updMgr j f).wdg = s.wdg := rfl
@[simp] theorem State.updMgr_pwr (j : BitVec 16) (f : Mgr → Mgr) : (s.updMgr j f).pwr = s.pwr := rfl
@[simp] theorem State.updMgr_mbx (j : BitVec 16) (f : Mgr → Mgr) : (s.updMgr j f).mbx = s.mbx := rfl
@[simp] theorem State.updMgr_flash (j : BitVec 16) (f : Mgr → Mgr) : (s.updMgr j f).flash = s.flash := rfl
@[simp] theorem State.updMgr_sec (j : BitVec 16) (f : Mgr → Mgr) : (s.updMgr j f).sec = s.sec := rfl
@[simp] theorem State.updMgr_elec (j : BitVec 16) (f : Mgr → Mgr) : (s.updMgr j f).elec = s.elec := rfl
@[simp] theorem State.updMgr_fw (j : BitVec 16) (f : Mgr → Mgr) : (s.updMgr j f).fw = s.fw := rfl
@[simp] theorem State.updMgr_ckps (j : BitVec 16) (f : Mgr → Mgr) : (s.updMgr j f).ckps = s.ckps := rfl

@[simp] theorem State.setOtpSlot_pending (f g : Nat) (x : OtpSlot) : (s.setOtpSlot f g x).pending = s.pending := rfl
@[simp] theorem State.setOtpSlot_dp (f g : Nat) (x : OtpSlot) : (s.setOtpSlot f g x).dp = s.dp := rfl
@[simp] theorem State.setOtpSlot_clk (f g : Nat) (x : OtpSlot) : (s.setOtpSlot f g x).clk = s.clk := rfl
@[simp] theorem State.setOtpSlot_emap (f g : Nat) (x : OtpSlot) : (s.setOtpSlot f g x).emap = s.emap := rfl
@[simp] theorem State.setOtpSlot_eqs (f g : Nat) (x : OtpSlot) : (s.setOtpSlot f g x).eqs = s.eqs := rfl
@[simp] theorem State.setOtpSlot_arrays (f g : Nat) (x : OtpSlot) : (s.setOtpSlot f g x).arrays = s.arrays := rfl
@[simp] theorem State.setOtpSlot_trellises (f g : Nat) (x : OtpSlot) : (s.setOtpSlot f g x).trellises = s.trellises := rfl
@[simp] theorem State.setOtpSlot_cqs (f g : Nat) (x : OtpSlot) : (s.setOtpSlot f g x).cqs = s.cqs := rfl
@[simp] theorem State.setOtpSlot_lnk (f g : Nat) (x : OtpSlot) : (s.setOtpSlot f g x).lnk = s.lnk := rfl
@[simp] theorem State.setOtpSlot_shares (f g : Nat) (x : OtpSlot) : (s.setOtpSlot f g x).shares = s.shares := rfl
@[simp] theorem State.setOtpSlot_portRun (f g : Nat) (x : OtpSlot) : (s.setOtpSlot f g x).portRun = s.portRun := rfl
@[simp] theorem State.setOtpSlot_win (f g : Nat) (x : OtpSlot) : (s.setOtpSlot f g x).win = s.win := rfl
@[simp] theorem State.setOtpSlot_pcts (f g : Nat) (x : OtpSlot) : (s.setOtpSlot f g x).pcts = s.pcts := rfl
@[simp] theorem State.setOtpSlot_wear (f g : Nat) (x : OtpSlot) : (s.setOtpSlot f g x).wear = s.wear := rfl
@[simp] theorem State.setOtpSlot_jobs (f g : Nat) (x : OtpSlot) : (s.setOtpSlot f g x).jobs = s.jobs := rfl
@[simp] theorem State.setOtpSlot_stage (f g : Nat) (x : OtpSlot) : (s.setOtpSlot f g x).stage = s.stage := rfl
@[simp] theorem State.setOtpSlot_mgrs (f g : Nat) (x : OtpSlot) : (s.setOtpSlot f g x).mgrs = s.mgrs := rfl
@[simp] theorem State.setOtpSlot_roles (f g : Nat) (x : OtpSlot) : (s.setOtpSlot f g x).roles = s.roles := rfl
@[simp] theorem State.setOtpSlot_integ (f g : Nat) (x : OtpSlot) : (s.setOtpSlot f g x).integ = s.integ := rfl
@[simp] theorem State.setOtpSlot_wdg (f g : Nat) (x : OtpSlot) : (s.setOtpSlot f g x).wdg = s.wdg := rfl
@[simp] theorem State.setOtpSlot_pwr (f g : Nat) (x : OtpSlot) : (s.setOtpSlot f g x).pwr = s.pwr := rfl
@[simp] theorem State.setOtpSlot_mbx (f g : Nat) (x : OtpSlot) : (s.setOtpSlot f g x).mbx = s.mbx := rfl
@[simp] theorem State.setOtpSlot_flash (f g : Nat) (x : OtpSlot) : (s.setOtpSlot f g x).flash = s.flash := rfl
@[simp] theorem State.setOtpSlot_elec (f g : Nat) (x : OtpSlot) : (s.setOtpSlot f g x).elec = s.elec := rfl
@[simp] theorem State.setOtpSlot_fw (f g : Nat) (x : OtpSlot) : (s.setOtpSlot f g x).fw = s.fw := rfl
@[simp] theorem State.setOtpSlot_ckps (f g : Nat) (x : OtpSlot) : (s.setOtpSlot f g x).ckps = s.ckps := rfl

@[simp] theorem State.updCkp_pending (k : Nat) (f : Ckp → Ckp) : (s.updCkp k f).pending = s.pending := rfl
@[simp] theorem State.updCkp_dp (k : Nat) (f : Ckp → Ckp) : (s.updCkp k f).dp = s.dp := rfl
@[simp] theorem State.updCkp_clk (k : Nat) (f : Ckp → Ckp) : (s.updCkp k f).clk = s.clk := rfl
@[simp] theorem State.updCkp_emap (k : Nat) (f : Ckp → Ckp) : (s.updCkp k f).emap = s.emap := rfl
@[simp] theorem State.updCkp_eqs (k : Nat) (f : Ckp → Ckp) : (s.updCkp k f).eqs = s.eqs := rfl
@[simp] theorem State.updCkp_arrays (k : Nat) (f : Ckp → Ckp) : (s.updCkp k f).arrays = s.arrays := rfl
@[simp] theorem State.updCkp_trellises (k : Nat) (f : Ckp → Ckp) : (s.updCkp k f).trellises = s.trellises := rfl
@[simp] theorem State.updCkp_cqs (k : Nat) (f : Ckp → Ckp) : (s.updCkp k f).cqs = s.cqs := rfl
@[simp] theorem State.updCkp_lnk (k : Nat) (f : Ckp → Ckp) : (s.updCkp k f).lnk = s.lnk := rfl
@[simp] theorem State.updCkp_shares (k : Nat) (f : Ckp → Ckp) : (s.updCkp k f).shares = s.shares := rfl
@[simp] theorem State.updCkp_portRun (k : Nat) (f : Ckp → Ckp) : (s.updCkp k f).portRun = s.portRun := rfl
@[simp] theorem State.updCkp_win (k : Nat) (f : Ckp → Ckp) : (s.updCkp k f).win = s.win := rfl
@[simp] theorem State.updCkp_pcts (k : Nat) (f : Ckp → Ckp) : (s.updCkp k f).pcts = s.pcts := rfl
@[simp] theorem State.updCkp_wear (k : Nat) (f : Ckp → Ckp) : (s.updCkp k f).wear = s.wear := rfl
@[simp] theorem State.updCkp_jobs (k : Nat) (f : Ckp → Ckp) : (s.updCkp k f).jobs = s.jobs := rfl
@[simp] theorem State.updCkp_stage (k : Nat) (f : Ckp → Ckp) : (s.updCkp k f).stage = s.stage := rfl
@[simp] theorem State.updCkp_mgrs (k : Nat) (f : Ckp → Ckp) : (s.updCkp k f).mgrs = s.mgrs := rfl
@[simp] theorem State.updCkp_roles (k : Nat) (f : Ckp → Ckp) : (s.updCkp k f).roles = s.roles := rfl
@[simp] theorem State.updCkp_integ (k : Nat) (f : Ckp → Ckp) : (s.updCkp k f).integ = s.integ := rfl
@[simp] theorem State.updCkp_wdg (k : Nat) (f : Ckp → Ckp) : (s.updCkp k f).wdg = s.wdg := rfl
@[simp] theorem State.updCkp_pwr (k : Nat) (f : Ckp → Ckp) : (s.updCkp k f).pwr = s.pwr := rfl
@[simp] theorem State.updCkp_mbx (k : Nat) (f : Ckp → Ckp) : (s.updCkp k f).mbx = s.mbx := rfl
@[simp] theorem State.updCkp_flash (k : Nat) (f : Ckp → Ckp) : (s.updCkp k f).flash = s.flash := rfl
@[simp] theorem State.updCkp_sec (k : Nat) (f : Ckp → Ckp) : (s.updCkp k f).sec = s.sec := rfl
@[simp] theorem State.updCkp_elec (k : Nat) (f : Ckp → Ckp) : (s.updCkp k f).elec = s.elec := rfl
@[simp] theorem State.updCkp_fw (k : Nat) (f : Ckp → Ckp) : (s.updCkp k f).fw = s.fw := rfl
@[simp] theorem State.updCkp_ckps (k : Nat) (f : Ckp → Ckp) : (s.updCkp k f).ckps = Sparse.upd {} s.ckps k f := rfl

@[simp] theorem State.waitCmd_pending (c : Cmd) : (s.waitCmd c).pending = s.pending := rfl
@[simp] theorem State.waitCmd_dp (c : Cmd) : (s.waitCmd c).dp = s.dp := rfl
@[simp] theorem State.waitCmd_clk (c : Cmd) : (s.waitCmd c).clk = s.clk := rfl
@[simp] theorem State.waitCmd_emap (c : Cmd) : (s.waitCmd c).emap = s.emap := rfl
@[simp] theorem State.waitCmd_eqs (c : Cmd) : (s.waitCmd c).eqs = s.eqs := rfl
@[simp] theorem State.waitCmd_arrays (c : Cmd) : (s.waitCmd c).arrays = s.arrays := rfl
@[simp] theorem State.waitCmd_trellises (c : Cmd) : (s.waitCmd c).trellises = s.trellises := rfl
@[simp] theorem State.waitCmd_cqs (c : Cmd) : (s.waitCmd c).cqs = s.cqs := rfl
@[simp] theorem State.waitCmd_lnk (c : Cmd) : (s.waitCmd c).lnk = s.lnk := rfl
@[simp] theorem State.waitCmd_shares (c : Cmd) : (s.waitCmd c).shares = s.shares := rfl
@[simp] theorem State.waitCmd_portRun (c : Cmd) : (s.waitCmd c).portRun = s.portRun := rfl
@[simp] theorem State.waitCmd_win (c : Cmd) : (s.waitCmd c).win = s.win := rfl
@[simp] theorem State.waitCmd_pcts (c : Cmd) : (s.waitCmd c).pcts = s.pcts := rfl
@[simp] theorem State.waitCmd_wear (c : Cmd) : (s.waitCmd c).wear = s.wear := rfl
@[simp] theorem State.waitCmd_jobs (c : Cmd) : (s.waitCmd c).jobs = s.jobs := rfl
@[simp] theorem State.waitCmd_stage (c : Cmd) : (s.waitCmd c).stage = s.stage := rfl
@[simp] theorem State.waitCmd_mgrs (c : Cmd) : (s.waitCmd c).mgrs = s.mgrs := rfl
@[simp] theorem State.waitCmd_roles (c : Cmd) : (s.waitCmd c).roles = s.roles := rfl
@[simp] theorem State.waitCmd_integ (c : Cmd) : (s.waitCmd c).integ = s.integ := rfl
@[simp] theorem State.waitCmd_wdg (c : Cmd) : (s.waitCmd c).wdg = s.wdg := rfl
@[simp] theorem State.waitCmd_pwr (c : Cmd) : (s.waitCmd c).pwr = s.pwr := rfl
@[simp] theorem State.waitCmd_flash (c : Cmd) : (s.waitCmd c).flash = s.flash := rfl
@[simp] theorem State.waitCmd_sec (c : Cmd) : (s.waitCmd c).sec = s.sec := rfl
@[simp] theorem State.waitCmd_elec (c : Cmd) : (s.waitCmd c).elec = s.elec := rfl
@[simp] theorem State.waitCmd_fw (c : Cmd) : (s.waitCmd c).fw = s.fw := rfl
@[simp] theorem State.waitCmd_ckps (c : Cmd) : (s.waitCmd c).ckps = s.ckps := rfl

@[simp] theorem State.updWdgEng_pending (q : Nat) (f : WdgEng → WdgEng) : (s.updWdgEng q f).pending = s.pending := rfl
@[simp] theorem State.updWdgEng_dp (q : Nat) (f : WdgEng → WdgEng) : (s.updWdgEng q f).dp = s.dp := rfl
@[simp] theorem State.updWdgEng_clk (q : Nat) (f : WdgEng → WdgEng) : (s.updWdgEng q f).clk = s.clk := rfl
@[simp] theorem State.updWdgEng_emap (q : Nat) (f : WdgEng → WdgEng) : (s.updWdgEng q f).emap = s.emap := rfl
@[simp] theorem State.updWdgEng_eqs (q : Nat) (f : WdgEng → WdgEng) : (s.updWdgEng q f).eqs = s.eqs := rfl
@[simp] theorem State.updWdgEng_arrays (q : Nat) (f : WdgEng → WdgEng) : (s.updWdgEng q f).arrays = s.arrays := rfl
@[simp] theorem State.updWdgEng_trellises (q : Nat) (f : WdgEng → WdgEng) : (s.updWdgEng q f).trellises = s.trellises := rfl
@[simp] theorem State.updWdgEng_cqs (q : Nat) (f : WdgEng → WdgEng) : (s.updWdgEng q f).cqs = s.cqs := rfl
@[simp] theorem State.updWdgEng_lnk (q : Nat) (f : WdgEng → WdgEng) : (s.updWdgEng q f).lnk = s.lnk := rfl
@[simp] theorem State.updWdgEng_shares (q : Nat) (f : WdgEng → WdgEng) : (s.updWdgEng q f).shares = s.shares := rfl
@[simp] theorem State.updWdgEng_portRun (q : Nat) (f : WdgEng → WdgEng) : (s.updWdgEng q f).portRun = s.portRun := rfl
@[simp] theorem State.updWdgEng_win (q : Nat) (f : WdgEng → WdgEng) : (s.updWdgEng q f).win = s.win := rfl
@[simp] theorem State.updWdgEng_pcts (q : Nat) (f : WdgEng → WdgEng) : (s.updWdgEng q f).pcts = s.pcts := rfl
@[simp] theorem State.updWdgEng_wear (q : Nat) (f : WdgEng → WdgEng) : (s.updWdgEng q f).wear = s.wear := rfl
@[simp] theorem State.updWdgEng_jobs (q : Nat) (f : WdgEng → WdgEng) : (s.updWdgEng q f).jobs = s.jobs := rfl
@[simp] theorem State.updWdgEng_stage (q : Nat) (f : WdgEng → WdgEng) : (s.updWdgEng q f).stage = s.stage := rfl
@[simp] theorem State.updWdgEng_mgrs (q : Nat) (f : WdgEng → WdgEng) : (s.updWdgEng q f).mgrs = s.mgrs := rfl
@[simp] theorem State.updWdgEng_roles (q : Nat) (f : WdgEng → WdgEng) : (s.updWdgEng q f).roles = s.roles := rfl
@[simp] theorem State.updWdgEng_integ (q : Nat) (f : WdgEng → WdgEng) : (s.updWdgEng q f).integ = s.integ := rfl
@[simp] theorem State.updWdgEng_pwr (q : Nat) (f : WdgEng → WdgEng) : (s.updWdgEng q f).pwr = s.pwr := rfl
@[simp] theorem State.updWdgEng_mbx (q : Nat) (f : WdgEng → WdgEng) : (s.updWdgEng q f).mbx = s.mbx := rfl
@[simp] theorem State.updWdgEng_flash (q : Nat) (f : WdgEng → WdgEng) : (s.updWdgEng q f).flash = s.flash := rfl
@[simp] theorem State.updWdgEng_sec (q : Nat) (f : WdgEng → WdgEng) : (s.updWdgEng q f).sec = s.sec := rfl
@[simp] theorem State.updWdgEng_elec (q : Nat) (f : WdgEng → WdgEng) : (s.updWdgEng q f).elec = s.elec := rfl
@[simp] theorem State.updWdgEng_fw (q : Nat) (f : WdgEng → WdgEng) : (s.updWdgEng q f).fw = s.fw := rfl
@[simp] theorem State.updWdgEng_ckps (q : Nat) (f : WdgEng → WdgEng) : (s.updWdgEng q f).ckps = s.ckps := rfl

@[simp] theorem State.countPort_pending (j b : Nat) : (s.countPort j b).pending = s.pending := rfl
@[simp] theorem State.countPort_dp (j b : Nat) : (s.countPort j b).dp = s.dp := rfl
@[simp] theorem State.countPort_clk (j b : Nat) : (s.countPort j b).clk = s.clk := rfl
@[simp] theorem State.countPort_emap (j b : Nat) : (s.countPort j b).emap = s.emap := rfl
@[simp] theorem State.countPort_eqs (j b : Nat) : (s.countPort j b).eqs = s.eqs := rfl
@[simp] theorem State.countPort_arrays (j b : Nat) : (s.countPort j b).arrays = s.arrays := rfl
@[simp] theorem State.countPort_trellises (j b : Nat) : (s.countPort j b).trellises = s.trellises := rfl
@[simp] theorem State.countPort_cqs (j b : Nat) : (s.countPort j b).cqs = s.cqs := rfl
@[simp] theorem State.countPort_lnk (j b : Nat) : (s.countPort j b).lnk = s.lnk := rfl
@[simp] theorem State.countPort_shares (j b : Nat) : (s.countPort j b).shares = s.shares := rfl
@[simp] theorem State.countPort_portRun (j b : Nat) : (s.countPort j b).portRun = Sparse.upd 0 s.portRun j (· + b) := rfl
@[simp] theorem State.countPort_win (j b : Nat) : (s.countPort j b).win = s.win := rfl
@[simp] theorem State.countPort_pcts (j b : Nat) : (s.countPort j b).pcts = s.pcts := rfl
@[simp] theorem State.countPort_wear (j b : Nat) : (s.countPort j b).wear = s.wear := rfl
@[simp] theorem State.countPort_jobs (j b : Nat) : (s.countPort j b).jobs = s.jobs := rfl
@[simp] theorem State.countPort_stage (j b : Nat) : (s.countPort j b).stage = s.stage := rfl
@[simp] theorem State.countPort_mgrs (j b : Nat) : (s.countPort j b).mgrs = s.mgrs := rfl
@[simp] theorem State.countPort_roles (j b : Nat) : (s.countPort j b).roles = s.roles := rfl
@[simp] theorem State.countPort_integ (j b : Nat) : (s.countPort j b).integ = s.integ := rfl
@[simp] theorem State.countPort_wdg (j b : Nat) : (s.countPort j b).wdg = s.wdg := rfl
@[simp] theorem State.countPort_pwr (j b : Nat) : (s.countPort j b).pwr = s.pwr := rfl
@[simp] theorem State.countPort_mbx (j b : Nat) : (s.countPort j b).mbx = s.mbx := rfl
@[simp] theorem State.countPort_flash (j b : Nat) : (s.countPort j b).flash = s.flash := rfl
@[simp] theorem State.countPort_sec (j b : Nat) : (s.countPort j b).sec = s.sec := rfl
@[simp] theorem State.countPort_elec (j b : Nat) : (s.countPort j b).elec = s.elec := rfl
@[simp] theorem State.countPort_fw (j b : Nat) : (s.countPort j b).fw = s.fw := rfl
@[simp] theorem State.countPort_ckps (j b : Nat) : (s.countPort j b).ckps = s.ckps := rfl

@[simp] theorem State.runOp_pending {α : Type} (e : Env) (m : Op α) : (s.runOp e m).1.pending = s.pending := rfl
@[simp] theorem State.runOp_clk {α : Type} (e : Env) (m : Op α) : (s.runOp e m).1.clk = s.clk := rfl
@[simp] theorem State.runOp_emap {α : Type} (e : Env) (m : Op α) : (s.runOp e m).1.emap = s.emap := rfl
@[simp] theorem State.runOp_eqs {α : Type} (e : Env) (m : Op α) : (s.runOp e m).1.eqs = s.eqs := rfl
@[simp] theorem State.runOp_arrays {α : Type} (e : Env) (m : Op α) : (s.runOp e m).1.arrays = s.arrays := rfl
@[simp] theorem State.runOp_trellises {α : Type} (e : Env) (m : Op α) : (s.runOp e m).1.trellises = s.trellises := rfl
@[simp] theorem State.runOp_cqs {α : Type} (e : Env) (m : Op α) : (s.runOp e m).1.cqs = s.cqs := rfl
@[simp] theorem State.runOp_lnk {α : Type} (e : Env) (m : Op α) : (s.runOp e m).1.lnk = s.lnk := rfl
@[simp] theorem State.runOp_shares {α : Type} (e : Env) (m : Op α) : (s.runOp e m).1.shares = s.shares := rfl
@[simp] theorem State.runOp_portRun {α : Type} (e : Env) (m : Op α) : (s.runOp e m).1.portRun = s.portRun := rfl
@[simp] theorem State.runOp_win {α : Type} (e : Env) (m : Op α) : (s.runOp e m).1.win = s.win := rfl
@[simp] theorem State.runOp_pcts {α : Type} (e : Env) (m : Op α) : (s.runOp e m).1.pcts = s.pcts := rfl
@[simp] theorem State.runOp_wear {α : Type} (e : Env) (m : Op α) : (s.runOp e m).1.wear = s.wear := rfl
@[simp] theorem State.runOp_jobs {α : Type} (e : Env) (m : Op α) : (s.runOp e m).1.jobs = s.jobs := rfl
@[simp] theorem State.runOp_stage {α : Type} (e : Env) (m : Op α) : (s.runOp e m).1.stage = s.stage := rfl
@[simp] theorem State.runOp_mgrs {α : Type} (e : Env) (m : Op α) : (s.runOp e m).1.mgrs = s.mgrs := rfl
@[simp] theorem State.runOp_roles {α : Type} (e : Env) (m : Op α) : (s.runOp e m).1.roles = s.roles := rfl
@[simp] theorem State.runOp_integ {α : Type} (e : Env) (m : Op α) : (s.runOp e m).1.integ = s.integ := rfl
@[simp] theorem State.runOp_wdg {α : Type} (e : Env) (m : Op α) : (s.runOp e m).1.wdg = s.wdg := rfl
@[simp] theorem State.runOp_pwr {α : Type} (e : Env) (m : Op α) : (s.runOp e m).1.pwr = s.pwr := rfl
@[simp] theorem State.runOp_mbx {α : Type} (e : Env) (m : Op α) : (s.runOp e m).1.mbx = s.mbx := rfl
@[simp] theorem State.runOp_flash {α : Type} (e : Env) (m : Op α) : (s.runOp e m).1.flash = s.flash := rfl
@[simp] theorem State.runOp_sec {α : Type} (e : Env) (m : Op α) : (s.runOp e m).1.sec = s.sec := rfl
@[simp] theorem State.runOp_elec {α : Type} (e : Env) (m : Op α) : (s.runOp e m).1.elec = s.elec := rfl
@[simp] theorem State.runOp_fw {α : Type} (e : Env) (m : Op α) : (s.runOp e m).1.fw = s.fw := rfl
@[simp] theorem State.runOp_ckps {α : Type} (e : Env) (m : Op α) : (s.runOp e m).1.ckps = s.ckps := rfl
@[simp] theorem State.runOp_dp {α : Type} (e : Env) (m : Op α) : (s.runOp e m).1.dp = (m.exec (s.dp.upsets e.upsets)).1 := rfl
@[simp] theorem State.runOp_result {α : Type} (e : Env) (m : Op α) : (s.runOp e m).2 = (m.exec (s.dp.upsets e.upsets)).2 := rfl

@[simp] theorem State.changeRegion_pending (g : Nat) (e : BitVec 8) : (s.changeRegion g e).pending = s.pending := by unfold State.changeRegion; split <;> rfl
@[simp] theorem State.changeRegion_clk (g : Nat) (e : BitVec 8) : (s.changeRegion g e).clk = s.clk := by unfold State.changeRegion; split <;> rfl
@[simp] theorem State.changeRegion_emap (g : Nat) (e : BitVec 8) : (s.changeRegion g e).emap = s.emap := by unfold State.changeRegion; split <;> rfl
@[simp] theorem State.changeRegion_eqs (g : Nat) (e : BitVec 8) : (s.changeRegion g e).eqs = s.eqs := by unfold State.changeRegion; split <;> rfl
@[simp] theorem State.changeRegion_arrays (g : Nat) (e : BitVec 8) : (s.changeRegion g e).arrays = s.arrays := by unfold State.changeRegion; split <;> rfl
@[simp] theorem State.changeRegion_trellises (g : Nat) (e : BitVec 8) : (s.changeRegion g e).trellises = s.trellises := by unfold State.changeRegion; split <;> rfl
@[simp] theorem State.changeRegion_cqs (g : Nat) (e : BitVec 8) : (s.changeRegion g e).cqs = s.cqs := by unfold State.changeRegion; split <;> rfl
@[simp] theorem State.changeRegion_lnk (g : Nat) (e : BitVec 8) : (s.changeRegion g e).lnk = s.lnk := by unfold State.changeRegion; split <;> rfl
@[simp] theorem State.changeRegion_shares (g : Nat) (e : BitVec 8) : (s.changeRegion g e).shares = s.shares := by unfold State.changeRegion; split <;> rfl
@[simp] theorem State.changeRegion_portRun (g : Nat) (e : BitVec 8) : (s.changeRegion g e).portRun = s.portRun := by unfold State.changeRegion; split <;> rfl
@[simp] theorem State.changeRegion_win (g : Nat) (e : BitVec 8) : (s.changeRegion g e).win = s.win := by unfold State.changeRegion; split <;> rfl
@[simp] theorem State.changeRegion_pcts (g : Nat) (e : BitVec 8) : (s.changeRegion g e).pcts = s.pcts := by unfold State.changeRegion; split <;> rfl
@[simp] theorem State.changeRegion_wear (g : Nat) (e : BitVec 8) : (s.changeRegion g e).wear = s.wear := by unfold State.changeRegion; split <;> rfl
@[simp] theorem State.changeRegion_jobs (g : Nat) (e : BitVec 8) : (s.changeRegion g e).jobs = s.jobs := by unfold State.changeRegion; split <;> rfl
@[simp] theorem State.changeRegion_stage (g : Nat) (e : BitVec 8) : (s.changeRegion g e).stage = s.stage := by unfold State.changeRegion; split <;> rfl
@[simp] theorem State.changeRegion_mgrs (g : Nat) (e : BitVec 8) : (s.changeRegion g e).mgrs = s.mgrs := by unfold State.changeRegion; split <;> rfl
@[simp] theorem State.changeRegion_roles (g : Nat) (e : BitVec 8) : (s.changeRegion g e).roles = s.roles := by unfold State.changeRegion; split <;> rfl
@[simp] theorem State.changeRegion_integ (g : Nat) (e : BitVec 8) : (s.changeRegion g e).integ = s.integ := by unfold State.changeRegion; split <;> rfl
@[simp] theorem State.changeRegion_wdg (g : Nat) (e : BitVec 8) : (s.changeRegion g e).wdg = s.wdg := by unfold State.changeRegion; split <;> rfl
@[simp] theorem State.changeRegion_pwr (g : Nat) (e : BitVec 8) : (s.changeRegion g e).pwr = s.pwr := by unfold State.changeRegion; split <;> rfl
@[simp] theorem State.changeRegion_mbx (g : Nat) (e : BitVec 8) : (s.changeRegion g e).mbx = s.mbx := by unfold State.changeRegion; split <;> rfl
@[simp] theorem State.changeRegion_flash (g : Nat) (e : BitVec 8) : (s.changeRegion g e).flash = s.flash := by unfold State.changeRegion; split <;> rfl
@[simp] theorem State.changeRegion_sec (g : Nat) (e : BitVec 8) : (s.changeRegion g e).sec = s.sec := by unfold State.changeRegion; split <;> rfl
@[simp] theorem State.changeRegion_elec (g : Nat) (e : BitVec 8) : (s.changeRegion g e).elec = s.elec := by unfold State.changeRegion; split <;> rfl
@[simp] theorem State.changeRegion_fw (g : Nat) (e : BitVec 8) : (s.changeRegion g e).fw = s.fw := by unfold State.changeRegion; split <;> rfl
@[simp] theorem State.changeRegion_ckps (g : Nat) (e : BitVec 8) : (s.changeRegion g e).ckps = s.ckps := by unfold State.changeRegion; split <;> rfl

@[simp] theorem State.updPort_pending (p : Port) (f : PortSt → PortSt) : (s.updPort p f).pending = s.pending := by cases p <;> rfl
@[simp] theorem State.updPort_dp (p : Port) (f : PortSt → PortSt) : (s.updPort p f).dp = s.dp := by cases p <;> rfl
@[simp] theorem State.updPort_clk (p : Port) (f : PortSt → PortSt) : (s.updPort p f).clk = s.clk := by cases p <;> rfl
@[simp] theorem State.updPort_emap (p : Port) (f : PortSt → PortSt) : (s.updPort p f).emap = s.emap := by cases p <;> rfl
@[simp] theorem State.updPort_eqs (p : Port) (f : PortSt → PortSt) : (s.updPort p f).eqs = s.eqs := by cases p <;> rfl
@[simp] theorem State.updPort_arrays (p : Port) (f : PortSt → PortSt) : (s.updPort p f).arrays = s.arrays := by cases p <;> rfl
@[simp] theorem State.updPort_trellises (p : Port) (f : PortSt → PortSt) : (s.updPort p f).trellises = s.trellises := by cases p <;> rfl
@[simp] theorem State.updPort_cqs (p : Port) (f : PortSt → PortSt) : (s.updPort p f).cqs = s.cqs := by cases p <;> rfl
@[simp] theorem State.updPort_lnk (p : Port) (f : PortSt → PortSt) : (s.updPort p f).lnk = s.lnk := by cases p <;> rfl
@[simp] theorem State.updPort_shares (p : Port) (f : PortSt → PortSt) : (s.updPort p f).shares = s.shares := by cases p <;> rfl
@[simp] theorem State.updPort_portRun (p : Port) (f : PortSt → PortSt) : (s.updPort p f).portRun = s.portRun := by cases p <;> rfl
@[simp] theorem State.updPort_win (p : Port) (f : PortSt → PortSt) : (s.updPort p f).win = s.win := by cases p <;> rfl
@[simp] theorem State.updPort_pcts (p : Port) (f : PortSt → PortSt) : (s.updPort p f).pcts = s.pcts := by cases p <;> rfl
@[simp] theorem State.updPort_wear (p : Port) (f : PortSt → PortSt) : (s.updPort p f).wear = s.wear := by cases p <;> rfl
@[simp] theorem State.updPort_jobs (p : Port) (f : PortSt → PortSt) : (s.updPort p f).jobs = s.jobs := by cases p <;> rfl
@[simp] theorem State.updPort_stage (p : Port) (f : PortSt → PortSt) : (s.updPort p f).stage = s.stage := by cases p <;> rfl
@[simp] theorem State.updPort_mgrs (p : Port) (f : PortSt → PortSt) : (s.updPort p f).mgrs = s.mgrs := by cases p <;> rfl
@[simp] theorem State.updPort_roles (p : Port) (f : PortSt → PortSt) : (s.updPort p f).roles = s.roles := by cases p <;> rfl
@[simp] theorem State.updPort_integ (p : Port) (f : PortSt → PortSt) : (s.updPort p f).integ = s.integ := by cases p <;> rfl
@[simp] theorem State.updPort_wdg (p : Port) (f : PortSt → PortSt) : (s.updPort p f).wdg = s.wdg := by cases p <;> rfl
@[simp] theorem State.updPort_pwr (p : Port) (f : PortSt → PortSt) : (s.updPort p f).pwr = s.pwr := by cases p <;> rfl
@[simp] theorem State.updPort_flash (p : Port) (f : PortSt → PortSt) : (s.updPort p f).flash = s.flash := by cases p <;> rfl
@[simp] theorem State.updPort_sec (p : Port) (f : PortSt → PortSt) : (s.updPort p f).sec = s.sec := by cases p <;> rfl
@[simp] theorem State.updPort_elec (p : Port) (f : PortSt → PortSt) : (s.updPort p f).elec = s.elec := by cases p <;> rfl
@[simp] theorem State.updPort_fw (p : Port) (f : PortSt → PortSt) : (s.updPort p f).fw = s.fw := by cases p <;> rfl
@[simp] theorem State.updPort_ckps (p : Port) (f : PortSt → PortSt) : (s.updPort p f).ckps = s.ckps := by cases p <;> rfl

@[simp] theorem State.updSlot_pending (p : Port) (n : Nat) (f : Slot → Slot) : (s.updSlot p n f).pending = s.pending := by cases p <;> rfl
@[simp] theorem State.updSlot_dp (p : Port) (n : Nat) (f : Slot → Slot) : (s.updSlot p n f).dp = s.dp := by cases p <;> rfl
@[simp] theorem State.updSlot_clk (p : Port) (n : Nat) (f : Slot → Slot) : (s.updSlot p n f).clk = s.clk := by cases p <;> rfl
@[simp] theorem State.updSlot_emap (p : Port) (n : Nat) (f : Slot → Slot) : (s.updSlot p n f).emap = s.emap := by cases p <;> rfl
@[simp] theorem State.updSlot_eqs (p : Port) (n : Nat) (f : Slot → Slot) : (s.updSlot p n f).eqs = s.eqs := by cases p <;> rfl
@[simp] theorem State.updSlot_arrays (p : Port) (n : Nat) (f : Slot → Slot) : (s.updSlot p n f).arrays = s.arrays := by cases p <;> rfl
@[simp] theorem State.updSlot_trellises (p : Port) (n : Nat) (f : Slot → Slot) : (s.updSlot p n f).trellises = s.trellises := by cases p <;> rfl
@[simp] theorem State.updSlot_cqs (p : Port) (n : Nat) (f : Slot → Slot) : (s.updSlot p n f).cqs = s.cqs := by cases p <;> rfl
@[simp] theorem State.updSlot_lnk (p : Port) (n : Nat) (f : Slot → Slot) : (s.updSlot p n f).lnk = s.lnk := by cases p <;> rfl
@[simp] theorem State.updSlot_shares (p : Port) (n : Nat) (f : Slot → Slot) : (s.updSlot p n f).shares = s.shares := by cases p <;> rfl
@[simp] theorem State.updSlot_portRun (p : Port) (n : Nat) (f : Slot → Slot) : (s.updSlot p n f).portRun = s.portRun := by cases p <;> rfl
@[simp] theorem State.updSlot_win (p : Port) (n : Nat) (f : Slot → Slot) : (s.updSlot p n f).win = s.win := by cases p <;> rfl
@[simp] theorem State.updSlot_pcts (p : Port) (n : Nat) (f : Slot → Slot) : (s.updSlot p n f).pcts = s.pcts := by cases p <;> rfl
@[simp] theorem State.updSlot_wear (p : Port) (n : Nat) (f : Slot → Slot) : (s.updSlot p n f).wear = s.wear := by cases p <;> rfl
@[simp] theorem State.updSlot_jobs (p : Port) (n : Nat) (f : Slot → Slot) : (s.updSlot p n f).jobs = s.jobs := by cases p <;> rfl
@[simp] theorem State.updSlot_stage (p : Port) (n : Nat) (f : Slot → Slot) : (s.updSlot p n f).stage = s.stage := by cases p <;> rfl
@[simp] theorem State.updSlot_mgrs (p : Port) (n : Nat) (f : Slot → Slot) : (s.updSlot p n f).mgrs = s.mgrs := by cases p <;> rfl
@[simp] theorem State.updSlot_roles (p : Port) (n : Nat) (f : Slot → Slot) : (s.updSlot p n f).roles = s.roles := by cases p <;> rfl
@[simp] theorem State.updSlot_integ (p : Port) (n : Nat) (f : Slot → Slot) : (s.updSlot p n f).integ = s.integ := by cases p <;> rfl
@[simp] theorem State.updSlot_wdg (p : Port) (n : Nat) (f : Slot → Slot) : (s.updSlot p n f).wdg = s.wdg := by cases p <;> rfl
@[simp] theorem State.updSlot_pwr (p : Port) (n : Nat) (f : Slot → Slot) : (s.updSlot p n f).pwr = s.pwr := by cases p <;> rfl
@[simp] theorem State.updSlot_flash (p : Port) (n : Nat) (f : Slot → Slot) : (s.updSlot p n f).flash = s.flash := by cases p <;> rfl
@[simp] theorem State.updSlot_sec (p : Port) (n : Nat) (f : Slot → Slot) : (s.updSlot p n f).sec = s.sec := by cases p <;> rfl
@[simp] theorem State.updSlot_elec (p : Port) (n : Nat) (f : Slot → Slot) : (s.updSlot p n f).elec = s.elec := by cases p <;> rfl
@[simp] theorem State.updSlot_fw (p : Port) (n : Nat) (f : Slot → Slot) : (s.updSlot p n f).fw = s.fw := by cases p <;> rfl
@[simp] theorem State.updSlot_ckps (p : Port) (n : Nat) (f : Slot → Slot) : (s.updSlot p n f).ckps = s.ckps := by cases p <;> rfl

@[simp] theorem State.bar0Discard_pending (p : Port) (n : Nat) : (s.bar0Discard p n).pending = s.pending := by cases p <;> rfl
@[simp] theorem State.bar0Discard_dp (p : Port) (n : Nat) : (s.bar0Discard p n).dp = s.dp := by cases p <;> rfl
@[simp] theorem State.bar0Discard_clk (p : Port) (n : Nat) : (s.bar0Discard p n).clk = s.clk := by cases p <;> rfl
@[simp] theorem State.bar0Discard_emap (p : Port) (n : Nat) : (s.bar0Discard p n).emap = s.emap := by cases p <;> rfl
@[simp] theorem State.bar0Discard_eqs (p : Port) (n : Nat) : (s.bar0Discard p n).eqs = s.eqs := by cases p <;> rfl
@[simp] theorem State.bar0Discard_arrays (p : Port) (n : Nat) : (s.bar0Discard p n).arrays = s.arrays := by cases p <;> rfl
@[simp] theorem State.bar0Discard_trellises (p : Port) (n : Nat) : (s.bar0Discard p n).trellises = s.trellises := by cases p <;> rfl
@[simp] theorem State.bar0Discard_cqs (p : Port) (n : Nat) : (s.bar0Discard p n).cqs = s.cqs := by cases p <;> rfl
@[simp] theorem State.bar0Discard_lnk (p : Port) (n : Nat) : (s.bar0Discard p n).lnk = s.lnk := by cases p <;> rfl
@[simp] theorem State.bar0Discard_shares (p : Port) (n : Nat) : (s.bar0Discard p n).shares = s.shares := by cases p <;> rfl
@[simp] theorem State.bar0Discard_portRun (p : Port) (n : Nat) : (s.bar0Discard p n).portRun = s.portRun := by cases p <;> rfl
@[simp] theorem State.bar0Discard_win (p : Port) (n : Nat) : (s.bar0Discard p n).win = s.win := by cases p <;> rfl
@[simp] theorem State.bar0Discard_pcts (p : Port) (n : Nat) : (s.bar0Discard p n).pcts = s.pcts := by cases p <;> rfl
@[simp] theorem State.bar0Discard_wear (p : Port) (n : Nat) : (s.bar0Discard p n).wear = s.wear := by cases p <;> rfl
@[simp] theorem State.bar0Discard_jobs (p : Port) (n : Nat) : (s.bar0Discard p n).jobs = s.jobs := by cases p <;> rfl
@[simp] theorem State.bar0Discard_stage (p : Port) (n : Nat) : (s.bar0Discard p n).stage = s.stage := by cases p <;> rfl
@[simp] theorem State.bar0Discard_mgrs (p : Port) (n : Nat) : (s.bar0Discard p n).mgrs = s.mgrs := by cases p <;> rfl
@[simp] theorem State.bar0Discard_roles (p : Port) (n : Nat) : (s.bar0Discard p n).roles = s.roles := by cases p <;> rfl
@[simp] theorem State.bar0Discard_integ (p : Port) (n : Nat) : (s.bar0Discard p n).integ = s.integ := by cases p <;> rfl
@[simp] theorem State.bar0Discard_wdg (p : Port) (n : Nat) : (s.bar0Discard p n).wdg = s.wdg := by cases p <;> rfl
@[simp] theorem State.bar0Discard_pwr (p : Port) (n : Nat) : (s.bar0Discard p n).pwr = s.pwr := by cases p <;> rfl
@[simp] theorem State.bar0Discard_flash (p : Port) (n : Nat) : (s.bar0Discard p n).flash = s.flash := by cases p <;> rfl
@[simp] theorem State.bar0Discard_sec (p : Port) (n : Nat) : (s.bar0Discard p n).sec = s.sec := by cases p <;> rfl
@[simp] theorem State.bar0Discard_elec (p : Port) (n : Nat) : (s.bar0Discard p n).elec = s.elec := by cases p <;> rfl
@[simp] theorem State.bar0Discard_fw (p : Port) (n : Nat) : (s.bar0Discard p n).fw = s.fw := by cases p <;> rfl
@[simp] theorem State.bar0Discard_ckps (p : Port) (n : Nat) : (s.bar0Discard p n).ckps = s.ckps := by cases p <;> rfl

/-! ### Reading back what an update wrote -/

@[simp] theorem State.updLink_link (n : Nat) (f : LinkSt → LinkSt) : (s.updLink n f).link n = f (s.link n) :=
  Sparse.get_upd_self s.lnk.links n f
theorem State.updLink_link_ne {n m : Nat} (f : LinkSt → LinkSt) (h : m ≠ n) : (s.updLink n f).link m = s.link m :=
  Sparse.get_upd_ne s.lnk.links f h
@[simp] theorem State.updJob_job (n : Nat) (f : Job → Job) : (s.updJob n f).job n = f (s.job n) := Sparse.get_upd_self s.jobs n f
theorem State.updJob_job_ne {n m : Nat} (f : Job → Job) (h : m ≠ n) : (s.updJob n f).job m = s.job m := Sparse.get_upd_ne s.jobs f h
@[simp] theorem State.updEq_eq (n : Nat) (f : Eq → Eq) : (s.updEq n f).eq n = f (s.eq n) := Sparse.get_upd_self s.eqs n f
theorem State.updEq_eq_ne {n m : Nat} (f : Eq → Eq) (h : m ≠ n) : (s.updEq n f).eq m = s.eq m := Sparse.get_upd_ne s.eqs f h
@[simp] theorem State.updCq_cq (n : Nat) (f : Cq → Cq) : (s.updCq n f).cq n = f (s.cq n) := Sparse.get_upd_self s.cqs n f
theorem State.updCq_cq_ne {n m : Nat} (f : Cq → Cq) (h : m ≠ n) : (s.updCq n f).cq m = s.cq m := Sparse.get_upd_ne s.cqs f h
@[simp] theorem State.updCkp_ckp (n : Nat) (f : Ckp → Ckp) : (s.updCkp n f).ckp n = f (s.ckp n) := Sparse.get_upd_self s.ckps n f
theorem State.updCkp_ckp_ne {n m : Nat} (f : Ckp → Ckp) (h : m ≠ n) : (s.updCkp n f).ckp m = s.ckp m := Sparse.get_upd_ne s.ckps f h
@[simp] theorem LinkSt.updVc_vc (l : LinkSt) (v : Nat) (f : LinkVc → LinkVc) : (l.updVc v f).vc v = f (l.vc v) :=
  Sparse.get_upd_self l.vcs v f
theorem LinkSt.updVc_vc_ne (l : LinkSt) {v u : Nat} (f : LinkVc → LinkVc) (h : u ≠ v) : (l.updVc v f).vc u = l.vc u :=
  Sparse.get_upd_ne l.vcs f h
@[simp] theorem State.updPort_port (p : Port) (f : PortSt → PortSt) : (s.updPort p f).port p = f (s.port p) := by cases p <;> rfl
theorem State.updPort_port_ne {p q : Port} (f : PortSt → PortSt) (h : q ≠ p) : (s.updPort p f).port q = s.port q := by
  cases p <;> cases q <;> first | rfl | exact absurd rfl h
@[simp] theorem State.updSlot_slot (p : Port) (n : Nat) (f : Slot → Slot) : (s.updSlot p n f).slot p n = f (s.slot p n) := by
  simp only [State.updSlot, State.slot, State.updPort_port]
  exact Sparse.get_upd_self _ n f
theorem State.updSlot_slot_ne {p r : Port} {n m : Nat} (f : Slot → Slot) (h : ¬(r = p ∧ m = n)) :
    (s.updSlot p n f).slot r m = s.slot r m := by
  by_cases hp : r = p
  · subst hp
    simp only [State.updSlot, State.slot, State.updPort_port]
    exact Sparse.get_upd_ne _ f fun e => h ⟨rfl, e⟩
  · simp only [State.updSlot, State.slot, State.updPort_port_ne s _ hp]

/-! ### Messages, vectors and records change only themselves in the data plane -/

variable (d : Dp)

@[simp] theorem Dp.send_now (m : OutMsg) : (d.send m).now = d.now := rfl
@[simp] theorem Dp.send_coord (m : OutMsg) : (d.send m).coord = d.coord := rfl
@[simp] theorem Dp.send_serial (m : OutMsg) : (d.send m).serial = d.serial := rfl
@[simp] theorem Dp.send_mem (m : OutMsg) : (d.send m).mem = d.mem := rfl
@[simp] theorem Dp.send_wet (m : OutMsg) : (d.send m).wet = d.wet := rfl
@[simp] theorem Dp.send_obs (m : OutMsg) : (d.send m).obs = d.obs := rfl
@[simp] theorem Dp.send_freeCtr (m : OutMsg) : (d.send m).freeCtr = d.freeCtr := rfl
@[simp] theorem Dp.send_evr (m : OutMsg) : (d.send m).evr = d.evr := rfl
@[simp] theorem Dp.send_msixA (m : OutMsg) : (d.send m).msixA = d.msixA := rfl
@[simp] theorem Dp.send_msixB (m : OutMsg) : (d.send m).msixB = d.msixB := rfl
@[simp] theorem Dp.send_out (m : OutMsg) : (d.send m).out = d.out ++ [m] := rfl

@[simp] theorem Dp.raise_now (p : Port) (v : Nat) : (d.raise p v).now = d.now := by
  unfold Dp.raise
  cases p <;> simp only <;> split <;> rfl
@[simp] theorem Dp.raiseBoth_now (v : Nat) : (d.raiseBoth v).now = d.now := by simp [Dp.raiseBoth]
@[simp] theorem Dp.raise_coord (p : Port) (v : Nat) : (d.raise p v).coord = d.coord := by
  unfold Dp.raise
  cases p <;> simp only <;> split <;> rfl
@[simp] theorem Dp.raiseBoth_coord (v : Nat) : (d.raiseBoth v).coord = d.coord := by simp [Dp.raiseBoth]
@[simp] theorem Dp.raise_serial (p : Port) (v : Nat) : (d.raise p v).serial = d.serial := by
  unfold Dp.raise
  cases p <;> simp only <;> split <;> rfl
@[simp] theorem Dp.raiseBoth_serial (v : Nat) : (d.raiseBoth v).serial = d.serial := by simp [Dp.raiseBoth]
@[simp] theorem Dp.raise_mem (p : Port) (v : Nat) : (d.raise p v).mem = d.mem := by
  unfold Dp.raise
  cases p <;> simp only <;> split <;> rfl
@[simp] theorem Dp.raiseBoth_mem (v : Nat) : (d.raiseBoth v).mem = d.mem := by simp [Dp.raiseBoth]
@[simp] theorem Dp.raise_wet (p : Port) (v : Nat) : (d.raise p v).wet = d.wet := by
  unfold Dp.raise
  cases p <;> simp only <;> split <;> rfl
@[simp] theorem Dp.raiseBoth_wet (v : Nat) : (d.raiseBoth v).wet = d.wet := by simp [Dp.raiseBoth]
@[simp] theorem Dp.raise_obs (p : Port) (v : Nat) : (d.raise p v).obs = d.obs := by
  unfold Dp.raise
  cases p <;> simp only <;> split <;> rfl
@[simp] theorem Dp.raiseBoth_obs (v : Nat) : (d.raiseBoth v).obs = d.obs := by simp [Dp.raiseBoth]
@[simp] theorem Dp.raise_freeCtr (p : Port) (v : Nat) : (d.raise p v).freeCtr = d.freeCtr := by
  unfold Dp.raise
  cases p <;> simp only <;> split <;> rfl
@[simp] theorem Dp.raiseBoth_freeCtr (v : Nat) : (d.raiseBoth v).freeCtr = d.freeCtr := by simp [Dp.raiseBoth]
@[simp] theorem Dp.raise_evr (p : Port) (v : Nat) : (d.raise p v).evr = d.evr := by
  unfold Dp.raise
  cases p <;> simp only <;> split <;> rfl
@[simp] theorem Dp.raiseBoth_evr (v : Nat) : (d.raiseBoth v).evr = d.evr := by simp [Dp.raiseBoth]

@[simp] theorem Dp.record_now (ty : Nat) (so : BitVec 16) (st : Status) (l : List Byte) : (d.record ty so st l).now = d.now := by
  unfold Dp.record
  split
  · rfl
  · simp only; split <;> simp
@[simp] theorem Dp.record_coord (ty : Nat) (so : BitVec 16) (st : Status) (l : List Byte) : (d.record ty so st l).coord = d.coord := by
  unfold Dp.record
  split
  · rfl
  · simp only; split <;> simp
@[simp] theorem Dp.record_serial (ty : Nat) (so : BitVec 16) (st : Status) (l : List Byte) : (d.record ty so st l).serial = d.serial := by
  unfold Dp.record
  split
  · rfl
  · simp only; split <;> simp
@[simp] theorem Dp.record_mem (ty : Nat) (so : BitVec 16) (st : Status) (l : List Byte) : (d.record ty so st l).mem = d.mem := by
  unfold Dp.record
  split
  · rfl
  · simp only; split <;> simp
@[simp] theorem Dp.record_wet (ty : Nat) (so : BitVec 16) (st : Status) (l : List Byte) : (d.record ty so st l).wet = d.wet := by
  unfold Dp.record
  split
  · rfl
  · simp only; split <;> simp
@[simp] theorem Dp.record_obs (ty : Nat) (so : BitVec 16) (st : Status) (l : List Byte) : (d.record ty so st l).obs = d.obs := by
  unfold Dp.record
  split
  · rfl
  · simp only; split <;> simp
@[simp] theorem Dp.record_freeCtr (ty : Nat) (so : BitVec 16) (st : Status) (l : List Byte) : (d.record ty so st l).freeCtr = d.freeCtr := by
  unfold Dp.record
  split
  · rfl
  · simp only; split <;> simp

end Sys2Proof.Machine
end

