-- ==== Sys2Proof/Laws/LinkOps.lean ====
section
/-! SUPPORT. What the shared link operations do: one lemma for the link itself, one for everything else. -/
namespace Sys2Proof.Machine

/-! ### Data planes that differ in records, messages and vectors -/

theorem Dp.Quiet.refl (d : Dp) : d.Quiet d := rfl
theorem Dp.Quiet.trans {a b c : Dp} (h : a.Quiet b) (k : b.Quiet c) : a.Quiet c := by
  unfold Dp.Quiet at *
  rw [h] at k
  exact k
theorem Dp.Quiet.mem {d e : Dp} (h : d.Quiet e) : e.mem = d.mem := by rw [h]
theorem Dp.Quiet.wet {d e : Dp} (h : d.Quiet e) : e.wet = d.wet := by rw [h]
theorem Dp.quiet_send (d : Dp) (m : OutMsg) : d.Quiet (d.send m) := rfl
theorem Dp.quiet_raise (d : Dp) (p : Port) (v : Nat) : d.Quiet (d.raise p v) := by
  unfold Dp.Quiet Dp.raise
  cases p <;> simp only <;> split <;> rfl
theorem Dp.quiet_raiseBoth (d : Dp) (v : Nat) : d.Quiet (d.raiseBoth v) := (d.quiet_raise .A v).trans (Dp.quiet_raise _ .B v)
theorem Dp.quiet_record (d : Dp) (ty : Nat) (so : BitVec 16) (st : Status) (l : List Byte) : d.Quiet (d.record ty so st l) := by
  unfold Dp.record
  split
  · rfl
  · simp only
    split
    · exact (show d.Quiet { d with evr := _ } from rfl).trans (Dp.quiet_raiseBoth _ 12)
    · rfl

/-! ### One link changes -/

theorem OnlyLink.refl (n : Nat) (s : State) : OnlyLink n s s := ⟨rfl, rfl, rfl, fun _ _ => rfl⟩
theorem OnlyLink.trans {n : Nat} {a b c : State} (h : OnlyLink n a b) (k : OnlyLink n b c) : OnlyLink n a c := by
  refine ⟨?_, h.quiet.trans k.quiet, ?_, fun m hm => (k.links m hm).trans (h.links m hm)⟩
  · have e := k.rest
    rw [h.rest] at e
    exact e
  · have e := k.lnk
    rw [h.lnk] at e
    exact e

theorem onlyLink_upd (n : Nat) (s : State) (f : LinkSt → LinkSt) : OnlyLink n s (s.updLink n f) :=
  ⟨rfl, rfl, rfl, fun _ hm => s.updLink_link_ne f hm⟩
theorem onlyLink_onDp (n : Nat) {s : State} {f : Dp → Dp} (h : s.dp.Quiet (f s.dp)) : OnlyLink n s (s.onDp f) := ⟨rfl, h, rfl, fun _ _ => rfl⟩
theorem onlyLink_send (n : Nat) (s : State) (m : OutMsg) : OnlyLink n s (s.send m) := onlyLink_onDp n (s.dp.quiet_send m)
theorem onlyLink_record (n : Nat) (s : State) (ty : Nat) (so : BitVec 16) (st : Status) (l : List Byte) :
    OnlyLink n s (s.record ty so st l) := onlyLink_onDp n (s.dp.quiet_record ty so st l)
@[simp] theorem State.onDp_link (s : State) (f : Dp → Dp) (n : Nat) : (s.onDp f).link n = s.link n := rfl
@[simp] theorem State.send_link (s : State) (m : OutMsg) (n : Nat) : (s.send m).link n = s.link n := rfl
@[simp] theorem State.record_link (s : State) (ty : Nat) (so : BitVec 16) (st : Status) (l : List Byte) (n : Nat) :
    (s.record ty so st l).link n = s.link n := rfl

theorem onlyLink_moveLink (s : State) (n : Nat) (new : LnkState) (c : Nat) (st : Status) : OnlyLink n s (s.moveLink n new c st) :=
  (onlyLink_upd n s _).trans (onlyLink_record n _ _ _ _ _)
theorem onlyLink_linkTrain (s : State) (n c : Nat) : OnlyLink n s (s.linkTrain n c) :=
  (onlyLink_moveLink s n .train c .ok).trans (onlyLink_upd n _ _)
theorem onlyLink_linkDown (s : State) (n c : Nat) (st : Status) : OnlyLink n s (s.linkDown n c st) :=
  (onlyLink_moveLink s n .down c st).trans (onlyLink_upd n _ _)
theorem onlyLink_linkActive (s : State) (n c : Nat) (r : Bool) : OnlyLink n s (s.linkActive n c r) :=
  (onlyLink_upd n s _).trans (onlyLink_moveLink _ n _ c .ok)

/-- The state a link moves to is the one it has. -/
@[simp] theorem State.moveLink_st (s : State) (n : Nat) (new : LnkState) (c : Nat) (st : Status) :
    ((s.moveLink n new c st).link n).st = new := by
  simp only [State.moveLink, State.linkRecord, State.record_link, State.updLink_link]
  repeat' split
  all_goals rfl

/-- A link that leaves ACTIVE or DEGRADED sets DOWN_EVENT and keeps its session. -/
theorem State.moveLink_leaves {s : State} {n : Nat} {new : LnkState} {c : Nat} {st : Status} (h : (s.link n).st.up = true)
    (hn : new.up = false) : ((s.moveLink n new c st).link n).downEvent = (s.link n).downEvent.hwSet ∧
      ((s.moveLink n new c st).link n).kept.isSome = true := by
  simp only [State.moveLink, State.linkRecord, State.record_link, State.updLink_link, h, hn, Bool.not_false, Bool.and_self, if_true]
  constructor <;> (repeat' split) <;> rfl

@[simp] theorem State.linkTrain_st (s : State) (n c : Nat) : ((s.linkTrain n c).link n).st = .train := by
  simp [State.linkTrain]
@[simp] theorem State.linkTrain_waiting (s : State) (n c : Nat) : ((s.linkTrain n c).link n).waiting = false := by
  simp [State.linkTrain]
@[simp] theorem State.linkDown_st (s : State) (n c : Nat) (st : Status) : ((s.linkDown n c st).link n).st = .down := by
  simp [State.linkDown]

/-- What moving a link leaves of the fields that no transition writes. -/
theorem State.moveLink_keeps (s : State) (n : Nat) (new : LnkState) (c : Nat) (st : Status) :
    ((s.moveLink n new c st).link n).enable = (s.link n).enable ∧ ((s.moveLink n new c st).link n).bad = (s.link n).bad ∧
    ((s.moveLink n new c st).link n).sticky = (s.link n).sticky ∧ ((s.moveLink n new c st).link n).laneMask = (s.link n).laneMask ∧
    ((s.moveLink n new c st).link n).nonce = (s.link n).nonce ∧ ((s.moveLink n new c st).link n).vcs = (s.link n).vcs ∧
    ((s.moveLink n new c st).link n).waiting = (s.link n).waiting ∧ ((s.moveLink n new c st).link n).ctrl = (s.link n).ctrl := by
  simp only [State.moveLink, State.linkRecord, State.record_link, State.updLink_link]
  refine ⟨?_, ?_, ?_, ?_, ?_, ?_, ?_, ?_⟩ <;> (repeat' split) <;> rfl

/-- The wait in DOWN and its doubling (08 R288). -/
theorem State.linkDown_wait (s : State) (n c : Nat) (st : Status) (hc : c ≠ causeProtocol) :
    ((s.linkDown n c st).link n).waiting = true ∧ ((s.linkDown n c st).link n).waitMs = (s.link n).backoff ∧
    ((s.linkDown n c st).link n).backoff = min (2 * (s.link n).backoff) 1280 ∧ ((s.linkDown n c st).link n).laneMask = 0 := by
  simp only [State.linkDown, State.updLink_link, hc, if_false]
  simp only [State.moveLink, State.linkRecord, State.record_link, State.updLink_link]
  refine ⟨trivial, ?_, ?_, trivial⟩ <;> (repeat' split) <;> first | rfl | simp_all [LnkState.up]

end Sys2Proof.Machine
end

