-- ==== Sys2Proof/Laws/Mailbox.lean ====
section
/-! SUPPORT. What completing a mailbox command does, said once: its slot is DONE with status and response, and beside messages, vectors and records nothing else changes. -/
namespace Sys2Proof.Machine

/-- No accepted command is ready: nothing happens. -/
theorem State.runCmd_idle {s : State} {seq : BitVec 48} {code : Nat} {f : Cmd → State × Status × List Byte} (h : s.cmdReady seq code = none) :
    s.runCmd seq code f = s := by simp [State.runCmd, h]

/-- A command that is ready runs to its completion. -/
theorem State.runCmd_ready {s : State} {seq : BitVec 48} {code : Nat} {c : Cmd} (f : Cmd → State × Status × List Byte) (h : s.Ready seq code c) :
    s.runCmd seq code f = (f c).1.finish c (f c).2.1 (if (f c).2.1 = .ok then (f c).2.2 else []) := by simp [State.runCmd, h.ready]

/-- Completing a live command with any status but ST_AUTH, which is counted. -/
theorem State.finish_only {s : State} {c : Cmd} {st : Status} {resp : List Byte} (ho : (s.mbx.cmds.find? fun x => x.seq == c.seq) = some c)
    (hl : c.live = true) (hs : st ≠ .auth) : OnlyAnswers s (s.finish c st resp) c st resp := by
  have e : s.finish c st resp = (({ s with mbx := { s.mbx with cmds := s.mbx.cmds.filter fun x => x.seq != c.seq } } : State).updSlot c.port c.slot
      fun q => { q with st := .done, status := st.toCode, resp }).raise c.port c.slot := by simp [State.finish, ho, hl, hs]
  rw [e]
  refine ⟨⟨?_, ?_, ?_, ?_⟩, ?_, ?_, ?_, ?_⟩
  · exact congrArg Slot.st (State.updSlot_slot _ c.port c.slot _)
  · exact congrArg Slot.status (State.updSlot_slot _ c.port c.slot _)
  · exact congrArg Slot.resp (State.updSlot_slot _ c.port c.slot _)
  · cases h : c.port <;> simp [State.updSlot, State.updPort]
  · cases h : c.port <;> simp [State.updSlot, State.updPort, State.raise, State.onDp]
  · cases h : c.port <;> exact Dp.quiet_raise _ _ _
  · cases h : c.port <;> simp [State.updSlot, State.updPort]
  · intro p n hn
    exact State.updSlot_slot_ne _ _ fun k => hn (by rw [k.1, k.2])

/-- The same where a command changed the state before it completes, but not the commands that wait. -/
theorem State.finish_after {s w : State} {c : Cmd} {st : Status} {resp : List Byte} (ho : (s.mbx.cmds.find? fun x => x.seq == c.seq) = some c)
    (hl : c.live = true) (hm : w.mbx.cmds = s.mbx.cmds) (hs : st ≠ .auth) :
    Answered s (w.finish c st resp) c st resp ∧ OnlyAnswers w (w.finish c st resp) c st resp := by
  have h : OnlyAnswers w (w.finish c st resp) c st resp := State.finish_only (hm ▸ ho) hl hs
  exact ⟨⟨h.done.done, h.done.status, h.done.resp, hm ▸ h.done.gone⟩, h⟩

/-- A command that only answers. -/
theorem State.runCmd_only {s : State} {seq : BitVec 48} {code : Nat} {c : Cmd} {f : Cmd → State × Status × List Byte} {st : Status} {resp : List Byte}
    (h : s.Ready seq code c) (hf : f c = (s, st, resp)) (hs : st ≠ .auth) :
    OnlyAnswers s (s.runCmd seq code f) c st (if st = .ok then resp else []) := by
  rw [State.runCmd_ready f h, hf]
  exact State.finish_only h.only h.live hs

end Sys2Proof.Machine
end

