-- ==== Sys2Proof/WellFormed.lean ====
section
/-! DEFINITION. What the sender of a command owes beyond the operand types: the lengths that the spec gives packets, writes, bursts and requests. The meanings do not rest on it: a command that breaks it still has its effect. -/
namespace Sys2Proof

/-- LENGTH counts the 32-byte words after the header, at most 128 (08 Table 8.6). -/
def Packet.ok (p : Packet) : Bool := decide (p.length.toNat ≤ 128) && p.data.length == 32 * p.length.toNat

/-- A memory write carries 1 to 4,096 bytes (07 R257, R258). -/
def writeLen (n : Nat) : Bool := decide (1 ≤ n) && decide (n ≤ 4096)

/-- A request payload fills at most 4,032 bytes of its slot (14 Table 14.5). -/
def SlotReq.ok (q : SlotReq) : Bool := decide (q.payload.length ≤ 4032)

/-- A flit is 256 bytes (08 R268, Table 8.3). -/
def FlitIn.ok (f : FlitIn) : Bool := f.bytes.length == 256

/-- KEX_POINT and SIG are 64 bytes each (08 Table 8.10); an IDENT of a near link may leave them out, which reads as 0. -/
def Ident.ok (i : Ident) : Bool := decide (i.kexPoint.length ≤ 64) && decide (i.sig.length ≤ 64)

/-- A test package is at most 8 MiB (10 R383). -/
def tpkLen (l : List Byte) : Bool := decide (l.length ≤ 2 ^ 23)

/-- The commands a sender may give. -/
def WellFormed : Instr → Bool
  | .atomicResp p | .readResp p | .writeAck p | .packetTransit _ p => p.ok
  | .chunkData p _ _ | .chunkCredit p _ | .chunkResendReq p _ _ | .chunkFail p _ => p.ok
  | .qsBarrier p _ | .qsMaxU8 p _ | .qsSumU64 p _ | .qsCensus p _ | .qsFail p _ => p.ok
  | .write _ bytes _ | .bar2Write _ _ _ bytes _ => writeLen bytes.length
  | .bar2Read _ _ _ length _ => writeLen length.toNat
  | .slotPost _ _ req => req.ok
  | .dataFlit _ f | .sealFlit _ f _ => f.ok
  | .ident _ i => i.ok
  | .tpkPush package | .tpkLoad _ package => tpkLen package
  | _ => true

end Sys2Proof
end

