-- ==== Sys2Proof/Tests/Slice0.lean ====
section
/-! SUPPORT. The tests: WellFormed refuses an ill-formed command for each of its checks; for each statement with hypotheses a concrete state and operands that meet them, clause by clause; one-step tests with results worked out from the spec. -/
namespace Sys2Proof.Tests
open Sys2Proof Sys2Proof.Machine

-- one theorem after another: a thread for each does not fit beside the package
set_option Elab.async false

/-! ### Small states -/

/-- Offset 0 of panel 0's glaze. -/
def glaze : Nat := 2 ^ 41
/-- The address of local offset `n` of panel 0's glaze, and of LPDDR5X. -/
def ga (n : Nat) : Addr := ownAddr default 2 (glaze + n)
def la (n : Nat) : Addr := ownAddr default 0 n

/-- A running job 1 of partition 0 on panel 0, with memory units, one granule of each data type in LPDDR5X and in glaze, and a
granule of descriptors and rings. -/
def world : State :=
  { stage := 5
    dp := { mem := { region := [(0, regionEntry 0 1), (1, regionEntry 0 2), (2 ^ 20, regionEntry 0 3), (2 ^ 20 + 1, regionEntry 0 5), (2 ^ 20 + 2, regionEntry 0 4),
                                (2 ^ 20 + 3, regionEntry 0 6)]
                     jobs := [(1, 1)] } }
    jobs := [(0, { used := true, id := 1, panels := 1, running := true })]
    pwr := { domains := [(0, { st := .on }), (864, { st := .on }), (918, { st := .on })] }
    roles := { role := .machine } }

/-- A state whose memory lists nothing, with bytes at local offsets that do not overlap. -/
def State.with (s : State) (l : List (Nat × List Byte)) : State :=
  let b : List (Nat × Byte) := (sortWith (fun x y => decide (x.1 ≤ y.1)) l).flatMap fun e => e.2.zipIdx.filterMap fun b => if b.1 = 0 then none else some (e.1 + b.2, b.1)
  { s with dp := { s.dp with mem := { s.dp.mem with bytes := b } } }

/-- A prepared operation succeeds, and its data plane and result pass a check. -/
def good {α : Type} (p : Dp × Except Fail α) (f : Dp → α → Bool) : Bool :=
  match p with
  | (d, .ok r) => f d r
  | _ => false

def bad {α : Type} (p : Dp × Except Fail α) : Bool :=
  match p with
  | (_, .error _) => true
  | _ => false

theorem good_spec {α : Type} {p : Dp × Except Fail α} {f : Dp → α → Bool} (h : good p f = true) : ∃ d r, p = (d, .ok r) ∧ f d r = true := by
  match p, h with
  | (d, .ok r), h => exact ⟨d, r, rfl, h⟩

theorem bad_spec {α : Type} {p : Dp × Except Fail α} (h : bad p = true) : ∃ d f, p = (d, .error f) := by
  match p, h with
  | (d, .error f), _ => exact ⟨d, f, rfl⟩

/-- `len` bytes with little-endian fields: offset, width, value. -/
def blob (len : Nat) (l : List (Nat × Nat × Nat)) : List Byte :=
  l.foldl (fun b e => overlay b e.1 (le e.2.1 e.2.2)) (List.replicate len 0)

/-- Descriptors and rings from here in the descriptor granule. -/
def descs : Nat := glaze + 2 ^ 21
def da (n : Nat) : Addr := ga (2 ^ 21 + n)

/-- A local tensor descriptor: type, shape, byte stride of the rows, base and sidecar. -/
def td (type : Nat) (shape : List Nat) (stride : Nat) (base side : Addr) : List Byte :=
  blob 128 ([(0, 1, 1), (1, 1, type), (2, 1, shape.length), (8, 8, base.toNat), (40, 5, stride), (72, 4, 0x3F800000), (96, 8, side.toNat)]
    ++ (List.range shape.length).map fun i => (16 + 4 * i, 4, shape.getD i 0))

/-- Bytes of a reduced census record of a step. -/
def reduced (step : BitVec 32) : List Byte := ({ flags := 0x10, step } : Census).bytes

/-- An accepted entry with a descriptor, not yet checked. -/
def active (l : List Byte) : Active := { entry := { desc := da 0, tag := { step := 0, epoch := 0 }, attempt := 0 }, seq := 1, desc := l, comp := ga 0x3000 }

/-- `world` with an entry accepted at queue `q`, and bytes. -/
def State.busyWith (q : Nat) (x : Active) (l : List (Nat × List Byte)) : State :=
  State.with { world with eqs := [(q, { enable := true, busy := true, last := 1, cur := some x })] } l

theorem fresh_of {s : State} {q : Nat} {a : Active} (h : (s.eq q).cur = some a ∧ a.started = false ∧ s.engineHeld q = false) : s.Fresh q a := ⟨h.1, h.2.1, h.2.2⟩

theorem runs_of {s : State} {i : Nat} {a : Active} {r : ArrayRun} (h : s.array i = some r ∧ (s.eq i).cur = some a ∧ s.engineHeld i = false) : s.Runs i a r :=
  ⟨h.1, h.2.1, h.2.2⟩

/-! ### WellFormed -/

theorem test_wf_packet_length : WellFormed (.readResp { (default : Packet) with length := 1, data := [] }) = false ∧
    WellFormed (.readResp { (default : Packet) with length := 129, data := List.replicate 4128 0 }) = false := by decide +kernel

theorem test_wf_write_length : WellFormed (.write { who := .ovind, addr := 0 } [] {}) = false ∧
    WellFormed (.write { who := .ovind, addr := 0 } (List.replicate 4097 0) {}) = false ∧ WellFormed (.write { who := .ovind, addr := 0 } [1] {}) = true := by decide +kernel

theorem test_wf_bar2_length : WellFormed (.bar2Read .A 0 0 0 {}) = false ∧ WellFormed (.bar2Read .A 0 0 4097 {}) = false ∧
    WellFormed (.bar2Write .A 0 0 [] {}) = false := by decide +kernel

theorem test_wf_slot_payload : WellFormed (.slotPost .A 0 { payload := List.replicate 4033 0 }) = false := by decide +kernel

theorem test_wf_flit_length : WellFormed (.dataFlit 0 { bytes := List.replicate 257 0 }) = false ∧
    WellFormed (.sealFlit 0 { bytes := List.replicate 255 0 } true) = false ∧ WellFormed (.dataFlit 0 { bytes := List.replicate 256 0 }) = true := by decide +kernel

theorem test_wf_ident_fields : WellFormed (.ident 0 { (default : Ident) with kexPoint := List.replicate 65 0 }) = false ∧
    WellFormed (.ident 0 { (default : Ident) with sig := List.replicate 65 0 }) = false ∧ WellFormed (.tpkPush []) = true := by decide +kernel

/-! ### Steps, clocks, registers -/

theorem witness_invariant : State.reset.Inv :=
  ⟨⟨by decide, by decide, by decide, by decide, by decide, by decide⟩, ⟨by decide, by decide⟩, ⟨by decide, by decide, by decide, by decide, by decide⟩, fun h => absurd h (by decide),
    ⟨by decide, by decide⟩⟩

/-- CommandsEndInANextStateAndLeaveTheQueue and StepKeepsTheInvariant: the invariant and a step at reset with a command. -/
theorem witness_step : State.reset.Inv ∧ ∃ t, step { State.reset with pending := [.tickSync] } = .next t :=
  ⟨witness_invariant, _, rfl⟩

theorem witness_IdleEdgeMovesTheClocks :
    (world.pending = [] ∧ world.elec.stby = true ∧ world.eqs = [] ∧ world.cqs = [] ∧ world.clk.loadPending = false) ∧
    ({ world with clk := { loadPending := true } } : State).clk.loadPending = true ∧
    ({ world with elec := { stby := false } } : State).elec.stby = false := by decide +kernel

/-- The machine manager at coordinate 2, and a worker there. -/
def manager2 : State := { world with dp := { world.dp with coord := Coord.ofCode 2 } }
def worker2 : State := { manager2 with roles := { role := .worker } }

theorem witness_ManagersGiveWayToLowerNumbers :
    manager2.isManager = true ∧ (0 < roleLevels .machine ∧ levelScope 0 1 = levelScope 0 manager2.dp.coord.code) ∧
    ((1 : BitVec 17) ≠ manager2.dp.coord.code ∧ levelNumber 0 1 < levelNumber 0 manager2.dp.coord.code) ∧
    (roleLevels worker2.roles.role = 0 ∧ worker2.roles.role ≠ .spare ∧ ([worker2.dp.coord.code, 3].contains worker2.dp.coord.code &&
     [worker2.dp.coord.code, 3].all fun x => decide (worker2.dp.coord.code.toNat ≤ x.toNat)) = true) := by decide +kernel

theorem witness_RegisterAccessesReachTheirFields :
    (1 ≤ ((1 : BitVec 64).extractLsb' 0 16).toNat ∧ ((1000 : BitVec 64).extractLsb' 0 16).toNat ≤ 1000 ∧ 1000 < ((1001 : BitVec 64).extractLsb' 0 16).toNat) ∧
    (world.regSlot (0xA00000 / 8 * 8)).isSome = true := by decide +kernel

/-- A census record of step 4 in glaze; an update of the same step, one of another. -/
def censusQ : MemReq := { who := .engine 0, addr := ga 64, tag := some { step := 4, epoch := 0 } }
def censusAt : State := State.with world [(glaze + 64, ({ step := 4 } : Census).bytes)]

theorem witness_ACensusUpdateOfAnotherStepResetsFirst :
    (censusQ.issuer = none ∧ resolve censusAt.dp.coord censusQ.addr = some (.here 2 (glaze + 64)) ∧ (glaze + 64) % 32 = 0 ∧
     censusAt.dp.mem.err ((glaze + 64) / 32) = .none) ∧
    rangeStatus censusAt.dp (censusAt.ctx {} censusQ.who censusQ.tag censusQ.attempt) 2 (glaze + 64) 32 true = .ok ∧
    rangeStatus censusAt.dp (censusAt.ctx {} censusQ.who censusQ.tag censusQ.attempt) 2 (glaze + 64) 32 false = .ok ∧
    (Census.ofBytes (censusAt.dp.mem.peek (glaze + 64) 32)).step = 4 ∧ (Census.ofBytes (le 32 (5 * 2 ^ 224))).step ≠ 4 ∧
    (Census.ofBytes (le 32 (4 * 2 ^ 224))).step = 4 := by decide +kernel

/-! ### Guards and tiles -/

def partQ : MemReq := { who := .engine 0, addr := ga 0x10000, tag := some { step := 0, epoch := 0 } }
def partTd : TD := TD.ofBytes (da 0) (td 0x11 [32] 0 (ga 0) (ga 0x10000))
def partAt : State := State.with world [(descs, td 0x11 [32] 0 (ga 0) (ga 0x10000))]

theorem witness_GuardsDecide_part :
    (partQ.issuer = none ∧ resolve partAt.dp.coord partQ.addr = some (.here 2 (glaze + 0x10000)) ∧ (glaze + 0x10000) % 32 = 0 ∧ partAt.dp.mem.errs = [] ∧
     partQ.addr = partTd.sidecarAddr 0 ∧ 0 < partTd.tiles ∧ oneGranuleType partAt.dp (glaze + 0x10000) 160 = true) ∧
    good ((fetchTD (partAt.ctx {} partQ.who partQ.tag partQ.attempt) (da 0)).exec partAt.dp) (fun _ x => x == partTd) = true ∧
    rangeStatus partAt.dp (partAt.ctx {} partQ.who partQ.tag partQ.attempt) 2 (glaze + 0x10000) 160 true = .ok ∧
    rangeStatus partAt.dp (partAt.ctx {} partQ.who partQ.tag partQ.attempt) 2 (glaze + 0x10000) 160 false = .ok ∧
    (sidecarStep (Sidecar.ofBytes (partAt.dp.mem.peek (glaze + 0x10000) 160)) (partTd.tileCount 0) { step := 0, epoch := 0 } 0
      (partOut { count := 16, payload := [], scales := [] })).2 = (false, false) ∧
    (sidecarStep (Sidecar.ofBytes (partAt.dp.mem.peek (glaze + 0x10000) 160)) (partTd.tileCount 0) { step := 0, epoch := 0 } 0
      (partOut { count := 33, payload := [], scales := [] })).2 = (false, true) := by decide +kernel

/-- A reducible guarded node with reduced records of its operands and its output, with two formats. -/
def operand (census : Nat) : NodeOperand := { type := 0x11, source := .current, census := ga census, td := da 0x200 }
def node1 : GraphNode :=
  { (default : GraphNode) with
    node := 1, table := da 0x100, entries := 1, ktotal := 32, wire := 1, reducible := true, a := operand 0, b := operand 32
    guarded := true, census := ga 64, nfLimit := 1, satLimit := 1, formats := [(0x11, da 0x200), (0x12, da 0x300)] }
/-- The node's epoch is closed with nothing running; `out`: the output's record. -/
def guardsAt (out : Census) (g : Guard) : State :=
  let s := State.with
    { world with
      jobs := [(0, { used := true, id := 1, panels := 1, guards := [(guardKey 1 1, g)], anchors := [default], graph := some { (default : GraphImage) with nodes := [node1], epochs := 4 } })] }
    [(glaze, reduced 1), (glaze + 32, reduced 1), (glaze + 64, out.bytes), (descs + 0x200, td 0x11 [32] 0 (ga 0x8000) (ga 0x9000))]
  { s with dp := { s.dp with wet := [(0, { ents := [(3, { state := .wet, step := 1 })], info := [(3, { index := 4, fine := .closed, guards := 1 })] })] } }
def outRec (nonfin : Nat) : Census := { flags := 0x10, step := 1, nonfin }
def tag1 : Tag := { step := 1, epoch := 3 }

/-- The operands' records and the node's table, at the end of step 1. -/
theorem witness_GuardsDecide_step :
    (((guardsAt (outRec 0) {}).job 0).used = true ∧ ((guardsAt (outRec 0) {}).job 0).nodes = [node1] ∧ node1.reducible = true ∧ ((guardsAt (outRec 0) {}).job 0).recOf 2 = none) ∧
    (resolve default node1.a.census = some (.here 2 glaze) ∧ resolve default node1.b.census = some (.here 2 (glaze + 32)) ∧
     resolve default node1.table = some (.here 2 (descs + 0x100)) ∧ (descs + 0x100) % 32 = 0) ∧
    rangeStatus (guardsAt (outRec 0) {}).dp ((guardsAt (outRec 0) {}).ctx {} .ovind) 2 glaze 32 false = .ok ∧
    rangeStatus (guardsAt (outRec 0) {}).dp ((guardsAt (outRec 0) {}).ctx {} .ovind) 2 (glaze + 32) 32 false = .ok ∧
    rangeStatus (guardsAt (outRec 0) {}).dp ((guardsAt (outRec 0) {}).ctx {} .ovind) 2 (descs + 0x100) (tableSize node1.entries.toNat) true = .ok ∧
    (guardsAt (outRec 0) {}).dp.mem.errs = [] ∧
    (Census.ofBytes ((guardsAt (outRec 0) {}).dp.mem.peek glaze 32)).reducedAt 1 = true ∧
    (Census.ofBytes ((guardsAt (outRec 0) {}).dp.mem.peek (glaze + 32) 32)).reducedAt 1 = true := by
  decide +kernel

/-- A step that the log holds: its tables are taken from there. -/
def loggedStep : State :=
  { guardsAt (outRec 0) {} with
    jobs := [(0, { used := true, id := 1, panels := 1, records := [{ (default : StepRec) with step := 2, anchors := [default] }] })] }
theorem witness_GuardsDecide_logged : (loggedStep.job 0).used = true ∧ (((loggedStep.job 0).recOf 2).map fun r => r.anchors.length) = some 1 := by decide +kernel

/-- The decision's time; RANGE below level 3 with the level's sources, and at level 3. -/
theorem witness_GuardsDecide_range :
    let s := guardsAt (outRec 0) { reduced := some true }
    (((s.job 0).nodes.find? fun m => m.node == node1.node && m.guarded) = some node1) ∧
    (((s.dp.wetPart 0).ent 3).step = tag1.step ∧ ((s.dp.wetPart 0).inf 3).fine = .closed ∧ ((s.dp.wetPart 0).inf 3).running = 0 ∧ (s.guard 0 1 1).clear = false ∧
     node1.epoch = ((s.dp.wetPart 0).inf 3).index.toNat % s.epochsPerStep 0) ∧
    ((s.guard 0 1 1).reduced = some true ∧ (s.guard 0 1 1).level < 3 ∧ s.mayRaise 0 1 node1 (nextLevel node1 0) = true) ∧
    3 ≤ ((guardsAt (outRec 0) { reduced := some true, level := 3 }).guard 0 1 1).level := by
  decide +kernel

/-- Values past the limit with a format step left and with none; values at the limit; a census not yet reduced, an epoch not yet closed. -/
theorem witness_GuardsDecide_decision :
    (good ((takeCensus ((guardsAt (outRec 2) {}).ctx {} .ovind) node1.census).exec (guardsAt (outRec 2) {}).dp) (fun _ r => r.nonfin == 2 && r.wholeAt true 1) = true ∧
     node1.nfLimit.toNat < 2 ∧ ((guardsAt (outRec 2) {}).guard 0 1 1).fmt + 1 < node1.formats.length ∧
     node1.formats.length ≤ ((guardsAt (outRec 2) { fmt := 1 }).guard 0 1 1).fmt + 1) ∧
    good ((takeCensus ((guardsAt (outRec 1) {}).ctx {} .ovind) node1.census).exec (guardsAt (outRec 1) {}).dp)
      (fun _ r => r.nonfin ≤ node1.nfLimit.toNat && r.sats ≤ node1.satLimit.toNat) = true ∧
    ((guardsAt (outRec 1) { reduced := none }).guard 0 1 1).reduced = none ∧
    (((guardsAt (outRec 1) {}).dp.wetPart 0).ent 3).step ≠ 2 := by
  decide +kernel

/-! ### The matrix array -/

/-- MX-E4M3 input [1, 32], weight [32, 32], output [1, 32]; local profile, dot products. -/
def arrayTds : List (Nat × List Byte) :=
  [(descs + 0x200, td 1 [1, 32] 32 (ga 0) (ga 0x10000)), (descs + 0x280, td 1 [32, 32] 32 (ga 0x400) (ga 0x10100)), (descs + 0x300, td 1 [1, 32] 32 (ga 0x1000) (ga 0x10200))]
def ad (mode kn cols rows lout : Nat) : List Byte :=
  blob 128 [(0, 1, 0x41), (1, 1, mode), (4, 1, 1), (6, 1, lout), (8, 8, (da 0x200).toNat), (16, 8, (da 0x280).toNat), (24, 8, if lout = 0 then (da 0x300).toNat else 0),
    (68, 4, kn), (84, 4, cols), (88, 1, rows)]
def arrayAt (l : List Byte) : State := State.busyWith 0 (active l) arrayTds
def adOk : List Byte := ad 0 32 32 1 0
/-- The operation past its checks, with its input loaded or not. -/
def arrayRun : ArrayRun := { rows := 1, k := 32, cols := 32, anchors := [-200], bound := 230, verified := [(1, 0, List.replicate 1024 0, List.replicate 32 0)] }
def arrayIn : ArrayRun := { arrayRun with loaded := true, stage := [[none]] }
def arrayX (l : List Byte) : Active :=
  { active l with started := true, tds := [TD.ofBytes (da 0x200) (td 1 [1, 32] 32 (ga 0) (ga 0x10000)), TD.ofBytes (da 0x280) (td 1 [32, 32] 32 (ga 0x400) (ga 0x10100)),
      TD.ofBytes (da 0x300) (td 1 [1, 32] 32 (ga 0x1000) (ga 0x10200))] }
/-- The array runs `r`; the CRC of the all-zero input tile (R195) stands in its sidecar. -/
def arrayRuns (l : List Byte) (r : ArrayRun) : State :=
  { State.busyWith 0 (arrayX l) (arrayTds ++ [(glaze + 0x10080, le 4 1526915856)]) with
    arrays := [(0, some r)] }

theorem witness_ArrayOperations_sum :
    termOf 0 100 (Num.sum (([Num.fin 3 0].zip [Num.fin 5 0]).map fun y => y.1.mul y.2)) = (.fin 15, false) ∧ ((7 : Int) + 15).natAbs < 2 ^ 254 := by decide +kernel

theorem witness_ArrayOperations_fails : (arrayAt (ad 6 32 32 1 0)).Fresh 0 (active (ad 6 32 32 1 0)) ∧ (firstRow (AD.ofBytes (ad 6 32 32 1 0)).fieldRows).isSome = true :=
  ⟨fresh_of (by decide +kernel), by decide +kernel⟩

theorem witness_ArrayOperations_empty :
    firstRow (AD.ofBytes (ad 0 0 32 1 0)).fieldRows = none ∧ (AD.ofBytes (ad 0 0 32 1 0)).kn = 0 ∧ (AD.ofBytes (ad 0 32 0 1 0)).cols = 0 ∧ (AD.ofBytes (ad 0 32 32 0 0)).rows = 0 := by
  decide +kernel

theorem witness_ArrayOperations_starts :
    (arrayAt adOk).Fresh 0 (active adOk) ∧ firstRow (AD.ofBytes adOk).fieldRows = none ∧ (AD.ofBytes adOk).kn ≠ 0 ∧ (AD.ofBytes adOk).cols ≠ 0 ∧ (AD.ofBytes adOk).rows ≠ 0 ∧
    firstRow (AD.ofBytes adOk).countRows = none ∧
    good (((AD.ofBytes adOk).fetch ((arrayAt adOk).entryCtx 0 (active adOk).entry {}) >>= fun l =>
      (AD.ofBytes adOk).plan ((arrayAt adOk).entryCtx 0 (active adOk).entry {}) (active adOk).entry.desc l >>= fun y => pure (l, y)).exec (arrayAt adOk).dp)
      (fun _ z => z.2.rows ≠ 0 && z.2.cols ≠ 0) = true :=
  ⟨fresh_of (by decide +kernel), by decide +kernel, by decide +kernel, by decide +kernel, by decide +kernel, by decide +kernel, by decide +kernel⟩

set_option maxRecDepth 200000 in
theorem witness_ArrayOperations_input :
    (arrayRuns adOk arrayRun).Runs 0 (arrayX adOk) arrayRun ∧ arrayRun.loaded = false ∧
    good (((AD.ofBytes adOk).load ((arrayRuns adOk arrayRun).entryCtx 0 (arrayX adOk).entry {}) ((arrayX adOk).tds.getD 0 default) arrayRun).exec (arrayRuns adOk arrayRun).dp)
      (fun _ _ => true) = true :=
  ⟨runs_of (by decide +kernel), by decide +kernel, by decide +kernel⟩

set_option maxRecDepth 200000 in
/-- With no sidecar in memory the tile check fails. -/
theorem witness_ArrayOperations_input_fails :
    bad (((AD.ofBytes adOk).load ((arrayRuns adOk arrayRun).entryCtx 0 (arrayX adOk).entry {}) ((arrayX adOk).tds.getD 0 default) arrayRun).exec world.dp) = true := by decide +kernel

/-- The surroundings of the array's entry. -/
def arrayC (r : ArrayRun) : Ctx := (arrayRuns adOk r).entryCtx 0 (arrayX adOk).entry {}

set_option maxRecDepth 200000 in
/-- The whole group, column 2 of block 0, and a group whose weight tile cannot be read. -/
theorem witness_ArrayOperations_group :
    (arrayRuns adOk arrayIn).Runs 0 (arrayX adOk) arrayIn ∧ arrayIn.canRun = true ∧ (0 < arrayIn.k / 32 ∧ arrayIn.slot ≤ 4 * 0 + 2) ∧
    good ((do let y ← (AD.ofBytes adOk).runTo (arrayC arrayIn) 0 (arrayX adOk).tds arrayIn (4 * (arrayIn.k / 32)) arrayIn.streamed
              if y.2.isSome then pure y else (AD.ofBytes adOk).stageGroup (arrayC arrayIn) 0 y.1 : Op (ArrayRun × Option Fail)).exec (arrayRuns adOk arrayIn).dp)
      (fun _ y => y.1.group == 1 && y.2.isNone) = true ∧
    good (((AD.ofBytes adOk).runTo (arrayC arrayIn) 0 (arrayX adOk).tds arrayIn 3 3).exec (arrayRuns adOk arrayIn).dp) (fun _ y => y.1.slot == 3 && y.2.isNone) = true ∧
    good (((AD.ofBytes adOk).runTo (arrayC { arrayIn with verified := [] }) 0 (arrayX adOk).tds { arrayIn with verified := [] } 3 3).exec { world.dp with mem := {} })
      (fun _ y => y.2.isSome) = true :=
  ⟨runs_of (by decide +kernel), by decide +kernel, by decide +kernel, by decide +kernel, by decide +kernel, by decide +kernel⟩

/-- One bank of one row: the last of 32 columns; and of a saving chunk's 64 columns the first. -/
def arrayFull (cols : Nat) : ArrayRun := { arrayIn with cols, full := [List.replicate 32 [.fin 0]] }

theorem witness_ArrayOperations_bank :
    (arrayRuns adOk (arrayFull 32)).Runs 0 (arrayX adOk) (arrayFull 32) ∧ (arrayFull 32).full ≠ [] ∧
    good (((AD.ofBytes adOk).writeBank ((arrayRuns adOk (arrayFull 32)).entryCtx 0 (arrayX adOk).entry {}) (arrayX adOk).tds (arrayFull 32)).exec (arrayRuns adOk (arrayFull 32)).dp)
      (fun _ r => r.1.cols ≤ 32 * r.1.banks && r.2.isNone) = true ∧
    good (((AD.ofBytes (ad 0 32 64 1 2)).writeBank ((arrayRuns adOk (arrayFull 64)).entryCtx 0 (arrayX adOk).entry {}) (arrayX adOk).tds (arrayFull 64)).exec
      (arrayRuns adOk (arrayFull 64)).dp) (fun _ r => 32 * r.1.banks < r.1.cols && r.2.isNone) = true :=
  ⟨runs_of (by decide +kernel), by decide +kernel, by decide +kernel, by decide +kernel⟩

/-! ### The trellis -/

/-- An image of one body stroke, no stream. -/
def imgBody : List Byte := blob 72 [(0, 1, 1), (1, 1, 1), (8, 2, 1), (16, 4, 72), (64, 1, 1)]
def img : List Byte := overlay imgBody 20 (le 4 (crc32c (slice imgBody 0 20 ++ imgBody.drop 24)).toNat)
def loadD : List Byte := blob 128 [(0, 1, 0x43), (96, 8, (da 0x200).toNat)]
def loadAt (l : List Byte) : State := State.busyWith 768 (active loadD) [(descs + 0x200, l)]
def runD (slot rows len fence : Nat) : List Byte := blob 128 [(0, 1, 0x42), (1, 1, slot), (4, 4, rows), (8, 4, len), (12, 4, fence)]

/-- The trellis of easel 0 with the image in slot 0; its entry, its run, what the array queue has completed. It is `world` but for its
queues and trellises, which a context does not read, so `world.entryCtx` is its own. -/
def sweeps (x : Active) (r : Option TrellisRun) (done : List (BitVec 32 × BitVec 16)) : State :=
  { world with eqs := [(0, { done }), (768, { enable := true, busy := true, cur := some x })], trellises := [(0, { images := [(0, img)], run := r })] }
def runX (l : List Byte) : Active := { active l with started := true }
def trellisR (row rows sweep : Nat) : TrellisRun := { rows, row, sweep, held := [[], []], anchors := [[], [], [], []], srs := [none, none] }

set_option maxRecDepth 200000 in
theorem witness_TrellisRuns_load :
    (loadAt img).Fresh 768 (active loadD) ∧
    ((TrD.ofBytes loadD).kind = 0x43 ∧ (TrD.ofBytes loadD).slot ≤ 7 ∧ zeros (TrD.ofBytes loadD).rest = true ∧ (TrD.ofBytes loadD).source.toNat % 32 = 0) ∧
    good (((TrD.ofBytes loadD).loadImage ((loadAt img).entryCtx 768 (active loadD).entry {}) (loadAt img).fw.major.toNat).exec (loadAt img).dp) (fun _ _ => true) = true ∧
    bad (((TrD.ofBytes loadD).loadImage ((loadAt []).entryCtx 768 (active loadD).entry {}) (loadAt []).fw.major.toNat).exec (loadAt []).dp) = true :=
  ⟨fresh_of (by decide +kernel), by decide +kernel, by decide +kernel, by decide +kernel⟩

theorem witness_TrellisRuns_empty :
    (sweeps (active (runD 0 0 64 0)) none []).Fresh 768 (active (runD 0 0 64 0)) ∧ firstRow (TrD.ofBytes (runD 0 0 64 0)).fieldRows = none ∧
    (TrD.ofBytes (runD 0 0 64 0)).rows = 0 ∧ (TrD.ofBytes (runD 0 1 0 0)).len = 0 :=
  ⟨fresh_of (by decide +kernel), by decide +kernel, by decide +kernel, by decide +kernel⟩

/-- No fence; a fence that passes; one not yet completed. -/
theorem witness_TrellisRuns_start :
    (sweeps (active (runD 0 2 64 1)) none [(1, 0)]).Fresh 768 (active (runD 0 2 64 1)) ∧
    (firstRow (TrD.ofBytes (runD 0 2 64 1)).fieldRows = none ∧ (TrD.ofBytes (runD 0 2 64 1)).rows ≠ 0 ∧ (TrD.ofBytes (runD 0 2 64 1)).len ≠ 0 ∧
     firstRow (TrD.ofBytes (runD 0 2 64 1)).countRows = none ∧ (TrD.ofBytes (runD 0 2 64 1)).streamsOk (Image.ofBytes img) = true ∧
     firstRow (TrD.ofBytes (runD 0 2 64 1)).alignRows = none ∧ (TrD.ofBytes (runD 0 2 64 1)).kind = 0x42) ∧
    img ≠ [] ∧
    good (((TrD.ofBytes (runD 0 2 64 1)).fetch (world.entryCtx 768 (active []).entry {}) >>= fun tds =>
      (TrD.ofBytes (runD 0 2 64 1)).plan (world.entryCtx 768 (active []).entry {}) (da 0) tds >>= fun r => pure (tds, r)).exec world.dp)
      (fun _ z => z.2.rows ≠ 0 && !(TrD.ofBytes (runD 0 2 64 1)).allEmpty z.1) = true ∧
    ((TrD.ofBytes (runD 0 2 64 0)).fence = 0 ∧ (sweeps (active []) none [(1, 0)]).fenceStatus 0 1 = some 0 ∧ fencePasses 0 = true ∧
     (sweeps (active []) none []).fenceStatus 0 1 = none) :=
  ⟨fresh_of (by decide +kernel), by decide +kernel, by decide +kernel, by decide +kernel, by decide +kernel⟩

/-- A run that waits for its fence, as it was checked. -/
def waits (r : TrellisRun) (done : List (BitVec 32 × BitVec 16)) : State :=
  { sweeps (runX (runD 0 2 64 1)) none done with trellises := [(0, { images := [(0, img)], fenced := some r })] }

/-- The fence has passed, has failed with ST_CHECK_TILE, has not completed; the run keeps rows, or the bounds left it none. -/
theorem witness_TrellisRuns_release :
    (((waits (trellisR 0 2 0) [(1, 0)]).eq 768).cur = some (runX (runD 0 2 64 1)) ∧ ((waits (trellisR 0 2 0) [(1, 0)]).trellis 0).fenced = some (trellisR 0 2 0) ∧
     (waits (trellisR 0 2 0) [(1, 0)]).engineHeld 768 = false) ∧
    ((TrD.ofBytes (runD 0 2 64 1)).fence = 1 ∧ (waits (trellisR 0 2 0) [(1, 0)]).fenceStatus 0 1 = some 0 ∧ (waits (trellisR 0 2 0) [(1, 0x0207)]).fenceStatus 0 1 = some 0x0207 ∧
     fencePasses 0x0207 = false ∧ (waits (trellisR 0 2 0) []).fenceStatus 0 1 = none) ∧
    ((trellisR 0 2 0).rows ≠ 0 ∧ (trellisR 0 0 0).rows = 0) := by decide +kernel

theorem witness_TrellisRuns_sweep :
    (sweeps (runX (runD 0 2 64 0)) (some (trellisR 0 2 0)) []).Sweeps 0 (runX (runD 0 2 64 0)) (trellisR 0 2 0) ∧ (trellisR 0 2 0).sweep < ceilDiv (TrD.ofBytes (runD 0 2 64 0)).len 64 ∧
    good (((TrD.ofBytes (runD 0 2 64 0)).sweep (world.entryCtx 768 (active []).entry {}) (Image.ofBytes img) [] (trellisR 0 2 0) (adaptersOf [])).exec world.dp) (fun _ _ => true) = true :=
  ⟨⟨by decide +kernel, by decide +kernel, by decide +kernel⟩, by decide +kernel, by decide +kernel⟩

/-- The end of the first of two rows and of the last. -/
theorem witness_TrellisRuns_end :
    (sweeps (runX (runD 0 2 64 0)) (some (trellisR 0 2 1)) []).Sweeps 0 (runX (runD 0 2 64 0)) (trellisR 0 2 1) ∧ ceilDiv (TrD.ofBytes (runD 0 2 64 0)).len 64 ≤ (trellisR 0 2 1).sweep ∧
    good (((TrD.ofBytes (runD 0 2 64 0)).tail (world.entryCtx 768 (active []).entry {}) (Image.ofBytes img) [] (trellisR 0 2 1) (adaptersOf []) >>= fun y =>
      (TrD.ofBytes (runD 0 2 64 0)).rowOuts (world.entryCtx 768 (active []).entry {}) [] (trellisR 0 2 1) y.1.o >>= fun h => pure (y, h)).exec world.dp) (fun _ _ => true) = true ∧
    ((trellisR 0 2 1).row + 1 ≠ (trellisR 0 2 1).rows ∧ (trellisR 1 2 1).row + 1 = (trellisR 1 2 1).rows) :=
  ⟨⟨by decide +kernel, by decide +kernel, by decide +kernel⟩, by decide +kernel, by decide +kernel, by decide +kernel⟩

/-! ### Movers -/

/-- Source, destination and index of one INT32 element each; CONVERT takes 32 to FP32. -/
def moverTds (kind : Nat) : List (Nat × List Byte) :=
  let n := if kind = mdConvert then 32 else 1
  [(descs + 0x200, td 0x20 [1, n] 128 (ga 0) (ga 0x10000)), (descs + 0x280, td (if kind = mdConvert then 0x11 else 0x20) [1, n] 128 (ga 0x1000) (ga 0x10200)),
   (descs + 0x300, td 0x20 [1] 0 (ga 0x2000) (ga 0x10400))]
/-- CRC of an all-zero tile of `n` bytes under an all-zero tag (R195), worked out apart. -/
def zeroCrc (n : Nat) : List Byte := le 4 (if n = 4 then 21957149 else 2936906159)
/-- An MD: kind, count, fence queue and number. -/
def md (kind count fq fence : Nat) : List Byte :=
  blob 128 [(0, 1, kind), (3, 1, fq), (4, 4, fence), (16, 4, count), (24, 8, if kind = mdFill then 0 else (da 0x200).toNat), (32, 8, (da 0x280).toNat),
    (40, 8, if kind = mdGather ∨ kind = mdScatter ∨ kind = mdScatterAdd then (da 0x300).toNat else 0)]
def moverAt (kind : Nat) (x : Active) : State :=
  State.busyWith 1536 x (moverTds kind ++ [(glaze + 0x10080, zeroCrc (if kind = mdConvert then 128 else 4)), (glaze + 0x10280, zeroCrc 4), (glaze + 0x10480, zeroCrc 4)])

/-- Everything from the fetch to the last tile succeeds. -/
def moves (s : State) (x : Active) : Bool :=
  let m := MD.ofBytes x.desc
  let c := s.entryCtx 1536 x.entry {}
  good ((m.fetch c x.tds >>= fun l => m.plan c x.entry.desc l >>= fun y => pure (l, y)).exec s.dp) fun d z =>
    !z.2.dst.empty && good ((if z.2.md.indexed then readIndex c z.2 else pure []).exec d) fun d1 es =>
      good ((z.2.updateCheck c (tilesOf (z.2.writes es))).exec d1) fun d2 _ =>
        (({ s with dp := d2 } : State).moveTiles 1536 x 0 z.2 c es (z.2.writes es) {} (z.2.order es (z.2.writes es) (tilesOf (z.2.writes es)))).2.2 == none

def moverOps : List Nat := [mdCopy, mdT2, mdConvert, mdGather, mdScatter, mdScatterAdd, mdFill]

theorem witness_MoversMove_fields :
    (moverOps.all fun k => (firstRow (MD.ofBytes (overlay (md k 1 0 0) 1 [4])).fieldRows).isSome && (firstRow (MD.ofBytes (md k 0 0 0)).fieldRows).isNone &&
      (MD.ofBytes (md k 0 0 0)).count == 0 && (MD.ofBytes (md k 0 0 0)).kind == k) = true ∧
    (moverAt mdCopy (active (md mdCopy 0 0 0))).Fresh 1536 (active (md mdCopy 0 0 0)) := ⟨by decide +kernel, fresh_of (by decide +kernel)⟩

set_option maxRecDepth 200000 in
theorem witness_MoversMove_copy : moves (moverAt mdCopy (active (md mdCopy 1 0 0))) (active (md mdCopy 1 0 0)) = true := by decide +kernel

set_option maxRecDepth 200000 in
theorem witness_MoversMove_fill : moves (moverAt mdFill (active (md mdFill 1 0 0))) (active (md mdFill 1 0 0)) = true := by decide +kernel

set_option maxRecDepth 200000 in
theorem witness_MoversMove_convert : moves (moverAt mdConvert (active (md mdConvert 32 0 0))) (active (md mdConvert 32 0 0)) = true := by decide +kernel

set_option maxRecDepth 200000 in
theorem witness_MoversMove_gather : moves (moverAt mdGather (active (md mdGather 1 0 0))) (active (md mdGather 1 0 0)) = true := by decide +kernel

/-- A fence not yet completed; an entry that waits with what its checks settled, whose fence passed or failed with ST_CHECK_TILE. -/
def fenced (x : Active) (done : List (BitVec 32 × BitVec 16)) : State :=
  { moverAt mdFill x with eqs := [(1536, { enable := true, busy := true, cur := some x }), (1537, { done })] }
def fillX : Active := { active (md mdFill 1 2 1) with started := true, kept := some { rng := { first := 0, last := 1, dropped := 0 }, dstTable := none, srcTable := none, sr := none } }

theorem witness_MoversMove_fence :
    (fenced (active (md mdFill 1 2 1)) []).Fresh 1536 (active (md mdFill 1 2 1)) ∧
    ((MD.ofBytes (md mdFill 1 2 1)).fq ≠ 0 ∧ firstRow (MD.ofBytes (md mdFill 1 2 1)).fieldRows = none ∧ (MD.ofBytes (md mdFill 1 2 1)).fenceQueue (queuePanel 1536) = 1537) ∧
    (fenced fillX []).fenceStatus 1537 1 = none ∧
    (((fenced fillX [(1, 0)]).eq 1536).cur = some fillX ∧ fillX.kept.isSome = true ∧ (fenced fillX [(1, 0)]).engineHeld 1536 = false ∧
     (fenced fillX [(1, 0)]).fenceStatus 1537 1 = some 0 ∧ fencePasses 0 = true) ∧
    ((fenced fillX [(1, 0x0207)]).fenceStatus 1537 1 = some 0x0207 ∧ fencePasses 0x0207 = false) :=
  ⟨fresh_of (by decide +kernel), by decide +kernel, by decide +kernel, by decide +kernel, by decide +kernel⟩

/-- The pure parts: a T2 plan of [2, 3] to [3, 2], a SCATTER plan with two entries that address slice 0, a sum of one hit. -/
theorem witness_MoversMove_pure :
    (let p : Plan := { md := MD.ofBytes (md mdT2 1 0 0), src := { (default : TD) with rank := 2, shape := [2, 3], type := 0x20 }, dst := { (default : TD) with rank := 2, shape := [3, 2], type := 0x20 }
                       idx := default, rng := { first := 0, last := 1, dropped := 0 }, dstTable := none, srcTable := none, sr := none }
     p.md.kind = mdT2 ∧ p.dst.extents = [3, 2] ∧ p.src.extents = [2, 3]) ∧
    (let p : Plan := { md := MD.ofBytes (md mdScatter 2 0 0), src := { (default : TD) with rank := 2, shape := [2, 32], type := 0x20 }, dst := { (default : TD) with rank := 2, shape := [1, 32], type := 0x20 }
                       idx := default, rng := { first := 0, last := 2, dropped := 0 }, dstTable := none, srcTable := none, sr := none }
     p.md.kind = mdScatter ∧ p.md.axis = 0 ∧ p.dst.extents = [1, 32] ∧ p.src.extents = [2, 32] ∧ p.rng.first = 0 ∧ p.dst.type = 0x20 ∧
     ([some 0, some 0] : List (Option Nat)).getD 1 none = some 0) := by decide +kernel

/-! ### Queues -/

/-- Queue 0 with its ring in the descriptor granule and an entry, an AD with a completion record in glaze; epoch 1 of step 4 is open. -/
def qe (desc : Addr) : QEntry := { desc, tag := { step := 4, epoch := 1 }, attempt := 0 }
def ringBase : BitVec 59 := BitVec.ofNat 59 ((da 0x2000).toNat / 32)
def queueAt (desc : Addr) (ring : List Byte) (x : Eq) : State :=
  State.with { world with eqs := [(0, { x with base := ringBase, enable := true, posted := [(0, some (qe desc))] })]
                          dp := { world.dp with wet := [(0, { ents := [(1, { state := .wet, step := 4 })] })] } }
    [(descs + 0x2000, ring), (descs, blob 128 [(0, 1, 0x41), (56, 8, (ga 0x3000).toNat)])]

theorem witness_Queues_complete :
    ((queueAt (da 0) (entryBytes (qe (da 0)) 1 2 0) { cur := some { active [1] with entry := qe (da 0) }, busy := true }).eq 0).cur = some { active [1] with entry := qe (da 0) } ∧
    (active [1]).desc ≠ [] ∧ (queueAt (da 0) [] {}).dp.mem.errs = [] ∧ (queueAt (da 0) [] {}).dp.mem.unread = [] ∧ (queueAt (da 0) [] {}).dp.mem.regionDue = [] ∧ (ga 0x3000).toNat % 32 = 0 ∧ resolve default (ga 0x3000) = some (.here 2 (glaze + 0x3000)) ∧
    (queueAt (da 0) [] {}).ringKey 0 0 = descs + 0x2000 ∧
    rangeStatus (queueAt (da 0) [] {}).dp ((queueAt (da 0) [] {}).entryCtx 0 (qe (da 0)) {}) 2 (glaze + 0x3000) 4 true = .ok ∧
    rangeStatus (queueAt (da 0) [] {}).dp ((queueAt (da 0) [] {}).entryCtx 0 (qe (da 0)) {}) 2 (glaze + 0x3000 + 4) 60 true = .ok ∧
    glaze + 0x3000 + 64 ≤ descs + 0x2000 + 12 := by decide +kernel

theorem witness_Queues_post :
    ((queueAt (da 0) [] {}).eq 0).enable = true ∧ (0 : BitVec 12).toNat < ((queueAt (da 0) [] {}).eq 0).entries ∧ (queueAt (da 0) [] {}).queuePart 0 = some 0 ∧
    (queueAt (da 0) [] {}).mayPost 0 { step := 4, epoch := 1 } 0 = true ∧ (da 0).toNat % 32 = 0 ∧
    (queueAt (da 0) [] {}).dp.mem.err ((queueAt (da 0) [] {}).ringKey 0 0 / 32) = .none ∧
    freeEntry ((queueAt (da 0) [] {}).dp.mem.peek ((queueAt (da 0) [] {}).ringKey 0 0) 32) = true := by decide +kernel

/-- A group of partition 0 on communication queue 0, its ring beside. -/
def group1 : Group := { (default : Group) with id := 1, job := 1, part := 0, axes := [none, none, none, none], staging := ga 0x40000, bytes := 2 ^ 17 }
def cqAt (ring : List Byte) (x : Cq) : State :=
  { queueAt (da 0) ring {} with cqs := [(0, { x with base := ringBase, enable := true, st := .running, group := some group1, committed := true })] }

theorem witness_Queues_postComm :
    ((cqAt [] {}).cq 0).part = some 0 ∧ ((cqAt [] {}).cq 0).committed = true ∧ ((cqAt [] {}).cq 0).destroying = false ∧ ((cqAt [] {}).cq 0).st = .running ∧
    (cqAt [] {}).mayPost 0 { step := 4, epoch := 1 } 0 = true ∧ (0 : BitVec 12).toNat < 2 ^ ((cqAt [] {}).cq 0).sizeLog2.toNat ∧
    (cqAt [] {}).dp.mem.err ((cqAt [] {}).cqKey 0 0 / 32) = .none ∧ freeEntry ((cqAt [] {}).dp.mem.peek ((cqAt [] {}).cqKey 0 0) 32) = true := by decide +kernel

/-- A posted head with its descriptor; one whose descriptor address is misaligned; a free head. -/
def posted (desc : Addr) : State := queueAt desc (entryBytes (qe desc) 0 1 0) {}

theorem witness_Queues_accept :
    (((posted (da 0)).eq 0).enable = true ∧ ((posted (da 0)).eq 0).busy = false ∧ sizeOk ((posted (da 0)).eq 0).sizeLog2 = true ∧ (posted (da 0)).engineHeld 0 = false ∧
     (posted (da 0)).dp.mem.errs = []) ∧
    (posted (da 0)).dp.mem.peek ((posted (da 0)).ringKey 0 0) 32 = entryBytes (qe (da 0)) 0 1 0 ∧ Sparse.get none ((posted (da 0)).eq 0).posted 0 = some (qe (da 0)) ∧
    ((da 0).toNat % 32 = 0 ∧ resolve default (da 0) = some (.here 2 descs)) ∧
    rangeStatus (posted (da 0)).dp ((posted (da 0)).entryCtx 0 (qe (da 0)) {}) 2 descs (descSize 0) false = .ok ∧
    fld ((posted (da 0)).dp.mem.peek descs (descSize 0)) (compOff 0) 8 = (ga 0x3000).toNat ∧
    rangeStatus (posted (da 0)).dp ((posted (da 0)).entryCtx 0 (qe (da 0)) {}) 2 (glaze + 0x3000) 64 true = .ok ∧
    rangeStatus (posted (da 0)).dp ((posted (da 0)).entryCtx 0 (qe (da 0)) {}) 2 (glaze + 0x3000) 2 true = .ok ∧ (posted (da 0)).entryStale 0 (qe (da 0)) = false ∧
    kindOk 0 (fld ((posted (da 0)).dp.mem.peek descs (descSize 0)) 0 1) = true := by decide +kernel

theorem witness_Queues_accept_others :
    ((posted (da 8)).dp.mem.peek ((posted (da 8)).ringKey 0 0) 32 = entryBytes (qe (da 8)) 0 1 0 ∧ (da 8).toNat % 32 ≠ 0) ∧
    fld ((queueAt (da 0) [] {}).dp.mem.peek ((queueAt (da 0) [] {}).ringKey 0 0) 32) 12 2 = 0 := by decide +kernel

theorem witness_Queues_enable :
    (sizeOk ((queueAt (da 0) [] {}).eq 0).sizeLog2 = true ∧ ((queueAt (da 0) [] {}).updEq 0 fun x => { x with inScratch := false && decide (0 < 1536) }).ringOk 0 = true) ∧
    sizeOk ((queueAt (da 0) [] { sizeLog2 := 13 }).eq 0).sizeLog2 = false := by decide +kernel

/-! ### Memory -/

def memQ (a : Addr) : MemReq := { who := .engine 0, addr := a }

theorem witness_MemoryRequests :
    ((memQ (ga 32)).issuer = none ∧ resolve world.dp.coord (ga 32) = some (.here 2 (glaze + 32)) ∧ resolve world.dp.coord (la 32) = some (.here 0 32) ∧ (ga 32).toNat % 8 = 0) ∧
    rangeStatus world.dp (world.ctx {} (.engine 0) none 0) 2 (glaze + 32) (32 * 128) false = .ok ∧ rangeStatus world.dp (world.ctx {} (.engine 0) none 0) 2 (glaze + 32) 1 true = .ok ∧
    rangeStatus world.dp (world.ctx {} (.engine 0) none 0) 0 32 8 true = .ok ∧ rangeStatus world.dp (world.ctx {} (.engine 0) none 0) 0 32 8 false = .ok ∧
    (∀ w, world.dp.mem.err w = .none) ∧ Coord.code default = 0 := by
  refine ⟨by decide +kernel, by decide +kernel, by decide +kernel, by decide +kernel, by decide +kernel, fun _ => rfl, by decide +kernel⟩

/-- Segment 0 of port A is open for job 1; its partition does not run, port A's host owns the module. -/
def hosted : State :=
  { world with jobs := [(0, { used := true, id := 1, panels := 1 })], mbx := { owner := some .A, a := { up := true, segs := [(0, { job := 1, enable := true })] } } }

theorem witness_MemoryRequests_bar2 :
    resolve hosted.dp.coord (((hosted.port .A).seg 0).addr 0x200000) = some (.here 0 0x200000) ∧ hosted.isOwner .A = true ∧
    hosted.bar2Open ((hosted.port .A).seg 0) (((hosted.port .A).seg 0).addr 0x200000) 64 = true ∧
    rangeStatus hosted.dp (hosted.ctx {} (.host .A ((hosted.port .A).seg 0).job)) 0 0x200000 64 false = .ok ∧
    rangeStatus hosted.dp (hosted.ctx {} (.host .A ((hosted.port .A).seg 0).job)) 0 0x200000 64 true = .ok := by decide +kernel

/-- Granules of another partition, unassigned, retired, durable, glaze and descriptors; a job with an entry and one with none. -/
theorem witness_AccessesAreCheckedFirst_rules :
    (regionPart (world.dp.mem.regionOf 0) ≠ (1 : Part).val ∧ Sparse.get 0 world.dp.mem.jobs 2 = 0 ∧ Sparse.get 0 world.dp.mem.jobs 1 = 0 + 1) ∧
    (regionPart (regionEntry 1 1) ≠ 0 ∧ Agent.engine 0 ≠ .ovind ∧ regionType (world.dp.mem.regionOf 9) = 0 ∧ regionType (regionEntry 0 7) = 7) ∧
    (regionPart (world.dp.mem.regionOf 1) = 0 ∧ regionType (world.dp.mem.regionOf 1) = 2 ∧ regionType (world.dp.mem.regionOf 0) = 1 ∧
     regionType (world.dp.mem.regionOf (2 ^ 20 + 1)) = 5) := by decide +kernel

theorem witness_AccessesAreCheckedFirst :
    resolve world.dp.coord (la (9 * 2 ^ 21)) = some (.here 0 (9 * 2 ^ 21)) ∧
    rangeStatus world.dp (world.ctx {} (.engine 0) none 0) 0 (9 * 2 ^ 21) 32 true = .bounds ∧ rangeStatus world.dp (world.ctx {} (.engine 0) none 0) 0 (9 * 2 ^ 21) (32 * 1) false = .bounds ∧
    ((la 33).toNat % 8 ≠ 0 ∧ (33 : Nat) % 32 ≠ 0 ∧ resolve world.dp.coord (la 33) = some (.here 0 33)) := by decide +kernel

/-- A read, a write and an atomic that await module 1's response. -/
def inFlight (op : Nat) : State := { world with lnk := { txns := [{ tag := 5, op, addr := 0, who := .engine 0, dest := Coord.ofCode 1 }] } }
def respP (st : Status) : Packet := { (default : Packet) with txn := 5, src := coord32 (Coord.ofCode 1), status := st.toCode }

theorem witness_Responses :
    ([opRead, opWrite, opAtomic].all fun op => (State.txnOf (inFlight op) (respP .ok) op).isSome) = true ∧ (respP .ok).status = Status.ok.toCode ∧ (respP .bounds).status = Status.bounds.toCode ∧
    ((inFlight opRead).lnk.txns.find? fun y => y.tag == 5).isSome = true ∧ (inFlight opRead).wdg.queries = [] := by decide +kernel

/-- Errors come up: in byte 3 of word 1 of LPDDR5X (channel 0, raw byte 35), in two bytes of word 2, in a check byte of word 3 (raw byte
256 + 4 x 3 + 3). -/
def flipped : State := { world with dp := world.dp.upsets [.lpddr 0 35 1, .lpddr 0 64 1, .lpddr 0 95 0x80, .lpddr 0 271 5] }

/-- RS(36,32): a byte in error is located and corrected, a check byte too, two bytes in error are found. -/
theorem test_code : flipped.dp.mem.err 1 = .correctable 3 1 ∧ flipped.dp.mem.err 3 = .correctable 35 5 ∧
    (match flipped.dp.mem.err 2 with | .uncorrectable y => y != 0 | _ => false) = true ∧ flipped.dp.mem.err 4 = .none := by decide +kernel

theorem witness_Scrub :
    (flipped.dp.mem.err 1 = .correctable 3 1 ∧ 3 < 32) ∧
    (nextGranule world.dp.mem 1 (world.dp.unit 1).granule.toNat = none ∧ nextGranule world.dp.mem 48 (world.dp.unit 48).granule.toNat = some 0 ∧ world.dp.mem.errs = []) ∧
    (nextGranule world.dp.mem 48 (0 + 1) ≠ none ∧ nextGranule world.dp.mem 48 (32767 + 1) = none ∧
     nextGranule (world.dp.updUnit 48 fun u => { u with granule := 32767 }).mem 48 ((world.dp.updUnit 48 fun u => { u with granule := 32767 }).unit 48).granule.toNat = some 32767) ∧
    resolve world.dp.coord (ga 64) = some (.here 2 (glaze + 64)) := by decide +kernel

/-! ### Links -/

/-- Link `n` in a state, at ST5, started. -/
def linked (n : Nat) (l : LinkSt) : State := { world with lnk := { links := [(n, l)], started := true } }

theorem witness_LinkControl :
    (((linked 0 {}).link 0).st = .down ∧ 4 ≤ (linked 0 {}).stage ∧ (linked 0 {}).lnk.started = true ∧ ((linked 0 {}).link 0).waiting = false ∧ ((linked 0 {}).link 0).enable = true) ∧
    ((linked 0 { st := .active }).link 0).st.up = true ∧ ((linked 0 { st := .degraded }).link 0).st.up = true := by decide +kernel

theorem witness_Training :
    (((linked 0 { st := .train }).link 0).st = .train ∧ ((linked 0 { st := .train }).link 0).sticky = false ∧
     (1#4 &&& ~~~((linked 0 { st := .train }).link 0).bad &&& ((linked 0 { st := .train }).link 0).peerLanes) ≠ 0) ∧
    (((linked 0 { st := .identify }).link 0).st = .identify ∧ ((linked 0 { st := .identify }).link 0).waitPerm = false ∧
     ((linked 0 { st := .identify, waitPerm := true }).link 0).waitPerm = true) := by decide +kernel

/-- The peer is link 3 of module 1, as the cabling map says. -/
def peer1 (mask : BitVec 16) : Ident := { (default : Ident) with linkIndex := 3, coord := 1, protoMask := mask }
def identified (n : Nat) (mask : BitVec 4) : State :=
  { linked n { st := .identify, peer := some (peer1 2), echoed := true, laneMask := mask } with
    lnk := { (linked n { st := .identify, peer := some (peer1 2), echoed := true, laneMask := mask }).lnk with cabling := [(n, some (1, 3))] } }

theorem witness_Identity :
    ((identified 0 15).link 0).st = .identify ∧ commonRev world.fw.protoMask (peer1 2).protoMask = some 1 ∧ world.fw.protoMask &&& (peer1 4).protoMask = 0 ∧
    (((identified 0 15).link 0).peer = some (peer1 2) ∧ ((identified 0 15).link 0).echoed = true ∧
     (identified 0 15).expected 0 = some (((peer1 2).coord.setWidth 17).toNat, (peer1 2).linkIndex.toNat)) ∧
    (farLink 0 = false ∧ farLink 15 = true ∧ popcount4 3 < 4 ∧ ((identified 15 3).link 15).peer = some (peer1 2) ∧ ((identified 15 3).link 15).echoed = true) := by decide +kernel

theorem witness_LostLanes :
    ((linked 0 { st := .active, laneMask := 15 }).link 0).st.up = true ∧ ((linked 0 { st := .active, laneMask := 15 }).link 0).laneMask &&& ~~~(((linked 0 {}).link 0).bad ||| (1#4 <<< 0)) ≠ 0 ∧
    ((linked 0 { st := .degraded, laneMask := 1 }).link 0).laneMask &&& ~~~(((linked 0 {}).link 0).bad ||| (1#4 <<< 0)) = 0 ∧
    (((linked 0 { kept := some { serial := 0, link := 0, session := 0 } }).link 0).st.up = false ∧
     ((linked 0 { kept := some { serial := 0, link := 0, session := 0 } }).link 0).kept.isSome = true) := by decide +kernel

/-- A flit of VC 2 with SEQ `seq`, one that was damaged; a link in ACTIVE. -/
def flit0 (type : Nat) (seq : BitVec 18) (payload : List Byte) : FlitIn := { bytes := flitBytes { type, vc := 2, seq } payload }
def flitX : FlitIn := { bytes := badFlitBytes { type := tyData, vc := 2 } [] }
def upLink : LinkSt := { st := .active, laneMask := 15 }

/-- The header of Table 8.4 bit by bit: TYPE 1, VC 2, SEQ 5, AVC 3, ACK 7, CREDIT 9 in bits [2:0], [4:3], [22:5], [24:23], [42:25], [47:43]. -/
theorem test_flit_header :
    ({ type := 1, vc := 2, seq := 5, avc := 3, ack := 7, credit := 9 } : FlitHead).bytes =
      le 6 (1 + 2 * 2 ^ 3 + 5 * 2 ^ 5 + 3 * 2 ^ 23 + 7 * 2 ^ 25 + 9 * 2 ^ 43) := by decide +kernel

set_option maxRecDepth 200000 in
theorem witness_Flits :
    (flitGood (flit0 tyData 0 [1]) = true ∧ (flit0 tyData 0 [1]).uncorrectable = false ∧ flitGood flitX = false ∧ (flit0 tyData 0 [1]).bytes.length = 256) ∧
    ((flitHead (flit0 tyData 1 [1])).type = tyData ∧ (flitHead (flit0 tyData 1 [1])).vc = 2 ∧ (flitHead (flit0 tyData 1 [1])).seq ≠ (((linked 0 upLink).link 0).vc 2).expect ∧
     (flitHead (flit0 tySeal 0 [1])).type = tySeal ∧ (flitHead (flit0 tySeal 0 [1])).seq = (((linked 0 upLink).link 0).vc 2).expect) := by decide +kernel

/-- Links to take it: near and far; a far one whose buffer is full; a GCM tag that does not fit. -/
theorem witness_Flits_links :
    (((linked 0 upLink).link 0).st.up = true ∧ farLink 0 = false ∧ farLink 15 = true ∧ (((linked 15 upLink).link 15).vc 2).refusing = none ∧
     (((linked 15 upLink).link 15).vc 2).holding < rxBuffer true 2 ∧ ((linked 15 upLink).link 15).tagTimes = []) ∧
    rxBuffer true 2 ≤ (((linked 15 { upLink with vcs := [(2, { buffer := List.replicate (rxBuffer true 2) [] })] }).link 15).vc 2).holding ∧
    openGroup {} 2 0 [List.replicate 246 0] = none := by decide +kernel

/-- SM4 on the worked example of its standard: key and block 0123456789ABCDEFFEDCBA9876543210. -/
theorem test_sm4 : sm4 0x0123456789ABCDEFFEDCBA9876543210 0x0123456789ABCDEFFEDCBA9876543210 = 0x681EDF34D206965E86B3E94F536E4246 := by decide +kernel

/-- A control entry of Table 8.5: OP, VC, SEQ, ARG in bits [7:0], [9:8], [33:16], [63:34]. -/
theorem test_control_entry : CtrlEntry.bytes { op := 8, vc := 1, arg := 5, seq := 3 } = le 8 (8 + 1 * 2 ^ 8 + 3 * 2 ^ 16 + 5 * 2 ^ 34) := by decide +kernel

theorem witness_Control :
    ((linked 0 upLink).link 0).st.up = true ∧ (1 : BitVec 18) ≠ (((linked 0 upLink).link 0).vc 0).nextSeq ∧
    ((((linked 0 upLink).link 0).vc 0).resends.filter fun t => (linked 0 upLink).dp.now < t + 156250).length < 15 ∧
    15 ≤ ((((linked 0 { upLink with vcs := [(0, { resends := List.replicate 15 0 })] }).link 0).vc 0).resends.filter fun t => (linked 0 upLink).dp.now < t + 156250).length ∧
    ((((linked 15 { upLink with vcs := [(0, { heldAt := some 3 })] }).link 15).vc 0).heldAt ≠ none ∧ farLink 15 = true) ∧
    (((linked 0 upLink).link 0).kept = none ∧ ((linked 0 { upLink with kept := some { serial := 0, link := 0, session := 0 } }).link 0).kept ≠ none) := by decide +kernel

def stalledLink (resends : List Nat) : State :=
  linked 0 { upLink with store := [{ vc := 0, seq := 4, sealed := false, payload := [] }], vcs := [(0, { nextAbs := 5, resends })] }

theorem witness_Pending :
    (farLink 15 = true ∧ ((linked 15 upLink).link 15).st.up = true) ∧ (((linked 15 { upLink with vcs := [(0, { refusing := some 3 })] }).link 15).vc 0).refusing = some 3 ∧
    ((((stalledLink []).link 0).storeOf 0).map (·.seq) = [4] ∧ ((stalledLink []).link 0).st.up = true ∧ (4 : BitVec 18) ≠ (((stalledLink []).link 0).vc 0).nextSeq ∧
     (((stalledLink []).link 0).vc 0).resends = []) := by decide +kernel

theorem witness_OneFlit :
    ((linked 0 { st := .active }).link 0).st.up = true ∧ ((linked 0 { st := .quarantine }).link 0).st = .quarantine ∧ ((linked 0 { st := .identify }).link 0).st = .identify ∧
    ((linked 0 {}).link 0).st = .down ∧ ((linked 0 { st := .train }).link 0).st = .train ∧ (linked 0 { st := .active }).stranded 0 = [] ∧
    (((linked 0 { st := .active, ctrl := [{ op := 1, vc := 0, arg := 0 }] }).link 0).ctrl.any fun e => e.due && (e.op == 1 || e.op == 2 || e.op == 5)) = true := by decide +kernel

def answeredLink : State := linked 15 { upLink with agreeing := true, answered := some { no := 1, key := 1, salt := 1 } }
theorem witness_FarKeys :
    farLink 15 = true ∧ ((linked 15 upLink).link 15).st.up = true ∧ ((linked 15 { upLink with exhausted := true }).link 15).exhausted = true ∧
    (answeredLink.link 15).agreeing = true ∧ (answeredLink.link 15).answered.isSome = true := by decide +kernel

/-- A read request for this module, and one for module 1 behind link 0; a packet at its last hop, one with reserved bits. -/
def pkt1 (dest : BitVec 32) : Packet := { (default : Packet) with op := 1, dest }
def routed : State := { linked 0 upLink with lnk := { (linked 0 upLink).lnk with routes := [(1, [0])] } }

theorem witness_Packets :
    (pktFault (pkt1 0) = none ∧ destOf (pkt1 0) = world.dp.coord) ∧
    (pktFault (pkt1 1) = none ∧ (pkt1 1).hops.toNat < 15 ∧ destOf (pkt1 1) ≠ routed.dp.coord ∧ (0 : Vc) ≠ 2 ∧ routed.output (srcOf (pkt1 1)) (destOf (pkt1 1)) = some 0 ∧
     (routed.link 0).st.up = true ∧ (pkt1 1).job = 0 ∧ isRequest 1 = true ∧ ({ pkt1 1 with hops := 15 } : Packet).hops.toNat = 15) ∧
    ((pktFault { pkt1 1 with src := 1 <<< 17 }).isSome = true ∧ routed.output (srcOf (pkt1 0x1FFFF)) (destOf (pkt1 0x1FFFF)) = none) ∧
    (((linked 0 { upLink with vcs := [(0, { pressure := true })] }).link 0).vc 0).pressure = true ∧ ((cqAt [] {}).cq 0).group = some group1 := by decide +kernel

/-! ### Groups -/

/-- A group of two modules along S, staging in glaze: the descriptor with its CRC (R309), worked out apart. -/
def gdBody (abi : Nat) : List Byte := blob 64 [(0, 4, 7), (4, 2, 1), (6, 1, 1), (8, 1, 0), (9, 1, 2), (10, 1, 1), (24, 2, abi), (26, 1, 16), (32, 8, (ga 0).toNat), (40, 4, 2 ^ 20)]
def gdBytes (abi : Nat) : List Byte := overlay (gdBody abi) 56 (le 4 (crc32c (slice (gdBody abi) 0 56)).toNat)
def groupless (abi : Nat) : State := State.with world [(descs, gdBytes abi)]
def gdG : Group := (GD.ofBytes (gdBytes 0x100)).group 0 default 0

set_option maxRecDepth 200000 in
theorem witness_Groups_create :
    good (((groupless 0x100).groupCheck 0 (da 0) {}).exec (groupless 0x100).dp) (fun _ y => decide (y.1.group 0 default y.2 = gdG)) = true ∧ (groupless 0x100).freeQueue = some 0 ∧
    (gdG.neighbours gdG.rank ≠ [] ∧ 4 ≤ gdG.slots) ∧
    (([[3]] : List (List Link)).find? fun l => l.all fun x => (groupless 0x100).shareOk x.val gdG.cls gdG.job gdG.weight) = some [3] ∧
    bad (((groupless 0x200).groupCheck 0 (da 0) {}).exec (groupless 0x200).dp) = true := by decide +kernel

/-- The group held and not yet committed, on a worker; committed; in destruction with nothing left; a host's command for it. -/
def heldAt (x : Cq) : State := { world with roles := { role := .worker }, cqs := [(0, { x with group := some group1 })] }
def cmdOf (code : BitVec 16) (payload : List Byte) : Cmd := { seq := 9, port := .A, slot := 0, req := { opcode := code, payload } }
/-- A worker whose owner, port A's host, has command `c` accepted in its slot. -/
def boxed (s : State) (c : Cmd) : State :=
  { s with mbx := { owner := some .A, a := { up := true, slots := [(0, { st := .accepted, req := c.req, seq := c.seq })] }, cmds := [c] } }

theorem witness_Groups_commit :
    ((heldAt {}).queueOf 0 group1.id = some 0 ∧ ((heldAt {}).cq 0).committed = false ∧ ((heldAt {}).cq 0).group = some group1 ∧ (heldAt {}).isManager = false ∧ Status.queueExhausted ≠ .ok) ∧
    ((heldAt { committed := true }).queueOf 0 group1.id = some 0 ∧ ((heldAt { committed := true }).cq 0).committed = true) ∧
    (((heldAt { committed := true, destroying := true }).cq 0).destroying = true ∧ ((heldAt { committed := true, destroying := true }).cq 0).idle = true) ∧
    ((boxed world (cmdOf 0x41 (le 8 (da 0).toNat))).cmdReady 9 0x41).isSome = true := by decide +kernel

/-- A posted ALL_REDUCE on communication queue 0, with a completion record. -/
def cdBytes (kind flags : Nat) (src dst : Addr) : List Byte := blob 96 [(0, 1, kind), (1, 1, flags), (8, 8, src.toNat), (16, 8, dst.toNat), (56, 8, (ga 0x3000).toNat)]
def cqPosted : State :=
  let s := cqAt (entryBytes (qe (da 0)) 0 1 0) {}
  State.with s [(descs + 0x2000, entryBytes (qe (da 0)) 0 1 0), (descs, cdBytes kAllReduce 0 0 0)]

theorem witness_Groups_accept :
    ((cqPosted.cq 0).part = some 0 ∧ (cqPosted.cq 0).committed = true ∧ (cqPosted.cq 0).enable = true ∧ (cqPosted.cq 0).st = .running ∧ (cqPosted.cq 0).cur = none ∧
     sizeOk (cqPosted.cq 0).sizeLog2 = true ∧ Sparse.get false cqPosted.wdg.held 0 = false ∧ (cqPosted.wet 0).settling = false ∧ (cqPosted.cq 0).replay = [] ∧ cqPosted.dp.mem.errs = []) ∧
    cqPosted.dp.mem.peek (cqPosted.cqKey 0 (cqPosted.cq 0).head) 32 = entryBytes (qe (da 0)) 0 1 0 ∧ (qe (da 0)).part = 0 ∧ resolve cqPosted.dp.coord (da 0) = some (.here 2 descs) ∧
    rangeStatus cqPosted.dp (cqPosted.cqCtx 0 (qe (da 0)) {}) 2 descs 96 false = .ok ∧ fld (cqPosted.dp.mem.peek descs 96) 56 8 = (ga 0x3000).toNat ∧
    rangeStatus cqPosted.dp (cqPosted.cqCtx 0 (qe (da 0)) {}) 2 (glaze + 0x3000) 64 true = .ok ∧ rangeStatus cqPosted.dp (cqPosted.cqCtx 0 (qe (da 0)) {}) 2 (glaze + 0x3000) 2 true = .ok ∧
    ((cqPosted.wet 0).ent 1).state = .wet ∧ ((cqPosted.wet 0).ent 1).step = (qe (da 0)).tag.step ∧ ((cqPosted.wet 0).ent 1).attempt = (qe (da 0)).attempt ∧ kAllReduce ≠ kAnchorPre ∧ fld (cqPosted.dp.mem.peek descs 96) 0 1 = kAllReduce := by decide +kernel

/-! ### Collectives -/

/-- A group of `n` modules along S, this one at rank 0; queue 0 with an operation of it accepted. -/
def groupS (n : Nat) : Group := { group1 with axes := [some (0, n, 1), none, none, none] }
def cdFor (kind flags root : Nat) (src dst : Addr) : List Byte :=
  blob 96 [(0, 1, kind), (1, 1, flags), (4, 4, root), (8, 8, src.toNat), (16, 8, dst.toNat), (56, 8, (ga 0x3000).toNat)]
def cop (cd : List Byte) : Coll := { a := { entry := qe (da 0), seq := 1, desc := cd, comp := ga 0x3000 } }
def collAt (n : Nat) (c : Coll) (l : List (Nat × List Byte)) : State :=
  State.with { world with cqs := [(0, { enable := true, st := .running, group := some (groupS n), committed := true, last := 1, cur := some c })] } l

/-- A distributed descriptor of 32 W64 words, whole on every member, with an anchor table and a census record. -/
def wireTd (base side census : Addr) : List Byte :=
  blob 128 [(0, 1, 2), (1, 1, 0x21), (2, 1, 1), (8, 8, base.toNat), (16, 4, 32), (72, 4, 0x3F800000), (80, 8, (ga 0x4000).toNat), (88, 8, census.toNat), (96, 8, side.toNat)]
/-- A reducible W64 anchor table of step 4 with one entry, anchor 0; the sidecar of a tile of zeros; CRCs worked out apart. -/
def tableBody : List Byte := blob 64 [(4, 4, 4), (8, 4, 1), (12, 4, 32), (16, 1, 2), (17, 1, 1), (19, 1, 1)]
def tableFor : List Byte := overlay tableBody 24 (le 4 3222023943)
def sideZero : List Byte := blob 160 [(128, 4, 2840125640)]
def wires (n : Nat) (cd : List Byte) : State :=
  collAt n (cop cd) [(glaze + 0x4000, tableFor), (glaze + 0x10000, sideZero), (descs + 0x200, wireTd (ga 0) (ga 0x10000) (ga 0x4800)), (descs + 0x280, wireTd (ga 0x1000) (ga 0x10200) (ga 0x4900))]
def allReduceCd (flags : Nat) : List Byte := cdFor kAllReduce flags 0 (da 0x200) (da 0x280)
def begun (c1 : Coll) (g : Group) : Coll := { c1.enter g with a := { c1.a with started := true } }
def freshAt (s : State) (kind : Nat) (c : Coll) (g : Group) (holder : Bool := true) : Bool :=
  s.collFresh 0 kind == some (c, g) && (firstRow (c.d.fieldRows g.size g.rank holder)).isNone && c.qs.isEmpty && c.qsOut.isEmpty

set_option maxRecDepth 200000 in
/-- A two-member ALL_REDUCE awaits its neighbour, with no credit. -/
theorem witness_Collectives_awaits :
    freshAt (wires 2 (allReduceCd 0)) kAllReduce (cop (allReduceCd 0)) (groupS 2) = true ∧ (cop (allReduceCd 0)).d.qs = false ∧
    good ((reducePrep (cop (allReduceCd 0)) (groupS 2) ((wires 2 (allReduceCd 0)).cqCtx 0 (qe (da 0)) {})).exec (wires 2 (allReduceCd 0)).dp)
      (fun _ c1 => !(begun c1 (groupS 2)).await.isEmpty && (begun c1 (groupS 2)).rx.isEmpty &&
        (begun c1 (groupS 2)).outq.all fun o => Sparse.get 0 ((wires 2 (allReduceCd 0)).cq 0).credits o.rank == 0) = true := by decide +kernel

set_option maxRecDepth 200000 in
/-- A lone member's ALL_REDUCE runs to its end. -/
theorem witness_Collectives_runs :
    freshAt (wires 1 (allReduceCd 0)) kAllReduce (cop (allReduceCd 0)) (groupS 1) = true ∧
    good ((reducePrep (cop (allReduceCd 0)) (groupS 1) ((wires 1 (allReduceCd 0)).cqCtx 0 (qe (da 0)) {})).exec (wires 1 (allReduceCd 0)).dp)
      (fun _ c1 => ((begun c1 (groupS 1)).advance (groupS 1) ((wires 1 (allReduceCd 0)).cqCtx 0 c1.a.entry {}) ((begun c1 (groupS 1)).fuel (groupS 1))).ran (groupS 1) &&
        ((begun c1 (groupS 1)).advance (groupS 1) ((wires 1 (allReduceCd 0)).cqCtx 0 c1.a.entry {}) ((begun c1 (groupS 1)).fuel (groupS 1))).outq.isEmpty &&
        !((begun c1 (groupS 1)).advance (groupS 1) ((wires 1 (allReduceCd 0)).cqCtx 0 c1.a.entry {}) ((begun c1 (groupS 1)).fuel (groupS 1))).written) = true := by
  decide +kernel

/-- A row fails: FLAGS 2, and ROOT set. The descriptors are missing: the preparation fails. -/
theorem witness_Collectives_fail :
    ((collAt 2 (cop (allReduceCd 2)) []).collFresh 0 kAllReduce = some (cop (allReduceCd 2), groupS 2) ∧
     firstRow ((cop (allReduceCd 2)).d.fieldRows 2 0 true) = some (.fieldReserved, 1)) ∧
    firstRow ((cop (cdFor kAllReduce 0 1 (da 0x200) (da 0x280))).d.fieldRows 2 0 true) = some (.fieldReserved, 4) ∧
    (freshAt (collAt 2 (cop (allReduceCd 0)) []) kAllReduce (cop (allReduceCd 0)) (groupS 2) = true ∧
     bad ((reducePrep (cop (allReduceCd 0)) (groupS 2) ((collAt 2 (cop (allReduceCd 0)) []).cqCtx 0 (qe (da 0)) {})).exec (collAt 2 (cop (allReduceCd 0)) []).dp) = true) := by
  decide +kernel

/-- Barriers of one and two members; a member's own record (R80) in a group of one. -/
def barrierCd : List Byte := cdFor kBarrier 0 0 0 0
def anchorCd : List Byte := cdFor kAnchorPre 0 0 (da 0x200) 0
def anchored : State := collAt 1 (cop anchorCd) [(descs + 0x200, wireTd (ga 0) (ga 0x10000) (ga 0x4800)), (glaze + 0x4800, ({ step := 4 } : Census).bytes)]

theorem witness_Collectives_quickset :
    freshAt (collAt 1 (cop barrierCd) []) kBarrier (cop barrierCd) (groupS 1) = true ∧ ((groupS 1).size = 1 ∧ (groupS 1).count 0 = 1) ∧
    freshAt (collAt 2 (cop barrierCd) []) kBarrier (cop barrierCd) (groupS 2) = true ∧ (2 ≤ (groupS 2).size ∧ (groupS 2).rank < (groupS 2).size) ∧
    freshAt anchored kAnchorPre (cop anchorCd) (groupS 1) = true ∧
    good ((anchorPrep (fun _ => false) (cop anchorCd) (anchored.cqCtx 0 (qe (da 0)) {})).exec anchored.dp)
      (fun d c1 => (Sparse.get {} c1.qs 0 : QsPart).result.isSome && resolve anchored.dp.coord c1.src.census == some (.here 2 (glaze + 0x4800)) &&
        rangeStatus d (anchored.cqCtx 0 c1.a.entry {}) 2 (glaze + 0x4800) 32 true == .ok) = true := by decide +kernel

set_option maxRecDepth 200000 in
theorem witness_Collectives_one_block :
    freshAt (wires 2 (allReduceCd 1)) kAllReduce (cop (allReduceCd 1)) (groupS 2) = true ∧ (cop (allReduceCd 1)).d.qs = true ∧
    good ((reducePrep (cop (allReduceCd 1)) (groupS 2) ((wires 2 (allReduceCd 1)).cqCtx 0 (qe (da 0)) {})).exec (wires 2 (allReduceCd 1)).dp) (fun _ _ => true) = true := by
  decide +kernel

/-- A written operation; one that awaits rank 1. -/
def doing (c : Coll) : Coll := { c with a := { c.a with started := true } }
theorem witness_Collectives_ends :
    ((collAt 2 { doing (cop (allReduceCd 0)) with written := true } []).cq 0).cur = some { doing (cop (allReduceCd 0)) with written := true } ∧
    (cop (allReduceCd 0)).outq = [] ∧ (cop (allReduceCd 0)).owed = [] ∧ (cop (allReduceCd 0)).d.onQs = false ∧ (cop (allReduceCd 0)).written = false ∧
    (((collAt 2 { doing (cop (allReduceCd 0)) with await := [1] } []).cq 0).group = some (groupS 2) ∧
     ({ doing (cop (allReduceCd 0)) with await := [1] } : Coll).awaited (groupS 2) = some 1) := by decide +kernel
/-! ### Chunks, messages, experts -/

/-- A chunk about operation `seq` from rank 1 of the group on queue 0, its header CRC (R325) in place. -/
def chunkOf (seq sig : BitVec 32) (kind chunk attempt : Nat) (payload : List Byte) : Packet :=
  { (default : Packet) with op := BitVec.ofNat 8 opChunk, job := 1, src := coord32 (Coord.ofCode 1)
                            data := chunkBytes 1 seq sig 1 chunk kind { step := 4, epoch := 1 } (BitVec.ofNat 8 attempt) 0 0 payload }
def reduceOp : Coll := { doing (cop (allReduceCd 0)) with sig := 7, await := [1] }
/-- The queue idle after operation 5; or with operation 1 under way. -/
def idleAt (x : Cq) : State := { world with cqs := [(0, { x with enable := true, st := .running, group := some (groupS 2), committed := true, last := 5 })] }
def underWay (c : Coll) (x : Cq) : State := { world with cqs := [(0, { x with enable := true, st := .running, group := some (groupS 2), committed := true, last := 1, cur := some c })] }
def isFor (s : State) (p : Packet) (kind : Nat) : Bool :=
  (s.chunkFor p).map (fun y => (y.1, y.2.2)) == some (0, 1) && (Chunk.ofBytes p.data).good && (Chunk.ofBytes p.data).kind == kind

def data6 : Packet := chunkOf 6 7 ckData 0 0 (List.replicate 32 1)
def data1 (sig : BitVec 32) (att : Nat := 0) : Packet := chunkOf 1 sig ckData 0 att (List.replicate 32 1)

set_option maxRecDepth 200000 in
/-- Later, stale, of another signature, of this operation; of a newer attempt. -/
theorem witness_Chunks_data :
    (isFor (idleAt {}) data6 ckData = true ∧ resolve world.dp.coord ((groupS 2).staging + BitVec.ofNat 64 (4096 * bitsOf data6.addr.toNat 21 6)) = some (.here 2 (glaze + 0x40000)) ∧
     (idleAt {}).chunkStand 0 (Chunk.ofBytes data6.data) true = .later) ∧
    (idleAt {}).chunkStand 0 (Chunk.ofBytes (data1 7).data) true = .stale ∧
    (isFor (underWay reduceOp {}) (data1 8) ckData = true ∧ (underWay reduceOp {}).chunkStand 0 (Chunk.ofBytes (data1 8).data) true = .order) ∧
    (isFor (underWay reduceOp {}) (data1 7) ckData = true ∧ (underWay reduceOp {}).chunkStand 0 (Chunk.ofBytes (data1 7).data) true = .now ∧
     reduceOp.crc = (Chunk.ofBytes (data1 7).data).anchorCrc ∧ reduceOp.step < ((groupS 2).steps reduceOp.d.kind).length ∧ (Chunk.ofBytes (data1 7).data).last = false) ∧
    (underWay reduceOp {}).chunkStand 0 (Chunk.ofBytes (data1 7 1).data) true = .later := by decide +kernel

def out1 : OutChunk := { rank := 1, step := 0, idx := 0, last := true, payload := [] }
def logged : State := idleAt { log := [{ seq := 4, sig := 7, crc := 0, loc := some (ga 0x41000), anchor := 0, tag := { step := 4, epoch := 1 }, out := out1 }], credits := [(1, 1)] }

set_option maxRecDepth 200000 in
theorem witness_Chunks_control :
    (isFor (idleAt {}) (chunkOf 6 7 ckCredit 3 0 []) ckCredit = true ∧ ((idleAt {}).cq 0).cur = none) ∧
    (isFor logged (chunkOf 4 7 ckResend 0 0 []) ckResend = true ∧ ((logged.cq 0).log.find? fun y => y.holds 4 1 0 0 && y.sig == 7).isSome = true) ∧
    (isFor (underWay reduceOp {}) (chunkOf 1 7 ckFail Status.checkTile.toCode.toNat 0 []) ckFail = true ∧
     (underWay reduceOp {}).chunkStand 0 (Chunk.ofBytes (chunkOf 1 7 ckFail Status.checkTile.toCode.toNat 0 []).data) false = .now) ∧
    (isFor (idleAt {}) (chunkOf 6 7 ckFail Status.checkTile.toCode.toNat 0 []) ckFail = true ∧
     (idleAt {}).chunkStand 0 (Chunk.ofBytes (chunkOf 6 7 ckFail Status.checkTile.toCode.toNat 0 []).data) false = .later) := by decide +kernel

set_option maxRecDepth 200000 in
theorem witness_Chunks_deferred :
    (((underWay reduceOp { deferred := [data1 7] }).cq 0).deferred.find? ((underWay reduceOp { deferred := [data1 7] }).dueNow 0) = some (data1 7) ∧
     (data1 7).op.toNat ≠ opQs ∧ (Chunk.ofBytes (data1 7).data).kind ≠ ckFail) ∧
    ((idleAt { deferred := [data6] }).cq 0).deferred.find? ((idleAt { deferred := [data6] }).dueNow 0) = none := by decide +kernel

/-- A quickset message of rank 1 for operation `seq` on queue 0. -/
def message (qop seq sig : Nat) (data : List Byte) : Packet :=
  { (default : Packet) with op := BitVec.ofNat 8 opQs, job := 1, src := coord32 (Coord.ofCode 1), addr := BitVec.ofNat 64 (qop + 2 ^ 14 * seq), txn := BitVec.ofNat 16 sig, data }
def barrierOp : Coll := { doing (cop barrierCd) with sig := 7 }
def sumOp : Coll := { doing (cop (allReduceCd 1)) with sig := 7 }
def heard (s : State) (p : Packet) (qop : Nat) : Bool :=
  s.senderRank (groupS 2) p == some 1 && (QsMsg.of p).qop == qop && !(QsMsg.of p).bad && (QsMsg.of p).q == 0

theorem witness_Messages :
    ([qopBarrier, qopMax, qopSum, qopCensus].all fun o => heard (idleAt {}) (message o 6 7 (le 32 0)) o && (idleAt {}).stand 0 (QsMsg.of (message o 6 7 (le 32 0))).seq true false == .later &&
      (idleAt {}).stand 0 (QsMsg.of (message o 1 7 (le 32 0))).seq true false == .stale) = true ∧
    ([qopBarrier, qopMax, qopSum, qopCensus].all fun o => heard (underWay sumOp {}) (message o 1 7 (le 32 0)) o &&
      (underWay sumOp {}).stand 0 (QsMsg.of (message o 1 7 (le 32 0))).seq true false == .now && sumOp.sig.toNat % 2 ^ 24 == (QsMsg.of (message o 1 7 (le 32 0))).sig &&
      sumOp.sig.toNat % 2 ^ 24 != (QsMsg.of (message o 1 8 (le 32 0))).sig) = true ∧
    sumOp.d.onQs = true ∧ 1 ≠ (groupS 2).rank := by decide +kernel

theorem witness_Messages_barrier_fail :
    (heard (underWay { barrierOp with qs := [(0, { qop := qopBarrier, vals := [(0, [])] })] } {}) (message qopBarrier 1 7 (le 32 0)) qopBarrier = true ∧
     (underWay barrierOp {}).stand 0 1 true false = .now ∧ barrierOp.sig.toNat % 2 ^ 24 = (QsMsg.of (message qopBarrier 1 7 (le 32 0))).sig ∧ barrierOp.d.kind = kBarrier ∧
     (QsMsg.of (message qopBarrier 1 7 (le 32 0))).part = 0 ∧ (groupS 2).size = 2 ∧ (groupS 2).count 0 = 2 ∧ (groupS 2).rank < 2 ∧ barrierOp.qsOut = []) ∧
    (heard (underWay sumOp {}) (message qopFail 1 7 (le 32 Status.checkTile.toCode.toNat)) qopFail = true ∧ (underWay sumOp {}).stand 0 1 false false = .now ∧
     (Status.ofCode (fld (le 32 Status.checkTile.toCode.toNat) 0 2)).getD .checkTile = .checkTile) := by decide +kernel

/-- One expert on module 1; a token of 32 FP8 elements with no expert; a group of one. CRCs worked out apart. -/
def placementBytes (crc : Nat) : List Byte := blob 64 [(4, 4, 1), (8, 4, 32), (12, 1, 2), (13, 1, 1), (24, 4, crc), (32, 4, 1)]
def distTd (type : Nat) (shape : List Nat) (base side census : Addr) : List Byte :=
  blob 128 ([(0, 1, 2), (1, 1, type), (2, 1, shape.length), (8, 8, base.toNat), (40, 5, 32), (72, 4, 0x3F800000), (88, 8, census.toNat), (96, 8, side.toNat)]
    ++ (List.range shape.length).map fun i => (16 + 4 * i, 4, shape.getD i 0))
def sideOf (crc : Nat) : List Byte := blob 160 [(128, 4, crc)]
def groupX : Group := { groupS 1 with table := ga 0x5000 }
def dispatchCd : List Byte := overlay (cdFor kDispatch 0 0 (da 0x200) 0) 24 (le 8 (da 0x280).toNat)
def dispatching : State :=
  State.with { world with cqs := [(0, { enable := true, st := .running, group := some groupX, committed := true, last := 1, cur := some (cop dispatchCd) })] }
    [(glaze, List.replicate 32 0), (glaze + 0x1000, le 4 0xFFFFFFFF), (glaze + 0x5000, placementBytes 3099467043), (glaze + 0x10000, sideOf 1526915856), (glaze + 0x10200, sideOf 4294967295),
     (descs + 0x200, distTd 1 [1, 32] (ga 0) (ga 0x10000) (ga 0x4800)), (descs + 0x280, distTd 0x20 [1, 1] (ga 0x1000) (ga 0x10200) (ga 0x4900))]
def dx : Ctx := dispatching.cqCtx 0 (qe (da 0)) {}

set_option maxRecDepth 200000 in
theorem witness_Experts_dispatch :
    dispatching.collFresh 0 kDispatch = some (cop dispatchCd, groupX) ∧ groupX.table ≠ 0 ∧ groupX.size = 1 ∧
    good ((takePlacement dx groupX.table).exec dispatching.dp) (fun d0 P => !P.holds groupX && (firstRow ((cop dispatchCd).d.fieldRows 1 0 (P.holds groupX))).isNone &&
      good (((cop dispatchCd).prepDispatch groupX P (P.holds groupX) dx).exec d0) (fun _ c1 => decide (c1.step = 0) && c1.outq.isEmpty)) = true := by decide +kernel

/-- The dispatch has run, and no row has come for the one slot of this member: its map says so. -/
def rowBytes32 : List Byte := List.replicate 32 0x38 ++ [127]
def dispatched : Coll :=
  { doing (cop dispatchCd) with
    step := 1, counts := [0, 0, 0, 0, 0]
    a := { (doing (cop dispatchCd)).a with tds := [default, TD.ofBytes (da 0x300) (distTd 1 [1, 32, 32] (ga 0x2000) (ga 0x10400) (ga 0x4A00)), default,
                                                   TD.ofBytes (da 0x380) (distTd 0x20 [1, 32, 2] (ga 0x6000) (ga 0x10600) (ga 0x4B00)), default, default] } }
def placing (crc own : Nat) : State :=
  State.with { world with cqs := [(0, { enable := true, st := .running, group := some groupX, committed := true, last := 1, cur := some dispatched })] }
    [(glaze + 0x5000, overlay (placementBytes crc) 32 (le 4 own))]

set_option maxRecDepth 200000 in
theorem witness_Experts_placement :
    (((placing 3099467043 1).cq 0).cur = some dispatched ∧ dispatched.d.kind = kDispatch ∧ dispatched.written = false ∧ dispatched.ran groupX = true ∧ groupX.table ≠ 0) ∧
    good ((takePlacement dx groupX.table).exec (placing 3099467043 1).dp) (fun _ P => !P.holds groupX) = true ∧
    good ((takePlacement dx groupX.table).exec (placing 4051853316 0).dp) (fun d0 P => P.holds groupX && good ((dispatched.place P dx).exec d0) (fun _ _ => true)) = true := by decide +kernel

/-- A returned row of FP8 ones with gate weight 1 in FP16 (R343), for a W64 destination of zeros. -/
def returned : Coll :=
  { doing (cop (cdFor kCombine 0 0 0 (da 0x200))) with
    step := 1, rows := [(0, 0, 0, le 1 1 ++ le 4 0x3F800000 ++ rowBytes32)], counts := [0, 0], work := [0x3C00], anchors := [0], bound := 57
    a := { (doing (cop dispatchCd)).a with
      desc := cdFor kCombine 0 0 0 (da 0x200)
      tds := [default, TD.ofBytes (da 0x200) (distTd 0x21 [1, 32] (ga 0) (ga 0x10000) (ga 0x4800)), default, default, TD.ofBytes (da 0x280) (distTd 0x10 [1, 1] (ga 0x1000) (ga 0x10200) (ga 0x4900))] } }
def combining : State :=
  State.with { world with cqs := [(0, { enable := true, st := .running, group := some groupX, committed := true, last := 1, cur := some returned })] } [(glaze + 0x10000, sideZero)]

set_option maxRecDepth 200000 in
theorem witness_Experts_combine :
    (combining.cq 0).cur = some returned ∧ returned.d.kind = kCombine ∧ returned.a.started = true ∧ returned.written = false ∧ returned.ran groupX = true ∧
    good ((returned.addRows (combining.cqCtx 0 returned.a.entry {})).exec combining.dp) (fun _ _ => true) = true := by decide +kernel
/-! ### Epochs and smudges -/

/-- Partition 0 with wet/dry state `w`; with a manager's state `m` of job 1. -/
def wetAt (w : WetPart) : State := { world with dp := { world.dp with wet := [(0, w)] } }
def managing (m : Mgr) : State := { world with mgrs := [(1, m)] }
/-- Epoch 3 of step 3, WET, on a worker. -/
def wet3 (fine : EpFine) : WetPart := { ents := [(3, { state := .wet, step := 3 })], info := [(3, { index := 3, fine })], next := 4, wetCount := 1, oldest := 3 }
def worker3 : State := { wetAt (wet3 .voted) with roles := { role := .worker } }
def vote0 : DryMsg := { job := 1, epoch := 3, attempt := 0, step := 3, index := 3, count := 1, level := 0 }

theorem witness_Epochs_open :
    ((world.job 0).running = true ∧ (world.wet 0).settling = false ∧ (world.wet 0).held = false ∧ (world.job 0).phase ≠ 4 ∧ (world.wet 0).wetCount.toNat < 8 ∧ (world.job 0).graph = none ∧
     (world.wet 0).next % world.epochsPerStep 0 = 0 ∧ (world.job 0).records = [] ∧ recSize (world.newRecord 0 0 0 default) ≤ 2 ^ 24) ∧
    ({ world with jobs := [(0, { (world.job 0) with graph := some { (default : GraphImage) with epochs := 2 } })], dp := { world.dp with wet := [(0, { next := 1 })] } } : State).epochsPerStep 0 = 2 ∧
    (((wetAt { wetCount := 8 }).wet 0).settling = false ∧ 8 ≤ ((wetAt { wetCount := 8 }).wet 0).wetCount.toNat ∧ (wetAt { wetCount := 7 }).wet 0 ≠ (wetAt { wetCount := 8 }).wet 0) := by
  decide +kernel

theorem witness_Epochs_vote :
    ((wetAt (wet3 .closed)).wet 0).mayVote 3 = true ∧ ((wetAt (wet3 .opened)).wet 0).mayVote 3 = false ∧ (((wetAt (wet3 .voted)).wet 0).inf 3).fine = .voted ∧
    (vote0.good = true ∧ (world.knownAttempt 1 3 3).toNat ≤ 0 ∧ world.gathers 0 = true ∧ (world.mgr 1).next.toNat ≤ 3) ∧
    (([1, 2] : List (BitVec 17)).all fun a => a == 1 || (((managing { votes := [{ level := 0, index := 3, attempt := 0, sender := 2 }] }).mgr 1).held 0 3 0).any fun v => v.sender == a) = true ∧
    ((2 : BitVec 17) ≠ 1 ∧ (world.mgr 1).held 0 3 0 = []) ∧
    (world.isMachine = true ∧ (3 : BitVec 64) = ((managing { next := 3 }).mgr 1).next ∧ ((managing { next := 3 }).mgr 1).settling = false ∧ ((managing { next := 3 }).mgr 1).stopped = false) ∧
    (worker3.jobPart 1 = some 0 ∧ worker3.isManager = false ∧ ((worker3.wet 0).ent 3).state = .wet ∧ ((worker3.wet 0).ent 3).step = 3 ∧ ((worker3.wet 0).ent 3).attempt.toNat ≤ 0) ∧
    ({ vote0 with good := false } : DryMsg).good = false := by decide +kernel

def report3 (cause : BitVec 8) (attempt : BitVec 8) : SmudgeMsg := { (default : SmudgeMsg) with job := 1, phase := 1, step := 3, epoch := 3, attempt, cause, status := 0x0207, good := true }

theorem witness_Smudges_report :
    (worker3.isMachine = false ∧ worker3.isManager = false ∧ ({ worker3 with roles := { role := .pod } } : State).isManager = true) ∧
    (world.isMachine = true ∧ ((managing { next := 3 }).mgr 1).settling = false ∧ ((report3 1 0).epoch - BitVec.ofNat 8 ((managing { next := 3 }).mgr 1).next.toNat).toNat < 8 ∧
     (report3 1 0).good = true) ∧
    ((report3 1 0).valid = false ∧ 8 ≤ ((11 : BitVec 8) - 3).toNat ∧ ((10 : BitVec 8) - 3).toNat = 7) ∧
    ((report3 8 1).cause = 8 ∧ ((managing { next := 3, faults := [(3, 0x0207, 0)] }).mgr 1).faults.contains ((report3 8 1).epoch, (report3 8 1).status, (report3 8 1).attempt - 1) = true) := by
  decide +kernel

def order3 : SmudgeMsg := { (default : SmudgeMsg) with job := 1, phase := 2, step := 3, base := 3, mask := 1, round := 1, good := true }
def settling3 (m : Mgr) : State := managing { m with settling := true, base := 3, mask := 1, round := 1 }

theorem witness_Smudges_settle :
    ((wetAt (wet3 .opened)).jobPart order3.job = some 0 ∧ order3.good = true) ∧
    (((settling3 {}).mgr 1).round ≤ order3.round.toNat ∧ (2 : BitVec 17) ∈ [1, 2] ∧ (2 : BitVec 17) ≠ 1 ∧ ((settling3 {}).mgr 1).closures = []) ∧
    (((settling3 {}).mgr 1).mask ||| order3.mask ||| ((settling3 {}).mgr 1).joining = ((settling3 {}).mgr 1).mask) ∧
    (((settling3 {}).mgr 1).mask ||| 3 ||| ((settling3 {}).mgr 1).joining ≠ ((settling3 {}).mgr 1).mask ∧ ((settling3 {}).mgr 1).round < 8) ∧
    ((settling3 { serious := true, discards := [(3, 14)] }).mgr 1).countDiscards.worn = none ∧ ((settling3 { serious := true, discards := [(3, 15)] }).mgr 1).countDiscards.worn = some 3 := by decide +kernel

theorem witness_Smudges_failures :
    ((((wetAt (wet3 .opened)).wet 0).ent 3).step = 3 ∧ (((wetAt (wet3 .opened)).wet 0).ent 3).state = .wet) ∧ (1727 : QueueId).val < 1728 ∧
    (Status.bounds.group = 2 ∧ Status.bounds ≠ .checkTile) ∧
    (1728 ≤ (1743 : QueueId).val ∧ (1743 : QueueId).val < 1744 ∧ Sparse.get 0 ({ world with integ := { varMiss := [(15, 1)] } } : State).integ.varMiss (1743 - 1728) ≠ 0) := by decide +kernel
/-! ### Duplicates, checkpoints, varnish -/

def dup9 : Dup := { id := 9, easel := 3, part := 0, epoch := 3, node := 1, tile := 0 }
def checking (i : Integ) : State := { world with integ := i }
def tpk1 : Tpk := { id := 1, version := 1, use := 1, items := 1, bytes := [] }
def observing (o : Obs) (i : Integ) : State := { world with integ := i, dp := { world.dp with obs := [(3, o)] } }

theorem witness_Duplicates :
    ((checking { dups := [dup9] }).integ.dups.find? (·.waits) = some dup9 ∧ ((checking { dups := [dup9] }).integ.dups.filter fun y => !y.waits).length < 256) ∧
    ((checking { dups := [{ dup9 with waits := false }] }).dup 9 = some { dup9 with waits := false } ∧ ({ dup9 with waits := false } : Dup).third = false) ∧
    (checking { dups := [{ dup9 with waits := false, third := true }] }).dup 9 = some { dup9 with waits := false, third := true } ∧
    (({ suspects := [{ easel := 3, part := 0, node := 1, tile := 0 }] } : Integ).suspects.find? fun y => y.easel == (3 : Easel).val).isSome = true ∧
    ((Sparse.get ({} : Obs) (observing { transient := 6 } {}).dp.obs 3).permanent = 0 ∧ (Sparse.get ({} : Obs) (observing { transient := 6 } {}).dp.obs 3).transient.toNat < 7) ∧
    ((Sparse.get ({} : Obs) (observing { left := 2 } { tpks := [tpk1] }).dp.obs 3).left ≠ 0 ∧ (observing { left := 2 } { tpks := [tpk1] }).currentTpk 0 = some tpk1) ∧
    ((Sparse.get ({} : Obs) world.dp.obs 3).left = 0 ∧ (Sparse.get ({} : Obs) (observing { left := 1 } {}).dp.obs 3).left = 1) := by decide +kernel

def jobWith (j : Job) : State := { world with jobs := [(0, { j with used := true, id := 1, panels := 1, running := true })] }
/-- A piece of 32 bytes of a durable granule in LPDDR5X copied to the granule before; one to an address that names no memory. -/
def copying (d : Addr) (s : State) : State × Except Fail (List (Addr × Nat × Addr) × Option Fail) :=
  s.runOp {} (do checkTds (s.ctx {} .ckpt) []; copyPieces (s.ctx {} .ckpt) [(la (2 ^ 21), 32, d)])
def copied (p : State × Except Fail (List (Addr × Nat × Addr) × Option Fail)) : Bool :=
  match p.2 with | .ok ([], none) => true | _ => false
def copyFails (p : State × Except Fail (List (Addr × Nat × Addr) × Option Fail)) : Bool :=
  match p.2 with | .ok (_, some _) => true | _ => false
def copyErr (p : State × Except Fail (List (Addr × Nat × Addr) × Option Fail)) : Bool :=
  match p.2 with | .error _ => true | _ => false

theorem witness_Checkpoints :
    (((jobWith { ckpt := some 5, phase := 1 }).job 0).ckpt = some 5 ∧ ((jobWith { ckpt := some 5, phase := 1 }).job 0).phase = 1) ∧
    world.piecesOk 0 [(la (2 ^ 21), 32, la 0)] = true ∧ world.piecesOk 0 [(la 0, 32, la (2 ^ 21))] = false ∧
    copied (copying (la 0) (jobWith { ckpt := some 5, phase := 1 })) = true ∧ copyFails (copying (la (9 * 2 ^ 21)) (jobWith { ckpt := some 5, phase := 1 })) = true ∧
    copyErr ((jobWith {}).runOp {} (do checkTds ((jobWith {}).ctx {} .ckpt) [la 8]; copyPieces ((jobWith {}).ctx {} .ckpt) [])) = true ∧
    (world.isMachine = true ∧ ((managing { ckpt := some 5 }).mgr 1).ckpt = some 5 ∧ Status.checkTile ≠ .ok ∧ ((managing { ckpt := some 5, reports := [2] }).mgr 1).reports = [2]) ∧
    (({ world with roles := { role := .worker } } : State).jobPart 1 = some 0 ∧ ({ world with roles := { role := .worker } } : State).isManager = false) ∧
    (jobWith { lastCommit := 5 }).commitOf 1 ≠ 0xFFFFFFFF ∧
    (({ world with roles := { role := .hedge } } : State).isManager = true ∧ ({ world with roles := { role := .hedge } } : State).isMachine = false) ∧
    ((world.job 0).used = true ∧ ({} : RollIn).take = none ∧ ({} : RollIn).emits = [] ∧ (world.job 0).heldSince = true) := by decide +kernel

/-- Varnish unit 0 with its ring; epoch 3 of step 3 is dry; a record with one parameter set. -/
def dry3 : WetPart := { ents := [(3, { state := .dry, step := 3 })], next := 4, oldest := 4 }
def varQ (x : Eq) (j : Job) (l : List (Nat × List Byte)) : State :=
  State.with { wetAt dry3 with eqs := [(1728, { x with base := ringBase, enable := true })], jobs := [(0, { j with used := true, id := 1, panels := 1, running := true })] } l
def logged3 : Job := { records := [{ (default : StepRec) with step := 3, params := [List.replicate 72 1] }] }

theorem witness_Varnish_post :
    (((varQ {} {} []).job 0).used = true ∧ ((varQ {} {} []).job 0).varHeld = false ∧ ((varQ {} {} []).wet 0).isDry { step := 3, epoch := 3 } = true ∧ ((varQ {} {} []).eq 1728).enable = true ∧
     (0 : BitVec 12).toNat < ((varQ {} {} []).eq 1728).entries ∧ (da 0).toNat % 32 = 0 ∧ (varQ {} {} []).dp.mem.errs = [] ∧
     freeEntry ((varQ {} {} []).dp.mem.peek ((varQ {} {} []).ringKey 1728 0) 32) = true) ∧
    ((varQ {} logged3 []).scaledSet 0 3 0).2 = some (List.replicate 72 1) ∧ ((varQ {} {} []).scaledSet 0 3 0).2 = none ∧ resolve default (ga 0x5000) = some (.here 2 (glaze + 0x5000)) ∧
    rangeStatus (varQ {} logged3 []).dp ((varQ {} logged3 []).ctx {} .ovind) 2 (glaze + 0x5000) 64 true = .ok ∧ glaze + 0x5000 + 64 ≤ (varQ {} {} []).ringKey 1728 0 := by decide +kernel

/-- An SGD update of 32 parameters whose state lies in LPDDR5X package 0; EMIT without a narrow tensor; a COUNT of 0. CRCs worked out apart. -/
def vdOf (rule count : Nat) (grad m1 : Addr) : List Byte :=
  blob 128 [(0, 1, 0x71), (1, 1, rule), (4, 4, count), (16, 8, grad.toNat), (24, 8, (da 0x280).toNat), (32, 8, m1.toNat), (56, 8, (ga 0x5000).toNat), (64, 8, (ga 0x3000).toNat)]
def paramBytes : List Byte := blob 64 [(0, 4, 4), (8, 4, 0x3F800000), (44, 4, 0x3F800000), (56, 4, 618814626)]
def stateTd (base side : Addr) : List Byte := blob 128 [(0, 1, 1), (1, 1, 0x11), (2, 1, 1), (8, 8, base.toNat), (16, 4, 32), (72, 4, 0x3F800000), (96, 8, side.toNat)]
def varX (vd : List Byte) (started : Bool) : Active := { entry := qe (da 0), seq := 1, desc := vd, comp := ga 0x3000, started }
/-- The gradient's tile has a tag of epoch 0 at step 0, or of epoch 3 at step 3, which is WET or SMUDGED. -/
def varAt (vd : List Byte) (started : Bool) (w : WetPart) (tag : Tag) : State :=
  State.with { wetAt w with eqs := [(1728, { enable := true, busy := true, last := 1, cur := some (varX vd started) })] }
    [(glaze + 0x4000, tableFor), (glaze + 0x5000, paramBytes), (glaze + 0x10000, overlay sideZero 132 (tagBytes tag)), (glaze + 0x10200, sideOf 2936906159), (glaze + 0x10400, sideOf 2936906159),
     (descs + 0x200, wireTd (ga 0) (ga 0x10000) (ga 0x4800)), (descs + 0x280, stateTd (la (2 ^ 21)) (ga 0x10200)), (descs + 0x300, stateTd (la (2 ^ 21 + 4096)) (ga 0x10400))]
def sgd : List Byte := vdOf ruleSgd 32 (da 0x200) (da 0x300)
def vctx (s : State) : Ctx := s.entryCtx 1728 (qe (da 0)) {}

theorem witness_Varnish_fail :
    (((varAt sgd false {} { step := 0, epoch := 0 }).eq 1728).cur = some (varX sgd false) ∧ (varAt sgd false {} { step := 0, epoch := 0 }).engineHeld 1728 = false) ∧
    bad (((VD.ofBytes (vdOf 5 32 (da 0x200) (da 0x300))).plan (vctx world) (da 0) 0 []).exec world.dp) = true ∧
    (firstRow (VD.ofBytes (vdOf ruleSgd 0 (da 0x200) (da 0x300))).fieldRows = none ∧ (VD.ofBytes (vdOf ruleSgd 0 (da 0x200) (da 0x300))).count = 0) := by decide +kernel

def runsGood (s : State) (v : VD) : Bool :=
  good ((v.plan (vctx s) (da 0) 0 []).exec s.dp) fun d p => match p with
    | some p => good ((if v.emit then pure .nothing else gradSays (vctx s) 0 p.grad v.tiles).exec d) fun d1 r => r == .nothing &&
        good ((p.run (vctx s) none v.tiles {}).exec d1) fun _ y => y.2.isNone && !y.1.torn && !y.1.miss
    | none => false
def saysGood (s : State) (v : VD) (r0 : TagSays) : Bool :=
  good ((v.plan (vctx s) (da 0) 0 []).exec s.dp) fun d p => match p with
    | some p => good ((gradSays (vctx s) 0 p.grad v.tiles).exec d) fun _ r => r == r0
    | none => false

set_option maxRecDepth 200000 in
theorem witness_Varnish_runs : runsGood (varAt sgd false {} { step := 0, epoch := 0 }) (VD.ofBytes sgd) = true := by decide +kernel

set_option maxRecDepth 200000 in
theorem witness_Varnish_waits :
    saysGood (varAt sgd false { ents := [(3, { state := .wet, step := 3 })] } { step := 3, epoch := 3 }) (VD.ofBytes sgd) .wet = true ∧
    saysGood (varAt sgd true { ents := [(3, { state := .smudged, step := 3 })] } { step := 3, epoch := 3 }) (VD.ofBytes sgd) .smudged = true ∧ (VD.ofBytes sgd).emit = false := by decide +kernel
/-! ### Resets, losses, power -/

def resetting (e : Episode) : State := { world with wdg := { episodes := [e] } }
def ep (level target : Nat) : Episode := { level, target, status := Status.hang.toCode }
def asked : State := { world with wdg := { queries := [{ coord := 5, waits := [(1, 3, 3)] }] } }

/-- An engine with an entry that has made no progress for some microseconds. -/
def hung (q : Nat) (us : BitVec 32) : State :=
  { world with eqs := [(q, { busy := true, cur := some (active []) })], wdg := { engines := [(q, { sinceUs := us })] } }

theorem witness_Hangs :
    ((hung 768 1000000).armed 768 = true ∧ 1000 * (hung 768 1000000).wdg.limitMs.toNat ≤ ((hung 768 1000000).wdgEng 768).sinceUs.toNat ∧
     ((hung 768 999).wdgEng 768).sinceUs.toNat < 1000 * (hung 768 999).wdg.limitMs.toNat ∧ world.armed 768 = false ∧
     (hung 768 1000000).hangLevel 768 = some (1, 0) ∧ (hung 1536 1000000).hangLevel 1536 = some (3, 0) ∧ world.wdg.episodes = [] ∧ Sparse.get 0 world.wdg.lastReset (768 % 768) = 0) ∧
    (Sparse.get ({} : Obs) (observing { transient := 6 } {}).dp.obs 3).transient.toNat < 7 ∧
    ((asked.wdg.queries.find? fun y => y.coord == 5) = some { coord := 5, waits := [(1, 3, 3)] } ∧ asked.wdg.episodes = []) ∧
    ((resetting (ep 3 2)).wdg.episodes.find? fun y => y.level == (2 : Fin 3).val + 1 && y.target == 2 && decide ((2 : Fin 3).val + 1 ≤ 3)) = some (ep 3 2) ∧
    ((resetting (ep 1 3)).wdg.episodes.find? fun y => y.level == (0 : Fin 3).val + 1 && y.target == 3 && decide ((0 : Fin 3).val + 1 ≤ 3)) = some (ep 1 3) ∧
    ((ep 1 3).level = 1 ∧ (ep 1 3).target = (3 : Easel).val) ∧ ((ep 3 2).level = 3 ∧ (ep 3 2).target = (2 : Easel).val) ∧ ((ep 4 0).level = 4 ∧ (ep 4 0).target = 0) := by decide +kernel

/-- A hedge manager with a role map that has a spare at coordinate 7; module 5 is a worker, 9 has a notice. -/
def hedge0 (r : Roles) : State := { world with roles := { r with role := .hedge, loaded := true, map := [(7, .spare)] } }

theorem witness_Losses :
    (hedge0 {}).isManager = true ∧ (hedge0 {}).isMachine = false ∧ world.isMachine = true ∧ ((9 : BitVec 17) ∈ (hedge0 { notices := [9] }).roles.notices ∧ (hedge0 { notices := [9] }).chooseSpare 9 = some 7) ∧
    ((5 : BitVec 17) ∉ (hedge0 {}).roles.notices ∧ (hedge0 {}).chooseSpare 5 = some 7) ∧
    ((hedge0 { taken := [7] }).chooseSpare 5 = none ∧ (hedge0 {}).jobPart 2 = none) ∧
    roleIn (hedge0 {}).roles.loaded (hedge0 {}).roles.map (Coord.ofCode 5) ≠ .spare ∧
    (roleIn (hedge0 {}).roles.loaded (hedge0 {}).roles.map (Coord.ofCode 7) = .spare ∧ (7 : BitVec 17) ∉ (hedge0 {}).roles.taken) := by decide +kernel

/-- Domain 0, an easel's, with its panel 816 and glaze 864 in given states. -/
def domains (d p : Domain) : State := { world with pwr := { domains := [(0, d), (816, p), (864, { st := .on })] } }

theorem witness_Domains :
    (((domains {} { st := .on }).logicalOf 0).isSome = true ∧ ((domains {} { st := .on }).domain 0).st = .off ∧ domainParents 0 = [816, 864] ∧ ((domains {} { st := .on }).domain 816).st = .on ∧
     (6 : Fin 8).val ≤ 6 ∧ (991 : BitVec 10).toNat ≤ 991 ∧ ¬ (991 : BitVec 10).toNat < 816) ∧
    (((domains { st := .on, votes := 1 } { st := .on }).domain 0).st = .on ∧ (1#7 &&& ~~~(BitVec.ofNat 7 (2 ^ 0))) = 0 ∧ (domains { st := .on, votes := 1 } { st := .on }).domainHolds 0 = 0 ∧
     (domains { st := .on, votes := 1 } { st := .on }).domainBusy 0 = false) ∧
    ((7 : Fin 8).val = 7 ∧ 991 < (992 : BitVec 10).toNat) ∧
    (((domains { st := .up, votes := 1 } { st := .on }).domain 0).st = .up ∧ (domains { st := .up, votes := 1 } { st := .on }).wanted 0 = true) ∧
    (((domains { st := .down } { st := .on }).domain 0).st = .down ∧ (domains { st := .down } { st := .on }).wanted 0 = false) ∧
    (((domains { st := .down, votes := 1 } { st := .on }).domain 0).st = .down ∧ (domains { st := .down, votes := 1 } { st := .on }).wanted 0 = true) := by decide +kernel

def powered (p : Pwr) : State := { world with pwr := p }

theorem witness_PStates :
    (((powered { pstates := [(0, { cur := 3, tgt := 5 })] }).pstate 0).cur.toNat < ((powered { pstates := [(0, { cur := 3, tgt := 5 })] }).pstate 0).tgt.toNat ∧
     ((powered { pstates := [(0, { cur := 5, tgt := 3 })] }).pstate 0).tgt.toNat < ((powered { pstates := [(0, { cur := 5, tgt := 3 })] }).pstate 0).cur.toNat ∧
     ((powered {}).pstate 0).tgt = ((powered {}).pstate 0).cur) ∧
    (100 < (101 : Fin 1001).val ∧ (100 : Fin 1001).val ≤ 100 ∧ Sparse.get 0 world.pwr.droopRec 0 = 0) := by decide +kernel

theorem witness_Controller :
    (98 * (powered { acting := 323400 }).peakNow ≤ 100 * (powered { acting := 323400 }).pwr.acting ∧ 4 < (powered { acting := 323400 }).throttle ∧
     (powered { acting := 323400 }).since (powered { acting := 323400 }).pwr.lastLower 10 = true ∧ ¬ 98 * (powered { acting := 323399 }).peakNow ≤ 100 * (powered { acting := 323399 }).pwr.acting) ∧
    (100 * (powered { acting := 306900, throttle := 0 }).pwr.acting ≤ 93 * (powered { acting := 306900, throttle := 0 }).peakNow ∧ 0 < (powered { acting := 306900, throttle := 0 }).peakNow ∧
     (powered { acting := 306900, throttle := 14 }).throttle < 16 ∧ (powered { throttle := 14 }).since (powered { throttle := 14 }).pwr.lastChange 100 = true) ∧
    (1 = max (powered { hist := [280000], acting := 280000 }).pwr.hist.length 1 ∧ 99 * (powered {}).pwr.sus.toNat * 1 < 280000 ∧ 97 * (powered {}).pwr.sus.toNat < 280000 ∧ (powered {}).pwr.cap.toNat < 15) ∧
    (0 < 95 * (powered {}).pwr.sus.toNat * 1 ∧ (powered {}).pwr.acting < 93 * (powered {}).pwr.sus.toNat ∧ (powered {}).throttle = 16 ∧ 0 < (powered { cap := 1 }).pwr.cap.toNat) := by decide +kernel

def spare0 (p : Pwr) : State := { world with jobs := [], pwr := p, roles := { role := .spare } }

theorem witness_ModuleStates :
    (((spare0 {}).pwr.mstate = 0 ∧ (spare0 {}).pwr.trans = none ∧ (spare0 {}).pwr.selfTest = false) ∧ ∀ k : Part, ((spare0 {}).job k).running = false) ∧
    ((spare0 {}).roles.role = .spare ∧ (spare0 { mstate := 1 }).pwr.mstate.toNat ≤ 1 ∧ (spare0 {}).partitionExists = false) ∧
    ((spare0 { trans := some (.entry 2) }).pwr.trans = some (.entry 2) ∧ (spare0 { trans := some (.entry 2) }).pwr.latched = none) ∧
    (spare0 { trans := some (.entry 2), latched := some 1 }).pwr.latched = some 1 ∧
    ((spare0 { trans := some .exit }).pwr.trans = some .exit ∧ (spare0 {}).stage = 5) ∧
    ((spare0 { alarmOn := true, mstate := 2, rtc := 7, alarmAt := 7 }).pwr.alarmOn = true ∧ (spare0 { alarmOn := true, mstate := 2, rtc := 7, alarmAt := 7 }).pwr.alarmAt.toNat ≤ 7 ∧
     (spare0 { mstate := 2 }).pwr.mstate = 2) ∧
    (spare0 { selfTest := true }).pwr.selfTest = true := by decide +kernel
/-! ### Start-up, firmware, mailbox -/

def ready (s : State) (c : Cmd) : Bool :=
  s.cmdReady c.seq c.req.opcode.toNat == some c && (s.mbx.cmds.find? fun x => x.seq == c.seq) == some c && c.live
def waits' (s : State) (c : Cmd) : Bool :=
  s.cmdWaiting c.seq c.req.opcode.toNat == some c && (s.mbx.cmds.find? fun x => x.seq == c.seq) == some c && c.live

theorem ready_spec {s : State} {c : Cmd} (h : ready s c = true) : s.Ready c.seq c.req.opcode.toNat c := by
  simp only [ready, Bool.and_eq_true, beq_iff_eq] at h
  exact ⟨h.1.1, h.1.2, h.2⟩

theorem waits_spec {s : State} {c : Cmd} (h : waits' s c = true) : s.Waits c.seq c.req.opcode.toNat c := by
  simp only [waits', Bool.and_eq_true, beq_iff_eq] at h
  exact ⟨h.1.1, h.1.2, h.2⟩

/-- Each command of the mailbox may run alone, on the module of `world`. -/
theorem witness_Ready :
    ([0x01, 0x02, 0x03, 0x04, 0x05, 0x06, 0x07, 0x10, 0x11, 0x12, 0x13, 0x14, 0x15, 0x20, 0x21, 0x30, 0x31, 0x32, 0x33, 0x50, 0x51, 0x60, 0x61, 0x62, 0x70, 0x71, 0x72, 0x73, 0x74, 0x80, 0x81,
      0x82, 0x83, 0x90, 0x91, 0x92, 0x93, 0x94].all fun n => ready (boxed world (cmdOf n [])) (cmdOf n [])) = true ∧
    ([0x30, 0x71, 0x94].all fun n => waits' (boxed world { cmdOf n [] with waiting := true }) { cmdOf n [] with waiting := true }) = true := by decide +kernel

def staged0 (n : Nat) : State := { State.reset with stage := n }

theorem witness_StartUp :
    (State.reset.stage ≤ 1 ∧ State.reset.elec = { cold := State.reset.elec.cold } ∧ State.reset.pwr.mstate = 0 ∧ State.reset.dp.evr.due.isSome = true ∧ (Evr.resume State.reset.dp.evr).full = false) ∧
    ({ State.reset with dp := { State.reset.dp with evr := { due := none } } } : State).dp.evr.due = none ∧
    (State.reset.stage = 1 ∧ State.reset.mbx.fault = false ∧ State.reset.elec.pwrReq = false ∧ State.reset.imageCheck State.reset.flash.image ≠ 0) ∧
    ((staged0 2).stage = 2 ∧ (staged0 2).mbx.recovery = false ∧ ({ staged0 2 with elec := { cold := false } } : State).elec.cold = false) ∧
    (((staged0 3).link 0).enable = true ∧ ({ staged0 3 with jobs := world.jobs } : State).job 0 = world.job 0 ∧ (world.job 0).used = true ∧ (world.job 0).panels.getLsbD 0 = true) ∧ (staged0 4).stage = 4 := by
  decide +kernel

theorem witness_StartUp_timeout :
    ((staged0 4).stage ≠ 5 ∧ (staged0 4).pwr.mstate = 0 ∧ (staged0 4).mbx.recovery = false ∧ (staged0 4).mbx.fault = false ∧ (staged0 4).elec.pwrReq = false ∧ (staged0 4).wdg.episodes = []) ∧
    ({ staged0 4 with wdg := { episodes := [ep 4 0] } } : State).wdg.episodes = [ep 4 0] := by decide +kernel

/-- An image of 4,096 bytes, 0xFF but for MAGIC, FORMAT, SIZE and DIGEST; BOOT_KEY_HASH in OTP is the hash of its key. -/
def imageFields : List (Nat × Byte) := [(0, 0x4F), (1, 0x56), (2, 0x4E), (3, 0x44), (4, 1), (5, 0), (12, 0), (13, 0x10), (14, 0), (15, 0)]
def imageWith (d : List Byte) : List (Nat × Byte) := imageFields ++ d.zipIdx.map fun x => (16 + x.2, x.1)
def keyed (v : List Byte) : State := { world with sec := { otp := [(12, some (.written v true))] } }

theorem keyed_now (v : List Byte) : (keyed v).otpNow 0x03 = v := rfl

theorem hash_length (s : Sm3) : ([s.a, s.b, s.c, s.d, s.e, s.f, s.g, s.h].flatMap fun x => beBytes 4 x.toNat).length = 32 := rfl

theorem get_append {d : Byte} {p q : List (Nat × Byte)} {i : Nat} (h : ∀ e ∈ q, e.1 ≠ i) : Sparse.get d (p ++ q) i = Sparse.get d p i := by
  induction p with
  | nil =>
    induction q with
    | nil => rfl
    | cons e r ih =>
      simp only [List.nil_append, Sparse.get] at ih ⊢
      rw [if_neg fun x => h e (by simp) x.symm, ih fun x hx => h x (by simp [hx])]
  | cons e r ih => simp only [List.cons_append, Sparse.get, ih]

theorem get_digest {d : List Byte} {n j : Nat} (h : j < d.length) : Sparse.get 0xFF ((d.zipIdx n).map fun x => (16 + x.2, x.1)) (16 + (n + j)) = d[j] := by
  induction d generalizing n j with
  | nil => simp at h
  | cons a r ih =>
    cases j with
    | zero => simp [List.zipIdx_cons, Sparse.get]
    | succ j =>
      simp only [List.zipIdx_cons, List.map_cons, Sparse.get, List.getElem_cons_succ]
      rw [if_neg (by omega), show 16 + (n + (j + 1)) = 16 + (n + 1 + j) by omega]
      exact ih (by simpa using h)

theorem digest_keys {d : List Byte} (hd : d.length = 32) : ∀ e ∈ d.zipIdx.map (fun x => (16 + x.2, x.1)), 16 ≤ e.1 ∧ e.1 < 48 := by
  intro e he
  obtain ⟨x, hx, rfl⟩ := List.mem_map.mp he
  have := List.snd_lt_of_mem_zipIdx hx
  exact ⟨by simp, by simp only; omega⟩

/-- Bytes outside DIGEST are those of the fields. -/
theorem image_outside {d : List Byte} (hd : d.length = 32) (size o n : Nat) (h : o + n ≤ 16 ∨ 48 ≤ o) :
    slice (imageBytes (imageWith d) size) o n = slice (imageBytes imageFields size) o n := by
  apply List.ext_getElem
  · simp only [slice, imageBytes, List.length_take, List.length_drop, List.length_map]
  · intro i h1 h2
    have hi : i < n := by simp only [slice, List.length_take] at h1; omega
    simp only [slice, imageBytes, List.getElem_take, List.getElem_drop, List.getElem_map, List.getElem_range]
    exact get_append fun e he => by have := digest_keys hd e he; omega

theorem image_digest {d : List Byte} (hd : d.length = 32) : slice (imageBytes (imageWith d) 128) 16 32 = d := by
  apply List.ext_getElem
  · rw [slice, imageBytes, List.length_take, List.length_drop, List.length_map, List.length_range, hd]
    omega
  · intro i h1 h2
    simp only [slice, imageBytes, List.getElem_take, List.getElem_drop, List.getElem_map, List.getElem_range]
    have ha : ∀ (p : List (Nat × Byte)), (∀ e ∈ p, e.1 ≠ 16 + i) → ∀ q, Sparse.get (0xFF : Byte) (p ++ q) (16 + i) = Sparse.get 0xFF q (16 + i) := by
      intro p hp q
      induction p with
      | nil => rfl
      | cons e r ih =>
        simp only [List.cons_append, Sparse.get]
        rw [if_neg fun x => hp e (by simp) x.symm, ih fun x hx => hp x (by simp [hx])]
    have hf : ∀ e ∈ imageFields, e.1 ≠ 16 + i := fun e he => by
      have : decide (e.1 < 16) = true := List.all_eq_true.mp (show imageFields.all (fun e => decide (e.1 < 16)) = true by decide) e he
      have := of_decide_eq_true this
      omega
    rw [imageWith, ha _ hf]
    have := get_digest (n := 0) h2
    rwa [Nat.zero_add] at this

set_option maxRecDepth 20000 in
/-- The image passes every check but its signature, which verifies or not (a free value). -/
theorem witness_image (v : List Byte) (hv : v = sm3 (List.replicate 64 0xFF)) (d : List Byte) (hd : d = sm3 (List.replicate 3904 0xFF))
    (h : Config.sm2Verify v ((imageBytes (imageWith d) 4096).take 4032) ((imageBytes (imageWith d) 4096).drop 4032) = true) :
    (keyed v).imageCheck (imageWith d) = 0 := by
  have hl : d.length = 32 := by rw [hd]; exact hash_length _
  have e (o n : Nat) (x : o + n ≤ 16 ∨ 48 ≤ o) := image_outside hl 128 o n x
  have h1 : fld (imageBytes (imageWith d) 128) 0 4 = 0x444E564F := by show unle (slice _ 0 4) = _; rw [e 0 4 (by omega)]; decide +kernel
  have h2 : fld (imageBytes (imageWith d) 128) 4 2 = 1 := by show unle (slice _ 4 2) = _; rw [e 4 2 (by omega)]; decide +kernel
  have h3 : fld (imageBytes (imageWith d) 128) 12 4 = 4096 := by show unle (slice _ 12 4) = _; rw [e 12 4 (by omega)]; decide +kernel
  have h4 : slice (imageBytes (imageWith d) 128) 48 64 = List.replicate 64 0xFF := by rw [e 48 64 (by omega)]; decide +kernel
  have h5 : slice (imageBytes (imageWith d) 4096) 128 3904 = List.replicate 3904 0xFF := by
    apply List.ext_getElem
    · rw [slice, imageBytes, List.length_take, List.length_drop, List.length_map, List.length_range, List.length_replicate]
      omega
    · intro i a b
      rw [List.getElem_replicate]
      simp only [slice, imageBytes, List.getElem_take, List.getElem_drop, List.getElem_map, List.getElem_range]
      rw [imageWith, get_append fun e he => by have := digest_keys hl e he; omega]
      have hz : ∀ m : List (Nat × Byte), (∀ e ∈ m, e.1 ≠ 128 + i) → Sparse.get (0xFF : Byte) m (128 + i) = 0xFF := fun m hm => by
        have := get_append (d := 0xFF) (p := []) hm
        simpa [Sparse.get] using this
      exact hz _ fun e he => by
        have : decide (e.1 < 16) = true := List.all_eq_true.mp (show imageFields.all (fun e => decide (e.1 < 16)) = true by decide) e he
        have := of_decide_eq_true this
        omega
  have hk : sm3 (slice (imageBytes (imageWith d) 128) 48 64) = (keyed v).otpNow 0x03 := by rw [h4, keyed_now, hv]
  have hg : sm3 (slice (imageBytes (imageWith d) 4096) 128 (4096 - 192)) = slice (imageBytes (imageWith d) 128) 16 32 := by
    rw [image_digest hl, show (4096 : Nat) - 192 = 3904 from rfl, h5, hd]
  have hs : (!Config.sm2Verify ((keyed v).otpNow 0x03) ((imageBytes (imageWith d) 4096).take (4096 - 64)) ((imageBytes (imageWith d) 4096).drop (4096 - 64))) = false := by
    rw [keyed_now]; simpa using h
  unfold State.imageCheck
  simp only [h1, h2, h3, hk, hg, hs, show fwSizeOk 4096 = true by decide, ne_eq, not_true_eq_false, if_false, Bool.not_true, Bool.false_eq_true]

/-- A complete update that fails its check; FW_UPDATE_BEGIN at both ends of its range, with free and taken granules; DATA at the end of the image. -/
theorem witness_Firmware :
    (world.sec.hold = false ∧ world.mbx.recovery = false ∧ ({ world with jobs := [] } : State).partitionExists = false ∧ fwSizeOk 4096 = true ∧ fwSizeOk (48 * 2 ^ 20) = true ∧
     fwSizeOk 4095 = false ∧ world.mbx.fwGranules = [] ∧ world.dp.mem.regionOf 9 = 0 ∧ world.dp.mem.regionOf 1 ≠ 0) ∧
    (0 < 32 ∧ fld (cmdOf 0x93 (le 4 4064 ++ le 4 32 ++ List.replicate 32 1)).req.payload 0 4 + 32 ≤ ({ world with mbx := { fwSize := some 4096 } } : State).mbx.fwSize.getD 0 ∧
     (cmdOf 0x93 (le 4 4064 ++ le 4 32 ++ List.replicate 32 1)).req.payload.length = 8 + 32) ∧
    (({ world with mbx := { fwSize := some 0 } } : State).mbx.fwSize = some ({ world with mbx := { fwSize := some 0 } } : State).mbx.staged.length ∧ world.imageCheck [] ≠ 0) := by decide +kernel

def posted1 (st : SlotState) (code : BitVec 16) : State :=
  { world with mbx := { owner := some .A, a := { up := true, slots := [(7, { st, req := { opcode := code, revision := 1 } })] } } }

theorem witness_Slots :
    ((world.slot .A 0).st = .free ∧ ((posted1 .posted 2).slot .A 7).st ≠ .free) ∧
    ((posted1 .posted 2).pwr.mstate.toNat ≤ 1 ∧ (posted1 .posted 2).nextSlot = some (.A, 7) ∧ (posted1 .posted 2).cmdCheck .A 7 ((posted1 .posted 2).slot .A 7).req = .ok) ∧
    ((posted1 .done 2).slot .A 7).st = .done := by decide +kernel

/-- A take of port B's host that waits while port A's owner is asked. -/
def take8 : Cmd := { seq := 8, port := .B, slot := 1, req := { opcode := 3 }, waiting := true }
def asking (c : Cmd) : State :=
  { world with mbx := { owner := some .A, a := { up := true, slots := [(0, { st := .accepted, seq := 9 })] }, b := { up := true, slots := [(1, { st := .accepted, seq := 8 })] }, take := some 8
                        cmds := [take8, c] } }
def takeB : Cmd := { cmdOf 3 [] with port := .B }

theorem witness_Ownership :
    ((boxed world (cmdOf 1 [])).isOwner .A = true ∧ ready (boxed world takeB) takeB = true ∧ (boxed world takeB).isOwner .B = false ∧ (boxed world takeB).mbx.owner = some .A ∧ Port.A ≠ takeB.port ∧
     (boxed world takeB).mbx.lapsed = false) ∧
    (ready (asking (cmdOf 4 [0])) (cmdOf 4 [0]) = true ∧ ready (asking (cmdOf 4 [1])) (cmdOf 4 [1]) = true ∧ (asking (cmdOf 4 [0])).takeCmd = some take8 ∧ take8.live = true ∧ take8.seq ≠ (cmdOf 4 [0]).seq ∧
     (take8.port, take8.slot) ≠ ((cmdOf 4 [0]).port, (cmdOf 4 [0]).slot)) ∧
    ({ boxed world takeB with mbx := { (boxed world takeB).mbx with lapsed := true } } : State).mbx.lapsed = true := by decide +kernel

/-- Job 1's number as a payload; a sample read of 32 bytes at the start and at the end of the area. -/
def job1 : List Byte := le 2 1 ++ le 2 0
def withArea : State := { world with dp := { world.dp with mem := { world.dp.mem with region := Sparse.set 0 world.dp.mem.region (0xFFDC00000 / 2 ^ 21) 6 } } }
def sampled (off n : Nat) : Bool :=
  match (withArea.runOp {} (readAt (withArea.ctx {} .ovind) (withArea.sampleAddr 0 + BitVec.ofNat 64 off) n)).2 with
  | .ok l => l.length == n
  | .error _ => false

theorem witness_StatusCommands :
    world.cmdPart (cmdOf 0x14 job1) = some 0 ∧ (sampled 0 32 = true ∧ sampled 65504 32 = true) := by decide +kernel

/-- A role map of one hedge: module 0 its manager, module 7 a spare. -/
def mapBytes : List Byte := le 4 2 ++ le 4 0 ++ le 4 1 ++ le 4 7 ++ le 4 4

theorem witness_ModuleCommands :
    (mapEntries mapBytes ≠ [] ∧ roleMapBad (mapEntries mapBytes) = false ∧ world.roles.waiting = false ∧ ((mapEntries mapBytes).map (·.1)).Nodup) ∧
    (bitsOf (2 ^ 17 * 95) 23 17 < 96 ∧ ¬ bitsOf (2 ^ 17 * 96) 23 17 < 96) ∧
    (world.pwr.trans = none ∧ ({ world with jobs := [] } : State).partitionExists = false) ∧ (limitsOk 2800 2800 = true ∧ limitsOk 3500 1200 = true ∧ limitsOk 3501 1200 = false) ∧
    ((world.job 0).used = true ∧ 15 < 16 ∧ 15 < (powered { cap := 15 }).pwr.cap.toNat + 1 ∧ (world.job 0).panels.getLsbD 0 = true ∧ (world.job 0).panels.getLsbD 1 = false) ∧
    hostDomain .A = 930 ∧ ((linked 0 { st := .active }).link 0).st.up = true := by decide +kernel
/-! ### Jobs, data, security -/

/-- JOB_CREATE of job 2 with panel 1 and two workers; one granule. -/
def createBytes : List Byte := blob 32 [(0, 2, 2), (2, 1, 1), (8, 8, 5), (16, 8, 2)]
def jobIn2 : JobIn := { members := [0, 1], granules := [(5, 1)] }
def stoppedJob : State := { world with jobs := [(0, { used := true, id := 1, panels := 1 })] }
def image1 : GraphImage := { imageId := 7, major := 1, durables := [ga 0] }
/-- An image that holds the guarded node's output descriptors, with formats as Table 3.11 widens E4M3. -/
def guarded1 : GraphImage := { image1 with tds := (widening 1).map fun t => (da t, blob 128 [(1, 1, t)]) }
def widened1 : GraphNode := { (default : GraphNode) with guarded := true, formats := (widening 1).map fun t => (BitVec.ofNat 8 t, da t) }

theorem witness_Jobs :
    (world.mbx.fwSize = none ∧ world.mbx.programming = false ∧ ((List.range 4).find? fun k => !(world.job k).used) = some 1 ∧ world.jobPart (BitVec.ofNat 16 (fld createBytes 0 2)) = none ∧
     (∀ m : Part, (world.job m).used = true → (world.job m).panels.toNat &&& fld createBytes 16 8 = 0) ∧ (if fld createBytes 2 1 = 2 then 4 else 2) ≤ (world.hedgeWorkers jobIn2.members).length ∧
     fld createBytes 16 8 < 2 ^ 48 ∧ jobIn2.granules.all (fun e => !world.retireMarked.dp.mem.cannotAssign e) = true ∧ (jobIn2.granules.map (·.1)).Nodup ∧ jobIn2.conflict = false) ∧
    (stoppedJob.cmdPart (cmdOf 0x11 job1) = some 0 ∧ (stoppedJob.job 0).running = false ∧ Sparse.wf 0 stoppedJob.dp.mem.bytes = true ∧ Sparse.wf 0 stoppedJob.dp.mem.errs = true ∧ Sparse.wf false stoppedJob.dp.mem.unread = true ∧ stoppedJob.dp.mem.regionDue = [] ∧
     Sparse.wf 0 stoppedJob.dp.mem.region = true ∧ Sparse.wf false stoppedJob.dp.mem.zeroed = true ∧ Sparse.wf 0 stoppedJob.dp.mem.jobs = true) ∧
    (0 < fld (le 2 1 ++ le 2 0 ++ le 4 0xFFFFFFFE) 4 4 ∧ fld (le 2 1 ++ le 2 0 ++ le 4 0xFFFFFFFE) 4 4 ≠ 0xFFFFFFFF ∧ ({ image1 with major := 1, durables := [] } : GraphImage).major = stoppedJob.fw.major ∧
     guardBad guarded1 widened1 = false ∧ guardBad image1 widened1 = true ∧ stoppedJob.durableBad 0 (ga 0) = true ∧
     good ((writeAt (stoppedJob.ctx {} .ovind) (da 0x100) (List.replicate 32 1)).exec stoppedJob.dp) (fun _ _ => true) = true) := by decide +kernel

theorem witness_Partitions :
    (stoppedJob.cmdPart (cmdOf 0x12 job1) = some 0 ∧ ({ stoppedJob with jobs := [(0, { stoppedJob.job 0 with graph := some image1 })] } : State).job 0 = { stoppedJob.job 0 with graph := some image1 } ∧
     ({ stoppedJob.job 0 with graph := some image1 } : Job).graph.isSome = true) ∧
    (world.cmdPart (cmdOf 0x13 job1) = some 0 ∧ (world.job 0).running = true ∧ (world.wet 0).wetCount = 0 ∧ (boxed world (cmdOf 0x13 job1)).mbx.cmds = [cmdOf 0x13 job1] ∧ (cmdOf 0x13 job1).waiting = false) ∧
    ((wetAt { wetCount := 1 }).wet 0).wetCount ≠ 0 ∧ (jobWith { lastCommit := 0 }).commitOf ((jobWith { lastCommit := 0 }).job 0).id ≠ 0xFFFFFFFF ∧
    (fld [4] 0 1 = 4 ∧ fld [5] 0 1 = 5 ∧ world.wdg.episodes = [] ∧ worker3.isMachine = false) := by decide +kernel

/-- An FP32 tensor of 32 zeros in glaze, of step 0 (its CRC was worked out apart), in a stopped partition, in a running one. -/
def hostData (s : State) : State :=
  State.with s [(glaze + 0x10200, sideOf 2936906159), (descs + 0x280, blob 128 [(0, 1, 1), (1, 1, 0x11), (2, 1, 1), (8, 8, (ga 0).toNat), (16, 4, 32), (72, 4, 0x3F800000), (96, 8, (ga 0x10200).toNat)])]
def fetched (s : State) : Option (Option Nat) :=
  match (s.runOp {} (dataFetch (s.ctx {} .ovind) (da 0x280) 0 32)).2 with
  | .ok (some l) => some (some l.length)
  | .ok none => some none
  | .error _ => none
/-- The write of a whole tile by port A's host. -/
def hostWrites (s : State) (n len : Nat) : Bool :=
  match (s.runOp {} (do
      let d ← dataRange (s.ctx {} (.host .A (s.job (s.tdPartOf (da 0x280) {})).id) (some (s.wet (s.tdPartOf (da 0x280) {})).dryTag.1) (s.wet (s.tdPartOf (da 0x280) {})).dryTag.2) true (da 0x280) 0 n
      hostTiles (s.ctx {} (.host .A (s.job (s.tdPartOf (da 0x280) {})).id) (some (s.wet (s.tdPartOf (da 0x280) {})).dryTag.1) (s.wet (s.tdPartOf (da 0x280) {})).dryTag.2) d 0 n
        (hostBlocks d (List.replicate len 1) n) (dataTiles 0 n)
      pure d)).2 with
  | .ok d => hostBytes d n == len
  | .error _ => false

set_option maxRecDepth 200000 in
theorem witness_Data :
    fetched (hostData stoppedJob) = some (some 128) ∧ fetched (hostData world) = some none ∧ hostWrites (hostData stoppedJob) 32 128 = true := by decide +kernel

theorem witness_Data_registers :
    (resolve world.dp.coord (ownAddr default 1 0xA00000) = some (.here 1 0xA00000) ∧ 0xA00000 % 8 = 0 ∧ (world.regSlot 0xA00000).isSome = true) ∧
    (resolve world.dp.coord (ownAddr default 1 0) = some (.here 1 0) ∧ world.ownerGrant .A 0 = none) ∧ (1 ≤ 1 ∧ 1000 ≤ 1000) := by decide +kernel

/-- A token of a purpose for a target over a hash (R494), with the serial number and nonce of `world`. -/
def token (purpose target : Nat) (hash : List Byte) : List Byte := le 2 1 ++ le 1 purpose ++ le 1 0 ++ le 4 target ++ le 16 0 ++ le 8 0 ++ hash ++ List.replicate 64 0

/-- Whether the signature verifies is a free value; everything else of the token holds. -/
theorem witness_Token_clear (h : Config.sm2Verify (world.otpNow 0x05) ((token 1 0 zeroHash).take 64) (slice (token 1 0 zeroHash) 64 64) = true) :
    world.tokenOk (token 1 0 zeroHash) 1 0 zeroHash = true := by
  simp only [State.tokenOk, h, Bool.and_true]
  decide +kernel

theorem witness_Token_alarm (h : Config.sm2Verify (world.otpNow 0x05) ((token 2 0 zeroHash).take 64) (slice (token 2 0 zeroHash) 64 64) = true) :
    world.tokenOk (token 2 0 zeroHash) 2 0 zeroHash = true := by
  simp only [State.tokenOk, h, Bool.and_true]
  decide +kernel

/-- A value of POLICY, and the token of its write. -/
def policy1 : List Byte := le 8 1
set_option maxRecDepth 200000 in
theorem witness_Token_otp (h : Config.sm2Verify (world.otpNow 0x05) ((token 3 6 (sm3 policy1)).take 64) (slice (token 3 6 (sm3 policy1)) 64 64) = true) :
    world.tokenOk (token 3 6 (sm3 policy1)) 3 6 (sm3 policy1) = true := by
  simp only [State.tokenOk, h, Bool.and_true]
  decide +kernel

/-- A package of 256 bytes with one item, its digest worked out apart; one of another major version fails otherwise. -/
def package1 (major : Nat) : List Byte :=
  blob 256 [(0, 2, 1), (2, 2, major), (4, 4, 7), (8, 4, 1), (12, 4, 256), (16, 2, 1), (18, 2, 2), (32, 32, 1448986385888043335806477197924076908002478933225104212099604918599563561752), (128, 1, 0x41), (129, 1, 1)]

set_option maxRecDepth 200000 in
theorem package_parts : sm3 (slice (package1 1) 128 (fld (package1 1) 12 4 - 192)) = slice (package1 1) 32 32 ∧ (package1 1).length = 256 := by decide +kernel

set_option maxRecDepth 200000 in
theorem witness_Package (h : Config.sm2Verify (world.otpValue 0x04) ((package1 1).take (fld (package1 1) 12 4 - 64)) ((package1 1).drop (fld (package1 1) 12 4 - 64)) = true) :
    world.tpkCheck (package1 1) = .ok := by
  simp only [State.tpkCheck, h, package_parts.1]
  decide +kernel

theorem witness_Package_bad : world.tpkCheck (package1 2) = .imageMajor ∧ (package1 2).length = 256 ∧ package1 2 ≠ [] := by decide +kernel

def result1 : ItemResult := { (default : ItemResult) with item := 0, phys := 816 }
/-- An item that passes where it gives no bytes: EXPECT is SM3 of none. -/
def tpkNone : Tpk := { tpk1 with bytes := List.replicate 160 0 ++ sm3 [] }
theorem witness_Package_run :
    (({ world with integ := { tpks := [{ tpk1 with id := 7 }] } } : State).integ.tpks.find? fun t => t.id.toNat == fld (le 4 7) 0 4) = some { tpk1 with id := 7 } ∧
    ([result1].all fun r => tpkNone.passes r && decide (r.item.toNat < tpkNone.items)) = true ∧ tpkNone.passes { result1 with out := [1] } = false ∧ tpkNone.scope 0 ≠ 1 ∧ world.testedBusy [result1] = false ∧ world.testedBusy [{ result1 with phys := 0 }] = true := by decide +kernel

/-- POLICY that erases on source 0. -/
def erasing (x : Sec) : State := { world with sec := { x with otp := [(24, some (.written policy1 true))] } }

theorem witness_Alarms :
    (world.policyErases 0 = false ∧ (erasing {}).policyErases 0 = true ∧ (erasing {}).sec.erased = false ∧ (erasing { revoke := 3 }).sec.revoke < 4 ∧ 4 ≤ (erasing { revoke := 4 }).sec.revoke ∧
     (erasing {}).sec.revoked = false) ∧
    (({ world with sec := { active := 1 } } : State).sec.active ≠ 0 ∧ world.sec.active = 0 ∧ ({ world with sec := { hold := true } } : State).sec.hold = true) ∧
    world.tokenOk [] 2 0 zeroHash = false := by
  refine ⟨by decide +kernel, by decide +kernel, ?_⟩
  have : (fld ([] : List Byte) 0 2 == 1) = false := by decide
  simp only [State.tokenOk, this, Bool.false_and]

theorem witness_Otp :
    (world.sec.hold = false ∧ ownerField 6 = true ∧ world.otpFree 6 = some 1 ∧ otpBroken 6 policy1 = false ∧ otpSize 6 = policy1.length) ∧
    (ownerField 0x40 = true ∧ otpLate 0x40 = true ∧ world.otpFree 0x40 = some 1 ∧ otpBroken 0x40 (le 16 0 ++ le 2 922 ++ le 6 0) = false ∧ otpBroken 0x40 (le 16 0 ++ le 2 921 ++ le 6 0) = true) ∧
    (otpField 0x6F = true ∧ otpField 1 = true ∧ otpField 2 = true ∧ otpField 0x70 = false) := by decide +kernel

/-- A module whose chain is installed and whose port A has negotiated. -/
def attested : State :=
  { world with sec := { attKey := true }, flash := { chain := some ([1, 2, 3], 0) }, mbx := { owner := some .A, a := { up := true, spdm := 3 } } }

theorem witness_Attests :
    (attested.stage = 5 ∧ attested.mbx.recovery = false ∧ attested.sec.disabled = false ∧ 3 ≤ (attested.port .A).spdm) ∧
    (attested.certSlot 0 = some [1, 2, 3] ∧ (3 : BitVec 16).toNat ≤ [1, 2, 3].length ∧ attested.canSign 0 = true ∧ attested.canSign 1 = true) ∧
    (1 ≤ (4 : BitVec 8).toNat ∧ (4 : BitVec 8).toNat ≤ 4 ∧ attested.isOwner .A = true) := by decide +kernel

/-! ### Counters, records, supplies -/

theorem pct_sums : ({ cycle := 1, retired := 60, front := 3, pend := [(0, 1)] } : Pct).Sums := ⟨by decide, by decide⟩

def counted (x : BitVec 48) : State := { world with pcts := [(3, { cnt := [(0, x)] })] }
theorem witness_Counters :
    ((counted 0).pct 3).enable = true ∧ 2 ^ 48 ≤ (((counted 0xFFFFFFFFFF01).pct 3).counter 0).toNat + (0xFF : BitVec 8).toNat ∧
    (((counted 0xFFFFFFFFFF00).pct 3).counter 0).toNat + (0xFF : BitVec 8).toNat < 2 ^ 48 ∧ (1 ≤ (1000000 : BitVec 20).toNat ∧ (1000000 : BitVec 20).toNat ≤ 1000000 ∧ 1000000 < (1000001 : BitVec 20).toNat) := by
  decide +kernel

def recordOf (n : BitVec 48) : Record := { seq := n, type := 1, source := 0, status := 0, payload := [] }
def recording (e : Evr) : Dp := { world.dp with evr := e }
def worn (n : Nat) (l : List (Nat × Int)) : State := { world with wear := { world.wear with mons := [(n, { samples := l })] } }

theorem witness_Records :
    ((recording { buffer := List.replicate 511 (recordOf 0) }).evr.full = false ∧ (recording { buffer := List.replicate 511 (recordOf 0) }).evr.buffer.length < 512) ∧
    (recording { full := true }).evr.full = true ∧ 512 ≤ (recording { buffer := List.replicate 512 (recordOf 0) }).evr.buffer.length ∧
    ((worn 3 [(0, 5)]).wearMon 3).samples.getLast? = some (0, 5) ∧ (worn 3 [(0, 5)]).wear.day = 0 ∧ ((worn 3 []).wearMon 3).samples.getLast? = none := by decide +kernel

def supply (e : Elec) : State := { world with elec := e }
theorem witness_Supplies :
    (world.converting = true ∧ (supply { convOff := true }).converting = false ∧ world.elec.stby = true ∧ (supply { stby := false }).elec.stby = false) ∧
    ((supply { startDue := true }).elec.startDue = true ∧ (supply { startDue := true }).elec.tripped = false ∧ (supply { startDue := true }).elec.pwrReq = false ∧ (supply { tripped := true }).elec.tripped = true ∧
     (supply { pwrReq := true }).elec.pwrReq = true) := by decide +kernel

theorem witness_Temperatures :
    200 ≤ (200 : BitVec 16).toInt ∧ (199 : BitVec 16).toInt < 200 ∧ 140 ≤ (140 : BitVec 16).toInt ∧ (139 : BitVec 16).toInt < 140 ∧ (190 : BitVec 16).toInt ≤ 190 ∧ 190 < (191 : BitVec 16).toInt ∧
    (130 : BitVec 16).toInt ≤ 130 ∧ 130 < (131 : BitVec 16).toInt ∧ (0xFFFF : BitVec 16).toInt < 0 ∧ world.elec.stby = true := by decide +kernel

/-! ### Worked examples of the spec: the expected values are the spec's own -/

/-- 02 Table 2.4: one E4M3 block. -/
theorem test_example_e4m3_block :
    mxBlock 1 ((([.fin 470 0, .fin 300 0, .fin (-11) (-10), .fin 0 0, .fin 1 (-10)] : List Machine.Num) ++ List.replicate 27 (Num.fin 1 0)).map fun x => (x, Rnd.rne)) =
      { scale := 0x7F, codes := [0x7E, 0x79, 0x86, 0, 0] ++ List.replicate 27 0x38, zeros := 2, sats := 1, nonfin := 0, clampLo := false, clampHi := false, contrib := some 0x7F } ∧
    gOutlet 0x3F000000 0x40400000 0x3FC00000 = fp32 one32 := by decide +kernel

/-- 02, after R68: stochastic rounding of 300 under two words; the element's index. -/
theorem test_example_stochastic :
    mxCode 1 0x7F (.sr 0x3A1C0F44) (.fin 300 0) = (0x7A, false) ∧ mxCode 1 0x7F (.sr 0x90000000) (.fin 300 0) = (0x79, false) ∧
    ravel [8192, 4096] [5000, 1234] = 0x13884D2 := by decide +kernel

/-- 02, after R74: the two pieces of a BF16 element and the three of an FP32 element. -/
theorem test_example_split :
    splitPieces 2 0x10 0x80 [0x3F4E] = [[.fin 0x19 (-5)], [.fin 0x60 (-12)]] ∧
    splitPieces 3 0x11 0x7D [0x3EAAAAAB] = [[.fin 0x55 (-8)], [.fin 0x2A (-15)], [.fin 0x55 (-22)]] := by decide +kernel

/-- 02, after R82: two local records of a distributed tensor combined. -/
theorem test_example_census :
    Census.combine { elements := 1048576, zeros := 30, sats := 1, maxS := 0x7F, minS := 0x74, flags := 0, step := 512 }
      { elements := 1048576, zeros := 12, maxS := 0x7D, minS := 0x71, flags := 0, step := 512 } =
    { elements := 2097152, zeros := 42, sats := 1, maxS := 0x7F, minS := 0x71, flags := 0, step := 512 } := by decide +kernel

/-- 03, after R97, R103, R111: E_top of two nodes, L of the reducible one, the size of a table, the floored terms and their sum. -/
theorem test_example_anchor :
    modeEtop 0 1 1 (censusM { (default : NodeOperand) with type := 1 } { maxS := 0x84, flags := 0 }) (censusM { (default : NodeOperand) with type := 1 } { maxS := 0x79, flags := 0 }) = 17 ∧
    modeEtop 0 1 1 (censusM { (default : NodeOperand) with type := 1 } { maxS := 0x7A, flags := 0 }) (censusM { (default : NodeOperand) with type := 1 } { maxS := 0x78, flags := 0 }) = 6 ∧
    anchorL 6 128 0 1 = -41 ∧ tableSize 128 = 288 ∧
    ([(2469, -13), (-3, -16), (12345, -43), (-12345, -43)].map fun x => termOf (-41) 19 (.fin x.1 x.2)) =
      [(.fin 662767140864, false), (.fin (-100663296), false), (.fin 3086, false), (.fin (-3087), false)] ∧
    (662767140864 - 100663296 + 3086 - 3087 : Int) = 0x9A49FFFFFF := by decide +kernel

/-- 07, after R247: a tensor in glaze of module 2.5.17.9 by its address and by the self alias. -/
theorem test_example_address :
    ownAddr { site := 2, pod := 5, hedge := 17, slot := 9 } 0 0x20B81234560 = 0x4A8C820B81234560 ∧
    resolve { site := 2, pod := 5, hedge := 17, slot := 9 } 0x4A8C820B81234560 = some (.here 0 (0x20000000000 + 23 * 0x80000000 + 0x1234560)) ∧
    resolve { site := 2, pod := 5, hedge := 17, slot := 9 } 0x00007A0B81234560 = some (.here 0 0x20B81234560) ∧
    resolve default 0x4A8C820B81234560 = some (.far { site := 2, pod := 5, hedge := 17, slot := 9 } 0 0x20B81234560) := by decide +kernel

/-- 08, after R265: links between slots 9 and 3. -/
theorem test_example_links :
    (let at_ (n : BitVec 4) : State := { world with dp := { world.dp with coord := { world.dp.coord with slot := n } } }
     ([3, 27, 51, 75].map fun n => defaultPeerSlot n 9) = [3, 3, 3, 3] ∧ ([8, 32, 56, 80].map fun n => defaultPeerSlot n 3) = [9, 9, 9, 9] ∧
     ([(3, 8), (27, 32), (51, 56), (75, 80)].all fun x => (at_ 9).defaultOk x.1 { world.dp.coord with slot := 3 } x.2 && (at_ 3).defaultOk x.2 { world.dp.coord with slot := 9 } x.1) = true ∧
     (at_ 9).defaultOk 3 { world.dp.coord with slot := 3 } 9 = false) := by decide +kernel

/-- 08, after R283: the grant of a DATA VC that holds 2,600 flits and drained 150 flits per us, at a round trip of 400 us. -/
theorem test_example_grant : grantArg 2 2600 1200 6250 = 2385 := by decide +kernel

/-- 09, after R311: a member's rank, a hedge that holds no member, and the size of the group. -/
theorem test_example_rank :
    (let g : Group := { (default : Group) with axes := [some (0, 15, 1), some (32, 8, 2), none, none], own := { site := 2, pod := 5, hedge := 32, slot := 4 } }
     g.rankOf { site := 2, pod := 5, hedge := 38, slot := 7 } = some 52 ∧ g.rankOf { site := 2, pod := 5, hedge := 33, slot := 7 } = none ∧ g.size = 120 ∧
     g.coord 52 = { site := 2, pod := 5, hedge := 38, slot := 7 }) := by decide +kernel

/-- 01, after R28: panel 23's registers under the identity map, after the retirement of easel 7, and once the OTP is written. -/
theorem test_example_easel_map :
    (let kept : PanelMap := { phys := ((List.range 16).map (BitVec.ofNat 5)).set 7 16, spare := 0x1F, otpPending := true, retired := 0x80 }
     let s (m : PanelMap) : State := { world with emap := [(23, m)] }
     (s {}).readEmap 0x2E0 = some 0x398A418820 ∧ (s {}).readEmap 0x2F0 = some 0x80000000 ∧
     (s kept).readEmap 0x2E0 = some 0x818A418820 ∧ (s kept).readEmap 0x2F0 = some 0xFC000080 ∧
     (s { kept with otpPending := false }).readEmap 0x2F0 = some 0xF8000080 ∧ (s kept).physOf 375 = 407) := by decide +kernel

/-- 16, after R521: ageing of a panel, eye height of link 27, errors of package LP10. -/
theorem test_example_wear :
    ({ samples := (List.range 90).map fun i => (i, 2044 + 4 * (i : Int)) } : WearMon).days 23 = 900 ∧
    ({ samples := (List.range 45).map fun i => (2 * i, 224 - (i : Int)) } : WearMon).days (48 + 27) = 120 ∧
    ({ samples := (List.range 90).map fun i => (i, 40) } : WearMon).days (144 + 10) = 0xFFFF := by decide +kernel

/-- 04, after R157: the statistics of a row of two columns. -/
theorem test_example_row_statistics :
    ((({} : RowStat).add 7 (-183) 17 (.fin (3 * 2 ^ 179))).add 7 (-183) 17 (.fin (-5 * 2 ^ 177))) =
      { max := some (.fin (3 * 2 ^ 179)), sum := .fin (7 * 2 ^ 177), sumsq := .fin (169 * 2 ^ 154), range := false } := by decide +kernel

/-- The masked row of the trellis chapter: EXP2 of -2.5 is 0x3E3504F3, within the bound of R168, and not two codes away. -/
theorem test_exp2_example :
    withinUlp 0x3E3504F3 (exactFunc 0x10 0xC0200000) = true ∧ withinUlp 0x3E3504F5 (exactFunc 0x10 0xC0200000) = false := by
  decide +kernel

end Sys2Proof.Tests
end

/-! SUPPORT. Flags, sums over sparse maps, counter blocks and port windows (00 R8; 16 R510 to R517). -/
namespace Sys2Proof.Machine

/-! ### Flags -/

@[simp] theorem Flag.write_hw (f : Flag) (w : Bool) : f.write w true = f.hwSet := rfl
@[simp] theorem Flag.write_clear (f : Flag) : f.write true false = { f with set := false } := rfl
@[simp] theorem Flag.write_zero (f : Flag) : f.write false false = f := rfl

/-- Settles O8: each case of a software write by its equation. -/
theorem softwareClearsAFlagHardwareSets : Obligations.SoftwareClearsAFlagHardwareSets := by
  intro f w
  rw [Flag.write_hw, Flag.write_hw, Flag.write_clear, Flag.write_zero]
  exact ⟨rfl, rfl, rfl, rfl⟩

/-! ### Sums over a sparse map -/

/-- A key below all keys of the map is not listed. -/
theorem Sparse.del_of_lt {α : Type} [DecidableEq α] {d : α} {k : Nat} : ∀ {lo : Nat} {m : List (Nat × α)},
    Sparse.wfFrom d lo m = true → k < lo → Sparse.del m k = m
  | _, [], _, _ => rfl
  | lo, (k', v) :: r, w, h => by
    obtain ⟨h1, -, h3⟩ := Sparse.wfFrom_tail w
    have ih : Sparse.del r k = r := Sparse.del_of_lt h3 (by omega)
    have hk : k' ≠ k := by omega
    unfold Sparse.del at ih ⊢
    rw [List.filter_cons_of_pos (p := fun e : Nat × α => e.1 != k) (bne_iff_ne.2 hk), ih]

/-- The values of a map together. -/
def Sparse.sum : List (Nat × BitVec 64) → BitVec 64
  | [] => 0
  | (_, v) :: r => v + Sparse.sum r

theorem Sparse.foldl_add_eq_sum (m : List (Nat × BitVec 64)) (a : BitVec 64) : m.foldl (fun a e => a + e.2) a = a + Sparse.sum m := by
  induction m generalizing a with
  | nil => exact (BitVec.add_zero a).symm
  | cons e r ih => rw [List.foldl_cons, ih, Sparse.sum, BitVec.add_assoc]

theorem Pct.pending_eq_sum (p : Pct) : p.pending = Sparse.sum p.pend :=
  (Sparse.foldl_add_eq_sum p.pend 0).trans (BitVec.zero_add _)

theorem Sparse.sum_del (k : Nat) : ∀ {lo : Nat} {m : List (Nat × BitVec 64)}, Sparse.wfFrom 0 lo m = true →
    Sparse.sum (Sparse.del m k) + Sparse.get 0 m k = Sparse.sum m
  | _, [], _ => rfl
  | lo, (k', v) :: r, w => by
    obtain ⟨-, -, h3⟩ := Sparse.wfFrom_tail w
    by_cases hk : k' = k
    · subst hk
      have hd : Sparse.del ((k', v) :: r) k' = Sparse.del r k' := List.filter_cons_of_neg (by simp only [bne_self_eq_false, Bool.false_eq_true, not_false_eq_true])
      rw [hd, Sparse.del_of_lt h3 (Nat.lt_succ_self k'), Sparse.get, if_pos rfl, Sparse.sum, BitVec.add_comm]
    · have hd : Sparse.del ((k', v) :: r) k = (k', v) :: Sparse.del r k := List.filter_cons_of_pos (bne_iff_ne.2 hk)
      rw [hd, Sparse.get, if_neg (Ne.symm hk), Sparse.sum, Sparse.sum, BitVec.add_assoc, Sparse.sum_del k h3]

theorem Sparse.sum_ins (k : Nat) (x : BitVec 64) : ∀ {lo : Nat} {m : List (Nat × BitVec 64)}, Sparse.wfFrom 0 lo m = true →
    Sparse.sum (Sparse.ins m k x) + Sparse.get 0 m k = Sparse.sum m + x
  | _, [], _ => by
    show x + 0 + 0 = 0 + x
    exact (BitVec.add_zero _).trans (BitVec.add_comm x 0)
  | lo, (k', v) :: r, w => by
    obtain ⟨-, -, h3⟩ := Sparse.wfFrom_tail w
    rcases Nat.lt_trichotomy k k' with hk | rfl | hk
    · have hg : Sparse.get 0 r k = 0 := by rw [← Sparse.del_of_lt h3 (Nat.lt_succ_of_lt hk), Sparse.get_del, if_pos rfl]
      rw [Sparse.ins, if_neg (Nat.ne_of_lt hk), if_pos hk, Sparse.get, if_neg (Nat.ne_of_lt hk), hg, Sparse.sum]
      exact (BitVec.add_zero _).trans (BitVec.add_comm x _)
    · rw [Sparse.ins, if_pos rfl, Sparse.get, if_pos rfl, Sparse.sum, Sparse.sum]
      ac_rfl
    · rw [Sparse.ins, if_neg (Nat.ne_of_gt hk), if_neg (Nat.lt_asymm hk), Sparse.get, if_neg (Nat.ne_of_gt hk), Sparse.sum, Sparse.sum,
        BitVec.add_assoc, Sparse.sum_ins k x h3, BitVec.add_assoc]

/-- Writing a key moves the sum by the difference of its values. -/
theorem Sparse.sum_set {m : List (Nat × BitVec 64)} (w : Sparse.wf 0 m = true) (k : Nat) (x : BitVec 64) :
    Sparse.sum (Sparse.set 0 m k x) + Sparse.get 0 m k = Sparse.sum m + x := by
  unfold Sparse.set
  split
  · next h =>
    rw [h, Sparse.sum_del k w]
    exact (BitVec.add_zero _).symm
  · exact Sparse.sum_ins k x w

/-- Adding to the value at a key adds to the sum. -/
theorem Sparse.sum_upd_add {m : List (Nat × BitVec 64)} (w : Sparse.wf 0 m = true) (k : Nat) (x : BitVec 64) :
    Sparse.sum (Sparse.upd 0 m k (· + x)) = Sparse.sum m + x := by
  have h : Sparse.sum (Sparse.upd 0 m k (· + x)) + Sparse.get 0 m k = Sparse.sum m + (Sparse.get 0 m k + x) := Sparse.sum_set w k _
  rw [BitVec.add_comm (Sparse.get 0 m k) x, ← BitVec.add_assoc] at h
  exact (BitVec.add_left_inj _).1 h

/-- Writing keys 0 to n - 1 in turn. -/
theorem Sparse.get_foldl_set {α : Type} [DecidableEq α] {d : α} (f : Nat → α) (n j : Nat) (m : List (Nat × α)) :
    Sparse.get d ((List.range n).foldl (fun m k => Sparse.set d m k (f k)) m) j = if j < n then f j else Sparse.get d m j := by
  induction n with
  | zero => rfl
  | succ n ih =>
    rw [List.range_succ, List.foldl_append, List.foldl_cons, List.foldl_nil, Sparse.get_set, ih]
    by_cases hj : j = n
    · rw [if_pos hj, if_pos (by omega), hj]
    · rw [if_neg hj]
      have hlt : j < n + 1 ↔ j < n := by omega
      simp only [hlt]

/-! ### Counter blocks -/

@[simp] theorem State.updPct_pct (s : State) (i : Nat) (f : Pct → Pct) : (s.updPct i f).pct i = f (s.pct i) := Sparse.get_upd_self ..
theorem State.updPct_pct_ne (s : State) {i j : Nat} (f : Pct → Pct) (h : j ≠ i) : (s.updPct i f).pct j = s.pct j := Sparse.get_upd_ne _ _ h

/-- A counter takes an addition modulo 2^48. -/
theorem Pct.add_counter (p : Pct) (k n : Nat) : (p.add k n).counter k = BitVec.ofNat 48 ((p.counter k).toNat + n) := by
  unfold Pct.add
  dsimp only
  split <;> exact Sparse.get_set_self ..
theorem Pct.add_counter_ne (p : Pct) {k j : Nat} (n : Nat) (h : j ≠ k) : (p.add k n).counter j = p.counter j := by
  unfold Pct.add Pct.counter
  dsimp only
  split <;> exact Sparse.get_set_ne (d := 0) _ _ h
theorem Pct.add_flag_wrap {p : Pct} {k n : Nat} (h : 2 ^ 48 ≤ (p.counter k).toNat + n) : (p.add k n).flag k = (p.flag k).hwSet := by
  unfold Pct.add
  dsimp only
  rw [if_pos h]
  exact Sparse.get_upd_self (d := ({} : Flag)) p.ovf k Flag.hwSet
theorem Pct.add_flag_fits {p : Pct} {k n : Nat} (h : (p.counter k).toNat + n < 2 ^ 48) (j : Nat) : (p.add k n).flag j = p.flag j := by
  unfold Pct.add
  dsimp only
  rw [if_neg (by omega)]
  rfl
theorem Pct.add_flag_ne (p : Pct) {k j : Nat} (n : Nat) (h : j ≠ k) : (p.add k n).flag j = p.flag j := by
  unfold Pct.add Pct.flag
  dsimp only
  split
  · rw [Sparse.get_upd_ne _ _ h]
  · rfl

/-- Counting changes counters and their flags alone. -/
theorem Pct.add_rest (p : Pct) (k n : Nat) : p.add k n = { p with cnt := (p.add k n).cnt, ovf := (p.add k n).ovf } := by
  unfold Pct.add
  dsimp only
  split <;> rfl
theorem Pct.foldl_add_rest (f : Pct → Nat → Nat) (l : List Nat) (p : Pct) :
    ∃ c o, l.foldl (fun p k => p.add k (f p k)) p = { p with cnt := c, ovf := o } := by
  induction l generalizing p with
  | nil => exact ⟨_, _, rfl⟩
  | cons k l ih =>
    obtain ⟨c, o, h⟩ := ih (p.add k (f p k))
    exact ⟨c, o, by rw [List.foldl_cons, h, Pct.add_rest p k]⟩

/-- The term slots, the back-starved and the front-starved slots of an activity. -/
def activitySlots (a : Activity) : Nat × Nat × Nat :=
  let terms := min a.terms (64 * a.cycles)
  let back := min a.back (64 * a.cycles - terms)
  (terms, back, 64 * a.cycles - terms - back)

/-- Every slot of the cycles is one of the three. -/
theorem activitySlots_sum (a : Activity) : (activitySlots a).1 + (activitySlots a).2.1 + (activitySlots a).2.2 = 64 * a.cycles := by
  simp only [activitySlots]
  omega

/-- What accounting an activity leaves beside counters and their flags. -/
theorem Pct.account_rest (p : Pct) (e : Option Nat) (a : Activity) : ∃ c o, p.account e a = { p with
    cnt := c, ovf := o, cycle := p.cycle + BitVec.ofNat 64 a.cycles, back := p.back + BitVec.ofNat 64 (activitySlots a).2.1
    front := p.front + BitVec.ofNat 64 (activitySlots a).2.2
    pend := (match e with | some e => Sparse.upd 0 p.pend e (· + BitVec.ofNat 64 (activitySlots a).1) | none => p.pend)
    wasted := (match e with | some _ => p.wasted | none => p.wasted + BitVec.ofNat 64 (activitySlots a).1) } := by
  unfold Pct.account
  dsimp only
  cases e with
  | none =>
    dsimp only
    split
    · exact Pct.foldl_add_rest _ _ _
    · exact ⟨_, _, rfl⟩
  | some e =>
    dsimp only
    split
    · exact Pct.foldl_add_rest _ _ _
    · exact ⟨_, _, rfl⟩

theorem Pct.sums_iff (p : Pct) :
    p.Sums ↔ Sparse.wf 0 p.pend = true ∧ p.retired + p.wasted + p.front + p.back + Sparse.sum p.pend = 64 * p.cycle :=
  ⟨fun h => ⟨h.form, p.pending_eq_sum ▸ h.sum⟩, fun ⟨h, k⟩ => ⟨h, p.pending_eq_sum.symm ▸ k⟩⟩

theorem Pct.account_sums {p : Pct} (h : p.Sums) (e : Option Nat) (a : Activity) : (p.account e a).Sums := by
  obtain ⟨c, o, hp⟩ := p.account_rest e a
  obtain ⟨hw, hs⟩ := p.sums_iff.1 h
  have key : BitVec.ofNat 64 (activitySlots a).1 + BitVec.ofNat 64 (activitySlots a).2.1 + BitVec.ofNat 64 (activitySlots a).2.2 =
      64 * BitVec.ofNat 64 a.cycles := by
    rw [← BitVec.ofNat_add, ← BitVec.ofNat_add, activitySlots_sum a, BitVec.ofNat_mul]
    rfl
  rw [hp, Pct.sums_iff]
  cases e with
  | none =>
    refine ⟨hw, ?_⟩
    dsimp only
    rw [BitVec.mul_add, ← hs, ← key]
    ac_rfl
  | some e =>
    dsimp only
    refine ⟨Sparse.wf_upd hw, ?_⟩
    rw [Sparse.sum_upd_add hw, BitVec.mul_add, ← hs, ← key]
    ac_rfl

/-- A DRY epoch's accumulator becomes RETIRED, a discarded one's WASTED. -/
theorem Pct.settle_dry (p : Pct) (n : Nat) : p.settle n true =
    { p with pend := Sparse.set 0 p.pend n 0, retired := p.retired + Sparse.get 0 p.pend n } := rfl
theorem Pct.settle_discarded (p : Pct) (n : Nat) : p.settle n false =
    { p with pend := Sparse.set 0 p.pend n 0, wasted := p.wasted + Sparse.get 0 p.pend n } := rfl

theorem Pct.settle_sums {p : Pct} (h : p.Sums) (n : Nat) (dry : Bool) : (p.settle n dry).Sums := by
  obtain ⟨hw, hs⟩ := p.sums_iff.1 h
  have hu : Sparse.sum p.pend = Sparse.sum (Sparse.set 0 p.pend n 0) + Sparse.get 0 p.pend n :=
    ((Sparse.sum_set hw n 0).trans (BitVec.add_zero _)).symm
  rw [Pct.sums_iff]
  cases dry with
  | true =>
    rw [Pct.settle_dry]
    dsimp only
    refine ⟨Sparse.wf_set hw, ?_⟩
    rw [← hs, hu]
    ac_rfl
  | false =>
    rw [Pct.settle_discarded]
    dsimp only
    refine ⟨Sparse.wf_set hw, ?_⟩
    rw [← hs, hu]
    ac_rfl

theorem Pct.clear_sums (p : Pct) (l : List (BitVec 8)) : (p.clear l).Sums := ⟨rfl, rfl⟩

theorem Pct.clear_counter (p : Pct) (l : List (BitVec 8)) (k : Fin 8) :
    (p.clear l).counter k = if p.enable then (l.getD k 0).setWidth 48 else 0 := by
  unfold Pct.counter Pct.clear
  dsimp only
  split
  · rw [Sparse.get_foldl_set (fun k => (l.getD k 0).setWidth 48), if_pos k.isLt]
  · rfl

/-- FREEZE stands in slot 2 alone. -/
theorem Pct.image_frozen (p : Pct) (f : Option (List (BitVec 64))) :
    ({ p with frozen := f } : Pct).image = p.image.set 2 (BitVec.ofNat 64 (boolN p.enable + 4 * boolN f.isSome)) := rfl

/-- While FREEZE is 1 a slot other than PCT_CTRL reads as it stood, whatever is counted. -/
theorem Pct.frozen_account_read (p : Pct) (e : Option Nat) (a : Activity) {n : Nat} (hn : n ≠ 2) :
    ((p.setFreeze true).account e a).read n = p.image.getD n 0 := by
  obtain ⟨c, o, hp⟩ := (p.setFreeze true).account_rest e a
  rw [hp]
  show (Pct.image { p with frozen := some [] }).getD n 0 = _
  rw [Pct.image_frozen, List.getD_eq_getElem?_getD, List.getElem?_set_ne hn.symm, List.getD_eq_getElem?_getD]

/-! ### Port windows -/

theorem State.portCount_new (s : State) (w : PctWin) (j : Nat) :
    ({ s with win := w, portRun := [], dp := { s.dp with mem := { s.dp.mem with chan := [] } } } : State).portCount j = 0 := by
  unfold State.portCount
  split <;> rfl

theorem State.windowWrite_inRange {s : State} {us : BitVec 20} (h1 : 1 ≤ us.toNat) (h2 : us.toNat ≤ 1000000) : s.windowWrite us =
    { s with win := { s.win with us := us, start := s.clk.count }, portRun := [], dp := { s.dp with mem := { s.dp.mem with chan := [] } } } := by
  have h0 : us ≠ 0 := by
    rintro rfl
    exact absurd h1 (by decide)
  rw [State.windowWrite, if_neg fun h => h.elim h0 (Nat.not_lt.2 h2)]

theorem State.windowEnd_latched (s : State) {j : Nat} (hj : j < 324) :
    Sparse.get 0 s.windowEnd.win.latched j = BitVec.ofNat 48 (s.portCount j) := by
  unfold State.windowEnd
  dsimp only
  rw [Sparse.get_foldl_set fun j => BitVec.ofNat 48 (s.portCount j), if_pos hj]

/-- Settles O57: the identity by `Pct.account_sums`, `Pct.settle_sums` and `Pct.clear_sums`; each command by what it does to the
counter block of its easel or to the window. -/
theorem countersSumFreezeAndClear : Obligations.CountersSumFreezeAndClear := by
  refine ⟨fun p e a n dry l h => ⟨p.account_sums h e a, p.settle_sums h n dry, p.clear_sums l⟩, fun s i l v k x us => ?_⟩
  refine ⟨⟨_, rfl, ?clear⟩, ⟨_, rfl, ?freeze⟩, ⟨_, rfl, ?thaw⟩, ⟨_, rfl, ?enable⟩, ⟨_, rfl, ?count⟩, ⟨_, rfl, ?windowEnd⟩,
    fun h1 h2 => ⟨_, rfl, ?restart⟩, fun h => ⟨_, rfl, ?logged⟩⟩
  case clear =>
    rw [State.updPct_pct]
    exact ⟨rfl, rfl, rfl, rfl, rfl, rfl, rfl, Pct.clear_counter _ l, fun m hm => s.updPct_pct_ne _ hm, rfl⟩
  case freeze =>
    rw [State.updPct_pct]
    exact ⟨fun n e a hn => Pct.frozen_account_read _ e a hn, rfl, fun m hm => s.updPct_pct_ne _ hm, rfl⟩
  case thaw =>
    rw [State.updPct_pct]
    exact ⟨fun _ => rfl, rfl, fun m hm => s.updPct_pct_ne _ hm, rfl⟩
  case enable => exact ⟨State.updPct_pct .., fun m hm => s.updPct_pct_ne _ hm, rfl⟩
  case count =>
    rw [State.updPct_pct]
    refine ⟨fun m hm => s.updPct_pct_ne _ hm, rfl, fun h => by rw [h]; rfl, fun h => ?_⟩
    rw [h, if_pos rfl]
    refine ⟨?_, Pct.add_flag_wrap, fun hf => Pct.add_flag_fits hf _, fun j hj => ?_⟩
    · rw [Pct.add_counter, BitVec.ofNat_add, BitVec.ofNat_toNat, BitVec.setWidth_eq, BitVec.ofNat_toNat]
    · have hj : j.val ≠ k.val := Fin.val_ne_of_ne hj
      exact ⟨Pct.add_counter_ne _ _ hj, Pct.add_flag_ne _ _ hj⟩
  case windowEnd => exact ⟨rfl, rfl, rfl, fun j hj => ⟨s.windowEnd_latched hj, s.portCount_new _ j⟩, rfl⟩
  case restart =>
    rw [State.windowWrite_inRange h1 h2]
    exact ⟨rfl, s.portCount_new _, rfl⟩
  case logged =>
    rw [State.windowWrite, if_pos h]
    exact ⟨rfl, s.dp.quiet_record ..⟩

end Sys2Proof.Machine

/-! SUPPORT. The register space: what each agent's write and each read does (00 R7 to R11; 01 R38; 07 R247, R248; 14 R477). -/
namespace Sys2Proof.Machine

/-! ### Writes by agent -/

section
variable (s : State) (off : Nat) (wide : Bool) (w : RegW)

/-- Outside the maps every write but a host's through BAR0 fails. -/
theorem State.regWrite_noSlot {who : RegAgent} (h : s.regSlot (off / 8 * 8) = none) (hw : ∀ p, who ≠ .bar0 p) :
    s.regWrite who off wide w = (s, .bounds) := by
  cases who with
  | ovind => simp only [State.regWrite, h, if_true]
  | owner p => simp only [State.regWrite, State.ownerWrite, h, or_true, if_true]
  | bar0 p => exact absurd rfl (hw p)
  | engine => simp only [State.regWrite, h, if_true]
  | remote => rfl

theorem State.regWrite_remote : s.regWrite .remote off wide w = (s, .bounds) := rfl
theorem State.regWrite_bar0 (p : Port) : s.regWrite (.bar0 p) off wide w = (s.writeBar0 p (off / 8 * 8) (slotWrite off wide w), .ok) := rfl

section
variable (h : s.regSlot (off / 8 * 8) ≠ none)
include h

theorem State.regWrite_engine : s.regWrite .engine off wide w = (s, .ok) := by
  simp only [State.regWrite, h, if_false]

/-- Ovind's write of a slot that is none of the region table reaches its block. -/
theorem State.regWrite_block (hb : off / 8 * 8 / 2 ^ 20 ≠ 3 ∨ regionSlot (off / 8 * 8 % 2 ^ 20) = none) :
    s.regWrite .ovind off wide w = (s.writeBlock (off / 8 * 8) (slotWrite off wide w), .ok) := by
  simp only [State.regWrite, h, if_false]
  rcases hb with hb | hb
  · rw [if_neg hb]
  · rw [hb]
    exact ite_self _

theorem State.regWrite_region {g : Nat} (hb : off / 8 * 8 / 2 ^ 20 = 3) (hg : regionSlot (off / 8 * 8 % 2 ^ 20) = some g) :
    s.regWrite .ovind off wide w = s.writeRegion g (slotWrite off wide w) := by
  simp only [State.regWrite, h, hb, hg, if_false, if_true]

/-! The owner host's masked write, by what is granted of the slot. -/

theorem State.regWrite_owner_none {p : Port} (hg : s.ownerGrant p (off / 8 * 8) = none) :
    s.regWrite (.owner p) off wide w = (s, .bounds) := by
  simp only [State.regWrite, State.ownerWrite, Nat.mul_mod_left, ne_eq, not_true_eq_false, false_or, h, if_false, hg]

variable {p : Port} {g other : BitVec 64} (hg : s.ownerGrant p (off / 8 * 8) = some (g, other))
include hg

theorem State.regWrite_owner_other (hm : (slotWrite off wide w).mask &&& other ≠ 0) :
    s.regWrite (.owner p) off wide w = (s, .bounds) := by
  simp only [State.regWrite, State.ownerWrite, Nat.mul_mod_left, ne_eq, not_true_eq_false, false_or, h, if_false, hg, hm, not_false_eq_true, if_true]

theorem State.regWrite_owner_block (hm : (slotWrite off wide w).mask &&& other = 0) (hb : off / 8 * 8 / 2 ^ 20 ≠ 4) :
    s.regWrite (.owner p) off wide w =
      (s.writeBlock (off / 8 * 8) { slotWrite off wide w with mask := (slotWrite off wide w).mask &&& g }, .ok) := by
  simp only [State.regWrite, State.ownerWrite, Nat.mul_mod_left, ne_eq, not_true_eq_false, false_or, h, if_false, hg, hm, hb]

theorem State.regWrite_owner_mbx (hm : (slotWrite off wide w).mask &&& other = 0) (hb : off / 8 * 8 / 2 ^ 20 = 4) :
    s.regWrite (.owner p) off wide w = (s.writeMbx p (off / 8 * 8 % 0x100) (slotWrite off wide w), .ok) := by
  simp only [State.regWrite, State.ownerWrite, Nat.mul_mod_left, ne_eq, not_true_eq_false, false_or, h, if_false, hg, hm, hb, if_true]
end

theorem State.writeRegion_allowed {g : Nat} (h : ∀ x ∈ s.regionWrites g w, s.regionRefused x.1 x.2 = false) :
    s.writeRegion g w = ((s.regionWrites g w).foldl (fun s x => s.changeRegion x.1 x.2) s, .ok) := by
  have hn : ¬ ((s.regionWrites g w).any fun x => s.regionRefused x.1 x.2) = true := by
    simpa only [List.any_eq_true, not_exists, not_and, Bool.not_eq_true] using h
  exact if_neg hn
theorem State.writeRegion_refused {g : Nat} (h : ∃ x ∈ s.regionWrites g w, s.regionRefused x.1 x.2 = true) :
    s.writeRegion g w = (s, .fieldReserved) := if_pos (List.any_eq_true.2 h)
end

/-- A REGISTER_WRITE answers its status on the state it leaves. -/
theorem exec_registerWrite {s t : State} {who : RegAgent} {o : BitVec 43} {wide : Bool} {v m hw : BitVec 64} {st : Status}
    (h : s.regWrite who o.toNat wide { v, mask := m, hw } = (t, st)) :
    exec (.registerWrite who o wide v m hw) s = .next (t.send (.answer st 0)) := by
  show Host.Outcome.next ((s.regWrite who o.toNat wide { v, mask := m, hw }).1.send
    (.answer (s.regWrite who o.toNat wide { v, mask := m, hw }).2 0)) = _
  rw [h]

/-! ### TICK_STATUS and WDG_CTRL -/

theorem regWrite_tickStatus (s : State) (w : RegW) : s.regWrite .ovind 8 true w =
    ({ s with clk := { s.clk with refLost := w.flag 0 s.clk.refLost, syncSeen := w.flag 1 s.clk.syncSeen } }, .ok) := rfl

/-- A write whose mask covers a field sets it to the value's bits. -/
theorem RegW.field_allOnes (v hw : BitVec 64) {n lo : Nat} (h : lo + n ≤ 64) (old : BitVec n) :
    ({ v, mask := BitVec.allOnes 64, hw } : RegW).field lo old = v.extractLsb' lo n := by
  have hm : (BitVec.allOnes 64).extractLsb' lo n = BitVec.allOnes n := by
    ext i hi
    simp only [BitVec.getElem_extractLsb', BitVec.getLsbD_allOnes, BitVec.getElem_allOnes, decide_eq_true_eq]
    omega
  simp only [RegW.field, hm, BitVec.not_allOnes, BitVec.and_zero, BitVec.zero_or, BitVec.and_allOnes]

/-- A whole write of WDG_CTRL is a write of its limit. -/
theorem regWrite_wdgCtrl (s : State) (v hw : BitVec 64) : s.regWrite .ovind 0xA00000 true { v, mask := BitVec.allOnes 64, hw } =
    (s.writeWdg 0 { v, mask := BitVec.allOnes 64, hw }, .ok) := rfl
/-- It takes 1 to 1,000 ms; another limit is logged and leaves it (12 R412). -/
theorem State.writeWdg_inRange (s : State) (v hw : BitVec 64) (h1 : 1 ≤ (v.extractLsb' 0 16).toNat) (h2 : (v.extractLsb' 0 16).toNat ≤ 1000) :
    s.writeWdg 0 { v, mask := BitVec.allOnes 64, hw } = { s with wdg := { s.wdg with limitMs := v.extractLsb' 0 16 } } := by
  unfold State.writeWdg
  dsimp only
  rw [if_pos rfl, RegW.field_allOnes v hw (by omega), if_pos ⟨h1, h2⟩]
theorem State.writeWdg_above (s : State) (v hw : BitVec 64) (h : 1000 < (v.extractLsb' 0 16).toNat) :
    s.writeWdg 0 { v, mask := BitVec.allOnes 64, hw } = s.configRecord 0xA00000 (v.extractLsb' 0 16).toNat := by
  unfold State.writeWdg
  dsimp only
  rw [if_pos rfl, RegW.field_allOnes v hw (by omega), if_neg fun k => Nat.not_lt.2 k.2 h]

/-! ### Register reads (00 R7; 01 R38) -/

section
variable (s : State) (o : BitVec 43) (wide : Bool)

/-- A read that is not aligned to its width fails, and so does one outside the maps. -/
theorem State.regRead_unaligned {off : Nat} (h : off % (if wide then 8 else 4) ≠ 0) : s.regRead off wide = (s, none) := if_pos h

/-- An aligned 64-bit read stands at its slot's own offset. -/
theorem State.regRead_wide {off : Nat} (h : off % 8 = 0) : s.regRead off true = s.regRead64 (off / 8 * 8) := by
  rw [Nat.div_mul_cancel (Nat.dvd_of_mod_eq_zero h)]
  exact if_neg (not_not_intro h)
theorem State.regRead_half {off : Nat} (h : off % 4 = 0) : s.regRead off false = s.regRead32 off := if_neg (not_not_intro h)

theorem State.regRead_noSlot {off : Nat} (h : s.regSlot (off / 8 * 8) = none) : s.regRead off wide = (s, none) := by
  by_cases ha : off % (if wide then 8 else 4) = 0
  · cases wide with
    | true => rw [s.regRead_wide ha, State.regRead64, h]
    | false => simp only [s.regRead_half ha, State.regRead32, h]
  · exact s.regRead_unaligned wide ha

section
variable {x : BitVec 64} (h : s.regSlot (o.toNat / 8 * 8) = some x)
include h

/-- A 64-bit read answers the slot and clears its RC fields. -/
theorem State.regRead64_slot : s.regRead64 (o.toNat / 8 * 8) = (s.clearRc (o.toNat / 8 * 8) true true, some x) := by
  rw [State.regRead64, h]

/-- A 32-bit read of any slot but the rack tick answers one half and clears the RC fields of that half. -/
theorem State.regRead32_slot (h8 : 8 ≤ o.toNat) : s.regRead32 o.toNat =
    (s.clearRc (o.toNat / 8 * 8) (decide (o.toNat % 8 < 4)) (decide (4 ≤ o.toNat % 8)),
      some (if 4 ≤ o.toNat % 8 then x >>> 32 else x &&& 0xFFFFFFFF)) := by
  have h0 : o.toNat / 8 ≠ 0 := by omega
  have hn : (!decide (4 ≤ o.toNat % 8)) = decide (o.toNat % 8 < 4) := by simp only [← decide_not, Nat.not_le]
  simp only [State.regRead32, h, if_neg h0, ge_iff_le, hn]

/-- Every aligned read but a 32-bit one of the rack tick. -/
theorem State.regRead_slot (ha : o.toNat % (if wide then 8 else 4) = 0) (hw : wide = true ∨ 8 ≤ o.toNat) : s.regRead o.toNat wide =
    (s.clearRc (o.toNat / 8 * 8) (wide || decide (o.toNat % 8 < 4)) (wide || decide (4 ≤ o.toNat % 8)),
      some (if wide then x else if 4 ≤ o.toNat % 8 then x >>> 32 else x &&& 0xFFFFFFFF)) := by
  cases wide with
  | true => exact (s.regRead_wide ha).trans (s.regRead64_slot o h)
  | false => exact (s.regRead_half ha).trans (s.regRead32_slot o h (hw.resolve_left Bool.false_ne_true))
end

/-- The low half of the rack tick latches the high half. -/
theorem State.regRead_tickLow : s.regRead 0 false =
    ({ s with clk := { s.clk with latch := some (s.clk.count.extractLsb' 32 32) } }, some (s.clk.count &&& 0xFFFFFFFF)) := rfl
/-- The high half of the rack tick is the latched one, where one is latched. -/
theorem State.regRead_tickHigh : s.regRead 4 false =
    ({ s with clk := { s.clk with latch := none } }, some ((s.clk.latch.getD (s.clk.count.extractLsb' 32 32)).setWidth 64)) := rfl

theorem exec_registerReadClear_answer {t : State} {x : BitVec 64} (h : s.regRead o.toNat wide = (t, some x)) :
    exec (.registerReadClear o wide) s = .next (t.send (.regValue x)) := by
  show Host.Outcome.next (s.readClear o.toNat wide) = _
  rw [State.readClear, h]
theorem exec_registerReadClear_fails (h : s.regRead o.toNat wide = (s, none)) :
    exec (.registerReadClear o wide) s = .next (s.send (.answer .bounds 0)) := by
  show Host.Outcome.next (s.readClear o.toNat wide) = _
  rw [State.readClear, h]
end

/-! ### The RC fields of the maps -/

section
variable (s : State) (lo hi : Bool)

/-- The error counters of a link. -/
theorem State.clearRc_linkErrors (n : Link) : s.clearRc (0x700028 + 0x40 * n.val) lo hi = s.updLink n fun l => { l with
    crcFail := if lo then 0 else l.crcFail, uncorrCw := if lo then 0 else l.uncorrCw, tagFail := if lo then 0 else l.tagFail
    corrSym := if hi then 0 else l.corrSym } := by
  have index : (0x700028 + 0x40 * n.val) % 2 ^ 20 / 0x40 = n.val := by omega
  unfold State.clearRc
  dsimp only
  rw [if_pos (by omega), index]

/-- The hold and resend counters of a link. -/
theorem State.clearRc_linkHolds (n : Link) : s.clearRc (0x700030 + 0x40 * n.val) lo hi =
    s.updLink n fun l => { l with holds := if lo then 0 else l.holds, resent := if hi then 0 else l.resent } := by
  have index : (0x700030 + 0x40 * n.val) % 2 ^ 20 / 0x40 = n.val := by omega
  unfold State.clearRc
  dsimp only
  rw [if_neg (by omega), if_pos (by omega), index]

/-- The stale counter of a communication queue. -/
theorem State.clearRc_queueStale (q : Fin 64) : s.clearRc (0xB00020 + 0x40 * q.val) lo hi =
    s.updCq q fun c => { c with stale := if hi then 0 else c.stale } := by
  have index : (0xB00020 + 0x40 * q.val) % 2 ^ 20 / 0x40 = q.val := by omega
  unfold State.clearRc
  dsimp only
  rw [if_neg (by omega), if_neg (by omega), if_pos (by omega), index]
end

/-- Settles O9: each clause by the equation of the write or the read it speaks of. -/
theorem registerAccessesReachTheirFields : Obligations.RegisterAccessesReachTheirFields := by
  intro s v m hw o wide p b w hb hw'
  subst hb hw'
  refine ⟨?noSlot, ?remote, ?bar0, ?slot, ?tickStatus, ?limit, ?logged, ?read, ?fails, ?rcFields⟩
  case noSlot => exact fun who h hn => exec_registerWrite (s.regWrite_noSlot _ wide _ h hn)
  case remote => exact exec_registerWrite (s.regWrite_remote ..)
  case bar0 => exact exec_registerWrite (s.regWrite_bar0 ..)
  case slot =>
    intro h
    refine ⟨exec_registerWrite (s.regWrite_engine _ wide _ h), fun hb => exec_registerWrite (s.regWrite_block _ wide _ h hb),
      fun g hb hg => ⟨fun ha => ?_, fun hr => ?_⟩, fun hg => exec_registerWrite (s.regWrite_owner_none _ wide _ h hg),
      fun g other hg => ⟨fun hm => ?_, fun hm hb => ?_, fun hm hb => ?_⟩⟩
    · exact exec_registerWrite ((s.regWrite_region _ wide _ h hb hg).trans (s.writeRegion_allowed _ ha))
    · exact exec_registerWrite ((s.regWrite_region _ wide _ h hb hg).trans (s.writeRegion_refused _ hr))
    · exact exec_registerWrite (s.regWrite_owner_other _ wide _ h hg hm)
    · exact exec_registerWrite (s.regWrite_owner_block _ wide _ h hg hm hb)
    · exact exec_registerWrite (s.regWrite_owner_mbx _ wide _ h hg hm hb)
  case tickStatus => exact ⟨_, exec_registerWrite (regWrite_tickStatus s _), rfl, rfl, rfl, rfl, s.dp.quiet_send _⟩
  case limit =>
    intro h1 h2
    refine ⟨_, exec_registerWrite (regWrite_wdgCtrl s v 0), ?_⟩
    rw [s.writeWdg_inRange v 0 h1 h2]
    exact ⟨rfl, rfl⟩
  case logged =>
    intro h
    refine ⟨_, exec_registerWrite (regWrite_wdgCtrl s v 0), ?_⟩
    rw [s.writeWdg_above v 0 h]
    exact ⟨rfl, rfl, (s.dp.quiet_record ..).trans (Dp.quiet_send ..)⟩
  case read =>
    intro x hx ha
    refine ⟨fun hw => exec_registerReadClear_answer s o wide (s.regRead_slot o wide hx ha hw), ?_, ?_⟩
    · rintro rfl rfl
      exact ⟨_, exec_registerReadClear_answer s 0 false s.regRead_tickLow, rfl, rfl, rfl⟩
    · rintro rfl rfl
      exact ⟨_, exec_registerReadClear_answer s 4 false s.regRead_tickHigh, rfl, rfl, rfl⟩
  case fails => exact fun h => exec_registerReadClear_fails s o wide (h.elim (s.regRead_noSlot wide) (s.regRead_unaligned wide))
  case rcFields =>
    intro n q t
    refine ⟨fun ht => ?_, fun ht => ?_, fun ht => ?_⟩
    · rw [ht, s.clearRc_linkErrors, State.updLink_link]
      exact ⟨rfl, rfl, rfl, rfl, onlyLink_upd _ s _⟩
    · rw [ht, s.clearRc_linkHolds, State.updLink_link]
      exact ⟨rfl, rfl, onlyLink_upd _ s _⟩
    · rw [ht, s.clearRc_queueStale]
      exact ⟨s.updCq_cq _ _, rfl, fun k hk => s.updCq_cq_ne _ hk⟩

end Sys2Proof.Machine

/-! SUPPORT. A job creation on a panel whose map holds a number that no easel of a panel has (01 R20; 13 R446, R447). -/
namespace Sys2Proof.Machine

/-- JOB_CREATE of job 1 on panel 0: MODE 0, INTERVAL 1, SEED 0, no buddy map. -/
def createCmd : Cmd :=
  { seq := 0, port := .A, slot := 0, since := 0
    req := { opcode := 0x10, payload := le 2 1 ++ le 1 0 ++ le 1 0 ++ le 4 1 ++ le 8 0 ++ le 8 1 ++ le 8 0 } }
/-- Two workers of hedge 0. -/
def createIn : JobIn := { members := [0, 1] }
/-- The map of panel 0 gives logical easel 0 the number 17, which is none of a panel's (01 R20: 0 to 16); in panel 1 the spare has taken the
place of physical easel 0, as R25 leaves it. The command waits to run. -/
def strayMap : State :=
  { stage := 5
    emap := [(0, { phys := 17 :: (List.range 15).map fun i => BitVec.ofNat 5 (i + 1) }),
             (1, { phys := 16 :: (List.range 15).map fun i => BitVec.ofNat 5 (i + 1), spare := 0x1F, retired := 1 })]
    mbx := { owner := some .A, a := { up := true, slots := [(0, { st := .accepted, req := createCmd.req })] }, cmds := [createCmd] } }

/-- Domain 17, physical easel 0 of panel 1, counts as one of the partition's. -/
theorem strayMap_domain : 17 ∈ strayMap.partDomains 1 := by decide +kernel

/-- The creation is one that the module grants. -/
theorem strayMap_grants : strayMap.Ready 0 0x10 createCmd ∧
    ¬ ((strayMap.jobPart 1).isSome = true ∨ (∃ x : Part, (strayMap.job x).used = true ∧ (strayMap.job x).panels.toNat &&& 1 ≠ 0) ∨
      (strayMap.hedgeWorkers createIn.members).length < 2 ∨
      (∃ x ∈ createIn.granules, strayMap.retireMarked.dp.mem.cannotAssign x = true) ∨ ¬ (createIn.granules.map (·.1)).Nodup) :=
  ⟨⟨by decide +kernel, by decide +kernel, by decide +kernel⟩, by decide +kernel⟩

/-- The vote for domain 17 is ignored, since no logical easel is mapped to it (13 R446, R447). -/
theorem strayMap_vote : ((strayMap.runCmd 0 0x10 fun c => strayMap.jobCreate c.req.payload createIn).domain 17).votes.getLsbD 0 = false := by
  decide +kernel

/-- Refutes O50: the statement takes every state, also one whose map of a panel holds a number above 16. JOB_CREATE votes for the domain of
that number, which belongs to the next panel; where that easel is retired the vote is ignored, so not every domain of the partition holds
the job's vote. -/
theorem not_jobCommandsMakeAndEndPartitions : ¬ Obligations.JobCommandsMakeAndEndPartitions := by
  intro h
  obtain ⟨hready, hgrant⟩ := strayMap_grants
  obtain ⟨-, hcreate, -⟩ := h strayMap strayMap 0 createCmd createIn default 0 1 1 0 False strayMap.retireMarked.dp.mem strayMap.dp default [] 0 0
  obtain ⟨-, hfree⟩ := hcreate hready (by decide +kernel) (by decide +kernel) (by decide +kernel) rfl ⟨False.elim, hgrant⟩
  obtain ⟨-, -, hmade⟩ := hfree rfl rfl (by decide +kernel)
  obtain ⟨t, ht, -, -, -, -, -, -, -, -, -, -, -, -, -, -, -, -, -, -, hvotes, -⟩ := hmade id rfl
  have ht : strayMap.runCmd 0 0x10 (fun c => strayMap.jobCreate c.req.payload createIn) = t := Host.Outcome.next.inj ht
  have hv := hvotes 17 strayMap_domain
  rw [← ht] at hv
  exact absurd (strayMap_vote.symm.trans hv) Bool.false_ne_true

end Sys2Proof.Machine

/-! SUPPORT. Stored bytes and words, and the rules of the operations on the data plane (07 R235 to R239, R249). -/
namespace Sys2Proof.Machine

/-! ### Bytes of memory -/

section
variable (m : Mem)

theorem Mem.setByte_byte (k a : Nat) (b : Byte) : (m.setByte k b).byte a = if a = k then b else m.byte a := Sparse.get_set ..

/-- Storing bytes changes the stored bytes alone. -/
theorem Mem.poke_rest (k : Nat) (l : List Byte) : m.poke k l = { m with bytes := (m.poke k l).bytes } := by
  induction l generalizing m k with
  | nil => rfl
  | cons b r ih => exact ih (m.setByte k b) (k + 1)

/-- A byte after a store: the stored one within its range, every other as before. -/
theorem Mem.poke_byte (k a : Nat) (l : List Byte) : (m.poke k l).byte a = if k ≤ a then l.getD (a - k) (m.byte a) else m.byte a := by
  induction l generalizing m k with
  | nil => exact (ite_self _).symm
  | cons b r ih =>
    rw [Mem.poke, ih, Mem.setByte_byte]
    rcases Nat.lt_trichotomy a k with h | rfl | h
    · rw [if_neg (by omega), if_neg (by omega), if_neg (by omega)]
    · rw [if_neg (by omega), if_pos rfl, if_pos (Nat.le_refl a), Nat.sub_self, List.getD_cons_zero]
    · rw [if_pos (Nat.succ_le_of_lt h), if_neg (by omega), if_pos (by omega), show a - k = a - (k + 1) + 1 by omega, List.getD_cons_succ]

theorem Mem.poke_byte_outside {k a : Nat} {l : List Byte} (h : a < k ∨ k + l.length ≤ a) : (m.poke k l).byte a = m.byte a := by
  rw [Mem.poke_byte]
  split
  · rw [List.getD_eq_getElem?_getD, List.getElem?_eq_none (by omega), Option.getD_none]
  · rfl

@[simp] theorem Mem.peek_length (k n : Nat) : (m.peek k n).length = n := by
  rw [Mem.peek, List.length_map, List.length_range]

theorem Mem.peek_getD {k n i : Nat} (h : i < n) (x : Byte) : (m.peek k n).getD i x = m.byte (k + i) := by
  simp only [Mem.peek, List.getD_eq_getElem?_getD, List.getElem?_map, List.getElem?_range h, Option.map_some, Option.getD_some]

/-- What was stored is read back. -/
theorem Mem.peek_poke (k : Nat) (l : List Byte) : (m.poke k l).peek k l.length = l := by
  refine List.ext_getElem (Mem.peek_length ..) fun i hi hl => ?_
  have read : ((m.poke k l).peek k l.length).getD i 0 = ((m.poke k l).peek k l.length)[i] := by
    rw [List.getD_eq_getElem?_getD, List.getElem?_eq_getElem hi, Option.getD_some]
  rw [← read, Mem.peek_getD _ hl, Mem.poke_byte, if_pos (Nat.le_add_right k i), Nat.add_sub_cancel_left, List.getD_eq_getElem?_getD,
    List.getElem?_eq_getElem hl, Option.getD_some]

/-! ### Whole words -/

theorem Mem.putWord_rest (w : Nat) (l : List Byte) : m.putWord w l = { m with
    bytes := (m.putWord w l).bytes, errs := Sparse.set 0 m.errs w 0, unread := Sparse.set false m.unread w false } := Mem.poke_rest ..

/-- A word written whole holds no error (07 R232, R235). -/
theorem Mem.putWord_err (w : Nat) (l : List Byte) : (m.putWord w l).err w = .none := by
  rw [Mem.err, Mem.dev, Mem.putWord_rest]
  simp only [Sparse.get_set_self, Bool.false_eq_true, if_false, rsDecode, if_true]

theorem Mem.putWord_byte (w a : Nat) (l : List Byte) :
    (m.putWord w l).byte a = if w * 32 ≤ a then l.getD (a - w * 32) (m.byte a) else m.byte a := Mem.poke_byte ..

/-- A word with its wrong byte flipped back: that byte of the data alone differs; an error in a check byte leaves the data. -/
theorem Mem.fix_peek_getD {w j : Nat} (hj : j < 32) (i : Nat) (f x : Byte) :
    ((WordErr.correctable i f).fix (m.peek (w * 32) 32)).getD j x =
      if j = i then m.byte (w * 32 + j) ^^^ f else m.byte (w * 32 + j) := by
  unfold WordErr.fix
  dsimp only
  split
  · next hi =>
    rw [Mem.peek_getD m hi, List.getD_eq_getElem?_getD, List.getElem?_set]
    by_cases h : j = i
    · subst h
      simp only [if_true, Mem.peek_length, hj, Option.getD_some]
    · rw [if_neg (Ne.symm h), if_neg h, ← List.getD_eq_getElem?_getD, Mem.peek_getD m hj]
  · rw [if_neg (by omega), Mem.peek_getD m hj]

theorem Mem.fix_peek_length (w i : Nat) (f : Byte) : ((WordErr.correctable i f).fix (m.peek (w * 32) 32)).length = 32 := by
  unfold WordErr.fix
  dsimp only
  split
  · rw [List.length_set, Mem.peek_length]
  · exact m.peek_length ..

/-- The write-back of a corrected word flips the wrong byte and leaves every other byte of memory. -/
theorem Mem.putWord_fix_byte (w i a : Nat) (f : Byte) :
    (m.putWord w ((WordErr.correctable i f).fix (m.peek (w * 32) 32))).byte a =
      if i < 32 ∧ a = w * 32 + i then m.byte a ^^^ f else m.byte a := by
  by_cases h : a < w * 32 ∨ w * 32 + 32 ≤ a
  · rw [if_neg (by omega)]
    exact Mem.poke_byte_outside _ ((m.fix_peek_length w i f).symm ▸ h)
  · have place : a = w * 32 + (a - w * 32) := by omega
    rw [Mem.putWord_byte, if_pos (by omega), m.fix_peek_getD (by omega), ← place]
    have wrong : a - w * 32 = i ↔ i < 32 ∧ a = w * 32 + i := by omega
    simp only [wrong]
end

end Sys2Proof.Machine

/-! SUPPORT. Error accounts, marked rows and the patrol scrub (07 R237, R238, R241 to R243). -/
namespace Sys2Proof.Machine

/-! ### Memory units -/

section
variable (d : Dp) (u : Nat) (f : MemUnit → MemUnit)

@[simp] theorem Dp.updUnit_unit : (d.updUnit u f).unit u = f (d.unit u) := Sparse.get_upd_self ..
theorem Dp.updUnit_unit_ne {v : Nat} (h : v ≠ u) : (d.updUnit u f).unit v = d.unit v := Sparse.get_upd_ne _ _ h
end

theorem Dp.Quiet.unit {d e : Dp} (h : d.Quiet e) (u : Nat) : e.unit u = d.unit u := by rw [Dp.unit, h.mem, Dp.unit]

theorem quiet_memRecord (d : Dp) (kind u : Nat) (a : Addr) (y : BitVec 32) (st : Status) : d.Quiet (memRecord d kind u a y st) :=
  d.quiet_record ..

/-! ### Counting an error -/

section
variable (d : Dp) (u w : Nat) (y : BitVec 32)

/-- A correctable error changes the unit's account alone, and counts there. -/
theorem countCe_account : ∃ x : MemUnit, (d.updUnit u fun _ => x).Quiet (countCe d u) ∧ x.ce = (d.unit u).ce.hwSet := by
  have reported (storm : Bool) (x : MemUnit) : (d.updUnit u fun _ => x).Quiet
      (if storm then memRecord (d.updUnit u fun _ => x) 2 u 0 0 .ok else d.updUnit u fun _ => x) := by
    cases storm with
    | true => exact quiet_memRecord ..
    | false => exact Dp.Quiet.refl _
  exact ⟨_, reported _ _, rfl⟩

theorem countCe_ce : ((countCe d u).unit u).ce = (d.unit u).ce.hwSet := by
  obtain ⟨x, hq, hx⟩ := countCe_account d u
  rw [Dp.Quiet.unit hq, Dp.updUnit_unit, hx]
theorem countCe_mem : (countCe d u).mem = { d.mem with units := (countCe d u).mem.units } := by
  obtain ⟨x, hq, -⟩ := countCe_account d u
  rw [Dp.Quiet.mem hq]
  rfl

/-- An uncorrectable error is reported with its address in the unit's registers. -/
theorem countUe_quiet (sp : Nat) : (d.updUnit (unitOf (w * 32)) fun m => { m with ue := m.ue.hwSet, ueAddr := ownAddr d.coord sp (w * 32) }).Quiet
    (countUe d sp w y) := quiet_memRecord ..
end

/-! ### Marking a row -/

/-- From `d` to `e` nothing of memory changed but marks for repair. -/
structure OnlyMarks (d e : Dp) : Prop where
  mem   : e.mem = { d.mem with repair := e.mem.repair, toRetire := e.mem.toRetire, units := e.mem.units }
  units : ∀ u, e.unit u = { d.unit u with repairPending := (e.unit u).repairPending }

theorem OnlyMarks.refl (d : Dp) : OnlyMarks d d := ⟨rfl, fun _ => rfl⟩

theorem markRow_onlyMarks (d : Dp) (w : Nat) : OnlyMarks d (markRow d w) := by
  unfold markRow
  split
  · exact OnlyMarks.refl d
  · refine ⟨?_, fun v => ?_⟩
    · rw [Dp.Quiet.mem (quiet_memRecord ..)]
      rfl
    · rw [Dp.Quiet.unit (quiet_memRecord ..)]
      by_cases h : v = unitOf (w * 32)
      · rw [h, Dp.updUnit_unit]
        rfl
      · rw [Dp.updUnit_unit_ne _ _ _ h]
        rfl

theorem onlyMarks_markRow_if (d : Dp) (w : Nat) (p : Prop) [Decidable p] : OnlyMarks d (if p then markRow d w else d) := by
  split
  · exact markRow_onlyMarks d w
  · exact OnlyMarks.refl d

/-- The row is marked for repair, now or before. -/
theorem markRow_repair (d : Dp) (w : Nat) : Sparse.get false (markRow d w).mem.repair w = true := by
  unfold markRow
  split
  · assumption
  · rw [Dp.Quiet.mem (quiet_memRecord ..)]
    exact Sparse.get_set_self d.mem.repair w true

/-! ### Scrubbing a word -/

/-- The data plane after the write-back of a correctable word, which a port's write meanwhile precludes. -/
def writtenBack (d : Dp) (meanwhile : List Nat) (w i : Nat) (f : Byte) : Dp :=
  if meanwhile.contains w then d
  else { d with mem := d.mem.putWord w ((WordErr.correctable i f).fix (d.mem.peek (w * 32) 32)) }

section
variable {d : Dp} {m : List Nat} {w i : Nat} {f : Byte}

theorem writtenBack_units (d : Dp) (m : List Nat) (w i : Nat) (f : Byte) : (writtenBack d m w i f).mem.units = d.mem.units := by
  unfold writtenBack
  split
  · rfl
  · rw [Mem.putWord_rest]

/-- Scrubbing a correctable word counts it, writes it back and moves its streak; the third pass in a row marks its row. -/
theorem scrubWord_correctable (h : d.mem.err w = .correctable i f) : ∃ e, OnlyMarks e (scrubWord d m w) ∧
    e.mem = { (writtenBack (countCe d (unitOf (w * 32))) m w i f).mem with streak := e.mem.streak } := by
  unfold scrubWord
  rw [h]
  dsimp only
  exact ⟨_, onlyMarks_markRow_if _ w _, rfl⟩

theorem scrubWord_correctable_ce (h : d.mem.err w = .correctable i f) :
    ((scrubWord d m w).unit (unitOf (w * 32))).ce = (d.unit (unitOf (w * 32))).ce.hwSet := by
  obtain ⟨e, marks, he⟩ := scrubWord_correctable (m := m) h
  have unit : e.unit (unitOf (w * 32)) = (countCe d (unitOf (w * 32))).unit (unitOf (w * 32)) := by
    rw [Dp.unit, he, writtenBack_units, Dp.unit]
  rw [marks.units, ← countCe_ce, ← unit]

/-- Where no port wrote meanwhile the word is written back corrected. -/
theorem scrubWord_corrects (h : d.mem.err w = .correctable i f) (hm : w ∉ m) : (scrubWord d m w).mem.err w = .none ∧
    ∀ a, (scrubWord d m w).mem.byte a = if i < 32 ∧ a = w * 32 + i then d.mem.byte a ^^^ f else d.mem.byte a := by
  obtain ⟨e, marks, he⟩ := scrubWord_correctable (m := m) h
  rw [writtenBack, if_neg (by simpa only [List.contains_iff_mem] using hm)] at he
  constructor
  · rw [marks.mem, ← Mem.putWord_err (countCe d (unitOf (w * 32))).mem w, he]
    rfl
  · intro a
    have counted : (countCe d (unitOf (w * 32))).mem.byte a = d.mem.byte a := by rw [countCe_mem]; rfl
    rw [← counted, ← Mem.putWord_fix_byte, marks.mem, he]
    rfl

/-- Where a port wrote meanwhile its bytes stand. -/
theorem scrubWord_meanwhile_bytes (h : d.mem.err w = .correctable i f) (hm : w ∈ m) : (scrubWord d m w).mem.bytes = d.mem.bytes := by
  obtain ⟨e, marks, he⟩ := scrubWord_correctable (m := m) h
  rw [writtenBack, if_pos (by simpa only [List.contains_iff_mem] using hm)] at he
  rw [marks.mem, he, countCe_mem]

section
variable {y : BitVec 32} (h : d.mem.err w = .uncorrectable y)
include h

theorem scrubWord_uncorrectable : scrubWord d m w = markRow (countUe d 0 w y) w := by
  rw [scrubWord, h]

/-- An uncorrectable word is reported and its row marked; it stands as it is. -/
theorem scrubWord_reports : ((scrubWord d m w).unit (unitOf (w * 32))).ue = (d.unit (unitOf (w * 32))).ue.hwSet ∧
    ((scrubWord d m w).unit (unitOf (w * 32))).ueAddr = ownAddr d.coord 0 (w * 32) := by
  rw [scrubWord_uncorrectable h, (markRow_onlyMarks ..).units, Dp.Quiet.unit (countUe_quiet ..), Dp.updUnit_unit]
  exact ⟨rfl, rfl⟩
theorem scrubWord_uncorrectable_repair : Sparse.get false (scrubWord d m w).mem.repair w = true := by
  rw [scrubWord_uncorrectable h]
  exact markRow_repair ..
theorem scrubWord_uncorrectable_keeps : (scrubWord d m w).mem.err w = d.mem.err w ∧ (scrubWord d m w).mem.bytes = d.mem.bytes := by
  rw [scrubWord_uncorrectable h, (markRow_onlyMarks ..).mem, Dp.Quiet.mem (countUe_quiet ..)]
  exact ⟨rfl, rfl⟩
end
end

end Sys2Proof.Machine

/-! SUPPORT. Operations on the data plane, the access of a whole word without errors, census updates and requests (02 R77, R78; 07 R249, R257 to R260). -/
namespace Sys2Proof.Machine

/-! ### Operations -/

section
variable {α β : Type} {d e : Dp}

theorem Op.exec_pure (a : α) (d : Dp) : (pure a : Op α).exec d = (d, .ok a) := rfl
theorem Op.exec_modify (f : Dp → Dp) (d : Dp) : (modify f : Op PUnit).exec d = (f d, .ok ⟨⟩) := rfl
theorem Op.exec_get_bind (k : Dp → Op β) (d : Dp) : ((get : Op Dp) >>= k).exec d = (k d).exec d := rfl

theorem Op.run_of_exec {m : Op α} {a : α} (h : m.exec d = (e, .ok a)) : m d = .ok a e := by
  unfold Op.exec at h
  cases hm : m d with
  | ok a' e' =>
    rw [hm] at h
    cases h
    rfl
  | error f e' =>
    rw [hm] at h
    cases h

/-- After an operation that has a result the next runs on it. -/
theorem Op.exec_bind {m : Op α} {a : α} (h : m.exec d = (e, .ok a)) (k : α → Op β) : (m >>= k).exec d = (k a).exec e := by
  unfold Op.exec
  simp only [bind, EStateM.bind, Op.run_of_exec h]

/-- An operation that has a result leaves its handler aside. -/
theorem Op.exec_tryCatch {m : Op α} {a : α} (h : m.exec d = (e, .ok a)) (k : Fail → Op α) : (tryCatch m k : Op α).exec d = (e, .ok a) := by
  unfold Op.exec
  simp only [tryCatch, tryCatchThe, MonadExceptOf.tryCatch, EStateM.tryCatch, Op.run_of_exec h]

theorem Op.exec_mapM_one {f : α → Op β} {x : α} {y : β} (h : (f x).exec d = (e, .ok y)) : ([x].mapM f).exec d = (e, .ok [y]) := by
  rw [List.mapM_cons, Op.exec_bind h, List.mapM_nil, Op.exec_bind (Op.exec_pure ..), Op.exec_pure]

theorem Op.exec_needOk {st : Status} (h : st = .ok) (a : Addr) (obj : Nat) (d : Dp) : (needOk st a obj).exec d = (d, .ok ()) := by
  rw [needOk, if_pos h, Op.exec_pure]
end

/-! ### Reading and writing a whole word -/

/-- A local offset is below the scratch keys (07 R244). -/
theorem resolve_here_lt {own : Coord} {a : Addr} {sp off : Nat} (h : resolve own a = some (.here sp off)) : off < scratchBase := by
  have bound : (a.extractLsb' 0 43).toNat < 2 ^ 43 := BitVec.isLt _
  unfold resolve at h
  dsimp only at h
  split at h
  · split at h
    · cases h; exact bound
    · cases h
  · split at h
    · split at h
      · cases h; exact bound
      · cases h
    · cases h

/-- Counting a word on its channel changes the channel counts alone. -/
theorem countChan_rest (d : Dp) (w : Nat) (wr : Bool) :
    countChan d w wr = { d with mem := { d.mem with chan := (countChan d w wr).mem.chan } } := by
  unfold countChan
  dsimp only
  split <;> rfl

theorem countChan_rangeStatus (d : Dp) (w : Nat) (b : Bool) (c : Ctx) (sp off len : Nat) (wr : Bool) :
    rangeStatus (countChan d w b) c sp off len wr = rangeStatus d c sp off len wr := by
  rw [countChan_rest]
  rfl

section
variable {d : Dp} {c : Ctx} {w sp off : Nat} {a : Addr} {v : List Byte}

/-- Nothing of the surroundings disturbs the path. -/
theorem pathOf_clean {env : Env} (h : env.path = []) (w : Nat) : pathOf env w = {} := by
  rw [pathOf, h]
  rfl

theorem Mem.receive_clean {m : Mem} (h : m.err w = .none) : m.receive w [] = (.none, m.peek (w * 32) 32) := by
  rw [Mem.receive, h]
  rfl

theorem readWord_clean (hw : w * 32 < scratchBase) (hp : c.env.path = []) (he : d.mem.err w = .none) :
    (readWord c sp w).exec d = (countChan d w false, .ok (d.mem.peek (w * 32) 32)) := by
  have counted : (countChan d w false).mem.receive w [] = (.none, d.mem.peek (w * 32) 32) := by
    rw [countChan_rest]
    exact Mem.receive_clean he
  rw [readWord, Op.exec_bind (Op.exec_modify ..), Op.exec_get_bind, if_neg (Nat.not_le.2 hw), pathOf_clean hp]
  dsimp only
  rw [counted]
  exact Op.exec_pure ..

theorem landWord_clean (hw : w * 32 < scratchBase) (hp : c.env.path = []) (hv : v.length = 32) :
    (landWord c sp w 0 v).exec d = (countChan d w true, .ok v) := by
  rw [landWord, Op.exec_bind (Op.exec_modify ..), Op.exec_get_bind, if_neg (Nat.not_le.2 hw), pathOf_clean hp]
  show (if v.length = 32 then pure v else _ : Op (List Byte)).exec _ = _
  rw [if_pos hv]
  exact Op.exec_pure ..

theorem wordCount_word (h : off % 32 = 0) : wordCount off 32 = 1 := by
  rw [wordCount, if_neg (by decide)]
  omega

/-- A whole word without an error is read as it stands. -/
theorem readAt_word (hr : resolve d.coord a = some (.here sp off)) (ha : off % 32 = 0) (hp : c.env.path = [])
    (hs : rangeStatus d c sp off 32 false = .ok) (he : d.mem.err (off / 32) = .none) :
    (readAt c a 32).exec d = (countChan d (off / 32) false, .ok (d.mem.peek off 32)) := by
  have key : off / 32 * 32 = off := Nat.div_mul_cancel (Nat.dvd_of_mod_eq_zero ha)
  have word := readWord_clean (sp := sp) (by rw [key]; exact resolve_here_lt hr) hp he
  rw [key] at word
  have words : (readWords c sp (off / 32) 1).exec d = (countChan d (off / 32) false, .ok (d.mem.peek off 32)) := by
    rw [readWords, Op.exec_bind word, readWords, Op.exec_bind (Op.exec_pure ..), Op.exec_pure, List.append_nil]
  rw [readAt, Op.exec_get_bind, hr]
  show (needOk (rangeStatus d c sp off 32 false) a >>= fun _ => readKey c sp off 32).exec d = _
  rw [Op.exec_bind (Op.exec_needOk hs ..), readKey, wordCount_word ha, Op.exec_bind words, Op.exec_pure, ha, slice, List.drop_zero,
    List.take_of_length_le (Nat.le_of_eq (Mem.peek_length ..))]

/-- The data plane after a write of a whole word. -/
def wordWritten (d : Dp) (w : Nat) (v : List Byte) : Dp :=
  { countChan d w true with mem := (countChan d w true).mem.putWord w v }

/-- The one piece of an aligned word. -/
theorem wordPieces_word (ha : off % 32 = 0) (hv : v.length = 32) : wordPieces (v.length + 1) off v = [(off, v)] := by
  have all : v.take (32 - off % 32) = v := List.take_of_length_le (by omega)
  have none_left : v.drop (32 - off % 32) = [] := List.drop_eq_nil_of_le (by omega)
  cases v with
  | nil => cases hv
  | cons b r =>
    rw [wordPieces, all, none_left, hv, wordPieces]
    exact List.cons_ne_nil b r

theorem writeAt_word (hr : resolve d.coord a = some (.here sp off)) (ha : off % 32 = 0) (hp : c.env.path = [])
    (hs : rangeStatus d c sp off 32 true = .ok) (hv : v.length = 32) :
    (writeAt c a v).exec d = (wordWritten d (off / 32) v, .ok ()) := by
  have key : off / 32 * 32 = off := Nat.div_mul_cancel (Nat.dvd_of_mod_eq_zero ha)
  have word := landWord_clean (sp := sp) (w := off / 32) (d := d) (by rw [key]; exact resolve_here_lt hr) hp hv
  have piece : (landWord c sp (off / 32) (off % 32) v >>= fun b => pure (off, b)).exec d = (countChan d (off / 32) true, .ok (off, v)) := by
    rw [ha, Op.exec_bind word, Op.exec_pure]
  rw [writeAt, Op.exec_get_bind, hr]
  show (needOk (rangeStatus d c sp off v.length true) a >>= fun _ => writeKey c sp off v).exec d = _
  rw [Op.exec_bind (Op.exec_needOk (hv.symm ▸ hs) ..), writeKey, wordPieces_word ha hv]
  refine (Op.exec_bind (Op.exec_mapM_one (x := (off, v)) piece) _).trans ?_
  rw [Op.exec_modify, Mem.store, List.foldl_cons, List.foldl_nil, if_pos hv]
  rfl
end

theorem wordWritten_rest (d : Dp) (w : Nat) (v : List Byte) : wordWritten d w v = { d with mem := (wordWritten d w v).mem } := by
  rw [wordWritten, countChan_rest]
theorem wordWritten_peek (d : Dp) (w : Nat) {v : List Byte} (hv : v.length = 32) : (wordWritten d w v).mem.peek (w * 32) 32 = v := by
  have back := Mem.peek_poke ({ (countChan d w true).mem with
    errs := Sparse.set 0 (countChan d w true).mem.errs w 0, unread := Sparse.set false (countChan d w true).mem.unread w false } : Mem) (w * 32) v
  rwa [hv] at back
theorem wordWritten_byte {d : Dp} {w a : Nat} {v : List Byte} (hv : v.length = 32) (h : a < w * 32 ∨ w * 32 + 32 ≤ a) :
    (wordWritten d w v).mem.byte a = d.mem.byte a := by
  rw [wordWritten, countChan_rest]
  exact Mem.poke_byte_outside _ (hv.symm ▸ h)

/-! ### Census records -/

@[simp] theorem le_length (n x : Nat) : (le n x).length = n := by
  induction n generalizing x with
  | zero => rfl
  | succ n ih => rw [le, List.length_cons, ih]

theorem Census.bytes_length (c : Census) : c.bytes.length = 32 := by
  simp only [Census.bytes, List.length_append, le_length]

/-- An update of another step combines with the reset record, one of the same step with the record as it stands (02 R78). -/
theorem Census.update_other {c u z : Census} (h : u.step ≠ c.step) (he : z.elements = 0) (hz : z.zeros = 0) (hs : z.sats = 0)
    (hn : z.nonfin = 0) (hx : z.maxS = 0) (hm : z.minS = 0xFE) (hf : z.flags = 0x20) : c.update u = z.combine u := by
  rw [Census.update, if_neg (Ne.symm h), Census.combine, Census.combine, he, hz, hs, hn, hx, hm, hf]
  rfl
theorem Census.update_same {c u : Census} (h : u.step = c.step) : c.update u = c.combine u := by
  rw [Census.update, if_pos h.symm]

theorem takeCensus_word {d : Dp} {c : Ctx} {sp off : Nat} {a : Addr} (hr : resolve d.coord a = some (.here sp off)) (ha : off % 32 = 0)
    (hp : c.env.path = []) (hs : rangeStatus d c sp off 32 false = .ok) (he : d.mem.err (off / 32) = .none)
    (hf : (Census.ofBytes (d.mem.peek off 32)).flags < 64) :
    (takeCensus c a).exec d = (countChan d (off / 32) false, .ok (Census.ofBytes (d.mem.peek off 32))) := by
  rw [takeCensus, Op.exec_bind (Op.exec_tryCatch (readAt_word hr ha hp hs he) _)]
  dsimp only
  rw [if_neg (Nat.not_le.2 hf)]
  exact Op.exec_pure ..

/-! ### Requests -/

section
variable {s : State} {q : MemReq} {op sp off : Nat} {data : List Byte} {f : Nat → Nat → State × Status × List Byte}

/-- A request of this module, or one that reaches it outside M2, is served at a local address. -/
theorem State.memReq_here (hq : q.issuer = none ∨ s.pwr.mstate ≠ 2) (h : resolve s.dp.coord q.addr = some (.here sp off)) :
    s.memReq q op data f = (f sp off).1.answerReq q op (f sp off).2.1 (f sp off).2.2 := by
  have awake : ¬ (q.issuer.isSome = true ∧ s.pwr.mstate = 2) := by
    rintro ⟨hi, hm⟩
    rcases hq with hq | hq
    · rw [hq] at hi; cases hi
    · exact hq hm
  rw [State.memReq, if_neg awake, h]

/-- One of this module whose address is another's is issued. -/
theorem State.memReq_far {m : Coord} (hq : q.issuer = none) (h : resolve s.dp.coord q.addr = some (.far m sp off)) :
    s.memReq q op data f = s.issueReq q op m data := by
  have own : ¬ q.issuer.isSome = true := by rw [hq]; exact Bool.false_ne_true
  rw [State.memReq, if_neg fun k => own k.1, h]
  exact if_neg own

theorem State.runReq_ok {env : Env} {m : Ctx → Op (List Byte)} {e : Dp} {l : List Byte}
    (h : (m (s.ctx env q.who q.tag q.attempt)).exec (s.dp.upsets env.upsets) = (e, .ok l)) : s.runReq q env m = ({ s with dp := e }, .ok, l) := by
  rw [State.runReq, State.runOp, h]

/-- The answer to this module's own request other than a READ carries the status and up to 8 bytes. -/
theorem State.answerReq_own (hq : q.issuer = none) (hop : op ≠ opRead) (st : Status) :
    s.answerReq q op st data = s.send (.answer st (BitVec.ofNat 64 (fld data 0 8))) := by
  rw [State.answerReq, hq]
  exact if_neg hop
theorem State.answerReq_read (hq : q.issuer = none) (st : Status) : s.answerReq q opRead st data = s.send (.readAnswer st data) := by
  rw [State.answerReq, hq]
  exact if_pos rfl
end

/-! ### CENSUS_COMBINE -/

section
variable {s : State} {q : MemReq} {u : BitVec 256} {env : Env} {sp off : Nat}

theorem exec_censusCombine (q : MemReq) (u : BitVec 256) (env : Env) (s : State) :
    exec (.censusCombine q u env) s = .next (s.censusCombine q u env) := rfl

theorem State.censusCombine_unaligned (hq : q.issuer = none ∨ s.pwr.mstate ≠ 2) (h : resolve s.dp.coord q.addr = some (.here sp off))
    (ha : off % 32 ≠ 0) : s.censusCombine q u env = s.answerReq q opAtomic .align [] := by
  rw [State.censusCombine, State.memReq_here hq h, if_pos ha]
theorem State.censusCombine_otherSpace (hq : q.issuer = none ∨ s.pwr.mstate ≠ 2) (h : resolve s.dp.coord q.addr = some (.here sp off))
    (ha : off % 32 = 0) (hsp : sp ≠ 2) : s.censusCombine q u env = s.answerReq q opAtomic .bounds [] := by
  rw [State.censusCombine, State.memReq_here hq h, if_neg (not_not_intro ha), if_pos hsp]

/-- The record is taken, updated and written in the one command, which answers ST_OK (02 R78). -/
theorem State.censusCombine_done {old : Census} {d e : Dp} (hq : q.issuer = none ∨ s.pwr.mstate ≠ 2)
    (h : resolve s.dp.coord q.addr = some (.here 2 off)) (ha : off % 32 = 0) (hf : (Census.ofBytes (le 32 u.toNat)).flags < 64)
    (hs : rangeAt (s.dp.upsets env.upsets) (s.ctx env q.who q.tag q.attempt) q.addr 32 true = .ok)
    (hold : (takeCensus (s.ctx env q.who q.tag q.attempt) q.addr).exec (s.dp.upsets env.upsets) = (d, .ok old))
    (hnew : (writeAt (s.ctx env q.who q.tag q.attempt) q.addr (old.update (Census.ofBytes (le 32 u.toNat))).bytes).exec d = (e, .ok ())) :
    s.censusCombine q u env = ({ s with dp := e } : State).answerReq q opAtomic .ok [] := by
  rw [State.censusCombine, State.memReq_here hq h, if_neg (not_not_intro ha), if_neg (not_not_intro rfl), State.runReq_ok (e := e) (l := [])]
  · rfl
  · rw [Op.exec_get_bind, Op.exec_bind (Op.exec_needOk hs ..)]
    dsimp only
    rw [if_neg (Nat.not_le.2 hf)]
    rw [Op.exec_bind hold, Op.exec_bind hnew, Op.exec_pure]

/-- On a record without an error the data plane after it. -/
def censusDone (d : Dp) (off : Nat) (c : Census) : Dp := wordWritten (countChan d (off / 32) false) (off / 32) c.bytes

theorem State.censusCombine_clean (hq : q.issuer = none) (h : resolve s.dp.coord q.addr = some (.here 2 off)) (ha : off % 32 = 0)
    (hu : (Census.ofBytes (le 32 u.toNat)).flags < 64) (hw : rangeStatus s.dp (s.ctx {} q.who q.tag q.attempt) 2 off 32 true = .ok)
    (hr : rangeStatus s.dp (s.ctx {} q.who q.tag q.attempt) 2 off 32 false = .ok) (he : s.dp.mem.err (off / 32) = .none)
    (hf : (Census.ofBytes (s.dp.mem.peek off 32)).flags < 64) : s.censusCombine q u {} = ({ s with
      dp := censusDone s.dp off ((Census.ofBytes (s.dp.mem.peek off 32)).update (Census.ofBytes (le 32 u.toNat))) } : State).send (.answer .ok 0) := by
  have counted : (countChan s.dp (off / 32) false).coord = s.dp.coord := by rw [countChan_rest]
  have range : rangeAt s.dp (s.ctx {} q.who q.tag q.attempt) q.addr 32 true = .ok := by
    rw [rangeAt, h]
    exact hw
  have taken := takeCensus_word (c := s.ctx {} q.who q.tag q.attempt) h ha rfl hr he hf
  have written (r : Census) := writeAt_word (d := countChan s.dp (off / 32) false) (counted.symm ▸ h) ha rfl
    ((countChan_rangeStatus ..).trans hw) r.bytes_length
  rw [State.censusCombine_done (Or.inl hq) h ha hu range taken (written _), State.answerReq_own hq (by decide)]
  rfl

theorem censusDone_rest (d : Dp) (off : Nat) (c : Census) : censusDone d off c = { d with mem := (censusDone d off c).mem } := by
  rw [censusDone, wordWritten_rest, countChan_rest d]
theorem censusDone_peek (d : Dp) {off : Nat} (ha : off % 32 = 0) (c : Census) : (censusDone d off c).mem.peek off 32 = c.bytes := by
  have record := wordWritten_peek (countChan d (off / 32) false) (off / 32) c.bytes_length
  rwa [Nat.div_mul_cancel (Nat.dvd_of_mod_eq_zero ha)] at record
theorem censusDone_byte {d : Dp} {off a : Nat} (ha : off % 32 = 0) (c : Census) (h : a < off ∨ off + 32 ≤ a) :
    (censusDone d off c).mem.byte a = d.mem.byte a := by
  rw [censusDone, wordWritten_byte c.bytes_length (by omega), countChan_rest]
  rfl
end

/-- Settles O10: a record of another step is replaced by the reset one before the update (`Census.update_other`); an error-free record's
update by the accesses of whole words. -/
theorem aCensusUpdateOfAnotherStepResetsFirst : Obligations.ACensusUpdateOfAnotherStepResetsFirst := by
  intro s q u env off old upd z d e hq hupd hflags he0 hz0 hs0 hn0 hx0 hm0 hf0 _
  subst hupd
  have other {c : Census} (h : (Census.ofBytes (le 32 u.toNat)).step ≠ c.step) := Census.update_other h he0 hz0 hs0 hn0 hx0 hm0 hf0
  refine ⟨?update, ?clean, ?refused, ?issued⟩
  case update =>
    intro hr ha hs hold hnew
    rw [exec_censusCombine]
    refine congrArg Host.Outcome.next (State.censusCombine_done hq hr ha hflags hs hold ?_)
    split at hnew
    · next h => rwa [Census.update_same h]
    · next h => rwa [other h]
  case clean =>
    intro hr ha hi hw hrd herr hold hfl
    subst hold
    have done := State.censusCombine_clean hi hr ha hflags hw hrd herr hfl
    generalize hc : (Census.ofBytes (s.dp.mem.peek off 32)).update (Census.ofBytes (le 32 u.toNat)) = c at done
    have record := censusDone_peek s.dp ha c
    refine ⟨_, congrArg Host.Outcome.next done, ?_, fun h => ?_, fun h => ?_, fun a h => ?_, ?_⟩
    · rw [State.send_dp, censusDone_rest]
      rfl
    · rw [State.send_dp, Dp.send_mem, ← other h, hc]
      exact record
    · rw [State.send_dp, Dp.send_mem, ← Census.update_same h, hc]
      exact record
    · rw [State.send_dp, Dp.send_mem]
      exact censusDone_byte ha c h
    · rw [censusDone_rest]
      rfl
  case refused =>
    intro sp hr
    exact ⟨fun ha => congrArg Host.Outcome.next (State.censusCombine_unaligned hq hr ha),
      fun ha hsp => congrArg Host.Outcome.next (State.censusCombine_otherSpace hq hr ha hsp)⟩
  case issued =>
    intro m sp hr hi
    exact congrArg Host.Outcome.next (State.memReq_far hi hr)

end Sys2Proof.Machine

/-! SUPPORT. Responses, hangs of accesses, the patrol and resolved addresses (02 R82; 07 R238, R241, R258, R260; 12 R414, R415). -/
namespace Sys2Proof.Machine

/-! ### Accesses that wait for a response -/

section
variable (s : State) (tag : BitVec 16)

theorem State.dropTxn_gone : ∀ y ∈ (s.dropTxn tag).lnk.txns, y.tag ≠ tag := by
  intro y hy
  obtain ⟨-, hne⟩ := List.mem_filter.1 hy
  exact bne_iff_ne.1 hne

/-- An access that ends with a message to its issuer leaves the list, and nothing else changes beside records, messages and vectors. -/
theorem State.dropTxn_send {o : Out} {m : OutMsg} (h : o = .next ((s.dropTxn tag).send m)) : ∃ t, o = .next t ∧ t.dp.out = s.dp.out ++ [m] ∧
    (∀ y ∈ t.lnk.txns, y.tag ≠ tag) ∧ t = { s with dp := t.dp, lnk := { s.lnk with txns := t.lnk.txns } } ∧ s.dp.Quiet t.dp :=
  ⟨_, h, rfl, s.dropTxn_gone tag, rfl, s.dp.quiet_send m⟩
end

section
variable {s : State} {p : Packet} {x : Txn} {op : Nat} {st : Status}

/-- A response with no access waiting is dropped. -/
theorem State.takeResp_none (h : s.txnOf p op = none) : s.takeResp p op = s := by
  rw [State.takeResp, h]

variable (h : s.txnOf p op = some x) (hst : st = (Status.ofCode p.status.toNat).getD .fieldReserved)
include h hst

/-- A response completes its access with its status and data. -/
theorem State.takeResp_some : s.takeResp p op =
    (s.dropTxn x.tag).answerReq { who := x.who, addr := x.addr } op st (if st = .ok then p.data else []) := by
  rw [State.takeResp, h, hst]

/-- The answer of a write or an atomic: the first 8 bytes of the data. -/
theorem State.takeResp_word (hop : op ≠ opRead) : s.takeResp p op =
    (s.dropTxn x.tag).send (.answer st (if st = .ok then BitVec.ofNat 64 (fld p.data 0 8) else 0)) := by
  rw [State.takeResp_some h hst, State.answerReq_own rfl hop]
  split <;> rfl
end

theorem State.takeResp_read {s : State} {p : Packet} {x : Txn} {st : Status} (h : s.txnOf p opRead = some x)
    (hst : st = (Status.ofCode p.status.toNat).getD .fieldReserved) :
    s.takeResp p opRead = (s.dropTxn x.tag).send (.readAnswer st (if st = .ok then p.data else [])) := by
  rw [State.takeResp_some h hst, State.answerReq_read rfl]

/-! ### An access with no response -/

/-- What the issuer of an access learns when no response comes in time (07 R260). -/
def hangAnswer (op : Nat) : OutMsg := if op = opRead then .readAnswer .hang [] else .answer .hang 0

theorem State.answerReq_hang (s : State) {q : MemReq} (hq : q.issuer = none) (op : Nat) :
    s.answerReq q op .hang [] = s.send (hangAnswer op) := by
  by_cases h : op = opRead
  · rw [h, State.answerReq_read hq]
    rfl
  · rw [State.answerReq_own hq h, hangAnswer, if_neg h]
    rfl

theorem State.quiet_levelRecord (s : State) (phase level target : Nat) (status : BitVec 16) (engine elapsed : Nat) (addr : BitVec 64) :
    ∃ d, s.dp.Quiet d ∧ s.levelRecord phase level target status engine elapsed addr = { s with dp := d } := by
  unfold State.levelRecord
  dsimp only
  split <;> exact ⟨_, s.dp.quiet_record .., rfl⟩

/-- The watchdog's registers after a hang of engine `q` is declared (12 R414). -/
def hangDeclared (w : Wdg) (q : Nat) : Wdg :=
  { w with hang := w.hang.hwSet, engines := Sparse.upd {} w.engines q fun x => { x with hangs := satInc x.hangs } }

theorem hangDeclared_hangs (w : Wdg) (q : Nat) :
    (Sparse.get ({} : WdgEng) (hangDeclared w q).engines q).hangs = satInc (Sparse.get ({} : WdgEng) w.engines q).hangs := by
  rw [hangDeclared, Sparse.get_upd_self]

theorem State.declareHang_rest (s : State) (q elapsed : Nat) (addr : BitVec 64) : ∃ d, s.dp.Quiet d ∧
    s.declareHang q elapsed addr = { s with dp := d, wdg := hangDeclared s.wdg q } := by
  unfold State.declareHang
  dsimp only
  split
  · exact State.quiet_levelRecord { s with wdg := hangDeclared s.wdg q } ..
  · exact State.quiet_levelRecord { s with wdg := hangDeclared s.wdg q } ..

section
variable (s : State) (c : BitVec 17) (level target engine : Nat)

/-- A question that is not yet asked goes to the managers; the reset waits for its answer (12 R415). -/
theorem State.askLost_new (h : ∀ y ∈ s.wdg.queries, y.coord ≠ c) : s.askLost c level target engine =
    ({ s with wdg := { s.wdg with queries := s.wdg.queries ++ [{ coord := c, waits := [(level, target, engine)] }] } } : State).send
      (.mgmt .lostQuery c (BitVec.ofNat 64 s.dp.coord.code.toNat)) := by
  have new : ¬ (s.wdg.queries.any fun q => q.coord == c) = true := by
    rw [List.any_eq_true]
    rintro ⟨y, hy, hc⟩
    exact h y hy (beq_iff_eq.1 hc)
  rw [State.askLost, if_neg new]
  rfl

theorem State.askLost_rest : ∃ d l, s.dp.Quiet d ∧ s.askLost c level target engine = { s with dp := d, wdg := { s.wdg with queries := l } } := by
  unfold State.askLost
  split
  · exact ⟨_, _, Dp.Quiet.refl _, rfl⟩
  · exact ⟨_, _, s.dp.quiet_send _, rfl⟩
end

/-- A hang of an array or trellis engine enters the ladder at its easel (12 Table 12.1). -/
theorem State.hangLevel_easel (s : State) {q : Nat} (h : q < 1536) : ∃ l, s.hangLevel q = some (l, q % 768) := by
  unfold State.hangLevel
  rw [if_pos h]
  dsimp only
  split
  · exact ⟨2, rfl⟩
  · exact ⟨1, rfl⟩

/-- The state after the access `tag` of engine `e` has hung, before any question is asked; `d`: with its answer and record. -/
def State.hungAt (s : State) (tag : BitVec 16) (e : Nat) (d : Dp) : State := { s.dropTxn tag with dp := d, wdg := hangDeclared s.wdg e }

section
variable {s : State} {tag : BitVec 16}

theorem State.remoteTimeout_none (h : (s.lnk.txns.find? fun y => y.tag == tag) = none) (e : Option QueueId) : s.remoteTimeout tag e = s := by
  rw [State.remoteTimeout, h]

variable {x : Txn} (h : (s.lnk.txns.find? fun y => y.tag == tag) = some x)
include h

theorem State.remoteTimeout_noEngine : s.remoteTimeout tag none = (s.dropTxn tag).send (hangAnswer x.op) := by
  rw [State.remoteTimeout, h]
  exact State.answerReq_hang _ rfl _

/-- At an engine the hang is declared; where Table 12.1 gives it a level, the managers are asked first. -/
theorem State.remoteTimeout_engine (e : QueueId) : ∃ d, s.dp.Quiet d ∧
    ((s.hungAt tag e d).hangLevel e = none → s.remoteTimeout tag (some e) = s.hungAt tag e d) ∧
    ∀ l target, (s.hungAt tag e d).hangLevel e = some (l, target) → s.remoteTimeout tag (some e) =
      (s.hungAt tag e d).askLost x.dest.code (if e.val < 1536 then 1 else l) target e := by
  obtain ⟨d, hq, hd⟩ := ((s.dropTxn tag).send (hangAnswer x.op)).declareHang_rest e 20000 x.addr
  have hung : ((s.dropTxn tag).send (hangAnswer x.op)).declareHang e 20000 x.addr = s.hungAt tag e d := hd
  refine ⟨d, (s.dp.quiet_send _).trans hq, fun hl => ?_, fun l target hl => ?_⟩
  · rw [State.remoteTimeout, h]
    dsimp only
    rw [State.answerReq_hang _ rfl, hung, hl]
  · rw [State.remoteTimeout, h]
    dsimp only
    rw [State.answerReq_hang _ rfl, hung, hl]

theorem State.remoteTimeout_hang (e : QueueId) : ∃ d l, s.dp.Quiet d ∧
    s.remoteTimeout tag (some e) = { s.dropTxn tag with dp := d, wdg := { hangDeclared s.wdg e with queries := l } } := by
  obtain ⟨d, hd, hnone, hsome⟩ := State.remoteTimeout_engine h e
  cases hl : (s.hungAt tag e d).hangLevel e with
  | none => exact ⟨d, _, hd, hnone hl⟩
  | some y =>
    obtain ⟨d', l', hd', ha⟩ := (s.hungAt tag e d).askLost_rest x.dest.code (if e.val < 1536 then 1 else y.1) y.2 e
    exact ⟨d', l', hd.trans hd', (hsome y.1 y.2 hl).trans ha⟩

theorem State.remoteTimeout_asks {e : QueueId} (he : e.val < 1536) (hn : ∀ y ∈ s.wdg.queries, y.coord ≠ x.dest.code) :
    (s.remoteTimeout tag (some e)).wdg.queries = s.wdg.queries ++ [{ coord := x.dest.code, waits := [(1, e.val % 768, e.val)] }] ∧
    OutMsg.mgmt .lostQuery x.dest.code (BitVec.ofNat 64 s.dp.coord.code.toNat) ∈ (s.remoteTimeout tag (some e)).dp.out := by
  obtain ⟨d, hd, -, hsome⟩ := State.remoteTimeout_engine h e
  obtain ⟨l, hl⟩ := (s.hungAt tag e d).hangLevel_easel he
  have own : d.coord = s.dp.coord := by rw [hd]
  rw [hsome _ _ hl, if_pos he, State.askLost_new (s.hungAt tag e d) _ _ _ _ hn, ← own]
  exact ⟨rfl, List.mem_append_right _ (List.mem_singleton_self _)⟩
end

/-! ### The patrol (07 R241) -/

section
variable {s : State} {d : Dp} {u g : Nat} {m : List Nat} {env : Env} (hd : d = s.dp.upsets env.upsets)
include hd

/-- Past the last granule the pass is over. -/
theorem State.patrol_over (h : nextGranule d.mem u (d.unit u).granule.toNat = none) : s.patrol u m env = { s with
    dp := d.updUnit u fun x => { x with
      granule := 0, escalated := false, passes := if (d.unit u).granule.toNat = 0 then x.passes else x.passes + 1 } } := by
  subst hd
  unfold State.patrol State.onDp
  dsimp only
  rw [h]

/-- The next granule is scrubbed, and GRANULE names the one after it. -/
theorem State.patrol_next (h : nextGranule d.mem u (d.unit u).granule.toNat = some g) {d1 : Dp} (h1 : d1 = scrubGranule d m (unitGranule u + g)) :
    s.patrol u m env = { s with dp := d1.updUnit u fun x =>
      if (nextGranule d1.mem u (g + 1)).isSome then { x with granule := BitVec.ofNat 16 (g + 1), escalated := false }
      else { x with granule := 0, passes := x.passes + 1, escalated := false } } := by
  subst hd h1
  unfold State.patrol State.onDp
  dsimp only
  rw [h]
end

/-! ### Resolving an uncorrectable address (02 R82; 07 R238) -/

section
variable {s : State} {a : Addr} {pl : UePlace} {env : Env} {d : Dp}

/-- The surroundings' errors come up once, before the command's first access. -/
theorem exec_ueResolve (s : State) (a : Addr) (pl : UePlace) (env : Env) : exec (.ueResolve a pl env) s =
    .next (({ s with dp := s.dp.upsets env.upsets } : State).resolveUe a pl { env with upsets := [] }) := rfl

theorem State.runOp_ok {α : Type} {m : Op α} {x : α} (he : env.upsets = []) (h : m.exec s.dp = (d, .ok x)) :
    s.runOp env m = ({ s with dp := d }, .ok x) := by
  rw [State.runOp, he]
  show ({ s with dp := (m.exec s.dp).1 }, (m.exec s.dp).2) = _
  rw [h]

theorem State.runOp_rest {α : Type} (s : State) (env : Env) (m : Op α) : (s.runOp env m).1 = { s with dp := (s.runOp env m).1.dp } := rfl

theorem State.markUnreadable_rest (s : State) (a : Addr) : s.markUnreadable a = { s with dp := (s.markUnreadable a).dp } := by
  unfold State.markUnreadable
  split <;> rfl

theorem Mem.err_unread {m : Mem} {w : Nat} (h : Sparse.get false m.unread w = true) : m.err w = .uncorrectable 0 := if_pos h

/-- The record's word fails every read, and its bytes stand (02 R82). -/
theorem State.markUnreadable_record {sp off : Nat} (h : resolve s.dp.coord a = some (.here sp off)) :
    (s.markUnreadable a).dp.mem.err (off / 32) = .uncorrectable 0 ∧ (s.markUnreadable a).dp.mem.bytes = s.dp.mem.bytes := by
  rw [State.markUnreadable, h]
  exact ⟨Mem.err_unread (Sparse.get_set_self s.dp.mem.unread (off / 32) true), rfl⟩

/-- Changes of the data plane alone, one after the other. -/
theorem onlyDp_trans {x y z : State} (h : y = { x with dp := y.dp }) (k : z = { y with dp := z.dp }) : z = { x with dp := z.dp } := by
  rw [h] at k
  exact k

/-- Nothing but the data plane changes. -/
theorem State.resolveUe_rest (s : State) (a : Addr) (pl : UePlace) (env : Env) : s.resolveUe a pl env = { s with dp := (s.resolveUe a pl env).dp } := by
  obtain ⟨tile, record, mirror⟩ := pl
  have marked (t : State) : (if record then t.markUnreadable a else t) = { t with dp := (if record then t.markUnreadable a else t).dp } := by
    cases record with
    | true => exact t.markUnreadable_rest a
    | false => rfl
  cases tile with
  | none => exact onlyDp_trans (marked s) (State.runOp_rest ..)
  | some x => exact onlyDp_trans (onlyDp_trans (s.runOp_rest env (markTile (s.ctx env .ovind) x.1 x.2.toNat a)) (marked _)) (State.runOp_rest ..)

theorem State.resolveUe_record (s : State) (a : Addr) (he : env.upsets = []) :
    s.resolveUe a { tile := none, record := true, mirror := [] } env = s.markUnreadable a := by
  unfold State.resolveUe
  dsimp only
  rw [if_pos rfl, copyBack, State.runOp_ok he (Op.exec_pure ..)]

theorem State.resolveUe_mirror (he : env.upsets = []) (ht : pl.tile = none) (hr : pl.record = false)
    (h : (copyBack (s.ctx env .ovind) pl.mirror).exec s.dp = (d, .ok ())) : s.resolveUe a pl env = { s with dp := d } := by
  unfold State.resolveUe
  dsimp only
  rw [ht, hr]
  exact congrArg Prod.fst (State.runOp_ok he h)

theorem State.resolveUe_tile {td : Addr} {tile : BitVec 32} (he : env.upsets = []) (ht : pl.tile = some (td, tile)) (hr : pl.record = false)
    (hm : pl.mirror = []) (h : (markTile (s.ctx env .ovind) td tile.toNat a).exec s.dp = (d, .ok ())) :
    s.resolveUe a pl env = { s with dp := d } := by
  unfold State.resolveUe
  dsimp only
  rw [ht, hr, hm, copyBack]
  dsimp only
  rw [State.runOp_ok he h]
  exact congrArg Prod.fst (State.runOp_ok he (Op.exec_pure ..))
end

/-- Settles O18: a scrubbed word by `scrubWord_correctable` and `scrubWord_uncorrectable`, a response by the equations of `takeResp`, a hang by
`remoteTimeout_hang` and `remoteTimeout_asks`, the patrol and a resolved address by theirs. -/
theorem responsesTimeoutsAndScrub : Obligations.ResponsesTimeoutsAndScrub := by
  refine ⟨fun d m w i f y => ⟨fun h => ?corrected, fun h => ?reported⟩, ?_⟩
  case corrected =>
    refine ⟨scrubWord_correctable_ce h, fun hm => ?_, fun hm => scrubWord_meanwhile_bytes h hm⟩
    obtain ⟨herr, hbyte⟩ := scrubWord_corrects h hm
    exact ⟨herr, fun hi => (hbyte _).trans (if_pos ⟨hi, rfl⟩), fun a ha => (hbyte a).trans (if_neg fun k => ha k.2)⟩
  case reported =>
    obtain ⟨hue, haddr⟩ := scrubWord_reports (m := m) h
    obtain ⟨herr, hbytes⟩ := scrubWord_uncorrectable_keeps (m := m) h
    exact ⟨hue, haddr, scrubWord_uncorrectable_repair h, herr, hbytes⟩
  intro s p x st tag e u m g off a env pl d d1 td tile
  refine ⟨fun h => congrArg Host.Outcome.next (State.takeResp_none h), fun h => congrArg Host.Outcome.next (State.takeResp_none h),
    fun h => congrArg Host.Outcome.next (State.takeResp_none h), ?read, ?write, ?atomic,
    fun h z => congrArg Host.Outcome.next (State.remoteTimeout_none h z), ?hang, ?patrol, ?escalated, ?record, ?mirror, ?tile, ?rest⟩
  case read => exact fun h hst => s.dropTxn_send x.tag (congrArg Host.Outcome.next (State.takeResp_read h hst))
  case write => exact fun h hst => s.dropTxn_send x.tag (congrArg Host.Outcome.next (State.takeResp_word h hst (by decide)))
  case atomic => exact fun h hst => s.dropTxn_send x.tag (congrArg Host.Outcome.next (State.takeResp_word h hst (by decide)))
  case hang =>
    intro h
    refine ⟨s.dropTxn_send tag (congrArg Host.Outcome.next (State.remoteTimeout_noEngine h)), ?_,
      fun he hn => ⟨_, rfl, State.remoteTimeout_asks h he hn⟩⟩
    obtain ⟨d, l, quiet, ht⟩ := State.remoteTimeout_hang h e
    exact ⟨_, congrArg Host.Outcome.next ht, rfl, rfl, hangDeclared_hangs s.wdg e, s.dropTxn_gone tag, rfl, quiet⟩
  case patrol =>
    intro hd
    refine ⟨fun hnone => ?_, fun hsome h1 => ?_⟩
    · refine ⟨_, congrArg Host.Outcome.next (State.patrol_over hd hnone), ?_, ?_, rfl⟩
      · rw [Dp.updUnit_unit]
      · have start : (d.unit u).granule.toNat = 0 ↔ (d.unit u).granule = 0 := BitVec.toNat_inj (y := 0)
        rw [Dp.updUnit_unit]
        simp only [start]
    · refine ⟨_, congrArg Host.Outcome.next (State.patrol_next hd hsome h1), fun hlast => ?_, fun hmore => ?_, rfl⟩
      · rw [Dp.updUnit_unit, hlast]
        exact ⟨rfl, rfl⟩
      · rw [Dp.updUnit_unit, if_pos (Option.isSome_iff_ne_none.2 hmore)]
        exact ⟨rfl, rfl⟩
  case escalated => exact ⟨_, rfl, s.dp.updUnit_unit .., fun v hv => s.dp.updUnit_unit_ne _ _ hv, rfl⟩
  case record =>
    intro hr
    obtain ⟨herr, hbytes⟩ := State.markUnreadable_record (s := { s with dp := s.dp.upsets env.upsets }) hr
    rw [exec_ueResolve, State.resolveUe_record _ _ rfl]
    exact ⟨_, rfl, ⟨0, herr⟩, hbytes, State.markUnreadable_rest { s with dp := s.dp.upsets env.upsets } a⟩
  case mirror =>
    intro ht hrec hc
    exact congrArg Host.Outcome.next (State.resolveUe_mirror rfl ht hrec hc)
  case tile =>
    intro ht hrec hmir hc
    exact congrArg Host.Outcome.next (State.resolveUe_tile rfl ht hrec hmir hc)
  case rest => exact ⟨_, rfl, State.resolveUe_rest { s with dp := s.dp.upsets env.upsets } a pl _⟩

end Sys2Proof.Machine

/-! SUPPORT. How far an operation can move the data plane; error-free accesses of any length (07 R236, R239, R249, R260). -/
namespace Sys2Proof.Machine

/-! ### Operations along a relation of data planes -/

section
variable {α β : Type} {R : Dp → Dp → Prop} {d e : Dp}

/-- Whatever it answers, the operation takes the data plane along the relation. -/
def Op.Moves (R : Dp → Dp → Prop) (m : Op α) (d : Dp) : Prop := R d (m.exec d).1

/-- A reflexive and transitive relation of data planes that allows messages to be sent. -/
structure Dp.Course (R : Dp → Dp → Prop) : Prop where
  refl  : ∀ d, R d d
  trans : ∀ {a b c}, R a b → R b c → R a c
  send  : ∀ d m, R d (d.send m)

theorem Op.exec_bind_error {m : Op α} {f : Fail} (h : m.exec d = (e, .error f)) (k : α → Op β) : (m >>= k).exec d = (e, .error f) := by
  unfold Op.exec at h ⊢
  simp only [bind, EStateM.bind]
  cases hm : m d with
  | ok a e' => rw [hm] at h; cases h
  | error f' e' => rw [hm] at h; cases h; rfl

theorem Op.exec_tryCatch_error {m : Op α} {f : Fail} (h : m.exec d = (e, .error f)) (k : Fail → Op α) :
    (tryCatch m k : Op α).exec d = (k f).exec e := by
  unfold Op.exec at h ⊢
  simp only [tryCatch, tryCatchThe, MonadExceptOf.tryCatch, EStateM.tryCatch]
  cases hm : m d with
  | ok a e' => rw [hm] at h; cases h
  | error f' e' => rw [hm] at h; cases h; rfl

theorem Op.moves_ite {p : Prop} [Decidable p] {m k : Op α} (h : p → Op.Moves R m d) (hk : ¬ p → Op.Moves R k d) :
    Op.Moves R (if p then m else k) d := by
  split
  · exact h ‹_›
  · exact hk ‹_›
theorem Op.moves_get {k : Dp → Op β} (h : Op.Moves R (k d) d) : Op.Moves R ((get : Op Dp) >>= k) d := h
theorem Op.moves_set (h : R d e) : Op.Moves R (set e : Op PUnit) d := h
theorem Op.moves_modify {f : Dp → Dp} (h : R d (f d)) : Op.Moves R (modify f : Op PUnit) d := h

variable (C : Dp.Course R)
include C

theorem Op.moves_pure (a : α) (d : Dp) : Op.Moves R (pure a : Op α) d := C.refl d
theorem Op.moves_failOp (st : Status) (a : Addr) (obj off : Nat) (d : Dp) : Op.Moves R (failOp st a obj off : Op α) d := C.refl d

theorem Op.moves_bind {m : Op α} {k : α → Op β} (h : Op.Moves R m d) (hk : ∀ a e, Op.Moves R (k a) e) : Op.Moves R (m >>= k) d := by
  unfold Op.Moves at h ⊢
  match hm : m.exec d with
  | (e, .ok a) =>
    rw [hm] at h
    rw [Op.exec_bind hm]
    exact C.trans h (hk a e)
  | (e, .error f) =>
    rw [hm] at h
    rw [Op.exec_bind_error hm]
    exact h

theorem Op.moves_tryCatch {m : Op α} {k : Fail → Op α} (h : Op.Moves R m d) (hk : ∀ f e, Op.Moves R (k f) e) :
    Op.Moves R (tryCatch m k : Op α) d := by
  unfold Op.Moves at h ⊢
  match hm : m.exec d with
  | (e, .ok a) =>
    rw [hm] at h
    rw [Op.exec_tryCatch hm]
    exact h
  | (e, .error f) =>
    rw [hm] at h
    rw [Op.exec_tryCatch_error hm]
    exact C.trans h (hk f e)

theorem Op.moves_needOk (st : Status) (a : Addr) (obj : Nat) (d : Dp) : Op.Moves R (needOk st a obj) d := by
  unfold needOk
  split
  · exact Op.moves_pure C ..
  · exact Op.moves_failOp C ..

theorem Op.moves_mapM {f : α → Op β} (h : ∀ x d, Op.Moves R (f x) d) (l : List α) (d : Dp) : Op.Moves R (l.mapM f) d := by
  induction l generalizing d with
  | nil => exact Op.moves_pure C ..
  | cons x r ih =>
    rw [List.mapM_cons]
    exact Op.moves_bind C (h x d) fun _ e => Op.moves_bind C (ih e) fun _ e => Op.moves_pure C _ e

theorem Op.moves_forM {f : α → Op PUnit} (h : ∀ x d, Op.Moves R (f x) d) (l : List α) (d : Dp) : Op.Moves R (l.forM f) d := by
  induction l generalizing d with
  | nil => exact Op.moves_pure C ..
  | cons x r ih => exact Op.moves_bind C (h x d) fun _ e => ih e

theorem moves_remoteWords (c : Ctx) (a : Addr) (i n : Nat) (d : Dp) : Op.Moves R (remoteWords c a i n) d := by
  induction n generalizing i d with
  | zero => exact Op.moves_pure C ..
  | succ n ih =>
    rw [remoteWords]
    split
    · exact Op.moves_bind C (ih (i + 1) d) fun _ e => Op.moves_pure C _ e
    · exact Op.moves_failOp C ..
    · exact Op.moves_failOp C ..

/-- A read goes as far as its words do. -/
theorem moves_readAt {c : Ctx} (hw : ∀ sp w d, Op.Moves R (readWord c sp w) d) (a : Addr) (len : Nat) (d : Dp) : Op.Moves R (readAt c a len) d := by
  have words (sp w n d) : Op.Moves R (readWords c sp w n) d := by
    induction n generalizing w d with
    | zero => exact Op.moves_pure C ..
    | succ n ih => exact Op.moves_bind C (hw sp w d) fun _ e => Op.moves_bind C (ih (w + 1) e) fun _ e => Op.moves_pure C _ e
  refine Op.moves_get ?_
  split
  · exact Op.moves_failOp C ..
  · exact Op.moves_bind C (Op.moves_needOk C ..) fun _ e => Op.moves_bind C (words _ _ _ e) fun _ e => Op.moves_pure C _ e
  · exact Op.moves_bind C (Op.moves_needOk C ..) fun _ e => Op.moves_bind C (Op.moves_modify (C.send e _)) fun _ e =>
      Op.moves_bind C (moves_remoteWords C _ _ _ _ e) fun _ e => Op.moves_pure C _ e

theorem moves_fetchTD {c : Ctx} (hw : ∀ sp w d, Op.Moves R (readWord c sp w) d) (ptr : Addr) (d : Dp) : Op.Moves R (fetchTD c ptr) d := by
  refine Op.moves_get ?_
  split
  · exact Op.moves_failOp C ..
  · split
    · exact Op.moves_failOp C ..
    · exact Op.moves_bind C (Op.moves_needOk C ..) fun _ e => Op.moves_bind C (moves_readAt C hw _ _ e) fun _ e => Op.moves_pure C _ e

theorem moves_takeCensus {c : Ctx} (hw : ∀ sp w d, Op.Moves R (readWord c sp w) d) (a : Addr) (d : Dp) : Op.Moves R (takeCensus c a) d := by
  refine Op.moves_bind C (Op.moves_tryCatch C (moves_readAt C hw ..) fun _ e => Op.moves_failOp C ..) fun l e => ?_
  dsimp only
  split
  · exact Op.moves_failOp C ..
  · exact Op.moves_pure C ..
end

/-! ### What leaves the module only grows -/

/-- The messages sent stay sent, and the module keeps its coordinate. -/
structure Dp.Grows (d e : Dp) : Prop where
  coord : e.coord = d.coord
  out   : d.out <+: e.out

theorem Dp.grows_send (d : Dp) (m : OutMsg) : d.Grows (d.send m) := ⟨rfl, List.prefix_append ..⟩

theorem Dp.grows_course : Dp.Course Dp.Grows where
  refl _ := ⟨rfl, List.prefix_rfl⟩
  trans h k := ⟨k.coord.trans h.coord, h.out.trans k.out⟩
  send := Dp.grows_send

/-- A change of other parts of the data plane. -/
theorem Dp.grows_of {d e : Dp} (hc : e.coord = d.coord) (ho : e.out = d.out) : d.Grows e := ⟨hc, ho ▸ List.prefix_rfl⟩

theorem Dp.Grows.of_eq {d x e : Dp} (h : x.Grows e) (hc : x.coord = d.coord) (ho : x.out = d.out) : d.Grows e :=
  Dp.grows_course.trans (Dp.grows_of hc ho) h

theorem Dp.grows_raise (d : Dp) (p : Port) (v : Nat) : d.Grows (d.raise p v) := by
  unfold Dp.raise
  dsimp only
  split
  · cases p <;> exact Dp.grows_of rfl rfl
  · exact d.grows_send _

theorem Dp.grows_raiseBoth (d : Dp) (v : Nat) : d.Grows (d.raiseBoth v) :=
  Dp.grows_course.trans (d.grows_raise .A v) (Dp.grows_raise _ .B v)

theorem Dp.grows_record (d : Dp) (ty : Nat) (so : BitVec 16) (st : Status) (l : List Byte) : d.Grows (d.record ty so st l) := by
  unfold Dp.record
  split
  · exact Dp.grows_of rfl rfl
  · dsimp only
    split
    · exact Dp.Grows.of_eq (Dp.grows_raiseBoth ..) rfl rfl
    · exact Dp.grows_of rfl rfl

theorem grows_countCe (d : Dp) (u : Nat) : d.Grows (countCe d u) := by
  unfold countCe
  dsimp only
  split
  · exact Dp.Grows.of_eq (Dp.grows_record ..) rfl rfl
  · exact Dp.grows_of rfl rfl

theorem grows_markRow (d : Dp) (w : Nat) : d.Grows (markRow d w) := by
  unfold markRow
  split
  · exact Dp.grows_course.refl d
  · exact Dp.Grows.of_eq (Dp.grows_record ..) rfl rfl

theorem grows_countUe (d : Dp) (sp w : Nat) (y : BitVec 32) : d.Grows (countUe d sp w y) :=
  Dp.Grows.of_eq (Dp.grows_record ..) rfl rfl

theorem grows_countChan (d : Dp) (w : Nat) (b : Bool) : d.Grows (countChan d w b) := by
  rw [countChan_rest]
  exact Dp.grows_of rfl rfl

theorem grows_readWord (c : Ctx) (sp w : Nat) (d : Dp) : Op.Moves Dp.Grows (readWord c sp w) d := by
  have C := Dp.grows_course
  refine Op.moves_bind C (Op.moves_modify (grows_countChan ..)) fun _ e => Op.moves_get ?_
  have corrected (v v' : List Byte) (e : Dp) :
      Op.Moves Dp.Grows (do set (countCe { e with mem := e.mem.putWord w v } (unitOf (w * 32))); pure v' : Op (List Byte)) e :=
    Op.moves_bind C (Op.moves_set (Dp.Grows.of_eq (grows_countCe ..) rfl rfl)) fun _ e => Op.moves_pure C _ e
  split
  · exact Op.moves_pure C ..
  · dsimp only
    split
    · exact Op.moves_pure C ..
    · exact corrected ..
    · split
      · refine Op.moves_bind C (Op.moves_set ?_) fun _ e => Op.moves_failOp C ..
        split
        · exact C.trans (grows_countUe ..) (grows_markRow ..)
        · exact grows_countUe ..
      · exact corrected ..

theorem grows_landWord (c : Ctx) (sp w pos : Nat) (v : List Byte) (d : Dp) : Op.Moves Dp.Grows (landWord c sp w pos v) d := by
  have C := Dp.grows_course
  refine Op.moves_bind C (Op.moves_modify (grows_countChan ..)) fun _ e => Op.moves_get ?_
  refine Op.moves_ite (fun _ => Op.moves_pure C ..) fun _ => Op.moves_ite (fun _ => Op.moves_failOp C ..) fun _ => ?_
  exact Op.moves_ite (fun _ => Op.moves_pure C ..) fun _ => Op.moves_bind C (grows_readWord ..) fun _ e => Op.moves_pure C _ e

theorem grows_readAt (c : Ctx) (a : Addr) (len : Nat) (d : Dp) : Op.Moves Dp.Grows (readAt c a len) d :=
  moves_readAt Dp.grows_course (grows_readWord c) a len d
theorem grows_takeCensus (c : Ctx) (a : Addr) (d : Dp) : Op.Moves Dp.Grows (takeCensus c a) d :=
  moves_takeCensus Dp.grows_course (grows_readWord c) a d

theorem grows_writeAt (c : Ctx) (a : Addr) (v : List Byte) (d : Dp) : Op.Moves Dp.Grows (writeAt c a v) d := by
  have C := Dp.grows_course
  refine Op.moves_get ?_
  split
  · exact Op.moves_failOp C ..
  · refine Op.moves_bind C (Op.moves_needOk C ..) fun _ e => Op.moves_bind C (Op.moves_mapM C (fun p e => ?_) _ e) fun _ e =>
      Op.moves_modify (Dp.grows_of rfl rfl)
    exact Op.moves_bind C (grows_landWord ..) fun _ e => Op.moves_pure C _ e
  · refine Op.moves_bind C (Op.moves_needOk C ..) fun _ e => Op.moves_bind C (Op.moves_modify (e.grows_send _)) fun _ e => ?_
    split
    · exact Op.moves_failOp C ..
    · exact Op.moves_pure C ..

/-! ### Accesses where no stored word holds an error -/

/-- No stored word holds an error or is marked unreadable. -/
structure Dp.Clean (d : Dp) : Prop where
  errs   : d.mem.errs = []
  unread : d.mem.unread = []

theorem Dp.Clean.err {d : Dp} (h : d.Clean) (w : Nat) : d.mem.err w = .none := by
  rw [Mem.err, h.unread, Mem.dev, h.errs]
  rfl

/-- Beside messages sent, words were counted on their channels and nothing else changed. -/
def Dp.Counted (d e : Dp) : Prop := e = { d with out := e.out, mem := { d.mem with chan := e.mem.chan } }

section
variable {d e : Dp}

theorem Dp.Counted.refl (d : Dp) : d.Counted d := rfl
theorem Dp.Counted.trans {a b c : Dp} (h : a.Counted b) (k : b.Counted c) : a.Counted c := by
  unfold Dp.Counted at k ⊢
  rw [k, h]
theorem Dp.counted_countChan (d : Dp) (w : Nat) (b : Bool) : d.Counted (countChan d w b) := by
  unfold Dp.Counted
  rw [countChan_rest]
theorem Dp.counted_send (d : Dp) (m : OutMsg) : d.Counted (d.send m) := rfl

theorem Dp.Counted.clean (h : d.Counted e) (k : d.Clean) : e.Clean := by
  rw [h]
  exact ⟨k.errs, k.unread⟩
theorem Dp.Counted.peek (h : d.Counted e) (k n : Nat) : e.mem.peek k n = d.mem.peek k n := by
  rw [h]
  rfl
theorem Dp.Counted.byte (h : d.Counted e) (a : Nat) : e.mem.byte a = d.mem.byte a := by
  rw [h]
  rfl
theorem Dp.Counted.coord (h : d.Counted e) : e.coord = d.coord := by rw [h]
theorem Dp.Counted.rangeStatus (h : d.Counted e) (c : Ctx) (sp off len : Nat) (wr : Bool) :
    rangeStatus e c sp off len wr = Machine.rangeStatus d c sp off len wr := by
  rw [h]
  rfl
theorem Dp.Counted.oneGranuleType (h : d.Counted e) (off len : Nat) : oneGranuleType e off len = Machine.oneGranuleType d off len := by
  rw [h]
  rfl

/-- The operation answers `a`; it counts words and sends messages at most. -/
def Op.Gives {α : Type} (m : Op α) (d : Dp) (a : α) : Prop := ∃ e, d.Counted e ∧ m.exec d = (e, .ok a)

variable {α β : Type}

theorem Op.gives_pure (a : α) (d : Dp) : Op.Gives (pure a) d a := ⟨d, .refl d, rfl⟩
theorem Op.gives_bind {m : Op α} {k : α → Op β} {a : α} {b : β} (h : m.Gives d a) (hk : ∀ e, d.Counted e → (k a).Gives e b) :
    (m >>= k).Gives d b := by
  obtain ⟨e, he, hm⟩ := h
  obtain ⟨e', he', hm'⟩ := hk e he
  exact ⟨e', he.trans he', (Op.exec_bind hm k).trans hm'⟩
theorem Op.gives_get {k : Dp → Op β} {b : β} (h : (k d).Gives d b) : ((get : Op Dp) >>= k).Gives d b := h
theorem Op.gives_ite {p : Prop} [Decidable p] {m k : Op α} {a : α} (h : p → m.Gives d a) (hk : ¬ p → k.Gives d a) : (if p then m else k).Gives d a := by
  split
  · exact h ‹_›
  · exact hk ‹_›
theorem Op.gives_needOk {st : Status} (h : st = .ok) (a : Addr) (obj : Nat) : (needOk st a obj).Gives d () :=
  ⟨d, .refl d, Op.exec_needOk h ..⟩
theorem Op.gives_tryCatch {m : Op α} {a : α} (h : m.Gives d a) (k : Fail → Op α) : Op.Gives (tryCatch m k : Op α) d a := by
  obtain ⟨e, he, hm⟩ := h
  exact ⟨e, he, Op.exec_tryCatch hm k⟩
theorem Op.gives_mapM {f : α → Op α} (h : ∀ x d, d.Clean → (f x).Gives d x) (l : List α) (hd : d.Clean) : (l.mapM f).Gives d l := by
  induction l generalizing d with
  | nil => exact Op.gives_pure ..
  | cons x r ih =>
    rw [List.mapM_cons]
    exact Op.gives_bind (h x d hd) fun e he => Op.gives_bind (ih (he.clean hd)) fun e _ => Op.gives_pure ..
end

/-! Reads -/

theorem Mem.peek_add (m : Mem) (k a b : Nat) : m.peek k (a + b) = m.peek k a ++ m.peek (k + a) b := by
  simp only [Mem.peek, List.range_add, List.map_append, List.map_map, Function.comp_def, Nat.add_assoc]

theorem Mem.slice_peek (m : Mem) (k : Nat) {i n len : Nat} (h : i + n ≤ len) : slice (m.peek k len) i n = m.peek (k + i) n := by
  obtain ⟨r, rfl⟩ := Nat.exists_eq_add_of_le h
  rw [slice, Mem.peek_add, Mem.peek_add, List.append_assoc, List.drop_left' (m.peek_length k i), List.take_left' (m.peek_length (k + i) n)]

section
variable {d : Dp} {c : Ctx} {sp off : Nat} {a : Addr} (hd : d.Clean) (hp : c.env.path = [])
include hd

section
include hp

theorem readWord_gives (sp w : Nat) : (readWord c sp w).Gives d (d.mem.peek (w * 32) 32) := by
  have counted := d.counted_countChan w false
  refine ⟨_, counted, ?_⟩
  by_cases hw : scratchBase ≤ w * 32
  · rw [readWord, Op.exec_bind (Op.exec_modify ..), Op.exec_get_bind, if_pos hw, Op.exec_pure, counted.peek]
  · exact readWord_clean (Nat.lt_of_not_le hw) hp (hd.err w)

theorem readWords_gives (sp w n : Nat) : (readWords c sp w n).Gives d (d.mem.peek (w * 32) (n * 32)) := by
  induction n generalizing d w with
  | zero => exact Op.gives_pure ..
  | succ n ih =>
    have rest {e : Dp} (he : d.Counted e) : (readWords c sp (w + 1) n).Gives e (d.mem.peek (w * 32 + 32) (n * 32)) := by
      rw [← Nat.succ_mul, ← he.peek]
      exact ih (he.clean hd) (w + 1)
    rw [readWords, Nat.succ_mul, Nat.add_comm (n * 32), Mem.peek_add]
    exact Op.gives_bind (readWord_gives hd hp sp w) fun e he => Op.gives_bind (rest he) fun e _ => Op.gives_pure ..

/-- Bytes at any alignment are read as they stand. -/
theorem readKey_gives (sp k : Nat) {len : Nat} (hlen : 0 < len) : (readKey c sp k len).Gives d (d.mem.peek k len) := by
  refine Op.gives_bind (readWords_gives hd hp ..) fun e _ => ?_
  have count : wordCount k len = (k + len - 1) / 32 + 1 - k / 32 := if_neg (by omega)
  rw [Mem.slice_peek _ _ (by rw [count]; omega), Nat.mul_comm, Nat.div_add_mod]
  exact Op.gives_pure ..

theorem readAt_gives (hr : resolve d.coord a = some (.here sp off)) {len : Nat} (hlen : 0 < len)
    (hs : rangeStatus d c sp off len false = .ok) : (readAt c a len).Gives d (d.mem.peek off len) := by
  refine Op.gives_get ?_
  rw [hr]
  refine Op.gives_bind (Op.gives_needOk hs ..) fun e he => ?_
  rw [← he.peek]
  exact readKey_gives (he.clean hd) hp sp off hlen

theorem takeCensus_gives (hr : resolve d.coord a = some (.here sp off)) (hs : rangeStatus d c sp off 32 false = .ok)
    (hf : (Census.ofBytes (d.mem.peek off 32)).flags < 64) : (takeCensus c a).Gives d (Census.ofBytes (d.mem.peek off 32)) := by
  refine Op.gives_bind (Op.gives_tryCatch (readAt_gives hd hp hr (by decide) hs) _) fun e _ => ?_
  dsimp only
  rw [if_neg (Nat.not_le.2 hf)]
  exact Op.gives_pure ..

end
end

/-! Writes -/

section
variable {d : Dp} {c : Ctx} {sp off : Nat} {a : Addr} (hd : d.Clean) (hp : c.env.path = [])

include hd hp

/-- With no error on its path the memory unit takes what is written; the rest of a word it takes in part is read first (07 R236, R239). -/
theorem landWord_gives (sp w pos : Nat) (v : List Byte) : (landWord c sp w pos v).Gives d v := by
  refine Op.gives_bind ⟨_, d.counted_countChan w true, Op.exec_modify ..⟩ fun e he => Op.gives_get ?_
  refine Op.gives_ite (fun _ => Op.gives_pure ..) fun _ => ?_
  rw [pathOf_clean hp]
  refine Op.gives_ite (fun h => absurd h Bool.false_ne_true) fun _ => Op.gives_ite (fun _ => Op.gives_pure ..) fun _ => ?_
  exact Op.gives_bind (readWord_gives (he.clean hd) rfl sp w) fun e _ => Op.gives_pure ..
end

theorem Mem.poke_append (m : Mem) (k : Nat) (l r : List Byte) : m.poke k (l ++ r) = (m.poke k l).poke (k + l.length) r := by
  induction l generalizing m k with
  | nil => rfl
  | cons b l ih =>
    rw [List.cons_append, Mem.poke, ih, Mem.poke, List.length_cons, Nat.add_right_comm, Nat.add_assoc]

/-- Where no word holds an error a whole word is stored as its bytes are. -/
theorem Mem.putWord_clean {m : Mem} (he : m.errs = []) (hu : m.unread = []) (w : Nat) (l : List Byte) : m.putWord w l = m.poke (w * 32) l := by
  rw [Mem.putWord, he, hu, Sparse.set, if_pos rfl, Sparse.set, if_pos rfl]
  exact congrArg (fun x : Mem => x.poke (w * 32) l) (by rw [Sparse.del, Sparse.del, List.filter_nil, List.filter_nil, ← he, ← hu])

/-- The pieces of a write, stored one by one, are the write. -/
theorem Mem.store_wordPieces {m : Mem} (he : m.errs = []) (hu : m.unread = []) {n : Nat} (k : Nat) {v : List Byte} (hn : v.length < n) :
    m.store (wordPieces n k v) = m.poke k v := by
  induction n generalizing m k v with
  | zero => omega
  | succ n ih =>
    cases v with
    | nil => rfl
    | cons b r =>
      generalize hv : b :: r = v at hn
      have pieces : wordPieces (n + 1) k v = (k, v.take (32 - k % 32)) :: wordPieces n (k + (32 - k % 32)) (v.drop (32 - k % 32)) := by
        rw [← hv, wordPieces]
        exact List.cons_ne_nil b r
      have first : (if (v.take (32 - k % 32)).length = 32 then m.putWord (k / 32) (v.take (32 - k % 32)) else m.poke k (v.take (32 - k % 32))) =
          m.poke k (v.take (32 - k % 32)) := by
        split
        · next h =>
          rw [List.length_take] at h
          rw [Mem.putWord_clean he hu, show k / 32 * 32 = k by omega]
        · rfl
      have length : 0 < v.length := by rw [← hv]; exact Nat.succ_pos _
      rw [pieces, Mem.store, List.foldl_cons]
      dsimp only
      rw [first]
      refine (ih (m := m.poke k (v.take (32 - k % 32))) (by rw [Mem.poke_rest]; exact he) (by rw [Mem.poke_rest]; exact hu) _
        (by rw [List.length_drop]; omega)).trans ?_
      by_cases h : 32 - k % 32 ≤ v.length
      · have whole := m.poke_append k (v.take (32 - k % 32)) (v.drop (32 - k % 32))
        rw [List.take_append_drop, List.length_take, Nat.min_eq_left h] at whole
        exact whole.symm
      · rw [List.drop_eq_nil_of_le (by omega), List.take_of_length_le (by omega)]
        rfl

/-- Bytes `v` were stored at `k`; beside them only words were counted and messages sent. -/
def Dp.Wrote (d : Dp) (k : Nat) (v : List Byte) (e : Dp) : Prop := ∃ x, d.Counted x ∧ e = { x with mem := x.mem.poke k v }

section
variable {d e : Dp} {k : Nat} {v : List Byte}

theorem Dp.Wrote.peek (h : d.Wrote k v e) : e.mem.peek k v.length = v := by
  obtain ⟨x, -, rfl⟩ := h
  exact x.mem.peek_poke k v
theorem Dp.Wrote.byte (h : d.Wrote k v e) {a : Nat} (ha : a < k ∨ k + v.length ≤ a) : e.mem.byte a = d.mem.byte a := by
  obtain ⟨x, hx, rfl⟩ := h
  exact (x.mem.poke_byte_outside ha).trans (hx.byte a)
theorem Dp.Wrote.rest (h : d.Wrote k v e) : e = { d with out := e.out, mem := e.mem } := by
  obtain ⟨x, hx, rfl⟩ := h
  rw [hx]
theorem Dp.Wrote.after {c : Dp} (h : d.Wrote k v e) (hc : c.Counted d) : c.Wrote k v e := by
  obtain ⟨x, hx, rfl⟩ := h
  exact ⟨x, hc.trans hx, rfl⟩

/-- A write within checked granules of error-free memory stores its bytes and nothing else. -/
theorem writeAt_wrote {c : Ctx} {sp off : Nat} {a : Addr} (hd : d.Clean) (hp : c.env.path = []) (hr : resolve d.coord a = some (.here sp off))
    (hs : rangeStatus d c sp off v.length true = .ok) : ∃ e, d.Wrote off v e ∧ (writeAt c a v).exec d = (e, .ok ()) := by
  have land (p : Nat × List Byte) (d : Dp) (hd : d.Clean) :
      ((landWord c sp (p.1 / 32) (p.1 % 32) p.2 >>= fun b => pure (p.1, b) : Op (Nat × List Byte))).Gives d p :=
    Op.gives_bind (landWord_gives hd hp sp _ _ p.2) fun e _ => Op.gives_pure ..
  obtain ⟨x, hx, run⟩ := Op.gives_mapM land (wordPieces (v.length + 1) off v) hd
  have clean := hx.clean hd
  refine ⟨{ x with mem := x.mem.poke off v }, ⟨x, hx, rfl⟩, ?_⟩
  rw [writeAt, Op.exec_get_bind, hr]
  show (needOk (rangeStatus d c sp off v.length true) a >>= fun _ => writeKey c sp off v).exec d = _
  rw [Op.exec_bind (Op.exec_needOk hs ..), writeKey, Op.exec_bind run, Op.exec_modify,
    Mem.store_wordPieces clean.errs clean.unread off (Nat.lt_succ_self _)]
end

/-- Reads of error-free memory only count words and send messages, whatever they answer. -/
theorem counted_course : Dp.Course fun d e => d.Clean → d.Counted e where
  refl d _ := .refl d
  trans h k c := (h c).trans (k ((h c).clean c))
  send d m _ := d.counted_send m

theorem fetchTD_counted {d e : Dp} {c : Ctx} {ptr : Addr} {t : TD} (hd : d.Clean) (hp : c.env.path = []) (h : (fetchTD c ptr).exec d = (e, .ok t)) :
    d.Counted e := by
  have word (sp w d) : Op.Moves (fun d e => d.Clean → d.Counted e) (readWord c sp w) d := by
    intro clean
    obtain ⟨e, he, run⟩ := readWord_gives clean hp sp w
    rw [run]
    exact he
  have moved := moves_fetchTD counted_course word ptr d
  unfold Op.Moves at moved
  rw [h] at moved
  exact moved hd

end Sys2Proof.Machine

/-! SUPPORT. The parts of a tile's sidecar and the tables that a completed step carries on (03 R93 to R102; 06 R198; 07 R259). -/
namespace Sys2Proof.Machine

/-! ### SIDECAR_PART -/

theorem exec_sidecarPart (q : MemReq) (td : Addr) (tile : BitVec 32) (p : PartIn) (env : Env) (s : State) :
    exec (.sidecarPart q td tile p env) s = .next (s.sidecarPart q td tile.toNat p env) := rfl

theorem Sidecar.bytes_length (s : Sidecar) : s.bytes.length = 160 := by
  simp only [Sidecar.bytes, Sidecar.tagBytes, carrierBytes, List.length_append, List.length_take, List.length_replicate, le_length]
  omega

section
variable {s : State} {q : MemReq} {td : Addr} {tile off : Nat} {p : PartIn} {env : Env} {d e : Dp} {x : TD}

/-- What the checks before the atomic step of a part demand (06 R198, 07 R259). -/
structure State.PartChecked (s : State) (q : MemReq) (td : Addr) (tile : Nat) (env : Env) (off : Nat) (d : Dp) (x : TD) : Prop where
  served  : q.issuer = none ∨ s.pwr.mstate ≠ 2
  place   : resolve s.dp.coord q.addr = some (.here 2 off)
  aligned : off % 32 = 0
  fetched : (fetchTD (s.ctx env q.who q.tag q.attempt) td).exec (s.dp.upsets env.upsets) = (d, .ok x)
  side    : keyOf s.dp.coord (x.sidecarAddr tile) = keyOf s.dp.coord q.addr
  inside  : tile < x.tiles
  oneType : oneGranuleType d off 160 = true
  range   : rangeAt d (s.ctx env q.who q.tag q.attempt) q.addr 160 true = .ok

/-- The status an operation ends with. -/
def outcomeStatus {α : Type} : Except Fail α → Status
  | .ok _ => .ok
  | .error f => f.st

/-- A part that passes the checks is answered with the outcome of the atomic step on its sidecar. -/
theorem State.PartChecked.serves (h : s.PartChecked q td tile env off d x) {r : Except Fail Unit}
    (run : (partSidecar (s.ctx env q.who q.tag q.attempt) x tile (partOut p)).exec d = (e, r)) :
    s.sidecarPart q td tile p env = ({ s with dp := e } : State).answerReq q opAtomic (outcomeStatus r) [] := by
  have own : ¬ (keyOf s.dp.coord (x.sidecarAddr tile) ≠ keyOf s.dp.coord q.addr ∨ x.tiles ≤ tile ∨ off % 32 ≠ 0) := by
    rintro (k | k | k)
    · exact k h.side
    · exact Nat.not_le.2 h.inside k
    · exact k h.aligned
  have kind : ¬ ((2 : Nat) ≠ 2 ∨ (!oneGranuleType d off 160) = true) := by
    rw [h.oneType]
    decide
  rw [State.sidecarPart, State.memReq_here h.served h.place, State.runReq, State.runOp, Op.exec_bind h.fetched]
  dsimp only
  rw [if_neg own, Op.exec_get_bind, if_neg kind, Op.exec_get_bind, Op.exec_bind (Op.exec_needOk h.range ..)]
  cases r with
  | ok z =>
    rw [Op.exec_bind run]
    rfl
  | error f =>
    rw [Op.exec_bind_error run]
    rfl

/-- Where no word holds an error, a part that does not complete its tile writes the sidecar of its step, and one too many fails. -/
theorem partSidecar_writes {c : Ctx} {po : PartOut} {sc : Sidecar} {last bad : Bool} (hd : d.Clean) (hp : c.env.path = [])
    (hr : resolve d.coord (x.sidecarAddr tile) = some (.here 2 off)) (hread : rangeStatus d c 2 off 160 false = .ok)
    (hwrite : rangeStatus d c 2 off 160 true = .ok)
    (hstep : sidecarStep (Sidecar.ofBytes (d.mem.peek off 160)) (x.tileCount tile) (opTag c) c.attempt po = (sc, last, bad))
    (hend : bad = true ∨ last = false) : ∃ e r, d.Wrote off sc.bytes e ∧ (partSidecar c x tile po).exec d = (e, r) ∧
      outcomeStatus r = if bad then .checkTile else .ok := by
  obtain ⟨b, hb, taken⟩ := readAt_gives hd hp hr (by decide) hread
  obtain ⟨e, wrote, written⟩ := writeAt_wrote (v := sc.bytes) (hb.clean hd) hp (hb.coord ▸ hr)
    (by rw [sc.bytes_length, hb.rangeStatus]; exact hwrite)
  have wrote := wrote.after hb
  have run : (partSidecar c x tile po).exec d = (if bad then failOp .checkTile (x.sidecarAddr tile) 4 else pure () : Op Unit).exec e := by
    rw [partSidecar, Op.exec_bind taken]
    dsimp only
    rw [hstep]
    dsimp only
    rw [Op.exec_bind written]
    cases bad with
    | true => rfl
    | false =>
      have going : last = false := by simpa using hend
      subst going
      rfl
  cases bad with
  | true => exact ⟨e, _, wrote, run, rfl⟩
  | false => exact ⟨e, _, wrote, run, rfl⟩

/-- Where no word holds an error, a part that does not complete its tile leaves the sidecar of its step, and nothing else but the answer (06 R198). -/
theorem State.sidecarPart_clean {sc : Sidecar} {last bad : Bool} (own : q.issuer = none) (place : resolve s.dp.coord q.addr = some (.here 2 off))
    (aligned : off % 32 = 0) (clean : s.dp.Clean) (fetched : (fetchTD (s.ctx {} q.who q.tag q.attempt) td).exec s.dp = (d, .ok x))
    (side : q.addr = x.sidecarAddr tile) (inside : tile < x.tiles) (oneType : oneGranuleType s.dp off 160 = true)
    (hwrite : rangeStatus s.dp (s.ctx {} q.who q.tag q.attempt) 2 off 160 true = .ok)
    (hread : rangeStatus s.dp (s.ctx {} q.who q.tag q.attempt) 2 off 160 false = .ok)
    (hstep : sidecarStep (Sidecar.ofBytes (s.dp.mem.peek off 160)) (x.tileCount tile) (q.tag.getD { step := 0, epoch := 0 }) q.attempt (partOut p) =
      (sc, last, bad)) (hend : bad = true ∨ last = false) : ∃ e, s.sidecarPart q td tile p {} =
        ({ s with dp := e } : State).send (.answer (if bad then .checkTile else .ok) 0) ∧ s.dp.Wrote off sc.bytes e := by
  have counted := fetchTD_counted clean rfl fetched
  have range : rangeAt d (s.ctx {} q.who q.tag q.attempt) q.addr 160 true = .ok := by
    rw [rangeAt, counted.coord, place, ← hwrite]
    exact counted.rangeStatus ..
  have checked : s.PartChecked q td tile {} off d x :=
    ⟨Or.inl own, place, aligned, fetched, by rw [side], inside, (counted.oneGranuleType ..).trans oneType, range⟩
  rw [← counted.peek] at hstep
  obtain ⟨e, res, wrote, run, hres⟩ := partSidecar_writes (c := s.ctx {} q.who q.tag q.attempt) (counted.clean clean) rfl
    (by rw [← side, counted.coord]; exact place) ((counted.rangeStatus ..).trans hread) ((counted.rangeStatus ..).trans hwrite) hstep hend
  refine ⟨e, ?_, wrote.after counted⟩
  rw [checked.serves run, State.answerReq_own own (by decide), hres]
  rfl
end

/-! ### Tables that a completed step carries on -/

section
variable {α β : Type}

/-- Whatever the data plane, the operation has a result, and it meets `P`. -/
def Op.Sure (P : α → Prop) (m : Op α) : Prop := ∀ d, ∃ e a, m.exec d = (e, .ok a) ∧ P a

/-- A result of the operation meets `P`. -/
def Op.Answers (P : α → Prop) (m : Op α) : Prop := ∀ d e a, m.exec d = (e, .ok a) → P a

theorem Op.sure_pure {P : α → Prop} {a : α} (h : P a) : Op.Sure P (pure a) := fun d => ⟨d, a, rfl, h⟩
theorem Op.sure_bind {P : α → Prop} {Q : β → Prop} {m : Op α} {k : α → Op β} (h : m.Sure P) (hk : ∀ a, P a → (k a).Sure Q) : (m >>= k).Sure Q := by
  intro d
  obtain ⟨e, a, hm, ha⟩ := h d
  obtain ⟨e', b, hm', hb⟩ := hk a ha e
  exact ⟨e', b, (Op.exec_bind hm k).trans hm', hb⟩
theorem Op.sure_tryCatch {P : α → Prop} {m : Op α} {k : Fail → Op α} (h : m.Answers P) (hk : ∀ f, (k f).Sure P) :
    Op.Sure P (tryCatch m k : Op α) := by
  intro d
  match hm : m.exec d with
  | (e, .ok a) => exact ⟨e, a, Op.exec_tryCatch hm k, h d e a hm⟩
  | (e, .error f) =>
    obtain ⟨e', a, hf, ha⟩ := hk f e
    exact ⟨e', a, (Op.exec_tryCatch_error hm k).trans hf, ha⟩

theorem Op.answers_pure {P : α → Prop} {a : α} (h : P a) : Op.Answers P (pure a) := by
  intro d e b hb
  cases hb
  exact h
theorem Op.answers_bind {Q : β → Prop} {m : Op α} {k : α → Op β} (hk : ∀ a, (k a).Answers Q) : (m >>= k).Answers Q := by
  intro d e b hb
  match hm : m.exec d with
  | (e', .ok a) => exact hk a e' e b ((Op.exec_bind hm k).symm.trans hb)
  | (e', .error f) =>
    rw [Op.exec_bind_error hm] at hb
    cases hb
end

/-- An anchor of the node: L of its wire type from the top exponent it was computed with (R96). -/
def CarriedFor (n : GraphNode) (a : StepAnchor) : Prop := a.tensorId = n.tensorId ∧ a.wire = n.wire ∧ a.l = nodeAnchor n a.etop 0 n.wire.toNat

theorem carryTable_answers (c : Ctx) (n : GraphNode) (step : BitVec 32) : (carryTable c n step).Answers fun x => ∀ a, x = some a → CarriedFor n a := by
  refine Op.answers_bind fun ra => Op.answers_bind fun rb => ?_
  dsimp only
  split
  · refine Op.answers_bind fun _ => Op.answers_pure fun a ha => ?_
    cases ha
    exact ⟨rfl, rfl, rfl⟩
  · exact Op.answers_pure nofun

/-- The carried tables of a step always come to a list: one anchor for each reducible node whose sources are there. -/
theorem carryTables_sure (c : Ctx) (step : BitVec 32) (l : List GraphNode) :
    (carryTables c step l).Sure fun as => ∀ a ∈ as, ∃ n ∈ l, n.reducible = true ∧ CarriedFor n a := by
  induction l with
  | nil => exact Op.sure_pure nofun
  | cons n r ih =>
    have more (x : Option StepAnchor) (hx : ∀ a, x = some a → n.reducible = true ∧ CarriedFor n a) :
        Op.Sure (fun as => ∀ a ∈ as, ∃ m ∈ n :: r, m.reducible = true ∧ CarriedFor m a) (carryTables c step r >>= fun rest => pure (x.toList ++ rest)) := by
      refine Op.sure_bind ih fun rest hrest => Op.sure_pure fun a ha => ?_
      rcases List.mem_append.1 ha with ha | ha
      · exact ⟨n, List.mem_cons_self, hx a (Option.mem_toList.1 ha)⟩
      · obtain ⟨m, hm, carried⟩ := hrest a ha
        exact ⟨m, List.mem_cons_of_mem n hm, carried⟩
    rw [carryTables]
    split
    · next h =>
      have own : (carryTable c n step).Answers fun x => ∀ a, x = some a → n.reducible = true ∧ CarriedFor n a :=
        fun d e x hx a ha => ⟨h, carryTable_answers c n step d e x hx a ha⟩
      refine Op.sure_bind (Op.sure_tryCatch own fun _ => Op.sure_pure nofun) fun x hx => ?_
      cases x with
      | none => exact more none hx
      | some y => exact more (some y) hx
    · exact more none nofun

/-! The bytes of a table -/

theorem tableSize_fits (k : Nat) : 32 + 2 * k ≤ tableSize k := by
  unfold tableSize ceilDiv
  omega

theorem tableBytes_length (n : GraphNode) (step : BitVec 32) (wire h source level : Nat) (etop : Int) (entries : List Int) :
    (tableBytes n step wire h source level etop entries).length = tableSize entries.length := by
  have rows : (entries.flatMap fun l => le 2 (code 16 l)).length = 2 * entries.length := by
    induction entries with
    | nil => rfl
    | cons l r ih =>
      rw [List.flatMap_cons, List.length_append, le_length, ih, List.length_cons, Nat.mul_succ, Nat.add_comm]
  have fits := tableSize_fits entries.length
  simp only [tableBytes, List.length_append, le_length, rows, List.length_replicate]
  omega

theorem Census.wholeAt_of_reducedAt {r : Census} {step : BitVec 32} (h : r.reducedAt step = true) (dist : Bool) : r.wholeAt dist step = true := by
  rw [Census.reducedAt, Bool.and_eq_true] at h
  rw [Census.wholeAt, h.1, h.2, Bool.or_true, Bool.true_and]

/-- The record of an operand can be read at `off` and holds the group-wide values of the step (R101, R112). -/
structure RecordReady (d : Dp) (c : Ctx) (step : BitVec 32) (o : NodeOperand) (off : Nat) : Prop where
  place   : resolve d.coord o.census = some (.here 2 off)
  range   : rangeStatus d c 2 off 32 false = .ok
  flags   : (Census.ofBytes (d.mem.peek off 32)).flags < 64
  reduced : (Census.ofBytes (d.mem.peek off 32)).reducedAt step = true

section
variable {d e : Dp} {c : Ctx} {n : GraphNode} {step : BitVec 32} {oa ob ot : Nat}

theorem RecordReady.counted {o : NodeOperand} (h : RecordReady d c step o oa) (he : d.Counted e) : RecordReady e c step o oa where
  place := he.coord ▸ h.place
  range := (he.rangeStatus ..).trans h.range
  flags := by
    rw [he.peek]
    exact h.flags
  reduced := by
    rw [he.peek]
    exact h.reduced

theorem RecordReady.taken {o : NodeOperand} (h : RecordReady d c step o oa) (hd : d.Clean) (hp : c.env.path = []) :
    (takeCensus c o.census).Gives d (Census.ofBytes (d.mem.peek oa 32)) := takeCensus_gives hd hp h.place h.range h.flags

/-- ETOP of a node from the records of its operands at `oa` and `ob` (R93). -/
def recordsEtop (d : Dp) (n : GraphNode) (oa ob : Nat) : Int :=
  nodeEtop n (censusM n.a (Census.ofBytes (d.mem.peek oa 32))) (censusM n.b (Census.ofBytes (d.mem.peek ob 32)))

/-- The table that a completed step writes for a node (R101). -/
def carriedBytes (n : GraphNode) (step : BitVec 32) (et : Int) : List Byte :=
  tableBytes n (step + 1) n.wire.toNat 0 2 0 et (List.replicate n.entries.toNat (nodeAnchor n et 0 n.wire.toNat))

theorem carriedBytes_length (n : GraphNode) (step : BitVec 32) (et : Int) : (carriedBytes n step et).length = tableSize n.entries.toNat := by
  rw [carriedBytes, tableBytes_length, List.length_replicate]

/-- With both records ready the table is written with the exponent and L of the two (R93, R96, R101). -/
theorem carryTable_writes (hd : d.Clean) (hp : c.env.path = []) (ha : RecordReady d c step n.a oa) (hb : RecordReady d c step n.b ob)
    (ht : resolve d.coord n.table = some (.here 2 ot)) (hst : rangeStatus d c 2 ot (tableSize n.entries.toNat) true = .ok) :
    ∃ e x, d.Wrote ot (carriedBytes n step (recordsEtop d n oa ob)) e ∧ (carryTable c n step).exec d = (e, .ok x) := by
  obtain ⟨x, hx, taken⟩ := ha.taken hd hp
  obtain ⟨y, hxy, taken'⟩ := (hb.counted hx).taken (hx.clean hd) hp
  rw [hx.peek] at taken'
  have hy := hx.trans hxy
  have range : rangeStatus y c 2 ot (carriedBytes n step (recordsEtop d n oa ob)).length true = .ok := by
    rw [carriedBytes_length, hy.rangeStatus]
    exact hst
  obtain ⟨e, wrote, written⟩ := writeAt_wrote (hy.clean hd) hp (hy.coord ▸ ht) range
  have whole := Bool.and_eq_true_iff.2 ⟨Census.wholeAt_of_reducedAt ha.reduced n.a.distributed, Census.wholeAt_of_reducedAt hb.reduced n.b.distributed⟩
  rw [carryTable, Op.exec_bind taken, Op.exec_bind taken', if_pos whole]
  exact ⟨e, _, wrote.after hy, Op.exec_bind written _⟩

/-- The one reducible node of a job has its table written. -/
theorem carryTables_one (hn : n.reducible = true) {x : Option StepAnchor} (h : (carryTable c n step).exec d = (e, .ok x)) :
    ∃ l, (carryTables c step [n]).exec d = (e, .ok l) := by
  rw [carryTables, if_pos hn, Op.exec_bind (Op.exec_tryCatch h _)]
  exact ⟨_, rfl⟩
end

/-! STEP_COMPLETION -/

section
variable {s : State} {k : Nat} {step : BitVec 64} {env : Env}

theorem exec_stepCompletion (p : Part) (step : BitVec 64) (env : Env) (s : State) :
    exec (.stepCompletion p step env) s = .next (s.stepCompletion p step env) := rfl

/-- The tables of a step are written again, and nothing but the data plane changes. -/
theorem State.restoreTables_rest (s : State) (k step : Nat) (p : GraphNode → Bool) :
    s.restoreTables k step p = { s with dp := (s.restoreTables k step p).dp } := by
  unfold State.restoreTables
  generalize (s.job k).nodes = l
  suffices h : ∀ t : State, t = { s with dp := t.dp } → ∀ f : State → GraphNode → State, (∀ t n, f t n = { t with dp := (f t n).dp }) →
      l.foldl f t = { s with dp := (l.foldl f t).dp } from by
    refine h s rfl _ fun t n => ?_
    split <;> rfl
  intro t ht f hf
  induction l generalizing t with
  | nil => exact ht
  | cons n r ih => exact ih (f t n) (onlyDp_trans ht (hf t n))

theorem State.stepCompletion_unused (h : (s.job k).used = false) : s.stepCompletion k step env = s := by
  rw [State.stepCompletion, h]
  rfl

/-- A step that the log holds: its anchors are taken from there (R102). -/
theorem State.stepCompletion_logged {rec : StepRec} (h : (s.job k).used = true) (hr : (s.job k).recOf (step.toNat + 1) = some rec) :
    ∃ d, s.stepCompletion k step env = (({ s with dp := d } : State).updJob k fun j => { j with anchors := rec.anchors }).updJob k
      fun j => { j with step := step + 1 } := by
  have rest := State.restoreTables_rest (s.updJob k fun j => { j with anchors := rec.anchors }) k (step.toNat + 1) fun n => n.reducible
  rw [State.stepCompletion, h]
  dsimp only
  rw [hr]
  exact ⟨_, congrArg (fun t : State => t.updJob k fun j => { j with step := step + 1 }) rest⟩

/-- A step that it does not hold: its anchors are computed. -/
theorem State.stepCompletion_computed {d : Dp} {l : List StepAnchor} (h : (s.job k).used = true) (hr : (s.job k).recOf (step.toNat + 1) = none)
    (hc : (carryTables (s.ctx env .ovind) (step.setWidth 32) (s.job k).nodes).exec (s.dp.upsets env.upsets) = (d, .ok l)) :
    s.stepCompletion k step env = (({ s with dp := d } : State).updJob k fun j => { j with anchors := l }).updJob k fun j => { j with step := step + 1 } := by
  rw [State.stepCompletion, h]
  dsimp only
  rw [hr]
  dsimp only
  rw [State.runOp, hc]
  rfl

/-- What either leaves: the partition's job counts the step and has the anchors; other jobs stand. -/
theorem State.stepped (s : State) (d : Dp) (k : Nat) (step : BitVec 64) (l : List StepAnchor) {t : State}
    (ht : t = (({ s with dp := d } : State).updJob k fun j => { j with anchors := l }).updJob k fun j => { j with step := step + 1 }) :
    t.job k = { s.job k with anchors := l, step := step + 1 } ∧ (∀ j, j ≠ k → t.job j = s.job j) ∧ t = { s with dp := t.dp, jobs := t.jobs } ∧ t.dp = d := by
  subst ht
  refine ⟨?_, fun j hj => ?_, rfl, rfl⟩
  · rw [State.updJob_job, State.updJob_job]
    rfl
  · rw [State.updJob_job_ne _ _ hj, State.updJob_job_ne _ _ hj]
    rfl
end

end Sys2Proof.Machine

/-! SUPPORT. The layer guard's decision (03 R117 to R121). -/
namespace Sys2Proof.Machine

/-! ### What the guard's operations send -/

theorem grows_mendTd (j : Job) (c : Ctx) (a : Addr) (d : Dp) : Op.Moves Dp.Grows (j.mendTd c a) d := by
  have C := Dp.grows_course
  refine Op.moves_bind C (Op.moves_tryCatch C (Op.moves_bind C (grows_readAt ..) fun _ e => Op.moves_pure C _ e) fun _ e => Op.moves_pure C _ e)
    fun readable e => Op.moves_ite (fun _ => Op.moves_pure C ..) fun _ => ?_
  split
  · exact grows_writeAt ..
  · exact Op.moves_pure C ..

theorem grows_resetRecord (j : Job) (c : Ctx) (n : GraphNode) (fmt : Nat) (step : BitVec 32) (d : Dp) :
    Op.Moves Dp.Grows (j.resetRecord c n fmt step) d := by
  have C := Dp.grows_course
  have rewritten (t : List Byte → Census) (d : Dp) : Op.Moves Dp.Grows (do
      let l ← tryCatch (readAt c n.census 32) fun _ => pure []
      writeAt c n.census (t l).bytes) d :=
    Op.moves_bind C (Op.moves_tryCatch C (grows_readAt ..) fun _ e => Op.moves_pure C _ e) fun _ e => grows_writeAt _ _ _ e
  unfold Job.resetRecord
  dsimp only
  split
  · refine Op.moves_bind C (grows_mendTd ..) fun _ e => ?_
    exact rewritten _ e
  · exact rewritten _ d

theorem grows_operandM (j : Job) (c : Ctx) (o : NodeOperand) (step : BitVec 32) (d : Dp) : Op.Moves Dp.Grows (j.operandM c o step) d := by
  have C := Dp.grows_course
  unfold Job.operandM
  split
  · exact Op.moves_pure C ..
  · dsimp only
    split
    · exact Op.moves_bind C (grows_takeCensus ..) fun _ e => Op.moves_pure C _ e
    · exact Op.moves_bind C (Op.moves_pure C ..) fun _ e => Op.moves_pure C _ e
  · refine Op.moves_bind C (grows_takeCensus ..) fun r e => ?_
    exact Op.moves_ite (fun _ => Op.moves_bind C (Op.moves_failOp C ..) fun _ e => Op.moves_pure C _ e) fun _ => Op.moves_pure C ..

theorem grows_refreshed (o : NodeOperand) (c : Ctx) (step : BitVec 32) (d : Dp) : Op.Moves Dp.Grows (refreshed o c step) d :=
  Op.moves_bind Dp.grows_course (grows_takeCensus ..) fun _ e => Op.moves_pure Dp.grows_course _ e

theorem grows_levelAnchor (j : Job) (c : Ctx) (n : GraphNode) (step level : Nat) (d : Dp) : Op.Moves Dp.Grows (j.levelAnchor c n step level) d := by
  have C := Dp.grows_course
  refine Op.moves_ite (fun _ => ?_) fun _ => Op.moves_ite (fun _ => Op.moves_pure C ..) fun _ => ?_
  · exact Op.moves_bind C (grows_refreshed ..) fun _ e => Op.moves_bind C (grows_refreshed _ _ _ e) fun _ e => Op.moves_pure C _ e
  · exact Op.moves_bind C (grows_operandM ..) fun _ e => Op.moves_bind C (grows_operandM _ _ _ _ e) fun _ e => Op.moves_pure C _ e

theorem grows_putTable (j : Job) (c : Ctx) (n : GraphNode) (step level : Nat) (d : Dp) : Op.Moves Dp.Grows (j.putTable c n step level) d := by
  have C := Dp.grows_course
  refine Op.moves_ite (fun _ => Op.moves_pure C ..) fun _ => Op.moves_bind C (grows_levelAnchor ..) fun x e => ?_
  cases x with
  | some y => exact Op.moves_bind C (grows_writeAt ..) fun _ e => Op.moves_pure C _ e
  | none => exact Op.moves_pure C ..

theorem grows_selectOut (n : GraphNode) (c : Ctx) (fmt : Nat) (d : Dp) : Op.Moves Dp.Grows (selectOut n c fmt) d := by
  unfold selectOut
  split
  · exact Op.moves_forM Dp.grows_course (fun a e => grows_writeAt _ _ _ e) _ d
  · exact Op.moves_pure Dp.grows_course ..

/-! ### Guards -/

section
variable {s : State}

theorem State.guard_updGuard (s : State) (k : Nat) (step node : BitVec 32) (f : Guard → Guard) :
    (s.updGuard k step node f).guard k step node = f (s.guard k step node) := by
  rw [State.guard, State.updGuard, State.updJob_job]
  exact Sparse.get_upd_self ..

/-- A guard is part of the job. -/
theorem State.guard_of_job {s t : State} (h : (t.job k).guards = (s.job k).guards) (step node : BitVec 32) : t.guard k step node = s.guard k step node := by
  rw [State.guard, h, State.guard]

theorem State.jobStatus_status (s : State) (k : Nat) (st : BitVec 16) : ((s.jobStatus k st).job k).status = st := by
  unfold State.jobStatus
  split
  · assumption
  · show ((s.updJob k fun j => { j with status := st }).job k).status = st
    rw [State.updJob_job]

theorem State.jobStatus_guards (s : State) (k : Nat) (st : BitVec 16) : ((s.jobStatus k st).job k).guards = (s.job k).guards := by
  unfold State.jobStatus
  split
  · rfl
  · show ((s.updJob k fun j => { j with status := st }).job k).guards = _
    rw [State.updJob_job]

theorem State.jobStatus_quiet (s : State) (k : Nat) (st : BitVec 16) : s.dp.Quiet (s.jobStatus k st).dp := by
  unfold State.jobStatus
  split
  · exact .refl _
  · exact Dp.quiet_raiseBoth ..

/-- The REPORT of an epoch that a guard raises (10 R362, R364). -/
def State.guardReport (s : State) (k : Nat) (e : BitVec 8) (st : Status) : SmudgeMsg :=
  let ent := (s.dp.wetPart k).ent e.toNat
  { job := (s.job k).id, phase := 1, step := ent.step, epoch := e, attempt := ent.attempt, cause := 5, status := st.toCode }

/-- A run on the data plane after the surroundings' errors have come up. -/
theorem State.runOp_grows {α : Type} (s : State) (env : Env) {m : Op α} (h : ∀ d, Op.Moves Dp.Grows m d) : s.dp.Grows (s.runOp env m).1.dp := by
  have run : (s.dp.upsets env.upsets).Grows (s.runOp env m).1.dp := h _
  exact run.of_eq rfl rfl

theorem takeCensus_coord {c : Ctx} {a : Addr} {d e : Dp} {r : Census} (h : (takeCensus c a).exec d = (e, .ok r)) : e.coord = d.coord := by
  have grown := grows_takeCensus c a d
  unfold Op.Moves at grown
  rw [h] at grown
  exact grown.coord

theorem State.managerOf_of_coord {d : Dp} (h : d.coord = s.dp.coord) (l : Nat) : ({ s with dp := d } : State).managerOf l = s.managerOf l := by
  unfold State.managerOf
  dsimp only
  rw [h]

/-- The layer is repeated under the guard as it now stands. -/
theorem State.guardRepeat_guard {k : Nat} {tag : Tag} {step : Nat} {n : GraphNode} {g : Guard} {cause : Nat} {st : Status} (hc : g.clear = false) :
    (s.guardRepeat k tag step n g cause st).guard k tag.step n.node = { g with range := false, reduced := none } := by
  refine (State.guard_updGuard ..).trans ?_
  rw [← hc]

section
variable (s : State) (k : Nat) (tag : Tag) (step : Nat) (n : GraphNode) (g : Guard) (cause : Nat) (st : Status)

/-- Its epoch is reported with the cause GUARD to the hedge manager (R118). -/
theorem State.guardRepeat_reports : OutMsg.quickset (.up (s.managerOf 0)) 0x12 (smudgeBytes (s.guardReport k tag.epoch st)) ∈
    (s.guardRepeat k tag step n g cause st).dp.out := by
  have C := Dp.grows_course
  have reported : OutMsg.quickset (.up (s.managerOf 0)) 0x12 (smudgeBytes (s.guardReport k tag.epoch st)) ∈
      (s.report k tag.epoch causeGuard st.toCode none).dp.out := List.mem_append_right _ (List.mem_singleton_self _)
  have repeated (j : Job) (c : Ctx) (d : Dp) : Op.Moves Dp.Grows (do
      j.resetRecord c n g.fmt tag.step
      if cause = 1 then j.putTable c n step g.level else do selectOut n c g.fmt; pure true) d :=
    Op.moves_bind C (grows_resetRecord ..) fun _ e => Op.moves_ite (fun _ => grows_putTable ..) fun _ =>
      Op.moves_bind C (grows_selectOut ..) fun _ e => Op.moves_pure C _ e
  have run : (s.report k tag.epoch causeGuard st.toCode none).dp.Grows (s.guardRepeat k tag step n g cause st).dp :=
    C.trans (State.runOp_grows _ {} (repeated _ _)) (Dp.grows_record ..)
  exact run.out.subset reported
end

theorem State.guardClear_guard (s : State) (k : Nat) (tag : Tag) (n : GraphNode) :
    (s.guardClear k tag n).guard k tag.step n.node = { s.guard k tag.step n.node with clear := true } :=
  State.guard_updGuard s k tag.step n.node _

/-- The epoch waits for one guard less. -/
theorem State.guardClear_waits (s : State) (k : Nat) (tag : Tag) (n : GraphNode) : (((s.guardClear k tag n).dp.wetPart k).inf tag.epoch.toNat).guards =
    ((s.dp.wetPart k).inf tag.epoch.toNat).guards - 1 := by
  show (((s.dp.updWet k fun w => w.updInf tag.epoch.toNat fun i => { i with guards := i.guards - 1 }).wetPart k).inf tag.epoch.toNat).guards = _
  rw [Dp.wetPart, Dp.updWet, Sparse.get_upd_self, WetPart.inf, WetPart.updInf, Sparse.get_upd_self]
  rfl

/-- Past the last format step the node is clear and its job has the status (R119). -/
def State.guardGiveUp (s : State) (k : Nat) (tag : Tag) (n : GraphNode) (st : Status) : State :=
  ((s.guardRecord k tag.step n.node 2 (s.guard k tag.step n.node) st).guardClear k tag n).jobStatus k st.toCode

section
variable (s : State) (k : Nat) (tag : Tag) (n : GraphNode) (st : Status)

theorem State.guardGiveUp_status : ((s.guardGiveUp k tag n st).job k).status = st.toCode := State.jobStatus_status ..

theorem State.guardGiveUp_guard : (s.guardGiveUp k tag n st).guard k tag.step n.node = { s.guard k tag.step n.node with clear := true } :=
  (State.guard_of_job (State.jobStatus_guards ..) ..).trans (State.guardClear_guard ..)

theorem State.guardGiveUp_waits : (((s.guardGiveUp k tag n st).dp.wetPart k).inf tag.epoch.toNat).guards =
    ((s.dp.wetPart k).inf tag.epoch.toNat).guards - 1 := by
  have cleared := State.guardClear_waits (s.guardRecord k tag.step n.node 2 (s.guard k tag.step n.node) st) k tag n
  have recorded : (s.guardRecord k tag.step n.node 2 (s.guard k tag.step n.node) st).dp.wet = s.dp.wet := Dp.record_wet ..
  rw [Dp.wetPart, Dp.wetPart, recorded] at cleared
  rw [Dp.wetPart, State.guardGiveUp, (State.jobStatus_quiet ..).wet]
  exact cleared

theorem State.guardGiveUp_mem : (s.guardGiveUp k tag n st).dp.mem = s.dp.mem :=
  (State.jobStatus_quiet ..).mem.trans (Dp.record_mem ..)
end

/-! ### The decision -/

section
variable {s : State} {p : Part} {tag : Tag} {node : BitVec 32} {range : Bool} {env : Env}

theorem exec_layerGuardDecision_none (h : ((s.job p).nodes.find? fun m => m.node == node && m.guarded) = none) :
    exec (.layerGuardDecision p tag node range env) s = .next s := by
  show execLayerGuardDecision p tag node range env s = _
  rw [execLayerGuardDecision, h]

theorem exec_layerGuardDecision_some {n : GraphNode} (h : ((s.job p).nodes.find? fun m => m.node == node && m.guarded) = some n) :
    exec (.layerGuardDecision p tag node range env) s = .next (s.guardDecision p tag n range env) := by
  show execLayerGuardDecision p tag node range env s = _
  rw [execLayerGuardDecision, h]
end

/-- RANGE of the node as far as it is known (R117): of a distributed node once its census is reduced. -/
def State.guardFlag (s : State) (k : Nat) (tag : Tag) (n : GraphNode) (range : Bool) : Option Bool :=
  if n.distributed then (s.guard k tag.step n.node).reduced else some ((s.guard k tag.step n.node).range || range)

/-- The step of an epoch of the partition. -/
def State.guardStep (s : State) (k : Nat) (tag : Tag) : Nat := ((s.dp.wetPart k).inf tag.epoch.toNat).index.toNat / s.epochsPerStep k

/-- The time of the decision: the node's epoch is closed with nothing running, and the node not yet clear (R117). -/
structure State.GuardDue (s : State) (k : Nat) (tag : Tag) (n : GraphNode) : Prop where
  step   : ((s.dp.wetPart k).ent tag.epoch.toNat).step = tag.step
  closed : ((s.dp.wetPart k).inf tag.epoch.toNat).fine = .closed
  idle   : ((s.dp.wetPart k).inf tag.epoch.toNat).running = 0
  wanted : (s.guard k tag.step n.node).clear = false
  epoch  : n.epoch = ((s.dp.wetPart k).inf tag.epoch.toNat).index.toNat % s.epochsPerStep k

section
variable {s : State} {k : Nat} {tag : Tag} {n : GraphNode} {range : Bool} {env : Env}

/-- The condition under which the model leaves the decision is that its time has not come. -/
theorem State.not_guardDue_iff : ((s.dp.wetPart k).ent tag.epoch.toNat).step ≠ tag.step ∨ ((s.dp.wetPart k).inf tag.epoch.toNat).fine ≠ .closed ∨
    ((s.dp.wetPart k).inf tag.epoch.toNat).running ≠ 0 ∨ (s.guard k tag.step n.node).clear = true ∨
    n.epoch ≠ ((s.dp.wetPart k).inf tag.epoch.toNat).index.toNat % s.epochsPerStep k ↔ ¬ s.GuardDue k tag n := by
  have due : s.GuardDue k tag n ↔ ((s.dp.wetPart k).ent tag.epoch.toNat).step = tag.step ∧ ((s.dp.wetPart k).inf tag.epoch.toNat).fine = .closed ∧
      ((s.dp.wetPart k).inf tag.epoch.toNat).running = 0 ∧ (s.guard k tag.step n.node).clear = false ∧
      n.epoch = ((s.dp.wetPart k).inf tag.epoch.toNat).index.toNat % s.epochsPerStep k :=
    ⟨fun ⟨h1, h2, h3, h4, h5⟩ => ⟨h1, h2, h3, h4, h5⟩, fun ⟨h1, h2, h3, h4, h5⟩ => ⟨h1, h2, h3, h4, h5⟩⟩
  simp only [due, ne_eq, Classical.not_and_iff_not_or_not, Bool.not_eq_false]

theorem State.guardDecision_early (h : ¬ s.GuardDue k tag n) : s.guardDecision k tag n range env = s := if_pos (State.not_guardDue_iff.2 h)

theorem State.guardDecision_unreduced (h : s.guardFlag k tag n range = none) : s.guardDecision k tag n range env = s := by
  unfold State.guardFlag at h
  unfold State.guardDecision
  dsimp only
  rw [h]
  exact ite_self _

variable (due : s.GuardDue k tag n)
include due

section
variable (h : s.guardFlag k tag n range = some true)
include h

/-- RANGE is set below level 3 and the sources of the next level are there: the layer is repeated at that level (R118). -/
theorem State.GuardDue.raises (hl : (s.guard k tag.step n.node).level < 3)
    (hm : s.mayRaise k (s.guardStep k tag) n (nextLevel n (s.guard k tag.step n.node).level) = true) : s.guardDecision k tag n range env =
    s.guardRepeat k tag (s.guardStep k tag) n { s.guard k tag.step n.node with level := nextLevel n (s.guard k tag.step n.node).level } 1 .rangeViolation := by
  have early := mt State.not_guardDue_iff.1 (not_not_intro due)
  have free : ¬ (3 ≤ (s.guard k tag.step n.node).level ∨
      (!s.mayRaise k (s.guardStep k tag) n (nextLevel n (s.guard k tag.step n.node).level)) = true) := by
    rw [hm]
    exact fun k => k.elim (Nat.not_le.2 hl) Bool.false_ne_true
  unfold State.guardFlag at h
  unfold State.guardDecision
  dsimp only
  rw [if_neg early, h]
  exact if_neg free

/-- RANGE is set at level 3, or the sources of the next level are not there. -/
theorem State.GuardDue.stays (hs : 3 ≤ (s.guard k tag.step n.node).level ∨
    s.mayRaise k (s.guardStep k tag) n (nextLevel n (s.guard k tag.step n.node).level) = false) : s.guardDecision k tag n range env = s := by
  have early := mt State.not_guardDue_iff.1 (not_not_intro due)
  have stuck : 3 ≤ (s.guard k tag.step n.node).level ∨
      (!s.mayRaise k (s.guardStep k tag) n (nextLevel n (s.guard k tag.step n.node).level)) = true := hs.imp_right fun k => by rw [k]; rfl
  unfold State.guardFlag at h
  unfold State.guardDecision
  dsimp only
  rw [if_neg early, h]
  exact if_pos stuck
end

/-- RANGE is not set: what the reduced census says of the values. -/
theorem State.GuardDue.of_values {d : Dp} {r : Census} (h : s.guardFlag k tag n range = some false)
    (taken : (takeCensus (s.ctx env .ovind) n.census).exec (s.dp.upsets env.upsets) = (d, .ok r)) (whole : r.wholeAt n.distributed tag.step = true) :
    s.guardDecision k tag n range env =
      let g := s.guard k tag.step n.node
      let t : State := { s with dp := d }
      if n.nfLimit.toNat < r.nonfin ∨ n.satLimit.toNat < r.sats then
        if g.fmt + 1 < n.formats.length then t.guardRepeat k tag (s.guardStep k tag) n { g with fmt := g.fmt + 1 } 2 .nonfinite
        else t.guardGiveUp k tag n .nonfinite
      else t.guardClear k tag n := by
  have early := mt State.not_guardDue_iff.1 (not_not_intro due)
  unfold State.guardFlag at h
  unfold State.guardDecision
  dsimp only
  rw [if_neg early, h, State.runOp, taken]
  dsimp only
  rw [whole]
  rfl
end

end

/-- Settles O11: a part by `PartChecked.serves` and `partSidecar_writes`, a completed step by its equations and the tables of `carryTables_sure` and
`carryTable_writes`, the decision by `GuardDue.raises`, `GuardDue.stays` and `GuardDue.of_values`. -/
theorem guardsDecideAndTilesGatherTheirParts : Obligations.GuardsDecideAndTilesGatherTheirParts := by
  intro s q td tile pc env off oa ob ot d e d' x sc last bad p step tag n g r range w k flag
  refine ⟨?part, ?cleanPart, ?unused, ?computed, ?logged, ?oneNode, ?noNode, ?guard⟩
  case part =>
    intro served place aligned fetched side inside oneType hrange
    have checked : s.PartChecked q td tile.toNat env off d x := ⟨served, place, aligned, fetched, side, inside, oneType, hrange⟩
    refine ⟨fun z run => ?_, fun f run => ?_⟩
    · rw [exec_sidecarPart, checked.serves run, outcomeStatus]
    · rw [exec_sidecarPart, checked.serves run, outcomeStatus]
  case cleanPart =>
    intro own place aligned fetched side inside oneType hwrite hread herrs hunread hstep hend
    obtain ⟨e, done, wrote⟩ := State.sidecarPart_clean (p := pc) own place aligned ⟨herrs, hunread⟩ fetched side inside oneType hwrite hread hstep hend
    have size := sc.bytes_length
    rw [exec_sidecarPart, done]
    refine ⟨_, rfl, ⟨e.out, rfl⟩, ?_, fun a ha => wrote.byte (size.symm ▸ ha), ?_⟩
    · rw [← size]
      exact wrote.peek
    · exact congrArg (fun y : Dp => ({ s with dp := y } : State).send (.answer (if bad then .checkTile else .ok) 0)) wrote.rest
  case unused =>
    intro h
    rw [exec_stepCompletion, State.stepCompletion_unused h]
  case computed =>
    intro used unlogged
    obtain ⟨d, l, run, anchors⟩ := carryTables_sure (s.ctx env .ovind) (step.setWidth 32) (s.job p).nodes (s.dp.upsets env.upsets)
    obtain ⟨job, others, rest, plane⟩ := s.stepped d p step l rfl
    rw [exec_stepCompletion, State.stepCompletion_computed used unlogged run]
    refine ⟨_, l, rfl, ?_, job, others, rest, anchors⟩
    rw [plane]
    exact run
  case logged =>
    intro rec used found
    obtain ⟨d, done⟩ := State.stepCompletion_logged used found
    obtain ⟨job, others, rest, -⟩ := s.stepped d p step rec.anchors rfl
    rw [exec_stepCompletion, done]
    exact ⟨_, rfl, job, others, rest⟩
  case oneNode =>
    intro used unlogged nodes reducible placeA placeB placeT readA readB writeT herrs hunread flagsA flagsB _ reducedA reducedB
    obtain ⟨d, y, wrote, table⟩ := carryTable_writes (c := s.ctx {} .ovind) ⟨herrs, hunread⟩ rfl ⟨placeA, readA, flagsA, reducedA⟩
      ⟨placeB, readB, flagsB, reducedB⟩ placeT writeT
    obtain ⟨l, run⟩ := carryTables_one reducible table
    rw [← nodes] at run
    obtain ⟨-, -, -, plane⟩ := s.stepped d p step l rfl
    have size := carriedBytes_length n (step.setWidth 32) (recordsEtop s.dp n oa ob)
    rw [exec_stepCompletion, State.stepCompletion_computed (env := {}) used unlogged run]
    refine ⟨_, _, _, rfl, rfl, rfl, ?_, fun a ha => ?_⟩
    · rw [plane, ← size]
      exact wrote.peek
    · rw [plane]
      exact wrote.byte (size.symm ▸ ha)
  case noNode => exact exec_layerGuardDecision_none
  case guard =>
    intro found hg hw hk hflag
    subst hg hw hk hflag
    rw [exec_layerGuardDecision_some found]
    refine ⟨?early, fun hstep hclosed hidle hwanted hepoch => ?due⟩
    case early =>
      rintro (h | h | h | h | h | h)
      · rw [State.guardDecision_early fun due => h due.step]
      · rw [State.guardDecision_early fun due => h due.closed]
      · rw [State.guardDecision_early fun due => h due.idle]
      · rw [State.guardDecision_early fun due => Bool.false_ne_true (due.wanted.symm.trans h)]
      · rw [State.guardDecision_early fun due => h due.epoch]
      · rw [State.guardDecision_unreduced h]
    have due : s.GuardDue p tag n := ⟨hstep, hclosed, hidle, hwanted, hepoch⟩
    refine ⟨fun hset hlevel hmay => ?raised, fun hset hstuck => ?stuck, fun hclear taken whole => ?values⟩
    case raised =>
      rw [due.raises hset hlevel hmay]
      exact ⟨_, rfl, State.guardRepeat_guard hwanted, _, rfl, rfl, rfl, rfl, State.guardRepeat_reports ..⟩
    case stuck => rw [due.stays hset hstuck]
    case values =>
      rw [due.of_values hclear taken whole]
      have coord : d'.coord = (s.dp.upsets env.upsets).coord := takeCensus_coord taken
      refine ⟨fun hpast hleft => ?_, fun hpast hnone => ?_, fun hnf hsat => ?_⟩
      · rw [if_pos hpast, if_pos hleft, ← State.managerOf_of_coord coord]
        exact ⟨_, rfl, State.guardRepeat_guard hwanted, _, rfl, rfl, rfl, rfl, State.guardRepeat_reports ..⟩
      · rw [if_pos hpast, if_neg (Nat.not_lt.2 hnone)]
        exact ⟨_, rfl, State.guardGiveUp_status .., State.guardGiveUp_guard .., State.guardGiveUp_waits .., State.guardGiveUp_mem ..⟩
      · rw [if_neg (not_or.2 ⟨Nat.not_lt.2 hnf, Nat.not_lt.2 hsat⟩)]
        exact ⟨_, rfl, State.guardClear_guard .., State.guardClear_waits .., rfl, rfl, rfl⟩

end Sys2Proof.Machine

/-! SUPPORT. What the operations of the matrix array answer and what an easel's run leaves (03 R89; 04 R126, R127, R130 to R133, R148, R158, R160). -/
namespace Sys2Proof.Machine

/-! ### Results of operations -/

section
variable {α β : Type} {P : α → Prop} {Q : β → Prop}

theorem Op.Answers.bind {m : Op α} {k : α → Op β} (h : m.Answers P) (hk : ∀ a, P a → (k a).Answers Q) : (m >>= k).Answers Q := by
  intro d e b hb
  match hm : m.exec d with
  | (e', .ok a) => exact hk a (h d e' a hm) e' e b ((Op.exec_bind hm k).symm.trans hb)
  | (e', .error f) =>
    rw [Op.exec_bind_error hm] at hb
    cases hb

theorem Op.answers_ite {p : Prop} [Decidable p] {m k : Op α} (h : p → m.Answers P) (hk : ¬ p → k.Answers P) : (if p then m else k).Answers P := by
  split
  · exact h ‹_›
  · exact hk ‹_›

theorem Op.answers_failOp (st : Status) (x : Addr) (obj off : Nat) : Op.Answers P (failOp st x obj off) := by
  intro d e a h
  have fails : (failOp st x obj off : Op α).exec d = (d, .error { st, addr := x, obj, off }) := rfl
  rw [fails] at h
  cases h

/-- A check: what fails it has no result. -/
theorem Op.answers_check {p : Prop} [Decidable p] {st : Status} {x : Addr} {obj off : Nat} {m : Op α} (h : m.Answers P) :
    (if p then failOp st x obj off else m).Answers P := Op.answers_ite (fun _ => Op.answers_failOp _ _ _ _) fun _ => h

theorem Op.failOp_bind (st : Status) (x : Addr) (obj off : Nat) (k : α → Op β) : (failOp st x obj off >>= k) = failOp st x obj off := rfl

theorem Op.Answers.attempt {m : Op α} (h : m.Answers P) : (Machine.attempt m).Answers fun y => ∀ a, y = .ok a → P a := by
  intro d e y hy
  match hm : m.exec d with
  | (e', .ok a) =>
    have run := Op.exec_tryCatch (Op.exec_bind hm fun a => pure (Except.ok (ε := Fail) a)) fun f => pure (.error f)
    cases run.symm.trans hy
    rintro _ ⟨⟩
    exact h d _ a hm
  | (e', .error f) =>
    have run := Op.exec_tryCatch_error (Op.exec_bind_error hm fun a => pure (Except.ok (ε := Fail) a)) fun f => pure (.error f)
    cases run.symm.trans hy
    exact nofun
end

/-! ### Terms (03 R89) -/

/-- The mode of sums takes a block's one term: below the limit the LACC has it exactly, with no violation. -/
theorem dpuBlock_sum {l bound x v : Int} {a b : List Num} (h : termOf l (l + bound) (Num.sum ((a.zip b).map fun y => y.1.mul y.2)) = (.fin v, false))
    (hx : (x + v).natAbs < 2 ^ 254) : dpuBlock 0 l bound [a] [b] (some (.fin x)) = (some (.fin (x + v)), 0) := by
  have pass : passTerms 0 l bound a b = [(.fin v, false)] := congrArg ([·]) h
  have sum : laccAdd 0 (some (.fin x)) (.fin v) = (some (.fin (x + v)), false) := by
    have exact : Acc.combine 256 (.fin x) (.fin v) = (.fin (x + v), false) := if_pos hx
    rw [laccAdd, if_neg (by decide)]
    exact congrArg (fun r : Acc × Bool => (some r.1, r.2)) exact
  rw [dpuBlock, List.flatMap_singleton, List.flatMap_singleton, pass, List.foldl_cons, List.foldl_nil, sum]
  rfl

/-! ### The run's operations -/

/-- What checks with rows and columns left have settled (R158, R159). -/
structure AD.Planned (a : AD) (r : ArrayRun) : Prop where
  rows     : r.rows ≤ a.rows
  height   : r.rows ≤ 64
  clipRows : r.clipRows = a.rows - r.rows
  clipCols : r.clipCols = a.cols - r.cols
  unloaded : r.loaded = false

theorem AD.planOf_answers (a : AD) (c : Ctx) (desc : Addr) (tds : List TD) : (a.planOf c desc tds).Answers a.Planned := by
  have planned (rows k cols wire : Nat) (anchors : List Int) (etop bound : Int) (sr : Option SrCtx) (h : rows ≤ min a.rows 64) :
      a.Planned { rows, k, cols, clipRows := a.rows - rows, clipK := a.kn - k, clipCols := a.cols - cols, wire, anchors, etop, bound, sr } :=
    ⟨Nat.le_trans h (Nat.min_le_left ..), Nat.le_trans h (Nat.min_le_right ..), rfl, rfl, rfl⟩
  unfold AD.planOf
  -- a chain of checks, each of which ends the operation or goes on to the next
  simp only [Op.failOp_bind]
  iterate 10 refine Op.answers_check ?_
  split
  · exact Op.answers_failOp _ _ _ _
  iterate 3 refine Op.answers_check ?_
  refine Op.answers_bind fun d => Op.answers_check ?_
  split
  · exact Op.answers_failOp _ _ _ _
  refine Op.answers_ite (fun _ => ?anchored) fun _ => ?own
  all_goals
    refine Op.Answers.bind (P := a.Planned) ?_ fun run h => Op.answers_ite (fun _ => Op.answers_bind fun sr => Op.answers_pure { h with })
      fun _ => Op.answers_pure h
  case anchored =>
    exact Op.answers_bind fun t => Op.answers_check (Op.answers_check (Op.answers_check (Op.answers_pure (planned _ _ _ _ _ _ _ _ (Nat.min_le_left ..)))))
  case own => exact Op.answers_pure (planned _ _ _ _ _ _ _ _ (Nat.min_le_left ..))

theorem AD.plan_answers (a : AD) (c : Ctx) (desc : Addr) (tds : List TD) : (a.plan c desc tds).Answers fun r => r.rows ≠ 0 → a.Planned r := by
  refine Op.answers_ite (fun _ => Op.answers_pure fun h => absurd rfl h) fun _ => ?_
  exact fun d e r h _ => a.planOf_answers c desc tds d e r h

/-- Steps 2 to 5 of R158: the descriptors in order and the plan. -/
def AD.checked (a : AD) (c : Ctx) (desc : Addr) : Op (List TD × ArrayRun) := a.fetch c >>= fun l => a.plan c desc l >>= fun y => pure (l, y)

theorem AD.checked_answers (a : AD) (c : Ctx) (desc : Addr) : (a.checked c desc).Answers fun y => y.2.rows ≠ 0 → a.Planned y.2 :=
  Op.answers_bind fun l => (a.plan_answers c desc l).bind fun _ h => Op.answers_pure h

/-- The input stage holds one block per row and position (R132). -/
structure ArrayRun.StageFilled (r r' : ArrayRun) : Prop where
  loaded : r'.loaded = true
  height : r'.stage.length = r.rows
  width  : ∀ row ∈ r'.stage, row.length = r.k / 32

theorem AD.load_answers (a : AD) (c : Ctx) (t : TD) (r : ArrayRun) : (a.load c t r).Answers r.StageFilled := by
  refine Op.answers_bind fun x => Op.answers_pure ⟨rfl, by simp, fun row hrow => ?_⟩
  simp only [List.map_map, List.mem_map, List.mem_range, Function.comp] at hrow
  obtain ⟨n, -, rfl⟩ := hrow
  simp

/-- From `r` to `r'` no column group has ended: the columns, the number of the group in progress and the banks stand. -/
structure ArrayRun.SameGroup (r r' : ArrayRun) : Prop where
  cols  : r'.cols = r.cols
  group : r'.group = r.group
  bank  : r'.bank = r.bank
  full  : r'.full = r.full

theorem ArrayRun.SameGroup.refl (r : ArrayRun) : r.SameGroup r := ⟨rfl, rfl, rfl, rfl⟩
theorem ArrayRun.SameGroup.trans {x y z : ArrayRun} (h : x.SameGroup y) (k : y.SameGroup z) : x.SameGroup z :=
  ⟨k.cols.trans h.cols, k.group.trans h.group, k.bank.trans h.bank, k.full.trans h.full⟩
theorem ArrayRun.SameGroup.width {r r' : ArrayRun} (h : r.SameGroup r') : r'.width = r.width := by
  rw [ArrayRun.width, h.cols, h.group, ArrayRun.width]

/-- Nor has a broadcast been made. -/
structure ArrayRun.SameSlot (r r' : ArrayRun) : Prop where
  same : r.SameGroup r'
  slot : r'.slot = r.slot

section
variable (a : AD) (c : Ctx) (r : ArrayRun)

theorem AD.startGroup_answers (e : Nat) : (a.startGroup c e r).Answers r.SameSlot := by
  refine Op.answers_ite (fun _ => Op.answers_pure ⟨.refl r, rfl⟩) fun _ => Op.answers_ite (fun _ => Op.answers_pure ⟨⟨rfl, rfl, rfl, rfl⟩, rfl⟩) fun _ => ?_
  exact Op.answers_bind fun _ => Op.answers_pure ⟨⟨rfl, rfl, rfl, rfl⟩, rfl⟩

theorem ArrayRun.push_sameSlot (cap : Nat) (b : Nat × List Nat) : r.SameSlot (r.push cap b) := by
  unfold ArrayRun.push
  split
  · split <;> exact ⟨⟨rfl, rfl, rfl, rfl⟩, rfl⟩
  · exact ⟨⟨rfl, rfl, rfl, rfl⟩, rfl⟩

theorem ArrayRun.pop_sameGroup (cap : Nat) : r.SameGroup (r.pop cap).2 := by
  unfold ArrayRun.pop
  split <;> exact ⟨rfl, rfl, rfl, rfl⟩

theorem AD.stream_answers (w : TD) (limit fuel : Nat) : (a.stream c w limit fuel r).Answers r.SameSlot := by
  induction fuel generalizing r with
  | zero => exact Op.answers_pure ⟨.refl r, rfl⟩
  | succ fuel ih =>
    refine Op.answers_ite (fun _ => Op.answers_pure ⟨.refl r, rfl⟩) fun _ => Op.answers_bind fun y => ?_
    have pushed b := ({ r with verified := y.2 } : ArrayRun).push_sameSlot (halfBlocks w) b
    intro d e r' h
    obtain ⟨ahead, slot⟩ := ih _ d e r' h
    obtain ⟨⟨cols, group, bank, full⟩, same⟩ := pushed _
    exact ⟨.trans ⟨cols, group, bank, full⟩ ahead, slot.trans same⟩

/-- A broadcast that does not fail passes to the next slot; failed or not, the group stands (R127). -/
theorem AD.slotStep_answers (i w o : TD) (limit : Nat) :
    (a.slotStep c i w o limit r).Answers fun y => r.SameGroup y.1 ∧ (y.2 = none → y.1.slot = r.slot + 1) := by
  refine Op.answers_ite (fun _ => Op.answers_pure ⟨⟨rfl, rfl, rfl, rfl⟩, fun _ => rfl⟩) fun _ => (a.stream_answers c r w limit _).attempt.bind fun y hy => ?_
  cases y with
  | error f => exact Op.answers_pure ⟨.refl r, nofun⟩
  | ok r' =>
    obtain ⟨ahead, slot⟩ := hy r' rfl
    obtain ⟨cols, group, bank, full⟩ := ahead.trans (r'.pop_sameGroup (halfBlocks w))
    exact Op.answers_pure ⟨⟨cols, group, bank, full⟩, fun _ => congrArg (· + 1) slot⟩

theorem AD.slots_answers (i w o : TD) (limit n : Nat) :
    (a.slots c i w o limit r n).Answers fun y => r.SameGroup y.1 ∧ (y.2 = none → y.1.slot = r.slot + n) := by
  induction n generalizing r with
  | zero => exact Op.answers_pure ⟨.refl r, fun _ => rfl⟩
  | succ n ih =>
    refine (a.slotStep_answers c r i w o limit).bind fun y ⟨same, slot⟩ => Op.answers_ite (fun failed => Op.answers_pure ⟨same, fun h => ?_⟩) fun good => ?_
    · rw [h] at failed
      cases failed
    · intro d e z h
      obtain ⟨rest, last⟩ := ih y.1 d e z h
      refine ⟨same.trans rest, fun hz => ?_⟩
      rw [last hz, slot (Option.not_isSome_iff_eq_none.1 good)]
      omega

/-- Run up to slot `n`, without a failure that slot is the next (R127). -/
theorem AD.runTo_answers (e : Nat) (tds : List TD) (n limit : Nat) :
    (a.runTo c e tds r n limit).Answers fun y => r.SameGroup y.1 ∧ (y.2 = none → y.1.slot = r.slot + (n - r.slot)) := by
  refine (a.startGroup_answers c r e).attempt.bind fun y hy => ?_
  cases y with
  | error f => exact Op.answers_pure ⟨.refl r, nofun⟩
  | ok r' =>
    obtain ⟨same, slot⟩ := hy r' rfl
    intro d e z h
    obtain ⟨rest, last⟩ := a.slots_answers c r' _ _ _ limit (n - r'.slot) d e z h
    exact ⟨same.trans rest, fun hz => slot ▸ last hz⟩

/-- The group has ended: its columns are in the open bank, or they have filled it (R130). -/
structure ArrayRun.GroupEnded (r r' : ArrayRun) : Prop where
  group : r'.group = r.group + 1
  slot  : r'.slot = 0
  lacc  : r'.lacc = []
  banks : r'.full = r.full ∧ r'.bank.length = r.bank.length + r.width ∨
    r'.bank = [] ∧ ∃ b, r'.full = r.full ++ [b] ∧ b.length = r.bank.length + r.width

theorem ArrayRun.SameGroup.ended {r r' r'' : ArrayRun} (h : r.SameGroup r') (k : r'.GroupEnded r'') : r.GroupEnded r'' := by
  obtain ⟨group, slot, lacc, banks⟩ := k
  rw [h.full, h.bank, h.width] at banks
  exact ⟨h.group ▸ group, slot, lacc, banks⟩

theorem AD.stageGroup_answers (e : Nat) : (a.stageGroup c e r).Answers fun y => y.2 = none → r.GroupEnded y.1 := by
  refine Op.answers_bind fun saved => Op.answers_ite (fun failed => Op.answers_pure fun h => ?_) fun _ => Op.answers_pure fun _ => ?_
  · rw [h] at failed
    cases failed
  · dsimp only
    split
    · exact ⟨rfl, rfl, rfl, .inr ⟨rfl, _, rfl, by simp [ArrayRun.width]⟩⟩
    · exact ⟨rfl, rfl, rfl, .inl ⟨rfl, by simp [ArrayRun.width]⟩⟩

/-- The rest of a group's broadcasts, and its images to the bank. -/
def AD.endGroup (e : Nat) (tds : List TD) : Op (ArrayRun × Option Fail) := do
  let y ← a.runTo c e tds r (4 * (r.k / 32)) r.streamed
  if y.2.isSome then pure y else a.stageGroup c e y.1

theorem AD.endGroup_answers (e : Nat) (tds : List TD) : (a.endGroup c r e tds).Answers fun y => y.2 = none → r.GroupEnded y.1 := by
  refine (a.runTo_answers c r e tds _ _).bind fun y ⟨same, _⟩ => Op.answers_ite (fun failed => Op.answers_pure fun h => ?_) fun _ => ?_
  · rw [h] at failed
    cases failed
  · exact fun d f z h hz => same.ended (a.stageGroup_answers c y.1 e d f z h hz)

/-- A bank leaves, whatever comes of its write (R130, R148). -/
theorem AD.writeBank_answers (tds : List TD) : (a.writeBank c tds r).Answers fun y => y.1.banks = r.banks + 1 ∧ y.1.full = r.full.drop 1 := by
  refine Op.answers_ite (fun _ => Op.answers_pure ⟨rfl, rfl⟩) fun _ => Op.answers_bind fun y => Op.answers_ite (fun _ => Op.answers_pure ⟨rfl, rfl⟩) fun _ =>
    Op.answers_bind fun z => ?_
  cases z <;> exact Op.answers_pure ⟨rfl, rfl⟩

/-- A saving operation writes no bank (R142). -/
theorem AD.writeBank_saves {tds : List TD} (h : a.saves = true) (d : Dp) : ((a.writeBank c tds r).exec d).1 = d := by
  unfold AD.writeBank
  dsimp only
  rw [if_pos h]
  rfl
end

/-! ### What ends an operation leaves of the engines (R160; 06 R223) -/

/-- The queues' engines and the array runs stand. -/
structure State.SameEngines (s t : State) : Prop where
  eqs    : t.eqs = s.eqs
  arrays : t.arrays = s.arrays

theorem State.SameEngines.refl (s : State) : s.SameEngines s := ⟨rfl, rfl⟩
theorem State.SameEngines.trans {x y z : State} (h : x.SameEngines y) (k : y.SameEngines z) : x.SameEngines z :=
  ⟨k.eqs.trans h.eqs, k.arrays.trans h.arrays⟩
theorem State.SameEngines.eq {s t : State} (h : s.SameEngines t) (q : Nat) : t.eq q = s.eq q := by rw [State.eq, h.eqs, State.eq]
theorem State.SameEngines.array {s t : State} (h : s.SameEngines t) (i : Nat) : t.array i = s.array i := by rw [State.array, h.arrays, State.array]

theorem State.sameEngines_foldl {α : Type} {f : State → α → State} (h : ∀ (s : State) x, s.SameEngines (f s x)) (l : List α) (s : State) :
    s.SameEngines (l.foldl f s) := List.foldlRecOn (motive := s.SameEngines) l f (.refl s) fun t ht x _ => ht.trans (h t x)

theorem State.settleRegions_sameEngines (s : State) : s.SameEngines s.settleRegions :=
  State.sameEngines_foldl (fun (s : State) _ => ⟨s.changeRegion_eqs .., s.changeRegion_arrays ..⟩) _ s

theorem State.evalDomain_sameEngines (s : State) (n : Nat) : s.SameEngines (s.evalDomain n) := by
  unfold State.evalDomain
  split
  · split <;> exact ⟨rfl, rfl⟩
  · split <;> exact ⟨rfl, rfl⟩
  · split <;> exact ⟨rfl, rfl⟩
  · exact .refl s
  · exact .refl s

theorem State.afterBusy_sameEngines (s : State) (q : Nat) : s.SameEngines (s.afterBusy q) := by
  unfold State.afterBusy
  dsimp only
  split
  · split
    · exact s.evalDomain_sameEngines _
    · exact .refl s
  · exact .refl s

theorem State.noteEnd_sameEngines (s : State) (q : Nat) (e : QEntry) (st : Status) : s.SameEngines (s.noteEnd q e st) := by
  have ranged (s : State) (k : Nat) : s.SameEngines (s.noteRange k e.tag e.desc) := by
    unfold State.noteRange
    split
    · exact ⟨rfl, rfl⟩
    · exact .refl s
  have noted (s : State) (x : Option (Nat × Nat)) : s.SameEngines (s.noteEpoch x e st) := by
    unfold State.noteEpoch
    split
    · exact .refl s
    · next k n =>
      split
      · exact (ranged s k).trans ⟨rfl, rfl⟩
      · exact ⟨rfl, rfl⟩
  unfold State.noteEnd
  dsimp only
  split
  · exact .trans (y := s.updJob ..) ⟨rfl, rfl⟩ (noted ..)
  · exact noted ..

/-- Completion frees the queue's engine and leaves the array runs (06 R223). -/
theorem State.complete_some {s : State} {q : Nat} {a : Active} (h : (s.eq q).cur = some a) (c : Comp) (env : Env) :
    ∃ (w : State) (f : Eq → Eq), (w.updEq q f).SameEngines (s.complete q c env) ∧ w.arrays = s.arrays ∧ ∀ e, (f e).busy = false ∧ (f e).cur = none := by
  have last (w : State) (f : Eq → Eq) (g : Wdg) : (w.updEq q f).SameEngines (({ w.updEq q f with wdg := g } : State).settleRegions.afterBusy q) :=
    .trans (y := { w.updEq q f with wdg := g }) ⟨rfl, rfl⟩ (.trans (State.settleRegions_sameEngines _) (State.afterBusy_sameEngines ..))
  unfold State.complete
  rw [h]
  dsimp only
  generalize hr : s.runOp {} _ = r
  have kept : r.1.arrays = s.arrays := hr ▸ rfl
  obtain ⟨w, res⟩ := r
  cases res <;> exact ⟨_, _, last .., (State.noteEnd_sameEngines ..).arrays.trans kept, fun _ => ⟨rfl, rfl⟩⟩

/-- Easel `i` has no array operation, and its queue none in progress. -/
structure State.ArrayEnded (s : State) (i : Nat) : Prop where
  run  : s.array i = none
  free : (s.eq i).busy = false
  cur  : (s.eq i).cur = none

theorem State.ArrayEnded.outcome {s : State} {i : Nat} (h : s.ArrayEnded i) :
    ∃ t, (.next s : Out) = .next t ∧ t.array i = none ∧ (t.eq i).busy = false ∧ (t.eq i).cur = none := ⟨s, rfl, h.run, h.free, h.cur⟩

theorem State.complete_arrayEnded {s : State} {i : Nat} {x : Active} (h : (s.eq i).cur = some x) (hr : s.array i = none) (c : Comp) (env : Env) :
    (s.complete i c env).ArrayEnded i := by
  obtain ⟨w, f, same, arrays, freed⟩ := State.complete_some h c env
  obtain ⟨free, cur⟩ := freed (w.eq i)
  have eq : (s.complete i c env).eq i = f (w.eq i) := (same.eq i).trans (w.updEq_eq i f)
  have array : (s.complete i c env).array i = s.array i := (same.array i).trans (congrArg (Sparse.get none · i) arrays)
  exact ⟨array.trans hr, eq ▸ free, eq ▸ cur⟩

@[simp] theorem State.setArray_array (s : State) (i : Nat) (r : Option ArrayRun) : (s.setArray i r).array i = r := Sparse.get_set_self ..
theorem State.setArray_array_ne (s : State) {i q : Nat} (r : Option ArrayRun) (h : q ≠ i) : (s.setArray i r).array q = s.array q := Sparse.get_set_ne _ _ h

theorem State.setArray_eq (s : State) (i q : Nat) (r : Option ArrayRun) : (s.setArray i r).eq q = s.eq q := rfl
theorem State.updCur_eq (s : State) (q : Nat) (f : Active → Active) : (s.updCur q f).eq q = { s.eq q with cur := (s.eq q).cur.map f } := s.updEq_eq ..
theorem State.updCur_eq_ne (s : State) {q n : Nat} (f : Active → Active) (h : n ≠ q) : (s.updCur q f).eq n = s.eq n := s.updEq_eq_ne _ h

theorem State.endArray_run {s : State} {i : Nat} {x : Active} {r : ArrayRun} (h : (s.eq i).cur = some x) (hr : s.array i = some r) (f : Fail) (env : Env) :
    s.endArray i f env = (s.setArray i none).complete i (arrayComp (AD.ofBytes x.desc) r f) env := by
  rw [State.endArray, h, hr]

theorem State.endArray_arrayEnded {s : State} {i : Nat} {x : Active} {r : ArrayRun} (h : (s.eq i).cur = some x) (hr : s.array i = some r) (f : Fail) (env : Env) :
    (s.endArray i f env).ArrayEnded i := by
  rw [State.endArray_run h hr]
  exact State.complete_arrayEnded (s := s.setArray i none) h (s.setArray_array ..) ..

/-! ### One operation of the array in progress -/

/-- The state once the errors of a command's surroundings have come up, and what is left of the surroundings. -/
abbrev State.beset (s : State) (env : Env) : State := { s with dp := s.dp.upsets env.upsets }
abbrev calm (env : Env) : Env := { env with upsets := [] }

/-- A completion's accesses look at their path alone, so that it is the same once the errors have come up. -/
theorem State.complete_calm (s : State) (q : Nat) (c : Comp) (env : Env) : s.complete q c env = s.complete q c (calm env) := rfl

/-- What the accesses of the entry in progress are judged by. -/
abbrev State.arrayCtx (s : State) (i : Nat) (x : Active) (env : Env) : Ctx := (s.beset env).entryCtx i x.entry (calm env)

section
variable {s : State} {i : Nat} {x : Active} {r r1 : ArrayRun} {env : Env} {act : Activity} {d : Dp} {e : Fail}
  {f : AD → Ctx → List TD → ArrayRun → Op (ArrayRun × Option Fail)} {k : State → ArrayRun → State}

theorem State.onArray_idle (h : s.array i = none ∨ (s.eq i).cur = none ∨ s.engineHeld i = true) : s.onArray i env act f k = s := by
  unfold State.onArray
  split
  · next hr hx =>
    obtain h | h | h := h
    · cases hr.symm.trans h
    · cases hx.symm.trans h
    · exact if_pos h
  · rfl

/-- The run's operation on the data plane, and by what it answers the run as it goes on or its end. -/
theorem State.Runs.onArray (h : s.Runs i x r) : s.onArray i env act f k =
    let a := AD.ofBytes x.desc
    let y := (f a (s.arrayCtx i x env) x.tds r).exec (s.beset env).dp
    let t : State := { s with dp := y.1 }
    match y.2 with
    | .error e => (t.arrayAct i r (a.activity r r act)).endArray i e (calm env)
    | .ok (r', some e) => (t.arrayAct i r' (a.activity r r' act)).endArray i e (calm env)
    | .ok (r', none) => k (t.arrayAct i r' (a.activity r r' act)) (r'.count (a.activity r r' act)) := by
  unfold State.onArray
  rw [h.run, h.cur]
  exact if_neg (Bool.eq_false_iff.1 h.free)

@[simp] theorem State.arrayAct_array (s : State) (i : Nat) (r : ArrayRun) (act : Activity) : (s.arrayAct i r act).array i = some (r.count act) := State.setArray_array ..

theorem State.progress_array (s : State) (q i : Nat) : (s.progress q).array i = s.array i := rfl
theorem State.progress_arrayAct_array (s : State) (i : Nat) (r : ArrayRun) (act : Activity) :
    ((s.arrayAct i r act).progress i).array i = some (r.count act) :=
  (State.progress_array ..).trans (State.arrayAct_array ..)

variable (h : s.Runs i x r)
include h

theorem State.Runs.onArray_goesOn (run : (f (AD.ofBytes x.desc) (s.arrayCtx i x env) x.tds r).exec (s.beset env).dp = (d, .ok (r1, none))) :
    s.onArray i env act f k = k (({ s with dp := d } : State).arrayAct i r1 ((AD.ofBytes x.desc).activity r r1 act))
      (r1.count ((AD.ofBytes x.desc).activity r r1 act)) := by
  rw [h.onArray]
  dsimp only
  rw [run]

theorem State.Runs.onArray_fails (run : (f (AD.ofBytes x.desc) (s.arrayCtx i x env) x.tds r).exec (s.beset env).dp = (d, .ok (r1, some e))) :
    (s.onArray i env act f k).ArrayEnded i := by
  rw [h.onArray]
  dsimp only
  rw [run]
  exact State.endArray_arrayEnded (s := ({ s with dp := d } : State).arrayAct ..) h.cur (State.arrayAct_array ..) ..

theorem State.Runs.onArray_error (run : (f (AD.ofBytes x.desc) (s.arrayCtx i x env) x.tds r).exec (s.beset env).dp = (d, .error e)) :
    (s.onArray i env act f k).ArrayEnded i := by
  rw [h.onArray]
  dsimp only
  rw [run]
  exact State.endArray_arrayEnded (s := ({ s with dp := d } : State).arrayAct ..) h.cur (State.arrayAct_array ..) ..
end

/-! ### The commands of a run -/

section
variable {s : State} {i : Nat} {r : ArrayRun} {env : Env} {act : Activity}

theorem exec_inputStageLoaded (i : Easel) (env : Env) (act : Activity) (s : State) :
    exec (.inputStageLoaded i env act) s = .next (s.inputLoaded i env act) := rfl
theorem exec_weightBlockArrival (i : Easel) (j : Fin 4) (kb : BitVec 8) (env : Env) (act : Activity) (s : State) :
    exec (.weightBlockArrival i j kb env act) s = .next (s.weightArrival i j kb.toNat env act) := rfl
theorem exec_columnGroupComplete (i : Easel) (env : Env) (act : Activity) (s : State) :
    exec (.columnGroupComplete i env act) s = .next (s.groupComplete i env act) := rfl
theorem exec_stagingBankWritten (i : Easel) (env : Env) (act : Activity) (s : State) :
    exec (.stagingBankWritten i env act) s = .next (s.bankWritten i env act) := rfl

theorem State.inputLoaded_some (h : s.array i = some r) : s.inputLoaded i env act = if r.loaded then s else
    s.onArray i env act (fun a c tds r => do let r ← a.load c (tds.getD 0 default) r; pure (r, none)) fun s _ => s := by
  rw [State.inputLoaded, h]

theorem State.weightArrival_some {j kb : Nat} (h : s.array i = some r) : s.weightArrival i j kb env act =
    if !r.canRun ∨ r.k / 32 ≤ kb ∨ 4 * kb + j < r.slot then s else
      s.onArray i env act (fun a c tds r' => a.runTo c i tds r' (4 * kb + j + 1) (4 * r.group * (r.k / 32) + kb * r.width + min j r.width + 1)) fun s _ => s := by
  rw [State.weightArrival, h]

theorem State.groupComplete_some (h : s.array i = some r) : s.groupComplete i env act =
    if !r.canRun then s else s.onArray i env act (fun a c tds r => a.endGroup c r i tds) fun s _ => s.progress i := by
  rw [State.groupComplete, h]
  rfl

theorem State.bankWritten_some (h : s.array i = some r) : s.bankWritten i env act =
    if r.full.isEmpty then s else s.onArray i env act (fun a c tds r => a.writeBank c tds r) fun s r =>
      if r.cols ≤ 32 * r.banks then (s.progress i).endArray i { st := .ok } env else s.progress i := by
  rw [State.bankWritten, h]

theorem State.arrayCommands_idle {j kb : Nat} (h : s.array i = none ∨ (s.eq i).cur = none ∨ s.engineHeld i = true) :
    s.inputLoaded i env act = s ∧ s.weightArrival i j kb env act = s ∧ s.groupComplete i env act = s ∧ s.bankWritten i env act = s := by
  have idle {p : Prop} [Decidable p] {f k} : (if p then s else s.onArray i env act f k) = s := ite_eq_left_iff.2 fun _ => State.onArray_idle h
  cases hr : s.array i with
  | none => exact ⟨by rw [State.inputLoaded, hr], by rw [State.weightArrival, hr], by rw [State.groupComplete, hr], by rw [State.bankWritten, hr]⟩
  | some r =>
    rw [State.inputLoaded_some hr, State.weightArrival_some hr, State.groupComplete_some hr, State.bankWritten_some hr]
    exact ⟨idle, idle, idle, idle⟩
end

/-- The slot may be broadcast: the group runs, the block is one of it, and the slot has not been. -/
theorem ArrayRun.broadcasts (r : ArrayRun) {j kb : Nat} (hr : r.canRun = true) (hkb : kb < r.k / 32) (hs : r.slot ≤ 4 * kb + j) :
    ¬ ((!r.canRun) = true ∨ r.k / 32 ≤ kb ∨ 4 * kb + j < r.slot) := by
  rw [hr]
  exact not_or.2 ⟨Bool.false_ne_true, not_or.2 ⟨Nat.not_le.2 hkb, Nat.not_lt.2 hs⟩⟩

section
variable {s : State} {i : Nat} {x : Active} {r r1 : ArrayRun} {env : Env} {act : Activity} {d : Dp} {f : Fail} (h : s.Runs i x r)
include h

section
variable (hl : r.loaded = false)
include hl

theorem State.Runs.inputLoaded_loads (run : ((AD.ofBytes x.desc).load (s.arrayCtx i x env) (x.tds.getD 0 default) r).exec (s.beset env).dp = (d, .ok r1)) :
    s.inputLoaded i env act = ({ s with dp := d } : State).arrayAct i r1 ((AD.ofBytes x.desc).activity r r1 act) := by
  rw [State.inputLoaded_some h.run, if_neg (Bool.eq_false_iff.1 hl)]
  exact h.onArray_goesOn (Op.exec_bind run _)

theorem State.Runs.inputLoaded_fails (run : ((AD.ofBytes x.desc).load (s.arrayCtx i x env) (x.tds.getD 0 default) r).exec (s.beset env).dp = (d, .error f)) :
    (s.inputLoaded i env act).ArrayEnded i := by
  rw [State.inputLoaded_some h.run, if_neg (Bool.eq_false_iff.1 hl)]
  exact h.onArray_error (Op.exec_bind_error run _)
end

variable (hr : r.canRun = true)
include hr

section
variable {j kb : Nat} (hkb : kb < r.k / 32) (hs : r.slot ≤ 4 * kb + j)
include hkb hs

theorem State.Runs.weightArrival_broadcasts (run : ((AD.ofBytes x.desc).runTo (s.arrayCtx i x env) i x.tds r (4 * kb + j + 1)
      (4 * r.group * (r.k / 32) + kb * r.width + min j r.width + 1)).exec (s.beset env).dp = (d, .ok (r1, none))) :
    s.weightArrival i j kb env act = ({ s with dp := d } : State).arrayAct i r1 ((AD.ofBytes x.desc).activity r r1 act) := by
  rw [State.weightArrival_some h.run, if_neg (r.broadcasts hr hkb hs)]
  exact h.onArray_goesOn run

theorem State.Runs.weightArrival_fails (run : ((AD.ofBytes x.desc).runTo (s.arrayCtx i x env) i x.tds r (4 * kb + j + 1)
      (4 * r.group * (r.k / 32) + kb * r.width + min j r.width + 1)).exec (s.beset env).dp = (d, .ok (r1, some f))) :
    (s.weightArrival i j kb env act).ArrayEnded i := by
  rw [State.weightArrival_some h.run, if_neg (r.broadcasts hr hkb hs)]
  exact h.onArray_fails run
end

theorem State.Runs.groupComplete_ends (run : ((AD.ofBytes x.desc).endGroup (s.arrayCtx i x env) r i x.tds).exec (s.beset env).dp = (d, .ok (r1, none))) :
    s.groupComplete i env act = (({ s with dp := d } : State).arrayAct i r1 ((AD.ofBytes x.desc).activity r r1 act)).progress i := by
  rw [State.groupComplete_some h.run, if_neg (by rw [hr]; exact Bool.false_ne_true)]
  exact h.onArray_goesOn run

theorem State.Runs.groupComplete_fails (run : ((AD.ofBytes x.desc).endGroup (s.arrayCtx i x env) r i x.tds).exec (s.beset env).dp = (d, .ok (r1, some f))) :
    (s.groupComplete i env act).ArrayEnded i := by
  rw [State.groupComplete_some h.run, if_neg (by rw [hr]; exact Bool.false_ne_true)]
  exact h.onArray_fails run
end

section
variable {s : State} {i : Nat} {x : Active} {r r1 : ArrayRun} {env : Env} {act : Activity} {d : Dp} {f : Fail} (h : s.Runs i x r) (hb : r.full ≠ [])
include h hb

/-- The bank is written; with the last one the operation completes. -/
theorem State.Runs.bankWritten_writes (run : ((AD.ofBytes x.desc).writeBank (s.arrayCtx i x env) x.tds r).exec (s.beset env).dp = (d, .ok (r1, none))) :
    s.bankWritten i env act =
      let r2 := r1.count ((AD.ofBytes x.desc).activity r r1 act)
      let t := (({ s with dp := d } : State).arrayAct i r1 ((AD.ofBytes x.desc).activity r r1 act)).progress i
      if r1.cols ≤ 32 * r1.banks then (t.setArray i none).complete i (arrayComp (AD.ofBytes x.desc) r2 { st := .ok }) (calm env) else t := by
  rw [State.bankWritten_some h.run, if_neg (mt List.isEmpty_iff.1 hb), h.onArray_goesOn run]
  have last := State.endArray_run (s := (({ s with dp := d } : State).arrayAct i r1 ((AD.ofBytes x.desc).activity r r1 act)).progress i) h.cur
    (State.progress_arrayAct_array ..) { st := .ok } env
  exact ite_congr rfl (fun _ => last.trans (State.complete_calm ..)) fun _ => rfl

theorem State.Runs.bankWritten_fails (run : ((AD.ofBytes x.desc).writeBank (s.arrayCtx i x env) x.tds r).exec (s.beset env).dp = (d, .ok (r1, some f))) :
    (s.bankWritten i env act).ArrayEnded i := by
  rw [State.bankWritten_some h.run, if_neg (mt List.isEmpty_iff.1 hb)]
  exact h.onArray_fails run
end

/-! ### ARRAY_OPERATION (R158, R160) -/

theorem exec_arrayOperation (i : Easel) (node : BitVec 32) (env : Env) (s : State) :
    exec (.arrayOperation i node env) s = .next (s.arrayStart i node env) := rfl

/-- A sampled unit is noted among the duplicates and in its epoch (10 R373). -/
theorem State.sampleUnit_rest (s : State) (q : Nat) (x : Active) (node : BitVec 32) (n : Nat) :
    ∃ g w, s.sampleUnit q x node n = { s with integ := g, dp := { s.dp with wet := w } } := by
  unfold State.sampleUnit
  split
  · exact ⟨_, _, rfl⟩
  · extract_lets easel
    split
    · exact ⟨_, _, rfl⟩
    · exact ⟨_, _, rfl⟩

theorem State.sampleUnit_sameEngines (s : State) (q : Nat) (x : Active) (node : BitVec 32) (n : Nat) : s.SameEngines (s.sampleUnit q x node n) := by
  obtain ⟨g, w, h⟩ := s.sampleUnit_rest q x node n
  rw [h]
  exact ⟨rfl, rfl⟩

theorem State.sampleUnit_mem (s : State) (q : Nat) (x : Active) (node : BitVec 32) (n : Nat) : (s.sampleUnit q x node n).dp.mem = s.dp.mem := by
  obtain ⟨g, w, h⟩ := s.sampleUnit_rest q x node n
  rw [h]

/-- The entry in progress has started with its descriptors, its output units are sampled (10 R373), and its run stands. -/
def State.arrayBegun (s : State) (i : Nat) (x : Active) (node : BitVec 32) (a : AD) (tds : List TD) (r : ArrayRun) : State :=
  let s := s.updCur i fun x => { x with started := true, tds }
  (if a.saves then s else (a.units (tds.getD 2 default) r).foldl (fun s u => s.sampleUnit i x node u) s).setArray i (some r)

section
variable {s : State} {i : Nat} {x : Active} {node : BitVec 32} {a : AD} {tds : List TD} {r : ArrayRun}

theorem State.arrayBegun_sameEngines : ((s.updCur i fun x => { x with started := true, tds }).setArray i (some r)).SameEngines (s.arrayBegun i x node a tds r) := by
  unfold State.arrayBegun
  dsimp only
  split
  · exact .refl _
  · have sampled := State.sameEngines_foldl (fun s n => s.sampleUnit_sameEngines i x node n) (a.units (tds.getD 2 default) r)
      (s.updCur i fun x => { x with started := true, tds })
    exact ⟨sampled.eqs, congrArg (Sparse.set none · i (some r)) sampled.arrays⟩

theorem State.arrayBegun_mem : (s.arrayBegun i x node a tds r).dp.mem = s.dp.mem := by
  unfold State.arrayBegun
  dsimp only
  split
  · rfl
  · exact List.foldlRecOn (motive := fun t : State => t.dp.mem = s.dp.mem) _ _ rfl fun t ht n _ => (t.sampleUnit_mem ..).trans ht

theorem State.arrayBegun_array : (s.arrayBegun i x node a tds r).array i = some r :=
  (State.arrayBegun_sameEngines.array i).trans (State.setArray_array ..)

theorem State.arrayBegun_eq : (s.arrayBegun i x node a tds r).eq i =
    { s.eq i with cur := (s.eq i).cur.map fun x => { x with started := true, tds } } := by
  rw [State.arrayBegun_sameEngines.eq, State.setArray_eq, State.updCur_eq]

theorem State.arrayBegun_others {q : Nat} (h : q ≠ i) :
    (s.arrayBegun i x node a tds r).eq q = s.eq q ∧ (s.arrayBegun i x node a tds r).array q = s.array q := by
  rw [State.arrayBegun_sameEngines.eq, State.arrayBegun_sameEngines.array, State.setArray_eq, State.setArray_array_ne _ _ h, State.updCur_eq_ne _ _ h]
  exact ⟨rfl, rfl⟩
end

section
variable {s : State} {i : Nat} {node : BitVec 32} {env : Env} {x : Active} {st : Status} {off : Nat} {d : Dp}

theorem State.arrayStart_idle (h : s.fresh i = none ∨ s.engineHeld i = true) : s.arrayStart i node env = s := by
  unfold State.arrayStart
  split
  · rfl
  · next hx =>
    obtain h | h := h
    · cases hx.symm.trans h
    · exact if_pos h

theorem State.Fresh.fresh (h : s.Fresh i x) : s.fresh i = some x := by
  rw [State.fresh, h.cur]
  exact if_neg (Bool.eq_false_iff.1 h.new)

variable (h : s.Fresh i x)
include h

/-- A row of Table 4.12 that fails before the operation's size is looked at. -/
theorem State.Fresh.arrayStart_field (hf : firstRow (AD.ofBytes x.desc).fieldRows = some (st, off)) :
    s.arrayStart i node env = (s.beset env).complete i (failComp { st, addr := x.entry.desc, obj := 1, off } false) (calm env) := by
  simp only [State.arrayStart, h.fresh, h.free, Bool.false_eq_true, if_false, hf]
  rfl

variable (hf : firstRow (AD.ofBytes x.desc).fieldRows = none)
include hf

theorem State.Fresh.arrayStart_nothing (hn : (AD.ofBytes x.desc).kn = 0 ∨ (AD.ofBytes x.desc).cols = 0 ∨ (AD.ofBytes x.desc).rows = 0) :
    s.arrayStart i node env = (s.beset env).complete i {} (calm env) := by
  simp only [State.arrayStart, h.fresh, h.free, Bool.false_eq_true, if_false, hf, if_pos hn]
  rfl

variable (hn : ¬ ((AD.ofBytes x.desc).kn = 0 ∨ (AD.ofBytes x.desc).cols = 0 ∨ (AD.ofBytes x.desc).rows = 0))
include hn

theorem State.Fresh.arrayStart_count (hc : firstRow (AD.ofBytes x.desc).countRows = some (st, off)) :
    s.arrayStart i node env = (s.beset env).complete i (failComp { st, addr := x.entry.desc, obj := 1, off } false) (calm env) := by
  simp only [State.arrayStart, h.fresh, h.free, Bool.false_eq_true, if_false, hf, if_neg hn, hc]
  rfl

variable (hc : firstRow (AD.ofBytes x.desc).countRows = none)
include hc

theorem State.Fresh.arrayStart_fails {f : Fail}
    (run : ((AD.ofBytes x.desc).checked (s.arrayCtx i x env) x.entry.desc).exec (s.beset env).dp = (d, .error f)) :
    s.arrayStart i node env = ({ s with dp := d } : State).complete i (failComp f false) (calm env) := by
  have done : (s.beset env).runOp {} ((AD.ofBytes x.desc).checked (s.arrayCtx i x env) x.entry.desc) =
    ({ s with dp := d }, .error f) := congrArg (fun y => (({ s with dp := y.1 } : State), y.2)) run
  unfold AD.checked at done
  simp only [State.arrayStart, h.fresh, h.free, Bool.false_eq_true, if_false, hf, if_neg hn, hc, State.onDp]
  rw [done]

theorem State.Fresh.arrayStart_passes {tds : List TD} {r : ArrayRun}
    (run : ((AD.ofBytes x.desc).checked (s.arrayCtx i x env) x.entry.desc).exec (s.beset env).dp = (d, .ok (tds, r))) :
    s.arrayStart i node env =
      let t := ({ s with dp := d } : State).arrayBegun i x node (AD.ofBytes x.desc) tds r
      if r.rows = 0 ∨ r.cols = 0 then t.endArray i { st := .ok } (calm env) else t := by
  have done : (s.beset env).runOp {} ((AD.ofBytes x.desc).checked (s.arrayCtx i x env) x.entry.desc) =
    ({ s with dp := d }, .ok (tds, r)) := congrArg (fun y => (({ s with dp := y.1 } : State), y.2)) run
  unfold AD.checked at done
  simp only [State.arrayStart, h.fresh, h.free, Bool.false_eq_true, if_false, hf, if_neg hn, hc, State.onDp]
  rw [done]
  rfl
end

/-- Settles O12: the checks by the equations of `arrayStart`, the run's commands by `Runs.onArray_goesOn`, `onArray_fails` and `onArray_error` over what the
operations answer, a sum by `dpuBlock_sum`. -/
theorem arrayOperationsRunGroupByGroup : Obligations.ArrayOperationsRunGroupByGroup := by
  refine ⟨fun l bound x v a b h hx => dpuBlock_sum h hx, ?_⟩
  rintro s u i node env v x a c d tds r r1 act j kb st off f rfl rfl rfl rfl
  rw [exec_arrayOperation, exec_inputStageLoaded, exec_weightBlockArrival, exec_columnGroupComplete, exec_stagingBankWritten]
  refine ⟨fun h => congrArg _ (State.arrayStart_idle h), fun h => ?start, fun h => ?idle, fun h => ?waits, fun h unloaded => ?load, fun h can hkb hslot => ?weights,
    fun h can => ?group, fun h full => ?bank⟩
  case start =>
    refine ⟨fun hf => congrArg _ (h.arrayStart_field hf), fun hf hn => congrArg _ (h.arrayStart_nothing hf hn), fun hf hk hcols hrows => ?_⟩
    have hn := not_or.2 ⟨hk, not_or.2 ⟨hcols, hrows⟩⟩
    refine ⟨fun hc => congrArg _ (h.arrayStart_count hf hn hc), fun hc => ⟨fun run => congrArg _ (h.arrayStart_fails hf hn hc run), fun run => ?_⟩⟩
    have starts := h.arrayStart_passes (node := node) hf hn hc run
    have cur : ((({ s with dp := d } : State).arrayBegun i x node (AD.ofBytes x.desc) tds r).eq i).cur = some { x with started := true, tds } := by
      rw [State.arrayBegun_eq]
      exact congrArg (Option.map _) h.cur
    refine ⟨fun hr hc => ?begun, fun h0 => ?emptied⟩
    case begun =>
      obtain ⟨rows, height, clipRows, clipCols, unloaded⟩ := AD.checked_answers _ _ _ _ _ _ run hr
      rw [starts, if_neg (not_or.2 ⟨hr, hc⟩)]
      exact ⟨_, rfl, State.arrayBegun_array, cur, by rw [State.arrayBegun_eq]; rfl, State.arrayBegun_mem, rows, height, clipRows, clipCols, unloaded,
        fun q hq => State.arrayBegun_others hq⟩
    case emptied =>
      rw [starts, if_pos h0]
      exact (State.endArray_arrayEnded cur State.arrayBegun_array ..).outcome
  case idle =>
    obtain ⟨load, weights, group, bank⟩ := State.arrayCommands_idle h
    rw [load, weights, group, bank]
    exact ⟨rfl, rfl, rfl, rfl⟩
  case waits =>
    rw [State.inputLoaded_some h.run, State.weightArrival_some h.run, State.groupComplete_some h.run, State.bankWritten_some h.run]
    refine ⟨fun loaded => ?_, fun out => ?_, fun shut => ?_, fun empty => ?_⟩
    · rw [if_pos loaded]
    · rw [if_pos (out.imp_left fun shut => by rw [shut]; rfl)]
    · rw [if_pos (by rw [shut]; rfl)]
    · rw [if_pos (by rw [empty]; rfl)]
  case load =>
    refine ⟨fun run => ?_, fun run => (h.inputLoaded_fails unloaded run).outcome⟩
    obtain ⟨loaded, height, width⟩ := AD.load_answers _ _ _ _ _ _ _ run
    rw [h.inputLoaded_loads unloaded run]
    exact ⟨_, rfl, State.arrayAct_array .., loaded, height, width, rfl⟩
  case weights =>
    refine ⟨fun run => ?_, fun run => (h.weightArrival_fails can hkb hslot run).outcome⟩
    obtain ⟨same, slot⟩ := AD.runTo_answers _ _ _ _ _ _ _ _ _ _ run
    rw [h.weightArrival_broadcasts can hkb hslot run]
    exact ⟨_, rfl, State.arrayAct_array .., (slot rfl).trans (by omega), same.group, rfl⟩
  case group =>
    refine ⟨fun run => ?_, fun run => (h.groupComplete_fails can run).outcome⟩
    obtain ⟨group, slot, lacc, banks⟩ := AD.endGroup_answers (AD.ofBytes x.desc) (s.arrayCtx i x env) r i x.tds _ _ _ run rfl
    rw [h.groupComplete_ends can run]
    exact ⟨_, rfl, group, slot, lacc, banks, State.progress_arrayAct_array .., rfl⟩
  case bank =>
    refine ⟨fun run => ?_, fun run => (h.bankWritten_fails full run).outcome⟩
    obtain ⟨banks, rest⟩ := AD.writeBank_answers _ _ _ _ _ _ _ run
    rw [h.bankWritten_writes full run]
    refine ⟨⟨banks, rest, fun saves => ?_⟩, fun more => ?more, fun last => ?last⟩
    · rw [← AD.writeBank_saves _ _ _ saves (s.beset env).dp, run]
    case more =>
      rw [if_neg (Nat.not_le.2 more)]
      exact ⟨_, rfl, State.progress_arrayAct_array .., rfl⟩
    case last =>
      let w := ((({ s with dp := d } : State).arrayAct i r1 ((AD.ofBytes x.desc).activity r r1 act)).progress i).setArray i none
      have ended := State.complete_arrayEnded (s := w) h.cur (State.setArray_array ..)
        (arrayComp (AD.ofBytes x.desc) (r1.count ((AD.ofBytes x.desc).activity r r1 act)) { st := .ok }) (calm env)
      rw [if_pos last]
      exact ⟨_, w, rfl, rfl, rfl, rfl, ended.run, ended.free⟩

end Sys2Proof.Machine

/-! SUPPORT. What the operations of the trellis answer and what a run leaves (05 R163, R164, R174 to R176, R180 to R182). -/
namespace Sys2Proof.Machine

/-! ### Results of operations (05 R163, R175) -/

/-- An image that a load takes passes the last check of R175. -/
theorem TrD.loadImage_answers (d : TrD) (c : Ctx) (major : Nat) : (d.loadImage c major).Answers fun l => (Image.ofBytes l).bad = none := by
  unfold TrD.loadImage
  refine Op.answers_bind fun h => Op.answers_check (Op.answers_bind fun l => Op.answers_check (Op.answers_check ?_))
  dsimp only
  split
  · exact Op.answers_failOp _ _ _ _
  · exact Op.answers_pure ‹_›

/-- A sweep leaves 64 cells (R163). -/
theorem TrD.sweep_answers (d : TrD) (c : Ctx) (im : Image) (tds : List TD) (r : TrellisRun) (ad : List (Acc × Acc)) :
    (d.sweep c im tds r ad).Answers fun cells => cells.length = 64 := by
  unfold TrD.sweep
  refine Op.answers_bind fun ins => ?_
  extract_lets _ _ cells
  refine Op.answers_bind fun _ => Op.answers_bind fun _ => Op.answers_pure ?_
  rw [List.length_map, List.length_range]

/-! ### What ends an operation leaves of the trellises (06 R223) -/

theorem State.evalDomain_trellises (s : State) (n : Nat) : (s.evalDomain n).trellises = s.trellises := by
  unfold State.evalDomain
  split
  · split <;> rfl
  · split <;> rfl
  · split <;> rfl
  · rfl
  · rfl

theorem State.afterBusy_trellises (s : State) (q : Nat) : (s.afterBusy q).trellises = s.trellises := by
  unfold State.afterBusy
  dsimp only
  split
  · split
    · exact s.evalDomain_trellises _
    · rfl
  · rfl

theorem State.settleRegions_trellises (s : State) : s.settleRegions.trellises = s.trellises :=
  List.foldlRecOn (motive := fun t : State => t.trellises = s.trellises) _ _ rfl fun t ht _ _ => (t.changeRegion_trellises ..).trans ht

theorem State.noteRange_trellises (s : State) (k : Nat) (tag : Tag) (desc : Addr) : (s.noteRange k tag desc).trellises = s.trellises := by
  unfold State.noteRange
  split <;> rfl

theorem State.noteEpoch_trellises (s : State) (x : Option (Nat × Nat)) (e : QEntry) (st : Status) : (s.noteEpoch x e st).trellises = s.trellises := by
  unfold State.noteEpoch
  split
  · rfl
  · split
    · exact s.noteRange_trellises ..
    · rfl

theorem State.noteEnd_trellises (s : State) (q : Nat) (e : QEntry) (st : Status) : (s.noteEnd q e st).trellises = s.trellises := by
  unfold State.noteEnd
  dsimp only
  split <;> exact State.noteEpoch_trellises ..

/-- A completion leaves the trellises. -/
theorem State.complete_trellises (s : State) (q : Nat) (c : Comp) (env : Env) : (s.complete q c env).trellises = s.trellises := by
  unfold State.complete
  split
  · rfl
  · next a _ =>
    extract_lets h x b r s1 st s2
    have recorded : s2.trellises = s.trellises := by
      unfold s2
      split <;> rfl
    have noted := (State.noteEnd_trellises s2 q a.entry st).trans recorded
    exact ((State.afterBusy_trellises ..).trans (State.settleRegions_trellises _)).trans noted

theorem State.complete_trellis (s : State) (q : Nat) (c : Comp) (env : Env) (n : Nat) : (s.complete q c env).trellis n = s.trellis n :=
  congrArg (Sparse.get ({} : Trellis) · n) (s.complete_trellises q c env)

/-- Queue `q` has no entry in progress. -/
structure State.EngineFree (s : State) (q : Nat) : Prop where
  free : (s.eq q).busy = false
  cur  : (s.eq q).cur = none

theorem State.complete_engineFree {s : State} {q : Nat} {x : Active} (h : (s.eq q).cur = some x) (c : Comp) (env : Env) :
    (s.complete q c env).EngineFree q := by
  obtain ⟨w, f, same, -, freed⟩ := State.complete_some h c env
  obtain ⟨free, cur⟩ := freed (w.eq q)
  have eq : (s.complete q c env).eq q = f (w.eq q) := (same.eq q).trans (w.updEq_eq q f)
  exact ⟨eq ▸ free, eq ▸ cur⟩

/-! ### Trellises -/

section
variable (s : State) (i : Nat) (f : Trellis → Trellis)

@[simp] theorem State.updTrellis_trellis : (s.updTrellis i f).trellis i = f (s.trellis i) := Sparse.get_upd_self ..
theorem State.updTrellis_trellis_ne {n : Nat} (h : n ≠ i) : (s.updTrellis i f).trellis n = s.trellis n := Sparse.get_upd_ne _ _ h
end

/-- The trellis after its run has ended. -/
abbrev Trellis.ended (t : Trellis) : Trellis := { t with run := none, fenced := none, adapters := [] }

/-- Trellis `i` has no run, sweeping or fenced, and its queue no entry in progress. -/
structure State.TrellisEnded (s : State) (i : Nat) : Prop where
  run    : (s.trellis i).run = none
  fenced : (s.trellis i).fenced = none
  free   : (s.eq (768 + i)).busy = false
  cur    : (s.eq (768 + i)).cur = none

theorem State.TrellisEnded.outcome {s : State} {i : Nat} (h : s.TrellisEnded i) :
    ∃ t, (.next s : Out) = .next t ∧ (t.trellis i).run = none ∧ (t.eq (768 + i)).busy = false ∧ (t.eq (768 + i)).cur = none :=
  ⟨s, rfl, h.run, h.free, h.cur⟩

section
variable {s : State} {i : Nat} {x : Active} (h : (s.eq (768 + i)).cur = some x)
include h

theorem State.complete_trellisEnded (c : Comp) (env : Env) : ((s.updTrellis i Trellis.ended).complete (768 + i) c env).TrellisEnded i := by
  obtain ⟨free, cur⟩ := State.complete_engineFree (s := s.updTrellis i Trellis.ended) h c env
  have left : ((s.updTrellis i Trellis.ended).complete (768 + i) c env).trellis i = (s.trellis i).ended :=
    (State.complete_trellis ..).trans (s.updTrellis_trellis i Trellis.ended)
  exact ⟨by rw [left], by rw [left], free, cur⟩

theorem State.endTrellis_trellisEnded (f : Fail) (env : Env) : (s.endTrellis i f env).TrellisEnded i := by
  unfold State.endTrellis
  dsimp only
  rw [h]
  exact State.complete_trellisEnded h ..

theorem State.endTrellis_run {r : TrellisRun} (hr : (s.trellis i).run = some r) (f : Fail) (env : Env) :
    s.endTrellis i f env = (s.updTrellis i Trellis.ended).complete (768 + i) (trellisComp (TrD.ofBytes x.desc) x.tds r f) (calm env) := by
  unfold State.endTrellis
  dsimp only
  rw [h, hr]
  rfl
end

/-! ### The commands and their context -/

theorem exec_trellisImageLoad (i : Easel) (env : Env) (s : State) : exec (.trellisImageLoad i env) s = .next (s.imageLoad i env) := rfl
theorem exec_trellisRun (i : Easel) (env : Env) (s : State) : exec (.trellisRun i env) s = .next (s.trellisRun i env) := rfl
theorem exec_trellisFenceRelease (i : Easel) (env : Env) (s : State) : exec (.trellisFenceRelease i env) s = .next (s.trellisRelease i env) := rfl
theorem exec_trellisSweep (i : Easel) (env : Env) (act : Activity) (s : State) : exec (.trellisSweep i env act) s = .next (s.trellisSweep i env act) := rfl
theorem exec_trellisRowEnd (i : Easel) (node : BitVec 32) (env : Env) (act : Activity) (s : State) :
    exec (.trellisRowEnd i node env act) s = .next (s.trellisRowEnd i node env act) := rfl

/-- What the accesses of the trellis's entry in progress are judged by. -/
abbrev State.trellisCtx (s : State) (i : Nat) (x : Active) (env : Env) : Ctx := s.arrayCtx (768 + i) x env

/-- The image in slot `n` of the trellis. -/
abbrev Trellis.image (t : Trellis) (n : Nat) : List Byte := Sparse.get [] t.images n

/-! ### TRELLIS_IMAGE_LOAD (R175) -/

/-- The trellis with image `l` in slot `n`; a slot loaded anew is no longer that of the previous run (R176). -/
abbrev Trellis.loaded (t : Trellis) (n : Nat) (l : List Byte) : Trellis :=
  { t with images := Sparse.set [] t.images n l, last := if t.last = some n then none else t.last }

theorem Trellis.loaded_last (t : Trellis) (n : Nat) (l : List Byte) : (t.loaded n l).last ≠ some n := by
  dsimp only
  split
  · exact nofun
  · assumption

section
variable {s : State} {i : Nat} {env : Env} {x : Active} {d : Dp} {f : Fail}

theorem State.imageLoad_idle (h : s.fresh (768 + i) = none ∨ s.engineHeld (768 + i) = true) : s.imageLoad i env = s := by
  unfold State.imageLoad
  dsimp only
  split
  · rfl
  · next hx =>
    obtain h | h := h
    · cases hx.symm.trans h
    · exact if_pos (.inr h)

variable (h : s.Fresh (768 + i) x)
include h

theorem State.Fresh.imageLoad_otherKind (hk : (TrD.ofBytes x.desc).kind ≠ 0x43) : s.imageLoad i env = s := by
  simp only [State.imageLoad, h.fresh, if_pos (Or.inl hk)]

section
variable (hk : (TrD.ofBytes x.desc).kind = 0x43) (hslot : (TrD.ofBytes x.desc).slot ≤ 7) (hrest : zeros (TrD.ofBytes x.desc).rest = true)
  (halign : (TrD.ofBytes x.desc).source.toNat % 32 = 0)
include hk hslot hrest halign

/-- A load whose fields pass goes on to its image. -/
theorem State.Fresh.imageLoad_checked : s.imageLoad i env =
    let y := ((TrD.ofBytes x.desc).loadImage (s.trellisCtx i x env) s.fw.major.toNat).exec (s.beset env).dp
    let t : State := { s with dp := y.1 }
    match y.2 with
    | .error f => t.complete (768 + i) (failComp f false) (calm env)
    | .ok l => (t.updTrellis i fun t => t.loaded (TrD.ofBytes x.desc).slot l).complete (768 + i) {} (calm env) := by
  have goes : ¬ ((TrD.ofBytes x.desc).kind ≠ 0x43 ∨ s.engineHeld (768 + i) = true) := by simp [hk, h.free]
  simp only [State.imageLoad, h.fresh, if_neg goes, if_neg (Nat.not_lt.2 hslot), hrest, Bool.not_true, Bool.false_eq_true, if_false, halign, ne_eq,
    not_true_eq_false]
  rfl

theorem State.Fresh.imageLoad_loads {l : List Byte}
    (run : ((TrD.ofBytes x.desc).loadImage (s.trellisCtx i x env) s.fw.major.toNat).exec (s.beset env).dp = (d, .ok l)) :
    s.imageLoad i env = (({ s with dp := d } : State).updTrellis i fun t => t.loaded (TrD.ofBytes x.desc).slot l).complete (768 + i) {} (calm env) := by
  rw [h.imageLoad_checked hk hslot hrest halign]
  dsimp only
  rw [run]

theorem State.Fresh.imageLoad_fails
    (run : ((TrD.ofBytes x.desc).loadImage (s.trellisCtx i x env) s.fw.major.toNat).exec (s.beset env).dp = (d, .error f)) :
    s.imageLoad i env = ({ s with dp := d } : State).complete (768 + i) (failComp f false) (calm env) := by
  rw [h.imageLoad_checked hk hslot hrest halign]
  dsimp only
  rw [run]
end
end

/-! ### The start of a run (R176, R181) -/

/-- The trellis with run `r` under way on the image in slot `n`: 64 cycles of switch unless the previous run used the slot. -/
abbrev Trellis.started (t : Trellis) (n : Nat) (r : TrellisRun) : Trellis :=
  { t with last := some n, run := some { r with switch := if t.last = some n then 0 else 64 }, fenced := none, adapters := [] }

section
variable {s : State} {i : Nat} {env : Env} {x : Active} {r : TrellisRun} {fs : BitVec 16}

theorem State.updTrellis_congr {f g : Trellis → Trellis} (h : f (s.trellis i) = g (s.trellis i)) : s.updTrellis i f = s.updTrellis i g :=
  congrArg (fun t : Trellis => ({ s with trellises := Sparse.set {} s.trellises i t } : State)) h

theorem State.startRun_rows (d : TrD) (hr : r.rows ≠ 0) : s.startRun i d r env = s.updTrellis i fun t => t.started d.slot r :=
  (if_neg hr).trans (State.updTrellis_congr rfl)

theorem State.startRun_empty (d : TrD) (hx : (s.eq (768 + i)).cur = some x) (hr : r.rows = 0) : (s.startRun i d r env).TrellisEnded i := by
  have ends : s.startRun i d r env = _ := if_pos hr
  rw [ends]
  exact State.endTrellis_trellisEnded (s := s.updTrellis i _) hx ..

theorem State.runFenced_waits (hf : s.fenceStatus i (BitVec.ofNat 32 (TrD.ofBytes x.desc).fence) = none) :
    s.runFenced i x env r = s.updTrellis i fun t => { t with fenced := some r } := by
  unfold State.runFenced
  dsimp only
  rw [hf]

variable (hf : s.fenceStatus i (BitVec.ofNat 32 (TrD.ofBytes x.desc).fence) = some fs)
include hf

theorem State.runFenced_passes (hp : fencePasses fs = true) : s.runFenced i x env r = s.startRun i (TrD.ofBytes x.desc) r env := by
  unfold State.runFenced
  dsimp only
  rw [hf]
  exact if_pos hp

theorem State.runFenced_fails (hp : fencePasses fs = false) : s.runFenced i x env r =
    (s.updTrellis i fun t => { t with fenced := none }).complete (768 + i)
      (failComp { st := (Status.ofCode fs.toNat).getD .fieldReserved } false) env := by
  unfold State.runFenced
  dsimp only
  rw [hf]
  exact if_neg (Bool.eq_false_iff.1 hp)
end

section
variable {s : State} {i : Nat} {env : Env} {x : Active} {r : TrellisRun}

theorem State.trellisRelease_idle (h : (s.eq (768 + i)).cur = none ∨ (s.trellis i).fenced = none ∨ s.engineHeld (768 + i) = true) :
    s.trellisRelease i env = s := by
  unfold State.trellisRelease
  dsimp only
  split
  · next hx hr =>
    obtain h | h | h := h
    · cases hx.symm.trans h
    · cases hr.symm.trans h
    · exact if_pos h
  · rfl

theorem State.trellisRelease_fenced (hx : (s.eq (768 + i)).cur = some x) (hr : (s.trellis i).fenced = some r) (hh : s.engineHeld (768 + i) = false) :
    s.trellisRelease i env = (s.beset env).runFenced i x (calm env) r := by
  unfold State.trellisRelease
  dsimp only
  rw [hx, hr]
  exact if_neg (Bool.eq_false_iff.1 hh)
end

/-! ### TRELLIS_RUN (R180) -/

/-- The stream descriptors in order and the plan. -/
def TrD.checked (d : TrD) (c : Ctx) (desc : Addr) : Op (List TD × TrellisRun) := d.fetch c >>= fun l => d.plan c desc l >>= fun r => pure (l, r)

section
variable {s : State} {i : Nat} {env : Env} {x : Active} {st : Status} {off : Nat}

theorem State.trellisRun_idle (h : s.fresh (768 + i) = none ∨ s.engineHeld (768 + i) = true) : s.trellisRun i env = s := by
  unfold State.trellisRun
  dsimp only
  split
  · rfl
  · next hx =>
    obtain h | h := h
    · cases hx.symm.trans h
    · exact if_pos (.inr h)

variable (h : s.Fresh (768 + i) x)
include h

theorem State.Fresh.trellisRun_otherKind (hk : (TrD.ofBytes x.desc).kind ≠ 0x42) : s.trellisRun i env = s := by
  simp only [State.trellisRun, h.fresh, if_pos (Or.inl hk)]

variable (hk : (TrD.ofBytes x.desc).kind = 0x42)
include hk

theorem State.Fresh.trellisRun_goes : ¬ ((TrD.ofBytes x.desc).kind ≠ 0x42 ∨ s.engineHeld (768 + i) = true) := by simp [hk, h.free]

/-- A row of Table 5.9 that fails before the run's size is looked at. -/
theorem State.Fresh.trellisRun_field (hf : firstRow (TrD.ofBytes x.desc).fieldRows = some (st, off)) :
    s.trellisRun i env = (s.beset env).complete (768 + i) (failComp { st, addr := x.entry.desc, obj := 1, off } false) (calm env) := by
  simp only [State.trellisRun, h.fresh, if_neg (h.trellisRun_goes hk), hf]
  rfl

variable (hf : firstRow (TrD.ofBytes x.desc).fieldRows = none)
include hf

theorem State.Fresh.trellisRun_nothing (hn : (TrD.ofBytes x.desc).rows = 0 ∨ (TrD.ofBytes x.desc).len = 0) :
    s.trellisRun i env = (s.beset env).complete (768 + i) {} (calm env) := by
  simp only [State.trellisRun, h.fresh, if_neg (h.trellisRun_goes hk), hf, if_pos hn]
  rfl

/-- A run that passes every row of Table 5.9 ahead of the descriptors goes on to them. -/
theorem State.Fresh.trellisRun_checked (hn : ¬ ((TrD.ofBytes x.desc).rows = 0 ∨ (TrD.ofBytes x.desc).len = 0))
    (hc : firstRow (TrD.ofBytes x.desc).countRows = none) (hi : (s.trellis i).image (TrD.ofBytes x.desc).slot ≠ [])
    (hs : (TrD.ofBytes x.desc).streamsOk (Image.ofBytes ((s.trellis i).image (TrD.ofBytes x.desc).slot)) = true)
    (ha : firstRow (TrD.ofBytes x.desc).alignRows = none) : s.trellisRun i env = (s.beset env).runChecked i x (calm env) := by
  obtain ⟨b, l, hl⟩ := List.exists_cons_of_ne_nil hi
  have resident : ((s.beset env).trellis i).image (TrD.ofBytes x.desc).slot = b :: l := hl
  rw [hl] at hs
  simp only [State.trellisRun, h.fresh, if_neg (h.trellisRun_goes hk), hf, if_neg hn, hc, State.onDp, resident, hs, Bool.not_true, Bool.false_eq_true,
    if_false, ha]
end

section
variable {s : State} {i : Nat} {env : Env} {x : Active} {tds : List TD} {r : TrellisRun} {d : Dp} {f : Fail}

/-- The entry in progress has started with its stream descriptors. -/
abbrev State.trellisBegun (s : State) (i : Nat) (tds : List TD) : State := s.updCur (768 + i) fun x => { x with started := true, tds }

theorem State.trellisBegun_cur (h : (s.eq (768 + i)).cur = some x) (tds : List TD) :
    ((s.trellisBegun i tds).eq (768 + i)).cur = some { x with started := true, tds } := by
  rw [State.updCur_eq]
  exact congrArg (Option.map _) h

/-- The trellis's queue is another than the array's, whose entries the fence awaits. -/
theorem State.trellisBegun_fenceStatus (s : State) (i : Nat) (tds : List TD) (n : BitVec 32) :
    (s.trellisBegun i tds).fenceStatus i n = s.fenceStatus i n := by
  rw [State.fenceStatus, State.updCur_eq_ne _ _ (by omega), State.fenceStatus]

theorem State.runChecked_fails (run : ((TrD.ofBytes x.desc).checked (s.trellisCtx i x env) x.entry.desc).exec (s.beset env).dp = (d, .error f)) :
    (s.beset env).runChecked i x (calm env) = ({ s with dp := d } : State).complete (768 + i) (failComp f false) (calm env) := by
  have done : (s.beset env).runOp {} ((TrD.ofBytes x.desc).checked (s.trellisCtx i x env) x.entry.desc) =
    ({ s with dp := d }, .error f) := congrArg (fun y => (({ s with dp := y.1 } : State), y.2)) run
  unfold TrD.checked at done
  simp only [State.runChecked]
  rw [done]

theorem State.runChecked_passes (run : ((TrD.ofBytes x.desc).checked (s.trellisCtx i x env) x.entry.desc).exec (s.beset env).dp = (d, .ok (tds, r))) :
    (s.beset env).runChecked i x (calm env) =
      let t := ({ s with dp := d } : State).trellisBegun i tds
      if (TrD.ofBytes x.desc).allEmpty tds then t.complete (768 + i) {} (calm env)
      else if (TrD.ofBytes x.desc).fence = 0 then t.startRun i (TrD.ofBytes x.desc) r (calm env)
      else t.runFenced i x (calm env) r := by
  have done : (s.beset env).runOp {} ((TrD.ofBytes x.desc).checked (s.trellisCtx i x env) x.entry.desc) =
    ({ s with dp := d }, .ok (tds, r)) := congrArg (fun y => (({ s with dp := y.1 } : State), y.2)) run
  unfold TrD.checked at done
  simp only [State.runChecked]
  rw [done]

variable (run : ((TrD.ofBytes x.desc).checked (s.trellisCtx i x env) x.entry.desc).exec (s.beset env).dp = (d, .ok (tds, r)))
include run

theorem State.runChecked_empty (h : (TrD.ofBytes x.desc).allEmpty tds = true) : (s.beset env).runChecked i x (calm env) =
    (({ s with dp := d } : State).trellisBegun i tds).complete (768 + i) {} (calm env) := (State.runChecked_passes run).trans (if_pos h)

variable (hs : (TrD.ofBytes x.desc).allEmpty tds = false)
include hs

/-- A run with no fence, or with one that has passed, starts at once. -/
theorem State.runChecked_starts {fs : BitVec 16} (hf : (TrD.ofBytes x.desc).fence = 0 ∨
      (s.fenceStatus i (BitVec.ofNat 32 (TrD.ofBytes x.desc).fence) = some fs ∧ fencePasses fs = true)) (hr : r.rows ≠ 0) :
    (s.beset env).runChecked i x (calm env) =
      (({ s with dp := d } : State).trellisBegun i tds).updTrellis i fun t => t.started (TrD.ofBytes x.desc).slot r := by
  rw [State.runChecked_passes run]
  dsimp only
  rw [if_neg (Bool.eq_false_iff.1 hs), ← State.startRun_rows (env := calm env) _ hr]
  split
  · rfl
  · next fenced =>
    obtain ⟨status, pass⟩ := hf.resolve_left fenced
    exact State.runFenced_passes ((State.trellisBegun_fenceStatus { s with dp := d } i tds _).trans status) pass

theorem State.runChecked_waits (hf : (TrD.ofBytes x.desc).fence ≠ 0)
    (hw : s.fenceStatus i (BitVec.ofNat 32 (TrD.ofBytes x.desc).fence) = none) : (s.beset env).runChecked i x (calm env) =
      (({ s with dp := d } : State).trellisBegun i tds).updTrellis i fun t => { t with fenced := some r } := by
  rw [State.runChecked_passes run]
  dsimp only
  rw [if_neg (Bool.eq_false_iff.1 hs), if_neg hf]
  exact State.runFenced_waits ((State.trellisBegun_fenceStatus { s with dp := d } i tds _).trans hw)
end

/-! ### Sweeps and row ends (R163, R164, R182) -/

/-- The state with the command's surroundings come up and the slots of its activity accounted. -/
abbrev State.swept (s : State) (i : Nat) (env : Env) (act : Activity) : State :=
  (s.beset env).accountSlots (768 + i) i { act with cycles := 0, terms := 0, back := 0 }

/-- A sweep's operation on the data plane. -/
abbrev State.sweepOp (s : State) (i : Nat) (x : Active) (r : TrellisRun) (env : Env) : Op (List Cell) :=
  (TrD.ofBytes x.desc).sweep (s.trellisCtx i x env) (Image.ofBytes ((s.trellis i).image (TrD.ofBytes x.desc).slot)) x.tds r
    (adaptersOf (s.trellis i).adapters)

/-- A row end's operation on the data plane: the tail, then the row outputs. -/
abbrev State.rowEndOp (s : State) (i : Nat) (x : Active) (r : TrellisRun) (env : Env) : Op ((Cell × List (Acc × Acc)) × List (List Nat)) :=
  let d := TrD.ofBytes x.desc
  let c := s.trellisCtx i x env
  d.tail c (Image.ofBytes ((s.trellis i).image d.slot)) x.tds r (adaptersOf (s.trellis i).adapters) >>= fun y =>
    (if d.adapt = 0 then d.rowOuts c x.tds r y.1.o else afterWrite (d.rowOuts c x.tds r y.1.o)) >>= fun held => pure (y, held)

/-- The run after a sweep that left `cells`. -/
abbrev TrellisRun.swept (r : TrellisRun) (cells : List Cell) : TrellisRun :=
  let viol := (cells.map (·.viol)).foldl (· + ·) 0
  { r with sweep := r.sweep + 1, sweeps := r.sweeps + 1, viol := r.viol + viol, rowRange := r.rowRange || viol ≠ 0 }

/-- The run after a row's end. -/
abbrev TrellisRun.nextRow (r : TrellisRun) (viol : Nat) (held : List (List Nat)) : TrellisRun :=
  { r with row := r.row + 1, sweep := 0, viol := r.viol + viol, rowRange := false, held }

/-- The trellis after a sweep. -/
abbrev Trellis.swept (t : Trellis) (r : TrellisRun) (cells : List Cell) : Trellis :=
  { t with cells := cells.map (·.v), adapters := cells.map (·.a), run := some (r.swept cells) }

/-- The trellis after a row's end: the tail's registers in every cell, the adapters clear. -/
abbrev Trellis.rowEnded (t : Trellis) (v : List Nat) (r : TrellisRun) : Trellis :=
  { t with cells := List.replicate 64 v, adapters := [], run := some r }

section
variable {s : State} {i : Nat} {x : Active} {r : TrellisRun} {env : Env} {act : Activity} {node : BitVec 32}

theorem State.onTrellis_idle {f : State → Active → TrD → Image → Ctx → TrellisRun → Env → State}
    (h : (s.eq (768 + i)).cur = none ∨ (s.trellis i).run = none ∨ s.engineHeld (768 + i) = true) : s.onTrellis i env act f = s := by
  unfold State.onTrellis
  dsimp only
  split
  · next hr hx =>
    obtain h | h | h := h
    · cases hx.symm.trans h
    · cases hr.symm.trans h
    · exact if_pos h
  · rfl

/-- A sample of whole rows is noted among the duplicates and in its epoch (10 R373). -/
theorem State.sampleRows_rest (s : State) (i : Nat) (x : Active) (node : BitVec 32) (d : TrD) (r : TrellisRun) (last : Bool) :
    ∃ g w, s.sampleRows i x node d r last = { s with integ := g, dp := { s.dp with wet := w } } := by
  unfold State.sampleRows
  dsimp only
  split
  · exact s.sampleUnit_rest ..
  · exact ⟨_, _, rfl⟩

variable (h : s.Sweeps i x r)
include h

theorem State.Sweeps.onTrellis {f : State → Active → TrD → Image → Ctx → TrellisRun → Env → State} : s.onTrellis i env act f =
    f (s.swept i env act) x (TrD.ofBytes x.desc) (Image.ofBytes ((s.trellis i).image (TrD.ofBytes x.desc).slot)) (s.trellisCtx i x env) r (calm env) := by
  unfold State.onTrellis
  dsimp only
  rw [h.run, h.cur]
  exact if_neg (Bool.eq_false_iff.1 h.free)

section
variable (more : r.sweep < ceilDiv (TrD.ofBytes x.desc).len 64)
include more

theorem State.Sweeps.trellisSweep : s.trellisSweep i env act =
    let y := (s.sweepOp i x r env).exec (s.beset env).dp
    let t : State := { s.swept i env act with dp := y.1 }
    match y.2 with
    | .error f => t.endTrellis i f (calm env)
    | .ok cells =>
      let w := t.updTrellis i fun t => t.swept r cells
      if (r.sweeps + 1) % 4096 = 0 then w.progress (768 + i) else w := by
  unfold State.trellisSweep
  rw [h.onTrellis]
  exact if_neg (Nat.not_le.2 more)

/-- A sweep reports progress every 4,096 sweeps; beside it the trellis alone changes. -/
theorem State.Sweeps.trellisSweep_sweeps {e : Dp} {cells : List Cell} (run : (s.sweepOp i x r env).exec (s.beset env).dp = (e, .ok cells)) :
    ∃ g, s.trellisSweep i env act = { ({ s.swept i env act with dp := e } : State).updTrellis i fun t => t.swept r cells with wdg := g } := by
  rw [h.trellisSweep more]
  dsimp only
  rw [run]
  dsimp only
  split
  · exact ⟨_, rfl⟩
  · exact ⟨_, rfl⟩

theorem State.Sweeps.trellisSweep_fails {e : Dp} {f : Fail} (run : (s.sweepOp i x r env).exec (s.beset env).dp = (e, .error f)) :
    (s.trellisSweep i env act).TrellisEnded i := by
  rw [h.trellisSweep more]
  dsimp only
  rw [run]
  exact State.endTrellis_trellisEnded (s := { s.swept i env act with dp := e }) h.cur ..
end

section
variable (done : ceilDiv (TrD.ofBytes x.desc).len 64 ≤ r.sweep)
include done

theorem State.Sweeps.trellisRowEnd : s.trellisRowEnd i node env act =
    let y := (s.rowEndOp i x r env).exec (s.beset env).dp
    let t : State := { s.swept i env act with dp := y.1 }
    match y.2 with
    | .error f => t.endTrellis i f (calm env)
    | .ok (z, held) =>
      let last := r.row + 1 == r.rows
      let w := ((t.updTrellis i fun t => t.rowEnded z.1.v (r.nextRow z.1.viol held)).progress (768 + i)).sampleRows i x node (TrD.ofBytes x.desc) r last
      if last then w.endTrellis i { st := .ok } (calm env) else w := by
  unfold State.trellisRowEnd
  rw [h.onTrellis]
  exact if_neg (Nat.not_lt.2 done)

/-- What a row's end leaves: its trellis, the memory and the queues; the last row then ends the run. -/
theorem State.Sweeps.trellisRowEnd_ends {e : Dp} {y : Cell × List (Acc × Acc)} {held : List (List Nat)}
    (run : (s.rowEndOp i x r env).exec (s.beset env).dp = (e, .ok (y, held))) :
    ∃ w : State, w.trellis i = (s.trellis i).rowEnded y.1.v (r.nextRow y.1.viol held) ∧ w.dp.mem = e.mem ∧ w.eqs = s.eqs ∧
      s.trellisRowEnd i node env act = if r.row + 1 = r.rows then w.endTrellis i { st := .ok } (calm env) else w := by
  let t := (({ s.swept i env act with dp := e } : State).updTrellis i fun t => t.rowEnded y.1.v (r.nextRow y.1.viol held)).progress (768 + i)
  obtain ⟨g, w, sampled⟩ := t.sampleRows_rest i x node (TrD.ofBytes x.desc) r (r.row + 1 == r.rows)
  refine ⟨{ t with integ := g, dp := { t.dp with wet := w } }, ?_, rfl, rfl, ?_⟩
  · exact State.updTrellis_trellis { s.swept i env act with dp := e } i fun t => t.rowEnded y.1.v (r.nextRow y.1.viol held)
  · rw [h.trellisRowEnd done]
    dsimp only
    rw [run]
    dsimp only
    rw [sampled]
    simp only [beq_iff_eq]

theorem State.Sweeps.trellisRowEnd_fails {e : Dp} {f : Fail} (run : (s.rowEndOp i x r env).exec (s.beset env).dp = (e, .error f)) :
    (s.trellisRowEnd i node env act).TrellisEnded i := by
  rw [h.trellisRowEnd done]
  dsimp only
  rw [run]
  exact State.endTrellis_trellisEnded (s := { s.swept i env act with dp := e }) h.cur ..
end
end

/-- Settles O13: a load by `imageLoad_loads` and what its operation answers, the checks by the equations of `trellisRun`, the fence by those of `runFenced`,
a sweep and a row's end by `Sweeps.trellisSweep_sweeps` and `Sweeps.trellisRowEnd_ends`, every end by `endTrellis_trellisEnded`. -/
theorem trellisRunsSweepRowByRow : Obligations.TrellisRunsSweepRowByRow := by
  rintro s u i x d env v e l f tds r fs node act cells y held c im st off rfl rfl rfl rfl rfl
  rw [exec_trellisImageLoad, exec_trellisRun, exec_trellisFenceRelease, exec_trellisSweep, exec_trellisRowEnd]
  refine ⟨fun h => ⟨congrArg _ (State.imageLoad_idle h), congrArg _ (State.trellisRun_idle h)⟩, fun h => congrArg _ (State.trellisRelease_idle h),
    fun h => ⟨congrArg _ (State.onTrellis_idle h), congrArg _ (State.onTrellis_idle h)⟩, fun h hk => congrArg _ (h.imageLoad_otherKind hk),
    fun h hk => congrArg _ (h.trellisRun_otherKind hk), fun h hk hslot hrest halign => ⟨fun run => ?load, fun run => ?unloaded⟩, fun h hk => ?run,
    fun hx hr hh => ?release, fun h more => ⟨fun run => ?sweep, fun run => (h.trellisSweep_fails more run).outcome⟩, fun h done run => ?rowEnd,
    fun h done run => (h.trellisRowEnd_fails done run).outcome⟩
  case load =>
    let w := ({ s with dp := e } : State).updTrellis i fun t => t.loaded (TrD.ofBytes x.desc).slot l
    have own : (w.complete (768 + i) {} (calm env)).trellis i = (s.trellis i).loaded (TrD.ofBytes x.desc).slot l :=
      (State.complete_trellis ..).trans (State.updTrellis_trellis ..)
    refine ⟨_, w, congrArg _ (h.imageLoad_loads hk hslot hrest halign run), rfl, ?_⟩
    rw [own]
    exact ⟨Sparse.get_set_self .., fun n hn => Sparse.get_set_ne _ _ hn, Trellis.loaded_last _ _ _, rfl,
      fun n hn => (State.complete_trellis ..).trans (State.updTrellis_trellis_ne _ _ _ hn), TrD.loadImage_answers _ _ _ _ _ _ run⟩
  case unloaded => exact congrArg _ (h.imageLoad_fails hk hslot hrest halign run)
  case run =>
    refine ⟨fun hf => congrArg _ (h.trellisRun_field hk hf), fun hf hn => congrArg _ (h.trellisRun_nothing hk hf hn), fun hf hrows hlen hc hi hs ha => ?_⟩
    rw [h.trellisRun_checked hk hf (not_or.2 ⟨hrows, hlen⟩) hc hi hs ha]
    refine ⟨fun run => congrArg _ (State.runChecked_fails run), fun run => ?_⟩
    let t := ({ s with dp := e } : State).trellisBegun i tds
    have cur := State.trellisBegun_cur (s := { s with dp := e }) h.cur tds
    refine ⟨fun empty => ?empty, fun full hr => ⟨fun free => ?starts, fun fenced waits => ?waits⟩⟩
    case empty =>
      obtain ⟨free, idle⟩ := State.complete_engineFree cur {} (calm env)
      exact ⟨_, congrArg _ (State.runChecked_empty run empty), free, idle, State.complete_trellises ..⟩
    case starts =>
      have own := State.updTrellis_trellis t i fun t => t.started (TrD.ofBytes x.desc).slot r
      exact ⟨_, congrArg _ (State.runChecked_starts run full free hr), congrArg Trellis.run own, congrArg Trellis.last own, congrArg Trellis.adapters own, cur, rfl⟩
    case waits =>
      have own := State.updTrellis_trellis t i fun t => { t with fenced := some r }
      exact ⟨_, congrArg _ (State.runChecked_waits run full fenced waits), cur, congrArg Trellis.fenced own, (congrArg Trellis.run own).trans rfl, rfl⟩
  case release =>
    rw [State.trellisRelease_fenced hx hr hh]
    refine ⟨fun waits => ?waits, fun ended => ⟨fun pass rows => ?starts, fun pass empty => ?empty, fun fails => ?fails⟩⟩
    case waits =>
      have own := State.updTrellis_trellis (s.beset env) i fun t => { t with fenced := some r }
      exact ⟨_, congrArg _ (State.runFenced_waits waits), congrArg Trellis.fenced own, rfl⟩
    case starts =>
      have own := State.updTrellis_trellis (s.beset env) i fun t => t.started (TrD.ofBytes x.desc).slot r
      exact ⟨_, congrArg _ ((State.runFenced_passes (s := s.beset env) ended pass).trans (State.startRun_rows _ rows)), congrArg Trellis.run own, congrArg Trellis.last own,
        congrArg Trellis.fenced own, rfl⟩
    case empty =>
      obtain ⟨run, fenced, free, -⟩ := State.startRun_empty (s := s.beset env) (env := calm env) (TrD.ofBytes x.desc) hx empty
      exact ⟨_, congrArg _ (State.runFenced_passes ended pass), run, fenced, free⟩
    case fails =>
      have own := State.updTrellis_trellis (s.beset env) i fun t => { t with fenced := none }
      exact ⟨_, _, congrArg _ (State.runFenced_fails ended fails), rfl, congrArg Trellis.fenced own, (congrArg Trellis.run own).trans rfl, rfl⟩
  case sweep =>
    obtain ⟨g, swept⟩ := h.trellisSweep_sweeps (act := act) more run
    have own := State.updTrellis_trellis { s.swept i env act with dp := e } i fun t => t.swept r cells
    exact ⟨_, congrArg _ swept, congrArg Trellis.cells own, congrArg Trellis.adapters own, TrD.sweep_answers _ _ _ _ _ _ _ _ _ run,
      ⟨_, congrArg Trellis.run own, rfl, rfl, rfl, rfl⟩, fun n hn => State.updTrellis_trellis_ne { s.swept i env act with dp := e } i (fun t => t.swept r cells) hn, rfl⟩
  case rowEnd =>
    obtain ⟨w, trellis, mem, eqs, ends⟩ := h.trellisRowEnd_ends (act := act) (node := node) done run
    refine ⟨fun more => ?more, fun last => ?last⟩
    case more =>
      exact ⟨w, congrArg _ (ends.trans (if_neg more)), congrArg Trellis.adapters trellis, congrArg Trellis.cells trellis, congrArg Trellis.run trellis, mem⟩
    case last =>
      have cur : (w.eq (768 + i)).cur = some x := by rw [State.eq, eqs]; exact h.cur
      have ended := State.complete_trellisEnded cur
        (trellisComp (TrD.ofBytes x.desc) x.tds (r.nextRow y.1.viol held) { st := .ok }) (calm env)
      exact ⟨_, w.updTrellis i Trellis.ended, congrArg _ ((ends.trans (if_pos last)).trans (State.endTrellis_run cur (congrArg Trellis.run trellis) ..)),
        ended.run, ended.free, mem, rfl⟩

end Sys2Proof.Machine

/-! SUPPORT. What the access checks refuse, and requests that fail them (07 R249, R252, R259, Table 7.6). -/
namespace Sys2Proof.Machine

/-! ### One granule (Table 7.6) -/

section
variable {d : Dp} {c : Ctx} {sp g i : Nat} {w : Bool}

/-- The only refusal of an agent as such is ST_BOUNDS: its job has no entry. -/
theorem agentPart_error {m : Mem} {a : Agent} {st : Status} (h : agentPart m a = .error st) : st = .bounds := by
  cases a <;> simp only [agentPart, reduceCtorEq] at h
  all_goals
    split at h
    · exact (Except.error.inj h).symm
    · cases h

theorem granuleStatus_noEntry (h : agentPart d.mem c.who = .error .bounds) : granuleStatus d c sp g w = .bounds := by
  rw [granuleStatus, h]

theorem granuleStatus_otherPart (h : agentPart d.mem c.who = .ok (some i)) (hp : regionPart (d.mem.regionOf g) ≠ i) :
    granuleStatus d c sp g w = .bounds := by
  have other : ((some i).any (· != regionPart (d.mem.regionOf g))) = true := bne_iff_ne.2 hp.symm
  rw [granuleStatus, h]
  exact if_pos other

/-- An unassigned or retired granule takes nothing of any agent but Ovind. -/
theorem granuleStatus_unassigned (hw : c.who ≠ .ovind) (ht : regionType (d.mem.regionOf g) = 0 ∨ regionType (d.mem.regionOf g) = 7) :
    granuleStatus d c sp g w = .bounds := by
  unfold granuleStatus
  dsimp only
  split
  · next st h => exact agentPart_error h
  · rw [if_neg (show ¬ regionType (d.mem.regionOf g) = 6 by omega),
      if_pos (show regionType (d.mem.regionOf g) = 0 ∨ 7 ≤ regionType (d.mem.regionOf g) by omega), if_neg (not_and_of_not_left _ hw), ite_self]

/-- In an assigned granule of its own partition what decides is the space, then for a write the type. -/
theorem granuleStatus_own (h : agentPart d.mem c.who = .ok (some i)) (hp : regionPart (d.mem.regionOf g) = i)
    (h0 : regionType (d.mem.regionOf g) ≠ 0) (h5 : regionType (d.mem.regionOf g) ≤ 5) : granuleStatus d c sp g w =
      if (regionType (d.mem.regionOf g) ≤ 2) ≠ (sp = 0) then .bounds
      else if !w then .ok
      else if durableType (regionType (d.mem.regionOf g)) then durableWrite d c i
      else if regionType (d.mem.regionOf g) = 5 then if c.who = .ovind then .ok else .bounds
      else .ok := by
  have same : ¬ ((some i).any (· != regionPart (d.mem.regionOf g))) = true := fun k => bne_iff_ne.1 k hp.symm
  subst hp
  rw [granuleStatus, h]
  dsimp only
  rw [if_neg same, if_neg (show ¬ regionType (d.mem.regionOf g) = 6 by omega),
    if_neg (show ¬ (regionType (d.mem.regionOf g) = 0 ∨ 7 ≤ regionType (d.mem.regionOf g)) by omega)]

section
variable {k : Part} {t : Tag} (hw : c.who = .engine k)
include hw

theorem agentPart_engine (m : Mem) : agentPart m c.who = .ok (some k.val) := by rw [hw]; rfl

/-- A durable granule takes an engine's write under a dry tag alone (R252). -/
theorem granuleStatus_durable (hp : regionPart (d.mem.regionOf g) = k) (ht : regionType (d.mem.regionOf g) = 2) (hc : c.tag = some t) :
    granuleStatus d c 0 g true = if (d.wetPart k).isDry t then .ok else .wetWrite := by
  rw [granuleStatus_own (agentPart_engine hw _) hp (by omega) (by omega), ht, durableWrite, hw, hc,
    if_neg (not_not_intro (propext (iff_of_true (Nat.le_refl 2) rfl)))]
  rfl

theorem granuleStatus_transient (hp : regionPart (d.mem.regionOf g) = k) (ht : regionType (d.mem.regionOf g) = 1) :
    granuleStatus d c sp g w = if sp = 0 then .ok else .bounds := by
  rw [granuleStatus_own (agentPart_engine hw _) hp (by omega) (by omega), ht]
  by_cases hs : sp = 0
  · rw [if_pos hs, if_neg (not_not_intro (propext (iff_of_true (by decide) hs)))]
    cases w <;> rfl
  · rw [if_neg hs, if_pos fun k => hs (k.mp (by decide))]

/-- Descriptors are Ovind's to write. -/
theorem granuleStatus_descriptor (hp : regionPart (d.mem.regionOf g) = k) (ht : regionType (d.mem.regionOf g) = 5) :
    granuleStatus d c sp g true = .bounds := by
  rw [granuleStatus_own (agentPart_engine hw _) hp (by omega) (by omega), ht, hw]
  exact ite_self _
end
end

/-! ### Accesses that fail their checks -/

section
variable {d : Dp} {c : Ctx} {a : Addr} {sp off : Nat} {st : Status}

theorem Op.exec_failOp {α : Type} (st : Status) (a : Addr) (obj off : Nat) (d : Dp) :
    (failOp st a obj off : Op α).exec d = (d, .error { st, addr := a, obj, off }) := rfl
theorem Op.exec_needOk_fails (h : st ≠ .ok) (a : Addr) (obj : Nat) (d : Dp) : (needOk st a obj).exec d = (d, .error { st, addr := a, obj }) := by
  rw [needOk, if_neg h, Op.exec_failOp]

theorem readAt_refused {len : Nat} (hr : resolve d.coord a = some (.here sp off)) (hs : rangeStatus d c sp off len false = st) (h : st ≠ .ok) :
    (readAt c a len).exec d = (d, .error { st, addr := a }) := by
  rw [readAt, Op.exec_get_bind, hr]
  exact Op.exec_bind_error (Op.exec_needOk_fails (hs.symm ▸ h) ..) _ |>.trans (by rw [hs])

theorem writeAt_refused {v : List Byte} (hr : resolve d.coord a = some (.here sp off)) (hs : rangeStatus d c sp off v.length true = st) (h : st ≠ .ok) :
    (writeAt c a v).exec d = (d, .error { st, addr := a }) := by
  rw [writeAt, Op.exec_get_bind, hr]
  exact Op.exec_bind_error (Op.exec_needOk_fails (hs.symm ▸ h) ..) _ |>.trans (by rw [hs])

/-- An atomic of 8 bytes off its alignment (R259). -/
theorem atomic8_unaligned (f : BitVec 64 → BitVec 64) (c : Ctx) (h : a.toNat % 8 ≠ 0) (d : Dp) :
    (atomic8 a f c).exec d = (d, .error { st := .align, addr := a }) := by
  rw [atomic8, if_pos h, Op.exec_failOp]
end

/-! ### Requests that fail their checks -/

theorem next_congr {t w : State} (h : t = w) : (Host.Outcome.next t : Out) = .next w := congrArg _ h

section
variable {s : State} {q : MemReq} {sp off : Nat} {st : Status} {f : Fail} (hq : q.issuer = none) (hr : resolve s.dp.coord q.addr = some (.here sp off))

/-- A request whose operation fails at once leaves the state as it is. -/
theorem State.runReq_refused {m : Ctx → Op (List Byte)} (h : (m (s.ctx {} q.who q.tag q.attempt)).exec s.dp = (s.dp, .error f)) :
    s.runReq q {} m = (s, f.st, []) := by
  have run : s.runOp {} (m (s.ctx {} q.who q.tag q.attempt)) = (s, .error f) := by
    rw [State.runOp]
    exact congrArg (fun r : Dp × Except Fail (List Byte) => (({ s with dp := r.1 } : State), r.2)) h
  rw [State.runReq, run]

include hq hr

theorem State.memWrite_refused {l : List Byte} (hsp : sp ≠ 1) (hs : rangeStatus s.dp (s.ctx {} q.who q.tag q.attempt) sp off l.length true = st)
    (h : st ≠ .ok) : s.memWrite q l {} = s.send (.answer st 0) := by
  rw [State.memWrite, State.memReq_here (.inl hq) hr, if_neg hsp,
    State.runReq_refused (Op.exec_bind_error (writeAt_refused hr hs h) _), State.answerReq_own hq (by decide)]
  rfl

theorem State.memRead_refused {n : Nat} (hsp : sp ≠ 1) (hs : rangeStatus s.dp (s.ctx {} q.who q.tag q.attempt) sp off (32 * n) false = st)
    (h : st ≠ .ok) : s.memRead q n {} = s.send (.readAnswer st []) := by
  rw [State.memRead, State.memReq_here (.inl hq) hr, if_neg hsp, State.runReq_refused (readAt_refused hr hs h), State.answerReq_read hq]

theorem State.fetchAdd_unaligned (x : BitVec 64) (h : q.addr.toNat % 8 ≠ 0) : s.fetchAdd q x {} = s.send (.answer .align 0) := by
  rw [State.fetchAdd, State.memReq_here (.inl hq) hr, State.runReq_refused (atomic8_unaligned _ _ h _), State.answerReq_own hq (by decide)]
  rfl

theorem State.compareSwap_unaligned (x y : BitVec 64) (h : q.addr.toNat % 8 ≠ 0) : s.compareSwap q x y {} = s.send (.answer .align 0) := by
  rw [State.compareSwap, State.memReq_here (.inl hq) hr, State.runReq_refused (atomic8_unaligned _ _ h _), State.answerReq_own hq (by decide)]
  rfl
end

/-- Settles O17: each rule of a granule by its own lemma; a request that fails its checks leaves the state and answers the status. -/
theorem accessesAreCheckedFirst : Obligations.AccessesAreCheckedFirst := by
  refine ⟨fun d c sp g w k t => ⟨?engine, ?noEntry, ?job, ?unassigned, ?durable, ?transient, ?descriptor⟩, fun s q sp off n l u x y st hq hr hsp => ?requests⟩
  case engine => exact fun hw hp => granuleStatus_otherPart (agentPart_engine hw _) hp
  case noEntry =>
    intro j hw hj
    refine granuleStatus_noEntry ?_
    rw [hw, agentPart, hj]
  case job =>
    intro j i hw hj hp
    refine granuleStatus_otherPart ?_ hp
    rw [hw, agentPart, hj]
  case unassigned => exact granuleStatus_unassigned
  case durable => exact fun hw hp ht hs hc => hs ▸ granuleStatus_durable hw hp ht hc
  case transient => exact fun hw hp ht => granuleStatus_transient hw hp ht
  case descriptor => exact fun hw hp ht => granuleStatus_descriptor hw hp ht
  case requests =>
    have memory : sp ≠ 1 := by omega
    refine ⟨fun hs h => next_congr (State.memWrite_refused hq hr memory hs h),
      fun hs h => next_congr (State.memRead_refused hq hr memory hs h),
      fun h => ⟨next_congr (State.fetchAdd_unaligned hq hr x h), next_congr (State.compareSwap_unaligned hq hr x y h)⟩, fun h => next_congr ?_⟩
    rw [State.censusCombine_unaligned (.inl hq) hr h, State.answerReq_own hq (by decide)]
    rfl

end Sys2Proof.Machine

/-! SUPPORT. What a read of a tensor's range leaves of the data plane, and completing the data commands (10 R359; 11 R401; 07 R247; 14 R477). -/
namespace Sys2Proof.Machine

/-! ### Operations that only read -/

/-- A course that allows any change of memory and of the wet/dry state, and any record. -/
structure Dp.FreeCourse (R : Dp → Dp → Prop) : Prop extends Dp.Course R where
  mem    : ∀ (d : Dp) (m : Mem), R d { d with mem := m }
  wet    : ∀ (d : Dp) (k : Nat) (f : WetPart → WetPart), R d (d.updWet k f)
  record : ∀ (d : Dp) (ty : Nat) (so : BitVec 16) (st : Status) (l : List Byte), R d (d.record ty so st l)

section
variable {R : Dp → Dp → Prop} (F : Dp.FreeCourse R)
include F

theorem Dp.FreeCourse.countChan (d : Dp) (w : Nat) (b : Bool) : R d (countChan d w b) := by
  rw [countChan_rest]
  exact F.mem d _
theorem Dp.FreeCourse.countCe (d : Dp) (u : Nat) : R d (countCe d u) := by
  unfold Machine.countCe
  dsimp only
  split
  · exact F.trans (F.mem d _) (F.record ..)
  · exact F.mem d _
theorem Dp.FreeCourse.countUe (d : Dp) (sp w : Nat) (y : BitVec 32) : R d (countUe d sp w y) := F.trans (F.mem d _) (F.record ..)
theorem Dp.FreeCourse.markRow (d : Dp) (w : Nat) : R d (markRow d w) := by
  unfold Machine.markRow
  split
  · exact F.refl d
  · exact F.trans (F.mem d _) (F.trans (F.mem _ _) (F.record ..))

theorem moves_readWord (c : Ctx) (sp w : Nat) (d : Dp) : Op.Moves R (readWord c sp w) d := by
  have C := F.toCourse
  have corrected (v v' : List Byte) (e : Dp) :
      Op.Moves R (do set (countCe { e with mem := e.mem.putWord w v } (unitOf (w * 32))); pure v' : Op (List Byte)) e :=
    Op.moves_bind C (Op.moves_set (C.trans (F.mem e _) (F.countCe ..))) fun _ e => Op.moves_pure C _ e
  refine Op.moves_bind C (Op.moves_modify (F.countChan ..)) fun _ e => Op.moves_get ?_
  refine Op.moves_ite (fun _ => Op.moves_pure C ..) fun _ => ?_
  dsimp only
  split
  · exact Op.moves_pure C ..
  · exact corrected ..
  · split
    · refine Op.moves_bind C (Op.moves_set ?_) fun _ e => Op.moves_failOp C ..
      split
      · exact C.trans (F.countUe ..) (F.markRow ..)
      · exact F.countUe ..
    · exact corrected ..

theorem moves_takeTD (c : Ctx) (written : Bool) (ptr : Addr) (d : Dp) : Op.Moves R (takeTD c written ptr) d := by
  refine Op.moves_bind F.toCourse (moves_fetchTD F.toCourse (moves_readWord F c) ptr d) fun t e => Op.moves_get ?_
  split
  · exact Op.moves_pure F.toCourse ..
  · exact Op.moves_failOp F.toCourse ..

theorem moves_readSpans (c : Ctx) (t : TD) (l : List (Nat × Nat)) (d : Dp) : Op.Moves R (readSpans c t l) d := by
  have C := F.toCourse
  induction l generalizing d with
  | nil => exact Op.moves_pure C ..
  | cons x r ih => exact Op.moves_bind C (moves_readAt C (moves_readWord F c) ..) fun _ e => Op.moves_bind C (ih e) fun _ e => Op.moves_pure C _ e

theorem Dp.FreeCourse.noteTag (d : Dp) (k : Nat) (own t : Tag) (a : BitVec 8) : R d (noteTag d k own t a).1 := by
  unfold Machine.noteTag
  split
  · exact F.refl d
  · exact F.wet ..
  · exact F.wet ..

theorem moves_noteSide (c : Ctx) (x : Sidecar) (d : Dp) : Op.Moves R (noteSide c x) d := by
  have C := F.toCourse
  unfold noteSide
  split
  · next k own _ _ =>
    have carrier (e : Dp) : R e (if x.carrier = x.tag ∧ x.carrierAttempt = x.flags.attempt then (e, false)
        else noteTag e k own x.carrier x.carrierAttempt).1 := by
      split
      · exact C.refl e
      · exact F.noteTag ..
    have both := C.trans (F.noteTag d k own x.tag x.flags.attempt) (carrier _)
    exact Op.moves_get (Op.moves_bind C (Op.moves_set both) fun _ e => Op.moves_pure C _ e)
  · exact Op.moves_pure C ..

/-- The consumer's check of a tile reads it and notes its tags. -/
theorem moves_checkTile (c : Ctx) (t : TD) (i : Nat) (d : Dp) : Op.Moves R (checkTile c t i) d := by
  have C := F.toCourse
  refine Op.moves_bind C (moves_readSpans F ..) fun p e => Op.moves_bind C (moves_readAt C (moves_readWord F c) ..) fun sb e =>
    Op.moves_bind C (moves_noteSide F ..) fun smudged e => ?_
  exact Op.moves_ite (fun _ => Op.moves_failOp C ..) fun _ => Op.moves_ite (fun _ => Op.moves_failOp C ..) fun _ => Op.moves_pure C ..

theorem moves_loadTiles (c : Ctx) (t : TD) (cache : Cache) (l : List Nat) (d : Dp) : Op.Moves R (loadTiles c t cache l) d := by
  have C := F.toCourse
  have tile (cache : Cache) (i : Nat) (d : Dp) : Op.Moves R (loadTile c t cache i) d :=
    Op.moves_ite (fun _ => Op.moves_pure C ..) fun _ => Op.moves_bind C (moves_checkTile F ..) fun _ e => Op.moves_pure C _ e
  induction l generalizing cache d with
  | nil => exact Op.moves_pure C ..
  | cons i r ih => exact Op.moves_bind C (tile cache i d) fun cache e => ih cache e

theorem moves_dataRange (c : Ctx) (written : Bool) (ptr : Addr) (first n : Nat) (d : Dp) : Op.Moves R (dataRange c written ptr first n) d := by
  have C := F.toCourse
  refine Op.moves_bind C (moves_takeTD F ..) fun t e => ?_
  exact Op.moves_ite (fun _ => Op.moves_failOp C ..) fun _ => Op.moves_ite (fun _ => Op.moves_failOp C ..) fun _ => Op.moves_pure C ..

theorem moves_tagsDry (c : Ctx) (t : TD) (l : List Nat) (d : Dp) : Op.Moves R (tagsDry c t l) d := by
  have C := F.toCourse
  induction l generalizing d with
  | nil => exact Op.moves_pure C ..
  | cons i r ih =>
    refine Op.moves_bind C (moves_readAt C (moves_readWord F c) ..) fun sb e => Op.moves_get ?_
    exact Op.moves_ite (fun _ => ih e) fun _ => Op.moves_pure C ..

theorem moves_dataFetch (c : Ctx) (ptr : Addr) (first n : Nat) (d : Dp) : Op.Moves R (dataFetch c ptr first n) d := by
  have C := F.toCourse
  refine Op.moves_bind C (moves_dataRange F ..) fun t e => Op.moves_bind C (moves_tagsDry F ..) fun dry e => ?_
  exact Op.moves_ite (fun _ => Op.moves_bind C (moves_loadTiles F ..) fun _ e => Op.moves_pure C _ e) fun _ => Op.moves_pure C ..
end

/-- The clock stands. -/
theorem Dp.sameNow_course : Dp.FreeCourse fun d e => e.now = d.now where
  refl _ := rfl
  trans h k := k.trans h
  send _ _ := rfl
  mem _ _ := rfl
  wet _ _ _ := rfl
  record := Dp.record_now

/-- A read takes no time: commands are whole (log entry 86). -/
theorem State.runOp_dataFetch_now (s : State) (env : Env) (c : Ctx) (ptr : Addr) (first n : Nat) :
    (s.runOp env (dataFetch c ptr first n)).1.dp.now = s.dp.now :=
  moves_dataFetch Dp.sameNow_course c ptr first n (s.dp.upsets env.upsets)

/-! ### Completing a command -/

/-- Command `c` of `s` completes on the state `w` it has made: beside the answer, and records, messages and vectors, `w` stands. -/
structure Completes (s w t : State) (c : Cmd) (st : Status) (resp : List Byte) : Prop where
  answered : Answered s t c st resp
  mem      : t.dp.mem = w.dp.mem
  wet      : t.dp.wet = w.dp.wet
  out      : w.dp.out <+: t.dp.out
  rest     : t = { w with dp := t.dp, mbx := t.mbx }

section
variable {s w t : State} {c : Cmd} {st : Status} {resp : List Byte} (h : Completes s w t c st resp)
include h

/-- A part of the state that is neither data plane nor mailbox. -/
theorem Completes.part {α : Type} (g : State → α) (hg : ∀ d m, g { w with dp := d, mbx := m } = g w) : g t = g w := (congrArg g h.rest).trans (hg ..)

theorem Completes.jobs : t.jobs = w.jobs := h.part State.jobs fun _ _ => rfl
theorem Completes.job (i : Nat) : t.job i = w.job i := h.part (State.job · i) fun _ _ => rfl
theorem Completes.portRun : t.portRun = w.portRun := h.part State.portRun fun _ _ => rfl
theorem Completes.wdg : t.wdg = w.wdg := h.part State.wdg fun _ _ => rfl
end

section
variable {s w : State} {seq : BitVec 48} {code : Nat} {c : Cmd} {st : Status} {resp resp' : List Byte}

theorem State.finish_grows (hs : st ≠ .auth) : w.dp.Grows (w.finish c st resp).dp := by
  unfold State.finish
  split
  · exact Dp.grows_course.refl _
  · next x _ =>
    dsimp only
    rw [if_neg hs]
    split
    · rw [State.raise, State.onDp_dp]
      exact (Dp.grows_raise ..).of_eq (by cases c.port <;> rfl) (by cases c.port <;> rfl)
    · exact Dp.grows_course.refl _

theorem State.finish_completes (ho : (s.mbx.cmds.find? fun x => x.seq == c.seq) = some c) (hl : c.live = true) (hm : w.mbx.cmds = s.mbx.cmds)
    (hs : st ≠ .auth) : Completes s w (w.finish c st resp) c st resp := by
  obtain ⟨answered, only⟩ := State.finish_after (resp := resp) ho hl hm hs
  exact ⟨answered, only.quiet.mem, only.quiet.wet, (State.finish_grows hs).out, only.rest⟩

/-- A command that makes `w` of the state and then completes. -/
theorem State.runCmd_completes {f : Cmd → State × Status × List Byte} (h : s.Ready seq code c) (hf : f c = (w, st, resp)) (hm : w.mbx.cmds = s.mbx.cmds)
    (hs : st ≠ .auth) (hr : (if st = .ok then resp else []) = resp') : Completes s w (s.runCmd seq code f) c st resp' := by
  rw [State.runCmd_ready f h, hf, ← hr]
  exact State.finish_completes h.only h.live hm hs

/-- One that changes nothing and answers no data. -/
theorem State.runCmd_answers {f : Cmd → State × Status × List Byte} (h : s.Ready seq code c) (hf : f c = (s, st, resp)) (hs : st ≠ .auth)
    (hr : (if st = .ok then resp else []) = resp') : OnlyAnswers s (s.runCmd seq code f) c st resp' := hr ▸ State.runCmd_only h hf hs
end

/-! ### DATA_READ (10 R359) -/

/-- The read that a DATA_READ asks for. -/
def State.fetchOf (s : State) (c : Cmd) (env : Env) : State × Except Fail (Option (List Byte)) :=
  s.runOp env (dataFetch (s.ctx env .ovind) (BitVec.ofNat 64 (fld c.req.payload 0 8)) (fld c.req.payload 16 8) (fld c.req.payload 24 4))

/-- A DATA_READ that found a wet tag waits. -/
def State.heldRead (w : State) (c : Cmd) : State :=
  { w with mbx := { w.mbx with cmds := w.mbx.cmds.map fun x => if x.seq = c.seq then { x with waiting := true, since := w.dp.now } else x } }

section
variable {s w : State} {seq : BitVec 48} {c : Cmd} {env : Env} {l : List Byte} {f : Fail}

theorem State.dataRead_idle (h : s.cmdReady seq 0x30 = none) : s.dataRead seq env = s := by rw [State.dataRead, h]
theorem State.dataReadRelease_idle (h : s.cmdWaiting seq 0x30 = none) : s.dataReadRelease seq env = s := by rw [State.dataReadRelease, h]
theorem State.dataReadTimeout_idle (h : s.cmdWaiting seq 0x30 = none) : s.dataReadTimeout seq = s := by rw [State.dataReadTimeout, h]

theorem State.dataRead_empty (h : s.cmdReady seq 0x30 = some c) (hn : fld c.req.payload 24 4 = 0) : s.dataRead seq env = s.readDone c [] 0 := by
  rw [State.dataRead, h]
  exact if_pos hn

section
variable (h : s.cmdReady seq 0x30 = some c) (hn : 0 < fld c.req.payload 24 4)
include h hn

theorem State.dataRead_dry (hr : (s.fetchOf c env).2 = .ok (some l)) : s.dataRead seq env = (s.fetchOf c env).1.readDone c l 0 := by
  unfold State.fetchOf at hr
  rw [State.dataRead, h]
  dsimp only
  rw [if_neg (Nat.ne_of_gt hn), hr]
  rfl
theorem State.dataRead_fails (hr : (s.fetchOf c env).2 = .error f) : s.dataRead seq env = (s.fetchOf c env).1.finish c f.st [] := by
  unfold State.fetchOf at hr
  rw [State.dataRead, h]
  dsimp only
  rw [if_neg (Nat.ne_of_gt hn), hr]
  rfl
/-- The flag decides what a wet tag does. -/
theorem State.dataRead_wet (hr : (s.fetchOf c env).2 = .ok none) : s.dataRead seq env =
    if bitOf c.req.flags.toNat 0 then (s.fetchOf c env).1.hostReadWet c ((s.fetchOf c env).1.tdPartOf (BitVec.ofNat 64 (fld c.req.payload 0 8)) env)
    else (s.fetchOf c env).1.heldRead c := by
  unfold State.fetchOf at hr
  rw [State.dataRead, h]
  dsimp only
  rw [if_neg (Nat.ne_of_gt hn), hr]
  rfl
end

section
variable (h : s.cmdWaiting seq 0x30 = some c)
include h

theorem State.dataReadRelease_dry (hr : (s.fetchOf c env).2 = .ok (some l)) :
    s.dataReadRelease seq env = (s.fetchOf c env).1.readDone c l (spanUs c.since s.dp.now) := by
  unfold State.fetchOf at hr
  rw [State.dataReadRelease, h]
  dsimp only
  rw [hr]
  rfl
theorem State.dataReadRelease_wet (hr : (s.fetchOf c env).2 = .ok none) : s.dataReadRelease seq env = (s.fetchOf c env).1 := by
  unfold State.fetchOf at hr
  rw [State.dataReadRelease, h]
  dsimp only
  rw [hr]
  rfl
theorem State.dataReadRelease_fails (hr : (s.fetchOf c env).2 = .error f) : s.dataReadRelease seq env = (s.fetchOf c env).1.finish c f.st [] := by
  unfold State.fetchOf at hr
  rw [State.dataReadRelease, h]
  dsimp only
  rw [hr]
  rfl
theorem State.dataReadTimeout_waits :
    s.dataReadTimeout seq = s.hostReadWet c (s.tdPartOf (BitVec.ofNat 64 (fld c.req.payload 0 8)) {}) := by rw [State.dataReadTimeout, h]
end

section
variable (ho : (s.mbx.cmds.find? fun x => x.seq == c.seq) = some c) (hl : c.live = true) (hm : w.mbx.cmds = s.mbx.cmds)
include ho hl hm

/-- The read fails with ST_WET and sets the partition's HOST_WET. -/
theorem State.hostReadWet_completes (k : Nat) : Completes s (w.updWet k fun x => { x with hostWet := x.hostWet.hwSet }) (w.hostReadWet c k) c .wet [] :=
  State.finish_completes ho hl hm (by decide)

/-- The flag counts. -/
theorem State.hostReadWet_flag (k : Nat) : ((w.hostReadWet c k).wet k).hostWet = (w.wet k).hostWet.hwSet := by
  rw [State.wet, Dp.wetPart, (State.hostReadWet_completes ho hl hm k).wet]
  exact congrArg WetPart.hostWet (Sparse.get_upd_self w.dp.wet k fun x => { x with hostWet := x.hostWet.hwSet })
end

/-- The data leaves by DMA and the port's bytes are counted. -/
theorem State.readDone_sends (ho : (s.mbx.cmds.find? fun x => x.seq == c.seq) = some c) (hl : c.live = true) (d : Dp) (l : List Byte) (us : Nat) {t : State}
    (ht : t = ({ s with dp := d } : State).readDone c l us) : Answered s t c .ok (le 8 l.length ++ le 4 us ++ le 4 0) ∧
      OutMsg.dmaWrite c.port (BitVec.ofNat 64 (fld c.req.payload 8 8)) l ∈ t.dp.out ∧ t.dp.mem = d.mem ∧
      t = { s with dp := t.dp, mbx := t.mbx, portRun := t.portRun } := by
  have done : Completes s ((({ s with dp := d } : State).countPort (320 + 2 * portNo c.port) l.length).send
      (.dmaWrite c.port (BitVec.ofNat 64 (fld c.req.payload 8 8)) l)) t c .ok (le 8 l.length ++ le 4 us ++ le 4 0) :=
    ht ▸ State.finish_completes ho hl rfl (by decide)
  refine ⟨done.answered, done.out.subset (List.mem_append_right _ (List.mem_singleton_self _)), done.mem, ?_⟩
  rw [done.portRun]
  exact done.rest

/-- A number's first command is the first that any narrower search finds, where it finds it at all. -/
theorem find?_narrower {α : Type} {p q : α → Bool} {l : List α} {x : α} (h : l.find? p = some x) (hq : q x = true) (hpq : ∀ y, q y = true → p y = true) :
    l.find? q = some x := by
  obtain ⟨hp, before, after, rfl, no⟩ := List.find?_eq_some_iff_append.1 h
  refine List.find?_eq_some_iff_append.2 ⟨hq, before, after, rfl, fun y hy => ?_⟩
  cases hqy : q y with
  | false => rfl
  | true => exact absurd (hpq y hqy) (by simpa using no y hy)

/-- A held read is the command that its release and its timeout find. -/
theorem State.heldRead_waits {code : Nat} (h : s.Ready seq code c) (hm : w.mbx.cmds = s.mbx.cmds) :
    (w.heldRead c).cmdWaiting seq code = some { c with waiting := true, since := w.dp.now } := by
  have found := List.find?_some h.ready
  simp only [Bool.and_eq_true, beq_iff_eq] at found
  obtain ⟨⟨⟨number, opcode⟩, -⟩, -⟩ := found
  have first := find?_narrower (q := (fun x : Cmd => x.seq == seq && x.req.opcode.toNat == code && x.waiting) ∘
    fun x => if x.seq = c.seq then { x with waiting := true, since := w.dp.now } else x) h.only (by simp [number, opcode]) (by
      intro y hy
      by_cases hs : y.seq = c.seq
      · exact beq_iff_eq.2 hs
      · simp [hs, ← number] at hy)
  rw [State.cmdWaiting, State.heldRead]
  dsimp only
  rw [hm, List.find?_map, first]
  exact congrArg some (if_pos rfl)
end

/-! ### DATA_WRITE (11 R401) -/

section
variable {s : State} {k w : Nat} {st : BitVec 16} {lost : BitVec 32}

/-- Of the jobs only the status of `k` changes. -/
theorem State.jobStatus_job (s : State) (k : Nat) (st : BitVec 16) : (s.jobStatus k st).job k = { s.job k with status := st } := by
  unfold State.jobStatus
  split
  · next h => rw [← h]
  · exact State.updJob_job s k fun j => { j with status := st }
theorem State.jobStatus_job_ne (s : State) {k i : Nat} (st : BitVec 16) (hi : i ≠ k) : (s.jobStatus k st).job i = s.job i := by
  unfold State.jobStatus
  split
  · rfl
  · exact State.updJob_job_ne s (fun j => { j with status := st }) hi
theorem State.jobStatus_mbx (s : State) (k : Nat) (st : BitVec 16) : (s.jobStatus k st).mbx = s.mbx := by
  unfold State.jobStatus
  split <;> rfl

theorem State.mgmt_job (s : State) (m : Mgmt) (x : BitVec 17) (v : BitVec 64) (i : Nat) : (s.mgmt m x v).job i = s.job i := rfl

theorem State.stopJob_job : ((s.stopJob k st lost).job k).running = false ∧ ((s.stopJob k st lost).job k).status = st := by
  rw [State.stopJob, State.mgmt_job, State.jobStatus_job, State.updJob_job]
  exact ⟨rfl, rfl⟩
theorem State.stopJob_job_ne {i : Nat} (hi : i ≠ k) : (s.stopJob k st lost).job i = s.job i := by
  rw [State.stopJob, State.mgmt_job, State.jobStatus_job_ne _ _ hi, State.updJob_job_ne _ _ hi]
theorem State.stopJob_mbx : (s.stopJob k st lost).mbx = s.mbx := by rw [State.stopJob, State.mgmt_mbx, State.jobStatus_mbx, State.updJob_mbx]
theorem State.stopJob_mem : (s.stopJob k st lost).dp.mem = s.dp.mem := by
  rw [State.stopJob, State.mgmt_dp, Dp.send_mem, (State.jobStatus_quiet ..).mem, State.updJob_dp]

/-- A batch whose CRC is not the one logged. -/
theorem State.batchOk_differs {crc : BitVec 32} (hw : w ≠ 0) (h : Sparse.get none (s.job k).batchCrcs w ≠ none)
    (hc : Sparse.get none (s.job k).batchCrcs w ≠ some crc) : s.batchOk k w crc = (s, false) := by
  obtain ⟨x, hx⟩ := Option.ne_none_iff_exists'.1 h
  have other : (x == crc) = false := beq_eq_false_iff_ne.2 fun e => hc (e ▸ hx)
  rw [State.batchOk, if_neg hw, hx]
  dsimp only
  rw [other]

/-- No batch, a first delivery or one that agrees: the CRC of a batch is then the one logged. -/
theorem State.batchOk_agrees {crc : BitVec 32} (h : w = 0 ∨ Sparse.get none (s.job k).batchCrcs w = none ∨ Sparse.get none (s.job k).batchCrcs w = some crc) :
    ∃ j, s.batchOk k w crc = ({ s with jobs := j }, true) ∧ (w = 0 → j = s.jobs) ∧
      (w ≠ 0 → Sparse.get none (Sparse.get {} j k).batchCrcs w = some crc) := by
  by_cases hw : w = 0
  · exact ⟨s.jobs, by rw [State.batchOk, if_pos hw], fun _ => rfl, fun k => absurd hw k⟩
  · rcases h.resolve_left hw with hn | hs
    · refine ⟨(s.updJob k fun j => { j with batchCrcs := Sparse.set none j.batchCrcs w (some crc) }).jobs, ?_, fun k => absurd k hw, fun _ => ?_⟩
      · rw [State.batchOk, if_neg hw, hn]
        rfl
      · rw [State.updJob_jobs, Sparse.get_upd_self]
        exact Sparse.get_set_self (s.job k).batchCrcs w (some crc)
    · refine ⟨s.jobs, ?_, fun _ => rfl, fun _ => hs⟩
      rw [State.batchOk, if_neg hw, hs]
      exact congrArg (Prod.mk s) (beq_self_eq_true crc)
end

section
variable {s : State} {c : Cmd} {data : List Byte} {env : Env} {x : Ctx} {k : Nat} {ptr : Addr} {first n : Nat}

theorem State.dataWrite_empty (h : fld c.req.payload 24 4 = 0) : s.dataWrite c data env = (s, .ok, le 8 0 ++ le 4 (crc32c []).toNat ++ le 4 0) :=
  if_pos h

section
variable (hp : ptr = BitVec.ofNat 64 (fld c.req.payload 0 8)) (hfirst : first = fld c.req.payload 16 8) (hn : n = fld c.req.payload 24 4) (hpos : 0 < n)
  (hk : k = s.tdPartOf ptr env) (hx : x = s.ctx { env with upsets := [] } (.host c.port (s.job k).id) (some (s.wet k).dryTag.1) (s.wet k).dryTag.2)
include hp hfirst hn hpos hk hx

theorem State.dataWrite_fails {f : Fail} (hr : (s.runOp env (dataRange x true ptr first n)).2 = .error f) :
    s.dataWrite c data env = ((s.runOp env (dataRange x true ptr first n)).1, f.st, []) := by
  subst hp hfirst hn hk hx
  rw [State.dataWrite, if_neg (Nat.ne_of_gt hpos)]
  dsimp only
  rw [hr]
theorem State.dataWrite_checked {b : State} {d : TD} (hr : s.runOp env (dataRange x true ptr first n) = (b, .ok d)) :
    s.dataWrite c data env = b.dataWriteAt c d k data x := by
  subst hp hfirst hn hk hx
  rw [State.dataWrite, if_neg (Nat.ne_of_gt hpos)]
  dsimp only
  rw [hr]
end

/-- The state of a DATA_WRITE whose bytes have come. -/
def State.hostWritten (b : State) (c : Cmd) (l : List Byte) : State := b.countPort (321 + 2 * portNo c.port) l.length

section
variable {b w : State} {d : TD} {l : List Byte} (hl : l = (data ++ List.replicate (hostBytes d n) 0).take (hostBytes d n))
  (hfirst : first = fld c.req.payload 16 8) (hn : n = fld c.req.payload 24 4)
include hl hn

theorem State.dataWriteAt_differs (hb : (b.hostWritten c l).batchOk k (fld c.req.payload 32 8) (crc32c l) = (w, false)) :
    b.dataWriteAt c d k data x = (w.stopJob k Status.checkTile.toCode 0, .checkTile, []) := by
  subst hl hn
  unfold State.hostWritten at hb
  rw [State.dataWriteAt]
  dsimp only
  rw [hb]
  rfl

variable (hb : (b.hostWritten c l).batchOk k (fld c.req.payload 32 8) (crc32c l) = (w, true))
include hfirst hb

theorem State.dataWriteAt_writes {u : Unit} (hr : (w.runOp {} (hostTiles x d first n (hostBlocks d l n) (dataTiles first n))).2 = .ok u) :
    b.dataWriteAt c d k data x = ((w.runOp {} (hostTiles x d first n (hostBlocks d l n) (dataTiles first n))).1, .ok,
      le 8 l.length ++ le 4 (crc32c l).toNat ++ le 4 0) := by
  subst hl hfirst hn
  unfold State.hostWritten at hb
  rw [State.dataWriteAt]
  dsimp only
  rw [hb]
  dsimp only
  rw [hr]
  rfl
theorem State.dataWriteAt_fails {f : Fail} (hr : (w.runOp {} (hostTiles x d first n (hostBlocks d l n) (dataTiles first n))).2 = .error f) :
    b.dataWriteAt c d k data x = ((w.runOp {} (hostTiles x d first n (hostBlocks d l n) (dataTiles first n))).1, f.st, []) := by
  subst hl hfirst hn
  unfold State.hostWritten at hb
  rw [State.dataWriteAt]
  dsimp only
  rw [hb]
  dsimp only
  rw [hr]
  rfl
end
end

/-! ### REG_READ and REG_WRITE (07 R247; 14 R477) -/

section
variable {s : State} {c : Cmd} {env : Env} {ptr : Addr} {n o : Nat} {v : BitVec 64} {m : Coord}

theorem State.clearRc_rest (s : State) (off : Nat) (lo hi : Bool) :
    s.clearRc off lo hi = { s with lnk := (s.clearRc off lo hi).lnk, cqs := (s.clearRc off lo hi).cqs } := by
  unfold State.clearRc
  dsimp only
  split
  · rfl
  · split
    · rfl
    · split <;> rfl

theorem State.readRegs_noSlot (h : s.regSlot o = none) (ha : o % 8 = 0) (hn : 0 < n) : s.readRegs o n = (s, none) := by
  obtain ⟨n, rfl⟩ := Nat.exists_eq_succ_of_ne_zero (Nat.ne_of_gt hn)
  rw [State.readRegs, s.regRead_noSlot true (by rwa [Nat.div_mul_cancel (Nat.dvd_of_mod_eq_zero ha)])]

theorem State.readRegs_one (h : s.regSlot o = some v) (ha : o % 8 = 0) : s.readRegs o 1 = (s.clearRc o true true, some (le 8 v.toNat)) := by
  have read : s.regRead o true = (s.clearRc o true true, some v) := by
    rw [s.regRead_wide ha, Nat.div_mul_cancel (Nat.dvd_of_mod_eq_zero ha), State.regRead64, h]
  rw [State.readRegs, read]
  exact congrArg (fun l => (s.clearRc o true true, some l)) (List.append_nil _)

section
variable (hp : ptr = BitVec.ofNat 64 (fld c.req.payload 0 8)) (hn : n = fld c.req.payload 8 4)
include hn

theorem State.hostRegRead_empty (h : n = 0) : s.hostRegRead c env = (s, .ok, []) := if_pos (hn.symm.trans h)

variable (hpos : 0 < n)
include hp hpos

/-- Only register space is read. -/
theorem State.hostRegRead_otherSpace (h : resolve s.dp.coord ptr = none ∨ ∃ sp o, resolve s.dp.coord ptr = some (.here sp o) ∧ sp ≠ 1) :
    s.hostRegRead c env = (s, .bounds, []) := by
  subst hp hn
  rw [State.hostRegRead, if_neg (Nat.ne_of_gt hpos)]
  rcases h with h | ⟨sp, o, h, hsp⟩
  · rw [h]
  · rw [h]
    split
    · next heq =>
      cases heq
      exact absurd rfl hsp
    · next heq => cases heq
    · rfl

section
variable (hr : resolve s.dp.coord ptr = some (.here 1 o))
include hr

theorem State.hostRegRead_reads {y : State} {l : List Byte} (h : s.readRegs o n = (y, some l)) : s.hostRegRead c env = (y, .ok, l) := by
  subst hp hn
  simp only [State.hostRegRead, if_neg (Nat.ne_of_gt hpos), hr, h]
theorem State.hostRegRead_fails {y : State} (h : s.readRegs o n = (y, none)) : s.hostRegRead c env = (y, .bounds, []) := by
  subst hp hn
  simp only [State.hostRegRead, if_neg (Nat.ne_of_gt hpos), hr, h]
end

section
variable (hr : resolve s.dp.coord ptr = some (.far m 1 o))
include hr

theorem State.hostRegRead_farUnaligned (ha : o % 8 ≠ 0) : s.hostRegRead c env = (s, .bounds, []) := by
  subst hp hn
  rw [State.hostRegRead, if_neg (Nat.ne_of_gt hpos), hr]
  exact if_pos ha

variable (ha : o % 8 = 0)
include ha

theorem State.hostRegRead_noRoute {st : Status} (hs : (s.ctx env .ovind).route m = st) (h : st ≠ .ok) :
    s.hostRegRead c env = ({ s with dp := s.dp.upsets env.upsets }, st, []) := by
  subst hp hn
  simp only [State.hostRegRead, if_neg (Nat.ne_of_gt hpos), hr]
  rw [if_neg (not_not_intro ha), State.runOp, Op.exec_bind_error (Op.exec_needOk_fails (hs.symm ▸ h) ..), hs]

/-- The registers of another module come by remote read. -/
theorem State.hostRegRead_remote {y : State} {words : Op (List Byte)} {l : List Byte} (hs : (s.ctx env .ovind).route m = .ok)
    (hy : y = { s with dp := (s.dp.upsets env.upsets).send (.remoteRead ptr (BitVec.ofNat 32 (8 * n))) })
    (hw : words = remoteWords (s.ctx env .ovind) (ptr - BitVec.ofNat 64 (o % 32)) 0 (wordCount o (8 * n)))
    (h : (y.runOp {} words).2 = .ok l) : s.hostRegRead c env = ((y.runOp {} words).1, .ok, slice l (o % 32) (8 * n)) := by
  subst hy
  have run : words.exec ((s.dp.upsets env.upsets).send (.remoteRead ptr (BitVec.ofNat 32 (8 * n)))) = (_, .ok l) := Prod.ext rfl h
  subst hp hn hw
  simp only [State.hostRegRead, if_neg (Nat.ne_of_gt hpos), hr]
  rw [if_neg (not_not_intro ha), State.runOp, Op.exec_bind (Op.exec_needOk hs ..), Op.exec_bind (Op.exec_modify ..),
    Op.exec_bind run, Op.exec_pure]
  rfl
end
end

section
variable {p : Port} {v m : BitVec 64} {w : RegW}

theorem State.ownerWrite_refused (h : o % 8 ≠ 0 ∨ s.regSlot o = none ∨ s.ownerGrant p o = none) : s.ownerWrite p o w = (s, .bounds) := by
  unfold State.ownerWrite
  split
  · rfl
  · next hs => rw [(or_assoc.2 h).resolve_left hs]

theorem State.hostRegWrite_otherSpace (hp : ptr = BitVec.ofNat 64 (fld c.req.payload 0 8)) (h : ∀ o, resolve s.dp.coord ptr ≠ some (.here 1 o)) :
    s.hostRegWrite c = (s, .bounds, []) := by
  subst hp
  unfold State.hostRegWrite
  dsimp only
  split
  · next heq => exact absurd heq (h _)
  · rfl

theorem State.hostRegWrite_writes {y : State} {st : Status} (hp : ptr = BitVec.ofNat 64 (fld c.req.payload 0 8)) (hr : resolve s.dp.coord ptr = some (.here 1 o))
    (h : s.ownerWrite c.port o { v := BitVec.ofNat 64 (fld c.req.payload 8 8), mask := BitVec.ofNat 64 (fld c.req.payload 16 8) } = (y, st)) :
    s.hostRegWrite c = (y, st, []) := by
  subst hp
  simp only [State.hostRegWrite, hr, h]

/-- The owner host may write the watchdog's limit. -/
theorem ownerWrite_wdgCtrl (s : State) (p : Port) (v : BitVec 64) :
    s.ownerWrite p 0xA00000 { v, mask := 0xFFFF#64 } = (s.writeWdg 0 { v, mask := 0xFFFF#64 }, .ok) := by
  have slot : s.regSlot 0xA00000 = some (pk [(s.wdg.limitMs.toNat, 0)]) := rfl
  have grant : s.ownerGrant p 0xA00000 = some (0xFFFF#64, 0#64) := rfl
  rw [State.ownerWrite, slot, if_neg (by simp), grant]
  dsimp only
  rw [BitVec.and_zero, if_neg (show ¬ 0#64 ≠ 0 from not_not_intro rfl), if_neg (by decide), BitVec.and_self]
  rfl
theorem State.writeWdg_limit {x : Nat} (h1 : 1 ≤ x) (h2 : x ≤ 1000) : s.writeWdg 0 { v := BitVec.ofNat 64 x, mask := 0xFFFF#64 } =
    { s with wdg := { s.wdg with limitMs := BitVec.ofNat 16 x } } := by
  have field : ({ v := BitVec.ofNat 64 x, mask := 0xFFFF#64 } : RegW).field 0 s.wdg.limitMs = BitVec.ofNat 16 x := by
    have covers : (0xFFFF#64).extractLsb' 0 16 = BitVec.allOnes 16 := by decide
    have value : (BitVec.ofNat 64 x).extractLsb' 0 16 = BitVec.ofNat 16 x := by
      refine BitVec.eq_of_toNat_eq ?_
      simp only [BitVec.extractLsb'_toNat, BitVec.toNat_ofNat, Nat.shiftRight_zero]
      omega
    unfold RegW.field
    dsimp only
    rw [covers, value, BitVec.not_allOnes, BitVec.and_zero, BitVec.zero_or, BitVec.and_allOnes]
  have small : (BitVec.ofNat 16 x).toNat = x := Nat.mod_eq_of_lt (by omega)
  unfold State.writeWdg
  dsimp only
  rw [if_pos rfl, field, if_pos (by rw [small]; exact ⟨h1, h2⟩)]
end
end

/-- The flag of a request as the model reads it. -/
theorem bitOf_toNat {n : Nat} (x : BitVec n) (i : Nat) : bitOf x.toNat i = x.getLsbD i := by
  rw [← BitVec.testBit_toNat, Nat.testBit_eq_decide_div_mod_eq]
  rfl

/-- Settles O52: a command that runs completes on the state its operation leaves (`Completes`); which one that is, by the equations of its own. -/
theorem dataCommandsMoveDryDataOnly : Obligations.DataCommandsMoveDryDataOnly := by
  intro s seq c env data l r d o w k n first ptr v f x y b m st
  refine ⟨?idle, ?noneWaits, ?empty, ?read, ?write, ?regRead, ?regWrite⟩
  case idle =>
    simp only [List.forall_mem_cons, List.not_mem_nil, false_imp_iff, implies_true, and_true]
    exact ⟨fun h => next_congr (State.dataRead_idle h), fun h => next_congr (State.runCmd_idle h), fun h => next_congr (State.runCmd_idle h),
      fun h => next_congr (State.runCmd_idle h)⟩
  case noneWaits => exact fun h => ⟨next_congr (State.dataReadRelease_idle h), next_congr (State.dataReadTimeout_idle h)⟩
  case empty =>
    intro h hn
    obtain ⟨answered, -, mem, -⟩ := State.readDone_sends h.only h.live s.dp [] 0 rfl
    exact ⟨_, next_congr (State.dataRead_empty h.ready hn), answered, mem⟩
  case read =>
    intro hp hr
    subst hp
    replace hr : r = s.fetchOf c env := hr
    subst hr
    have wetDone (w : State) (hm : w.mbx = s.mbx) (ho : (s.mbx.cmds.find? fun x => x.seq == c.seq) = some c) (hl : c.live = true) (k : Nat) :=
      And.intro (State.hostReadWet_completes (w := w) ho hl (congrArg Mbx.cmds hm) k) (State.hostReadWet_flag (w := w) ho hl (congrArg Mbx.cmds hm) k)
    refine ⟨fun h hn => ⟨fun hr => ?dry, fun hr hf => ?wetFails, fun hr hf => ?wetWaits, fun hr hf => ?fails⟩,
      fun h => ⟨fun hr => ?releaseDry, fun hr => ?releaseWet, fun hr hf => ?releaseFails, ?timeout⟩⟩
    case dry =>
      exact ⟨_, next_congr (State.dataRead_dry h.ready hn hr), State.readDone_sends h.only h.live (s.fetchOf c env).1.dp l 0 rfl⟩
    case wetFails =>
      have wet := State.dataRead_wet h.ready hn hr
      rw [bitOf_toNat, if_pos hf] at wet
      obtain ⟨done, flag⟩ := wetDone (s.fetchOf c env).1 rfl h.only h.live _
      exact ⟨_, next_congr wet, done.answered, flag, done.mem, done.rest⟩
    case wetWaits =>
      have wet := State.dataRead_wet h.ready hn hr
      rw [bitOf_toNat, if_neg (by rw [hf]; exact Bool.false_ne_true)] at wet
      have waits := State.heldRead_waits (w := (s.fetchOf c env).1) h rfl
      rw [State.fetchOf, State.runOp_dataFetch_now] at waits
      exact ⟨_, next_congr wet, fun p n => rfl, ⟨_, waits, rfl⟩, rfl⟩
    case fails =>
      have done := State.finish_completes (w := (s.fetchOf c env).1) (resp := []) h.only h.live rfl hf
      exact ⟨_, next_congr (State.dataRead_fails h.ready hn hr), done.answered, done.mem, done.rest⟩
    case releaseDry =>
      exact ⟨_, next_congr (State.dataReadRelease_dry h.waits hr), State.readDone_sends h.only h.live (s.fetchOf c env).1.dp l (spanUs c.since s.dp.now) rfl⟩
    case releaseWet =>
      exact next_congr (State.dataReadRelease_wet h.waits hr)
    case releaseFails =>
      have done := State.finish_completes (w := (s.fetchOf c env).1) (resp := []) h.only h.live rfl hf
      exact ⟨_, next_congr (State.dataReadRelease_fails h.waits hr), done.answered, done.mem, done.rest⟩
    case timeout =>
      obtain ⟨done, flag⟩ := wetDone s rfl h.only h.live (s.tdPartOf (BitVec.ofNat 64 (fld c.req.payload 0 8)) {})
      exact ⟨_, next_congr (State.dataReadTimeout_waits h.waits), done.answered, flag, done.mem, done.rest⟩
  case write =>
    intro h hp hfirst hn
    refine ⟨fun hz => ?none, fun hpos hk hx => ⟨fun hr hf hok => ?unchecked, fun hr hl => ?checked⟩⟩
    case none => exact ⟨_, rfl, State.runCmd_answers h (State.dataWrite_empty (hn ▸ hz)) (by decide) rfl⟩
    case unchecked =>
      have done := State.runCmd_completes (f := fun c => s.dataWrite c data env) h (State.dataWrite_fails hp hfirst hn hpos hk hx hr) rfl hf (if_neg hok)
      exact ⟨_, rfl, done.answered, done.mem, done.rest⟩
    case checked =>
      have checked := State.dataWrite_checked (data := data) hp hfirst hn hpos hk hx hr
      have ran : b = (s.runOp env (dataRange x true ptr first n)).1 := (congrArg Prod.fst hr).symm
      subst ran
      refine ⟨fun hw h0 h1 h2 => ?differs, fun hw hb => ?agrees⟩
      case differs =>
        subst hw
        have done := State.runCmd_completes (f := fun c => s.dataWrite c data env) h (checked.trans (State.dataWriteAt_differs hl hn (State.batchOk_differs h0 h1 h2)))
          (congrArg Mbx.cmds State.stopJob_mbx) (by decide) rfl
        exact ⟨_, rfl, done.answered, done.job k ▸ State.stopJob_job.1, done.job k ▸ State.stopJob_job.2, fun i hi => (done.job i).trans (State.stopJob_job_ne hi),
          done.mem.trans State.stopJob_mem⟩
      case agrees =>
        subst hw
        obtain ⟨j, logs, same, logged⟩ := State.batchOk_agrees (s := (s.runOp env (dataRange x true ptr first n)).1.hostWritten c l) (crc := crc32c l) hb
        refine ⟨fun e he => ?writes, fun he hf hok => ?fails⟩
        case writes =>
          have done := State.runCmd_completes (f := fun c => s.dataWrite c data env) h (checked.trans (State.dataWriteAt_writes hl hfirst hn logs he)) rfl (by decide) rfl
          refine ⟨_, rfl, done.answered, done.mem, fun h0 => done.jobs.trans (same h0), fun h0 => ?_, ?_⟩
          · rw [State.job, done.jobs]
            exact logged h0
          · rw [done.jobs, done.portRun]
            exact done.rest
        case fails =>
          have done := State.runCmd_completes (f := fun c => s.dataWrite c data env) h (checked.trans (State.dataWriteAt_fails hl hfirst hn logs he)) rfl hf (if_neg hok)
          exact ⟨_, rfl, done.answered, done.mem⟩
  case regRead =>
    intro h hp hn
    refine ⟨fun hz => ?none, fun hpos hr => ?otherSpace, fun hpos hr => ⟨fun hy => ?reads, fun hy => ?fails, fun hs ha => ?noSlot, fun h1 ha hs => ?one⟩,
      fun hpos hr => ⟨fun ha => ?farUnaligned, fun ha hs hf => ?noRoute, fun ha hs hy hw => ?remote⟩⟩
    case none =>
      exact ⟨_, rfl, State.runCmd_answers h (State.hostRegRead_empty hn hz) (by decide) rfl⟩
    case otherSpace =>
      exact ⟨_, rfl, State.runCmd_answers h (State.hostRegRead_otherSpace hp hn hpos hr) (by decide) rfl⟩
    case reads =>
      exact next_congr ((State.runCmd_ready _ h).trans (by rw [State.hostRegRead_reads hp hn hpos hr hy]; rfl))
    case fails =>
      exact next_congr ((State.runCmd_ready _ h).trans (by rw [State.hostRegRead_fails hp hn hpos hr hy]; rfl))
    case noSlot =>
      exact ⟨_, rfl, State.runCmd_answers h (State.hostRegRead_fails hp hn hpos hr (State.readRegs_noSlot hs ha hpos)) (by decide) rfl⟩
    case one =>
      have cleared := s.clearRc_rest o true true
      have read := State.readRegs_one hs ha
      rw [← h1] at read
      have done := State.runCmd_completes (f := fun c => s.hostRegRead c env) h (State.hostRegRead_reads hp hn hpos hr read) (by rw [cleared]) (by decide) rfl
      exact ⟨_, rfl, done.answered, (congrArg Mem.bytes done.mem).trans (by rw [cleared])⟩
    case farUnaligned =>
      exact ⟨_, rfl, State.runCmd_answers h (State.hostRegRead_farUnaligned hp hn hpos hr ha) (by decide) rfl⟩
    case noRoute =>
      have done := State.runCmd_completes (f := fun c => s.hostRegRead c env) h (State.hostRegRead_noRoute (env := env) hp hn hpos hr ha rfl hs) rfl hf (if_neg hs)
      exact ⟨_, rfl, done.answered, done.rest⟩
    case remote =>
      have done := State.runCmd_completes (f := fun c => s.hostRegRead c env) h (State.hostRegRead_remote hp hn hpos hr ha hs hy rfl hw) (by rw [hy]; rfl) (by decide) rfl
      exact ⟨_, rfl, done.answered, done.rest.trans (by rw [hy]; rfl)⟩
  case regWrite =>
    intro h hp
    refine ⟨fun hr => ?otherSpace, fun hr => ⟨fun ho => ?refused, fun hy => ?writes, fun ho h1 h2 hm => ?limit⟩⟩
    case otherSpace =>
      exact ⟨_, rfl, State.runCmd_answers h (State.hostRegWrite_otherSpace hp hr) (by decide) rfl⟩
    case refused =>
      exact ⟨_, rfl, State.runCmd_answers h (State.hostRegWrite_writes hp hr (State.ownerWrite_refused ho)) (by decide) rfl⟩
    case writes =>
      exact next_congr ((State.runCmd_ready _ h).trans (by rw [State.hostRegWrite_writes hp hr hy]; exact congrArg _ (ite_self _)))
    case limit =>
      subst ho
      have writes := State.hostRegWrite_writes hp hr (hm.symm ▸ (ownerWrite_wdgCtrl s c.port _).trans (by rw [State.writeWdg_limit h1 h2]))
      have done := State.runCmd_completes h writes rfl (by decide) rfl
      refine ⟨_, rfl, done.answered, ?_, ?_, ?_⟩
      · rw [done.wdg]
      · rw [done.wdg]
        exact Nat.mod_eq_of_lt (by omega)
      · rw [done.wdg]
        exact done.rest

end Sys2Proof.Machine
